-- ==== Sys2Proof/Word.lean ====
section
/-! DEFINITION. Words of the BZ-4320: an instruction word, a register payload and a memory word are 64 bits (R21, R64, R74). -/

namespace Sys2Proof

/-- One byte of memory. -/
abbrev Byte := BitVec 8

/-- A 64-bit word: a register payload (R64), an instruction word (R21) or a memory word (R74). -/
abbrev Word := BitVec 64

end Sys2Proof
end

