-- ==== Sys2Proof/Machine/Bits.lean ====
section
/-! DEFINITION. Bit fields, sign extension, byte order, and the sparse maps that hold numbered state. -/

namespace Sys2Proof.Machine

open Sys2Proof

/-- Bits [lo+n-1 : lo] of a number. -/
def bitsOf (x lo n : Nat) : Nat := (x >>> lo) % 2 ^ n

/-- Bits [lo+n-1 : lo] of a word. -/
def fld (w : Word) (lo n : Nat) : Nat := bitsOf w.toNat lo n

/-- Bit i of a word. -/
def bitAt (w : Word) (i : Nat) : Bool := w.toNat.testBit i

/-- The word with bit i set to b. -/
def setBit (w : Word) (i : Nat) (b : Bool) : Word :=
  let m : Word := BitVec.ofNat 64 (2 ^ i)
  if b then w ||| m else w &&& ~~~ m

/-- A word of the number n modulo 2^64. -/
def wd (n : Nat) : Word := BitVec.ofNat 64 n

/-- The n low bits of x read as two's complement. -/
def sextN (x n : Nat) : Int :=
  let y := x % 2 ^ n
  if 2 ^ n ≤ 2 * y then (y : Int) - (2 ^ n : Nat) else (y : Int)

/-- The word of an integer, modulo 2^64. -/
def wdInt (i : Int) : Word := BitVec.ofInt 64 i

/-- Number of set bits of the low n bits of x. -/
def popN (x : Nat) : Nat → Nat
  | 0 => 0
  | n + 1 => popN x n + (if x.testBit n then 1 else 0)

/-- x rounded up to a multiple of n. -/
def roundUpTo (x n : Nat) : Nat := (x + (n - 1)) / n * n

/-- The quotient rounded up. -/
def ceilDiv (x n : Nat) : Nat := (x + (n - 1)) / n

/-- Little-endian value of a list of bytes (R21): the first byte is bits [7:0]. -/
def leNat : List Byte → Nat
  | [] => 0
  | b :: r => b.toNat + 256 * leNat r

/-- The n bytes of x, the low byte first. -/
def leBytes : Nat → Nat → List Byte
  | 0, _ => []
  | n + 1, x => BitVec.ofNat 8 x :: leBytes n (x / 256)

/-! ## Sparse maps: state numbered by a key, in one canonical form -/

/-- Entries in rising key order; a key without an entry reads as the map's default. -/
abbrev Sparse (α : Type) := List (Nat × α)

/-- The value at key k, or the default d. -/
def spGet {α : Type} (d : α) : Sparse α → Nat → α
  | [], _ => d
  | (j, v) :: r, k => if j = k then v else spGet d r k

/-- Insert or replace the entry at key k. -/
def spPut {α : Type} (k : Nat) (v : α) : Sparse α → Sparse α
  | [] => [(k, v)]
  | (j, u) :: r =>
    if k < j then (k, v) :: (j, u) :: r
    else if k = j then (k, v) :: r
    else (j, u) :: spPut k v r

/-- Remove every entry at key k. -/
def spDel {α : Type} (k : Nat) : Sparse α → Sparse α
  | [] => []
  | (j, u) :: r => if j = k then spDel k r else (j, u) :: spDel k r

/-- Write v at key k; writing the default removes the entry. -/
def spSet {α : Type} [DecidableEq α] (d : α) (m : Sparse α) (k : Nat) (v : α) : Sparse α :=
  if v = d then spDel k m else spPut k v m

/-- Keys strictly rise from lo on, and no entry equals the default. -/
def spOrdered {α : Type} [DecidableEq α] (d : α) : Nat → Sparse α → Bool
  | _, [] => true
  | lo, (k, v) :: r => decide (lo ≤ k) && decide (v ≠ d) && spOrdered d (k + 1) r

/-- The canonical form of a sparse map. -/
def spWf {α : Type} [DecidableEq α] (d : α) (m : Sparse α) : Bool := spOrdered d 0 m

/-- The keys of the entries. -/
def spKeys {α : Type} (m : Sparse α) : List Nat := m.map (·.1)

/-- Apply f to the value at key k. -/
def spUpd {α : Type} [DecidableEq α] (d : α) (m : Sparse α) (k : Nat) (f : α → α) : Sparse α :=
  spSet d m k (f (spGet d m k))

end Sys2Proof.Machine
end

