-- ==== Sys2Proof/Syntax.lean ====
section
/-! DEFINITION. The instruction set: operands, modifiers, and one constructor of Instr for each row of the opcode table.
Rows that are steps of the device itself (events) are constructors as well, with what the acting party supplies as arguments. -/

namespace Sys2Proof

/-- The sixteen value tags of R68, in the order of their codes. -/
inductive Tag
  | nil | int | f64 | f32 | f16 | bf16 | pk8 | pk16 | pk4 | sym | ref | tile | fwd | ptr | pend | poison
deriving DecidableEq, Repr

/-- A tagged value: a 4-bit tag beside a 64-bit payload (R64). -/
structure Val where
  tag : Tag
  pay : Word
deriving DecidableEq, Repr

/-- An 8-bit register field (R29): v0-v127, s0-s63 or the NIL constant. -/
inductive Reg
  | lane (n : BitVec 7)
  | uni (n : BitVec 6)
  | nil
deriving DecidableEq, Repr

/-- A mask number m0-m11 (R33). -/
abbrev MaskNo := Fin 12

/-- The common header of R22: B, STALL and MASK (none: MASK 15). -/
structure Hdr where
  b : Bool
  stall : BitVec 4
  mask : Option MaskNo
deriving DecidableEq, Repr

/-- Element formats of MOD (R36). -/
inductive Elt
  | i8 | i4 | tap8 | tap6 | bf16 | f16 | i16
deriving DecidableEq, Repr

/-- Rounding modes (R38). -/
inductive Rnd
  | rn | rz | ru | rd | ra
deriving DecidableEq, Repr

/-- Conditions of CMP, CMPM and CMPI (R38). -/
inductive Cc
  | eq | ne | lt | le | gt | ge | unord | tageq
deriving DecidableEq, Repr

/-- Targets of CVT (R37). -/
inductive CvtTgt
  | int | f64 | f32 | f16 | bf16 | tap8 | tap6 | i8 | i4 | se8
deriving DecidableEq, Repr

/-- Memory formats (R56). -/
inductive MFmt
  | s8 | z8 | s16 | z16 | s32 | z32 | i64 | ptr | f16 | bf16 | f32 | f64 | pk8 | pk16 | pk4
deriving DecidableEq, Repr

/-- Tile formats (R56). -/
inductive TFmt
  | i8 | i4 | tap8 | tap6 | bf16 | f16 | f32 | f64 | i16 | i32 | se8
deriving DecidableEq, Repr

/-- Scopes 0-6 (R5). -/
inductive Scope
  | warp | core | cluster | die | package | fabric | system
deriving DecidableEq, Repr

/-- ORD (R56): plain, acquire, release, both. -/
inductive Ord4
  | plain | acq | rel | acqrel
deriving DecidableEq, Repr

/-- Swizzle modes (R192). -/
inductive Swz
  | lin | xor | fold
deriving DecidableEq, Repr

/-- SPARSE of a tile (R201). -/
inductive Sparsity
  | dense | sp8 | sp4
deriving DecidableEq, Repr

/-- OPX of the atomics (R43). -/
inductive AOp
  | add | min | max | and | or | xor | swap | cas | fadd | fadd64
deriving DecidableEq, Repr

/-- MSET kinds (R168), MOPS operations (R169), VOTE (R173), REDUX and SCANX (R174), SIGNAL (R325). -/
inductive MsetKind
  | exec | all | zero | nz | bits
deriving DecidableEq, Repr

/-- MOPS operations of R169. -/
inductive MopsOp
  | and | or | xor | andn | not | copy
deriving DecidableEq, Repr

/-- VOTE operations of R173. -/
inductive VoteOp
  | any | all | ballot
deriving DecidableEq, Repr

/-- REDUX and SCANX operations of R174. -/
inductive RedOp
  | add | min | max | and | or | xor
deriving DecidableEq, Repr

/-- SIGNAL operations of R325. -/
inductive SigOp
  | set | add | or
deriving DecidableEq, Repr

/-- CPY modes of R235. -/
inductive CpyMode
  | lin | d2 | gth | tap6 | qnt
deriving DecidableEq, Repr

/-- COND and B of a C-format instruction (R41). -/
inductive Cond
  | always
  | nz (r : Reg)
  | z (r : Reg)
  | ms (m : MaskNo)
  | mc (m : MaskNo)
  | uniform (r : Reg)
deriving DecidableEq, Repr

/-- The lane specials of R65. -/
inductive LSpec
  | laneid | lpc | elpc | lopa | lopb | lopc | ldst | lrpc | lcdepth | estat
  | stk (n : BitVec 4)
deriving DecidableEq, Repr

/-- The warp special registers of R142. -/
inductive WSpec
  | wid | teamid | teamx | teamy | teamz | core | cluster | die | chip | part
  | nurs | nlim | tvec | trapv | cause | eaddr | status | cyc | role | nwarp
deriving DecidableEq, Repr

/-! ## Operand shapes: the fields a format holds beyond the header (R28, R49) -/

/-- D, A with SELA. -/
structure OpUn where
  d : Reg
  a : Reg
  sa : BitVec 4
deriving DecidableEq, Repr

/-- D, A with SELA and an element format. -/
structure OpUnE where
  d : Reg
  a : Reg
  sa : BitVec 4
  e : Elt
deriving DecidableEq, Repr

/-- D, A, B with both selectors. -/
structure OpBin where
  d : Reg
  a : Reg
  b : Reg
  sa : BitVec 4
  sb : BitVec 4
deriving DecidableEq, Repr

/-- D, A, B with both selectors and an element format. -/
structure OpBinE where
  d : Reg
  a : Reg
  b : Reg
  sa : BitVec 4
  sb : BitVec 4
  e : Elt
deriving DecidableEq, Repr

/-- D, A, B, C with both selectors and an element format. -/
structure OpTerE where
  d : Reg
  a : Reg
  b : Reg
  c : Reg
  sa : BitVec 4
  sb : BitVec 4
  e : Elt
deriving DecidableEq, Repr

/-- D, A, B, C with SELA (BFX, BFI). -/
structure OpField where
  d : Reg
  a : Reg
  b : Reg
  c : Reg
  sa : BitVec 4
deriving DecidableEq, Repr

/-- D, A and a signed 31-bit immediate. -/
structure OpImm where
  d : Reg
  a : Reg
  imm : BitVec 31
deriving DecidableEq, Repr

/-- A conditional control transfer: COND, B and OFF32. -/
structure OpBr where
  cond : Cond
  off : BitVec 32
deriving DecidableEq, Repr

/-- An M-format access (R39): D, base A, index B, SCOPE, ORD, RACQ and OFF13. -/
structure OpMem where
  d : Reg
  a : Reg
  b : Reg
  scope : Scope
  ord : Ord4
  racq : Bool
  off : BitVec 13
deriving DecidableEq, Repr

/-- An M-format access with a memory format. -/
structure OpMemF where
  d : Reg
  a : Reg
  b : Reg
  scope : Scope
  ord : Ord4
  racq : Bool
  fmt : MFmt
  off : BitVec 13
deriving DecidableEq, Repr

/-- PF, CFLUSH, CINV: an address and a scope. -/
structure OpCache where
  a : Reg
  b : Reg
  scope : Scope
  off : BitVec 13
deriving DecidableEq, Repr

/-- A scratchpad access (R232). -/
structure OpScr where
  d : Reg
  a : Reg
  b : Reg
  swz : Swz
  fmt : MFmt
  off : BitVec 13
deriving DecidableEq, Repr

/-- An X-format access to memory (R43). -/
structure OpAtom where
  d : Reg
  a : Reg
  b : Reg
  c : Reg
  scope : Scope
  ord : Ord4
  racq : Bool
  op : AOp
deriving DecidableEq, Repr

/-- X format: D, A, B, C. -/
structure OpX4 where
  d : Reg
  a : Reg
  b : Reg
  c : Reg
deriving DecidableEq, Repr

/-- SIGNAL and WAITS operands (R325, R326). -/
structure OpSig where
  a : Reg
  b : Reg
  scope : Scope
deriving DecidableEq, Repr

/-! ## What a device event carries -/

/-- A firmware image with its version number and its signature (R381). -/
structure Image where
  version : Nat
  bytes : List Byte
  signature : List Byte
deriving DecidableEq, Repr

/-- What a boot finds (R379, R381): the units that fail, supplied by the module's own hardware, the links and CXL ports whose training
fails, the vendor public key, and the four images. -/
structure BootIn where
  channelFail : Bool
  vaultFail : Bool
  bridgeFail : Bool
  linkFail : List Nat
  cxlFail : List Nat
  persistentError : Bool
  imageFail : Bool
  vendorKey : List Byte
  images : List Image
deriving DecidableEq, Repr

/-- An inbound request of a PCI Express function: the bytes of a posted write (R360). -/
structure PcieWrite where
  vf : Option Nat
  bar : Nat
  offset : Nat
  bytes : List Byte
deriving DecidableEq, Repr

/-- Inbound AtomicOps (R360); width in bits. -/
inductive PcieAtomic
  | fetchAdd | swap | cas
deriving DecidableEq, Repr

/-- A request of a peer chip (R366). -/
inductive FabricReq
  | read (size : Nat)
  | write (bytes : List Byte) (tag : Option Tag)
  | atomic (op : AOp) (b c : Val)
deriving DecidableEq, Repr

/-- The structures a soft error can strike (R219, R270, R294, R345, R383). -/
inductive SoftKind
  | register | scratchpad | accumulator | l1 | l2 | vault | lpddr | link | residue | asw
  | instrBuffer | bench | grid | queue | returnSlot | slotCounter | graphCount | network | bridge
deriving DecidableEq, Repr

/-- What a writer addresses with REGISTER_WRITE: a device register with no row of its own. -/
inductive DevReg
  | queue (q off : Nat)
  | control (part off : Nat)
  | service (part off : Nat)
  | collector (core prio : Nat)
  | stream (vf win off : Nat)
  | debug (off : Nat)
  | fat (chip part peer : Nat)
  | decoder (chip n : Nat)
  | route (chip dest : Nat)
  | install (image : Nat)
deriving DecidableEq, Repr

/-! ## The instructions -/

/-- One constructor for each row of the opcode table: the instructions of R49 first, then the device's own steps. -/
inductive Instr
  -- generic arithmetic (R105-R111)
  | add (h : Hdr) (o : OpBinE)
  | sub (h : Hdr) (o : OpBinE)
  | mul (h : Hdr) (o : OpBinE)
  | div (h : Hdr) (o : OpBinE)
  | rem (h : Hdr) (o : OpBinE)
  | fma (h : Hdr) (o : OpTerE)
  | neg (h : Hdr) (o : OpUnE)
  | abs (h : Hdr) (o : OpUnE)
  | min (h : Hdr) (o : OpBinE)
  | max (h : Hdr) (o : OpBinE)
  | clamp (h : Hdr) (o : OpTerE)
  -- compares (R112)
  | cmp (h : Hdr) (cc : Cc) (o : OpBinE)
  | cmpm (h : Hdr) (cc : Cc) (m : MaskNo) (a b : Reg) (sa sb : BitVec 4) (e : Elt)
  | cmpi (h : Hdr) (cc : Cc) (d a : Reg) (imm : BitVec 28)
  -- transcendental functions and FRND (R114-R116)
  | sqrt (h : Hdr) (o : OpUn)
  | rcp (h : Hdr) (o : OpUn)
  | rsq (h : Hdr) (o : OpUn)
  | exp2 (h : Hdr) (o : OpUn)
  | log2 (h : Hdr) (o : OpUn)
  | sin (h : Hdr) (o : OpUn)
  | cos (h : Hdr) (o : OpUn)
  | tanh (h : Hdr) (o : OpUn)
  | frnd (h : Hdr) (rm : Rnd) (o : OpUn)
  | dot (h : Hdr) (o : OpTerE)
  -- conversions (R118-R123)
  | cvt (h : Hdr) (tgt : CvtTgt) (rm : Rnd) (o : OpUn)
  | pack (h : Hdr) (rm : Rnd) (o : OpBinE)
  | unpk (h : Hdr) (o : OpUnE)
  | scaleq (h : Hdr) (d a : Reg) (e : Elt)
  | qnt (h : Hdr) (rm : Rnd) (d a b : Reg) (e : Elt)
  -- tags (R124-R126)
  | tagof (h : Hdr) (d a : Reg)
  | tagas (h : Hdr) (t : Tag) (d a : Reg)
  | tagm (h : Hdr) (t : Tag) (m : MaskNo) (a : Reg)
  -- bitwise, shifts, fields (R127-R134)
  | and (h : Hdr) (o : OpBin)
  | or (h : Hdr) (o : OpBin)
  | xor (h : Hdr) (o : OpBin)
  | not (h : Hdr) (o : OpUn)
  | andi (h : Hdr) (o : OpImm)
  | ori (h : Hdr) (o : OpImm)
  | xori (h : Hdr) (o : OpImm)
  | shl (h : Hdr) (o : OpBin)
  | shr (h : Hdr) (o : OpBin)
  | sar (h : Hdr) (o : OpBin)
  | rol (h : Hdr) (o : OpBin)
  | shli (h : Hdr) (d a : Reg) (n : BitVec 6)
  | shri (h : Hdr) (d a : Reg) (n : BitVec 6)
  | popc (h : Hdr) (o : OpUn)
  | clz (h : Hdr) (o : OpUn)
  | ctz (h : Hdr) (o : OpUn)
  | brev (h : Hdr) (o : OpUn)
  | bfx (h : Hdr) (o : OpField)
  | bfi (h : Hdr) (o : OpField)
  | mulh (h : Hdr) (o : OpBin)
  | addw (h : Hdr) (o : OpBin)
  | subw (h : Hdr) (o : OpBin)
  | mulw (h : Hdr) (o : OpBin)
  | lea (h : Hdr) (n : Fin 5) (o : OpBin)
  | ptrd (h : Hdr) (o : OpBin)
  -- moves (R135-R140)
  | mov (h : Hdr) (o : OpUn)
  | movi (h : Hdr) (d : Reg) (imm : BitVec 31)
  | movf (h : Hdr) (d : Reg) (imm : BitVec 31)
  | movl (h : Hdr) (t : Tag) (d : Reg) (lit : Word)
  | sel (h : Hdr) (m : MaskNo) (o : OpBin)
  | getl (h : Hdr) (x : LSpec) (d : Reg)
  | setl (h : Hdr) (x : LSpec) (a : Reg)
  | addi (h : Hdr) (o : OpImm)
  | muli (h : Hdr) (o : OpImm)
  -- control transfers and meeting points (R164-R167)
  | bra (h : Hdr) (o : OpBr)
  | call (h : Hdr) (o : OpBr)
  | ret (h : Hdr) (c : Cond)
  | jmpi (h : Hdr) (b : Reg)
  | exit (h : Hdr) (c : Cond)
  | lcall (h : Hdr) (o : OpBr)
  | join (h : Hdr) (m : MaskNo)
  | leave (h : Hdr) (m : MaskNo)
  -- masks (R168-R171)
  | mset (h : Hdr) (k : MsetKind) (m : MaskNo) (a : Reg)
  | mops (h : Hdr) (k : MopsOp) (d a b : MaskNo)
  | mget (h : Hdr) (d : Reg) (m : MaskNo)
  | elect (h : Hdr) (m : MaskNo)
  -- cross-lane (R172-R176)
  | shfl (h : Hdr) (d a b : Reg)
  | shflx (h : Hdr) (d a : Reg) (k : BitVec 6)
  | bcast (h : Hdr) (d a b : Reg)
  | vote (h : Hdr) (k : VoteOp) (d a : Reg)
  | redux (h : Hdr) (k : RedOp) (d a : Reg)
  | scanx (h : Hdr) (k : RedOp) (excl : Bool) (d a : Reg)
  -- handlers, nursery, specials, traps (R177-R183)
  | lret (h : Hdr) (a : Reg)
  | alloc (h : Hdr) (d a : Reg)
  | gets (h : Hdr) (x : WSpec) (d : Reg)
  | sets (h : Hdr) (x : WSpec) (a : Reg)
  | trap (h : Hdr) (n : BitVec 16)
  | bkpt (h : Hdr) (n : BitVec 16)
  | tret (h : Hdr)
  | nop (h : Hdr)
  | yield (h : Hdr)
  | sleep (h : Hdr) (n : BitVec 16)
  -- warp and core events
  | sleepExpiry (w : Nat)
  | trapEntry (w : Nat)
  | runSelect (core part : Nat)
  | resultArrival (core slot : Nat)
  | instructionFill (core line : Nat)
  | translationWalkDone (w : Nat)
  -- memory (R224-R231)
  | ld (h : Hdr) (o : OpMem)
  | st (h : Hdr) (o : OpMem)
  | ldr (h : Hdr) (o : OpMemF)
  | str (h : Hdr) (o : OpMemF)
  | lr (h : Hdr) (o : OpMem)
  | sc (h : Hdr) (o : OpMem)
  | fence (h : Hdr) (ord : Ord4) (scope : Scope) (racq : Bool)
  | pf (h : Hdr) (o : OpCache)
  | cflush (h : Hdr) (o : OpCache)
  | cinv (h : Hdr) (o : OpCache)
  | ldh (h : Hdr) (d a b : Reg) (off : BitVec 13)
  | hcas (h : Hdr) (o : OpX4) (ord : Ord4) (scope : Scope) (racq : Bool)
  -- scratchpad (R232, R233)
  | lds (h : Hdr) (o : OpScr)
  | sts (h : Hdr) (o : OpScr)
  | satom (h : Hdr) (op : AOp) (fmt : TFmt) (swz : Swz) (o : OpX4)
  -- tiles, copies, owners (R234-R239)
  | tile (h : Hdr) (fmt : TFmt) (swz : Swz) (sp : Sparsity) (o : OpX4)
  | cpy (h : Hdr) (mode : CpyMode) (out : Bool) (a b c : Reg)
  | copyExecute (core : Nat)
  | give (h : Hdr) (a : Reg)
  | take (h : Hdr) (a : Reg)
  | ownq (h : Hdr) (d a : Reg)
  -- matrix array (R240-R245)
  | mma (h : Hdr) (acc : BitVec 5) (a b : Reg)
  | mmab (h : Hdr) (acc src : BitVec 5) (b : Reg)
  | matrixStep (core : Nat)
  | accz (h : Hdr) (acc : BitVec 5)
  | accw (h : Hdr) (acc : BitVec 5)
  | accld (h : Hdr) (acc : BitVec 5) (a : Reg)
  | accrd (h : Hdr) (acc : BitVec 5) (a : Reg)
  | bndget (h : Hdr) (d : Reg) (acc : BitVec 5)
  | bndset (h : Hdr) (acc : BitVec 5) (a : Reg)
  -- benches (R246, R247)
  | bninit (h : Hdr) (bench pcnt ccnt : BitVec 5)
  | bna (h : Hdr) (bench : BitVec 5)
  | bnw (h : Hdr) (bench : BitVec 5)
  | bnaw (h : Hdr) (bench : BitVec 5)
  -- cluster (R255-R270)
  | atom (h : Hdr) (o : OpAtom)
  | vatom (h : Hdr) (op : AOp) (ef : TFmt) (d a b : Reg) (ord : Ord4) (scope : Scope)
  | mmap (h : Hdr) (acc : BitVec 5) (a b : Reg)
  | pairedStep (core : Nat)
  | aswRequest (cluster : Nat)
  | atomicReply (core slot : Nat)
  | aswStallTimeout (cluster : Nat)
  | aswRestart (cluster : Nat) (intact : List Bool)
  -- die (R281-R292)
  | kvapp (h : Hdr) (a b c : Reg)
  | kvappPerform (n : Nat)
  | ksel (h : Hdr) (sink recent : Bool) (o : OpX4)
  | pageSelect (n : Nat)
  | kselComplete (n : Nat)
  | attn (h : Hdr) (o : OpX4)
  | attnPartial (n : Nat) (block : Nat)
  | attnMerge (n : Nat) (block : Nat)
  | kvxl (h : Hdr) (d a b : Reg)
  -- package (R323-R344)
  | wqry (h : Hdr) (a : Reg)
  | wqryReply (n : Nat)
  | signal (h : Hdr) (op : SigOp) (rel : Bool) (o : OpSig)
  | waits (h : Hdr) (cc : Cc) (acq : Bool) (o : OpSig)
  | waitsRecheck (w : Nat)
  | waitsHostPoll (w : Nat)
  | cmpl (h : Hdr) (a : Reg)
  | dlaunch (h : Hdr) (a b : Reg)
  | kvret (h : Hdr) (a : Reg)
  | svcall (h : Hdr) (n : BitVec 16)
  | svcallReply (w : Nat) (x y : Val)
  | ctxsv (h : Hdr) (a : Reg)
  | ctxld (h : Hdr) (a : Reg)
  | prmt (h : Hdr) (a : Reg)
  | teamStopped (team : Nat)
  | icinv (h : Hdr) (a : Reg)
  -- fabric translation (R368-R371)
  | kvmap (h : Hdr) (a b c : Reg)
  | kvsd (h : Hdr) (a b : Reg)
  | ktbShootdownRequest (chip n : Nat)
  | slotDrained (part seq : Nat)
  -- Dresser
  | teamRelease (team : Nat)
  | teamPlace (grid : Nat)
  | queueTailWrite (q : Nat) (v : BitVec 32)
  | queueCheadWrite (q : Nat) (v : BitVec 32)
  | queueEnableWrite (q : Nat) (v : Word)
  | takeRecord (q : Nat)
  | recordWaitSatisfied (q : Nat)
  | graphNodeComplete (graph node : Nat)
  | loopCondition (graph node : Nat)
  | completionRecordWrite (q : Nat)
  | watchdogReport (w : Nat)
  | partitionRecordWrite (chip part word : Nat) (v : Word)
  | partitionReset (chip part : Nat)
  | ptrootWrite (part : Nat) (v : Word)
  | tbgo (part : Nat)
  | regionTableWrite (part : Nat) (v : Word)
  -- host link
  | priResponse (part iova : Nat) (ok : Bool) (hpa : Nat)
  | atsInvalidation (part iova : Nat)
  | racqPromote (core line : Nat) (scope : Scope)
  | inboundPcieWrite (w : PcieWrite)
  | inboundPcieRead (vf : Option Nat) (bar offset size : Nat)
  | inboundAtomicop (vf : Nat) (offset width : Nat) (op : PcieAtomic) (b c : Word)
  | vfFunctionLevelReset (vf : Nat)
  | streamWindowEnable (vf win : Nat) (v : Word)
  | streamFrameWrite (vf win slot at_ : Nat) (bytes : List Byte)
  | streamPublish (vf win : Nat)
  | streamSkip (vf win : Nat) (seq : Word)
  -- fabric and failures
  | fabricRequest (src chip part : Nat) (pa : Nat) (t : Bool) (r : FabricReq)
  | linkDown (chip link : Nat)
  | networkRetryExhausted (core slot : Nat)
  | remoteHomeLost (chip : Nat)
  | patrolScrub (pa : Nat) (uncorrectable : Bool)
  -- bring-up
  | powerOn (b : BootIn)
  | pfFunctionLevelReset (b : BootIn)
  | getVersion
  | getCapabilities
  | negotiateAlgorithms (offersExt : Bool)
  | getDigests
  | getCertificate (offset len : Nat)
  | challenge (nonce : List Byte)
  | getMeasurements (index : Nat) (signed : Bool) (nonce : List Byte)
  | readctx
  | readmem
  | flushp
  | readtab
  | readq
  | readunit
  | readlog
  | mailboxRequest (part : Nat) (code : Nat) (arg0 arg1 arg2 : Word)
  | registerWrite (chip : Nat) (r : DevReg) (v : Word)
  | l1WriteBack (core sector : Nat)
  | linkRetrain (chip link : Nat)
  | softError (k : SoftKind) (unit addr lane reg : Nat) (correctable : Bool)
  | aswFirmwareHalt (cluster : Nat)
  | teamKill (team : Nat)
  | ktbAcknowledgment (chip n : Nat)
  | markRegionTagged (pa : Nat)
deriving DecidableEq, Repr

end Sys2Proof
end

