-- ==== Sys2Proof/Machine/Limits.lean ====
section
/-! DEFINITION. The limits an instruction's operands and codes must keep to be legal (R31, R33-R44, R45 and the home
descriptions): what the fields' own types do not already say. -/

namespace Sys2Proof.Machine

open Sys2Proof

/-- A lane register. -/
def isLane : Reg → Bool
  | .lane _ => true
  | _ => false

/-- A uniform register. -/
def isUni : Reg → Bool
  | .uni _ => true
  | _ => false

/-- R31: a uniform destination takes no source from a lane register. -/
def uniDst (d : Reg) (srcs : List Reg) : Bool := !isUni d || srcs.all (fun r => !isLane r)

/-- R221, R281, R323: fields that take uniform registers or NIL only. -/
def uniOnly (srcs : List Reg) : Bool := srcs.all (fun r => !isLane r)

/-- The canonical payload of a tag (R68): the bits it requires to be zero, cleared. -/
def canonPay (t : Tag) (p : Word) : Word :=
  match t with
  | .nil => 0
  | .f32 => wd (fld p 0 32)
  | .f16 | .bf16 | .poison => wd (fld p 0 16)
  | .sym => wd (fld p 0 48)
  | .ref | .fwd => wd (fld p 4 44 * 16)
  | _ => p

/-- ORD, SCOPE and RACQ of a load (R39): plain or acquire, no scope when plain, RACQ with an acquire only. -/
def loadOrd (s : Scope) (o : Ord4) (r : Bool) : Bool :=
  match o with
  | .plain => decide (s = .warp) && !r
  | .acq => true
  | _ => false

/-- ORD, SCOPE and RACQ of a store (R39). -/
def storeOrd (s : Scope) (o : Ord4) (r : Bool) : Bool :=
  match o with
  | .plain => decide (s = .warp) && !r
  | .rel => !r
  | _ => false

/-- RACQ needs an acquire (R39, R43). -/
def racqOk (o : Ord4) (r : Bool) : Bool := !r || decide (o = .acq) || decide (o = .acqrel)

/-- The access uses no ordering field at all. -/
def plainMem (s : Scope) (o : Ord4) (r : Bool) : Bool := decide (s = .warp) && decide (o = .plain) && !r

/-- R233: the pairings of OPX and FMT that SATOM accepts. -/
def satomPair (op : AOp) (f : TFmt) : Bool :=
  let int := decide (f = .i8 ∨ f = .i16 ∨ f = .i32)
  let flt := decide (f = .bf16 ∨ f = .f16 ∨ f = .f32 ∨ f = .f64)
  match op with
  | .add | .and | .or | .xor => int
  | .min | .max | .swap | .cas => int || flt
  | .fadd => flt
  | .fadd64 => false

/-- R263: the pairings of OPX and EF that VATOM accepts. -/
def vatomPair (op : AOp) (f : TFmt) : Bool :=
  let int := decide (f = .i8 ∨ f = .i16 ∨ f = .i32)
  let flt := decide (f = .bf16 ∨ f = .f16 ∨ f = .f32)
  match op with
  | .add | .and | .or | .xor => int
  | .min | .max | .swap => int || flt
  | .fadd => flt
  | _ => false

/-- R41: COND 5 takes no lane register. -/
def condOk : Cond → Bool
  | .uniform r => !isLane r
  | _ => true

/-- An unused register field holds zero, the code of v0 (R34). -/
def unusedReg (r : Reg) : Bool := decide (r = .lane 0)

/-- R233, R258: C is a source of CAS and unused otherwise. -/
def casC (op : AOp) (d c : Reg) : Bool :=
  match op with
  | .cas => uniDst d [c]
  | _ => unusedReg c

/-- R142: the warp special registers that SETS may name. -/
def setsOk : WSpec → Bool
  | .nurs | .nlim | .tvec | .trapv | .cause | .eaddr | .status => true
  | _ => false

/-- R65: the lane specials that SETL may name. -/
def setlOk : LSpec → Bool
  | .laneid | .lpc | .lcdepth => false
  | _ => true

/-- R122, R123: element formats of SCALEQ and QNT. -/
def scaleElt (e : Elt) : Bool := decide (e = .i8 ∨ e = .i4 ∨ e = .tap8 ∨ e = .tap6)

/-- The limits of every instruction; an event of the device has no encoding. DESIGN CHOICE (log entry 133): a GETL whose D is NIL is legal
and discards, since R139 names ILL for a uniform D alone and R32 lets NIL discard a result. -/
def legal : Instr → Bool
  | .add _ o | .sub _ o | .mul _ o | .div _ o | .rem _ o | .min _ o | .max _ o => uniDst o.d [o.a, o.b]
  | .fma _ o | .clamp _ o | .dot _ o => uniDst o.d [o.a, o.b, o.c]
  | .neg _ o | .abs _ o | .unpk _ o => uniDst o.d [o.a]
  | .cmp _ _ o => uniDst o.d [o.a, o.b]
  | .cmpm .. => true
  | .cmpi _ _ d a _ => uniDst d [a]
  | .sqrt _ o | .rcp _ o | .rsq _ o | .exp2 _ o | .log2 _ o | .sin _ o | .cos _ o | .tanh _ o => uniDst o.d [o.a]
  | .frnd _ _ o | .cvt _ _ _ o | .not _ o | .popc _ o | .clz _ o | .ctz _ o | .brev _ o | .mov _ o => uniDst o.d [o.a]
  | .pack _ _ o => uniDst o.d [o.a, o.b]
  | .scaleq _ d a e => uniDst d [a] && scaleElt e
  | .qnt _ _ d a b e => uniDst d [a, b] && scaleElt e
  | .tagof _ d a => uniDst d [a]
  | .tagas _ t d a => uniDst d [a] && decide (t ≠ .fwd) && decide (t ≠ .pend)
  | .tagm .. => true
  | .and _ o | .or _ o | .xor _ o | .shl _ o | .shr _ o | .sar _ o | .rol _ o | .mulh _ o | .addw _ o | .subw _ o
  | .mulw _ o | .lea _ _ o | .ptrd _ o | .sel _ _ o => uniDst o.d [o.a, o.b]
  | .andi _ o | .ori _ o | .xori _ o | .addi _ o | .muli _ o => uniDst o.d [o.a]
  | .shli _ d a _ | .shri _ d a _ => uniDst d [a]
  | .bfx _ o | .bfi _ o => uniDst o.d [o.a, o.b, o.c]
  | .movi .. | .movf .. => true
  | .movl _ t _ lit => decide (t ≠ .fwd) && decide (t ≠ .pend) && decide (canonPay t lit = lit)
  | .getl _ _ d => !isUni d
  | .setl _ x _ => setlOk x
  | .bra _ o | .call _ o | .lcall _ o => condOk o.cond
  | .ret _ c | .exit _ c => condOk c
  | .jmpi .. | .join .. | .leave .. => true
  | .mset _ k _ a =>
    match k with
    | .nz => true
    | .bits => !isLane a
    | _ => unusedReg a
  | .mops _ k _ _ b => decide (k ≠ .not ∧ k ≠ .copy) || decide (b = 0)
  | .mget .. | .elect .. => true
  | .shfl _ d _ _ => !isUni d
  | .shflx _ d _ k => !isUni d && decide (k ≠ 0)
  | .bcast _ _ _ b => !isLane b
  | .vote .. | .redux .. => true
  | .scanx _ _ _ d _ => !isUni d
  | .lret .. | .gets .. | .trap .. | .bkpt .. | .tret .. | .nop .. | .yield .. | .sleep .. => true
  | .alloc _ d a => uniDst d [a]
  | .sets _ x _ => setsOk x
  | .ld _ o | .lr _ o => uniDst o.d [o.a, o.b] && loadOrd o.scope o.ord o.racq
  | .ldr _ o => uniDst o.d [o.a, o.b] && loadOrd o.scope o.ord o.racq
  | .st _ o => storeOrd o.scope o.ord o.racq
  | .str _ o => storeOrd o.scope o.ord o.racq
  | .sc _ o => uniDst o.b [o.a, o.d] && storeOrd o.scope o.ord o.racq
  | .fence _ o _ r => decide (o ≠ .plain) && racqOk o r
  | .pf _ o | .cflush _ o | .cinv _ o => decide (o.scope ≠ .warp)
  | .ldh _ d a b _ => uniDst d [a, b]
  | .hcas _ o w _ r => uniDst o.d [o.a, o.b, o.c] && racqOk w r
  | .lds _ o => uniDst o.d [o.a, o.b]
  | .sts .. => true
  | .satom _ op f _ o =>
    uniDst o.d [o.a, o.b] && satomPair op f && casC op o.d o.c
  | .tile _ _ _ _ o => uniDst o.d [o.a, o.b, o.c]
  | .cpy _ m out a b c =>
    uniOnly [a, b] &&
      (match m with
       | .d2 | .gth => !isLane c
       | .qnt => !isLane c && !out
       | _ => unusedReg c)
  | .give _ a | .take _ a => uniOnly [a]
  | .ownq _ _ a => uniOnly [a]
  | .mma _ _ a b => uniOnly [a, b]
  | .mmab _ acc src b => uniOnly [b] && decide (acc ≠ src)
  | .accz .. | .bndget .. => true
  | .accw _ acc => acc.toNat % 2 == 0
  | .accld _ _ a | .accrd _ _ a | .bndset _ _ a => uniOnly [a]
  | .bninit _ _ p c => decide (p.toNat ≤ 16 ∧ c.toNat ≤ 16 ∧ 0 < p.toNat + c.toNat)
  | .bna .. | .bnw .. | .bnaw .. => true
  | .atom _ o =>
    uniDst o.d [o.a, o.b] && racqOk o.ord o.racq && casC o.op o.d o.c
  | .vatom _ op f d a b _ _ => uniDst d [a, b] && vatomPair op f
  | .mmap _ acc a b => uniOnly [a, b] && acc.toNat % 2 == 0
  | .kvapp _ a _ _ => uniOnly [a]
  | .ksel _ _ _ o | .attn _ o => uniOnly [o.d, o.b, o.c]
  | .kvxl _ d a b => uniDst d [a, b]
  | .wqry _ a | .cmpl _ a | .kvret _ a => uniOnly [a]
  | .signal _ _ _ o => uniOnly [o.a, o.b]
  | .waits _ cc _ o => uniOnly [o.a, o.b] && decide (cc ≠ .unord ∧ cc ≠ .tageq)
  | .dlaunch _ a b | .kvsd _ a b => uniOnly [a, b]
  | .kvmap _ a b c => uniOnly [a, b, c]
  | .svcall .. | .ctxsv .. | .ctxld .. | .prmt .. | .icinv .. => true
  | _ => false

end Sys2Proof.Machine
end

