-- ==== Sys2Proof/WellFormed.lean ====
section
/-! DEFINITION. Which terms are instructions a word can hold: those that keep the limits of Machine/Limits.lean. -/

namespace Sys2Proof

/-- A well-formed instruction: one whose operands and codes keep every limit of R31 to R44 and of its home description. -/
abbrev WellFormed (i : Instr) : Prop := Machine.legal i = true

end Sys2Proof
end

