-- ==== Sys2Proof/Decode.lean ====
section
/-! DEFINITION. Decoding of instruction words (R21-R49), total on any bytes, and the encoder written from the same tables.
A word decodes when its fields name an instruction, the instruction keeps its limits, and encoding it gives the word
back: so every reserved field or subfield must be zero (R34). -/

namespace Sys2Proof

open Sys2Proof.Machine

/-- Why bytes hold no instruction. -/
inductive Reject
  | short      -- fewer bytes than the instruction has
  | mask       -- MASK 12-14 (R22)
  | opcode     -- unassigned OP (R48), or a register, mask or code field with no meaning (R29, R33, R35-R44)
  | limits     -- an operand or code outside its limits (R31, R39-R44)
  | reserved   -- a reserved field that is not zero (R34)
deriving DecidableEq, Repr

/-! ## Field codes -/

/-- Tag codes (R68). -/
def tagCode : Tag → Nat
  | .nil => 0
  | .int => 1
  | .f64 => 2
  | .f32 => 3
  | .f16 => 4
  | .bf16 => 5
  | .pk8 => 6
  | .pk16 => 7
  | .pk4 => 8
  | .sym => 9
  | .ref => 10
  | .tile => 11
  | .fwd => 12
  | .ptr => 13
  | .pend => 14
  | .poison => 15

/-- The inverse of tagCode. -/
def tagOf : Nat → Option Tag
  | 0 => some .nil
  | 1 => some .int
  | 2 => some .f64
  | 3 => some .f32
  | 4 => some .f16
  | 5 => some .bf16
  | 6 => some .pk8
  | 7 => some .pk16
  | 8 => some .pk4
  | 9 => some .sym
  | 10 => some .ref
  | 11 => some .tile
  | 12 => some .fwd
  | 13 => some .ptr
  | 14 => some .pend
  | 15 => some .poison
  | _ => none

theorem tagOf_code (x : Tag) : tagOf (tagCode x) = some x := by cases x <;> rfl

theorem tagCode_lt (x : Tag) : tagCode x < 16 := by cases x <;> decide

/-- Element codes of MOD (R36). -/
def eltCode : Elt → Nat
  | .i8 => 0
  | .i4 => 1
  | .tap8 => 2
  | .tap6 => 3
  | .bf16 => 4
  | .f16 => 5
  | .i16 => 8

/-- The inverse of eltCode. -/
def eltOf : Nat → Option Elt
  | 0 => some .i8
  | 1 => some .i4
  | 2 => some .tap8
  | 3 => some .tap6
  | 4 => some .bf16
  | 5 => some .f16
  | 8 => some .i16
  | _ => none

theorem eltOf_code (x : Elt) : eltOf (eltCode x) = some x := by cases x <;> rfl

theorem eltCode_lt (x : Elt) : eltCode x < 16 := by cases x <;> decide

/-- Rounding codes of SUB (R38). -/
def rndCode : Rnd → Nat
  | .rn => 0
  | .rz => 1
  | .ru => 2
  | .rd => 3
  | .ra => 4

/-- The inverse of rndCode. -/
def rndOf : Nat → Option Rnd
  | 0 => some .rn
  | 1 => some .rz
  | 2 => some .ru
  | 3 => some .rd
  | 4 => some .ra
  | _ => none

theorem rndOf_code (x : Rnd) : rndOf (rndCode x) = some x := by cases x <;> rfl

theorem rndCode_lt (x : Rnd) : rndCode x < 8 := by cases x <;> decide

/-- Condition codes (R38). -/
def ccCode : Cc → Nat
  | .eq => 0
  | .ne => 1
  | .lt => 2
  | .le => 3
  | .gt => 4
  | .ge => 5
  | .unord => 6
  | .tageq => 7

/-- The inverse of ccCode. -/
def ccOf : Nat → Option Cc
  | 0 => some .eq
  | 1 => some .ne
  | 2 => some .lt
  | 3 => some .le
  | 4 => some .gt
  | 5 => some .ge
  | 6 => some .unord
  | 7 => some .tageq
  | _ => none

theorem ccOf_code (x : Cc) : ccOf (ccCode x) = some x := by cases x <;> rfl

theorem ccCode_lt (x : Cc) : ccCode x < 8 := by cases x <;> decide

/-- CVT targets of MOD (R37). -/
def cvtCode : CvtTgt → Nat
  | .int => 0
  | .f64 => 1
  | .f32 => 2
  | .f16 => 3
  | .bf16 => 4
  | .tap8 => 5
  | .tap6 => 6
  | .i8 => 7
  | .i4 => 8
  | .se8 => 9

/-- The inverse of cvtCode. -/
def cvtOf : Nat → Option CvtTgt
  | 0 => some .int
  | 1 => some .f64
  | 2 => some .f32
  | 3 => some .f16
  | 4 => some .bf16
  | 5 => some .tap8
  | 6 => some .tap6
  | 7 => some .i8
  | 8 => some .i4
  | 9 => some .se8
  | _ => none

theorem cvtOf_code (x : CvtTgt) : cvtOf (cvtCode x) = some x := by cases x <;> rfl

theorem cvtCode_lt (x : CvtTgt) : cvtCode x < 16 := by cases x <;> decide

/-- Memory formats of FMT (R56). -/
def mfmtCode : MFmt → Nat
  | .s8 => 0
  | .z8 => 1
  | .s16 => 2
  | .z16 => 3
  | .s32 => 4
  | .z32 => 5
  | .i64 => 6
  | .ptr => 7
  | .f16 => 8
  | .bf16 => 9
  | .f32 => 10
  | .f64 => 11
  | .pk8 => 12
  | .pk16 => 13
  | .pk4 => 14

/-- The inverse of mfmtCode. -/
def mfmtOf : Nat → Option MFmt
  | 0 => some .s8
  | 1 => some .z8
  | 2 => some .s16
  | 3 => some .z16
  | 4 => some .s32
  | 5 => some .z32
  | 6 => some .i64
  | 7 => some .ptr
  | 8 => some .f16
  | 9 => some .bf16
  | 10 => some .f32
  | 11 => some .f64
  | 12 => some .pk8
  | 13 => some .pk16
  | 14 => some .pk4
  | _ => none

theorem mfmtOf_code (x : MFmt) : mfmtOf (mfmtCode x) = some x := by cases x <;> rfl

theorem mfmtCode_lt (x : MFmt) : mfmtCode x < 16 := by cases x <;> decide

/-- Tile formats (R56). -/
def tfmtCode : TFmt → Nat
  | .i8 => 0
  | .i4 => 1
  | .tap8 => 2
  | .tap6 => 3
  | .bf16 => 4
  | .f16 => 5
  | .f32 => 6
  | .f64 => 7
  | .i16 => 8
  | .i32 => 9
  | .se8 => 10

/-- The inverse of tfmtCode. -/
def tfmtOf : Nat → Option TFmt
  | 0 => some .i8
  | 1 => some .i4
  | 2 => some .tap8
  | 3 => some .tap6
  | 4 => some .bf16
  | 5 => some .f16
  | 6 => some .f32
  | 7 => some .f64
  | 8 => some .i16
  | 9 => some .i32
  | 10 => some .se8
  | _ => none

theorem tfmtOf_code (x : TFmt) : tfmtOf (tfmtCode x) = some x := by cases x <;> rfl

theorem tfmtCode_lt (x : TFmt) : tfmtCode x < 16 := by cases x <;> decide

/-- Scopes (R56). -/
def scopeCode : Scope → Nat
  | .warp => 0
  | .core => 1
  | .cluster => 2
  | .die => 3
  | .package => 4
  | .fabric => 5
  | .system => 6

/-- The inverse of scopeCode. -/
def scopeOf : Nat → Option Scope
  | 0 => some .warp
  | 1 => some .core
  | 2 => some .cluster
  | 3 => some .die
  | 4 => some .package
  | 5 => some .fabric
  | 6 => some .system
  | _ => none

theorem scopeOf_code (x : Scope) : scopeOf (scopeCode x) = some x := by cases x <;> rfl

theorem scopeCode_lt (x : Scope) : scopeCode x < 8 := by cases x <;> decide

/-- ORD (R56). -/
def ordCode : Ord4 → Nat
  | .plain => 0
  | .acq => 1
  | .rel => 2
  | .acqrel => 3

/-- The inverse of ordCode. -/
def ordOf : Nat → Option Ord4
  | 0 => some .plain
  | 1 => some .acq
  | 2 => some .rel
  | 3 => some .acqrel
  | _ => none

theorem ordOf_code (x : Ord4) : ordOf (ordCode x) = some x := by cases x <;> rfl

theorem ordCode_lt (x : Ord4) : ordCode x < 4 := by cases x <;> decide

/-- Swizzle modes (R192). -/
def swzCode : Swz → Nat
  | .lin => 0
  | .xor => 1
  | .fold => 2

/-- The inverse of swzCode. -/
def swzOf : Nat → Option Swz
  | 0 => some .lin
  | 1 => some .xor
  | 2 => some .fold
  | _ => none

theorem swzOf_code (x : Swz) : swzOf (swzCode x) = some x := by cases x <;> rfl

theorem swzCode_lt (x : Swz) : swzCode x < 4 := by cases x <;> decide

/-- SPARSE (R56). -/
def sparCode : Sparsity → Nat
  | .dense => 0
  | .sp8 => 1
  | .sp4 => 2

/-- The inverse of sparCode. -/
def sparOf : Nat → Option Sparsity
  | 0 => some .dense
  | 1 => some .sp8
  | 2 => some .sp4
  | _ => none

theorem sparOf_code (x : Sparsity) : sparOf (sparCode x) = some x := by cases x <;> rfl

theorem sparCode_lt (x : Sparsity) : sparCode x < 4 := by cases x <;> decide

/-- OPX of the atomics (R43). -/
def aopCode : AOp → Nat
  | .add => 0
  | .min => 1
  | .max => 2
  | .and => 3
  | .or => 4
  | .xor => 5
  | .swap => 6
  | .cas => 7
  | .fadd => 8
  | .fadd64 => 9

/-- The inverse of aopCode. -/
def aopOf : Nat → Option AOp
  | 0 => some .add
  | 1 => some .min
  | 2 => some .max
  | 3 => some .and
  | 4 => some .or
  | 5 => some .xor
  | 6 => some .swap
  | 7 => some .cas
  | 8 => some .fadd
  | 9 => some .fadd64
  | _ => none

theorem aopOf_code (x : AOp) : aopOf (aopCode x) = some x := by cases x <;> rfl

theorem aopCode_lt (x : AOp) : aopCode x < 16 := by cases x <;> decide

/-- MSET kinds (R168). -/
def msetCode : MsetKind → Nat
  | .exec => 0
  | .all => 1
  | .zero => 2
  | .nz => 3
  | .bits => 4

/-- The inverse of msetCode. -/
def msetOf : Nat → Option MsetKind
  | 0 => some .exec
  | 1 => some .all
  | 2 => some .zero
  | 3 => some .nz
  | 4 => some .bits
  | _ => none

theorem msetOf_code (x : MsetKind) : msetOf (msetCode x) = some x := by cases x <;> rfl

theorem msetCode_lt (x : MsetKind) : msetCode x < 8 := by cases x <;> decide

/-- MOPS operations (R169). -/
def mopsCode : MopsOp → Nat
  | .and => 0
  | .or => 1
  | .xor => 2
  | .andn => 3
  | .not => 4
  | .copy => 5

/-- The inverse of mopsCode. -/
def mopsOf : Nat → Option MopsOp
  | 0 => some .and
  | 1 => some .or
  | 2 => some .xor
  | 3 => some .andn
  | 4 => some .not
  | 5 => some .copy
  | _ => none

theorem mopsOf_code (x : MopsOp) : mopsOf (mopsCode x) = some x := by cases x <;> rfl

theorem mopsCode_lt (x : MopsOp) : mopsCode x < 8 := by cases x <;> decide

/-- VOTE operations (R173). -/
def voteCode : VoteOp → Nat
  | .any => 0
  | .all => 1
  | .ballot => 2

/-- The inverse of voteCode. -/
def voteOf : Nat → Option VoteOp
  | 0 => some .any
  | 1 => some .all
  | 2 => some .ballot
  | _ => none

theorem voteOf_code (x : VoteOp) : voteOf (voteCode x) = some x := by cases x <;> rfl

theorem voteCode_lt (x : VoteOp) : voteCode x < 4 := by cases x <;> decide

/-- REDUX and SCANX operations (R174). -/
def redCode : RedOp → Nat
  | .add => 0
  | .min => 1
  | .max => 2
  | .and => 3
  | .or => 4
  | .xor => 5

/-- The inverse of redCode. -/
def redOf : Nat → Option RedOp
  | 0 => some .add
  | 1 => some .min
  | 2 => some .max
  | 3 => some .and
  | 4 => some .or
  | 5 => some .xor
  | _ => none

theorem redOf_code (x : RedOp) : redOf (redCode x) = some x := by cases x <;> rfl

theorem redCode_lt (x : RedOp) : redCode x < 8 := by cases x <;> decide

/-- SIGNAL operations (R325). -/
def sigCode : SigOp → Nat
  | .set => 0
  | .add => 1
  | .or => 2

/-- The inverse of sigCode. -/
def sigOf : Nat → Option SigOp
  | 0 => some .set
  | 1 => some .add
  | 2 => some .or
  | _ => none

theorem sigOf_code (x : SigOp) : sigOf (sigCode x) = some x := by cases x <;> rfl

theorem sigCode_lt (x : SigOp) : sigCode x < 4 := by cases x <;> decide

/-- CPY modes (R43). -/
def cpyCode : CpyMode → Nat
  | .lin => 0
  | .d2 => 1
  | .gth => 2
  | .tap6 => 3
  | .qnt => 4

/-- The inverse of cpyCode. -/
def cpyOf : Nat → Option CpyMode
  | 0 => some .lin
  | 1 => some .d2
  | 2 => some .gth
  | 3 => some .tap6
  | 4 => some .qnt
  | _ => none

theorem cpyOf_code (x : CpyMode) : cpyOf (cpyCode x) = some x := by cases x <;> rfl

theorem cpyCode_lt (x : CpyMode) : cpyCode x < 8 := by cases x <;> decide

/-- Warp special registers (R142). -/
def wspecCode : WSpec → Nat
  | .wid => 0
  | .teamid => 1
  | .teamx => 2
  | .teamy => 3
  | .teamz => 4
  | .core => 5
  | .cluster => 6
  | .die => 7
  | .chip => 8
  | .part => 9
  | .nurs => 16
  | .nlim => 17
  | .tvec => 18
  | .trapv => 19
  | .cause => 20
  | .eaddr => 21
  | .status => 22
  | .cyc => 23
  | .role => 48
  | .nwarp => 49

/-- The inverse of wspecCode. -/
def wspecOf : Nat → Option WSpec
  | 0 => some .wid
  | 1 => some .teamid
  | 2 => some .teamx
  | 3 => some .teamy
  | 4 => some .teamz
  | 5 => some .core
  | 6 => some .cluster
  | 7 => some .die
  | 8 => some .chip
  | 9 => some .part
  | 16 => some .nurs
  | 17 => some .nlim
  | 18 => some .tvec
  | 19 => some .trapv
  | 20 => some .cause
  | 21 => some .eaddr
  | 22 => some .status
  | 23 => some .cyc
  | 48 => some .role
  | 49 => some .nwarp
  | _ => none

theorem wspecOf_code (x : WSpec) : wspecOf (wspecCode x) = some x := by cases x <;> rfl

theorem wspecCode_lt (x : WSpec) : wspecCode x < 64 := by cases x <;> decide

/-- Lane special numbers (R65). -/
def lspecCode : LSpec → Nat
  | .laneid => 0
  | .lpc => 1
  | .elpc => 2
  | .lopa => 3
  | .lopb => 4
  | .lopc => 5
  | .ldst => 6
  | .lrpc => 7
  | .lcdepth => 8
  | .estat => 9
  | .stk n => 16 + n.toNat

/-- The inverse of lspecCode. -/
def lspecOf : Nat → Option LSpec
  | 0 => some .laneid
  | 1 => some .lpc
  | 2 => some .elpc
  | 3 => some .lopa
  | 4 => some .lopb
  | 5 => some .lopc
  | 6 => some .ldst
  | 7 => some .lrpc
  | 8 => some .lcdepth
  | 9 => some .estat
  | n => if 16 ≤ n ∧ n < 32 then some (.stk (BitVec.ofNat 4 (n - 16))) else none

/-- A register field (R29). -/
def regCode : Reg → Nat
  | .lane n => n.toNat
  | .uni n => 128 + n.toNat
  | .nil => 255

/-- The inverse of regCode: 0xC0-0xFE is illegal. -/
def regOf (x : Nat) : Option Reg :=
  if x < 128 then some (.lane (BitVec.ofNat 7 x))
  else if x < 192 then some (.uni (BitVec.ofNat 6 (x - 128)))
  else if x = 255 then some .nil
  else none

/-- A mask operand (R33). -/
def maskOf (x : Nat) : Option MaskNo := if h : x < 12 then some ⟨x, h⟩ else none

/-- A flag bit. -/
def flagCode (b : Bool) : Nat := if b then 1 else 0

/-- The inverse of flagCode. -/
def flagOf : Nat → Option Bool
  | 0 => some false
  | 1 => some true
  | _ => none

/-- The MASK field of the header (R22). -/
def maskField : Option MaskNo → Nat
  | none => 15
  | some m => m.val

/-- The inverse of maskField: 12-14 are illegal. -/
def maskFieldOf (x : Nat) : Option (Option MaskNo) :=
  if x = 15 then some none else (maskOf x).map some

/-! ## The six formats (R28), as the 47 bits below the header -/

/-- Format V. -/
structure FV where
  d : Nat := 0
  a : Nat := 0
  b : Nat := 0
  c : Nat := 0
  sa : Nat := 0
  sb : Nat := 0
  md : Nat := 0
  sub : Nat := 0
deriving DecidableEq, Repr

/-- Format I. -/
structure FI where
  d : Nat := 0
  a : Nat := 0
  imm : Nat := 0
deriving DecidableEq, Repr

/-- Format M. -/
structure FM where
  d : Nat := 0
  a : Nat := 0
  b : Nat := 0
  scope : Nat := 0
  ord : Nat := 0
  racq : Nat := 0
  fmt : Nat := 0
  off : Nat := 0
deriving DecidableEq, Repr

/-- Format C. -/
structure FC where
  cond : Nat := 0
  b : Nat := 0
  off : Nat := 0
deriving DecidableEq, Repr

/-- Format X. -/
structure FX where
  d : Nat := 0
  a : Nat := 0
  b : Nat := 0
  c : Nat := 0
  mode : Nat := 0
deriving DecidableEq, Repr

/-- Format S. -/
structure FS where
  d : Nat := 0
  a : Nat := 0
  sel : Nat := 0
deriving DecidableEq, Repr

def packV (f : FV) : Nat :=
  f.sub + 8 * f.md + 128 * f.sb + 2048 * f.sa + 2 ^ 15 * f.c + 2 ^ 23 * f.b + 2 ^ 31 * f.a + 2 ^ 39 * f.d

def unpackV (x : Nat) : FV :=
  { d := bitsOf x 39 8, a := bitsOf x 31 8, b := bitsOf x 23 8, c := bitsOf x 15 8, sa := bitsOf x 11 4,
    sb := bitsOf x 7 4, md := bitsOf x 3 4, sub := bitsOf x 0 3 }

def packI (f : FI) : Nat := f.imm + 2 ^ 31 * f.a + 2 ^ 39 * f.d

def unpackI (x : Nat) : FI := { d := bitsOf x 39 8, a := bitsOf x 31 8, imm := bitsOf x 0 31 }

def packM (f : FM) : Nat :=
  f.off + 2 ^ 13 * f.fmt + 2 ^ 17 * f.racq + 2 ^ 18 * f.ord + 2 ^ 20 * f.scope + 2 ^ 23 * f.b + 2 ^ 31 * f.a
    + 2 ^ 39 * f.d

def unpackM (x : Nat) : FM :=
  { d := bitsOf x 39 8, a := bitsOf x 31 8, b := bitsOf x 23 8, scope := bitsOf x 20 3, ord := bitsOf x 18 2,
    racq := bitsOf x 17 1, fmt := bitsOf x 13 4, off := bitsOf x 0 13 }

def packC (f : FC) : Nat := f.off + 2 ^ 36 * f.b + 2 ^ 44 * f.cond

def unpackC (x : Nat) : FC := { cond := bitsOf x 44 3, b := bitsOf x 36 8, off := bitsOf x 0 32 }

def packX (f : FX) : Nat := f.mode + 2 ^ 15 * f.c + 2 ^ 23 * f.b + 2 ^ 31 * f.a + 2 ^ 39 * f.d

def unpackX (x : Nat) : FX :=
  { d := bitsOf x 39 8, a := bitsOf x 31 8, b := bitsOf x 23 8, c := bitsOf x 15 8, mode := bitsOf x 0 15 }

def packS (f : FS) : Nat := 2 ^ 15 * f.sel + 2 ^ 31 * f.a + 2 ^ 39 * f.d

def unpackS (x : Nat) : FS := { d := bitsOf x 39 8, a := bitsOf x 31 8, sel := bitsOf x 15 16 }

/-! ## Operand shapes to fields -/

def encUn (o : OpUn) : FV := { d := regCode o.d, a := regCode o.a, sa := o.sa.toNat }

def encUnE (o : OpUnE) : FV := { d := regCode o.d, a := regCode o.a, sa := o.sa.toNat, md := eltCode o.e }

def encBin (o : OpBin) : FV :=
  { d := regCode o.d, a := regCode o.a, b := regCode o.b, sa := o.sa.toNat, sb := o.sb.toNat }

def encBinE (o : OpBinE) : FV :=
  { d := regCode o.d, a := regCode o.a, b := regCode o.b, sa := o.sa.toNat, sb := o.sb.toNat, md := eltCode o.e }

def encTerE (o : OpTerE) : FV :=
  { d := regCode o.d, a := regCode o.a, b := regCode o.b, c := regCode o.c, sa := o.sa.toNat, sb := o.sb.toNat,
    md := eltCode o.e }

def encField (o : OpField) : FV :=
  { d := regCode o.d, a := regCode o.a, b := regCode o.b, c := regCode o.c, sa := o.sa.toNat }

def encImm (o : OpImm) : FI := { d := regCode o.d, a := regCode o.a, imm := o.imm.toNat }

def encCond : Cond → Nat × Nat
  | .always => (0, 0)
  | .nz r => (1, regCode r)
  | .z r => (2, regCode r)
  | .ms m => (3, m.val)
  | .mc m => (4, m.val)
  | .uniform r => (5, regCode r)

def encBr (o : OpBr) : FC := { cond := (encCond o.cond).1, b := (encCond o.cond).2, off := o.off.toNat }

def encRet (c : Cond) : FC := { cond := (encCond c).1, b := (encCond c).2 }

def encMem (o : OpMem) : FM :=
  { d := regCode o.d, a := regCode o.a, b := regCode o.b, scope := scopeCode o.scope, ord := ordCode o.ord,
    racq := flagCode o.racq, off := o.off.toNat }

def encMemF (o : OpMemF) : FM :=
  { d := regCode o.d, a := regCode o.a, b := regCode o.b, scope := scopeCode o.scope, ord := ordCode o.ord,
    racq := flagCode o.racq, fmt := mfmtCode o.fmt, off := o.off.toNat }

def encCache (o : OpCache) : FM :=
  { a := regCode o.a, b := regCode o.b, scope := scopeCode o.scope, off := o.off.toNat }

def encScr (o : OpScr) : FM :=
  { d := regCode o.d, a := regCode o.a, b := regCode o.b, scope := swzCode o.swz, fmt := mfmtCode o.fmt,
    off := o.off.toNat }

def encX4 (o : OpX4) (mode : Nat) : FX :=
  { d := regCode o.d, a := regCode o.a, b := regCode o.b, c := regCode o.c, mode := mode }

/-- MODE15 of the memory layout (R43). -/
def memMode (s : Scope) (o : Ord4) (r : Bool) (opx ef : Nat) : Nat :=
  ef + 32 * opx + 512 * flagCode r + 1024 * ordCode o + 4096 * scopeCode s

def encAtom (o : OpAtom) : FX :=
  { d := regCode o.d, a := regCode o.a, b := regCode o.b, c := regCode o.c,
    mode := memMode o.scope o.ord o.racq (aopCode o.op) 0 }

/-! ## Fields to operand shapes -/

def decUn (f : FV) : Option OpUn := do
  return { d := ← regOf f.d, a := ← regOf f.a, sa := BitVec.ofNat 4 f.sa }

def decUnE (f : FV) : Option OpUnE := do
  return { d := ← regOf f.d, a := ← regOf f.a, sa := BitVec.ofNat 4 f.sa, e := ← eltOf f.md }

def decBin (f : FV) : Option OpBin := do
  return { d := ← regOf f.d, a := ← regOf f.a, b := ← regOf f.b, sa := BitVec.ofNat 4 f.sa, sb := BitVec.ofNat 4 f.sb }

def decBinE (f : FV) : Option OpBinE := do
  return { d := ← regOf f.d, a := ← regOf f.a, b := ← regOf f.b, sa := BitVec.ofNat 4 f.sa, sb := BitVec.ofNat 4 f.sb,
           e := ← eltOf f.md }

def decTerE (f : FV) : Option OpTerE := do
  return { d := ← regOf f.d, a := ← regOf f.a, b := ← regOf f.b, c := ← regOf f.c, sa := BitVec.ofNat 4 f.sa,
           sb := BitVec.ofNat 4 f.sb, e := ← eltOf f.md }

def decField (f : FV) : Option OpField := do
  return { d := ← regOf f.d, a := ← regOf f.a, b := ← regOf f.b, c := ← regOf f.c, sa := BitVec.ofNat 4 f.sa }

def decImm (f : FI) : Option OpImm := do
  return { d := ← regOf f.d, a := ← regOf f.a, imm := BitVec.ofNat 31 f.imm }

def decCond (c b : Nat) : Option Cond :=
  match c with
  | 0 => if b = 0 then some .always else none
  | 1 => (regOf b).map .nz
  | 2 => (regOf b).map .z
  | 3 => (maskOf b).map .ms
  | 4 => (maskOf b).map .mc
  | 5 => (regOf b).map .uniform
  | _ => none

def decBr (f : FC) : Option OpBr := do
  return { cond := ← decCond f.cond f.b, off := BitVec.ofNat 32 f.off }

def decMem (f : FM) : Option OpMem := do
  return { d := ← regOf f.d, a := ← regOf f.a, b := ← regOf f.b, scope := ← scopeOf f.scope, ord := ← ordOf f.ord,
           racq := ← flagOf f.racq, off := BitVec.ofNat 13 f.off }

def decMemF (f : FM) : Option OpMemF := do
  return { d := ← regOf f.d, a := ← regOf f.a, b := ← regOf f.b, scope := ← scopeOf f.scope, ord := ← ordOf f.ord,
           racq := ← flagOf f.racq, fmt := ← mfmtOf f.fmt, off := BitVec.ofNat 13 f.off }

def decCache (f : FM) : Option OpCache := do
  return { a := ← regOf f.a, b := ← regOf f.b, scope := ← scopeOf f.scope, off := BitVec.ofNat 13 f.off }

def decScr (f : FM) : Option OpScr := do
  return { d := ← regOf f.d, a := ← regOf f.a, b := ← regOf f.b, swz := ← swzOf f.scope, fmt := ← mfmtOf f.fmt,
           off := BitVec.ofNat 13 f.off }

def decX4 (f : FX) : Option OpX4 := do
  return { d := ← regOf f.d, a := ← regOf f.a, b := ← regOf f.b, c := ← regOf f.c }

def decAtom (f : FX) : Option OpAtom := do
  return { d := ← regOf f.d, a := ← regOf f.a, b := ← regOf f.b, c := ← regOf f.c, scope := ← scopeOf (bitsOf f.mode 12 3),
           ord := ← ordOf (bitsOf f.mode 10 2), racq := ← flagOf (bitsOf f.mode 9 1), op := ← aopOf (bitsOf f.mode 5 4) }

/-- A and B with a scope, of SIGNAL and WAITS. -/
def decSig (f : FX) : Option OpSig := do
  return { a := ← regOf f.a, b := ← regOf f.b, scope := ← scopeOf (bitsOf f.mode 12 3) }

/-! ## The opcode map (R49) -/

/-- The header of an instruction. -/
def hdrOf : Instr → Hdr
  | .add h .. => h
  | .sub h .. => h
  | .mul h .. => h
  | .div h .. => h
  | .rem h .. => h
  | .min h .. => h
  | .max h .. => h
  | .fma h .. => h
  | .dot h .. => h
  | .clamp h .. => h
  | .neg h .. => h
  | .abs h .. => h
  | .unpk h .. => h
  | .cmp h .. => h
  | .cmpm h .. => h
  | .sqrt h .. => h
  | .rcp h .. => h
  | .rsq h .. => h
  | .exp2 h .. => h
  | .log2 h .. => h
  | .sin h .. => h
  | .cos h .. => h
  | .tanh h .. => h
  | .frnd h .. => h
  | .cvt h .. => h
  | .pack h .. => h
  | .scaleq h .. => h
  | .qnt h .. => h
  | .tagof h .. => h
  | .tagas h .. => h
  | .tagm h .. => h
  | .and h .. => h
  | .or h .. => h
  | .xor h .. => h
  | .shl h .. => h
  | .shr h .. => h
  | .sar h .. => h
  | .rol h .. => h
  | .mulh h .. => h
  | .addw h .. => h
  | .subw h .. => h
  | .mulw h .. => h
  | .ptrd h .. => h
  | .not h .. => h
  | .popc h .. => h
  | .clz h .. => h
  | .ctz h .. => h
  | .brev h .. => h
  | .mov h .. => h
  | .bfx h .. => h
  | .bfi h .. => h
  | .lea h .. => h
  | .movi h .. => h
  | .movf h .. => h
  | .movl h .. => h
  | .sel h .. => h
  | .getl h .. => h
  | .setl h .. => h
  | .addi h .. => h
  | .muli h .. => h
  | .andi h .. => h
  | .ori h .. => h
  | .xori h .. => h
  | .cmpi h .. => h
  | .shli h .. => h
  | .shri h .. => h
  | .bra h .. => h
  | .call h .. => h
  | .lcall h .. => h
  | .ret h .. => h
  | .exit h .. => h
  | .jmpi h .. => h
  | .join h .. => h
  | .leave h .. => h
  | .mset h .. => h
  | .mops h .. => h
  | .mget h .. => h
  | .shfl h .. => h
  | .shflx h .. => h
  | .bcast h .. => h
  | .vote h .. => h
  | .redux h .. => h
  | .scanx h .. => h
  | .lret h .. => h
  | .alloc h .. => h
  | .gets h .. => h
  | .sets h .. => h
  | .trap h .. => h
  | .bkpt h .. => h
  | .sleep h .. => h
  | .svcall h .. => h
  | .tret h => h
  | .nop h => h
  | .yield h => h
  | .elect h .. => h
  | .ld h .. => h
  | .st h .. => h
  | .lr h .. => h
  | .sc h .. => h
  | .ldr h .. => h
  | .str h .. => h
  | .fence h .. => h
  | .pf h .. => h
  | .cflush h .. => h
  | .cinv h .. => h
  | .ldh h .. => h
  | .hcas h .. => h
  | .lds h .. => h
  | .sts h .. => h
  | .satom h .. => h
  | .tile h .. => h
  | .cpy h .. => h
  | .give h .. => h
  | .take h .. => h
  | .ownq h .. => h
  | .mma h .. => h
  | .mmab h .. => h
  | .accz h .. => h
  | .accrd h .. => h
  | .accld h .. => h
  | .accw h .. => h
  | .bndget h .. => h
  | .bndset h .. => h
  | .bninit h .. => h
  | .bna h .. => h
  | .bnw h .. => h
  | .bnaw h .. => h
  | .atom h .. => h
  | .vatom h .. => h
  | .mmap h .. => h
  | .kvapp h .. => h
  | .ksel h .. => h
  | .attn h .. => h
  | .kvxl h .. => h
  | .wqry h .. => h
  | .signal h .. => h
  | .waits h .. => h
  | .cmpl h .. => h
  | .dlaunch h .. => h
  | .kvret h .. => h
  | .ctxsv h .. => h
  | .ctxld h .. => h
  | .prmt h .. => h
  | .icinv h .. => h
  | .kvmap h .. => h
  | .kvsd h .. => h
  | _ => ⟨false, 0, none⟩

/-- OP and the bits below the header; an event of the device has no word. -/
def bodyOf : Instr → Option (Nat × Nat)
  | .add _ o => some (0x00, packV (encBinE o))
  | .sub _ o => some (0x01, packV (encBinE o))
  | .mul _ o => some (0x02, packV (encBinE o))
  | .div _ o => some (0x04, packV (encBinE o))
  | .rem _ o => some (0x05, packV (encBinE o))
  | .min _ o => some (0x08, packV (encBinE o))
  | .max _ o => some (0x09, packV (encBinE o))
  | .fma _ o => some (0x03, packV (encTerE o))
  | .dot _ o => some (0x15, packV (encTerE o))
  | .clamp _ o => some (0x16, packV (encTerE o))
  | .neg _ o => some (0x06, packV (encUnE o))
  | .abs _ o => some (0x07, packV (encUnE o))
  | .unpk _ o => some (0x1A, packV (encUnE o))
  | .cmp _ cc o => some (0x0A, packV { encBinE o with sub := ccCode cc })
  | .cmpm _ cc m a b sa sb e => some (0x0B, packV
      { d := m.val, a := regCode a, b := regCode b, sa := sa.toNat, sb := sb.toNat, md := eltCode e, sub := ccCode cc })
  | .sqrt _ o => some (0x0C, packV (encUn o))
  | .rcp _ o => some (0x0D, packV (encUn o))
  | .rsq _ o => some (0x0E, packV (encUn o))
  | .exp2 _ o => some (0x0F, packV (encUn o))
  | .log2 _ o => some (0x10, packV (encUn o))
  | .sin _ o => some (0x11, packV (encUn o))
  | .cos _ o => some (0x12, packV (encUn o))
  | .tanh _ o => some (0x13, packV (encUn o))
  | .frnd _ rm o => some (0x14, packV { encUn o with sub := rndCode rm })
  | .cvt _ t rm o => some (0x18, packV { encUn o with md := cvtCode t, sub := rndCode rm })
  | .pack _ rm o => some (0x19, packV { encBinE o with sub := rndCode rm })
  | .scaleq _ d a e => some (0x1B, packV { d := regCode d, a := regCode a, md := eltCode e })
  | .qnt _ rm d a b e => some (0x1C, packV { d := regCode d, a := regCode a, b := regCode b, md := eltCode e, sub := rndCode rm })
  | .tagof _ d a => some (0x20, packV { d := regCode d, a := regCode a })
  | .tagas _ t d a => some (0x21, packV { d := regCode d, a := regCode a, md := tagCode t })
  | .tagm _ t m a => some (0x22, packV { d := m.val, a := regCode a, md := tagCode t })
  | .and _ o => some (0x28, packV (encBin o))
  | .or _ o => some (0x29, packV (encBin o))
  | .xor _ o => some (0x2A, packV (encBin o))
  | .shl _ o => some (0x2C, packV (encBin o))
  | .shr _ o => some (0x2D, packV (encBin o))
  | .sar _ o => some (0x2E, packV (encBin o))
  | .rol _ o => some (0x2F, packV (encBin o))
  | .mulh _ o => some (0x36, packV (encBin o))
  | .addw _ o => some (0x37, packV (encBin o))
  | .subw _ o => some (0x38, packV (encBin o))
  | .mulw _ o => some (0x39, packV (encBin o))
  | .ptrd _ o => some (0x3B, packV (encBin o))
  | .not _ o => some (0x2B, packV (encUn o))
  | .popc _ o => some (0x30, packV (encUn o))
  | .clz _ o => some (0x31, packV (encUn o))
  | .ctz _ o => some (0x32, packV (encUn o))
  | .brev _ o => some (0x35, packV (encUn o))
  | .mov _ o => some (0x40, packV (encUn o))
  | .bfx _ o => some (0x33, packV (encField o))
  | .bfi _ o => some (0x34, packV (encField o))
  | .lea _ n o => some (0x3A, packV { encBin o with md := n.val })
  | .movi _ d i => some (0x41, packI { d := regCode d, imm := i.toNat })
  | .movf _ d i => some (0x42, packI { d := regCode d, imm := i.toNat })
  | .movl _ t d _ => some (0x43, packV { d := regCode d, md := tagCode t })
  | .sel _ m o => some (0x44, packV { encBin o with c := m.val })
  | .getl _ s d => some (0x45, packV { d := regCode d, c := lspecCode s })
  | .setl _ s a => some (0x46, packV { a := regCode a, c := lspecCode s })
  | .addi _ o => some (0x48, packI (encImm o))
  | .muli _ o => some (0x49, packI (encImm o))
  | .andi _ o => some (0x4B, packI (encImm o))
  | .ori _ o => some (0x4C, packI (encImm o))
  | .xori _ o => some (0x4D, packI (encImm o))
  | .cmpi _ cc d a i => some (0x4A, packI { d := regCode d, a := regCode a, imm := i.toNat + 2 ^ 28 * ccCode cc })
  | .shli _ d a n => some (0x4E, packI { d := regCode d, a := regCode a, imm := n.toNat })
  | .shri _ d a n => some (0x4F, packI { d := regCode d, a := regCode a, imm := n.toNat })
  | .bra _ o => some (0x60, packC (encBr o))
  | .call _ o => some (0x61, packC (encBr o))
  | .lcall _ o => some (0x70, packC (encBr o))
  | .ret _ c => some (0x62, packC (encRet c))
  | .exit _ c => some (0x64, packC (encRet c))
  | .jmpi _ b => some (0x63, packC { b := regCode b })
  | .join _ m => some (0x65, packC { b := m.val })
  | .leave _ m => some (0x66, packC { b := m.val })
  | .mset _ k m a => some (0x67, packV { d := m.val, a := regCode a, md := msetCode k })
  | .mops _ k d a b => some (0x68, packV { d := d.val, a := a.val, b := b.val, md := mopsCode k })
  | .mget _ d m => some (0x69, packV { d := regCode d, a := m.val })
  | .shfl _ d a b => some (0x6A, packV { d := regCode d, a := regCode a, b := regCode b })
  | .shflx _ d a k => some (0x6B, packV { d := regCode d, a := regCode a, md := k.toNat % 16, sub := k.toNat / 16 })
  | .bcast _ d a b => some (0x6C, packV { d := regCode d, a := regCode a, b := regCode b })
  | .vote _ k d a => some (0x6D, packV { d := regCode d, a := regCode a, md := voteCode k })
  | .redux _ k d a => some (0x6E, packV { d := regCode d, a := regCode a, md := redCode k })
  | .scanx _ k ex d a => some (0x6F, packV { d := regCode d, a := regCode a, md := redCode k, sub := flagCode ex })
  | .lret _ a => some (0x71, packV { a := regCode a })
  | .alloc _ d a => some (0x72, packX { d := regCode d, a := regCode a })
  | .gets _ s d => some (0x73, packS { d := regCode d, sel := wspecCode s })
  | .sets _ s a => some (0x74, packS { a := regCode a, sel := wspecCode s })
  | .trap _ n => some (0x75, packS { sel := n.toNat })
  | .bkpt _ n => some (0x77, packS { sel := n.toNat })
  | .sleep _ n => some (0x7A, packS { sel := n.toNat })
  | .svcall _ n => some (0xE6, packS { sel := n.toNat })
  | .tret _ => some (0x76, 0)
  | .nop _ => some (0x78, 0)
  | .yield _ => some (0x79, 0)
  | .elect _ m => some (0x7B, packV { d := m.val })
  | .ld _ o => some (0x80, packM (encMem o))
  | .st _ o => some (0x81, packM (encMem o))
  | .lr _ o => some (0x84, packM (encMem o))
  | .sc _ o => some (0x85, packM (encMem o))
  | .ldr _ o => some (0x82, packM (encMemF o))
  | .str _ o => some (0x83, packM (encMemF o))
  | .fence _ o s r => some (0x86, packM { scope := scopeCode s, ord := ordCode o, racq := flagCode r })
  | .pf _ o => some (0x87, packM (encCache o))
  | .cflush _ o => some (0x88, packM (encCache o))
  | .cinv _ o => some (0x89, packM (encCache o))
  | .ldh _ d a b off => some (0x8A, packM { d := regCode d, a := regCode a, b := regCode b, off := off.toNat })
  | .hcas _ o w s r => some (0x8B, packX (encX4 o (memMode s w r 0 0)))
  | .lds _ o => some (0x8C, packM (encScr o))
  | .sts _ o => some (0x8D, packM (encScr o))
  | .satom _ op f z o => some (0x8E, packX (encX4 o (tfmtCode f + 32 * aopCode op + 4096 * swzCode z)))
  | .tile _ f z p o => some (0x90, packX (encX4 o (tfmtCode f + 32 * swzCode z + 128 * sparCode p)))
  | .cpy _ m out a b c => some (0x91, packX { a := regCode a, b := regCode b, c := regCode c, mode := cpyCode m + 8 * flagCode out })
  | .give _ a => some (0x92, packX { a := regCode a })
  | .take _ a => some (0x93, packX { a := regCode a })
  | .ownq _ d a => some (0x94, packX { d := regCode d, a := regCode a })
  | .mma _ acc a b => some (0x95, packX { a := regCode a, b := regCode b, mode := acc.toNat })
  | .mmab _ acc s b => some (0x96, packX { b := regCode b, mode := acc.toNat + 32 * s.toNat })
  | .accz _ acc => some (0x97, packX { mode := acc.toNat })
  | .accrd _ acc a => some (0x98, packX { a := regCode a, mode := acc.toNat })
  | .accld _ acc a => some (0x99, packX { a := regCode a, mode := acc.toNat })
  | .accw _ acc => some (0x9A, packX { mode := acc.toNat })
  | .bndget _ d acc => some (0x9B, packX { d := regCode d, mode := acc.toNat })
  | .bndset _ acc a => some (0x9C, packX { a := regCode a, mode := acc.toNat })
  | .bninit _ b p c => some (0xA0, packX { mode := c.toNat + 32 * p.toNat + 1024 * b.toNat })
  | .bna _ b => some (0xA1, packX { mode := 1024 * b.toNat })
  | .bnw _ b => some (0xA2, packX { mode := 1024 * b.toNat })
  | .bnaw _ b => some (0xA3, packX { mode := 1024 * b.toNat })
  | .atom _ o => some (0xC0, packX (encAtom o))
  | .vatom _ op f d a b w s => some (0xC1, packX
      { d := regCode d, a := regCode a, b := regCode b, mode := memMode s w false (aopCode op) (tfmtCode f) })
  | .mmap _ acc a b => some (0xC2, packX { a := regCode a, b := regCode b, mode := acc.toNat })
  | .kvapp _ a b c => some (0xD0, packX { a := regCode a, b := regCode b, c := regCode c })
  | .ksel _ s r o => some (0xD1, packX (encX4 o (flagCode s + 2 * flagCode r)))
  | .attn _ o => some (0xD2, packX (encX4 o 0))
  | .kvxl _ d a b => some (0xD3, packX { d := regCode d, a := regCode a, b := regCode b })
  | .wqry _ a => some (0xE0, packX { a := regCode a })
  | .signal _ op r o => some (0xE1, packX
      { a := regCode o.a, b := regCode o.b, mode := memMode o.scope (if r then .rel else .plain) false (sigCode op) 0 })
  | .waits _ cc q o => some (0xE2, packX
      { a := regCode o.a, b := regCode o.b, mode := memMode o.scope (if q then .acq else .plain) false (ccCode cc) 0 })
  | .cmpl _ a => some (0xE3, packX { a := regCode a })
  | .dlaunch _ a b => some (0xE4, packX { a := regCode a, b := regCode b })
  | .kvret _ a => some (0xE5, packX { a := regCode a })
  | .ctxsv _ a => some (0xE8, packS { a := regCode a })
  | .ctxld _ a => some (0xE9, packS { a := regCode a })
  | .prmt _ a => some (0xEA, packS { a := regCode a })
  | .icinv _ a => some (0xEB, packS { a := regCode a })
  | .kvmap _ a b c => some (0xF0, packX { a := regCode a, b := regCode b, c := regCode c })
  | .kvsd _ a b => some (0xF1, packX { a := regCode a, b := regCode b })
  | _ => none

/-- The instruction words of an instruction: one, or two for MOVL (R42). -/
def encode (i : Instr) : Option (List Word) :=
  match bodyOf i with
  | none => none
  | some (op, x) =>
    let h := hdrOf i
    let w := wd (x + 2 ^ 47 * maskField h.mask + 2 ^ 51 * op + 2 ^ 59 * h.stall.toNat + 2 ^ 63 * flagCode h.b)
    match i with
    | .movl _ _ _ lit => some [w, lit]
    | _ => some [w]

/-- What the fields of a word name, before the limits and the reserved fields are checked; lit is the word after it. -/
def candidate (op : Nat) (h : Hdr) (x : Nat) (lit : Word) : Option Instr :=
  match op with
  | 0x00 => (decBinE (unpackV x)).map (Instr.add h)
  | 0x01 => (decBinE (unpackV x)).map (Instr.sub h)
  | 0x02 => (decBinE (unpackV x)).map (Instr.mul h)
  | 0x03 => (decTerE (unpackV x)).map (Instr.fma h)
  | 0x04 => (decBinE (unpackV x)).map (Instr.div h)
  | 0x05 => (decBinE (unpackV x)).map (Instr.rem h)
  | 0x06 => (decUnE (unpackV x)).map (Instr.neg h)
  | 0x07 => (decUnE (unpackV x)).map (Instr.abs h)
  | 0x08 => (decBinE (unpackV x)).map (Instr.min h)
  | 0x09 => (decBinE (unpackV x)).map (Instr.max h)
  | 0x0A => do return .cmp h (← ccOf (unpackV x).sub) (← decBinE (unpackV x))
  | 0x0B => do
    let f := unpackV x
    return .cmpm h (← ccOf f.sub) (← maskOf f.d) (← regOf f.a) (← regOf f.b) (BitVec.ofNat 4 f.sa) (BitVec.ofNat 4 f.sb)
      (← eltOf f.md)
  | 0x0C => (decUn (unpackV x)).map (Instr.sqrt h)
  | 0x0D => (decUn (unpackV x)).map (Instr.rcp h)
  | 0x0E => (decUn (unpackV x)).map (Instr.rsq h)
  | 0x0F => (decUn (unpackV x)).map (Instr.exp2 h)
  | 0x10 => (decUn (unpackV x)).map (Instr.log2 h)
  | 0x11 => (decUn (unpackV x)).map (Instr.sin h)
  | 0x12 => (decUn (unpackV x)).map (Instr.cos h)
  | 0x13 => (decUn (unpackV x)).map (Instr.tanh h)
  | 0x14 => do return .frnd h (← rndOf (unpackV x).sub) (← decUn (unpackV x))
  | 0x15 => (decTerE (unpackV x)).map (Instr.dot h)
  | 0x16 => (decTerE (unpackV x)).map (Instr.clamp h)
  | 0x18 => do return .cvt h (← cvtOf (unpackV x).md) (← rndOf (unpackV x).sub) (← decUn (unpackV x))
  | 0x19 => do return .pack h (← rndOf (unpackV x).sub) (← decBinE (unpackV x))
  | 0x1A => (decUnE (unpackV x)).map (Instr.unpk h)
  | 0x1B => do return .scaleq h (← regOf (unpackV x).d) (← regOf (unpackV x).a) (← eltOf (unpackV x).md)
  | 0x1C => do
    let f := unpackV x
    return .qnt h (← rndOf f.sub) (← regOf f.d) (← regOf f.a) (← regOf f.b) (← eltOf f.md)
  | 0x20 => do return .tagof h (← regOf (unpackV x).d) (← regOf (unpackV x).a)
  | 0x21 => do return .tagas h (← tagOf (unpackV x).md) (← regOf (unpackV x).d) (← regOf (unpackV x).a)
  | 0x22 => do return .tagm h (← tagOf (unpackV x).md) (← maskOf (unpackV x).d) (← regOf (unpackV x).a)
  | 0x28 => (decBin (unpackV x)).map (Instr.and h)
  | 0x29 => (decBin (unpackV x)).map (Instr.or h)
  | 0x2A => (decBin (unpackV x)).map (Instr.xor h)
  | 0x2B => (decUn (unpackV x)).map (Instr.not h)
  | 0x2C => (decBin (unpackV x)).map (Instr.shl h)
  | 0x2D => (decBin (unpackV x)).map (Instr.shr h)
  | 0x2E => (decBin (unpackV x)).map (Instr.sar h)
  | 0x2F => (decBin (unpackV x)).map (Instr.rol h)
  | 0x30 => (decUn (unpackV x)).map (Instr.popc h)
  | 0x31 => (decUn (unpackV x)).map (Instr.clz h)
  | 0x32 => (decUn (unpackV x)).map (Instr.ctz h)
  | 0x33 => (decField (unpackV x)).map (Instr.bfx h)
  | 0x34 => (decField (unpackV x)).map (Instr.bfi h)
  | 0x35 => (decUn (unpackV x)).map (Instr.brev h)
  | 0x36 => (decBin (unpackV x)).map (Instr.mulh h)
  | 0x37 => (decBin (unpackV x)).map (Instr.addw h)
  | 0x38 => (decBin (unpackV x)).map (Instr.subw h)
  | 0x39 => (decBin (unpackV x)).map (Instr.mulw h)
  | 0x3A => do return .lea h (← if p : (unpackV x).md < 5 then some ⟨(unpackV x).md, p⟩ else none) (← decBin (unpackV x))
  | 0x3B => (decBin (unpackV x)).map (Instr.ptrd h)
  | 0x40 => (decUn (unpackV x)).map (Instr.mov h)
  | 0x41 => do return .movi h (← regOf (unpackI x).d) (BitVec.ofNat 31 (unpackI x).imm)
  | 0x42 => do return .movf h (← regOf (unpackI x).d) (BitVec.ofNat 31 (unpackI x).imm)
  | 0x43 => do return .movl h (← tagOf (unpackV x).md) (← regOf (unpackV x).d) lit
  | 0x44 => do return .sel h (← maskOf (unpackV x).c) (← decBin (unpackV x))
  | 0x45 => do return .getl h (← lspecOf (unpackV x).c) (← regOf (unpackV x).d)
  | 0x46 => do return .setl h (← lspecOf (unpackV x).c) (← regOf (unpackV x).a)
  | 0x48 => (decImm (unpackI x)).map (Instr.addi h)
  | 0x49 => (decImm (unpackI x)).map (Instr.muli h)
  | 0x4A => do
    let f := unpackI x
    return .cmpi h (← ccOf (bitsOf f.imm 28 3)) (← regOf f.d) (← regOf f.a) (BitVec.ofNat 28 f.imm)
  | 0x4B => (decImm (unpackI x)).map (Instr.andi h)
  | 0x4C => (decImm (unpackI x)).map (Instr.ori h)
  | 0x4D => (decImm (unpackI x)).map (Instr.xori h)
  | 0x4E => do return .shli h (← regOf (unpackI x).d) (← regOf (unpackI x).a) (BitVec.ofNat 6 (unpackI x).imm)
  | 0x4F => do return .shri h (← regOf (unpackI x).d) (← regOf (unpackI x).a) (BitVec.ofNat 6 (unpackI x).imm)
  | 0x60 => (decBr (unpackC x)).map (Instr.bra h)
  | 0x61 => (decBr (unpackC x)).map (Instr.call h)
  | 0x62 => (decCond (unpackC x).cond (unpackC x).b).map (Instr.ret h)
  | 0x63 => (regOf (unpackC x).b).map (Instr.jmpi h)
  | 0x64 => (decCond (unpackC x).cond (unpackC x).b).map (Instr.exit h)
  | 0x65 => (maskOf (unpackC x).b).map (Instr.join h)
  | 0x66 => (maskOf (unpackC x).b).map (Instr.leave h)
  | 0x67 => do return .mset h (← msetOf (unpackV x).md) (← maskOf (unpackV x).d) (← regOf (unpackV x).a)
  | 0x68 => do
    let f := unpackV x
    return .mops h (← mopsOf f.md) (← maskOf f.d) (← maskOf f.a) (← maskOf f.b)
  | 0x69 => do return .mget h (← regOf (unpackV x).d) (← maskOf (unpackV x).a)
  | 0x6A => do return .shfl h (← regOf (unpackV x).d) (← regOf (unpackV x).a) (← regOf (unpackV x).b)
  | 0x6B => do
    let f := unpackV x
    return .shflx h (← regOf f.d) (← regOf f.a) (BitVec.ofNat 6 (f.md + 16 * f.sub))
  | 0x6C => do return .bcast h (← regOf (unpackV x).d) (← regOf (unpackV x).a) (← regOf (unpackV x).b)
  | 0x6D => do return .vote h (← voteOf (unpackV x).md) (← regOf (unpackV x).d) (← regOf (unpackV x).a)
  | 0x6E => do return .redux h (← redOf (unpackV x).md) (← regOf (unpackV x).d) (← regOf (unpackV x).a)
  | 0x6F => do
    let f := unpackV x
    return .scanx h (← redOf f.md) (← flagOf f.sub) (← regOf f.d) (← regOf f.a)
  | 0x70 => (decBr (unpackC x)).map (Instr.lcall h)
  | 0x71 => (regOf (unpackV x).a).map (Instr.lret h)
  | 0x72 => do return .alloc h (← regOf (unpackX x).d) (← regOf (unpackX x).a)
  | 0x73 => do return .gets h (← wspecOf (unpackS x).sel) (← regOf (unpackS x).d)
  | 0x74 => do return .sets h (← wspecOf (unpackS x).sel) (← regOf (unpackS x).a)
  | 0x75 => some (.trap h (BitVec.ofNat 16 (unpackS x).sel))
  | 0x76 => some (.tret h)
  | 0x77 => some (.bkpt h (BitVec.ofNat 16 (unpackS x).sel))
  | 0x78 => some (.nop h)
  | 0x79 => some (.yield h)
  | 0x7A => some (.sleep h (BitVec.ofNat 16 (unpackS x).sel))
  | 0x7B => (maskOf (unpackV x).d).map (Instr.elect h)
  | 0x80 => (decMem (unpackM x)).map (Instr.ld h)
  | 0x81 => (decMem (unpackM x)).map (Instr.st h)
  | 0x82 => (decMemF (unpackM x)).map (Instr.ldr h)
  | 0x83 => (decMemF (unpackM x)).map (Instr.str h)
  | 0x84 => (decMem (unpackM x)).map (Instr.lr h)
  | 0x85 => (decMem (unpackM x)).map (Instr.sc h)
  | 0x86 => do
    let f := unpackM x
    return .fence h (← ordOf f.ord) (← scopeOf f.scope) (← flagOf f.racq)
  | 0x87 => (decCache (unpackM x)).map (Instr.pf h)
  | 0x88 => (decCache (unpackM x)).map (Instr.cflush h)
  | 0x89 => (decCache (unpackM x)).map (Instr.cinv h)
  | 0x8A => do
    let f := unpackM x
    return .ldh h (← regOf f.d) (← regOf f.a) (← regOf f.b) (BitVec.ofNat 13 f.off)
  | 0x8B => do
    let f := unpackX x
    return .hcas h (← decX4 f) (← ordOf (bitsOf f.mode 10 2)) (← scopeOf (bitsOf f.mode 12 3)) (← flagOf (bitsOf f.mode 9 1))
  | 0x8C => (decScr (unpackM x)).map (Instr.lds h)
  | 0x8D => (decScr (unpackM x)).map (Instr.sts h)
  | 0x8E => do
    let f := unpackX x
    return .satom h (← aopOf (bitsOf f.mode 5 4)) (← tfmtOf (bitsOf f.mode 0 4)) (← swzOf (bitsOf f.mode 12 3)) (← decX4 f)
  | 0x90 => do
    let f := unpackX x
    return .tile h (← tfmtOf (bitsOf f.mode 0 5)) (← swzOf (bitsOf f.mode 5 2)) (← sparOf (bitsOf f.mode 7 2)) (← decX4 f)
  | 0x91 => do
    let f := unpackX x
    return .cpy h (← cpyOf (bitsOf f.mode 0 3)) (← flagOf (bitsOf f.mode 3 1)) (← regOf f.a) (← regOf f.b) (← regOf f.c)
  | 0x92 => do return .give h (← regOf (unpackX x).a)
  | 0x93 => do return .take h (← regOf (unpackX x).a)
  | 0x94 => do return .ownq h (← regOf (unpackX x).d) (← regOf (unpackX x).a)
  | 0x95 => do return .mma h (BitVec.ofNat 5 (unpackX x).mode) (← regOf (unpackX x).a) (← regOf (unpackX x).b)
  | 0x96 => do return .mmab h (BitVec.ofNat 5 (unpackX x).mode) (BitVec.ofNat 5 (bitsOf (unpackX x).mode 5 5)) (← regOf (unpackX x).b)
  | 0x97 => some (.accz h (BitVec.ofNat 5 (unpackX x).mode))
  | 0x98 => do return .accrd h (BitVec.ofNat 5 (unpackX x).mode) (← regOf (unpackX x).a)
  | 0x99 => do return .accld h (BitVec.ofNat 5 (unpackX x).mode) (← regOf (unpackX x).a)
  | 0x9A => some (.accw h (BitVec.ofNat 5 (unpackX x).mode))
  | 0x9B => do return .bndget h (← regOf (unpackX x).d) (BitVec.ofNat 5 (unpackX x).mode)
  | 0x9C => do return .bndset h (BitVec.ofNat 5 (unpackX x).mode) (← regOf (unpackX x).a)
  | 0xA0 => let m := (unpackX x).mode
    some (.bninit h (BitVec.ofNat 5 (bitsOf m 10 5)) (BitVec.ofNat 5 (bitsOf m 5 5)) (BitVec.ofNat 5 (bitsOf m 0 5)))
  | 0xA1 => some (.bna h (BitVec.ofNat 5 (bitsOf (unpackX x).mode 10 5)))
  | 0xA2 => some (.bnw h (BitVec.ofNat 5 (bitsOf (unpackX x).mode 10 5)))
  | 0xA3 => some (.bnaw h (BitVec.ofNat 5 (bitsOf (unpackX x).mode 10 5)))
  | 0xC0 => (decAtom (unpackX x)).map (Instr.atom h)
  | 0xC1 => do
    let f := unpackX x
    return .vatom h (← aopOf (bitsOf f.mode 5 4)) (← tfmtOf (bitsOf f.mode 0 5)) (← regOf f.d) (← regOf f.a) (← regOf f.b)
      (← ordOf (bitsOf f.mode 10 2)) (← scopeOf (bitsOf f.mode 12 3))
  | 0xC2 => do return .mmap h (BitVec.ofNat 5 (unpackX x).mode) (← regOf (unpackX x).a) (← regOf (unpackX x).b)
  | 0xD0 => do return .kvapp h (← regOf (unpackX x).a) (← regOf (unpackX x).b) (← regOf (unpackX x).c)
  | 0xD1 => do
    let f := unpackX x
    return .ksel h (← flagOf (bitsOf f.mode 0 1)) (← flagOf (bitsOf f.mode 1 1)) (← decX4 f)
  | 0xD2 => (decX4 (unpackX x)).map (Instr.attn h)
  | 0xD3 => do return .kvxl h (← regOf (unpackX x).d) (← regOf (unpackX x).a) (← regOf (unpackX x).b)
  | 0xE0 => do return .wqry h (← regOf (unpackX x).a)
  | 0xE1 => do
    let f := unpackX x
    return .signal h (← sigOf (bitsOf f.mode 5 4)) (← flagOf (bitsOf f.mode 11 1)) (← decSig f)
  | 0xE2 => do
    let f := unpackX x
    return .waits h (← ccOf (bitsOf f.mode 5 4)) (← flagOf (bitsOf f.mode 10 1)) (← decSig f)
  | 0xE3 => do return .cmpl h (← regOf (unpackX x).a)
  | 0xE4 => do return .dlaunch h (← regOf (unpackX x).a) (← regOf (unpackX x).b)
  | 0xE5 => do return .kvret h (← regOf (unpackX x).a)
  | 0xE6 => some (.svcall h (BitVec.ofNat 16 (unpackS x).sel))
  | 0xE8 => (regOf (unpackS x).a).map (Instr.ctxsv h)
  | 0xE9 => (regOf (unpackS x).a).map (Instr.ctxld h)
  | 0xEA => (regOf (unpackS x).a).map (Instr.prmt h)
  | 0xEB => (regOf (unpackS x).a).map (Instr.icinv h)
  | 0xF0 => do return .kvmap h (← regOf (unpackX x).a) (← regOf (unpackX x).b) (← regOf (unpackX x).c)
  | 0xF1 => do return .kvsd h (← regOf (unpackX x).a) (← regOf (unpackX x).b)
  | _ => none

/-- The header of a word (R22). -/
def headerOf (w : Word) : Option Hdr := do
  return { b := ← flagOf (fld w 63 1), stall := BitVec.ofNat 4 (fld w 59 4), mask := ← maskFieldOf (fld w 47 4) }

/-- Whether a word's OP is that of the one instruction with a literal word (R42). -/
def hasLiteral (w : Word) : Bool := fld w 51 8 == 0x43

/-- The instruction of a word, lit being the word after it (R22-R49). -/
def decodeWords (w lit : Word) : Except Reject Instr :=
  match headerOf w with
  | none => .error .mask
  | some h =>
    match candidate (fld w 51 8) h (fld w 0 47) lit with
    | none => .error .opcode
    | some i =>
      if legal i then
        match encode i with
        | some (v :: _) => if v = w then .ok i else .error .reserved
        | _ => .error .reserved
      else .error .limits

/-- The instruction that bytes begin with, and the bytes after it (R21). -/
def decode (b : List Byte) : Except Reject (Instr × List Byte) :=
  if b.length < 8 then .error .short
  else
    let w := wd (leNat (b.take 8))
    if hasLiteral w then
      if b.length < 16 then .error .short
      else (decodeWords w (wd (leNat ((b.drop 8).take 8)))).map (fun i => (i, b.drop 16))
    else (decodeWords w 0).map (fun i => (i, b.drop 8))

/-- The bytes of an instruction in memory (R21). -/
def encodeBytes (i : Instr) : Option (List Byte) :=
  (encode i).map (fun ws => (ws.map (fun w => leBytes 8 w.toNat)).flatten)

/-- The instruction the decoder reads from the nbits low bits of w, the first word lowest and zeros above. -/
def decodeTableWord (nbits w : Nat) : Option Instr :=
  match decode (leBytes 16 (w % 2 ^ nbits)) with
  | .ok (i, _) => some i
  | .error _ => none

end Sys2Proof
end

