-- ==== Sys2Proof/Config.lean ====
section
/-! DEFINITION. What an implementation fixes, and the free values: constants without a body, so that no proof can see one. -/

namespace Sys2Proof.Config

open Sys2Proof

/-- FREE VALUE (log entry 3). Which neighbour of the exact result a transcendental unit gives within the accuracy of
R115: arguments are the function's number, the operand's bits and a place. A function of the operand alone, since
R115 says that results depend neither on the placement nor on the run. -/
opaque ulpChoice : Nat → Word → Nat → Bool

/-- FREE VALUE (log entry 4). Cycles that pass in a core beyond those R145 gives an instruction (R6, R389), by event number. -/
opaque extraCycles : Nat → Nat

/-- FREE VALUE (log entry 5). Bytes for which the manual gives no value after the step that writes them. -/
opaque freeByte : Nat → Byte

/-- FREE VALUE (log entry 6). The bytes of the SHA-384 digest of a byte string (R381, R382), by number. -/
opaque sha384 : List Byte → Nat → Byte

/-- FREE VALUE (log entry 6). The bytes of the ECDSA signature over a digest (R381, R382), by number: key 0 is the module's identity key,
1 the vendor's. -/
opaque ecdsaSign : Nat → List Byte → Nat → Byte

/-- FREE VALUE (log entry 108). Whether bytes other than those of ecdsaSign verify as a signature of a key over a digest (R381). -/
opaque ecdsaOther : Nat → List Byte → List Byte → Bool

/-- FREE VALUE (log entry 6). The vendor public key whose digest is fused into the package (R381). -/
opaque vendorKey : List Byte

/-- FREE VALUE (log entry 6). The module's X.509 chain of three certificates (R382). -/
opaque certChain : Nat → List Byte

/-- FREE VALUE (log entry 6). The SPDM capability flags the root monitor answers GET_CAPABILITIES with (R382 names none). -/
opaque spdmCaps : Nat → List Byte

/-- FREE VALUE (log entry 7). Whether an L2 sector had been written back to memory before a partition reset drops it (R339). -/
opaque l2WrittenBack : Nat → Nat → Bool

/-- FREE VALUE (log entry 8). The numbers behind choices that the manual leaves open, by the counter that State keeps. -/
opaque freeNat : Nat → Nat

/-- FREE VALUE (log entry 12). The scale code of a block in an element format for which R88 lists no largest value: arguments
are the format's code and the F64 bits of the block's largest magnitude. -/
opaque freeScale : Nat → Nat → Nat

/-- FREE VALUE (log entry 13). Whether a chip's host supports PCI Express AtomicOps (R265). -/
opaque hostAtomics : Nat → Bool

/-- FREE VALUE (log entry 105). Where the kernel of a partition's service core begins (R337). -/
opaque serviceEntry : Nat → Word

/-- Compute cores per package (R1). -/
def coresPerChip : Nat := 320

/-- Compute clusters per package (R1). -/
def clustersPerChip : Nat := 80

/-- Work queues per package (R311). -/
def queuesPerChip : Nat := 131072

end Sys2Proof.Config
end

