-- ==== Sys2Proof/Machine/State.lean ====
section
/-! DEFINITION. Everything the manual gives the machine, as plain data, and the machine after reset. Numbered things are
held in sparse maps whose unlisted entries read as the reset value. Keys: a core is chip * 512 + n (n below 320 a compute
core of die n / 80, 320 + p the service core of partition p, 336 the root monitor); a partition chip * 16 + p; a cluster
chip * 80 + g; a queue chip * 131072 + q; memory its 52-bit fabric physical address (R366),
memory of a chip's host (chip + 1) * 2^52 + address; a word is numbered by its address / 8. -/

namespace Sys2Proof.Machine

open Sys2Proof

/-- The NIL constant (R32). -/
def nilVal : Val := ⟨.nil, 0⟩

/-- Warp trap causes (R156). -/
inductive Cause
  | mchk | ill | priv | xlat | prot | align | tagmem | poison | owner | sparse | bound | scale
  | stall | lcstk | nursery | kvmiss | bkpt | trap
deriving DecidableEq, Repr

/-! ## The lane (R64-R67, R141) -/

/-- A lane's activity state (R141): ready, waiting at a JOIN with its mask, exited, permanently inactive. -/
inductive Act
  | ready
  | waiting (j : Word) (m : MaskNo)
  | exited
  | inactive
deriving DecidableEq, Repr

/-- A lane's own state beside its registers and mask bits (R64, R65): lpc, elpc, lrpc are the payloads of the PTR
specials, csd and lcd the fields of LCDEPTH, stk the call stack, resv the granule of its LR reservation. -/
structure Lane where
  lpc : Word
  elpc : Word
  lopa : Val
  lopb : Val
  lopc : Val
  ldst : Word
  lrpc : Word
  csd : Nat
  lcd : Nat
  estat : Word
  stk : Sparse Word
  act : Act
  resv : Option Nat
deriving DecidableEq, Repr

/-- A lane that no launch has made ready. -/
def Lane.none : Lane :=
  { lpc := 0, elpc := 0, lopa := nilVal, lopb := nilVal, lopc := nilVal, ldst := 0, lrpc := 0, csd := 0, lcd := 0,
    estat := 0, stk := [], act := .inactive, resv := Option.none }

/-! ## The warp (R141-R148) -/

/-- What a warp that is not ready waits for (R146, R335). -/
inductive Wait
  | none
  | walk (vpns : List Nat)          -- page walks (R222)
  | pri (iova vpn : Nat)            -- a page request of the host (R359)
  | fill (line : Nat)               -- an instruction buffer line (R190)
  | fetchWalk (vpn : Nat)           -- the page walk of an instruction fetch (R222, R335)
  | fetchPri (iova vpn : Nat)       -- the page request of an instruction fetch (R335, R359)
  | take (granules : List Nat)      -- TAKE (R238)
  | bench (b : Nat)                 -- BNW, BNAW (R247)
  | benchRoom (b : Nat) (prod : Bool) -- an arrival beyond a bench's room (R247)
  | word (pa : Nat) (ext : Bool) (cc : Cc) (v : Word) -- WAITS (R326), and whether its page has EXT (R335)
  | sleep (till : Nat) (pc : Word) (ls : List Nat) -- SLEEP: the cycle it ends (R183), its address and lanes (R330)
  | yield                           -- YIELD (R183)
  | svcall                          -- SVCALL (R329)
  | ring (q : Nat)                  -- DLAUNCH on a full ring (R328)
  | record (q : Nat)                -- CMPL (R327)
  | kvsd (id : Nat)                 -- KVSD (R371)
  | kvHold (part : Nat)             -- a lookup under a KVSD's hold (R371)
  | kvapp                           -- an earlier KVAPP to the sequence (R292)
  | engine                          -- a full engine queue (R209, R211)
  | acc (tile : Nat)                -- earlier steps on a tile (R208)
  | requests                        -- a full request table (R187)
  | drain                           -- earlier atomics or appends of the warp (R223, R300)
  | acquire                         -- an atomic's acquire half (R260)
  | home                            -- a queued request to a word that a SWAP or CAS under the read barrier is to update (R216, R259)
  | stop (grid : Nat)               -- PRMT (R330)
  | lanes                           -- an SATOM whose later lanes are still to be performed (R233, R296)
deriving DecidableEq, Repr

/-- A trap that waits for the warp's older loads (R157). -/
structure TrapRec where
  cause : Cause
  lanes : List (Nat × Nat)          -- the lanes that had the cause, with the fault code of each
  eaddr : Val
  info : Nat
  past : List Nat                   -- lanes whose ELPC is the next instruction (TRAP, BKPT)
  pc : Word
deriving DecidableEq, Repr

/-- A warp: its lanes, registers, masks, specials (R142) and issue state. pend counts pending results per register
code, readyAt gives, per lane's slot of a register or mask, the issue slot at which a fixed-latency result of a lane handler may be read and
readyOut, in the slots outside lane handlers that outer counts, that of any other (R26), lrRun the lanes that an LR of the current run gave a reservation (R157), sel the lanes of a run that the
fairness rule handed to another group (R148), regBad the registers with an uncorrectable error (an even key for a lane register, an odd one for a uniform register) and mchkNext an MCHK due at the next issue (R219), arrived the addresses of BNAWs that have arrived and wait (R247), relFence the scope of a release fence, at
which the warp's later writes are releases (R299). -/
structure Warp where
  live : Bool
  core : Nat
  team : Nat
  wid : Nat
  width : Nat
  role : Nat
  nregs : Nat
  slot : Nat
  prio : Nat
  age : Nat
  lanes : Sparse Lane
  regs : Sparse Val
  uregs : Sparse Val
  masks : Sparse Word
  nurs : Word
  nlim : Word
  tvec : Word
  trapv : Word
  cause : Word
  eaddr : Val
  status : Word
  fcnt : Nat
  fptr : Word
  wp : Sparse Bool
  arrived : List Word
  halted : Bool
  stopped : Bool
  wait : Wait
  pendTrap : Option TrapRec
  walkFault : List (Nat × Cause)
  sel : Option Word
  slots : Nat
  outer : Nat
  readyAt : Sparse Nat
  readyOut : Sparse Nat
  pend : Sparse Nat
  lrRun : List Nat
  rx : Bool
  lastIssue : Nat
  reported : Bool
  regBad : Sparse Bool
  mchkNext : Bool
  relFence : Option Scope
deriving DecidableEq, Repr

/-- STATUS at launch of an ordinary warp (R143): F = 16, every other field 0. -/
def statusReset : Word := 0x1000

/-- A warp slot that holds no warp. -/
def Warp.none : Warp :=
  { live := false, core := 0, team := 0, wid := 0, width := 32, role := 0, nregs := 16, slot := 0, prio := 0, age := 0,
    lanes := [], regs := [], uregs := [], masks := [], nurs := 0, nlim := 0, tvec := 0, trapv := 0, cause := 0,
    eaddr := ⟨.int, 0⟩, status := statusReset, fcnt := 0, fptr := 0, wp := [], arrived := [], halted := false,
    stopped := false, wait := .none, pendTrap := Option.none, walkFault := [], sel := Option.none, slots := 0, outer := 0,
    readyAt := [], readyOut := [], pend := [], lrRun := [], rx := false, lastIssue := 0, reported := false, regBad := [], mchkNext := false,
    relFence := Option.none }

/-! ## The team's scratchpad, tiles and benches (R187-R206, R217) -/

/-- A bench (R217). -/
structure Bench where
  v : Bool
  ph : Bool
  pcnt : Nat
  ccnt : Nat
  parr : Nat
  carr : Nat
deriving DecidableEq, Repr

/-- A bench at reset. -/
def Bench.none : Bench := ⟨false, false, 0, 0, 0, 0⟩

/-- A selvage entry (R206). -/
structure Selvage where
  w : Bool
  x : Bool
  tau : BitVec 32
  peak : BitVec 32
  bound : BitVec 32
deriving DecidableEq, Repr

/-- A selvage entry at reset. -/
def Selvage.none : Selvage := ⟨false, false, 0, 0, 0⟩

/-- A fault recorded on a granule for the next TAKE (R200). none in eaddr: the address of the TAKE. -/
structure FaultRec where
  cause : Cause
  eaddr : Option Nat
deriving DecidableEq, Repr

/-- A resident or stopped team (R187, R331): its first granule in the core, its scratchpad bytes, owner bits (true: engine), fault records,
accumulator elements (tile * 4096 + 64 * row + column), selvage entries, benches, and the scratchpad words and accumulator tiles with
an uncorrectable error (R219). -/
structure Team where
  live : Bool
  core : Nat
  grid : Nat
  teamId : Nat
  nwarps : Nat
  scratchBytes : Nat
  nacc : Nat
  nbench : Nat
  part : Nat
  root : Nat
  version : Nat
  warps : List Nat
  base : Nat
  scratch : Sparse Byte
  owner : Sparse Bool
  frec : Sparse (Option FaultRec)
  acc : Sparse Word
  selv : Sparse Selvage
  benches : Sparse Bench
  scrBad : Sparse Bool
  accBad : Sparse Bool
  stopping : Bool
  stopped : Bool
  killed : Bool
deriving DecidableEq, Repr

/-- A team slot that holds no team. -/
def Team.none : Team :=
  { live := false, core := 0, grid := 0, teamId := 0, nwarps := 0, scratchBytes := 0, nacc := 0, nbench := 0, part := 0,
    root := 0, version := 0, warps := [], base := 0, scratch := [], owner := [], frec := [], acc := [], selv := [], benches := [],
    scrBad := [], accBad := [], stopping := false, stopped := false, killed := false }

/-! ## The core (R187-R216) -/

/-- A cached word of an L1 or an L2 slice (R212, R275): valid and dirty bytes, and the word's tag. -/
structure CWord where
  data : Word
  valid : BitVec 8
  dirty : BitVec 8
  tag : Tag
  tagDirty : Bool
  bad : Bool
deriving DecidableEq, Repr

/-- A word that the cache does not hold. -/
def CWord.none : CWord := ⟨0, 0, 0, .nil, false, false⟩

/-- A leaf of the page table as a translation buffer holds it (R340); pa and the flags of its leaf. -/
structure Leaf where
  pa : Nat
  ext : Bool
  rx : Bool
  h : Bool
  t : Bool
  s : Bool
  x : Bool
  w : Bool
  r : Bool
deriving DecidableEq, Repr

/-- A translation buffer entry: partition, root table and virtual page (R222, R341). -/
structure TlbEnt where
  part : Nat
  root : Nat
  vpn : Nat
  leaf : Leaf
deriving DecidableEq, Repr

/-- Where a result goes: a lane's slot of a lane register, a uniform register, or nowhere, in the lane named. -/
inductive Dst
  | lane (r l : Nat)
  | uni (n : Nat)
  | none (l : Nat)
deriving DecidableEq, Repr

/-- An outstanding request (R187, R257): the warp, what each destination receives once it is known, whether it is an
atomic, the address, and whether it may bring a REF that the region table in force at its issue lets through the read barrier: the
table stays in force until then (R215, R216, R259). -/
structure Req where
  warp : Nat
  outs : List (Dst × Option Val)
  atomic : Bool
  pa : Nat
  bar : Bool
deriving DecidableEq, Repr

/-- A variable-latency result that is not a memory request's (R26, R150): the warp, the register and mask numbers marked
pending until it arrives, and, for an SATOM, the lanes still to be performed, in ascending order. -/
structure Late where
  warp : Nat
  keys : List Nat
  i : Instr
  todo : List Nat
deriving DecidableEq, Repr

/-- A run in progress on an issue partition (R146-R148), with the warp's FCNT and FPTR as they were before it, which stand again
when it ends with nothing issued. -/
structure Run where
  active : Bool
  warp : Nat
  count : Nat
  multi : Bool
  low : Bool
  next : Word
  fcnt : Nat
  fptr : Word
deriving DecidableEq, Repr

/-- No run. -/
def Run.none : Run := ⟨false, 0, 0, false, false, 0, 0, 0⟩

/-- A copy in the copy engine's queue (R211, R235), with the warp that issued it (R304). -/
structure CopyOp where
  team : Nat
  warp : Nat
  mode : CpyMode
  out : Bool
  tile : Word
  va : Nat
  c : Word
deriving DecidableEq, Repr

/-- What the matrix array's queue holds (R209, R243). -/
inductive MatKind
  | mma (a b : Word)
  | mmab (src : Nat) (b : Word)
  | mmap (a b : Word)
  | accz
  | accw
  | accld (a : Word)
  | bndset (tau : BitVec 32)
deriving DecidableEq, Repr

/-- An entry of the matrix array's queue. -/
structure MatOp where
  team : Nat
  acc : Nat
  kind : MatKind
deriving DecidableEq, Repr

/-- An instruction buffer line (R190): its physical line, code version and payload words; none: the word was uncorrectable
when the line was filled (R294). -/
structure IbLine where
  line : Nat
  version : Nat
  words : List (Option Word)
deriving DecidableEq, Repr

/-- A core. rgnDue holds the writes of its region table that come into force at its next run boundary (R215). -/
structure Core where
  cyc : Nat
  l1 : Sparse CWord
  hdrp : Sparse (Option (Val × Nat))
  rgn : Sparse Word
  rgnDue : List (Nat × Word)
  tlb : List TlbEnt
  ktb : Sparse Word
  ibuf : List IbLine
  runs : Sparse Run
  copyq : List CopyOp
  matq : List MatOp
  reqs : Sparse (Option Req)
  late : Sparse (Option Late)
  nextReq : Nat
deriving DecidableEq, Repr

/-- A core at reset. -/
def Core.none : Core :=
  { cyc := 0, l1 := [], hdrp := [], rgn := [], rgnDue := [], tlb := [], ktb := [], ibuf := [], runs := [], copyq := [], matq := [],
    reqs := [], late := [], nextReq := 1 }

/-! ## The cluster's atomic service warp (R255-R270) -/

/-- What a request asks the ASW to perform. -/
inductive AswOp
  | atom (op : AOp) (lanes : List (Dst × Val × Val))    -- ascending lanes of one word (R261)
  | vatom (op : AOp) (ef : TFmt) (lanes : List (Dst × Nat × Word)) -- spans of one block (R264)
  | hcas (d : Dst) (va : Nat) (b c : Val)
  | signal (op : SigOp) (b : Word)
  | pcie (op : PcieAtomic) (b c : Word)
  | peer (op : AOp) (b c : Val)                         -- an atomic of another chip, answered over the link (R255, R366)
deriving DecidableEq, Repr

/-- A queued request with its return slot (R255, R257; slot 0: no reply), the warp that made it, and the acquire its read
half is (R260). -/
structure AswReq where
  core : Nat
  slot : Nat
  warp : Nat
  pa : Nat
  tagged : Bool
  op : AswOp
  acq : Option Scope
  racq : Bool
deriving DecidableEq, Repr

/-- An atomic service warp: its queue of 256 entries, the requests that wait in their sources for room in it, in order of arrival,
the source that the round-robin served last (R252, R256), and whether its engine takes requests. -/
structure Asw where
  queue : List AswReq
  waiting : List AswReq
  lastSrc : Nat
  halted : Bool
deriving DecidableEq, Repr

/-- An ASW at reset. -/
def Asw.none : Asw := ⟨[], [], 0, false⟩

/-! ## The partition (R337, R341, R342, R366, R368) -/

/-- A half of a first-stage entry (R368): the R279 fields TIER, CHIP, GBN, when valid. -/
structure KvEntry where
  cur : Option Word
  next : Option Word
  p : Bool
deriving DecidableEq, Repr

/-- A block without a first-stage entry. -/
def KvEntry.none : KvEntry := ⟨Option.none, Option.none, false⟩

/-- A sequence slot (R342): absent, LIVE or DRAINING, the epoch bit and both counters. -/
structure KvSlot where
  live : Bool
  draining : Bool
  e : Bool
  cnt0 : Nat
  cnt1 : Nat
  told : Bool
deriving DecidableEq, Repr

/-- A sequence number without a slot. -/
def KvSlot.none : KvSlot := ⟨false, false, false, 0, 0, false⟩

/-- What a service core or the root monitor has been told (R222, R335, R345, R383). -/
inductive Report
  | watchdog (w : Nat) (reason : Nat)
  | halted (w : Nat)
  | dropped (pa : Nat)
  | refused (chip part pa : Nat)
  | signalTag (pa : Nat)
  | aswStopped (cluster : Nat)
  | drained (seq : Nat)
  | graphNode (graph node : Nat)
  | netRetry (core : Nat)
  | softError (kind unit addr : Nat)
  | svcall (w n : Nat) (regs : List Val)
  | unsupported (vf bar offset : Nat)
  | flr (vf : Nat)
  | priRequest (part iova : Nat)
  | killedGrid (grid : Nat)
  | linkDown (chip link : Nat)
deriving DecidableEq, Repr

/-- The registers through which the root monitor sets a service core's own mappings, in its own window: those of a control page (R341), with
the first page and the count of the TBGO under way. -/
structure CtlPage where
  ptroot : Word
  tbva : Word
  tbpages : Word
  tbbusy : Bool
  tbFirst : Nat
  tbCount : Nat
  rgnidx : Nat
  rgnt : Sparse Word
deriving DecidableEq, Repr

/-- Such a window at reset. -/
def CtlPage.none : CtlPage := ⟨0, 0, 0, false, 0, 0, 0, []⟩

/-- A partition: its record in force and as written (R337, R368), control page (R341), region table as written, fabric access table (V in bit 4, PPART in [3:0]; R366),
first-stage entries, sequence slots, granted 2 MiB regions in MEMTAB order, the host's translations and the pages it refused (R359), the
window of its service core's own mappings, the queue that the rotation of R319 favours next at each priority, the current code version of each entry (R313, R320), the lane handler table
and trap entry that its runtime gives launches that name none (R313), the first page and the count of the TBGO under way (R341), and the
reports its service core got. -/
structure Part where
  words : Sparse Word
  staged : Sparse Word
  valid : Bool
  grants : List Nat
  ptroot : Word
  tbva : Word
  tbpages : Word
  tbbusy : Bool
  rgnidx : Nat
  rgnt : Sparse Word
  fat : Sparse Word
  kv : Sparse KvEntry
  slots : Sparse KvSlot
  iommu : Sparse (Option Nat)
  prifail : List Nat
  nextq : Sparse Nat
  versions : Sparse Nat
  rtTvec : Word
  rtTrapv : Word
  tbFirst : Nat
  tbCount : Nat
  own : CtlPage
  svc : List Report
deriving DecidableEq, Repr

/-- A partition at reset (R379 stage 4). -/
def Part.none : Part :=
  { words := [], staged := [], valid := false, grants := [], ptroot := 0, tbva := 0, tbpages := 0, tbbusy := false, rgnidx := 0,
    rgnt := [], fat := [], kv := [], slots := [], iommu := [], prifail := [], nextq := [], versions := [], rtTvec := 0,
    rtTrapv := 0, tbFirst := 0, tbCount := 0, own := CtlPage.none, svc := [] }

/-! ## The Dresser (R311-R322) -/

/-- A completion record not yet written (R312, R322): index, grid number, status, kind, user value, and the warp that
waits for it (CMPL), or the signal to perform after it. -/
structure Compl where
  index : Nat
  gridno : Nat
  status : Nat
  kind : Nat
  user : Word
  warp : Option Nat
  sig : Option (SigOp × Nat × Word)
deriving DecidableEq, Repr

/-- A record that has been taken and waits for its word (R316): its words, its partition, and the code version that taking it bound (R320);
version 0 binds none. -/
structure HeldRec where
  words : List Word
  part : Nat
  version : Nat
deriving DecidableEq, Repr

/-- A work queue: its register block (R311), whether it stopped, the record that waits for its word, held completion records. -/
structure Queue where
  rbase : Word
  rlog : Nat
  pmax : Nat
  en : Bool
  tail : BitVec 32
  head : BitVec 32
  cbase : Word
  clog : Nat
  vec : Nat
  chead : BitVec 32
  ctail : BitVec 32
  err : BitVec 4
  stopped : Bool
  holdCompl : Bool
  waiting : Option HeldRec
  held : List Compl
deriving DecidableEq, Repr

/-- A queue at reset. -/
def Queue.none : Queue :=
  { rbase := 0, rlog := 0, pmax := 0, en := false, tail := 0, head := 0, cbase := 0, clog := 0, vec := 0, chead := 0,
    ctail := 0, err := 0, stopped := false, holdCompl := false, waiting := Option.none, held := [] }

/-- A grid (R321): the queue and ring index it came from, its 16 record words, its node in a graph, the next team to
place, its live-warp count, the next WQRY item. A number that a grid has had is used (R332). -/
structure Grid where
  live : Bool
  used : Bool
  queue : Nat
  index : Nat
  part : Nat
  version : Nat
  words : List Word
  node : Option (Nat × Nat)
  nextTeam : Nat
  warpsLeft : Nat
  nextItem : Nat
  stopped : Bool
  killed : Bool
deriving DecidableEq, Repr

/-- No grid. -/
def Grid.none : Grid :=
  { live := false, used := false, queue := 0, index := 0, part := 0, version := 0, words := [], node := Option.none, nextTeam := 0,
    warpsLeft := 0, nextItem := 0, stopped := false, killed := false }

/-- A running graph (R317): its queue, ring index, record, nodes as read with the code versions that taking the graph bound (R320), working
counts, the nodes that are done, running, waiting for their word and reported, and whether a team of it was killed. -/
structure Graph where
  live : Bool
  queue : Nat
  index : Nat
  part : Nat
  words : List Word
  nodes : List (List Word)
  versions : List Nat
  counts : Sparse Nat
  done : List Nat
  running : List Nat
  waiting : List Nat
  reported : List Nat
  killed : Bool
deriving DecidableEq, Repr

/-- No graph. -/
def Graph.none : Graph := ⟨false, 0, 0, 0, [], [], [], [], [], [], [], [], false⟩

/-! ## Work in flight at the die (R282-R289, R324, R371) -/

/-- An append on its way to its home slice (R277, R282), with the scope of the release that it is (R299). -/
structure Append where
  warp : Nat
  rel : Option Scope
  part : Nat
  seqKey : Nat
  kpa : Nat
  vpa : Nat
  home : Nat
  t : Nat
  k : List Word
  v : List Word
deriving DecidableEq, Repr

/-- A KSEL handed to the page selectors: its result once PAGE_SELECT has run (count word and entries, or a fault). -/
structure KselOp where
  core : Nat
  team : Nat
  warp : Nat
  part : Nat
  tile : Word
  q : List Word
  desc : Word
  t : Nat
  win : Nat
  sink : Bool
  recent : Bool
  result : Option (List Word × Option Cause)
  epochs : List (Nat × Bool)
deriving DecidableEq, Repr

/-- A softmax triple (R288): m, l and the 128 channels of o, as F32 bits. -/
structure Triple where
  m : BitVec 32
  l : BitVec 32
  o : List (BitVec 32)
deriving DecidableEq, Repr

/-- A block that an ATTN has still to compute: its number, key and value pages, home slice and valid tokens (R277, R287). -/
structure AttnBlock where
  block : Nat
  kpa : Nat
  vpa : Nat
  home : Nat
  n : Nat
deriving DecidableEq, Repr

/-- An ATTN in progress: the listed blocks with the chips that compute them, the blocks still to compute, partial triples not yet
merged with all, by block, or by 65,536 + block once another block's triple has been merged into it, and the merged triple. -/
structure AttnOp where
  core : Nat
  team : Nat
  warp : Nat
  part : Nat
  tile : Word
  q : List Word
  desc : Word
  chips : List (Nat × Nat)
  todo : List AttnBlock
  partials : List (Nat × Triple)
  acc : Option Triple
  fault : Option Cause
  epochs : List (Nat × Bool)
deriving DecidableEq, Repr

/-- A KVSD between its hold and its last step (R371): the keys it holds (n from key lo), the entries with P = 1 among them,
the chips asked to invalidate, and the chips that still owe an acknowledgment. -/
structure KvsdOp where
  id : Nat
  warp : Nat
  part : Nat
  lo : Nat
  n : Nat
  keys : List Nat
  asked : List Nat
  owed : List Nat
deriving DecidableEq, Repr

/-! ## Host link, streams, bring-up (R357-R386) -/

/-- Frame bytes in a slot's staging, and whether the frame began with the window's staging full (R363). -/
structure Stage where
  bytes : Sparse (Option Byte)
  count : Nat
  full : Bool
deriving DecidableEq, Repr

/-- A stream window block (R362) and its staging. -/
structure Win where
  slotbase : Word
  en : Bool
  stg : Nat
  slog : Nat
  fsize : Nat
  arraddr : Word
  baseseq : Word
  arr : Word
  consaddr : Word
  drop : BitVec 32
  err : BitVec 4
  stage : Sparse (Option Stage)
deriving DecidableEq, Repr

/-- A stream window at reset. -/
def Win.none : Win := ⟨0, false, 0, 0, 0, 0, 0, 0, 0, 0, 0, []⟩

/-- BOOTSTAT (R380). -/
structure Boot where
  errcode : BitVec 8
  stage : BitVec 8
  ready : Bool
deriving DecidableEq, Repr

/-- The debug window (R384). -/
structure Dbg where
  len : Nat
  sts : Nat
  arg0 : Word
  arg1 : Word
  arg2 : Word
  arg3 : Word
  data : List Byte
  tags : List Byte
deriving DecidableEq, Repr

/-- What the root monitor last answered over SPDM (R382). -/
inductive SpdmResp
  | none
  | version (v : Nat)
  | capabilities (b : List Byte)
  | algorithms (baseAsym : Nat) (ext : Option (Nat × Nat)) (hash384 measHash384 measDmtf : Bool)
  | digests (d : List Byte)
  | certificate (b : List Byte)
  | challengeAuth (sig : List Byte)
  | measurements (blocks : List (Nat × List Byte)) (sig : Option (List Byte))
  | error
deriving DecidableEq, Repr

/-- What reads and AtomicOps from outside have been answered with (R358, R360, R366). -/
inductive Answer
  | data (b : List Byte)
  | value (v : Val)
  | unsupported
  | abort
  | retry
  | done
deriving DecidableEq, Repr

/-- One entry of a chip's error log (R383); part is the number on the chip, 0x1F for none. -/
structure LogEnt where
  seq : Nat
  kind : Nat
  unit : Nat
  addr : Nat
  cyc : Nat
  part : Nat
deriving DecidableEq, Repr

/-- Who acts next: a device event with its arguments, an issue partition (core * 8 + partition) issuing, or the boot sequence with its next
stage (R379). -/
inductive Turn
  | ev (i : Instr)
  | issue (p : Nat)
  | boot
deriving DecidableEq, Repr

/-- The machine. -/
structure State where
  mem : List Host.Cell               -- payload bytes by address (R3, R366)
  tags : Sparse Tag                  -- tag shadow, by address / 8 (R72)
  tagged : Sparse Bool               -- region kind by address / 2^21: true tagged (R72)
  bad : Sparse Bool                  -- poisoned marks by address / 8 (R390)
  l2 : Sparse CWord                  -- L2 contents beside memory, by address / 8 (R275)
  l2lru : Sparse (List Nat)          -- lines of each set, most recent first (R273, R275)
  releaser : Sparse Nat              -- releaser field of a line: core + 1, 0 empty (R302)
  code : List (Nat × Nat × Nat × Nat) -- code pages: first page, number of pages, partition and version (R190, R305, R320)
  cores : Sparse Core
  teams : Sparse Team
  warps : Sparse Warp
  asws : Sparse Asw
  parts : Sparse Part
  queues : Sparse Queue
  grids : Sparse Grid
  graphs : Sparse Graph
  slkv : Sparse (Sparse Word)        -- first-stage entries in the KTB of a slice, by home slice (R280)
  sktb : Sparse (Sparse Word)        -- second-stage words kept by a chip's slices, (partition * 2^32 + GBN) * 2 + word (R280, R371)
  appends : List Append
  ksels : List KselOp
  attns : List AttnOp
  wqrys : List (Nat × Word)          -- team and reply tile of WQRYs in flight (R324)
  kvsds : List KvsdOp
  wins : Sparse Win                  -- stream windows, (chip * 16 + VF) * 64 + window (R362)
  linkUp : Sparse Bool               -- links that are down, chip * 16 + link: false up
  lost : Sparse Bool                 -- chips, CXL ports (64 + chip * 4 + port) and hosts (512 + chip) that do not answer (R222, R270, R367)
  chanBad : Sparse Bool              -- LPDDR-6 channels that keep failing, (chip * 4 + die) * 24 + channel (R271, R294)
  routes : Sparse (List Nat)         -- links of a destination chip, chip * 64 + destination (R367)
  decoders : Sparse (Nat × Nat × Nat) -- CXL decoders: base, size, port set (R365)
  vfReset : Sparse Nat               -- of a VF: one more than the partition that its FLR reset, until VALID (R360)
  vfCount : Sparse Nat               -- requests that such a reset has turned away, by VF (R360)
  msixTab : Sparse Byte              -- MSI-X tables, function * 2^17 + offset: 0 the PF, n + 1 VF n (R358)
  boot : Boot
  bootRun : Option BootIn            -- what the boot sequence under way finds (R379)
  vfsUp : Bool                       -- the VFs have been enabled since the module's reset (R380)
  fuses : Sparse Nat                 -- rollback fuse counts (R381)
  images : Sparse Nat                -- versions of the four images (R381)
  firmware : Sparse (List Byte)      -- the four images that run: root monitor, service core, ASW, link controller (R381)
  dbg : Dbg
  mbox : List (Nat × Nat × List Byte × List Byte) -- root monitor mailbox answers: partition, DBGSTS, data, tags (R386)
  spdm : SpdmResp
  spdmExt : Bool                     -- the extended signing algorithm is negotiated (R382)
  ecc : Sparse Nat                   -- corrected-error counters (R383)
  errlog : Sparse (List LogEnt)      -- the root monitor's error log, by chip (R383)
  errseq : Sparse Nat                -- SEQ of its next entry, by chip
  rootReports : List Report          -- what the root monitor has been told
  answers : List Answer              -- what requesters outside have been answered
  msix : List (Nat × Nat)            -- MSI-X messages sent: function, vector (R322)
  nextGrid : Nat
  nextTeam : Nat
  nextWarp : Nat
  nextKvsd : Nat
  age : Nat
  cur : Nat                          -- the warp that issues
  turn : Nat                         -- the issue partition whose turn it is
  free : Nat                         -- number of the next free value (the model's own)
  agenda : List Turn                 -- what acts next, in order (the model's own)
deriving DecidableEq, Repr

/-- Why a step could stop. No step of this model answers one: every outcome the manual gives an instruction or an event
is a next state (traps, halts, waits and refusals of a request are states). -/
inductive Fault
  /-- Raised by nothing; kept so that the type is closed and named. Safe. -/
  | none_raised
deriving DecidableEq, Repr

/-- Why a step could be refused. -/
inductive Refusal
  /-- An instruction that has no meaning yet, by its mnemonic: raised by an arm of exec alone. Safe. -/
  | notModelled (mnemonic : String)
deriving DecidableEq, Repr

/-- A memory byte that nothing has written reads zero: power-up clears every byte (R75, R379). -/
def memDefault : Byte := 0

/-- The canonical form of memory: rising addresses, no entry equal to what an unlisted address reads as. -/
abbrev Memory.wf (m : List Host.Cell) : Prop := spWf memDefault m = true

/-- The machine right after reset: every register at the Reset column of its map (so BOOTSTAT reads 0 until POWER_ON has run,
R380), memory and shadows clear (R75), every structure
at reset, no partition is valid, no warp is resident. -/
def State.reset : State :=
  { mem := [], tags := [], tagged := [], bad := [], l2 := [], l2lru := [], releaser := [], code := [], cores := [], teams := [],
    warps := [], asws := [], parts := [], queues := [], grids := [], graphs := [], slkv := [], sktb := [], appends := [], ksels := [],
    attns := [], wqrys := [], kvsds := [], wins := [], linkUp := [], lost := [], chanBad := [], routes := [], decoders := [],
    vfReset := [], vfCount := [], msixTab := [], boot := ⟨0, 0, false⟩, bootRun := none, vfsUp := false, fuses := [], images := [], firmware := [], dbg := ⟨0, 0, 0, 0, 0, 0, [], []⟩, mbox := [], spdm := .none, spdmExt := false,
    ecc := [], errlog := [], errseq := [], rootReports := [], answers := [], msix := [], nextGrid := 1, nextTeam := 1,
    nextWarp := 1, nextKvsd := 1, age := 0, cur := 0, turn := 0, free := 0, agenda := [] }

end Sys2Proof.Machine
end

