-- ==== Sys2Proof/Machine/Acc.lean ====
section
/-! DEFINITION. Readers and writers of the machine's numbered parts. Every meaning goes through these. -/

namespace Sys2Proof.Machine

open Sys2Proof

/-- Apply f to every value of a sparse map; a key whose value becomes the default is removed. -/
def spMap {α : Type} [DecidableEq α] (d : α) (f : Nat → α → α) (m : Sparse α) : Sparse α :=
  let n := m.map (fun e => (e.1, f e.1 e.2))
  if n.any (fun e => decide (e.2 = d)) then n.filter (fun e => decide (spGet d n e.1 ≠ d)) else n

/-- The keys whose value satisfies p; the first entry of a key is its value. -/
def spFind {α : Type} : Sparse α → (Nat → α → Bool) → List Nat
  | [], _ => []
  | (k, v) :: r, p => (if p k v then [k] else []) ++ (spFind r p).filter (fun j => decide (j ≠ k))

/-! ## Cores, warps, teams, partitions, queues, grids -/

def coreOf (s : State) (c : Nat) : Core := spGet Core.none s.cores c
def setCore (s : State) (c : Nat) (x : Core) : State := { s with cores := spSet Core.none s.cores c x }
def updCore (s : State) (c : Nat) (f : Core → Core) : State := setCore s c (f (coreOf s c))

def warpOf (s : State) (w : Nat) : Warp := spGet Warp.none s.warps w
def setWarp (s : State) (w : Nat) (x : Warp) : State := { s with warps := spSet Warp.none s.warps w x }
def updWarp (s : State) (w : Nat) (f : Warp → Warp) : State := setWarp s w (f (warpOf s w))

def teamOf (s : State) (t : Nat) : Team := spGet Team.none s.teams t
def setTeam (s : State) (t : Nat) (x : Team) : State := { s with teams := spSet Team.none s.teams t x }
def updTeam (s : State) (t : Nat) (f : Team → Team) : State := setTeam s t (f (teamOf s t))

def partOf (s : State) (p : Nat) : Part := spGet Part.none s.parts p
def setPart (s : State) (p : Nat) (x : Part) : State := { s with parts := spSet Part.none s.parts p x }
def updPart (s : State) (p : Nat) (f : Part → Part) : State := setPart s p (f (partOf s p))

def queueOf (s : State) (q : Nat) : Queue := spGet Queue.none s.queues q
def setQueue (s : State) (q : Nat) (x : Queue) : State := { s with queues := spSet Queue.none s.queues q x }
def updQueue (s : State) (q : Nat) (f : Queue → Queue) : State := setQueue s q (f (queueOf s q))

def gridOf (s : State) (g : Nat) : Grid := spGet Grid.none s.grids g
def setGrid (s : State) (g : Nat) (x : Grid) : State := { s with grids := spSet Grid.none s.grids g x }
def updGrid (s : State) (g : Nat) (f : Grid → Grid) : State := setGrid s g (f (gridOf s g))

def graphOf (s : State) (g : Nat) : Graph := spGet Graph.none s.graphs g
def setGraph (s : State) (g : Nat) (x : Graph) : State := { s with graphs := spSet Graph.none s.graphs g x }

def aswOf (s : State) (g : Nat) : Asw := spGet Asw.none s.asws g
def setAsw (s : State) (g : Nat) (x : Asw) : State := { s with asws := spSet Asw.none s.asws g x }

def winOf (s : State) (w : Nat) : Win := spGet Win.none s.wins w
def setWin (s : State) (w : Nat) (x : Win) : State := { s with wins := spSet Win.none s.wins w x }

/-! ## Numbering (R1, R142, R252) -/

/-- Chip of a core, partition record word, cluster and queue key. -/
def coreChip (c : Nat) : Nat := c / 512
def coreNum (c : Nat) : Nat := c % 512
/-- A service core or the root monitor core. -/
def isService (c : Nat) : Bool := decide (320 ≤ c % 512)
/-- Die, core within the die and cluster within the die of a compute core; service cores count from 0 on die 0. -/
def coreDie (c : Nat) : Nat := if isService c then 0 else coreNum c / 80
def coreInDie (c : Nat) : Nat := if isService c then coreNum c - 320 else coreNum c % 80
/-- Global cluster key of a compute core: chip * 80 + g, g = core / 4. -/
def coreCluster (c : Nat) : Nat := coreChip c * 80 + coreNum c / 4

/-- Whether cluster g (0-79) is granted to a partition's record (R337). -/
def hasCluster (p : Part) (g : Nat) : Bool :=
  if g < 64 then bitAt (spGet 0 p.words 0) g else bitAt (spGet 0 p.words 1) (g - 64)

/-- The clusters of a partition in ascending order (R254). -/
def clustersOf (p : Part) : List Nat := (List.range 80).filter (hasCluster p)

/-- The partition a core belongs to (R252, R337); the root monitor counts with partition 0 of its chip. -/
def corePart (s : State) (c : Nat) : Option Nat :=
  let base := coreChip c * 16
  if isService c then some (base + (coreNum c - 320) % 16)
  else ((List.range 16).find? (fun p => (partOf s (base + p)).valid && hasCluster (partOf s (base + p)) (coreNum c / 4))).map
    (fun p => base + p)

/-- The partition of a warp: its team's. -/
def warpPart (s : State) (w : Nat) : Nat := (teamOf s (warpOf s w).team).part

/-- The cores of a partition, its service core last. -/
def coresOf (s : State) (p : Nat) : List Nat :=
  let chip := p / 16
  ((clustersOf (partOf s p)).map (fun g => (List.range 4).map (fun i => chip * 512 + g * 4 + i))).flatten
    ++ [chip * 512 + 320 + p % 16]

/-! ## Lanes, registers, masks -/

def laneOf (x : Warp) (l : Nat) : Lane := spGet Lane.none x.lanes l
def setLane (x : Warp) (l : Nat) (y : Lane) : Warp := { x with lanes := spSet Lane.none x.lanes l y }
def updLane (x : Warp) (l : Nat) (f : Lane → Lane) : Warp := setLane x l (f (laneOf x l))
/-- Apply f to each listed lane. -/
def updLanes (x : Warp) (ls : List Nat) (f : Nat → Lane → Lane) : Warp :=
  ls.foldl (fun y l => updLane y l (f l)) x

/-- Where a warp keeps lane register r of lane l. -/
def laneKey (r l : Nat) : Nat := l * 128 + r
/-- Error marks: an even number for a lane register, an odd one for a uniform register. -/
def laneBadKey (r l : Nat) : Nat := 2 * laneKey r l
def uniBadKey (r : Nat) : Nat := 2 * r + 1

def laneReg (x : Warp) (r l : Nat) : Val := spGet nilVal x.regs (laneKey r l)
def setLaneReg (x : Warp) (r l : Nat) (v : Val) : Warp :=
  { x with regs := spSet nilVal x.regs (laneKey r l) v, regBad := spSet false x.regBad (laneBadKey r l) false }
def uniReg (x : Warp) (r : Nat) : Val := spGet nilVal x.uregs r
def setUniReg (x : Warp) (r : Nat) (v : Val) : Warp :=
  { x with uregs := spSet nilVal x.uregs r v, regBad := spSet false x.regBad (uniBadKey r) false }

/-- The value a register field reads in a lane (R29, R32). -/
def readReg (x : Warp) (r : Reg) (l : Nat) : Val :=
  match r with
  | .lane n => laneReg x n.toNat l
  | .uni n => uniReg x n.toNat
  | .nil => nilVal

/-- The one writer of a register field in a lane: NIL discards the result (R32). -/
def writeReg (x : Warp) (r : Reg) (l : Nat) (v : Val) : Warp :=
  match r with
  | .lane n => setLaneReg x n.toNat l v
  | .uni n => setUniReg x n.toNat v
  | .nil => x

def maskReg (x : Warp) (m : Nat) : Word := spGet 0 x.masks m
def maskBit (x : Warp) (m l : Nat) : Bool := bitAt (maskReg x m) l

def isReady (y : Lane) : Bool := decide (y.act = .ready)
def isWaiting (y : Lane) : Bool :=
  match y.act with
  | .waiting .. => true
  | _ => false
/-- Neither exited nor permanently inactive. -/
def isAlive (y : Lane) : Bool := isReady y || isWaiting y

def lanesOf (x : Warp) : List Nat := List.range x.width
def aliveLanes (x : Warp) : List Nat := (lanesOf x).filter (fun l => isAlive (laneOf x l))
def readyLanes (x : Warp) : List Nat := (lanesOf x).filter (fun l => isReady (laneOf x l))

/-- The word whose set bits are the listed lanes. -/
def laneSet (ls : List Nat) : Word := ls.foldl (fun w l => setBit w l true) 0

/-- Writing a mask: bits of exited and permanently inactive lanes stay clear (R151, R169). -/
def setMask (x : Warp) (m : Nat) (v : Word) : Warp :=
  { x with masks := spSet 0 x.masks m (v &&& laneSet (aliveLanes x)) }

/-! ## Free values -/

/-- The next free number of the model (log entry 8), and the machine that has used it. -/
def takeFree (s : State) : Nat × State := (Config.freeNat s.free, { s with free := s.free + 1 })

/-- Tell a partition's service core. -/
def tellSvc (s : State) (p : Nat) (r : Report) : State := updPart s p (fun x => { x with svc := x.svc ++ [r] })
/-- Tell the root monitor. -/
def tellRoot (s : State) (r : Report) : State := { s with rootReports := s.rootReports ++ [r] }

end Sys2Proof.Machine
end

