-- ==== Sys2Proof/Machine/Mem.lean ====
section
/-! DEFINITION. Memory at its homes: the address map (R3), bytes, tag shadow and poisoned marks (R72, R390), the homes of
lines (R254, R272), the L2 slices (R273, R275), and what a write performed at a home does to reservations (R161, R303). -/

namespace Sys2Proof.Machine

open Sys2Proof

/-! ## The address map (R3) -/

/-- Regions of the local map, and host memory. -/
inductive Region
  | lpddr
  | vault (g : Nat)
  | cxl (port : Nat)
  | queues
  | control
  | host
  | unmapped
deriving DecidableEq, Repr

/-- The chip that holds an address, or whose host does. -/
def paChip (pa : Nat) : Nat := if pa < 2 ^ 52 then pa / 2 ^ 46 else pa / 2 ^ 52 - 1
/-- The chip-local address. -/
def paLocal (pa : Nat) : Nat := pa % 2 ^ 46
/-- Ports of an interleave set. -/
def portsOf (set : Nat) : List Nat := (List.range 4).filter (fun p => set.testBit p)

/-- The CXL port of a local address, if a decoder names it (R365). -/
def cxlPort (s : State) (chip loc : Nat) : Option Nat :=
  ((List.range 8).findSome? (fun n =>
    let d := spGet (0, 0, 0) s.decoders (chip * 8 + n)
    if d.1 ≤ loc ∧ loc < d.1 + d.2.1 then
      let ps := portsOf d.2.2
      ps[(loc / 4096) % ps.length]?
    else none))

/-- The region of an address. -/
def regionOf (s : State) (pa : Nat) : Region :=
  if 2 ^ 52 ≤ pa then .host
  else
    let a := paLocal pa
    if a < 0x0180_0000_0000 then .lpddr
    else if a < 0x1000_0000_0000 then .unmapped
    else if a < 0x1001_4000_0000 then
      if (a - 0x1000_0000_0000) % 0x400_0000 < 0x240_0000 then .vault ((a - 0x1000_0000_0000) / 0x400_0000) else .unmapped
    else if a < 0x2000_0000_0000 then .unmapped
    else if a < 0x3000_0000_0000 then
      match cxlPort s (paChip pa) a with
      | some p => .cxl p
      | none => .unmapped
    else if a < 0x3000_0080_0000 then .queues
    else if a < 0x3000_0100_0000 then .unmapped
    else if a < 0x3000_0101_0000 then .control
    else .unmapped

/-- Whether the region of an address is recorded as tagged (R72); host memory and device windows are raw. -/
def isTagged (s : State) (pa : Nat) : Bool := decide (pa < 2 ^ 52) && spGet false s.tagged (pa / 2 ^ 21)

/-! ## Bytes, shadow and marks -/

/-- A word with its tag and whether it is uncorrectable. -/
structure WV where
  data : Word
  tag : Tag
  bad : Bool
deriving DecidableEq, Repr

def memByte (s : State) (a : Nat) : Byte := spGet memDefault s.mem a
def setMemByte (s : State) (a : Nat) (b : Byte) : State := { s with mem := spSet memDefault s.mem a b }

/-- The eight bytes of word k, the low byte first. -/
def memWord (s : State) (k : Nat) : Word := wd (leNat ((List.range 8).map (fun i => memByte s (k * 8 + i))))

/-- The fold G of R272 of a line number. -/
def lineFold (line : Nat) : Nat :=
  let l := line % 2 ^ 44
  Nat.xor (Nat.xor l (l >>> 11)) (Nat.xor (l >>> 22) (l >>> 33))

/-- The LPDDR-6 channel of an address, (chip * 4 + die) * 24 + channel (R271, R272). -/
def lpddrChannel (pa : Nat) : Nat :=
  let g := lineFold (pa / 256)
  (paChip pa * 4 + g % 4) * 24 + bitsOf g 2 14 * 24 / 2 ^ 14

/-- Whether an address lies on an LPDDR-6 channel that keeps failing: its lines read as uncorrectable (R294). -/
def channelBad (s : State) (pa : Nat) : Bool :=
  decide (s.chanBad ≠ []) && decide (regionOf s pa = .lpddr) && spGet false s.chanBad (lpddrChannel pa)

/-- Word k as memory holds it. -/
def rawRead (s : State) (k : Nat) : WV :=
  { data := memWord s k, tag := if isTagged s (k * 8) then spGet .nil s.tags k else .int,
    bad := spGet false s.bad k || channelBad s (k * 8) }

/-- The byte i of a word. -/
def byteAt (w : Word) (i : Nat) : Byte := BitVec.ofNat 8 (fld w (8 * i) 8)

/-- The bytes of new under a byte mask, the others of old. -/
def mergeBytes (old new : Word) (mask : BitVec 8) : Word :=
  wd (leNat ((List.range 8).map (fun i => if mask.getLsbD i then byteAt new i else byteAt old i)))

/-- Write the masked bytes of word k, the tag where one is given, and the poisoned mark. -/
def rawWrite (s : State) (k : Nat) (data : Word) (mask : BitVec 8) (t : Option Tag) (bad : Bool) : State :=
  let s := (List.range 8).foldl (fun s i => if mask.getLsbD i then setMemByte s (k * 8 + i) (byteAt data i) else s) s
  let s := match t with
    | some t => if isTagged s (k * 8) then { s with tags := spSet .nil s.tags k t } else s
    | none => s
  { s with bad := spSet false s.bad k bad }

/-! ## Homes (R254, R272, R273) -/

/-- The home slice of an address: chip * 640 + die * 160 + slice. -/
def homeSlice (pa : Nat) : Nat :=
  let g := lineFold (pa / 256)
  let h := bitsOf g 2 14
  paChip pa * 640 + (g % 4) * 160 + (h * 160) / 2 ^ 14

/-- The home cluster of an address owned by partition p (R254). -/
def homeCluster (s : State) (p : Nat) (pa : Nat) : Nat :=
  match regionOf s pa with
  | .vault g => paChip pa * 80 + g
  | _ =>
    let cs := clustersOf (partOf s p)
    let l := (pa / 256) % 2 ^ 44
    let h := Nat.xor (Nat.xor l (l >>> 16)) (l >>> 32)
    (p / 16) * 80 + (cs[h % cs.length]?).getD 0

/-- Whether a region's lines pass through an L2 slice (R272, R274). -/
def inL2 (s : State) (pa : Nat) : Bool :=
  match regionOf s pa with
  | .lpddr | .cxl _ | .host => true
  | _ => false

/-! ## The L2 slices (R273, R275) -/

def l2Of (s : State) (k : Nat) : CWord := spGet CWord.none s.l2 k
def setL2 (s : State) (k : Nat) (w : CWord) : State := { s with l2 := spSet CWord.none s.l2 k w }

/-- Write a word's dirty bytes to its memory; it stays valid and clean. A write of fewer than eight bytes leaves a mark that stands
there (R390). -/
def l2Clean (s : State) (k : Nat) : State :=
  let w := l2Of s k
  if w.dirty = 0 ∧ w.tagDirty = false then s
  else
    let s := rawWrite s k w.data w.dirty (if w.tagDirty then some w.tag else none)
      (w.bad || (decide (w.dirty ≠ 0xFF) && spGet false s.bad k))
    setL2 s k { w with dirty := 0, tagDirty := false }

/-- The word numbers of a line. -/
def lineWords (line : Nat) : List Nat := (List.range 32).map (fun i => line * 32 + i)

/-- Write back and drop a line. -/
def l2Evict (s : State) (line : Nat) : State :=
  (lineWords line).foldl (fun s k => if l2Of s k = CWord.none then s else setL2 (l2Clean s k) k CWord.none) s

/-- Use a line: it becomes the most recent of its set, and a seventeenth line drives out the least recent. -/
def l2Touch (s : State) (line : Nat) : State :=
  let set := homeSlice (line * 256) * 128 + line % 128
  let ls := line :: (spGet [] s.l2lru set).filter (fun x => decide (x ≠ line))
  let s := match ls[16]? with
    | some v => l2Evict s v
    | none => s
  { s with l2lru := spSet [] s.l2lru set (ls.take 16) }

/-- Fill the unwritten bytes of a word from memory. -/
def l2Fill (s : State) (k : Nat) : State :=
  let w := l2Of s k
  if w.valid = 0xFF then s
  else
    let r := rawRead s k
    setL2 s k { data := mergeBytes r.data w.data w.valid, valid := 0xFF, dirty := w.dirty,
                tag := if w.tagDirty then w.tag else r.tag, tagDirty := w.tagDirty, bad := r.bad || w.bad }

/-- The eight words of a word's 64-byte sector. -/
def sectorWords (k : Nat) : List Nat := (List.range 8).map (fun i => k / 8 * 8 + i)

/-- Read word k at its home: a slice fills the sector first (R275). -/
def homeRead (s : State) (k : Nat) : State × WV :=
  if inL2 s (k * 8) then
    let s := l2Touch s (k / 32)
    let s := if (l2Of s k).valid = 0xFF then s else (sectorWords k).foldl l2Fill s
    let w := l2Of s k
    (s, { data := w.data, tag := if isTagged s (k * 8) then w.tag else .int, bad := w.bad || channelBad s (k * 8) })
  else (s, rawRead s k)

/-- What word k holds at its home now, without the read's traces in the slice. -/
def homePeek (s : State) (k : Nat) : WV := (homeRead s k).2

/-- Whether word k carries a poisoned mark at its home (R390). -/
def homeMarked (s : State) (k : Nat) : Bool :=
  if inL2 s (k * 8) then (l2Of s k).bad || (decide ((l2Of s k).dirty ≠ 0xFF) && spGet false s.bad k) else spGet false s.bad k

/-- Clear every reservation on granule k but those of warps of core own (R161, R303). -/
def clearResv (s : State) (k : Nat) (own : Option Nat) : State :=
  let hit := fun (x : Warp) => decide (some x.core ≠ own) && x.lanes.any (fun e => decide (e.2.resv = some k))
  if s.warps.any (fun e => hit e.2) then
    { s with warps := spMap Warp.none (fun _ x =>
        if hit x then
          { x with lanes := spMap Lane.none (fun _ y => if y.resv = some k then { y with resv := none } else y) x.lanes }
        else x) s.warps }
  else s

/-- Perform a write of word k at its home (R272, R275, R297). A write of all eight bytes carries away the poisoned mark
unless it brings one; a write of fewer is merged and the mark stays (R390). own: the core whose L1 wrote it, if any. -/
def homeWrite (s : State) (k : Nat) (data : Word) (mask : BitVec 8) (t : Option Tag) (bad : Bool) (own : Option Nat) :
    State :=
  if mask = 0 ∧ t = none then s
  else
    let s := clearResv s k own
    if inL2 s (k * 8) then
      let s := l2Touch s (k / 32)
      let s := if mask ≠ 0xFF ∧ spGet false s.bad k then l2Fill s k else s
      let w := l2Of s k
      setL2 s k { data := mergeBytes w.data data mask, valid := w.valid ||| mask, dirty := w.dirty ||| mask,
                  tag := t.getD w.tag, tagDirty := w.tagDirty || t.isSome,
                  bad := bad || (decide (mask ≠ 0xFF) && w.bad) }
    else
      rawWrite s k (mergeBytes (memWord s k) data mask) mask t (bad || (decide (mask ≠ 0xFF) && spGet false s.bad k))

/-! ## Reaching a home (R222, R365-R367) -/

/-- The links of the route from chip c to chip d that carry traffic (R367). -/
def liveLinks (s : State) (c d : Nat) : List Nat :=
  (spGet [] s.routes (c * 64 + d)).filter (fun l => !spGet false s.linkUp (c * 16 + l))

/-- The link that chip c's requests for the line of an address take: L[1:0] mod the count of the links that carry traffic; none: the
destination is lost (R367). -/
def lineLink (s : State) (c pa : Nat) : Option Nat :=
  let ls := liveLinks s c (paChip pa)
  ls[pa / 256 % 4 % ls.length]?

/-- Whether chip c has a live link towards chip d (R367). -/
def linkAlive (s : State) (c d : Nat) : Bool := decide (liveLinks s c d ≠ [])

/-- Whether the home of an address answers chip c. -/
def homeAnswers (s : State) (c pa : Nat) : Bool :=
  let t := paChip pa
  (decide (t = c) || ((lineLink s c pa).isSome && !spGet false s.lost t)) &&
    (match regionOf s pa with
     | .cxl p => !spGet false s.lost (64 + t * 4 + p)
     | .host => !spGet false s.lost (512 + t)
     | _ => true)

/-- A fabric access table entry (R366): V in bit 4, PPART in bits [3:0]. -/
def fatEntry (p : Part) (peer : Nat) : Option Nat :=
  let e := spGet 0 p.fat peer
  if bitAt e 4 then some (fld e 0 4) else none

/-- Whether partition p (chip * 16 + n) owns a local address: a granted region (R337), or the vault of one of its clusters
(R252). -/
def owns (s : State) (p pa : Nat) : Bool :=
  let x := partOf s p
  x.valid &&
    (match regionOf s pa with
     | .vault g => hasCluster x g
     | _ => x.grants.contains (paLocal pa / 2 ^ 21))

/-- Whether chip d admits a request of partition p to an address of its memory with the kind T (R366). -/
def peerAdmits (s : State) (p pa : Nat) (t : Bool) : Bool :=
  let d := paChip pa
  (List.range 16).any (fun n =>
    owns s (d * 16 + n) pa && decide (fatEntry (partOf s (d * 16 + n)) (p / 16) = some (p % 16))) &&
    (isTagged s pa == t)

/-- Whether a request of partition p reaches word k's home and is served there. -/
def served (s : State) (p k : Nat) (t : Bool) : Bool :=
  homeAnswers s (p / 16) (k * 8) && (decide (paChip (k * 8) = p / 16) || peerAdmits s p (k * 8) t)

end Sys2Proof.Machine
end

