-- ==== Sys2Proof/Machine/Trans.lean ====
section
/-! DEFINITION. Address translation: the page-table walk (R340), the translation buffers (R222, R341), permissions, and
the host translations of pages with H (R359). -/

namespace Sys2Proof.Machine

open Sys2Proof

/-- What an access needs of its page (R340). -/
inductive Need
  | r | w | x
deriving DecidableEq, Repr

/-- An entry of a table, read through the L2. -/
def tableEntry (s : State) (base idx : Nat) : Word := (homePeek s (base / 8 + idx)).data

/-- The reserved bits of an entry are zero (R340). -/
def entryOk (e : Word) : Bool :=
  decide (fld e 60 4 = 0) && decide (fld e 52 4 = 0) && decide (fld e 8 4 = 0) && !bitAt e 2

/-- The leaf-only fields of an entry: EXT, RX, H, T, S, X, W, R and C. -/
def leafBits (e : Word) : Nat := fld e 56 4 * 32 + fld e 3 5

/-- The OA of an entry as an address. -/
def entryOA (e : Word) : Nat := fld e 12 40 * 4096

/-- The leaf an entry describes, at physical address pa. -/
def leafOf (e : Word) (pa : Nat) : Leaf :=
  { pa := pa, ext := bitAt e 59, rx := bitAt e 58, h := bitAt e 57, t := bitAt e 56, s := bitAt e 7, x := bitAt e 6,
    w := bitAt e 5, r := bitAt e 4 }

/-- A C group: 16 aligned entries that agree and name the consecutive frames of one 64 KiB frame (R340). -/
def groupOk (s : State) (base idx : Nat) : Bool :=
  let i0 := idx / 16 * 16
  let e0 := tableEntry s base i0
  decide (entryOA e0 % 65536 = 0) &&
    (List.range 16).all (fun i =>
      let e := tableEntry s base (i0 + i)
      decide (e = e0 + wd (i * 4096)))

/-- One level of the walk: the next table, the leaf, or a fault. -/
inductive Walk
  | table (base : Nat)
  | leaf (l : Leaf)
  | fault (c : Cause)
deriving DecidableEq, Repr

/-- One level of the walk for virtual page vpn (R340). -/
def walkLevel (s : State) (level base vpn : Nat) : Walk :=
  let idx := vpn / 512 ^ level % 512
  let e := tableEntry s base idx
  if !bitAt e 0 || !entryOk e then .fault .xlat
  else if bitAt e 1 then
    if level = 0 ∨ leafBits e ≠ 0 then .fault .xlat else .table (entryOA e)
  else if level = 3 then .fault .xlat
  else if level ≠ 0 ∧ bitAt e 3 then .fault .xlat
  else if entryOA e % (4096 * 512 ^ level) ≠ 0 then .fault .xlat
  else if bitAt e 3 && !groupOk s base idx then .fault .xlat
  else .leaf (leafOf e (entryOA e + vpn % 512 ^ level * 4096))

/-- The levels from `level` down. -/
def walkFrom (s : State) (vpn : Nat) : Nat → Nat → Walk
  | 0, base => walkLevel s 0 base vpn
  | level + 1, base =>
    match walkLevel s (level + 1) base vpn with
    | .table b => walkFrom s vpn level b
    | r => r

/-- Whether a partition's grant holds one of the n queues from q (R337). -/
def queuesGranted (s : State) (p q n : Nat) : Bool :=
  let w2 := spGet 0 (partOf s p).words 2
  decide (fld w2 0 17 < q + n ∧ q < fld w2 0 17 + fld w2 17 18)

/-- Whether an access of a core may reach the device register at an address of its own chip: a queue block of its partition's grant,
or its partition's control page, each from the service core; the root monitor reaches all (R3, R311, R341). Memory is checked by the
walk. -/
def reaches (s : State) (core p pa : Nat) : Bool :=
  if paChip pa ≠ coreChip core ∨ coreNum core = 336 then true
  else match regionOf s pa with
    | .queues => isService core && queuesGranted s p ((paLocal pa - 0x3000_0000_0000) / 64) 1
    | .control => isService core && decide ((paLocal pa - 0x3000_0100_0000) / 4096 = p % 16)
    | _ => true

/-- Whether partition p may map a page of its own chip (R337, R340, R3): granted memory, and for its service core a page that holds one
of its queue blocks (an access is checked by its own block) and its control page. The root monitor maps everything. -/
def granted (s : State) (core p pa : Nat) : Bool :=
  if coreNum core = 336 then true
  else match regionOf s pa with
    | .queues => isService core && queuesGranted s p ((paLocal pa - 0x3000_0000_0000) / 4096 * 64) 64
    | .control => decide ((paLocal pa - 0x3000_0100_0000) / 4096 = p % 16) && isService core
    | _ => owns s p pa

/-- Whether a version of a partition's code is bound: by a grid, by a record that has been taken and waits, or by a node of a running
graph (R320). -/
def versionBound (s : State) (p : Nat) (v : Option Nat) : Bool :=
  let is := fun (n : Nat) => decide (n ≠ 0) && (match v with
    | some m => decide (n = m)
    | none => true)
  s.grids.any (fun e => e.2.live && decide (e.2.part = p) && is e.2.version) ||
  s.queues.any (fun e => e.2.waiting.any (fun r => decide (r.part = p) && is r.version)) ||
  s.graphs.any (fun e => e.2.live && decide (e.2.part = p) && e.2.versions.any is)

/-- Whether an address lies in a code page of a version still bound (R190, R305): one that the partition's table mapped with X when the
version was bound, or that an instruction buffer has fetched for it. A page of this chip counts while the partition owns it. DESIGN
CHOICE (log entry 32). -/
def codePage (s : State) (pa : Nat) : Bool :=
  s.code.any (fun e =>
    decide (e.1 ≤ pa / 4096 ∧ pa / 4096 < e.1 + e.2.1) && versionBound s e.2.2.1 (some e.2.2.2) &&
      (decide (paChip pa ≠ e.2.2.1 / 16) || owns s e.2.2.1 pa))

/-- Remember n pages as a version's code (R190, R305). -/
def codeNote (s : State) (page n p ver : Nat) : State :=
  if s.code.contains (page, n, p, ver) then s else { s with code := (page, n, p, ver) :: s.code }

/-- The pages of a leaf that code may be fetched from: first page and number, for a leaf with X of the device's memory. -/
def xLeaf (l : Leaf) (n : Nat) : List (Nat × Nat) := if l.x && !l.h then [(l.pa / 4096, n)] else []

/-- The pages that the table at base maps with X, from `level` down (R340). -/
def xRanges (s : State) : Nat → Nat → List (Nat × Nat)
  | 0, base => ((List.range 512).map (fun i =>
      match walkLevel s 0 base i with
      | .leaf l => xLeaf l 1
      | _ => [])).flatten
  | n + 1, base => ((List.range 512).map (fun i =>
      match walkLevel s (n + 1) base (i * 512 ^ (n + 1)) with
      | .leaf l => xLeaf l (512 ^ (n + 1))
      | .table b => xRanges s n b
      | .fault _ => [])).flatten

/-- Binding a version makes the pages that its partition's table maps with X that version's code pages (R305, R320); pages of an earlier
binding that is over count no more. -/
def bindPages (s : State) (p ver : Nat) : State :=
  let s := if versionBound s p (some ver) then s else { s with code := s.code.filter (fun e => decide (e.2.2 ≠ (p, ver))) }
  let root := (partOf s p).ptroot
  if root = 0 then s
  else ((xRanges s 3 root.toNat).filter (fun r => decide (paChip (r.1 * 4096) = p / 16))).foldl (fun s r => codeNote s r.1 r.2 p ver) s

/-- A write that meets a code page of a bound version (R190, R320). DESIGN CHOICE (log entry 32): the code pages of a partition's
bound versions are the pages that its table maps with X, and under whatever mapping those of codePage. -/
def writesCode (s : State) (p : Nat) (n : Need) (l : Leaf) (pa : Nat) : Bool :=
  decide (n = .w) && ((l.x && versionBound s p none) || codePage s pa)

/-- The checks of a leaf that names a fabric address (R340): the map, and on this chip the region's kind and the grant. -/
def checkLeaf (s : State) (core p : Nat) (l : Leaf) : Walk :=
  if l.h then .leaf l
  else if regionOf s l.pa = .unmapped then .fault .xlat
  else if paChip l.pa ≠ coreChip core then .leaf l
  else if isTagged s l.pa ≠ l.t then .fault .xlat
  else if !granted s core p l.pa then .fault .prot
  else .leaf l

/-- The whole walk of virtual page vpn through the table at root, for a core of partition p. -/
def walk (s : State) (core p root vpn : Nat) : Walk :=
  if root = 0 then .fault .xlat
  else match walkFrom s vpn 3 root with
    | .leaf l => checkLeaf s core p l
    | r => r

/-- A leaf with H names an I/O address: the host's translation of its page, if the host has given one (R359). -/
def hostPage (s : State) (p : Nat) (l : Leaf) : Option Leaf :=
  if l.h then
    (spGet none (partOf s p).iommu (l.pa / 4096)).map (fun hp =>
      { l with pa := (p / 16 + 1) * 2 ^ 52 + hp * 4096 })
  else some l

/-- The root table in force for a warp (R341). -/
def rootOf (s : State) (w : Nat) : Nat := (teamOf s (warpOf s w).team).root

/-- The entry a translation buffer holds for a page. -/
def tlbFind (c : Core) (p root vpn : Nat) : Option Leaf :=
  (c.tlb.find? (fun e => decide (e.part = p ∧ e.root = root ∧ e.vpn = vpn))).map (·.leaf)

/-- The outcome of a translation. -/
inductive Tr
  | ok (pa : Nat) (l : Leaf)
  | miss (vpn : Nat)
  | fault (c : Cause)
deriving DecidableEq, Repr

/-- The permission an access needs of a leaf (R340). -/
def permits (core : Nat) (n : Need) (l : Leaf) : Bool :=
  (!l.s || isService core) &&
    (match n with
     | .r => l.r
     | .w => l.w
     | .x => l.x)

/-- Translate a 48-bit virtual address for warp w (R222): a hit is checked, a miss asks for a walk, and a walk that has
failed reports its cause. -/
def translate (s : State) (w va : Nat) (n : Need) : Tr :=
  let x := warpOf s w
  let vpn := va / 4096
  match x.walkFault.find? (fun e => decide (e.1 = vpn)) with
  | some e => .fault e.2
  | none =>
    match tlbFind (coreOf s x.core) (warpPart s w) (rootOf s w) vpn with
    | none => .miss vpn
    | some l =>
      let pa := l.pa + va % 4096
      if permits x.core n l && reaches s x.core (warpPart s w) pa && !writesCode s (warpPart s w) n l pa then .ok pa l
      else .fault .prot

/-- Partition p asks the host once for each page that it owes (R359). -/
def askHost (s : State) (p : Nat) (ps : List Nat) : State :=
  ps.foldl (fun s i => if s.rootReports.contains (.priRequest p i) then s else tellRoot s (.priRequest p i)) s

/-- The walk of a page for a core, with the host's translation: none when the host has not given one; XLAT once it has
refused the page (R359). -/
def resolve (s : State) (core p root vpn : Nat) : Option (Except Cause Leaf) :=
  match walk s core p root vpn with
  | .leaf l =>
    (match hostPage s p l with
     | some l => some (.ok l)
     | none => if (partOf s p).prifail.contains (l.pa / 4096) then some (.error .xlat) else none)
  | .fault c => some (.error c)
  | .table _ => some (.error .xlat)

/-- The refusals of the host that a finished access has met no longer stand: a later access asks again (R359). -/
def priTaken (s : State) (p : Nat) : State :=
  if (partOf s p).prifail = [] then s else updPart s p (fun x => { x with prifail := [] })

/-- An engine's translation: it walks at once and never waits for a buffer (R211); none while the host owes an answer. -/
def engineTrans (s : State) (core p root va : Nat) (n : Need) : Option (Except Cause (Nat × Leaf)) :=
  match (match tlbFind (coreOf s core) p root (va / 4096) with
         | some l => some (Except.ok l)
         | none => resolve s core p root (va / 4096)) with
  | none => none
  | some (.error c) => some (.error c)
  | some (.ok l) =>
    let pa := l.pa + va % 4096
    some (if permits core n l && !writesCode s p n l pa then .ok (pa, l) else .error .prot)

/-- The walk of one page for a waiting warp, or for its instruction fetch: the buffer is filled, the fault is kept, or the host is asked
(R222, R359). -/
def walkOne (s : State) (w vpn : Nat) (fetch : Bool) : State :=
  let x := warpOf s w
  let p := warpPart s w
  match walk s x.core p (rootOf s w) vpn with
  | .leaf l =>
    match hostPage s p l with
    | some l' =>
      updCore s x.core (fun c => { c with tlb := ⟨p, rootOf s w, vpn, l'⟩ :: c.tlb })
    | none =>
      let s := askHost s p [l.pa]
      updWarp s w (fun y => { y with wait := if fetch then .fetchPri l.pa vpn else .pri l.pa vpn })
  | .fault c => updWarp s w (fun y => { y with walkFault := (vpn, c) :: y.walkFault })
  | .table _ => updWarp s w (fun y => { y with walkFault := (vpn, .xlat) :: y.walkFault })

/-- TRANSLATION_WALK_DONE: the walks a warp waits for complete, and its instruction issues again (R222). -/
def walkDone (s : State) (w : Nat) : State :=
  match (warpOf s w).wait with
  | .walk vpns =>
    let s := updWarp s w (fun y => { y with wait := .none })
    vpns.foldl (fun s v => walkOne s w v false) s
  | .fetchWalk v => walkOne (updWarp s w (fun y => { y with wait := .none })) w v true
  | _ => s

end Sys2Proof.Machine
end

