-- ==== Sys2Proof/Machine/L1.lean ====
section
/-! DEFINITION. A core's L1 (R212, R213) and what releases and acquires do to the caches (R225, R300, R302). -/

namespace Sys2Proof.Machine

open Sys2Proof

def l1Of (s : State) (c k : Nat) : CWord := spGet CWord.none (coreOf s c).l1 k
def setL1 (s : State) (c k : Nat) (w : CWord) : State :=
  updCore s c (fun x => { x with l1 := spSet CWord.none x.l1 k w })

/-- The partition on whose behalf a core's L1 writes. -/
def l1Part (s : State) (c : Nat) : Nat := (corePart s c).getD (coreChip c * 16)

/-- The partition whose memory an address lies in: the given one, or the one that owns it on another chip. -/
def ownerPart (s : State) (p pa : Nat) : Nat :=
  if paChip pa = p / 16 then p
  else
    let d := paChip pa
    match (List.range 16).find? (fun n => owns s (d * 16 + n) pa) with
    | some n => d * 16 + n
    | none => p

/-- A request of partition p that a peer's home refused: both service cores are told (R366). A home that does not answer at all is no
refusal. -/
def tellRefused (s : State) (p pa : Nat) : State :=
  if paChip pa ≠ p / 16 ∧ homeAnswers s (p / 16) pa then
    let r := Report.refused (p / 16) (p % 16) pa
    let s := tellSvc s p r
    if ownerPart s p pa = p then s else tellSvc s (ownerPart s p pa) r
  else s

/-- A write of partition p that its home does not take is dropped, and reported (R222, R366). -/
def tellDropped (s : State) (p pa : Nat) : State := tellRefused (tellSvc s p (.dropped pa)) p pa

/-- Write a word's dirty bytes back to its home under their mask (R212). It stays valid and clean, unless the home's word is marked
poisoned: then it is read there again (R390). A home that does not take the write drops it, and the service core is told (R222,
R366). -/
def l1Clean (s : State) (c k : Nat) : State :=
  let w := l1Of s c k
  if w.dirty = 0 ∧ w.tagDirty = false then s
  else
    let s := setL1 s c k { w with dirty := 0, tagDirty := false, bad := false }
    if served s (l1Part s c) k w.tagDirty then
      let s := homeWrite s k w.data w.dirty (if w.tagDirty then some w.tag else none) w.bad (some c)
      if homeMarked s k then setL1 s c k CWord.none else s
    else tellDropped s (l1Part s c) (k * 8)

/-- Word numbers that a core's L1 holds. -/
def l1Keys (s : State) (c : Nat) : List Nat := spKeys (coreOf s c).l1

/-- Write every dirty byte of a core's L1 back (R213). -/
def l1CleanAll (s : State) (c : Nat) : State := (l1Keys s c).foldl (fun s k => l1Clean s c k) s

/-- Drop the clean bytes of a word. -/
def l1DropClean (s : State) (c k : Nat) : State :=
  let w := l1Of s c k
  setL1 s c k (if w.dirty = 0 ∧ w.tagDirty = false then CWord.none else { w with valid := w.dirty })

/-- Invalidate the clean contents of a core's L1 (R213; log entry 10: byte by byte). -/
def l1Invalidate (s : State) (c : Nat) : State := (l1Keys s c).foldl (fun s k => l1DropClean s c k) s

/-- Write back and drop the words of one line. -/
def l1Evict (s : State) (c line : Nat) : State :=
  (lineWords line).foldl (fun s k => if l1Of s c k = CWord.none then s else setL1 (l1Clean s c k) c k CWord.none) s

/-- The lines a set of a core's L1 holds: 64 sets indexed by address bits [13:8] (R212). -/
def l1Lines (s : State) (c set : Nat) : List Nat :=
  (((l1Keys s c).map (fun k => k / 32)).filter (fun l => decide (l % 64 = set))).eraseDups

/-- Room for a line in its set of eight ways: a free choice names the line that leaves (log entry 9). -/
def l1Room (s : State) (c line : Nat) : State :=
  let ls := l1Lines s c (line % 64)
  if ls.contains line ∨ ls.length < 8 then s
  else
    let (n, s) := takeFree s
    match ls[n % ls.length]? with
    | some v => l1Evict s c v
    | none => s

/-- What a read of memory brings. -/
inductive Rd
  | ok (v : WV)
  | lost
deriving DecidableEq, Repr

/-- Fill one word of a core's L1 from its home, under the bytes written and not yet written back (R212); clean bytes are the home's,
so that a word is never made of two different times (R296). -/
def l1FillWord (s : State) (c k : Nat) : State :=
  let w := l1Of s c k
  if w.valid = 0xFF then s
  else
    let (s, r) := homeRead s k
    setL1 s c k { data := mergeBytes r.data w.data w.dirty, valid := 0xFF, dirty := w.dirty,
                  tag := if w.tagDirty then w.tag else r.tag, tagDirty := w.tagDirty, bad := r.bad || w.bad }

/-- Read word k through a core's L1: bytes the L1 lacks fill the sector (R212). A poisoned word is reported and not
kept, so that it is read again at its home (R390). A refused read reaches both service cores (R366). -/
def l1Read (s : State) (c p k : Nat) (mask : BitVec 8) (t : Bool) : State × Rd :=
  let w := l1Of s c k
  if w.valid &&& mask = mask ∧ w ≠ CWord.none then
    (s, .ok { data := w.data, tag := if t then w.tag else .int, bad := w.bad })
  else if served s p k t then
    let s := l1Room s c (k / 32)
    let s := (sectorWords k).foldl (fun s k => l1FillWord s c k) s
    let w := l1Of s c k
    let s := if w.bad ∧ w.dirty = 0 then setL1 s c k CWord.none else s
    (s, .ok { data := w.data, tag := if t then w.tag else .int, bad := w.bad })
  else (tellRefused s p (k * 8), .lost)

/-- A store's bytes enter a core's L1 (R212), with the word's tag in a tagged region; reservations of the core's own
warps on the granule are lost (R161, R303). -/
def l1Write (s : State) (c k : Nat) (data : Word) (mask : BitVec 8) (t : Option Tag) : State :=
  let s := l1Room s c (k / 32)
  let w := l1Of s c k
  let s := setL1 s c k
    { data := mergeBytes w.data data mask, valid := w.valid ||| mask, dirty := w.dirty ||| mask,
      tag := t.getD w.tag, tagDirty := w.tagDirty || t.isSome,
      bad := w.bad && decide (w.dirty ||| mask ≠ 0xFF) }
  { s with warps := spMap Warp.none (fun _ x =>
      if x.core = c ∧ x.lanes.any (fun e => decide (e.2.resv = some k)) then
        { x with lanes := spMap Lane.none (fun _ y => if y.resv = some k then { y with resv := none } else y) x.lanes }
      else x) s.warps }

/-! ## Releases and acquires (R213, R225, R300) -/

/-- Position of a scope in the order of R5. -/
def scopeNum : Scope → Nat
  | .warp => 0
  | .core => 1
  | .cluster => 2
  | .die => 3
  | .package => 4
  | .fabric => 5
  | .system => 6

/-- Write the dirty L2 bytes of host and CXL lines to their memory (R300, scope system): of every chip's, since a releaser carries the
writes that it has observed as far as its own. -/
def l2CleanSystem (s : State) : State :=
  (spKeys s.l2).foldl (fun s k =>
    match regionOf s (k * 8) with
    | .host | .cxl _ => l2Clean s k
    | _ => s) s

/-- Drop the clean L2 copies of host and CXL lines, byte by byte, in the slices of every chip (R300, scope system). -/
def l2DropSystem (s : State) : State :=
  (spKeys s.l2).foldl (fun s k =>
    match regionOf s (k * 8) with
    | .host | .cxl _ =>
      let w := l2Of s k
      if w.dirty = 0 ∧ w.tagDirty = false then setL2 s k CWord.none
      else setL2 s k { w with valid := w.dirty }
    | _ => s) s

/-- The work before a release at a scope completes (R300). Writes are performed at their homes when they are written
back, so no bridge or link holds one. -/
def release (s : State) (c : Nat) (sc : Scope) : State :=
  let s := if 2 ≤ scopeNum sc then l1CleanAll s c else s
  if sc = .system then l2CleanSystem s else s

/-- Drop the clean copies of lines homed on other chips in every L1 of a chip (R300, scope fabric). -/
def dropRemote (s : State) (chip : Nat) : State :=
  (spKeys s.cores).foldl (fun s c =>
    if coreChip c = chip then
      (l1Keys s c).foldl (fun s k => if paChip (k * 8) = chip then s else l1DropClean s c k) s
    else s) s

/-- The header words that a core keeps and that could be stale: those that are not final (R214, R297). -/
def dropStaleHeaders (s : State) (c : Nat) : State :=
  updCore s c (fun x => { x with hdrp := x.hdrp.filter (fun e => decide ((e.2.map (·.1.tag)) = some .fwd)) })

/-- The header entry of word k goes, if it is not final: the word has been written since (R214, R223, R297). -/
def dropHeaderAt (s : State) (c k : Nat) : State :=
  if (coreOf s c).hdrp.any (fun e => decide (e.2.map (·.2) = some k)) then
    updCore s c (fun x => { x with hdrp := x.hdrp.filter (fun e =>
      decide (e.2.map (·.2) ≠ some k) || decide ((e.2.map (·.1.tag)) = some .fwd)) })
  else s

/-- The work of an acquire at a scope before any later access performs (R300): kept header words that could be stale go as the clean
sectors do (R297). -/
def acquire (s : State) (c : Nat) (sc : Scope) : State :=
  let s := if 2 ≤ scopeNum sc then dropStaleHeaders (l1Invalidate s c) c else s
  let s := if 5 ≤ scopeNum sc then dropRemote s (coreChip c) else s
  if sc = .system then l2DropSystem s else s

/-- A core promotes its core-scope releases: it writes back its L1 as a release at the scope (R302). -/
def promote (s : State) (c : Nat) (sc : Scope) : State :=
  release s c (if scopeNum sc < 2 then .cluster else sc)

/-- A releaser note reaches the home of a line: another core in the field promotes first (R302). -/
def releaserNote (s : State) (c line : Nat) : State :=
  let f := spGet 0 s.releaser line
  let s := if f ≠ 0 ∧ f ≠ c + 1 then promote s (f - 1) .system else s
  { s with releaser := spSet 0 s.releaser line (c + 1) }

/-- An acquire read with RACQ reaches the home of a line: the core named in the field promotes first (R302). -/
def racqAt (s : State) (c line : Nat) (sc : Scope) : State :=
  let f := spGet 0 s.releaser line
  if f ≠ 0 ∧ f ≠ c + 1 then
    let s := promote s (f - 1) sc
    { s with releaser := spSet 0 s.releaser line 0 }
  else s

/-- The cores of the instance of a scope at core c (R5, R295). -/
def scopeCores (c : Nat) (sc : Scope) (d : Nat) : Bool :=
  match sc with
  | .warp | .core => decide (d = c)
  | .cluster => !isService d && !isService c && decide (coreCluster d = coreCluster c)
  | .die => decide (coreChip d = coreChip c) && decide (coreDie d = coreDie c)
  | .package => decide (coreChip d = coreChip c)
  | .fabric | .system => true

/-- A fence with RACQ: every core within the scope writes back its dirty L1 bytes (R227). -/
def fenceRacq (s : State) (c : Nat) (sc : Scope) : State :=
  (spKeys s.cores).foldl (fun s d => if scopeCores c sc d then l1CleanAll s d else s) s

end Sys2Proof.Machine
end

