-- ==== Sys2Proof/Machine/Num.lean ====
section
/-! DEFINITION. Exact values and the number formats of the lane chapter: IEEE formats, tapered formats, integer elements,
block scales (R80-R88), the roundings of R38, and exact sums (R90). -/

namespace Sys2Proof.Machine

open Sys2Proof

/-- An exact value: NaN, an infinity, or (-1)^neg * m * 2^e; a zero keeps its sign. -/
inductive Num
  | nan
  | inf (neg : Bool)
  | fin (neg : Bool) (m : Nat) (e : Int)
deriving DecidableEq, Repr

/-- An IEEE format: exponent bits and fraction bits (R80). -/
structure FFmt where
  eb : Nat
  fb : Nat
deriving DecidableEq, Repr

/-- binary64. -/
def fF64 : FFmt := ⟨11, 52⟩
/-- binary32. -/
def fF32 : FFmt := ⟨8, 23⟩
/-- binary16. -/
def fF16 : FFmt := ⟨5, 10⟩
/-- bfloat16. -/
def fBF16 : FFmt := ⟨8, 7⟩

/-- The exponent bias. -/
def FFmt.bias (f : FFmt) : Nat := 2 ^ (f.eb - 1) - 1

/-- Bits of +infinity. -/
def FFmt.infBits (f : FFmt) : Nat := (2 ^ f.eb - 1) * 2 ^ f.fb

/-- The sign bit's weight. -/
def FFmt.signBit (f : FFmt) : Nat := 2 ^ (f.eb + f.fb)

/-- The default quiet NaN (R81). -/
def FFmt.qnan (f : FFmt) : Nat := f.infBits + 2 ^ (f.fb - 1)

/-- Exponent of the least subnormal's unit. -/
def FFmt.emin (f : FFmt) : Int := 1 - (f.bias : Int) - (f.fb : Int)

/-- The value of a bit pattern; a signalling NaN counts as a NaN (R81). -/
def FFmt.dec (f : FFmt) (x : Nat) : Num :=
  let neg := x.testBit (f.eb + f.fb)
  let ex := bitsOf x f.fb f.eb
  let fr := bitsOf x 0 f.fb
  if ex = 2 ^ f.eb - 1 then (if fr = 0 then .inf neg else .nan)
  else if ex = 0 then .fin neg fr f.emin
  else .fin neg (2 ^ f.fb + fr) ((ex : Int) - 1 + f.emin)

/-- How the part below the unit compares with half a unit: 0 none, 1 below, 2 half, 3 above. -/
def remClass (m s : Nat) : Nat :=
  let r := m % 2 ^ s
  if r = 0 then 0 else if 2 * r < 2 ^ s then 1 else if 2 * r = 2 ^ s then 2 else 3

/-- Whether a truncated magnitude q rounds away from zero (R38). -/
def roundsUp (rm : Rnd) (neg : Bool) (q cls : Nat) : Bool :=
  match rm with
  | .rn => cls == 3 || (cls == 2 && q % 2 == 1)
  | .ra => decide (2 ≤ cls)
  | .rz => false
  | .ru => cls != 0 && !neg
  | .rd => cls != 0 && neg

/-- m * 2^e as a multiple of 2^q, rounded. -/
def roundAt (rm : Rnd) (neg : Bool) (m : Nat) (e q : Int) : Nat :=
  if q ≤ e then m * 2 ^ (e - q).toNat
  else
    let s := (q - e).toNat
    let t := m / 2 ^ s
    if roundsUp rm neg t (remClass m s) then t + 1 else t

/-- The overflow result of IEEE 754-2019 (R119). -/
def overflowBits (f : FFmt) (rm : Rnd) (neg : Bool) : Nat :=
  match rm with
  | .rn => f.infBits
  | .ra => f.infBits
  | .rz => f.infBits - 1
  | .ru => if neg then f.infBits - 1 else f.infBits
  | .rd => if neg then f.infBits else f.infBits - 1

/-- Encode an exact value in an IEEE format under a rounding mode; subnormals are kept (R81). -/
def FFmt.enc (f : FFmt) (rm : Rnd) : Num → Nat
  | .nan => f.qnan
  | .inf neg => f.infBits + (if neg then f.signBit else 0)
  | .fin neg m e =>
    let s := if neg then f.signBit else 0
    if m = 0 then s
    else
      let top : Int := (Nat.log2 m : Int) + e
      let q : Int := max (top - (f.fb : Int)) f.emin
      let t := roundAt rm neg m e q
      let bits := (q - f.emin).toNat * 2 ^ f.fb + t
      if f.infBits ≤ bits then s + overflowBits f rm neg else s + bits

/-- The value of an integer. -/
def numOfInt (i : Int) : Num := .fin (decide (i < 0)) i.natAbs 0

/-- Signed mantissa of a finite value over 2^e0, e0 no greater than its exponent. -/
def mantAt (e0 : Int) : Num → Int
  | .fin neg m e => let v : Int := (m * 2 ^ (e - e0).toNat : Nat); if neg then -v else v
  | _ => 0

/-- The least exponent of the nonzero finite terms. -/
def minExp : List Num → Option Int
  | [] => none
  | .fin _ m e :: r =>
    if m = 0 then minExp r
    else match minExp r with
      | none => some e
      | some e' => some (min e e')
  | _ :: r => minExp r

/-- Whether a value is a negative zero. -/
def isNegZero : Num → Bool
  | .fin true 0 _ => true
  | _ => false

/-- Whether a value is a NaN. -/
def Num.isNan : Num → Bool
  | .nan => true
  | _ => false

/-- Whether a value is finite. -/
def Num.isFin : Num → Bool
  | .fin _ _ _ => true
  | _ => false

/-- The sum of every term, exact, with the zero sign of R90. -/
def sumNum (l : List Num) : Num :=
  if l.any Num.isNan then .nan
  else if l.any (· == .inf false) then (if l.any (· == .inf true) then .nan else .inf false)
  else if l.any (· == .inf true) then .inf true
  else match minExp l with
    | none => .fin (l.all isNegZero && !l.isEmpty) 0 0
    | some e0 =>
      let t := l.foldl (fun acc x => acc + mantAt e0 x) 0
      .fin (decide (t < 0)) t.natAbs e0

/-- The negated value. -/
def Num.neg : Num → Num
  | .nan => .nan
  | .inf s => .inf (!s)
  | .fin s m e => .fin (!s) m e

/-- The magnitude. -/
def Num.abs : Num → Num
  | .nan => .nan
  | .inf _ => .inf false
  | .fin _ m e => .fin false m e

/-- The exact product with IEEE special cases. -/
def mulNum : Num → Num → Num
  | .nan, _ => .nan
  | _, .nan => .nan
  | .inf a, .inf b => .inf (a != b)
  | .inf a, .fin b m _ => if m = 0 then .nan else .inf (a != b)
  | .fin a m _, .inf b => if m = 0 then .nan else .inf (a != b)
  | .fin a m e, .fin b n f => .fin (a != b) (m * n) (e + f)

/-- The quotient to 70 bits with a sticky last bit, enough for one rounding to any format (R106). -/
def divNum : Num → Num → Num
  | .nan, _ => .nan
  | _, .nan => .nan
  | .inf _, .inf _ => .nan
  | .inf a, .fin b _ _ => .inf (a != b)
  | .fin a _ _, .inf b => .fin (a != b) 0 0
  | .fin a m e, .fin b n f =>
    if n = 0 then (if m = 0 then .nan else .inf (a != b))
    else if m = 0 then .fin (a != b) 0 0
    else
      let k := 70 + Nat.log2 n - Nat.log2 m
      let q := m * 2 ^ k / n
      let st := if m * 2 ^ k % n = 0 then 0 else 1
      .fin (a != b) (2 * q + st) (e - f - (k : Int) - 1)

/-- The float remainder A - B * trunc(A / B), exact; a zero has the sign of A (R106). -/
def remNum : Num → Num → Num
  | .fin a m e, .fin _ n f =>
    if n = 0 then .nan
    else
      let e0 := min e f
      .fin a ((m * 2 ^ (e - e0).toNat) % (n * 2 ^ (f - e0).toNat)) e0
  | .fin a m e, .inf _ => .fin a m e
  | _, _ => .nan

/-- Integer square root by bits, from bit i down. -/
def isqrtGo (n : Nat) : Nat → Nat → Nat
  | 0, r => if (r + 1) * (r + 1) ≤ n then r + 1 else r
  | i + 1, r =>
    let c := r + 2 ^ (i + 1)
    isqrtGo n i (if c * c ≤ n then c else r)

/-- The integer square root. -/
def isqrt (n : Nat) : Nat := isqrtGo n (Nat.log2 n / 2 + 1) 0

/-- The square root to at least 70 bits with a sticky last bit. -/
def sqrtNum : Num → Num
  | .nan => .nan
  | .inf neg => if neg then .nan else .inf false
  | .fin neg m e =>
    if m = 0 then .fin neg 0 0
    else if neg then .nan
    else
      let k0 := 142 - Nat.log2 m
      let k := if (e - (k0 : Int)) % 2 = 0 then k0 else k0 + 1
      let n := m * 2 ^ k
      let r := isqrt n
      .fin false (2 * r + (if r * r = n then 0 else 1)) ((e - (k : Int)) / 2 - 1)

/-- The value rounded to an integer under a mode, of a finite value. -/
def roundInt (rm : Rnd) : Num → Option Int
  | .fin neg m e => let t : Int := (roundAt rm neg m e 0 : Nat); some (if neg then -t else t)
  | _ => none

/-- Exact order of two values, -0 equal to +0; none when either is a NaN (R112). -/
def cmpNum : Num → Num → Option Ordering
  | .nan, _ => none
  | _, .nan => none
  | .inf a, .inf b => some (if a = b then .eq else if a then .lt else .gt)
  | .inf a, _ => some (if a then .lt else .gt)
  | _, .inf b => some (if b then .gt else .lt)
  | .fin a m e, .fin b n f =>
    let e0 := min e f
    let x := mantAt e0 (.fin a m e)
    let y := mantAt e0 (.fin b n f)
    some (if x < y then .lt else if x = y then .eq else .gt)

/-- Whether x is below y where -0 is below +0 (R110). -/
def minLt (x y : Num) : Bool :=
  match cmpNum x y with
  | some .lt => true
  | some .eq => (match x, y with | .fin a 0 _, .fin b 0 _ => a && !b | _, _ => false)
  | _ => false

/-- x at most y, as values. -/
def leNum (x y : Num) : Bool :=
  match cmpNum x y with
  | some .gt => false
  | some _ => true
  | none => false

/-- The larger of two magnitudes or values, by value. -/
def maxNum (x y : Num) : Num := if leNum x y then y else x

/-! ## Tapered formats (R82-R85) -/

/-- Length of the run of bits equal to v from bit i down. -/
def runLen (m : Nat) (v : Bool) : Nat → Nat
  | 0 => if m.testBit 0 = v then 1 else 0
  | i + 1 => if m.testBit (i + 1) = v then 1 + runLen m v i else 0

/-- A tapered format: magnitude bits, whether it has an exponent bit, and the scale on which every value is whole. -/
structure TapFmt where
  bits : Nat
  hasE : Bool
  scale : Nat
deriving DecidableEq, Repr

/-- TAP8 (R82): seven magnitude bits, an exponent bit, values in units of 2^-12. -/
def tap8 : TapFmt := ⟨7, true, 12⟩
/-- TAP6 (R83): five magnitude bits, no exponent bit, values in units of 2^-4. -/
def tap6 : TapFmt := ⟨5, false, 4⟩

/-- The magnitude of a nonzero code in units of 2^-scale. -/
def TapFmt.mag (t : TapFmt) (m : Nat) : Nat :=
  let v := m.testBit (t.bits - 1)
  let j := runLen m v (t.bits - 1)
  let k : Int := if v then (j : Int) - 1 else -(j : Int)
  let r := t.bits - j - 1
  let er := if t.hasE && decide (1 ≤ r) then 1 else 0
  let fr := r - er
  let e := if er = 1 then bitsOf m fr 1 else 0
  let f := bitsOf m 0 fr
  let ex : Int := (if t.hasE then 2 * k + (e : Int) else k) - (fr : Int) + (t.scale : Int)
  if m = 0 then 0 else (2 ^ fr + f) * 2 ^ ex.toNat

/-- NaE. -/
def TapFmt.nae (t : TapFmt) : Nat := 2 ^ t.bits

/-- The value of a code; NaE decodes to NaN (R85). -/
def TapFmt.dec (t : TapFmt) (c : Nat) : Num :=
  if c = t.nae then .nan
  else if c % 2 ^ t.bits = 0 then .fin false 0 0
  else .fin (c.testBit t.bits) (t.mag (c % 2 ^ t.bits)) (-(t.scale : Int))

/-- The greatest code among 0 .. n whose magnitude is at most x/y units. -/
def TapFmt.below (t : TapFmt) (x y : Nat) : Nat → Nat
  | 0 => 0
  | n + 1 => if t.mag (n + 1) * y ≤ x then n + 1 else t.below x y n

/-- Encode an exact value, saturating (R85). -/
def TapFmt.enc (t : TapFmt) (rm : Rnd) : Num → Nat
  | .nan => t.nae
  | .inf _ => t.nae
  | .fin neg m e =>
    let s : Int := e + (t.scale : Int)
    let x := m * 2 ^ s.toNat
    let y := 2 ^ (-s).toNat
    let top := 2 ^ t.bits - 1
    let c := t.below x y top
    let lo := t.mag c * y
    let hi := t.mag (c + 1) * y
    let up :=
      if c = top || x = lo then false
      else match rm with
        | .rn => decide (2 * x > lo + hi) || (decide (2 * x = lo + hi) && c % 2 == 1)
        | .ra => decide (2 * x ≥ lo + hi)
        | .rz => false
        | .ru => !neg
        | .rd => neg
    let d := if up then c + 1 else c
    if d = 0 then 0 else d + (if neg then 2 ^ t.bits else 0)

/-! ## Elements (R36, R86) -/

/-- Saturate an integer to n bits, two's complement. -/
def satInt (n : Nat) (i : Int) : Int := max (-((2 ^ (n - 1) : Nat) : Int)) (min i (((2 ^ (n - 1) : Nat) : Int) - 1))

/-- Two's complement bits. -/
def intBits (n : Nat) (i : Int) : Nat := (i % ((2 ^ n : Nat) : Int)).toNat

/-- Encode into an integer element: rounded under the mode, saturated; NaN gives 0 (R119). -/
def encInt (n : Nat) (rm : Rnd) : Num → Nat
  | .nan => 0
  | .inf neg => intBits n (satInt n (if neg then -((2 ^ n : Nat) : Int) else ((2 ^ n : Nat) : Int)))
  | x => match roundInt rm x with
    | some i => intBits n (satInt n i)
    | none => 0

/-- Bits an element occupies in a packed word. -/
def eltWidth : Elt → Nat
  | .i4 => 4
  | .i8 => 8
  | .tap8 => 8
  | .tap6 => 8
  | .bf16 => 16
  | .f16 => 16
  | .i16 => 16

/-- The packed tag an element format applies to (R36). -/
def eltTag : Elt → Tag
  | .i4 => .pk4
  | .i8 => .pk8
  | .tap8 => .pk8
  | .tap6 => .pk8
  | .bf16 => .pk16
  | .f16 => .pk16
  | .i16 => .pk16

/-- Elements in a payload. -/
def eltCount (e : Elt) : Nat := 64 / eltWidth e

/-- The exact value of an element; a padded TAP6 byte with bits [7:6] set reads as NaE (R84). -/
def eltDec (e : Elt) (x : Nat) : Num :=
  match e with
  | .i4 => numOfInt (sextN x 4)
  | .i8 => numOfInt (sextN x 8)
  | .i16 => numOfInt (sextN x 16)
  | .tap8 => tap8.dec x
  | .tap6 => if x < 64 then tap6.dec x else .nan
  | .bf16 => fBF16.dec x
  | .f16 => fF16.dec x

/-- Encode an exact value into an element (R107, R119, R120). -/
def eltEnc (e : Elt) (rm : Rnd) (x : Num) : Nat :=
  match e with
  | .i4 => encInt 4 rm x
  | .i8 => encInt 8 rm x
  | .i16 => encInt 16 rm x
  | .tap8 => tap8.enc rm x
  | .tap6 => tap6.enc rm x
  | .bf16 => fBF16.enc rm x
  | .f16 => fF16.enc rm x

/-- Element i of a packed payload. -/
def eltAt (e : Elt) (p : Word) (i : Nat) : Nat := fld p (i * eltWidth e) (eltWidth e)

/-- A payload from its elements, element 0 in the low bits. -/
def packList (w : Nat) : List Nat → Nat
  | [] => 0
  | x :: r => x % 2 ^ w + 2 ^ w * packList w r

/-- A packed word of n elements given by index. -/
def packElts (e : Elt) (f : Nat → Nat) : Word := wd (packList (eltWidth e) ((List.range (eltCount e)).map f))

/-- Bytes of one tile element; I4 counts half a byte, so its width is 4 bits (R202). -/
def tfmtBits : TFmt → Nat
  | .i4 => 4
  | .i8 => 8
  | .tap8 => 8
  | .tap6 => 8
  | .se8 => 8
  | .bf16 => 16
  | .f16 => 16
  | .i16 => 16
  | .f32 => 32
  | .i32 => 32
  | .f64 => 64

/-- The exact value of a tile element. -/
def tfmtDec (t : TFmt) (x : Nat) : Num :=
  match t with
  | .i4 => numOfInt (sextN x 4)
  | .i8 => numOfInt (sextN x 8)
  | .i16 => numOfInt (sextN x 16)
  | .i32 => numOfInt (sextN x 32)
  | .tap8 => tap8.dec x
  | .tap6 => if x < 64 then tap6.dec x else .nan
  | .bf16 => fBF16.dec x
  | .f16 => fF16.dec x
  | .f32 => fF32.dec x
  | .f64 => fF64.dec x
  | .se8 => if x = 255 then .nan else .fin false 1 ((x : Int) - 127)

/-- Encode a tile element, RN in the engines' use, saturating (R244). -/
def tfmtEnc (t : TFmt) (rm : Rnd) (x : Num) : Nat :=
  match t with
  | .i4 => encInt 4 rm x
  | .i8 => encInt 8 rm x
  | .i16 => encInt 16 rm x
  | .i32 => encInt 32 rm x
  | .tap8 => tap8.enc rm x
  | .tap6 => tap6.enc rm x
  | .bf16 => fBF16.enc rm x
  | .f16 => fF16.enc rm x
  | .f32 => fF32.enc rm x
  | .f64 => fF64.enc rm x
  | .se8 => 0

/-! ## Block scales (R87, R88) -/

/-- The largest value of an element format that R88 gives one for. -/
def eltMax : TFmt → Option Nat
  | .tap8 => some 4096
  | .tap6 => some 16
  | .i8 => some 127
  | .i4 => some 7
  | _ => none

/-- The tile format of an element format. -/
def eltTFmt : Elt → TFmt
  | .i8 => .i8
  | .i4 => .i4
  | .tap8 => .tap8
  | .tap6 => .tap6
  | .bf16 => .bf16
  | .f16 => .f16
  | .i16 => .i16

/-- The least code e in lo .. lo + n with x at most mx * 2^(e-127), or lo + n. -/
def leastScale (mx : Nat) (x : Num) : Nat → Nat → Nat
  | lo, 0 => lo
  | lo, n + 1 => if leNum x (.fin false mx ((lo : Int) - 127)) then lo else leastScale mx x (lo + 1) n

/-- The scale code for a largest magnitude (R88): 255 for a NaN or an infinity, 0 for zeros, clamped to 0-254. -/
def scaleCode (mx : Nat) : Num → Nat
  | .nan => 255
  | .inf _ => 255
  | .fin _ m e => if m = 0 then 0 else leastScale mx (.fin false m e) 0 254

/-- The value times 2^(127-e): an element before its rounding (R88). -/
def scaleBy (k : Int) : Num → Num
  | .fin s m e => .fin s m (e + k)
  | x => x

/-- The largest magnitude of a list; a NaN anywhere gives NaN. -/
def maxMag (l : List Num) : Num :=
  if l.any Num.isNan then .nan else l.foldl (fun acc x => maxNum acc x.abs) (.fin false 0 0)

/-! ## Rounding bounds to F32 (R204, R207) -/

/-- A magnitude rounded up to F32, a NaN or an infinity as +infinity (R204). -/
def f32Up : Num → BitVec 32
  | .nan => BitVec.ofNat 32 fF32.infBits
  | x => BitVec.ofNat 32 (fF32.enc .ru x)

/-- The magnitude of a header field: a NaN reads as +infinity (R204). -/
def hdrMag (x : Nat) : Num :=
  match fF32.dec x with
  | .nan => .inf false
  | y => y.abs

/-! ## Values of lanes -/

/-- The format of a float tag. -/
def tagFmt : Tag → Option FFmt
  | .f64 => some fF64
  | .f32 => some fF32
  | .f16 => some fF16
  | .bf16 => some fBF16
  | _ => none

/-- The exact value of a scalar: INT or a float tag. -/
def valNum (v : Val) : Option Num :=
  match v.tag with
  | .int => some (numOfInt v.pay.toInt)
  | t => match tagFmt t with
    | some f => some (f.dec (fld v.pay 0 (1 + f.eb + f.fb)))
    | none => none

/-- A float value of tag t rounded under a mode. -/
def fVal (t : Tag) (rm : Rnd) (x : Num) : Val :=
  match tagFmt t with
  | some f => ⟨t, wd (f.enc rm x)⟩
  | none => ⟨t, 0⟩

/-- An INT value. -/
def intVal (i : Int) : Val := ⟨.int, wdInt i⟩

/-- An INT value of a natural number. -/
def natVal (n : Nat) : Val := ⟨.int, wd n⟩

/-- A POISON value with a fault code (R77). -/
def poisonVal (code : Nat) : Val := ⟨.poison, wd (code % 65536)⟩

/-- A PTR value. -/
def ptrVal (w : Word) : Val := ⟨.ptr, w⟩

end Sys2Proof.Machine
end

