-- ==== Sys2Proof/Machine/Ops.lean ====
section
/-! DEFINITION. The shared operations of the warp: causes and trap entry (R156-R158), the return from a trap (R160), lane
calls (R95-R97), JOIN release (R151), groups (R144), the scoreboard and outstanding requests (R150, R187, R257). -/

namespace Sys2Proof.Machine

open Sys2Proof

/-! ## Causes (R156) -/

def causeCode : Cause → Nat
  | .mchk => 0x40
  | .ill => 0x10
  | .priv => 0x11
  | .xlat => 0x20
  | .prot => 0x21
  | .align => 0x22
  | .tagmem => 0x23
  | .poison => 0x24
  | .owner => 0x30
  | .sparse => 0x31
  | .bound => 0x32
  | .scale => 0x33
  | .stall => 0x12
  | .lcstk => 0x13
  | .nursery => 0x50
  | .kvmiss => 0x60
  | .bkpt => 0x70
  | .trap => 0x71

/-- Priority: the least number is reported. -/
def causePrio : Cause → Nat
  | .mchk => 1
  | .ill => 2
  | .priv => 3
  | .xlat => 4
  | .prot => 5
  | .align => 6
  | .tagmem => 7
  | .poison => 8
  | .owner => 9
  | .sparse => 10
  | .bound => 11
  | .scale => 12
  | .stall => 13
  | .lcstk => 14
  | .nursery => 15
  | .kvmiss => 16
  | .bkpt => 17
  | .trap => 18

/-- One lane's cause, with the POISON code it consumed (R67) and what EADDR would hold. -/
structure LFault where
  lane : Nat
  cause : Cause
  fcode : Nat
  eaddr : Val
deriving DecidableEq, Repr

/-- What executes: the issuing warp, the instruction's address, the lanes at it and those the MASK leaves (R144). -/
structure Ix where
  w : Nat
  pc : Word
  next : Word
  grp : List Nat
  exe : List Nat
deriving DecidableEq, Repr

/-- How a meaning ends: done, not ready (the instruction issues again later), or a trap of some lanes; past lists lanes
whose ELPC is the next instruction (R157 step 4); or a trap that clears what it reports: the fault records of the listed
granules (TAKE, R200), the error marks of the listed accumulator tiles (R219); trapIn: a trap after accesses that told the service cores
something (R366), which stays told. -/
inductive Res
  | ok (s : State)
  | wait (k : Wait) (s : State)
  | trap (fs : List LFault) (info : Nat) (past : List Nat)
  | trapIn (s : State) (fs : List LFault)
  | recorded (f : LFault) (granules tiles : List Nat)
deriving DecidableEq, Repr

/-- The lowest executing lane. -/
def Ix.low (ix : Ix) : Nat := (ix.exe.head?).getD 0

/-- A cause of a lane with EADDR holding the instruction's address. -/
def faultAt (ix : Ix) (l : Nat) (c : Cause) : LFault := ⟨l, c, 0, ptrVal ix.pc⟩

/-- A cause of an instruction that acts once for the warp: it is the lowest executing lane's. -/
def trapOnce (ix : Ix) (c : Cause) : Res := .trap [faultAt ix ix.low c] 0 []

/-- POISON consumed by an instruction that acts once (R79). -/
def trapPoison (ix : Ix) (v : Val) : Res := .trap [⟨ix.low, .poison, fld v.pay 0 16, ptrVal ix.pc⟩] 0 []

/-- A trap of the listed lanes, or the state when there is none. -/
def orTrap (fs : List LFault) (s : State) : Res := if fs = [] then .ok s else .trap fs 0 []

/-! ## STATUS (R143) -/

def statusF (x : Warp) : Nat := fld x.status 8 5
def tip (x : Warp) : Bool := bitAt x.status 3
def super (x : Warp) : Bool := bitAt x.status 2
/-- RT is in effect: STATUS.RT, or the instruction came from a page with RX (R143). -/
def rtOn (x : Warp) : Bool := bitAt x.status 1 || x.rx
def chk (x : Warp) : Bool := bitAt x.status 0

/-! ## Groups (R98, R144) -/

/-- The greatest lane-call depth among the lanes that have not exited, those that wait at a JOIN included (R98, R144). -/
def topLcd (x : Warp) : Nat := (aliveLanes x).foldl (fun m l => max m (laneOf x l).lcd) 0

/-- The lanes that may form groups: ready, at the greatest depth unless TIP, and in a run that the fairness rule handed
over only the lanes of its group (R98, R144, R148, R158). -/
def candLanes (x : Warp) : List Nat :=
  let d := topLcd x
  (readyLanes x).filter (fun l => tip x || decide ((laneOf x l).lcd = d))

/-- The lanes the current run may issue. -/
def runLanes (x : Warp) : List Nat :=
  match x.sel with
  | none => candLanes x
  | some m =>
    let ls := (candLanes x).filter (fun l => bitAt m l)
    if ls = [] then candLanes x else ls

/-- The least LPC of some lanes. -/
def minLpc (x : Warp) : List Nat → Option Nat
  | [] => none
  | l :: r =>
    let a := (laneOf x l).lpc.toNat
    match minLpc x r with
    | none => some a
    | some b => some (min a b)

/-- The distinct LPCs of the groups. -/
def groupPcs (x : Warp) : List Nat := ((candLanes x).map (fun l => (laneOf x l).lpc.toNat)).eraseDups

/-- The issue address. -/
def issuePc (x : Warp) : Option Word := (minLpc x (runLanes x)).map wd

/-- The lanes at an address that the current run may issue. -/
def lanesAt (x : Warp) (pc : Word) : List Nat := (runLanes x).filter (fun l => decide ((laneOf x l).lpc = pc))

/-- Give lanes a program counter. -/
def setLpc (x : Warp) (ls : List Nat) (pc : Word) : Warp := updLanes x ls (fun _ y => { y with lpc := pc })

/-! ## JOIN release (R151) -/

/-- The JOINs at which lanes wait. -/
def joinsOf (x : Warp) : List (Word × MaskNo) :=
  ((lanesOf x).filterMap (fun l =>
    match (laneOf x l).act with
    | .waiting j m => some (j, m)
    | _ => none)).eraseDups

/-- Lane l stands at the JOIN at j: ready there or waiting there. -/
def atJoin (x : Warp) (j : Word) (l : Nat) : Bool :=
  let y := laneOf x l
  decide (y.lpc = j) &&
    (match y.act with
     | .ready => true
     | .waiting j' _ => decide (j' = j)
     | _ => false)

/-- Pass a JOIN: the lane is ready at the next instruction. -/
def passJoin (x : Warp) (j : Word) (ls : List Nat) : Warp :=
  updLanes x ls (fun _ y => { y with lpc := j + 8, act := .ready })

/-- The lanes of a mask. -/
def maskLanes (x : Warp) (m : Nat) : List Nat := (lanesOf x).filter (fun l => maskBit x m l)

/-- Re-evaluate one JOIN: waiters that have left the mask go on; a complete mask is released. -/
def rejoinAt (x : Warp) (jm : Word × MaskNo) : Warp :=
  let out := (lanesOf x).filter (fun l =>
    decide ((laneOf x l).act = .waiting jm.1 jm.2) && !maskBit x jm.2.val l)
  let x := passJoin x jm.1 out
  let ms := maskLanes x jm.2.val
  if ms ≠ [] ∧ ms.any (fun l => isWaiting (laneOf x l)) ∧ ms.all (fun l => atJoin x jm.1 l) then passJoin x jm.1 ms else x

/-- Re-evaluate every JOIN at which lanes wait, after a change of a mask (R151). -/
def rejoin (x : Warp) : Warp := (joinsOf x).foldl rejoinAt x

/-! ## Trap entry (R156-R158) and TRET (R160) -/

/-- Every fixed-latency result of the warp is complete (R26). -/
def settle (x : Warp) : Warp := { x with readyAt := [], readyOut := [] }

/-- A team that pre-emption stops or has stopped (R330). -/
def teamHeld (s : State) (t : Nat) : Bool := (teamOf s t).stopping || (teamOf s t).stopped

/-- A warp of a team that is being stopped issues nothing more, and its reservations are gone (R157, R161, R330). -/
def stopWarp (x : Warp) : Warp :=
  { updLanes x (lanesOf x) (fun _ y => { y with resv := none }) with stopped := true, sel := none }

/-- Whether the warp still awaits a load, an atomic or a service call (R157, R257, R329). A SIGNAL's entry awaits nothing (R325). -/
def outstanding (s : State) (w : Nat) : Bool :=
  (coreOf s (warpOf s w).core).reqs.any (fun e =>
    match e.2 with
    | some r => decide (r.warp = w) && decide (r.outs ≠ [])
    | none => false) || decide ((warpOf s w).wait = .svcall)

/-- A halted warp keeps its state, issues nothing and is reported (R158). -/
def haltWarp (s : State) (w : Nat) : State :=
  tellSvc (updWarp s w (fun x => { x with halted := true, pendTrap := none, walkFault := [] })) (warpPart s w) (.halted w)

/-- Steps 4 to 12 of R157 on the warp's own state. -/
def trapWarp (x : Warp) (t : TrapRec) : Warp :=
  let code := causeCode t.cause
  let low := (t.lanes.head?).getD (0, 0)
  let x := updLanes x (lanesOf x) (fun l y =>
    if isAlive y then
      { y with
        elpc := if t.past.contains l then t.pc + 8 else y.lpc
        estat := match t.lanes.find? (fun e => decide (e.1 = l)) with
          | some e => wd (e.2 * 256 + code)
          | none => 0
        resv := none, act := .ready, lpc := x.trapv }
    else y)
  { settle x with cause := wd (low.1 * 2 ^ 24 + t.info * 256 + code), eaddr := t.eaddr, fcnt := 0,
                  status := setBit x.status 3 true, pendTrap := none, walkFault := [], sel := none, lrRun := [] }

/-- TAKING A TRAP, once older loads have returned: the warp halts under TIP or without a TRAPV, else enters (R157, R158). -/
def enterTrap (s : State) (w : Nat) (t : TrapRec) : State :=
  let x := warpOf s w
  if tip x || decide (x.trapv = 0) then haltWarp s w else setWarp s w (trapWarp x t)

/-- The cause that is reported: the one of highest priority (R156). -/
def topFault (fs : List LFault) : Option LFault :=
  fs.foldl (fun b f =>
    match b with
    | none => some f
    | some g =>
      if causePrio f.cause < causePrio g.cause ∨ (causePrio f.cause = causePrio g.cause ∧ f.lane < g.lane) then some f
      else some g) none

/-- The lanes that have a cause, in ascending order, each with its POISON code. -/
def faultLanes (width : Nat) (fs : List LFault) (c : Cause) : List (Nat × Nat) :=
  (List.range width).filterMap (fun l =>
    (fs.find? (fun f => decide (f.lane = l ∧ f.cause = c))).map (fun f => (l, f.fcode)))

/-- A TRAP or a BKPT: the causes that carry INFO and let the lanes go on behind the instruction (R157 step 4, R181). -/
def carriesInfo (c : Cause) : Bool := decide (c = .trap ∨ c = .bkpt)

/-- A warp traps at ix.pc (R97, R156, R157): at once, or as TRAP_ENTRY once its older loads have returned. INFO and the lanes
behind the instruction are those of a TRAP or BKPT that is itself the cause reported. -/
def takeTrap (s : State) (ix : Ix) (fs : List LFault) (info : Nat) (past : List Nat) : State :=
  match topFault fs with
  | none => s
  | some f =>
    let t : TrapRec := { cause := f.cause, lanes := faultLanes (warpOf s ix.w).width fs f.cause, eaddr := f.eaddr,
                         info := if carriesInfo f.cause then info else 0,
                         past := if carriesInfo f.cause then past else [], pc := ix.pc }
    if outstanding s ix.w then updWarp s ix.w (fun x => { x with pendTrap := some t })
    else enterTrap s ix.w t

/-- RETURN FROM A TRAP (R160). -/
def tretWarp (x : Warp) : Warp :=
  let x := updLanes x (lanesOf x) (fun _ y =>
    { y with lpc := y.elpc, act := if isAlive y then .ready else y.act })
  { settle x with status := setBit x.status 3 false, fcnt := 0, sel := none }

/-! ## Reading a code address or an object through the warp's translation -/

/-- What an access that the instruction needs before it can take effect brings (R222, last row); a fault comes with the state that holds
what the service cores have been told of it (R366). -/
inductive Fetched
  | ok (s : State) (v : WV) (l : Leaf)
  | miss (vpn : Nat)
  | fault (s : State) (c : Cause)
deriving DecidableEq, Repr

/-- Read the aligned word at virtual address va through the core's L1. -/
def needWord (s : State) (w : Nat) (va : Nat) (n : Need) : Fetched :=
  if 2 ^ 48 ≤ va then .fault s .xlat
  else match translate s w va n with
    | .miss v => .miss v
    | .fault c => .fault s c
    | .ok pa l =>
      match l1Read s (warpOf s w).core (warpPart s w) (pa / 8) 0xFF l.t with
      | (s, .lost) => .fault s .prot
      | (s, .ok v) => if v.bad then .fault s .mchk else .ok s v l

/-- TVEC and TRAPV hold multiples of 8 (R142). -/
def vecBase (w : Word) : Word := wd (w.toNat / 8 * 8)

/-! ## Lane calls (R95-R97) -/

/-- A lane call: class and key, operands, destination (DKIND, DREG) and LRPC. -/
structure LCall where
  lane : Nat
  cls : Nat
  ta : Nat
  tb : Nat
  a : Val
  b : Val
  c : Val
  dkind : Nat
  dreg : Nat
  back : Word
deriving DecidableEq, Repr

/-- The address of a handler table entry (R95). -/
def entryAddr (x : Warp) (k : LCall) : Nat := (x.tvec.toNat + 8 * (k.cls * 256 + k.ta * 16 + k.tb)) % 2 ^ 64

/-- LDST of a call (R66). -/
def ldstOf (k : LCall) : Word :=
  wd (k.dreg + 2 ^ 8 * k.cls + 2 ^ 12 * k.ta + 2 ^ 16 * k.tb + 2 ^ 20 * k.dkind)

/-- The lane's own state after the call enters its handler (R96). -/
def enterCall (y : Lane) (k : LCall) (entry : Word) : Lane :=
  let y := if 1 ≤ y.lcd then
      { y with stk := spSet 0 (spSet 0 y.stk y.csd y.lrpc) (y.csd + 1) y.ldst, csd := y.csd + 2 }
    else y
  { y with lopa := k.a, lopb := k.b, lopc := k.c, ldst := ldstOf k, lrpc := k.back, lcd := y.lcd + 1, lpc := entry }

/-- A call is ready to enter, waits for a walk, or traps. -/
inductive CallIn
  | ok (s : State) (entry : Word)
  | miss (vpn : Nat)
  | fault (s : State) (f : LFault)
deriving DecidableEq, Repr

/-- The checks of a call before it takes effect (R95, R96). -/
def checkCall (s : State) (ix : Ix) (k : LCall) : CallIn :=
  let x := warpOf s ix.w
  let y := laneOf x k.lane
  if y.lcd = 4 ∨ (1 ≤ y.lcd ∧ 14 < y.csd) then .fault s (faultAt ix k.lane .lcstk)
  else
    let va := entryAddr x k
    let at_ := fun s c => CallIn.fault s ⟨k.lane, c, 0, ptrVal (wd va)⟩
    match needWord s ix.w va .r with
    | .miss v => .miss v
    | .fault s c => at_ s c
    | .ok s v _ => if v.data = 0 then at_ s .ill else if fld v.data 0 3 ≠ 0 then at_ s .align else .ok s v.data

/-- The outcome of checking every call. -/
structure CallsIn where
  s : State
  entries : List (LCall × Word)
  misses : List Nat
  faults : List LFault

/-- Check the calls in lane order. -/
def checkCalls (s : State) (ix : Ix) (ks : List LCall) : CallsIn :=
  ks.foldl (fun a k =>
    match checkCall a.s ix k with
    | .ok s e => { a with s := s, entries := a.entries ++ [(k, e)] }
    | .miss v => { a with misses := v :: a.misses }
    | .fault s f => { a with s := s, faults := a.faults ++ [f] }) ⟨s, [], [], []⟩

/-- Enter the handlers; every fixed-latency result of the warp is complete (R26). -/
def enterCalls (s : State) (ix : Ix) (es : List (LCall × Word)) : State :=
  if es = [] then s
  else updWarp s ix.w (fun x =>
    settle (es.foldl (fun x e => updLane x e.1.lane (fun y => enterCall y e.1 e.2)) x))

/-- The end every instruction that may call shares: faults of its lanes and of its calls trap the warp with no lane
taking effect (R97); a walk is waited for; else f applies the lanes' effects and the callers enter their handlers. -/
def finishCalls (s : State) (ix : Ix) (ks : List LCall) (fs : List LFault) (misses : List Nat) (f : State → State) : Res :=
  let c := checkCalls s ix ks
  if misses ++ c.misses ≠ [] then .wait (.walk (misses ++ c.misses).eraseDups) c.s
  else if fs ++ c.faults ≠ [] then .trapIn c.s (fs ++ c.faults)
  else .ok (enterCalls (f c.s) ix c.entries)

/-! ## The scoreboard (R26, R150) and outstanding requests (R187, R257) -/

/-- The scoreboard's number of a register field's register. -/
def regKey : Reg → Option Nat
  | .lane n => some n.toNat
  | .uni n => some (128 + n.toNat)
  | .nil => none

/-- One more, or one fewer, pending result of a register. -/
def addPend (x : Warp) (r : Nat) : Warp := { x with pend := spSet 0 x.pend r (spGet 0 x.pend r + 1) }
def subPend (x : Warp) (r : Nat) : Warp := { x with pend := spSet 0 x.pend r (spGet 0 x.pend r - 1) }

/-- The scoreboard number of a destination. -/
def dstKey : Dst → Option Nat
  | .lane r _ => some r
  | .uni r => some (128 + r)
  | .none _ => none

/-- The destination of a register field in a lane. -/
def dstOf (r : Reg) (l : Nat) : Dst :=
  match r with
  | .lane n => .lane n.toNat l
  | .uni n => .uni n.toNat
  | .nil => .none l

def writeDst (x : Warp) (d : Dst) (v : Val) : Warp :=
  match d with
  | .lane r l => setLaneReg x r l v
  | .uni r => setUniReg x r v
  | .none _ => x

/-- Free request entries of a core (R187). -/
def reqRoom (s : State) (c : Nat) : Nat := 1024 - (coreOf s c).reqs.length

/-- Enter a request in the core's table and mark its destinations pending. -/
def addReq (s : State) (c : Nat) (r : Req) : State × Nat :=
  let x := coreOf s c
  let n := x.nextReq
  let s := setCore s c { x with reqs := spSet none x.reqs n (some r), nextReq := n + 1 }
  (updWarp s r.warp (fun y => r.outs.foldl (fun y o =>
    match dstKey o.1 with
    | some k => addPend y k
    | none => y) y), n)

/-- Wake the warps of a core that wait for a request entry, and the given warp if it waits to drain. -/
def wakeRequests (s : State) (c w : Nat) : State :=
  { s with warps := spMap Warp.none (fun k x =>
      if (x.core = c ∧ x.wait = .requests) ∨ (k = w ∧ x.wait = .drain) then { x with wait := .none } else x) s.warps }

/-- The values of a request once all are known. -/
def reqVals (r : Req) : Option (List (Dst × Val)) := r.outs.mapM (fun o => o.2.map (fun v => (o.1, v)))

/-- Take a request out of the table: its values are written and its marks cleared. -/
def endReq (s : State) (c n : Nat) (vals : List (Dst × Val)) : State :=
  match spGet none (coreOf s c).reqs n with
  | none => s
  | some r =>
    let s := updCore s c (fun x => { x with reqs := spSet none x.reqs n none })
    let s := updWarp s r.warp (fun y =>
      let y := vals.foldl (fun y e => writeDst y e.1 e.2) y
      r.outs.foldl (fun y o =>
        match dstKey o.1 with
        | some k => subPend y k
        | none => y) y)
    wakeRequests s c r.warp

/-- The requests that have not been performed yet: those of a service warp's queue, and those that wait for room in it (R256). -/
def Asw.all (x : Asw) : List AswReq := x.queue ++ x.waiting

/-- Whether an earlier atomic or append of the warp on a line has not been performed yet (R223). -/
def lineBusy (s : State) (w line : Nat) : Bool :=
  s.asws.any (fun e => e.2.all.any (fun r => decide (r.warp = w ∧ r.pa / 256 = line))) ||
  s.appends.any (fun a => decide (a.warp = w) &&
    (decide ((a.kpa / 256 ≤ line ∧ line ≤ a.kpa / 256 + 66)) || decide (a.vpa / 256 ≤ line ∧ line ≤ a.vpa / 256 + 64)))

/-- Whether a write of a partition's region table is still to come into force on one of its cores (R215). -/
def tableDue (s : State) (p : Nat) : Bool :=
  s.cores.any (fun e => decide (e.2.rgnDue ≠ [])) && (coresOf s p).any (fun c => decide ((coreOf s c).rgnDue ≠ []))

/-- Drop the header entries of a 2 MiB region (R214). -/
def dropHeaders (k : Core) (region : Nat) : Core :=
  { k with hdrp := k.hdrp.filter (fun e => decide (e.1 * 8 / 2 ^ 21 ≠ region)) }

/-- A region table entry comes into force on a core; a region that leaves the table is freed, and its header entries go (R214). -/
def regionPut (k : Core) (e : Nat × Word) : Core :=
  let old := spGet 0 k.rgn e.1
  let k := if bitAt old 63 && decide (old ≠ e.2) then dropHeaders k (fld old 0 27) else k
  { k with rgn := spSet 0 k.rgn e.1 e.2 }

/-- Whether a copy, selection or attention that the warp has issued is still to read memory: what the warp does later stands after
those reads (R292, R304). -/
def readsPending (s : State) (w : Nat) : Bool :=
  (coreOf s (warpOf s w).core).copyq.any (fun o => decide (o.warp = w) && !o.out) || s.ksels.any (fun o => decide (o.warp = w)) ||
  s.attns.any (fun o => decide (o.warp = w))

/-- Whether an earlier atomic of the warp has not been performed yet. -/
def atomsUndrained (s : State) (w : Nat) : Bool := s.asws.any (fun e => e.2.all.any (fun r => decide (r.warp = w)))

/-- Whether any earlier atomic or append of the warp has not been performed yet (R300), or, on a service core, a write of its
partition's region table is not complete (R215). -/
def warpUndrained (s : State) (w : Nat) : Bool :=
  atomsUndrained s w || s.appends.any (fun a => decide (a.warp = w)) ||
  (isService (warpOf s w).core && tableDue s (warpPart s w))

/-- Whether an earlier access of the warp is still to be performed that its release, or an arrival at a bench, comes after (R298, R300,
R304). -/
def warpBusy (s : State) (w : Nat) : Bool := warpUndrained s w || readsPending s w

/-- Wake a warp that waited for its earlier accesses: for an acquire half once its atomics and appends have been performed; one that
waits to issue looks again once either those or its engine operations' reads are done (R227: a fence waits for no engine's reads). -/
def wakeDrained (s : State) (w : Nat) : State :=
  match (warpOf s w).wait with
  | .drain => if warpUndrained s w && readsPending s w then s else updWarp s w (fun x => { x with wait := .none })
  | .acquire => if warpUndrained s w then s else updWarp s w (fun x => { x with wait := .none })
  | _ => s

/-- A request of the core may still bring a REF that the region table in force lets through (R216, R259). -/
def barrierOwed (k : Core) : Bool :=
  k.reqs.any (fun e =>
    match e.2 with
    | some r => r.bar
    | none => false)

/-- A core whose region table's due writes have come into force (R215); the run of an instruction whose reply the barrier has still to
see is not over. DESIGN CHOICE (log entry 64). -/
def tableDone (k : Core) : Core := if barrierOwed k then k else { k.rgnDue.foldl regionPut k with rgnDue := [] }

/-- A run boundary of a core: the writes of its region table that were due come into force (R215). -/
def tableBoundary (s : State) (c : Nat) : State := updCore s c tableDone

end Sys2Proof.Machine
end

