-- ==== Sys2Proof/Machine/Operands.lean ====
section
/-! DEFINITION. Operand forms: element selectors (R35), the registers and masks an instruction names (R26, R30, R150),
latencies (R26), addresses (R39, R71), handles (R201-R204), and how a lane instruction's results are delivered. -/

namespace Sys2Proof.Machine

open Sys2Proof

/-! ## Selectors (R35) -/

/-- Element width and count of a packed tag. -/
def packShape : Tag → Option (Nat × Nat)
  | .pk8 => some (8, 8)
  | .pk16 => some (16, 4)
  | .pk4 => some (4, 16)
  | _ => none

def isPacked (t : Tag) : Bool := (packShape t).isSome

/-- The element that selector code c puts at position i of n. -/
def selIndex (c n i : Nat) : Nat :=
  match c with
  | 0 => i
  | 1 => Nat.xor i 1
  | 2 => Nat.xor i 2
  | 3 => n - 1 - i
  | 4 => (i + n - 1) % n
  | 5 => (i + 1) % n
  | 6 => i / 2 * 2
  | 7 => i / 2 * 2 + 1
  | k => (k - 8) % n

/-- An operand after its selector: packed payloads are rearranged, others pass. -/
def selVal (c : BitVec 4) (v : Val) : Val :=
  match packShape v.tag with
  | none => v
  | some (w, n) =>
    if c = 0 then v
    else ⟨v.tag, wd (packList w ((List.range n).map (fun i => fld v.pay (w * selIndex c.toNat n i) w)))⟩

/-! ## What an instruction names -/

/-- Destination and source registers, destination and source masks. -/
structure Uses where
  d : List Reg := []
  s : List Reg := []
  md : List MaskNo := []
  ms : List MaskNo := []
deriving DecidableEq, Repr

def condUses : Cond → Uses
  | .always => {}
  | .nz r | .z r | .uniform r => { s := [r] }
  | .ms m | .mc m => { ms := [m] }

/-- The registers and masks of an instruction's fields; an unused field names none. -/
def usesOf : Instr → Uses
  | .add _ o | .sub _ o | .mul _ o | .div _ o | .rem _ o | .min _ o | .max _ o | .cmp _ _ o | .pack _ _ o =>
    { d := [o.d], s := [o.a, o.b] }
  | .fma _ o | .clamp _ o | .dot _ o => { d := [o.d], s := [o.a, o.b, o.c] }
  | .neg _ o | .abs _ o | .unpk _ o => { d := [o.d], s := [o.a] }
  | .cmpm _ _ m a b _ _ _ => { s := [a, b], md := [m] }
  | .cmpi _ _ d a _ | .scaleq _ d a _ | .tagof _ d a | .tagas _ _ d a | .shli _ d a _ | .shri _ d a _ | .alloc _ d a
  | .vote _ _ d a | .redux _ _ d a | .scanx _ _ _ d a | .shflx _ d a _ | .ownq _ d a => { d := [d], s := [a] }
  | .sqrt _ o | .rcp _ o | .rsq _ o | .exp2 _ o | .log2 _ o | .sin _ o | .cos _ o | .tanh _ o | .frnd _ _ o
  | .cvt _ _ _ o | .not _ o | .popc _ o | .clz _ o | .ctz _ o | .brev _ o | .mov _ o => { d := [o.d], s := [o.a] }
  | .qnt _ _ d a b _ | .shfl _ d a b | .bcast _ d a b | .ldh _ d a b _ | .vatom _ _ _ d a b _ _ | .kvxl _ d a b =>
    { d := [d], s := [a, b] }
  | .tagm _ _ m a => { s := [a], md := [m] }
  | .and _ o | .or _ o | .xor _ o | .shl _ o | .shr _ o | .sar _ o | .rol _ o | .mulh _ o | .addw _ o | .subw _ o
  | .mulw _ o | .lea _ _ o | .ptrd _ o => { d := [o.d], s := [o.a, o.b] }
  | .sel _ m o => { d := [o.d], s := [o.a, o.b], ms := [m] }
  | .andi _ o | .ori _ o | .xori _ o | .addi _ o | .muli _ o => { d := [o.d], s := [o.a] }
  | .bfx _ o => { d := [o.d], s := [o.a, o.b, o.c] }
  | .bfi _ o => { d := [o.d], s := [o.a, o.b, o.c, o.d] }
  | .movi _ d _ | .movf _ d _ | .movl _ _ d _ | .getl _ _ d | .gets _ _ d | .bndget _ d _ => { d := [d] }
  | .setl _ _ a | .sets _ _ a | .lret _ a | .give _ a | .take _ a | .accld _ _ a | .accrd _ _ a | .bndset _ _ a
  | .wqry _ a | .cmpl _ a | .kvret _ a | .ctxsv _ a | .ctxld _ a | .prmt _ a | .icinv _ a | .jmpi _ a => { s := [a] }
  | .bra _ o | .call _ o | .lcall _ o => condUses o.cond
  | .ret _ c | .exit _ c => condUses c
  | .join _ m => { ms := [m] }
  | .leave _ m => { md := [m], ms := [m] }
  | .mset _ k m a =>
    match k with
    | .nz | .bits => { s := [a], md := [m] }
    | _ => { md := [m] }
  | .mops _ k d a b =>
    match k with
    | .not | .copy => { md := [d], ms := [a] }
    | _ => { md := [d], ms := [a, b] }
  | .mget _ d m => { d := [d], ms := [m] }
  | .elect _ m => { md := [m] }
  | .ld _ o | .lr _ o => { d := [o.d], s := [o.a, o.b] }
  | .ldr _ o => { d := [o.d], s := [o.a, o.b] }
  | .st _ o => { s := [o.d, o.a, o.b] }
  | .str _ o => { s := [o.d, o.a, o.b] }
  | .sc _ o => { d := [o.b], s := [o.d, o.a] }
  | .pf _ o | .cflush _ o | .cinv _ o => { s := [o.a, o.b] }
  | .hcas _ o _ _ _ | .tile _ _ _ _ o => { d := [o.d], s := [o.a, o.b, o.c] }
  | .lds _ o => { d := [o.d], s := [o.a, o.b] }
  | .sts _ o => { s := [o.d, o.a, o.b] }
  | .satom _ op _ _ o => { d := [o.d], s := if op = .cas then [o.a, o.b, o.c] else [o.a, o.b] }
  | .atom _ o => { d := [o.d], s := if o.op = .cas then [o.a, o.b, o.c] else [o.a, o.b] }
  | .cpy _ m _ a b c =>
    match m with
    | .lin | .tap6 => { s := [a, b] }
    | _ => { s := [a, b, c] }
  | .mma _ _ a b | .mmap _ _ a b | .dlaunch _ a b | .kvsd _ a b => { s := [a, b] }
  | .mmab _ _ _ b => { s := [b] }
  | .kvapp _ a b c | .kvmap _ a b c => { s := [a, b, c] }
  | .ksel _ _ _ o | .attn _ o => { s := [o.d, o.a, o.b, o.c] }
  | .signal _ _ _ o | .waits _ _ _ o => { s := [o.a, o.b] }
  | .svcall .. => { d := [.uni 56, .uni 57], s := [.uni 56, .uni 57, .uni 58, .uni 59] }
  | _ => {}

/-- The common header of an instruction (R22); an event has none. -/
def hdrOf : Instr → Hdr
  | .add h .. | .sub h .. | .mul h .. | .div h .. | .rem h .. | .fma h .. | .neg h .. | .abs h .. | .min h ..
  | .max h .. | .clamp h .. | .cmp h .. | .cmpm h .. | .cmpi h .. | .sqrt h .. | .rcp h .. | .rsq h .. | .exp2 h ..
  | .log2 h .. | .sin h .. | .cos h .. | .tanh h .. | .frnd h .. | .dot h .. | .cvt h .. | .pack h .. | .unpk h ..
  | .scaleq h .. | .qnt h .. | .tagof h .. | .tagas h .. | .tagm h .. | .and h .. | .or h .. | .xor h .. | .not h ..
  | .andi h .. | .ori h .. | .xori h .. | .shl h .. | .shr h .. | .sar h .. | .rol h .. | .shli h .. | .shri h ..
  | .popc h .. | .clz h .. | .ctz h .. | .brev h .. | .bfx h .. | .bfi h .. | .mulh h .. | .addw h .. | .subw h ..
  | .mulw h .. | .lea h .. | .ptrd h .. | .mov h .. | .movi h .. | .movf h .. | .movl h .. | .sel h .. | .getl h ..
  | .setl h .. | .addi h .. | .muli h .. | .bra h .. | .call h .. | .ret h .. | .jmpi h .. | .exit h .. | .lcall h ..
  | .join h .. | .leave h .. | .mset h .. | .mops h .. | .mget h .. | .elect h .. | .shfl h .. | .shflx h ..
  | .bcast h .. | .vote h .. | .redux h .. | .scanx h .. | .lret h .. | .alloc h .. | .gets h .. | .sets h ..
  | .trap h .. | .bkpt h .. | .tret h | .nop h | .yield h | .sleep h .. | .ld h .. | .st h .. | .ldr h .. | .str h ..
  | .lr h .. | .sc h .. | .fence h .. | .pf h .. | .cflush h .. | .cinv h .. | .ldh h .. | .hcas h .. | .lds h ..
  | .sts h .. | .satom h .. | .tile h .. | .cpy h .. | .give h .. | .take h .. | .ownq h .. | .mma h .. | .mmab h ..
  | .accz h .. | .accw h .. | .accld h .. | .accrd h .. | .bndget h .. | .bndset h .. | .bninit h .. | .bna h ..
  | .bnw h .. | .bnaw h .. | .atom h .. | .vatom h .. | .mmap h .. | .kvapp h .. | .ksel h .. | .attn h ..
  | .kvxl h .. | .wqry h .. | .signal h .. | .waits h .. | .cmpl h .. | .dlaunch h .. | .kvret h .. | .svcall h ..
  | .ctxsv h .. | .ctxld h .. | .prmt h .. | .icinv h .. | .kvmap h .. | .kvsd h .. => h
  | _ => ⟨false, 0, none⟩

/-- The registers by whose tags an instruction dispatches (R92, R93), those of its key in order; an instruction that does not
dispatch has none. A unary one, and one whose second operand is no operand of the pair, has tagB 0; BFI's pair is A and the old D. -/
def keyRegs : Instr → List Reg
  | .add _ o | .sub _ o | .mul _ o | .div _ o | .rem _ o | .min _ o | .max _ o | .cmp _ _ o => [o.a, o.b]
  | .cmpm _ _ _ a b _ _ _ => [a, b]
  | .fma _ o | .clamp _ o | .dot _ o => [o.a, o.b]
  | .neg _ o | .abs _ o | .unpk _ o => [o.a]
  | .pack _ _ o => [o.a]
  | .cmpi _ _ _ a _ | .scaleq _ _ a _ | .qnt _ _ _ a _ _ | .shli _ _ a _ | .shri _ _ a _ => [a]
  | .sqrt _ o | .rcp _ o | .rsq _ o | .exp2 _ o | .log2 _ o | .sin _ o | .cos _ o | .tanh _ o | .frnd _ _ o
  | .cvt _ _ _ o | .not _ o | .popc _ o | .clz _ o | .ctz _ o | .brev _ o => [o.a]
  | .and _ o | .or _ o | .xor _ o | .shl _ o | .shr _ o | .sar _ o | .rol _ o | .mulh _ o | .addw _ o | .subw _ o
  | .mulw _ o | .lea _ _ o | .ptrd _ o => [o.a, o.b]
  | .andi _ o | .ori _ o | .xori _ o | .addi _ o | .muli _ o => [o.a]
  | .bfx _ o => [o.a]
  | .bfi _ o => [o.a, o.d]
  | _ => []

/-- An instruction that acts once for the warp (R24): it writes a uniform register, its register operands are all uniform, or it is an
engine or bench instruction whose operands are numbers of tiles and benches in its word (R221). -/
def onceForWarp (i : Instr) : Bool :=
  match i with
  | .accz .. | .accw .. | .bninit .. | .bna .. | .bnw .. | .bnaw .. => true
  | _ =>
    let u := usesOf i
    u.d.any isUni || (decide (u.md = [] ∧ u.d ++ u.s ≠ []) && (u.d ++ u.s).all (fun r => !isLane r))

/-- The lane register numbers an instruction names (R30). -/
def laneNums (u : Uses) : List Nat :=
  (u.d ++ u.s).filterMap (fun r =>
    match r with
    | .lane n => some n.toNat
    | _ => none)

/-- The scoreboard numbers of registers and masks: masks count from 256. -/
def readKeys (u : Uses) : List Nat := u.s.filterMap regKey ++ u.ms.map (fun m => 256 + m.val)
def writeKeys (u : Uses) : List Nat := u.d.filterMap regKey ++ u.md.map (fun m => 256 + m.val)

/-! ## The slots of registers that an instruction reads and writes (R24, R26, R172, R219, R282) -/

/-- A lane's slot of a lane register or a mask, by scoreboard number; a uniform register has one slot. -/
def slotKey (k l : Nat) : Nat := if 128 ≤ k ∧ k < 256 then k else 512 * (l + 1) + k

/-- The executing lanes that read operands: all of them, but of an instruction that acts once the lowest, except where it looks at every
executing lane (R173, R174). -/
def readers (i : Instr) (exe : List Nat) : List Nat :=
  match i with
  | .vote .. | .redux .. => exe
  | .sets .. | .kvapp .. | .ksel .. | .attn .. => exe.take 1
  | _ => if onceForWarp i then exe.take 1 else exe

/-- The lane that a lane number names, modulo the width (R172). -/
def namedLane (x : Warp) (b : Reg) (l : Nat) : Nat := (readReg x b l).pay.toNat % x.width

/-- The lanes whose slots of operand register r an executing lane reads: its own, for SHFL, SHFLX and BCAST the lane that they name
(R172), and for a row of KVAPP, KSEL or ATTN all 32 (R282, R284, R287). -/
def slotLanes (x : Warp) (i : Instr) (l : Nat) (r : Reg) : List Nat :=
  match i with
  | .shfl _ _ a b | .bcast _ _ a b => (if r = a then [namedLane x b l] else []) ++ (if r = b then [l] else [])
  | .shflx _ _ _ k => [Nat.xor l k.toNat]
  | .kvapp _ _ b c => if r = b ∨ r = c then List.range 32 else [l]
  | .ksel _ _ _ o | .attn _ o => if r = o.a then List.range 32 else [l]
  | _ => [l]

/-- The lanes whose bits of a source mask an instruction reads: its executing lanes', and every lane's where it takes the whole mask
(R167, R169, R170). -/
def maskSlots (x : Warp) (i : Instr) (exe : List Nat) : List Nat :=
  match i with
  | .mops .. | .mget .. | .join .. => lanesOf x
  | _ => exe

/-- The slots an instruction reads in the lanes that execute it. -/
def readSlots (x : Warp) (i : Instr) (exe : List Nat) : List Nat :=
  let u := usesOf i
  ((readers i exe).map (fun l => (u.s.map (fun r =>
    match regKey r with
    | some k => (slotLanes x i l r).map (slotKey k)
    | none => [])).flatten)).flatten ++
  (u.ms.map (fun m => (maskSlots x i exe).map (slotKey (256 + m.val)))).flatten

/-- The slots an instruction writes in the lanes that execute it: of a mask their own bits, or the whole mask (R168, R169, R171). -/
def writeSlots (x : Warp) (i : Instr) (exe : List Nat) : List Nat :=
  let u := usesOf i
  let ls := match i with
    | .cmpm .. | .tagm .. | .leave .. => exe
    | _ => if exe = [] then [] else lanesOf x
  (u.d.map (fun r =>
    match regKey r with
    | some k => exe.map (slotKey k)
    | none => [])).flatten ++ (u.md.map (fun m => ls.map (slotKey (256 + m.val)))).flatten

/-- Latencies of R26; none: variable. -/
def latency : Instr → Option Nat
  | .mov .. | .movi .. | .movf .. | .movl .. | .sel .. | .tagof .. | .tagas .. | .tagm .. | .and .. | .or .. | .xor ..
  | .not .. | .shl .. | .shr .. | .sar .. | .rol .. | .bfx .. | .bfi .. | .brev .. | .addw .. | .subw .. | .lea ..
  | .ptrd .. | .andi .. | .ori .. | .xori .. | .shli .. | .shri .. | .mset .. | .mops .. | .mget .. => some 2
  | .gets _ x _ => if x = .cyc then none else some 2
  | .popc .. | .clz .. | .ctz .. | .mulh .. | .mulw .. => some 4
  | .add .. | .sub .. | .mul .. | .fma .. | .neg .. | .abs .. | .min .. | .max .. | .cmp .. | .cmpm .. | .cmpi ..
  | .addi .. | .muli .. | .clamp .. | .frnd .. | .cvt .. | .pack .. | .unpk .. | .dot .. => some 6
  | _ => none

/-- An instruction with a variable-latency result that no request brings (R26, R150): its latency is none, it writes a register
or mask, and it is neither a memory request with a reply nor one that waits for its result (SVCALL). -/
def sendsLate (i : Instr) : Bool :=
  match i with
  | .ld .. | .ldr .. | .lr .. | .ldh .. | .atom .. | .hcas .. | .vatom .. | .svcall .. => false
  | _ => (latency i).isNone

/-! ## Results of lane instructions (R24, R97, R100, R102) -/

/-- Where a lane instruction's result goes. -/
inductive LDst
  | reg (r : Reg)
  | mask (m : MaskNo)
deriving DecidableEq, Repr

/-- What one lane of an instruction comes to: a value, a lane call with its operands, or a cause. -/
inductive LOut
  | val (v : Val)
  | call (cls ta tb : Nat) (a b c : Val)
  | fault (c : Cause) (fcode : Nat)
deriving DecidableEq, Repr

/-- R24, R100: the instruction acts once when it writes a uniform register, or when every register it names is uniform. -/
def actsOnce (d : LDst) (srcs : List Reg) : Bool :=
  match d with
  | .reg (.uni _) => true
  | .reg .nil => srcs.all (fun r => !isLane r)
  | .reg (.lane _) => false
  | .mask _ => false

/-- The lanes that act. -/
def actLanes (ix : Ix) (d : LDst) (srcs : List Reg) : List Nat := if actsOnce d srcs then [ix.low] else ix.exe

/-- DKIND and DREG of a destination (R66). -/
def destKind : LDst → Nat × Nat
  | .reg .nil => (2, 255)
  | .reg r => (0, regCode r)
  | .mask m => (1, m.val)

/-- Write one lane's result (R32, R102). -/
def writeOut (x : Warp) (d : LDst) (l : Nat) (v : Val) : Warp :=
  match d with
  | .reg r => writeReg x r l v
  | .mask m => setMask x m.val (setBit (maskReg x m.val) l (decide (v.pay ≠ 0)))

/-- Whether any lane has a result. -/
def givesAny (outs : List (Nat × LOut)) : Bool :=
  outs.any (fun o =>
    match o.2 with
    | .val _ => true
    | _ => false)

/-- Write the results of the lanes that have one, then re-evaluate JOINs when a mask changed (R151). -/
def writeOuts (x : Warp) (d : LDst) (outs : List (Nat × LOut)) : Warp :=
  let x := outs.foldl (fun x o =>
    match o.2 with
    | .val v => writeOut x d o.1 v
    | _ => x) x
  match d with
  | .mask _ => if givesAny outs then rejoin x else x
  | .reg _ => x

/-- The calls among the lanes' outcomes. -/
def callsOf (ix : Ix) (d : LDst) (outs : List (Nat × LOut)) : List LCall :=
  outs.filterMap (fun o =>
    match o.2 with
    | .call cls ta tb a b c => some ⟨o.1, cls, ta, tb, a, b, c, (destKind d).1, (destKind d).2, ix.next⟩
    | _ => none)

/-- The causes among the lanes' outcomes: EADDR holds the instruction's address. -/
def faultsOf (ix : Ix) (outs : List (Nat × LOut)) : List LFault :=
  outs.filterMap (fun o =>
    match o.2 with
    | .fault c fc => some ⟨o.1, c, fc, ptrVal ix.pc⟩
    | _ => none)

/-- The whole effect of a lane instruction whose lanes come to f (R97, R100). -/
def laneOp (ix : Ix) (s : State) (d : LDst) (srcs : List Reg) (f : Nat → LOut) : Res :=
  let outs := (actLanes ix d srcs).map (fun l => (l, f l))
  finishCalls s ix (callsOf ix d outs) (faultsOf ix outs) [] (fun s => updWarp s ix.w (fun x => writeOuts x d outs))

/-! ## Addresses (R39, R71) -/

/-- An address component that supplies an address: PTR, REF, TILE, INT or NIL (R71). -/
def addrTag (t : Tag) : Bool := decide (t = .ptr ∨ t = .ref ∨ t = .tile ∨ t = .int ∨ t = .nil)

/-- The cause of a base that cannot serve: POISON, PROT for its tag, XLAT for bits [63:48] (R71, R79). -/
def addrCause (v : Val) : Option Cause :=
  if v.tag = .poison then some .poison
  else if !addrTag v.tag then some .prot
  else if fld v.pay 48 16 ≠ 0 then some .xlat
  else none

/-- The cause of an index that cannot serve: as of a base, but an INT index is a signed number and only the sum has a range
(R39, R220, R354: a negative index traps where the sum leaves the 48 bits and nowhere else). DEDUCED, unsafe (log entry 11). -/
def indexCause (v : Val) : Option Cause := if v.tag = .int then none else addrCause v

/-- What an index adds: an INT its signed value, another tag its payload (R39, R71). -/
def indexInt (v : Val) : Int := if v.tag = .int then v.pay.toInt else (v.pay.toNat : Int)

/-- The virtual address of base, index and scaled offset (R39): 48 bits, or none when the sum leaves them. -/
def addrSum (a b : Val) (off : Int) : Option Nat :=
  let x : Int := (a.pay.toNat : Int) + indexInt b + off
  if 0 ≤ x ∧ x < 2 ^ 48 then some x.toNat else none

/-- EADDR of an address that leaves the 48 bits: the sum modulo 2^64. -/
def addrWord (a b : Val) (off : Int) : Word := wdInt ((a.pay.toNat : Int) + indexInt b + off)

/-- Access sizes of the memory formats (R39). -/
def mfmtSize : MFmt → Nat
  | .s8 | .z8 => 1
  | .s16 | .z16 | .f16 | .bf16 => 2
  | .s32 | .z32 | .f32 => 4
  | _ => 8

/-- The value that the bytes x of a format give (R224). -/
def mfmtVal (f : MFmt) (x : Nat) : Val :=
  match f with
  | .s8 => intVal (sextN x 8)
  | .z8 => natVal (x % 2 ^ 8)
  | .s16 => intVal (sextN x 16)
  | .z16 => natVal (x % 2 ^ 16)
  | .s32 => intVal (sextN x 32)
  | .z32 => natVal (x % 2 ^ 32)
  | .i64 => natVal x
  | .ptr => ptrVal (wd x)
  | .f16 => ⟨.f16, wd (x % 2 ^ 16)⟩
  | .bf16 => ⟨.bf16, wd (x % 2 ^ 16)⟩
  | .f32 => ⟨.f32, wd (x % 2 ^ 32)⟩
  | .f64 => ⟨.f64, wd x⟩
  | .pk8 => ⟨.pk8, wd x⟩
  | .pk16 => ⟨.pk16, wd x⟩
  | .pk4 => ⟨.pk4, wd x⟩

/-- The tag a store of a format leaves on its word (R72). -/
def strTag : MFmt → Tag
  | .ptr => .ptr
  | .f64 => .f64
  | .pk8 => .pk8
  | .pk16 => .pk16
  | .pk4 => .pk4
  | _ => .int

/-! ## LDST (R66, R99, R140) -/

/-- Whether a value of LDST names a legal destination for a warp (R66, R99). -/
def ldstLegal (x : Warp) (v : Word) : Bool :=
  let dreg := fld v 0 8
  match fld v 20 2 with
  | 0 =>
    (match regOf dreg with
     | some (.lane n) => decide (n.toNat < x.nregs)
     | some _ => true
     | none => false)
  | 1 => decide (dreg < 12)
  | 2 => true
  | _ => false

end Sys2Proof.Machine
end

