-- ==== Sys2Proof/Machine/Flags.lean ====
section
/-! DEFINITION. Conditions: zero and nonzero values (R162), the conditions of branches (R41), comparisons (R112). The
machine has no flag register; conditions are values, mask bits and STATUS. -/

namespace Sys2Proof.Machine

open Sys2Proof

/-- A value is zero when its tag is NIL or its payload is all zero bits (R162). -/
def isZero (v : Val) : Bool := decide (v.tag = .nil) || decide (v.pay = 0)

/-- The register a branch condition reads, if any. -/
def condReg : Cond → Option Reg
  | .nz r | .z r | .uniform r => some r
  | _ => none

/-- Whether a condition holds in a lane (R162). -/
def condHolds (x : Warp) (c : Cond) (l : Nat) : Bool :=
  match c with
  | .always => true
  | .nz r => !isZero (readReg x r l)
  | .z r => isZero (readReg x r l)
  | .ms m => maskBit x m.val l
  | .mc m => !maskBit x m.val l
  | .uniform r => !isZero (readReg x r l)

/-- The lanes that consume POISON in a condition (R79). -/
def condFaults (x : Warp) (ix : Ix) (c : Cond) : List LFault :=
  match condReg c with
  | none => []
  | some r => ix.exe.filterMap (fun l =>
      let v := readReg x r l
      if v.tag = .poison then some ⟨l, .poison, fld v.pay 0 16, ptrVal ix.pc⟩ else none)

/-- The executing lanes in which a condition holds; a lane with a POISON condition only traps. -/
def takenLanes (x : Warp) (ix : Ix) (c : Cond) : List Nat :=
  ix.exe.filter (fun l => condHolds x c l && !(condFaults x ix c).any (fun f => decide (f.lane = l)))

/-- Whether an instruction is a control transfer that some lane takes, which ends its run (R25). -/
def takesTransfer (i : Instr) (x : Warp) (ix : Ix) : Bool :=
  match i with
  | .bra _ o | .call _ o | .lcall _ o => !(takenLanes x ix o.cond).isEmpty
  | .ret _ c | .exit _ c => !(takenLanes x ix c).isEmpty
  | .jmpi .. | .lret .. | .tret .. => !ix.exe.isEmpty
  | _ => false

/-- A condition on two exact values (R112). -/
def ccNum (cc : Cc) (x y : Num) : Bool :=
  match cc with
  | .unord => x.isNan || y.isNan
  | .tageq => true
  | .ne => decide (cmpNum x y ≠ some .eq)
  | .eq => decide (cmpNum x y = some .eq)
  | .lt => decide (cmpNum x y = some .lt)
  | .gt => decide (cmpNum x y = some .gt)
  | .le => decide (cmpNum x y = some .lt) || decide (cmpNum x y = some .eq)
  | .ge => decide (cmpNum x y = some .gt) || decide (cmpNum x y = some .eq)

/-- Conditions 0-5 on signed integers (R326). -/
def ccInt (cc : Cc) (x y : Int) : Bool :=
  match cc with
  | .eq => decide (x = y)
  | .ne => decide (x ≠ y)
  | .lt => decide (x < y)
  | .le => decide (x ≤ y)
  | .gt => decide (y < x)
  | .ge => decide (y ≤ x)
  | _ => false

end Sys2Proof.Machine
end

