-- ==== Sys2Proof/Machine/Code.lean ====
section
/-! DEFINITION. Instruction fetch through the instruction buffer (R21, R47, R190). -/

namespace Sys2Proof.Machine

open Sys2Proof

/-- What a fetch at an address comes to. -/
inductive FetchRes
  | ok (i : Instr) (rx : Bool)
  | fault (c : Cause) (at_ : Word)
  | miss (vpn : Nat)
  | fill (line : Nat)
  | refused (pa : Nat) (at_ : Word)
deriving DecidableEq, Repr

/-- The word of a line that the buffer holds for a version. -/
def ibufWord (c : Core) (line version k : Nat) : Option Word :=
  match c.ibuf.find? (fun e => decide (e.line = line ∧ e.version = version)) with
  | some e => (e.words[k % 32]?).getD none
  | none => none

/-- One word at a code address: R47's faults, a walk, a missing line, an address whose home does not serve the fetch, or the word and
whether its page has RX. -/
inductive WordRes
  | ok (w : Word) (rx : Bool)
  | fault (c : Cause)
  | miss (vpn : Nat)
  | fill (line : Nat)
  | refused (pa : Nat)
deriving DecidableEq, Repr

/-- Fetch the aligned word at va for warp w. Payload bytes alone are read (R21). -/
def fetchWord (s : State) (w va : Nat) : WordRes :=
  if va % 8 ≠ 0 then .fault .align
  else if 2 ^ 48 ≤ va then .fault .xlat
  else match translate s w va .x with
    | .miss v => .miss v
    | .fault c => .fault c
    | .ok pa l =>
      let x := warpOf s w
      match ibufWord (coreOf s x.core) (pa / 256) (teamOf s x.team).version (pa / 8) with
      | some d => .ok d l.rx
      | none =>
        if !served s (warpPart s w) (pa / 8) l.t then .refused pa
        else if (homePeek s (pa / 8)).bad then .fault .mchk
        else .fill (pa / 256)

/-- Fetch and decode the instruction at pc (R42, R45, R47). A word that no instruction has raises ILL. -/
def fetchInstr (s : State) (w : Nat) (pc : Word) : FetchRes :=
  match fetchWord s w pc.toNat with
  | .fault c => .fault c pc
  | .miss v => .miss v
  | .fill l => .fill l
  | .refused pa => .refused pa pc
  | .ok d rx =>
    match decodeWords d 0 with
    | .error _ => .fault .ill pc
    | .ok i =>
      if hasLiteral d then
        match fetchWord s w (pc.toNat + 8) with
        | .fault c => .fault c (pc + 8)
        | .miss v => .miss v
        | .fill l => .fill l
        | .refused pa => .refused pa (pc + 8)
        | .ok lit _ =>
          match decodeWords d lit with
          | .error _ => .fault .ill pc
          | .ok j => .ok j rx
      else .ok i rx

end Sys2Proof.Machine
end

