-- ==== Sys2Proof/Machine/Issue.lean ====
section
/-! DEFINITION. How a warp issues one instruction (R23-R27, R30, R97, R144-R148, R150): what every instruction shares
around its own effect. -/

namespace Sys2Proof.Machine

open Sys2Proof

/-- The lanes that the MASK field leaves (R23). -/
def exeLanes (x : Warp) (h : Hdr) (grp : List Nat) : List Nat :=
  match h.mask with
  | none => grp
  | some m => grp.filter (fun l => maskBit x m.val l)

/-- Bytes of an instruction (R21, R42). -/
def instrBytes : Instr → Nat
  | .movl .. => 16
  | _ => 8

/-- Whether a warp may issue at all (R146): resident, neither halted nor stopped, waiting for nothing. -/
def canIssue (x : Warp) : Bool :=
  x.live && !x.halted && !x.stopped && decide (x.wait = .none) && decide (x.pendTrap = none)

/-- The scoreboard number of the execution mask, which every instruction under a mask reads (R23, R27). -/
def maskKeys (h : Hdr) : List Nat :=
  match h.mask with
  | some m => [256 + m.val]
  | none => []

/-- Whether the instruction waits on a pending register or mask, as a source or a destination (R150). -/
def pendingOn (x : Warp) (h : Hdr) (u : Uses) : Bool :=
  (maskKeys h ++ readKeys u ++ writeKeys u).any (fun k => decide (spGet 0 x.pend k ≠ 0))

/-- R26, R27: a fixed-latency source whose slot sum falls short, judged in each slot that the instruction reads by the instruction that
wrote it; the execution mask counts as a source in every lane at the address. A result of an instruction outside lane handlers counts
the slots outside them alone. DEDUCED (log entry 29): an instruction whose MASK leaves no lane is judged as if the lanes at its address read,
so that the check depends on the instructions alone. -/
def tooEarly (x : Warp) (i : Instr) (h : Hdr) (ix : Ix) : Bool :=
  (readSlots x i (if ix.exe = [] then ix.grp else ix.exe) ++ ((maskKeys h).map (fun k => ix.grp.map (slotKey k))).flatten).any
    (fun k => decide (x.slots < spGet 0 x.readyAt k) || decide (x.outer < spGet 0 x.readyOut k))

/-- The executing lanes that read a register slot with an uncorrectable error, their own or another lane's (R219). -/
def badSource (x : Warp) (i : Instr) (exe : List Nat) : List Nat :=
  (readers i exe).filter (fun l => (usesOf i).s.any (fun r =>
    match r with
    | .lane n => (slotLanes x i l r).any (fun j => spGet false x.regBad (laneBadKey n.toNat j))
    | .uni n => spGet false x.regBad (uniBadKey n.toNat)
    | .nil => false))

/-- An instruction of a lane handler (R26): every lane at its address is in a lane call. -/
def inHandler (x : Warp) (grp : List Nat) : Bool := grp.all (fun l => decide (1 ≤ (laneOf x l).lcd))

/-- Mark the results of an instruction that occupies its slots (R26), in the lanes that it writes: a fixed latency is met when the slots
reach the mark; a variable one is covered by the pending counts alone. Slots of lanes that a MASK leaves out keep the mark of the
instruction that wrote them. DEDUCED (log entry 117): an instruction of a lane handler counts towards the sums of lane handlers only. -/
def markResults (x : Warp) (i : Instr) (h : Hdr) (grp exe : List Nat) : Warp :=
  let inside := inHandler x grp
  let n := (latency i).getD 0
  let x := (writeSlots x i exe).foldl (fun x k =>
    { x with readyAt := spSet 0 x.readyAt k (if inside && decide (n ≠ 0) then x.slots + n else 0),
             readyOut := spSet 0 x.readyOut k (if !inside && decide (n ≠ 0) then x.outer + n else 0) }) x
  { x with slots := x.slots + 1 + h.stall.toNat, outer := if inside then x.outer else x.outer + 1 + h.stall.toNat }

/-- The dispatch key of a lane: 16 * tagA + tagB, one register standing with tag 0 (R92). -/
def passKey (x : Warp) (rs : List Reg) (l : Nat) : Nat :=
  match rs with
  | [] => 0
  | [a] => 16 * tagCode (readReg x a l).tag
  | a :: b :: _ => 16 * tagCode (readReg x a l).tag + tagCode (readReg x b l).tag

/-- Beat cycles (R11, R145; log entry 118): one for an instruction that acts once for the warp (R24); else for each beat of eight lanes one per
key of the dispatch among its executing lanes. -/
def beatCycles (x : Warp) (i : Instr) (exe : List Nat) : Nat :=
  if onceForWarp i then 1
  else max 1 (((List.range ((x.width + 7) / 8)).map (fun b =>
    (((exe.filter (fun l => decide (l / 8 = b))).map (passKey x (keyRegs i))).eraseDups).length)).sum)

/-- The run in progress for a warp, or a new one of it. -/
def runFor (s : State) (w : Nat) : Run :=
  let x := warpOf s w
  let r := spGet Run.none (coreOf s x.core).runs x.slot
  if r.active ∧ r.warp = w then r
  else { active := true, warp := w, count := 0, multi := decide (1 < (groupPcs x).length),
         low := decide (issuePc x = (minLpc x (candLanes x)).map wd), next := (issuePc x).getD 0, fcnt := x.fcnt, fptr := x.fptr }

def setRun (s : State) (c p : Nat) (r : Run) : State :=
  updCore s c (fun x => { x with runs := spSet Run.none x.runs p r })

/-- A run ends (R147): the warp's FCNT is updated (R148), or stands with FPTR as before the run when nothing was issued (DEDUCED, log entry 119), and its
reservations no longer hold pre-emption off: a warp of a team that is being stopped stops (R157, R330). -/
def closeRun (s : State) (w : Nat) (r : Run) : State :=
  let x := warpOf s w
  let x := { x with fcnt := if r.count = 0 then r.fcnt else if r.multi && r.low then x.fcnt + 1 else 0,
                    fptr := if r.count = 0 then r.fptr else x.fptr, sel := none, lrRun := [] }
  let s := setWarp s w (if (teamOf s x.team).stopping then stopWarp x else x)
  tableBoundary (setRun s x.core x.slot Run.none) x.core

/-- The run of a warp ends. -/
def endRun (s : State) (w : Nat) : State := closeRun s w (runFor s w)

/-- A run in which one more instruction has issued. -/
def Run.more (r : Run) : Run := { r with count := r.count + 1 }

/-- An instruction issues and traps (R147, R157): the run ends with it, and the trap is taken. -/
def trapRun (s : State) (ix : Ix) (fs : List LFault) (info : Nat) (past : List Nat) : State :=
  takeTrap (closeRun s ix.w (runFor s ix.w).more) ix fs info past

/-- Whether the instruction that the run would issue next waits on a pending register (R147). -/
def nextWaits (s : State) (w : Nat) (next : Word) : Bool :=
  match fetchInstr s w next with
  | .ok i _ => pendingOn (warpOf s w) (hdrOf i) (usesOf i)
  | _ => false

/-- After an instruction has taken effect: the run goes on, or ends (R25, R147); ends says that the instruction itself ends it, by
B or as a transfer that is taken. -/
def afterIssue (s : State) (w : Nat) (r : Run) (ends : Bool) (next : Word) : State :=
  let x := warpOf s w
  let s := setWarp s w { x with walkFault := [] }
  if ends ∨ 24 ≤ r.more.count ∨ !(canIssue x || decide (x.wait = .lanes)) ∨ issuePc x ≠ some next ∨ nextWaits s w next then
    closeRun s w r.more
  else setRun s x.core x.slot r.more

/-! ## Variable-latency results that are not a memory request's (R26, R150) -/

/-- The register and mask numbers that such an instruction leaves pending. -/
def lateKeys (i : Instr) : List Nat := if sendsLate i then writeKeys (usesOf i) else []

/-- The lanes of an SATOM that are performed after its first one (R233, R296). -/
def lateTodo (i : Instr) (ix : Ix) : List Nat :=
  match i with
  | .satom _ op _ _ o => (actLanes ix (.reg o.d) (if op = .cas then [o.a, o.b, o.c] else [o.a, o.b])).tail
  | _ => []

/-- The warp with the destinations of such an instruction marked pending. -/
def markLate (i : Instr) (x : Warp) : Warp := (lateKeys i).foldl addPend x

/-- The core that owes the arrival of such a result. -/
def lateCore (i : Instr) (ix : Ix) (c : Core) : Core :=
  if lateKeys i = [] ∧ lateTodo i ix = [] then c
  else { c with late := spSet none c.late c.nextReq (some ⟨ix.w, lateKeys i, i, lateTodo i ix⟩), nextReq := c.nextReq + 1 }

/-- The destinations of a variable-latency result are marked pending until RESULT_ARRIVAL (R150). The value stands behind the
mark, which no instruction reads past (log entry 17). -/
def sendLate (i : Instr) (ix : Ix) (s : State) : State :=
  updCore (updWarp s ix.w (markLate i)) (warpOf s ix.w).core (lateCore i ix)

/-- The lanes of an instruction that waits stay where they are, and its marks are undone. -/
def putBack (s : State) (w : Nat) (x0 : Warp) (grp : List Nat) (pc : Word) (k : Wait) : State :=
  updWarp s w (fun x =>
    { setLpc x grp pc with slots := x0.slots, outer := x0.outer, readyAt := x0.readyAt, readyOut := x0.readyOut, wait := k })

/-- What executes when warp w issues the instruction i at pc (R23, R144). -/
def issueIx (i : Instr) (h : Hdr) (x : Warp) (w : Nat) (pc : Word) : Ix :=
  { w := w, pc := pc, next := pc + wd (instrBytes i), grp := lanesAt x pc, exe := exeLanes x h (lanesAt x pc) }

/-- The state in which an instruction takes effect: the lanes at its address have advanced, its results are marked and its
beats are counted (R23, R26, R145). -/
def begun (i : Instr) (h : Hdr) (s : State) (ix : Ix) : State :=
  let x := warpOf s ix.w
  let s := setWarp s ix.w (markResults (setLpc x ix.grp ix.next) i h ix.grp ix.exe)
  let s := updCore s x.core (fun c => { c with cyc := c.cyc + beatCycles x i ix.exe + h.stall.toNat })
  updWarp s ix.w (fun y => { y with lastIssue := (coreOf s x.core).cyc, reported := false })

/-- The causes that an instruction has beside its own: a register with an uncorrectable error (R219), and under CHK a source
read too early (R27); when no lane executes, every lane at the address has the latter. -/
def sideFaults (x : Warp) (i : Instr) (h : Hdr) (ix : Ix) : List LFault :=
  (badSource x i ix.exe).map (fun l => faultAt ix l .mchk) ++
    (if chk x && tooEarly x i h ix then (if ix.exe = [] then ix.grp else ix.exe).map (fun l => faultAt ix l .stall)
     else [])

/-- Whether the registers an instruction names exist in the warp, and SHFLX's distance is below its width (R30, R45, R172). -/
def regsInRange (x : Warp) (i : Instr) : Bool :=
  (laneNums (usesOf i)).all (fun n => decide (n < x.nregs)) &&
    (match i with
     | .shflx _ _ _ k => decide (k.toNat < x.width)
     | _ => true)

/-- A trap that also clears what it reports (Res.recorded). -/
def takeRecorded (s : State) (ix : Ix) (f : LFault) (granules tiles : List Nat) (extra : List LFault) : State :=
  let s := if extra = [] then
      updTeam s (warpOf s ix.w).team (fun t =>
        { t with frec := granules.foldl (fun m g => spSet none m g none) t.frec
                 accBad := tiles.foldl (fun m g => spSet false m g false) t.accBad })
    else s
  trapRun s ix (f :: extra) 0 []

/-- The MCHK of a register's error that is due at the warp's next issue, whatever instruction stands there (R156, R219). -/
def takeDue (s : State) (ix : Ix) : State :=
  trapRun (updWarp s ix.w (fun x => { x with mchkNext := false })) ix (ix.grp.map (fun l => faultAt ix l .mchk)) 0 []

/-- Waits for a translation, whose fault may outrank the causes that are known (R156, R222). DEDUCED (log entry 126): such a wait comes
before a STALL. -/
def walkWait : Wait → Bool
  | .walk _ | .pri .. => true
  | _ => false

/-- THE ISSUE OF ONE INSTRUCTION by the warp s.cur; body is the instruction's own effect. DESIGN CHOICE (log entry 98): ILL of
an illegal word, or of one that names a register the warp does not have, is reported in every lane at its address, those that
the word's MASK leaves out included, since such a word has no lawful MASK. -/
def issueInstr (i : Instr) (h : Hdr) (s : State) (body : Ix → State → Res) : State :=
  let w := s.cur
  let x := warpOf s w
  match issuePc x with
  | none => s
  | some pc =>
    let ix := issueIx i h x w pc
    if !canIssue x then s
    else if x.mchkNext then takeDue s ix
    else if !legal i || !regsInRange x i then trapRun s ix (ix.grp.map (fun l => faultAt ix l .ill)) 0 []
    else if pendingOn x h (usesOf i) then endRun s w
    else
      let extra := sideFaults x i h ix
      match (if ix.exe = [] then .ok (begun i h s ix) else body ix (begun i h s ix)) with
      | .wait k t => if extra ≠ [] ∧ !walkWait k then trapRun s ix extra 0 [] else endRun (putBack t w x ix.grp pc k) w
      | .trap fs info past => trapRun s ix (fs ++ extra) info past
      | .trapIn t fs => trapRun { s with parts := t.parts } ix (fs ++ extra) 0 []
      | .recorded f gs ts => takeRecorded s ix f gs ts extra
      | .ok t =>
        if extra ≠ [] then trapRun s ix extra 0 []
        else afterIssue (if ix.exe = [] then t else sendLate i ix t) w (runFor s w) (h.b || takesTransfer i x ix) ix.next

/-- The outcome of an instruction: a next state. -/
def issued (i : Instr) (h : Hdr) (s : State) (body : Ix → State → Res) : Host.Outcome State Fault Refusal :=
  .next (issueInstr i h s body)

end Sys2Proof.Machine
end

