-- ==== Sys2Proof/Machine/Fetch.lean ====
section
/-! DEFINITION. The filling of the instruction buffer (R190), and the choice of the next run of an issue partition (R146,
R148). -/

namespace Sys2Proof.Machine

open Sys2Proof

/-- Room for a line in the buffer of 256 (R190): a free choice names the line that leaves. -/
def ibufRoom (s : State) (c : Nat) : State :=
  let b := (coreOf s c).ibuf
  if b.length < 256 then s
  else
    let (n, s) := takeFree s
    updCore s c (fun x => { x with ibuf := x.ibuf.eraseIdx (n % 256) })

/-- INSTRUCTION_FILL: a missing line is filled from the L2 for each version that waits for it, and the warps that wait
become ready (R190). -/
def fillLine (s : State) (c line : Nat) : State :=
  let ws := spFind s.warps (fun _ x => decide (x.core = c ∧ x.wait = .fill line))
  ws.foldl (fun s w =>
    let ver := (teamOf s (warpOf s w).team).version
    let s := codeNote s (line / 16) 1 (warpPart s w) ver
    let s := if (coreOf s c).ibuf.any (fun e => decide (e.line = line ∧ e.version = ver) && e.words.all Option.isSome) then s
      else
        let s := updCore s c (fun x => { x with ibuf := x.ibuf.filter (fun e => decide (e.line ≠ line ∨ e.version ≠ ver)) })
        let s := ibufRoom s c
        let r := (lineWords line).foldl (fun (a : State × List (Option Word)) k =>
          let (s, v) := homeRead a.1 k
          (s, a.2 ++ [if v.bad then none else some v.data])) (s, [])
        updCore r.1 c (fun x => { x with ibuf := ⟨line, ver, r.2⟩ :: x.ibuf })
    updWarp s w (fun x => { x with wait := .none })) s

/-! ## Runs (R146-R148) -/

/-- Whether the fairness rule hands the next run over (R148). DEDUCED (log entry 99): an FCNT beyond F, which a SETS of a smaller F
leaves, hands over as well, as R149's bound needs. -/
def handsOver (x : Warp) : Bool := decide (statusF x ≤ x.fcnt) && decide (1 < (groupPcs x).length)

/-- The LPC of the group the fairness rule chooses: the lowest above FPTR other than the lowest group, else the
second-lowest (R148). -/
def fairPc (x : Warp) : Option Nat :=
  let pcs := groupPcs x
  match (pcs.foldl (fun (m : Option Nat) a => match m with
    | none => some a
    | some b => some (min a b)) none) with
  | none => none
  | some lo =>
    let rest := pcs.filter (fun a => decide (a ≠ lo))
    let least := fun (l : List Nat) => l.foldl (fun (m : Option Nat) a => match m with
      | none => some a
      | some b => some (min a b)) none
    match least (rest.filter (fun a => decide (x.fptr.toNat < a))) with
    | some a => some a
    | none => least rest

/-- The warp as its next run would begin: with the fairness rule's group selected when it applies. -/
def runStart (x : Warp) : Warp :=
  if handsOver x then
    match fairPc x with
    | some pc => { x with sel := some (laneSet ((candLanes x).filter (fun l => decide ((laneOf x l).lpc.toNat = pc)))),
                          fptr := wd pc, fcnt := 0 }
    | none => x
  else { x with sel := none }

/-- Whether a warp is ready (R146): nothing to wait for, and its next instruction waits on no pending register. -/
def warpReady (s : State) (w : Nat) : Bool :=
  let x := warpOf s w
  canIssue x &&
    (match issuePc (runStart x) with
     | none => false
     | some pc =>
       match fetchInstr s w pc with
       | .ok i _ => !pendingOn x (hdrOf i) (usesOf i)
       | _ => true)

/-- The warps of an issue partition. -/
def slotWarps (s : State) (c p : Nat) : List Nat := spFind s.warps (fun _ x => x.live && decide (x.core = c ∧ x.slot = p))

/-- The warp the partition chooses: the highest priority present, then the oldest (R146). -/
def chooseWarp (s : State) (ws : List Nat) : Option Nat :=
  ws.foldl (fun b w =>
    match b with
    | none => some w
    | some v =>
      let x := warpOf s w
      let y := warpOf s v
      if y.prio < x.prio ∨ (y.prio = x.prio ∧ x.age < y.age) then some w else some v) none

/-- Wake the yielding warps of a partition other than w (R183). -/
def wakeYield (s : State) (c p : Nat) (w : Option Nat) : State :=
  { s with warps := spMap Warp.none (fun k x =>
      if x.core = c ∧ x.slot = p ∧ x.wait = .yield ∧ some k ≠ w then { x with wait := .none } else x) s.warps }

/-- The warps of a service core whose wait for their region table writes is over look again (R215). -/
def wakeTable (s : State) (c : Nat) : State :=
  if isService c then (spFind s.warps (fun _ x => decide (x.core = c ∧ x.wait = .drain))).foldl wakeDrained s else s

/-- RUN_SELECT: at the end of a run the partition chooses the next ready warp and its group (R146, R148). -/
def selectRun (s : State) (c p : Nat) : State :=
  if (spGet Run.none (coreOf s c).runs p).active then s
  else match chooseWarp s ((slotWarps s c p).filter (warpReady s)) with
    | none => wakeYield s c p none
    | some w =>
      let x := warpOf s w
      let hand := handsOver x
      let multi := decide (1 < (groupPcs x).length)
      let y := runStart x
      let s := setWarp s w y
      let s := setRun s c p { active := true, warp := w, count := 0, multi := multi, low := !hand,
                              next := (issuePc y).getD 0, fcnt := x.fcnt, fptr := x.fptr }
      wakeYield s c p (some w)

/-- The lanes that would issue at an address. -/
def fetchIx (x : Warp) (w : Nat) (pc : Word) : Ix :=
  { w := w, pc := pc, next := pc, grp := lanesAt x pc, exe := lanesAt x pc }

/-- The fault of a fetch is the lanes' at the address (R47). -/
def fetchFault (s : State) (w : Nat) (pc at_ : Word) (c : Cause) : State :=
  let ix := fetchIx (warpOf s w) w pc
  trapRun s ix (ix.grp.map (fun l => ⟨l, c, 0, ptrVal at_⟩)) 0 []

/-- What an issue partition does with its turn: the instruction to execute, or the state without one. -/
inductive TurnRes
  | run (i : Instr) (s : State)
  | done (s : State)

/-- The turn of issue partition p of core c: a run is chosen when none is in progress, after a service core's waits have been looked
at; else its warp fetches (R146, R190,
R222), idles while the lanes of its SATOM are performed, or takes the MCHK that is due, which outranks whatever the fetch meets
(R156). -/
def takeTurn (s : State) (c p : Nat) : TurnRes :=
  let r := spGet Run.none (coreOf s c).runs p
  if !r.active then .done (selectRun (wakeTable s c) c p)
  else
    let w := r.warp
    let x := warpOf s w
    match issuePc x with
    | none => .done (endRun s w)
    | some pc =>
      if x.live && decide (x.wait = .lanes) then .done s
      else if !canIssue x then .done (endRun s w)
      else if x.mchkNext then .done (takeDue s (fetchIx x w pc))
      else match fetchInstr s w pc with
        | .ok i rx => .run i { (updWarp s w (fun x => { x with rx := rx })) with cur := w }
        | .fault cause at_ => .done (fetchFault s w pc at_ cause)
        | .refused pa at_ => .done (fetchFault (tellRefused s (warpPart s w) pa) w pc at_ .prot)
        | .miss v => .done (endRun (updWarp s w (fun x => { x with wait := .fetchWalk v })) w)
        | .fill l => .done (endRun (updWarp s w (fun x => { x with wait := .fill l })) w)

end Sys2Proof.Machine
end

