-- ==== Sys2Proof/Machine/Mmio.lean ====
section
/-! DEFINITION. The device registers that loads and stores reach (R3): work-queue blocks (R311, R312) and partition control
pages (R341, R215). Their writes here are the one effect that every writer shares. -/

namespace Sys2Proof.Machine

open Sys2Proof

/-! ## Work queues (R311, R312) -/

/-- Whether a chip accepts partition records and queue traffic: the module's own chip once READY is 1; the other chips have booted
(R380; log entry 87). -/
def accepts (s : State) (chip : Nat) : Bool := s.boot.ready || decide (chip ≠ 0)

/-- The register at an offset of a queue's block. -/
def queueRead (s : State) (q off : Nat) : Word :=
  let x := queueOf s q
  match off / 8 with
  | 0 => x.rbase
  | 1 => wd (x.rlog * 2 ^ 16 + x.pmax * 2 ^ 8 + (if x.en then 1 else 0))
  | 2 => wd x.tail.toNat
  | 3 => wd x.head.toNat
  | 4 => x.cbase
  | 5 => wd (x.clog * 2 ^ 16 + x.vec)
  | 6 => wd (x.chead.toNat * 2 ^ 32 + x.ctail.toNat)
  | 7 => wd x.err.toNat
  | _ => 0

/-- Set an ERR bit of a queue. -/
def queueErr (x : Queue) (bit : Nat) : Queue := { x with err := x.err ||| BitVec.ofNat 4 (2 ^ bit) }

/-- A write of TAIL: a doorbell; a TAIL too far ahead of HEAD sets ERR bit 0 and is ignored until corrected (R312). -/
def tailWrite (s : State) (q : Nat) (v : BitVec 32) : State :=
  updQueue s q (fun x =>
    let x := { x with tail := v }
    if 2 ^ x.rlog < (v - x.head).toNat then queueErr x 0 else x)

/-- A write of CHEAD: a value ahead of CTAIL or too far behind sets ERR bit 3 and is ignored (R312). -/
def cheadWrite (s : State) (q : Nat) (v : BitVec 32) : State :=
  updQueue s q (fun x =>
    if 2 ^ x.clog < (x.ctail - v).toNat then queueErr x 3
    else
      let x := { x with chead := v }
      if 2 ^ x.clog ≤ (x.ctail - v).toNat ∧ x.held ≠ [] then queueErr x 1 else x)

/-- A write of RLOG, PMAX and EN; EN starts a stopped queue again (R312, R387). -/
def enableWrite (s : State) (q : Nat) (v : Word) : State :=
  updQueue s q (fun x =>
    let en := bitAt v 0
    { x with rlog := fld v 16 4, pmax := fld v 8 2, en := en, stopped := if en then false else x.stopped,
             holdCompl := if en then false else x.holdCompl })

/-- A write of a queue register under its access type (R311). -/
def queueWrite (s : State) (q off : Nat) (v : Word) : State :=
  match off / 8 with
  | 0 => updQueue s q (fun x => { x with rbase := wd (v.toNat / 128 * 128) })
  | 1 => enableWrite s q v
  | 2 => tailWrite s q (BitVec.ofNat 32 (fld v 0 32))
  | 4 => updQueue s q (fun x => { x with cbase := wd (v.toNat / 32 * 32) })
  | 5 => updQueue s q (fun x => { x with clog := fld v 16 4, vec := fld v 0 16 })
  | 6 => cheadWrite s q (BitVec.ofNat 32 (fld v 32 32))
  | 7 => updQueue s q (fun x => { x with err := x.err &&& ~~~ BitVec.ofNat 4 (fld v 0 4) })
  | _ => s

/-! ## Control pages (R341, R215) -/

/-- A write of PTROOT: in force for teams placed after it. -/
def ptrootSet (s : State) (p : Nat) (v : Word) : State := updPart s p (fun x => { x with ptroot := wd (fld v 12 40 * 4096) })

/-- Whether a translation entry lies in the range that TBVA and TBPAGES held at the TBGO. -/
def tbMatches (x : Part) (p : Nat) (e : TlbEnt) : Bool :=
  decide (e.part = p) &&
    (decide (x.tbCount = 0) || (decide (x.tbFirst ≤ e.vpn) && decide (e.vpn < x.tbFirst + x.tbCount)))

/-- A write of TBGO: the range is taken, and TBBUSY stands until the event TBGO; it is ignored while TBBUSY = 1. -/
def tbStart (x : Part) : Part :=
  if x.tbbusy then x else { x with tbbusy := true, tbFirst := x.tbva.toNat / 4096, tbCount := x.tbpages.toNat }

/-- TBGO's work: every core of the partition drops the entries, and every team uses the root now in force; the service core's kernel has
mappings of its own (R341). -/
def tbDrop (s : State) (p : Nat) : State :=
  let x := partOf s p
  let s := (coresOf s p).foldl (fun s c => updCore s c (fun k => { k with tlb := k.tlb.filter (fun e => !tbMatches x p e) })) s
  { s with teams := spMap Team.none (fun _ t =>
      if t.live && decide (t.part = p) && !isService t.core then { t with root := x.ptroot.toNat } else t) s.teams }

/-- Whether an access of the partition's cores is still to be performed (R341): an atomic of one of them in a queue or before it, or
an append. -/
def partBusy (s : State) (p : Nat) : Bool :=
  s.asws.any (fun e => (e.2.queue ++ e.2.waiting).any (fun r => (coresOf s p).contains r.core)) ||
  s.appends.any (fun a => decide (a.part = p))

/-- A write of a region table entry: in force on every core of the partition at its next run boundary, so at once on a core in no
run (R215). DEDUCED (log entry 120). -/
def regionSet (s : State) (p : Nat) (v : Word) : State :=
  let v := wd (fld v 63 1 * 2 ^ 63 + fld v 0 27)
  let i := (partOf s p).rgnidx
  let s := updPart s p (fun x => { x with rgnt := spSet 0 x.rgnt i v })
  (coresOf s p).foldl (fun s c => updCore s c (fun k =>
    if k.runs.any (fun r => r.2.active) then { k with rgnDue := k.rgnDue ++ [(i, v)] } else regionPut k (i, v))) s

/-- A control page register (R341). -/
def controlRead (s : State) (p off : Nat) : Word :=
  let x := partOf s p
  match off / 8 with
  | 0 => x.ptroot
  | 1 => x.tbva
  | 2 => x.tbpages
  | 4 => if x.tbbusy then 1 else 0
  | 5 => wd x.rgnidx
  | 6 => spGet 0 x.rgnt x.rgnidx
  | _ => 0

/-- A write of a control page register; TBGO sets TBBUSY, and its work is done by the event TBGO. -/
def controlWrite (s : State) (p off : Nat) (v : Word) : State :=
  match off / 8 with
  | 0 => ptrootSet s p v
  | 1 => updPart s p (fun x => { x with tbva := wd (fld v 12 36 * 4096) })
  | 2 => updPart s p (fun x => { x with tbpages := wd (fld v 0 36) })
  | 3 => if bitAt v 0 then updPart s p tbStart else s
  | 5 => updPart s p (fun x => { x with rgnidx := fld v 0 8 })
  | 6 => regionSet s p v
  | _ => s

/-! ## The root monitor's window of a service core's own mappings (R341) -/

/-- The service core of a partition. -/
def svcCore (p : Nat) : Nat := p / 16 * 512 + 320 + p % 16

def updOwn (s : State) (p : Nat) (f : CtlPage → CtlPage) : State := updPart s p (fun x => { x with own := f x.own })

/-- A write of a region table entry of the service core alone: in force at its next run boundary (R215). -/
def ownRegionSet (s : State) (p : Nat) (v : Word) : State :=
  let v := wd (fld v 63 1 * 2 ^ 63 + fld v 0 27)
  let i := (partOf s p).own.rgnidx
  updCore (updOwn s p (fun x => { x with rgnt := spSet 0 x.rgnt i v })) (svcCore p) (fun k =>
    if k.runs.any (fun r => r.2.active) then { k with rgnDue := k.rgnDue ++ [(i, v)] } else regionPut k (i, v))

/-- A write of a register of that window, as of a control page. -/
def ownWrite (s : State) (p off : Nat) (v : Word) : State :=
  match off / 8 with
  | 0 => updOwn s p (fun x => { x with ptroot := wd (fld v 12 40 * 4096) })
  | 1 => updOwn s p (fun x => { x with tbva := wd (fld v 12 36 * 4096) })
  | 2 => updOwn s p (fun x => { x with tbpages := wd (fld v 0 36) })
  | 3 => if bitAt v 0 then updOwn s p (fun x =>
      if x.tbbusy then x else { x with tbbusy := true, tbFirst := x.tbva.toNat / 4096, tbCount := x.tbpages.toNat }) else s
  | 5 => updOwn s p (fun x => { x with rgnidx := fld v 0 8 })
  | 6 => ownRegionSet s p v
  | _ => s

/-- Its TBGO's work: the service core drops the entries of its own mappings in the range, and its kernel uses the root now in force. -/
def ownDrop (s : State) (p : Nat) : State :=
  let x := (partOf s p).own
  let s := updCore s (svcCore p) (fun k => { k with tlb := k.tlb.filter (fun e =>
    !(decide (e.part = p) && (decide (x.tbCount = 0) || (decide (x.tbFirst ≤ e.vpn) && decide (e.vpn < x.tbFirst + x.tbCount))))) })
  { s with teams := spMap Team.none (fun _ t => if t.live && decide (t.core = svcCore p) then { t with root := x.ptroot.toNat } else t)
                      s.teams }

/-- Whether an access of the service core is still to be performed. -/
def ownBusy (s : State) (p : Nat) : Bool :=
  s.asws.any (fun e => e.2.all.any (fun r => decide (r.core = svcCore p))) ||
  s.appends.any (fun a => decide ((warpOf s a.warp).core = svcCore p))

/-! ## By address (R3) -/

/-- Whether an address lies in a device window. -/
def isMmio (s : State) (pa : Nat) : Bool :=
  match regionOf s pa with
  | .queues | .control => true
  | _ => false

/-- The same of a core's own chip: another chip's windows lie behind that chip's own checks (R340, R366). -/
def ownMmio (s : State) (core pa : Nat) : Bool := isMmio s pa && decide (paChip pa = coreChip core)

/-- The queue or control page that an address names, with the offset in it. -/
def mmioQueue (pa : Nat) : Nat × Nat :=
  let a := paLocal pa - 0x3000_0000_0000
  (paChip pa * 131072 + a / 64, a % 64)
def mmioPart (pa : Nat) : Nat × Nat :=
  let a := paLocal pa - 0x3000_0100_0000
  (paChip pa * 16 + a / 4096, a % 4096)

def mmioRead (s : State) (pa : Nat) : Word :=
  match regionOf s pa with
  | .queues => queueRead s (mmioQueue pa).1 (mmioQueue pa).2
  | .control => controlRead s (mmioPart pa).1 (mmioPart pa).2
  | _ => 0

/-- A store to a device register by core c; a write of TAIL is a release at system scope (R312). -/
def mmioWrite (s : State) (c pa : Nat) (v : Word) : State :=
  match regionOf s pa with
  | .queues =>
    let s := if (mmioQueue pa).2 / 8 = 2 then release s c .system else s
    queueWrite s (mmioQueue pa).1 (mmioQueue pa).2 v
  | .control => controlWrite s (mmioPart pa).1 (mmioPart pa).2 v
  | _ => s

end Sys2Proof.Machine
end

