-- ==== Sys2Proof/Machine/Memory.lean ====
section
/-! DEFINITION. Loads and stores through the L1 (R224-R226), the read barrier and header access (R214-R216, R230), fences,
prefetch and cache maintenance (R227-R229). Addresses follow R39, R71, R220 and R222. -/

namespace Sys2Proof.Machine

open Sys2Proof

/-! ## The header partition and the read barrier (R214, R216) -/

/-- Whether a virtual address lies in an evacuating region of a core's table (R215). -/
def evacuating (k : Core) (va : Nat) : Bool :=
  k.rgn.any (fun e => bitAt e.2 63 && decide (fld e.2 0 27 = va / 2 ^ 21 % 2 ^ 27))

/-- Keep the header word at virtual address va, word k of memory; a free choice names the entry of 1,024 that leaves (R214). -/
def keepHeader (s : State) (c va k : Nat) (v : Val) : State :=
  let h := (coreOf s c).hdrp
  let s :=
    if h.length < 1024 then s
    else
      let (n, s) := takeFree s
      updCore s c (fun x => { x with hdrp := x.hdrp.eraseIdx (n % 1024) })
  updCore s c (fun x => { x with hdrp := spSet none x.hdrp (va / 8) (some (v, k)) })

/-- A header word, or why it cannot be read. -/
inductive Hdrd
  | ok (s : State) (v : Val)
  | miss (vpn : Nat)
  | fault (s : State) (c : Cause)
deriving DecidableEq, Repr

/-- The header at a virtual address, through the header partition: a FWD entry is final, any other is reread (R214). -/
def readHeader (s : State) (w va : Nat) : Hdrd :=
  let c := (warpOf s w).core
  match spGet none (coreOf s c).hdrp (va / 8) with
  | some (⟨.fwd, p⟩, _) => .ok s ⟨.fwd, p⟩
  | _ =>
    match translate s w va .r with
    | .miss v => .miss v
    | .fault k => .fault s k
    | .ok pa l =>
      if !served s (warpPart s w) (pa / 8) l.t then .fault (tellRefused s (warpPart s w) pa) .prot
      else
        let (s, r) := homeRead s (pa / 8)
        if r.bad || decide (r.tag = .pend) then .fault s .mchk
        else
          let v : Val := ⟨r.tag, canonPay r.tag r.data⟩
          .ok (keepHeader s c va (pa / 8) v) v

/-- What the barrier makes of a REF. -/
inductive Bar
  | ok (s : State) (v : Val)
  | call (s : State) (hdr : Val)
  | miss (vpn : Nat)
  | fault (s : State) (c : Cause)
deriving DecidableEq, Repr

/-- The read barrier on a REF (R216). -/
def barrier (s : State) (w : Nat) (v : Val) : Bar :=
  if v.tag = .ref ∧ evacuating (coreOf s (warpOf s w).core) v.pay.toNat then
    match readHeader s w v.pay.toNat with
    | .miss n => .miss n
    | .fault s c => .fault s c
    | .ok s h => if h.tag = .fwd then .ok s ⟨.ref, h.pay⟩ else .call s h
  else .ok s v

/-- The class 12 call of a lane (R96): an address operand replays, a returned value goes to the destination. -/
def barrierCall (l : Nat) (ref hdr : Val) (dkind dreg : Nat) (back : Word) : LCall :=
  ⟨l, 12, tagCode .ref, tagCode hdr.tag, ref, hdr, nilVal, dkind, dreg, back⟩

/-- The heal of a slot by core c: at the word's home, old becomes new if the slot still holds it (R216). The core's clean copy of the slot,
which is older, goes (R297). A slot in a code page of a bound version is read-only to the barrier too, and stays (R305). -/
def heal (s : State) (c k : Nat) (old new : Val) : State :=
  let (s, r) := homeRead s k
  if r.tag = old.tag ∧ r.data = old.pay ∧ !r.bad ∧ !codePage s (k * 8) then
    dropHeaderAt (l1DropClean (homeWrite s k new.pay 0xFF (some new.tag) false none) c k) c k
  else s

/-! ## Planning the accesses of an instruction (R222) -/

/-- One lane's access, translated. -/
structure Acc where
  lane : Nat
  va : Nat
  pa : Nat
  leaf : Leaf
deriving DecidableEq, Repr

/-- What a lane's address comes to; skew: a translated address that is not aligned, whose other causes count beside ALIGN (R156). -/
inductive Plan
  | ok (a : Acc)
  | skew (a : Acc)
  | call (k : LCall)
  | miss (vpn : Nat)
  | fault (fs : List LFault)
deriving DecidableEq, Repr

/-- The translation that every needed permission allows. -/
def translateAll (s : State) (w va : Nat) : List Need → Tr
  | [] => translate s w va .r
  | [n] => translate s w va n
  | n :: r =>
    match translate s w va n with
    | .ok _ _ => translateAll s w va r
    | x => x

/-- The causes of address components (R71, R79, R220). -/
def componentFaults (ix : Ix) (l : Nat) (a b : Val) (off : Int) : List LFault :=
  let fault := fun (v : Val) (c : Cause) => (⟨l, c, if c = .poison then fld v.pay 0 16 else 0,
    if c = .xlat then ptrVal (addrWord a b off) else ptrVal ix.pc⟩ : LFault)
  ((addrCause a).map (fault a)).toList ++ ((indexCause b).map (fault b)).toList

/-- Sum, translate and check alignment of components that supply an address. -/
def planSum (s : State) (ix : Ix) (l : Nat) (a b : Val) (off : Int) (al : Nat) (ns : List Need) : Plan :=
  match addrSum a b off with
  | none => .fault [⟨l, .xlat, 0, ptrVal (addrWord a b off)⟩]
  | some va =>
    match translateAll s ix.w va ns with
    | .miss v => .miss v
    | .fault c => .fault [⟨l, c, 0, ptrVal (wd va)⟩]
    | .ok pa leaf =>
      if va % al ≠ 0 then .skew ⟨l, va, pa, leaf⟩ else .ok ⟨l, va, pa, leaf⟩

/-- One lane's address: components, barrier on a REF base, sum, translation, alignment. -/
def planLane (s : State) (ix : Ix) (l : Nat) (a b : Val) (off : Int) (al : Nat) (ns : List Need) (bar : Bool) :
    State × Plan :=
  let fs := componentFaults ix l a b off
  if fs ≠ [] then (s, .fault fs)
  else if bar then
    match barrier s ix.w a with
    | .miss v => (s, .miss v)
    | .fault s c => (s, .fault [⟨l, c, 0, ptrVal a.pay⟩])
    | .call s h => (s, .call (barrierCall l a h 2 255 ix.pc))
    | .ok s a' => (s, planSum s ix l a' b off al ns)
  else (s, planSum s ix l a b off al ns)

/-- The plans of an instruction's lanes, with the calls, walks and faults among them. -/
structure Plans where
  s : State
  accs : List Acc
  skews : List Acc
  calls : List LCall
  misses : List Nat
  faults : List LFault
deriving DecidableEq, Repr

/-- Add one lane's plan. -/
def Plans.add (p : Plans) (s : State) : Plan → Plans
  | .ok a => { p with s := s, accs := p.accs ++ [a] }
  | .skew a => { p with s := s, skews := p.skews ++ [a], faults := p.faults ++ [⟨a.lane, .align, 0, ptrVal (wd a.va)⟩] }
  | .call k => { p with s := s, calls := p.calls ++ [k] }
  | .miss v => { p with s := s, misses := p.misses ++ [v] }
  | .fault fs => { p with s := s, faults := p.faults ++ fs }

/-- Plan every lane in ascending order. -/
def planAll (s : State) (ls : List Nat) (f : State → Nat → State × Plan) : Plans :=
  ls.foldl (fun p l =>
    let r := f p.s l
    p.add r.1 r.2) ⟨s, [], [], [], [], []⟩

/-- The plans of an M-format access: base A, index B, offset OFF13 * size. -/
def planMem (s : State) (ix : Ix) (ls : List Nat) (a b : Reg) (off : BitVec 13) (size al : Nat) (ns : List Need) (bar : Bool) :
    Plans :=
  planAll s ls (fun s l =>
    planLane s ix l (readReg (warpOf s ix.w) a l) (readReg (warpOf s ix.w) b l) (off.toInt * (size : Int)) al ns bar)

/-- Causes that an access finds beside its address. -/
def Plans.check (p : Plans) (f : Acc → List LFault) : Plans :=
  { p with faults := p.faults ++ ((p.accs ++ p.skews).map f).flatten }

/-- Nothing stands in the way of the accesses. -/
def Plans.clear (p : Plans) : Bool := decide (p.misses = []) && decide (p.faults = [])

/-- The memory causes of an access by kind: a tagged access to a raw region, a device register of another size (R3, R72). -/
def kindFaults (s : State) (tagOnly : Bool) (size : Nat) (a : Acc) : List LFault :=
  (if tagOnly && !a.leaf.t then [⟨a.lane, .tagmem, 0, ptrVal (wd a.va)⟩] else []) ++
  (if isMmio s a.pa && decide (size ≠ 8) then [⟨a.lane, .prot, 0, ptrVal (wd a.va)⟩] else [])

/-- The byte mask of an access. -/
def accMask (pa size : Nat) : BitVec 8 := BitVec.ofNat 8 ((2 ^ size - 1) * 2 ^ (pa % 8))

/-- An earlier atomic or append of the warp to one of the lines is still to be performed (R223). -/
def mustDrain (s : State) (w : Nat) (as : List Acc) : Bool := as.any (fun a => lineBusy s w (a.pa / 256))

/-! ## Loads (R224-R226) -/

/-- The three loads. -/
inductive LdKind
  | ld | lr
  | ldr (f : MFmt)
deriving DecidableEq, Repr

def ldSize : LdKind → Nat
  | .ldr f => mfmtSize f
  | _ => 8

/-- The value of a word that was read (R72, R73, R222, R224). -/
def loadVal (k : LdKind) (pa : Nat) : Rd → Val
  | .lost => poisonVal 0x21
  | .ok r =>
    if r.bad then poisonVal 0x40
    else if r.tag = .fwd then poisonVal 0x23
    else match k with
      | .ldr f => mfmtVal f (fld r.data (8 * (pa % 8)) (8 * mfmtSize f))
      | _ => ⟨r.tag, canonPay r.tag r.data⟩

/-- What one lane's load comes to: a value, with the REF that a heal replaces, or a call of the barrier. -/
inductive Ld1
  | val (v : Val) (old : Option Val)
  | call (k : LCall)
  | miss (vpn : Nat)
  | fault (f : LFault)
deriving DecidableEq, Repr

/-- LR reads its granule at the home, with the core's own dirty bytes written back (R226, R303); an acquire with RACQ
reaches the home as well (R302). -/
def readAtHome (s : State) (c k : Nat) : State :=
  let s := l1Clean s c k
  setL1 s c k CWord.none

/-- A read word whose shadow tag is PEND, which a register never holds: MCHK against the load (R69, R73). -/
def pendTagged : Rd → Bool
  | .ok r => !r.bad && decide (r.tag = .pend)
  | .lost => false

/-- One lane's load: the access, then the barrier on a REF that LD or LR returns. -/
def loadLane (s : State) (ix : Ix) (k : LdKind) (racq : Option Scope) (d : Reg) (a : Acc) : State × Ld1 :=
  let c := (warpOf s ix.w).core
  if ownMmio s c a.pa then (s, .val (match k with
    | .ldr f => mfmtVal f (mmioRead s a.pa).toNat
    | _ => ⟨.int, mmioRead s a.pa⟩) none)
  else
    let s := match racq with
      | some sc => readAtHome (racqAt s c (a.pa / 256) sc) c (a.pa / 8)
      | none => if k = .lr then readAtHome s c (a.pa / 8) else s
    let (s, r) := l1Read s c (warpPart s ix.w) (a.pa / 8) (accMask a.pa (ldSize k)) a.leaf.t
    let v := loadVal k a.pa r
    if pendTagged r then (s, .fault ⟨a.lane, .mchk, 0, ptrVal ix.pc⟩)
    else match k with
    | .ldr _ => (s, .val v none)
    | _ =>
      match barrier s ix.w v with
        | .ok s v' => (s, .val v' (if v' = v then none else some v))
        | .call s h =>
          (s, .call (barrierCall a.lane v h (destKind (.reg d)).1 (destKind (.reg d)).2 ix.next))
        | .miss n => (s, .miss n)
        | .fault s x => (s, .fault ⟨a.lane, x, 0, ptrVal v.pay⟩)

/-- The loads of an instruction. -/
structure Loads where
  s : State
  vals : List (Acc × Val × Option Val)
  calls : List LCall
  misses : List Nat
  faults : List LFault
deriving DecidableEq, Repr

def loadAll (s : State) (ix : Ix) (k : LdKind) (racq : Option Scope) (d : Reg) (as : List Acc) : Loads :=
  as.foldl (fun p a =>
    let r := loadLane p.s ix k racq d a
    match r.2 with
    | .val v old => { p with s := r.1, vals := p.vals ++ [(a, v, old)] }
    | .call q => { p with s := r.1, calls := p.calls ++ [q] }
    | .miss n => { p with s := r.1, misses := p.misses ++ [n] }
    | .fault f => { p with s := r.1, faults := p.faults ++ [f] }) ⟨s, [], [], [], []⟩

/-- A result on its way to a lane (R187, R257). -/
def sendVal (s : State) (ix : Ix) (d : Reg) (l : Nat) (pa : Nat) (v : Val) : State :=
  (addReq s (warpOf s ix.w).core { warp := ix.w, outs := [(dstOf d l, some v)], atomic := false, pa := pa,
                                   bar := false }).1

/-- Take a reservation (R161). -/
def reserve (s : State) (w l k : Nat) : State :=
  updWarp s w (fun x => { updLane x l (fun y => { y with resv := some k }) with lrRun := l :: x.lrRun })

/-- The effects of loads that have their values: heals, reservations, results on their way, and the acquire. -/
def finishLoads (s : State) (ix : Ix) (k : LdKind) (d : Reg) (sc : Option Scope) (as : List Acc) (vs : List (Acc × Val × Option Val)) :
    State :=
  let s := vs.foldl (fun s e =>
    match e.2.2 with
    | some old => heal s (warpOf s ix.w).core (e.1.pa / 8) old e.2.1
    | none => s) s
  let s := if k = .lr then as.foldl (fun s a => reserve s ix.w a.lane (a.pa / 8)) s else s
  let s := vs.foldl (fun s e => sendVal s ix d e.1.lane e.1.pa e.2.1) s
  match sc with
  | some sc => acquire s (warpOf s ix.w).core sc
  | none => s

/-- A load instruction. -/
def loadOp (k : LdKind) (d a b : Reg) (sc : Scope) (ord : Ord4) (racq : Bool) (off : BitVec 13) (ix : Ix) (s : State) : Res :=
  let ls := actLanes ix (.reg d) [a, b]
  let size := ldSize k
  let tagOnly := match k with
    | .ldr _ => false
    | _ => true
  let p := (planMem s ix ls a b off size size [.r] true).check (kindFaults s tagOnly size)
  let acq := if ord = .acq then some sc else none
  if !p.clear then finishCalls p.s ix p.calls p.faults p.misses id
  else if mustDrain p.s ix.w p.accs then .wait .drain p.s
  else if reqRoom p.s (warpOf s ix.w).core < p.accs.length then .wait .requests p.s
  else
    let r := loadAll p.s ix k (if racq then some sc else none) d p.accs
    finishCalls r.s ix (p.calls ++ r.calls) r.faults r.misses (fun s => finishLoads s ix k d acq p.accs r.vals)

/-- LD (R224). -/
def execLd (h : Hdr) (o : OpMem) (s : State) : Host.Outcome State Fault Refusal :=
  issued (.ld h o) h s (loadOp .ld o.d o.a o.b o.scope o.ord o.racq o.off)
/-- LDR (R224). -/
def execLdr (h : Hdr) (o : OpMemF) (s : State) : Host.Outcome State Fault Refusal :=
  issued (.ldr h o) h s (loadOp (.ldr o.fmt) o.d o.a o.b o.scope o.ord o.racq o.off)
/-- LR (R226). -/
def execLr (h : Hdr) (o : OpMem) (s : State) : Host.Outcome State Fault Refusal :=
  issued (.lr h o) h s (loadOp .lr o.d o.a o.b o.scope o.ord o.racq o.off)

/-! ## Stores (R224, R225) -/

/-- The two stores. -/
inductive StKind
  | st
  | str (f : MFmt)
deriving DecidableEq, Repr

def stSize : StKind → Nat
  | .st => 8
  | .str f => mfmtSize f

/-- Causes that a store's data has (R72, R79): STR of POISON, and of a REF or TILE. -/
def dataFaults (ix : Ix) (k : StKind) (v : Val) (l va : Nat) : List LFault :=
  match k with
  | .st => []
  | .str _ =>
    if v.tag = .poison then [⟨l, .poison, fld v.pay 0 16, ptrVal ix.pc⟩]
    else if v.tag = .ref ∨ v.tag = .tile then [⟨l, .tagmem, 0, ptrVal (wd va)⟩] else []

/-- The wider of two scopes at which a write is a release. -/
def widerScope : Option Scope → Option Scope → Option Scope
  | some a, some b => some (if scopeNum a < scopeNum b then b else a)
  | some a, none => some a
  | none, b => b

/-- The scope at which a write of a warp is a release: its own, and that of an earlier release fence (R299). -/
def relScope (x : Warp) (sc : Option Scope) : Option Scope := widerScope sc x.relFence

/-- A release note, where core c writes a line as a release at scope core or warp (R302). -/
def noteRelease (s : State) (c : Nat) (sc : Option Scope) (pa : Nat) : State :=
  match sc with
  | some sc => if scopeNum sc < 2 then releaserNote s c (pa / 256) else s
  | none => s

/-- The work before a write that is a release (R300). -/
def releaseFor (s : State) (c : Nat) : Option Scope → State
  | some sc => release s c sc
  | none => s

/-- Forget the header entry of a word that the core writes (R223). -/
def dropHeader (s : State) (c va : Nat) : State := updCore s c (fun x => { x with hdrp := spDel (va / 8) x.hdrp })

/-- One lane's store. -/
def storeLane (s : State) (ix : Ix) (k : StKind) (sc : Option Scope) (a : Acc) (v : Val) : State :=
  let c := (warpOf s ix.w).core
  if ownMmio s c a.pa then mmioWrite s c a.pa v.pay
  else
    let mask := accMask a.pa (stSize k)
    let data := wd (v.pay.toNat * 2 ^ (8 * (a.pa % 8)))
    let t := if a.leaf.t then some (match k with
        | .st => v.tag
        | .str f => strTag f) else none
    let s := dropHeader (l1Write s c (a.pa / 8) data mask t) c a.va
    let s := match sc with
      | some sc => if 2 ≤ scopeNum sc then l1Clean s c (a.pa / 8) else s
      | none => s
    noteRelease s c sc a.pa

/-- A write of a queue's TAIL, which is a release at system scope (R307, R312). -/
def tailStore (s : State) (c : Nat) (a : Acc) : Bool :=
  ownMmio s c a.pa && decide (regionOf s a.pa = .queues) && decide ((mmioQueue a.pa).2 / 8 = 2)

/-- What a write of the warp waits for: earlier atomics and appends to its lines (R223), reads that its engine operations have still to
make (R304), and, where it is a release, everything earlier (R300). -/
def writeBusy (s : State) (w : Nat) (rel : Bool) (as : List Acc) : Bool :=
  mustDrain s w as || readsPending s w ||
    ((rel || as.any (tailStore s (warpOf s w).core)) && warpUndrained s w)

/-- A store instruction: lanes in ascending order, so the highest lane's bytes remain (R223). DESIGN CHOICE (log entry 24): a store takes
no entry of the request table, since no reply is due to it, and so never waits for one. -/
def storeOp (k : StKind) (d a b : Reg) (sc : Scope) (ord : Ord4) (off : BitVec 13) (ix : Ix) (s : State) : Res :=
  let x := warpOf s ix.w
  let ls := if actsOnce (.reg .nil) [d, a, b] then [ix.low] else ix.exe
  let size := stSize k
  let p := planMem s ix ls a b off size size [.w] true
  let p := p.check (fun q => kindFaults s (decide (k = .st)) size q ++ dataFaults ix k (readReg x d q.lane) q.lane q.va)
  let rel := relScope x (if ord = .rel then some sc else none)
  if !p.clear then finishCalls p.s ix p.calls p.faults p.misses id
  else if writeBusy p.s ix.w rel.isSome p.accs then .wait .drain p.s
  else
    finishCalls p.s ix p.calls [] [] (fun s =>
      p.accs.foldl (fun s q => storeLane s ix k rel q (readReg x d q.lane)) (releaseFor s x.core rel))

/-- ST (R224). -/
def execSt (h : Hdr) (o : OpMem) (s : State) : Host.Outcome State Fault Refusal :=
  issued (.st h o) h s (storeOp .st o.d o.a o.b o.scope o.ord o.off)
/-- STR (R224). -/
def execStr (h : Hdr) (o : OpMemF) (s : State) : Host.Outcome State Fault Refusal :=
  issued (.str h o) h s (storeOp (.str o.fmt) o.d o.a o.b o.scope o.ord o.off)

/-! ## SC (R226, R161, R303) -/

/-- One lane's SC: performed at the home of the granule; the result is 1 when the lane still held its reservation. -/
def scLane (s : State) (ix : Ix) (d : Reg) (sc : Option Scope) (a : Acc) (v : Val) : State :=
  let c := (warpOf s ix.w).core
  let k := a.pa / 8
  let held := decide ((laneOf (warpOf s ix.w) a.lane).resv = some k)
  let ok := held && served s (warpPart s ix.w) k a.leaf.t
  let s :=
    if ok then
      let s := homeWrite (readAtHome s c k) k v.pay 0xFF (some v.tag) false none
      noteRelease (dropHeader s c a.va) c sc a.pa
    else if held then tellDropped s (warpPart s ix.w) (k * 8) else s
  let s := updWarp s ix.w (fun x => updLane x a.lane (fun y => { y with resv := none }))
  sendVal s ix d a.lane a.pa (natVal (if ok then 1 else 0))

/-- SC: D is the data, B the result register, and the address A + OFF13 * 8 (R226). -/
def execSc (h : Hdr) (o : OpMem) (s : State) : Host.Outcome State Fault Refusal :=
  issued (.sc h o) h s fun ix s =>
    let x := warpOf s ix.w
    let ls := actLanes ix (.reg o.b) [o.a, o.d]
    let p := (planMem s ix ls o.a .nil o.off 8 8 [.w] true).check (kindFaults s true 8)
    let rel := relScope x (if o.ord = .rel then some o.scope else none)
    if !p.clear then finishCalls p.s ix p.calls p.faults p.misses id
    else if writeBusy p.s ix.w rel.isSome p.accs then .wait .drain p.s
    else if reqRoom p.s x.core < p.accs.length then .wait .requests p.s
    else
      finishCalls p.s ix p.calls [] [] (fun s =>
        p.accs.foldl (fun s q => scLane s ix o.b rel q (readReg x o.d q.lane)) (releaseFor s x.core rel))

/-! ## FENCE, PF, CFLUSH, CINV (R227-R229) -/

/-- The order's release and acquire halves. -/
def hasRel (o : Ord4) : Bool := decide (o = .rel ∨ o = .acqrel)
def hasAcq (o : Ord4) : Bool := decide (o = .acq ∨ o = .acqrel)

/-- FENCE (R227): the write-backs of its release half, those it asks of other cores, then the invalidations. It waits for the warp's
atomics, its release half for earlier appends too (R292), and for no other engine operation. -/
def execFence (h : Hdr) (ord : Ord4) (scope : Scope) (racq : Bool) (s : State) : Host.Outcome State Fault Refusal :=
  issued (.fence h ord scope racq) h s fun ix s =>
    let c := (warpOf s ix.w).core
    if atomsUndrained s ix.w || (hasRel ord && warpUndrained s ix.w) then .wait .drain s
    else
      let s := if hasRel ord then
          updWarp (release s c scope) ix.w (fun x => { x with relFence := widerScope (some scope) x.relFence })
        else s
      let s := if racq then fenceRacq s c scope else s
      .ok (if hasAcq ord then acquire s c scope else s)

/-- PF (R228): fills the L1 at scope core, and the home slice; an access that would fault is dropped. -/
def execPf (h : Hdr) (o : OpCache) (s : State) : Host.Outcome State Fault Refusal :=
  issued (.pf h o) h s fun ix s =>
    let p := planMem s ix ix.exe o.a o.b o.off 8 1 [.r] false
    if p.misses ≠ [] then .wait (.walk p.misses.eraseDups) p.s
    else
      .ok (p.accs.foldl (fun s q =>
        let line := q.pa / 256
        if ownMmio s (warpOf s ix.w).core q.pa || !served s (warpPart s ix.w) (q.pa / 8) q.leaf.t then s
        else if o.scope = .core then
          [0, 8, 16, 24].foldl (fun s j => (l1Read s (warpOf s ix.w).core (warpPart s ix.w) (line * 32 + j) 0xFF q.leaf.t).1) s
        else [0, 8, 16, 24].foldl (fun s j => (homeRead s (line * 32 + j)).1) s) p.s)

/-- CFLUSH's and CINV's work on one line (R229). -/
def cacheLine (s : State) (c line : Nat) (sc : Scope) (drop : Bool) : State :=
  if scopeNum sc < 2 then s
  else
    let s := (lineWords line).foldl (fun s k => l1Clean s c k) s
    let s := if sc = .system then (lineWords line).foldl (fun s k => l2Clean s k) s else s
    if drop then
      let s := (lineWords line).foldl (fun s k => setL1 s c k CWord.none) s
      if sc = .system then l2Evict s line else s
    else s

/-- A cache maintenance instruction. -/
def cacheOp (o : OpCache) (drop : Bool) (ix : Ix) (s : State) : Res :=
  let p := planMem s ix (actLanes ix (.reg .nil) [o.a, o.b]) o.a o.b o.off 8 1 [.r] true
  finishCalls p.s ix p.calls p.faults p.misses (fun s =>
    p.accs.foldl (fun s q => if ownMmio s (warpOf s ix.w).core q.pa then s else cacheLine s (warpOf s ix.w).core (q.pa / 256) o.scope drop) s)

/-- CFLUSH (R229). -/
def execCflush (h : Hdr) (o : OpCache) (s : State) : Host.Outcome State Fault Refusal :=
  issued (.cflush h o) h s (cacheOp o false)
/-- CINV (R229). -/
def execCinv (h : Hdr) (o : OpCache) (s : State) : Host.Outcome State Fault Refusal :=
  issued (.cinv h o) h s (cacheOp o true)

/-! ## LDH (R230) -/

/-- A header word as LDH reports it: FWD as the REF of the new place. -/
def headerVal (v : Val) : Val := if v.tag = .fwd then ⟨.ref, v.pay⟩ else v

/-- One lane's LDH: a kept entry answers, but in an evacuating region only a FWD entry; the core's own dirty bytes go home
first (R214, R223, R230). A PEND value stands for the MCHK of R73. -/
def ldhLane (s : State) (ix : Ix) (a : Acc) : State × Val :=
  let c := (warpOf s ix.w).core
  let k := coreOf s c
  match spGet none k.hdrp (a.va / 8) with
  | some (v, _) => if v.tag = .fwd ∨ !evacuating k a.va then (s, headerVal v) else read s c
  | none => read s c
where
  /-- The word at its home. -/
  read (s : State) (c : Nat) : State × Val :=
    let s := readAtHome s c (a.pa / 8)
    if !served s (warpPart s ix.w) (a.pa / 8) a.leaf.t then (tellRefused s (warpPart s ix.w) a.pa, poisonVal 0x21)
    else
      let (s, r) := homeRead s (a.pa / 8)
      if r.bad then (s, poisonVal 0x40)
      else if r.tag = .pend then (s, ⟨.pend, 0⟩)
      else
        let v : Val := ⟨r.tag, canonPay r.tag r.data⟩
        (keepHeader s c a.va (a.pa / 8) v, headerVal v)

/-- LDH (R230). -/
def execLdh (h : Hdr) (d a b : Reg) (off : BitVec 13) (s : State) : Host.Outcome State Fault Refusal :=
  issued (.ldh h d a b off) h s fun ix s =>
    let p := (planMem s ix (actLanes ix (.reg d) [a, b]) a b off 8 8 [.r] false).check (kindFaults s true 8)
    if !p.clear then finishCalls p.s ix [] p.faults p.misses id
    else if mustDrain p.s ix.w p.accs then .wait .drain p.s
    else if reqRoom p.s (warpOf s ix.w).core < p.accs.length then .wait .requests p.s
    else
      let r := p.accs.foldl (fun (a : State × List (Acc × Val)) q =>
        let r := ldhLane a.1 ix q
        (r.1, a.2 ++ [(q, r.2)])) (p.s, [])
      let fs := r.2.filterMap (fun e => if e.2.tag = .pend then some (faultAt ix e.1.lane .mchk) else none)
      orTrap fs (r.2.foldl (fun s e => sendVal s ix d e.1.lane e.1.pa e.2) r.1)

end Sys2Proof.Machine
end

