-- ==== Sys2Proof/Machine/LaneArith.lean ====
section
/-! DEFINITION. Generic arithmetic (R105-R111), compares (R112, R113) and DOT (R117). -/

namespace Sys2Proof.Machine

open Sys2Proof

/-! ## Operands and dispatch (R92-R94) -/

/-- An operand as a lane reads it, after its selector. -/
def opVal (s : State) (ix : Ix) (r : Reg) (sel : BitVec 4) (l : Nat) : Val := selVal sel (readReg (warpOf s ix.w) r l)

/-- The first POISON in the order given (R78), canonical. -/
def firstPoison : List Val → Option Val
  | [] => none
  | v :: r => if v.tag = .poison then some (poisonVal (fld v.pay 0 16)) else firstPoison r

/-- The result of an instruction that passes POISON on (R78). -/
def orPoison (vs : List Val) (r : LOut) : LOut :=
  match firstPoison vs with
  | some p => .val p
  | none => r

/-- The trap of an instruction that consumes POISON (R79). -/
def orPoisonTrap (vs : List Val) (r : LOut) : LOut :=
  match firstPoison vs with
  | some p => .fault .poison (fld p.pay 0 16)
  | none => r

/-- The result tag of a scalar pair of the standard set (R93, R94); none: the pair is not in it. -/
def resTag : Tag → Tag → Option Tag
  | .int, .int => some .int
  | .f64, .f64 => some .f64
  | .f32, .f32 => some .f32
  | .f16, .f16 => some .f16
  | .bf16, .bf16 => some .bf16
  | .int, .f32 => some .f32
  | .f32, .int => some .f32
  | .int, .f64 => some .f64
  | .f64, .int => some .f64
  | .f32, .f64 => some .f64
  | .f64, .f32 => some .f64
  | _, _ => none

/-- A packed pair of the standard set: equal tags, the MOD element's own (R36, R93). -/
def packPair (e : Elt) (a b : Tag) : Bool := isPacked a && decide (a = b) && decide (eltTag e = a)

/-- The exact value of an operand in result tag t: an INT is first rounded RN to a float tag (R94). -/
def widen (v : Val) (t : Tag) : Num :=
  match v.tag, tagFmt t with
  | .int, some f => f.dec (f.enc .rn (numOfInt v.pay.toInt))
  | _, _ => (valNum v).getD .nan

/-- The signed 64-bit range. -/
def fitsInt (i : Int) : Bool := decide (-(2 ^ 63) ≤ i) && decide (i < 2 ^ 63)

/-- An INT result, or the overflow call (14, class, INT) with the operands (R94, R96). -/
def intOut (cls : Nat) (x : Option Int) (a b c : Val) : LOut :=
  match x with
  | some i => if fitsInt i then .val (intVal i) else .call 14 cls 1 a b c
  | none => .call 14 cls 1 a b c

/-- A packed result, element by element (R107). -/
def packOut (e : Elt) (t : Tag) (f : Nat → Num) : LOut := .val ⟨t, packElts e (fun i => eltEnc e .rn (f i))⟩

/-- The call of an instruction's own class, by operand tags. -/
def ownCall (cls : Nat) (a b c : Val) : LOut := .call cls (tagCode a.tag) (tagCode b.tag) a b c

/-! ## ADD, SUB, MUL, DIV, REM (R105-R107) -/

/-- The five operations, by class. -/
inductive ArOp
  | add | sub | mul | div | rem
deriving DecidableEq, Repr

def arClass : ArOp → Nat
  | .add => 0
  | .sub => 1
  | .mul => 2
  | .div => 3
  | .rem => 4

/-- exact(op) on integers (R106); none: undefined. -/
def arInt (op : ArOp) (a b : Int) : Option Int :=
  match op with
  | .add => some (a + b)
  | .sub => some (a - b)
  | .mul => some (a * b)
  | .div => if b = 0 ∨ (a = -(2 ^ 63) ∧ b = -1) then none else some (a.tdiv b)
  | .rem => if b = 0 ∨ (a = -(2 ^ 63) ∧ b = -1) then none else some (a.tmod b)

/-- exact(op) on floats (R106). -/
def arNum (op : ArOp) (a b : Num) : Num :=
  match op with
  | .add => sumNum [a, b]
  | .sub => sumNum [a, b.neg]
  | .mul => mulNum a b
  | .div => divNum a b
  | .rem => remNum a b

/-- Whether the operation has an elementwise form (R107). -/
def arPacked : ArOp → Bool
  | .add | .sub | .mul => true
  | _ => false

/-- arith of R105 in one lane. -/
def arith (op : ArOp) (e : Elt) (a b : Val) : LOut :=
  orPoison [a, b] <|
    match resTag a.tag b.tag with
    | some .int => intOut (arClass op) (arInt op a.pay.toInt b.pay.toInt) a b nilVal
    | some t => .val (fVal t .rn (arNum op (widen a t) (widen b t)))
    | none =>
      if arPacked op && packPair e a.tag b.tag then
        packOut e a.tag (fun i => arNum op (eltDec e (eltAt e a.pay i)) (eltDec e (eltAt e b.pay i)))
      else ownCall (arClass op) a b nilVal

/-- A binary arithmetic instruction. -/
def arithOp (op : ArOp) (o : OpBinE) (ix : Ix) (s : State) : Res :=
  laneOp ix s (.reg o.d) [o.a, o.b] fun l => arith op o.e (opVal s ix o.a o.sa l) (opVal s ix o.b o.sb l)

/-- ADD (R105). -/
def execAdd (h : Hdr) (o : OpBinE) (s : State) : Host.Outcome State Fault Refusal := issued (.add h o) h s (arithOp .add o)
/-- SUB (R105). -/
def execSub (h : Hdr) (o : OpBinE) (s : State) : Host.Outcome State Fault Refusal := issued (.sub h o) h s (arithOp .sub o)
/-- MUL (R105). -/
def execMul (h : Hdr) (o : OpBinE) (s : State) : Host.Outcome State Fault Refusal := issued (.mul h o) h s (arithOp .mul o)
/-- DIV (R105). -/
def execDiv (h : Hdr) (o : OpBinE) (s : State) : Host.Outcome State Fault Refusal := issued (.div h o) h s (arithOp .div o)
/-- REM (R105). -/
def execRem (h : Hdr) (o : OpBinE) (s : State) : Host.Outcome State Fault Refusal := issued (.rem h o) h s (arithOp .rem o)

/-- ADDI and MULI: B is the INT immediate (R111). -/
def arithImm (op : ArOp) (o : OpImm) (ix : Ix) (s : State) : Res :=
  laneOp ix s (.reg o.d) [o.a] fun l => arith op .i8 (opVal s ix o.a 0 l) (intVal o.imm.toInt)

/-- ADDI (R111). -/
def execAddi (h : Hdr) (o : OpImm) (s : State) : Host.Outcome State Fault Refusal := issued (.addi h o) h s (arithImm .add o)
/-- MULI (R111). -/
def execMuli (h : Hdr) (o : OpImm) (s : State) : Host.Outcome State Fault Refusal := issued (.muli h o) h s (arithImm .mul o)

/-! ## FMA (R108) and DOT (R117) -/

/-- FMA in one lane: one exact sum, rounded once. -/
def fma (e : Elt) (a b c : Val) : LOut :=
  orPoison [a, b, c] <|
    match resTag a.tag b.tag with
    | some t =>
      if c.tag ≠ t then ownCall 8 a b c
      else if t = .int then intOut 8 (some (a.pay.toInt * b.pay.toInt + c.pay.toInt)) a b c
      else .val (fVal t .rn (sumNum [mulNum (widen a t) (widen b t), widen c t]))
    | none =>
      if packPair e a.tag b.tag && decide (c.tag = a.tag) then
        packOut e a.tag (fun i =>
          sumNum [mulNum (eltDec e (eltAt e a.pay i)) (eltDec e (eltAt e b.pay i)), eltDec e (eltAt e c.pay i)])
      else ownCall 8 a b c

/-- FMA (R108). -/
def execFma (h : Hdr) (o : OpTerE) (s : State) : Host.Outcome State Fault Refusal :=
  issued (.fma h o) h s fun ix s =>
    laneOp ix s (.reg o.d) [o.a, o.b, o.c] fun l =>
      fma o.e (opVal s ix o.a o.sa l) (opVal s ix o.b o.sb l) (opVal s ix o.c 0 l)

/-- The tags of C that DOT accepts for an element format (R117). -/
def dotC (e : Elt) (t : Tag) : Bool :=
  match e with
  | .i8 | .i16 | .i4 => decide (t = .int)
  | _ => decide (t = .f32 ∨ t = .f64)

/-- DOT in one lane: C and every product summed exactly, rounded once. -/
def dot (e : Elt) (a b c : Val) : LOut :=
  orPoison [a, b, c] <|
    if a.tag ≠ eltTag e ∨ b.tag ≠ eltTag e ∨ !dotC e c.tag then ownCall 8 a b c
    else
      let ps := (List.range (eltCount e)).map (fun i => mulNum (eltDec e (eltAt e a.pay i)) (eltDec e (eltAt e b.pay i)))
      let x := sumNum ((valNum c).getD .nan :: ps)
      if c.tag = .int then intOut 8 (roundInt .rz x) a b c else .val (fVal c.tag .rn x)

/-- DOT (R117). -/
def execDot (h : Hdr) (o : OpTerE) (s : State) : Host.Outcome State Fault Refusal :=
  issued (.dot h o) h s fun ix s =>
    laneOp ix s (.reg o.d) [o.a, o.b, o.c] fun l =>
      dot o.e (opVal s ix o.a o.sa l) (opVal s ix o.b o.sb l) (opVal s ix o.c 0 l)

/-! ## NEG and ABS (R109) -/

/-- NEG or ABS in one lane, from the operation on integers and on exact values. -/
def negAbs (fi : Int → Int) (fn : Num → Num) (e : Elt) (a : Val) : LOut :=
  orPoison [a] <|
    match valNum a with
    | some x => if a.tag = .int then intOut 5 (some (fi a.pay.toInt)) a nilVal nilVal else .val (fVal a.tag .rn (fn x))
    | none =>
      if isPacked a.tag && decide (eltTag e = a.tag) then packOut e a.tag (fun i => fn (eltDec e (eltAt e a.pay i)))
      else .call 5 (tagCode a.tag) 0 a nilVal nilVal

/-- The magnitude of an integer. -/
def absInt (i : Int) : Int := (i.natAbs : Int)

/-- NEG (R109). -/
def execNeg (h : Hdr) (o : OpUnE) (s : State) : Host.Outcome State Fault Refusal :=
  issued (.neg h o) h s fun ix s =>
    laneOp ix s (.reg o.d) [o.a] fun l => negAbs (fun i => -i) Num.neg o.e (opVal s ix o.a o.sa l)

/-- ABS (R109). -/
def execAbs (h : Hdr) (o : OpUnE) (s : State) : Host.Outcome State Fault Refusal :=
  issued (.abs h o) h s fun ix s =>
    laneOp ix s (.reg o.d) [o.a] fun l => negAbs absInt Num.abs o.e (opVal s ix o.a o.sa l)

/-! ## MIN, MAX, CLAMP (R110) -/

/-- The lesser and the greater by exact value; a NaN gives a NaN. -/
def minNum (x y : Num) : Num := if x.isNan || y.isNan then .nan else if minLt y x then y else x
def maxOf (x y : Num) : Num := if x.isNan || y.isNan then .nan else if minLt x y then y else x

/-- An exact value converted RN to a result tag; an INT result is whole. -/
def toTag (t : Tag) (x : Num) : Val :=
  if t = .int then intVal ((roundInt .rz x).getD 0) else fVal t .rn x

/-- MIN or MAX in one lane. -/
def minMax (f : Num → Num → Num) (e : Elt) (a b : Val) : LOut :=
  orPoison [a, b] <|
    match resTag a.tag b.tag with
    | some t => .val (toTag t (f ((valNum a).getD .nan) ((valNum b).getD .nan)))
    | none =>
      if packPair e a.tag b.tag then
        packOut e a.tag (fun i => f (eltDec e (eltAt e a.pay i)) (eltDec e (eltAt e b.pay i)))
      else ownCall 7 a b nilVal

/-- CLAMP in one lane: the minimum of max(A, B) and C. -/
def clamp (e : Elt) (a b c : Val) : LOut :=
  orPoison [a, b, c] <|
    match resTag a.tag b.tag, resTag a.tag c.tag with
    | some t, some _ =>
      match resTag t c.tag with
      | some u => .val (toTag u (minNum (maxOf ((valNum a).getD .nan) ((valNum b).getD .nan)) ((valNum c).getD .nan)))
      | none => .call 7 (tagCode a.tag) (tagCode c.tag) a b c
    | some _, none => .call 7 (tagCode a.tag) (tagCode c.tag) a b c
    | none, _ =>
      if packPair e a.tag b.tag then
        if packPair e a.tag c.tag then
          packOut e a.tag (fun i =>
            minNum (maxOf (eltDec e (eltAt e a.pay i)) (eltDec e (eltAt e b.pay i))) (eltDec e (eltAt e c.pay i)))
        else .call 7 (tagCode a.tag) (tagCode c.tag) a b c
      else .call 7 (tagCode a.tag) (tagCode b.tag) a b c

/-- MIN (R110). -/
def execMin (h : Hdr) (o : OpBinE) (s : State) : Host.Outcome State Fault Refusal :=
  issued (.min h o) h s fun ix s =>
    laneOp ix s (.reg o.d) [o.a, o.b] fun l => minMax minNum o.e (opVal s ix o.a o.sa l) (opVal s ix o.b o.sb l)

/-- MAX (R110). -/
def execMax (h : Hdr) (o : OpBinE) (s : State) : Host.Outcome State Fault Refusal :=
  issued (.max h o) h s fun ix s =>
    laneOp ix s (.reg o.d) [o.a, o.b] fun l => minMax maxOf o.e (opVal s ix o.a o.sa l) (opVal s ix o.b o.sb l)

/-- CLAMP (R110). -/
def execClamp (h : Hdr) (o : OpTerE) (s : State) : Host.Outcome State Fault Refusal :=
  issued (.clamp h o) h s fun ix s =>
    laneOp ix s (.reg o.d) [o.a, o.b, o.c] fun l =>
      clamp o.e (opVal s ix o.a o.sa l) (opVal s ix o.b o.sb l) (opVal s ix o.c 0 l)

/-! ## Compares (R112, R113) -/

/-- Tags that EQ and NE compare by payload when both operands have them. -/
def payloadTag (t : Tag) : Bool := decide (t = .nil ∨ t = .sym ∨ t = .ref ∨ t = .ptr)

/-- The truth of a comparison, or the lane call of class 6; POISON is left to the instruction. -/
def compare (cc : Cc) (a b : Val) : LOut :=
  let yes := fun (p : Bool) => LOut.val (natVal (if p then 1 else 0))
  match resTag a.tag b.tag with
  | some _ => yes (ccNum cc ((valNum a).getD .nan) ((valNum b).getD .nan))
  | none =>
    if decide (a.tag = b.tag) && payloadTag a.tag && decide (cc = .eq ∨ cc = .ne) then
      yes (decide (cc = .eq) == decide (a.pay = b.pay))
    else ownCall 6 a b nilVal

/-- CMP and CMPI in one lane: POISON gives POISON but under TAGEQ. -/
def cmpLane (cc : Cc) (a b : Val) : LOut :=
  if cc = .tageq then .val (natVal (if a.tag = b.tag then 1 else 0)) else orPoison [a, b] (compare cc a b)

/-- CMP (R112, R113). -/
def execCmp (h : Hdr) (cc : Cc) (o : OpBinE) (s : State) : Host.Outcome State Fault Refusal :=
  issued (.cmp h cc o) h s fun ix s =>
    laneOp ix s (.reg o.d) [o.a, o.b] fun l => cmpLane cc (opVal s ix o.a o.sa l) (opVal s ix o.b o.sb l)

/-- CMPM (R112, R113): a POISON operand raises POISON under every condition. -/
def execCmpm (h : Hdr) (cc : Cc) (m : MaskNo) (a b : Reg) (sa sb : BitVec 4) (e : Elt) (s : State) :
    Host.Outcome State Fault Refusal :=
  issued (.cmpm h cc m a b sa sb e) h s fun ix s =>
    laneOp ix s (.mask m) [a, b] fun l =>
      let x := opVal s ix a sa l
      let y := opVal s ix b sb l
      orPoisonTrap [x, y] (cmpLane cc x y)

/-- CMPI (R112, R113): B is the INT immediate. -/
def execCmpi (h : Hdr) (cc : Cc) (d a : Reg) (imm : BitVec 28) (s : State) : Host.Outcome State Fault Refusal :=
  issued (.cmpi h cc d a imm) h s fun ix s =>
    laneOp ix s (.reg d) [a] fun l => cmpLane cc (opVal s ix a 0 l) (intVal imm.toInt)

end Sys2Proof.Machine
end

