-- ==== Sys2Proof/Machine/Scratch.lean ====
section
/-! DEFINITION. Scratchpad accesses (R191-R194, R232, R233). -/

namespace Sys2Proof.Machine

open Sys2Proof

/-! ## Bytes by position (R191, R192): a byte is held under the offset that LINEAR gives its position -/

/-- The position of the byte at offset o under a swizzle mode. -/
def swzPos (m : Swz) (o : Nat) : Nat :=
  let w := o / 8
  let bank := match m with
    | .lin => w % 64
    | .xor => Nat.xor w (w / 64) % 64
    | .fold => Nat.xor (Nat.xor w (w / 64)) (w / 4096) % 64
  (w / 64 * 64 + bank) * 8 + o % 8

/-- n bytes from offset o, as a number, low byte first. -/
def scrRead (t : Team) (m : Swz) (o n : Nat) : Nat := leNat ((List.range n).map (fun i => spGet 0 t.scratch (swzPos m (o + i))))

/-- Write one byte; a word all of whose bytes one access writes loses its error mark. -/
def scrPut (t : Team) (m : Swz) (o : Nat) (b : Byte) : Team := { t with scratch := spSet 0 t.scratch (swzPos m o) b }

/-- Write n bytes of a number at offset o. -/
def scrWrite (t : Team) (m : Swz) (o n x : Nat) : Team :=
  let t := (List.range n).foldl (fun t i => scrPut t m (o + i) (BitVec.ofNat 8 (x / 256 ^ i))) t
  if n = 8 then { t with scrBad := spSet false t.scrBad (swzPos m o / 8) false } else t

/-- Whether the word at an offset holds an uncorrectable error (R219). -/
def scrBadAt (t : Team) (m : Swz) (o : Nat) : Bool := spGet false t.scrBad (swzPos m o / 8)

/-! ## Offsets and their causes (R193, R196, R220) -/

/-- The causes of offset components: POISON, or PROT for a tag that is not INT or NIL. -/
def offsetFaults (ix : Ix) (l : Nat) (vs : List Val) : List LFault :=
  vs.filterMap (fun v =>
    if v.tag = .poison then some ⟨l, .poison, fld v.pay 0 16, ptrVal ix.pc⟩
    else if v.tag ≠ .int ∧ v.tag ≠ .nil then some (faultAt ix l .prot) else none)

/-- The causes of an access of n bytes at offset o: beyond the allocation, misaligned, engine-owned; for a read also an
uncorrectable word. -/
def scratchFaults (t : Team) (l : Nat) (m : Swz) (o : Int) (n : Nat) (read : Bool) : List LFault :=
  let e := fun (c : Cause) => (⟨l, c, 0, intVal o⟩ : LFault)
  if o < 0 ∨ (t.scratchBytes : Int) < o + n then [e .prot]
  else
    (if o.toNat % n ≠ 0 then [e .align] else []) ++
    (if spGet false t.owner (o.toNat / 4096) then [e .owner] else []) ++
    (if read && scrBadAt t m o.toNat then [e .mchk] else [])

/-- The offset of an LDS or STS in a lane. -/
def scrOff (x : Warp) (a b : Reg) (off : BitVec 13) (size l : Nat) : Int :=
  (readReg x a l).pay.toInt + (readReg x b l).pay.toInt + off.toInt * (size : Int)

/-! ## LDS and STS (R232) -/

/-- Whether an uncorrectable word is the instruction's MCHK: EADDR then holds its address (R156). -/
def mchkAtPc (ix : Ix) (f : LFault) : LFault := if f.cause = .mchk then { f with eaddr := ptrVal ix.pc } else f

/-- LDS (R232). -/
def execLds (h : Hdr) (o : OpScr) (s : State) : Host.Outcome State Fault Refusal :=
  issued (.lds h o) h s fun ix s =>
    let x := warpOf s ix.w
    let t := teamOf s x.team
    let n := mfmtSize o.fmt
    let ls := actLanes ix (.reg o.d) [o.a, o.b]
    let fs := (ls.map (fun l =>
      let c := offsetFaults ix l [readReg x o.a l, readReg x o.b l]
      if c ≠ [] then c else (scratchFaults t l o.swz (scrOff x o.a o.b o.off n l) n true).map (mchkAtPc ix))).flatten
    if fs ≠ [] then .trap fs 0 []
    else
      .ok (setWarp s ix.w (ls.foldl (fun y l =>
        writeReg y o.d l (mfmtVal o.fmt (scrRead t o.swz (scrOff x o.a o.b o.off n l).toNat n))) x))

/-- STS (R232): lanes in ascending order, so the highest lane's bytes remain. -/
def execSts (h : Hdr) (o : OpScr) (s : State) : Host.Outcome State Fault Refusal :=
  issued (.sts h o) h s fun ix s =>
    let x := warpOf s ix.w
    let t := teamOf s x.team
    let n := mfmtSize o.fmt
    let ls := actLanes ix (.reg .nil) [o.d, o.a, o.b]
    let fs := (ls.map (fun l =>
      let v := readReg x o.d l
      let p := if v.tag = .poison then [⟨l, .poison, fld v.pay 0 16, ptrVal ix.pc⟩] else []
      let c := offsetFaults ix l [readReg x o.a l, readReg x o.b l]
      p ++ (if c ≠ [] then c else scratchFaults t l o.swz (scrOff x o.a o.b o.off n l) n false))).flatten
    if fs ≠ [] then .trap fs 0 []
    else
      .ok (updTeam s x.team (fun t => ls.foldl (fun t l =>
        scrWrite t o.swz (scrOff x o.a o.b o.off n l).toNat n (readReg x o.d l).pay.toNat) t))

/-! ## Element operations (R233, R264) -/

/-- Bits of an element, and whether the format is a float. -/
def tfmtFloat (f : TFmt) : Option FFmt :=
  match f with
  | .bf16 => some fBF16
  | .f16 => some fF16
  | .f32 => some fF32
  | .f64 => some fF64
  | _ => none

/-- The new element: old and b are bit patterns of the format; c is what CAS expects. -/
def elementOp (op : AOp) (f : TFmt) (old b c : Nat) : Nat :=
  let w := tfmtBits f
  match op with
  | .add => (old + b) % 2 ^ w
  | .and => Nat.land old b
  | .or => Nat.lor old b
  | .xor => Nat.xor old b
  | .swap => b
  | .cas => if old = c then b else old
  | .fadd | .fadd64 =>
    (match tfmtFloat f with
     | some g => g.enc .rn (sumNum [g.dec old, g.dec b])
     | none => old)
  | .min =>
    (match tfmtFloat f with
     | some g => g.enc .rn (minNum (g.dec old) (g.dec b))
     | none => intBits w (min (sextN old w) (sextN b w)))
  | .max =>
    (match tfmtFloat f with
     | some g => g.enc .rn (maxOf (g.dec old) (g.dec b))
     | none => intBits w (max (sextN old w) (sextN b w)))

/-- The bit pattern that an operand gives an element of SATOM; none: its tag is refused (R233). -/
def elementArg (f : TFmt) (v : Val) : Option Nat :=
  match tfmtFloat f with
  | some g => (valNum v).map (fun x => g.enc .rn x)
  | none => if v.tag = .int ∨ v.tag = .ptr then some (v.pay.toNat % 2 ^ tfmtBits f) else none

/-- An element as a lane receives it: INT, sign-extended, or its own float tag. -/
def elementVal (f : TFmt) (x : Nat) : Val :=
  match f with
  | .bf16 => ⟨.bf16, wd x⟩
  | .f16 => ⟨.f16, wd x⟩
  | .f32 => ⟨.f32, wd x⟩
  | .f64 => ⟨.f64, wd x⟩
  | _ => intVal (sextN x (tfmtBits f))

/-! ## SATOM (R233) -/

/-- The causes of an operand. -/
def satomFaults (ix : Ix) (f : TFmt) (l : Nat) (off : Int) (vs : List Val) : List LFault :=
  vs.filterMap (fun v =>
    if v.tag = .poison then some ⟨l, .poison, fld v.pay 0 16, ptrVal ix.pc⟩
    else if (elementArg f v).isNone then some ⟨l, .tagmem, 0, intVal off⟩ else none)

/-- One lane's read-modify-write, the old element going to D. -/
def satomLane (s : State) (w : Nat) (op : AOp) (f : TFmt) (m : Swz) (o : OpX4) (l : Nat) : State :=
  let x := warpOf s w
  let n := tfmtBits f / 8
  let off := (readReg x o.a l).pay.toInt.toNat
  let old := scrRead (teamOf s x.team) m off n
  let b := (elementArg f (readReg x o.b l)).getD 0
  let c := (elementArg f (readReg x o.c l)).getD 0
  let s := updTeam s x.team (fun t => scrWrite t m off n (elementOp op f old b c))
  updWarp s w (fun y => writeReg y o.d l (elementVal f old))

/-- SATOM (R233): lanes in ascending order, each one an operation of its own, so that another warp's may come between (R296): the
first is performed with the issue and each other at a RESULT_ARRIVAL (lateTodo); until then the warp issues nothing. -/
def execSatom (h : Hdr) (op : AOp) (fmt : TFmt) (swz : Swz) (o : OpX4) (s : State) : Host.Outcome State Fault Refusal :=
  issued (.satom h op fmt swz o) h s fun ix s =>
    let x := warpOf s ix.w
    let t := teamOf s x.team
    let srcs := if op = .cas then [o.a, o.b, o.c] else [o.a, o.b]
    let ls := actLanes ix (.reg o.d) srcs
    let n := tfmtBits fmt / 8
    let fs := (ls.map (fun l =>
      let c := offsetFaults ix l [readReg x o.a l]
      let off := (readReg x o.a l).pay.toInt
      (if c ≠ [] then c else (scratchFaults t l swz off n true).map (mchkAtPc ix)) ++
      satomFaults ix fmt l off (if op = .cas then [readReg x o.b l, readReg x o.c l] else [readReg x o.b l]))).flatten
    if fs ≠ [] then .trap fs 0 []
    else
      let s := satomLane s ix.w op fmt swz o ((ls.head?).getD 0)
      .ok (if ls.tail = [] then s else updWarp s ix.w (fun y => { y with wait := .lanes }))

/-! ## The arrival of results (R150) -/

/-- The last lane of a warp's SATOM has been performed: it issues again, and a GIVE of its team that waited for it looks again (R198). -/
def satomDone (s : State) (w : Nat) : State :=
  let t := (warpOf s w).team
  { s with warps := spMap Warp.none (fun k x =>
      if (k = w ∧ x.wait = .lanes) ∨ (x.team = t ∧ x.wait = .drain) then { x with wait := .none } else x) s.warps }

/-- The arrival of a variable-latency result that is no request's: the next lane of an SATOM is performed, and behind the last
one the warp issues again; with no lane left the marks are cleared. -/
def lateArrival (s : State) (core slot : Nat) (r : Late) : State :=
  match r.todo with
  | l :: rest =>
    let s := updCore s core (fun c => { c with late := spSet none c.late slot (some { r with todo := rest }) })
    if !(warpOf s r.warp).live then s
    else
      let s := match r.i with
        | .satom _ op f m o => satomLane s r.warp op f m o l
        | _ => s
      if rest = [] then satomDone s r.warp else s
  | [] =>
    let s := updCore s core (fun c => { c with late := spSet none c.late slot none })
    updWarp s r.warp (fun x => { r.keys.foldl subPend x with wait := if x.wait = .drain then .none else x.wait })

/-- RESULT_ARRIVAL: a load's result is written and its marks cleared, or a variable-latency result arrives (R150). -/
def execResultArrival (core slot : Nat) (s : State) : Host.Outcome State Fault Refusal :=
  .next (match spGet none (coreOf s core).reqs slot with
    | some r =>
      if r.atomic then s
      else
        match reqVals r with
        | some vs => endReq s core slot vs
        | none => s
    | none =>
      match spGet none (coreOf s core).late slot with
      | some r => lateArrival s core slot r
      | none => s)

end Sys2Proof.Machine
end

