-- ==== Sys2Proof/Machine/WarpSys.lean ====
section
/-! DEFINITION. Nursery allocation (R178), warp specials (R142, R179, R180), traps (R156-R160, R181, R182), NOP, YIELD,
SLEEP (R183), and the warp's and the core's own events (R146, R150, R157, R190, R222). -/

namespace Sys2Proof.Machine

open Sys2Proof

/-! ## ALLOC (R178) -/

/-- The bytes one request takes; none: the request is refused and gives NIL. -/
def allocSize (v : Val) : Option Nat :=
  let n := v.pay.toInt
  if v.tag = .int ∧ 1 ≤ n ∧ n ≤ 2 ^ 24 - 16 then some (roundUpTo n.toNat 16) else none

/-- The bytes that requests of earlier lanes take. -/
def allocBelow (x : Warp) (a : Reg) (ls : List Nat) (l : Nat) : Nat :=
  ((ls.filter (fun j => decide (j < l))).map (fun j => (allocSize (readReg x a j)).getD 0)).sum

/-- A nursery register with bits [3:0] cleared. -/
def align16 (w : Word) : Nat := w.toNat / 16 * 16

/-- ALLOC (R178). -/
def execAlloc (h : Hdr) (d a : Reg) (s : State) : Host.Outcome State Fault Refusal :=
  issued (.alloc h d a) h s fun ix s =>
    let x := warpOf s ix.w
    let ls := actLanes ix (.reg d) [a]
    let bad := ls.filterMap (fun l =>
      let v := readReg x a l
      if v.tag = .poison then some ⟨l, .poison, fld v.pay 0 16, ptrVal ix.pc⟩ else none)
    let total := (ls.map (fun l => (allocSize (readReg x a l)).getD 0)).sum
    if bad ≠ [] then .trap bad 0 []
    else if align16 x.nlim < align16 x.nurs + total then .trap (ls.map (fun l => ⟨l, .nursery, 0, natVal total⟩)) 0 []
    else
      let x' := ls.foldl (fun y l =>
        writeReg y d l (match allocSize (readReg x a l) with
          | some _ => ⟨.ref, canonPay .ref (wd (align16 x.nurs + allocBelow x a ls l))⟩
          | none => nilVal)) x
      .ok (setWarp s ix.w { x' with nurs := wd (align16 x.nurs + total) })

/-! ## GETS and SETS (R142, R179, R180) -/

/-- A team's coordinates from its number and the grid's extents (R319): TEAMID = X + GX * (Y + GY * Z). -/
def teamXYZ (gridWord : Word) (id : Nat) : Nat × Nat × Nat :=
  let gx := max 1 (fld gridWord 0 16)
  let gy := max 1 (fld gridWord 16 16)
  (id % gx, id / gx % gy, id / (gx * gy))

/-- A warp special register (R142, R179). -/
def readSpecial (s : State) (w : Nat) (sp : WSpec) : Val :=
  let x := warpOf s w
  let t := teamOf s x.team
  let xyz := teamXYZ (((gridOf s t.grid).words[2]?).getD 0) t.teamId
  match sp with
  | .wid => natVal x.wid
  | .teamid => natVal t.teamId
  | .teamx => natVal xyz.1
  | .teamy => natVal xyz.2.1
  | .teamz => natVal xyz.2.2
  | .core => natVal (coreInDie x.core)
  | .cluster => natVal (coreInDie x.core / 4)
  | .die => natVal (coreDie x.core)
  | .chip => natVal (coreChip x.core)
  | .part => natVal (t.part % 16)
  | .nurs => ptrVal x.nurs
  | .nlim => ptrVal x.nlim
  | .tvec => ptrVal x.tvec
  | .trapv => ptrVal x.trapv
  | .cause => ⟨.int, x.cause⟩
  | .eaddr => x.eaddr
  | .status => ⟨.int, x.status⟩
  | .cyc => natVal (coreOf s x.core).cyc
  | .role => natVal x.role
  | .nwarp => natVal t.nwarps

/-- GETS (R179): CYC is the count at the cycle of its issue, before its own beats and STALL. -/
def execGets (h : Hdr) (sp : WSpec) (d : Reg) (s : State) : Host.Outcome State Fault Refusal :=
  issued (.gets h sp d) h s fun ix t => laneOp ix t (.reg d) [] fun _ => .val (readSpecial s ix.w sp)

/-- The causes of a SETS (R142, R143, R180): ILL for a tag or a fairness count, POISON, PRIV. -/
def setsCauses (x : Warp) (sp : WSpec) (v : Val) : List Cause :=
  let privileged : Bool := match sp with
    | .nurs | .nlim | .tvec | .trapv => !rtOn x && !super x
    | .status => decide (v.tag = .int) && !super x && decide (fld v.pay 1 2 ≠ fld x.status 1 2)
    | _ => false
  let tagOk : Bool := match sp with
    | .cause | .status => decide (v.tag = .int)
    | _ => decide (v.tag = .ptr ∨ v.tag = .int)
  (if v.tag = .poison then [.poison] else if !tagOk then [.ill] else []) ++
  (if sp = .status ∧ v.tag = .int ∧ fld v.pay 8 5 = 0 then [.ill] else []) ++
  (if privileged then [.priv] else [])

/-- STATUS after a write: F, SUPER, RT and CHK; TIP and reserved bits keep their values (R143). -/
def statusWrite (old v : Word) : Word :=
  wd (fld v 0 3 + fld old 3 1 * 8 + fld v 8 5 * 256)

/-- The warp after a SETS. -/
def writeSpecial (x : Warp) (sp : WSpec) (v : Val) : Warp :=
  match sp with
  | .nurs => { x with nurs := v.pay }
  | .nlim => { x with nlim := v.pay }
  | .tvec => { x with tvec := vecBase v.pay }
  | .trapv => { x with trapv := vecBase v.pay }
  | .cause => { x with cause := wd (fld v.pay 0 32) }
  | .eaddr => { x with eaddr := v }
  | .status => { x with status := statusWrite x.status v.pay }
  | _ => x

/-- SETS (R180): the value of the lowest executing lane. -/
def execSets (h : Hdr) (sp : WSpec) (a : Reg) (s : State) : Host.Outcome State Fault Refusal :=
  issued (.sets h sp a) h s fun ix s =>
    let x := warpOf s ix.w
    let v := readReg x a ix.low
    let cs := setsCauses x sp v
    if cs ≠ [] then .trap (cs.map (fun c => ⟨ix.low, c, if c = .poison then fld v.pay 0 16 else 0, ptrVal ix.pc⟩)) 0 []
    else .ok (setWarp s ix.w (writeSpecial x sp v))

/-! ## TRAP, BKPT, TRET (R181, R182) -/

/-- TRAP (R181). -/
def execTrap (h : Hdr) (n : BitVec 16) (s : State) : Host.Outcome State Fault Refusal :=
  issued (.trap h n) h s fun ix _ => .trap (ix.exe.map (fun l => faultAt ix l .trap)) n.toNat ix.exe

/-- BKPT (R181). -/
def execBkpt (h : Hdr) (n : BitVec 16) (s : State) : Host.Outcome State Fault Refusal :=
  issued (.bkpt h n) h s fun ix _ => .trap (ix.exe.map (fun l => faultAt ix l .bkpt)) n.toNat ix.exe

/-- TRET (R182, R160). -/
def execTret (h : Hdr) (s : State) : Host.Outcome State Fault Refusal :=
  issued (.tret h) h s fun ix s =>
    if tip (warpOf s ix.w) then .ok (updWarp s ix.w tretWarp) else trapOnce ix .ill

/-! ## NOP, YIELD, SLEEP (R183) -/

/-- NOP (R183). -/
def execNop (h : Hdr) (s : State) : Host.Outcome State Fault Refusal := issued (.nop h) h s fun _ s => .ok s

/-- YIELD (R183). -/
def execYield (h : Hdr) (s : State) : Host.Outcome State Fault Refusal :=
  issued (.yield h) h s fun ix s => .ok (updWarp s ix.w (fun x => { x with wait := .yield }))

/-- SLEEP (R183): 16 n cycles from the cycle of its issue; SLEEP 0 acts as YIELD. -/
def execSleep (h : Hdr) (n : BitVec 16) (s : State) : Host.Outcome State Fault Refusal :=
  issued (.sleep h n) h s fun ix t =>
    .ok (updWarp t ix.w (fun x =>
      { x with wait := if n = 0 then .yield else .sleep ((coreOf s x.core).cyc + 16 * n.toNat) ix.pc ix.grp }))

/-! ## Events of the warp and the core -/

/-- SLEEP_EXPIRY: the sleep's cycles have passed (R183). -/
def execSleepExpiry (w : Nat) (s : State) : Host.Outcome State Fault Refusal :=
  .next (match (warpOf s w).wait with
    | .sleep t _ _ => if t ≤ (coreOf s (warpOf s w).core).cyc then updWarp s w (fun x => { x with wait := .none }) else s
    | _ => s)

/-- TRAP_ENTRY: the warp's older loads have returned, and the trap is taken (R157). -/
def execTrapEntry (w : Nat) (s : State) : Host.Outcome State Fault Refusal :=
  .next (match (warpOf s w).pendTrap with
    | some t => if outstanding s w then s else enterTrap s w t
    | none => s)

/-- RUN_SELECT (R146, R148). -/
def execRunSelect (core part : Nat) (s : State) : Host.Outcome State Fault Refusal := .next (selectRun s core part)

/-- INSTRUCTION_FILL (R190). -/
def execInstructionFill (core line : Nat) (s : State) : Host.Outcome State Fault Refusal := .next (fillLine s core line)

/-- TRANSLATION_WALK_DONE (R222). -/
def execTranslationWalkDone (w : Nat) (s : State) : Host.Outcome State Fault Refusal := .next (walkDone s w)

end Sys2Proof.Machine
end

