-- ==== Sys2Proof/Machine/Atomic.lean ====
section
/-! DEFINITION. Atomics (R231, R255-R265, R270): ATOM, VATOM, HCAS, the atomic service warps and their replies. -/

namespace Sys2Proof.Machine

open Sys2Proof

/-! ## What is done to a word at its home (R259, R231, R325) -/

/-- What an action makes of a word: the word to write, if any, and the reply. -/
structure WordAct where
  write : Option Val
  mask : BitVec 8
  reply : Val
deriving DecidableEq, Repr

/-- No write, and a reply. -/
def leave (v : Val) : WordAct := ⟨none, 0xFF, v⟩

/-- The integer operations on payloads. -/
def atomInt (op : AOp) (x y : Word) : Word :=
  match op with
  | .add => x + y
  | .min => wdInt (min x.toInt y.toInt)
  | .max => wdInt (max x.toInt y.toInt)
  | .and => x &&& y
  | .or => x ||| y
  | .xor => x ^^^ y
  | _ => x

/-- The float format of an FADD: FADD.F64, else FADD.F32. -/
def faddFmt (op : AOp) : FFmt := if op = .fadd64 then fF64 else fF32
def faddTag (op : AOp) : Tag := if op = .fadd64 then .f64 else .f32

/-- Old value plus B, each rounded RN in the format (R259). -/
def faddBits (op : AOp) (old : Nat) (b : Val) : Nat :=
  let f := faddFmt op
  f.enc .rn (sumNum [f.dec old, f.dec (f.enc .rn ((valNum b).getD .nan))])

/-- An ATOM's action on a word (R259, R390). -/
def atomWord (op : AOp) (tagged : Bool) (w : WV) (b c : Val) : WordAct :=
  let isFadd := decide (op = .fadd ∨ op = .fadd64)
  if w.bad || (tagged && decide (w.tag = .pend)) then
    { leave (poisonVal 0x40) with write := if op = .swap then some b else none }
  else if tagged then
    let old : Val := ⟨w.tag, canonPay w.tag w.data⟩
    if w.tag = .fwd then leave (poisonVal 0x23)
    else if op = .swap then ⟨some b, 0xFF, old⟩
    else if op = .cas then ⟨if old.tag = c.tag ∧ old.pay = c.pay then some b else none, 0xFF, old⟩
    else if isFadd then
      if w.tag ≠ faddTag op ∧ w.tag ≠ .nil then leave (poisonVal 0x23)
      else ⟨some ⟨faddTag op, wd (faddBits op old.pay.toNat b)⟩, 0xFF, old⟩
    else if w.tag ≠ .int ∧ w.tag ≠ .nil then leave (poisonVal 0x23)
    else ⟨some ⟨.int, atomInt op old.pay b.pay⟩, 0xFF, old⟩
  else
    let old : Val := ⟨.int, w.data⟩
    match op with
    | .swap => ⟨some b, 0xFF, old⟩
    | .cas => ⟨if w.data = c.pay then some b else none, 0xFF, old⟩
    | .fadd64 => ⟨some ⟨.f64, wd (faddBits op w.data.toNat b)⟩, 0xFF, ⟨.f64, w.data⟩⟩
    | .fadd => ⟨some ⟨.f32, wd (faddBits op (fld w.data 0 32) b)⟩, 0x0F, ⟨.f32, wd (fld w.data 0 32)⟩⟩
    | _ => ⟨some ⟨.int, atomInt op w.data b.pay⟩, 0xFF, old⟩

/-- HCAS's action (R231): a FWD word is compared and reported as REF; a REF C is written as FWD. -/
def hcasWord (w : WV) (b c : Val) : WordAct :=
  if w.bad || decide (w.tag = .pend) then leave (poisonVal 0x40)
  else
    let cur : Val := ⟨if w.tag = .fwd then .ref else w.tag, canonPay w.tag w.data⟩
    let new : Val := if c.tag = .ref then ⟨.fwd, c.pay⟩ else c
    ⟨if cur.tag = b.tag ∧ cur.pay = b.pay then some new else none, 0xFF, cur⟩

/-- SIGNAL's action (R325): none when the old word's tag refuses it. -/
def signalWord (op : SigOp) (tagged : Bool) (w : WV) (b : Word) : WordAct :=
  if w.bad ∨ (tagged ∧ w.tag ≠ .int ∧ w.tag ≠ .nil) then leave nilVal
  else
    let x := if tagged && decide (w.tag = .nil) then 0 else w.data
    ⟨some ⟨.int, match op with
      | .set => b
      | .add => x + b
      | .or => x ||| b⟩, 0xFF, nilVal⟩

/-- A PCI Express AtomicOp's action (R360): the operations of FetchAdd, Swap and CAS on a word. -/
def pcieOp : PcieAtomic → AOp
  | .fetchAdd => .add
  | .swap => .swap
  | .cas => .cas

/-- Perform an action on the word at pa, at its home (R255). -/
def actAt (s : State) (pa : Nat) (tagged : Bool) (f : WV → WordAct) : State × Val :=
  let (s, w) := homeRead s (pa / 8)
  let a := f w
  match a.write with
  | some v => (homeWrite s (pa / 8) v.pay a.mask (if tagged then some v.tag else none) false none, a.reply)
  | none => (s, a.reply)

/-! ## VATOM's elements (R263, R264) -/

/-- The tag of B and D for an element format. -/
def vatomTag : TFmt → Tag
  | .i8 => .pk8
  | .i16 | .bf16 | .f16 => .pk16
  | _ => .int

/-- Every element of a lane's eight bytes. -/
def vatomNew (op : AOp) (f : TFmt) (old b : Word) : Word :=
  let w := tfmtBits f
  wd (packList w ((List.range (64 / w)).map (fun i => elementOp op f (fld old (i * w) w) (fld b (i * w) w) 0)))

/-- One lane of a VATOM block at its home. -/
def vatomAt (s : State) (op : AOp) (f : TFmt) (pa : Nat) (b : Word) : State × Val :=
  actAt s pa false (fun w =>
    if w.bad then leave (poisonVal 0x40) else ⟨some ⟨.int, vatomNew op f w.data b⟩, 0xFF, ⟨vatomTag f, w.data⟩⟩)

/-! ## The service warp performs a request (R255, R256) -/

/-- Write values into the destinations of a request that wait for them. -/
def setReply (s : State) (c slot : Nat) (vals : List Val) : State :=
  updCore s c (fun x =>
    match spGet none x.reqs slot with
    | some r => { x with reqs := spSet none x.reqs slot (some { r with outs := (r.outs.zip vals).map (fun e => (e.1.1, some (e.1.2.getD e.2))) }) }
    | none => x)

/-- A request is answered: its lanes' values are known, and the entry of a SIGNAL, to which no reply is due, is free (R255, R325). -/
def answerReq (s : State) (r : AswReq) (vals : List Val) : State :=
  if r.slot = 0 then s
  else match r.op with
    | .signal .. => endReq s r.core r.slot []
    | _ => setReply s r.core r.slot vals

/-- Tell waiting warps that a word was written at its home (R326). -/
def wakeWord (s : State) (pa : Nat) : State :=
  { s with warps := spMap Warp.none (fun _ x =>
      match x.wait with
      | .word a .. => if a / 8 = pa / 8 then { x with wait := .none } else x
      | _ => x) s.warps }

/-- The warps that wait for queued requests to their words look again (Wait.home). -/
def wakeHome (s : State) : State :=
  { s with warps := spMap Warp.none (fun _ x => if x.wait = .home then { x with wait := .none } else x) s.warps }

/-- The effect of one request at its home, and the replies of its lanes. -/
def performOp (s : State) (r : AswReq) : State × List Val :=
  match r.op with
  | .atom op ls =>
    ls.foldl (fun a e =>
      let q := actAt a.1 r.pa r.tagged (fun w => atomWord op r.tagged w e.2.1 e.2.2)
      (q.1, a.2 ++ [q.2])) (s, [])
  | .vatom op f ls =>
    ls.foldl (fun a e =>
      let q := vatomAt a.1 op f e.2.1 e.2.2
      (q.1, a.2 ++ [q.2])) (s, [])
  | .hcas _ va b c =>
    let q := actAt s r.pa r.tagged (fun w => hcasWord w b c)
    let w := homePeek s (r.pa / 8)
    (keepHeader q.1 r.core va (r.pa / 8) ((hcasWord w b c).write.getD ⟨w.tag, canonPay w.tag w.data⟩), [q.2])
  | .signal op b =>
    let q := actAt s r.pa r.tagged (fun w => signalWord op r.tagged w b)
    let w := homePeek s (r.pa / 8)
    (if r.tagged ∧ w.tag ≠ .int ∧ w.tag ≠ .nil then tellSvc q.1 (l1Part q.1 r.core) (.signalTag r.pa) else q.1, [])
  | .pcie op b c =>
    let q := actAt s r.pa r.tagged (fun w => atomWord (pcieOp op) r.tagged w ⟨.int, b⟩ ⟨.int, c⟩)
    ({ q.1 with answers := q.1.answers ++ [.value q.2] }, [])
  | .peer op b c =>
    let q := actAt s r.pa r.tagged (fun w => atomWord op r.tagged w b c)
    ({ q.1 with answers := q.1.answers ++ [.value q.2] }, [])

/-- Drop the clean bytes of a line in a core's L1, and the header words of the line that it keeps and that are not final: what another
warp has brought in since an atomic left is older than it, and the warp's later loads observe the atomic (R223, R297). DEDUCED (log
entry 121). -/
def l1DropLine (s : State) (c line : Nat) : State :=
  (lineWords line).foldl (fun s k => dropHeaderAt (if l1Of s c k = CWord.none then s else l1DropClean s c k) c k) s

/-- A request is taken from the queue and performed: promotion for RACQ first (R302), then the action, then the acquire its
read half is (R260), the reply, and the warps that waited for it. -/
def performReq (s : State) (r : AswReq) : State :=
  let s := match r.acq with
    | some sc => if r.racq then racqAt s r.core (r.pa / 256) sc else s
    | none => s
  let q := performOp (l1DropLine s r.core (r.pa / 256)) r
  let s := q.1
  let s := answerReq s r q.2
  let s := match r.acq with
    | some sc => acquire s r.core sc
    | none => s
  wakeHome (wakeWord (wakeDrained s r.warp) r.pa)

/-- The source that the round-robin serves next: the least above the one served last, else the least (R256). DEDUCED (log entry 122): a
source is the core that sent the request. -/
def nextSource (x : Asw) : Option Nat :=
  let least := fun (l : List Nat) => l.foldl (fun (m : Option Nat) a => match m with
    | none => some a
    | some b => some (min a b)) none
  let cs := x.waiting.map (·.core)
  match least (cs.filter (fun c => decide (x.lastSrc < c))) with
  | some c => some c
  | none => least cs

/-- A free place in the queue goes to the oldest waiting request of the source whose turn it is (R256). -/
def aswRefill (x : Asw) : Asw :=
  if 256 ≤ x.queue.length then x
  else match nextSource x with
    | none => x
    | some c =>
      (match x.waiting.find? (fun r => decide (r.core = c)) with
       | some r => { x with queue := x.queue ++ [r], waiting := x.waiting.eraseP (fun r => decide (r.core = c)), lastSrc := c }
       | none => x)

/-- ASW_REQUEST: the service warp of a cluster performs the request at the head of its queue (R255). -/
def execAswRequest (cluster : Nat) (s : State) : Host.Outcome State Fault Refusal :=
  .next (let x := aswRefill (aswOf s cluster)
    match x.queue with
    | r :: q => if x.halted then s else performReq (setAsw s cluster (aswRefill { x with queue := q })) r
    | [] => s)

/-! ## Requests of an instruction (R258-R262) -/

/-- Enter a request in its home's queue of 256 entries, or among those that wait for room in it (R252, R256). -/
def enqueue (x : Asw) (r : AswReq) : Asw :=
  if x.queue.length < 256 ∧ x.waiting = [] then { x with queue := x.queue ++ [r] } else { x with waiting := x.waiting ++ [r] }

/-- Send a request to its home. -/
def sendReq (s : State) (p : Nat) (r : AswReq) : State :=
  let g := homeCluster s (ownerPart s p r.pa) r.pa
  setAsw s g (enqueue (aswOf s g) r)

/-- The acquire half that a request carries. -/
def acqHalf (o : Ord4) (sc : Scope) : Option Scope := if hasAcq o then some sc else none

/-- The scope at which the write half of an atomic is a release: its own, and an earlier release fence's (R260, R299). -/
def reqScope (x : Warp) (o : Ord4) (sc : Scope) : Option Scope := relScope x (if hasRel o then some sc else none)

/-- The work of the core before requests leave (R260): the release half, then the lines written back and dropped. -/
def beforeReqs (s : State) (ix : Ix) (o : Ord4) (sc : Scope) (as : List Acc) : State :=
  let c := (warpOf s ix.w).core
  let rel := reqScope (warpOf s ix.w) o sc
  as.foldl (fun s a => noteRelease (dropHeader (l1Evict s c (a.pa / 256)) c a.va) c rel a.pa) (releaseFor s c rel)

/-- Whether a request may bring a REF that the read barrier sees (R216, R259): a SWAP or CAS of a tagged word. An HCAS's value does not
pass it (R231). -/
def AswOp.barred (tagged : Bool) : AswOp → Bool
  | .atom op _ => tagged && decide (op = .swap ∨ op = .cas)
  | _ => false

/-- One request on its way: an entry in the core's table, and a place in the home's queue; a home that does not answer
gives POISON 0x0021 (R222, R270). -/
def postReq (s : State) (ix : Ix) (a : Acc) (op : AswOp) (ds : List Dst) (o : Ord4) (sc : Scope) (racq : Bool) : State :=
  let c := (warpOf s ix.w).core
  let p := warpPart s ix.w
  let alive := served s p (a.pa / 8) a.leaf.t
  let e := addReq s c { warp := ix.w, outs := ds.map (fun d => (d, if alive then none else some (poisonVal 0x21))), atomic := true,
                        pa := a.pa, bar := alive && op.barred a.leaf.t }
  if alive then
    sendReq e.1 p { core := c, slot := e.2, warp := ix.w, pa := a.pa, tagged := a.leaf.t, op := op, acq := acqHalf o sc,
                    racq := racq }
  else tellDropped e.1 p (a.pa / 8 * 8)

/-- The host performs an AtomicOp on its memory (R265), or aborts it; a host that is lost answers POISON 0x0021 (R270). An acquire with
RACQ promotes the releaser of the line first (R260, R302). -/
def hostPerform (s : State) (ix : Ix) (op : AOp) (o : Ord4) (sc : Scope) (racq : Bool) (a : Acc) (b c : Val) : State × Val :=
  let core := (warpOf s ix.w).core
  let s := if racq && hasAcq o then racqAt s core (a.pa / 256) sc else s
  if Config.hostAtomics (paChip a.pa) ∧ homeAnswers s (coreChip core) a.pa then
    let s := l2Evict s (a.pa / 256)
    let x := atomWord op false (rawRead s (a.pa / 8)) b c
    let s := match x.write with
      | some v => clearResv (rawWrite s (a.pa / 8) v.pay 0xFF none false) (a.pa / 8) none
      | none => s
    (wakeWord s a.pa, x.reply)
  else (s, poisonVal 0x21)

/-- A known value on its way to a lane of an ATOM (R257). -/
def sendAtom (s : State) (ix : Ix) (d : Reg) (a : Acc) (v : Val) : State :=
  (addReq s (warpOf s ix.w).core { warp := ix.w, outs := [(dstOf d a.lane, some v)], atomic := true, pa := a.pa, bar := false }).1

/-- The acquire half of an atomic of the warp that has been performed (R260). -/
def acquireHalf (s : State) (w : Nat) (o : Ord4) (sc : Scope) : State :=
  match acqHalf o sc with
  | some sc => acquire s (warpOf s w).core sc
  | none => s

/-- An atomic that the host performs at issue (R265). -/
def hostAtom (s : State) (ix : Ix) (op : AOp) (d : Reg) (o : Ord4) (sc : Scope) (racq : Bool) (a : Acc) (b c : Val) : State :=
  let q := hostPerform s ix op o sc racq a b c
  acquireHalf (sendAtom q.1 ix d a q.2) ix.w o sc

/-- After its requests have left, the warp waits where its acquire half must come before its next instruction (R260). -/
def afterReqs (s : State) (w : Nat) (o : Ord4) : State :=
  if hasAcq o && warpUndrained s w then updWarp s w (fun x => { x with wait := .acquire }) else s

/-- An earlier append of the warp to one of the lines is still to be performed (R223); earlier atomics keep their order in
the home's queue. -/
def appendBusy (s : State) (w : Nat) (as : List Acc) : Bool :=
  decide (s.appends ≠ []) && as.any (fun a => lineBusy { s with asws := [] } w (a.pa / 256))

/-- What the requests of an instruction wait for: earlier appends to their lines (R223), reads that the warp's engine operations have
still to make (R304), and, where they are releases, everything earlier (R300). -/
def reqBusy (s : State) (ix : Ix) (rel : Bool) (as : List Acc) : Bool :=
  (rel && warpUndrained s ix.w) || readsPending s ix.w || appendBusy s ix.w as

/-- The end that ATOM, VATOM and HCAS share: what must be waited for, then the requests. -/
def reqOp (ix : Ix) (p : Plans) (o : Ord4) (sc : Scope) (n : Nat) (send : State → State) : Res :=
  if !p.clear then finishCalls p.s ix p.calls p.faults p.misses id
  else if reqBusy p.s ix (reqScope (warpOf p.s ix.w) o sc).isSome p.accs then .wait .drain p.s
  else if reqRoom p.s (warpOf p.s ix.w).core < n then .wait .requests p.s
  else
    finishCalls p.s ix p.calls [] [] (fun s =>
      if p.accs = [] then s else afterReqs (send (beforeReqs s ix o sc p.accs)) ix.w o)

/-! ## ATOM (R258, R259, R261) -/

/-- Operations whose lanes to one word combine. -/
def combines (op : AOp) : Bool := decide (op = .add ∨ op = .fadd ∨ op = .fadd64)

/-- An address in a chip's host memory. -/
def isHost (pa : Nat) : Bool := decide (2 ^ 52 ≤ pa)

/-- The causes of an operand of ATOM in a region (R259, R79). -/
def atomArg (ix : Ix) (op : AOp) (a : Acc) (v : Val) : List LFault :=
  let bad := [(⟨a.lane, .tagmem, 0, ptrVal (wd a.va)⟩ : LFault)]
  let moves := decide (op = .swap ∨ op = .cas)
  if v.tag = .poison then (if moves && a.leaf.t then [] else [⟨a.lane, .poison, fld v.pay 0 16, ptrVal ix.pc⟩])
  else if moves then (if !a.leaf.t && decide (v.tag = .ref ∨ v.tag = .tile) then bad else [])
  else if op = .fadd ∨ op = .fadd64 then (if (valNum v).isNone then bad else [])
  else if v.tag ≠ .int then bad else []

/-- The causes an ATOM's access has: a device window, and a host operation that PCI Express does not have (R265). -/
def atomPlace (s : State) (op : AOp) (a : Acc) : List LFault :=
  if isMmio s a.pa || (isHost a.pa && decide (op ≠ .add ∧ op ≠ .swap ∧ op ≠ .cas)) then
    [⟨a.lane, .prot, 0, ptrVal (wd a.va)⟩]
  else []

/-- The groups of accesses that form one request each, in ascending lane order (R261): same key, or each alone. -/
def reqGroups (combine : Bool) (key : Acc → Nat) (as : List Acc) : List (List Acc) :=
  if combine then ((as.map key).eraseDups).map (fun k => as.filter (fun a => decide (key a = k)))
  else as.map (fun a => [a])

/-! ## SWAP and CAS under the read barrier (R97, R216, R259)

While a region of the core's table evacuates, a REF that a SWAP or CAS of a tagged word returns may call a handler, and every cause of
that call is the instruction's own: it takes effect in no lane (R95, R97). So the whole instruction is performed with its issue, once no
queued request to its words stands before it. DESIGN CHOICE (log entry 64). -/

/-- Whether a region of a core's table evacuates. -/
def evacuates (k : Core) : Bool := k.rgn.any (fun e => bitAt e.2 63)

/-- A request to the word of an access waits in a queue, or its home's service warp takes none (R255, R270). -/
def homeBusy (s : State) (p : Nat) (a : Acc) : Bool :=
  s.asws.any (fun e => e.2.all.any (fun r => decide (r.pa / 8 = a.pa / 8))) ||
    (aswOf s (homeCluster s (ownerPart s p a.pa) a.pa)).halted

/-- One lane's SWAP or CAS performed at its home, and what the barrier makes of the word that it returns. -/
def swapLane (s : State) (ix : Ix) (o : OpAtom) (a : Acc) : State × Ld1 :=
  let x := warpOf s ix.w
  let p := warpPart s ix.w
  let b := readReg x o.b a.lane
  let c := readReg x o.c a.lane
  if isHost a.pa then
    let q := hostPerform s ix o.op o.ord o.scope o.racq a b c
    (q.1, .val q.2 none)
  else if !served s p (a.pa / 8) a.leaf.t then (tellDropped s p (a.pa / 8 * 8), .val (poisonVal 0x21) none)
  else
    let s := if o.racq && hasAcq o.ord then racqAt s x.core (a.pa / 256) o.scope else s
    let q := actAt s a.pa a.leaf.t (fun w => atomWord o.op a.leaf.t w b c)
    let s := wakeWord q.1 a.pa
    match barrier s ix.w q.2 with
    | .ok s v => (s, .val v (if v = q.2 then none else some q.2))
    | .call s h =>
      (s, .call (barrierCall a.lane q.2 h (destKind (.reg o.d)).1 (destKind (.reg o.d)).2 ix.next))
    | .miss n => (s, .miss n)
    | .fault s k => (s, .fault ⟨a.lane, k, 0, ptrVal q.2.pay⟩)

/-- The lanes of the instruction in ascending order. -/
def swapAll (s : State) (ix : Ix) (o : OpAtom) (as : List Acc) : Loads :=
  as.foldl (fun p a =>
    let r := swapLane p.s ix o a
    match r.2 with
    | .val v old => { p with s := r.1, vals := p.vals ++ [(a, v, old)] }
    | .call q => { p with s := r.1, calls := p.calls ++ [q] }
    | .miss n => { p with s := r.1, misses := p.misses ++ [n] }
    | .fault f => { p with s := r.1, faults := p.faults ++ [f] }) ⟨s, [], [], [], []⟩

/-- Once every lane has its value or its call: heals, values on their way, and the acquire half (R216, R257, R260). -/
def finishSwap (s : State) (ix : Ix) (o : OpAtom) (vs : List (Acc × Val × Option Val)) : State :=
  let s := vs.foldl (fun s e =>
    match e.2.2 with
    | some old => heal s (warpOf s ix.w).core (e.1.pa / 8) old e.2.1
    | none => s) s
  acquireHalf (vs.foldl (fun s e => sendAtom s ix o.d e.1 e.2.1) s) ix.w o.ord o.scope

/-- The whole instruction; where a walk is owed, nothing has been performed. -/
def swapWhole (ix : Ix) (p : Plans) (o : OpAtom) : Res :=
  if !p.clear then finishCalls p.s ix p.calls p.faults p.misses id
  else if reqBusy p.s ix (reqScope (warpOf p.s ix.w) o.ord o.scope).isSome p.accs || mustDrain p.s ix.w p.accs then .wait .drain p.s
  else if p.accs.any (homeBusy p.s (warpPart p.s ix.w)) then .wait .home p.s
  else if reqRoom p.s (warpOf p.s ix.w).core < p.accs.length then .wait .requests p.s
  else
    let r := swapAll (beforeReqs p.s ix o.ord o.scope p.accs) ix o p.accs
    match finishCalls r.s ix (p.calls ++ r.calls) r.faults r.misses (fun s => finishSwap s ix o r.vals) with
    | .wait k _ => .wait k p.s
    | r => r

/-- ATOM (R258-R262, R265). -/
def execAtom (h : Hdr) (o : OpAtom) (s : State) : Host.Outcome State Fault Refusal :=
  issued (.atom h o) h s fun ix s =>
    let x := warpOf s ix.w
    let srcs := if o.op = .cas then [o.a, o.b, o.c] else [o.a, o.b]
    let p := planMem s ix (actLanes ix (.reg o.d) srcs) o.a .nil 0 8 8 [.w] true
    let p := p.check (fun a => atomPlace s o.op a ++ atomArg ix o.op a (readReg x o.b a.lane) ++
      (if o.op = .cas then atomArg ix o.op a (readReg x o.c a.lane) else []))
    let gs := reqGroups (combines o.op) (fun a => a.pa / 8) p.accs
    if decide (o.op = .swap ∨ o.op = .cas) && p.accs.any (fun a => a.leaf.t) && evacuates (coreOf s x.core) then swapWhole ix p o
    else reqOp ix p o.ord o.scope p.accs.length (fun s =>
      gs.foldl (fun s g =>
        match g with
        | [] => s
        | a :: _ =>
          if isHost a.pa then
            g.foldl (fun s a => hostAtom s ix o.op o.d o.ord o.scope o.racq a (readReg x o.b a.lane) (readReg x o.c a.lane)) s
          else
            postReq s ix a (.atom o.op (g.map (fun a => (dstOf o.d a.lane, readReg x o.b a.lane, readReg x o.c a.lane))))
              (g.map (fun a => dstOf o.d a.lane)) o.ord o.scope o.racq) s)

/-! ## VATOM (R263, R264) -/

/-- The causes of a VATOM's access and operand. -/
def vatomFaults (ix : Ix) (s : State) (f : TFmt) (a : Acc) (b : Val) : List LFault :=
  (if isMmio s a.pa || isHost a.pa then [⟨a.lane, .prot, 0, ptrVal (wd a.va)⟩] else []) ++
  (if b.tag = .poison then [⟨a.lane, .poison, fld b.pay 0 16, ptrVal ix.pc⟩]
   else if b.tag ≠ vatomTag f then [⟨a.lane, .tagmem, 0, ptrVal (wd a.va)⟩] else []) ++
  (if a.leaf.t then [⟨a.lane, .tagmem, 0, ptrVal (wd a.va)⟩] else [])

/-- VATOM (R263, R264). -/
def execVatom (h : Hdr) (op : AOp) (ef : TFmt) (d a b : Reg) (ord : Ord4) (scope : Scope) (s : State) :
    Host.Outcome State Fault Refusal :=
  issued (.vatom h op ef d a b ord scope) h s fun ix s =>
    let x := warpOf s ix.w
    let p := planMem s ix (actLanes ix (.reg d) [a, b]) a .nil 0 8 8 [.w] true
    let p := p.check (fun q => vatomFaults ix s ef q (readReg x b q.lane))
    let gs := reqGroups true (fun q => q.pa / 32) p.accs
    reqOp ix p ord scope p.accs.length (fun s =>
      gs.foldl (fun s g =>
        match g with
        | [] => s
        | q :: _ =>
          postReq s ix q (.vatom op ef (g.map (fun q => (dstOf d q.lane, q.pa, (readReg x b q.lane).pay))))
            (g.map (fun q => dstOf d q.lane)) ord scope false) s)

/-! ## HCAS (R231) -/

/-- The causes of HCAS beside its address. -/
def hcasFaults (s : State) (x : Warp) (ix : Ix) (a : Acc) (c : Val) : List LFault :=
  kindFaults s true 8 a ++
  (if c.tag ≠ .int ∧ c.tag ≠ .ref then [⟨a.lane, .tagmem, 0, ptrVal (wd a.va)⟩] else []) ++
  (if isMmio s a.pa then [⟨a.lane, .prot, 0, ptrVal (wd a.va)⟩] else []) ++
  (if c.tag = .ref ∧ !rtOn x then [faultAt ix a.lane .priv] else [])

/-- HCAS (R231). -/
def execHcas (h : Hdr) (o : OpX4) (ord : Ord4) (scope : Scope) (racq : Bool) (s : State) : Host.Outcome State Fault Refusal :=
  issued (.hcas h o ord scope racq) h s fun ix s =>
    let x := warpOf s ix.w
    let p := planMem s ix (actLanes ix (.reg o.d) [o.a, o.b, o.c]) o.a .nil 0 8 16 [.w] false
    let p := p.check (fun a => hcasFaults s x ix a (readReg x o.c a.lane))
    reqOp ix p ord scope p.accs.length (fun s =>
      p.accs.foldl (fun s a =>
        postReq s ix a (.hcas (dstOf o.d a.lane) a.va (readReg x o.b a.lane) (readReg x o.c a.lane)) [dstOf o.d a.lane] ord
          scope racq) s)

/-! ## Replies (R257) -/

/-- A reply reaches its lanes: the values are written, and a region table write that waited for it comes into force (R215, R257). -/
def deliver (s : State) (core slot : Nat) (vs : List (Dst × Val)) : State := tableBoundary (endReq s core slot vs) core

/-- ATOMIC_REPLY: the reply of a performed request reaches its lanes (R257). -/
def execAtomicReply (core slot : Nat) (s : State) : Host.Outcome State Fault Refusal :=
  .next (match spGet none (coreOf s core).reqs slot with
    | some r =>
      if !r.atomic || decide (r.outs = []) then s
      else
        match reqVals r with
        | some vs => deliver s core slot vs
        | none => s
    | none => s)

/-! ## Failures of a service warp (R270) -/

/-- The engine stops taking requests, and the partition's service core is told. -/
def aswStop (s : State) (cluster : Nat) : State :=
  let chip := cluster / 80
  let p := ((List.range 16).find? (fun n => (partOf s (chip * 16 + n)).valid && hasCluster (partOf s (chip * 16 + n)) (cluster % 80))).getD 0
  tellSvc (setAsw s cluster { aswOf s cluster with halted := true }) (chip * 16 + p) (.aswStopped cluster)

/-- ASW_STALL_TIMEOUT: no request performed for 2^20 cycles with requests queued (R270). -/
def execAswStallTimeout (cluster : Nat) (s : State) : Host.Outcome State Fault Refusal :=
  .next (if (aswOf s cluster).queue = [] then s else aswStop s cluster)

/-- ASW_FIRMWARE_HALT (R270). -/
def execAswFirmwareHalt (cluster : Nat) (s : State) : Host.Outcome State Fault Refusal := .next (aswStop s cluster)

/-- A request that is lost is answered with POISON 0x0040; one from outside the chip, whose requester holds no register here, with the
same value. -/
def loseReq (s : State) (r : AswReq) : State :=
  let s := match r.op with
    | .pcie .. | .peer .. => { s with answers := s.answers ++ [.value (poisonVal 0x40)] }
    | _ => answerReq s r (List.replicate 64 (poisonVal 0x40))
  let s := match r.acq with
    | some sc => acquire s r.core sc
    | none => s
  wakeHome (wakeDrained s r.warp)

/-- ASW_RESTART: the intact requests stay in their order; every other one is answered, those that have not entered the queue and wait in
their cores' tables too (R270). -/
def execAswRestart (cluster : Nat) (intact : List Bool) (s : State) : Host.Outcome State Fault Refusal :=
  .next (let x := aswOf s cluster
    if !x.halted then s
    else
      let q := x.queue.zip (intact ++ List.replicate x.queue.length false)
      let s := setAsw s cluster { x with queue := (q.filter (fun e => e.2)).map (·.1), waiting := [], halted := false }
      wakeHome (((q.filter (fun e => !e.2)).map (·.1) ++ x.waiting).foldl loseReq s))

end Sys2Proof.Machine
end

