-- ==== Sys2Proof/Machine/Bench.lean ====
section
/-! DEFINITION. Benches (R217, R246, R247). -/

namespace Sys2Proof.Machine

open Sys2Proof

def benchOf (t : Team) (b : Nat) : Bench := spGet Bench.none t.benches b
def setBench (s : State) (team b : Nat) (x : Bench) : State :=
  updTeam s team (fun t => { t with benches := spSet Bench.none t.benches b x })

/-- Complete phases while the arrivals meet the counts: PH flips, arrivals beyond the counts carry over (R217). DESIGN CHOICE (log entry
134): a bench with PCNT = CCNT = 0 would complete phases without end; it completes the number given (64, so that PH ends as it began). -/
def benchPhases (x : Bench) : Nat → Bench
  | 0 => x
  | n + 1 =>
    if x.pcnt ≤ x.parr ∧ x.ccnt ≤ x.carr then
      benchPhases { x with ph := !x.ph, parr := x.parr - x.pcnt, carr := x.carr - x.ccnt } n
    else x

/-- After arrivals or new counts: phases that are complete end, and the warps that wait for the old phase become ready. -/
def benchSettle (s : State) (team b : Nat) : State :=
  let x := benchOf (teamOf s team) b
  if x.pcnt ≤ x.parr ∧ x.ccnt ≤ x.carr then
    let y := benchPhases x 64
    let s := setBench s team b y
    { s with warps := spMap Warp.none (fun _ w =>
        if w.team = team then
          (match w.wait with
           | .bench c => if c = b then { w with wait := .none, wp := spSet false w.wp b (!y.ph) } else w
           | .benchRoom c _ => if c = b then { w with wait := .none } else w
           | _ => w)
        else w) s.warps }
  else s

/-- ILL for a bench beyond the grant, or one that no BNINIT has set up (R217, R246). -/
def benchIll (t : Team) (b : Nat) (needV : Bool) : Bool := decide (t.nbench ≤ b) || (needV && !(benchOf t b).v)

/-- BNINIT (R246, R247). -/
def execBninit (h : Hdr) (bench pcnt ccnt : BitVec 5) (s : State) : Host.Outcome State Fault Refusal :=
  issued (.bninit h bench pcnt ccnt) h s fun ix s =>
    let w := warpOf s ix.w
    let b := bench.toNat
    let t := teamOf s w.team
    if benchIll t b false then trapOnce ix .ill
    else
      let x := benchOf t b
      let x := if x.v then { x with pcnt := pcnt.toNat, ccnt := ccnt.toNat }
        else ⟨true, false, pcnt.toNat, ccnt.toNat, 0, 0⟩
      let s := setBench s w.team b x
      let s := t.warps.foldl (fun s k => updWarp s k (fun y => { y with wp := spSet false y.wp b x.ph })) s
      .ok (benchSettle s w.team b)

/-- Room for one arrival (R247). -/
def benchRoom (x : Bench) (prod : Bool) : Bool := decide ((if prod then x.parr else x.carr) < 32)

/-- One arrival, counted by role (R189). -/
def benchArrive (s : State) (team b : Nat) (prod : Bool) : State :=
  let x := benchOf (teamOf s team) b
  benchSettle (setBench s team b (if prod then { x with parr := x.parr + 1 } else { x with carr := x.carr + 1 })) team b

/-- The arrival of BNA and BNAW: a release at core scope. -/
def arriveOp (ix : Ix) (s : State) (b : Nat) (next : State → Res) : Res :=
  let w := warpOf s ix.w
  let prod := decide (w.role = 1)
  if warpBusy s ix.w then .wait .drain s
  else if !benchRoom (benchOf (teamOf s w.team) b) prod then .wait (.benchRoom b prod) s
  else next (benchArrive s w.team b prod)

/-- The wait of BNW and BNAW: an acquire at core scope. -/
def benchWait (ix : Ix) (s : State) (b : Nat) : Res :=
  let w := warpOf s ix.w
  let x := benchOf (teamOf s w.team) b
  if spGet false w.wp b = x.ph then .wait (.bench b) s
  else
    .ok (updWarp s ix.w (fun w => { w with wp := spSet false w.wp b x.ph, arrived := w.arrived.filter (fun p => decide (p ≠ ix.pc)) }))

/-- BNA (R247). -/
def execBna (h : Hdr) (bench : BitVec 5) (s : State) : Host.Outcome State Fault Refusal :=
  issued (.bna h bench) h s fun ix s =>
    if benchIll (teamOf s (warpOf s ix.w).team) bench.toNat true then trapOnce ix .ill
    else arriveOp ix s bench.toNat .ok

/-- BNW (R247). -/
def execBnw (h : Hdr) (bench : BitVec 5) (s : State) : Host.Outcome State Fault Refusal :=
  issued (.bnw h bench) h s fun ix s =>
    if benchIll (teamOf s (warpOf s ix.w).team) bench.toNat true then trapOnce ix .ill
    else benchWait ix s bench.toNat

/-- BNAW (R247): BNA, then BNW; while it waits, its arrival stands. -/
def execBnaw (h : Hdr) (bench : BitVec 5) (s : State) : Host.Outcome State Fault Refusal :=
  issued (.bnaw h bench) h s fun ix s =>
    let w := warpOf s ix.w
    if benchIll (teamOf s w.team) bench.toNat true then trapOnce ix .ill
    else if w.arrived.contains ix.pc then benchWait ix s bench.toNat
    else
      arriveOp ix s bench.toNat (fun s =>
        benchWait ix (updWarp s ix.w (fun w => { w with arrived := ix.pc :: w.arrived })) bench.toNat)

end Sys2Proof.Machine
end

