-- ==== Sys2Proof/Machine/Bitwise.lean ====
section
/-! DEFINITION. Bitwise operations, shifts and bit fields (R127-R131), wrapping and address arithmetic (R132-R134). -/

namespace Sys2Proof.Machine

open Sys2Proof

/-! ## AND, OR, XOR, NOT and their immediate forms (R127) -/

/-- The result tag of a bitwise pair; none: the pair calls. -/
def bitTag (a b : Tag) : Option Tag :=
  if a = .int ∧ b = .int then some .int
  else if (a = .ptr ∧ b = .int) ∨ (a = .int ∧ b = .ptr) then some .ptr
  else if isPacked a ∧ a = b then some a
  else none

/-- The tags that unary bit operations accept. -/
def bitUnary (t : Tag) : Bool := decide (t = .int) || decide (t = .ptr) || isPacked t

/-- AND, OR or XOR in one lane. -/
def bitwise (f : Word → Word → Word) (a b : Val) : LOut :=
  orPoison [a, b] <|
    match bitTag a.tag b.tag with
    | some t => .val ⟨t, f a.pay b.pay⟩
    | none => ownCall 10 a b nilVal

/-- A V-form bitwise instruction. -/
def bitOp (f : Word → Word → Word) (o : OpBin) (ix : Ix) (s : State) : Res :=
  laneOp ix s (.reg o.d) [o.a, o.b] fun l => bitwise f (opVal s ix o.a o.sa l) (opVal s ix o.b o.sb l)

/-- An I-form bitwise instruction. -/
def bitImm (f : Word → Word → Word) (o : OpImm) (ix : Ix) (s : State) : Res :=
  laneOp ix s (.reg o.d) [o.a] fun l => bitwise f (opVal s ix o.a 0 l) (intVal o.imm.toInt)

/-- AND (R127). -/
def execAnd (h : Hdr) (o : OpBin) (s : State) : Host.Outcome State Fault Refusal :=
  issued (.and h o) h s (bitOp (fun x y => x &&& y) o)
/-- OR (R127). -/
def execOr (h : Hdr) (o : OpBin) (s : State) : Host.Outcome State Fault Refusal :=
  issued (.or h o) h s (bitOp (fun x y => x ||| y) o)
/-- XOR (R127). -/
def execXor (h : Hdr) (o : OpBin) (s : State) : Host.Outcome State Fault Refusal :=
  issued (.xor h o) h s (bitOp (fun x y => x ^^^ y) o)
/-- ANDI (R127). -/
def execAndi (h : Hdr) (o : OpImm) (s : State) : Host.Outcome State Fault Refusal :=
  issued (.andi h o) h s (bitImm (fun x y => x &&& y) o)
/-- ORI (R127). -/
def execOri (h : Hdr) (o : OpImm) (s : State) : Host.Outcome State Fault Refusal :=
  issued (.ori h o) h s (bitImm (fun x y => x ||| y) o)
/-- XORI (R127). -/
def execXori (h : Hdr) (o : OpImm) (s : State) : Host.Outcome State Fault Refusal :=
  issued (.xori h o) h s (bitImm (fun x y => x ^^^ y) o)

/-- A unary bit operation in one lane; f gives the result's tag and payload. -/
def bitUn (f : Val → Val) (a : Val) : LOut :=
  orPoison [a] <| if bitUnary a.tag then .val (f a) else .call 10 (tagCode a.tag) 0 a nilVal nilVal

/-- A unary bit instruction. -/
def bitUnOp (f : Val → Val) (o : OpUn) (ix : Ix) (s : State) : Res :=
  laneOp ix s (.reg o.d) [o.a] fun l => bitUn f (opVal s ix o.a o.sa l)

/-- NOT (R127). -/
def execNot (h : Hdr) (o : OpUn) (s : State) : Host.Outcome State Fault Refusal :=
  issued (.not h o) h s (bitUnOp (fun a => ⟨a.tag, ~~~ a.pay⟩) o)

/-! ## Shifts (R128) -/

/-- Pairs that the shifts and ADDW, SUBW, LEA execute; the result has A's tag. -/
def wrapPair (a b : Tag) : Bool := decide (a = .int ∨ a = .ptr) && decide (b = .int)

/-- A shift in one lane: the count is B's payload modulo 64. -/
def shift (f : Word → Nat → Word) (a b : Val) : LOut :=
  orPoison [a, b] <|
    if wrapPair a.tag b.tag then .val ⟨a.tag, f a.pay (b.pay.toNat % 64)⟩ else ownCall 11 a b nilVal

/-- A V-form shift. -/
def shiftOp (f : Word → Nat → Word) (o : OpBin) (ix : Ix) (s : State) : Res :=
  laneOp ix s (.reg o.d) [o.a, o.b] fun l => shift f (opVal s ix o.a o.sa l) (opVal s ix o.b o.sb l)

/-- SHL (R128). -/
def execShl (h : Hdr) (o : OpBin) (s : State) : Host.Outcome State Fault Refusal :=
  issued (.shl h o) h s (shiftOp (fun x n => x <<< n) o)
/-- SHR (R128). -/
def execShr (h : Hdr) (o : OpBin) (s : State) : Host.Outcome State Fault Refusal :=
  issued (.shr h o) h s (shiftOp (fun x n => x >>> n) o)
/-- SAR (R128). -/
def execSar (h : Hdr) (o : OpBin) (s : State) : Host.Outcome State Fault Refusal :=
  issued (.sar h o) h s (shiftOp (fun x n => x.sshiftRight n) o)
/-- ROL (R128). -/
def execRol (h : Hdr) (o : OpBin) (s : State) : Host.Outcome State Fault Refusal :=
  issued (.rol h o) h s (shiftOp (fun x n => x.rotateLeft n) o)

/-- An I-form shift: the count stands as INT. -/
def shiftImm (f : Word → Nat → Word) (d a : Reg) (n : BitVec 6) (ix : Ix) (s : State) : Res :=
  laneOp ix s (.reg d) [a] fun l => shift f (opVal s ix a 0 l) (natVal n.toNat)

/-- SHLI (R128). -/
def execShli (h : Hdr) (d a : Reg) (n : BitVec 6) (s : State) : Host.Outcome State Fault Refusal :=
  issued (.shli h d a n) h s (shiftImm (fun x k => x <<< k) d a n)
/-- SHRI (R128). -/
def execShri (h : Hdr) (d a : Reg) (n : BitVec 6) (s : State) : Host.Outcome State Fault Refusal :=
  issued (.shri h d a n) h s (shiftImm (fun x k => x >>> k) d a n)

/-! ## POPC, CLZ, CTZ, BREV (R129) -/

/-- Leading zeros of the low n bits. -/
def clzN (x : Nat) : Nat → Nat
  | 0 => 0
  | n + 1 => if x.testBit n then 0 else 1 + clzN x n

/-- Trailing zeros, n bits from bit i up. -/
def ctzN (x i : Nat) : Nat → Nat
  | 0 => 0
  | n + 1 => if x.testBit i then 0 else 1 + ctzN x (i + 1) n

/-- Bit i goes to bit 63 - i. -/
def brev (w : Word) : Word := laneSet ((List.range 64).filter (fun i => bitAt w (63 - i)))

/-- POPC (R129). -/
def execPopc (h : Hdr) (o : OpUn) (s : State) : Host.Outcome State Fault Refusal :=
  issued (.popc h o) h s (bitUnOp (fun a => natVal (popN a.pay.toNat 64)) o)
/-- CLZ (R129). -/
def execClz (h : Hdr) (o : OpUn) (s : State) : Host.Outcome State Fault Refusal :=
  issued (.clz h o) h s (bitUnOp (fun a => natVal (clzN a.pay.toNat 64)) o)
/-- CTZ (R129). -/
def execCtz (h : Hdr) (o : OpUn) (s : State) : Host.Outcome State Fault Refusal :=
  issued (.ctz h o) h s (bitUnOp (fun a => natVal (ctzN a.pay.toNat 0 64)) o)
/-- BREV (R129). -/
def execBrev (h : Hdr) (o : OpUn) (s : State) : Host.Outcome State Fault Refusal :=
  issued (.brev h o) h s (bitUnOp (fun a => ⟨a.tag, brev a.pay⟩) o)

/-! ## BFX and BFI (R130, R131) -/

/-- Position and width of a bit field, from the payloads of B and C. -/
def fieldPos (b : Val) : Nat := b.pay.toNat % 64
def fieldWidth (b c : Val) : Nat := min (c.pay.toNat % 128) (64 - fieldPos b)

/-- BFX in one lane. -/
def bfx (a b c : Val) : LOut :=
  orPoison [a, b, c] <|
    if bitUnary a.tag then .val (natVal (fld a.pay (fieldPos b) (fieldWidth b c)))
    else .call 10 (tagCode a.tag) 0 a b c

/-- BFX (R130). -/
def execBfx (h : Hdr) (o : OpField) (s : State) : Host.Outcome State Fault Refusal :=
  issued (.bfx h o) h s fun ix s =>
    laneOp ix s (.reg o.d) [o.a, o.b, o.c] fun l =>
      bfx (opVal s ix o.a o.sa l) (opVal s ix o.b 0 l) (opVal s ix o.c 0 l)

/-- The payload x with its field at p, w bits wide, taken from the low bits of y. -/
def insertField (x y : Word) (p w : Nat) : Word :=
  wd (x.toNat - fld x p w * 2 ^ p + y.toNat % 2 ^ w * 2 ^ p)

/-- BFI in one lane; d is D's old value. -/
def bfi (a b c d : Val) : LOut :=
  orPoison [a, b, c, d] <|
    if a.tag = .int ∧ bitUnary d.tag then .val ⟨d.tag, insertField d.pay a.pay (fieldPos b) (fieldWidth b c)⟩
    else .call 10 (tagCode a.tag) (tagCode d.tag) a d (natVal (fieldPos b + 256 * fieldWidth b c))

/-- BFI (R131). -/
def execBfi (h : Hdr) (o : OpField) (s : State) : Host.Outcome State Fault Refusal :=
  issued (.bfi h o) h s fun ix s =>
    laneOp ix s (.reg o.d) [o.a, o.b, o.c] fun l =>
      bfi (opVal s ix o.a o.sa l) (opVal s ix o.b 0 l) (opVal s ix o.c 0 l) (opVal s ix o.d 0 l)

/-! ## ADDW, SUBW, MULW, MULH, LEA, PTRD (R132-R134) -/

/-- An instruction that executes some pairs and calls its class for the others. -/
def pairOut (cls : Nat) (ok : Tag → Tag → Bool) (f : Val → Val → Val) (a b : Val) : LOut :=
  orPoison [a, b] <| if ok a.tag b.tag then .val (f a b) else ownCall cls a b nilVal

/-- Such an instruction. -/
def pairOp (cls : Nat) (ok : Tag → Tag → Bool) (f : Val → Val → Val) (o : OpBin) (ix : Ix) (s : State) : Res :=
  laneOp ix s (.reg o.d) [o.a, o.b] fun l => pairOut cls ok f (opVal s ix o.a o.sa l) (opVal s ix o.b o.sb l)

/-- INT with INT. -/
def intPair (a b : Tag) : Bool := decide (a = .int ∧ b = .int)

/-- ADDW (R132). -/
def execAddw (h : Hdr) (o : OpBin) (s : State) : Host.Outcome State Fault Refusal :=
  issued (.addw h o) h s (pairOp 0 wrapPair (fun a b => ⟨a.tag, a.pay + b.pay⟩) o)
/-- SUBW (R132). -/
def execSubw (h : Hdr) (o : OpBin) (s : State) : Host.Outcome State Fault Refusal :=
  issued (.subw h o) h s (pairOp 1 wrapPair (fun a b => ⟨a.tag, a.pay - b.pay⟩) o)
/-- MULW (R132). -/
def execMulw (h : Hdr) (o : OpBin) (s : State) : Host.Outcome State Fault Refusal :=
  issued (.mulw h o) h s (pairOp 2 intPair (fun a b => ⟨.int, a.pay * b.pay⟩) o)
/-- MULH (R132): the high half of the signed 128-bit product. -/
def execMulh (h : Hdr) (o : OpBin) (s : State) : Host.Outcome State Fault Refusal :=
  issued (.mulh h o) h s (pairOp 2 intPair (fun a b => intVal ((a.pay.toInt * b.pay.toInt) / 2 ^ 64)) o)
/-- LEA (R133). -/
def execLea (h : Hdr) (n : Fin 5) (o : OpBin) (s : State) : Host.Outcome State Fault Refusal :=
  issued (.lea h n o) h s (pairOp 0 wrapPair (fun a b => ⟨a.tag, a.pay + b.pay <<< n.val⟩) o)
/-- PTRD (R134). -/
def execPtrd (h : Hdr) (o : OpBin) (s : State) : Host.Outcome State Fault Refusal :=
  issued (.ptrd h o) h s
    (pairOp 1 (fun a b => decide ((a = .ptr ∧ b = .ptr) ∨ (a = .ref ∧ b = .ref))) (fun a b => ⟨.int, a.pay - b.pay⟩) o)

end Sys2Proof.Machine
end

