-- ==== Sys2Proof/Machine/Tiles.lean ====
section
/-! DEFINITION. Tile handles and their geometry (R201-R204), footprints and owner bits (R196-R200), TILE, GIVE, TAKE and
OWNQ (R234, R238). -/

namespace Sys2Proof.Machine

open Sys2Proof

/-! ## Handles (R201-R203) -/

/-- The fields of a handle; fmt and swz are none for a reserved code. -/
structure Handle where
  base : Nat
  rows : Nat
  cols : Nat
  fmt : Option TFmt
  swz : Option Swz
  soff : Nat
  sparse : Nat
  moff : Nat
deriving DecidableEq, Repr

/-- The fields of a TILE payload. -/
def handleOf (w : Word) : Handle :=
  { base := fld w 0 13, rows := fld w 13 8 + 1, cols := fld w 21 8 + 1, fmt := tfmtOf (fld w 29 5), swz := swzOf (fld w 34 2),
    soff := fld w 36 13, sparse := fld w 49 2, moff := fld w 51 13 }

def Handle.hasScale (t : Handle) : Bool := decide (t.soff ≠ 0x1FFF)
def Handle.f (t : Handle) : TFmt := t.fmt.getD .i8
def Handle.m (t : Handle) : Swz := t.swz.getD .lin

/-- Present elements of each group of 16 (R89). -/
def Handle.perGroup (t : Handle) : Nat :=
  match t.sparse with
  | 1 => 8
  | 2 => 4
  | _ => 16

/-- Elements a row stores, its stored bytes S, and the tile's data bytes (R202). -/
def Handle.rowElts (t : Handle) : Nat := if t.sparse = 0 then t.cols else t.cols / 16 * t.perGroup
def Handle.rowBytes (t : Handle) : Nat := roundUpTo (ceilDiv (t.rowElts * tfmtBits t.f) 8) 8
def Handle.dataBytes (t : Handle) : Nat := t.rows * t.rowBytes
/-- Offsets of the header and of the data. -/
def Handle.hdr (t : Handle) : Nat := t.base * 64
def Handle.data (t : Handle) : Nat := t.base * 64 + 64

/-- The scale table's extent: the larger of its two layouts (R197). -/
def Handle.scaleBytes (t : Handle) : Nat := max (t.rows * ceilDiv t.cols 32) (t.cols * ceilDiv t.rows 32)

/-- A reserved code, or a sparse shape that no tile has (R203). -/
def Handle.bad (t : Handle) : Bool :=
  t.fmt.isNone || t.swz.isNone || decide (t.sparse = 3) ||
    (decide (t.sparse ≠ 0) && (decide (t.fmt = some .f64) || decide (t.cols % 16 ≠ 0)))

/-- The byte ranges of a tile: start and length. -/
def Handle.ranges (t : Handle) : List (Nat × Nat) :=
  [(t.hdr, 64 + t.dataBytes)] ++
  (if t.hasScale then [(t.soff * 64, t.scaleBytes)] else []) ++
  (if t.sparse ≠ 0 then [(t.moff * 64, t.rows * (t.cols / 16) * 2)] else [])

/-- The granules that hold a byte of a tile, in ascending order (R197). -/
def Handle.granules (t : Handle) : List Nat :=
  (List.range 1024).filter (fun g => t.ranges.any (fun r =>
    decide (0 < r.2) && decide (r.1 < (g + 1) * 4096) && decide (g * 4096 < r.1 + r.2)))

/-- A handle operand: the handle, or the causes of its tag, its codes and its footprint (R203, R220, R193). -/
inductive Hnd
  | ok (t : Handle)
  | fault (f : LFault)
deriving DecidableEq, Repr

/-- A handle operand of an instruction that acts once; accepts says what the instruction takes. -/
def handleArg (ix : Ix) (team : Team) (v : Val) (accepts : Handle → Bool) : Hnd :=
  if v.tag = .poison then .fault ⟨ix.low, .poison, fld v.pay 0 16, ptrVal ix.pc⟩
  else if v.tag ≠ .tile then .fault (faultAt ix ix.low .prot)
  else
    let t := handleOf v.pay
    if t.bad || !accepts t then .fault (faultAt ix ix.low .ill)
    else match t.granules.find? (fun g => decide (team.scratchBytes < (g + 1) * 4096)) with
      | some g => .fault ⟨ix.low, .prot, 0, natVal (g * 4096)⟩
      | none => .ok t

/-- The causes among several handles. -/
def Hnd.faults : Hnd → List LFault
  | .ok _ => []
  | .fault f => [f]

def Hnd.tile : Hnd → Handle
  | .ok t => t
  | .fault _ => handleOf 0

/-! ## Owner bits (R196-R198) -/

/-- Whether a granule is engine-owned. -/
def engineOwned (t : Team) (g : Nat) : Bool := spGet false t.owner g

/-- OWNER when a granule of a footprint is not owned as the instruction needs: EADDR holds the lowest one's offset. -/
def ownerFaults (ix : Ix) (t : Team) (gs : List Nat) (engine : Bool) : List LFault :=
  match gs.filter (fun g => engineOwned t g != engine) with
  | g :: r => [⟨ix.low, .owner, 0, natVal (r.foldl min g * 4096)⟩]
  | [] => []

/-- Give granules an owner. -/
def setOwner (t : Team) (gs : List Nat) (engine : Bool) : Team :=
  { t with owner := gs.foldl (fun m g => spSet false m g engine) t.owner }

/-- Flip granules to thread; the TAKEs whose footprint is then thread-owned become ready (R197, R198). -/
def flipThread (s : State) (team : Nat) (gs : List Nat) : State :=
  let s := updTeam s team (fun t => setOwner t gs false)
  let t := teamOf s team
  { s with warps := spMap Warp.none (fun _ x =>
      match x.wait with
      | .take hs => if x.team = team ∧ hs.all (fun g => !engineOwned t g) then { x with wait := .none } else x
      | _ => x) s.warps }

/-- Record a fault on a granule for the next TAKE; of two records the one of higher priority stays (R200). -/
def recordFault (s : State) (team g : Nat) (r : FaultRec) : State :=
  updTeam s team (fun t =>
    match spGet none t.frec g with
    | some old => if causePrio old.cause ≤ causePrio r.cause then t else { t with frec := spSet none t.frec g (some r) }
    | none => { t with frec := spSet none t.frec g (some r) })

/-! ## TILE (R234) -/

/-- An operand of TILE that raises PROT: a tag that it may not have, or an INT out of range. -/
def tileA (a : Val) : Bool :=
  decide (a.tag ≠ .poison) && (decide (a.tag ≠ .int) || decide (a.pay.toNat % 64 ≠ 0 ∨ 524224 < a.pay.toNat))
def tileB (b : Val) : Bool :=
  let rows := fld b.pay 0 9
  let cols := fld b.pay 16 9
  decide (b.tag ≠ .poison) && (decide (b.tag ≠ .int) ||
    decide (b.pay.toNat ≠ rows + cols * 2 ^ 16 ∨ rows = 0 ∨ cols = 0 ∨ 256 < rows ∨ 256 < cols))
def tileC (c : Val) : Bool :=
  decide (c.tag ≠ .poison ∧ c.tag ≠ .nil) && (decide (c.tag ≠ .int) || decide (2 ^ 26 ≤ c.pay.toNat))

/-- One lane's handle: PROT for a tag or a value out of range, then POISON (R156), or the TILE. -/
def tileLane (f : TFmt) (m : Swz) (sp : Sparsity) (a b c : Val) : LOut :=
  if tileA a || tileB b || tileC c then .fault .prot 0
  else
    orPoisonTrap [a, b, c] <|
      let soff := if c.tag = .nil then 0x1FFF else fld c.pay 0 13
      let moff := if c.tag = .nil then 0 else fld c.pay 13 13
      .val ⟨.tile, wd (a.pay.toNat / 64 + (fld b.pay 0 9 - 1) * 2 ^ 13 + (fld b.pay 16 9 - 1) * 2 ^ 21 + tfmtCode f * 2 ^ 29 +
        swzCode m * 2 ^ 34 + soff * 2 ^ 36 + sparCode sp * 2 ^ 49 + moff * 2 ^ 51)⟩

/-- TILE (R234). -/
def execTile (h : Hdr) (fmt : TFmt) (swz : Swz) (sp : Sparsity) (o : OpX4) (s : State) : Host.Outcome State Fault Refusal :=
  issued (.tile h fmt swz sp o) h s fun ix s =>
    let x := warpOf s ix.w
    laneOp ix s (.reg o.d) [o.a, o.b, o.c] fun l => tileLane fmt swz sp (readReg x o.a l) (readReg x o.b l) (readReg x o.c l)

/-! ## GIVE, TAKE, OWNQ (R238) -/

/-- Every handle is accepted. -/
def anyTile (_ : Handle) : Bool := true

/-- A lane of an SATOM of the team is still to be performed (R233, R296). -/
def satomUnderWay (s : State) (t : Nat) : Bool :=
  (coreOf s (teamOf s t).core).late.any (fun e =>
    match e.2 with
    | some r => decide (r.todo ≠ []) && decide ((warpOf s r.warp).team = t)
    | none => false)

/-- GIVE (R238): the team's earlier SATOMs are performed first, so that engine operations see them (R198). -/
def execGive (h : Hdr) (a : Reg) (s : State) : Host.Outcome State Fault Refusal :=
  issued (.give h a) h s fun ix s =>
    let x := warpOf s ix.w
    match handleArg ix (teamOf s x.team) (readReg x a ix.low) anyTile with
    | .fault f => .trap [f] 0 []
    | .ok t => if satomUnderWay s x.team then .wait .drain s else .ok (updTeam s x.team (fun y => setOwner y t.granules true))

/-- The record a TAKE raises: highest priority, then the lowest granule (R200). -/
def topRecord (t : Team) (gs : List Nat) : Option FaultRec :=
  gs.foldl (fun b g =>
    match spGet none t.frec g, b with
    | some r, none => some r
    | some r, some q => if causePrio r.cause < causePrio q.cause then some r else b
    | none, _ => b) none

/-- TAKE (R238, R200). -/
def execTake (h : Hdr) (a : Reg) (s : State) : Host.Outcome State Fault Refusal :=
  issued (.take h a) h s fun ix s =>
    let x := warpOf s ix.w
    let y := teamOf s x.team
    match handleArg ix y (readReg x a ix.low) anyTile with
    | .fault f => .trap [f] 0 []
    | .ok t =>
      if t.granules.any (engineOwned y) then .wait (.take t.granules) s
      else match topRecord y t.granules with
        | none => .ok s
        | some r =>
          .recorded ⟨ix.low, r.cause, 0, match r.eaddr with
            | some va => ptrVal (wd va)
            | none => ptrVal ix.pc⟩ t.granules []

/-- OWNQ (R238). -/
def execOwnq (h : Hdr) (d a : Reg) (s : State) : Host.Outcome State Fault Refusal :=
  issued (.ownq h d a) h s fun ix s =>
    let x := warpOf s ix.w
    let y := teamOf s x.team
    match handleArg ix y (readReg x a ix.low) anyTile with
    | .fault f => .trap [f] 0 []
    | .ok t =>
      let own := if t.granules.any (engineOwned y) then 0 else 1
      let recd := if t.granules.any (fun g => decide (spGet none y.frec g ≠ none)) then 2 else 0
      laneOp ix s (.reg d) [] fun _ => .val (natVal (own + recd))

end Sys2Proof.Machine
end

