-- ==== Sys2Proof/Machine/Elements.lean ====
section
/-! DEFINITION. Tile elements, scales and masks in the scratchpad (R87-R89, R202), headers (R204), block quantisation
(R88), as the engines read and write them. -/

namespace Sys2Proof.Machine

open Sys2Proof

/-- Offset of stored element j of row r, the bytes that hold it, and the bit it starts at. -/
def eltPlace (h : Handle) (r j : Nat) : Nat × Nat × Nat :=
  let b := tfmtBits h.f
  (h.data + r * h.rowBytes + j * b / 8, max 1 (b / 8), if b = 4 then 4 * (j % 2) else 0)

/-- The bits of stored element j of row r. -/
def eltRead (t : Team) (h : Handle) (r j : Nat) : Nat :=
  let p := eltPlace h r j
  bitsOf (scrRead t h.m p.1 p.2.1) p.2.2 (tfmtBits h.f)

/-- Write stored element j of row r; an I4 element leaves the other half of its byte. -/
def eltWrite (t : Team) (h : Handle) (r j x : Nat) : Team :=
  let p := eltPlace h r j
  if tfmtBits h.f = 4 then
    let old := scrRead t h.m p.1 1
    scrWrite t h.m p.1 1 (if p.2.2 = 0 then old / 16 * 16 + x % 16 else old % 16 + x % 16 * 16)
  else scrWrite t h.m p.1 p.2.1 x

/-- Header fields (R204): BOUND and PEAK as F32 bits; engines write zero beyond them. -/
def hdrBound (t : Team) (h : Handle) : Nat := scrRead t .lin h.hdr 4
/-- BOUND and PEAK of a header that an engine computes from the largest magnitude, the largest conversion error and the bound that the
source carries: each rounded up, and both +∞ where any of the three is not a finite F32 (R204, R244). DEDUCED (log entry 116): an
infinite bound alone makes PEAK infinite too. -/
def hdrFields (peak err bound : Num) : BitVec 32 × BitVec 32 :=
  let inf := BitVec.ofNat 32 fF32.infBits
  if [peak, err, bound].any (fun x => decide (f32Up x = inf)) then (inf, inf) else (f32Up (sumNum [bound, err]), f32Up peak)

def hdrWrite (t : Team) (h : Handle) (bound peak : BitVec 32) : Team :=
  let t := scrWrite t .lin h.hdr 8 (bound.toNat + peak.toNat * 2 ^ 32)
  (List.range 7).foldl (fun t i => scrWrite t .lin (h.hdr + 8 + 8 * i) 8 0) t

/-! ## Scale tables and occupancy masks (R87, R89) -/

/-- Where the scale of row (or column) r at position k of K = n lies. -/
def scaleAt (h : Handle) (n r k : Nat) : Nat := h.soff * 64 + r * ceilDiv n 32 + k / 32

/-- A scale code as its value: 2^(e-127); 255 is NaE. -/
def scaled (e : Nat) (x : Num) : Num := if e = 255 then .nan else scaleBy ((e : Int) - 127) x

/-- The occupancy mask of group g of row r. -/
def occMask (t : Team) (h : Handle) (r g : Nat) : Nat := scrRead t .lin (h.moff * 64 + (r * (h.cols / 16) + g) * 2) 2

/-- The positions of K that row r of an A tile stores, in the order stored. -/
def present (t : Team) (h : Handle) (r : Nat) : List Nat :=
  if h.sparse = 0 then List.range h.cols
  else (List.range h.cols).filter (fun k => (occMask t h r (k / 16)).testBit (k % 16))

/-- Row r of an A tile: position and scaled value of each stored element. -/
def rowA (t : Team) (h : Handle) (r : Nat) : List (Nat × Num) :=
  ((present t h r).zip (List.range h.rowElts)).map (fun e =>
    let x := tfmtDec h.f (eltRead t h r e.2)
    (e.1, if h.hasScale then scaled (scrRead t .lin (scaleAt h h.cols r e.1) 1) x else x))

/-- Element (k, c) of a B tile, scaled. -/
def eltB (t : Team) (h : Handle) (k c : Nat) : Num :=
  let x := tfmtDec h.f (eltRead t h k c)
  if h.hasScale then scaled (scrRead t .lin (scaleAt h h.rows c k) 1) x else x

/-! ## Quantising a block (R88) -/

/-- The scale code of a block with largest magnitude x. For an element format for which R88 lists no largest value the
code is a free value (log entry 12). -/
def blockScale (f : TFmt) (x : Num) : Nat :=
  match eltMax f with
  | some mx => scaleCode mx x
  | none => if x.isFin then Config.freeScale (tfmtCode f) (fF64.enc .rn x) % 255 else 255

/-- A block's scale, its codes, and what each decodes to with the scale. -/
structure Block where
  e : Nat
  codes : List Nat
  vals : List Num
deriving DecidableEq, Repr

/-- Quantise a block: RN with saturation; a block with a NaN or an infinity becomes NaE or 0 throughout. -/
def quantBlock (f : TFmt) (xs : List Num) : Block :=
  let e := blockScale f (maxMag xs)
  let codes := xs.map (fun x => tfmtEnc f .rn (if e = 255 then .nan else scaleBy (127 - (e : Int)) x))
  ⟨e, codes, codes.map (fun c => scaled e (tfmtDec f c))⟩

/-- The exact distance of two values. -/
def numErr (x y : Num) : Num := (sumNum [x, y.neg]).abs

/-- The largest distance of two lists. -/
def maxErr (xs ys : List Num) : Num := maxMag ((xs.zip ys).map (fun p => numErr p.1 p.2))

/-- The elements of a list in blocks of 32. -/
def blocks32 (xs : List Num) : List (List Num) :=
  (List.range (ceilDiv xs.length 32)).map (fun b => (xs.drop (32 * b)).take 32)

end Sys2Proof.Machine
end

