-- ==== Sys2Proof/Machine/Transc.lean ====
section
/-! DEFINITION. Transcendental functions (R114, R115) and FRND (R116). R115 bounds the error of most functions and leaves
the result open within the bound: the exact value is enclosed in an interval narrower than any unit in the last place
that can matter, and a free value of Config chooses among the neighbours that the bound allows (log entry 3). -/

namespace Sys2Proof.Machine

open Sys2Proof

/-! ## Fixed-point series: numbers are units of 2^-256; every error stays far below the slack of 2^64 units -/

def fxOne : Nat := 2 ^ 256
def fxSlack : Nat := 2 ^ 64

/-- The sum of y^k / k! from term i on. -/
def expGo (y : Nat) : Nat → Nat → Nat → Nat
  | 0, _, _ => 0
  | n + 1, i, t => t + expGo y n (i + 1) (t * y / fxOne / (i + 1))

/-- e^y for y below 1. -/
def expFix (y : Nat) : Nat := expGo y 80 0 fxOne

/-- The sum of z^(2k+1) / (2k+1), with p the current power. -/
def atanhGo (z2 : Nat) : Nat → Nat → Nat → Nat
  | 0, _, _ => 0
  | n + 1, i, p => p / (2 * i + 1) + atanhGo z2 n (i + 1) (p * z2 / fxOne)

/-- ln y = 2 atanh((y-1)/(y+1)) for y from 1 to 2. -/
def lnFix (y : Nat) : Nat :=
  let z := (y - fxOne) * fxOne / (y + fxOne)
  2 * atanhGo (z * z / fxOne) 100 0 z

def ln2Fix : Nat := lnFix (2 * fxOne)

/-- The alternating sum 1/(n (2k+1)) - ..., with p the current power of 1/n. -/
def atanGo (n2 : Nat) : Nat → Nat → Nat → Nat
  | 0, _, _ => 0
  | k + 1, i, p => p / (2 * i + 1) - atanGo n2 k (i + 1) (p / n2)

/-- pi to p bits after the point (16 atan 1/5 - 4 atan 1/239). -/
def piFix (p : Nat) : Nat :=
  16 * atanGo 25 (p / 4 + 4) 0 (2 ^ p / 5) - 4 * atanGo 57121 (p / 4 + 4) 0 (2 ^ p / 239)

/-- The alternating Taylor sum with step r^2 / ((k+1)(k+2)) from term t of degree k. -/
def trigGo (r2 : Nat) : Nat → Nat → Nat → Nat
  | 0, _, _ => 0
  | n + 1, k, t => t - trigGo r2 n (k + 2) (t * r2 / fxOne / ((k + 1) * (k + 2)))

def sinFix (r : Nat) : Nat := trigGo (r * r / fxOne) 40 1 r
def cosFix (r : Nat) : Nat := trigGo (r * r / fxOne) 40 0 fxOne

/-! ## Enclosures -/

/-- An exact result, or a magnitude strictly between two values. -/
inductive Encl
  | exact (x : Num)
  | between (neg : Bool) (lo hi : Num)
deriving DecidableEq, Repr

/-- A magnitude t units within the slack, at most cap units. -/
def near (neg : Bool) (t cap : Nat) (e : Int) : Encl :=
  .between neg (.fin false (t - fxSlack) (e - 256)) (.fin false (min (t + fxSlack) cap) (e - 256))

/-- The functions of R114. -/
inductive TFn
  | sqrt | rcp | rsq | exp2 | log2 | sin | cos | tanh
deriving DecidableEq, Repr

def tfnNum : TFn → Nat
  | .sqrt => 0
  | .rcp => 1
  | .rsq => 2
  | .exp2 => 3
  | .log2 => 4
  | .sin => 5
  | .cos => 6
  | .tanh => 7

/-- Whether m * 2^e is at least 2^k, for m not 0. -/
def atLeast (m : Nat) (e k : Int) : Bool := decide (k ≤ (Nat.log2 m : Int) + e)

/-- 1 / sqrt(m * 2^e). -/
def rsqEncl (m : Nat) (e : Int) : Encl :=
  let m' := if e % 2 = 0 then m else 2 * m
  let e' := if e % 2 = 0 then e else e - 1
  let k := 150 + Nat.log2 m' / 2
  let n := 2 ^ (2 * k)
  let r := isqrt (n / m')
  if r * r * m' = n then .exact (.fin false r (-(k : Int) - e' / 2))
  else .between false (.fin false r (-(k : Int) - e' / 2)) (.fin false (r + 1) (-(k : Int) - e' / 2))

/-- 1 / (m * 2^e). -/
def rcpEncl (neg : Bool) (m : Nat) (e : Int) : Encl :=
  let k := 150 + Nat.log2 m
  let q := 2 ^ k / m
  if q * m = 2 ^ k then .exact (.fin neg q (-(k : Int) - e))
  else .between neg (.fin false q (-(k : Int) - e)) (.fin false (q + 1) (-(k : Int) - e))

/-- 2^(±m * 2^e), for format f: from its first power of two that overflows the result is +∞ (R115). -/
def exp2Encl (f : FFmt) (neg : Bool) (m : Nat) (e : Int) : Encl :=
  let low := Encl.between false (.fin false 1 (-5000)) (.fin false 1 (-4000))
  if atLeast m e 12 then (if neg then low else .exact (.inf false))
  else if e ≥ 0 ∨ m % 2 ^ (-e).toNat = 0 then
    let i : Int := (if neg then -1 else 1) * ((m * 2 ^ e.toNat / 2 ^ (-e).toNat : Nat) : Int)
    if i < f.emin then low else .exact (.fin false 1 i)
  else
    let x := m * fxOne / 2 ^ (-e).toNat
    let n := x / fxOne
    let t := expFix (x % fxOne * ln2Fix / fxOne)
    if neg then
      let u := fxOne * fxOne / t
      .between false (.fin false (max (u - fxSlack) (fxOne / 2)) (-(n : Int) - 256))
        (.fin false (min (u + fxSlack) fxOne) (-(n : Int) - 256))
    else if f.bias < n then .exact (.inf false)
    else
      .between false (.fin false (max (t - fxSlack) fxOne) ((n : Int) - 256))
        (.fin false (min (t + fxSlack) (2 * fxOne)) ((n : Int) - 256))

/-- log2(m * 2^e). -/
def log2Encl (m : Nat) (e : Int) : Encl :=
  let k := Nat.log2 m
  if m = 2 ^ k then .exact (numOfInt ((k : Int) + e))
  else
    let l := lnFix (m * fxOne / 2 ^ k) * fxOne / ln2Fix
    let t : Int := ((k : Int) + e) * (fxOne : Int) + (l : Int)
    near (decide (t < 0)) t.natAbs (t.natAbs + fxSlack) 0

/-- sin (cosine: false) or cos of ±m * 2^e, reduced modulo pi/2 with all of pi that it takes. -/
def trigEncl (cosine neg : Bool) (m : Nat) (e : Int) : Encl :=
  if !atLeast m e (-30) then
    if cosine then .between false (sumNum [.fin false 1 0, .fin true (m * m) (2 * e - 1)]) (.fin false 1 0)
    else .between neg (sumNum [.fin false m e, .fin true (m * m * m) (3 * e - 2)]) (.fin false m e)
  else
    let p := 320 + ((Nat.log2 m : Int) + e).toNat
    let half := piFix (p + 32) / 2 ^ 33
    let x := m * 2 ^ (e + (p : Int)).toNat
    let q := x / half % 4
    let r := x % half / 2 ^ (p - 256)
    let isCos := (q % 2 == 1) != cosine
    let minus := if cosine then decide (q = 1 ∨ q = 2) else (decide (2 ≤ q) != neg)
    near minus (if isCos then cosFix r else sinFix r) fxOne 0

/-- tanh of ±m * 2^e: 1 - 2 / (e^2x + 1). -/
def tanhEncl (neg : Bool) (m : Nat) (e : Int) : Encl :=
  if !atLeast m e (-30) then .between neg (sumNum [.fin false m e, .fin true (m * m * m) (3 * e - 1)]) (.fin false m e)
  else if atLeast m e 7 then .between neg (.fin false (fxOne - fxSlack) (-256)) (.fin false 1 0)
  else
    let y := m * 2 ^ (e + 257).toNat
    let ex := expFix (y % ln2Fix) * 2 ^ (y / ln2Fix)
    near neg (fxOne - 2 * fxOne * fxOne / (ex + fxOne)) fxOne 0

/-- The function of an exact value (R115). -/
def tfnEncl (f : TFn) (fm : FFmt) (x : Num) : Encl :=
  match f, x with
  | _, .nan => .exact .nan
  | .sqrt, x => .exact (sqrtNum x)
  | .rcp, .inf s => .exact (.fin s 0 0)
  | .rcp, .fin s m e => if m = 0 then .exact (.inf s) else rcpEncl s m e
  | .rsq, .inf s => if s then .exact .nan else .exact (.fin false 0 0)
  | .rsq, .fin s m e => if m = 0 then .exact (.inf s) else if s then .exact .nan else rsqEncl m e
  | .exp2, .inf s => if s then .exact (.fin false 0 0) else .exact (.inf false)
  | .exp2, .fin s m e => if m = 0 then .exact (.fin false 1 0) else exp2Encl fm s m e
  | .log2, .inf s => if s then .exact .nan else .exact (.inf false)
  | .log2, .fin s m e => if m = 0 then .exact (.inf true) else if s then .exact .nan else log2Encl m e
  | .sin, .inf _ => .exact .nan
  | .sin, .fin s m e => if m = 0 then .exact (.fin s 0 0) else trigEncl false s m e
  | .cos, .inf _ => .exact .nan
  | .cos, .fin s m e => if m = 0 then .exact (.fin false 1 0) else trigEncl true s m e
  | .tanh, .inf s => .exact (.fin s 1 0)
  | .tanh, .fin s m e => if m = 0 then .exact (.fin s 0 0) else tanhEncl s m e

/-- A result within the bound of R115: the neighbours of the exact value, and for TANH one unit further where that is within two units
(not above a power of two, where units double); infinity for a value beyond every finite one by a unit; ch is the free choice. -/
def pickResult (f : FFmt) (wide : Bool) (ch : Nat → Bool) (x : Encl) : Nat :=
  match x with
  | .exact y => f.enc .rn y
  | .between neg lo hi =>
    let dn := f.enc .rz lo
    let up := f.enc .ru hi
    let r :=
      if cmpNum lo (.fin false 1 (f.bias + 1)) ≠ some .lt then f.infBits
      else if dn + 1 < up then dn + 1
      else if ch 0 then (if wide && ch 1 && decide (up < f.infBits ∧ up % 2 ^ f.fb ≠ 0) then up + 1 else up)
      else if wide && ch 1 && decide (0 < dn) then dn - 1 else dn
    if neg then f.signBit + r else r

/-- The function in a format F64 or F32, from and to exact values; k numbers the operand's tag. -/
def tfnEval (f : TFn) (fm : FFmt) (k : Nat) (x : Num) : Nat :=
  pickResult fm (decide (f = .tanh)) (fun i => Config.ulpChoice (tfnNum f * 16 + k) (wd (fm.enc .rn x)) i)
    (tfnEncl f fm x)

/-- One lane of a transcendental instruction (R114). -/
def transc (f : TFn) (a : Val) : LOut :=
  orPoison [a] <|
    match a.tag with
    | .int => .val ⟨.f64, wd (tfnEval f fF64 1 (widen a .f64))⟩
    | .f64 => .val ⟨.f64, wd (tfnEval f fF64 2 ((valNum a).getD .nan))⟩
    | .f32 => .val ⟨.f32, wd (tfnEval f fF32 3 ((valNum a).getD .nan))⟩
    | .f16 => .val (fVal .f16 .rn (fF32.dec (tfnEval f fF32 4 ((valNum a).getD .nan))))
    | .bf16 => .val (fVal .bf16 .rn (fF32.dec (tfnEval f fF32 5 ((valNum a).getD .nan))))
    | t => .call 13 (tagCode t) 0 a nilVal nilVal

/-- A transcendental instruction. -/
def transcOp (f : TFn) (o : OpUn) (ix : Ix) (s : State) : Res :=
  laneOp ix s (.reg o.d) [o.a] fun l => transc f (opVal s ix o.a o.sa l)

/-- SQRT (R114, R115). -/
def execSqrt (h : Hdr) (o : OpUn) (s : State) : Host.Outcome State Fault Refusal := issued (.sqrt h o) h s (transcOp .sqrt o)
/-- RCP (R114, R115). -/
def execRcp (h : Hdr) (o : OpUn) (s : State) : Host.Outcome State Fault Refusal := issued (.rcp h o) h s (transcOp .rcp o)
/-- RSQ (R114, R115). -/
def execRsq (h : Hdr) (o : OpUn) (s : State) : Host.Outcome State Fault Refusal := issued (.rsq h o) h s (transcOp .rsq o)
/-- EXP2 (R114, R115). -/
def execExp2 (h : Hdr) (o : OpUn) (s : State) : Host.Outcome State Fault Refusal := issued (.exp2 h o) h s (transcOp .exp2 o)
/-- LOG2 (R114, R115). -/
def execLog2 (h : Hdr) (o : OpUn) (s : State) : Host.Outcome State Fault Refusal := issued (.log2 h o) h s (transcOp .log2 o)
/-- SIN (R114, R115). -/
def execSin (h : Hdr) (o : OpUn) (s : State) : Host.Outcome State Fault Refusal := issued (.sin h o) h s (transcOp .sin o)
/-- COS (R114, R115). -/
def execCos (h : Hdr) (o : OpUn) (s : State) : Host.Outcome State Fault Refusal := issued (.cos h o) h s (transcOp .cos o)
/-- TANH (R114, R115). -/
def execTanh (h : Hdr) (o : OpUn) (s : State) : Host.Outcome State Fault Refusal := issued (.tanh h o) h s (transcOp .tanh o)

/-- The integral value of a float under a mode; a zero keeps its sign (R116). -/
def integral (rm : Rnd) : Num → Num
  | .fin neg m e => .fin neg (roundAt rm neg m e 0) 0
  | x => x

/-- FRND in one lane. -/
def frnd (rm : Rnd) (a : Val) : LOut :=
  orPoison [a] <|
    match valNum a with
    | some x => if a.tag = .int then .val a else .val (fVal a.tag .rn (integral rm x))
    | none => .call 9 (tagCode a.tag) 0 a nilVal nilVal

/-- FRND (R116). -/
def execFrnd (h : Hdr) (rm : Rnd) (o : OpUn) (s : State) : Host.Outcome State Fault Refusal :=
  issued (.frnd h rm o) h s fun ix s => laneOp ix s (.reg o.d) [o.a] fun l => frnd rm (opVal s ix o.a o.sa l)

end Sys2Proof.Machine
end

