-- ==== Sys2Proof/Machine/Kv.lean ====
section
/-! DEFINITION. Two-stage KV translation (R278-R280, R342, R368, R369), KVAPP (R282), KSEL (R283-R285), ATTN (R287-R289),
KVXL (R291). -/

namespace Sys2Proof.Machine

open Sys2Proof

/-! ## Descriptors (R278) and entries (R279) -/

def dLen (d : Word) : Nat := fld d 0 23
def dSeq (d : Word) : Nat := fld d 40 24
/-- The blocks a descriptor covers, and the valid tokens of block j. -/
def dBlocks (d : Word) : Nat := ceilDiv (dLen d) 64
def dTokens (d : Word) (j : Nat) : Nat := min 64 (dLen d - 64 * j)
/-- The number of (SEQ, LAYER, HEAD). -/
def seqKey (d : Word) : Nat := (dSeq d * 256 + fld d 32 8) * 64 + fld d 26 6
/-- The first-stage key of block j: (SEQ, LAYER, HEAD * 65,536 + j). -/
def kvKey (d : Word) (j : Nat) : Nat := seqKey d * 65536 + j
/-- SEQ of a key. -/
def keySeq (k : Nat) : Nat := k / 2 ^ 30

/-- The causes of a descriptor: POISON, PROT for its tag, a reserved bit or, where LEN counts, a LEN too large. -/
def descFaults (ix : Ix) (l : Nat) (v : Val) (len : Bool) : List LFault :=
  if v.tag = .poison then [⟨l, .poison, fld v.pay 0 16, ptrVal ix.pc⟩]
  else if v.tag ≠ .int ∨ fld v.pay 23 3 ≠ 0 ∨ (len ∧ 4194304 < dLen v.pay) then [faultAt ix l .prot] else []

def eTier (e : Word) : Nat := fld e 38 2
def eChip (e : Word) : Nat := fld e 32 6
def eGbn (e : Word) : Nat := fld e 0 32
/-- TIER, CHIP and GBN alone. -/
def eBody (e : Word) : Word := wd (fld e 0 40)
/-- The entry of block j. -/
def entryFor (e : Word) (j : Nat) : Word := wd (fld e 0 40 + j * 2 ^ 48)

/-! ## The first stage (R280, R342, R368, R371) -/

/-- A lookup of CUR. -/
inductive First
  | ok (e : Word)
  | miss
  | hold
deriving DecidableEq, Repr

/-- Whether a KVSD holds a key. -/
def kvHeld (s : State) (p key : Nat) : Bool :=
  s.kvsds.any (fun o => decide (o.part = p ∧ o.lo ≤ key ∧ key < o.lo + o.n))

/-- The first stage's answer for a key: walks read CUR, and wait while a KVSD holds it. -/
def kvLookup (s : State) (p key : Nat) : First :=
  if kvHeld s p key then .hold
  else match (spGet KvEntry.none (partOf s p).kv key).cur with
    | some e => .ok e
    | none => .miss

def slotOf (s : State) (p seq : Nat) : KvSlot := spGet KvSlot.none (partOf s p).slots seq
def setSlot (s : State) (p seq : Nat) (x : KvSlot) : State :=
  updPart s p (fun y => { y with slots := spSet KvSlot.none y.slots seq x })

/-- Keep an entry in a core's KTB. -/
def ktbFill (s : State) (c key : Nat) (e : Word) : State := updCore s c (fun x => { x with ktb := spSet 0 x.ktb key e })

/-- The number of a partition's key in the KTB of a slice, which serves every partition. -/
def sliceKey (p key : Nat) : Nat := p * 2 ^ 54 + key

/-- Keep an entry in the KTB of slice h, the home of the block's page and swatch (R277, R280). -/
def sliceFill (s : State) (p key h : Nat) (e : Word) : State :=
  { s with slkv := spSet [] s.slkv h (spSet 0 (spGet [] s.slkv h) (sliceKey p key) e) }

/-! ## The second stage (R366, R369) -/

/-- Where a block's pages lie and the slice that is their home (R277), or why they cannot be named. -/
inductive Second
  | ok (kpa vpa home : Nat)
  | miss
  | fault (c : Cause)
  | lost
deriving DecidableEq, Repr

/-- The partition on a chip that holds a block for partition p: itself, or the peer that its own table names. -/
def kvOwner (s : State) (p chip : Nat) : Option Nat :=
  if chip = p / 16 then some p else (fatEntry (partOf s p) chip).map (fun q => chip * 16 + q)

/-- Whether that partition's table pairs it with p (R366). -/
def kvPaired (s : State) (p q : Nat) : Bool :=
  decide (q / 16 = p / 16) || decide (fatEntry (partOf s q) (p / 16) = some (p % 16))

/-- Whether a local address lies in the tier an entry names (R369). -/
def inTier (tier a : Nat) : Bool :=
  match tier with
  | 0 => decide (0x1000_0000_0000 ≤ a ∧ a < 0x2000_0000_0000)
  | 1 => decide (a < 0x1000_0000_0000)
  | 2 => decide (0x2000_0000_0000 ≤ a)
  | _ => false

/-- The first and last bytes of a block's key page with swatch, and of its value page. -/
def pageEnds (kpa vpa : Nat) : List Nat := [kpa, kpa + 16895, vpa, vpa + 16383]

/-- What the words of a second-stage entry say (R369), with the checks of R282 and R285. DESIGN CHOICE (log entry 101): a page address in
its tier that no row of the map names is a fault XLAT, as R282 and R285 say, and not the KV miss that R3 speaks of. -/
def secondOf (s : State) (q chip tier : Nat) (w0 w1 w2 w3 : Word) : Second :=
  let kpa := fld w0 0 46
  let vpa := fld w1 0 46
  if !bitAt w0 63 ∨ fld w0 58 5 ≠ 0 ∨ fld w0 46 2 ≠ 0 ∨ 160 ≤ fld w0 48 8 ∨ fld w1 46 18 ≠ 0 ∨ w2 ≠ 0 ∨ w3 ≠ 0 ∨
      !inTier tier kpa ∨ !inTier tier vpa ∨ kpa % 256 ≠ 0 ∨ vpa % 256 ≠ 0 then .miss
  else
    let at_ := fun (a : Nat) => chip * 2 ^ 46 + a
    let ends := (pageEnds kpa vpa).map at_
    if ends.any (fun a => decide (regionOf s a = .unmapped)) then .fault .xlat
    else if ends.any (fun a => !owns s q a) then .fault .prot
    else .ok (at_ kpa) (at_ vpa) (chip * 640 + fld w0 56 2 * 160 + fld w0 48 8)

/-- A word of the second-stage table: a slice's KTB may still hold an older value, and which of the two is used is then a
free choice (R369). -/
def secondWord (s : State) (chip key k : Nat) : State × WV :=
  let (s, m) := homeRead s k
  let kept := (spGet [] s.sktb chip).find? (fun e => decide (e.1 = key))
  match kept with
  | some (_, w) =>
    if w = m.data then (s, m)
    else
      let (n, s) := takeFree s
      (s, if n % 2 = 0 then m else { m with data := w, bad := false })
  | none =>
    if m.bad then (s, m)
    else ({ s with sktb := spSet [] s.sktb chip (spSet 0 (spGet [] s.sktb chip) key m.data) }, m)

/-- Resolve an entry through the owning chip's second stage: a chip, a partition or a table in CXL memory that does not answer is lost
(R222, R365), a peer partition that is not paired with this one refuses, and both service cores are told (R366). DESIGN CHOICE (log entry
101): without an entry of its own for the chip the partition has no peer to ask, and no request travels. -/
def kvSecond (s : State) (p : Nat) (e : Word) : State × Second :=
  let chip := eChip e
  let g := eGbn e
  match kvOwner s p chip with
  | none => (s, .fault .prot)
  | some q =>
    let w7 := spGet 0 (partOf s q).words 7
    let k := (chip * 2 ^ 46 + fld w7 12 34 * 4096 + 32 * g) / 8
    let told := Report.refused (p / 16) (p % 16) (k * 8)
    if !homeAnswers s (p / 16) (chip * 2 ^ 46) || (decide (chip ≠ p / 16) && !(partOf s q).valid) then (s, .lost)
    else if !kvPaired s p q then (tellSvc (tellSvc s p told) q told, .fault .prot)
    else
      if 1024 * fld w7 46 18 ≤ g then (s, .miss)
      else if !homeAnswers s (p / 16) (k * 8) then (s, .lost)
      else
        let key := ((q % 16) * 2 ^ 32 + g) * 2
        let (s, w0) := secondWord s chip key k
        let (s, w1) := secondWord s chip (key + 1) (k + 1)
        let (s, w2) := homeRead s (k + 2)
        let (s, w3) := homeRead s (k + 3)
        if w0.bad || w1.bad || w2.bad || w3.bad then (s, .fault .mchk)
        else (s, secondOf s q chip (eTier e) w0.data w1.data w2.data w3.data)

/-! ## Rows and queries (R281) -/

/-- The causes of a row or query operand: all 32 lanes are read. -/
def rowFaults (ix : Ix) (x : Warp) (r : Reg) : List LFault :=
  if r = .nil then [faultAt ix ix.low .prot]
  else
    let vs := (List.range 32).map (readReg x r)
    (match vs.find? (fun v => decide (v.tag = .poison)) with
     | some v => [⟨ix.low, .poison, fld v.pay 0 16, ptrVal ix.pc⟩]
     | none => []) ++
    (if vs.any (fun v => decide (v.tag ≠ .pk16 ∧ v.tag ≠ .poison)) then [faultAt ix ix.low .prot] else [])

/-- The 32 words of a row: word i holds channels 4i to 4i + 3. -/
def rowWords (x : Warp) (r : Reg) : List Word := (List.range 32).map (fun l => (readReg x r l).pay)

/-- Channel c of 32 words, as BF16 bits and as a value. -/
def channel (ws : List Word) (c : Nat) : Nat := fld ((ws[c / 4]?).getD 0) (16 * (c % 4)) 16
def chanNum (ws : List Word) (c : Nat) : Num := fBF16.dec (channel ws c)

/-- ILL for a warp of another width (R281). -/
def widthFaults (ix : Ix) (x : Warp) : List LFault := if x.width ≠ 32 then [faultAt ix ix.low .ill] else []

/-! ## KVAPP (R282, R292) -/

/-- Whether an earlier append of the warp to a sequence is still to be performed. -/
def appendPending (s : State) (w key : Nat) : Bool := s.appends.any (fun a => decide (a.warp = w ∧ a.seqKey = key))

/-- The lines an append writes: the two rows and the swatch. -/
def appendLines (kpa vpa r : Nat) : List Nat := [kpa / 256 + r, vpa / 256 + r, kpa / 256 + 64, kpa / 256 + 65]

/-- Whether an append would write a code page of a bound version, which every agent finds read-only (R190, R305). -/
def appendsCode (s : State) (kpa vpa r : Nat) : Bool := (appendLines kpa vpa r).any (fun l => codePage s (256 * l))

/-- KVAPP (R282): the append is sent once both stages have answered. -/
def execKvapp (h : Hdr) (a b c : Reg) (s : State) : Host.Outcome State Fault Refusal :=
  issued (.kvapp h a b c) h s fun ix s =>
    let x := warpOf s ix.w
    let p := warpPart s ix.w
    let dv := readReg x a ix.low
    let d := dv.pay
    let df := descFaults ix ix.low dv true
    let fs := widthFaults ix x ++ df ++ (if df = [] ∧ 4194304 ≤ dLen d then [faultAt ix ix.low .prot] else []) ++
      rowFaults ix x b ++ rowFaults ix x c
    let j := dLen d / 64
    let rel := relScope x none
    if fs ≠ [] then .trap fs 0 []
    else if readsPending s ix.w || (rel.isSome && warpUndrained s ix.w) then .wait .drain s
    else match kvLookup s p (kvKey d j) with
      | .hold => .wait (.kvHold p) s
      | .miss => trapOnce ix .kvmiss
      | .ok e =>
        if (slotOf s p (dSeq d)).draining then trapOnce ix .kvmiss
        else
          let (s, q) := kvSecond (ktbFill s x.core (kvKey d j) e) p e
          match q with
          | .miss => trapOnce ix .kvmiss
          | .fault c => trapOnce ix c
          | .lost => .ok (tellDropped s p (eChip e * 2 ^ 46))
          | .ok kpa vpa home =>
            if appendsCode s kpa vpa (dLen d % 64) then trapOnce ix .prot
            else
            let s := releaseFor s x.core rel
            let s := (appendLines kpa vpa (dLen d % 64)).foldl (fun s l => l1Evict s x.core l) s
            .ok { s with appends := s.appends ++ [{ warp := ix.w, rel := rel, part := p, seqKey := seqKey d, kpa := kpa, vpa := vpa,
                                                     home := home, t := dLen d, k := rowWords x b, v := rowWords x c }] }

/-- Write the word k of a page at its home: the tag of a tagged region becomes INT (R277). -/
def pageWrite (s : State) (k : Nat) (w : Word) (bad : Bool) : State :=
  homeWrite s k w 0xFF (if isTagged s (k * 8) then some .int else none) bad none

/-- minv and maxv on BF16 bits. -/
def chanMin (x y : Nat) : Nat := fBF16.enc .rn (minNum (fBF16.dec x) (fBF16.dec y))
def chanMax (x y : Nat) : Nat := fBF16.enc .rn (maxOf (fBF16.dec x) (fBF16.dec y))

/-- Four channels combined. -/
def swatchWord (f : Nat → Nat → Nat) (old new : Word) : Word :=
  wd (packList 16 ((List.range 4).map (fun e => f (fld old (16 * e) 16) (fld new (16 * e) 16))))

/-- One word of the swatch: set by row 0, else combined with what it holds; a poisoned word stays poisoned. -/
def swatchPut (s : State) (k : Nat) (f : Nat → Nat → Nat) (first : Bool) (w : Word) : State :=
  if first then pageWrite s k w false
  else
    let (s, o) := homeRead s k
    pageWrite s k (swatchWord f o.data w) o.bad

/-- An append as a release at scope core or warp leaves its note, and the issuing core's older copies of its lines go (R223, R302). -/
def appendNotes (s : State) (a : Append) : State :=
  let c := (warpOf s a.warp).core
  (appendLines a.kpa a.vpa (a.t % 64)).foldl (fun s l => noteRelease (l1DropLine s c l) c a.rel (256 * l)) s

/-- The append at its home slice, as one action (R282). -/
def appendAt (s : State) (a : Append) : State :=
  let r := a.t % 64
  let s := (a.k.zip (List.range 32)).foldl (fun s e => pageWrite s ((a.kpa + 256 * r) / 8 + e.2) e.1 false) s
  let s := (a.v.zip (List.range 32)).foldl (fun s e => pageWrite s ((a.vpa + 256 * r) / 8 + e.2) e.1 false) s
  let s := (a.k.zip (List.range 32)).foldl (fun s e => swatchPut s ((a.kpa + 16384) / 8 + e.2) chanMin (decide (r = 0)) e.1) s
  (a.k.zip (List.range 32)).foldl (fun s e => swatchPut s ((a.kpa + 16640) / 8 + e.2) chanMax (decide (r = 0)) e.1) s

/-- Whether the home of a line still serves partition p: it answers, and on another chip the partition that owns the page still admits
it (R365, R366, R374). -/
def kvServed (s : State) (p line : Nat) : Bool := served s p (line * 32) (isTagged s (line * 256))

/-- The first line of an append that its home does not take: it does not answer, or it holds code of a version bound since (R305). -/
def appendStops (s : State) (a : Append) : Option Nat :=
  (appendLines a.kpa a.vpa (a.t % 64)).find? (fun l => !kvServed s a.part l || codePage s (256 * l))

/-- Wake warps that wait for appends to a sequence. -/
def wakeAppend (s : State) (w : Nat) : State :=
  let s := wakeDrained s w
  if (warpOf s w).wait = .kvapp then updWarp s w (fun x => { x with wait := .none }) else s

/-- KVAPP_PERFORM: an append is performed at its home, in program order for one warp and sequence (R292). When the home of one of its lines
does not take it, the append, which is one action, is dropped whole, and the service core is told (R222, R282). DESIGN CHOICE (log entry
129). -/
def execKvappPerform (n : Nat) (s : State) : Host.Outcome State Fault Refusal :=
  .next (match s.appends[n]? with
    | none => s
    | some a =>
      if (s.appends.take n).any (fun b => decide (b.warp = a.warp ∧ b.seqKey = a.seqKey)) then s
      else
        let s := { s with appends := s.appends.eraseIdx n }
        wakeAppend (match appendStops s a with
          | none => appendNotes (appendAt s a) a
          | some l => tellDropped s a.part (256 * l)) a.warp)

/-! ## What KSEL and ATTN share -/

/-- Count an operation against a slot at its translation, for the epoch in force (R342). -/
def kvCount (s : State) (p seq : Nat) : State × List (Nat × Bool) :=
  let x := slotOf s p seq
  if x.live then
    (setSlot s p seq (if x.e then { x with cnt1 := x.cnt1 + 1 } else { x with cnt0 := x.cnt0 + 1 }), [(seq, x.e)])
  else (s, [])

/-- Take the count back at completion. -/
def kvUncount (s : State) (p : Nat) (es : List (Nat × Bool)) : State :=
  es.foldl (fun s e =>
    let x := slotOf s p e.1
    setSlot s p e.1 (if e.2 then { x with cnt1 := x.cnt1 - 1 } else { x with cnt0 := x.cnt0 - 1 })) s

/-- Record a fault of KSEL or ATTN on the lowest granule of its output tile (R200). -/
def recordOut (s : State) (team : Nat) (h : Handle) (c : Cause) : State := recordFault s team (h.granules.headD 0) ⟨c, none⟩

/-- Read n words of a page at their lines' homes. A word that is uncorrectable gives MCHK; a line whose home does not serve the read gives
PROT, and the service core is told (R222, R285). DESIGN CHOICE (log entry 129): with both, MCHK, which R156 ranks first. -/
def pageRead (s : State) (p pa n : Nat) : State × Except Cause (List Word) :=
  let ks := (List.range n).map (fun i => pa / 8 + i)
  let gone := (ks.map (fun k => k / 32)).eraseDups.filter (fun l => !kvServed s p l)
  let q := (ks.filter (fun k => !gone.contains (k / 32))).foldl (fun (a : State × List WV) k =>
    let (s, w) := homeRead a.1 k
    (s, a.2 ++ [w])) (s, [])
  let s := match gone with
    | [] => q.1
    | l :: _ => tellDropped q.1 p (256 * l)
  (s, if q.2.any (fun w => w.bad) then .error .mchk else if gone ≠ [] then .error .prot else .ok (q.2.map (fun w => w.data)))

/-- Whether an earlier KSEL or ATTN of the warp to a sequence is still under way: they take effect in program order (R292). -/
def readPending (s : State) (w key : Nat) : Bool :=
  s.ksels.any (fun o => decide (o.warp = w ∧ seqKey o.desc = key)) || s.attns.any (fun o => decide (o.warp = w ∧ seqKey o.desc = key))

/-! ## KSEL (R283-R285) -/

/-- The list tile of KSEL: SWZ 0 and room for P + 1 words (R283). -/
def kselD (blocks : Nat) (h : Handle) : Bool := decide (h.m = .lin ∧ blocks + 1 ≤ h.dataBytes / 8)

/-- KSEL (R283). -/
def execKsel (h : Hdr) (sink recent : Bool) (o : OpX4) (s : State) : Host.Outcome State Fault Refusal :=
  issued (.ksel h sink recent o) h s fun ix s =>
    let x := warpOf s ix.w
    let t := teamOf s x.team
    let p := warpPart s ix.w
    let dv := readReg x o.b ix.low
    let cv := readReg x o.c ix.low
    let df := descFaults ix ix.low dv true
    let hd := handleArg ix t (readReg x o.d ix.low) (kselD (if df = [] then dBlocks dv.pay else 0))
    let cf := if cv.tag = .poison then [⟨ix.low, .poison, fld cv.pay 0 16, ptrVal ix.pc⟩]
      else if cv.tag ≠ .int ∨ fld cv.pay 48 16 ≠ 0 then [faultAt ix ix.low .prot] else []
    let fs := widthFaults ix x ++ hd.faults ++ df ++ cf ++ rowFaults ix x o.a
    let fs := if fs ≠ [] then fs else ownerFaults ix t hd.tile.granules true
    if fs ≠ [] then .trap fs 0 []
    else if appendPending s ix.w (seqKey dv.pay) then .wait .kvapp s
    else if readPending s ix.w (seqKey dv.pay) then .wait .drain s
    else
      let gone := (slotOf s p (dSeq dv.pay)).draining && decide (dBlocks dv.pay ≠ 0)
      .ok { s with ksels := s.ksels ++ [{ core := x.core, team := x.team, warp := ix.w, part := p,
                                           tile := (readReg x o.d ix.low).pay, q := rowWords x o.a, desc := dv.pay, t := fld cv.pay 0 32, win := fld cv.pay 32 16,
                                           sink := sink, recent := recent,
                                           result := if gone then some ([wd (2 ^ 63)], some .kvmiss) else none,
                                           epochs := [] }] }

/-- A block's bounds from its swatch (R284): U rounded up, L rounded down. -/
def swatchBounds (q mn mx : List Word) : Num × Num :=
  let terms := (List.range 128).map (fun c =>
    let a := mulNum (chanNum q c) (chanNum mn c)
    let b := mulNum (chanNum q c) (chanNum mx c)
    (maxOf a b, minNum a b))
  if terms.any (fun e => !e.1.isFin || !e.2.isFin) then (.inf false, .inf true)
  else (fF32.dec (fF32.enc .ru (sumNum (terms.map (fun e => e.1)))), fF32.dec (fF32.enc .rd (sumNum (terms.map (fun e => e.2)))))

/-- A block's entry and bounds, or why it has none. -/
inductive Swatch
  | ok (j : Nat) (e : Word) (u l : Num)
  | fault (j : Nat) (c : Cause)
deriving DecidableEq, Repr

/-- Block j of a KSEL: its translation, through the KTB of its home slice, and its swatch (R280, R284, R285). -/
def blockBounds (s : State) (k : KselOp) (j : Nat) : State × Swatch :=
  match kvLookup s k.part (kvKey k.desc j) with
  | .ok e =>
    let (s, q) := kvSecond s k.part e
    (match q with
     | .miss => (s, .fault j .kvmiss)
     | .fault c => (s, .fault j c)
     | .lost => (tellDropped s k.part (eChip e * 2 ^ 46), .fault j .prot)
     | .ok kpa _ home =>
       let s := sliceFill s k.part (kvKey k.desc j) home e
       match pageRead s k.part (kpa + 16384) 64 with
       | (s, .error c) => (s, .fault j c)
       | (s, .ok ws) =>
         let b := swatchBounds k.q (ws.take 32) (ws.drop 32)
         (s, .ok j e b.1 b.2))
  | _ => (s, .fault j .kvmiss)

/-- Whether block a comes before block b in the order of step 1: by L descending, then j ascending. -/
def lBefore (a b : Nat × Num) : Bool :=
  match cmpNum a.2 b.2 with
  | some .gt => true
  | some .lt => false
  | _ => decide (a.1 < b.1)

/-- Insert a block into the order. -/
def lInsert (a : Nat × Num) : List (Nat × Num) → List (Nat × Num)
  | [] => [a]
  | b :: r => if lBefore a b then a :: b :: r else b :: lInsert a r

/-- The threshold (R284 step 2): the L at which the tokens first reach T. -/
def kselTheta (d : Word) (t : Nat) : Nat → List (Nat × Num) → Num
  | _, [] => .inf true
  | n, (j, l) :: r => if t ≤ n + dTokens d j then l else kselTheta d t (n + dTokens d j) r

/-- Value order for the listing rule: x at least y, infinities included. -/
def geNum (x y : Num) : Bool :=
  match cmpNum x y with
  | some .gt | some .eq => true
  | _ => false

/-- The list a KSEL writes (R284, R285): the count, then the listed blocks in ascending order. -/
def kselList (k : KselOp) (bs : List (Nat × Word × Num × Num)) : List Word :=
  let order := bs.foldl (fun o b => lInsert (b.1, b.2.2.2) o) []
  let theta := if k.t = 0 then .inf false else kselTheta k.desc k.t 0 order
  let p := dBlocks k.desc
  let ls := bs.filter (fun b => geNum b.2.2.1 theta || (k.sink && decide (b.1 = 0)) || (k.recent && decide (p ≤ b.1 + k.win)))
  wd ls.length :: ls.map (fun b => entryFor b.2.1 b.1)

/-- The result of a KSEL: the words, and the cause of the least block that has one. DESIGN CHOICE (log entry 130): where blocks meet
different faults, the least one's number and cause alone are written and recorded, whichever of the causes R156 ranks first. -/
def kselResult (k : KselOp) (ss : List Swatch) : List Word × Option Cause :=
  match ss.findSome? (fun x => match x with
      | .fault j c => some (j, c)
      | .ok .. => none) with
  | some (j, c) => ([wd (2 ^ 63 + j)], some c)
  | none => (kselList k (ss.filterMap (fun x => match x with
      | .ok j e u l => some (j, e, u, l)
      | .fault .. => none)), none)

/-- Change an entry of the selections. -/
def setKsel (s : State) (n : Nat) (k : KselOp) : State := { s with ksels := s.ksels.set n k }

/-- PAGE_SELECT: the selectors translate the blocks, bound them and choose (R284); a lookup of a block that a KVSD holds
waits for the hold to lift (R371). -/
def execPageSelect (n : Nat) (s : State) : Host.Outcome State Fault Refusal :=
  .next (match s.ksels[n]? with
    | none => s
    | some k =>
      let js := List.range (dBlocks k.desc)
      if k.result.isSome || js.any (fun j => kvHeld s k.part (kvKey k.desc j)) then s
      else
        let c := if js.any (fun j => (spGet KvEntry.none (partOf s k.part).kv (kvKey k.desc j)).cur.isSome) then
            kvCount s k.part (dSeq k.desc) else (s, [])
        let q := js.foldl (fun (a : State × List Swatch) j =>
          let b := blockBounds a.1 k j
          (b.1, a.2 ++ [b.2])) (c.1, [])
        setKsel q.1 n { k with result := some (kselResult k q.2), epochs := c.2 })

/-- Write 8-byte words from an offset, unswizzled. -/
def wordsWrite (t : Team) (off : Nat) (ws : List Word) : Team :=
  (ws.zip (List.range ws.length)).foldl (fun t e => scrWrite t .lin (off + 8 * e.2) 8 e.1.toNat) t

/-- KSEL_COMPLETE: the list is written, its fault recorded, the footprint flipped, the slot's count taken back (R285). -/
def execKselComplete (n : Nat) (s : State) : Host.Outcome State Fault Refusal :=
  .next (match s.ksels[n]? with
    | none => s
    | some k =>
      match k.result with
      | none => s
      | some (ws, f) =>
        let h := handleOf k.tile
        let s := { s with ksels := s.ksels.eraseIdx n }
        let s := updTeam s k.team (fun t => wordsWrite t h.data ws)
        let s := match f with
          | some c => recordOut s k.team h c
          | none => s
        wakeDrained (kvUncount (flipThread s k.team h.granules) k.part k.epochs) k.warp)

/-! ## ATTN (R287-R289) -/

/-- The triple tile and the list tile of ATTN. DESIGN CHOICE (log entry 102): a sparse F32 tile, whose elements the manual does not place
for an engine that writes them, is a bad triple handle. -/
def attnD (h : Handle) : Bool := decide (h.f = .f32 ∧ h.rows = 1 ∧ 130 ≤ h.cols ∧ h.sparse = 0)
def attnC (h : Handle) : Bool := decide (h.m = .lin)

/-- The list as ATTN reads it at issue: the count word, then that many entries the data can hold. -/
def listWord (t : Team) (h : Handle) (i : Nat) : Word := wd (scrRead t .lin (h.data + 8 * i) 8)
def listCap (h : Handle) : Nat := h.dataBytes / 8 - 1
def listEntries (t : Team) (h : Handle) : List Word :=
  (List.range (min (listWord t h 0).toNat (listCap h))).map (fun i => listWord t h (i + 1))

/-- Blocks strictly ascending from lo, below p, with no reserved bit. -/
def listOk (p : Nat) : Nat → List Word → Bool
  | _, [] => true
  | lo, e :: r => decide (lo ≤ fld e 48 16 ∧ fld e 48 16 < p ∧ fld e 40 8 = 0) && listOk p (fld e 48 16 + 1) r

/-- The causes of the list (R287). -/
def listFaults (ix : Ix) (t : Team) (h : Handle) (p : Nat) : List LFault :=
  let n := (listWord t h 0).toNat
  if h.dataBytes < 8 ∨ listCap h < n ∨ !listOk p 0 (listEntries t h) then [faultAt ix ix.low .prot] else []

/-- Uncorrectable words of the part of the list that is read. -/
def listErrors (ix : Ix) (t : Team) (h : Handle) : List LFault :=
  if (List.range ((listEntries t h).length + 1)).any (fun i => scrBadAt t .lin (h.data + 8 * i)) then [faultAt ix ix.low .mchk]
  else []

/-- One entry checked against CUR and resolved (R287): a block to compute, or the cause that is recorded. -/
def attnEntry (s : State) (p core : Nat) (d e : Word) : State × Except Cause AttnBlock :=
  let j := fld e 48 16
  match kvLookup s p (kvKey d j) with
  | .ok cur =>
    if eBody cur ≠ eBody e then (s, .error .kvmiss)
    else
      let (s, q) := kvSecond (ktbFill s core (kvKey d j) cur) p cur
      (match q with
       | .miss => (s, .error .kvmiss)
       | .fault c => (s, .error c)
       | .lost => (tellDropped s p (eChip cur * 2 ^ 46), .error .prot)
       | .ok kpa vpa home => (sliceFill s p (kvKey d j) home cur, .ok ⟨j, kpa, vpa, home, dTokens d j⟩))
  | _ => (s, .error .kvmiss)

/-- The earlier of two causes: the one of higher priority. -/
def worseCause (a b : Option Cause) : Option Cause :=
  match a, b with
  | none, b => b
  | a, none => a
  | some x, some y => if causePrio x ≤ causePrio y then some x else some y

/-- ATTN (R287). DESIGN CHOICE (log entry 131): the count and the entries of a list tile that the engines still own are judged too, as they
stand, so that PROT or MCHK of the contents is reported before OWNER (R156). -/
def execAttn (h : Hdr) (o : OpX4) (s : State) : Host.Outcome State Fault Refusal :=
  issued (.attn h o) h s fun ix s =>
    let x := warpOf s ix.w
    let t := teamOf s x.team
    let p := warpPart s ix.w
    let dv := readReg x o.b ix.low
    let d := dv.pay
    let hd := handleArg ix t (readReg x o.d ix.low) attnD
    let hc := handleArg ix t (readReg x o.c ix.low) attnC
    let df := descFaults ix ix.low dv true
    let fs := widthFaults ix x ++ hd.faults ++ hc.faults ++ df ++ rowFaults ix x o.a ++
      (if hc.faults = [] then
        listErrors ix t hc.tile ++ listFaults ix t hc.tile (if df = [] then dBlocks d else 65536) ++
          ownerFaults ix t hc.tile.granules false
       else []) ++
      (if hd.faults = [] then ownerFaults ix t hd.tile.granules true else [])
    let es := listEntries t hc.tile
    if fs ≠ [] then .trap fs 0 []
    else if appendPending s ix.w (seqKey d) then .wait .kvapp s
    else if readPending s ix.w (seqKey d) then .wait .drain s
    else if es.any (fun e => kvHeld s p (kvKey d (fld e 48 16))) then .wait (.kvHold p) s
    else
      let gone := (slotOf s p (dSeq d)).draining && decide (es ≠ [])
      let c := if gone ∨ es = [] then (s, []) else kvCount s p (dSeq d)
      let q := if gone then (c.1, [], some .kvmiss)
        else es.foldl (fun (a : State × List AttnBlock × Option Cause) e =>
          match attnEntry a.1 p x.core d e with
          | (s, .ok b) => (s, a.2.1 ++ [b], a.2.2)
          | (s, .error c) => (s, a.2.1, worseCause a.2.2 (some c))) (c.1, [], none)
      .ok { q.1 with attns := q.1.attns ++ [{ core := x.core, team := x.team, warp := ix.w, part := p,
                                               tile := (readReg x o.d ix.low).pay, q := rowWords x o.a, desc := d,
                                               chips := es.map (fun e => (fld e 48 16, eChip e)), todo := q.2.1, partials := [], acc := none,
                                               fault := q.2.2, epochs := c.2 }] }

/-- EXP2 of an exact value, to F32 with the accuracy of R115. -/
def exp2F32 (x : Num) : Num :=
  fF32.dec (pickResult fF32 false (fun i => Config.ulpChoice (tfnNum .exp2 * 16 + 6) (wd (fF64.enc .rn x)) i)
    (tfnEncl .exp2 fF32 x))

/-- Round to F32. -/
def toF32 (x : Num) : BitVec 32 := BitVec.ofNat 32 (fF32.enc .rn x)
def ofF32 (x : BitVec 32) : Num := fF32.dec x.toNat

/-- The difference of two values. -/
def subNum (x y : Num) : Num := sumNum [x, y.neg]

/-- A block's partial triple (R288): key and value rows of its valid tokens. -/
def attnTriple (q : List Word) (ks vs : List (List Word)) : Triple :=
  let sc := ks.map (fun k => ofF32 (toF32 (sumNum ((List.range 128).map (fun c => mulNum (chanNum q c) (chanNum k c))))))
  let m := sc.foldl maxOf (.inf true)
  let es := sc.map (fun x => exp2F32 (subNum x m))
  { m := toF32 m, l := toF32 (sumNum es),
    o := (List.range 128).map (fun c => toF32 (sumNum ((es.zip vs).map (fun e => mulNum e.1 (chanNum e.2 c))))) }

/-- Rows of 32 words. -/
def rowsOf (ws : List Word) (n : Nat) : List (List Word) := (List.range n).map (fun t => (ws.drop (32 * t)).take 32)

/-- Change an entry of the attentions. -/
def setAttn (s : State) (n : Nat) (a : AttnOp) : State := { s with attns := s.attns.set n a }

/-- ATTN_PARTIAL: the unit of a block's home slice computes its partial triple (R288). -/
def execAttnPartial (n : Nat) (block : Nat) (s : State) : Host.Outcome State Fault Refusal :=
  .next (match s.attns[n]? with
    | none => s
    | some a =>
      match a.todo.find? (fun b => decide (b.block = block)) with
      | none => s
      | some b =>
        let a := { a with todo := a.todo.filter (fun b => decide (b.block ≠ block)) }
        match pageRead s a.part b.kpa (32 * b.n) with
        | (s, .error c) => setAttn s n { a with fault := worseCause a.fault (some c) }
        | (s, .ok ks) =>
          match pageRead s a.part b.vpa (32 * b.n) with
          | (s, .error c) => setAttn s n { a with fault := worseCause a.fault (some c) }
          | (s, .ok vs) =>
            setAttn s n { a with partials := a.partials ++ [(block, attnTriple a.q (rowsOf ks b.n) (rowsOf vs b.n))] })

/-- A triple of default NaNs. -/
def nanTriple : Triple := ⟨BitVec.ofNat 32 fF32.qnan, BitVec.ofNat 32 fF32.qnan, List.replicate 128 (BitVec.ofNat 32 fF32.qnan)⟩

/-- The triple of an empty list. -/
def emptyTriple : Triple := ⟨BitVec.ofNat 32 (fF32.enc .rn (.inf true)), 0, List.replicate 128 0⟩

/-- One merge (R289). -/
def mergeTriple (a b : Triple) : Triple :=
  let m := ofF32 a.m
  let m' := ofF32 b.m
  if m.isNan || m'.isNan then nanTriple
  else
    let top := maxOf m m'
    let al := if m = .inf true then .fin false 0 0 else exp2F32 (subNum m top)
    let al' := if m' = .inf true then .fin false 0 0 else exp2F32 (subNum m' top)
    let mix := fun (x y : BitVec 32) => toF32 (sumNum [mulNum (ofF32 x) al, mulNum (ofF32 y) al'])
    { m := toF32 top, l := mix a.l b.l, o := (a.o.zip b.o).map (fun e => mix e.1 e.2) }

/-- The chip that computes a block's triple. -/
def blockChip (a : AttnOp) (block : Nat) : Option Nat := (a.chips.find? (fun e => decide (e.1 = block))).map (·.2)

/-- Whether the chip of a block's own triple does not answer (R377). -/
def tripleLost (s : State) (a : AttnOp) (block : Nat) : Bool :=
  (blockChip a block).any (fun c => !homeAnswers s (a.part / 16) (c * 2 ^ 46))

/-- A block whose triple no longer comes: the fault that R285 gives for a home that does not answer. -/
def loseBlock (a : AttnOp) (block : Nat) : AttnOp :=
  { a with todo := a.todo.filter (fun b => decide (b.block ≠ block)), partials := a.partials.filter (fun b => decide (b.1 ≠ block)),
           fault := worseCause a.fault (some .prot) }

/-- A chip has stopped answering: every block of its own that an ATTN has not merged yet is lost, whether or not the chip comes back
before the merge, and the service cores are told (R222, R377). -/
def loseTriples (s : State) : State :=
  s.attns.foldl (fun s a =>
    let r := ((a.todo.map (·.block) ++ a.partials.map (·.1)).filter (tripleLost s a)).foldl (fun (r : State × AttnOp) j =>
      (tellDropped r.1 a.part (((blockChip a j).getD 0) * 2 ^ 46), loseBlock r.2 j)) (s, a)
    { r.1 with attns := r.1.attns ++ [r.2] }) { s with attns := [] }

/-- Merge a partial triple with another triple in flight, or with what has been merged so far: the order of merges is
open (R289), and a free choice takes it. A triple into which another has been merged is no block's own any more. -/
def mergeOne (s : State) (n : Nat) (a : AttnOp) (block : Nat) (t : Triple) : State :=
  let rest := a.partials.filter (fun b => decide (b.1 ≠ block))
  let (k, s) := takeFree s
  match rest[k % (rest.length + 1)]? with
  | some (b, u) => setAttn s n { a with partials := rest.map (fun e => if e.1 = b then (65536 + b % 65536, mergeTriple t u) else e) }
  | none =>
    setAttn s n { a with partials := rest, acc := some (match a.acc with
      | some u => mergeTriple u t
      | none => t) }

/-- The words of the triple tile: m, l, o in element order, and the header's PEAK (R289). -/
def tripleWrite (t : Team) (h : Handle) (x : Triple) : Team :=
  let es := x.m :: x.l :: x.o
  let t := (es.zip (List.range es.length)).foldl (fun t e => eltWrite t h 0 e.2 e.1.toNat) t
  hdrWrite t h 0 (f32Up (maxMag (x.o.map ofF32)))

/-- An ATTN that has merged every block completes (R289). -/
def attnDone (s : State) (n : Nat) (a : AttnOp) : State :=
  let h := handleOf a.tile
  let s := { s with attns := s.attns.eraseIdx n }
  let t : Triple := match a.fault, a.acc with
    | some _, _ => ⟨BitVec.ofNat 32 fF32.qnan, 0, List.replicate 128 0⟩
    | none, some x => x
    | none, none => emptyTriple
  let s := updTeam s a.team (fun y => tripleWrite y h t)
  let s := match a.fault with
    | some c => recordOut s a.team h c
    | none => s
  wakeDrained (kvUncount (flipThread s a.team h.granules) a.part a.epochs) a.warp

/-- ATTN_MERGE: a partial triple is merged; with none left the ATTN completes (R289). -/
def execAttnMerge (n : Nat) (block : Nat) (s : State) : Host.Outcome State Fault Refusal :=
  .next (match s.attns[n]? with
    | none => s
    | some a =>
      match a.partials.find? (fun b => decide (b.1 = block)) with
      | some (_, t) => mergeOne s n a block t
      | none => if a.todo = [] ∧ a.partials = [] then attnDone s n a else s)

/-! ## KVXL (R291) -/

/-- One lane's entry: NIL when the block is not covered or not mapped. -/
def kvxlVal (s : State) (p : Nat) (d : Word) (j : Nat) : Val :=
  if 65536 ≤ j ∨ dBlocks d ≤ j then nilVal
  else match kvLookup s p (kvKey d j) with
    | .ok e => ⟨.int, entryFor e j⟩
    | _ => nilVal

/-- The causes of a lane's operands. -/
def kvxlFaults (ix : Ix) (l : Nat) (dv jv : Val) : List LFault :=
  descFaults ix l dv true ++
  (if jv.tag = .poison then [⟨l, .poison, fld jv.pay 0 16, ptrVal ix.pc⟩]
   else if jv.tag ≠ .int then [faultAt ix l .prot] else [])

/-- KVXL (R291): a lane whose block a KVSD holds waits for the hold to lift. -/
def execKvxl (h : Hdr) (d a b : Reg) (s : State) : Host.Outcome State Fault Refusal :=
  issued (.kvxl h d a b) h s fun ix s =>
    let x := warpOf s ix.w
    let p := warpPart s ix.w
    let ls := actLanes ix (.reg d) [a, b]
    let fs := (ls.map (fun l => kvxlFaults ix l (readReg x a l) (readReg x b l))).flatten
    let key := fun l => kvKey (readReg x a l).pay (readReg x b l).pay.toNat
    if fs ≠ [] then .trap fs 0 []
    else if ls.any (fun l => decide ((readReg x b l).pay.toNat < dBlocks (readReg x a l).pay) && kvHeld s p (key l)) then
      .wait (.kvHold p) s
    else laneOp ix s (.reg d) [a, b] fun l => .val (kvxlVal s p (readReg x a l).pay (readReg x b l).pay.toNat)

end Sys2Proof.Machine
end

