-- ==== Sys2Proof/Machine/KvMap.lean ====
section
/-! DEFINITION. KVMAP (R370), KVSD and its shootdown (R371), KVRET and the end of a slot (R342, R343). -/

namespace Sys2Proof.Machine

open Sys2Proof

/-! ## KVMAP (R370) -/

/-- The causes of C: its tag, a reserved bit, TIER 3, or a chip that is neither this one nor paired. -/
def kvmapC (s : State) (p : Nat) (v : Val) : Bool :=
  match v.tag with
  | .nil => true
  | .int =>
    decide (fld v.pay 40 8 = 0) && decide (eTier v.pay ≠ 3) &&
      (decide (eChip v.pay = p / 16) || (fatEntry (partOf s p) (eChip v.pay)).isSome)
  | _ => false

/-- POISON, or PROT when a test of the operand fails. -/
def operandFaults (ix : Ix) (v : Val) (ok : Bool) : List LFault :=
  if v.tag = .poison then [⟨ix.low, .poison, fld v.pay 0 16, ptrVal ix.pc⟩]
  else if ok then [] else [faultAt ix ix.low .prot]

/-- PRIV outside supervisor state (R46). -/
def privFaults (ix : Ix) (x : Warp) : List LFault := if super x then [] else [faultAt ix ix.low .priv]

/-- First-stage entries that a partition's region holds (R368). -/
def kvRoom (s : State) (p : Nat) : Nat := fld (spGet 0 (partOf s p).words 6) 0 8 * 65536

/-- KVMAP (R370, R342). -/
def execKvmap (h : Hdr) (a b c : Reg) (s : State) : Host.Outcome State Fault Refusal :=
  issued (.kvmap h a b c) h s fun ix s =>
    let x := warpOf s ix.w
    let p := warpPart s ix.w
    let dv := readReg x a ix.low
    let jv := readReg x b ix.low
    let cv := readReg x c ix.low
    let fs := privFaults ix x ++ descFaults ix ix.low dv false ++
      operandFaults ix jv (decide (jv.tag = .int ∧ jv.pay.toNat < 65536)) ++ operandFaults ix cv (kvmapC s p cv)
    let key := kvKey dv.pay jv.pay.toNat
    let y := partOf s p
    let e := spGet KvEntry.none y.kv key
    let slot := slotOf s p (dSeq dv.pay)
    let full := (decide (e = KvEntry.none) && decide (kvRoom s p ≤ y.kv.length)) ||
      (!slot.live && decide (65536 ≤ y.slots.length))
    if fs ≠ [] then .trap fs 0 []
    else if kvHeld s p key then .wait (.kvHold p) s
    else if full then trapOnce ix .prot
    else
      let next := if cv.tag = .nil then none else some (eBody cv.pay)
      let s := updPart s p (fun y => { y with kv := spSet KvEntry.none y.kv key { e with next := next, p := true } })
      .ok (if slot.live then s else setSlot s p (dSeq dv.pay) { KvSlot.none with live := true })

/-! ## KVSD (R371) -/

/-- The entries of a range that wait for a KVSD. -/
def kvPending (s : State) (p lo n : Nat) : List Nat :=
  ((partOf s p).kv.filter (fun e => decide (lo ≤ e.1 ∧ e.1 < lo + n) && e.2.p)).map (·.1)

/-- The chips whose KTBs are asked: this one, and those that CUR of the entries names. -/
def kvsdChips (s : State) (p : Nat) (keys : List Nat) : List Nat :=
  if keys = [] then []
  else (p / 16 :: keys.filterMap (fun k => (spGet KvEntry.none (partOf s p).kv k).cur.map eChip)).eraseDups

/-- Whether an entry of a sequence is left in the first stage. -/
def seqMapped (s : State) (p seq : Nat) : Bool := (partOf s p).kv.any (fun e => decide (keySeq e.1 = seq))

/-- The last step of a KVSD: CUR becomes NEXT, which stays as it is, the slot's epoch flips, the hold is lifted, and the waiting warps go on. A
slot that has drained ends once no entry of its sequence is left (R342). -/
def kvsdFinish (s : State) (o : KvsdOp) : State :=
  let s := { s with kvsds := s.kvsds.filter (fun q => decide (q.id ≠ o.id)) }
  let s := updPart s o.part (fun y =>
    { y with kv := o.keys.foldl (fun m k =>
        let e := spGet KvEntry.none m k
        spSet KvEntry.none m k { cur := e.next, next := e.next, p := false }) y.kv })
  let seq := keySeq o.lo
  let x := slotOf s o.part seq
  let s := if x.live then setSlot s o.part seq { x with e := !x.e } else s
  let s := if x.told && !seqMapped s o.part seq then setSlot s o.part seq KvSlot.none else s
  { s with warps := spMap Warp.none (fun _ y =>
      match y.wait with
      | .kvsd i => if i = o.id then { y with wait := .none } else y
      | .kvHold p => if p = o.part then { y with wait := .none } else y
      | _ => y) s.warps }

/-- KVSD (R371). -/
def execKvsd (h : Hdr) (a b : Reg) (s : State) : Host.Outcome State Fault Refusal :=
  issued (.kvsd h a b) h s fun ix s =>
    let x := warpOf s ix.w
    let p := warpPart s ix.w
    let dv := readReg x a ix.low
    let bv := readReg x b ix.low
    let j0 := fld bv.pay 0 16
    let n := fld bv.pay 16 17
    let fs := descFaults ix ix.low dv false ++
      operandFaults ix bv (decide (bv.tag = .int ∧ fld bv.pay 33 31 = 0 ∧ 1 ≤ n ∧ j0 + n ≤ 65536))
    let lo := kvKey dv.pay j0
    if fs ≠ [] then .trap fs 0 []
    else if warpBusy s ix.w then .wait .drain s
    else if s.kvsds.any (fun o => decide (o.part = p ∧ o.lo < lo + n ∧ lo < o.lo + o.n)) then .wait (.kvHold p) s
    else
      let s := release s x.core .fabric
      let keys := kvPending s p lo n
      let chips := kvsdChips s p keys
      let o : KvsdOp := { id := s.nextKvsd, warp := ix.w, part := p, lo := lo, n := n, keys := keys, asked := [],
                          owed := chips.filter (fun c => decide (c = p / 16) || !spGet false s.lost c) }
      let s := { s with kvsds := s.kvsds ++ [o], nextKvsd := s.nextKvsd + 1 }
      if o.owed = [] then .ok (kvsdFinish s o)
      else .ok (updWarp s ix.w (fun y => { y with wait := .kvsd o.id }))

/-- Drop the held entries from every KTB of this chip, and their GBNs, which are the owning partition's, from every KTB of a chip that CUR
names: the second-stage words of the GBN, and the first-stage entries of this partition that name it. -/
def ktbDrop (s : State) (o : KvsdOp) (chip : Nat) : State :=
  let gbns := o.keys.filterMap (fun k => (spGet KvEntry.none (partOf s o.part).kv k).cur.bind (fun e =>
    if eChip e = chip then some (eGbn e) else none))
  let owner := ((kvOwner s o.part chip).getD o.part) % 16
  let mine := chip = o.part / 16
  { s with
    sktb := spSet [] s.sktb chip ((spGet [] s.sktb chip).filter (fun e =>
      !(decide (e.1 / 2 / 2 ^ 32 = owner) && gbns.contains (e.1 / 2 % 2 ^ 32))))
    cores := if mine then spMap Core.none (fun c x =>
        if coreChip c = chip then { x with ktb := x.ktb.filter (fun e => !o.keys.contains e.1) } else x) s.cores
      else s.cores
    slkv := spMap [] (fun h m =>
      if h / 640 = chip then m.filter (fun e => !((mine && (o.keys.map (sliceKey o.part)).contains e.1) ||
        (decide (e.1 / 2 ^ 54 = o.part ∧ eChip e.2 = chip) && gbns.contains (eGbn e.2))))
      else m) s.slkv }

def setKvsd (s : State) (o : KvsdOp) : State := { s with kvsds := s.kvsds.map (fun q => if q.id = o.id then o else q) }

/-- Whether a chip can be asked, and can answer: a peer whose links are all down does neither until it is declared lost (R367, R371). -/
def kvsdReaches (s : State) (o : KvsdOp) (chip : Nat) : Bool := homeAnswers s (o.part / 16) (chip * 2 ^ 46)

/-- KTB_SHOOTDOWN_REQUEST: the KTBs of a chip are asked to invalidate (R371). -/
def execKtbShootdownRequest (chip n : Nat) (s : State) : Host.Outcome State Fault Refusal :=
  .next (match s.kvsds.find? (fun o => decide (o.id = n)) with
    | some o =>
      if o.owed.contains chip && !o.asked.contains chip && kvsdReaches s o chip then setKvsd (ktbDrop s o chip) { o with asked := chip :: o.asked } else s
    | none => s)

/-- A chip's KTBs count as acknowledged; with the last one the KVSD finishes. -/
def kvsdAck (s : State) (o : KvsdOp) (chip : Nat) : State :=
  let o := { o with owed := o.owed.filter (fun c => decide (c ≠ chip)) }
  if o.owed = [] then kvsdFinish s o else setKvsd s o

/-- KTB_ACKNOWLEDGMENT: a chip that was asked acknowledges (R371). -/
def execKtbAcknowledgment (chip n : Nat) (s : State) : Host.Outcome State Fault Refusal :=
  .next (match s.kvsds.find? (fun o => decide (o.id = n)) with
    | some o => if o.asked.contains chip && o.owed.contains chip && kvsdReaches s o chip then kvsdAck s o chip else s
    | none => s)

/-- A chip that has been lost comes back from a reset with empty KTBs, in its cores and in its slices (R371). -/
def emptyKtbs (s : State) (chip : Nat) : State :=
  { s with
    cores := spMap Core.none (fun c x => if coreChip c = chip then { x with ktb := [] } else x) s.cores
    slkv := s.slkv.filter (fun e => decide (e.1 / 640 ≠ chip)), sktb := spSet [] s.sktb chip [] }

/-- A lost chip's KTBs are gone, and count as acknowledged in every KVSD that waits for them (R371). -/
def kvsdLost (s : State) (chip : Nat) : State :=
  s.kvsds.foldl (fun s o => if o.owed.contains chip && decide (chip ≠ o.part / 16) then kvsdAck s o chip else s) (emptyKtbs s chip)

/-! ## KVRET and SLOT_DRAINED (R342) -/

/-- KVRET (R342): the slot of A's SEQ drains. -/
def execKvret (h : Hdr) (a : Reg) (s : State) : Host.Outcome State Fault Refusal :=
  issued (.kvret h a) h s fun ix s =>
    let v := readReg (warpOf s ix.w) a ix.low
    let p := warpPart s ix.w
    let fs := operandFaults ix v (decide (v.tag = .int))
    let x := slotOf s p (dSeq v.pay)
    if fs ≠ [] then .trap fs 0 []
    else .ok (if x.live then setSlot s p (dSeq v.pay) { x with draining := true } else s)

/-- SLOT_DRAINED: a draining slot with both counters zero is reported to the service core (R342). -/
def execSlotDrained (part seq : Nat) (s : State) : Host.Outcome State Fault Refusal :=
  .next (let x := slotOf s part seq
    if x.draining && !x.told && decide (x.cnt0 = 0 ∧ x.cnt1 = 0) then
      let s := tellSvc (setSlot s part seq { x with told := true }) part (.drained seq)
      if seqMapped s part seq then s else setSlot s part seq KvSlot.none
    else s)

end Sys2Proof.Machine
end

