-- ==== Sys2Proof/Machine/Retire.lean ====
section
/-! DEFINITION. The end of a warp and of a grid (R152, R321). -/

namespace Sys2Proof.Machine

open Sys2Proof

/-- Word k of a launch record. -/
def recWord (ws : List Word) (k : Nat) : Word := (ws[k]?).getD 0

/-- The signal of a record with SIG = 1: operation, word and value (R313, R316). -/
def recSig (ws : List Word) : Option (SigOp × Nat × Word) :=
  if bitAt (recWord ws 0) 30 then
    let op := match fld (recWord ws 0) 28 2 with
      | 0 => SigOp.set
      | 1 => SigOp.add
      | _ => SigOp.or
    some (op, (recWord ws 9).toNat, recWord ws 10)
  else none

/-- Hold a completion record until the ring has room (R312, R322). -/
def holdCompl (s : State) (q : Nat) (c : Compl) : State := updQueue s q (fun x => { x with held := x.held ++ [c] })

/-- A grid that has ended: its number keeps its partition only (R332, R334). -/
def gridGone (s : State) (g : Nat) : State := setGrid s g { Grid.none with used := true, part := (gridOf s g).part }

/-- A team still has a warp that runs: once the last one has ended there is no team to stop or to save (R330, R334). -/
def teamRuns (s : State) (t : Team) : Bool := t.live && t.warps.any (fun w => (warpOf s w).live)

/-- The warps that PRMT made wait go on once no team of the grid still runs (R330). -/
def wakeStop (s : State) (g : Nat) : State :=
  if s.teams.any (fun e => teamRuns s e.2 && decide (e.2.grid = g) && !e.2.stopped) then s
  else { s with warps := spMap Warp.none (fun _ x => if x.wait = .stop g then { x with wait := .none } else x) s.warps }

/-- A grid whose live-warp count has reached zero: its completion record is due, and the grid is gone; a graph node
waits for GRAPH_NODE_COMPLETE (R317, R321). -/
def gridDone (s : State) (g : Nat) : State :=
  let x := gridOf s g
  if !x.live || x.warpsLeft ≠ 0 then s
  else match x.node with
    | some _ => s
    | none =>
      gridGone (holdCompl s x.queue { index := x.index, gridno := g, status := if x.killed then 1 else 0, kind := 0,
                                      user := 0, warp := none, sig := recSig x.words }) g

/-- One warp of a grid has retired, or n of them (R321). -/
def gridLess (s : State) (g n : Nat) : State := gridDone (updGrid s g (fun x => { x with warpsLeft := x.warpsLeft - n })) g

/-- A warp with no lane ready or waiting terminates: it issues no more, and its grid counts it down (R152, R321); a PRMT that waits for
its team finds one team less (R334). -/
def retireWarp (s : State) (w : Nat) : State :=
  let x := warpOf s w
  if x.live && decide (aliveLanes x = []) then
    let g := (teamOf s x.team).grid
    let s := gridLess (setWarp s w { x with live := false }) g 1
    if s.warps.any (fun e => decide (e.2.wait = .stop g)) then wakeStop s g else s
  else s

end Sys2Proof.Machine
end

