-- ==== Sys2Proof/Machine/Package.lean ====
section
/-! DEFINITION. The package instructions of R323-R329 and R344: WQRY, SIGNAL, WAITS, CMPL, DLAUNCH, SVCALL, ICINV, with
their events. -/

namespace Sys2Proof.Machine

open Sys2Proof

/-! ## WQRY (R324) -/

/-- WQRY (R324). -/
def execWqry (h : Hdr) (a : Reg) (s : State) : Host.Outcome State Fault Refusal :=
  issued (.wqry h a) h s fun ix s =>
    let x := warpOf s ix.w
    let t := teamOf s x.team
    let v := readReg x a ix.low
    match handleArg ix t v (fun h => decide (8 ≤ h.dataBytes)) with
    | .fault f => .trap [f] 0 []
    | .ok q =>
      let fs := ownerFaults ix t q.granules true
      if fs ≠ [] then .trap fs 0 [] else .ok { s with wqrys := s.wqrys ++ [(x.team, v.pay)] }

/-- WQRY_REPLY: the Dresser hands out the grid's next item, written unswizzled, and the footprint flips (R324). -/
def execWqryReply (n : Nat) (s : State) : Host.Outcome State Fault Refusal :=
  .next (match s.wqrys[n]? with
    | none => s
    | some (team, tile) =>
      let h := handleOf tile
      let g := (teamOf s team).grid
      let x := gridOf s g
      let work := fld (recWord x.words 6) 0 32
      let more := decide (x.nextItem < work)
      let item := if more then x.nextItem else 0xFFFFFFFF
      let s := { s with wqrys := s.wqrys.eraseIdx n }
      let s := if more then updGrid s g (fun y => { y with nextItem := y.nextItem + 1 }) else s
      flipThread (updTeam s team (fun t => scrWrite t .lin h.data 8 item)) team h.granules)

/-! ## SIGNAL (R325) -/

/-- The host operation of a SIGNAL: SET is a Swap and ADD a FetchAdd; PCI Express has no OR (R265). -/
def signalHost : SigOp → Option AOp
  | .set => some .swap
  | .add => some .add
  | .or => none

/-- The causes of a SIGNAL's place: a device window, or a host word that PCI Express cannot update (R265). -/
def signalPlace (s : State) (op : SigOp) (a : Acc) : List LFault :=
  if isMmio s a.pa || (isHost a.pa && (signalHost op).isNone) then [⟨a.lane, .prot, 0, ptrVal (wd a.va)⟩] else []

/-- A SIGNAL's update on its way to the word's home, for warp w of core c, in whose table it has an entry until it has been performed (R187,
R255, R256), or, with w = 0, for the Dresser; a home that does not
answer drops it, and the service core is told. -/
def signalOut (s : State) (p c w : Nat) (op : SigOp) (b : Word) (pa : Nat) (t : Bool) : State :=
  if isHost pa then
    if Config.hostAtomics (paChip pa) ∧ homeAnswers s (p / 16) pa then
      let s := l2Evict s (pa / 256)
      let a := signalWord op false (rawRead s (pa / 8)) b
      wakeWord (match a.write with
        | some v => clearResv (rawWrite s (pa / 8) v.pay 0xFF none false) (pa / 8) none
        | none => s) pa
    else tellDropped s p pa
  else if served s p (pa / 8) t then
    let e := if w = 0 then (s, 0) else addReq s c { warp := w, outs := [], atomic := true, pa := pa, bar := false }
    sendReq e.1 p { core := c, slot := e.2, warp := w, pa := pa, tagged := t, op := .signal op b, acq := none, racq := false }
  else tellDropped s p pa

/-- The same for an access of a warp. -/
def sendSignal (s : State) (ix : Ix) (op : SigOp) (b : Word) (a : Acc) : State :=
  signalOut s (warpPart s ix.w) (warpOf s ix.w).core ix.w op b a.pa a.leaf.t

/-- SIGNAL (R325). -/
def execSignal (h : Hdr) (op : SigOp) (rel : Bool) (o : OpSig) (s : State) : Host.Outcome State Fault Refusal :=
  issued (.signal h op rel o) h s fun ix s =>
    let x := warpOf s ix.w
    let bv := readReg x o.b ix.low
    let p := planMem s ix [ix.low] o.a .nil 0 8 8 [.w] true
    let p : Plans := { p.check (signalPlace s op) with
      faults := (p.check (signalPlace s op)).faults ++ operandFaults ix bv (decide (bv.tag = Tag.int)) }
    if !p.clear then finishCalls p.s ix p.calls p.faults p.misses id
    else if reqBusy p.s ix (reqScope x (if rel then .rel else .plain) o.scope).isSome p.accs then .wait .drain p.s
    else if reqRoom p.s x.core < p.accs.length then .wait .requests p.s
    else
      finishCalls p.s ix p.calls [] [] (fun s =>
        if p.accs = [] then s
        else
          let s := beforeReqs s ix (if rel then .rel else .plain) o.scope p.accs
          p.accs.foldl (fun s a => sendSignal s ix op bv.pay a) s)

/-! ## WAITS (R326) -/

/-- A word of host memory is read at the host: the slice's copy of its line, which is no home, is written out and dropped first (R297, R326). -/
def hostFresh (s : State) (pa : Nat) : State := if isHost pa then l2Evict s (pa / 256) else s

/-- A word as WAITS reads it at its home. -/
def waitsRead (s : State) (p pa : Nat) (t : Bool) : State × Val :=
  if !served s p (pa / 8) t then (tellRefused s p pa, poisonVal 0x21)
  else
    let (s, w) := homeRead (hostFresh s pa) (pa / 8)
    (s, if w.bad then poisonVal 0x40 else if t then ⟨w.tag, canonPay w.tag w.data⟩ else ⟨.int, w.data⟩)

/-- Whether a word satisfies a condition; NIL reads 0 (R326). -/
def waitsHolds (cc : Cc) (x : Val) (b : Word) : Bool := ccInt cc x.pay.toInt b.toInt

/-- WAITS (R326): it stays at its address until the word satisfies the condition. -/
def execWaits (h : Hdr) (cc : Cc) (acq : Bool) (o : OpSig) (s : State) : Host.Outcome State Fault Refusal :=
  issued (.waits h cc acq o) h s fun ix s =>
    let x := warpOf s ix.w
    let bv := readReg x o.b ix.low
    let p := planMem s ix [ix.low] o.a .nil 0 8 8 [.r] true
    let p : Plans := { p with faults := p.faults ++ operandFaults ix bv (decide (bv.tag = Tag.int)) }
    if !p.clear then finishCalls p.s ix p.calls p.faults p.misses id
    else if mustDrain p.s ix.w p.accs then .wait .drain p.s
    else match p.accs with
      | [] => finishCalls p.s ix p.calls [] [] id
      | a :: _ =>
        let r : State × Val := if ownMmio p.s x.core a.pa then (p.s, (⟨Tag.int, mmioRead p.s a.pa⟩ : Val))
          else waitsRead (readAtHome p.s x.core (a.pa / 8)) (warpPart s ix.w) a.pa a.leaf.t
        if r.2.tag = Tag.poison then trapPoison ix r.2
        else if waitsHolds cc r.2 bv.pay then .ok (if acq then acquire r.1 x.core o.scope else r.1)
        else .wait (.word a.pa a.leaf.ext cc bv.pay) r.1

/-- A waiting WAITS tests its word again: when the condition holds, or the word cannot be read as a value, it issues again. -/
def waitsTest (s : State) (w : Nat) (host : Bool) : State :=
  match (warpOf s w).wait with
  | .word pa _ cc v =>
    if isHost pa ≠ host then s
    else
      let r : State × Val := if ownMmio s (warpOf s w).core pa then (s, (⟨Tag.int, mmioRead s pa⟩ : Val))
        else waitsRead s (warpPart s w) pa (isTagged s pa)
      if r.2.tag = Tag.poison || waitsHolds cc r.2 v then updWarp r.1 w (fun x => { x with wait := .none }) else r.1
  | _ => s

/-- WAITS_RECHECK: the home reports a write to the word (R326). -/
def execWaitsRecheck (w : Nat) (s : State) : Host.Outcome State Fault Refusal := .next (waitsTest s w false)

/-- WAITS_HOST_POLL: a host word is reread every 4,096 cycles (R326). -/
def execWaitsHostPoll (w : Nat) (s : State) : Host.Outcome State Fault Refusal := .next (waitsTest s w true)

/-! ## CMPL (R327) -/

/-- CMPL (R327): its record is held until it has been written, and the warp waits for that. -/
def execCmpl (h : Hdr) (a : Reg) (s : State) : Host.Outcome State Fault Refusal :=
  issued (.cmpl h a) h s fun ix s =>
    let x := warpOf s ix.w
    let v := readReg x a ix.low
    let g := (teamOf s x.team).grid
    let y := gridOf s g
    let fs := (if !y.live then [faultAt ix ix.low .ill] else []) ++
      operandFaults ix v (decide (v.tag = .int ∨ v.tag = .ptr))
    if fs ≠ [] then .trap fs 0 []
    else if warpBusy s ix.w then .wait .drain s
    else
      let s := release s x.core .system
      let s := holdCompl s y.queue { index := y.index, gridno := g, status := 0, kind := 1, user := v.pay, warp := some ix.w,
                                     sig := none }
      .ok (updWarp s ix.w (fun z => { z with wait := .record y.queue }))

/-! ## DLAUNCH (R328) -/

/-- The Dresser's translation of an address that a queue, a record or a graph holds (R387): the partition's table in
force. -/
def dresserTrans (s : State) (p va : Nat) (n : Need) : Option (Except Cause (Nat × Leaf)) :=
  if 2 ^ 48 ≤ va then some (.error .xlat)
  else
    match resolve s (p / 16 * 512 + 320 + p % 16) p (partOf s p).ptroot.toNat (va / 4096) with
    | none => none
    | some (.error c) => some (.error c)
    | some (.ok l) =>
      let pa := l.pa + va % 4096
      some (if permits (p / 16 * 512) n l && !writesCode s p n l pa && reaches s (p / 16 * 512 + 320 + p % 16) p pa then .ok (pa, l)
        else .error .prot)

/-- The I/O address of a page that the host owes, to ask for. -/
def dresserOwed (s : State) (p va : Nat) : Nat :=
  match walk s (p / 16 * 512 + 320 + p % 16) p (partOf s p).ptroot.toNat (va / 4096) with
  | .leaf l => l.pa
  | _ => 0

/-- Write a word at its home on the Dresser's behalf: the tag of a tagged region becomes INT. -/
def dresserWrite (s : State) (pa : Nat) (l : Leaf) (w : Word) : State :=
  homeWrite s (pa / 8) w 0xFF (if l.t then some .int else none) false none

/-- Whether a partition's grant holds a queue (R337). -/
def queueGranted (s : State) (p q : Nat) : Bool :=
  let w2 := spGet 0 (partOf s p).words 2
  decide (fld w2 0 17 ≤ q ∧ q < fld w2 0 17 + fld w2 17 18)

/-- The words of a record at a virtual address of the warp: read, to be walked for, or a fault at an address. -/
inductive RecRead
  | ok (s : State) (ws : List Word)
  | miss (vpn : Nat)
  | fault (s : State) (c : Cause) (va : Nat)
deriving DecidableEq, Repr

def readRecord (s : State) (w va : Nat) : RecRead :=
  (List.range 16).foldl (fun r i =>
    match r with
    | .ok s ws =>
      (match needWord s w (va + 8 * i) .r with
       | .ok s v _ => .ok s (ws ++ [v.data])
       | .miss n => .miss n
       | .fault s c => .fault s c (va + 8 * i))
    | r => r) (.ok s [])

/-- The record enters the ring at TAIL, and TAIL advances (R328); a fault of RBASE stops the queue (R387). -/
def ringPut (s : State) (ix : Ix) (p q : Nat) (ws : List Word) : Res :=
  let x := queueOf s q
  let va := x.rbase.toNat + 128 * (x.tail.toNat % 2 ^ x.rlog)
  match dresserTrans s p va .w with
  | none => .wait (.pri (dresserOwed s p va) (va / 4096)) (askHost s p [dresserOwed s p va])
  | some (.error _) => .ok (priTaken (updQueue s q (fun y => { queueErr y 2 with stopped := true })) p)
  | some (.ok (pa, l)) =>
    if !served s p (pa / 8) l.t then .ok (updQueue (tellDropped s p pa) q (fun y => { queueErr y 2 with stopped := true }))
    else
      let s := l1Evict s (warpOf s ix.w).core (pa / 256)
      let s := (ws.zip (List.range 16)).foldl (fun s e => dresserWrite s (pa + 8 * e.2) l e.1) s
      .ok (tailWrite s q (x.tail + 1))

/-- DLAUNCH (R328). -/
def execDlaunch (h : Hdr) (a b : Reg) (s : State) : Host.Outcome State Fault Refusal :=
  issued (.dlaunch h a b) h s fun ix s =>
    let x := warpOf s ix.w
    let p := warpPart s ix.w
    let av := readReg x a ix.low
    let bv := readReg x b ix.low
    let va := av.pay.toNat
    let fs := operandFaults ix av (decide (av.tag = .ptr ∨ av.tag = .int)) ++
      (if (av.tag = .ptr ∨ av.tag = .int) ∧ fld av.pay 48 16 ≠ 0 then [⟨ix.low, .xlat, 0, ptrVal av.pay⟩] else []) ++
      (if (av.tag = .ptr ∨ av.tag = .int) ∧ va % 128 ≠ 0 then [⟨ix.low, .align, 0, ptrVal av.pay⟩] else []) ++
      operandFaults ix bv (decide (bv.tag = Tag.int) && queueGranted s p bv.pay.toNat)
    let q := p / 16 * 131072 + bv.pay.toNat
    if fs ≠ [] then .trap fs 0 []
    else if warpBusy s ix.w then .wait .drain s
    else match readRecord s ix.w va with
      | .miss n => .wait (.walk [n]) s
      | .fault s c va => .trapIn s [⟨ix.low, c, 0, ptrVal (wd va)⟩]
      | .ok s ws =>
        let s := release s x.core .package
        let y := queueOf s q
        if 2 ^ y.rlog ≤ (y.tail - y.head).toNat then .wait (.ring q) s else ringPut s ix p q ws

/-! ## SVCALL (R329) -/

/-- SVCALL (R329): the request goes to the partition's service core, and the warp waits for the reply. -/
def execSvcall (h : Hdr) (n : BitVec 16) (s : State) : Host.Outcome State Fault Refusal :=
  issued (.svcall h n) h s fun ix s =>
    let x := warpOf s ix.w
    if isService x.core then trapOnce ix .ill
    else
      let s := tellSvc s (warpPart s ix.w) (.svcall ix.w n.toNat ((List.range 4).map (fun i => uniReg x (56 + i))))
      .ok (updWarp s ix.w (fun y => { y with wait := .svcall }))

/-- A tag that a register may hold (R69). -/
def regTag (t : Tag) : Bool := decide (t ≠ .fwd ∧ t ≠ .pend)

/-- SVCALL_REPLY: the service core replies with s56 and s57 (R329). -/
def execSvcallReply (w : Nat) (x y : Val) (s : State) : Host.Outcome State Fault Refusal :=
  .next (if (warpOf s w).wait = .svcall ∧ regTag x.tag ∧ regTag y.tag then
      updWarp s w (fun z => { setUniReg (setUniReg z 56 x) 57 y with wait := .none })
    else s)

/-! ## ICINV (R344) -/

/-- Warps resident on a core whose launch is bound to a version. -/
def versionRefs (s : State) (c v : Nat) : Nat :=
  (s.warps.filter (fun e => e.2.live && decide (e.2.core = c ∧ (teamOf s e.2.team).version = v))).length

/-- Drop the lines of a core whose version nothing references, of one version or of all. -/
def icDrop (s : State) (c : Nat) (v : Option Nat) : State :=
  updCore s c (fun x =>
    { x with ibuf := x.ibuf.filter (fun e =>
        (match v with
         | some n => decide (e.version ≠ n)
         | none => false) || decide (versionRefs s c e.version ≠ 0)) })

/-- ICINV (R344). -/
def execIcinv (h : Hdr) (a : Reg) (s : State) : Host.Outcome State Fault Refusal :=
  issued (.icinv h a) h s fun ix s =>
    let x := warpOf s ix.w
    let v := readReg x a ix.low
    let fs := privFaults ix x ++ operandFaults ix v (decide (v.tag = .int ∨ v.tag = .nil))
    if fs ≠ [] then .trap fs 0 []
    else
      .ok ((coresOf s (warpPart s ix.w)).foldl (fun s c =>
        icDrop s c (if v.tag = .nil then none else some v.pay.toNat)) s)

end Sys2Proof.Machine
end

