-- ==== Sys2Proof/Machine/Dresser.lean ====
section
/-! DEFINITION. The Dresser: queues and launch records (R311-R316, R387), graphs and loop nodes (R317, R318), placement
(R319, R188), completion records (R321, R322), and the watchdog (R335). -/

namespace Sys2Proof.Machine

open Sys2Proof

/-! ## What the Dresser reads (R387) -/

/-- The partition whose grant holds a queue (R337). -/
def queuePart (s : State) (q : Nat) : Option Nat :=
  let chip := q / 131072
  ((List.range 16).find? (fun n => (partOf s (chip * 16 + n)).valid && queueGranted s (chip * 16 + n) (q % 131072))).map
    (fun n => chip * 16 + n)

/-- Words at a virtual address of the partition: read, owed a translation by the host, or not readable. -/
inductive DRead
  | ok (s : State) (vs : List WV)
  | owed (iova : Nat)
  | fail
deriving DecidableEq, Repr

/-- One aligned word. -/
def dresserWord (s : State) (p va : Nat) : DRead :=
  match dresserTrans s p va .r with
  | none => .owed (dresserOwed s p va)
  | some (.error _) => .fail
  | some (.ok (pa, l)) =>
    if isMmio s pa then .ok s [⟨mmioRead s pa, .int, false⟩]
    else if !served s p (pa / 8) l.t then .fail
    else
      let r := homeRead (hostFresh s pa) (pa / 8)
      if r.2.bad then .fail else .ok r.1 [r.2]

/-- n consecutive words. -/
def dresserRead (s : State) (p va n : Nat) : DRead :=
  if va % 8 ≠ 0 then .fail
  else (List.range n).foldl (fun r i =>
    match r with
    | .ok s vs =>
      (match dresserWord s p (va + 8 * i) with
       | .ok s v => .ok s (vs ++ v)
       | r => r)
    | r => r) (.ok s [])

/-- An access to n words on a partition's behalf that another chip refuses is told to both service cores (R366). -/
def dresserTold (s : State) (p va n : Nat) (need : Need) : State :=
  match ((List.range n).filterMap (fun i =>
    match dresserTrans s p (va + 8 * i) need with
    | some (.ok (pa, l)) => if isMmio s pa || served s p (pa / 8) l.t then none else some pa
    | _ => none)).head? with
  | some pa => tellRefused s p pa
  | none => s

/-- A word as R326 reads it: its value, with NIL as 0; a POISON word cannot be read. -/
inductive DVal
  | ok (s : State) (v : Word)
  | owed (iova : Nat)
  | fail
deriving DecidableEq, Repr

def dresserVal (s : State) (p va : Nat) : DVal :=
  match dresserRead s p va 1 with
  | .ok s (v :: _) => if v.tag = .poison then .fail else .ok s (if v.tag = .nil then 0 else v.data)
  | .owed i => .owed i
  | _ => .fail

/-! ## Records (R313-R315) -/

def recKind (ws : List Word) : Nat := fld (recWord ws 0) 0 2
def recPrio (ws : List Word) : Nat := fld (recWord ws 0) 4 2
def recWait (ws : List Word) : Bool := bitAt (recWord ws 0) 27
/-- Teams of a grid record. -/
def recTeams (ws : List Word) : Nat := fld (recWord ws 2) 0 16 * fld (recWord ws 2) 16 16 * fld (recWord ws 2) 32 16
def recWarps (ws : List Word) : Nat := fld (recWord ws 3) 0 5
def recWidth (ws : List Word) : Nat := 16 * 2 ^ fld (recWord ws 3) 5 2
def recRegs (ws : List Word) : Nat := fld (recWord ws 3) 8 8
def recPregs (ws : List Word) : Nat := fld (recWord ws 3) 16 8
def recPwarps (ws : List Word) : Nat := fld (recWord ws 3) 24 5
/-- Scratchpad granules. -/
def recScratch (ws : List Word) : Nat := fld (recWord ws 3) 32 8
def recAcc (ws : List Word) : Nat := fld (recWord ws 3) 40 6
def recBench (ws : List Word) : Nat := fld (recWord ws 3) 46 6
/-- Slots of a warp. -/
def recSlots (ws : List Word) : Nat := if recWidth ws = 64 then 2 else 1
/-- Role and registers of warp k (R313). -/
def recRole (ws : List Word) (k : Nat) : Nat × Nat :=
  if recPregs ws = 0 then (0, recRegs ws) else if k < recPwarps ws then (1, recPregs ws) else (2, recRegs ws)
/-- Warp-registers of a team, doubled at width 64 (R187). -/
def recPool (ws : List Word) : Nat :=
  ((List.range (recWarps ws)).map (fun k => (recRole ws k).2)).sum * recSlots ws

/-- A register count that a warp may have. -/
def regsOk (n : Nat) : Bool := decide (16 ≤ n ∧ n ≤ 128 ∧ n % 8 = 0)

/-- Reserved bits are zero and the fields of word 0 lie in their ranges. -/
def recHead (ws : List Word) : Bool :=
  let w0 := recWord ws 0
  !bitAt w0 31 && decide (fld w0 6 2 = 0 ∧ fld w0 28 2 ≠ 3 ∧ fld w0 24 3 ≤ 5 ∧ fld w0 16 8 ≤ 4)

/-- A grid's fields. DESIGN CHOICE (log entry 136): the bits of words 2, 3 and 6 that the table of R313 does not list must be 0 for KIND 0,
and such bits of a KIND 1 or KIND 3 record are ignored. -/
def gridOk (ws : List Word) : Bool :=
  let w2 := recWord ws 2
  let w3 := recWord ws 3
  decide (fld w2 48 16 = 0 ∧ fld w3 52 12 = 0 ∧ fld w3 29 3 = 0 ∧ fld w3 7 1 = 0 ∧ fld (recWord ws 6) 32 32 = 0) &&
  decide (1 ≤ fld w2 0 16 ∧ 1 ≤ fld w2 16 16 ∧ 1 ≤ fld w2 32 16) &&
  decide (1 ≤ recWarps ws ∧ recWarps ws ≤ 16 ∧ fld w3 5 2 ≤ 2) && regsOk (recRegs ws) &&
  (decide (recPregs ws = 0 ∧ recPwarps ws = 0) || (regsOk (recPregs ws) && decide (recPwarps ws ≤ recWarps ws))) &&
  decide (recScratch ws ≤ 128 ∧ recAcc ws ≤ 32 ∧ recBench ws ≤ 32) &&
  (!bitAt (recWord ws 0) 2 || decide (1 ≤ recScratch ws))

/-- A record's status when it is taken (R314): 0 good, 2 bad, 3 a shape that no core of the partition could hold. -/
def recCheck (s : State) (p : Nat) (ws : List Word) : Nat :=
  let zero := [2, 3, 4, 5, 6].all (fun k => decide (recWord ws k = 0))
  if !recHead ws then 2
  else match recKind ws with
    | 0 => if !gridOk ws then 2 else if 3840 < recPool ws ∨ clustersOf (partOf s p) = [] then 3 else 0
    | 3 => if fld (recWord ws 2) 16 32 = 0 ∧ 1 ≤ fld (recWord ws 2) 0 16 ∧ fld (recWord ws 2) 0 16 ≤ 4096 ∧
              (recWord ws 1).toNat % 128 = 0 then 0 else 2
    | _ => if zero then 0 else 2

/-- A number that a completion record holds where the manual names no grid. -/
def someGridno (s : State) : Nat × State :=
  let r := takeFree s
  (r.1 % 2 ^ 32, r.2)

/-- A record that ends without a grid: KIND 3 with its status; a bad one sets ERR bit 0 (R314). -/
def badRecord (s : State) (q index status : Nat) (err : Bool) : State :=
  let r := someGridno s
  let s := holdCompl r.2 q { index := index, gridno := r.1, status := status, kind := 3, user := 0, warp := none, sig := none }
  if err then updQueue s q (fun x => queueErr x 0) else s

/-! ## Grids (R320, R321) -/

/-- A grid number that no living grid has (R321). -/
def freshGrid (s : State) : Nat :=
  (((List.range (s.grids.length + 2)).map (fun i => (s.nextGrid + i) % (2 ^ 32 - 1))).find?
    (fun n => decide (n ≠ 0) && !(gridOf s n).live)).getD s.nextGrid

/-- The code version that a launch binds: the record's, or the entry's current one when VERSION is 0. DESIGN CHOICE (log entry 103):
the loader's number of an entry's version is a free value, which the partition keeps from the first launch that asks for it. -/
def bindVersion (s : State) (p : Nat) (ws : List Word) : Nat × State :=
  let v := fld (recWord ws 0) 32 32
  let e := (recWord ws 1).toNat
  if v ≠ 0 then (v, s)
  else
    let cur := spGet 0 (partOf s p).versions e
    if cur ≠ 0 then (cur, s)
    else
      let r := takeFree s
      let n := 1 + r.1 % (2 ^ 32 - 1)
      (n, updPart r.2 p (fun y => { y with versions := spSet 0 y.versions e n }))

/-- Taking a record binds a grid's code version, whose pages are read-only from then on (R305, R320); another kind binds none. -/
def bindRecord (s : State) (p : Nat) (ws : List Word) : Nat × State :=
  if recKind ws = 0 then
    let r := bindVersion s p ws
    (r.1, bindPages r.2 p r.1)
  else (0, s)

/-- A grid that a record starts; its live-warp count is the total of its warps, and it is bound to one code version. -/
def newGrid (s : State) (p q index ver : Nat) (ws : List Word) (node : Option (Nat × Nat)) : State :=
  let n := freshGrid s
  setGrid { s with nextGrid := n + 1 } n
    { Grid.none with live := true, used := true, queue := q, index := index, part := p, version := ver, words := ws, node := node,
                     warpsLeft := recTeams ws * recWarps ws }

/-- PRIO is clamped to the queue's PMAX (R313). -/
def clampPrio (ws : List Word) (pmax : Nat) : List Word :=
  match ws with
  | [] => []
  | w :: r => wd (w.toNat - fld w 4 2 * 16 + min (fld w 4 2) pmax * 16) :: r

/-! ## Graphs (R317, R318) -/

/-- Node i of a graph. -/
def nodeOf (g : Graph) (i : Nat) : List Word := (g.nodes[i]?).getD []
/-- First and last body node of a loop node. -/
def loopFirst (ws : List Word) : Nat := fld (recWord ws 1) 0 16
def loopLast (ws : List Word) : Nat := fld (recWord ws 1) 16 16
def loopBody (ws : List Word) : List Nat :=
  (List.range (loopLast ws + 1 - loopFirst ws)).map (fun k => loopFirst ws + k)
def nodePreds (ws : List Word) : Nat := fld (recWord ws 0) 8 8
def nodeSuccs (ws : List Word) : List Nat :=
  (List.range (fld (recWord ws 0) 16 8)).map (fun k => fld (recWord ws 11) (16 * k) 16)

/-- The loop nodes among some nodes. -/
def loopsIn (g : Graph) (ns : List Nat) : List Nat := ns.filter (fun i => decide (recKind (nodeOf g i) = 1))
/-- Every node number. -/
def allNodes (g : Graph) : List Nat := List.range g.nodes.length
/-- The nodes that lie in a body of one of the loops. -/
def bodiesOf (g : Graph) (loops : List Nat) : List Nat := (loops.map (fun i => loopBody (nodeOf g i))).flatten
/-- The nodes outside loop bodies. -/
def outerNodes (g : Graph) : List Nat :=
  let inner := bodiesOf g (loopsIn g (allNodes g))
  (allNodes g).filter (fun i => !inner.contains i)

/-- A node's status (R314): a node index at or above the node count, or a graph as a node, is bad. -/
def nodeCheck (s : State) (p n : Nat) (ws : List Word) : Nat :=
  let c := recCheck s p ws
  if recKind ws = 3 then 2
  else if c ≠ 0 then c
  else if (nodeSuccs ws).any (fun i => decide (n ≤ i)) then 2
  else if recKind ws = 1 ∧ (n ≤ loopFirst ws ∨ n ≤ loopLast ws ∨ loopLast ws < loopFirst ws) then 2
  else 0

/-- The records of an array of words. -/
def chunk16 : Nat → List Word → List (List Word)
  | 0, _ => []
  | n + 1, ws => ws.take 16 :: chunk16 n (ws.drop 16)

/-- Start nodes of a graph; true: the node's wait is over. A loop node resets its body's counts and starts the body's nodes
that have no predecessor and lie in no inner body. -/
def startNodes : Nat → State → Nat → List (Nat × Bool) → State
  | 0, s, _, _ => s
  | fuel + 1, s, k, ns => ns.foldl (fun s e =>
      let g := graphOf s k
      let i := e.1
      let ws := nodeOf g i
      if !g.live then s
      else if recWait ws && !e.2 then setGraph s k { g with waiting := i :: g.waiting }
      else
        let g := { g with running := i :: g.running }
        match recKind ws with
        | 0 => newGrid (setGraph s k g) g.part g.queue g.index ((g.versions[i]?).getD 0) (clampPrio ws (queueOf s g.queue).pmax) (some (k, i))
        | 1 =>
          let body := (loopBody ws).filter (fun j => decide (j ≠ i))
          let inner := bodiesOf g (loopsIn g body)
          let g := { g with
            counts := body.foldl (fun m j => spSet 0 m j (nodePreds (nodeOf g j))) g.counts
            done := g.done.filter (fun j => !body.contains j) }
          startNodes fuel (setGraph s k g) k ((body.filter (fun j =>
            decide (nodePreds (nodeOf g j) = 0) && !inner.contains j)).map (fun j => (j, false)))
        | _ => setGraph s k g) s

/-- Start nodes with enough depth for every nesting of loops. -/
def startAll (s : State) (k : Nat) (ns : List (Nat × Bool)) : State := startNodes ((graphOf s k).nodes.length + 1) s k ns

/-- A graph that has ended stays only while grids of its nodes run. -/
def graphEnds (s : State) (k : Nat) : State :=
  let g := graphOf s k
  let r := g.running.filter (fun i => s.grids.any (fun e => decide (e.2.node = some (k, i))))
  setGraph s k (if r = [] then Graph.none else { g with live := false, running := r, waiting := [] })

/-- A graph ends with an error record (R318, R387). -/
def graphFail (s : State) (k status : Nat) : State :=
  let g := graphOf s k
  graphEnds (badRecord s g.queue g.index status false) k

/-- A graph whose nodes outside loop bodies are all done writes one record, KIND 2 (R317). -/
def graphDone (s : State) (k : Nat) : State :=
  let g := graphOf s k
  if g.live && (outerNodes g).all (fun i => g.done.contains i) then
    let r := someGridno s
    graphEnds (holdCompl r.2 g.queue { index := g.index, gridno := r.1, status := if g.killed then 1 else 0, kind := 2,
                                       user := 0, warp := none, sig := recSig g.words }) k
  else s

/-- Where a record's signal goes (R316, R387). -/
inductive SigPlace
  | none
  | ok (pa : Nat) (t : Bool)
  | owed (iova : Nat)
  | fail
deriving DecidableEq, Repr

def sigPlace (s : State) (p : Nat) (g : Option (SigOp × Nat × Word)) : SigPlace :=
  match g with
  | Option.none => .none
  | some (op, va, _) =>
    if va % 8 ≠ 0 then .fail
    else match dresserTrans s p va .w with
      | Option.none => .owed (dresserOwed s p va)
      | some (.error _) => .fail
      | some (.ok (pa, l)) =>
        if isMmio s pa || (isHost pa && (signalHost op).isNone) || !served s p (pa / 8) l.t then .fail else .ok pa l.t

/-- A signal that another chip refuses is told to both service cores (R366). -/
def sigTold (s : State) (p : Nat) (g : Option (SigOp × Nat × Word)) : State :=
  match g with
  | some (_, va, _) => dresserTold s p va 1 .w
  | Option.none => s

/-- Perform a record's signal at a place, as SIGNAL at system scope with release (R316). -/
def sigPerform (s : State) (p : Nat) (g : Option (SigOp × Nat × Word)) (pl : SigPlace) : State :=
  match g, pl with
  | some (op, _, v), .ok pa t => signalOut s p (p / 16 * 512 + 320 + p % 16) 0 op v pa t
  | _, _ => s

/-- The signal of a node; a loop node has none. -/
def nodeSig (ws : List Word) : Option (SigOp × Nat × Word) := if recKind ws = 1 then none else recSig ws

/-- The work before a release at system scope that covers a partition's writes (R308). -/
def releasePart (s : State) (p : Nat) : State := (coresOf s p).foldl (fun s c => release s c .system) s

/-- The working counts after a node's successors have been counted down one by one, and the successors that reached zero (R317). -/
def countDown (m : Sparse Nat) (js : List Nat) : Sparse Nat × List Nat :=
  js.foldl (fun r j =>
    (spSet 0 r.1 j (spGet 0 r.1 j - 1), if spGet 0 r.1 j = 1 then r.2 ++ [j] else r.2)) (m, [])

/-- A node completes: its signal, then its successors' counts, and those that reach zero start (R317, R321). -/
def nodeDone (s : State) (k i : Nat) : State :=
  let g := graphOf s k
  let ws := nodeOf g i
  let pl := sigPlace s g.part (nodeSig ws)
  match pl with
  | .owed io => askHost s g.part [io]
  | .fail => graphFail (priTaken (sigTold s g.part (nodeSig ws)) g.part) k 2
  | _ =>
    let s := sigPerform (releasePart s g.part) g.part (nodeSig ws) pl
    let c := countDown g.counts (nodeSuccs ws)
    let s := setGraph s k { g with running := g.running.filter (fun j => decide (j ≠ i)), done := i :: g.done, counts := c.1 }
    graphDone (startAll s k (c.2.map (fun j => (j, false)))) k

/-- Whether a warp that a request names belongs to a grid. -/
def ofGrid (s : State) (n w : Nat) : Bool :=
  decide (w ≠ 0 ∧ (warpOf s w).team ≠ 0 ∧ (teamOf s (warpOf s w).team).grid = n)

/-- A grid with a write still to be performed: an atomic, an append, a copy out (R308). -/
def gridBusy (s : State) (n : Nat) : Bool :=
  s.asws.any (fun e => e.2.all.any (fun r => ofGrid s n r.warp)) || s.appends.any (fun a => ofGrid s n a.warp) ||
    s.cores.any (fun e => e.2.copyq.any (fun o => o.out && decide (o.team ≠ 0 ∧ (teamOf s o.team).grid = n)))

/-- GRAPH_NODE_COMPLETE: a node whose grid has ended, or that launches nothing, completes (R317). -/
def execGraphNodeComplete (graph node : Nat) (s : State) : Host.Outcome State Fault Refusal :=
  .next (let g := graphOf s graph
    if !g.running.contains node then s
    else match recKind (nodeOf g node) with
      | 2 => if g.live then nodeDone s graph node else s
      | 0 =>
        (match s.grids.find? (fun e => decide (e.2.node = some (graph, node))) with
         | some (n, x) =>
           if x.warpsLeft ≠ 0 ∨ gridBusy s n then s
           else if !g.live then graphEnds (gridGone s n) graph
           else match sigPlace s g.part (nodeSig (nodeOf g node)) with
             | .owed io => askHost s g.part [io]
             | _ => nodeDone (setGraph (gridGone s n) graph { g with killed := g.killed || x.killed }) graph node
         | none => s)
      | _ => s)

/-- LOOP_CONDITION: the sink of a running loop is done; its condition word repeats the body, completes the loop, or ends the
graph (R318). -/
def execLoopCondition (graph node : Nat) (s : State) : Host.Outcome State Fault Refusal :=
  .next (let g := graphOf s graph
    let ws := nodeOf g node
    if !g.live || recKind ws ≠ 1 || !g.running.contains node || !g.done.contains (loopLast ws) then s
    else match dresserVal s g.part (recWord ws 9).toNat with
      | .owed io => askHost s g.part [io]
      | .fail => graphFail (priTaken (dresserTold s g.part (recWord ws 9).toNat 1 .r) g.part) graph 4
      | .ok s v =>
        if v = 0 then nodeDone s graph node
        else
          startAll (setGraph s graph { g with running := g.running.filter (fun j => decide (j ≠ node)) }) graph [(node, true)])

/-! ## Taking and launching records (R312, R314, R316, R319) -/

/-- The node array of a graph record: whether the host owes a translation of it. -/
def graphOwed (s : State) (p : Nat) (ws : List Word) : List Nat :=
  if recKind ws = 3 then
    match dresserRead s p (recWord ws 1).toNat (16 * fld (recWord ws 2) 0 16) with
    | .owed io => [io]
    | _ => []
  else []

/-- A number for a new graph. -/
def freshGraph (s : State) : Nat := s.graphs.foldl (fun m e => max m e.1) 0 + 1

/-- Taking a graph binds the code versions of its nodes' grids. DESIGN CHOICE (log entry 103). -/
def bindNodes (s : State) (p : Nat) (nodes : List (List Word)) : List Nat × State :=
  nodes.foldl (fun r ws =>
    let b := bindRecord r.2 p ws
    (r.1 ++ [b.1], b.2)) ([], s)

/-- A graph record starts every node that has no predecessor and lies in no loop body (R317). -/
def startGraph (s : State) (p q index : Nat) (ws : List Word) : State :=
  let n := fld (recWord ws 2) 0 16
  match dresserRead s p (recWord ws 1).toNat (16 * n) with
  | .ok s vs =>
    let nodes := chunk16 n (vs.map (·.data))
    let st := (nodes.map (nodeCheck s p n)).foldl (fun a c => if a = 0 then c else a) 0
    if st ≠ 0 then badRecord s q index st (decide (st = 2))
    else
      let k := freshGraph s
      let b := bindNodes s p nodes
      let s := b.2
      let g : Graph := { Graph.none with
        live := true, queue := q, index := index, part := p, words := ws, nodes := nodes, versions := b.1
        counts := (List.range n).foldl (fun m i => spSet 0 m i (nodePreds ((nodes[i]?).getD []))) [] }
      let s := setGraph s k g
      graphDone (startAll s k (((outerNodes g).filter (fun i => decide (nodePreds (nodeOf g i) = 0))).map (fun i => (i, false)))) k
  | _ => badRecord (priTaken (dresserTold s p (recWord ws 1).toNat (16 * n) .r) p) q index 2 false

/-- A record launches, a grid with the code version that its taking bound (R313, R316, R317, R320). -/
def launchRecord (s : State) (p q index ver : Nat) (ws : List Word) : State :=
  match recKind ws with
  | 0 => newGrid s p q index ver ws none
  | 3 => startGraph s p q index ws
  | _ => holdCompl s q { index := index, gridno := 0xFFFFFFFF, status := 0, kind := 0, user := 0, warp := none,
                         sig := recSig ws }

/-- A queue with a record to take (R312). -/
def hasRecord (x : Queue) : Bool :=
  x.en && !x.stopped && decide (x.waiting = none) && decide (x.tail ≠ x.head) &&
    decide ((x.tail - x.head).toNat ≤ 2 ^ x.rlog)

def recordVa (x : Queue) (i : BitVec 32) : Nat := x.rbase.toNat + 128 * (i.toNat % 2 ^ x.rlog)

/-- The word that a record waits for. -/
inductive WaitRes
  | yes (s : State)
  | no
  | owed (iova : Nat)
  | fail
deriving DecidableEq, Repr

/-- The condition of a record's word, read as WAITS reads it (R316, R326). A word that holds a POISON value cannot be compared and counts as
one that cannot be read. DESIGN CHOICE (log entry 73). -/
def recordReady (s : State) (p : Nat) (ws : List Word) : WaitRes :=
  match dresserVal s p (recWord ws 7).toNat with
  | .owed io => .owed io
  | .fail => .fail
  | .ok s v =>
    let cc : Cc := match fld (recWord ws 0) 24 3 with
      | 0 => .eq
      | 1 => .ne
      | 2 => .lt
      | 3 => .le
      | 4 => .gt
      | _ => .ge
    if ccInt cc v.toInt (recWord ws 8).toInt then .yes s else .no

/-- The host translations that a record to be launched at once still needs. -/
def recordOwed (s : State) (p : Nat) (ws : List Word) : List Nat :=
  if recCheck s p ws = 0 && !recWait ws then graphOwed s p ws else []

/-- The priority of the record that a queue has ready for the Dresser: the one at HEAD, or the one it holds back, once its word satisfies
the condition (R316, R319). One that cannot be read comes first, and one whose translation the host still owes is not ready. DESIGN
CHOICE (log entry 75). -/
def readyPrio (s : State) (p : Nat) (x : Queue) : Option Nat :=
  match x.waiting with
  | some h =>
    (match recordReady s p h.words with
     | .yes _ => if graphOwed s p h.words = [] then some (recPrio h.words) else none
     | .fail => some 4
     | _ => none)
  | none =>
    if hasRecord x then
      match dresserRead s p (recordVa x x.head) 16 with
      | .ok _ vs =>
        let ws := clampPrio (vs.map (·.data)) x.pmax
        if recordOwed s p ws = [] then some (recPrio ws) else none
      | .fail => some 4
      | .owed _ => none
    else none

/-- A queue's place in the order of the ready records: highest priority first, round-robin among queues within one (R319). -/
def readyKey (s : State) (p n prio : Nat) : Nat :=
  (4 - prio) * 131072 + (n % 131072 + 131072 - spGet 0 (partOf s p).nextq prio % 131072) % 131072

/-- Whether a queue's record is the next of the partition's ready records (R319). -/
def takesNext (s : State) (p q : Nat) : Bool :=
  match readyPrio s p (queueOf s q) with
  | none => false
  | some a =>
    s.queues.all (fun e =>
      match readyPrio s p e.2 with
      | some b => decide (queuePart s e.1 ≠ some p) || decide (readyKey s p q a ≤ readyKey s p e.1 b)
      | none => true)

/-- A record of a queue launches: the rotation at its priority goes on behind the queue (R319). -/
def rotateOn (s : State) (p q : Nat) (ws : List Word) : State :=
  updPart s p (fun y => { y with nextq := spSet 0 y.nextq (recPrio ws) ((q + 1) % 131072) })

/-- A ring slot of a queue has become free (R328). -/
def wakeRing (s : State) (q : Nat) : State :=
  { s with warps := spMap Warp.none (fun _ x => if x.wait = .ring q then { x with wait := .none } else x) s.warps }

/-- A record that has been taken is checked and its code version bound; a waiting one is held, any other launches (R314, R316, R320). -/
def startRecord (s : State) (p q index : Nat) (ws : List Word) : State :=
  let st := if recKind ws = 1 then 2 else recCheck s p ws
  if st ≠ 0 then badRecord s q index st (decide (st = 2))
  else
    let b := bindRecord s p ws
    if recWait ws then updQueue b.2 q (fun x => { x with waiting := some ⟨ws, p, b.1⟩ })
    else launchRecord (rotateOn b.2 p q ws) p q index b.1 ws

/-- TAKE_RECORD: the Dresser reads the record at HEAD, as an acquire at system scope, and takes it when no other of the partition's ready
records comes first (R312, R314, R319). -/
def execTakeRecord (q : Nat) (s : State) : Host.Outcome State Fault Refusal :=
  .next (match queuePart s q with
    | none => s
    | some p =>
      let x := queueOf s q
      if !hasRecord x then s
      else
        let s := l2DropSystem s
        match dresserRead s p (recordVa x x.head) 16 with
        | .owed io => askHost s p [io]
        | .fail =>
          if takesNext s p q then
            priTaken (updQueue (dresserTold s p (recordVa x x.head) 16 .r) q (fun x => { queueErr x 2 with stopped := true })) p
          else s
        | .ok u vs =>
          let ws := clampPrio (vs.map (·.data)) x.pmax
          if recordOwed u p ws ≠ [] then askHost u p (recordOwed u p ws)
          else if !takesNext s p q then s
          else startRecord (wakeRing (updQueue u q (fun x => { x with head := x.head + 1 })) q) p q x.head.toNat ws)

/-- The record that a queue holds back: it launches when its word satisfies the condition and no other of the partition's ready records
comes first (R316, R319). -/
def waitHead (s : State) (p q : Nat) : State :=
  let x := queueOf s q
  match x.waiting with
  | none => s
  | some h =>
    let index := (x.head - 1).toNat
    let free := fun (s : State) => updQueue s q (fun x => { x with waiting := none })
    match recordReady s p h.words with
    | .no => s
    | .owed io => askHost s p [io]
    | .fail =>
      if takesNext s p q then badRecord (free (priTaken (dresserTold s p (recWord h.words 7).toNat 1 .r) p)) q index 2 false else s
    | .yes u =>
      if graphOwed u p h.words ≠ [] then askHost u p (graphOwed u p h.words)
      else if !takesNext s p q then s
      else launchRecord (free (rotateOn u p q h.words)) p q index h.version h.words

/-- A node that waits for its word. -/
def waitNode (s : State) (k i : Nat) : State :=
  let g := graphOf s k
  if !g.live then s
  else
    let out := fun (s : State) => setGraph s k { g with waiting := g.waiting.filter (fun j => decide (j ≠ i)) }
    match recordReady s g.part (nodeOf g i) with
    | .no => s
    | .owed io => askHost s g.part [io]
    | .fail => graphFail (priTaken (dresserTold s g.part (recWord (nodeOf g i) 7).toNat 1 .r) g.part) k 2
    | .yes s => startAll (out s) k [(i, true)]

/-- RECORD_WAIT_SATISFIED: the waiting record of a queue, and the waiting nodes of its graphs, whose words satisfy their
conditions, launch (R316). -/
def execRecordWaitSatisfied (q : Nat) (s : State) : Host.Outcome State Fault Refusal :=
  .next (match queuePart s q with
    | none => s
    | some p =>
      let s := waitHead (l2DropSystem s) p q
      let ns := (s.graphs.map (fun e => if e.2.live && decide (e.2.queue = q) then e.2.waiting.map (fun i => (e.1, i)) else [])).flatten
      ns.foldl (fun s e => waitNode s e.1 e.2) s)

/-- QUEUE_TAIL_WRITE (R312, R307); no queue takes a write before READY (R380). -/
def execQueueTailWrite (q : Nat) (v : BitVec 32) (s : State) : Host.Outcome State Fault Refusal :=
  .next (if accepts s (q / 131072) then tailWrite s q v else s)
/-- QUEUE_CHEAD_WRITE (R312). -/
def execQueueCheadWrite (q : Nat) (v : BitVec 32) (s : State) : Host.Outcome State Fault Refusal :=
  .next (if accepts s (q / 131072) then cheadWrite s q v else s)
/-- QUEUE_ENABLE_WRITE: a write of the word that holds EN (R312, R387). -/
def execQueueEnableWrite (q : Nat) (v : Word) (s : State) : Host.Outcome State Fault Refusal :=
  .next (if accepts s (q / 131072) then enableWrite s q v else s)

/-! ## Completion records (R312, R322, R387) -/

/-- The four words of a completion record (R322). -/
def complWords (x : Queue) (c : Compl) : List Word :=
  [wd c.index, wd (c.gridno % 2 ^ 32 * 2 ^ 32 + c.status * 256 + c.kind), c.user,
   wd ((1 - x.ctail.toNat / 2 ^ x.clog % 2) * 2 ^ 63)]

/-- CMPL's warp goes on once its record is written. -/
def wakeRecord (s : State) (q : Nat) (w : Option Nat) : State :=
  match w with
  | some w => if (warpOf s w).wait = .record q then updWarp s w (fun x => { x with wait := .none }) else s
  | none => s

/-- The words of a completion record are stored, words 0-2 first, as a release at system scope: in host or CXL memory each is written to
its memory at once (R300, R308, R322). -/
def storeCompl (s : State) (x : Queue) (c : Compl) (pa : Nat) (l : Leaf) : State :=
  ((complWords x c).zip (List.range 4)).foldl (fun s e =>
    let a := pa + 8 * e.2
    let s := dresserWrite s a l e.1
    wakeWord (match regionOf s a with
      | .host | .cxl _ => l2Clean s (a / 8)
      | _ => s) a) s

/-- The record is written after every write of the grid; then the MSI-X message, and the signal (R308, R316, R322). -/
def writeCompl (s : State) (p q : Nat) (c : Compl) (rest : List Compl) (pl : SigPlace) (pa : Nat) (l : Leaf) : State :=
  let x := queueOf s q
  let s := storeCompl (releasePart s p) x c pa l
  let s := updQueue s q (fun x => { x with ctail := x.ctail + 1, held := rest })
  let vf := p / 16 * 16 + fld (spGet 0 (partOf s p).words 5) 32 4
  let s := if x.vec = 0xFFFF then s else { s with msix := s.msix ++ [(vf, x.vec)] }
  sigPerform (wakeRecord s q c.warp) p c.sig pl

/-- COMPLETION_RECORD_WRITE: the oldest held record of a queue is written when the ring has room (R312, R322); a signal word
that cannot be written makes it a KIND 3, STATUS 2 record (R387). -/
def execCompletionRecordWrite (q : Nat) (s : State) : Host.Outcome State Fault Refusal :=
  .next (match queuePart s q, (queueOf s q).held with
    | some p, c :: rest =>
      let x := queueOf s q
      if x.holdCompl || (decide (c.kind ≤ 1) && gridBusy s c.gridno) then s
      else if 2 ^ x.clog ≤ (x.ctail - x.chead).toNat then updQueue s q (fun x => queueErr x 1)
      else
        let pl := sigPlace s p c.sig
        let va := x.cbase.toNat + 32 * (x.ctail.toNat % 2 ^ x.clog)
        match pl, dresserTrans s p va .w with
        | .owed io, _ => askHost s p [io]
        | _, none => askHost s p [dresserOwed s p va]
        | pl, some r =>
          let s := priTaken (if pl = .fail then sigTold s p c.sig else s) p
          let c := if pl = .fail then { c with kind := 3, status := 2, sig := none } else c
          match r with
          | .error _ => updQueue s q (fun x => { queueErr x 2 with holdCompl := true })
          | .ok (pa, l) =>
            if isMmio s pa || !served s p (pa / 8) l.t then
              updQueue (if isMmio s pa then s else tellDropped s p pa) q (fun x => { queueErr x 2 with holdCompl := true })
            else writeCompl s p q c rest pl pa l
    | _, _ => s)

/-! ## Placement (R187, R188, R319) -/

/-- Warps that hold issue slots of a core: a warp's slot is freed at once when it terminates (R152). -/
def warpsOn (s : State) (c : Nat) : List Warp := (s.warps.filter (fun e => decide (e.2.core = c ∧ e.2.live))).map (·.2)
/-- Warps that hold registers of a core, which are freed once the last pending result has arrived (R152). -/
def regsOn (s : State) (c : Nat) : List Warp :=
  (s.warps.filter (fun e => decide (e.2.core = c ∧ e.2.team ≠ 0) && (e.2.live || decide (e.2.pend ≠ [])))).map (·.2)
/-- Slots a warp holds. -/
def warpSlots (x : Warp) : Nat := if x.width = 64 then 2 else 1
/-- Occupied slots of a core, and of one of its issue partitions. -/
def slotsUsed (s : State) (c : Nat) : Nat := ((warpsOn s c).map warpSlots).sum
def partSlots (s : State) (c p : Nat) : Nat := (((warpsOn s c).filter (fun x => decide (x.slot = p))).map warpSlots).sum
/-- Teams resident on a core. -/
def teamsOn (s : State) (c : Nat) : List Team := (s.teams.filter (fun e => e.2.live && decide (e.2.core = c))).map (·.2)

/-- The issue partition with the most free slots, the lowest on a tie (R187). -/
def firstPart (s : State) (c : Nat) : Nat :=
  (List.range 8).foldl (fun b p => if partSlots s c p < partSlots s c b then p else b) 0

/-- The lowest granule with n free granules from it. -/
def freeBase (s : State) (c n : Nat) : Option Nat :=
  (List.range (129 - n)).find? (fun b =>
    (teamsOn s c).all (fun t => decide (b + n ≤ t.base ∨ t.base + t.scratchBytes / 4096 ≤ b)))

/-- Whether a warp is a collector's: it belongs to no grid, and holds one of a compute core's reserved slots (R187, R336). -/
def isCollector (s : State) (x : Warp) : Bool := !isService x.core && decide (x.team ≠ 0 ∧ (teamOf s x.team).grid = 0)
/-- The collector warps that hold slots or registers of a core. -/
def collectorsOn (s : State) (c : Nat) : List Warp := (regsOn s c).filter (isCollector s)

/-- Whether a core can grant every resource of a team, which never takes what is reserved for collector warps (R187). -/
def fits (s : State) (c : Nat) (ws : List Word) : Bool :=
  let p0 := firstPart s c
  let add := fun (p : Nat) => ((List.range (recWarps ws)).filter (fun k => decide ((p0 + k) % 8 = p))).length * recSlots ws
  decide ((((warpsOn s c).filter (fun x => !isCollector s x)).map warpSlots).sum + recWarps ws * recSlots ws ≤ 46) &&
  (List.range 8).all (fun p => decide (partSlots s c p + add p ≤ 6)) &&
  decide ((((regsOn s c).filter (fun x => !isCollector s x)).map (fun x => x.nregs * warpSlots x)).sum + recPool ws ≤ 3840) &&
  decide (((teamsOn s c).map (·.nacc)).sum + recAcc ws ≤ 32) &&
  decide (((teamsOn s c).map (·.nbench)).sum + recBench ws ≤ 64) && (freeBase s c (recScratch ws)).isSome

/-- The core that takes a team: the fewest occupied slots, then the lowest die and core number (R319). -/
def pickCore (s : State) (p : Nat) (ws : List Word) : Option Nat :=
  ((coresOf s p).filter (fun c => !isService c && fits s c ws)).foldl (fun b c =>
    match b with
    | none => some c
    | some d => if slotsUsed s c < slotsUsed s d then some c else some d) none

/-- Bytes 0-31 of a team's scratchpad with ARGS (R315). -/
def argBytes (ws : List Word) : Sparse Byte :=
  if bitAt (recWord ws 0) 2 then
    (List.range 32).foldl (fun m i => spSet 0 m i (byteAt (recWord ws (12 + i / 8)) (i % 8))) []
  else []

/-- Warp k of a team of partition y, as launch leaves it (R142, R143, R188, R313); a collector warp is startCollector's. -/
def newWarp (ws : List Word) (y : Part) (k team core p0 age : Nat) (nurs nlim : Word) : Warp :=
  let rr := recRole ws k
  let width := recWidth ws
  let entry := recWord ws 1
  { Warp.none with
    live := true, core := core, team := team, wid := k, width := width, role := rr.1, nregs := rr.2
    slot := (p0 + k) % 8, prio := recPrio ws, age := age
    lanes := (List.range width).map (fun l => (l, { Lane.none with act := .ready, lpc := entry }))
    nurs := nurs, nlim := nlim
    tvec := vecBase (if recWord ws 4 = 0 then y.rtTvec else recWord ws 4)
    trapv := vecBase (if recWord ws 5 = 0 then y.rtTrapv else recWord ws 5)
    status := setBit statusReset 0 (bitAt (recWord ws 0) 3) }

/-- The number of the next warp and its two nursery registers, which the runtime sets. -/
def nurseryOf (s : State) : State × Word × Word :=
  let a := takeFree s
  let b := takeFree a.2
  (b.2, wd a.1, wd b.1)

/-- Enter one warp of a team. -/
def addWarp (s : State) (team : Nat) (x : Warp) : State :=
  let k := s.nextWarp
  let s := setWarp { s with nextWarp := k + 1, age := s.age + 1 } k { x with age := s.age }
  updTeam s team (fun t => { t with warps := t.warps ++ [k] })

/-- Place team tid of a grid on a core, whose L1 drops its clean contents (R307). -/
def placeTeam (s : State) (g c : Nat) (base : Nat) : State :=
  let x := gridOf s g
  let ws := x.words
  let t := s.nextTeam
  let p0 := firstPart s c
  let s := l1Invalidate s c
  let s := setTeam { s with nextTeam := t + 1 } t
    { Team.none with live := true, core := c, grid := g, teamId := x.nextTeam, nwarps := recWarps ws,
                     scratchBytes := recScratch ws * 4096, nacc := recAcc ws, nbench := recBench ws, part := x.part,
                     root := (partOf s x.part).ptroot.toNat, version := x.version, base := base, scratch := argBytes ws }
  let s := updGrid s g (fun y => { y with nextTeam := y.nextTeam + 1 })
  (List.range (recWarps ws)).foldl (fun s k =>
    let n := nurseryOf s
    addWarp n.1 t (newWarp ws (partOf s x.part) k t c p0 0 n.2.1 n.2.2)) s

/-- A grid with a team to place. -/
def wantsPlace (x : Grid) : Bool := x.live && !x.stopped && decide (x.nextTeam < recTeams x.words)

/-- TEAM_PLACE: the grid's next team goes to a core that can take it, unless a ready grid of higher priority could be placed
first (R319). -/
def execTeamPlace (grid : Nat) (s : State) : Host.Outcome State Fault Refusal :=
  .next (let x := gridOf s grid
    if !wantsPlace x || s.grids.any (fun e => wantsPlace e.2 && decide (e.2.part = x.part) &&
        decide (recPrio x.words < recPrio e.2.words) && (pickCore s x.part e.2.words).isSome) then s
    else match pickCore s x.part x.words with
      | none => s
      | some c =>
        (match freeBase s c (recScratch x.words) with
         | some b => placeTeam s grid c b
         | none => s))

/-! ## The watchdog (R335) -/

/-- The first reason of R335's list that holds, numbered from 0. -/
def watchReason (x : Warp) : Nat :=
  let alive := aliveLanes x
  match x.wait with
  | .bench _ => 0
  | .take _ => 1
  | w =>
    if alive ≠ [] ∧ alive.all (fun l => isWaiting (laneOf x l)) then 2
    else if x.halted then 3
    else match w with
      | .word .. => 4
      | .ring _ => 5
      | .svcall => 6
      | .engine => 7
      | .requests => 8
      | .benchRoom .. => 9
      | w =>
        if x.pendTrap.isSome ∨ x.pend ≠ [] ∨ w = .lanes then 10
        else match w with
          | .fill _ | .fetchWalk _ | .fetchPri .. => 11
          | .sleep .. => 12
          | .none | .yield => 13
          | _ => 14

/-- A warp in WAITS on a page with EXT is exempt, and so is one that pre-emption has stopped. -/
def watchExempt (x : Warp) : Bool :=
  x.stopped ||
    (match x.wait with
     | .word _ e _ _ => e
     | _ => false)

/-- WATCHDOG_REPORT: a warp that has issued nothing for its partition's WDP is reported once per episode. Number 0 names no
warp: the Dresser's own check of graph nodes that nothing left to run can make ready. -/
def execWatchdogReport (w : Nat) (s : State) : Host.Outcome State Fault Refusal :=
  .next (if w = 0 then
      s.graphs.foldl (fun s e =>
        let g := e.2
        let wdp := fld (spGet 0 (partOf s g.part).words 5) 0 32
        let due := (allNodes g).filter (fun i => !g.done.contains i && !g.waiting.contains i && !g.reported.contains i)
        if g.live && decide (g.running.filter (fun i => decide (recKind (nodeOf g i) ≠ 1)) = []) && decide (wdp ≠ 0) then
          setGraph (due.foldl (fun s i => tellSvc s g.part (.graphNode e.1 i)) s) e.1 { g with reported := due ++ g.reported }
        else s) s
    else
      let x := warpOf s w
      let p := warpPart s w
      let wdp := fld (spGet 0 (partOf s p).words 5) 0 32
      if x.live && decide (wdp ≠ 0) && decide (x.lastIssue + wdp * 2 ^ 16 ≤ (coreOf s x.core).cyc) && !x.reported &&
          !watchExempt x then
        updWarp (tellSvc s p (.watchdog w (watchReason x))) w (fun x => { x with reported := true })
      else s)

end Sys2Proof.Machine
end

