-- ==== Sys2Proof/Machine/Preempt.lean ====
section
/-! DEFINITION. Pre-emption (R330, R334), context blocks (R331-R333), and the end of a team (R218). -/

namespace Sys2Proof.Machine

open Sys2Proof

/-! ## The end of a team (R218) -/

/-- Whether an operation that names the team's tiles, or one of its atomics or appends, is still under way. -/
def teamBusy (s : State) (t : Nat) : Bool :=
  let x := teamOf s t
  (coreOf s x.core).copyq.any (fun o => decide (o.team = t)) || (coreOf s x.core).matq.any (fun o => decide (o.team = t)) ||
  s.ksels.any (fun o => decide (o.team = t)) || s.attns.any (fun o => decide (o.team = t)) ||
  s.wqrys.any (fun o => decide (o.1 = t)) || x.warps.any (warpUndrained s)

/-- The runs of warps that leave a core are over: their issue partitions choose again, and region table writes come into force (R146,
R215). -/
def endRuns (s : State) (c : Nat) (ws : List Nat) : State :=
  if (coreOf s c).runs.any (fun e => ws.contains e.2.warp) then
    tableBoundary (updCore s c (fun x => { x with runs := x.runs.filter (fun e => !ws.contains e.2.warp) })) c
  else s

/-- The team, its warps, their requests and queued operations leave the machine; its resources are free. -/
def dropTeam (s : State) (t : Nat) : State :=
  let x := teamOf s t
  let s := updCore s x.core (fun c =>
    { c with
      reqs := c.reqs.filter (fun e =>
        match e.2 with
        | some r => !x.warps.contains r.warp
        | none => true)
      late := c.late.filter (fun e =>
        match e.2 with
        | some r => !x.warps.contains r.warp
        | none => true)
      copyq := c.copyq.filter (fun o => decide (o.team ≠ t)), matq := c.matq.filter (fun o => decide (o.team ≠ t)) })
  let s := endRuns s x.core x.warps
  let s := x.warps.foldl (fun s w => setWarp s w Warp.none) s
  wakeStop (setTeam s t Team.none) x.grid

/-- Whether a result of the warp is still to arrive (R150, R152): its registers are freed when the last one has. -/
def awaits (s : State) (w : Nat) : Bool :=
  outstanding s w || (coreOf s (warpOf s w).core).late.any (fun e =>
    match e.2 with
    | some r => decide (r.warp = w)
    | none => false)

/-- A warp of the team still awaits a result. -/
def teamPending (s : State) (t : Nat) : Bool := (teamOf s t).warps.any (awaits s)

/-- TEAM_RELEASE: every warp has ended, its results have arrived and every operation is done; the resources return to the
free pool (R152, R218). -/
def execTeamRelease (team : Nat) (s : State) : Host.Outcome State Fault Refusal :=
  .next (let x := teamOf s team
    if x.live && x.warps.all (fun w => !(warpOf s w).live) && !teamBusy s team && !teamPending s team then
      dropTeam s team else s)

/-- Kill a team: its warps issue no more, and count as ended (R218, R321). -/
def killTeam (s : State) (t : Nat) : State :=
  let x := teamOf s t
  if !x.live || x.killed then s
  else
    let n := (x.warps.filter (fun w => (warpOf s w).live)).length
    let s := x.warps.foldl (fun s w =>
      updWarp s w (fun y => { y with live := false, wait := .none, pendTrap := none, stopped := false })) s
    let s := setTeam s t { x with killed := true, stopping := false, stopped := false }
    let s := gridLess (updGrid s x.grid (fun g => { g with killed := true })) x.grid n
    wakeStop s x.grid

/-- TEAM_KILL (R218). -/
def execTeamKill (team : Nat) (s : State) : Host.Outcome State Fault Refusal := .next (killTeam s team)

/-! ## PRMT and TEAM_STOPPED (R330) -/

/-- A warp stops at its next issue slot; one that holds an LR's run goes on to the run's end (R157). -/
def haltForStop (s : State) (w : Nat) : State :=
  let x := warpOf s w
  let r := spGet Run.none (coreOf s x.core).runs x.slot
  if x.lrRun.any (fun l => (laneOf x l).resv.isSome) then s
  else if r.active ∧ r.warp = w then endRun s w
  else setWarp s w (stopWarp x)

/-- Every resident team of a grid begins to stop. -/
def stopGrid (s : State) (g : Nat) : State :=
  let ts := spFind s.teams (fun _ t => teamRuns s t && decide (t.grid = g) && !t.stopped)
  ts.foldl (fun s t =>
    let s := updTeam s t (fun x => { x with stopping := true })
    (teamOf s t).warps.foldl haltForStop s) s

/-- The stopped teams of a grid go on in place. -/
def resumeGrid (s : State) (g : Nat) : State :=
  let ts := spFind s.teams (fun _ t => t.live && decide (t.grid = g))
  ts.foldl (fun s t =>
    let s := updTeam s t (fun x => { x with stopping := false, stopped := false })
    (teamOf s t).warps.foldl (fun s w => updWarp s w (fun x => { x with stopped := false })) s) s

/-- Whether a core may name a grid, ended or not: of its partition, or any of its package for the root monitor (R330, R334). -/
def mayName (s : State) (core p g : Nat) : Bool :=
  (gridOf s g).used &&
    (decide ((gridOf s g).part = p) || (decide (coreNum core = 336) && decide ((gridOf s g).part / 16 = coreChip core)))

/-- PRMT (R330). -/
def execPrmt (h : Hdr) (a : Reg) (s : State) : Host.Outcome State Fault Refusal :=
  issued (.prmt h a) h s fun ix s =>
    let x := warpOf s ix.w
    let v := readReg x a ix.low
    let fs := privFaults ix x ++ operandFaults ix v (decide (v.tag = .int ∧ fld v.pay 33 31 = 0))
    let g := fld v.pay 0 32
    if fs ≠ [] then .trap fs 0 []
    else if !mayName s x.core (warpPart s ix.w) g then .ok s
    else if bitAt v.pay 32 then .ok (resumeGrid (updGrid s g (fun y => { y with stopped := false })) g)
    else
      let s := stopGrid (updGrid s g (fun y => { y with stopped := true })) g
      .ok (wakeStop (updWarp s ix.w (fun y => { y with wait := .stop g })) g)

/-- A warp has nothing under way (R330, points 1 and 4). -/
def warpDrained (s : State) (w : Nat) : Bool :=
  let x := warpOf s w
  !awaits s w && !warpUndrained s w && (!x.live || ((x.stopped || x.halted) && decide (x.pendTrap = none) &&
    (match x.wait with
     | .kvsd _ | .record _ => false
     | _ => true)))

/-- Operations handed to the die or the Dresser for the team's tiles. -/
def dieBusy (s : State) (t : Nat) : Bool :=
  s.ksels.any (fun o => decide (o.team = t)) || s.attns.any (fun o => decide (o.team = t)) ||
  s.wqrys.any (fun o => decide (o.1 = t))

/-- A warp that sleeps when its team stops stands at its SLEEP again, and the time that remained is gone (R183, R330). -/
def backToSleep (x : Warp) : Warp :=
  match x.wait with
  | .sleep _ pc ls => { setLpc x ls pc with wait := .none }
  | _ => x

/-- TEAM_STOPPED: a team with nothing under way counts as stopped (R330). -/
def execTeamStopped (team : Nat) (s : State) : Host.Outcome State Fault Refusal :=
  .next (let x := teamOf s team
    if teamRuns s x && x.stopping && x.warps.all (warpDrained s) && !dieBusy s team then
      let s := setTeam s team { x with stopping := false, stopped := true }
      wakeStop (x.warps.foldl (fun s w => updWarp s w backToSleep) s) x.grid
    else s)

/-! ## The context block (R331) -/

/-- Hardware warps of a warp. -/
def hwWarps (width : Nat) : Nat := if width = 64 then 2 else 1

/-- n zero words. -/
def zeros (n : Nat) : List Word := List.replicate n 0
/-- Words filled up to n. -/
def fill (n : Nat) (ws : List Word) : List Word := ws ++ zeros (n - ws.length)
/-- Words filled up to a 64-byte boundary. -/
def fill8 (ws : List Word) : List Word := fill (roundUpTo ws.length 8) ws
/-- Bytes as words. -/
def bytesWords (n : Nat) (f : Nat → Byte) : List Word :=
  (List.range (ceilDiv n 8)).map (fun i => wd (leNat ((List.range 8).map (fun j => if 8 * i + j < n then f (8 * i + j) else 0))))
/-- 4-bit tags of some values, 16 to a word. -/
def tagWords (vs : List Val) : List Word :=
  (List.range (ceilDiv vs.length 16)).map (fun i =>
    wd (((vs.drop (16 * i)).take 16).foldr (fun v a => tagCode v.tag + 16 * a) 0))

/-- A lane: 27 words. The activity word also says whether the lane's BNAW has arrived. -/
def laneWords (x : Warp) (l : Nat) : List Word :=
  let y := laneOf x l
  let act := match y.act with
    | .ready => 0
    | .waiting _ m => 1 + 2 ^ 8 * m.val
    | .exited => 2
    | .inactive => 3
  [y.lpc, wd (act + if x.arrived.contains y.lpc then 2 ^ 16 else 0), y.elpc, y.lopa.pay, y.lopb.pay, y.lopc.pay] ++
    tagWords [y.lopa, y.lopb, y.lopc] ++ [y.ldst, y.lrpc, wd (y.csd + 2 ^ 8 * y.lcd), y.estat] ++
    (List.range 16).map (fun i => spGet 0 y.stk i)

/-- Specials, WP bits and masks of a warp: 23 words. -/
def specialWords (x : Warp) (nbench : Nat) : List Word :=
  let flags := tagCode x.eaddr.tag + (if x.halted then 2 ^ 8 else 0) + (if x.mchkNext then 2 ^ 9 else 0) +
    (if x.live then 2 ^ 11 else 0) + (match x.relFence with
      | some c => 2 ^ 12 * (1 + scopeCode c)
      | none => 0)
  let wp := ((List.range nbench).map (fun b => if spGet false x.wp b then 2 ^ b else 0)).sum
  [x.status, x.nurs, x.nlim, x.tvec, x.trapv, x.cause, x.eaddr.pay, wd flags, wd x.fcnt, x.fptr, wd wp] ++
    (List.range 12).map (maskReg x)

/-- The warp state of hardware warp k of a warp: 1,024 words. The second of a pair holds its lanes only. -/
def warpWords (x : Warp) (nbench k : Nat) : List Word :=
  let us := (List.range 64).map (uniReg x)
  fill 1024 ((if k = 0 then specialWords x nbench else zeros 23) ++
    ((List.range 32).map (fun l => laneWords x (32 * k + l))).flatten ++
    (if k = 0 then us.map (·.pay) ++ tagWords us else []))

/-- The lane registers of hardware warp k: 34 words each. -/
def regWords (x : Warp) (k : Nat) : List Word :=
  ((List.range x.nregs).map (fun r =>
    let vs := (List.range 32).map (fun l => laneReg x r (32 * k + l))
    vs.map (·.pay) ++ tagWords vs)).flatten

/-- The code of a recorded fault. -/
def recCode : Option FaultRec → Nat
  | some f =>
    (match f.cause with
     | .xlat => 1
     | .prot => 2
     | .tagmem => 3
     | .mchk => 4
     | .kvmiss => 5
     | _ => 0)
  | none => 0

/-- A bench in the layout of R217. -/
def benchNat (b : Bench) : Nat :=
  (if b.v then 2 ^ 23 else 0) + (if b.ph then 2 ^ 22 else 0) + b.pcnt * 2 ^ 17 + b.ccnt * 2 ^ 12 + b.parr * 2 ^ 6 + b.carr

/-- A selvage entry in the layout of R206, two words. -/
def selvWords (e : Selvage) : List Word :=
  [wd (e.bound.toNat + 2 ^ 32 * e.peak.toNat),
   wd (e.tau.toNat + (if e.x then 2 ^ 32 else 0) + (if e.w then 2 ^ 33 else 0))]

/-- Accumulator tile a: 2,048 words of elements and its selvage. A wide pair's 4,096 F64 elements fill both tiles. -/
def accWords (t : Team) (a : Nat) : List Word :=
  let even := a / 2 * 2
  let wide := (spGet Selvage.none t.selv even).w
  (if wide then (List.range 2048).map (fun i => spGet 0 t.acc (even * 4096 + 2048 * (a % 2) + i))
   else (List.range 2048).map (fun i => wd (fld (spGet 0 t.acc (a * 4096 + 2 * i)) 0 32 +
     2 ^ 32 * fld (spGet 0 t.acc (a * 4096 + 2 * i + 1)) 0 32))) ++
  selvWords (spGet Selvage.none t.selv a)

/-- A queued copy, with the number in its team of the warp that issued it, and a queued step: 8 words. -/
def copyWords (s : State) (o : CopyOp) : List Word :=
  fill 8 [wd (1 + 2 ^ 8 * cpyCode o.mode + (if o.out then 2 ^ 16 else 0) + 2 ^ 24 * (warpOf s o.warp).wid), o.tile, wd o.va, o.c]
def matWords (o : MatOp) : List Word :=
  let w := fun (k : Nat) => wd (16 + k + 2 ^ 8 * o.acc)
  fill 8 (match o.kind with
    | .mma a b => [w 0, a, b]
    | .mmab src b => [w 1, wd src, b]
    | .mmap a b => [w 2, a, b]
    | .accz => [w 3]
    | .accw => [w 4]
    | .accld a => [w 5, a]
    | .bndset tau => [w 6, wd tau.toNat])

/-- Where the eight sections of a block begin, in bytes, and where the engine queue would end when empty. -/
def blockOffs (ws : List Word) : List Nat :=
  let hw := hwWarps (recWidth ws) * recWarps ws
  let o1 := 4096
  let o2 := o1 + 8192 * hw
  let o3 := o2 + roundUpTo (((List.range (recWarps ws)).map (fun k => (recRole ws k).2)).sum * hwWarps (recWidth ws) * 272) 64
  let o4 := o3 + recScratch ws * 4096
  let o5 := o4 + 128
  let o6 := o5 + roundUpTo (4 * recBench ws) 64
  let o7 := o6 + roundUpTo (16400 * recAcc ws) 64
  [0, o1, o2, o3, o4, o5, o6, o7]

/-- The engine queue of a team, in queue order: its copies, then its steps. -/
def queueWords (s : State) (t : Nat) : List Word :=
  let c := coreOf s (teamOf s t).core
  ((c.copyq.filter (fun o => decide (o.team = t))).map (copyWords s)).flatten ++
    ((c.matq.filter (fun o => decide (o.team = t))).map matWords).flatten

/-- Bytes of a team's block. -/
def blockSize (s : State) (t : Nat) (ws : List Word) : Nat := ((blockOffs ws)[7]?).getD 0 + 8 * (queueWords s t).length

/-- The slot of a team: its place among the core's resident teams. -/
def teamSlot (s : State) (t : Nat) : Nat :=
  ((spKeys s.teams).filter (fun k => decide (k < t) && (teamOf s k).live && decide ((teamOf s k).core = (teamOf s t).core))).length

/-- Word 0 of a block: LOC. -/
def locWord (s : State) (t : Nat) : Word :=
  let x := teamOf s t
  wd (x.grid * 2 ^ 32 + coreDie x.core * 2 ^ 24 + coreInDie x.core * 2 ^ 16 + teamSlot s t)

/-- The header: 512 words. -/
def headerWords (s : State) (t : Nat) (ws : List Word) (result : Nat) : List Word :=
  let x := teamOf s t
  let c := teamXYZ (recWord ws 2) x.teamId
  fill 512 ([locWord s t, wd result, wd (blockSize s t ws), recWord ws 3, wd x.teamId,
    wd (c.1 + 2 ^ 16 * c.2.1 + 2 ^ 32 * c.2.2), wd (x.version * 2 ^ 32 + recPrio ws), 0] ++ (blockOffs ws).map wd)

/-- The whole block of a team. -/
def blockWords (s : State) (t : Nat) (result : Nat) : List Word :=
  let x := teamOf s t
  let ws := (gridOf s x.grid).words
  let warps := x.warps.map (warpOf s)
  let n := hwWarps (recWidth ws)
  headerWords s t ws result ++
  (warps.map (fun y => ((List.range n).map (warpWords y x.nbench)).flatten)).flatten ++
  fill8 ((warps.map (fun y => ((List.range n).map (regWords y)).flatten)).flatten) ++
  bytesWords x.scratchBytes (fun i => spGet 0 x.scratch i) ++
  bytesWords 128 (fun g => BitVec.ofNat 8 ((if spGet false x.owner g then 1 else 0) + 16 * recCode (spGet none x.frec g))) ++
  fill8 (bytesWords (4 * x.nbench) (fun i => BitVec.ofNat 8 (bitsOf (benchNat (spGet Bench.none x.benches (i / 4))) (8 * (i % 4)) 8))) ++
  fill8 (((List.range x.nacc).map (accWords x)).flatten) ++
  queueWords s t

/-! ## Reaching a block -/

/-- The pages of a block: translated, to be walked for, or a fault at an address. -/
inductive Pages
  | ok (ps : List (Nat × Leaf))
  | miss (vs : List Nat)
  | fault (s : State) (c : Cause) (va : Nat)
deriving DecidableEq, Repr

/-- The pages from va that n bytes take. -/
def blockPages (s : State) (w va n : Nat) (need : Need) : Pages :=
  (List.range (ceilDiv n 4096)).foldl (fun r i =>
    match translate s w (va + 4096 * i) need, r with
    | .ok pa l, .ok ps =>
      if isMmio s pa then .fault s .prot (va + 4096 * i)
      else if served s (warpPart s w) (pa / 8) l.t then .ok (ps ++ [(pa, l)])
      else .fault (tellRefused s (warpPart s w) pa) .prot (va + 4096 * i)
    | .fault c, .ok _ => .fault s c (va + 4096 * i)
    | .fault c, .miss _ => .fault s c (va + 4096 * i)
    | .miss v, .ok _ => .miss [v]
    | .miss v, .miss vs => .miss (vs ++ [v])
    | .ok .., r => r
    | _, r => r) (.ok [])

/-- Where word i of a block lies. -/
def blockAt (ps : List (Nat × Leaf)) (i : Nat) : Option (Nat × Leaf) := (ps[i / 512]?).map (fun e => (e.1 + 8 * (i % 512), e.2))

/-- Word i of a block, at its home. -/
def blockRead (s : State) (ps : List (Nat × Leaf)) (i : Nat) : WV :=
  match blockAt ps i with
  | some (pa, _) => homePeek s (pa / 8)
  | none => ⟨0, .int, false⟩

/-- Write word i of a block. -/
def blockWrite (s : State) (ps : List (Nat × Leaf)) (i : Nat) (w : Word) : State :=
  match blockAt ps i with
  | some (pa, l) => dresserWrite s pa l w
  | none => s

/-- The core's own copies of a block's lines leave its L1. -/
def blockEvict (s : State) (core : Nat) (ps : List (Nat × Leaf)) : State :=
  ps.foldl (fun s e => (List.range 16).foldl (fun s i => l1Evict s core (e.1 / 256 + i)) s) s

/-- The causes of CTXSV's and CTXLD's operand: a PTR or INT, 4 KiB aligned. DESIGN CHOICE (log entry 104): an address that is not
aligned raises ALIGN, and one with bits 63:48 set XLAT, as a memory access does. -/
def blockFaults (ix : Ix) (x : Warp) (v : Val) : List LFault :=
  privFaults ix x ++ operandFaults ix v (decide (v.tag = .int ∨ v.tag = .ptr)) ++
  (if (v.tag = .int ∨ v.tag = .ptr) ∧ fld v.pay 48 16 ≠ 0 then [⟨ix.low, .xlat, 0, ptrVal v.pay⟩] else []) ++
  (if (v.tag = .int ∨ v.tag = .ptr) ∧ v.pay.toNat % 4096 ≠ 0 then [⟨ix.low, .align, 0, ptrVal v.pay⟩] else [])

/-- What CTXSV and CTXLD share: the block's first page, then what is done with it. -/
def blockOp (ix : Ix) (s : State) (v : Val) (next : State → List (Nat × Leaf) → Res) : Res :=
  let x := warpOf s ix.w
  let fs := blockFaults ix x v
  let va := v.pay.toNat
  if fs ≠ [] then .trap fs 0 []
  else match blockPages s ix.w va 4096 .r, blockPages s ix.w va 4096 .w with
    | .fault t c a, _ => .trapIn t [⟨ix.low, c, 0, ptrVal (wd a)⟩]
    | _, .fault t c a => .trapIn t [⟨ix.low, c, 0, ptrVal (wd a)⟩]
    | .miss vs, _ => .wait (.walk vs) s
    | _, .miss vs => .wait (.walk vs) s
    | .ok _, .ok ps =>
      if warpBusy s ix.w then .wait .drain s else next (blockEvict s x.core ps) ps

/-! ## CTXSV (R332) -/

/-- The teams of a grid that CTXSV may save. -/
def savable (s : State) (g : Nat) : List Nat := spFind s.teams (fun _ t => teamRuns s t && t.stopped && decide (t.grid = g))

/-- CTXSV (R332). -/
def execCtxsv (h : Hdr) (a : Reg) (s : State) : Host.Outcome State Fault Refusal :=
  issued (.ctxsv h a) h s fun ix s =>
    let x := warpOf s ix.w
    let v := readReg x a ix.low
    blockOp ix s v fun s ps =>
      let g := fld (blockRead s ps 0).data 32 32
      let result := fun (s : State) (n : Nat) => Res.ok (blockWrite s ps 1 (wd n))
      if !mayName s x.core (warpPart s ix.w) g then result s 3
      else match savable s g with
        | [] => result s 1
        | t0 :: ts =>
          let r := takeFree s
          let s := r.2
          let t := ((t0 :: ts)[r.1 % (t0 :: ts).length]?).getD t0
          let n := blockSize s t (gridOf s g).words
          if (blockRead s ps 2).data.toNat < n then result s 2
          else match blockPages s ix.w v.pay.toNat n .w with
            | .miss vs => .wait (.walk vs) s
            | .fault t c a => .trapIn t [⟨ix.low, c, 0, ptrVal (wd a)⟩]
            | .ok qs =>
              let s := release (blockEvict s x.core qs) (teamOf s t).core .package
              let bs := blockWords s t 0
              let ws := (List.range bs.length).zip bs
              let s := (ws.drop 3).foldl (fun s e => blockWrite s qs e.1 e.2) s
              let s := (ws.take 3).foldl (fun s e => blockWrite s qs e.1 e.2) s
              .ok (dropTeam s t)

/-! ## CTXLD (R333) -/

/-- A block's words by number. -/
abbrev CtxBlock := Nat → Word

/-- The value whose payload is word i and whose tag is nibble k of the tag words from j; none for a tag no register holds. -/
def blockVal (b : CtxBlock) (i j k : Nat) : Option Val :=
  match tagOf (fld (b (j + k / 16)) (4 * (k % 16)) 4) with
  | some t => if regTag t then some ⟨t, canonPay t (b i)⟩ else none
  | none => none

/-- A lane from its words at o; the reserved bits of LDST and ESTAT read 0 (R66, R67). -/
def readLane (b : CtxBlock) (o : Nat) : Option Lane := do
  let lopa ← blockVal b (o + 3) (o + 6) 0
  let lopb ← blockVal b (o + 4) (o + 6) 1
  let lopc ← blockVal b (o + 5) (o + 6) 2
  let act ← match fld (b (o + 1)) 0 8 with
    | 0 => some Act.ready
    | 1 => if h : fld (b (o + 1)) 8 8 < 12 then some (Act.waiting (b o) ⟨_, h⟩) else none
    | 2 => some Act.exited
    | 3 => some Act.inactive
    | _ => none
  guard (fld (b (o + 9)) 0 8 ≤ 16 ∧ fld (b (o + 9)) 8 8 ≤ 4)
  some { lpc := b o, elpc := b (o + 2), lopa := lopa, lopb := lopb, lopc := lopc, ldst := wd (fld (b (o + 7)) 0 22), lrpc := b (o + 8)
         csd := fld (b (o + 9)) 0 8, lcd := fld (b (o + 9)) 8 8, estat := wd (fld (b (o + 10)) 0 24)
         stk := (List.range 16).foldl (fun m i => spSet 0 m i (b (o + 11 + i))) [], act := act, resv := none }

/-- The lanes of a warp whose state begins at o. -/
def readLanes (b : CtxBlock) (o width : Nat) : Option (List Lane) :=
  (List.range width).mapM (fun l => readLane b (o + 1024 * (l / 32) + 23 + 27 * (l % 32)))

/-- The registers of a warp: lane registers whose section begins at o, n of them. -/
def readRegs (b : CtxBlock) (o n width : Nat) : Option (Sparse Val) :=
  (List.range (n * width)).foldl (fun m i =>
    let r := i / width
    let l := i % width
    let p := o + (l / 32) * n * 34 + r * 34
    match m, blockVal b (p + l % 32) (p + 32) (l % 32) with
    | some m, some v => some (spSet nilVal m (laneKey r l) v)
    | _, _ => none) (some [])

/-- A warp from its state at o and its registers at ro; mask bits of lanes that have exited, are inactive or lie beyond the width are clear
(R151, R154). A block that gives a reserved bit of STATUS or CAUSE, an F of 0 (R143), a call
stack beyond its room (R96) or a tag that no register holds is corrupt. -/
def readWarp (b : CtxBlock) (ws : List Word) (k o ro : Nat) : Option Warp := do
  let width := recWidth ws
  let rr := recRole ws k
  let ls ← readLanes b o width
  let regs ← readRegs b ro rr.2 width
  let us ← (List.range 64).mapM (fun i => blockVal b (o + 887 + i) (o + 951) i)
  let et ← tagOf (fld (b (o + 7)) 0 4)
  guard (regTag et ∧ fld (b o) 13 51 = 0 ∧ fld (b o) 4 4 = 0 ∧ fld (b o) 8 5 ≠ 0 ∧ fld (b (o + 5)) 32 32 = 0)
  let lns := (List.range width).zip ls
  some { Warp.none with
    live := bitAt (b (o + 7)) 11, wid := k, width := width, role := rr.1, nregs := rr.2, prio := recPrio ws
    lanes := lns.foldl (fun m e => spSet Lane.none m e.1 e.2) []
    regs := regs, uregs := ((List.range 64).zip us).foldl (fun m e => spSet nilVal m e.1 e.2) []
    masks := (List.range 12).foldl (fun m i =>
      spSet 0 m i (b (o + 11 + i) &&& laneSet ((lns.filter (fun e => isAlive e.2)).map (·.1)))) []
    status := b o, nurs := b (o + 1), nlim := b (o + 2), tvec := vecBase (b (o + 3)), trapv := vecBase (b (o + 4)), cause := b (o + 5)
    eaddr := ⟨et, canonPay et (b (o + 6))⟩, fcnt := (b (o + 8)).toNat, fptr := b (o + 9)
    wp := (List.range 32).foldl (fun m i => spSet false m i (bitAt (b (o + 10)) i)) []
    arrived := (lns.filterMap (fun e =>
      if bitAt (b (o + 1024 * (e.1 / 32) + 23 + 27 * (e.1 % 32) + 1)) 16 then some e.2.lpc else none)).eraseDups
    halted := bitAt (b (o + 7)) 8, mchkNext := bitAt (b (o + 7)) 9
    relFence := match fld (b (o + 7)) 12 4 with
      | 0 => none
      | n + 1 => scopeOf n }

/-- A byte of a block. -/
def blockByte (b : CtxBlock) (i : Nat) : Byte := byteAt (b (i / 8)) (i % 8)

/-- A fault record from its code. -/
def codeRec : Nat → Option (Option FaultRec)
  | 0 => some none
  | 1 => some (some ⟨.xlat, none⟩)
  | 2 => some (some ⟨.prot, none⟩)
  | 3 => some (some ⟨.tagmem, none⟩)
  | 4 => some (some ⟨.mchk, none⟩)
  | 5 => some (some ⟨.kvmiss, none⟩)
  | _ => none

/-- The owner bits and fault records of 128 granules. -/
def readOwners (b : CtxBlock) (o : Nat) : Option (Sparse Bool × Sparse (Option FaultRec)) :=
  (List.range 128).foldl (fun m g =>
    let x := (blockByte b (o + g)).toNat
    match m, codeRec (x / 16) with
    | some (a, f), some r => if x / 2 % 8 = 0 then some (spSet false a g (decide (x % 2 = 1)), spSet none f g r) else none
    | _, _ => none) (some ([], []))

/-- A bench from its four bytes. -/
def readBench (b : CtxBlock) (o : Nat) : Bench :=
  let x := leNat ((List.range 4).map (fun i => blockByte b (o + i)))
  ⟨bitsOf x 23 1 = 1, bitsOf x 22 1 = 1, bitsOf x 17 5, bitsOf x 12 5, bitsOf x 6 6, bitsOf x 0 6⟩

/-- A selvage entry from its two words at o. -/
def readSelv (b : CtxBlock) (o : Nat) : Selvage :=
  { w := bitAt (b (o + 1)) 33, x := bitAt (b (o + 1)) 32, tau := BitVec.ofNat 32 (fld (b (o + 1)) 0 32)
    peak := BitVec.ofNat 32 (fld (b o) 32 32), bound := BitVec.ofNat 32 (fld (b o) 0 32) }

/-- The elements of n accumulator tiles whose section begins at word o. -/
def readAcc (b : CtxBlock) (o n : Nat) : Sparse Word :=
  (List.range n).foldl (fun m a =>
    let even := a / 2 * 2
    let p := o + 2050 * a
    if (readSelv b (o + 2050 * even + 2048)).w then
      (List.range 2048).foldl (fun m i => spSet 0 m (even * 4096 + 2048 * (a % 2) + i) (b (p + i))) m
    else (List.range 4096).foldl (fun m i => spSet 0 m (a * 4096 + i) (wd (fld (b (p + i / 2)) (32 * (i % 2)) 32))) m) []

/-- An entry of the engine queue at word o: a copy, whose warp is given by its number in the team, or a step. -/
def readEntry (b : CtxBlock) (o team : Nat) : Option (CopyOp ⊕ MatOp) :=
  let w := b o
  let k := fld w 0 8
  let acc := fld w 8 8
  let mat := fun (m : MatKind) => if acc < 32 then some (Sum.inr (⟨team, acc, m⟩ : MatOp)) else none
  if k = 1 then
    (cpyOf (fld w 8 8)).map (fun m => Sum.inl { team := team, warp := fld w 24 8, mode := m, out := bitAt w 16, tile := b (o + 1)
                                                va := (b (o + 2)).toNat, c := b (o + 3) })
  else match k with
    | 16 => mat (.mma (b (o + 1)) (b (o + 2)))
    | 17 => mat (.mmab (b (o + 1)).toNat (b (o + 2)))
    | 18 => mat (.mmap (b (o + 1)) (b (o + 2)))
    | 19 => mat .accz
    | 20 => mat .accw
    | 21 => mat (.accld (b (o + 1)))
    | 22 => mat (.bndset (BitVec.ofNat 32 (fld (b (o + 1)) 0 32)))
    | _ => none

/-- A block as it restores: the team's own state, its warps, and its engine entries. -/
structure Restored where
  team : Team
  warps : List Warp
  ops : List (CopyOp ⊕ MatOp)

/-- Read a block for grid g, whose record is ws, as team number t; none: corrupt or foreign. -/
def readBlock (b : CtxBlock) (x : Grid) (g t : Nat) : Option Restored := do
  let ws := x.words
  let offs := blockOffs ws
  let off := fun (i : Nat) => (offs[i]?).getD 0
  let tid := (b 4).toNat
  let size := (b 2).toNat
  let c := teamXYZ (recWord ws 2) tid
  guard (b 3 = recWord ws 3 ∧ tid < recTeams ws ∧ b 5 = wd (c.1 + 2 ^ 16 * c.2.1 + 2 ^ 32 * c.2.2) ∧
    b 6 = wd (x.version * 2 ^ 32 + recPrio ws))
  guard ((List.range 8).all (fun i => decide (b (8 + i) = wd (off i))))
  guard (off 7 ≤ size ∧ (size - off 7) % 64 = 0 ∧ (size - off 7) / 64 ≤ 40)
  let n := hwWarps (recWidth ws)
  let regAt := fun (k : Nat) => off 2 / 8 + ((List.range k).map (fun j => (recRole ws j).2)).sum * n * 34
  let warps ← (List.range (recWarps ws)).mapM (fun k => readWarp b ws k (off 1 / 8 + 1024 * n * k) (regAt k))
  let ow ← readOwners b (off 4)
  let ops ← (List.range ((size - off 7) / 64)).mapM (fun i => readEntry b (off 7 / 8 + 8 * i) t)
  some { warps := warps, ops := ops
         team := { Team.none with
           live := true, grid := g, teamId := tid, nwarps := recWarps ws, scratchBytes := recScratch ws * 4096
           nacc := recAcc ws, nbench := recBench ws, part := x.part, version := x.version
           scratch := (List.range (recScratch ws * 4096)).foldl (fun m i => spSet 0 m i (blockByte b (off 3 + i))) []
           owner := ow.1, frec := ow.2
           benches := (List.range (recBench ws)).foldl (fun m i => spSet Bench.none m i (readBench b (off 5 + 4 * i))) []
           acc := readAcc b (off 6 / 8) (recAcc ws)
           selv := (List.range (recAcc ws)).foldl (fun m a => spSet Selvage.none m a (readSelv b (off 6 / 8 + 2050 * a + 2048))) [] } }

/-- Enter a restored team on a core. -/
def enterTeam (s : State) (c base : Nat) (r : Restored) : State :=
  let t := s.nextTeam
  let w0 := s.nextWarp
  let p0 := firstPart s c
  let x := gridOf s r.team.grid
  let s := l1Invalidate s c
  let s := setTeam { s with nextTeam := t + 1 } t
    { r.team with core := c, base := base, root := (partOf s x.part).ptroot.toNat, stopped := x.stopped }
  let s := r.warps.foldl (fun s y =>
    addWarp s t { y with core := c, team := t, slot := (p0 + y.wid) % 8, stopped := x.stopped }) s
  r.ops.foldl (fun s o =>
    match o with
    | .inl o => updCore s c (fun k => { k with copyq := k.copyq ++ [{ o with warp := w0 + o.warp }] })
    | .inr o => updCore s c (fun k => { k with matq := k.matq ++ [o] })) s

/-- The core that LOC names, or the Dresser's choice for core 0x7F, when it has room; with the team's granules. -/
def targetCore (s : State) (p : Nat) (loc : Word) (ws : List Word) : Option (Nat × Nat) :=
  let c := if fld loc 16 7 = 0x7F then pickCore s p ws
    else
      let c := p / 16 * 512 + fld loc 24 2 * 80 + fld loc 16 7
      if fld loc 16 7 < 80 ∧ (coresOf s p).contains c ∧ fits s c ws then some c else none
  match c with
  | some c => (freeBase s c (recScratch ws)).map (fun b => (c, b))
  | none => none

/-- CTXLD (R333). -/
def execCtxld (h : Hdr) (a : Reg) (s : State) : Host.Outcome State Fault Refusal :=
  issued (.ctxld h a) h s fun ix s =>
    let x := warpOf s ix.w
    let v := readReg x a ix.low
    blockOp ix s v fun s ps =>
      let loc := (blockRead s ps 0).data
      let g := fld loc 32 32
      let size := (blockRead s ps 2).data.toNat
      let result := fun (s : State) (n : Nat) => Res.ok (blockWrite s ps 1 (wd n))
      if !mayName s x.core (warpPart s ix.w) g || !(gridOf s g).live || decide (2 ^ 22 < size) then result s 5
      else match blockPages s ix.w v.pay.toNat size .r with
        | .miss vs => .wait (.walk vs) s
        | .fault t c a => .trapIn t [⟨ix.low, c, 0, ptrVal (wd a)⟩]
        | .ok qs =>
          let s := blockEvict s x.core qs
          let y := gridOf s g
          let bad := (List.range (size / 8)).any (fun i => (blockRead s qs i).bad)
          match (if bad then none else readBlock (fun i => (blockRead s qs i).data) y g s.nextTeam) with
          | none => result s 5
          | some r =>
            match targetCore s y.part loc y.words with
            | none => result s 4
            | some (c, base) => result (enterTeam s c base r) 0

end Sys2Proof.Machine
end

