-- ==== Sys2Proof/Machine/Partition.lean ====
section
/-! DEFINITION. Partitions (R337, R339), their control pages' events (R341, R215), the host's translations (R359), promotion
(R302), L1 write-backs (R212, R303) and newly tagged regions (R75, R390). -/

namespace Sys2Proof.Machine

open Sys2Proof

/-! ## Partition records (R337) -/

/-- The fields of a record word that can be written. -/
def recordFields (word : Nat) (v : Word) : Word :=
  match word with
  | 0 | 3 => v
  | 1 => wd (fld v 0 24)
  | 2 => wd (fld v 0 35)
  | 4 => wd (fld v 0 40)
  | 5 => wd (fld v 0 36)
  | 6 => wd (fld v 21 25 * 2 ^ 21 + fld v 0 8)
  | 7 => wd (fld v 46 18 * 2 ^ 46 + fld v 12 34 * 2 ^ 12)
  | _ => 0

/-- A partition as its written record would make it. -/
def stagedPart (x : Part) : Part := { x with words := x.staged }

/-- The list of regions at MEMTAB: 8-byte entries, a region's address with bit 0 set; the first entry without bit 0 ends it. -/
def memList (s : State) : Nat → Nat → List Nat
  | 0, _ => []
  | n + 1, a =>
    let w := (homePeek s (a / 8)).data
    if bitAt w 0 then fld w 21 25 :: memList s n (a + 8) else []

/-- The regions that a record grants; a partition holds at most 18 TiB of them (R358). -/
def memRegions (s : State) (x : Part) : List Nat := memList s (9 * 2 ^ 20) (spGet 0 x.words 3).toNat

/-- Queue range of a record: QBASE and QCOUNT. -/
def queueRange (x : Part) : Nat × Nat := (fld (spGet 0 x.words 2) 0 17, fld (spGet 0 x.words 2) 17 18)

/-- Two ranges of queues share a queue; an empty range shares none. -/
def rangesMeet (a b : Nat × Nat) : Bool := decide (0 < a.2 ∧ 0 < b.2 ∧ a.1 < b.1 + b.2 ∧ b.1 < a.1 + a.2)

/-- Two lists share a member. -/
def listsMeet (a b : List Nat) : Bool := a.any (fun x => b.contains x)

/-- A record's grants overlap those of a valid record. -/
def recordMeets (x y : Part) : Bool :=
  listsMeet (clustersOf x) (clustersOf y) || listsMeet x.grants y.grants || rangesMeet (queueRange x) (queueRange y)

/-- The sum of one share over some records. -/
def shareSum (xs : List Part) (k : Nat) : Nat := (xs.map (fun x => fld (spGet 0 x.words 4) (8 * k) 8)).sum

/-- Whether the root monitor accepts a record: no overlap, shares within 256, queues that exist, and no team on its cores. -/
def recordAccepted (s : State) (p : Nat) (x : Part) : Bool :=
  let others := ((List.range 16).filter (fun n => decide (p / 16 * 16 + n ≠ p) && (partOf s (p / 16 * 16 + n)).valid)).map
    (fun n => partOf s (p / 16 * 16 + n))
  others.all (fun y => !recordMeets x y) && (List.range 5).all (fun k => decide (shareSum (x :: others) k ≤ 256)) &&
  decide ((queueRange x).1 + (queueRange x).2 ≤ Config.queuesPerChip) &&
  s.teams.all (fun e => !(e.2.live && decide (coreChip e.2.core = p / 16) && !isService e.2.core &&
    hasCluster x (coreNum e.2.core / 4)))

/-- A team of one runtime warp of partition p on a core, outside every grid: width 32, 128 registers, all lanes ready at an entry address,
RT = 1, the handler tables of the partition's runtime (R143, R388). -/
def runtimeWarp (s : State) (p c root scratch entry prio : Nat) (super : Bool) : State :=
  let t := s.nextTeam
  let n := nurseryOf s
  let y := partOf s p
  let s := setTeam { n.1 with nextTeam := t + 1 } t
    { Team.none with live := true, core := c, nwarps := 1, scratchBytes := scratch, part := p, root := root }
  addWarp s t
    { Warp.none with
      live := true, core := c, team := t, width := 32, nregs := 128, nurs := n.2.1, nlim := n.2.2
      slot := firstPart s c, prio := prio
      lanes := (List.range 32).map (fun l => (l, { Lane.none with act := .ready, lpc := wd entry }))
      tvec := vecBase y.rtTvec, trapv := vecBase y.rtTrapv, status := setBit (setBit statusReset 2 super) 1 true }

/-- The service core of a partition that comes into force starts its kernel: one warp with SUPER = 1 (R143, R337, R376) and neither a
launch record, an accumulator tile nor a bench (R388), under the root of the core's own mappings (R341). DESIGN CHOICE (log entry 105):
the warp has width 32, 128 registers, the whole scratchpad and RT = 1, and the entry address is a free value. -/
def startService (s : State) (p : Nat) : State :=
  let c := svcCore p
  if s.warps.any (fun e => e.2.live && decide (e.2.core = c)) then s
  else runtimeWarp s p c (partOf s p).own.ptroot.toNat (128 * 4096) (vecBase (Config.serviceEntry p)).toNat 0 true

/-- A collector warp of the partition's runtime starts on a compute core of a partition in force, in one of the core's two reserved slots
and with half of its reserved registers, on any issue partition with a free slot (R143, R146, R187, R336). DESIGN CHOICE (log entry 132):
the runtime says when, at which entry address and with which priority through a REGISTER_WRITE of its own, the warp has width 32 and 128
registers, and it belongs to a team of its own without a grid, scratchpad, tile or bench. -/
def startCollector (s : State) (c prio : Nat) (entry : Word) : State :=
  match corePart s c with
  | none => s
  | some p =>
    if isService c ∨ !(partOf s p).valid ∨ 2 ≤ (collectorsOn s c).length ∨ 6 ≤ partSlots s c (firstPart s c) then s
    else runtimeWarp s p c (partOf s p).ptroot.toNat 0 (vecBase entry).toNat (prio % 4) false

/-- Set VALID: the record comes into force, when it is accepted; a VF's reset is over (R337, R360). -/
def setValid (s : State) (p : Nat) : State :=
  let x := stagedPart (partOf s p)
  let x := { x with grants := memRegions s x }
  if recordAccepted s p x then
    startService (setPart { s with vfReset := s.vfReset.filter (fun e => decide (e.2 ≠ p + 1)) } p { x with valid := true }) p
  else s

/-- Answer or drop a request whose home or whose core is reset (R339); a dropped one is reported to the partition that made it (R374). -/
def resetReq (s : State) (r : AswReq) : State :=
  match r.op with
  | .pcie .. => { s with answers := s.answers ++ [.abort] }
  | .peer .. => { s with answers := s.answers ++ [.value (poisonVal 0x21)] }
  | .signal .. =>
    wakeHome (wakeDrained (answerReq ((corePart s r.core).elim s (fun p => tellDropped s p r.pa)) r []) r.warp)
  | _ => wakeHome (wakeDrained (answerReq s r (List.replicate 64 (poisonVal 0x21))) r.warp)

/-- Whether a line belongs to the partition alone: its memory, or a host page that only it translates to. -/
def partLine (s : State) (p k : Nat) : Bool :=
  let pa := k * 8
  if isHost pa then
    let page := pa % 2 ^ 52 / 4096
    let names := fun (n : Nat) => (partOf s n).iommu.any (fun e => decide (e.2 = some page))
    decide (paChip pa = p / 16) && names p &&
      (List.range 16).all (fun n => decide (p / 16 * 16 + n = p) || !names (p / 16 * 16 + n))
  else decide (paChip pa = p / 16) && owns s p pa

/-- Drop the partition's lines from the slices; dirty bytes are discarded unless they had been written back before. -/
def dropLines (s : State) (p : Nat) : State :=
  let n := s.free
  (spKeys s.l2).foldl (fun s k =>
    if partLine s p k then setL2 (if Config.l2WrittenBack n k then l2Clean s k else s) k CWord.none else s)
    { s with free := n + 1 }

/-- A queue of a partition's record: in its grant, or in the range of a record that is out of force and in no other grant. -/
def recordQueue (s : State) (p q : Nat) : Bool :=
  match queuePart s q with
  | some n => decide (n = p)
  | none => decide (q / 131072 = p / 16) && rangesMeet (queueRange (partOf s p)) (q % 131072, 1)

/-- RESET of a partition (R339). The fabric access entries stay (R374). -/
def resetPart (s : State) (p : Nat) : State :=
  let x := partOf s p
  let cs := coresOf s p
  let gs := (clustersOf x).map (fun g => p / 16 * 80 + g)
  let s := { s with wqrys := s.wqrys.filter (fun o => decide ((teamOf s o.1).part ≠ p)) }
  let s := (spFind s.teams (fun _ t => t.live && decide (t.part = p))).foldl dropTeam s
  let s := (spFind s.grids (fun _ g => g.live && decide (g.part = p))).foldl gridGone s
  let s := { s with
    graphs := s.graphs.filter (fun e => decide (e.2.part ≠ p))
    queues := s.queues.filter (fun e => !recordQueue s p e.1)
    appends := s.appends.filter (fun a => decide (a.part ≠ p)), ksels := s.ksels.filter (fun o => decide (o.part ≠ p))
    attns := s.attns.filter (fun o => decide (o.part ≠ p)), kvsds := s.kvsds.filter (fun o => decide (o.part ≠ p)) }
  let lost := (s.asws.map (fun e =>
    e.2.all.filter (fun r => gs.contains e.1 || cs.contains r.core))).flatten
  let s := { s with asws := spMap Asw.none (fun g a =>
    if gs.contains g then Asw.none
    else
      let keep := fun (rs : List AswReq) => rs.filter (fun r => !cs.contains r.core)
      { a with queue := keep a.queue, waiting := keep a.waiting }) s.asws }
  let s := lost.foldl resetReq s
  let s := dropLines s p
  let s := cs.foldl (fun s c => setCore s c Core.none) s
  let s := { s with
    releaser := s.releaser.filter (fun e => !cs.contains (e.2 - 1))
    slkv := spMap [] (fun _ m => m.filter (fun e => decide (e.1 / 2 ^ 54 ≠ p))) s.slkv
    sktb := spSet [] s.sktb (p / 16) ((spGet [] s.sktb (p / 16)).filter (fun e => decide (e.1 / 2 / 2 ^ 32 ≠ p % 16)))
    wins := spMap Win.none (fun k w =>
      if k / 64 = p / 16 * 16 + fld (spGet 0 x.words 5) 32 4 ∧ x.valid then { Win.none with stg := w.stg } else w) s.wins }
  setPart s p { Part.none with fat := x.fat }

/-- PARTITION_RESET (R339). -/
def execPartitionReset (chip part : Nat) (s : State) : Host.Outcome State Fault Refusal :=
  .next (resetPart s (chip * 16 + part % 16))

/-- PARTITION_RECORD_WRITE (R337): a word of a record as written; VALID puts the record in or out of force, RESET resets. No record is
accepted before READY (R380). -/
def execPartitionRecordWrite (chip part word : Nat) (v : Word) (s : State) : Host.Outcome State Fault Refusal :=
  .next (if !accepts s chip then s
    else
    let p := chip * 16 + part % 16
    let s := if word % 8 = 5 ∧ bitAt v 37 then resetPart s p else s
    let s := updPart s p (fun x => { x with staged := spSet 0 x.staged (word % 8) (recordFields (word % 8) v) })
    if word % 8 ≠ 5 then s
    else
      if bitAt v 36 then (if (partOf s p).valid then s else setValid s p) else updPart s p (fun x => { x with valid := false }))

/-! ## Control pages (R341, R215) -/

/-- PTROOT_WRITE (R341). -/
def execPtrootWrite (part : Nat) (v : Word) (s : State) : Host.Outcome State Fault Refusal := .next (ptrootSet s part v)

/-- TBGO: the cores drop the entries once every access that used them has been performed; TBBUSY clears, that of the control page and
that of the root monitor's window alike (R341). -/
def execTbgo (part : Nat) (s : State) : Host.Outcome State Fault Refusal :=
  .next (let s := if (partOf s part).tbbusy && !partBusy s part then
        updPart (tbDrop s part) part (fun x => { x with tbbusy := false })
      else s
    if (partOf s part).own.tbbusy && !ownBusy s part then
      updOwn (ownDrop s part) part (fun x => { x with tbbusy := false })
    else s)

/-- REGION_TABLE_WRITE (R215). -/
def execRegionTableWrite (part : Nat) (v : Word) (s : State) : Host.Outcome State Fault Refusal := .next (regionSet s part v)

/-! ## The host's translations (R359) -/

/-- PRI_RESPONSE: the host gives a page's translation, or refuses it and the access raises XLAT. -/
def execPriResponse (part iova : Nat) (ok : Bool) (hpa : Nat) (s : State) : Host.Outcome State Fault Refusal :=
  .next (let page := iova / 4096
    let s := { s with rootReports := s.rootReports.filter (fun r =>
      match r with
      | .priRequest p i => decide (¬(p = part ∧ i / 4096 = page))
      | _ => true) }
    let s := updPart s part (fun x =>
      if ok then { x with iommu := spSet none x.iommu page (some (hpa / 4096)), prifail := x.prifail.filter (fun i => decide (i ≠ page)) }
      else { x with prifail := page :: x.prifail })
    (spFind s.warps (fun w _ => decide (warpPart s w = part))).foldl (fun s w =>
      match (warpOf s w).wait with
      | .pri i vpn | .fetchPri i vpn =>
        if i / 4096 = page then
          updWarp s w (fun y => { y with wait := .none, walkFault := if ok then y.walkFault else (vpn, .xlat) :: y.walkFault })
        else s
      | _ => s) s)

/-- Words of a host page. -/
def hostWords (chip page : Nat) (k : Nat) : Bool := decide (k * 8 / 4096 = (chip + 1) * 2 ^ 40 + page)

/-- ATS_INVALIDATION: the translation and its buffer entries go; the accesses that used it are performed at the host first
(R359). -/
def execAtsInvalidation (part iova : Nat) (s : State) : Host.Outcome State Fault Refusal :=
  .next (match spGet none (partOf s part).iommu (iova / 4096) with
    | none => s
    | some hp =>
      let chip := part / 16
      let s := (coresOf s part).foldl (fun s c =>
        ((l1Keys s c).filter (hostWords chip hp)).foldl (fun s k => l1Clean s c k) s) s
      let s := ((spKeys s.l2).filter (hostWords chip hp)).foldl l2Clean s
      let s := (coresOf s part).foldl (fun s c => updCore s c (fun k =>
        { k with tlb := k.tlb.filter (fun e =>
            !(decide (e.part = part) && e.leaf.h && decide (e.leaf.pa / 4096 = (chip + 1) * 2 ^ 40 + hp))) })) s
      updPart s part (fun x => { x with iommu := spSet none x.iommu (iova / 4096) none }))

/-! ## Caches -/

/-- RACQ_PROMOTE: the home asks the core that its releaser field names to write back, at the acquire's scope, and clears the
field (R302). -/
def execRacqPromote (core line : Nat) (scope : Scope) (s : State) : Host.Outcome State Fault Refusal :=
  .next (if spGet 0 s.releaser line = core + 1 then
      let s := promote s core scope
      { s with releaser := spSet 0 s.releaser line 0 }
    else s)

/-- L1_WRITE_BACK: a sector leaves the L1, and its dirty bytes merge at the line's home (R212, R303). -/
def execL1WriteBack (core sector : Nat) (s : State) : Host.Outcome State Fault Refusal :=
  .next ((sectorWords (sector * 8)).foldl (fun s k =>
    if l1Of s core k = CWord.none then s else setL1 (l1Clean s core k) core k CWord.none) s)

/-- MARK_REGION_TAGGED: a 2 MiB region becomes tagged; every tag is NIL and no word is marked poisoned (R75, R390). -/
def execMarkRegionTagged (pa : Nat) (s : State) : Host.Outcome State Fault Refusal :=
  .next (let r := pa / 2 ^ 21
    let mine := fun (k : Nat) => decide (k * 8 / 2 ^ 21 = r)
    if isHost pa then s
    else
      { s with
        tagged := spSet false s.tagged r true, tags := s.tags.filter (fun e => !mine e.1)
        bad := s.bad.filter (fun e => !mine e.1)
        l2 := spMap CWord.none (fun k w => if mine k then { w with tag := .nil, tagDirty := false, bad := false } else w) s.l2 })

end Sys2Proof.Machine
end

