-- ==== Sys2Proof/Machine/HostLink.lean ====
section
/-! DEFINITION. The host link (R357-R360), detector streams (R362-R364), and the fabric's links (R366, R367). The PF and its
windows are those of chip 0; VF n of chip c is number 16 * c + n. -/

namespace Sys2Proof.Machine

open Sys2Proof

/-! ## Writes from outside, at their homes (R72, R306, R360) -/

/-- The bytes of a write that fall in word k, as data and mask. -/
def wordPiece (pa : Nat) (bs : List Byte) (k : Nat) : Word × BitVec 8 :=
  let at_ := fun (i : Nat) => if pa ≤ k * 8 + i then bs[k * 8 + i - pa]? else none
  (wd (leNat ((List.range 8).map (fun i => (at_ i).getD 0))),
   BitVec.ofNat 8 (((List.range 8).map (fun i => if (at_ i).isSome then 2 ^ i else 0)).sum))

/-- The words that n bytes from an address touch. -/
def wordsOf (pa n : Nat) : List Nat := (List.range ((pa + n + 7) / 8 - pa / 8)).map (fun i => pa / 8 + i)

/-- The partition whose memory an address lies in. -/
def ownerOf (s : State) (pa : Nat) : Option Nat :=
  ((List.range 16).find? (fun n => owns s (paChip pa * 16 + n) pa)).map (fun n => paChip pa * 16 + n)

/-- Write bytes that carry a tag for every word touched, at their homes; watchers of the words are told. A word in a code page of a bound
version, which is read-only to every agent, keeps its bytes, and its partition's service core is told (R190, R305); so with a word at a
CXL port or host that no longer answers (R222, R365). -/
def agentWrite (s : State) (pa : Nat) (bs : List Byte) (tag : Tag) : State :=
  (wordsOf pa bs.length).foldl (fun s k =>
    let d := wordPiece pa bs k
    if codePage s (k * 8) || !homeAnswers s (paChip (k * 8)) (k * 8) then (ownerOf s (k * 8)).elim s (fun p => tellSvc s p (.dropped (k * 8)))
    else wakeWord (homeWrite s k d.1 d.2 (if isTagged s (k * 8) then some tag else none) false none) (k * 8)) s

/-- Bytes at their homes; none where a word is uncorrectable. -/
def agentRead (s : State) (pa n : Nat) : Option (List Byte) :=
  if (wordsOf pa n).any (fun k => (homePeek s k).bad) then none
  else some ((List.range n).map (fun i => byteAt (homePeek s ((pa + i) / 8)).data ((pa + i) % 8)))

/-! ## Stream windows (R362-R364) -/

/-- Whether n bytes at a device address lie in the partition's memory. -/
def inPart (s : State) (p a n : Nat) : Bool :=
  (List.range (n / 2 ^ 21 + 2)).all (fun i => decide (n ≤ i * 2 ^ 21) || owns s p (a + i * 2 ^ 21)) &&
    (decide (n = 0) || owns s p (a + n - 1))

/-- The partition bound to a VF, and whether a VF's reset is not over: its partition's record has not come into force again (R337,
R360). -/
def vfPart (s : State) (vf : Nat) : Option Nat :=
  ((List.range 16).find? (fun n =>
    let x := partOf s (vf / 16 * 16 + n)
    x.valid && decide (fld (spGet 0 x.words 5) 32 4 = vf % 16))).map (fun n => vf / 16 * 16 + n)
def vfInReset (s : State) (vf : Nat) : Bool := decide (spGet 0 s.vfReset vf ≠ 0) && (vfPart s vf).isNone

/-- Slots of a window, and where a slot begins. -/
def winSlots (w : Win) : Nat := 2 ^ w.slog
def slotAt (w : Win) (i : Nat) : Nat := w.slotbase.toNat + i * w.fsize

/-- Every field that EN needs lies in its range (R362). -/
def winOk (s : State) (p : Nat) (w : Win) : Bool :=
  let base := p / 16 * 2 ^ 46
  decide (1 ≤ w.slog ∧ w.slog ≤ 12 ∧ w.fsize % 64 = 0 ∧ 128 ≤ w.fsize ∧ w.fsize ≤ 2 ^ 24) &&
  inPart s p (base + w.slotbase.toNat) (winSlots w * w.fsize) &&
  decide (w.arraddr.toNat % 8 = 0 ∧ w.consaddr.toNat % 8 = 0 ∧ w.arraddr.toNat < 2 ^ 46 ∧ w.consaddr.toNat < 2 ^ 46) &&
  owns s p (base + w.arraddr.toNat) && owns s p (base + w.consaddr.toNat)

def winErr (w : Win) (bit : Nat) : Win := { w with err := w.err ||| BitVec.ofNat 4 (2 ^ bit) }

/-- A write of the word that holds SLOTBASE and EN. -/
def winEnable (s : State) (vf win : Nat) (v : Word) : State :=
  let k := vf * 64 + win
  let w := winOf s k
  let en := bitAt v 0
  if w.en then
    (if en then s
     else setWin s k { w with en := false, drop := w.drop + BitVec.ofNat 32 w.stage.length, stage := [] })
  else
    let w := { w with slotbase := wd (fld v 12 34 * 4096) }
    match vfPart s vf with
    | some p => setWin s k (if en && winOk s p w then { w with en := true, arr := w.baseseq, drop := 0 } else w)
    | none => setWin s k w

/-- STREAM_WINDOW_ENABLE (R362); before READY a write to a VF is discarded (R380). -/
def execStreamWindowEnable (vf win : Nat) (v : Word) (s : State) : Host.Outcome State Fault Refusal :=
  .next (if s.boot.ready && decide (win < 64) then winEnable s vf win v else s)

/-- A staged frame's sequence number, once bytes 0-7 have arrived. -/
def stageSeq (g : Stage) : Option Nat := ((List.range 8).mapM (fun i => spGet none g.bytes i)).map leNat

def stageOf (w : Win) (slot : Nat) : Stage := (spGet none w.stage slot).getD ⟨[], 0, false⟩

/-- Bytes in a window's staging. -/
def staged (w : Win) : Nat := (w.stage.map (fun e =>
  match e.2 with
  | some g => g.count
  | none => 0)).sum

/-- Drop the frame of a slot. -/
def dropFrame (w : Win) (slot bit : Nat) : Win :=
  winErr { w with stage := spSet none w.stage slot none, drop := w.drop + 1 } bit

/-- One byte of a slot's frame arrives: the checks of R363, which run once bytes 0-7 have arrived. A frame with a byte for which the
window's staging has no room keeps a note of it until then. -/
def stageByte (w : Win) (slot off : Nat) (b : Byte) : Win :=
  if !w.en then w
  else
    let g := stageOf w slot
    let g := { bytes := spSet none g.bytes off (some b), count := g.count + 1,
               full := g.full || decide (w.stg * 2 ^ 21 < staged w + 1) }
    let w' := { w with stage := spSet none w.stage slot (some g) }
    match stageSeq g with
    | some q =>
      if q ≤ w.arr.toNat ∨ w.arr.toNat + winSlots w < q then dropFrame w' slot 0
      else if q % winSlots w ≠ slot then dropFrame w' slot 1
      else if g.full then dropFrame w' slot 2
      else if w.fsize < g.count then dropFrame w' slot 3
      else w'
    | none => w'

/-- STREAM_FRAME_WRITE (R363): bytes from an offset of a slot. -/
def execStreamFrameWrite (vf win slot at_ : Nat) (bytes : List Byte) (s : State) : Host.Outcome State Fault Refusal :=
  .next (let k := vf * 64 + win
    let w := winOf s k
    if s.boot.ready = false ∨ 64 ≤ win ∨ winSlots w ≤ slot ∨ w.fsize < at_ + bytes.length then s
    else setWin s k (((List.range bytes.length).zip bytes).foldl (fun w e => stageByte w slot (at_ + e.1) e.2) w))

/-- The arrival word is stored, INT, as a release at system scope (R300, R309, R364). -/
def arrivalStore (s : State) (vf : Nat) (w : Win) : State :=
  agentWrite (l2CleanSystem s) (vf / 16 * 2 ^ 46 + w.arraddr.toNat) (leBytes 8 w.arr.toNat) .int

/-- The gate reads the consumer word at system scope with acquire (R300, R364). -/
def consumerRead (s : State) (vf : Nat) (w : Win) : State × WV :=
  homeRead (l2DropSystem s) ((vf / 16 * 2 ^ 46 + w.consaddr.toNat) / 8)

/-- STREAM_PUBLISH: the next frame is complete and its slot is free for it: its bytes, then ARR and the arrival word (R364).
DESIGN CHOICE (log entry 109): while the consumer word cannot be read, or its home does not answer (R365), the frame stays staged. -/
def execStreamPublish (vf win : Nat) (s : State) : Host.Outcome State Fault Refusal :=
  .next (let k := vf * 64 + win
    let w := winOf s k
    let q := w.arr.toNat + 1
    let slot := q % winSlots w
    let g := stageOf w slot
    let base := vf / 16 * 2 ^ 46
    let c := consumerRead s vf w
    if !w.en || decide (g.count ≠ w.fsize) || decide (stageSeq g ≠ some q) || c.2.bad ||
        !homeAnswers s (vf / 16) (base + w.consaddr.toNat) ||
        decide (c.2.data.toNat + winSlots w < q) then s
    else
      let s := c.1
      let n := s.free
      let bs := (List.range w.fsize).map (fun i => (spGet none g.bytes i).getD (Config.freeByte (n + i)))
      let s := agentWrite { s with free := n + w.fsize } (base + slotAt w slot) bs .int
      let w := { w with arr := wd q, stage := spSet none w.stage slot none }
      arrivalStore (setWin s k w) vf w)

/-- A write of SKIP (R364). DESIGN CHOICE (log entry 110): with EN = 0 it acts in the same way, and stores the arrival word at ARRADDR as
it stands. -/
def winSkip (s : State) (vf win : Nat) (v : Word) : State :=
  let k := vf * 64 + win
  let w := winOf s k
  if v.toNat ≤ w.arr.toNat then s
  else
    let keep := fun (e : Nat × Option Stage) =>
      match e.2 with
      | some g =>
        (match stageSeq g with
         | some q => decide (v.toNat < q)
         | none => true)
      | none => false
    let w := { w with arr := v, stage := w.stage.filter keep }
    arrivalStore (setWin s k w) vf w

/-- STREAM_SKIP (R364); before READY a write to a VF is discarded (R380). -/
def execStreamSkip (vf win : Nat) (seq : Word) (s : State) : Host.Outcome State Fault Refusal :=
  .next (if s.boot.ready && decide (win < 64) then winSkip s vf win seq else s)

/-- A window's register. -/
def winRead (w : Win) (off : Nat) : Word :=
  match off / 8 with
  | 0 => wd (w.slotbase.toNat + if w.en then 1 else 0)
  | 1 => wd (w.stg * 2 ^ 40 + w.slog * 2 ^ 32 + w.fsize)
  | 2 => w.arraddr
  | 3 => w.baseseq
  | 4 => w.arr
  | 5 => w.consaddr
  | 7 => wd (w.drop.toNat * 2 ^ 16 + w.err.toNat)
  | _ => 0

/-- A write of a window's register under its access type (R362). Offset 0x40 is no register: through it the root monitor
grants staging. -/
def winWrite (s : State) (vf win off : Nat) (v : Word) : State :=
  let k := vf * 64 + win
  let w := winOf s k
  let idle := fun (w' : Win) => if w.en then s else setWin s k w'
  match off / 8 with
  | 0 => winEnable s vf win v
  | 1 => idle { w with slog := fld v 32 4, fsize := fld v 0 25 }
  | 2 => idle { w with arraddr := v }
  | 3 => idle { w with baseseq := v }
  | 5 => idle { w with consaddr := v }
  | 6 => winSkip s vf win v
  | 7 => setWin s k { w with err := w.err &&& ~~~ BitVec.ofNat 4 (fld v 0 4) }
  | 8 => setWin s k { w with stg := fld v 0 8 }
  | _ => s

/-! ## BARs (R358) -/

/-- The device address of an offset of BAR4: the partition's regions in MEMTAB order. -/
def bar4At (s : State) (p off : Nat) : Option Nat :=
  ((partOf s p).grants[off / 2 ^ 21]?).map (fun g => p / 16 * 2 ^ 46 + g * 2 ^ 21 + off % 2 ^ 21)

/-- The queue of an offset of BAR0. -/
def bar0Queue (s : State) (p off : Nat) : Option Nat :=
  let r := queueRange (partOf s p)
  if off / 64 < r.2 then some (p / 16 * 131072 + r.1 + off / 64) else none

/-- Whether an offset of a VF's BAR is mapped. -/
def vfMapped (s : State) (p bar off : Nat) : Bool :=
  match bar with
  | 0 => (bar0Queue s p off).isSome
  | 2 => decide (off < 2 ^ 17)
  | 4 => (bar4At s p off).isSome
  | _ => false

/-- The function number of the MSI-X table of a VF or the PF. -/
def funcNum : Option Nat → Nat
  | some vf => vf + 1
  | none => 0

/-- Whether an offset of BAR2 lies in the MSI-X table. -/
def inMsix (vf : Option Nat) (off : Nat) : Bool :=
  match vf with
  | some _ => decide (2 ^ 16 ≤ off ∧ off < 2 ^ 16 + 2 ^ 15)
  | none => decide (off < 1024)

/-- One byte of a VF's BAR. -/
def vfByte (s : State) (vf p bar off : Nat) : Byte :=
  match bar with
  | 0 =>
    (match bar0Queue s p off with
     | some q => byteAt (queueRead s q (off % 64)) (off % 8)
     | none => 0)
  | 2 =>
    if off < 4096 then byteAt (winRead (winOf s (vf * 64 + off / 64)) (off % 64)) (off % 8)
    else if inMsix (some vf) off then spGet 0 s.msixTab (funcNum (some vf) * 2 ^ 17 + off) else 0
  | _ => 0

/-- The slot of a window that a device address falls in: window, slot, offset. The slots of an enabled window come first (R363). DEDUCED
(log entry 127). -/
def slotOfAddr (s : State) (vf a : Nat) : Option (Nat × Nat × Nat) :=
  let within := fun (en : Bool) => (List.range 64).findSome? (fun i =>
    let w := winOf s (vf * 64 + i)
    let o := a - w.slotbase.toNat
    if w.en = en ∧ w.fsize ≠ 0 ∧ w.slotbase.toNat ≤ a ∧ o < winSlots w * w.fsize then some (i, o / w.fsize, o % w.fsize) else none)
  (within true).or (within false)

/-- One byte written to BAR4: a frame's byte, or memory at its home; a home that does not answer loses it. -/
def bar4Byte (s : State) (vf p off : Nat) (b : Byte) : State :=
  match bar4At s p off with
  | none => s
  | some pa =>
    match slotOfAddr s vf (paLocal pa) with
    | some (i, slot, o) => setWin s (vf * 64 + i) (stageByte (winOf s (vf * 64 + i)) slot o b)
    | none => if homeAnswers s (p / 16) pa then agentWrite s pa [b] .int else tellSvc s p (.dropped pa)

/-- A register written through its bytes: the value with the bytes of the write, over `old` elsewhere. -/
def overlay (old : Word) (reg off : Nat) (bs : List Byte) : Word :=
  wd (leNat ((List.range 8).map (fun i =>
    (if off ≤ reg + i then bs[reg + i - off]? else none).getD (byteAt old i))))

/-- The 8-byte registers that a write touches. -/
def regsOf (off n : Nat) : List Nat := (wordsOf off n).map (fun k => k * 8)

/-- A write to a VF's BAR whose every byte is mapped. -/
def vfWrite (s : State) (vf p bar off : Nat) (bs : List Byte) : State :=
  match bar with
  | 0 => (regsOf off bs.length).foldl (fun s r =>
      match bar0Queue s p r with
      | some q => queueWrite s q (r % 64) (overlay (if r % 64 = 0x38 then 0 else queueRead s q (r % 64)) r off bs)
      | none => s) s
  | 2 => (regsOf off bs.length).foldl (fun s r =>
      if r < 4096 then
        let w := winOf s (vf * 64 + r / 64)
        winWrite s vf (r / 64) (r % 64) (overlay (if r % 64 = 0x38 then 0 else winRead w (r % 64)) r off bs)
      else if inMsix (some vf) r then
        ((List.range bs.length).zip bs).foldl (fun s e =>
          if (off + e.1) / 8 * 8 = r then { s with msixTab := spSet 0 s.msixTab (funcNum (some vf) * 2 ^ 17 + off + e.1) e.2 }
          else s) s
      else s) s
  | _ => ((List.range bs.length).zip bs).foldl (fun s e => bar4Byte s vf p (off + e.1) e.2) s

/-- One more request turned away while a VF is being reset (R360). -/
def countVf (s : State) (vf : Nat) : State := { s with vfCount := spSet 0 s.vfCount vf (spGet 0 s.vfCount vf + 1) }

/-- Tell a VF's partition of an unmapped request. -/
def tellVf (s : State) (vf bar off : Nat) : State :=
  match vfPart s vf with
  | some p => tellSvc s p (.unsupported vf bar off)
  | none => s

/-! ## Inbound requests of a VF (R358, R360, R380) -/

/-- A posted write to a VF. -/
def vfPosted (s : State) (vf bar off : Nat) (bs : List Byte) : State :=
  if !s.boot.ready then s
  else if vfInReset s vf then (if bar = 4 then countVf s vf else s)
  else match vfPart s vf with
    | none => s
    | some p =>
      if (List.range bs.length).all (fun i => vfMapped s p bar (off + i)) then vfWrite s vf p bar off bs
      else tellVf s vf bar off

def answer (s : State) (a : Answer) : State := { s with answers := s.answers ++ [a] }

/-- A non-posted request before READY: Configuration Request Retry Status while VFs are being enabled, Unsupported Request afterwards
(R380). The enabling is over at the latest at the first Unsupported Request; before it, whether it has ended is a free value (log entry
111). -/
def answerEarly (s : State) : State :=
  if s.vfsUp then answer s .unsupported
  else
    let r := takeFree s
    if r.1 % 2 = 0 then answer r.2 .retry else answer { r.2 with vfsUp := true } .unsupported

/-- A read of a VF. -/
def vfRead (s : State) (vf bar off n : Nat) : State :=
  if !s.boot.ready then answerEarly s
  else if vfInReset s vf then answer (countVf s vf) .abort
  else match vfPart s vf with
    | none => answer s .unsupported
    | some p =>
      if !(List.range n).all (fun i => vfMapped s p bar (off + i)) then answer (tellVf s vf bar off) .unsupported
      else if bar = 4 then
        let bs := (List.range n).mapM (fun i => (bar4At s p (off + i)).bind (fun pa =>
          if homeAnswers s (p / 16) pa then (agentRead s pa 1).bind (·.head?) else none))
        answer s (match bs with
          | some b => .data b
          | none => .abort)
      else answer s (.data ((List.range n).map (fun i => vfByte s vf p bar (off + i))))

/-- INBOUND_ATOMICOP: an ATOM at the home cluster's service warp, plain, at system scope; other widths than 64 bits are not
supported (R357, R360). One for a code page of a bound version is aborted, and the service core told (R305; log entry 32). -/
def execInboundAtomicop (vf : Nat) (offset width : Nat) (op : PcieAtomic) (b c : Word) (s : State) :
    Host.Outcome State Fault Refusal :=
  .next (if !s.boot.ready then answerEarly s
    else if vfInReset s vf then answer (countVf s vf) .abort
    else match vfPart s vf with
      | none => answer s .unsupported
      | some p =>
        match bar4At s p offset with
        | none => answer (tellVf s vf 4 offset) .unsupported
        | some pa =>
          if width ≠ 64 ∨ offset % 8 ≠ 0 then answer s .unsupported
          else if !homeAnswers s (p / 16) pa then answer s .abort
          else if codePage s pa then answer (tellSvc s p (.dropped pa)) .abort
          else sendReq s p { core := p / 16 * 512 + 320 + p % 16, slot := 0, warp := 0, pa := pa, tagged := isTagged s pa,
                             op := .pcie op b c, acq := none, racq := false })

/-- VF_FUNCTION_LEVEL_RESET: the bound partition is reset, and its VF turns requests away until VALID is set again (R360). -/
def execVfFunctionLevelReset (vf : Nat) (s : State) : Host.Outcome State Fault Refusal :=
  .next (match vfPart s vf with
    | some p =>
      let s := resetPart (tellRoot s (.flr vf)) p
      { s with vfReset := spSet 0 s.vfReset vf (p + 1), vfCount := spSet 0 s.vfCount vf 0 }
    | none => tellRoot s (.flr vf))

/-! ## The fabric (R366, R367, R222) -/

/-- A request that writes nothing: code pages are read-only (R305). -/
def onlyReads : FabricReq → Bool
  | .read _ => true
  | _ => false

/-- FABRIC_REQUEST: a request of a partition of chip src for memory of this chip is checked and served at the line's home, an atomic by
the home cluster's service warp in its turn (R255, R256), or refused and reported to both service cores (R366). -/
def execFabricRequest (src chip part : Nat) (pa : Nat) (t : Bool) (r : FabricReq) (s : State) :
    Host.Outcome State Fault Refusal :=
  .next (let p := src * 16 + part % 16
    let n := match r with
      | .read n => n
      | .write bs _ => bs.length
      | .atomic .. => 8
    if decide (paChip pa = chip) && decide (pa < 2 ^ 52) &&
        (wordsOf pa n).all (fun k => peerAdmits s p (k * 8) t && homeAnswers s chip (k * 8) &&
          (onlyReads r || !codePage s (k * 8))) then
      match r with
      | .read n => answer s (match agentRead s pa n with
          | some b => .data b
          | none => .value (poisonVal 0x40))
      | .write bs tag => agentWrite s pa bs (tag.getD .int)
      | .atomic op b c =>
        sendReq s p { core := src * 512 + 320 + part % 16, slot := 0, warp := 0, pa := pa / 8 * 8, tagged := t, op := .peer op b c,
                      acq := none, racq := false }
    else
      let s := tellSvc s p (.refused src part pa)
      let s := (ownerOf s pa).elim s (fun m => tellSvc s m (.refused src part pa))
      match r with
      | .write .. => s
      | _ => answer s (.value (poisonVal 0x21)))

/-- A queued request whose home no longer answers its core is dropped: POISON 0x0021, and a report (R222, R270). -/
def dropLost (s : State) : State :=
  let out := fun (r : AswReq) =>
    match r.op with
    | .peer .. => false
    | _ => !homeAnswers s (coreChip r.core) r.pa
  let rs := (s.asws.map (fun e => e.2.all.filter out)).flatten
  let keep := fun (rs : List AswReq) => rs.filter (fun r => !out r)
  let s := { s with asws := spMap Asw.none (fun _ a => { a with queue := keep a.queue, waiting := keep a.waiting }) s.asws }
  rs.foldl (fun s r =>
    match r.op with
    | .signal .. => resetReq s r
    | _ => tellSvc (resetReq s r) (l1Part s r.core) (.dropped r.pa)) s

/-- LINK_DOWN: a destination with no live link is lost (R367). -/
def execLinkDown (chip link : Nat) (s : State) : Host.Outcome State Fault Refusal :=
  .next (loseTriples (dropLost { s with linkUp := spSet false s.linkUp (chip * 16 + link % 16) true }))

/-- LINK_RETRAIN: a link carries traffic again, and a chip that it leads to is no longer lost and comes back with empty KTBs; numbers 16-19
are the CXL ports, 20 the host link (R367, R371, R379). -/
def execLinkRetrain (chip link : Nat) (s : State) : Host.Outcome State Fault Refusal :=
  .next (if link < 16 then
      let back := fun (d : Nat) => decide (d < 64) && (spGet [] s.routes (chip * 64 + d)).contains link
      let s := ((spKeys s.lost).filter back).foldl emptyKtbs s
      { s with
        linkUp := spSet false s.linkUp (chip * 16 + link) false
        lost := s.lost.filter (fun e => !back e.1) }
    else { s with lost := spSet false s.lost (if link = 20 then 512 + chip else 64 + chip * 4 + (link - 16) % 4) false })

/-- REMOTE_HOME_LOST: a chip, CXL port chip - 64, or the host of chip - 512 stops answering (R222, R270, R371); an append to it is
dropped when it would be performed. -/
def execRemoteHomeLost (chip : Nat) (s : State) : Host.Outcome State Fault Refusal :=
  .next (let s := dropLost { s with lost := spSet false s.lost chip true }
    if chip < 64 then kvsdLost (loseTriples s) chip else s)

end Sys2Proof.Machine
end

