-- ==== Sys2Proof/Machine/Soft.lean ====
section
/-! DEFINITION. Soft errors (R219, R270, R294, R345, R390), the corrected-error counters and the error log (R383). -/

namespace Sys2Proof.Machine

open Sys2Proof

/-! ## Counters and the log (R383) -/

/-- KIND of a structure's error log entries; none where R383 gives no code. -/
def softCode : SoftKind → Option Nat
  | .register => some 1
  | .scratchpad => some 2
  | .accumulator => some 3
  | .l1 => some 4
  | .l2 => some 5
  | .vault => some 6
  | .lpddr => some 7
  | .link => some 8
  | .residue => some 9
  | .asw => some 10
  | _ => none

/-- The number of a structure, for its counters. -/
def softNum : SoftKind → Nat
  | .instrBuffer => 11
  | .bench => 12
  | .grid => 13
  | .queue => 14
  | .returnSlot => 15
  | .slotCounter => 16
  | .graphCount => 17
  | .network => 18
  | .bridge => 19
  | k => (softCode k).getD 0

/-- Units of one structure on a chip: how its instances are numbered across chips; a die has one lateral network and four bridges (R254),
and the engines of the die count with their slice (R383). -/
def softUnits : SoftKind → Nat
  | .l2 | .residue => 640
  | .vault | .asw => 80
  | .lpddr => 96
  | .link => 16
  | .queue => Config.queuesPerChip
  | .slotCounter | .bridge => 16
  | .network => 4
  | .grid | .graphCount => 2 ^ 32
  | _ => 512

/-- The place of an instance's counter: chip, structure, number on the chip. -/
def eccKey (k : SoftKind) (unit : Nat) : Nat := (unit / softUnits k * 32 + softNum k) * 2 ^ 32 + unit % softUnits k

/-- A corrected error: the instance's counter, which saturates. -/
def countError (s : State) (k : SoftKind) (unit : Nat) : State :=
  { s with ecc := spSet 0 s.ecc (eccKey k unit) (min (spGet 0 s.ecc (eccKey k unit) + 1) 0xFFFFFFFF) }

/-- An uncorrectable error enters its chip's ring of 1,024 entries under the first partition of that chip given, 0x1F where there is none,
and the service core of every partition given is told, or else the root monitor. -/
def logError (s : State) (chip : Nat) (k : SoftKind) (unit addr cyc : Nat) (parts : List Nat) : State :=
  let r := match softCode k with
    | some c => (c, s)
    | none =>
      let f := takeFree s
      (f.1 % 256, f.2)
  let s := r.2
  let seq := spGet 0 s.errseq chip
  let part := ((parts.find? (fun p => decide (p / 16 = chip))).map (· % 16)).getD 0x1F
  let log := spGet [] s.errlog chip ++ [⟨seq, r.1, unit, addr, cyc, part⟩]
  let s := { s with errlog := spSet [] s.errlog chip (log.drop (log.length - 1024)), errseq := spSet 0 s.errseq chip (seq + 1) }
  if parts = [] then tellRoot s (.softError r.1 unit addr)
  else parts.foldl (fun s p => tellSvc s p (.softError r.1 unit addr)) s

/-- UNIT: the die in [15:14], then the number within it of a core, slice, channel, vault or service warp; a link has its number on the
chip (R383). -/
def coreUnit (c : Nat) : Nat := coreDie c * 2 ^ 14 + coreInDie c
def unitCode (k : SoftKind) (unit : Nat) : Nat :=
  let per := match k with
    | .l2 | .residue => 160
    | .network => 1
    | .bridge => 4
    | .vault | .asw => 20
    | .lpddr => 24
    | _ => 2 ^ 14
  let n := unit % softUnits k
  n / per % 4 * 2 ^ 14 + n % per

/-- The partitions whose requests meet a word of memory: its owner, then those with a request on its way to the line (R294). DEDUCED
(log entry 124). -/
def metBy (s : State) (pa : Nat) : List Nat :=
  let line := pa / 256
  ((ownerOf s pa).toList ++
    (s.asws.map (fun e => (e.2.all.filter (fun r => decide (r.pa / 256 = line))).map (fun r => l1Part s r.core))).flatten ++
    (s.appends.filter (fun a => decide (a.kpa / 256 = line ∨ a.vpa / 256 = line))).map (·.part)).eraseDups

/-- A cycle count that the manual does not tie to a core. -/
def someCycles (s : State) : Nat × State := takeFree s

/-! ## Marks (R390) -/

/-- Mark a word poisoned, in its memory and in the slice. -/
def markBad (s : State) (k : Nat) : State :=
  let s := { s with bad := spSet false s.bad k true }
  if l2Of s k = CWord.none then s else setL2 s k { l2Of s k with bad := true }

/-- An L1 sector with an uncorrectable error: clean, it is refetched; dirty, it is written back and every word marked. -/
def l1Damage (s : State) (c k : Nat) : State :=
  let ks := sectorWords k
  let dirty := ks.any (fun k => decide ((l1Of s c k).dirty ≠ 0) || (l1Of s c k).tagDirty)
  let s := if dirty then ks.foldl (fun s k => markBad (l1Clean s c k) k) s else s
  ks.foldl (fun s k => if l1Of s c k = CWord.none then s else setL1 s c k CWord.none) s

/-- An L2 line with an uncorrectable error: clean, it is refetched; dirty, it is written back and every word marked. -/
def l2Damage (s : State) (k : Nat) : State :=
  let ks := lineWords (k / 32)
  let dirty := ks.any (fun k => decide ((l2Of s k).dirty ≠ 0) || (l2Of s k).tagDirty)
  let s := if dirty then ks.foldl (fun s k => markBad (l2Clean s k) k) s else s
  ks.foldl (fun s k => if l2Of s k = CWord.none then s else setL2 s k CWord.none) s

/-- A memory word with an uncorrectable error: its bytes have no value that can be read. -/
def wordDamage (s : State) (k : Nat) : State :=
  let n := s.free
  rawWrite { s with free := n + 8 } k (wd (leNat ((List.range 8).map (fun i => Config.freeByte (n + i))))) 0xFF none true

/-! ## Uncorrectable errors -/

/-- A register that cannot be read: number reg (128 and up: uniform), in a lane. -/
def regDamage (x : Warp) (reg lane : Nat) : Warp :=
  { x with regBad := spSet false x.regBad (if reg < 128 then laneBadKey reg lane else uniBadKey (reg - 128)) true }

/-- A scratchpad word that cannot be read. -/
def scratchDamage (s : State) (team off : Nat) : State :=
  let n := s.free
  updTeam { s with free := n + 8 } team (fun t =>
    let k := off / 8
    { t with scratch := (List.range 8).foldl (fun m i => spSet 0 m (k * 8 + i) (Config.freeByte (n + i))) t.scratch
             scrBad := spSet false t.scrBad k true })

/-- A residue error in the page selectors (KSEL) or the attention units and merge network (ATTN): MCHK on the output tile, beside a cause
that R156 ranks lower or in its place. DESIGN CHOICE
(log entry 107): a KSEL without a result yet leaves a count word of block 0, and one that has a result leaves its list as it is. -/
def residueDamage (s : State) (n : Nat) (attn : Bool) : State :=
  if attn then
    { s with attns := ((List.range s.attns.length).zip s.attns).map (fun e =>
        if e.1 = n then { e.2 with fault := worseCause e.2.fault (some .mchk) } else e.2) }
  else
    { s with ksels := ((List.range s.ksels.length).zip s.ksels).map (fun e =>
        if e.1 = n then
          { e.2 with result := match e.2.result with
              | some (ws, c) => some (ws, worseCause c (some .mchk))
              | none => some ([wd (2 ^ 63)], some .mchk) }
        else e.2) }

/-- A request of a service warp's queue is lost. -/
def aswDamage (s : State) (cluster n : Nat) : State :=
  let x := aswOf s cluster
  match x.queue[n]? with
  | some r => loseReq (setAsw s cluster { x with queue := x.queue.eraseIdx n }) r
  | none => s

/-- A return slot's state is lost: the lanes of its request receive POISON 0x0040, as those of a lost request do. DESIGN CHOICE (log
entry 106). -/
def slotDamage (s : State) (core slot : Nat) : State :=
  match spGet none (coreOf s core).reqs slot with
  | none => s
  | some _ => setReply s core slot (List.replicate 64 (poisonVal 0x40))

/-- A grid ends with no record, and its teams are killed. -/
def gridEnds (s : State) (g : Nat) : State :=
  (spFind s.teams (fun _ t => t.live && decide (t.grid = g))).foldl killTeam (gridGone s g)

/-- A graph's working counts are lost, or the state of a node's grid (number gridno): the graph ends with one KIND 3, STATUS 1 record, and
the teams of its nodes are killed. DESIGN CHOICE (log entry 106): a graph is damaged as a grid is (R345). -/
def graphDamage (s : State) (k gridno : Nat) : State :=
  let g := graphOf s k
  if !g.live then s
  else
    let s := holdCompl s g.queue { index := g.index, gridno := gridno, status := 1, kind := 3, user := 0, warp := none, sig := none }
    graphEnds ((spFind s.grids (fun _ x => decide ((x.node.map (·.1)) = some k))).foldl gridEnds s) k

/-- A grid's state is lost: it ends with a KIND 3, STATUS 1 record, and its teams are killed (R345); with a node's grid its graph ends. -/
def gridDamage (s : State) (g : Nat) : State :=
  let x := gridOf s g
  if !x.live then s
  else match x.node with
    | some (k, _) => if (graphOf s k).live then graphDamage s k g else gridEnds s g
    | none =>
      gridEnds (holdCompl s x.queue { index := x.index, gridno := g, status := 1, kind := 3, user := 0, warp := none, sig := none }) g

/-- The counters of a partition's sequence slots are lost: they hold values that the manual does not give (log entry 106). -/
def counterDamage (s : State) (p : Nat) : State :=
  let n := s.free
  updPart { s with free := n + 2 * (partOf s p).slots.length } p (fun x => { x with
    slots := ((List.range x.slots.length).zip x.slots).map (fun e =>
      (e.2.1, { e.2.2 with cnt0 := Config.freeNat (n + 2 * e.1) % 2 ^ 32, cnt1 := Config.freeNat (n + 2 * e.1 + 1) % 2 ^ 32 })) })

/-- A channel that keeps failing: the root monitor is told, and its lines read as uncorrectable (R294). DESIGN CHOICE (log entry 123):
the event SOFT_ERROR says that a channel does. -/
def channelFails (s : State) (pa : Nat) : State :=
  let c := lpddrChannel pa
  tellRoot { s with chanBad := spSet false s.chanBad c true } (.softError 7 (unitCode .lpddr c) pa)

/-- A request whose retries on a network or bridge are exhausted: it is answered with POISON 0x0040, the service core is told, and the error
is logged (R294, R383). DEDUCED (log entry 124): it counts as an uncorrectable error of the network. -/
def retriesOut (s : State) (k : SoftKind) (unit core slot : Nat) : State :=
  match spGet none (coreOf s core).reqs slot with
  | none => s
  | some r =>
    let s := { s with asws := spMap Asw.none (fun _ a =>
      { a with queue := a.queue.filter (fun q => !(decide (q.core = core) && decide (q.slot = slot)))
               waiting := a.waiting.filter (fun q => !(decide (q.core = core) && decide (q.slot = slot))) }) s.asws }
    let s := if r.outs = [] then endReq s core slot []
      else updCore s core (fun c =>
        { c with reqs := spSet none c.reqs slot (some { r with outs := r.outs.map (fun e => (e.1, some (poisonVal 0x40))) }) })
    let s := wakeHome <| wakeDrained (tellSvc s (l1Part s core) (.netRetry core)) r.warp
    let f := someCycles s
    logError f.2 (coreChip core) k (unitCode k unit) 0 f.1 [l1Part s core]

/-- NETWORK_RETRY_EXHAUSTED: a request gives up on the lateral network of its core's die. -/
def execNetworkRetryExhausted (core slot : Nat) (s : State) : Host.Outcome State Fault Refusal :=
  .next (retriesOut s .network (coreChip core * 4 + coreDie core) core slot)

/-- SOFT_ERROR. unit names the structure: a warp (register), a team (scratchpad, accumulator, bench), a core, slice, channel, link,
operation, cluster, grid, graph, queue, partition, lateral network or bridge; addr the word, tile, return slot, place in a queue, or the
slice of an operation; lane and reg the register, lane the kind of operation of a residue error (0 KSEL), lane other than 0 an LPDDR-6
channel that keeps failing, and reg the core of a network's request. A corrected error is counted; an uncorrectable one is logged and acts
as R219, R270, R294 and R345 say. The instruction buffer refetches. -/
def execSoftError (k : SoftKind) (unit addr lane reg : Nat) (correctable : Bool) (s : State) :
    Host.Outcome State Fault Refusal :=
  .next (
    let core := match k with
      | .register => (warpOf s unit).core
      | .scratchpad | .accumulator | .bench => (teamOf s unit).core
      | _ => unit
    let inst := match k with
      | .residue => addr
      | .register | .scratchpad | .accumulator | .bench | .l1 | .instrBuffer | .returnSlot => core
      | _ => unit
    let corePart := [l1Part s core]
    let cyc := (coreOf s core).cyc
    let f := someCycles s
    let chip := match k with
      | .grid => (gridOf s unit).part / 16
      | .graphCount => (graphOf s unit).part / 16
      | _ => inst / softUnits k
    let byCore := fun (s : State) (addr : Nat) => logError s (coreChip core) k (coreUnit core) addr cyc corePart
    let byUnit := fun (s : State) (addr : Nat) (parts : List Nat) => logError s chip k (unitCode k inst) addr f.1 parts
    if k = .instrBuffer then
      countError (updCore s core (fun c => { c with ibuf := c.ibuf.filter (fun e => decide (e.line ≠ addr / 256)),
                                                    hdrp := c.hdrp.filter (fun e => decide (e.1 ≠ addr)) })) k inst
    else if correctable then countError s k inst
    else match k with
      | .register => byCore (updWarp s unit (fun x => regDamage x reg lane)) 0
      | .scratchpad => byCore (scratchDamage s unit addr) 0
      | .accumulator => byCore (updTeam s unit (fun t => { t with accBad := spSet false t.accBad addr true })) 0
      | .bench => byCore ((teamOf s unit).warps.foldl (fun s w => updWarp s w (fun x => { x with mchkNext := true })) s) 0
      | .l1 => byCore (l1Damage s core (addr / 8)) addr
      | .returnSlot => byCore (slotDamage s core addr) 0
      | .l2 => byUnit (l2Damage f.2 (addr / 8)) addr (metBy s addr)
      | .vault => byUnit (wordDamage f.2 (addr / 8)) addr (metBy s addr)
      | .lpddr =>
        let s' := byUnit (wordDamage f.2 (addr / 8)) addr (metBy s addr)
        if lane = 0 then s' else channelFails s' addr
      | .link => byUnit f.2 0 []
      | .residue =>
        byUnit (residueDamage f.2 unit (decide (lane ≠ 0))) 0
          (if lane = 0 then (s.ksels[unit]?).map (·.part) else (s.attns[unit]?).map (·.part)).toList
      | .asw => byUnit (aswDamage f.2 unit addr) 0 (((aswOf s unit).queue[addr]?).map (fun r => l1Part s r.core)).toList
      | .grid => byUnit (gridDamage f.2 unit) 0 [(gridOf s unit).part]
      | .graphCount => byUnit (graphDamage f.2 unit 0) 0 [(graphOf s unit).part]
      | .slotCounter => byUnit (counterDamage f.2 unit) 0 [unit]
      | .queue => byUnit (updQueue f.2 unit (fun x => { queueErr x 2 with stopped := true })) 0 (queuePart s unit).toList
      | .network | .bridge => retriesOut s k unit reg addr
      | .instrBuffer => s)

/-- PATROL_SCRUB checks a vault word; one that cannot be corrected is marked poisoned (R294). -/
def execPatrolScrub (pa : Nat) (uncorrectable : Bool) (s : State) : Host.Outcome State Fault Refusal :=
  .next (match regionOf s pa with
    | .vault g =>
      if uncorrectable then
        let f := someCycles (wordDamage s (pa / 8))
        logError f.2 (g / 80) .vault (unitCode .vault g) pa f.1 (metBy s pa)
      else s
    | _ => s)

end Sys2Proof.Machine
end

