-- ==== Sys2Proof/Machine/Boot.lean ====
section
/-! DEFINITION. Power-up (R379, R380), firmware and identity: the root monitor's SPDM answers (R381, R382). -/

namespace Sys2Proof.Machine

open Sys2Proof

/-! ## Digests and signatures (R381, R382) -/

/-- SHA-384: 48 bytes. -/
def sha384 (bs : List Byte) : List Byte := (List.range 48).map (Config.sha384 bs)

/-- A signature over a digest: r and s, 48 bytes each; key 0 is the module's identity key, 1 the vendor's. -/
def ecdsaSign (key : Nat) (digest : List Byte) : List Byte := (List.range 96).map (Config.ecdsaSign key digest)

/-- Image k of those a boot finds. -/
def imageOf (i : BootIn) (k : Nat) : Image := (i.images[k]?).getD ⟨0, [], []⟩

/-- Whether bytes verify as a signature of a key over a digest: the signature that the key holder gives, and whatever else verifies, which
is a free predicate (log entry 108). -/
def verifies (key : Nat) (digest sig : List Byte) : Bool := decide (sig = ecdsaSign key digest) || Config.ecdsaOther key digest sig

/-- The boot ROM takes an image: the vendor key has the fused digest, and the signature verifies over the image's digest. -/
def imageSigned (i : BootIn) (k : Nat) : Bool :=
  decide (sha384 i.vendorKey = sha384 Config.vendorKey) && verifies 1 (sha384 (imageOf i k).bytes) (imageOf i k).signature

/-! ## The boot sequence (R379, R380) -/

/-- The stage that stops the sequence and its ERRCODE; none: every stage passes. DESIGN CHOICE (log entry 137): where several units fail at
stage 1 a channel outranks a vault and a vault a bridge, and at stage 2 every signature is checked before any version. -/
def bootFail (s : State) (i : BootIn) : Option (Nat × Nat) :=
  if i.channelFail then some (1, 0x11)
  else if i.vaultFail then some (1, 0x12)
  else if i.bridgeFail then some (1, 0x13)
  else if (List.range 4).any (fun k => !imageSigned i k) then some (2, 0x21)
  else if (List.range 4).any (fun k => decide ((imageOf i k).version < spGet 0 s.fuses k)) then some (2, 0x22)
  else if i.persistentError then some (3, 0x31)
  else if i.imageFail then some (4, 0x41)
  else none

/-- Whether initialisation clears a byte: the LPDDR-6 and vault memory of the module's own chip; CXL memory, the memory of hosts and that
of other chips stand (R379). -/
def bootClears (pa : Nat) : Bool := decide (pa < 0x2000_0000_0000)

/-- The entries of a map for other chips than the module's own, whose keys lie below n. -/
def otherChips {α : Type} (n : Nat) (m : Sparse α) : Sparse α := m.filter (fun e => decide (n ≤ e.1))

/-- The module is reset: every core, slice, bench, KTB, service warp, queue, window and table of its chip is at reset, its memory as it
was. What other chips hold, fuses, images, link states and what the outside has been answered stand; requests that other chips had on
their way here are answered with POISON 0x0021 (R374). DEDUCED (log entry 87). -/
def moduleReset (s : State) : State :=
  let mine := fun (r : AswReq) => decide (coreChip r.core = 0)
  let lost := ((s.asws.filter (fun e => decide (e.1 < 80))).map (fun e => e.2.all.filter (fun r => !mine r))).flatten
  let own := fun (p : Nat) => decide (16 ≤ p)
  let s := lost.foldl resetReq s
  { s with
    l2 := s.l2.filter (fun e => decide (paChip (e.1 * 8) ≠ 0)), l2lru := otherChips (640 * 128) s.l2lru
    releaser := s.releaser.filter (fun e => decide (paChip (e.1 * 256) ≠ 0 ∧ 512 < e.2))
    code := s.code.filter (fun e => own e.2.2.1)
    cores := otherChips 512 s.cores, teams := s.teams.filter (fun e => own e.2.part), warps := s.warps.filter (fun e => own (warpPart s e.1))
    asws := spMap Asw.none (fun _ a =>
      { a with queue := a.queue.filter (fun r => !mine r), waiting := a.waiting.filter (fun r => !mine r) }) (otherChips 80 s.asws)
    parts := otherChips 16 s.parts, queues := otherChips Config.queuesPerChip s.queues
    grids := s.grids.filter (fun e => own e.2.part), graphs := s.graphs.filter (fun e => own e.2.part)
    slkv := otherChips 640 s.slkv, sktb := otherChips 1 s.sktb, appends := s.appends.filter (fun a => own a.part)
    ksels := s.ksels.filter (fun o => own o.part), attns := s.attns.filter (fun o => own o.part)
    wqrys := s.wqrys.filter (fun e => own (teamOf s e.1).part), kvsds := s.kvsds.filter (fun o => own o.part)
    wins := otherChips (16 * 64) s.wins, chanBad := otherChips 96 s.chanBad, routes := otherChips 64 s.routes
    decoders := otherChips 8 s.decoders, vfReset := otherChips 16 s.vfReset, vfCount := otherChips 16 s.vfCount
    msixTab := otherChips (17 * 2 ^ 17) s.msixTab, dbg := ⟨0, 0, 0, 0, 0, 0, [], []⟩
    mbox := s.mbox.filter (fun e => own e.1), spdm := .none, spdmExt := false, vfsUp := false, ecc := otherChips (32 * 2 ^ 32) s.ecc
    errlog := otherChips 1 s.errlog, errseq := otherChips 1 s.errseq
    rootReports := s.rootReports.filter (fun r =>
      match r with
      | .priRequest p _ => own p
      | _ => false) }

/-- Stage 1: a link or CXL port of the module whose training fails is down and reported so, and any other carries traffic (R367). -/
def trainLinks (i : BootIn) (s : State) : State :=
  let s := (List.range 16).foldl (fun s n => { s with linkUp := spSet false s.linkUp n (i.linkFail.contains n) }) s
  let s := (List.range 4).foldl (fun s n => { s with lost := spSet false s.lost (64 + n) (i.cxlFail.contains n) }) s
  (((List.range 16).filter i.linkFail.contains) ++ ((List.range 4).filter i.cxlFail.contains).map (16 + ·)).foldl
    (fun s n => tellRoot s (.linkDown 0 n)) s

/-- Stage 3: every byte, tag and mark of the module's own memory is clear. -/
def clearMemory (s : State) : State :=
  { s with mem := s.mem.filter (fun e => !bootClears e.1), bad := s.bad.filter (fun e => !bootClears (e.1 * 8))
           tags := s.tags.filter (fun e => decide (paChip (e.1 * 8) ≠ 0)), tagged := otherChips (2 ^ 25) s.tagged }

/-- Images that run from now on, and their versions. DEDUCED (log entry 125): the root monitor and the link controller run from stage 2 on,
the service cores and ASWs from stage 4, and no boot raises a fuse count. -/
def loadImages (i : BootIn) (ks : List Nat) (s : State) : State :=
  { s with
    images := ks.foldl (fun m k => spSet 0 m k (imageOf i k).version) s.images
    firmware := ks.foldl (fun m k => spSet [] m k (imageOf i k).bytes) s.firmware }

/-- The work of a stage that passes (R379). -/
def stageWork (i : BootIn) (stage : Nat) (s : State) : State :=
  match stage with
  | 1 => trainLinks i s
  | 2 => loadImages i [0, 3] s
  | 3 => clearMemory s
  | 4 => loadImages i [1, 2] s
  | _ => s

/-- The stage that BOOTSTAT shows ends: it fails, and the sequence stops with its ERRCODE; or it passes, and the next one begins. STAGE 5
and READY are one write, the last of the sequence (R379, R380). DESIGN CHOICE (log entry 112): a stage is one turn of the machine. -/
def bootStep (s : State) : State :=
  match s.bootRun with
  | none => s
  | some i =>
    let stage := s.boot.stage.toNat
    match (bootFail s i).filter (fun f => decide (f.1 = stage)) with
    | some f => { s with boot := { s.boot with errcode := BitVec.ofNat 8 f.2 }, bootRun := none }
    | none =>
      let s := stageWork i stage s
      if stage = 4 then { s with boot := ⟨0, 5, true⟩, bootRun := none }
      else { s with boot := { s.boot with stage := BitVec.ofNat 8 (stage + 1) } }

/-- The module is reset, and its boot ROM begins with stage 1 (R379). -/
def bootStart (i : BootIn) (s : State) : State := { moduleReset s with boot := ⟨0, 1, false⟩, bootRun := some i }

/-- POWER_ON (R379). -/
def execPowerOn (i : BootIn) (s : State) : Host.Outcome State Fault Refusal := .next (bootStart i s)

/-- PF_FUNCTION_LEVEL_RESET: the module is reset and boots; the error log goes on, since it counts from power-up (R379, R383). -/
def execPfFunctionLevelReset (i : BootIn) (s : State) : Host.Outcome State Fault Refusal :=
  .next { bootStart i s with errlog := s.errlog, errseq := s.errseq }

/-- The root monitor installs an image: a version newer than the one that runs raises the fuse count, and nothing lowers it (R381). -/
def installImage (s : State) (k version : Nat) : State :=
  if s.boot.ready ∧ k < 4 ∧ spGet 0 s.images k < version then
    { s with fuses := spSet 0 s.fuses k (max (spGet 0 s.fuses k) version) }
  else s

/-! ## SPDM (R382) -/

/-- The root monitor answers once its firmware runs. -/
def spdmAnswer (s : State) (r : SpdmResp) : State := if s.boot.ready then { s with spdm := r } else s

/-- GET_VERSION: SPDM 1.3. -/
def execGetVersion (s : State) : Host.Outcome State Fault Refusal := .next (spdmAnswer s (.version 0x13))

/-- GET_CAPABILITIES. -/
def execGetCapabilities (s : State) : Host.Outcome State Fault Refusal :=
  .next (spdmAnswer s (.capabilities (Config.spdmCaps 0)))

/-- NEGOTIATE_ALGORITHMS: no base asymmetric algorithm; the extended one when the requester offers it (Registry ID 1,
Algorithm ID 0x0031); SHA-384 as the base and the measurement hash, and the DMTF measurement specification. -/
def execNegotiateAlgorithms (offersExt : Bool) (s : State) : Host.Outcome State Fault Refusal :=
  .next (if s.boot.ready then
      { s with spdm := .algorithms 0 (if offersExt then some (1, 0x0031) else none) true true true, spdmExt := offersExt }
    else s)

/-- The certificate chain: three certificates. -/
def spdmChain : List Byte := Config.certChain 0 ++ Config.certChain 1 ++ Config.certChain 2

/-- GET_DIGESTS. -/
def execGetDigests (s : State) : Host.Outcome State Fault Refusal :=
  .next (spdmAnswer s (.digests (sha384 spdmChain)))

/-- GET_CERTIFICATE: a portion of the chain. -/
def execGetCertificate (offset len : Nat) (s : State) : Host.Outcome State Fault Refusal :=
  .next (spdmAnswer s (.certificate ((spdmChain.drop offset).take len)))

/-- Words as bytes. -/
def wordBytes (ws : List Word) : List Byte := (ws.map (fun w => leBytes 8 w.toNat)).flatten

/-- The partition table as it stands: 16 records of eight words, with VALID as it is in force. -/
def tableWords (s : State) (chip : Nat) : List Word :=
  ((List.range 16).map (fun n => (List.range 8).map (fun k =>
    let x := partOf s (chip * 16 + n)
    let w := spGet 0 x.staged k
    if k = 5 then setBit w 36 x.valid else w))).flatten

/-- A fabric access table: 64 entries, V in bit 63 and PPART (R385). -/
def fatWords (x : Part) : List Word :=
  (List.range 64).map (fun k =>
    let e := spGet 0 x.fat k
    wd ((if bitAt e 4 then 2 ^ 63 else 0) + fld e 0 4))

/-- Measurement block i. -/
def measureBlock (s : State) (i : Nat) : List Byte :=
  match i with
  | 5 => ((List.range 4).map (fun k => leBytes 4 (spGet 0 s.images k))).flatten ++
      ((List.range 4).map (fun k => leBytes 4 (spGet 0 s.fuses k))).flatten
  | 6 => sha384 (wordBytes (tableWords s 0))
  | 7 => ((List.range 16).map (fun n =>
      if (partOf s n).valid then sha384 (wordBytes (fatWords (partOf s n))) else [])).flatten
  | _ => sha384 (spGet [] s.firmware (i - 1))

/-- Block numbers of an index: one block, or all of them for 0xFF. -/
def measureBlocks (s : State) (index : Nat) : List (Nat × List Byte) :=
  (if index = 0xFF then [1, 2, 3, 4, 5, 6, 7] else if 1 ≤ index ∧ index ≤ 7 then [index] else []).map
    (fun i => (i, measureBlock s i))

/-- CHALLENGE: signed by the identity key over the chain, the measurements and the nonce; it needs the extended algorithm. -/
def execChallenge (nonce : List Byte) (s : State) : Host.Outcome State Fault Refusal :=
  .next (spdmAnswer s (if s.spdmExt then
      .challengeAuth (ecdsaSign 0 (sha384 (nonce ++ sha384 spdmChain ++
        ((measureBlocks s 0xFF).map (·.2)).flatten)))
    else .error))

/-- GET_MEASUREMENTS: the blocks of an index, signed when asked and the extended algorithm is in use. -/
def execGetMeasurements (index : Nat) (signed : Bool) (nonce : List Byte) (s : State) : Host.Outcome State Fault Refusal :=
  .next (let bs := measureBlocks s index
    spdmAnswer s (if bs = [] then .error
      else .measurements bs (if signed && s.spdmExt then
          some (ecdsaSign 0 (sha384 (nonce ++ (bs.map (·.2)).flatten))) else none)))

end Sys2Proof.Machine
end

