-- ==== Sys2Proof/Machine/Control.lean ====
section
/-! DEFINITION. Control transfers (R164-R166), meeting points (R151, R152, R167) and LRET (R99, R177). -/

namespace Sys2Proof.Machine

open Sys2Proof

/-! ## Conditional transfers (R162, R164) -/

/-- A transfer: causes of its lanes trap the warp, else f acts in the lanes where the condition holds. -/
def transfer (c : Cond) (ix : Ix) (s : State) (cause : Lane → Option Cause) (at_ : Lane → Word) (f : Lane → Lane) : Res :=
  let x := warpOf s ix.w
  let ls := takenLanes x ix c
  let fs := condFaults x ix c ++ ls.filterMap (fun l =>
    (cause (laneOf x l)).map (fun k => ⟨l, k, 0, ptrVal (at_ (laneOf x l))⟩))
  if fs ≠ [] then .trap fs 0 [] else .ok (setWarp s ix.w (updLanes x ls (fun _ y => f y)))

/-- The target of a C-format instruction (R41). -/
def target (ix : Ix) (off : BitVec 32) : Word := ix.pc + wdInt (8 * off.toInt)

/-- BRA (R164). -/
def execBra (h : Hdr) (o : OpBr) (s : State) : Host.Outcome State Fault Refusal :=
  issued (.bra h o) h s fun ix s =>
    transfer o.cond ix s (fun _ => none) (fun _ => ix.pc) (fun y => { y with lpc := target ix o.off })

/-- CALL (R164, R155). -/
def execCall (h : Hdr) (o : OpBr) (s : State) : Host.Outcome State Fault Refusal :=
  issued (.call h o) h s fun ix s =>
    transfer o.cond ix s (fun y => if 16 ≤ y.csd then some .lcstk else none) (fun _ => ix.pc)
      (fun y => { y with stk := spSet 0 y.stk y.csd (ix.pc + 8), csd := y.csd + 1, lpc := target ix o.off })

/-- The address a RET pops. -/
def retAddr (y : Lane) : Word := spGet 0 y.stk (y.csd - 1)

/-- RET (R164, R155): a misaligned address is held in EADDR. -/
def execRet (h : Hdr) (c : Cond) (s : State) : Host.Outcome State Fault Refusal :=
  issued (.ret h c) h s fun ix s =>
    transfer c ix s
      (fun y => if y.csd = 0 then some .ill else if fld (retAddr y) 0 3 ≠ 0 then some .align else none)
      (fun y => if y.csd = 0 then ix.pc else retAddr y)
      (fun y => { y with csd := y.csd - 1, lpc := retAddr y })

/-- The lane's own state after LCALL (R165). -/
def lcallLane (ix : Ix) (off : BitVec 32) (y : Lane) : Lane :=
  let k : LCall := { lane := 0, cls := 0, ta := 0, tb := 0, a := y.lopa, b := y.lopb, c := y.lopc, dkind := 2, dreg := 255,
                     back := ix.pc + 8 }
  enterCall y k (target ix off)

/-- LCALL (R165): as a lane call without a table entry; fixed-latency results are complete (R26). -/
def execLcall (h : Hdr) (o : OpBr) (s : State) : Host.Outcome State Fault Refusal :=
  issued (.lcall h o) h s fun ix s =>
    match transfer o.cond ix s (fun y => if y.lcd = 4 ∨ (1 ≤ y.lcd ∧ 14 < y.csd) then some .lcstk else none)
        (fun _ => ix.pc) (lcallLane ix o.off) with
    | .ok s' => .ok (if takenLanes (warpOf s ix.w) ix o.cond = [] then s' else updWarp s' ix.w settle)
    | r => r

/-- JMPI in one lane: the cause, if any, with what EADDR holds (R166, R47). -/
def jmpiFault (ix : Ix) (l : Nat) (v : Val) : Option LFault :=
  if v.tag = .poison then some ⟨l, .poison, fld v.pay 0 16, ptrVal ix.pc⟩
  else if v.tag ≠ .ptr ∧ v.tag ≠ .int then some (faultAt ix l .prot)
  else if fld v.pay 48 16 ≠ 0 then some ⟨l, .xlat, 0, ptrVal v.pay⟩
  else if fld v.pay 0 3 ≠ 0 then some ⟨l, .align, 0, ptrVal v.pay⟩
  else none

/-- JMPI (R166). -/
def execJmpi (h : Hdr) (b : Reg) (s : State) : Host.Outcome State Fault Refusal :=
  issued (.jmpi h b) h s fun ix s =>
    let x := warpOf s ix.w
    let fs := ix.exe.filterMap (fun l => jmpiFault ix l (readReg x b l))
    if fs ≠ [] then .trap fs 0 []
    else .ok (setWarp s ix.w (updLanes x ix.exe (fun l y => { y with lpc := (readReg x b l).pay })))

/-! ## EXIT, LEAVE, JOIN (R151, R152) -/

/-- Lanes exit: their mask bits, reservations and lane calls go. -/
def exitLanes (x : Warp) (ls : List Nat) : Warp :=
  let x := updLanes x ls (fun _ y => { y with act := .exited, resv := none, lcd := 0 })
  { x with masks := spMap 0 (fun _ m => m &&& ~~~ laneSet ls) x.masks }

/-- EXIT (R152): a warp with no lane left terminates; with the condition true in no lane nothing changes. -/
def execExit (h : Hdr) (c : Cond) (s : State) : Host.Outcome State Fault Refusal :=
  issued (.exit h c) h s fun ix s =>
    let x := warpOf s ix.w
    let fs := condFaults x ix c
    let ls := takenLanes x ix c
    if fs ≠ [] then .trap fs 0 []
    else if ls = [] then .ok s
    else .ok (retireWarp (setWarp s ix.w (rejoin (exitLanes x ls))) ix.w)

/-- JOIN (R151, R167). -/
def joinWarp (x : Warp) (ix : Ix) (m : MaskNo) : Warp :=
  let es := ix.exe.filter (fun l => maskBit x m.val l)
  if es = [] then x
  else
    let x := setLpc x es ix.pc
    let ms := maskLanes x m.val
    if ms.all (fun l => atJoin x ix.pc l) then passJoin x ix.pc ms
    else updLanes x es (fun _ y => { y with act := .waiting ix.pc m })

/-- JOIN (R151, R167). -/
def execJoin (h : Hdr) (m : MaskNo) (s : State) : Host.Outcome State Fault Refusal :=
  issued (.join h m) h s fun ix s => .ok (updWarp s ix.w (fun x => joinWarp x ix m))

/-- LEAVE (R152, R167). -/
def execLeave (h : Hdr) (m : MaskNo) (s : State) : Host.Outcome State Fault Refusal :=
  issued (.leave h m) h s fun ix s =>
    .ok (updWarp s ix.w (fun x => rejoin (setMask x m.val (maskReg x m.val &&& ~~~ laneSet ix.exe))))

/-! ## LRET (R99, R177) -/

/-- What a lane's LDST names. -/
inductive LTarget
  | reg (r : Reg)
  | mask (m : Nat)
  | nothing
deriving DecidableEq, Repr

/-- The destination of a legal LDST (R66). -/
def ldstTarget (v : Word) : LTarget :=
  match fld v 20 2 with
  | 0 => .reg ((regOf (fld v 0 8)).getD .nil)
  | 1 => .mask (fld v 0 4)
  | _ => .nothing

/-- The checks at the head of LRET. -/
def lretOk (x : Warp) (y : Lane) : Bool :=
  decide (1 ≤ y.lcd) && ldstLegal x y.ldst && !(decide (2 ≤ y.lcd) && decide (y.csd < 2))

/-- The lane's own state after LRET; LDST's reserved bits read 0 whatever its stack word holds (R66). -/
def lretLane (y : Lane) : Lane :=
  let y := { y with lpc := y.lrpc, lcd := y.lcd - 1 }
  if 1 ≤ y.lcd then
    { y with ldst := wd (fld (spGet 0 y.stk (y.csd - 1)) 0 22), lrpc := spGet 0 y.stk (y.csd - 2), csd := y.csd - 2 }
  else y

/-- Write a returning lane's value. -/
def lretWrite (x : Warp) (l : Nat) (v : Val) : Warp :=
  match ldstTarget (laneOf x l).ldst with
  | .reg r => writeReg x r l v
  | .mask m => setMask x m (setBit (maskReg x m) l (decide (v.pay ≠ 0)))
  | .nothing => x

/-- Whether a returning lane's destination register or mask still awaits a result (R150). -/
def lretPending (x : Warp) (l : Nat) : Bool :=
  match ldstTarget (laneOf x l).ldst with
  | .reg r =>
    (match regKey r with
     | some k => decide (spGet 0 x.pend k ≠ 0)
     | none => false)
  | .mask m => decide (spGet 0 x.pend (256 + m) ≠ 0)
  | .nothing => false

/-- All returning lanes: values are read first; a uniform destination gets the lowest lane's value, which is written last. The
JOINs are re-evaluated when a lane's bit of a mask was written (R151). -/
def lretWarp (x : Warp) (ix : Ix) (a : Reg) : Warp :=
  let y := ix.exe.reverse.foldl (fun y l => lretWrite y l (readReg x a l)) x
  let z := settle (updLanes y ix.exe (fun _ z => lretLane z))
  if ix.exe.any (fun l => decide (fld (laneOf x l).ldst 20 2 = 1)) then rejoin z else z

/-- LRET (R99, R177). -/
def execLret (h : Hdr) (a : Reg) (s : State) : Host.Outcome State Fault Refusal :=
  issued (.lret h a) h s fun ix s =>
    let x := warpOf s ix.w
    let bad := ix.exe.filter (fun l => !lretOk x (laneOf x l))
    if bad ≠ [] then .trap (bad.map (fun l => faultAt ix l .ill)) 0 []
    else if ix.exe.any (lretPending x) then .wait .drain s
    else .ok (setWarp s ix.w (lretWarp x ix a))

end Sys2Proof.Machine
end

