-- ==== Sys2Proof/Machine/Convert.lean ====
section
/-! DEFINITION. Conversions (R118-R123) and tag operations (R124-R126). -/

namespace Sys2Proof.Machine

open Sys2Proof

/-! ## CVT (R118, R119) -/

/-- A packed value with one element, element 0. -/
def element0 (t : Tag) (x : Nat) : LOut := .val ⟨t, wd x⟩

/-- The SE8 scale of a value (R119): the exponent chosen under the mode, biased by 127 and clamped to 0-254. -/
def se8Enc (rm : Rnd) : Num → Nat
  | .nan => 255
  | .inf _ => 255
  | .fin neg m e =>
    if m = 0 then 0
    else if neg then 255
    else
      let k := Nat.log2 m
      let lo : Int := (k : Int) + e
      let up : Bool :=
        match rm with
        | .rd | .rz => false
        | .ru => decide (m ≠ 2 ^ k)
        | .ra => decide (3 * 2 ^ k ≤ 2 * m)
        | .rn => decide (3 * 2 ^ k < 2 * m) || (decide (3 * 2 ^ k = 2 * m) && decide ((lo + 127) % 2 ≠ 0))
      let x := (if up then lo + 1 else lo) + 127
      (max 0 (min x 254)).toNat

/-- CVT in one lane. -/
def cvt (tgt : CvtTgt) (rm : Rnd) (a : Val) : LOut :=
  orPoison [a] <|
    match valNum a with
    | none => .call 9 (tagCode a.tag) (cvtCode tgt) a nilVal nilVal
    | some x =>
      match tgt with
      | .int => intOut 9 (roundInt rm x) a nilVal nilVal
      | .f64 => .val (fVal .f64 rm x)
      | .f32 => .val (fVal .f32 rm x)
      | .f16 => .val (fVal .f16 rm x)
      | .bf16 => .val (fVal .bf16 rm x)
      | .tap8 => element0 .pk8 (tap8.enc rm x)
      | .tap6 => element0 .pk8 (tap6.enc rm x)
      | .i8 => element0 .pk8 (encInt 8 rm x)
      | .i4 => element0 .pk4 (encInt 4 rm x)
      | .se8 => .val (natVal (se8Enc rm x))

/-- CVT (R118, R119). -/
def execCvt (h : Hdr) (tgt : CvtTgt) (rm : Rnd) (o : OpUn) (s : State) : Host.Outcome State Fault Refusal :=
  issued (.cvt h tgt rm o) h s fun ix s => laneOp ix s (.reg o.d) [o.a] fun l => cvt tgt rm (opVal s ix o.a o.sa l)

/-! ## PACK and UNPK (R120, R121) -/

/-- PACK in one lane: A's elements move down one place and B enters at the top. -/
def pack (e : Elt) (rm : Rnd) (a b : Val) : LOut :=
  orPoison [a, b] <|
    match valNum b with
    | some x =>
      if a.tag = .nil ∨ a.tag = eltTag e then
        let n := eltCount e
        .val ⟨eltTag e, packElts e (fun i =>
          if i + 1 = n then eltEnc e rm x else if a.tag = .nil then 0 else eltAt e a.pay (i + 1))⟩
      else .call 9 (tagCode a.tag) 0 a b nilVal
    | none => .call 9 (tagCode a.tag) 0 a b nilVal

/-- PACK (R120). -/
def execPack (h : Hdr) (rm : Rnd) (o : OpBinE) (s : State) : Host.Outcome State Fault Refusal :=
  issued (.pack h rm o) h s fun ix s =>
    laneOp ix s (.reg o.d) [o.a, o.b] fun l => pack o.e rm (opVal s ix o.a o.sa l) (opVal s ix o.b o.sb l)

/-- UNPK in one lane: element 0, widened exactly. -/
def unpk (e : Elt) (a : Val) : LOut :=
  orPoison [a] <|
    if a.tag ≠ eltTag e then .call 9 (tagCode a.tag) 0 a nilVal nilVal
    else
      let x := eltAt e a.pay 0
      match e with
      | .i8 => .val (intVal (sextN x 8))
      | .i4 => .val (intVal (sextN x 4))
      | .i16 => .val (intVal (sextN x 16))
      | .bf16 => .val ⟨.bf16, wd x⟩
      | .f16 => .val ⟨.f16, wd x⟩
      | .tap8 | .tap6 => .val (fVal .f32 .rn (eltDec e x))

/-- UNPK (R121). -/
def execUnpk (h : Hdr) (o : OpUnE) (s : State) : Host.Outcome State Fault Refusal :=
  issued (.unpk h o) h s fun ix s => laneOp ix s (.reg o.d) [o.a] fun l => unpk o.e (opVal s ix o.a o.sa l)

/-! ## SCALEQ and QNT (R122, R123) -/

/-- The decoded elements of a packed payload. -/
def decElts (e : Elt) (p : Word) : List Num := (List.range (eltCount e)).map (fun i => eltDec e (eltAt e p i))

/-- SCALEQ in one lane: the SE8 code of R88. -/
def scaleq (e : Elt) (a : Val) : LOut :=
  let mx := (eltMax (eltTFmt e)).getD 1
  orPoison [a] <|
    match valNum a with
    | some x => .val (natVal (scaleCode mx x.abs))
    | none =>
      if a.tag = eltTag e then .val (natVal (scaleCode mx (maxMag (decElts e a.pay))))
      else .call 9 (tagCode a.tag) 0 a nilVal nilVal

/-- SCALEQ (R122). -/
def execScaleq (h : Hdr) (d a : Reg) (e : Elt) (s : State) : Host.Outcome State Fault Refusal :=
  issued (.scaleq h d a e) h s fun ix s => laneOp ix s (.reg d) [a] fun l => scaleq e (opVal s ix a 0 l)

/-- QNT in one lane. -/
def qnt (e : Elt) (rm : Rnd) (a b : Val) : LOut :=
  orPoison [a, b] <|
    if b.tag ≠ .int ∨ 255 < b.pay.toNat then .call 9 (tagCode a.tag) 0 a b nilVal
    else if b.pay.toNat = 255 then .fault .scale 0
    else
      let k : Int := 127 - (b.pay.toNat : Int)
      match valNum a with
      | some x => element0 (eltTag e) (eltEnc e rm (scaleBy k x))
      | none =>
        if a.tag = eltTag e then
          .val ⟨eltTag e, packElts e (fun i => eltEnc e rm (scaleBy k (eltDec e (eltAt e a.pay i))))⟩
        else .call 9 (tagCode a.tag) 0 a b nilVal

/-- QNT (R123). -/
def execQnt (h : Hdr) (rm : Rnd) (d a b : Reg) (e : Elt) (s : State) : Host.Outcome State Fault Refusal :=
  issued (.qnt h rm d a b e) h s fun ix s =>
    laneOp ix s (.reg d) [a, b] fun l => qnt e rm (opVal s ix a 0 l) (opVal s ix b 0 l)

/-! ## Tags (R124-R126) -/

/-- TAGOF (R124). -/
def execTagof (h : Hdr) (d a : Reg) (s : State) : Host.Outcome State Fault Refusal :=
  issued (.tagof h d a) h s fun ix s =>
    laneOp ix s (.reg d) [a] fun l => .val (natVal (tagCode (opVal s ix a 0 l).tag))

/-- TAGAS in one lane: a REF needs RT (R125, R143). -/
def tagas (rt : Bool) (t : Tag) (a : Val) : LOut :=
  if decide (t = .ref) && !rt then .fault .priv 0 else .val ⟨t, canonPay t a.pay⟩

/-- TAGAS (R125). -/
def execTagas (h : Hdr) (t : Tag) (d a : Reg) (s : State) : Host.Outcome State Fault Refusal :=
  issued (.tagas h t d a) h s fun ix s =>
    laneOp ix s (.reg d) [a] fun l => tagas (rtOn (warpOf s ix.w)) t (opVal s ix a 0 l)

/-- TAGM (R126). -/
def execTagm (h : Hdr) (t : Tag) (m : MaskNo) (a : Reg) (s : State) : Host.Outcome State Fault Refusal :=
  issued (.tagm h t m a) h s fun ix s =>
    laneOp ix s (.mask m) [a] fun l => .val (natVal (if (opVal s ix a 0 l).tag = t then 1 else 0))

end Sys2Proof.Machine
end

