-- ==== Sys2Proof/Machine/Copy.lean ====
section
/-! DEFINITION. The copy engine (R211, R235-R237): CPY and COPY_EXECUTE. -/

namespace Sys2Proof.Machine

open Sys2Proof

/-! ## CPY (R235, R236) -/

/-- The limits of a mode on the tile A (R235); modes 3 and 4 lay out COLS elements a row, which a sparse tile does not
hold. orient: bit 0 of C. -/
def copyAccepts (mode : CpyMode) (orient : Bool) (h : Handle) : Bool :=
  match mode with
  | .lin | .d2 | .gth => true
  | .tap6 => decide (h.f = .tap6 ∧ h.cols % 4 = 0 ∧ h.sparse = 0)
  | .qnt => (eltMax h.f).isSome && h.hasScale && decide ((if orient then h.rows else h.cols) % 16 = 0 ∧ h.sparse = 0)

/-- The causes of the address B and of the operand C. -/
def copyArgs (ix : Ix) (team : Team) (mode : CpyMode) (b c : Val) : List LFault :=
  (if b.tag = .poison then [⟨ix.low, .poison, fld b.pay 0 16, ptrVal ix.pc⟩]
   else if b.tag ≠ .ptr ∧ b.tag ≠ .int then [faultAt ix ix.low .prot]
   else (if fld b.pay 48 16 ≠ 0 then [⟨ix.low, .xlat, 0, ptrVal b.pay⟩] else []) ++
     (if b.pay.toNat % 64 ≠ 0 then [⟨ix.low, .align, 0, ptrVal b.pay⟩] else [])) ++
  (match mode with
   | .gth => (handleArg ix team c (fun h => decide (h.m = .lin))).faults
   | .d2 | .qnt =>
     if c.tag = .poison then [⟨ix.low, .poison, fld c.pay 0 16, ptrVal ix.pc⟩]
     else if c.tag ≠ .int ∨ (mode = .d2 ∧ (c.pay.toNat % 8 ≠ 0 ∨ 2 ^ 32 ≤ c.pay.toNat)) ∨ (mode = .qnt ∧ 4 ≤ c.pay.toNat) then
       [faultAt ix ix.low .prot]
     else []
   | _ => [])

/-- The granules that a copy holds: of its tile and of its list tile. -/
def copyGranules (mode : CpyMode) (tile c : Word) : List Nat :=
  (handleOf tile).granules ++ (match mode with
    | .gth => (handleOf c).granules
    | _ => [])

/-- CPY (R235, R236). -/
def execCpy (h : Hdr) (mode : CpyMode) (out : Bool) (a b c : Reg) (s : State) : Host.Outcome State Fault Refusal :=
  issued (.cpy h mode out a b c) h s fun ix s =>
    let x := warpOf s ix.w
    let t := teamOf s x.team
    let bv := readReg x b ix.low
    let cv := readReg x c ix.low
    let ha := handleArg ix t (readReg x a ix.low) (copyAccepts mode (bitAt cv.pay 0))
    let fs := ha.faults ++ copyArgs ix t mode bv cv
    let fs := if fs ≠ [] then fs else ownerFaults ix t (copyGranules mode (readReg x a ix.low).pay cv.pay) true
    if fs ≠ [] then .trap fs 0 []
    else if warpUndrained s ix.w || (out && readsPending s ix.w) then .wait .drain s
    else if 32 ≤ (coreOf s x.core).copyq.length then .wait .engine s
    else
      .ok (updCore s x.core (fun k => { k with copyq := k.copyq ++
        [{ team := x.team, warp := ix.w, mode := mode, out := out, tile := (readReg x a ix.low).pay, va := bv.pay.toNat, c := cv.pay }] }))

/-! ## The engine's accesses to memory (R211, R236) -/

/-- What an engine's read brings. -/
inductive EngRd
  | ok (v : Nat)
  | fault (c : Cause)
deriving DecidableEq, Repr

/-- An engine's translation of an address that its pages already have an answer for. -/
def engAddr (s : State) (core team va : Nat) (n : Need) : Except Cause (Nat × Leaf) :=
  if 2 ^ 48 ≤ va then .error .xlat
  else (engineTrans s core (teamOf s team).part (teamOf s team).root va n).getD (.error .xlat)

/-- Read n bytes of one word through the core's L1. -/
def engRead (s : State) (core team va n : Nat) : State × EngRd :=
  match engAddr s core team va .r with
  | .error c => (s, .fault c)
  | .ok (pa, l) =>
    if isMmio s pa then (s, .fault .prot)
    else match l1Read s core (teamOf s team).part (pa / 8) (accMask pa n) l.t with
      | (s, .lost) => (s, .fault .prot)
      | (s, .ok v) => if v.bad then (s, .fault .mchk) else (s, .ok (fld v.data (8 * (pa % 8)) (8 * n)))

/-- Write n bytes of one word into the core's L1: the word's tag becomes INT (R72). -/
def engWrite (s : State) (core team va n x : Nat) : State × Option Cause :=
  match engAddr s core team va .w with
  | .error c => (s, some c)
  | .ok (pa, l) =>
    if isMmio s pa then (s, some .prot)
    else if !served s (teamOf s team).part (pa / 8) l.t then (tellRefused s (teamOf s team).part pa, some .prot)
    else
      (dropHeader (l1Write s core (pa / 8) (wd (x * 2 ^ (8 * (pa % 8)))) (accMask pa n) (if l.t then some .int else none))
        core va, none)

/-! ## A copy in progress (R200, R236) -/

/-- The state, and the first fault with the granule it lies on. -/
structure CopyRun where
  s : State
  fault : Option (Nat × FaultRec)
deriving DecidableEq, Repr

/-- Note a fault unless an earlier one stands: the offset of the scratchpad byte and the address. -/
def CopyRun.note (r : CopyRun) (off : Nat) (c : Cause) (va : Nat) : CopyRun :=
  if r.fault.isSome then r else { r with fault := some (off / 4096, ⟨c, some (va % 2 ^ 64)⟩) }

/-- Move n bytes of a word from memory to offset off. -/
def CopyRun.bring (r : CopyRun) (core : Nat) (o : CopyOp) (m : Swz) (va off n : Nat) : CopyRun :=
  match engRead r.s core o.team va n with
  | (s, .ok v) => { r with s := updTeam s o.team (fun t => scrWrite t m off n v) }
  | (s, .fault c) => ({ r with s := s }).note off c va

/-- Store n bytes x, read from offset off, at an address; an uncorrectable scratchpad word is MCHK (R219). -/
def CopyRun.put (r : CopyRun) (core : Nat) (o : CopyOp) (m : Swz) (off va n x : Nat) : CopyRun :=
  if scrBadAt (teamOf r.s o.team) m off then r.note off .mchk va
  else match engWrite r.s core o.team va n x with
    | (s, none) => { r with s := s }
    | (s, some c) => ({ r with s := s }).note off c va

/-- Move n bytes of a word from offset off to memory. -/
def CopyRun.send (r : CopyRun) (core : Nat) (o : CopyOp) (m : Swz) (off va n : Nat) : CopyRun :=
  r.put core o m off va n (scrRead (teamOf r.s o.team) m off n)

/-- Write zero to n words from an offset. -/
def zeroWords (s : State) (team : Nat) (m : Swz) (off n : Nat) : State :=
  updTeam s team (fun t => (List.range n).foldl (fun t i => scrWrite t m (off + 8 * i) 8 0) t)

/-- The header, bytes 0-7 copied and 8-63 zero (R235). -/
def CopyRun.header (r : CopyRun) (core : Nat) (o : CopyOp) (h : Handle) : CopyRun :=
  if o.out then
    (List.range 7).foldl (fun r i => r.put core o .lin h.hdr (o.va + 8 + 8 * i) 8 0) (r.send core o .lin h.hdr o.va 8)
  else
    let r := r.bring core o .lin o.va h.hdr 8
    { r with s := zeroWords r.s o.team .lin (h.hdr + 8) 7 }

/-- One row of modes 0-2. -/
def CopyRun.row (r : CopyRun) (core : Nat) (o : CopyOp) (h : Handle) (i va : Nat) : CopyRun :=
  (List.range (h.rowBytes / 8)).foldl (fun r k =>
    let off := h.data + i * h.rowBytes + 8 * k
    if o.out then r.send core o h.m off (va + 8 * k) 8 else r.bring core o h.m (va + 8 * k) off 8) r

/-- Entries of the gather list that are used: the count word, ROWS and what the list's data holds bound them (R235). -/
def listCount (t : Team) (h l : Handle) : Nat :=
  min (min (scrRead t .lin l.data 8) h.rows) (l.dataBytes / 8 - 1)

/-- Where row i lies in memory in modes 0-2; none: the gather list has no entry for it. -/
def rowAddr (t : Team) (o : CopyOp) (h : Handle) (i : Nat) : Option Nat :=
  match o.mode with
  | .d2 => some (o.va + 64 + i * o.c.toNat)
  | .gth =>
    let l := handleOf o.c
    if i < listCount t h l then some (o.va + 64 + scrRead t .lin (l.data + 8 + 8 * i) 8 * h.rowBytes) else none
  | _ => some (o.va + 64 + i * h.rowBytes)

/-- Whether a list word that row i depends on is uncorrectable: the count, or an entry that the copy uses (R219). -/
def listBad (t : Team) (o : CopyOp) (h : Handle) (i : Nat) : Bool :=
  match o.mode with
  | .gth =>
    let l := handleOf o.c
    scrBadAt t .lin l.data || (decide (i < listCount t h l) && scrBadAt t .lin (l.data + 8 + 8 * i))
  | _ => false

/-- The rows of modes 0-2, in order; rows without an entry are zero in the tile and leave memory alone. -/
def CopyRun.rows (r : CopyRun) (core : Nat) (o : CopyOp) (h : Handle) : CopyRun :=
  (List.range h.rows).foldl (fun r i =>
    let t := teamOf r.s o.team
    if listBad t o h i then r.note (h.data + i * h.rowBytes) .mchk o.va
    else match rowAddr t o h i with
      | some va => r.row core o h i va
      | none => if o.out then r else { r with s := zeroWords r.s o.team h.m (h.data + i * h.rowBytes) (h.rowBytes / 8) }) r

/-! ## Mode 3 (R84, R235) -/

/-- The padded byte as it packs: NaE when bits [7:6] are not zero. -/
def tap6Code (x : Nat) : Nat := if x < 64 then x else 0x20

/-- One group of four elements from three bytes: each element needs the bytes that hold its bits. -/
def CopyRun.expand (r : CopyRun) (core : Nat) (o : CopyOp) (h : Handle) (i g va : Nat) : CopyRun :=
  let off := h.data + i * h.rowBytes + 4 * g
  let step := fun (a : CopyRun × List (Option Nat)) (j : Nat) =>
    match engRead a.1.s core o.team (va + j) 1 with
    | (s, .ok v) => ({ a.1 with s := s }, a.2 ++ [some v])
    | (s, .fault c) => (({ a.1 with s := s }).note (off + j) c (va + j), a.2 ++ [none])
  let q := (List.range 3).foldl step (r, [])
  let ok := fun (j : Nat) => ((q.2[j]?).getD none).isSome
  let x := packList 8 (q.2.map (fun b => b.getD 0))
  let need := fun (j : Nat) => ok (6 * j / 8) && ok ((6 * j + 5) / 8)
  { q.1 with s := updTeam q.1.s o.team (fun t =>
      (List.range 4).foldl (fun t j => if need j then scrWrite t h.m (off + j) 1 (bitsOf x (6 * j) 6) else t) t) }

/-- One group of four elements to three bytes. -/
def CopyRun.pack (r : CopyRun) (core : Nat) (o : CopyOp) (h : Handle) (i g va : Nat) : CopyRun :=
  let off := h.data + i * h.rowBytes + 4 * g
  let t := teamOf r.s o.team
  let x := packList 6 ((List.range 4).map (fun j => tap6Code (scrRead t h.m (off + j) 1)))
  (List.range 3).foldl (fun r j => r.put core o h.m (off + j) (va + j) 1 (bitsOf x (8 * j) 8)) r

/-- Mode 3's rows. -/
def CopyRun.tap6Rows (r : CopyRun) (core : Nat) (o : CopyOp) (h : Handle) : CopyRun :=
  (List.range h.rows).foldl (fun r i =>
    (List.range (h.cols / 4)).foldl (fun r g =>
      let va := o.va + 64 + i * (3 * h.cols / 4) + 3 * g
      if o.out then r.pack core o h i g va else r.expand core o h i g va) r) r

/-! ## Mode 4 (R88, R235) -/

/-- Bytes of a source element: F32, or BF16 with SRC. -/
def srcBytes (o : CopyOp) : Nat := if bitAt o.c 1 then 2 else 4

/-- The source elements in row-major order; none where the access failed. -/
def CopyRun.source (r : CopyRun) (core : Nat) (o : CopyOp) (h : Handle) : CopyRun × List (Option Num) :=
  (List.range (h.rows * h.cols)).foldl (fun a k =>
    let va := o.va + 64 + k * srcBytes o
    match engRead a.1.s core o.team va (srcBytes o) with
    | (s, .ok v) => ({ a.1 with s := s }, a.2 ++ [some (if bitAt o.c 1 then fBF16.dec v else fF32.dec v)])
    | (s, .fault c) => (({ a.1 with s := s }).note (eltPlace h (k / h.cols) (k % h.cols)).1 c va, a.2 ++ [none])) (r, [])

/-- The blocks of mode 4: the offset of each scale, and the elements it covers, as (row, column). -/
def quantBlocks (h : Handle) (orient : Bool) : List (Nat × List (Nat × Nat)) :=
  let n := if orient then h.rows else h.cols
  let m := if orient then h.cols else h.rows
  ((List.range m).map (fun i => (List.range (ceilDiv n 32)).map (fun b =>
    (scaleAt h n i (32 * b),
     ((List.range 32).filter (fun j => decide (32 * b + j < n))).map (fun j =>
       if orient then (32 * b + j, i) else (i, 32 * b + j)))))).flatten

/-- What mode 4 has gathered: the largest dequantised magnitudes and errors of the blocks done, and whether all were. -/
structure Quant where
  t : Team
  peaks : List Num
  errs : List Num
  whole : Bool
deriving DecidableEq, Repr

/-- One block: its elements and scale, unless a source element is missing. -/
def Quant.block (q : Quant) (h : Handle) (src : List (Option Num)) (b : Nat × List (Nat × Nat)) : Quant :=
  match b.2.mapM (fun p => (src[p.1 * h.cols + p.2]?).getD none) with
  | none => { q with whole := false }
  | some xs =>
    let k := quantBlock h.f xs
    { q with t := (b.2.zip k.codes).foldl (fun t e => eltWrite t h e.1.1 e.1.2 e.2) (scrWrite q.t .lin b.1 1 k.e),
             peaks := maxMag k.vals :: q.peaks, errs := maxErr xs k.vals :: q.errs }

/-- Mode 4: the blocks, then the header where everything it depends on was read. -/
def CopyRun.quantise (r : CopyRun) (core : Nat) (o : CopyOp) (h : Handle) : CopyRun :=
  let hd := engRead r.s core o.team o.va 4
  let r := match hd.2 with
    | .ok _ => { r with s := hd.1 }
    | .fault c => ({ r with s := hd.1 }).note h.hdr c o.va
  let a := r.source core o h
  let s := a.1.s
  let q : Quant := (quantBlocks h (bitAt o.c 0)).foldl (fun q b => Quant.block q h a.2 b) ⟨teamOf s o.team, [], [], true⟩
  let t := (List.range 7).foldl (fun t i => scrWrite t .lin (h.hdr + 8 + 8 * i) 8 0) q.t
  let t := match hd.2 with
    | .ok v =>
      let f := hdrFields (maxMag q.peaks) (maxMag q.errs) (hdrMag v)
      if q.whole then scrWrite t .lin h.hdr 8 (f.1.toNat + f.2.toNat * 2 ^ 32) else t
    | .fault _ => if q.whole then scrWrite t .lin (h.hdr + 4) 4 (f32Up (maxMag q.peaks)).toNat else t
  { a.1 with s := setTeam s o.team t }

/-! ## COPY_EXECUTE -/

/-- The memory ranges a copy touches: start and length. -/
def copyRanges (t : Team) (o : CopyOp) (h : Handle) : List (Nat × Nat) :=
  (o.va, 64) ::
  (match o.mode with
   | .tap6 => [(o.va + 64, h.rows * (3 * h.cols / 4))]
   | .qnt => [(o.va + 64, h.rows * h.cols * srcBytes o)]
   | _ => (List.range h.rows).filterMap (fun i => (rowAddr t o h i).map (fun va => (va, h.rowBytes))))

/-- The pages of a copy whose host translation is still owed (R211, R359): the I/O address of each. -/
def copyOwed (s : State) (core : Nat) (o : CopyOp) : List Nat :=
  let t := teamOf s o.team
  let pages := ((copyRanges t o (handleOf o.tile)).map (fun r =>
    (List.range (r.2 / 4096 + 2)).map (fun i => r.1 / 4096 + i) |>.filter (fun p =>
      decide (p * 4096 < r.1 + r.2 ∧ p < 2 ^ 36)))).flatten.eraseDups
  pages.filterMap (fun p =>
    if (engineTrans s core t.part t.root (p * 4096) .r).isNone then
      match walk s core t.part t.root p with
      | .leaf l => some l.pa
      | _ => none
    else none)

/-- Warps of a core that wait for room in an engine's queue issue again. -/
def wakeEngine (s : State) (c : Nat) : State :=
  { s with warps := spMap Warp.none (fun _ x =>
      if x.core = c ∧ x.wait = .engine then { x with wait := .none } else x) s.warps }

/-- The data movement of a copy (R235). -/
def copyRun (s : State) (core : Nat) (o : CopyOp) : CopyRun :=
  let h := handleOf o.tile
  let r : CopyRun := ⟨s, none⟩
  match o.mode with
  | .qnt => r.quantise core o h
  | .tap6 => (r.header core o h).tap6Rows core o h
  | _ => (r.header core o h).rows core o h

/-- COPY_EXECUTE: the first copy of the queue whose team is not being stopped (R330) runs whole, its fault is recorded, its footprints flip (R197, R200,
R211, R236); while the host owes a translation it waits. -/
def execCopyExecute (core : Nat) (s : State) : Host.Outcome State Fault Refusal :=
  .next (match (coreOf s core).copyq.find? (fun o => !teamHeld s o.team) with
    | none => s
    | some o =>
      let owed := copyOwed s core o
      if owed ≠ [] then askHost s (teamOf s o.team).part owed
      else
        let r := copyRun (updCore s core (fun k => { k with copyq := k.copyq.erase o })) core o
        let s := match r.fault with
          | some (g, f) => recordFault r.s o.team g f
          | none => r.s
        let s := priTaken s (teamOf s o.team).part
        wakeDrained (wakeEngine (flipThread s o.team (copyGranules o.mode o.tile o.c)) core) o.warp)

end Sys2Proof.Machine
end

