-- ==== Sys2Proof/Machine/Masks.lean ====
section
/-! DEFINITION. Masks (R168-R171). -/

namespace Sys2Proof.Machine

open Sys2Proof

/-- Write a whole mask and re-evaluate the JOINs (R151). -/
def writeMask (s : State) (w : Nat) (m : MaskNo) (v : Word) : State := updWarp s w (fun x => rejoin (setMask x m.val v))

/-- The lanes of some that hold POISON in a register, as causes (R79). -/
def poisonLanes (x : Warp) (ix : Ix) (a : Reg) (ls : List Nat) : List LFault :=
  ls.filterMap (fun l =>
    let v := readReg x a l
    if v.tag = .poison then some ⟨l, .poison, fld v.pay 0 16, ptrVal ix.pc⟩ else none)

/-- MSET (R168). -/
def execMset (h : Hdr) (k : MsetKind) (m : MaskNo) (a : Reg) (s : State) : Host.Outcome State Fault Refusal :=
  issued (.mset h k m a) h s fun ix s =>
    let x := warpOf s ix.w
    match k with
    | .exec => .ok (writeMask s ix.w m (laneSet ix.exe))
    | .all => .ok (writeMask s ix.w m (laneSet (aliveLanes x)))
    | .zero => .ok (writeMask s ix.w m 0)
    | .nz =>
      let fs := poisonLanes x ix a ix.exe
      if fs ≠ [] then .trap fs 0 []
      else .ok (writeMask s ix.w m (laneSet (ix.exe.filter (fun l => !isZero (readReg x a l)))))
    | .bits =>
      let v := readReg x a ix.low
      if v.tag = .poison then trapPoison ix v else .ok (writeMask s ix.w m v.pay)

/-- The result of MOPS (R169). -/
def mops (k : MopsOp) (a b : Word) : Word :=
  match k with
  | .and => a &&& b
  | .or => a ||| b
  | .xor => a ^^^ b
  | .andn => a &&& ~~~ b
  | .not => ~~~ a
  | .copy => a

/-- MOPS (R169). -/
def execMops (h : Hdr) (k : MopsOp) (d a b : MaskNo) (s : State) : Host.Outcome State Fault Refusal :=
  issued (.mops h k d a b) h s fun ix s =>
    let x := warpOf s ix.w
    .ok (writeMask s ix.w d (mops k (maskReg x a.val) (maskReg x b.val)))

/-- MGET (R170). -/
def execMget (h : Hdr) (d : Reg) (m : MaskNo) (s : State) : Host.Outcome State Fault Refusal :=
  issued (.mget h d m) h s fun ix s => laneOp ix s (.reg d) [] fun _ => .val ⟨.int, maskReg (warpOf s ix.w) m.val⟩

/-- ELECT (R171). -/
def execElect (h : Hdr) (m : MaskNo) (s : State) : Host.Outcome State Fault Refusal :=
  issued (.elect h m) h s fun ix s => .ok (writeMask s ix.w m (laneSet [ix.low]))

end Sys2Proof.Machine
end

