-- ==== Sys2Proof/Machine/Cross.lean ====
section
/-! DEFINITION. Reading across lanes (R172-R176). -/

namespace Sys2Proof.Machine

open Sys2Proof

/-! ## SHFL, SHFLX, BCAST (R172) -/

/-- The value of A in the lane that a lane number names, modulo the width; a POISON lane number is consumed (R79). -/
def fromLane (x : Warp) (a : Reg) (n : Val) : LOut :=
  if n.tag = .poison then .fault .poison (fld n.pay 0 16) else .val (readReg x a (n.pay.toNat % x.width))

/-- SHFL (R172). -/
def execShfl (h : Hdr) (d a b : Reg) (s : State) : Host.Outcome State Fault Refusal :=
  issued (.shfl h d a b) h s fun ix s =>
    laneOp ix s (.reg d) [a, b] fun l => fromLane (warpOf s ix.w) a (readReg (warpOf s ix.w) b l)

/-- SHFLX (R172): a distance of the width or more is ILL at issue (regsInRange). -/
def execShflx (h : Hdr) (d a : Reg) (k : BitVec 6) (s : State) : Host.Outcome State Fault Refusal :=
  issued (.shflx h d a k) h s fun ix s =>
    laneOp ix s (.reg d) [a] fun l => .val (readReg (warpOf s ix.w) a (Nat.xor l k.toNat))

/-- BCAST (R172). -/
def execBcast (h : Hdr) (d a b : Reg) (s : State) : Host.Outcome State Fault Refusal :=
  issued (.bcast h d a b) h s fun ix s =>
    laneOp ix s (.reg d) [a, b] fun l => fromLane (warpOf s ix.w) a (readReg (warpOf s ix.w) b l)

/-! ## VOTE (R173) -/

/-- The result of VOTE over the executing lanes. -/
def voteVal (k : VoteOp) (x : Warp) (exe : List Nat) (a : Reg) : Val :=
  let ls := exe.filter (fun l => !isZero (readReg x a l))
  match k with
  | .any => natVal (if ls = [] then 0 else 1)
  | .all => natVal (if ls.length = exe.length then 1 else 0)
  | .ballot => ⟨.int, laneSet ls⟩

/-- VOTE (R173). -/
def execVote (h : Hdr) (k : VoteOp) (d a : Reg) (s : State) : Host.Outcome State Fault Refusal :=
  issued (.vote h k d a) h s fun ix s =>
    let x := warpOf s ix.w
    let fs := poisonLanes x ix a ix.exe
    if fs ≠ [] then .trap fs 0 [] else laneOp ix s (.reg d) [a] fun _ => .val (voteVal k x ix.exe a)

/-! ## REDUX and SCANX (R174-R176) -/

/-- The class of an operation. -/
def redClass : RedOp → Nat
  | .add => 0
  | .min | .max => 7
  | _ => 10

/-- One combine of two values; an outcome that is not a value is a call (R174). -/
def combine (op : RedOp) (a b : Val) : LOut :=
  orPoison [a, b] <|
    match op with
    | .add => if (resTag a.tag b.tag).isSome then arith .add .i8 a b else ownCall 0 a b nilVal
    | .min => if (resTag a.tag b.tag).isSome then minMax minNum .i8 a b else ownCall 7 a b nilVal
    | .max => if (resTag a.tag b.tag).isSome then minMax maxOf .i8 a b else ownCall 7 a b nilVal
    | .and => bitwise (fun x y => x &&& y) a b
    | .or => bitwise (fun x y => x ||| y) a b
    | .xor => bitwise (fun x y => x ^^^ y) a b

/-- A call of a combine carries its place in the tree: LOPC holds INT 64 d + i (R175). -/
def atPlace (d i : Nat) : LOut → LOut
  | .call cls ta tb a b _ => .call cls ta tb a b (natVal (64 * d + i))
  | r => r

/-- One stage: slot i of the first half with slot i of the second; the first call ends the reduction. -/
def redStage (op : RedOp) (d : Nat) : Nat → List (Option Val) → List (Option Val) → Except LOut (List (Option Val))
  | _, [], _ => .ok []
  | _, r, [] => .ok r
  | i, a :: r, b :: q =>
    match a, b with
    | none, y => (redStage op d (i + 1) r q).map (fun t => y :: t)
    | some x, none => (redStage op d (i + 1) r q).map (fun t => some x :: t)
    | some x, some y =>
      match combine op x y with
      | .val v => (redStage op d (i + 1) r q).map (fun t => some v :: t)
      | o => .error (atPlace d i o)

/-- The tree over 2^n slots: stages d = 2^(n-1) down to 1. -/
def redTree (op : RedOp) : Nat → List (Option Val) → Except LOut (Option Val)
  | 0, xs => .ok ((xs.head?).getD none)
  | n + 1, xs =>
    match redStage op (2 ^ n) 0 (xs.take (2 ^ n)) (xs.drop (2 ^ n)) with
    | .ok ys => redTree op n ys
    | .error o => .error o

/-- REDUX over a set of lanes; empty gives what an exclusive prefix gives when no lane is below (R176). -/
def redux (op : RedOp) (x : Warp) (ls : List Nat) (a : Reg) : LOut :=
  match redTree op (Nat.log2 x.width) ((List.range x.width).map (fun l => if ls.contains l then some (readReg x a l) else none)) with
  | .ok (some v) => .val v
  | .ok none =>
    .val (match op with
      | .min | .max => nilVal
      | .and => intVal (-1)
      | _ => natVal 0)
  | .error o => o

/-- REDUX (R174, R175). -/
def execRedux (h : Hdr) (k : RedOp) (d a : Reg) (s : State) : Host.Outcome State Fault Refusal :=
  issued (.redux h k d a) h s fun ix s => laneOp ix s (.reg d) [a] fun _ => redux k (warpOf s ix.w) ix.exe a

/-- SCANX (R176). -/
def execScanx (h : Hdr) (k : RedOp) (excl : Bool) (d a : Reg) (s : State) : Host.Outcome State Fault Refusal :=
  issued (.scanx h k excl d a) h s fun ix s =>
    laneOp ix s (.reg d) [a] fun l =>
      redux k (warpOf s ix.w) (ix.exe.filter (fun j => if excl then decide (j < l) else decide (j ≤ l))) a

end Sys2Proof.Machine
end

