-- ==== Sys2Proof/Machine/Debug.lean ====
section
/-! DEFINITION. Readback: the debug window and its commands (R384, R385), the root monitor's mailbox (R386), device registers
without a row of their own, and the inbound requests of both kinds of function (R358, R360). -/

namespace Sys2Proof.Machine

open Sys2Proof

/-! ## Pieces of state (R384, R385) -/

/-- State as a command reads it: how many bytes it has, and each of them. -/
structure Readable where
  size : Nat
  at_ : Nat → Byte

def ofBytes (bs : List Byte) : Readable := ⟨bs.length, fun i => (bs[i]?).getD 0⟩
def ofWords (ws : List Word) : Readable := ⟨8 * ws.length, fun i => byteAt ((ws[i / 8]?).getD 0) (i % 8)⟩

/-- How a command ends: data and tags, or DBGSTS 2, 3 or 4. -/
inductive DbgRes
  | done (data tags : List Byte)
  | busy
  | refused
  | bad
deriving DecidableEq, Repr

/-- A piece of some state that has no tags. -/
def piece (r : Readable) (off len : Nat) : DbgRes :=
  let bs := (List.range (min len (r.size - off))).map (fun i => r.at_ (off + i))
  .done bs (List.replicate (ceilDiv bs.length 8) 0)

/-- A length that ARG2 may hold. -/
def lenOk (len : Word) : Bool := decide (len.toNat % 8 = 0 ∧ len.toNat ≤ 65536)

/-- READCTX: the stopped team whose locator is ARG0. -/
def readCtx (s : State) (chip : Nat) (loc off len : Word) (mine : Team → Bool) : DbgRes :=
  match (spKeys s.teams).find? (fun t =>
      (teamOf s t).live && decide (coreChip (teamOf s t).core = chip) && decide (locWord s t = loc)) with
  | none => .bad
  | some t =>
    if !lenOk len then .bad
    else if !mine (teamOf s t) then .refused
    else if !(teamOf s t).stopped then .busy
    else piece (ofWords (blockWords s t 0)) off.toNat len.toNat

/-- A word as READMEM reads it at its home, with its tag; a register has none, and reads as 0 (R3, R384). -/
def memValue (s : State) (p pa : Nat) : Val :=
  if isMmio s pa then ⟨.nil, mmioRead s pa⟩
  else if !homeAnswers s (p / 16) pa then poisonVal 0x21
  else
    let w := homePeek s (pa / 8)
    if w.bad then poisonVal 0x40 else ⟨if isTagged s pa then w.tag else .nil, w.data⟩

/-- READMEM: payload bytes and tags at the line's home. -/
def readMem (s : State) (p : Nat) (pa off len : Word) : DbgRes :=
  let ks := (List.range (len.toNat / 8)).map (fun i => pa.toNat + 8 * i)
  if off ≠ 0 || !lenOk len || decide (pa.toNat % 8 ≠ 0) || decide (2 ^ 52 < pa.toNat + len.toNat) ||
      ks.any (fun a => decide (regionOf s a = .unmapped)) then .bad
  else
    let vs := ks.map (memValue s p)
    .done (wordBytes (vs.map (·.pay))) (vs.map (fun v => BitVec.ofNat 8 (tagCode v.tag)))

/-- A first-stage entry as READTAB returns it. -/
def kvRecord (k : Nat) (e : KvEntry) : List Word :=
  let half := fun (h : Option Word) =>
    match h with
    | some w => wd (fld w 0 40 + k % 2 ^ 16 * 2 ^ 48 + 2 ^ 47)
    | none => 0
  [wd (k / 2 ^ 30 * 2 ^ 40 + k / 2 ^ 22 % 2 ^ 8 * 2 ^ 32 + k % 2 ^ 22), half e.cur, half e.next, if e.p then 1 else 0]

/-- The tables of READTAB. -/
def tableOf (s : State) (sel p : Nat) : Option Readable :=
  let x := partOf s p
  match sel with
  | 0 => some (ofWords (tableWords s (p / 16)))
  | 1 => some (ofWords (fatWords x))
  | 2 => some (ofWords ((List.range 256).map (fun i => spGet 0 x.rgnt i)))
  | 3 => some (ofWords (x.kv.map (fun e => kvRecord e.1 e.2)).flatten)
  | 4 =>
    let w7 := spGet 0 x.words 7
    let base := p / 16 * 2 ^ 46 + fld w7 12 34 * 4096
    some ⟨fld w7 46 18 * 1024 * 32, fun i => byteAt (homePeek s ((base + i) / 8)).data ((base + i) % 8)⟩
  | 5 => some (ofWords (x.slots.map (fun e =>
      [wd (e.1 * 2 ^ 40 + (if e.2.e then 2 ^ 8 else 0) + if e.2.draining then 1 else 0), wd (e.2.cnt1 * 2 ^ 32 + e.2.cnt0)])).flatten)
  | 6 => some (ofWords ((List.range 8).map (fun i => controlRead s p (8 * i))))
  | _ => none

/-- Working counts of a graph's nodes, two bytes each. -/
def countBytes (g : Graph) : List Byte := ((List.range g.nodes.length).map (fun i => leBytes 2 (spGet 0 g.counts i))).flatten

/-- READQ: the register block, then the live grids and graphs of the queue. DESIGN CHOICE (log entry 139): the grids come before the graphs,
a graph's grid number is its key in State, and its live-warp count is the sum over the grids of its nodes. -/
def queueState (s : State) (q : Nat) : Readable :=
  let grids := (s.grids.filter (fun e => e.2.live && decide (e.2.queue = q) && decide (e.2.node = none))).map
    (fun e => wd (e.1 * 2 ^ 32 + e.2.warpsLeft % 2 ^ 32))
  let graphs := ((s.graphs.filter (fun e => e.2.live && decide (e.2.queue = q))).map (fun e =>
    let left := ((s.grids.filter (fun g => g.2.live && decide ((g.2.node.map (·.1)) = some e.1))).map (fun g => g.2.warpsLeft)).sum
    leBytes 8 (e.1 * 2 ^ 32 + left) ++ countBytes e.2)).flatten
  ofBytes (wordBytes ((List.range 8).map (fun i => queueRead s q (8 * i)) ++ grids) ++ graphs)

/-- Counters of a unit: one word for each of its structures (R383). -/
def counterWords (s : State) (ks : List (SoftKind × Nat)) : List Word := ks.map (fun e => wd (spGet 0 s.ecc (eccKey e.1 e.2)))

/-- A queued request: address, core and return slot, operation and operands. -/
def requestWords (r : AswReq) : List Word :=
  [wd r.pa, wd (r.core * 2 ^ 32 + r.slot)] ++
    (match r.op with
     | .atom op ls => wd (1 + 2 ^ 8 * aopCode op + 2 ^ 16 * ls.length) :: (ls.map (fun e => [e.2.1.pay, e.2.2.pay])).flatten
     | .vatom op _ ls => wd (2 + 2 ^ 8 * aopCode op + 2 ^ 16 * ls.length) :: (ls.map (fun e => [wd e.2.1, e.2.2])).flatten
     | .hcas _ va b c => [3, wd va, b.pay, c.pay]
     | .signal op b => [wd (4 + 2 ^ 8 * sigCode op), b]
     | .pcie op b c => [wd (5 + 2 ^ 8 * aopCode (pcieOp op)), b, c]
     | .peer op b c => [wd (6 + 2 ^ 8 * aopCode op), b.pay, c.pay])

/-- Whether an atomic or an append for an address that satisfies f is on its way to its home. -/
def onItsWay (s : State) (f : AswReq → Bool) (g : Nat → Bool) : Bool :=
  s.asws.any (fun e => e.2.all.any (fun r => f r && g r.pa)) || s.appends.any (fun a => g a.kpa || g a.vpa)

/-- The home slices of the blocks that a KSEL lists. -/
def kselSlices (s : State) (o : KselOp) : List Nat :=
  (List.range (dBlocks o.desc)).filterMap (fun j =>
    match kvLookup s o.part (kvKey o.desc j) with
    | .ok e =>
      match (kvSecond s o.part e).2 with
      | .ok _ _ home => some home
      | _ => none
    | _ => none)

/-- Whether slice u works for a KSEL or an ATTN of any partition: it is the home slice of a block that a KSEL without a result lists, or of
one that an ATTN has still to compute (R273, R277, R285). -/
def engineHome (s : State) (u : Nat) : Bool :=
  s.ksels.any (fun o => o.result.isNone && (kselSlices s o).contains u) || s.attns.any (fun o => o.todo.any (fun b => decide (b.home = u)))

/-- READUNIT: whether the unit's teams are stopped, or the unit idle, and its state. kind 0 core, 1 slice, 2 cluster, 3 channel, 4 link,
5 CXL port. A chip's links count as those of die 0, four CXL ports likewise; a port keeps no counter (R383). -/
def unitState (s : State) (chip die kind n : Nat) : Option (Bool × Readable) :=
  let c := chip * 512 + die * 80 + n
  let free := fun (g : Nat → Bool) => !onItsWay s (fun _ => true) g
  match kind with
  | 0 =>
    if n < 80 then
      let ts := teamsOn s c
      some (ts.all (fun t => t.stopped), ofWords (
        counterWords s ([.register, .scratchpad, .accumulator, .l1, .instrBuffer, .bench, .returnSlot].map (fun k => (k, c))) ++
        (ts.map (fun t => (List.range t.nbench).map (fun b => wd (benchNat (spGet Bench.none t.benches b))))).flatten ++
        ((coreOf s c).ktb.map (fun e => [wd e.1, e.2])).flatten))
    else none
  | 1 =>
    if n < 160 then
      let u := chip * 640 + die * 160 + n
      some (!s.asws.any (fun e => e.2.all.any (fun r => decide (homeSlice r.pa = u))) && s.appends.all (fun a => decide (a.home ≠ u)) &&
          !engineHome s u,
        ofWords (counterWords s [(.l2, u), (.residue, u)] ++ (((spGet [] s.slkv u) ++ spGet [] s.sktb chip).map (fun e => [wd e.1, e.2])).flatten))
    else none
  | 2 =>
    if n < 20 then
      let g := chip * 80 + die * 20 + n
      let idle := (List.range 4).all (fun i => (teamsOn s (chip * 512 + (die * 20 + n) * 4 + i)).all (fun t => t.stopped))
      some (idle, ofWords (counterWords s [(.vault, g), (.asw, g)] ++ ((aswOf s g).queue.map requestWords).flatten))
    else none
  | 3 =>
    if n < 24 then
      let u := (chip * 4 + die) * 24 + n
      some (free (fun pa => decide (regionOf s pa = .lpddr ∧ lpddrChannel pa = u)), ofWords (counterWords s [(.lpddr, u)]))
    else none
  | 4 =>
    if n < 16 ∧ die = 0 then
      some (!onItsWay s (fun r => decide (coreChip r.core = chip)) (fun pa => decide (paChip pa ≠ chip ∧ lineLink s chip pa = some n)),
        ofWords (counterWords s [(.link, chip * 16 + n)]))
    else none
  | 5 =>
    if n < 4 ∧ die = 0 then
      some (free (fun pa => decide (paChip pa = chip ∧ regionOf s pa = .cxl n)), ofWords [])
    else none
  | _ => none

/-- READLOG: entries of a chip's log from a number on; one that is gone reads as zero. -/
def readLog (s : State) (chip first n : Nat) : List Word :=
  ((List.range n).map (fun i =>
    match (spGet [] s.errlog chip).find? (fun e => decide (e.seq % 2 ^ 32 = (first + i) % 2 ^ 32)) with
    | some e => [wd (e.seq % 2 ^ 32 * 2 ^ 32 + e.kind * 2 ^ 16 + e.unit % 2 ^ 16), wd e.addr, wd e.cyc, wd e.part]
    | none => [0, 0, 0, 0])).flatten

/-- A command of R385, for the PF (by none) or a partition's service core. -/
def dbgCommand (s : State) (chip : Nat) (by_ : Option Nat) (code : Nat) (a0 a1 a2 a3 : Word) : State × DbgRes :=
  let own := fun (p : Nat) =>
    match by_ with
    | none => true
    | some q => decide (p = q)
  let p := chip * 16 + (match by_ with
    | some q => q % 16
    | none => 0)
  if a3 ≠ 0 then (s, .bad)
  else match code with
    | 1 => (s, readCtx s chip a0 a1 a2 (fun t => own t.part))
    | 2 =>
      let mine := fun (a : Nat) =>
        match by_ with
        | none => true
        | some q => decide (paChip a = q / 16) && owns s q a
      let r := readMem s p a0 a1 a2
      if r = .bad then (s, r)
      else (s, if (List.range (a2.toNat / 8)).all (fun i => mine (a0.toNat + 8 * i)) then r else .refused)
    | 3 =>
      if 16 ≤ a0.toNat ∨ a1 ≠ 0 ∨ a2 ≠ 0 then (s, .bad)
      else if !own (chip * 16 + a0.toNat) then (s, .refused)
      else ((coresOf s (chip * 16 + a0.toNat)).foldl (fun s c => release s c .package) s, .done [] [])
    | 4 =>
      let q := chip * 16 + fld a0 8 8
      if fld a0 16 48 ≠ 0 ∨ 16 ≤ fld a0 8 8 ∨ !lenOk a2 then (s, .bad)
      else match tableOf s (fld a0 0 8) q with
        | none => (s, .bad)
        | some r => (s, if !own q || (decide (fld a0 0 8 = 0) && by_.isSome) then .refused else piece r a1.toNat a2.toNat)
    | 5 =>
      let q := chip * 131072 + a0.toNat
      if 131072 ≤ a0.toNat ∨ !lenOk a2 then (s, .bad)
      else if by_.isSome && decide (queuePart s q ≠ by_) then (s, .refused)
      else (s, piece (queueState s q) a1.toNat a2.toNat)
    | 6 =>
      if fld a0 16 48 ≠ 0 ∨ !lenOk a2 then (s, .bad)
      else match unitState s chip (fld a0 14 2) (fld a0 8 6) (fld a0 0 8) with
        | none => (s, .bad)
        | some (idle, r) =>
          let mine :=
            match by_ with
            | none => true
            | some q =>
              (decide (fld a0 8 6 = 0) && (coresOf s q).contains (chip * 512 + fld a0 14 2 * 80 + fld a0 0 8)) ||
              (decide (fld a0 8 6 = 2) && hasCluster (partOf s q) (fld a0 14 2 * 20 + fld a0 0 8))
          (s, if !mine then .refused else if !idle then .busy else piece r a1.toNat a2.toNat)
    | 7 =>
      if 2 ^ 32 ≤ a0.toNat ∨ a1 ≠ 0 ∨ 1024 < a2.toNat then (s, .bad)
      else
        let mine := fun (e : LogEnt) =>
          match by_ with
          | none => true
          | some q => decide (e.part = q % 16)
        let named := fun (e : LogEnt) => decide ((e.seq + 2 ^ 32 - a0.toNat) % 2 ^ 32 < a2.toNat)
        let r := ofWords (readLog s chip a0.toNat a2.toNat)
        (s, if (spGet [] s.errlog chip).any (fun e => named e && !mine e) then .refused else piece r 0 r.size)
    | _ => (s, .bad)

/-! ## The debug window (R384) -/

/-- A command's results in the window. -/
def dbgResult (d : Dbg) : DbgRes → Dbg
  | .done data tags => { d with sts := 0, len := data.length, data := data, tags := tags }
  | .busy => { d with sts := 2, len := 0 }
  | .refused => { d with sts := 3, len := 0 }
  | .bad => { d with sts := 4, len := 0 }

/-- A write of DBGCMD: the command runs with the arguments in the window; it is ignored while one runs. DESIGN CHOICE (log entry 138): it
completes within the write, so that DBGSTS never reads 1. -/
def dbgRun (s : State) (code : Nat) : State :=
  if s.dbg.sts = 1 then s
  else
    let d := s.dbg
    let r := dbgCommand s 0 none code d.arg0 d.arg1 d.arg2 d.arg3
    { r.1 with dbg := dbgResult d r.2 }

/-- READCTX (R385). -/
def execReadctx (s : State) : Host.Outcome State Fault Refusal := .next (dbgRun s 1)
/-- READMEM (R385). -/
def execReadmem (s : State) : Host.Outcome State Fault Refusal := .next (dbgRun s 2)
/-- FLUSHP (R385). -/
def execFlushp (s : State) : Host.Outcome State Fault Refusal := .next (dbgRun s 3)
/-- READTAB (R385). -/
def execReadtab (s : State) : Host.Outcome State Fault Refusal := .next (dbgRun s 4)
/-- READQ (R385). -/
def execReadq (s : State) : Host.Outcome State Fault Refusal := .next (dbgRun s 5)
/-- READUNIT (R385). -/
def execReadunit (s : State) : Host.Outcome State Fault Refusal := .next (dbgRun s 6)
/-- READLOG (R385). -/
def execReadlog (s : State) : Host.Outcome State Fault Refusal := .next (dbgRun s 7)

/-- MAILBOX_REQUEST: a command for a tenant's service core, on state of its own partition; discarded before READY (R380, R386). -/
def execMailboxRequest (part code : Nat) (arg0 arg1 arg2 : Word) (s : State) : Host.Outcome State Fault Refusal :=
  .next (if !s.boot.ready then s
    else
      let r := dbgCommand s (part / 16) (some part) code arg0 arg1 arg2 0
      let a := match r.2 with
        | .done data tags => (part, 0, data, tags)
        | .busy => (part, 2, [], [])
        | .refused => (part, 3, [], [])
        | .bad => (part, 4, [], [])
      { r.1 with mbox := r.1.mbox ++ [a] })

/-- A register of the PF's BAR0 (R380, R384). -/
def dbgRead (s : State) (off : Nat) : Word :=
  match off with
  | 0 => wd (s.boot.errcode.toNat * 2 ^ 24 + s.boot.stage.toNat * 2 ^ 16 + if s.boot.ready then 1 else 0)
  | 0x108 => wd (s.dbg.len * 2 ^ 32 + s.dbg.sts)
  | 0x110 => s.dbg.arg0
  | 0x118 => s.dbg.arg1
  | 0x120 => s.dbg.arg2
  | 0x128 => s.dbg.arg3
  | _ => 0

/-- A write of a register of the debug window. -/
def dbgWrite (s : State) (off : Nat) (v : Word) : State :=
  match off with
  | 0x100 => dbgRun s (fld v 0 8)
  | 0x110 => { s with dbg := { s.dbg with arg0 := v } }
  | 0x118 => { s with dbg := { s.dbg with arg1 := v } }
  | 0x120 => { s with dbg := { s.dbg with arg2 := v } }
  | 0x128 => { s with dbg := { s.dbg with arg3 := v } }
  | _ => s

/-! ## Registers without a row of their own -/

/-- The link numbers of a route word: up to four bytes, each 0x80 + link (R367). -/
def routeLinks (v : Word) : List Nat :=
  ((List.range 4).map (fun i => fld v (8 * i) 8)).filterMap (fun b => if 0x80 ≤ b ∧ b < 0x90 then some (b - 0x80) else none)

/-- REGISTER_WRITE: a register without a row of its own takes the value under its access type; the root monitor's tables:
fabric access entries (V in bit 63, PPART), CXL decoders (base and size in 2 MiB units, port set of 1, 2 or 4), routes, a service core's
own mappings (R341), and the version of an image that it installs (R381); collector is the runtime starting a collector warp (R146). -/
def execRegisterWrite (chip : Nat) (r : DevReg) (v : Word) (s : State) : Host.Outcome State Fault Refusal :=
  .next (match r with
    | .queue q off => if accepts s chip then queueWrite s (chip * 131072 + q % 131072) (off % 64) v else s
    | .control part off => controlWrite s (chip * 16 + part % 16) off v
    | .service part off => ownWrite s (chip * 16 + part % 16) off v
    | .collector core prio => startCollector s (chip * 512 + core % 320) prio v
    | .stream vf win off => if s.boot.ready && decide (win < 64) then winWrite s vf win off v else s
    | .debug off => dbgWrite s off v
    | .fat c part peer =>
      updPart s (c * 16 + part % 16) (fun x =>
        { x with fat := spSet 0 x.fat (peer % 64) (wd ((if bitAt v 63 then 16 else 0) + fld v 0 4)) })
    | .decoder c n =>
      let ways := (portsOf (fld v 50 4)).length
      if n < 8 ∧ (ways = 1 ∨ ways = 2 ∨ ways = 4) then
        { s with decoders := spSet (0, 0, 0) s.decoders (c * 8 + n) (fld v 0 25 * 2 ^ 21, fld v 25 25 * 2 ^ 21, fld v 50 4) }
      else s
    | .route c dest => { s with routes := spSet [] s.routes (c * 64 + dest % 64) (routeLinks v) }
    | .install image => installImage s image v.toNat)

/-! ## Inbound requests (R358, R360) -/

/-- One byte of a PF's BAR; its BAR0 holds BOOTSTAT, the debug window and the result buffer. -/
def pfByte (s : State) (bar off : Nat) : Byte :=
  match bar with
  | 0 =>
    if off < 0x1_0000 then byteAt (dbgRead s (off / 8 * 8)) (off % 8)
    else if off < 0x2_0000 then (s.dbg.data[off - 0x1_0000]?).getD 0
    else if off < 0x2_2000 then (s.dbg.tags[off - 0x2_0000]?).getD 0
    else 0
  | _ => if inMsix none off then spGet 0 s.msixTab off else 0

/-- Whether an offset of a PF's BAR is mapped; until READY only BAR0 is. -/
def pfMapped (s : State) (bar off : Nat) : Bool :=
  (decide (bar = 0) && decide (off < 2 ^ 26)) || (decide (bar = 2) && decide (off < 2 ^ 16) && s.boot.ready)

/-- INBOUND_PCIE_WRITE (R358, R360). A write that reaches only reserved bytes of DBGCMD is ignored (R7). -/
def execInboundPcieWrite (w : PcieWrite) (s : State) : Host.Outcome State Fault Refusal :=
  .next (match w.vf with
    | some vf => vfPosted s vf w.bar w.offset w.bytes
    | none =>
      if !(List.range w.bytes.length).all (fun i => pfMapped s w.bar (w.offset + i)) then s
      else if w.bar = 0 then
        (regsOf w.offset w.bytes.length).foldl (fun s r =>
          if r = 0x100 ∧ 0x100 < w.offset then s else dbgWrite s r (overlay (dbgRead s r) r w.offset w.bytes)) s
      else ((List.range w.bytes.length).zip w.bytes).foldl (fun s e =>
        if inMsix none (w.offset + e.1) then { s with msixTab := spSet 0 s.msixTab (w.offset + e.1) e.2 } else s) s)

/-- INBOUND_PCIE_READ (R358, R360). -/
def execInboundPcieRead (vf : Option Nat) (bar offset size : Nat) (s : State) : Host.Outcome State Fault Refusal :=
  .next (match vf with
    | some vf => vfRead s vf bar offset size
    | none =>
      if (List.range size).all (fun i => pfMapped s bar (offset + i)) then
        answer s (.data ((List.range size).map (fun i => pfByte s bar (offset + i))))
      else answer s .unsupported)

end Sys2Proof.Machine
end

