-- ==== Sys2Proof/Machine/Matrix.lean ====
section
/-! DEFINITION. The accumulator store and the matrix array (R205-R210, R240-R245, R266-R268). -/

namespace Sys2Proof.Machine

open Sys2Proof

/-! ## Accumulator tiles (R205, R206) -/

def selvOf (t : Team) (a : Nat) : Selvage := spGet Selvage.none t.selv a
def setSelv (t : Team) (a : Nat) (v : Selvage) : Team := { t with selv := spSet Selvage.none t.selv a v }

/-- Element (r, c) of a tile, as its bits and as its value: F64 in a wide tile, else F32. -/
def accBits (t : Team) (a r c : Nat) : Word := spGet 0 t.acc (a * 4096 + 64 * r + c)
def accFmt (wide : Bool) : FFmt := if wide then fF64 else fF32
def accVal (t : Team) (a r c : Nat) : Num := (accFmt (selvOf t a).w).dec (accBits t a r c).toNat
def accSet (t : Team) (a r c : Nat) (w : Word) : Team := { t with acc := spSet 0 t.acc (a * 4096 + 64 * r + c) w }

/-- Every element of a tile. -/
def accAll (t : Team) (a : Nat) : List Num := (List.range 4096).map (fun i => accVal t a (i / 64) (i % 64))

/-- Clear a tile's elements. -/
def accClear (t : Team) (a : Nat) : Team := { t with acc := t.acc.filter (fun e => decide (e.1 / 4096 ≠ a)) }

/-- Zero a tile with its bound, peak and X; tau stays (R207). -/
def accZero (t : Team) (a : Nat) (wide : Bool) : Team :=
  let t := accClear t a
  setSelv t a { selvOf t a with w := wide, x := false, peak := 0, bound := 0 }

/-- Whether a tile will be wide once the steps already queued have run: what an instruction issued now finds (R205, R243). -/
def issueWide (s : State) (core team a : Nat) : Bool :=
  (coreOf s core).matq.foldl (fun b o =>
    if o.team = team ∧ o.acc = a then
      (match o.kind with
       | .accw => true
       | .accz => false
       | _ => b)
    else b) (selvOf (teamOf s team) a).w

/-- ILL for a tile beyond the grant, or the odd tile of a wide pair (R205). -/
def accIll (s : State) (core team a : Nat) : Bool :=
  decide ((teamOf s team).nacc ≤ a) || (decide (a % 2 = 1) && issueWide s core team (a - 1))

/-- Whether steps that write a tile are still queued. -/
def accPending (s : State) (core team a : Nat) : Bool :=
  (coreOf s core).matq.any (fun o => decide (o.team = team) &&
    (decide (o.acc = a) ||
      (match o.kind with
       | .mmap _ b => decide (o.acc + 1 = a ∧ 64 < (handleOf b).cols)
       | .accz | .accw => decide (o.acc + 1 = a)
       | _ => false)))

/-- Whether a queued step clears the X of a tile when it runs (R207). -/
def clearsX (o : MatOp) (a : Nat) : Bool :=
  match o.kind with
  | .accw => decide (o.acc = a ∨ o.acc + 1 = a)
  | .accz | .bndset _ => decide (o.acc = a)
  | _ => false

/-- Whether X stands for an instruction issued now: the steps already queued take effect before it does (R209, R243, R348). DEDUCED (log
entry 115). -/
def issueX (s : State) (core team a : Nat) : Bool :=
  (selvOf (teamOf s team) a).x && !(coreOf s core).matq.any (fun o => decide (o.team = team) && clearsX o a)

/-- BOUND while X is set: EADDR holds the tile's number (R208). -/
def boundFaults (ix : Ix) (s : State) (core team : Nat) (as : List Nat) : List LFault :=
  match as.find? (issueX s core team) with
  | some a => [⟨ix.low, .bound, 0, natVal a⟩]
  | none => []

/-- The tiles of a list with an uncorrectable error (R219). -/
def accErrors (t : Team) (as : List Nat) : List Nat := as.filter (fun a => spGet false t.accBad a)

/-- The causes that a list of checks finds: the first check that finds any. -/
def firstFaults (l : List (List LFault)) : List LFault := (l.find? (fun x => decide (x ≠ []))).getD []

/-- What every accumulator instruction shares: ILL for the tiles it names, MCHK of a tile in error, then its own checks in
order, then its effect. -/
def accOp (ix : Ix) (s : State) (as : List Nat) (ill : List LFault) (checks : List (List LFault)) (f : Res) : Res :=
  let x := warpOf s ix.w
  let t := teamOf s x.team
  let ills := (as.filter (accIll s x.core x.team)).map (fun _ => faultAt ix ix.low .ill)
  let bad := accErrors t as
  if ills = [] ∧ bad ≠ [] then .recorded (faultAt ix ix.low .mchk) [] bad
  else
    let fs := firstFaults ((ills ++ ill) :: checks)
    if fs ≠ [] then .trap fs 0 [] else f

/-- Enter the array's queue of 8 (R209). -/
def matEnter (s : State) (ix : Ix) (a : Nat) (k : MatKind) : Res :=
  let x := warpOf s ix.w
  if 8 ≤ (coreOf s x.core).matq.length then .wait .engine s
  else .ok (updCore s x.core (fun c => { c with matq := c.matq ++ [⟨x.team, a, k⟩] }))

/-! ## Operand limits (R240, R242, R243, R244) -/

/-- Formats of MMA operands. -/
def mmaFmt (f : TFmt) : Bool := decide (f = .i8 ∨ f = .i4 ∨ f = .tap8 ∨ f = .tap6 ∨ f = .bf16 ∨ f = .f16 ∨ f = .f32 ∨ f = .f64)

def mmaA (h : Handle) : Bool := mmaFmt h.f && decide (h.rows ≤ 64 ∧ h.cols % 16 = 0)
def mmaB (n : Nat) (h : Handle) : Bool := mmaFmt h.f && decide (h.sparse = 0 ∧ h.cols ≤ n)

/-- The MMA operands' causes: their own, and ILL where the K of two handles differs, wherever their footprints lie (R156, R240). -/
def mmaArgs (ix : Ix) (va vb : Val) (a b : Hnd) : List LFault :=
  a.faults ++ b.faults ++
    (if va.tag = .tile ∧ vb.tag = .tile ∧ (handleOf va.pay).cols ≠ (handleOf vb.pay).rows then [faultAt ix ix.low .ill] else [])

/-- SPARSE: a mask of A with another count of bits (R89). -/
def sparseFaults (ix : Ix) (t : Team) (h : Handle) : List LFault :=
  if h.sparse ≠ 0 ∧ (List.range h.rows).any (fun r => (List.range (h.cols / 16)).any (fun g =>
      decide (popN (occMask t h r g) 16 ≠ h.perGroup))) then [faultAt ix ix.low .sparse]
  else []

/-- Whether a scale code 255 lies among those of n rows (or columns) of depth k. -/
def scaleNae (t : Team) (h : Handle) (n k : Nat) : Bool :=
  h.hasScale && (List.range (n * ceilDiv k 32)).any (fun i => decide (scrRead t .lin (h.soff * 64 + i) 1 = 255))

/-- SCALE: a code 255 among the scales of A and B (R87). -/
def scaleFaults (ix : Ix) (t : Team) (a b : Option Handle) : List LFault :=
  let bad := (match a with
      | some h => scaleNae t h h.rows h.cols
      | none => false) ||
    (match b with
     | some h => scaleNae t h h.cols h.rows
     | none => false)
  if bad then [faultAt ix ix.low .scale] else []

/-! ## MMA, MMAB, MMAP at issue (R240, R242, R266) -/

/-- MMA and MMAP: the operands' limits, OWNER, BOUND, SPARSE, SCALE in that order, then the queue. -/
def mmaOp (ix : Ix) (s : State) (as : List Nat) (n : Nat) (ill : List LFault) (a b : Val) (k : MatKind) : Res :=
  let x := warpOf s ix.w
  let t := teamOf s x.team
  let ha := handleArg ix t a mmaA
  let hb := handleArg ix t b (mmaB n)
  accOp ix s as (ill ++ mmaArgs ix a b ha hb)
    [ownerFaults ix t (ha.tile.granules ++ hb.tile.granules) true, boundFaults ix s x.core x.team as, sparseFaults ix t ha.tile,
     scaleFaults ix t (some ha.tile) (some hb.tile)]
    (matEnter s ix (as.headD 0) k)

/-- MMA (R240). -/
def execMma (h : Hdr) (acc : BitVec 5) (a b : Reg) (s : State) : Host.Outcome State Fault Refusal :=
  issued (.mma h acc a b) h s fun ix s =>
    let x := warpOf s ix.w
    let av := readReg x a ix.low
    let bv := readReg x b ix.low
    mmaOp ix s [acc.toNat] 64 [] av bv (.mma av.pay bv.pay)

/-- MMAP (R266): the leader's position, and both tiles narrow. -/
def execMmap (h : Hdr) (acc : BitVec 5) (a b : Reg) (s : State) : Host.Outcome State Fault Refusal :=
  issued (.mmap h acc a b) h s fun ix s =>
    let x := warpOf s ix.w
    let av := readReg x a ix.low
    let bv := readReg x b ix.low
    let n := acc.toNat
    let ill := if coreNum x.core % 2 = 1 ∨ isService x.core ∨ (teamOf s x.team).nacc ≤ n + 1 ∨
        issueWide s x.core x.team n then [faultAt ix ix.low .ill] else []
    let as := if 64 < (handleOf bv.pay).cols then [n, n + 1] else [n]
    mmaOp ix s as 128 ill av bv (.mmap av.pay bv.pay)

/-- B of an MMAB (R242). -/
def mmabB (h : Handle) : Bool :=
  decide (h.f = .bf16 ∨ h.f = .f16 ∨ h.f = .f32 ∨ h.f = .tap8 ∨ h.f = .tap6 ∨ h.f = .i8) &&
    decide (h.sparse = 0 ∧ h.cols ≤ 64 ∧ h.rows ≤ 64 ∧ h.rows % 16 = 0)

/-- MMAB (R242): it waits for the steps on its source, then raises BOUND or enters the queue. DESIGN CHOICE (log entry 135): with X set in
both tiles EADDR holds the lower number. -/
def execMmab (h : Hdr) (acc src : BitVec 5) (b : Reg) (s : State) : Host.Outcome State Fault Refusal :=
  issued (.mmab h acc src b) h s fun ix s =>
    let x := warpOf s ix.w
    let t := teamOf s x.team
    let bv := readReg x b ix.low
    let hb := handleArg ix t bv mmabB
    let ill := if issueWide s x.core x.team src.toNat then [faultAt ix ix.low .ill] else []
    accOp ix s [acc.toNat, src.toNat] (ill ++ hb.faults) [ownerFaults ix t hb.tile.granules true]
      (if accPending s x.core x.team src.toNat then .wait (.acc src.toNat) s
       else
         let fs := firstFaults [boundFaults ix s x.core x.team [min acc.toNat src.toNat, max acc.toNat src.toNat],
           scaleFaults ix t none (some hb.tile)]
         if fs ≠ [] then .trap fs 0 [] else matEnter s ix acc.toNat (.mmab src.toNat bv.pay))

/-! ## ACCZ, ACCW, ACCLD, BNDSET at issue (R243, R245) -/

/-- ACCZ (R243). -/
def execAccz (h : Hdr) (acc : BitVec 5) (s : State) : Host.Outcome State Fault Refusal :=
  issued (.accz h acc) h s fun ix s => accOp ix s [acc.toNat] [] [] (matEnter s ix acc.toNat .accz)

/-- ACCW (R243): both tiles of the pair are granted. -/
def execAccw (h : Hdr) (acc : BitVec 5) (s : State) : Host.Outcome State Fault Refusal :=
  issued (.accw h acc) h s fun ix s =>
    let t := teamOf s (warpOf s ix.w).team
    accOp ix s [acc.toNat] (if t.nacc ≤ acc.toNat + 1 then [faultAt ix ix.low .ill] else []) [] (matEnter s ix acc.toNat .accw)

/-- A of an ACCLD (R243): a dense tile without scales that the accumulator holds exactly. -/
def accldA (wide : Bool) (h : Handle) : Bool :=
  (decide (h.f = .i8 ∨ h.f = .i4 ∨ h.f = .i16 ∨ h.f = .tap8 ∨ h.f = .tap6 ∨ h.f = .bf16 ∨ h.f = .f16 ∨ h.f = .f32) ||
    (wide && decide (h.f = .i32 ∨ h.f = .f64))) && !h.hasScale && decide (h.rows ≤ 64 ∧ h.cols ≤ 64 ∧ h.sparse = 0)

/-- ACCLD (R243). -/
def execAccld (h : Hdr) (acc : BitVec 5) (a : Reg) (s : State) : Host.Outcome State Fault Refusal :=
  issued (.accld h acc a) h s fun ix s =>
    let x := warpOf s ix.w
    let t := teamOf s x.team
    let av := readReg x a ix.low
    let ha := handleArg ix t av (accldA (issueWide s x.core x.team acc.toNat))
    accOp ix s [acc.toNat] ha.faults [ownerFaults ix t ha.tile.granules true, boundFaults ix s x.core x.team [acc.toNat]]
      (matEnter s ix acc.toNat (.accld av.pay))

/-- The threshold that a BNDSET value gives: RU to F32; negative values and NaN store 0 (R245). -/
def tauOf (v : Val) : Option (BitVec 32) :=
  match v.tag with
  | .int | .f32 | .f64 =>
    (match valNum v with
     | some (.fin false m e) => some (BitVec.ofNat 32 (fF32.enc .ru (.fin false m e)))
     | some (.inf false) => some (BitVec.ofNat 32 fF32.infBits)
     | _ => some 0)
  | _ => none

/-- BNDSET (R245). -/
def execBndset (h : Hdr) (acc : BitVec 5) (a : Reg) (s : State) : Host.Outcome State Fault Refusal :=
  issued (.bndset h acc a) h s fun ix s =>
    let v := readReg (warpOf s ix.w) a ix.low
    let fs := if v.tag = .poison then [⟨ix.low, .poison, fld v.pay 0 16, ptrVal ix.pc⟩]
      else if (tauOf v).isNone then [faultAt ix ix.low .prot] else []
    accOp ix s [acc.toNat] fs [] (matEnter s ix acc.toNat (.bndset ((tauOf v).getD 0)))

/-! ## ACCRD and BNDGET (R244, R245) -/

/-- A of an ACCRD (R244). -/
def accrdA (h : Handle) : Bool := decide (h.f ≠ .se8 ∧ h.rows ≤ 64 ∧ h.cols ≤ 64 ∧ h.sparse = 0)

/-- What one row of a tile becomes in a format: scales along the row where the tile has them (R88), and the values written. -/
def rowOut (h : Handle) (xs : List Num) : List Block :=
  if h.hasScale then (blocks32 xs).map (quantBlock h.f)
  else
    let codes := xs.map (tfmtEnc h.f .rn)
    [⟨127, codes, codes.map (tfmtDec h.f)⟩]

/-- ACCRD's write (R244). -/
def accOut (t : Team) (h : Handle) (a : Nat) : Team :=
  let rows := (List.range h.rows).map (fun r => (r, (List.range h.cols).map (fun c => accVal t a r c)))
  let outs := rows.map (fun p => (p.1, p.2, rowOut h p.2))
  let vals := (outs.map (fun p => (p.2.2.map (fun b => b.vals)).flatten)).flatten
  let err := maxErr ((rows.map (fun p => p.2)).flatten) vals
  let f := hdrFields (maxMag vals) err (fF32.dec (selvOf t a).bound.toNat)
  let t' := outs.foldl (fun t p =>
    let codes := (p.2.2.map (fun b => b.codes)).flatten
    let t := (codes.zip (List.range h.cols)).foldl (fun t e => eltWrite t h p.1 e.2 e.1) t
    if h.hasScale then
      (p.2.2.zip (List.range p.2.2.length)).foldl (fun t e => scrWrite t .lin (scaleAt h h.cols p.1 (32 * e.2)) 1 e.1.e) t
    else t) t
  hdrWrite t' h f.1 f.2

/-- ACCRD (R244): it waits for every earlier step on its tile; its write completes at once and flips the footprint. -/
def execAccrd (h : Hdr) (acc : BitVec 5) (a : Reg) (s : State) : Host.Outcome State Fault Refusal :=
  issued (.accrd h acc a) h s fun ix s =>
    let x := warpOf s ix.w
    let t := teamOf s x.team
    let ha := handleArg ix t (readReg x a ix.low) accrdA
    accOp ix s [acc.toNat] ha.faults [ownerFaults ix t ha.tile.granules true]
      (if accPending s x.core x.team acc.toNat then .wait (.acc acc.toNat) s
       else
         let fs := boundFaults ix s x.core x.team [acc.toNat]
         if fs ≠ [] then .trap fs 0 []
         else .ok (flipThread (updTeam s x.team (fun t => accOut t ha.tile acc.toNat)) x.team ha.tile.granules))

/-- The halves of a selvage entry (R206). -/
def selvLow (v : Selvage) : Word := wd (v.bound.toNat + v.peak.toNat * 2 ^ 32)
def selvHigh (v : Selvage) : Word := wd (v.tau.toNat + (if v.x then 2 ^ 32 else 0) + (if v.w then 2 ^ 33 else 0))

/-- BNDGET (R245). -/
def execBndget (h : Hdr) (d : Reg) (acc : BitVec 5) (s : State) : Host.Outcome State Fault Refusal :=
  issued (.bndget h d acc) h s fun ix s =>
    let x := warpOf s ix.w
    accOp ix s [acc.toNat] [] []
      (if accPending s x.core x.team acc.toNat then .wait (.acc acc.toNat) s
       else
         let v := selvOf (teamOf s x.team) acc.toNat
         laneOp ix s (.reg d) [] fun l =>
           .val ⟨.int, if isLane d && decide (l % 2 = 1) then selvHigh v else selvLow v⟩)

/-! ## The array's steps (R241, R207, R208) -/

/-- An A operand in rows, with its largest magnitude and error bound. -/
structure ArrA where
  rows : List (List (Nat × Num))
  p : Num
  e : Num
deriving DecidableEq, Repr

/-- An A tile as the array reads it. -/
def arrTile (t : Team) (h : Handle) : ArrA :=
  let rows := (List.range h.rows).map (rowA t h)
  ⟨rows, maxMag ((rows.map (fun r => r.map (fun e => e.2))).flatten), hdrMag (hdrBound t h)⟩

/-- An accumulator tile as MMAB's A operand: K columns converted to B's format (R242). -/
def arrAcc (t : Team) (src k : Nat) (b : Handle) : ArrA :=
  let xs := (List.range 64).map (fun r => (List.range k).map (fun c => accVal t src r c))
  let ys := xs.map (fun r => ((rowOut b r).map (fun q => q.vals)).flatten)
  let v := selvOf t src
  ⟨ys.map (fun r => (List.range k).zip r), fF32.dec v.peak.toNat,
   sumNum [fF32.dec v.bound.toNat, maxErr xs.flatten ys.flatten]⟩

/-- Set p and b after an event (R207), and X where the threshold is exceeded (R208). -/
def judge (t : Team) (d : Nat) (p b : BitVec 32) : Team :=
  let v := selvOf t d
  let above := decide (v.tau ≠ 0) &&
    decide (cmpNum (fF32.dec b.toNat) (mulNum (fF32.dec v.tau.toNat) (fF32.dec p.toNat)) = some .gt)
  setSelv t d { v with peak := p, bound := b, x := v.x || above }

/-- A step on tile d: A times columns c0 .. c0 + n - 1 of B into columns 0 .. n - 1 (R241). DESIGN CHOICE (log entry 113): a product of
0 and an infinity is NaN. -/
def matStep (t : Team) (d : Nat) (a : ArrA) (b : Handle) (c0 n : Nat) : Team :=
  let wide := (selvOf t d).w
  let f := accFmt wide
  let cols := (List.range n).map (fun c => (List.range b.rows).map (fun k => eltB t b k (c0 + c)))
  let cell := fun (r c : Nat) (row : List (Nat × Num)) =>
    let col := (cols[c]?).getD []
    sumNum (f.dec (accBits t d r c).toNat :: row.map (fun e => mulNum e.2 ((col[e.1]?).getD (.fin false 0 0))))
  let t' := (a.rows.zip (List.range a.rows.length)).foldl (fun y e =>
    (List.range n).foldl (fun y c => accSet y d e.2 c (wd (f.enc .rn (cell e.2 c e.1)))) y) t
  let all := accAll t' d
  if all.any (fun x => !x.isFin) then
    let v := selvOf t' d
    let inf := BitVec.ofNat 32 fF32.infBits
    setSelv t' d { v with peak := inf, bound := inf, x := v.x || decide (v.tau ≠ 0) }
  else
    let p := f32Up (maxMag all)
    let u : Num := .fin false 1 (if wide then -53 else -24)
    let pB := maxMag cols.flatten
    let eB := hdrMag (hdrBound t b)
    let k : Num := .fin false b.rows 0
    let bd := f32Up (sumNum [fF32.dec (selvOf t d).bound.toNat, mulNum u (fF32.dec p.toNat), mulNum k (mulNum a.p eB),
      mulNum k (mulNum pB a.e), mulNum k (mulNum a.e eB)])
    judge t' d p bd

/-- ACCLD's work (R207, R243). DESIGN CHOICE (log entry 114): X follows p, so a finite F64 element beyond F32's range sets it. -/
def accLoad (t : Team) (d : Nat) (h : Handle) : Team :=
  let v := selvOf t d
  let f := accFmt v.w
  let xs := (List.range h.rows).map (fun r => (List.range h.cols).map (fun c => tfmtDec h.f (eltRead t h r c)))
  let t' := (xs.zip (List.range h.rows)).foldl (fun t e =>
    (e.1.zip (List.range h.cols)).foldl (fun t g => accSet t d e.2 g.2 (wd (f.enc .rn g.1))) t) (accClear t d)
  let m := maxMag xs.flatten
  let p := f32Up m
  let b := if m.isFin then BitVec.ofNat 32 (fF32.enc .ru (hdrMag (hdrBound t h))) else BitVec.ofNat 32 fF32.infBits
  setSelv t' d { v with peak := p, bound := if p.toNat = fF32.infBits then p else b,
                        x := decide (p.toNat = fF32.infBits) && decide (v.tau ≠ 0) }

/-- What an entry of the queue does to its team. -/
def matApply (t : Team) (o : MatOp) : Team :=
  match o.kind with
  | .mma a b => matStep t o.acc (arrTile t (handleOf a)) (handleOf b) 0 (handleOf b).cols
  | .mmab src b => matStep t o.acc (arrAcc t src (handleOf b).rows (handleOf b)) (handleOf b) 0 (handleOf b).cols
  | .mmap a b =>
    let n := (handleOf b).cols
    let x := arrTile t (handleOf a)
    let t' := matStep t o.acc x (handleOf b) 0 (min n 64)
    if 64 < n then matStep t' (o.acc + 1) x (handleOf b) 64 (n - 64) else t'
  | .accz =>
    let w := (selvOf t o.acc).w
    let t := accZero t o.acc false
    if w then accZero t (o.acc + 1) false else t
  | .accw => accZero (accZero t o.acc true) (o.acc + 1) false
  | .accld a => accLoad t o.acc (handleOf a)
  | .bndset tau => setSelv t o.acc { selvOf t o.acc with tau := tau, x := false }

/-- The granules an entry's operands hold. -/
def matGranules (o : MatOp) : List Nat :=
  match o.kind with
  | .mma a b | .mmap a b => (handleOf a).granules ++ (handleOf b).granules
  | .mmab _ b => (handleOf b).granules
  | .accld a => (handleOf a).granules
  | _ => []

/-- What the array reads of an operand tile: its BOUND, its data, the scales of its rows (of its columns for a B operand) and its masks,
as swizzle, offset and bytes. -/
def operandReads (h : Handle) (isB : Bool) : List (Swz × Nat × Nat) :=
  [(.lin, h.hdr, 8), (h.m, h.data, h.dataBytes)] ++
  (if h.hasScale then
    [(Swz.lin, h.soff * 64, if isB then h.cols * ceilDiv h.rows 32 else h.rows * ceilDiv h.cols 32)] else []) ++
  (if h.sparse ≠ 0 then [(Swz.lin, h.moff * 64, h.rows * (h.cols / 16) * 2)] else [])

/-- What a step reads of the scratchpad. -/
def matReads (o : MatOp) : List (Swz × Nat × Nat) :=
  match o.kind with
  | .mma a b | .mmap a b => operandReads (handleOf a) false ++ operandReads (handleOf b) true
  | .mmab _ b => operandReads (handleOf b) true
  | .accld a => operandReads (handleOf a) false
  | _ => []

/-- Uncorrectable scratchpad words that an engine reads are recorded for the next TAKE, on the granule of each (R200, R219). -/
def scratchErrors (s : State) (team : Nat) (rs : List (Swz × Nat × Nat)) : State :=
  let t := teamOf s team
  if t.scrBad = [] then s
  else
    let bad := (rs.map (fun r => ((List.range (r.2.2 / 8 + 1)).filter (fun i =>
      decide (8 * i < r.2.1 % 8 + r.2.2) && scrBadAt t r.1 (r.2.1 / 8 * 8 + 8 * i))).map (fun i => (r.2.1 / 8 * 8 + 8 * i) / 4096))).flatten
    bad.eraseDups.foldl (fun s g => recordFault s team g ⟨.mchk, none⟩) s

/-- Warps that wait for steps on a tile issue again. -/
def wakeAcc (s : State) (team : Nat) : State :=
  { s with warps := spMap Warp.none (fun _ x =>
      match x.wait with
      | .acc _ => if x.team = team then { x with wait := .none } else x
      | _ => x) s.warps }

/-- A step of the queue executes; its operands flip to thread (R209, R210). -/
def matHead (s : State) (core : Nat) (o : MatOp) : State :=
  let s := updCore s core (fun k => { k with matq := k.matq.erase o })
  let s := scratchErrors s o.team (matReads o)
  let s := updTeam s o.team (fun t => matApply t o)
  wakeAcc (wakeEngine (flipThread s o.team (matGranules o)) core) o.team

/-- A paired step: an MMAP of more than 64 columns (R267). -/
def isPaired (o : MatOp) : Bool :=
  match o.kind with
  | .mmap _ b => decide (64 < (handleOf b).cols)
  | _ => false

/-- The step that comes next: the first of the queue whose team is not being stopped (R330). -/
def matNext (s : State) (core : Nat) : Option MatOp := (coreOf s core).matq.find? (fun o => !teamHeld s o.team)

/-- MATRIX_STEP: the step at the head of the array's queue (R209, R241). -/
def execMatrixStep (core : Nat) (s : State) : Host.Outcome State Fault Refusal :=
  .next (match matNext s core with
    | some o => if isPaired o then s else matHead s core o
    | none => s)

/-- PAIRED_STEP: a paired step at the head of the leader's queue runs in both arrays (R267, R268). -/
def execPairedStep (core : Nat) (s : State) : Host.Outcome State Fault Refusal :=
  .next (match matNext s core with
    | some o => if isPaired o then matHead s core o else s
    | none => s)

end Sys2Proof.Machine
end

