-- ==== Sys2Proof/Machine/Moves.lean ====
section
/-! DEFINITION. Moves (R135-R138) and the lane specials (R65-R67, R139, R140). -/

namespace Sys2Proof.Machine

open Sys2Proof

/-- MOV (R135). -/
def execMov (h : Hdr) (o : OpUn) (s : State) : Host.Outcome State Fault Refusal :=
  issued (.mov h o) h s fun ix s => laneOp ix s (.reg o.d) [o.a] fun l => .val (opVal s ix o.a o.sa l)

/-- MOVI (R136). -/
def execMovi (h : Hdr) (d : Reg) (imm : BitVec 31) (s : State) : Host.Outcome State Fault Refusal :=
  issued (.movi h d imm) h s fun ix s => laneOp ix s (.reg d) [] fun _ => .val (intVal imm.toInt)

/-- MOVF (R136): bits [31:1] from the immediate. -/
def execMovf (h : Hdr) (d : Reg) (imm : BitVec 31) (s : State) : Host.Outcome State Fault Refusal :=
  issued (.movf h d imm) h s fun ix s => laneOp ix s (.reg d) [] fun _ => .val ⟨.f32, wd (2 * imm.toNat)⟩

/-- MOVL (R137, R42): a REF needs RT. -/
def execMovl (h : Hdr) (t : Tag) (d : Reg) (lit : Word) (s : State) : Host.Outcome State Fault Refusal :=
  issued (.movl h t d lit) h s fun ix s => laneOp ix s (.reg d) [] fun _ =>
    if decide (t = .ref) && !rtOn (warpOf s ix.w) then .fault .priv 0 else .val ⟨t, lit⟩

/-- SEL (R138). -/
def execSel (h : Hdr) (m : MaskNo) (o : OpBin) (s : State) : Host.Outcome State Fault Refusal :=
  issued (.sel h m o) h s fun ix s =>
    laneOp ix s (.reg o.d) [o.a, o.b] fun l =>
      .val (if maskBit (warpOf s ix.w) m.val l then opVal s ix o.a o.sa l else opVal s ix o.b o.sb l)

/-- The value GETL reads (R65, R67); LPC is the address of the GETL. -/
def getSpecial (pc : Word) (y : Lane) (l : Nat) (x : LSpec) : Val :=
  match x with
  | .laneid => natVal l
  | .lpc => ptrVal pc
  | .elpc => ptrVal y.elpc
  | .lopa => y.lopa
  | .lopb => y.lopb
  | .lopc => y.lopc
  | .ldst => ⟨.int, y.ldst⟩
  | .lrpc => ptrVal y.lrpc
  | .lcdepth => natVal (y.csd * 256 + y.lcd)
  | .estat => ⟨.int, y.estat⟩
  | .stk n => ptrVal (spGet 0 y.stk n.toNat)

/-- GETL (R139). -/
def execGetl (h : Hdr) (x : LSpec) (d : Reg) (s : State) : Host.Outcome State Fault Refusal :=
  issued (.getl h x d) h s fun ix s =>
    laneOp ix s (.reg d) [] fun l => .val (getSpecial ix.pc (laneOf (warpOf s ix.w) l) l x)

/-- Whether SETL may write a value to a special (R65, R140). -/
def setOk (x : Warp) (sp : LSpec) (v : Val) : Bool :=
  match sp with
  | .elpc | .lrpc | .stk _ => decide (v.tag = .int ∨ v.tag = .ptr)
  | .ldst => decide (v.tag = .int) && ldstLegal x v.pay
  | .estat => decide (v.tag = .int)
  | _ => true

/-- The lane after SETL. -/
def setSpecial (y : Lane) (sp : LSpec) (v : Val) : Lane :=
  match sp with
  | .elpc => { y with elpc := v.pay }
  | .lopa => { y with lopa := v }
  | .lopb => { y with lopb := v }
  | .lopc => { y with lopc := v }
  | .ldst => { y with ldst := wd (fld v.pay 0 22) }
  | .lrpc => { y with lrpc := v.pay }
  | .estat => { y with estat := wd (fld v.pay 0 24) }
  | .stk n => { y with stk := spSet 0 y.stk n.toNat v.pay }
  | _ => y

/-- SETL (R140): every executing lane writes its own special, or raises ILL. -/
def execSetl (h : Hdr) (x : LSpec) (a : Reg) (s : State) : Host.Outcome State Fault Refusal :=
  issued (.setl h x a) h s fun ix s =>
    let w := warpOf s ix.w
    let bad := ix.exe.filter (fun l => !setOk w x (readReg w a l))
    if bad ≠ [] then .trap (bad.map (fun l => faultAt ix l .ill)) 0 []
    else .ok (setWarp s ix.w (updLanes w ix.exe (fun l y => setSpecial y x (readReg w a l))))

end Sys2Proof.Machine
end

