-- ==== Sys2Proof/Machine/Dispatch.lean ====
section
/-! DEFINITION. One arm per instruction and per event of the device. -/

namespace Sys2Proof.Machine

open Sys2Proof

def exec (i : Instr) (s : State) : Host.Outcome State Fault Refusal :=
  match i with
  | .add h o => Sys2Proof.Machine.execAdd h o s
  | .sub h o => Sys2Proof.Machine.execSub h o s
  | .mul h o => Sys2Proof.Machine.execMul h o s
  | .div h o => Sys2Proof.Machine.execDiv h o s
  | .rem h o => Sys2Proof.Machine.execRem h o s
  | .fma h o => Sys2Proof.Machine.execFma h o s
  | .neg h o => Sys2Proof.Machine.execNeg h o s
  | .abs h o => Sys2Proof.Machine.execAbs h o s
  | .min h o => Sys2Proof.Machine.execMin h o s
  | .max h o => Sys2Proof.Machine.execMax h o s
  | .clamp h o => Sys2Proof.Machine.execClamp h o s
  | .cmp h cc o => Sys2Proof.Machine.execCmp h cc o s
  | .cmpm h cc m a b sa sb e => Sys2Proof.Machine.execCmpm h cc m a b sa sb e s
  | .cmpi h cc d a imm => Sys2Proof.Machine.execCmpi h cc d a imm s
  | .sqrt h o => Sys2Proof.Machine.execSqrt h o s
  | .rcp h o => Sys2Proof.Machine.execRcp h o s
  | .rsq h o => Sys2Proof.Machine.execRsq h o s
  | .exp2 h o => Sys2Proof.Machine.execExp2 h o s
  | .log2 h o => Sys2Proof.Machine.execLog2 h o s
  | .sin h o => Sys2Proof.Machine.execSin h o s
  | .cos h o => Sys2Proof.Machine.execCos h o s
  | .tanh h o => Sys2Proof.Machine.execTanh h o s
  | .frnd h rm o => Sys2Proof.Machine.execFrnd h rm o s
  | .dot h o => Sys2Proof.Machine.execDot h o s
  | .cvt h tgt rm o => Sys2Proof.Machine.execCvt h tgt rm o s
  | .pack h rm o => Sys2Proof.Machine.execPack h rm o s
  | .unpk h o => Sys2Proof.Machine.execUnpk h o s
  | .scaleq h d a e => Sys2Proof.Machine.execScaleq h d a e s
  | .qnt h rm d a b e => Sys2Proof.Machine.execQnt h rm d a b e s
  | .tagof h d a => Sys2Proof.Machine.execTagof h d a s
  | .tagas h t d a => Sys2Proof.Machine.execTagas h t d a s
  | .tagm h t m a => Sys2Proof.Machine.execTagm h t m a s
  | .and h o => Sys2Proof.Machine.execAnd h o s
  | .or h o => Sys2Proof.Machine.execOr h o s
  | .xor h o => Sys2Proof.Machine.execXor h o s
  | .not h o => Sys2Proof.Machine.execNot h o s
  | .andi h o => Sys2Proof.Machine.execAndi h o s
  | .ori h o => Sys2Proof.Machine.execOri h o s
  | .xori h o => Sys2Proof.Machine.execXori h o s
  | .shl h o => Sys2Proof.Machine.execShl h o s
  | .shr h o => Sys2Proof.Machine.execShr h o s
  | .sar h o => Sys2Proof.Machine.execSar h o s
  | .rol h o => Sys2Proof.Machine.execRol h o s
  | .shli h d a n => Sys2Proof.Machine.execShli h d a n s
  | .shri h d a n => Sys2Proof.Machine.execShri h d a n s
  | .popc h o => Sys2Proof.Machine.execPopc h o s
  | .clz h o => Sys2Proof.Machine.execClz h o s
  | .ctz h o => Sys2Proof.Machine.execCtz h o s
  | .brev h o => Sys2Proof.Machine.execBrev h o s
  | .bfx h o => Sys2Proof.Machine.execBfx h o s
  | .bfi h o => Sys2Proof.Machine.execBfi h o s
  | .mulh h o => Sys2Proof.Machine.execMulh h o s
  | .addw h o => Sys2Proof.Machine.execAddw h o s
  | .subw h o => Sys2Proof.Machine.execSubw h o s
  | .mulw h o => Sys2Proof.Machine.execMulw h o s
  | .lea h n o => Sys2Proof.Machine.execLea h n o s
  | .ptrd h o => Sys2Proof.Machine.execPtrd h o s
  | .mov h o => Sys2Proof.Machine.execMov h o s
  | .movi h d imm => Sys2Proof.Machine.execMovi h d imm s
  | .movf h d imm => Sys2Proof.Machine.execMovf h d imm s
  | .movl h t d lit => Sys2Proof.Machine.execMovl h t d lit s
  | .sel h m o => Sys2Proof.Machine.execSel h m o s
  | .getl h x d => Sys2Proof.Machine.execGetl h x d s
  | .setl h x a => Sys2Proof.Machine.execSetl h x a s
  | .addi h o => Sys2Proof.Machine.execAddi h o s
  | .muli h o => Sys2Proof.Machine.execMuli h o s
  | .bra h o => Sys2Proof.Machine.execBra h o s
  | .call h o => Sys2Proof.Machine.execCall h o s
  | .ret h c => Sys2Proof.Machine.execRet h c s
  | .jmpi h b => Sys2Proof.Machine.execJmpi h b s
  | .exit h c => Sys2Proof.Machine.execExit h c s
  | .lcall h o => Sys2Proof.Machine.execLcall h o s
  | .join h m => Sys2Proof.Machine.execJoin h m s
  | .leave h m => Sys2Proof.Machine.execLeave h m s
  | .mset h k m a => Sys2Proof.Machine.execMset h k m a s
  | .mops h k d a b => Sys2Proof.Machine.execMops h k d a b s
  | .mget h d m => Sys2Proof.Machine.execMget h d m s
  | .elect h m => Sys2Proof.Machine.execElect h m s
  | .shfl h d a b => Sys2Proof.Machine.execShfl h d a b s
  | .shflx h d a k => Sys2Proof.Machine.execShflx h d a k s
  | .bcast h d a b => Sys2Proof.Machine.execBcast h d a b s
  | .vote h k d a => Sys2Proof.Machine.execVote h k d a s
  | .redux h k d a => Sys2Proof.Machine.execRedux h k d a s
  | .scanx h k excl d a => Sys2Proof.Machine.execScanx h k excl d a s
  | .lret h a => Sys2Proof.Machine.execLret h a s
  | .alloc h d a => Sys2Proof.Machine.execAlloc h d a s
  | .gets h x d => Sys2Proof.Machine.execGets h x d s
  | .sets h x a => Sys2Proof.Machine.execSets h x a s
  | .trap h n => Sys2Proof.Machine.execTrap h n s
  | .bkpt h n => Sys2Proof.Machine.execBkpt h n s
  | .tret h => Sys2Proof.Machine.execTret h s
  | .nop h => Sys2Proof.Machine.execNop h s
  | .yield h => Sys2Proof.Machine.execYield h s
  | .sleep h n => Sys2Proof.Machine.execSleep h n s
  | .sleepExpiry w => Sys2Proof.Machine.execSleepExpiry w s
  | .trapEntry w => Sys2Proof.Machine.execTrapEntry w s
  | .runSelect core part => Sys2Proof.Machine.execRunSelect core part s
  | .resultArrival core slot => Sys2Proof.Machine.execResultArrival core slot s
  | .instructionFill core line => Sys2Proof.Machine.execInstructionFill core line s
  | .translationWalkDone w => Sys2Proof.Machine.execTranslationWalkDone w s
  | .ld h o => Sys2Proof.Machine.execLd h o s
  | .st h o => Sys2Proof.Machine.execSt h o s
  | .ldr h o => Sys2Proof.Machine.execLdr h o s
  | .str h o => Sys2Proof.Machine.execStr h o s
  | .lr h o => Sys2Proof.Machine.execLr h o s
  | .sc h o => Sys2Proof.Machine.execSc h o s
  | .fence h ord scope racq => Sys2Proof.Machine.execFence h ord scope racq s
  | .pf h o => Sys2Proof.Machine.execPf h o s
  | .cflush h o => Sys2Proof.Machine.execCflush h o s
  | .cinv h o => Sys2Proof.Machine.execCinv h o s
  | .ldh h d a b off => Sys2Proof.Machine.execLdh h d a b off s
  | .hcas h o ord scope racq => Sys2Proof.Machine.execHcas h o ord scope racq s
  | .lds h o => Sys2Proof.Machine.execLds h o s
  | .sts h o => Sys2Proof.Machine.execSts h o s
  | .satom h op fmt swz o => Sys2Proof.Machine.execSatom h op fmt swz o s
  | .tile h fmt swz sp o => Sys2Proof.Machine.execTile h fmt swz sp o s
  | .cpy h mode out a b c => Sys2Proof.Machine.execCpy h mode out a b c s
  | .copyExecute core => Sys2Proof.Machine.execCopyExecute core s
  | .give h a => Sys2Proof.Machine.execGive h a s
  | .take h a => Sys2Proof.Machine.execTake h a s
  | .ownq h d a => Sys2Proof.Machine.execOwnq h d a s
  | .mma h acc a b => Sys2Proof.Machine.execMma h acc a b s
  | .mmab h acc src b => Sys2Proof.Machine.execMmab h acc src b s
  | .matrixStep core => Sys2Proof.Machine.execMatrixStep core s
  | .accz h acc => Sys2Proof.Machine.execAccz h acc s
  | .accw h acc => Sys2Proof.Machine.execAccw h acc s
  | .accld h acc a => Sys2Proof.Machine.execAccld h acc a s
  | .accrd h acc a => Sys2Proof.Machine.execAccrd h acc a s
  | .bndget h d acc => Sys2Proof.Machine.execBndget h d acc s
  | .bndset h acc a => Sys2Proof.Machine.execBndset h acc a s
  | .bninit h bench pcnt ccnt => Sys2Proof.Machine.execBninit h bench pcnt ccnt s
  | .bna h bench => Sys2Proof.Machine.execBna h bench s
  | .bnw h bench => Sys2Proof.Machine.execBnw h bench s
  | .bnaw h bench => Sys2Proof.Machine.execBnaw h bench s
  | .atom h o => Sys2Proof.Machine.execAtom h o s
  | .vatom h op ef d a b ord scope => Sys2Proof.Machine.execVatom h op ef d a b ord scope s
  | .mmap h acc a b => Sys2Proof.Machine.execMmap h acc a b s
  | .pairedStep core => Sys2Proof.Machine.execPairedStep core s
  | .aswRequest cluster => Sys2Proof.Machine.execAswRequest cluster s
  | .atomicReply core slot => Sys2Proof.Machine.execAtomicReply core slot s
  | .aswStallTimeout cluster => Sys2Proof.Machine.execAswStallTimeout cluster s
  | .aswRestart cluster intact => Sys2Proof.Machine.execAswRestart cluster intact s
  | .kvapp h a b c => Sys2Proof.Machine.execKvapp h a b c s
  | .kvappPerform n => Sys2Proof.Machine.execKvappPerform n s
  | .ksel h sink recent o => Sys2Proof.Machine.execKsel h sink recent o s
  | .pageSelect n => Sys2Proof.Machine.execPageSelect n s
  | .kselComplete n => Sys2Proof.Machine.execKselComplete n s
  | .attn h o => Sys2Proof.Machine.execAttn h o s
  | .attnPartial n block => Sys2Proof.Machine.execAttnPartial n block s
  | .attnMerge n block => Sys2Proof.Machine.execAttnMerge n block s
  | .kvxl h d a b => Sys2Proof.Machine.execKvxl h d a b s
  | .wqry h a => Sys2Proof.Machine.execWqry h a s
  | .wqryReply n => Sys2Proof.Machine.execWqryReply n s
  | .signal h op rel o => Sys2Proof.Machine.execSignal h op rel o s
  | .waits h cc acq o => Sys2Proof.Machine.execWaits h cc acq o s
  | .waitsRecheck w => Sys2Proof.Machine.execWaitsRecheck w s
  | .waitsHostPoll w => Sys2Proof.Machine.execWaitsHostPoll w s
  | .cmpl h a => Sys2Proof.Machine.execCmpl h a s
  | .dlaunch h a b => Sys2Proof.Machine.execDlaunch h a b s
  | .kvret h a => Sys2Proof.Machine.execKvret h a s
  | .svcall h n => Sys2Proof.Machine.execSvcall h n s
  | .svcallReply w x y => Sys2Proof.Machine.execSvcallReply w x y s
  | .ctxsv h a => Sys2Proof.Machine.execCtxsv h a s
  | .ctxld h a => Sys2Proof.Machine.execCtxld h a s
  | .prmt h a => Sys2Proof.Machine.execPrmt h a s
  | .teamStopped team => Sys2Proof.Machine.execTeamStopped team s
  | .icinv h a => Sys2Proof.Machine.execIcinv h a s
  | .kvmap h a b c => Sys2Proof.Machine.execKvmap h a b c s
  | .kvsd h a b => Sys2Proof.Machine.execKvsd h a b s
  | .ktbShootdownRequest chip n => Sys2Proof.Machine.execKtbShootdownRequest chip n s
  | .slotDrained part seq => Sys2Proof.Machine.execSlotDrained part seq s
  | .teamRelease team => Sys2Proof.Machine.execTeamRelease team s
  | .teamPlace grid => Sys2Proof.Machine.execTeamPlace grid s
  | .queueTailWrite q v => Sys2Proof.Machine.execQueueTailWrite q v s
  | .queueCheadWrite q v => Sys2Proof.Machine.execQueueCheadWrite q v s
  | .queueEnableWrite q v => Sys2Proof.Machine.execQueueEnableWrite q v s
  | .takeRecord q => Sys2Proof.Machine.execTakeRecord q s
  | .recordWaitSatisfied q => Sys2Proof.Machine.execRecordWaitSatisfied q s
  | .graphNodeComplete graph node => Sys2Proof.Machine.execGraphNodeComplete graph node s
  | .loopCondition graph node => Sys2Proof.Machine.execLoopCondition graph node s
  | .completionRecordWrite q => Sys2Proof.Machine.execCompletionRecordWrite q s
  | .watchdogReport w => Sys2Proof.Machine.execWatchdogReport w s
  | .partitionRecordWrite chip part word v => Sys2Proof.Machine.execPartitionRecordWrite chip part word v s
  | .partitionReset chip part => Sys2Proof.Machine.execPartitionReset chip part s
  | .ptrootWrite part v => Sys2Proof.Machine.execPtrootWrite part v s
  | .tbgo part => Sys2Proof.Machine.execTbgo part s
  | .regionTableWrite part v => Sys2Proof.Machine.execRegionTableWrite part v s
  | .priResponse part iova ok hpa => Sys2Proof.Machine.execPriResponse part iova ok hpa s
  | .atsInvalidation part iova => Sys2Proof.Machine.execAtsInvalidation part iova s
  | .racqPromote core line scope => Sys2Proof.Machine.execRacqPromote core line scope s
  | .inboundPcieWrite w => Sys2Proof.Machine.execInboundPcieWrite w s
  | .inboundPcieRead vf bar offset size => Sys2Proof.Machine.execInboundPcieRead vf bar offset size s
  | .inboundAtomicop vf offset width op b c => Sys2Proof.Machine.execInboundAtomicop vf offset width op b c s
  | .vfFunctionLevelReset vf => Sys2Proof.Machine.execVfFunctionLevelReset vf s
  | .streamWindowEnable vf win v => Sys2Proof.Machine.execStreamWindowEnable vf win v s
  | .streamFrameWrite vf win slot at_ bytes => Sys2Proof.Machine.execStreamFrameWrite vf win slot at_ bytes s
  | .streamPublish vf win => Sys2Proof.Machine.execStreamPublish vf win s
  | .streamSkip vf win seq => Sys2Proof.Machine.execStreamSkip vf win seq s
  | .fabricRequest src chip part pa t r => Sys2Proof.Machine.execFabricRequest src chip part pa t r s
  | .linkDown chip link => Sys2Proof.Machine.execLinkDown chip link s
  | .networkRetryExhausted core slot => Sys2Proof.Machine.execNetworkRetryExhausted core slot s
  | .remoteHomeLost chip => Sys2Proof.Machine.execRemoteHomeLost chip s
  | .patrolScrub pa uncorrectable => Sys2Proof.Machine.execPatrolScrub pa uncorrectable s
  | .powerOn b => Sys2Proof.Machine.execPowerOn b s
  | .pfFunctionLevelReset b => Sys2Proof.Machine.execPfFunctionLevelReset b s
  | .getVersion => Sys2Proof.Machine.execGetVersion s
  | .getCapabilities => Sys2Proof.Machine.execGetCapabilities s
  | .negotiateAlgorithms offersExt => Sys2Proof.Machine.execNegotiateAlgorithms offersExt s
  | .getDigests => Sys2Proof.Machine.execGetDigests s
  | .getCertificate offset len => Sys2Proof.Machine.execGetCertificate offset len s
  | .challenge nonce => Sys2Proof.Machine.execChallenge nonce s
  | .getMeasurements index signed nonce => Sys2Proof.Machine.execGetMeasurements index signed nonce s
  | .readctx => Sys2Proof.Machine.execReadctx s
  | .readmem => Sys2Proof.Machine.execReadmem s
  | .flushp => Sys2Proof.Machine.execFlushp s
  | .readtab => Sys2Proof.Machine.execReadtab s
  | .readq => Sys2Proof.Machine.execReadq s
  | .readunit => Sys2Proof.Machine.execReadunit s
  | .readlog => Sys2Proof.Machine.execReadlog s
  | .mailboxRequest part code arg0 arg1 arg2 => Sys2Proof.Machine.execMailboxRequest part code arg0 arg1 arg2 s
  | .registerWrite chip r v => Sys2Proof.Machine.execRegisterWrite chip r v s
  | .l1WriteBack core sector => Sys2Proof.Machine.execL1WriteBack core sector s
  | .linkRetrain chip link => Sys2Proof.Machine.execLinkRetrain chip link s
  | .softError k unit addr lane reg correctable => Sys2Proof.Machine.execSoftError k unit addr lane reg correctable s
  | .aswFirmwareHalt cluster => Sys2Proof.Machine.execAswFirmwareHalt cluster s
  | .teamKill team => Sys2Proof.Machine.execTeamKill team s
  | .ktbAcknowledgment chip n => Sys2Proof.Machine.execKtbAcknowledgment chip n s
  | .markRegionTagged pa => Sys2Proof.Machine.execMarkRegionTagged pa s

end Sys2Proof.Machine
end

