-- ==== Sys2Proof/Machine/Sched.lean ====
section
/-! DEFINITION. The machine's own order of turns when its agenda is empty (the model's own: the manual leaves open which
unit acts next), time that passes, and the placing of one instruction for the host's question. -/

namespace Sys2Proof.Machine

open Sys2Proof

/-- The turns that units with work may take: each warp's waits, each core's arrivals and engines, the service warps, the
die's operations, the Dresser's queues, the issue partitions of resident warps, and the boot sequence. -/
def openTurns (s : State) : List Turn :=
  (if s.bootRun = none then [] else [Turn.boot]) ++
  (s.warps.map (fun e =>
    match e.2.wait with
    | .walk _ | .fetchWalk _ => [Turn.ev (.translationWalkDone e.1)]
    | .fill l => [.ev (.instructionFill e.2.core l)]
    | .sleep .. => [.ev (.sleepExpiry e.1)]
    | .word .. => [.ev (.waitsRecheck e.1), .ev (.waitsHostPoll e.1)]
    | _ => if e.2.pendTrap = none then [] else [.ev (.trapEntry e.1)])).flatten ++
  (s.cores.map (fun e =>
    e.2.reqs.filterMap (fun r =>
      match r.2 with
      | some q =>
        if q.outs ≠ [] ∧ q.outs.all (fun o => o.2.isSome) then
          some (Turn.ev (if q.atomic then .atomicReply e.1 r.1 else .resultArrival e.1 r.1))
        else none
      | none => none) ++
    e.2.late.map (fun r => Turn.ev (.resultArrival e.1 r.1)) ++
    (if e.2.copyq = [] then [] else [.ev (.copyExecute e.1)]) ++
    (if e.2.matq = [] then [] else [.ev (.matrixStep e.1), .ev (.pairedStep e.1)]))).flatten ++
  (s.asws.map (fun e => if e.2.queue = [] then [] else [Turn.ev (.aswRequest e.1)])).flatten ++
  (if s.appends = [] then [] else [Turn.ev (.kvappPerform 0)]) ++
  (if s.ksels = [] then [] else [Turn.ev (.pageSelect 0), .ev (.kselComplete 0)]) ++
  (match s.attns with
   | [] => []
   | a :: _ => a.todo.map (fun b => Turn.ev (.attnPartial 0 b.block)) ++ a.partials.map (fun b => .ev (.attnMerge 0 b.1)) ++
       [.ev (.attnMerge 0 0)]) ++
  (if s.wqrys = [] then [] else [Turn.ev (.wqryReply 0)]) ++
  (s.teams.map (fun e => (if e.2.stopping then [Turn.ev (.teamStopped e.1)] else []) ++
    (if e.2.live then [.ev (.teamRelease e.1)] else []))).flatten ++
  (s.queues.map (fun e => (if e.2.en then [Turn.ev (.takeRecord e.1)] else []) ++
    (if e.2.waiting = none then [] else [.ev (.recordWaitSatisfied e.1)]) ++
    (if e.2.held = [] then [] else [.ev (.completionRecordWrite e.1)]))).flatten ++
  (s.grids.map (fun e => if e.2.live then [Turn.ev (.teamPlace e.1)] else [])).flatten ++
  (s.graphs.map (fun e => e.2.running.map (fun n => Turn.ev (.graphNodeComplete e.1 n)) ++
    e.2.running.map (fun n => .ev (.loopCondition e.1 n)) ++
    (if e.2.waiting = [] then [] else [.ev (.recordWaitSatisfied e.2.queue)]))).flatten ++
  (s.warps.map (fun e =>
    if e.2.live && !e.2.reported && decide (fld (spGet 0 (partOf s (warpPart s e.1)).words 5) 0 32 ≠ 0) then
      [Turn.ev (.watchdogReport e.1)]
    else [])).flatten ++
  (if s.graphs.any (fun e => e.2.live) then [Turn.ev (.watchdogReport 0)] else []) ++
  (s.parts.map (fun e => if e.2.tbbusy || e.2.own.tbbusy then [Turn.ev (.tbgo e.1)] else [])).flatten ++
  (s.kvsds.map (fun o => o.owed.map (fun c =>
    if o.asked.contains c then Turn.ev (.ktbAcknowledgment c o.id) else .ev (.ktbShootdownRequest c o.id)))).flatten ++
  (s.wins.map (fun e => if e.2.en then [Turn.ev (.streamPublish (e.1 / 64) (e.1 % 64))] else [])).flatten ++
  ((s.warps.filter (fun e => e.2.live)).map (fun e => e.2.core * 8 + e.2.slot)).eraseDups.map Turn.issue

/-- Whose turn it is with an empty agenda: the open turns in rotation. -/
def ownTurn (s : State) : Turn :=
  let ts := openTurns s
  (ts[s.turn % ts.length]?).getD (.issue 0)

/-- Time passes between turns: every core counts cycles, by an amount the manual leaves open (R389; log entry 4). -/
def passTurn (s : State) : State :=
  { s with turn := s.turn + 1, free := s.free + 1,
           cores := spMap Core.none (fun _ c => { c with cyc := c.cyc + 1 + Config.extraCycles s.free }) s.cores }

/-- The virtual page and the physical page at which placeWord puts the instruction. -/
def placeVa : Nat := 0x1000
def placePa : Nat := 0x10_0000

/-- One warp with one ready lane, resident on core 0 in a team of partition 0, in a run of issue partition 0, with its
code page translated and its instruction line in the buffer; the instruction's bytes are in memory (log entry 2). -/
def placeWord (s : State) (nbits w : Nat) : State :=
  let v := w % 2 ^ nbits
  let w0 := wd v
  let w1 := wd (v / 2 ^ 64)
  let t := s.nextTeam
  let k := s.nextWarp
  let s := rawWrite (rawWrite s (placePa / 8) w0 0xFF none false) (placePa / 8 + 1) w1 0xFF none false
  let s := setTeam s t { Team.none with live := true, teamId := 0, nwarps := 1, warps := [k] }
  let s := setWarp s k
    { Warp.none with live := true, team := t, nregs := 128, trapv := 0x2000,
                     lanes := [(0, { Lane.none with act := .ready, lpc := wd placeVa })] }
  let leaf : Leaf := { pa := placePa, ext := false, rx := false, h := false, t := false, s := false, x := true,
                       w := false, r := true }
  let s := updCore s 0 (fun c =>
    { c with tlb := ⟨0, 0, placeVa / 4096, leaf⟩ :: c.tlb,
             ibuf := ⟨placePa / 256, 0, some w0 :: some w1 :: List.replicate 30 (some 0)⟩ :: c.ibuf,
             runs := spSet Run.none c.runs 0 { active := true, warp := k, count := 0, multi := false, low := true,
                                               next := wd placeVa, fcnt := 0, fptr := 0 } })
  { s with nextTeam := t + 1, nextWarp := k + 1, agenda := [.issue 0] }

end Sys2Proof.Machine
end

