-- ==== Sys2Proof/Machine/Step.lean ====
section
/-! DEFINITION. One step of the machine: the first turn of the agenda acts; with nothing on the agenda the machine's own
order gives the turn (Machine/Sched.lean). -/

namespace Sys2Proof.Machine

open Sys2Proof

/-- A turn: an event happens, an issue partition issues its warp's next instruction, or a stage of the boot sequence ends. -/
def stepTurn (t : Turn) (s : State) : Host.Outcome State Fault Refusal :=
  match t with
  | .ev i => exec i s
  | .issue p =>
    match takeTurn s (p / 8) (p % 8) with
    | .run i s' => exec i s'
    | .done s' => .next s'
  | .boot => .next (bootStep s)

/-- One step. -/
def step (s : State) : Host.Outcome State Fault Refusal :=
  match s.agenda with
  | t :: r => stepTurn t { s with agenda := r }
  | [] => stepTurn (ownTurn s) (passTurn s)

/-- The machine with an instruction where the next step fetches it: the first warp of core 0, in a team of partition 0
with a page that maps the code. -/
def State.withFetchWord (s : State) (nbits w : Nat) : State := placeWord s nbits w

end Sys2Proof.Machine
end

