-- ==== Sys2Proof/Safety.lean ====
section
/-! DEFINITION. What the statements are made of: when an instruction issues and takes effect, the state it then leaves,
what an instruction leaves as it was, how near a result is to a real value, and the invariants. -/

namespace Sys2Proof.Machine

open Sys2Proof

/-- A safe run: n steps from s end in a next state, with no fault and no refusal. -/
def Safe (n : Nat) (s : State) : Prop := ∃ t, Sys2Proof.core.run n s = .next t

/-! ## Issue (R23, R26, R27, R30, R144-R147, R150, R219) -/

/-- What executes when the warp s.cur issues an instruction: its address, the lanes there and those the MASK leaves. -/
def curIx (i : Instr) (h : Hdr) (s : State) : Ix :=
  issueIx i h (warpOf s s.cur) s.cur ((issuePc (warpOf s s.cur)).getD 0)

/-- The warp s.cur issues the instruction, and nothing stands in the way of its own effect: the warp may issue, the
instruction and its registers are legal, no error of a register is due, no register it names awaits a result, no source is
read too early under CHK, and some lane executes. -/
def issues (i : Instr) (h : Hdr) (s : State) : Bool :=
  let x := warpOf s s.cur
  (issuePc x).isSome && canIssue x && legal i && regsInRange x i && !x.mchkNext && !pendingOn x h (usesOf i) &&
    decide (sideFaults x i h (curIx i h s) = []) && decide ((curIx i h s).exe ≠ [])

/-- The state in which the instruction takes effect: the lanes at its address have advanced (R23), its results are marked
(R26), its beats are counted (R145). -/
def began (i : Instr) (h : Hdr) (s : State) : State := begun i h s (curIx i h s)

/-- The state after an instruction that left u: a variable-latency result is marked pending (R150), and its run goes on or ends
(R25, R147). -/
def finished (i : Instr) (h : Hdr) (s u : State) : State :=
  afterIssue (sendLate i (curIx i h s) u) s.cur (runFor s s.cur) (h.b || takesTransfer i (warpOf s s.cur) (curIx i h s))
    (curIx i h s).next

/-- The state after an instruction whose lanes had causes: the trap is taken or awaits older loads, no lane takes effect, and
the run ends (R97, R156, R157). -/
def trapped (i : Instr) (h : Hdr) (s : State) (fs : List LFault) (info : Nat) (past : List Nat) : State :=
  trapRun s (curIx i h s) fs info past

/-- The state after an instruction that must wait in state u: its lanes stand at its address again, and the run ends. -/
def waited (i : Instr) (h : Hdr) (s u : State) (k : Wait) : State :=
  endRun (putBack u s.cur (warpOf s s.cur) (curIx i h s).grp (curIx i h s).pc k) s.cur

/-- The hypothesis of the statements about one instruction: it issues, and its operands meet P in each executing lane. -/
abbrev On (i : Instr) (h : Hdr) (s : State) (P : Nat → Prop) : Prop :=
  issues i h s = true ∧ ∀ l ∈ (curIx i h s).exe, P l

/-- The operand that lane l reads: register r of the issuing warp under selector c (R35). -/
def opnd (s : State) (r : Reg) (c : BitVec 4) (l : Nat) : Val := selVal c (readReg (warpOf s s.cur) r l)

/-- A value of tag INT in the signed 64-bit range (R68). -/
abbrev Fits (x : Int) : Prop := -(2 ^ 63) ≤ x ∧ x < 2 ^ 63

/-! ## Frames -/

/-- The register r, read in lane k, is where an instruction with destination d writes in lane l. -/
def isDest (d r : Reg) (l k : Nat) : Bool := decide (r = d) && decide (r ≠ .nil) && (isUni r || decide (k = l))

/-- Nothing outside the warps and the cores differs, no warp but that of the instruction, and of the cores only cycle counts and
runs, the entry of the instruction's own variable-latency result in the warp's core, and, where the run ended, the region table writes
that were due (R215). -/
structure SameBeside (i : Instr) (h : Hdr) (s t : State) : Prop where
  rest : t = { s with warps := t.warps, cores := t.cores }
  warps : ∀ v, v ≠ s.cur → warpOf t v = warpOf s v
  cores : ∀ c,
    let k := if c = (warpOf s s.cur).core then lateCore i (curIx i h s) (coreOf s c) else coreOf s c
    coreOf t c = { k with cyc := (coreOf t c).cyc, runs := (coreOf t c).runs } ∨
    (c = (warpOf s s.cur).core ∧ coreOf t c = { tableDone k with cyc := (coreOf t c).cyc, runs := (coreOf t c).runs })
  memory : ∀ a, memByte t a = memByte s a

/-- Of a warp, only registers, masks, lanes and the issue state may differ: every warp special register but those of the
issue state, and what the warp waits for, is as before. -/
structure SameSpecials (x y : Warp) : Prop where
  eq : y = { x with lanes := y.lanes, regs := y.regs, uregs := y.uregs, regBad := y.regBad, masks := y.masks,
                    slots := y.slots, outer := y.outer, readyAt := y.readyAt, readyOut := y.readyOut, fcnt := y.fcnt, sel := y.sel, lrRun := y.lrRun,
                    walkFault := y.walkFault, lastIssue := y.lastIssue, reported := y.reported, stopped := y.stopped }

/-- The lanes differ in their program counters alone, the group's being the next address; a lane of a team that is being
stopped may have lost its reservation (R161, R330). -/
def OnlyAdvanced (ix : Ix) (x y : Warp) : Prop :=
  ∀ l, laneOf y l = { laneOf x l with lpc := if l ∈ ix.grp then ix.next else (laneOf x l).lpc, resv := (laneOf y l).resv } ∧
    ((laneOf y l).resv = (laneOf x l).resv ∨ (laneOf y l).resv = none)

/-- t is s after an instruction whose whole effect is to give destination d the value val l in each executing lane l, and
to change the warp's special registers as g says: a uniform register has the value of the lowest lane, and NIL keeps nothing
(R24, R32). Everything else is as before but what every issue changes: the lanes at the address stand at the next one. -/
structure Gave (i : Instr) (h : Hdr) (s t : State) (g : Warp → Warp) (d : Reg) (val : Nat → Val) : Prop where
  beside : SameBeside i h s t
  specials : SameSpecials (markLate i (g (warpOf s s.cur))) (warpOf t s.cur)
  lanes : OnlyAdvanced (curIx i h s) (warpOf s s.cur) (warpOf t s.cur)
  masks : ∀ m, maskReg (warpOf t s.cur) m = maskReg (warpOf s s.cur) m
  given : ∀ l ∈ (curIx i h s).exe, readReg (warpOf t s.cur) d l =
    if d = .nil then nilVal else if isUni d = true then val (curIx i h s).low else val l
  others : ∀ r k, (∀ l ∈ (curIx i h s).exe, isDest d r l k = false) →
    readReg (warpOf t s.cur) r k = readReg (warpOf s s.cur) r k

/-- The instruction completes, and gives its destination those values. -/
def Gives (i : Instr) (h : Hdr) (s : State) (d : Reg) (val : Nat → Val) : Prop :=
  ∃ t, exec i s = .next t ∧ Gave i h s t id d val

/-- The lane as the issue leaves it: those at the address stand at the next one (R23). -/
def advanced (i : Instr) (h : Hdr) (s : State) (l : Nat) : Lane :=
  { laneOf (warpOf s s.cur) l with
    lpc := if l ∈ (curIx i h s).grp then (curIx i h s).next else (laneOf (warpOf s s.cur) l).lpc }

/-- t is s after an instruction whose whole effect is to change the lanes' own state as f says, from the advanced lanes, and
the warp's special registers as g says; no register and no mask changes. A lane of a team that is being stopped may have lost
its reservation beside (R161, R330). -/
structure Became (i : Instr) (h : Hdr) (s t : State) (g : Warp → Warp) (f : Nat → Lane → Lane) : Prop where
  beside : SameBeside i h s t
  specials : SameSpecials (markLate i (g (warpOf s s.cur))) (warpOf t s.cur)
  lanes : ∀ l, laneOf (warpOf t s.cur) l = { f l (advanced i h s l) with resv := (laneOf (warpOf t s.cur) l).resv } ∧
    ((laneOf (warpOf t s.cur) l).resv = (f l (advanced i h s l)).resv ∨ (laneOf (warpOf t s.cur) l).resv = none)
  masks : ∀ m, maskReg (warpOf t s.cur) m = maskReg (warpOf s s.cur) m
  regs : ∀ r k, readReg (warpOf t s.cur) r k = readReg (warpOf s s.cur) r k

/-- The instruction completes, and changes the lanes and the special registers so. -/
def Turns (i : Instr) (h : Hdr) (s : State) (g : Warp → Warp) (f : Nat → Lane → Lane) : Prop :=
  ∃ t, exec i s = .next t ∧ Became i h s t g f

/-- t is s after an instruction whose whole effect is to write mask m: bit k is bit k where lane k has neither exited nor is
inactive (R151). No other mask and no register changes; with no lane waiting at a JOIN, the lanes have only advanced. -/
structure Masked (i : Instr) (h : Hdr) (s t : State) (m : MaskNo) (bit : Nat → Bool) : Prop where
  beside : SameBeside i h s t
  specials : SameSpecials (markLate i (warpOf s s.cur)) (warpOf t s.cur)
  lanes : (∀ l, isWaiting (laneOf (warpOf s s.cur) l) = false) →
    OnlyAdvanced (curIx i h s) (warpOf s s.cur) (warpOf t s.cur)
  mask : ∀ k, k < 64 → maskBit (warpOf t s.cur) m.val k = (bit k && decide (k ∈ aliveLanes (warpOf s s.cur)))
  masks : ∀ n, n ≠ m.val → maskReg (warpOf t s.cur) n = maskReg (warpOf s s.cur) n
  regs : ∀ r k, readReg (warpOf t s.cur) r k = readReg (warpOf s s.cur) r k

/-- The instruction completes, and writes the mask so. -/
def Marks (i : Instr) (h : Hdr) (s : State) (m : MaskNo) (bit : Nat → Bool) : Prop :=
  ∃ t, exec i s = .next t ∧ Masked i h s t m bit

/-- The instruction completes with the effect u: what every instruction shares has happened before u (began) and the run goes
on or ends after it. -/
abbrev Ends (i : Instr) (h : Hdr) (s u : State) : Prop := exec i s = .next (finished i h s u)

/-- Nothing stands in the way of the accesses of a plan: no call of the read barrier, no walk, no cause. -/
abbrev Ready (p : Plans) : Prop := p.calls = [] ∧ p.misses = [] ∧ p.faults = []

/-! ## Accuracy (R115) -/

/-- The rational number that a finite value is. -/
def Num.rat : Num → Rat
  | .fin neg m e => (if neg then -1 else 1) * (m : Rat) * 2 ^ e
  | _ => 0

/-- The result y lies within b units in the last place of v in format f; an infinity stands for a value that no finite result
exceeds. -/
def FFmt.near (f : FFmt) (b : Rat) (v : Real) (y : Nat) : Prop :=
  (∃ neg m e, f.dec y = .fin neg m e ∧
    |((Num.fin neg m e).rat : Real) - v| ≤ (b : Real) * 2 ^ max (Int.log 2 |v| - (f.fb : Int)) f.emin) ∨
  (f.dec y = .inf (decide (f.signBit ≤ y)) ∧ (f.signBit ≤ y ↔ v < 0) ∧ (((f.dec (f.infBits - 1)).rat : Rat) : Real) ≤ |v|)

/-! ## Invariants -/

/-- The memory holds the canonical form (equal memories are equal data). -/
def State.inv (s : State) : Prop := Memory.wf s.mem

/-- What every warp keeps: mask bits of lanes alone that have not exited (R151), sixteen call stack words and four lane calls at most (R96,
R155), and a STATUS with an F of at least 1 and reserved bits 0 (R143). -/
def Warp.wellFormed (x : Warp) : Prop :=
  (∀ m l, maskBit x m l = true → l < x.width ∧ isAlive (laneOf x l) = true) ∧
  (∀ l, (laneOf x l).csd ≤ 16 ∧ (laneOf x l).lcd ≤ 4) ∧
  statusF x ≠ 0 ∧ fld x.status 4 4 = 0 ∧ fld x.status 13 51 = 0

end Sys2Proof.Machine
end

