-- ==== Sys2Proof/Certificates/Slice0/Obligations.lean ====
section
/-! DEFINITION. The statements. Gives i h s d val (Safety.lean): exec of i answers a next state in which each executing lane's
destination d holds val, and everything else is as before but what every issue changes. -/

open Sys2Proof Sys2Proof.Machine

/-! ## Generic arithmetic -/

/-- R105, R106, R108-R111: ADD, SUB, MUL, ADDI and MULI of INT operands give the exact result when it lies in the signed 64-bit
range; DIV truncates toward zero and REM takes the sign of A, where they are defined; FMA tests the range of the final value
alone; NEG and ABS of INT but the most negative number; MIN, MAX and CLAMP. -/
def Obligations.IntegerArithmeticIsExact : Prop :=
  ((∀ p ∈ ([(Instr.add, fun x y => x + y), (Instr.sub, fun x y => x - y), (Instr.mul, fun x y => x * y)] :
       List ((Hdr → OpBinE → Instr) × (Int → Int → Int))), ∀ (h : Hdr) (o : OpBinE) (s : State),
     On (p.1 h o) h s (fun l => (opnd s o.a o.sa l).tag = .int ∧ (opnd s o.b o.sb l).tag = .int ∧
       Fits (p.2 (opnd s o.a o.sa l).pay.toInt (opnd s o.b o.sb l).pay.toInt)) →
     Gives (p.1 h o) h s o.d (fun l => intVal (p.2 (opnd s o.a o.sa l).pay.toInt (opnd s o.b o.sb l).pay.toInt))) ∧
   (∀ p ∈ ([(Instr.div, Int.tdiv), (Instr.rem, fun x y => x - y * x.tdiv y)] :
       List ((Hdr → OpBinE → Instr) × (Int → Int → Int))), ∀ (h : Hdr) (o : OpBinE) (s : State),
     On (p.1 h o) h s (fun l => (opnd s o.a o.sa l).tag = .int ∧ (opnd s o.b o.sb l).tag = .int ∧
       (opnd s o.b o.sb l).pay.toInt ≠ 0 ∧
       ¬((opnd s o.a o.sa l).pay.toInt = -(2 ^ 63) ∧ (opnd s o.b o.sb l).pay.toInt = -1)) →
     Gives (p.1 h o) h s o.d (fun l => intVal (p.2 (opnd s o.a o.sa l).pay.toInt (opnd s o.b o.sb l).pay.toInt))) ∧
   (∀ p ∈ ([(Instr.addi, fun x y => x + y), (Instr.muli, fun x y => x * y)] :
       List ((Hdr → OpImm → Instr) × (Int → Int → Int))), ∀ (h : Hdr) (o : OpImm) (s : State),
     On (p.1 h o) h s (fun l => (opnd s o.a 0#4 l).tag = .int ∧ Fits (p.2 (opnd s o.a 0#4 l).pay.toInt o.imm.toInt)) →
     Gives (p.1 h o) h s o.d (fun l => intVal (p.2 (opnd s o.a 0#4 l).pay.toInt o.imm.toInt)))) ∧
  ((∀ (h : Hdr) (o : OpTerE) (s : State),
     On (.fma h o) h s (fun l => (opnd s o.a o.sa l).tag = .int ∧ (opnd s o.b o.sb l).tag = .int ∧ (opnd s o.c 0#4 l).tag = .int ∧
       Fits ((opnd s o.a o.sa l).pay.toInt * (opnd s o.b o.sb l).pay.toInt + (opnd s o.c 0#4 l).pay.toInt)) →
     Gives (.fma h o) h s o.d
       (fun l => intVal ((opnd s o.a o.sa l).pay.toInt * (opnd s o.b o.sb l).pay.toInt + (opnd s o.c 0#4 l).pay.toInt))) ∧
   (∀ p ∈ ([(Instr.neg, fun x => -x), (Instr.abs, fun x => (x.natAbs : Int))] : List ((Hdr → OpUnE → Instr) × (Int → Int))),
     ∀ (h : Hdr) (o : OpUnE) (s : State),
     On (p.1 h o) h s (fun l => (opnd s o.a o.sa l).tag = .int ∧ (opnd s o.a o.sa l).pay.toInt ≠ -(2 ^ 63)) →
     Gives (p.1 h o) h s o.d (fun l => intVal (p.2 (opnd s o.a o.sa l).pay.toInt))) ∧
   (∀ p ∈ ([(Instr.min, min), (Instr.max, max)] : List ((Hdr → OpBinE → Instr) × (Int → Int → Int))),
     ∀ (h : Hdr) (o : OpBinE) (s : State),
     On (p.1 h o) h s (fun l => (opnd s o.a o.sa l).tag = .int ∧ (opnd s o.b o.sb l).tag = .int) →
     Gives (p.1 h o) h s o.d (fun l => intVal (p.2 (opnd s o.a o.sa l).pay.toInt (opnd s o.b o.sb l).pay.toInt))) ∧
   (∀ (h : Hdr) (o : OpTerE) (s : State),
     On (.clamp h o) h s (fun l => (opnd s o.a o.sa l).tag = .int ∧ (opnd s o.b o.sb l).tag = .int ∧ (opnd s o.c 0#4 l).tag = .int) →
     Gives (.clamp h o) h s o.d
       (fun l => intVal (min (max (opnd s o.a o.sa l).pay.toInt (opnd s o.b o.sb l).pay.toInt) (opnd s o.c 0#4 l).pay.toInt))))

/-- R105, R106, R108-R111: a scalar pair with a float result tag t (R94) gives the exact result on the operands widened to t,
rounded once RN; FMA forms A × B + C exactly; NEG and ABS invert or clear the sign; MIN, MAX and CLAMP choose by exact value and
convert the choice RN to the result tag. -/
def Obligations.FloatArithmeticRoundsOnce : Prop :=
  ((∀ p ∈ ([(Instr.add, fun x y => sumNum [x, y]), (Instr.sub, fun x y => sumNum [x, y.neg]), (Instr.mul, mulNum),
       (Instr.div, divNum), (Instr.rem, remNum)] : List ((Hdr → OpBinE → Instr) × (Machine.Num → Machine.Num → Machine.Num))),
     ∀ (h : Hdr) (o : OpBinE) (s : State),
     let a := opnd s o.a o.sa
     let b := opnd s o.b o.sb
     let t := fun l => (resTag (a l).tag (b l).tag).getD .nil
     On (p.1 h o) h s (fun l => (resTag (a l).tag (b l).tag).isSome ∧ t l ≠ .int) →
     Gives (p.1 h o) h s o.d (fun l => fVal (t l) .rn (p.2 (widen (a l) (t l)) (widen (b l) (t l))))) ∧
   (∀ p ∈ ([(Instr.addi, fun x y => sumNum [x, y]), (Instr.muli, mulNum)] :
       List ((Hdr → OpImm → Instr) × (Machine.Num → Machine.Num → Machine.Num))), ∀ (h : Hdr) (o : OpImm) (s : State),
     let a := opnd s o.a 0#4
     On (p.1 h o) h s (fun l => (a l).tag = .f64 ∨ (a l).tag = .f32) →
     Gives (p.1 h o) h s o.d (fun l =>
       fVal (a l).tag .rn (p.2 (widen (a l) (a l).tag) (widen (intVal o.imm.toInt) (a l).tag)))) ∧
   (∀ (h : Hdr) (o : OpTerE) (s : State),
     let a := opnd s o.a o.sa
     let b := opnd s o.b o.sb
     let c := opnd s o.c 0#4
     On (.fma h o) h s (fun l => resTag (a l).tag (b l).tag = some (c l).tag ∧ (c l).tag ≠ .int) →
     Gives (.fma h o) h s o.d (fun l =>
       fVal (c l).tag .rn (sumNum [mulNum (widen (a l) (c l).tag) (widen (b l) (c l).tag), widen (c l) (c l).tag])))) ∧
  ((∀ p ∈ ([(Instr.neg, Num.neg), (Instr.abs, Num.abs)] : List ((Hdr → OpUnE → Instr) × (Machine.Num → Machine.Num))),
     ∀ (h : Hdr) (o : OpUnE) (s : State),
     let a := opnd s o.a o.sa
     On (p.1 h o) h s (fun l => (tagFmt (a l).tag).isSome) →
     Gives (p.1 h o) h s o.d (fun l => fVal (a l).tag .rn (p.2 ((valNum (a l)).getD .nan)))) ∧
   (∀ p ∈ ([(Instr.min, minNum), (Instr.max, maxOf)] : List ((Hdr → OpBinE → Instr) × (Machine.Num → Machine.Num → Machine.Num))),
     ∀ (h : Hdr) (o : OpBinE) (s : State),
     let a := opnd s o.a o.sa
     let b := opnd s o.b o.sb
     let t := fun l => (resTag (a l).tag (b l).tag).getD .nil
     On (p.1 h o) h s (fun l => (resTag (a l).tag (b l).tag).isSome ∧ t l ≠ .int) →
     Gives (p.1 h o) h s o.d (fun l => fVal (t l) .rn (p.2 ((valNum (a l)).getD .nan) ((valNum (b l)).getD .nan)))) ∧
   (∀ (h : Hdr) (o : OpTerE) (s : State),
     let a := opnd s o.a o.sa
     let b := opnd s o.b o.sb
     let c := opnd s o.c 0#4
     On (.clamp h o) h s (fun l => (tagFmt (a l).tag).isSome ∧ (b l).tag = (a l).tag ∧ (c l).tag = (a l).tag) →
     Gives (.clamp h o) h s o.d (fun l => fVal (a l).tag .rn
       (minNum (maxOf ((valNum (a l)).getD .nan) ((valNum (b l)).getD .nan)) ((valNum (c l)).getD .nan)))))

/-- R107-R110, R117: a packed pair of the MOD element's width is computed element by element, each element decoded exactly
and encoded once; DOT sums C and every product exactly and rounds once. -/
def Obligations.PackedArithmeticIsElementwise : Prop :=
  (∀ p ∈ ([(Instr.add, fun x y => sumNum [x, y]), (Instr.sub, fun x y => sumNum [x, y.neg]), (Instr.mul, mulNum),
      (Instr.min, minNum), (Instr.max, maxOf)] : List ((Hdr → OpBinE → Instr) × (Machine.Num → Machine.Num → Machine.Num))),
    ∀ (h : Hdr) (o : OpBinE) (s : State),
    let a := opnd s o.a o.sa
    let b := opnd s o.b o.sb
    On (p.1 h o) h s (fun l => (a l).tag = eltTag o.e ∧ (b l).tag = eltTag o.e) →
    Gives (p.1 h o) h s o.d (fun l => ⟨eltTag o.e, packElts o.e (fun i =>
      eltEnc o.e .rn (p.2 (eltDec o.e (eltAt o.e (a l).pay i)) (eltDec o.e (eltAt o.e (b l).pay i))))⟩)) ∧
  (∀ p ∈ ([(Instr.neg, Num.neg), (Instr.abs, Num.abs)] : List ((Hdr → OpUnE → Instr) × (Machine.Num → Machine.Num))),
    ∀ (h : Hdr) (o : OpUnE) (s : State),
    let a := opnd s o.a o.sa
    On (p.1 h o) h s (fun l => (a l).tag = eltTag o.e) →
    Gives (p.1 h o) h s o.d (fun l => ⟨eltTag o.e, packElts o.e (fun i =>
      eltEnc o.e .rn (p.2 (eltDec o.e (eltAt o.e (a l).pay i))))⟩)) ∧
  (∀ p ∈ ([(Instr.fma, fun x y z => sumNum [mulNum x y, z]), (Instr.clamp, fun x y z => minNum (maxOf x y) z)] :
      List ((Hdr → OpTerE → Instr) × (Machine.Num → Machine.Num → Machine.Num → Machine.Num))), ∀ (h : Hdr) (o : OpTerE) (s : State),
    let a := opnd s o.a o.sa
    let b := opnd s o.b o.sb
    let c := opnd s o.c 0#4
    On (p.1 h o) h s (fun l => (a l).tag = eltTag o.e ∧ (b l).tag = eltTag o.e ∧ (c l).tag = eltTag o.e) →
    Gives (p.1 h o) h s o.d (fun l => ⟨eltTag o.e, packElts o.e (fun i =>
      eltEnc o.e .rn (p.2 (eltDec o.e (eltAt o.e (a l).pay i)) (eltDec o.e (eltAt o.e (b l).pay i))
        (eltDec o.e (eltAt o.e (c l).pay i))))⟩)) ∧
  (∀ (h : Hdr) (o : OpTerE) (s : State),
    let a := opnd s o.a o.sa
    let b := opnd s o.b o.sb
    let c := opnd s o.c 0#4
    let x := fun l => sumNum ((valNum (c l)).getD .nan ::
      (List.range (eltCount o.e)).map (fun i => mulNum (eltDec o.e (eltAt o.e (a l).pay i)) (eltDec o.e (eltAt o.e (b l).pay i))))
    (On (.dot h o) h s (fun l => (a l).tag = eltTag o.e ∧ (b l).tag = eltTag o.e ∧ ((c l).tag = .f32 ∨ (c l).tag = .f64) ∧
        (o.e = .tap8 ∨ o.e = .tap6 ∨ o.e = .bf16 ∨ o.e = .f16)) →
      Gives (.dot h o) h s o.d (fun l => fVal (c l).tag .rn (x l))) ∧
    (On (.dot h o) h s (fun l => (a l).tag = eltTag o.e ∧ (b l).tag = eltTag o.e ∧ (c l).tag = .int ∧
        (o.e = .i8 ∨ o.e = .i16 ∨ o.e = .i4) ∧ ∃ n, roundInt .rz (x l) = some n ∧ Fits n) →
      Gives (.dot h o) h s o.d (fun l => intVal ((roundInt .rz (x l)).getD 0))))

/-- R78, R113, R131: an arithmetic, bitwise, shift, bit-field, conversion, scaling or packing instruction with a POISON operand gives
POISON, with the code of the first in the order A, B, C (and D's old value last, in BFI), and so do CMP and CMPI under every condition
but TAGEQ: no call, no overflow, no trap. -/
def Obligations.PoisonPassesOn : Prop :=
  ∀ (rm : Rnd) (n : Fin 5) (tgt : CvtTgt),
  (∀ mk ∈ ([Instr.add, Instr.sub, Instr.mul, Instr.div, Instr.rem, Instr.min, Instr.max, fun h => Instr.pack h rm] :
      List (Hdr → OpBinE → Instr)), ∀ (h : Hdr) (o : OpBinE) (s : State),
    let a := opnd s o.a o.sa
    let b := opnd s o.b o.sb
    On (mk h o) h s (fun l => (a l).tag = .poison ∨ (b l).tag = .poison) →
    Gives (mk h o) h s o.d
      (fun l => if (a l).tag = .poison then poisonVal (fld (a l).pay 0 16) else poisonVal (fld (b l).pay 0 16))) ∧
  (∀ mk ∈ ([Instr.and, Instr.or, Instr.xor, Instr.shl, Instr.shr, Instr.sar, Instr.rol, Instr.mulh, Instr.addw, Instr.subw,
      Instr.mulw, fun h => Instr.lea h n, Instr.ptrd] : List (Hdr → OpBin → Instr)), ∀ (h : Hdr) (o : OpBin) (s : State),
    let a := opnd s o.a o.sa
    let b := opnd s o.b o.sb
    On (mk h o) h s (fun l => (a l).tag = .poison ∨ (b l).tag = .poison) →
    Gives (mk h o) h s o.d
      (fun l => if (a l).tag = .poison then poisonVal (fld (a l).pay 0 16) else poisonVal (fld (b l).pay 0 16))) ∧
  (∀ mk ∈ ([Instr.fma, Instr.clamp, Instr.dot] : List (Hdr → OpTerE → Instr)), ∀ (h : Hdr) (o : OpTerE) (s : State),
    let a := opnd s o.a o.sa
    let b := opnd s o.b o.sb
    let c := opnd s o.c 0#4
    On (mk h o) h s (fun l => (a l).tag = .poison ∨ (b l).tag = .poison ∨ (c l).tag = .poison) →
    Gives (mk h o) h s o.d
      (fun l => if (a l).tag = .poison then poisonVal (fld (a l).pay 0 16)
        else if (b l).tag = .poison then poisonVal (fld (b l).pay 0 16) else poisonVal (fld (c l).pay 0 16))) ∧
  (∀ mk ∈ ([Instr.sqrt, Instr.rcp, Instr.rsq, Instr.exp2, Instr.log2, Instr.sin, Instr.cos, Instr.tanh, Instr.not, Instr.popc,
      Instr.clz, Instr.ctz, Instr.brev, fun h => Instr.frnd h rm, fun h => Instr.cvt h tgt rm] :
      List (Hdr → OpUn → Instr)), ∀ (h : Hdr) (o : OpUn) (s : State),
    let a := opnd s o.a o.sa
    On (mk h o) h s (fun l => (a l).tag = .poison) →
    Gives (mk h o) h s o.d (fun l => poisonVal (fld (a l).pay 0 16))) ∧
  (∀ mk ∈ ([Instr.neg, Instr.abs, Instr.unpk] : List (Hdr → OpUnE → Instr)), ∀ (h : Hdr) (o : OpUnE) (s : State),
    let a := opnd s o.a o.sa
    On (mk h o) h s (fun l => (a l).tag = .poison) →
    Gives (mk h o) h s o.d (fun l => poisonVal (fld (a l).pay 0 16))) ∧
  (∀ mk ∈ ([Instr.addi, Instr.muli, Instr.andi, Instr.ori, Instr.xori] : List (Hdr → OpImm → Instr)),
    ∀ (h : Hdr) (o : OpImm) (s : State),
    let a := opnd s o.a 0#4
    On (mk h o) h s (fun l => (a l).tag = .poison) →
    Gives (mk h o) h s o.d (fun l => poisonVal (fld (a l).pay 0 16))) ∧
  (∀ (h : Hdr) (d ra rb : Reg) (k : BitVec 6) (e : Elt) (cc : Cc) (imm : BitVec 28) (s : State),
    let a := opnd s ra 0#4
    let b := opnd s rb 0#4
    (∀ i ∈ [Instr.shli h d ra k, .shri h d ra k, .scaleq h d ra e],
      On i h s (fun l => (a l).tag = .poison) → Gives i h s d (fun l => poisonVal (fld (a l).pay 0 16))) ∧
    (cc ≠ .tageq → On (.cmpi h cc d ra imm) h s (fun l => (a l).tag = .poison) →
      Gives (.cmpi h cc d ra imm) h s d (fun l => poisonVal (fld (a l).pay 0 16))) ∧
    (On (.qnt h rm d ra rb e) h s (fun l => (a l).tag = .poison ∨ (b l).tag = .poison) →
      Gives (.qnt h rm d ra rb e) h s d
        (fun l => if (a l).tag = .poison then poisonVal (fld (a l).pay 0 16) else poisonVal (fld (b l).pay 0 16)))) ∧
  (∀ (h : Hdr) (cc : Cc) (o : OpBinE) (s : State),
    let a := opnd s o.a o.sa
    let b := opnd s o.b o.sb
    cc ≠ .tageq → On (.cmp h cc o) h s (fun l => (a l).tag = .poison ∨ (b l).tag = .poison) →
    Gives (.cmp h cc o) h s o.d
      (fun l => if (a l).tag = .poison then poisonVal (fld (a l).pay 0 16) else poisonVal (fld (b l).pay 0 16))) ∧
  (∀ (h : Hdr) (o : OpField) (s : State),
    let a := opnd s o.a o.sa
    let b := opnd s o.b 0#4
    let c := opnd s o.c 0#4
    let d := opnd s o.d 0#4
    let first := fun l => if (a l).tag = .poison then poisonVal (fld (a l).pay 0 16)
      else if (b l).tag = .poison then poisonVal (fld (b l).pay 0 16)
      else if (c l).tag = .poison then poisonVal (fld (c l).pay 0 16) else poisonVal (fld (d l).pay 0 16)
    (On (.bfx h o) h s (fun l => (a l).tag = .poison ∨ (b l).tag = .poison ∨ (c l).tag = .poison) →
      Gives (.bfx h o) h s o.d first) ∧
    (On (.bfi h o) h s (fun l => (a l).tag = .poison ∨ (b l).tag = .poison ∨ (c l).tag = .poison ∨ (d l).tag = .poison) →
      Gives (.bfi h o) h s o.d first))

/-! ## Compares -/

/-- R102, R112, R113, R126: CMP and CMPI give INT 1 or 0: TAGEQ by the tags alone; the order of INT operands; a scalar pair by exact
value, where a NaN is unordered; equal tags among NIL, SYM, REF and PTR by payload; CMPM and TAGM write the bits of the executing
lanes in their mask and leave the others. -/
def Obligations.ComparesGiveTruth : Prop :=
  ((∀ (h : Hdr) (cc : Cc) (o : OpBinE) (s : State),
     let a := opnd s o.a o.sa
     let b := opnd s o.b o.sb
     let i := Instr.cmp h cc o
     (cc = .tageq → On i h s (fun _ => True) → Gives i h s o.d (fun l => natVal (if (a l).tag = (b l).tag then 1 else 0))) ∧
     (cc ≠ .tageq → On i h s (fun l => (a l).tag = .int ∧ (b l).tag = .int) →
       Gives i h s o.d (fun l => natVal (if ccInt cc (a l).pay.toInt (b l).pay.toInt = true then 1 else 0))) ∧
     (cc ≠ .tageq → On i h s (fun l => (resTag (a l).tag (b l).tag).isSome) →
       Gives i h s o.d (fun l =>
         natVal (if ccNum cc ((valNum (a l)).getD .nan) ((valNum (b l)).getD .nan) = true then 1 else 0))) ∧
     (cc = .eq ∨ cc = .ne → On i h s (fun l => (a l).tag = (b l).tag ∧
         ((a l).tag = .nil ∨ (a l).tag = .sym ∨ (a l).tag = .ref ∨ (a l).tag = .ptr)) →
       Gives i h s o.d (fun l => natVal (if (cc = .eq ↔ (a l).pay = (b l).pay) then 1 else 0)))) ∧
   (∀ (h : Hdr) (cc : Cc) (d ra : Reg) (imm : BitVec 28) (s : State),
     let a := opnd s ra 0#4
     let i := Instr.cmpi h cc d ra imm
     (cc = .tageq → On i h s (fun _ => True) → Gives i h s d (fun l => natVal (if (a l).tag = .int then 1 else 0))) ∧
     (cc ≠ .tageq → On i h s (fun l => (a l).tag = .int) →
       Gives i h s d (fun l => natVal (if ccInt cc (a l).pay.toInt imm.toInt = true then 1 else 0))))) ∧
  ((∀ (h : Hdr) (cc : Cc) (m : MaskNo) (ra rb : Reg) (sa sb : BitVec 4) (e : Elt) (s : State),
     let a := opnd s ra sa
     let b := opnd s rb sb
     let i := Instr.cmpm h cc m ra rb sa sb e
     let old := fun k => maskBit (warpOf s s.cur) m.val k
     (cc ≠ .tageq → On i h s (fun l => (a l).tag = .int ∧ (b l).tag = .int) →
       Marks i h s m (fun k => if k ∈ (curIx i h s).exe then ccInt cc (a k).pay.toInt (b k).pay.toInt else old k)) ∧
     (cc = .tageq → On i h s (fun l => (a l).tag ≠ .poison ∧ (b l).tag ≠ .poison) →
       Marks i h s m (fun k => if k ∈ (curIx i h s).exe then decide ((a k).tag = (b k).tag) else old k))) ∧
   (∀ (h : Hdr) (t : Tag) (m : MaskNo) (ra : Reg) (s : State),
     let i := Instr.tagm h t m ra
     On i h s (fun _ => True) →
     Marks i h s m (fun k => if k ∈ (curIx i h s).exe then decide ((opnd s ra 0#4 k).tag = t)
       else maskBit (warpOf s s.cur) m.val k)))

/-! ## Transcendental functions, rounding and conversions -/

/-- R114, R115: a transcendental instruction gives a float its function's value in the operand's own format (F16 and BF16 through
F32), and an INT the function of its F64 rounding; the special values and the exact cases in F64 and F32, whatever the free choice
among neighbours (log entry 3): the roots of squares, reciprocals of powers of two, EXP2 of integers, LOG2 of powers of two.
The model's choice: the result stands behind its pending mark until the scoreboard brings it (log entry 17). -/
def Obligations.TranscendentalsGiveTheFunction : Prop :=
  (∀ p ∈ ([(Instr.sqrt, TFn.sqrt), (Instr.rcp, TFn.rcp), (Instr.rsq, TFn.rsq), (Instr.exp2, TFn.exp2), (Instr.log2, TFn.log2),
       (Instr.sin, TFn.sin), (Instr.cos, TFn.cos), (Instr.tanh, TFn.tanh)] : List ((Hdr → OpUn → Instr) × TFn)),
     ∀ (h : Hdr) (o : OpUn) (s : State),
     let a := opnd s o.a o.sa
     let x := fun l => (valNum (a l)).getD .nan
     (On (p.1 h o) h s (fun l => (a l).tag = .int) →
       Gives (p.1 h o) h s o.d (fun l => ⟨.f64, wd (tfnEval p.2 fF64 1 (widen (a l) .f64))⟩)) ∧
     (On (p.1 h o) h s (fun l => (a l).tag = .f64) →
       Gives (p.1 h o) h s o.d (fun l => ⟨.f64, wd (tfnEval p.2 fF64 2 (x l))⟩)) ∧
     (On (p.1 h o) h s (fun l => (a l).tag = .f32) →
       Gives (p.1 h o) h s o.d (fun l => ⟨.f32, wd (tfnEval p.2 fF32 3 (x l))⟩)) ∧
     (On (p.1 h o) h s (fun l => (a l).tag = .f16) →
       Gives (p.1 h o) h s o.d (fun l => fVal .f16 .rn (fF32.dec (tfnEval p.2 fF32 4 (x l))))) ∧
     (On (p.1 h o) h s (fun l => (a l).tag = .bf16) →
       Gives (p.1 h o) h s o.d (fun l => fVal .bf16 .rn (fF32.dec (tfnEval p.2 fF32 5 (x l)))))) ∧
  (∀ (f : FFmt) (k : Nat), f = fF64 ∨ f = fF32 →
     let nan := f.enc .rn .nan
     let val := fun (g : TFn) (x : Machine.Num) => tfnEval g f k x
     (∀ g, val g .nan = nan) ∧
     (∀ neg : Bool, val .sqrt (.fin neg 0 0) = f.enc .rn (.fin neg 0 0) ∧ val .rcp (.fin neg 0 0) = f.enc .rn (.inf neg) ∧
       val .rcp (.inf neg) = f.enc .rn (.fin neg 0 0) ∧ val .rsq (.fin neg 0 0) = f.enc .rn (.inf neg) ∧
       val .exp2 (.fin neg 0 0) = f.enc .rn (.fin false 1 0) ∧ val .log2 (.fin neg 0 0) = f.enc .rn (.inf true) ∧
       val .sin (.fin neg 0 0) = f.enc .rn (.fin neg 0 0) ∧ val .cos (.fin neg 0 0) = f.enc .rn (.fin false 1 0) ∧
       val .sin (.inf neg) = nan ∧ val .cos (.inf neg) = nan ∧
       val .tanh (.fin neg 0 0) = f.enc .rn (.fin neg 0 0) ∧ val .tanh (.inf neg) = f.enc .rn (.fin neg 1 0)) ∧
     val .sqrt (.inf false) = f.enc .rn (.inf false) ∧ val .sqrt (.inf true) = nan ∧
     val .rsq (.inf false) = f.enc .rn (.fin false 0 0) ∧ val .rsq (.inf true) = nan ∧
     val .exp2 (.inf false) = f.enc .rn (.inf false) ∧ val .exp2 (.inf true) = f.enc .rn (.fin false 0 0) ∧
     val .log2 (.inf false) = f.enc .rn (.inf false) ∧ val .log2 (.inf true) = nan ∧
     (∀ (m : Nat) (e : Int), 0 < m → val .sqrt (.fin true m e) = nan ∧ val .rsq (.fin true m e) = nan ∧
       val .log2 (.fin true m e) = nan) ∧
     (∀ (m : Nat) (e : Int), 0 < m → val .sqrt (.fin false (m * m) (2 * e)) = f.enc .rn (.fin false m e)) ∧
     (∀ (neg : Bool) (j : Nat) (e : Int),
       val .rcp (.fin neg (2 ^ j) e) = f.enc .rn (.fin neg 1 (-(j : Int) - e)) ∧
       val .log2 (.fin false (2 ^ j) e) = f.enc .rn (numOfInt ((j : Int) + e)) ∧
       (((j : Int) + e) % 2 = 0 → val .rsq (.fin false (2 ^ j) e) = f.enc .rn (.fin false 1 (-(((j : Int) + e) / 2))))) ∧
     (∀ (m : Nat) (e i : Int), m ≠ 0 → (m : Int) * 2 ^ e.toNat = (i.natAbs : Int) * 2 ^ (-e).toNat →
       (f.emin ≤ i → i ≤ (f.bias : Int) → val .exp2 (.fin (decide (i < 0)) m e) = f.enc .rn (.fin false 1 i)) ∧
       ((f.bias : Int) < i → val .exp2 (.fin false m e) = f.enc .rn (.inf false))))

/-- R115: SQRT of every positive F64 and F32 operand is within half a unit in the last place of the real root, RCP and RSQ within one
unit of the real reciprocal and reciprocal root, whatever the free choice among neighbours (log entry 3); a result beyond every
finite one is an infinity of its sign. -/
def Obligations.AlgebraicFunctionsAreAccurate : Prop :=
  ∀ (f : FFmt) (k b : Nat) (neg : Bool) (m : Nat) (e : Int), f = fF64 ∨ f = fF32 → b < 2 * f.signBit → f.dec b = .fin neg m e →
    m ≠ 0 →
    let x : Real := ((Num.fin neg m e).rat : Real)
    (neg = false → f.near (1 / 2) (Real.sqrt x) (tfnEval .sqrt f k (.fin neg m e))) ∧
    f.near 1 (1 / x) (tfnEval .rcp f k (.fin neg m e)) ∧
    (neg = false → f.near 1 (1 / Real.sqrt x) (tfnEval .rsq f k (.fin neg m e)))

/-- R115: EXP2 of every finite F64 and F32 operand and LOG2 of every positive one are within one unit in the last place of the real
value, TANH within two; SIN and COS are within one unit wherever the operand lies 2 ^ -128 or more from every nonzero multiple of π/2,
which the two formats' operands do. The free choice among neighbours does not matter (log entry 3). -/
def Obligations.TranscendentalsAreAccurate : Prop :=
  ∀ (f : FFmt) (k b : Nat) (neg : Bool) (m : Nat) (e : Int), f = fF64 ∨ f = fF32 → b < 2 * f.signBit → f.dec b = .fin neg m e →
    m ≠ 0 →
    let x : Real := ((Num.fin neg m e).rat : Real)
    f.near 1 ((2 : Real) ^ x) (tfnEval .exp2 f k (.fin neg m e)) ∧
    (neg = false → f.near 1 (Real.logb 2 x) (tfnEval .log2 f k (.fin neg m e))) ∧
    f.near 2 (Real.tanh x) (tfnEval .tanh f k (.fin neg m e)) ∧
    ((∀ j : Int, j ≠ 0 → (1 : Real) / 2 ^ 128 ≤ |x - j * (Real.pi / 2)|) →
      f.near 1 (Real.sin x) (tfnEval .sin f k (.fin neg m e)) ∧ f.near 1 (Real.cos x) (tfnEval .cos f k (.fin neg m e)))

/-- R116, R118-R123: FRND, CVT, UNPK, PACK, SCALEQ and QNT of their executed operands. -/
def Obligations.ConversionsGiveTheValue : Prop :=
  (∀ (h : Hdr) (rm : Rnd) (o : OpUn) (s : State),
    let a := opnd s o.a o.sa
    (On (.frnd h rm o) h s (fun l => (a l).tag = .int) → Gives (.frnd h rm o) h s o.d a) ∧
    (On (.frnd h rm o) h s (fun l => (tagFmt (a l).tag).isSome) →
      Gives (.frnd h rm o) h s o.d (fun l => fVal (a l).tag .rn (integral rm ((valNum (a l)).getD .nan))))) ∧
  (∀ (h : Hdr) (rm : Rnd) (o : OpUn) (s : State),
    let a := opnd s o.a o.sa
    let x := fun l => (valNum (a l)).getD .nan
    (On (.cvt h .int rm o) h s (fun l => (valNum (a l)).isSome ∧ ∃ n, roundInt rm (x l) = some n ∧ Fits n) →
      Gives (.cvt h .int rm o) h s o.d (fun l => intVal ((roundInt rm (x l)).getD 0))) ∧
    (∀ p ∈ ([(.f64, .f64), (.f32, .f32), (.f16, .f16), (.bf16, .bf16)] : List (CvtTgt × Tag)),
      On (.cvt h p.1 rm o) h s (fun l => (valNum (a l)).isSome) →
      Gives (.cvt h p.1 rm o) h s o.d (fun l => fVal p.2 rm (x l))) ∧
    (∀ p ∈ ([(.tap8, .pk8, fun x => tap8.enc rm x), (.tap6, .pk8, fun x => tap6.enc rm x), (.i8, .pk8, encInt 8 rm),
        (.i4, .pk4, encInt 4 rm), (.se8, .int, se8Enc rm)] : List (CvtTgt × Tag × (Machine.Num → Nat))),
      On (.cvt h p.1 rm o) h s (fun l => (valNum (a l)).isSome) →
      Gives (.cvt h p.1 rm o) h s o.d (fun l => ⟨p.2.1, wd (p.2.2 (x l))⟩))) ∧
  (∀ (h : Hdr) (o : OpUnE) (s : State),
    let a := opnd s o.a o.sa
    let x := fun l => eltAt o.e (a l).pay 0
    On (.unpk h o) h s (fun l => (a l).tag = eltTag o.e) →
    Gives (.unpk h o) h s o.d (fun l =>
      match o.e with
      | .i8 => intVal (sextN (x l) 8)
      | .i4 => intVal (sextN (x l) 4)
      | .i16 => intVal (sextN (x l) 16)
      | .bf16 => ⟨.bf16, wd (x l)⟩
      | .f16 => ⟨.f16, wd (x l)⟩
      | .tap8 | .tap6 => fVal .f32 .rn (eltDec o.e (x l)))) ∧
  (∀ (h : Hdr) (rm : Rnd) (o : OpBinE) (s : State),
    let a := opnd s o.a o.sa
    let b := opnd s o.b o.sb
    On (.pack h rm o) h s (fun l => ((a l).tag = .nil ∨ (a l).tag = eltTag o.e) ∧ (valNum (b l)).isSome) →
    Gives (.pack h rm o) h s o.d (fun l => ⟨eltTag o.e, packElts o.e (fun i =>
      if i + 1 = eltCount o.e then eltEnc o.e rm ((valNum (b l)).getD .nan)
      else if (a l).tag = .nil then 0 else eltAt o.e (a l).pay (i + 1))⟩)) ∧
  (∀ (h : Hdr) (d ra : Reg) (e : Elt) (s : State),
    let a := opnd s ra 0#4
    let mx := (eltMax (eltTFmt e)).getD 1
    (On (.scaleq h d ra e) h s (fun l => (valNum (a l)).isSome) →
      Gives (.scaleq h d ra e) h s d (fun l => natVal (scaleCode mx ((valNum (a l)).getD .nan).abs))) ∧
    (On (.scaleq h d ra e) h s (fun l => (a l).tag = eltTag e) →
      Gives (.scaleq h d ra e) h s d (fun l => natVal (scaleCode mx (maxMag (decElts e (a l).pay)))))) ∧
  (∀ (h : Hdr) (rm : Rnd) (d ra rb : Reg) (e : Elt) (s : State),
    let a := opnd s ra 0#4
    let b := opnd s rb 0#4
    let k := fun l => 127 - ((b l).pay.toNat : Int)
    (On (.qnt h rm d ra rb e) h s (fun l => (b l).tag = .int ∧ (b l).pay.toNat < 255 ∧ (valNum (a l)).isSome) →
      Gives (.qnt h rm d ra rb e) h s d
        (fun l => ⟨eltTag e, wd (eltEnc e rm (scaleBy (k l) ((valNum (a l)).getD .nan)))⟩)) ∧
    (On (.qnt h rm d ra rb e) h s (fun l => (b l).tag = .int ∧ (b l).pay.toNat < 255 ∧ (a l).tag = eltTag e) →
      Gives (.qnt h rm d ra rb e) h s d (fun l => ⟨eltTag e, packElts e (fun i =>
        eltEnc e rm (scaleBy (k l) (eltDec e (eltAt e (a l).pay i))))⟩)))

/-! ## Bits, moves and tags -/

/-- R127, R128: bitwise operations and shifts of their executed pairs work on the 64-bit payload; a shift counts modulo 64 and
never overflows; PTR with INT keeps PTR and a packed pair its tag. -/
def Obligations.BitwiseAndShiftsGiveTheBits : Prop :=
  (∀ p ∈ ([(Instr.and, fun x y => x &&& y), (Instr.or, fun x y => x ||| y), (Instr.xor, fun x y => x ^^^ y)] :
      List ((Hdr → OpBin → Instr) × (Word → Word → Word))), ∀ (h : Hdr) (o : OpBin) (s : State),
    let a := opnd s o.a o.sa
    let b := opnd s o.b o.sb
    On (p.1 h o) h s (fun l => ((a l).tag = .int ∧ (b l).tag = .int) ∨ ((a l).tag = .ptr ∧ (b l).tag = .int) ∨
      ((a l).tag = .int ∧ (b l).tag = .ptr) ∨ (isPacked (a l).tag = true ∧ (b l).tag = (a l).tag)) →
    Gives (p.1 h o) h s o.d (fun l => ⟨if (a l).tag = .int then (b l).tag else (a l).tag, p.2 (a l).pay (b l).pay⟩)) ∧
  (∀ p ∈ ([(Instr.andi, fun x y => x &&& y), (Instr.ori, fun x y => x ||| y), (Instr.xori, fun x y => x ^^^ y)] :
      List ((Hdr → OpImm → Instr) × (Word → Word → Word))), ∀ (h : Hdr) (o : OpImm) (s : State),
    let a := opnd s o.a 0#4
    On (p.1 h o) h s (fun l => (a l).tag = .int ∨ (a l).tag = .ptr) →
    Gives (p.1 h o) h s o.d (fun l => ⟨(a l).tag, p.2 (a l).pay (o.imm.signExtend 64)⟩)) ∧
  (∀ (h : Hdr) (o : OpUn) (s : State),
    let a := opnd s o.a o.sa
    On (.not h o) h s (fun l => (a l).tag = .int ∨ (a l).tag = .ptr ∨ isPacked (a l).tag = true) →
    Gives (.not h o) h s o.d (fun l => ⟨(a l).tag, ~~~ (a l).pay⟩)) ∧
  (∀ p ∈ ([(Instr.shl, fun x n => x <<< n), (Instr.shr, fun x n => x >>> n), (Instr.sar, fun x n => x.sshiftRight n),
      (Instr.rol, fun x n => x.rotateLeft n)] : List ((Hdr → OpBin → Instr) × (Word → Nat → Word))),
    ∀ (h : Hdr) (o : OpBin) (s : State),
    let a := opnd s o.a o.sa
    let b := opnd s o.b o.sb
    On (p.1 h o) h s (fun l => ((a l).tag = .int ∨ (a l).tag = .ptr) ∧ (b l).tag = .int) →
    Gives (p.1 h o) h s o.d (fun l => ⟨(a l).tag, p.2 (a l).pay ((b l).pay.toNat % 64)⟩)) ∧
  (∀ p ∈ ([(Instr.shli, fun x n => x <<< n), (Instr.shri, fun x n => x >>> n)] :
      List ((Hdr → Reg → Reg → BitVec 6 → Instr) × (Word → Nat → Word))), ∀ (h : Hdr) (d ra : Reg) (n : BitVec 6) (s : State),
    let a := opnd s ra 0#4
    On (p.1 h d ra n) h s (fun l => (a l).tag = .int ∨ (a l).tag = .ptr) →
    Gives (p.1 h d ra n) h s d (fun l => ⟨(a l).tag, p.2 (a l).pay n.toNat⟩))

/-- R129-R134: POPC, CLZ, CTZ and BREV of INT, PTR and packed operands; BFX reads and BFI writes the field at B, C wide; ADDW, SUBW,
MULW and MULH never overflow; LEA adds B shifted left; PTRD subtracts two PTRs or two REFs. -/
def Obligations.BitFieldsAndWrapping : Prop :=
  ((∀ p ∈ ([(Instr.popc, fun x => ((List.range 64).filter (fun i => bitAt x i)).length),
       (Instr.clz, fun x => ((List.range 64).find? (fun i => bitAt x (63 - i))).getD 64),
       (Instr.ctz, fun x => ((List.range 64).find? (fun i => bitAt x i)).getD 64)] :
       List ((Hdr → OpUn → Instr) × (Word → Nat))), ∀ (h : Hdr) (o : OpUn) (s : State),
     let a := opnd s o.a o.sa
     On (p.1 h o) h s (fun l => (a l).tag = .int ∨ (a l).tag = .ptr ∨ isPacked (a l).tag = true) →
     Gives (p.1 h o) h s o.d (fun l => natVal (p.2 (a l).pay))) ∧
   (∀ (h : Hdr) (o : OpUn) (s : State),
     let a := opnd s o.a o.sa
     On (.brev h o) h s (fun l => (a l).tag = .int ∨ (a l).tag = .ptr ∨ isPacked (a l).tag = true) →
     Gives (.brev h o) h s o.d (fun l => ⟨(a l).tag, (a l).pay.reverse⟩)) ∧
   (∀ (h : Hdr) (o : OpField) (s : State),
     let a := opnd s o.a o.sa
     let b := opnd s o.b 0#4
     let c := opnd s o.c 0#4
     let p := fun l => (b l).pay.toNat % 64
     let w := fun l => min ((c l).pay.toNat % 128) (64 - p l)
     On (.bfx h o) h s (fun l => ((a l).tag = .int ∨ (a l).tag = .ptr ∨ isPacked (a l).tag = true) ∧
       (b l).tag ≠ .poison ∧ (c l).tag ≠ .poison) →
     Gives (.bfx h o) h s o.d (fun l => natVal ((a l).pay.toNat / 2 ^ p l % 2 ^ w l))) ∧
   (∀ (h : Hdr) (o : OpField) (s : State),
     let a := opnd s o.a o.sa
     let b := opnd s o.b 0#4
     let c := opnd s o.c 0#4
     let d := opnd s o.d 0#4
     let p := fun l => (b l).pay.toNat % 64
     let w := fun l => min ((c l).pay.toNat % 128) (64 - p l)
     On (.bfi h o) h s (fun l => (a l).tag = .int ∧ ((d l).tag = .int ∨ (d l).tag = .ptr ∨ isPacked (d l).tag = true) ∧
       (b l).tag ≠ .poison ∧ (c l).tag ≠ .poison) →
     ∃ y : Nat → Word, Gives (.bfi h o) h s o.d (fun l => ⟨(d l).tag, y l⟩) ∧
       ∀ l k, k < 64 → bitAt (y l) k =
         if p l ≤ k ∧ k < p l + w l then bitAt (a l).pay (k - p l) else bitAt (d l).pay k)) ∧
  ((∀ (n : Fin 5), ∀ p ∈ ([(Instr.addw, fun x y => x + y), (Instr.subw, fun x y => x - y),
       (fun h o => Instr.lea h n o, fun x y => x + y <<< n.val)] : List ((Hdr → OpBin → Instr) × (Word → Word → Word))),
     ∀ (h : Hdr) (o : OpBin) (s : State),
     let a := opnd s o.a o.sa
     let b := opnd s o.b o.sb
     On (p.1 h o) h s (fun l => ((a l).tag = .int ∨ (a l).tag = .ptr) ∧ (b l).tag = .int) →
     Gives (p.1 h o) h s o.d (fun l => ⟨(a l).tag, p.2 (a l).pay (b l).pay⟩)) ∧
   (∀ p ∈ ([(Instr.mulw, fun x y => x * y), (Instr.mulh, fun x y => wdInt (x.toInt * y.toInt / 2 ^ 64))] :
       List ((Hdr → OpBin → Instr) × (Word → Word → Word))), ∀ (h : Hdr) (o : OpBin) (s : State),
     let a := opnd s o.a o.sa
     let b := opnd s o.b o.sb
     On (p.1 h o) h s (fun l => (a l).tag = .int ∧ (b l).tag = .int) →
     Gives (p.1 h o) h s o.d (fun l => ⟨.int, p.2 (a l).pay (b l).pay⟩)) ∧
   (∀ (h : Hdr) (o : OpBin) (s : State),
     let a := opnd s o.a o.sa
     let b := opnd s o.b o.sb
     On (.ptrd h o) h s (fun l => ((a l).tag = .ptr ∧ (b l).tag = .ptr) ∨ ((a l).tag = .ref ∧ (b l).tag = .ref)) →
     Gives (.ptrd h o) h s o.d (fun l => ⟨.int, (a l).pay - (b l).pay⟩)))

/-- R124, R125, R135-R139, R143, R170, R179: MOV, MOVI, MOVF, MOVL, SEL, GETL, MGET and GETS give what they name, POISON included;
TAGOF gives the number of the tag; TAGAS gives the payload under the new tag, with the bits that tag requires to be zero cleared,
and makes a REF under RT only. GETS CYC is the core's count when the GETS issues, without its own beats. The model's choices: SEL with a
uniform D takes the mask bit of the lowest executing lane (log entry 45); GETL LPC is the GETL's own address (log entry 41). -/
def Obligations.MovesAndTags : Prop :=
  ((∀ (h : Hdr) (o : OpUn) (s : State), On (.mov h o) h s (fun _ => True) → Gives (.mov h o) h s o.d (opnd s o.a o.sa)) ∧
   (∀ (h : Hdr) (d : Reg) (imm : BitVec 31) (s : State), On (.movi h d imm) h s (fun _ => True) →
     Gives (.movi h d imm) h s d (fun _ => ⟨.int, imm.signExtend 64⟩)) ∧
   (∀ (h : Hdr) (d : Reg) (imm : BitVec 31) (s : State), On (.movf h d imm) h s (fun _ => True) →
     Gives (.movf h d imm) h s d (fun _ => ⟨.f32, wd (2 * imm.toNat)⟩)) ∧
   (∀ (h : Hdr) (t : Tag) (d : Reg) (lit : Word) (s : State),
     On (.movl h t d lit) h s (fun _ => t ≠ .ref ∨ rtOn (warpOf s s.cur) = true) →
     Gives (.movl h t d lit) h s d (fun _ => ⟨t, lit⟩)) ∧
   (∀ (h : Hdr) (m : MaskNo) (o : OpBin) (s : State), On (.sel h m o) h s (fun _ => True) →
     Gives (.sel h m o) h s o.d
       (fun l => if maskBit (warpOf s s.cur) m.val l = true then opnd s o.a o.sa l else opnd s o.b o.sb l)) ∧
   (∀ (h : Hdr) (x : LSpec) (d : Reg) (s : State), On (.getl h x d) h s (fun _ => True) →
     let y := fun l => laneOf (warpOf s s.cur) l
     Gives (.getl h x d) h s d (fun l =>
       match x with
       | .laneid => natVal l
       | .lpc => ptrVal ((issuePc (warpOf s s.cur)).getD 0)
       | .elpc => ptrVal (y l).elpc
       | .lopa => (y l).lopa
       | .lopb => (y l).lopb
       | .lopc => (y l).lopc
       | .ldst => ⟨.int, (y l).ldst⟩
       | .lrpc => ptrVal (y l).lrpc
       | .lcdepth => natVal ((y l).csd * 256 + (y l).lcd)
       | .estat => ⟨.int, (y l).estat⟩
       | .stk n => ptrVal (spGet 0 (y l).stk n.toNat))) ∧
   (∀ (h : Hdr) (d : Reg) (m : MaskNo) (s : State), On (.mget h d m) h s (fun _ => True) →
     Gives (.mget h d m) h s d (fun _ => ⟨.int, maskReg (warpOf s s.cur) m.val⟩)) ∧
   (∀ (h : Hdr) (x : WSpec) (d : Reg) (s : State), On (.gets h x d) h s (fun _ => True) →
     Gives (.gets h x d) h s d (fun _ =>
       match x with
       | .cyc => natVal (coreOf s (warpOf s s.cur).core).cyc
       | _ => readSpecial s s.cur x))) ∧
  ((∀ (h : Hdr) (d ra : Reg) (s : State), On (.tagof h d ra) h s (fun _ => True) →
     Gives (.tagof h d ra) h s d (fun l => natVal (tagCode (opnd s ra 0#4 l).tag))) ∧
   (∀ (h : Hdr) (t : Tag) (d ra : Reg) (s : State),
     On (.tagas h t d ra) h s (fun _ => t ≠ .ref ∨ rtOn (warpOf s s.cur) = true) →
     Gives (.tagas h t d ra) h s d (fun l => ⟨t,
       match t with
       | .nil => 0
       | .f32 => (opnd s ra 0#4 l).pay &&& 0xFFFF_FFFF
       | .f16 | .bf16 | .poison => (opnd s ra 0#4 l).pay &&& 0xFFFF
       | .sym => (opnd s ra 0#4 l).pay &&& 0xFFFF_FFFF_FFFF
       | .ref => (opnd s ra 0#4 l).pay &&& 0xFFFF_FFFF_FFF0
       | _ => (opnd s ra 0#4 l).pay⟩)) ∧
   (∀ (h : Hdr) (d ra : Reg) (s : State), issues (.tagas h .ref d ra) h s = true → rtOn (warpOf s s.cur) = false →
     isUni d = false → d ≠ .nil →
     exec (.tagas h .ref d ra) s = .next (trapped (.tagas h .ref d ra) h s
       ((curIx (.tagas h .ref d ra) h s).exe.map (fun l => faultAt (curIx (.tagas h .ref d ra) h s) l .priv)) 0 [])))

/-! ## Across lanes -/

/-- R172-R176: SHFL, SHFLX and BCAST give the value of A in the source lane; VOTE counts the lanes whose A is nonzero; REDUX
gives the value of the pairwise tree, and SCANX what REDUX would give over the executing lanes at or below each lane. Over INT lanes
ADD is the sum where no part of it leaves the range, AND, OR and XOR combine the payloads, MIN and MAX choose; over lanes of one float
tag ADD rounds each combine of the tree, whose stage d combines slot i with slot i + d, and an empty slot takes the other; no lane
gives 0, -1 (AND) or NIL (MIN and MAX). -/
def Obligations.CrossLaneReads : Prop :=
  (∀ mk ∈ ([Instr.shfl, Instr.bcast] : List (Hdr → Reg → Reg → Reg → Instr)), ∀ (h : Hdr) (d ra rb : Reg) (s : State),
    On (mk h d ra rb) h s (fun l => (opnd s rb 0#4 l).tag ≠ .poison) →
    Gives (mk h d ra rb) h s d
      (fun l => readReg (warpOf s s.cur) ra ((opnd s rb 0#4 l).pay.toNat % (warpOf s s.cur).width))) ∧
  (∀ (h : Hdr) (d ra : Reg) (k : BitVec 6) (s : State),
    On (.shflx h d ra k) h s (fun _ => k.toNat < (warpOf s s.cur).width) →
    Gives (.shflx h d ra k) h s d (fun l => readReg (warpOf s s.cur) ra (l ^^^ k.toNat))) ∧
  (∀ (h : Hdr) (k : VoteOp) (d ra : Reg) (s : State), On (.vote h k d ra) h s (fun l => (opnd s ra 0#4 l).tag ≠ .poison) →
    let E := (curIx (.vote h k d ra) h s).exe
    let nz := fun l => decide ((opnd s ra 0#4 l).tag ≠ .nil) && decide ((opnd s ra 0#4 l).pay ≠ 0)
    Gives (.vote h k d ra) h s d (fun _ =>
      match k with
      | .any => natVal (if E.any nz = true then 1 else 0)
      | .all => natVal (if E.all nz = true then 1 else 0)
      | .ballot => ⟨.int, laneSet (E.filter nz)⟩)) ∧
  (∀ (h : Hdr) (k : RedOp) (d ra : Reg) (v : Val) (s : State),
    On (.redux h k d ra) h s (fun _ => redux k (warpOf s s.cur) (curIx (.redux h k d ra) h s).exe ra = .val v) →
    Gives (.redux h k d ra) h s d (fun _ => v)) ∧
  (∀ (h : Hdr) (k : RedOp) (excl : Bool) (d ra : Reg) (v : Nat → Val) (s : State),
    On (.scanx h k excl d ra) h s (fun l => redux k (warpOf s s.cur)
      ((curIx (.scanx h k excl d ra) h s).exe.filter (fun j => decide (j < l) || (!excl && decide (j = l)))) ra = .val (v l)) →
    Gives (.scanx h k excl d ra) h s d v) ∧
  (∀ (f : Int → Int → Int) (k : RedOp), (k = .min ∧ f = min) ∨ (k = .max ∧ f = max) → ∀ (x : Warp) (ra : Reg) (ls : List Nat)
    (n : Nat), x.width = 2 ^ n → (∀ l ∈ ls, l < x.width ∧ (readReg x ra l).tag = .int) → ls ≠ [] →
    ∃ y : Int, redux k x ls ra = .val (intVal y) ∧ (∃ l ∈ ls, y = (readReg x ra l).pay.toInt) ∧
      ∀ l ∈ ls, f y (readReg x ra l).pay.toInt = y) ∧
  (∀ (x : Warp) (ra : Reg) (ls : List Nat) (n : Nat), x.width = 2 ^ n → ls.Nodup → (∀ l ∈ ls, l < x.width) →
    let v := fun l => readReg x ra l
    ((∀ l ∈ ls, (v l).tag = .int) →
      ((ls.map (fun l => (v l).pay.toInt.natAbs)).sum < 2 ^ 63 →
        redux .add x ls ra = .val (intVal (ls.map (fun l => (v l).pay.toInt)).sum)) ∧
      (∀ p ∈ ([(.and, fun a b => a &&& b, -1#64), (.or, fun a b => a ||| b, 0#64), (.xor, fun a b => a ^^^ b, 0#64)] :
          List (RedOp × (Word → Word → Word) × Word)),
        redux p.1 x ls ra = .val ⟨.int, ls.foldl (fun a l => p.2.1 a (v l).pay) p.2.2⟩)) ∧
    (∀ (t : Tag) (y : Val), (t = .f64 ∨ t = .f32 ∨ t = .f16 ∨ t = .bf16) → (∀ l ∈ ls, (v l).tag = t) →
      (List.range n).reverse.foldl
        (fun (z : Nat → Option Val) k i =>
          Option.merge (fun a b => fVal t .rn (sumNum [widen a t, widen b t])) (z i) (z (i + 2 ^ k)))
        (fun l => if l ∈ ls then some (v l) else none) 0 = some y →
      redux .add x ls ra = .val y)) ∧
  (∀ (k : RedOp) (x : Warp) (ra : Reg), redux k x [] ra = .val (match k with
    | .min | .max => nilVal
    | .and => intVal (-1)
    | _ => natVal 0))

/-! ## The warp's own state -/

/-- R140, R142, R143, R178, R180: SETL writes each executing lane's special. SETS writes the warp special from the lowest executing lane;
TVEC and TRAPV lose bits [2:0], STATUS keeps TIP; NURS, NLIM, TVEC and TRAPV need RT or SUPER, and RT and SUPER change under SUPER alone;
without them PRIV is raised. ALLOC gives each acting lane with a legal size a REF to its own stretch of the nursery, in lane order, each
size rounded up to 16 bytes, and advances NURS by all of them; another size gives NIL; when the nursery has no room every acting lane has
the cause NURSERY, and EADDR holds the bytes asked for.
The model's choices: SETS takes the value of the lowest executing lane (log entry 34) and raises PRIV in that lane alone (log entry 40);
NURSERY is raised in every acting lane (log entry 47); an ALLOC whose destination is NIL and whose operand is uniform acts once (log
entry 31). -/
def Obligations.WarpSpecialsAndTheNursery : Prop :=
  (∀ (h : Hdr) (x : LSpec) (ra : Reg) (s : State),
    let v := fun l => opnd s ra 0#4 l
    On (.setl h x ra) h s (fun l => match x with
      | .elpc | .lrpc | .stk _ => (v l).tag = .int ∨ (v l).tag = .ptr
      | .ldst => (v l).tag = .int ∧ ldstLegal (warpOf s s.cur) (v l).pay = true
      | .estat => (v l).tag = .int
      | _ => True) →
    Turns (.setl h x ra) h s id (fun l y =>
      if l ∈ (curIx (.setl h x ra) h s).exe then
        match x with
        | .elpc => { y with elpc := (v l).pay }
        | .lopa => { y with lopa := v l }
        | .lopb => { y with lopb := v l }
        | .lopc => { y with lopc := v l }
        | .ldst => { y with ldst := wd ((v l).pay.toNat % 2 ^ 22) }
        | .lrpc => { y with lrpc := (v l).pay }
        | .estat => { y with estat := wd ((v l).pay.toNat % 2 ^ 24) }
        | .stk n => { y with stk := spSet 0 y.stk n.toNat (v l).pay }
        | _ => y
      else y)) ∧
  (∀ (h : Hdr) (x : WSpec) (ra : Reg) (s : State),
     let i := Instr.sets h x ra
     let w := warpOf s s.cur
     let v := opnd s ra 0#4 (curIx i h s).low
     (On i h s (fun _ => match x with
         | .nurs | .nlim | .tvec | .trapv => (v.tag = .int ∨ v.tag = .ptr) ∧ (rtOn w = true ∨ super w = true)
         | .eaddr => v.tag = .int ∨ v.tag = .ptr
         | .cause => v.tag = .int
         | .status => v.tag = .int ∧ fld v.pay 8 5 ≠ 0 ∧ (super w = true ∨ fld v.pay 1 2 = fld w.status 1 2)
         | _ => False) →
       Turns i h s (fun w => match x with
         | .nurs => { w with nurs := v.pay }
         | .nlim => { w with nlim := v.pay }
         | .tvec => { w with tvec := v.pay &&& ~~~ 7 }
         | .trapv => { w with trapv := v.pay &&& ~~~ 7 }
         | .cause => { w with cause := v.pay &&& 0xFFFF_FFFF }
         | .eaddr => { w with eaddr := v }
         | _ => { w with status := (v.pay &&& 0x1F07) ||| (w.status &&& 8) }) (fun _ y => y)) ∧
     (On i h s (fun _ => (x = .nurs ∨ x = .nlim ∨ x = .tvec ∨ x = .trapv) ∧ (v.tag = .int ∨ v.tag = .ptr) ∧
         rtOn w = false ∧ super w = false) →
       exec i s = .next (trapped i h s [faultAt (curIx i h s) (curIx i h s).low .priv] 0 [])) ∧
     (On i h s (fun _ => x = .status ∧ v.tag = .int ∧ fld v.pay 8 5 ≠ 0 ∧ super w = false ∧ fld v.pay 1 2 ≠ fld w.status 1 2) →
       exec i s = .next (trapped i h s [faultAt (curIx i h s) (curIx i h s).low .priv] 0 []))) ∧
  (∀ (h : Hdr) (d ra : Reg) (s : State),
     let i := Instr.alloc h d ra
     let ix := curIx i h s
     let w := warpOf s s.cur
     let ls := if isUni d = true ∨ (d = .nil ∧ isLane ra = false) then [ix.low] else ix.exe
     let size := fun l => if (opnd s ra 0#4 l).tag = .int ∧ 1 ≤ (opnd s ra 0#4 l).pay.toInt ∧
         (opnd s ra 0#4 l).pay.toInt ≤ 2 ^ 24 - 16 then ((opnd s ra 0#4 l).pay.toNat + 15) / 16 * 16 else 0
     let base := w.nurs.toNat / 16 * 16
     let total := (ls.map size).sum
     (On i h s (fun l => (opnd s ra 0#4 l).tag ≠ .poison) → base + total ≤ w.nlim.toNat / 16 * 16 →
       ∃ t, exec i s = .next t ∧ Gave i h s t (fun w => { w with nurs := wd (base + total) }) d (fun l =>
         if size l = 0 then nilVal
         else ⟨.ref, canonPay .ref (wd (base + ((ls.filter (fun j => decide (j < l))).map size).sum))⟩)) ∧
     (On i h s (fun l => (opnd s ra 0#4 l).tag ≠ .poison) → w.nlim.toNat / 16 * 16 < base + total →
       exec i s = .next (trapped i h s (ls.map (fun l => ⟨l, .nursery, 0, natVal total⟩)) 0 [])))

/-! ## Control -/

/-- R41, R96, R155, R162, R164, R165, R166: BRA, CALL, RET, JMPI and LCALL move the executing lanes in which the condition holds; CALL
pushes and RET pops the return address; LCALL enters a lane call whose result is discarded, saving an outer call on the lane's stack;
the other lanes only advance.
The model's choices: LDST of a discarded result has DKIND 2 and DREG 0xFF (log entry 20). -/
def Obligations.TransfersMoveLanes : Prop :=
  let holds := fun (s : State) (i : Instr) (h : Hdr) (c : Cond) (l : Nat) =>
    l ∈ (curIx i h s).exe ∧ condHolds (warpOf s s.cur) c l = true
  let clean := fun (s : State) (c : Cond) (l : Nat) => ∀ r, condReg c = some r → (opnd s r 0#4 l).tag ≠ .poison
  (∀ (h : Hdr) (o : OpBr) (s : State),
    let i := Instr.bra h o
    On i h s (clean s o.cond) →
    Turns i h s id (fun l y => if holds s i h o.cond l then { y with lpc := (curIx i h s).pc + wdInt (8 * o.off.toInt) } else y)) ∧
  (∀ (h : Hdr) (o : OpBr) (s : State),
    let i := Instr.call h o
    On i h s (fun l => clean s o.cond l ∧ (holds s i h o.cond l → (laneOf (warpOf s s.cur) l).csd < 16)) →
    Turns i h s id (fun l y =>
      if holds s i h o.cond l then
        { y with stk := spSet 0 y.stk y.csd ((curIx i h s).pc + 8), csd := y.csd + 1,
                 lpc := (curIx i h s).pc + wdInt (8 * o.off.toInt) }
      else y)) ∧
  (∀ (h : Hdr) (c : Cond) (s : State),
    let i := Instr.ret h c
    let top := fun (y : Lane) => spGet 0 y.stk (y.csd - 1)
    On i h s (fun l => clean s c l ∧
      (holds s i h c l → 0 < (laneOf (warpOf s s.cur) l).csd ∧ fld (top (laneOf (warpOf s s.cur) l)) 0 3 = 0)) →
    Turns i h s id (fun l y => if holds s i h c l then { y with csd := y.csd - 1, lpc := top y } else y)) ∧
  (∀ (h : Hdr) (rb : Reg) (s : State),
    let i := Instr.jmpi h rb
    On i h s (fun l => ((opnd s rb 0#4 l).tag = .ptr ∨ (opnd s rb 0#4 l).tag = .int) ∧
      fld (opnd s rb 0#4 l).pay 48 16 = 0 ∧ fld (opnd s rb 0#4 l).pay 0 3 = 0) →
    Turns i h s id (fun l y => if l ∈ (curIx i h s).exe then { y with lpc := (opnd s rb 0#4 l).pay } else y)) ∧
  (∀ (h : Hdr) (o : OpBr) (s : State),
    let i := Instr.lcall h o
    On i h s (fun l => clean s o.cond l ∧ (holds s i h o.cond l → (laneOf (warpOf s s.cur) l).lcd ≠ 4 ∧
      ((laneOf (warpOf s s.cur) l).lcd = 0 ∨ (laneOf (warpOf s s.cur) l).csd ≤ 14))) →
    Turns i h s id (fun l y =>
      if holds s i h o.cond l then
        { y with lpc := (curIx i h s).pc + wdInt (8 * o.off.toInt), lrpc := (curIx i h s).pc + 8, ldst := 0x2000FF,
                 lcd := y.lcd + 1,
                 stk := if y.lcd = 0 then y.stk else spSet 0 (spSet 0 y.stk y.csd y.lrpc) (y.csd + 1) y.ldst,
                 csd := if y.lcd = 0 then y.csd else y.csd + 2 }
      else y))

/-- R94-R97, R106, R113: of ADD, SUB, MUL, DIV and REM, in every lane that acts, a SYM meets its class's handler and an integer result that does
not fit, or is undefined, the handler of class 14; CMPM of a SYM and an INT meets that of class 6 with a mask destination. Each such lane
enters the handler whose address the table holds for the class and the tags: LOPA and LOPB hold the operands, LDST the key and the
destination, LRPC the next address; a lane already in a handler saves LRPC and LDST on its call stack. The other lanes complete; no
calling lane's register or mask bit changes. A destination that is uniform acts in the lowest executing lane alone.
The model's choices: LDST of a discarded result has DKIND 2 and DREG 0xFF (log entry 20). -/
def Obligations.UnexecutedPairCallsItsHandler : Prop :=
  let dst : Reg → Nat × Nat := fun d =>
    match d with
    | .lane n => (0, n.toNat)
    | .uni n => (0, 128 + n.toNat)
    | .nil => (2, 255)
  let call := fun (ix : Ix) (k : Nat × Nat × Nat) (x : Nat × Nat) (l : Nat) (a b : Val) =>
    (⟨l, k.1, k.2.1, k.2.2, a, b, nilVal, x.1, x.2, ix.next⟩ : LCall)
  let entered := fun (u t : State) (k : LCall) (entry : Word) =>
    let y := laneOf (warpOf u u.cur) k.lane
    let z := laneOf (warpOf t u.cur) k.lane
    z.lopa = k.a ∧ z.lopb = k.b ∧ z.lopc = nilVal ∧
      z.ldst = wd (k.dreg + 2 ^ 8 * k.cls + 2 ^ 12 * k.ta + 2 ^ 16 * k.tb + 2 ^ 20 * k.dkind) ∧
      z.lrpc = k.back ∧ z.lpc = entry ∧ z.lcd = y.lcd + 1 ∧
      (1 ≤ y.lcd → z.csd = y.csd + 2 ∧ spGet 0 z.stk y.csd = y.lrpc ∧ spGet 0 z.stk (y.csd + 1) = y.ldst) ∧
      (y.lcd = 0 → z.csd = y.csd)
  let others := fun (u t : State) (ks : List LCall) =>
    (∀ m, maskReg (warpOf t u.cur) m = maskReg (warpOf u u.cur) m) ∧
      ∀ l, (∀ k ∈ ks, k.lane ≠ l) → laneOf (warpOf t u.cur) l = { laneOf (warpOf u u.cur) l with resv := (laneOf (warpOf t u.cur) l).resv }
  (∀ p ∈ ([(Instr.add, 0, fun x y => some (x + y)), (Instr.sub, 1, fun x y => some (x - y)), (Instr.mul, 2, fun x y => some (x * y)),
      (Instr.div, 3, fun x y => if y = 0 ∨ (x = -(2 ^ 63) ∧ y = -1) then none else some (x.tdiv y)),
      (Instr.rem, 4, fun x y => if y = 0 ∨ (x = -(2 ^ 63) ∧ y = -1) then none else some (x.tmod y))] :
      List ((Hdr → OpBinE → Instr) × Nat × (Int → Int → Option Int))), ∀ (h : Hdr) (o : OpBinE) (s : State),
    let i := p.1 h o
    let ix := curIx i h s
    let a := opnd s o.a o.sa
    let b := opnd s o.b o.sb
    let acting := if isUni o.d = true ∨ (o.d = .nil ∧ isLane o.a = false ∧ isLane o.b = false) then [ix.low] else ix.exe
    let out : Nat → Option Val := fun l =>
      if (a l).tag = .int then
        (p.2.2 (a l).pay.toInt (b l).pay.toInt).bind (fun z => if Fits z then some ⟨.int, wdInt z⟩ else none)
      else none
    let key := fun l => if (a l).tag = .int then (14, p.2.1, 1) else (p.2.1, 9, tagCode (b l).tag)
    let ks := (acting.filter (fun l => (out l).isNone)).map (fun l => call ix (key l) (dst o.d) l (a l) (b l))
    let c := checkCalls (began i h s) ix ks
    On i h s (fun l => ((a l).tag = .int ∧ (b l).tag = .int) ∨ ((a l).tag = .sym ∧ (b l).tag ≠ .poison)) →
    c.misses = [] → c.faults = [] →
    ∃ t, exec i s = .next t ∧ c.entries.map (·.1) = ks ∧ (∀ e ∈ c.entries, entered c.s t e.1 e.2) ∧ others c.s t ks ∧
      (∀ l ∈ acting, ∀ v, out l = some v → o.d ≠ .nil → readReg (warpOf t s.cur) o.d l = v) ∧
      ∀ r k, (∀ l ∈ acting, (out l).isSome = true → isDest o.d r l k = false) →
        readReg (warpOf t s.cur) r k = readReg (warpOf c.s s.cur) r k) ∧
  (∀ (h : Hdr) (cc : Cc) (m : MaskNo) (ra rb : Reg) (sa sb : BitVec 4) (e : Elt) (s : State),
    let i := Instr.cmpm h cc m ra rb sa sb e
    let ix := curIx i h s
    let a := opnd s ra sa
    let b := opnd s rb sb
    let ks := ix.exe.map (fun l => call ix (6, 9, 1) (1, m.val) l (a l) (b l))
    let c := checkCalls (began i h s) ix ks
    cc ≠ .tageq → On i h s (fun l => (a l).tag = .sym ∧ (b l).tag = .int) → c.misses = [] → c.faults = [] →
    ∃ t, exec i s = .next t ∧ c.entries.map (·.1) = ks ∧ (∀ e ∈ c.entries, entered c.s t e.1 e.2) ∧ others c.s t ks ∧
      ∀ r k, readReg (warpOf t s.cur) r k = readReg (warpOf c.s s.cur) r k)

/-- R66, R99, R177: LRET writes each executing lane's value to the destination its LDST names (a lane register; a uniform register; a mask
bit: 1 when the payload is not zero; nothing) and returns the lane to LRPC one call up, taking LDST and LRPC of the outer call from the
stack, of LDST the 22 bits that it has. Registers and mask bits that no executing lane names keep their values, a written mask holds no bit
of a lane that has exited, and the other lanes only advance. A lane without a call, with an illegal LDST or a stack that is too short
traps ILL.
The model's choices: LRET waits while a destination that is named awaits a result (log entry 38), and a uniform register that several
lanes name takes the lowest one's value (log entry 44). -/
def Obligations.LretReturnsTheValue : Prop :=
  ∀ (h : Hdr) (ra : Reg) (s : State),
    let i := Instr.lret h ra
    let ix := curIx i h s
    let w := warpOf s s.cur
    let dst := fun l => ldstTarget (laneOf w l).ldst
    let ok := fun l => lretOk w (laneOf w l)
    (On i h s (fun l => ok l = true ∧ lretPending w l = false) → (∀ l, isWaiting (laneOf w l) = false) →
      ∃ t, exec i s = .next t ∧ SameBeside i h s t ∧ SameSpecials w (warpOf t s.cur) ∧
        (∀ l,
          let y := laneOf w l
          let z := laneOf (warpOf t s.cur) l
          let up := decide (2 ≤ y.lcd)
          (z.resv = y.resv ∨ z.resv = none) ∧
          z = if l ∈ ix.exe then
              { y with lpc := y.lrpc, lcd := y.lcd - 1, csd := if up then y.csd - 2 else y.csd,
                       ldst := if up then wd (fld (spGet 0 y.stk (y.csd - 1)) 0 22) else y.ldst,
                       lrpc := if up then spGet 0 y.stk (y.csd - 2) else y.lrpc, resv := z.resv }
            else { advanced i h s l with resv := z.resv }) ∧
        (∀ l ∈ ix.exe, ∀ n, dst l = .reg (.lane n) → readReg (warpOf t s.cur) (.lane n) l = opnd s ra 0#4 l) ∧
        (∀ l ∈ ix.exe, ∀ n, dst l = .reg (.uni n) → (∀ j ∈ ix.exe, dst j = .reg (.uni n) → l ≤ j) →
          ∀ k, readReg (warpOf t s.cur) (.uni n) k = opnd s ra 0#4 l) ∧
        (∀ r k, (∀ l ∈ ix.exe, ∀ q, dst l = .reg q → isDest q r l k = false) →
          readReg (warpOf t s.cur) r k = readReg w r k) ∧
        (∀ m, (∀ l ∈ ix.exe, dst l ≠ .mask m) → maskReg (warpOf t s.cur) m = maskReg w m) ∧
        (∀ l ∈ ix.exe, ∀ m, dst l = .mask m → ∀ k, k < 64 → maskBit (warpOf t s.cur) m k = (decide (k ∈ aliveLanes w) &&
          if k ∈ ix.exe ∧ dst k = .mask m then decide ((opnd s ra 0#4 k).pay ≠ 0) else maskBit w m k))) ∧
    (On i h s (fun l => ok l = true) → (∃ l ∈ ix.exe, lretPending w l = true) →
      exec i s = .next (waited i h s (began i h s) .drain)) ∧
    (issues i h s = true → (∃ l ∈ ix.exe, ok l = false) →
      exec i s = .next (trapped i h s ((ix.exe.filter (fun l => !ok l)).map (fun l => faultAt ix l .ill)) 0 []))

/-- R151, R152, R167-R169: a lane that EXITs leaves every mask and loses its reservation and its lane calls, and with no lane left the
warp ends; LEAVE takes the executing lanes out of the mask; at a JOIN the executing lanes of the mask wait until every lane of the mask
stands there, and then all pass; other lanes only advance. MSET and MOPS write the whole mask once for the warp; a POISON source of
MSET.nz or MSET.bits traps; their words use no other field, and their other MOD codes are no instruction.
The model's choices: EXIT discards the lane's calls, so LCD is 0 and the rest of them stands (log entry 43); MSET.bits, which acts
once, traps in the lowest executing lane (log entry 40). -/
def Obligations.MasksExitLeaveAndJoin : Prop :=
  (∀ (h : Hdr) (c : Cond) (s : State),
    let i := Instr.exit h c
    let w := warpOf s s.cur
    let out := fun l => l ∈ (curIx i h s).exe ∧ condHolds w c l = true
    On i h s (fun l => ∀ r, condReg c = some r → (opnd s r 0#4 l).tag ≠ .poison) →
    ∃ t, exec i s = .next t ∧
      (∀ r k, readReg (warpOf t s.cur) r k = readReg w r k) ∧
      (∀ m k, k < 64 → maskBit (warpOf t s.cur) m k = (maskBit w m k && !decide (out k))) ∧
      ((∀ l, isWaiting (laneOf w l) = false) → ∀ l,
        let z := laneOf (warpOf t s.cur) l
        if out l then z = { advanced i h s l with act := .exited, resv := none, lcd := 0 }
        else z = { advanced i h s l with resv := z.resv }) ∧
      (w.live = true → (warpOf t s.cur).live = decide (∃ l, l ∈ aliveLanes w ∧ ¬ out l))) ∧
  (∀ (h : Hdr) (m : MaskNo) (s : State),
    let i := Instr.leave h m
    On i h s (fun _ => True) →
    Marks i h s m (fun k => maskBit (warpOf s s.cur) m.val k && !decide (k ∈ (curIx i h s).exe))) ∧
  (∀ (h : Hdr) (m : MaskNo) (s : State),
    let i := Instr.join h m
    let ix := curIx i h s
    let w := warpOf s s.cur
    let here := fun l => l ∈ ix.exe ∧ maskBit w m.val l = true
    let there := fun l => (laneOf w l).lpc = ix.pc ∧ l ∉ ix.grp ∧
      ((laneOf w l).act = .ready ∨ ∃ n, (laneOf w l).act = .waiting ix.pc n)
    let mine := fun l => l < w.width ∧ maskBit w m.val l = true
    On i h s (fun _ => True) →
    ((∀ l, ¬ here l) → Turns i h s id (fun _ y => y)) ∧
    ((∃ l, here l) → (∀ l, mine l → here l ∨ there l) →
      Turns i h s id (fun l y => if mine l then { y with lpc := ix.pc + 8, act := .ready } else y)) ∧
    ((∃ l, mine l ∧ ¬ here l ∧ ¬ there l) →
      Turns i h s id (fun l y => if here l then { y with lpc := ix.pc, act := .waiting ix.pc m } else y))) ∧
  (∀ (h : Hdr) (k : MsetKind) (m : MaskNo) (ra : Reg) (s : State),
    let i := Instr.mset h k m ra
    On i h s (fun l => (k = .nz ∨ k = .bits) → (opnd s ra 0#4 l).tag ≠ .poison) →
    Marks i h s m (fun l =>
      match k with
      | .exec => decide (l ∈ (curIx i h s).exe)
      | .all => true
      | .zero => false
      | .nz => decide (l ∈ (curIx i h s).exe) && decide ((opnd s ra 0#4 l).tag ≠ .nil ∧ (opnd s ra 0#4 l).pay ≠ 0)
      | .bits => bitAt (opnd s ra 0#4 (curIx i h s).low).pay l)) ∧
  (∀ (h : Hdr) (k : MopsOp) (d a b : MaskNo) (s : State),
    let i := Instr.mops h k d a b
    let x := fun l => maskBit (warpOf s s.cur) a.val l
    let y := fun l => maskBit (warpOf s s.cur) b.val l
    On i h s (fun _ => True) →
    Marks i h s d (fun l =>
      match k with
      | .and => x l && y l
      | .or => x l || y l
      | .xor => x l != y l
      | .andn => x l && !y l
      | .not => !x l
      | .copy => x l)) ∧
  (∀ (h : Hdr) (m : MaskNo) (ra : Reg) (s : State),
    let at_ := fun (i : Instr) (l : Nat) => (⟨l, .poison, fld (opnd s ra 0#4 l).pay 0 16, ptrVal (curIx i h s).pc⟩ : LFault)
    (let i := Instr.mset h .nz m ra
     issues i h s = true → (∃ l ∈ (curIx i h s).exe, (opnd s ra 0#4 l).tag = .poison) →
     exec i s = .next (trapped i h s (((curIx i h s).exe.filter (fun l => decide ((opnd s ra 0#4 l).tag = .poison))).map (at_ i)) 0 [])) ∧
    (let i := Instr.mset h .bits m ra
     issues i h s = true → (opnd s ra 0#4 (curIx i h s).low).tag = .poison →
     exec i s = .next (trapped i h s [at_ i (curIx i h s).low] 0 []))) ∧
  (∀ (w lit : Word) (h : Hdr),
    (∀ k m ra, decodeWords w lit = .ok (.mset h k m ra) → fld w 51 8 = 0x67 ∧ fld w 39 8 = m.val ∧ fld w 7 24 = 0 ∧ fld w 0 3 = 0 ∧
      fld w 3 4 = msetCode k ∧ (k ≠ .nz → k ≠ .bits → fld w 31 8 = 0) ∧ (k = .bits → isLane ra = false)) ∧
    (∀ k d a b, decodeWords w lit = .ok (.mops h k d a b) → fld w 51 8 = 0x68 ∧ fld w 39 8 = d.val ∧ fld w 31 8 = a.val ∧
      fld w 23 8 = b.val ∧ fld w 7 16 = 0 ∧ fld w 0 3 = 0 ∧ fld w 3 4 = mopsCode k ∧ (k = .not ∨ k = .copy → b.val = 0)) ∧
    ((fld w 51 8 = 0x67 ∧ 5 ≤ fld w 3 4) ∨ (fld w 51 8 = 0x68 ∧ 6 ≤ fld w 3 4) → ∃ e, decodeWords w lit = .error e))

/-- R171: ELECT sets exactly the lowest-numbered executing lane's bit of the mask and clears every other, lanes 0 to 63 counted at width
64; its word uses no other field, and a word that does is no instruction. -/
def Obligations.ElectWritesTheLowestLane : Prop :=
  (∀ (h : Hdr) (m : MaskNo) (s : State),
    let i := Instr.elect h m
    On i h s (fun _ => True) →
    (curIx i h s).low ∈ (curIx i h s).exe ∧ (∀ l ∈ (curIx i h s).exe, (curIx i h s).low ≤ l) ∧
      Marks i h s m (fun l => decide (l = (curIx i h s).low))) ∧
  (∀ (w lit : Word) (h : Hdr),
    (∀ m, decodeWords w lit = .ok (.elect h m) → fld w 51 8 = 0x7B ∧ fld w 39 8 = m.val ∧ fld w 0 39 = 0) ∧
    (fld w 51 8 = 0x7B → fld w 0 39 ≠ 0 → ∃ e, decodeWords w lit = .error e))

/-! ## Traps -/

/-- R156-R158, R160, R182: TRAP and BKPT with no load outstanding enter the handler at TRAPV: CAUSE holds the lowest lane, the number
and the code, EADDR the instruction's address, TIP is set, and every lane of the warp that has not exited stands ready at TRAPV,
its ELPC holding where it stood, the next instruction for the lanes that executed, and ESTAT the code in those lanes. Registers and
masks keep their values. Under TIP, or with TRAPV 0, the warp halts. TRET under TIP sends every lane of the warp to its ELPC,
ready, and clears TIP; without TIP it raises ILL.
The model's choices: exited and inactive lanes stay as they are (log entry 30); TRAP and BKPT report in every executing lane, TRET in
the lowest (log entry 40). -/
def Obligations.TrapsEnterAndReturn : Prop :=
  (∀ p ∈ ([(Instr.trap, 0x71), (Instr.bkpt, 0x70)] : List ((Hdr → BitVec 16 → Instr) × Nat)),
     ∀ (h : Hdr) (n : BitVec 16) (s : State),
     let i := p.1 h n
     let ix := curIx i h s
     let w := warpOf s s.cur
     issues i h s = true → outstanding s s.cur = false →
     (tip w = false → w.trapv ≠ 0 → ∃ t, exec i s = .next t ∧
       (let x := warpOf t s.cur
        x.cause = wd (ix.low * 2 ^ 24 + n.toNat * 256 + p.2) ∧ x.eaddr = ptrVal ix.pc ∧ x.status = w.status ||| 8 ∧
        x.tvec = w.tvec ∧ x.trapv = w.trapv ∧ x.nurs = w.nurs ∧ x.nlim = w.nlim ∧ x.halted = w.halted ∧
        (∀ r k, readReg x r k = readReg w r k) ∧ (∀ m, maskReg x m = maskReg w m) ∧
        ∀ l ∈ aliveLanes w, laneOf x l = { laneOf w l with
          elpc := if l ∈ ix.exe then ix.pc + 8 else (laneOf w l).lpc,
          estat := if l ∈ ix.exe then wd p.2 else 0, resv := none, act := .ready, lpc := w.trapv }) ∧
       (∀ v, v ≠ s.cur → warpOf t v = warpOf s v) ∧ ∀ a, memByte t a = memByte s a) ∧
     (tip w = true ∨ w.trapv = 0 → ∃ t, exec i s = .next t ∧ (warpOf t s.cur).halted = true ∧
       (∀ l, laneOf (warpOf t s.cur) l = { laneOf w l with resv := (laneOf (warpOf t s.cur) l).resv }) ∧
       ∀ r k, readReg (warpOf t s.cur) r k = readReg w r k)) ∧
  (∀ (h : Hdr) (s : State),
     let i := Instr.tret h
     let w := warpOf s s.cur
     issues i h s = true →
     (tip w = true → Turns i h s (fun w => { w with status := w.status &&& ~~~ 8 }) (fun l y =>
       if l < w.width then { y with lpc := y.elpc, act := if isAlive y = true then .ready else y.act } else y)) ∧
     (tip w = false → exec i s = .next (trapped i h s [faultAt (curIx i h s) (curIx i h s).low .ill] 0 [])))

/-- R183: NOP changes nothing; YIELD ends the run; SLEEP waits 16 n cycles from its issue, and SLEEP 0 is YIELD.
The model's choices: SLEEP counts from its issue (log entry 28). -/
def Obligations.NopYieldSleep : Prop :=
  (∀ (h : Hdr) (s : State), On (.nop h) h s (fun _ => True) → Turns (.nop h) h s id (fun _ y => y)) ∧
  (∀ (h : Hdr) (s : State), On (.yield h) h s (fun _ => True) →
    Turns (.yield h) h s (fun w => { w with wait := .yield }) (fun _ y => y)) ∧
  (∀ (h : Hdr) (n : BitVec 16) (s : State), On (.sleep h n) h s (fun _ => True) →
    let till := (coreOf s (warpOf s s.cur).core).cyc + 16 * n.toNat
    let ix := curIx (.sleep h n) h s
    Turns (.sleep h n) h s (fun w => { w with wait := if n = 0 then .yield else .sleep till ix.pc ix.grp }) (fun _ y => y))

/-- R30, R31, R45, R79, R101, R102, R113, R156: every instruction with an illegal form, or a register the warp does not have, traps ILL
in every lane at its address with nothing else of it done, unless an error of a register is due; that masked-off lanes report it too is
the model's choice (log entry 98). CMPM of a POISON operand traps POISON with the operand's code. -/
def Obligations.IllegalFormsAndPoisonTrap : Prop :=
  (∀ (i : Instr) (s : State),
    let h := Machine.hdrOf i
    let w := warpOf s s.cur
    (bodyOf i).isSome = true → (issuePc w).isSome = true → canIssue w = true → w.mchkNext = false →
    (legal i = false ∨ regsInRange w i = false) →
    exec i s = .next (trapped i h s ((curIx i h s).grp.map (fun l => faultAt (curIx i h s) l .ill)) 0 [])) ∧
  (∀ (h : Hdr) (cc : Cc) (m : MaskNo) (ra rb : Reg) (sa sb : BitVec 4) (e : Elt) (s : State),
    let i := Instr.cmpm h cc m ra rb sa sb e
    On i h s (fun l => (opnd s ra sa l).tag = .poison) →
    exec i s = .next (trapped i h s ((curIx i h s).exe.map (fun l =>
      ⟨l, .poison, fld (opnd s ra sa l).pay 0 16, ptrVal (curIx i h s).pc⟩)) 0 []))

/-! ## Memory -/

/-- R39, R71, R187, R222-R226, R230: LD, LDR, LR and LDH whose addresses are all translated, permitted and aligned, with room in
the request table and no earlier atomic or append to their lines, perform in lane order: the values that loadAll reads are on
their way to the destination, healed slots are written, LR takes its reservations, and an acquire takes effect.
The model's choices: the accesses of one instruction perform in one step (log entry 15); an acquire drops clean bytes (log entry 10);
LR reads at the home (log entry 21); an entry of the request table for each lane (log entry 24). -/
def Obligations.PlannedLoadsComplete : Prop :=
  let load := fun (i : Instr) (h : Hdr) (s : State) (k : LdKind) (tagOnly : Bool) (d ra rb : Reg) (sc : Scope) (ord : Ord4)
      (racq : Bool) (off : BitVec 13) =>
    let b := began i h s
    let ix := curIx i h s
    let p := (planMem b ix (actLanes ix (.reg d) [ra, rb]) ra rb off (ldSize k) (ldSize k) [.r] true).check
      (kindFaults b tagOnly (ldSize k))
    let r := loadAll p.s ix k (if racq = true then some sc else none) d p.accs
    issues i h s = true → Ready p → mustDrain p.s s.cur p.accs = false →
    p.accs.length ≤ reqRoom p.s (warpOf p.s s.cur).core → r.calls = [] → r.misses = [] → r.faults = [] →
    Ends i h s (finishLoads r.s ix k d (if ord = .acq then some sc else none) p.accs r.vals)
  (∀ (h : Hdr) (o : OpMem) (s : State), load (.ld h o) h s .ld true o.d o.a o.b o.scope o.ord o.racq o.off) ∧
  (∀ (h : Hdr) (o : OpMemF) (s : State), load (.ldr h o) h s (.ldr o.fmt) false o.d o.a o.b o.scope o.ord o.racq o.off) ∧
  (∀ (h : Hdr) (o : OpMem) (s : State), load (.lr h o) h s .lr true o.d o.a o.b o.scope o.ord o.racq o.off) ∧
  (∀ (h : Hdr) (d ra rb : Reg) (off : BitVec 13) (s : State),
    let i := Instr.ldh h d ra rb off
    let b := began i h s
    let ix := curIx i h s
    let p := (planMem b ix (actLanes ix (.reg d) [ra, rb]) ra rb off 8 8 [.r] false).check (kindFaults b true 8)
    let r := p.accs.foldl (fun (a : State × List (Acc × Val)) q => ((ldhLane a.1 ix q).1, a.2 ++ [(q, (ldhLane a.1 ix q).2)])) (p.s, [])
    issues i h s = true → Ready p → mustDrain p.s s.cur p.accs = false →
    p.accs.length ≤ reqRoom p.s (warpOf p.s s.cur).core → (∀ e ∈ r.2, e.2.tag ≠ .pend) →
    Ends i h s (r.2.foldl (fun u e => sendVal u ix d e.1.lane e.1.pa e.2) r.1))

/-- R39, R71, R72, R187, R212, R224: one lane's plain LDR (or LD in a tagged region) of a word that the core's L1 holds asks for
the value that the word's bytes give in the format (or the word with its tag), and marks the destination pending; no register,
mask or memory byte changes, nor anything in any L1. A plain store puts the low bytes of its payload at its address in the core's L1,
valid and dirty, with the tag ST or the format gives in a tagged region; every other byte of that word, every other L1 word, the L2,
memory and every register read as before.
The model's choices: the access performs in one step (log entry 15). -/
def Obligations.CachedWordsAreReadAndWritten : Prop :=
  (∀ (i : Instr) (h : Hdr) (ra rb : Reg) (n : BitVec 7) (off : Int) (size : Nat) (val : CWord → Nat → Val)
    (ok : CWord → Leaf → Prop) (s : State) (l va pa : Nat) (leaf : Leaf),
    (∃ o : OpMemF, i = .ldr h o ∧ o.d = .lane n ∧ o.a = ra ∧ o.b = rb ∧ o.ord = .plain ∧ o.racq = false ∧
      size = mfmtSize o.fmt ∧ off = o.off.toInt * size ∧
      val = (fun w p => mfmtVal o.fmt (fld w.data (8 * (p % 8)) (8 * size))) ∧ ok = (fun w f => f.t = true → w.tag ≠ .fwd ∧ w.tag ≠ .pend)) ∨
    (∃ o : OpMem, i = .ld h o ∧ o.d = .lane n ∧ o.a = ra ∧ o.b = rb ∧ o.ord = .plain ∧ o.racq = false ∧
      size = 8 ∧ off = o.off.toInt * size ∧ val = (fun w _ => ⟨w.tag, canonPay w.tag w.data⟩) ∧
      ok = (fun w f => f.t = true ∧ w.tag ≠ .fwd ∧ w.tag ≠ .pend ∧ w.tag ≠ .ref)) →
    let b := began i h s
    let a := opnd s ra 0#4 l
    let c := (warpOf s s.cur).core
    let w := l1Of s c (pa / 8)
    issues i h s = true → (curIx i h s).exe = [l] → addrCause a = none → indexCause (opnd s rb 0#4 l) = none → a.tag ≠ .ref →
    addrSum a (opnd s rb 0#4 l) off = some va → translate b s.cur va .r = .ok pa leaf → va % size = 0 →
    isMmio b pa = false → lineBusy b s.cur (pa / 256) = false → 1 ≤ reqRoom b c → w.valid = 0xFF → w.bad = false → ok w leaf →
    ∃ t k, exec i s = .next t ∧
      spGet none (coreOf t c).reqs k =
        some { warp := s.cur, outs := [(.lane n.toNat l, some (val w pa))], atomic := false, pa := pa, bar := false } ∧
      spGet 0 (warpOf t s.cur).pend n.toNat = spGet 0 (warpOf s s.cur).pend n.toNat + 1 ∧
      (∀ r j, readReg (warpOf t s.cur) r j = readReg (warpOf s s.cur) r j) ∧
      (∀ m, maskReg (warpOf t s.cur) m = maskReg (warpOf s s.cur) m) ∧ (∀ d j, l1Of t d j = l1Of s d j) ∧
      ∀ x, memByte t x = memByte s x) ∧
  (∀ (s : State) (ix : Ix) (k : StKind) (q : Acc) (v : Val),
    let c := (warpOf s ix.w).core
    let j := q.pa / 8
    let t := storeLane s ix k none q v
    let old := l1Of s c j
    let new := l1Of t c j
    let hit := fun b => decide (q.pa % 8 ≤ b ∧ b < q.pa % 8 + stSize k)
    isMmio s q.pa = false → q.pa % stSize k = 0 →
    (q.pa / 256 ∈ l1Lines s c (q.pa / 256 % 64) ∨ (l1Lines s c (q.pa / 256 % 64)).length < 8) →
    (∀ b, b < 8 → byteAt new.data b = if hit b = true then byteAt v.pay (b - q.pa % 8) else byteAt old.data b) ∧
    (∀ b, b < 8 → new.valid.getLsbD b = (old.valid.getLsbD b || hit b) ∧ new.dirty.getLsbD b = (old.dirty.getLsbD b || hit b)) ∧
    (q.leaf.t = true → new.tagDirty = true ∧ new.tag = match k with
      | .st => v.tag
      | .str f => strTag f) ∧
    (q.leaf.t = false → new.tagDirty = old.tagDirty ∧ new.tag = old.tag) ∧
    (∀ d i, d ≠ c ∨ i ≠ j → l1Of t d i = l1Of s d i) ∧ (∀ i, l2Of t i = l2Of s i) ∧ (∀ a, memByte t a = memByte s a) ∧
    ∀ w r l, readReg (warpOf t w) r l = readReg (warpOf s w) r l)

/-- R39, R71, R161, R187, R223-R226, R303: ST, STR and SC whose addresses are all translated, permitted and aligned, whose data the
format takes, and that wait for nothing, perform in lane order; a release, or a write after a release fence, first does the work of
that release; one lane's SC answers INT 1 and
writes the word at its home when the lane still holds its reservation on the granule, and INT 0 with no write when it does not; the
reservation is gone either way.
The model's choices: the accesses of one instruction perform in one step (log entry 15); a release is written through (log entry 22)
and waits for earlier atomics (log entry 23); stores take no entry of the request table (log entry 24); writes after a release fence
are releases (log entry 51); a write waits for the warp's pending reads (log entry 56). -/
def Obligations.PlannedStoresComplete : Prop :=
  (let store := fun (i : Instr) (h : Hdr) (s : State) (k : StKind) (d ra rb : Reg) (sc : Scope) (ord : Ord4) (off : BitVec 13) =>
     let b := began i h s
     let ix := curIx i h s
     let x := warpOf b s.cur
     let ls := if actsOnce (.reg .nil) [d, ra, rb] = true then [ix.low] else ix.exe
     let p := (planMem b ix ls ra rb off (stSize k) (stSize k) [.w] true).check (fun q =>
       kindFaults b (decide (k = .st)) (stSize k) q ++ dataFaults ix k (readReg x d q.lane) q.lane q.va)
     let rel := relScope x (if ord = .rel then some sc else none)
     issues i h s = true → Ready p → writeBusy p.s s.cur rel.isSome p.accs = false →
     Ends i h s (p.accs.foldl (fun u q => storeLane u ix k rel q (readReg x d q.lane)) (releaseFor p.s x.core rel))
   (∀ (h : Hdr) (o : OpMem) (s : State), store (.st h o) h s .st o.d o.a o.b o.scope o.ord o.off) ∧
   (∀ (h : Hdr) (o : OpMemF) (s : State), store (.str h o) h s (.str o.fmt) o.d o.a o.b o.scope o.ord o.off) ∧
   (∀ (h : Hdr) (o : OpMem) (s : State),
     let i := Instr.sc h o
     let b := began i h s
     let ix := curIx i h s
     let x := warpOf b s.cur
     let p := (planMem b ix (actLanes ix (.reg o.b) [o.a, o.d]) o.a .nil o.off 8 8 [.w] true).check (kindFaults b true 8)
     let rel := relScope x (if o.ord = .rel then some o.scope else none)
     issues i h s = true → Ready p → writeBusy p.s s.cur rel.isSome p.accs = false → p.accs.length ≤ reqRoom p.s x.core →
     Ends i h s (p.accs.foldl (fun u q => scLane u ix o.b rel q (readReg x o.d q.lane)) (releaseFor p.s x.core rel)))) ∧
  (∀ (s : State) (ix : Ix) (d : Reg) (a : Acc) (v : Val),
     let c := (warpOf s ix.w).core
     let k := a.pa / 8
     let t := scLane s ix d none a v
     let sent := fun (n : Nat) => ∃ e, spGet none (coreOf t c).reqs e =
       some { warp := ix.w, outs := [(dstOf d a.lane, some (natVal n))], atomic := false, pa := a.pa, bar := false }
     (laneOf (warpOf t ix.w) a.lane).resv = none ∧
     ((laneOf (warpOf s ix.w) a.lane).resv ≠ some k →
       sent 0 ∧ (∀ i, l2Of t i = l2Of s i) ∧ (∀ d i, l1Of t d i = l1Of s d i) ∧ ∀ x, memByte t x = memByte s x) ∧
     ((laneOf (warpOf s ix.w) a.lane).resv = some k → served s (warpPart s ix.w) k a.leaf.t = true →
       regionOf s a.pa = .lpddr → sent 1 ∧ l2Of t k = ⟨v.pay, 0xFF, 0xFF, v.tag, true, false⟩ ∧ l1Of t c k = CWord.none))

/-- R213, R225, R227-R229, R300: FENCE, PF, CFLUSH and CINV complete. A FENCE with a release half at cluster scope or wider leaves the
core's L1 with no dirty byte, and one with an acquire half there leaves it no clean one.
The model's choices: an acquire drops clean bytes alone (log entry 10); a fence waits for earlier atomics, and its release half for
earlier appends (log entry 23), and makes later writes releases (log entry 51); PF drops a fault and a POISON address (log entry 48). -/
def Obligations.FencesAndCacheMaintenance : Prop :=
  (∀ (h : Hdr) (ord : Ord4) (scope : Scope) (racq : Bool) (s : State),
    let i := Instr.fence h ord scope racq
    let b := began i h s
    let c := (warpOf b s.cur).core
    let u := if hasRel ord = true then updWarp (release b c scope) s.cur
        (fun x => { x with relFence := widerScope (some scope) x.relFence }) else b
    let u := if racq = true then fenceRacq u c scope else u
    issues i h s = true → atomsUndrained b s.cur = false → (hasRel ord = true → warpUndrained b s.cur = false) →
    Ends i h s (if hasAcq ord = true then acquire u c scope else u) ∧
    (2 ≤ scopeNum scope → ∃ t, exec i s = .next t ∧
      (hasRel ord = true → ∀ k, (l1Of t c k).dirty = 0 ∧ (l1Of t c k).tagDirty = false) ∧
      (hasAcq ord = true → ∀ k, (l1Of t c k).valid &&& ~~~ (l1Of t c k).dirty = 0))) ∧
  (∀ (h : Hdr) (o : OpCache) (s : State),
    let i := Instr.pf h o
    let b := began i h s
    let ix := curIx i h s
    let p := planMem b ix ix.exe o.a o.b o.off 8 1 [.r] false
    issues i h s = true → p.misses = [] →
    Ends i h s (p.accs.foldl (fun u q =>
      if ownMmio u (warpOf u s.cur).core q.pa || !served u (warpPart u s.cur) (q.pa / 8) q.leaf.t then u
      else if o.scope = .core then
        [0, 8, 16, 24].foldl (fun u j =>
          (l1Read u (warpOf u s.cur).core (warpPart u s.cur) (q.pa / 256 * 32 + j) 0xFF q.leaf.t).1) u
      else [0, 8, 16, 24].foldl (fun u j => (homeRead u (q.pa / 256 * 32 + j)).1) u) p.s)) ∧
  (∀ e ∈ ([(Instr.cflush, false), (Instr.cinv, true)] : List ((Hdr → OpCache → Instr) × Bool)),
    ∀ (h : Hdr) (o : OpCache) (s : State),
    let i := e.1 h o
    let b := began i h s
    let ix := curIx i h s
    let p := planMem b ix (actLanes ix (.reg .nil) [o.a, o.b]) o.a o.b o.off 8 1 [.r] true
    issues i h s = true → Ready p →
    Ends i h s (p.accs.foldl (fun u q =>
      if ownMmio u (warpOf u s.cur).core q.pa = true then u else cacheLine u (warpOf u s.cur).core (q.pa / 256) o.scope e.2) p.s)) ∧
  (∀ (s : State) (c k : Nat), (l1Of (l1CleanAll s c) c k).dirty = 0 ∧ (l1Of (l1CleanAll s c) c k).tagDirty = false) ∧
  (∀ (s : State) (c k : Nat), (l1Of (l1Invalidate s c) c k).valid &&& ~~~ (l1Of (l1Invalidate s c) c k).dirty = 0)

/-! ## Scratchpad, tiles and engines -/

/-- R191-R193, R232: LDS gives the value that the bytes at A + B + OFF13 * size give in the format, and STS writes the low bytes
of its data there, of offsets that are INT or NIL, within the allocation, aligned and thread-owned.
The model's choices: the value of LDS stands behind the pending mark (log entry 17). -/
def Obligations.ScratchpadLoadsAndStores : Prop :=
  let place := fun (s : State) (o : OpScr) (l : Nat) =>
    let n := mfmtSize o.fmt
    let t := teamOf s (warpOf s s.cur).team
    let a := opnd s o.a 0#4 l
    let b := opnd s o.b 0#4 l
    let at_ := a.pay.toInt + b.pay.toInt + o.off.toInt * n
    (a.tag = .int ∨ a.tag = .nil) ∧ (b.tag = .int ∨ b.tag = .nil) ∧ 0 ≤ at_ ∧ at_ + n ≤ t.scratchBytes ∧
      at_.toNat % n = 0 ∧ engineOwned t (at_.toNat / 4096) = false
  let offset := fun (s : State) (o : OpScr) (l : Nat) =>
    ((opnd s o.a 0#4 l).pay.toInt + (opnd s o.b 0#4 l).pay.toInt + o.off.toInt * mfmtSize o.fmt).toNat
  (∀ (h : Hdr) (o : OpScr) (s : State),
    let t := teamOf s (warpOf s s.cur).team
    On (.lds h o) h s (fun l => place s o l ∧ scrBadAt t o.swz (offset s o l) = false) →
    Gives (.lds h o) h s o.d (fun l => mfmtVal o.fmt (scrRead t o.swz (offset s o l) (mfmtSize o.fmt)))) ∧
  (∀ (h : Hdr) (o : OpScr) (s : State),
    let i := Instr.sts h o
    let ls := if isLane o.d || isLane o.a || isLane o.b then (curIx i h s).exe else [(curIx i h s).low]
    On i h s (fun l => place s o l ∧ (opnd s o.d 0#4 l).tag ≠ .poison) →
    Ends i h s (updTeam (began i h s) (warpOf s s.cur).team (fun t =>
      ls.foldl (fun t l => scrWrite t o.swz (offset s o l) (mfmtSize o.fmt) (opnd s o.d 0#4 l).pay.toNat) t))) ∧
  (∀ (t : Team) (m : Swz) (o n x : Nat),
    (∀ k, k < n → spGet 0 (scrWrite t m o n x).scratch (swzPos m (o + k)) = BitVec.ofNat 8 (x / 256 ^ k)) ∧
    ∀ p, (∀ k, k < n → p ≠ swzPos m (o + k)) → spGet 0 (scrWrite t m o n x).scratch p = spGet 0 t.scratch p)

/-- R233, R296: SATOM performs its lanes in ascending order; each lane's D receives the old element and the element becomes what
the operation makes of it. The first lane is performed with the issue and each later one at a RESULT_ARRIVAL, the warp waiting
meanwhile (log entry 100). -/
def Obligations.ScratchpadAtomics : Prop :=
  (∀ (h : Hdr) (op : AOp) (fmt : TFmt) (swz : Swz) (o : OpX4) (s : State),
    let i := Instr.satom h op fmt swz o
    let ix := curIx i h s
    let b := began i h s
    let w := warpOf s s.cur
    let t := teamOf s w.team
    let n := tfmtBits fmt / 8
    let ls := actLanes ix (.reg o.d) (if op = .cas then [o.a, o.b, o.c] else [o.a, o.b])
    On i h s (fun l =>
      let a := opnd s o.a 0#4 l
      (a.tag = .int ∨ a.tag = .nil) ∧ 0 ≤ a.pay.toInt ∧ a.pay.toInt + n ≤ t.scratchBytes ∧ a.pay.toInt.toNat % n = 0 ∧
      engineOwned t (a.pay.toInt.toNat / 4096) = false ∧ scrBadAt t swz a.pay.toInt.toNat = false ∧
      (opnd s o.b 0#4 l).tag ≠ .poison ∧ (elementArg fmt (opnd s o.b 0#4 l)).isSome = true ∧
      (op = .cas → (opnd s o.c 0#4 l).tag ≠ .poison ∧ (elementArg fmt (opnd s o.c 0#4 l)).isSome = true)) →
    let u := satomLane b s.cur op fmt swz o ((ls.head?).getD 0)
    Ends i h s (if ls.tail = [] then u else updWarp u s.cur (fun y => { y with wait := .lanes })) ∧
    lateTodo i ix = ls.tail) ∧
  (∀ (s : State) (w : Nat) (op : AOp) (f : TFmt) (m : Swz) (o : OpX4) (l : Nat) (n : BitVec 7),
    let x := warpOf s w
    let off := (readReg x o.a l).pay.toInt.toNat
    let k := tfmtBits f / 8
    let old := scrRead (teamOf s x.team) m off k
    let t := satomLane s w op f m o l
    (o.d = .lane n → readReg (warpOf t w) o.d l = elementVal f old) ∧
    teamOf t x.team = scrWrite (teamOf s x.team) m off k (elementOp op f old ((elementArg f (readReg x o.b l)).getD 0)
      ((elementArg f (readReg x o.c l)).getD 0))) ∧
  (∀ (s : State) (core slot : Nat) (h : Hdr) (op : AOp) (f : TFmt) (m : Swz) (o : OpX4) (r : Late) (l : Nat) (rest : List Nat),
    spGet none (coreOf s core).reqs slot = none → spGet none (coreOf s core).late slot = some r → r.i = .satom h op f m o →
    r.todo = l :: rest → (warpOf s r.warp).live = true → (warpOf s r.warp).wait = .lanes →
    ∃ t, exec (.resultArrival core slot) s = .next t ∧
      (∀ k, teamOf t k = teamOf (satomLane s r.warp op f m o l) k) ∧
      (∀ q k, readReg (warpOf t r.warp) q k = readReg (warpOf (satomLane s r.warp op f m o l) r.warp) q k) ∧
      spGet none (coreOf t core).late slot = some { r with todo := rest } ∧
      (warpOf t r.warp).wait = if rest = [] then .none else .lanes)

/-- R201, R203, R234, R196-R200, R238: TILE packs its operands into a handle whose fields decode to them; GIVE makes the granules
of the tile engine-owned, once every lane of an earlier SATOM of the team has been performed; TAKE of a thread-owned tile with no fault on
record changes nothing; OWNQ tells the owner and whether a fault is on record.
The model's choices: the value of OWNQ stands behind the pending mark (log entry 17). -/
def Obligations.TilesAndTheirOwners : Prop :=
  (∀ (h : Hdr) (fmt : TFmt) (swz : Swz) (sp : Sparsity) (o : OpX4) (s : State),
    let i := Instr.tile h fmt swz sp o
    let off := fun l => (opnd s o.a 0#4 l).pay.toNat
    let shape := fun l => (opnd s o.b 0#4 l).pay.toNat
    let c := fun l => opnd s o.c 0#4 l
    On i h s (fun l => (opnd s o.a 0#4 l).tag = .int ∧ (opnd s o.b 0#4 l).tag = .int ∧ ((c l).tag = .int ∨ (c l).tag = .nil) ∧
      off l % 64 = 0 ∧ off l ≤ 524224 ∧ shape l = shape l % 512 + shape l / 2 ^ 16 % 512 * 2 ^ 16 ∧
      1 ≤ shape l % 512 ∧ shape l % 512 ≤ 256 ∧ 1 ≤ shape l / 2 ^ 16 ∧ shape l / 2 ^ 16 ≤ 256 ∧ (c l).pay.toNat < 2 ^ 26 ∧
      ((c l).tag = .nil → (c l).pay = 0)) →
    ∃ w : Nat → Word, Gives i h s o.d (fun l => ⟨.tile, w l⟩) ∧ ∀ l ∈ (curIx i h s).exe, handleOf (w l) =
      { base := off l / 64, rows := shape l % 512, cols := shape l / 2 ^ 16, fmt := some fmt, swz := some swz,
        soff := if (c l).tag = .nil then 0x1FFF else (c l).pay.toNat % 2 ^ 13, sparse := sparCode sp,
        moff := (c l).pay.toNat / 2 ^ 13 }) ∧
  (∀ (h : Hdr) (ra : Reg) (q : Handle) (s : State),
    let i := Instr.give h ra
    let w := warpOf s s.cur
    issues i h s = true →
    handleArg (curIx i h s) (teamOf s w.team) (opnd s ra 0#4 (curIx i h s).low) anyTile = .ok q →
    (satomUnderWay s w.team = true → exec i s = .next (waited i h s (began i h s) .drain)) ∧
    (satomUnderWay s w.team = false →
    ∃ t, exec i s = .next t ∧ (∀ g, engineOwned (teamOf t w.team) g = (engineOwned (teamOf s w.team) g || decide (g ∈ q.granules))) ∧
      (∀ p, spGet 0 (teamOf t w.team).scratch p = spGet 0 (teamOf s w.team).scratch p) ∧
      (∀ k, k ≠ w.team → teamOf t k = teamOf s k) ∧
      (∀ r k, readReg (warpOf t s.cur) r k = readReg w r k) ∧ ∀ a, memByte t a = memByte s a)) ∧
  (∀ (h : Hdr) (ra : Reg) (q : Handle) (s : State),
    let i := Instr.take h ra
    let y := teamOf s (warpOf s s.cur).team
    issues i h s = true → handleArg (curIx i h s) y (opnd s ra 0#4 (curIx i h s).low) anyTile = .ok q →
    (∀ g ∈ q.granules, engineOwned y g = false ∧ spGet none y.frec g = none) → Turns i h s id (fun _ z => z)) ∧
  (∀ (h : Hdr) (d ra : Reg) (q : Handle) (s : State),
    let i := Instr.ownq h d ra
    let y := teamOf s (warpOf s s.cur).team
    issues i h s = true → handleArg (curIx i h s) y (opnd s ra 0#4 (curIx i h s).low) anyTile = .ok q →
    Gives i h s d (fun _ => natVal ((if ∃ g ∈ q.granules, engineOwned y g = true then 0 else 1) +
      if ∃ g ∈ q.granules, spGet none y.frec g ≠ none then 2 else 0)))

/-- R211, R235, R236: CPY of a tile and address that its mode accepts, with its footprint engine-owned, its earlier atomics
performed and room among the 32 entries, enters the copy engine's queue and changes nothing else of its own.
The model's choices: a copy is queued, and a copy out waits for the warp's pending reads (log entry 56). -/
def Obligations.CopiesAreQueued : Prop :=
  ∀ (h : Hdr) (mode : CpyMode) (out : Bool) (ra rb rc : Reg) (q : Handle) (s : State),
    let i := Instr.cpy h mode out ra rb rc
    let ix := curIx i h s
    let b := began i h s
    let w := warpOf s s.cur
    let t := teamOf s w.team
    let av := opnd s ra 0#4 ix.low
    let bv := opnd s rb 0#4 ix.low
    let cv := opnd s rc 0#4 ix.low
    issues i h s = true → handleArg ix t av (copyAccepts mode (bitAt cv.pay 0)) = .ok q → copyArgs ix t mode bv cv = [] →
    (∀ g ∈ copyGranules mode av.pay cv.pay, engineOwned t g = true) → warpUndrained b s.cur = false →
    (out = true → readsPending b s.cur = false) → (coreOf b w.core).copyq.length < 32 →
    Ends i h s (updCore b w.core (fun k => { k with copyq := k.copyq ++
      [{ team := w.team, warp := s.cur, mode := mode, out := out, tile := av.pay, va := bv.pay.toNat, c := cv.pay }] }))

/-- R205, R209, R240, R242-R245, R266: an accumulator instruction of granted tiles with no error, whose operands and owners are as
it needs and whose tiles have not exceeded their bounds once the steps already queued have run (log entry 115), enters the array's queue while that holds fewer than 8 entries. -/
def Obligations.MatrixWorkIsQueued : Prop :=
  let fine := fun (s : State) (as : List Nat) =>
    let w := warpOf s s.cur
    (∀ a ∈ as, accIll s w.core w.team a = false ∧ spGet false (teamOf s w.team).accBad a = false)
  let queued := fun (i : Instr) (h : Hdr) (s : State) (a : Nat) (k : MatKind) =>
    let w := warpOf s s.cur
    (coreOf s w.core).matq.length < 8 →
    Ends i h s (updCore (began i h s) w.core (fun c => { c with matq := c.matq ++ [⟨w.team, a, k⟩] }))
  let val := fun (i : Instr) (h : Hdr) (s : State) (r : Reg) => opnd s r 0#4 (curIx i h s).low
  let team := fun (s : State) => teamOf s (warpOf s s.cur).team
  (∀ (h : Hdr) (acc : BitVec 5) (ra rb : Reg) (p q : Handle) (s : State),
    let i := Instr.mma h acc ra rb
    let ix := curIx i h s
    issues i h s = true → fine s [acc.toNat] →
    handleArg ix (team s) (val i h s ra) mmaA = .ok p → handleArg ix (team s) (val i h s rb) (mmaB 64) = .ok q → p.cols = q.rows →
    ownerFaults ix (team s) (p.granules ++ q.granules) true = [] → issueX s (warpOf s s.cur).core (warpOf s s.cur).team acc.toNat = false →
    sparseFaults ix (team s) p = [] → scaleFaults ix (team s) (some p) (some q) = [] →
    queued i h s acc.toNat (.mma (val i h s ra).pay (val i h s rb).pay)) ∧
  (∀ (h : Hdr) (acc : BitVec 5) (ra rb : Reg) (p q : Handle) (s : State),
    let i := Instr.mmap h acc ra rb
    let ix := curIx i h s
    let w := warpOf s s.cur
    let as := if 64 < q.cols then [acc.toNat, acc.toNat + 1] else [acc.toNat]
    issues i h s = true → fine s as → coreNum w.core % 2 = 0 → isService w.core = false → acc.toNat + 1 < (team s).nacc →
    issueWide s w.core w.team acc.toNat = false →
    handleArg ix (team s) (val i h s ra) mmaA = .ok p → handleArg ix (team s) (val i h s rb) (mmaB 128) = .ok q → p.cols = q.rows →
    ownerFaults ix (team s) (p.granules ++ q.granules) true = [] → (∀ a ∈ as, issueX s w.core w.team a = false) →
    sparseFaults ix (team s) p = [] → scaleFaults ix (team s) (some p) (some q) = [] →
    queued i h s acc.toNat (.mmap (val i h s ra).pay (val i h s rb).pay)) ∧
  (∀ (h : Hdr) (acc src : BitVec 5) (rb : Reg) (q : Handle) (s : State),
    let i := Instr.mmab h acc src rb
    let ix := curIx i h s
    let w := warpOf s s.cur
    issues i h s = true → fine s [acc.toNat, src.toNat] → issueWide s w.core w.team src.toNat = false →
    handleArg ix (team s) (val i h s rb) mmabB = .ok q → ownerFaults ix (team s) q.granules true = [] →
    accPending s w.core w.team src.toNat = false → issueX s w.core w.team acc.toNat = false →
    issueX s w.core w.team src.toNat = false →
    scaleFaults ix (team s) none (some q) = [] → queued i h s acc.toNat (.mmab src.toNat (val i h s rb).pay)) ∧
  (∀ (h : Hdr) (acc : BitVec 5) (s : State), issues (.accz h acc) h s = true → fine s [acc.toNat] →
    queued (.accz h acc) h s acc.toNat .accz) ∧
  (∀ (h : Hdr) (acc : BitVec 5) (s : State), issues (.accw h acc) h s = true → fine s [acc.toNat] →
    acc.toNat + 1 < (team s).nacc → queued (.accw h acc) h s acc.toNat .accw) ∧
  (∀ (h : Hdr) (acc : BitVec 5) (ra : Reg) (q : Handle) (s : State),
    let i := Instr.accld h acc ra
    let ix := curIx i h s
    let w := warpOf s s.cur
    issues i h s = true → fine s [acc.toNat] →
    handleArg ix (team s) (val i h s ra) (accldA (issueWide s w.core w.team acc.toNat)) = .ok q →
    ownerFaults ix (team s) q.granules true = [] → issueX s (warpOf s s.cur).core (warpOf s s.cur).team acc.toNat = false →
    queued i h s acc.toNat (.accld (val i h s ra).pay)) ∧
  (∀ (h : Hdr) (acc : BitVec 5) (ra : Reg) (tau : BitVec 32) (s : State),
    let i := Instr.bndset h acc ra
    issues i h s = true → fine s [acc.toNat] → (val i h s ra).tag ≠ .poison → tauOf (val i h s ra) = some tau →
    queued i h s acc.toNat (.bndset tau))

/-- R206-R208, R210, R244, R245: ACCRD of a tile with no earlier step queued and its bound not exceeded writes the tile and gives its
granules to the threads; BNDGET gives the selvage entry, its low half in even lanes and in a uniform register, its high half in
odd lanes; a BOUND that stands traps ACCRD. BNDSET's value is converted RU to F32, a negative value or a NaN storing 0, any other tag than
INT, F32 and F64 traps PROT and a POISON traps; its step sets the threshold and clears X in its place in the queue.
The model's choices: ACCRD reads at its issue (log entry 61); PEAK and BOUND are infinite together (log entry 116); BOUND looks past
the queued steps (log entry 115); the BOUND of ACCRD and the PROT and POISON of BNDSET are reported in the lowest executing lane alone
(log entry 40); the value of BNDGET stands behind the pending mark (log entry 17). -/
def Obligations.AccumulatorsAreRead : Prop :=
  (∀ (h : Hdr) (acc : BitVec 5) (ra : Reg) (q : Handle) (s : State),
    let i := Instr.accrd h acc ra
    let ix := curIx i h s
    let w := warpOf s s.cur
    let t := teamOf s w.team
    issues i h s = true → accIll s w.core w.team acc.toNat = false → spGet false t.accBad acc.toNat = false →
    handleArg ix t (opnd s ra 0#4 ix.low) accrdA = .ok q → ownerFaults ix t q.granules true = [] →
    accPending s w.core w.team acc.toNat = false →
    ((selvOf t acc.toNat).x = false →
      Ends i h s (flipThread (updTeam (began i h s) w.team (fun t => accOut t q acc.toNat)) w.team q.granules)) ∧
    ((selvOf t acc.toNat).x = true →
      exec i s = .next (trapped i h s [⟨ix.low, .bound, 0, natVal acc.toNat⟩] 0 []))) ∧
  (∀ (h : Hdr) (d : Reg) (acc : BitVec 5) (s : State),
    let i := Instr.bndget h d acc
    let w := warpOf s s.cur
    let t := teamOf s w.team
    let v := selvOf t acc.toNat
    issues i h s = true → accIll s w.core w.team acc.toNat = false → spGet false t.accBad acc.toNat = false →
    (accPending s w.core w.team acc.toNat = true → exec i s = .next (waited i h s (began i h s) (.acc acc.toNat))) ∧
    (accPending s w.core w.team acc.toNat = false →
    Gives i h s d (fun l => ⟨.int, wd (if isLane d = true ∧ l % 2 = 1 then
      v.tau.toNat + (if v.x = true then 2 ^ 32 else 0) + (if v.w = true then 2 ^ 33 else 0) else v.bound.toNat + v.peak.toNat * 2 ^ 32)⟩))) ∧
  (∀ (v : Val),
    (v.tag = .int → tauOf v = some (if v.pay.toInt < 0 then 0 else
      BitVec.ofNat 32 (fF32.enc .ru (.fin false v.pay.toInt.toNat 0)))) ∧
    (∀ f : FFmt, (v.tag = .f32 ∧ f = fF32) ∨ (v.tag = .f64 ∧ f = fF64) → tauOf v = some (
      match f.dec (fld v.pay 0 (1 + f.eb + f.fb)) with
      | .fin false m e => BitVec.ofNat 32 (fF32.enc .ru (.fin false m e))
      | .inf false => BitVec.ofNat 32 fF32.infBits
      | _ => 0)) ∧
    (v.tag ≠ .int → v.tag ≠ .f32 → v.tag ≠ .f64 → tauOf v = none)) ∧
  (∀ (h : Hdr) (acc : BitVec 5) (ra : Reg) (s : State),
    let i := Instr.bndset h acc ra
    let ix := curIx i h s
    let w := warpOf s s.cur
    let v := opnd s ra 0#4 ix.low
    issues i h s = true → accIll s w.core w.team acc.toNat = false → spGet false (teamOf s w.team).accBad acc.toNat = false →
    (v.tag = .poison → exec i s = .next (trapped i h s [⟨ix.low, .poison, fld v.pay 0 16, ptrVal ix.pc⟩] 0 [])) ∧
    (v.tag ≠ .poison → tauOf v = none → exec i s = .next (trapped i h s [faultAt ix ix.low .prot] 0 []))) ∧
  (∀ (core : Nat) (o : MatOp) (tau : BitVec 32) (s : State), matNext s core = some o → o.kind = .bndset tau →
    ∃ u, exec (.matrixStep core) s = .next u ∧ (coreOf u core).matq = (coreOf s core).matq.erase o ∧
      selvOf (teamOf u o.team) o.acc = { selvOf (teamOf s o.team) o.acc with tau := tau, x := false } ∧
      ∀ a, memByte u a = memByte s a)

/-- R217, R246, R247: BNINIT sets the counts of a granted bench and gives every warp of the team its phase; BNA counts an arrival
by the warp's role, and waits while the bench has no room for it; BNW passes once the phase differs from the warp's own and takes it over,
and waits while it does not; BNAW is both, its arrival standing while it waits. An arrival that completes a phase makes the team's warps
that wait for the bench ready, and one that does not changes no warp.
The model's choices: a waiter of any completed phase is released (log entry 62); an arrival waits for the warp's earlier accesses (log
entries 23, 56). A bench whose counts are both 0 is left to log entry 134: no clause speaks of its phase. -/
def Obligations.BenchesCountAndWait : Prop :=
  let own := fun (s : State) (i : Instr) (h : Hdr) (b : Nat) (u : State) =>
    updWarp u s.cur (fun w => { w with wp := spSet false w.wp b (benchOf (teamOf u (warpOf s s.cur).team) b).ph,
                                       arrived := w.arrived.filter (fun p => decide (p ≠ (curIx i h s).pc)) })
  let room := fun (s : State) (b : Nat) =>
    benchRoom (benchOf (teamOf s (warpOf s s.cur).team) b) (decide ((warpOf s s.cur).role = 1)) = true
  let up := fun (s : State) (b : Nat) =>
    b < (teamOf s (warpOf s s.cur).team).nbench ∧ (benchOf (teamOf s (warpOf s s.cur).team) b).v = true
  (∀ (h : Hdr) (bench pcnt ccnt : BitVec 5) (s : State),
    let i := Instr.bninit h bench pcnt ccnt
    let k := (warpOf s s.cur).team
    let x := benchOf (teamOf s k) bench.toNat
    let y : Bench := if x.v = true then { x with pcnt := pcnt.toNat, ccnt := ccnt.toNat }
      else ⟨true, false, pcnt.toNat, ccnt.toNat, 0, 0⟩
    issues i h s = true → bench.toNat < (teamOf s k).nbench →
    Ends i h s (benchSettle ((teamOf s k).warps.foldl
      (fun u w => updWarp u w (fun z => { z with wp := spSet false z.wp bench.toNat y.ph }))
      (setBench (began i h s) k bench.toNat y)) k bench.toNat)) ∧
  (∀ (h : Hdr) (bench : BitVec 5) (s : State),
    let i := Instr.bna h bench
    let w := warpOf s s.cur
    issues i h s = true → up s bench.toNat → warpBusy (began i h s) s.cur = false → room s bench.toNat →
    Ends i h s (benchArrive (began i h s) w.team bench.toNat (decide (w.role = 1)))) ∧
  (∀ (h : Hdr) (bench : BitVec 5) (s : State), ∀ i ∈ [Instr.bna h bench, .bnaw h bench],
    let prod := decide ((warpOf s s.cur).role = 1)
    issues i h s = true → up s bench.toNat → (i = .bnaw h bench → (curIx i h s).pc ∉ (warpOf s s.cur).arrived) →
    (warpBusy (began i h s) s.cur = true → exec i s = .next (waited i h s (began i h s) .drain)) ∧
    (warpBusy (began i h s) s.cur = false → ¬ room s bench.toNat →
      exec i s = .next (waited i h s (began i h s) (.benchRoom bench.toNat prod)))) ∧
  (∀ (h : Hdr) (bench : BitVec 5) (s : State),
    let i := Instr.bnw h bench
    let w := warpOf s s.cur
    issues i h s = true → up s bench.toNat →
    (spGet false w.wp bench.toNat ≠ (benchOf (teamOf s w.team) bench.toNat).ph → Ends i h s (own s i h bench.toNat (began i h s))) ∧
    (spGet false w.wp bench.toNat = (benchOf (teamOf s w.team) bench.toNat).ph →
      exec i s = .next (waited i h s (began i h s) (.bench bench.toNat)))) ∧
  (∀ (h : Hdr) (bench : BitVec 5) (s : State),
    let i := Instr.bnaw h bench
    let w := warpOf s s.cur
    let v := benchArrive (began i h s) w.team bench.toNat (decide (w.role = 1))
    let u := if (curIx i h s).pc ∈ w.arrived then began i h s
      else updWarp v s.cur (fun z => { z with arrived := (curIx i h s).pc :: z.arrived })
    issues i h s = true → up s bench.toNat →
    ((curIx i h s).pc ∉ w.arrived → warpBusy (began i h s) s.cur = false ∧ room s bench.toNat) →
    (spGet false (warpOf u s.cur).wp bench.toNat ≠ (benchOf (teamOf u w.team) bench.toNat).ph →
      Ends i h s (own s i h bench.toNat u)) ∧
    (spGet false (warpOf u s.cur).wp bench.toNat = (benchOf (teamOf u w.team) bench.toNat).ph →
      exec i s = .next (waited i h s u (.bench bench.toNat)))) ∧
  (∀ (s : State) (team b : Nat) (prod : Bool),
    let x := benchOf (teamOf s team) b
    let y := benchOf (teamOf (benchArrive s team b prod) team) b
    let n := x.parr + (if prod = true then 1 else 0)
    let m := x.carr + (if prod = true then 0 else 1)
    y.pcnt = x.pcnt ∧ y.ccnt = x.ccnt ∧ y.v = x.v ∧
    (n < x.pcnt ∨ m < x.ccnt → y.ph = x.ph ∧ y.parr = n ∧ y.carr = m) ∧
    (x.pcnt ≤ n ∧ x.ccnt ≤ m ∧ (n < 2 * x.pcnt ∨ m < 2 * x.ccnt) → y.ph = !x.ph ∧ y.parr = n - x.pcnt ∧ y.carr = m - x.ccnt) ∧
    (∀ v, warpOf (benchArrive s team b prod) v =
      let z := warpOf s v
      if (x.pcnt ≤ n ∧ x.ccnt ≤ m) ∧ z.team = team then
        if z.wait = .bench b then { z with wait := .none, wp := spSet false z.wp b (!y.ph) }
        else if z.wait = .benchRoom b true ∨ z.wait = .benchRoom b false then { z with wait := .none } else z
      else z))

/-! ## Atomics -/

/-- R222, R231, R255, R257-R263: ATOM, VATOM and HCAS whose accesses are all translated and permitted, whose operands the
operation takes, and that wait for nothing, do the core's release half and drop the lines from its L1, then send one request per
word (ATOM), per block (VATOM) or per lane (HCAS) to the home's queue; an acquire half makes the warp wait. While a region of the core's
table evacuates, a SWAP or CAS of a tagged word, whose REF may call a handler, is performed in every lane with its issue, once no queued
request to its words stands before it: a cause of such a call traps, and no lane has taken effect (R95, R97).
The model's choices: a release waits for earlier atomics (log entry 23); an entry of the request table for each lane (log entry 24);
requests wait for the warp's pending reads (log entry 56); the host performs at issue (log entry 63); an acquire half holds the warp, and
such a SWAP or CAS is performed whole (log entry 64); an atomic needs W alone (log entry 65). -/
def Obligations.AtomicsSendTheirRequests : Prop :=
  let fine := fun (i : Instr) (h : Hdr) (s : State) (p : Plans) (o : Ord4) (sc : Scope) =>
    issues i h s = true ∧ Ready p ∧ p.accs ≠ [] ∧
      reqBusy p.s (curIx i h s) (reqScope (warpOf p.s s.cur) o sc).isSome p.accs = false ∧ p.accs.length ≤ reqRoom p.s (warpOf p.s s.cur).core
  (∀ (h : Hdr) (o : OpAtom) (s : State),
    let i := Instr.atom h o
    let b := began i h s
    let ix := curIx i h s
    let x := warpOf b s.cur
    let p := (planMem b ix (actLanes ix (.reg o.d) (if o.op = .cas then [o.a, o.b, o.c] else [o.a, o.b])) o.a .nil 0 8 8 [.w] true).check
      (fun a => atomPlace b o.op a ++ atomArg ix o.op a (readReg x o.b a.lane) ++
        (if o.op = .cas then atomArg ix o.op a (readReg x o.c a.lane) else []))
    let arg := fun (a : Acc) => (dstOf o.d a.lane, readReg x o.b a.lane, readReg x o.c a.lane)
    let whole := decide (o.op = .swap ∨ o.op = .cas) && p.accs.any (fun a => a.leaf.t) && evacuates (coreOf b x.core)
    let r := swapAll (beforeReqs p.s ix o.ord o.scope p.accs) ix o p.accs
    let k := checkCalls r.s ix r.calls
    fine i h s p o.ord o.scope →
    (whole = true → mustDrain p.s s.cur p.accs = false → p.accs.any (homeBusy p.s (warpPart p.s s.cur)) = false → r.misses = [] →
      (r.faults = [] → r.calls = [] → Ends i h s (finishSwap r.s ix o r.vals)) ∧
      (k.misses = [] → r.faults ++ k.faults ≠ [] →
        exec i s = .next (trapRun { s with parts := k.s.parts } ix (r.faults ++ k.faults) 0 []))) ∧
    (whole = false → Ends i h s (afterReqs ((reqGroups (combines o.op) (fun a => a.pa / 8) p.accs).foldl (fun u g =>
      match g with
      | [] => u
      | a :: _ =>
        if isHost a.pa = true then g.foldl (fun u a => hostAtom u ix o.op o.d o.ord o.scope o.racq a (arg a).2.1 (arg a).2.2) u
        else postReq u ix a (.atom o.op (g.map arg)) (g.map (fun a => (arg a).1)) o.ord o.scope o.racq)
      (beforeReqs p.s ix o.ord o.scope p.accs)) s.cur o.ord))) ∧
  (∀ (h : Hdr) (op : AOp) (ef : TFmt) (d ra rb : Reg) (ord : Ord4) (scope : Scope) (s : State),
    let i := Instr.vatom h op ef d ra rb ord scope
    let b := began i h s
    let ix := curIx i h s
    let x := warpOf b s.cur
    let p := (planMem b ix (actLanes ix (.reg d) [ra, rb]) ra .nil 0 8 8 [.w] true).check
      (fun q => vatomFaults ix b ef q (readReg x rb q.lane))
    fine i h s p ord scope →
    Ends i h s (afterReqs ((reqGroups true (fun q => q.pa / 32) p.accs).foldl (fun u g =>
      match g with
      | [] => u
      | q :: _ =>
        postReq u ix q (.vatom op ef (g.map (fun q => (dstOf d q.lane, q.pa, (readReg x rb q.lane).pay))))
          (g.map (fun q => dstOf d q.lane)) ord scope false)
      (beforeReqs p.s ix ord scope p.accs)) s.cur ord)) ∧
  (∀ (h : Hdr) (o : OpX4) (ord : Ord4) (scope : Scope) (racq : Bool) (s : State),
    let i := Instr.hcas h o ord scope racq
    let b := began i h s
    let ix := curIx i h s
    let x := warpOf b s.cur
    let p := (planMem b ix (actLanes ix (.reg o.d) [o.a, o.b, o.c]) o.a .nil 0 8 16 [.w] false).check
      (fun a => hcasFaults b x ix a (readReg x o.c a.lane))
    fine i h s p ord scope →
    Ends i h s (afterReqs (p.accs.foldl (fun u a =>
      postReq u ix a (.hcas (dstOf o.d a.lane) a.va (readReg x o.b a.lane) (readReg x o.c a.lane)) [dstOf o.d a.lane] ord scope
        racq) (beforeReqs p.s ix ord scope p.accs)) s.cur ord))

/-- R231, R259, R263, R264, R325: what an atomic makes of a sound word at its home. Of a tagged INT or NIL word the integer operations write
INT and reply the old value; FADD, of a word of its own float tag or NIL, adds B rounded to the format and rounds once more; any other tag
gives POISON 0x0023 and writes nothing; SWAP writes B of any tag; CAS writes B when tag and payload equal C; HCAS compares a FWD word as a
REF and writes a REF as FWD; an old FWD word refuses ATOM with POISON; raw words are INT to the integer operations and floats to FADD, which
of F32 writes four bytes. VATOM applies its operation to each element of a lane's eight bytes by itself and replies the old bytes. SIGNAL
writes INT, and of an old word of another tag than INT and NIL it writes nothing, and the service core is told.
The model's choices: raw SWAP and CAS give INT, and an HCAS writes a REF as FWD but any other word as it is (log entry 65). -/
def Obligations.AtomicOperations : Prop :=
  (∀ (w : WV) (b c : Val), w.bad = false →
    let old : Val := ⟨w.tag, canonPay w.tag w.data⟩
    let cur : Val := ⟨if w.tag = .fwd then .ref else w.tag, canonPay w.tag w.data⟩
    (∀ e ∈ ([(.add, fun x y => x + y), (.and, fun x y => x &&& y), (.or, fun x y => x ||| y), (.xor, fun x y => x ^^^ y),
        (.min, fun x y => if x.toInt ≤ y.toInt then x else y), (.max, fun x y => if x.toInt ≤ y.toInt then y else x)] :
        List (AOp × (Word → Word → Word))),
      (w.tag = .int ∨ w.tag = .nil → atomWord e.1 true w b c = ⟨some ⟨.int, e.2 old.pay b.pay⟩, 0xFF, old⟩) ∧
      atomWord e.1 false w b c = ⟨some ⟨.int, e.2 w.data b.pay⟩, 0xFF, ⟨.int, w.data⟩⟩) ∧
    (w.tag ≠ .pend → w.tag ≠ .fwd → atomWord .swap true w b c = ⟨some b, 0xFF, old⟩ ∧
      atomWord .cas true w b c = ⟨if old = c then some b else none, 0xFF, old⟩) ∧
    atomWord .swap false w b c = ⟨some b, 0xFF, ⟨.int, w.data⟩⟩ ∧
    atomWord .cas false w b c = ⟨if w.data = c.pay then some b else none, 0xFF, ⟨.int, w.data⟩⟩ ∧
    (w.tag = .fwd → ∀ op, atomWord op true w b c = ⟨none, 0xFF, poisonVal 0x23⟩) ∧
    (∀ e ∈ ([(.fadd, .f32, fF32), (.fadd64, .f64, fF64)] : List (AOp × Tag × FFmt)), ∀ y, valNum b = some y →
      let sum := fun (x : Word) => wd (e.2.2.enc .rn (sumNum [e.2.2.dec (fld x 0 (1 + e.2.2.eb + e.2.2.fb)), e.2.2.dec (e.2.2.enc .rn y)]))
      let raw := wd (fld w.data 0 (1 + e.2.2.eb + e.2.2.fb))
      (w.tag = e.2.1 ∨ w.tag = .nil → atomWord e.1 true w b c = ⟨some ⟨e.2.1, sum old.pay⟩, 0xFF, old⟩) ∧
      atomWord e.1 false w b c = ⟨some ⟨e.2.1, sum w.data⟩, if e.1 = .fadd then 0x0F else 0xFF, ⟨e.2.1, raw⟩⟩) ∧
    (∀ e ∈ ([(.add, .int), (.and, .int), (.or, .int), (.xor, .int), (.min, .int), (.max, .int), (.fadd, .f32), (.fadd64, .f64)] :
        List (AOp × Tag)),
      w.tag ≠ .pend → w.tag ≠ e.2 → w.tag ≠ .nil → atomWord e.1 true w b c = ⟨none, 0xFF, poisonVal 0x23⟩) ∧
    (w.tag ≠ .pend → hcasWord w b c =
      ⟨if cur = b then some (if c.tag = .ref then ⟨.fwd, c.pay⟩ else c) else none, 0xFF, cur⟩)) ∧
  (∀ (op : AOp) (f : TFmt) (x y : Word) (j : Nat),
    let n := tfmtBits f
    let a := fld x (j * n) n
    let b := fld y (j * n) n
    vatomPair op f = true → (j + 1) * n ≤ 64 → fld (vatomNew op f x y) (j * n) n =
      match op, tfmtFloat f with
      | .add, _ => (a + b) % 2 ^ n
      | .and, _ => a &&& b
      | .or, _ => a ||| b
      | .xor, _ => a ^^^ b
      | .min, none => intBits n (min (sextN a n) (sextN b n))
      | .max, none => intBits n (max (sextN a n) (sextN b n))
      | .min, some g => g.enc .rn (minNum (g.dec a) (g.dec b))
      | .max, some g => g.enc .rn (maxOf (g.dec a) (g.dec b))
      | .fadd, some g => g.enc .rn (sumNum [g.dec a, g.dec b])
      | _, _ => b) ∧
  (∀ (s : State) (op : AOp) (f : TFmt) (pa : Nat) (b : Word),
    let q := homeRead s (pa / 8)
    vatomAt s op f pa b =
      if q.2.bad = true then (q.1, poisonVal 0x40)
      else (homeWrite q.1 (pa / 8) (vatomNew op f q.2.data b) 0xFF none false none, ⟨vatomTag f, q.2.data⟩)) ∧
  (∀ (w : WV) (op : SigOp) (tagged : Bool) (b : Word), w.bad = false →
    let x := if tagged = true ∧ w.tag = .nil then 0 else w.data
    signalWord op tagged w b =
      if tagged = true ∧ w.tag ≠ .int ∧ w.tag ≠ .nil then ⟨none, 0xFF, nilVal⟩
      else ⟨some ⟨.int, match op with
        | .set => b
        | .add => x + b
        | .or => x ||| b⟩, 0xFF, nilVal⟩) ∧
  (∀ (s : State) (r : AswReq) (op : SigOp) (b : Word), r.op = .signal op b →
    let w := homePeek s (r.pa / 8)
    let u := (actAt s r.pa r.tagged (fun w => signalWord op r.tagged w b)).1
    performOp s r = (if r.tagged = true ∧ w.tag ≠ .int ∧ w.tag ≠ .nil then tellSvc u (l1Part u r.core) (.signalTag r.pa) else u, []))

/-! ## The die and the package -/

/-- R278, R280-R283, R287, R291, R342: KVAPP of a mapped block sends its append; KSEL and ATTN enter their operation with the
query's 32 words, once no earlier KVAPP, KSEL or ATTN of the warp to the sequence is under way (R292); KVXL gives each lane its block's
entry, or NIL for a block not covered or not mapped. KVAPP traps PROT when the append would write a code page of a bound version (R305).
The model's choices: when a sequence is looked up and counted, and which lines leave the core's L1 (log entry 66); an append waits for
the warp's pending reads (log entry 56); the tile of a triple is dense (log entry 102); which pages are code (log entry 32). -/
def Obligations.KvInstructions : Prop :=
  let val := fun (i : Instr) (h : Hdr) (s : State) (r : Reg) => opnd s r 0#4 (curIx i h s).low
  (∀ (h : Hdr) (ra rb rc : Reg) (e : Word) (u : State) (kpa vpa home : Nat) (s : State),
    let i := Instr.kvapp h ra rb rc
    let ix := curIx i h s
    let b := began i h s
    let w := warpOf s s.cur
    let p := warpPart s s.cur
    let d := (val i h s ra).pay
    let key := kvKey d (dLen d / 64)
    issues i h s = true → w.width = 32 → descFaults ix ix.low (val i h s ra) true = [] → dLen d < 4194304 →
    rowFaults ix w rb = [] → rowFaults ix w rc = [] → kvLookup s p key = .ok e → (slotOf s p (dSeq d)).draining = false →
    let rel := relScope (warpOf b s.cur) none
    readsPending b s.cur = false → (rel.isSome = true → warpUndrained b s.cur = false) →
    kvSecond (ktbFill b w.core key e) p e = (u, .ok kpa vpa home) →
    let v := (appendLines kpa vpa (dLen d % 64)).foldl (fun s l => l1Evict s w.core l) (releaseFor u w.core rel)
    (appendsCode u kpa vpa (dLen d % 64) = true → exec i s = .next (trapped i h s [faultAt ix ix.low .prot] 0 [])) ∧
    (appendsCode u kpa vpa (dLen d % 64) = false →
      Ends i h s { v with appends := v.appends ++ [{ warp := s.cur, rel := rel, part := p, seqKey := seqKey d, kpa := kpa, vpa := vpa,
                                                       home := home, t := dLen d, k := rowWords w rb, v := rowWords w rc }] })) ∧
  (∀ (h : Hdr) (sink recent : Bool) (o : OpX4) (q : Handle) (s : State),
    let i := Instr.ksel h sink recent o
    let ix := curIx i h s
    let b := began i h s
    let w := warpOf s s.cur
    let t := teamOf s w.team
    let p := warpPart s s.cur
    let d := (val i h s o.b).pay
    let c := val i h s o.c
    issues i h s = true → w.width = 32 → descFaults ix ix.low (val i h s o.b) true = [] →
    handleArg ix t (val i h s o.d) (kselD (dBlocks d)) = .ok q → c.tag = .int → fld c.pay 48 16 = 0 → rowFaults ix w o.a = [] →
    ownerFaults ix t q.granules true = [] → appendPending b s.cur (seqKey d) = false → readPending b s.cur (seqKey d) = false →
    let gone := (slotOf s p (dSeq d)).draining && decide (dBlocks d ≠ 0)
    Ends i h s { b with ksels := b.ksels ++ [{ core := w.core, team := w.team, warp := s.cur, part := p, tile := (val i h s o.d).pay,
                                                 q := rowWords w o.a, desc := d, t := fld c.pay 0 32, win := fld c.pay 32 16,
                                                 sink := sink, recent := recent,
                                                 result := if gone = true then some ([wd (2 ^ 63)], some .kvmiss) else none,
                                                 epochs := [] }] }) ∧
  (∀ (h : Hdr) (o : OpX4) (q c : Handle) (s : State),
    let i := Instr.attn h o
    let ix := curIx i h s
    let b := began i h s
    let w := warpOf s s.cur
    let t := teamOf s w.team
    let p := warpPart s s.cur
    let d := (val i h s o.b).pay
    let es := listEntries t c
    issues i h s = true → w.width = 32 → descFaults ix ix.low (val i h s o.b) true = [] →
    handleArg ix t (val i h s o.d) attnD = .ok q → handleArg ix t (val i h s o.c) attnC = .ok c → rowFaults ix w o.a = [] →
    listErrors ix t c = [] → listFaults ix t c (dBlocks d) = [] → ownerFaults ix t q.granules true = [] →
    ownerFaults ix t c.granules false = [] → appendPending b s.cur (seqKey d) = false → readPending b s.cur (seqKey d) = false →
    (∀ e ∈ es, kvHeld s p (kvKey d (fld e 48 16)) = false) →
    ∃ u a, exec i s = .next u ∧ u.attns = s.attns ++ [a] ∧ a.core = w.core ∧ a.team = w.team ∧ a.warp = s.cur ∧ a.part = p ∧
      a.tile = (val i h s o.d).pay ∧ a.q = rowWords w o.a ∧ a.desc = d ∧ a.partials = [] ∧ a.acc = none ∧
      a.todo.length ≤ es.length ∧ (∀ x ∈ a.todo, ∃ e ∈ es, x.block = fld e 48 16 ∧ x.n = dTokens d x.block) ∧
      ((slotOf s p (dSeq d)).draining = true → es ≠ [] → a.todo = [] ∧ a.fault = some .kvmiss) ∧
      (es = [] → a.fault = none ∧ a.epochs = [])) ∧
  (∀ (h : Hdr) (d ra rb : Reg) (s : State),
    let i := Instr.kvxl h d ra rb
    let p := warpPart s s.cur
    let dv := fun l => (opnd s ra 0#4 l).pay
    let j := fun l => (opnd s rb 0#4 l).pay.toNat
    On i h s (fun l => descFaults (curIx i h s) l (opnd s ra 0#4 l) true = [] ∧ (opnd s rb 0#4 l).tag = .int ∧
      (j l < dBlocks (dv l) → kvHeld s p (kvKey (dv l) (j l)) = false)) →
    Gives i h s d (fun l =>
      if j l < 65536 ∧ j l < dBlocks (dv l) then
        (match (spGet KvEntry.none (partOf s p).kv (kvKey (dv l) (j l))).cur with
         | some e => ⟨.int, entryFor e (j l)⟩
         | none => nilVal)
      else nilVal))

/-- R342, R343, R370, R371: KVRET starts the slot of its sequence draining; KVMAP in supervisor state writes NEXT of the block's
entry, sets P and makes the slot live; KVSD releases at fabric scope and holds its range, or finishes at once when no chip need
be asked.
The model's choices: the room of the first stage and of the slots (log entry 66); KVSD waits for earlier accesses (log entries 23, 56). -/
def Obligations.KvMappingInstructions : Prop :=
  let val := fun (i : Instr) (h : Hdr) (s : State) (r : Reg) => opnd s r 0#4 (curIx i h s).low
  (∀ (h : Hdr) (ra : Reg) (s : State),
    let i := Instr.kvret h ra
    let p := warpPart s s.cur
    let seq := dSeq (val i h s ra).pay
    issues i h s = true → (val i h s ra).tag = .int →
    ∃ t, exec i s = .next t ∧
      slotOf t p seq = (if (slotOf s p seq).live = true then { slotOf s p seq with draining := true } else slotOf s p seq) ∧
      (∀ n, n ≠ seq → slotOf t p n = slotOf s p n) ∧ (∀ n, n ≠ p → partOf t n = partOf s n) ∧
      (∀ r l, readReg (warpOf t s.cur) r l = readReg (warpOf s s.cur) r l) ∧ ∀ a, memByte t a = memByte s a) ∧
  (∀ (h : Hdr) (ra rb rc : Reg) (s : State),
    let i := Instr.kvmap h ra rb rc
    let ix := curIx i h s
    let p := warpPart s s.cur
    let d := (val i h s ra).pay
    let c := val i h s rc
    let key := kvKey d (val i h s rb).pay.toNat
    let e := spGet KvEntry.none (partOf s p).kv key
    issues i h s = true → super (warpOf s s.cur) = true → descFaults ix ix.low (val i h s ra) false = [] →
    (val i h s rb).tag = .int → (val i h s rb).pay.toNat < 65536 → kvmapC s p c = true → kvHeld s p key = false →
    (e ≠ KvEntry.none ∨ (partOf s p).kv.length < kvRoom s p) →
    ((slotOf s p (dSeq d)).live = true ∨ (partOf s p).slots.length < 65536) →
    ∃ t, exec i s = .next t ∧
      spGet KvEntry.none (partOf t p).kv key = { e with next := if c.tag = .nil then none else some (eBody c.pay), p := true } ∧
      (∀ k, k ≠ key → spGet KvEntry.none (partOf t p).kv k = spGet KvEntry.none (partOf s p).kv k) ∧
      (slotOf t p (dSeq d)).live = true ∧ (∀ n, n ≠ dSeq d → slotOf t p n = slotOf s p n) ∧
      ∀ r l, readReg (warpOf t s.cur) r l = readReg (warpOf s s.cur) r l) ∧
  (∀ (h : Hdr) (ra rb : Reg) (s : State),
    let i := Instr.kvsd h ra rb
    let ix := curIx i h s
    let b := began i h s
    let p := warpPart s s.cur
    let d := (val i h s ra).pay
    let v := (val i h s rb).pay
    let n := fld v 16 17
    let lo := kvKey d (fld v 0 16)
    let u := release b (warpOf s s.cur).core .fabric
    let keys := kvPending u p lo n
    let o : KvsdOp := { id := u.nextKvsd, warp := s.cur, part := p, lo := lo, n := n, keys := keys, asked := [],
                        owed := (kvsdChips u p keys).filter (fun c => decide (c = p / 16) || !spGet false u.lost c) }
    let u := { u with kvsds := u.kvsds ++ [o], nextKvsd := u.nextKvsd + 1 }
    issues i h s = true → descFaults ix ix.low (val i h s ra) false = [] → (val i h s rb).tag = .int → fld v 33 31 = 0 →
    1 ≤ n → fld v 0 16 + n ≤ 65536 → warpBusy b s.cur = false →
    (∀ q ∈ s.kvsds, ¬(q.part = p ∧ q.lo < lo + n ∧ lo < q.lo + q.n)) →
    Ends i h s (if o.owed = [] then kvsdFinish u o else updWarp u s.cur (fun y => { y with wait := .kvsd o.id })))

/-- R324-R329: WQRY asks the Dresser for the next item; SIGNAL sends its update to the word's home; WAITS whose word satisfies the
condition goes on, with its acquire; CMPL releases at system scope and holds its record; DLAUNCH with room in the ring releases at
package scope and puts the record there; SVCALL sends s56-s59 to the service core and waits. SIGNAL needs room in the core's request
table (R256).
The model's choices: WAITS reads at the home (log entry 68); a faulting ring stops the queue (log entry 69); SIGNAL, CMPL and DLAUNCH
wait for the warp's earlier accesses (log entries 23, 56); a page request is kept until met (log entry 77). -/
def Obligations.PackageInstructions : Prop :=
  let val := fun (i : Instr) (h : Hdr) (s : State) (r : Reg) => opnd s r 0#4 (curIx i h s).low
  (∀ (h : Hdr) (ra : Reg) (q : Handle) (s : State),
    let i := Instr.wqry h ra
    let ix := curIx i h s
    let b := began i h s
    let t := teamOf s (warpOf s s.cur).team
    issues i h s = true → handleArg ix t (val i h s ra) (fun h => decide (8 ≤ h.dataBytes)) = .ok q →
    ownerFaults ix t q.granules true = [] →
    Ends i h s { b with wqrys := b.wqrys ++ [((warpOf s s.cur).team, (val i h s ra).pay)] }) ∧
  (∀ (h : Hdr) (op : SigOp) (rel : Bool) (o : OpSig) (s : State),
    let i := Instr.signal h op rel o
    let ix := curIx i h s
    let b := began i h s
    let p := (planMem b ix [ix.low] o.a .nil 0 8 8 [.w] true).check (signalPlace b op)
    issues i h s = true → Ready p → p.accs ≠ [] → (val i h s o.b).tag = .int →
    reqBusy p.s ix (reqScope (warpOf b s.cur) (if rel = true then .rel else .plain) o.scope).isSome p.accs = false →
    p.accs.length ≤ reqRoom p.s (warpOf b s.cur).core →
    Ends i h s (p.accs.foldl (fun u a => sendSignal u ix op (val i h s o.b).pay a)
      (beforeReqs p.s ix (if rel = true then .rel else .plain) o.scope p.accs))) ∧
  (∀ (h : Hdr) (cc : Cc) (acq : Bool) (o : OpSig) (a : Acc) (s : State),
    let i := Instr.waits h cc acq o
    let ix := curIx i h s
    let b := began i h s
    let c := (warpOf b s.cur).core
    let p := planMem b ix [ix.low] o.a .nil 0 8 8 [.r] true
    let r : State × Val := if ownMmio p.s c a.pa = true then (p.s, (⟨Tag.int, mmioRead p.s a.pa⟩ : Val))
      else waitsRead (readAtHome p.s c (a.pa / 8)) (warpPart b s.cur) a.pa a.leaf.t
    issues i h s = true → Ready p → p.accs = [a] → (val i h s o.b).tag = .int → mustDrain p.s s.cur p.accs = false →
    r.2.tag ≠ Tag.poison →
    (ccInt cc r.2.pay.toInt (val i h s o.b).pay.toInt = true → Ends i h s (if acq = true then acquire r.1 c o.scope else r.1)) ∧
    (ccInt cc r.2.pay.toInt (val i h s o.b).pay.toInt = false →
      exec i s = .next (waited i h s r.1 (.word a.pa a.leaf.ext cc (val i h s o.b).pay)))) ∧
  (∀ (h : Hdr) (ra : Reg) (s : State),
    let i := Instr.cmpl h ra
    let b := began i h s
    let w := warpOf s s.cur
    let g := (teamOf s w.team).grid
    let y := gridOf s g
    issues i h s = true → y.live = true → ((val i h s ra).tag = .int ∨ (val i h s ra).tag = .ptr) →
    warpBusy b s.cur = false →
    Ends i h s (updWarp (holdCompl (release b w.core .system) y.queue
      { index := y.index, gridno := g, status := 0, kind := 1, user := (val i h s ra).pay, warp := some s.cur, sig := none })
      s.cur (fun z => { z with wait := .record y.queue }))) ∧
  (∀ (h : Hdr) (ra rb : Reg) (u v : State) (ws : List Word) (s : State),
    let i := Instr.dlaunch h ra rb
    let ix := curIx i h s
    let b := began i h s
    let p := warpPart s s.cur
    let av := val i h s ra
    let q := p / 16 * 131072 + (val i h s rb).pay.toNat
    let x := queueOf (release u (warpOf b s.cur).core .package) q
    issues i h s = true → (av.tag = .int ∨ av.tag = .ptr) → fld av.pay 48 16 = 0 → av.pay.toNat % 128 = 0 →
    (val i h s rb).tag = .int → queueGranted s p (val i h s rb).pay.toNat = true → warpBusy b s.cur = false →
    readRecord b s.cur av.pay.toNat = .ok u ws → (x.tail - x.head).toNat < 2 ^ x.rlog →
    ringPut (release u (warpOf b s.cur).core .package) ix p q ws = .ok v → Ends i h s v) ∧
  (∀ (h : Hdr) (n : BitVec 16) (s : State),
    let i := Instr.svcall h n
    let w := warpOf s s.cur
    issues i h s = true → isService w.core = false →
    Ends i h s (updWarp (tellSvc (began i h s) (warpPart s s.cur)
      (.svcall s.cur n.toNat [uniReg w 56, uniReg w 57, uniReg w 58, uniReg w 59])) s.cur (fun y => { y with wait := .svcall })))

/-- R330-R334, R344: in supervisor state PRMT stops or resumes the named grid of the partition; CTXSV of a grid with a stopped
team writes the team's block and frees the team; CTXLD of a whole block restores its team on a core with room; each writes its
result; ICINV drops the instruction lines of versions that no resident warp is bound to. Outside supervisor state each of the four raises
PRIV.
The model's choices: which team is saved is a free choice (log entry 8); the places within the block (log entry 25); wrong tags,
damaged words and grids that are not live (log entry 78); ALIGN and XLAT of the block's address (log entry 104); PRIV is reported in the
lowest executing lane alone (log entry 40). -/
def Obligations.PreemptionInstructions : Prop :=
  let val := fun (i : Instr) (h : Hdr) (s : State) (r : Reg) => opnd s r 0#4 (curIx i h s).low
  (∀ (h : Hdr) (ra : Reg) (s : State),
    let i := Instr.prmt h ra
    let b := began i h s
    let w := warpOf s s.cur
    let v := (val i h s ra).pay
    let g := fld v 0 32
    issues i h s = true → super w = true → (val i h s ra).tag = .int → fld v 33 31 = 0 →
    Ends i h s (
      if mayName s w.core (warpPart s s.cur) g = false then b
      else if bitAt v 32 = true then resumeGrid (updGrid b g (fun y => { y with stopped := false })) g
      else wakeStop (updWarp (stopGrid (updGrid b g (fun y => { y with stopped := true })) g) s.cur
        (fun y => { y with wait := .stop g })) g)) ∧
  (∀ (h : Hdr) (ra : Reg) (os ps qs : List (Nat × Leaf)) (t0 : Nat) (ts : List Nat) (s : State),
    let i := Instr.ctxsv h ra
    let ix := curIx i h s
    let b := began i h s
    let w := warpOf b s.cur
    let va := (val i h s ra).pay.toNat
    let u := blockEvict b w.core ps
    let g := fld (blockRead u ps 0).data 32 32
    let r := takeFree u
    let t := ((t0 :: ts)[r.1 % (t0 :: ts).length]?).getD t0
    let n := blockSize r.2 t (gridOf r.2 g).words
    let f := release (blockEvict r.2 w.core qs) (teamOf r.2 t).core .package
    let bs := (List.range (blockWords f t 0).length).zip (blockWords f t 0)
    issues i h s = true → blockFaults ix w (val i h s ra) = [] → blockPages b s.cur va 4096 .r = .ok os →
    blockPages b s.cur va 4096 .w = .ok ps → warpBusy b s.cur = false → mayName u w.core (warpPart u s.cur) g = true →
    savable u g = t0 :: ts → n ≤ (blockRead r.2 ps 2).data.toNat → blockPages r.2 s.cur va n .w = .ok qs →
    Ends i h s (dropTeam ((bs.take 3).foldl (fun s e => blockWrite s qs e.1 e.2)
      ((bs.drop 3).foldl (fun s e => blockWrite s qs e.1 e.2) f)) t)) ∧
  (∀ (h : Hdr) (ra : Reg) (os ps qs : List (Nat × Leaf)) (x : Restored) (c base : Nat) (s : State),
    let i := Instr.ctxld h ra
    let ix := curIx i h s
    let b := began i h s
    let w := warpOf b s.cur
    let va := (val i h s ra).pay.toNat
    let u := blockEvict b w.core ps
    let loc := (blockRead u ps 0).data
    let g := fld loc 32 32
    let size := (blockRead u ps 2).data.toNat
    let f := blockEvict u w.core qs
    let y := gridOf f g
    issues i h s = true → blockFaults ix w (val i h s ra) = [] → blockPages b s.cur va 4096 .r = .ok os →
    blockPages b s.cur va 4096 .w = .ok ps → warpBusy b s.cur = false → mayName u w.core (warpPart u s.cur) g = true →
    (gridOf u g).live = true → size ≤ 2 ^ 22 → blockPages u s.cur va size .r = .ok qs →
    (List.range (size / 8)).any (fun k => (blockRead f qs k).bad) = false →
    readBlock (fun k => (blockRead f qs k).data) y g f.nextTeam = some x → targetCore f y.part loc y.words = some (c, base) →
    Ends i h s (blockWrite (enterTeam f c base x) ps 1 0)) ∧
  (∀ (h : Hdr) (ra : Reg) (s : State),
    let i := Instr.icinv h ra
    let b := began i h s
    let v := val i h s ra
    issues i h s = true → super (warpOf s s.cur) = true → (v.tag = .int ∨ v.tag = .nil) →
    Ends i h s ((coresOf s (warpPart s s.cur)).foldl (fun u c => icDrop u c (if v.tag = .nil then none else some v.pay.toNat)) b)) ∧
  (∀ mk ∈ ([Instr.prmt, Instr.icinv] : List (Hdr → Reg → Instr)), ∀ (h : Hdr) (ra : Reg) (s : State),
    let i := mk h ra
    issues i h s = true → super (warpOf s s.cur) = false → (val i h s ra).tag = .int → fld (val i h s ra).pay 33 31 = 0 →
    exec i s = .next (trapped i h s [faultAt (curIx i h s) (curIx i h s).low .priv] 0 [])) ∧
  (∀ mk ∈ ([Instr.ctxsv, Instr.ctxld] : List (Hdr → Reg → Instr)), ∀ (h : Hdr) (ra : Reg) (s : State),
    let i := mk h ra
    let v := val i h s ra
    issues i h s = true → super (warpOf s s.cur) = false → (v.tag = .int ∨ v.tag = .ptr) → fld v.pay 48 16 = 0 →
    v.pay.toNat % 4096 = 0 → exec i s = .next (trapped i h s [faultAt (curIx i h s) (curIx i h s).low .priv] 0 []))

/-! ## What the device does by itself -/

/-- R150, R157, R158, R183, R329: a sleep is over when its cycles have passed; a trap that waited for older loads is taken once
nothing is outstanding, and halts a warp under TIP or without a TRAPV; a load's result is written and its register's mark taken
back, and so is an atomic's; a service call's reply fills s56 and s57.
The model's choices: a sleep runs from its issue (log entry 28); exited lanes keep their state at a trap (log entry 30); SVCALL's reply
comes from outside (log entry 70). -/
def Obligations.WaitingWarpsGoOn : Prop :=
  (∀ (w till : Nat) (pc : Word) (ls : List Nat) (s : State), (warpOf s w).wait = .sleep till pc ls →
    exec (.sleepExpiry w) s = .next (if till ≤ (coreOf s (warpOf s w).core).cyc then
      updWarp s w (fun x => { x with wait := .none }) else s)) ∧
  (∀ (w : Nat) (t : TrapRec) (s : State), (warpOf s w).pendTrap = some t →
    (outstanding s w = true → exec (.trapEntry w) s = .next s) ∧
    (outstanding s w = false → tip (warpOf s w) = false → (warpOf s w).trapv ≠ 0 →
      ∃ u, exec (.trapEntry w) s = .next u ∧ tip (warpOf u w) = true ∧ (warpOf u w).pendTrap = none ∧
        (∀ r k, readReg (warpOf u w) r k = readReg (warpOf s w) r k) ∧
        ∀ l ∈ aliveLanes (warpOf s w), laneOf (warpOf u w) l = { laneOf (warpOf s w) l with
          elpc := if l ∈ t.past then t.pc + 8 else (laneOf (warpOf s w) l).lpc,
          estat := (match t.lanes.find? (fun e => decide (e.1 = l)) with
            | some e => wd (e.2 * 256 + causeCode t.cause)
            | none => 0),
          resv := none, act := .ready, lpc := (warpOf s w).trapv }) ∧
    (outstanding s w = false → tip (warpOf s w) = true ∨ (warpOf s w).trapv = 0 →
      ∃ u, exec (.trapEntry w) s = .next u ∧ (warpOf u w).halted = true ∧ (warpOf u w).lanes = (warpOf s w).lanes ∧
        ∀ r k, readReg (warpOf u w) r k = readReg (warpOf s w) r k)) ∧
  (∀ (c n l : Nat) (r : Req) (x : Dst) (v : Val) (s : State), spGet none (coreOf s c).reqs n = some r → r.outs = [(x, some v)] →
    ∃ u, exec (if r.atomic = true then .atomicReply c n else .resultArrival c n) s = .next u ∧
      spGet none (coreOf u c).reqs n = none ∧ (∀ a, memByte u a = memByte s a) ∧
      (∀ k, x = .lane k l → laneReg (warpOf u r.warp) k l = v ∧
        spGet 0 (warpOf u r.warp).pend k = spGet 0 (warpOf s r.warp).pend k - 1) ∧
      (∀ k, x = .uni k → uniReg (warpOf u r.warp) k = v ∧
        spGet 0 (warpOf u r.warp).pend (128 + k) = spGet 0 (warpOf s r.warp).pend (128 + k) - 1)) ∧
  (∀ (w : Nat) (x y : Val) (s : State), (warpOf s w).wait = .svcall → regTag x.tag = true → regTag y.tag = true →
    ∃ u, exec (.svcallReply w x y) s = .next u ∧ uniReg (warpOf u w) 56 = x ∧ uniReg (warpOf u w) 57 = y ∧
      (warpOf u w).wait = .none ∧ (∀ k, k ≠ 56 → k ≠ 57 → uniReg (warpOf u w) k = uniReg (warpOf s w) k) ∧
      (∀ k l, laneReg (warpOf u w) k l = laneReg (warpOf s w) k l) ∧ (∀ v, v ≠ w → warpOf u v = warpOf s v) ∧
      ∀ a, memByte u a = memByte s a)

/-- R146, R148, R190, R222, R326: a partition without a run takes the ready warp of highest priority, then of greatest age, from
its lowest group or the one that the fairness rule names, and the warps that yielded are ready again; a filled line and a finished
walk let their warp go on; a watched word is read again at its home, and its warp goes on when the condition holds or the word
is POISON.
The model's choices: the line that leaves a full buffer is a free choice (log entry 8); a failed walk is kept for the warp (log entry
39); a watched word is read at its home (log entry 68); an FCNT beyond F hands over (log entry 99). -/
def Obligations.RunsAndFillsAreServed : Prop :=
  (∀ (c p : Nat) (s : State), (spGet Run.none (coreOf s c).runs p).active = true → exec (.runSelect c p) s = .next s) ∧
  (∀ (c p : Nat) (s : State),
    let ws := (slotWarps s c p).filter (warpReady s)
    (spGet Run.none (coreOf s c).runs p).active = false → ws ≠ [] →
    ∃ u w, let r := spGet Run.none (coreOf u c).runs p
      exec (.runSelect c p) s = .next u ∧ w ∈ ws ∧
      (∀ v ∈ ws, (warpOf s v).prio < (warpOf s w).prio ∨
        ((warpOf s v).prio = (warpOf s w).prio ∧ (warpOf s w).age ≤ (warpOf s v).age)) ∧
      r.active = true ∧ r.warp = w ∧ r.count = 0 ∧ (r.multi = true ↔ 1 < (groupPcs (warpOf s w)).length) ∧
      r.low = !handsOver (warpOf s w) ∧ r.next = (issuePc (runStart (warpOf s w))).getD 0 ∧
      (∀ v, v ≠ w → (warpOf s v).core = c → (warpOf s v).slot = p → (warpOf s v).wait = .yield → (warpOf u v).wait = .none)) ∧
  (∀ (c line w : Nat) (s : State), spFind s.warps (fun _ x => decide (x.core = c ∧ x.wait = .fill line)) = [w] →
    ∃ u, exec (.instructionFill c line) s = .next u ∧ (warpOf u w).wait = .none ∧
      ∃ e ∈ (coreOf u c).ibuf, e.line = line ∧ e.version = (teamOf s (warpOf s w).team).version) ∧
  (∀ (w v : Nat) (s : State),
    let x := warpOf s w
    let p := warpPart s w
    let s0 := updWarp s w (fun y => { y with wait := .none })
    (x.wait = .walk [v] ∨ x.wait = .fetchWalk v) →
    (∀ l, walk s0 x.core p (rootOf s w) v = .leaf l → l.h = false →
      ∃ u, exec (.translationWalkDone w) s = .next u ∧ (warpOf u w).wait = .none ∧
        tlbFind (coreOf u x.core) p (rootOf s w) v = some l) ∧
    (∀ l, walk s0 x.core p (rootOf s w) v = .leaf l → l.h = true → spGet none (partOf s p).iommu (l.pa / 4096) = none →
      ∃ u, exec (.translationWalkDone w) s = .next u ∧ (warpOf u w).wait = (if x.wait = .walk [v] then .pri l.pa v else .fetchPri l.pa v) ∧
        Report.priRequest p l.pa ∈ u.rootReports) ∧
    (∀ c, walk s0 x.core p (rootOf s w) v = .fault c →
      ∃ u, exec (.translationWalkDone w) s = .next u ∧ (warpOf u w).wait = .none ∧ (warpOf u w).walkFault = (v, c) :: x.walkFault)) ∧
  (∀ (w pa : Nat) (ext : Bool) (cc : Cc) (b : Word) (s : State),
    let r := waitsRead s (warpPart s w) pa (isTagged s pa)
    (warpOf s w).wait = .word pa ext cc b → ownMmio s (warpOf s w).core pa = false →
    exec (if isHost pa = true then .waitsHostPoll w else .waitsRecheck w) s =
      .next (if r.2.tag = .poison ∨ ccInt cc r.2.pay.toInt b.toInt = true then
        updWarp r.1 w (fun x => { x with wait := .none }) else r.1))

/-- R205, R207-R210, R241-R243, R245, R267: the next step of the matrix array leaves the queue, its operands become thread-owned, and no
tile but its own changes. A step of an MMA, MMAP or MMAB adds to each element the exact sum of the products, rounded once RN to the tile's
format, an MMAP of more than 64 columns as a paired step on two tiles, an MMAB with the source tile's elements converted to B's format; p
becomes the largest magnitude and b the bound of R207, both rounded up and infinite once an element is not finite, and X is set where the
threshold is exceeded (R208). ACCZ zeroes a tile and ACCW a pair, with p, b and X, ACCLD loads a tile's elements with their p and bound, and
BNDSET sets the threshold and clears X.
The model's choices: a product of 0 and an infinity is NaN (log entry 113); what a damaged accumulator or an odd tile keeps (log entry
61); X of an ACCLD follows p (log entry 114). -/
def Obligations.MatrixStepsAccumulate : Prop :=
  let step := fun (o : MatOp) (core : Nat) => if isPaired o = true then Instr.pairedStep core else Instr.matrixStep core
  let inf := BitVec.ofNat 32 fF32.infBits
  let f32 := fun (x : BitVec 32) => fF32.dec x.toNat
  let same := fun (t u : Team) (d : Nat) => selvOf u d = selvOf t d ∧ ∀ r c, r < 64 → c < 64 → accBits u d r c = accBits t d r c
  let zero := fun (u : Team) (d : Nat) => ∀ r c, r < 64 → c < 64 → accBits u d r c = 0
  let added := fun (t u : Team) (d m : Nat) (row : Nat → List (Nat × Machine.Num)) (pA eA : Machine.Num) (b : Handle) (c0 n : Nat) =>
    let v := selvOf t d
    let w := selvOf u d
    let f := accFmt v.w
    let pB := maxMag ((List.range n).map (fun c => (List.range b.rows).map (fun k => eltB t b k (c0 + c)))).flatten
    let eB := hdrMag (hdrBound t b)
    let k : Machine.Num := .fin false b.rows 0
    let fine := (accAll u d).all Num.isFin
    (∀ r c, r < 64 → c < 64 → accBits u d r c =
      if r < m ∧ c < n then
        wd (f.enc .rn (sumNum (f.dec (accBits t d r c).toNat :: (row r).map (fun e => mulNum e.2 (eltB t b e.1 (c0 + c))))))
      else accBits t d r c) ∧
    w.w = v.w ∧ w.tau = v.tau ∧
    (fine = true → w.peak = f32Up (maxMag (accAll u d)) ∧
      w.bound = f32Up (sumNum [f32 v.bound, mulNum (.fin false 1 (if v.w = true then -53 else -24)) (f32 w.peak),
        mulNum k (mulNum pA eB), mulNum k (mulNum pB eA), mulNum k (mulNum eA eB)]) ∧
      w.x = (v.x || (decide (v.tau ≠ 0) && decide (cmpNum (f32 w.bound) (mulNum (f32 v.tau) (f32 w.peak)) = some .gt)))) ∧
    (fine = false → w.peak = inf ∧ w.bound = inf ∧ w.x = (v.x || decide (v.tau ≠ 0)))
  ∀ (core : Nat) (o : MatOp) (s : State), matNext s core = some o →
    ∃ u, exec (step o core) s = .next u ∧ (coreOf u core).matq = (coreOf s core).matq.erase o ∧
      (∀ g ∈ matGranules o, engineOwned (teamOf u o.team) g = false) ∧ (∀ a, memByte u a = memByte s a) ∧
      (let t := teamOf s o.team
       let u := teamOf u o.team
       let v := selvOf t o.acc
       (∀ d, d ≠ o.acc → d ≠ o.acc + 1 → same t u d) ∧
       (∀ a b, o.kind = .mma a b ∨ o.kind = .mmap a b →
         let x := handleOf a
         let y := handleOf b
         let pA := maxMag ((List.range x.rows).map (fun r => (rowA t x r).map (fun e => e.2))).flatten
         x.rows ≤ 64 → (∀ r, r < x.rows → ∀ e ∈ rowA t x r, e.1 < y.rows) → y.cols ≤ 128 → (o.kind = .mma a b → y.cols ≤ 64) →
         added t u o.acc x.rows (rowA t x) pA (hdrMag (hdrBound t x)) y 0 (min y.cols 64) ∧
         (64 < y.cols → added t u (o.acc + 1) x.rows (rowA t x) pA (hdrMag (hdrBound t x)) y 64 (y.cols - 64)) ∧
         (y.cols ≤ 64 → same t u (o.acc + 1))) ∧
       (∀ src b, o.kind = .mmab src b →
         let y := handleOf b
         let old := fun r => (List.range y.rows).map (fun c => accVal t src r c)
         let conv := fun r => ((rowOut y (old r)).map (fun q => q.vals)).flatten
         let err := maxErr ((List.range 64).map old).flatten ((List.range 64).map conv).flatten
         y.rows ≤ 64 → y.cols ≤ 64 →
         added t u o.acc 64 (fun r => (List.range y.rows).zip (conv r)) (f32 (selvOf t src).peak)
           (sumNum [f32 (selvOf t src).bound, err]) y 0 y.cols ∧ same t u (o.acc + 1)) ∧
       (o.kind = .accz → zero u o.acc ∧ selvOf u o.acc = { v with w := false, x := false, peak := 0, bound := 0 } ∧
         (v.w = true → zero u (o.acc + 1) ∧
           selvOf u (o.acc + 1) = { selvOf t (o.acc + 1) with w := false, x := false, peak := 0, bound := 0 }) ∧
         (v.w = false → same t u (o.acc + 1))) ∧
       (o.kind = .accw → zero u o.acc ∧ zero u (o.acc + 1) ∧
         selvOf u o.acc = { v with w := true, x := false, peak := 0, bound := 0 } ∧
         selvOf u (o.acc + 1) = { selvOf t (o.acc + 1) with w := false, x := false, peak := 0, bound := 0 }) ∧
       (∀ a, o.kind = .accld a →
         let x := handleOf a
         let val := fun r c => tfmtDec x.f (eltRead t x r c)
         let m := maxMag ((List.range x.rows).map (fun r => (List.range x.cols).map (val r))).flatten
         x.rows ≤ 64 → x.cols ≤ 64 →
         same t u (o.acc + 1) ∧
         (∀ r c, r < 64 → c < 64 → accBits u o.acc r c =
           if r < x.rows ∧ c < x.cols then wd ((accFmt v.w).enc .rn (val r c)) else 0) ∧
         selvOf u o.acc = { v with
           peak := f32Up m
           bound := if f32Up m = inf then inf else BitVec.ofNat 32 (fF32.enc .ru (hdrMag (hdrBound t x)))
           x := decide (f32Up m = inf) && decide (v.tau ≠ 0) }) ∧
       (∀ tau, o.kind = .bndset tau → selvOf u o.acc = { v with tau := tau, x := false } ∧ same t u (o.acc + 1) ∧
         ∀ r c, r < 64 → c < 64 → accBits u o.acc r c = accBits t o.acc r c))

/-- R197, R200, R209, R211, R324: the copy engine's next copy waits while the host owes a translation, else it moves its data and
its footprints become thread-owned, its first fault recorded; WQRY's reply puts the next item, or 0xFFFFFFFF, in the tile.
The model's choices: when a copy runs and what a bad stride is (log entry 56); padding of TAP6 rows (log entry 57); damaged list words
(log entry 59); one record a granule, the worst cause (log entry 55); a page request is kept until met (log entry 77). -/
def Obligations.CopiesAndQueriesComplete : Prop :=
  (∀ (core : Nat) (o : CopyOp) (s : State),
    (coreOf s core).copyq.find? (fun o => !teamHeld s o.team) = some o →
    (copyOwed s core o ≠ [] → exec (.copyExecute core) s = .next (askHost s (teamOf s o.team).part (copyOwed s core o))) ∧
    (copyOwed s core o = [] →
      let r := copyRun (updCore s core (fun k => { k with copyq := k.copyq.erase o })) core o
      ∃ u, exec (.copyExecute core) s = .next u ∧
        (∀ g ∈ copyGranules o.mode o.tile o.c, engineOwned (teamOf u o.team) g = false) ∧
        (teamOf u o.team).scratch = (teamOf r.s o.team).scratch ∧ (∀ a, memByte u a = memByte r.s a) ∧
        (∀ g f, r.fault = some (g, f) → ∃ e, spGet none (teamOf u o.team).frec g = some e ∧ causePrio e.cause ≤ causePrio f.cause) ∧
        (r.fault = none → (teamOf u o.team).frec = (teamOf r.s o.team).frec))) ∧
  (∀ (n team : Nat) (tile : Word) (s : State), s.wqrys[n]? = some (team, tile) →
    let h := handleOf tile
    let g := gridOf s (teamOf s team).grid
    let more := g.nextItem < fld (recWord g.words 6) 0 32
    ∃ u, exec (.wqryReply n) s = .next u ∧ u.wqrys = s.wqrys.eraseIdx n ∧
      (∀ k ∈ h.granules, engineOwned (teamOf u team) k = false) ∧
      (teamOf u team).scratch = (scrWrite (teamOf s team) .lin h.data 8 (if more then g.nextItem else 0xFFFFFFFF)).scratch ∧
      gridOf u (teamOf s team).grid = (if more then { g with nextItem := g.nextItem + 1 } else g))

/-- R222, R282, R284, R285, R288, R289, R292, R377: an append is performed at its home, in order within one warp and sequence, or dropped and
reported when the home of one of its lines does not take it; the page selectors choose the blocks; a KSEL's list and an ATTN's triple are
written, and their tile becomes thread-owned; partial triples are computed and merged, a page that cannot be read leaves its cause, and the
loss of a chip before the merge takes the triples of its blocks away and leaves PROT.
The model's choices: when a sequence is looked up and counted (log entry 66); the exponential and the order of merges are free (log
entries 67, 8); an append drops the core's older copies of its lines (log entry 121) and is dropped whole (log entry 129). -/
def Obligations.KvOperationsComplete : Prop :=
  (∀ (n : Nat) (a : Append) (s : State), s.appends[n]? = some a →
    let u := { s with appends := s.appends.eraseIdx n }
    let first := (s.appends.take n).all (fun b => !decide (b.warp = a.warp ∧ b.seqKey = a.seqKey))
    (first = false → exec (.kvappPerform n) s = .next s) ∧
    let takes := fun (l : Nat) => kvServed u a.part l = true ∧ codePage u (256 * l) = false
    (first = true → (∀ l ∈ appendLines a.kpa a.vpa (a.t % 64), takes l) →
      exec (.kvappPerform n) s = .next (wakeAppend (appendNotes (appendAt u a) a) a.warp)) ∧
    (first = true → (∃ l ∈ appendLines a.kpa a.vpa (a.t % 64), ¬ takes l) →
      ∃ l ∈ appendLines a.kpa a.vpa (a.t % 64), ¬ takes l ∧
        exec (.kvappPerform n) s = .next (wakeAppend (tellDropped u a.part (256 * l)) a.warp))) ∧
  (∀ (n : Nat) (k : KselOp) (u : State) (ss : List Swatch) (s : State), s.ksels[n]? = some k →
    let js := List.range (dBlocks k.desc)
    let c := if js.any (fun j => (spGet KvEntry.none (partOf s k.part).kv (kvKey k.desc j)).cur.isSome) = true then
      kvCount s k.part (dSeq k.desc) else (s, [])
    (∀ w, k.result = some w → exec (.pageSelect n) s = .next s) ∧
    (k.result = none → (∃ j ∈ js, kvHeld s k.part (kvKey k.desc j) = true) → exec (.pageSelect n) s = .next s) ∧
    (k.result = none → (∀ j ∈ js, kvHeld s k.part (kvKey k.desc j) = false) →
      js.foldl (fun (a : State × List Swatch) j => ((blockBounds a.1 k j).1, a.2 ++ [(blockBounds a.1 k j).2])) (c.1, []) = (u, ss) →
      exec (.pageSelect n) s = .next { u with ksels := u.ksels.set n { k with result := some (kselResult k ss), epochs := c.2 } })) ∧
  (∀ (n : Nat) (k : KselOp) (ws : List Word) (f : Option Cause) (s : State), s.ksels[n]? = some k → k.result = some (ws, f) →
    let h := handleOf k.tile
    ∃ u, exec (.kselComplete n) s = .next u ∧ u.ksels = s.ksels.eraseIdx n ∧
      (∀ g ∈ h.granules, engineOwned (teamOf u k.team) g = false) ∧
      (teamOf u k.team).scratch = (wordsWrite (teamOf s k.team) h.data ws).scratch ∧
      (∀ c, f = some c → ∃ e, spGet none (teamOf u k.team).frec (h.granules.headD 0) = some e ∧ causePrio e.cause ≤ causePrio c)) ∧
  (∀ (n block : Nat) (b : AttnBlock) (a : AttnOp) (u v : State) (r q : Except Cause (List Word)) (s : State), s.attns[n]? = some a →
    a.todo.find? (fun b => decide (b.block = block)) = some b → pageRead s a.part b.kpa (32 * b.n) = (u, r) →
    pageRead u a.part b.vpa (32 * b.n) = (v, q) →
    let left := a.todo.filter (fun b => decide (b.block ≠ block))
    let set := fun (t : State) (x : AttnOp) => Host.Outcome.next { t with attns := t.attns.set n x }
    (∀ ks vs, r = .ok ks → q = .ok vs → exec (.attnPartial n block) s = set v
      { a with todo := left, partials := a.partials ++ [(block, attnTriple a.q (rowsOf ks b.n) (rowsOf vs b.n))] }) ∧
    (∀ c, r = .error c → exec (.attnPartial n block) s = set u { a with todo := left, fault := worseCause a.fault (some c) }) ∧
    (∀ ks c, r = .ok ks → q = .error c →
      exec (.attnPartial n block) s = set v { a with todo := left, fault := worseCause a.fault (some c) })) ∧
  (∀ (n chip : Nat) (a : AttnOp) (s : State), s.attns[n]? = some a → chip < 64 → a.part / 16 ≠ chip →
    let own := fun (j : Nat) => blockChip a j = some chip
    ∃ u x, exec (.remoteHomeLost chip) s = .next u ∧ u.attns[n]? = some x ∧
      (∀ b ∈ x.todo, b ∈ a.todo ∧ ¬ own b.block) ∧ (∀ b ∈ x.partials, b ∈ a.partials ∧ ¬ own b.1) ∧
      ((∃ b ∈ a.todo, own b.block) ∨ (∃ b ∈ a.partials, own b.1) → ∃ c, x.fault = some c ∧ causePrio c ≤ causePrio .prot)) ∧
  (∀ (n block : Nat) (a : AttnOp) (t : Triple) (s : State), s.attns[n]? = some a → a.partials = [(block, t)] →
    let m := match a.acc with
      | some x => mergeTriple x t
      | none => t
    ∃ u, exec (.attnMerge n block) s = .next u ∧ u.attns[n]? = some { a with partials := [], acc := some m }) ∧
  (∀ (n block : Nat) (a : AttnOp) (s : State), s.attns[n]? = some a → a.todo = [] → a.partials = [] →
    let h := handleOf a.tile
    let t := if a.fault.isSome then ⟨BitVec.ofNat 32 fF32.qnan, 0, List.replicate 128 0⟩ else a.acc.getD emptyTriple
    ∃ u, exec (.attnMerge n block) s = .next u ∧ u.attns = s.attns.eraseIdx n ∧
      (∀ g ∈ h.granules, engineOwned (teamOf u a.team) g = false) ∧
      (teamOf u a.team).scratch = (tripleWrite (teamOf s a.team) h t).scratch)

/-- R222, R255, R257, R270, R294, R366, R367, R371: a service warp performs the request at the head of its queue unless its engine has
stopped; a stop is reported and keeps the queue; a restart keeps the intact requests in order and answers with POISON 0x0040 the lost ones
and those that have not entered the queue; a request given up by the network is answered so too, reported and logged; a lost home keeps
no request; a peer's request is served when every word is admitted, else it is refused, reported and answered with POISON 0x0021; links
go down and come back, and a chip that comes back has empty KTBs.
The model's choices: the sources of the round-robin (log entry 122), restarts from outside (log entry 70), a peer's requests and their
reports (log entry 85), the links' numbers (log entry 27), code pages (log entry 32). -/
def Obligations.ServiceWarpsAndLinks : Prop :=
  (∀ (g : Nat) (r : AswReq) (q : List AswReq) (s : State),
    let x := aswRefill (aswOf s g)
    x.queue = r :: q →
    ((aswOf s g).halted = true → exec (.aswRequest g) s = .next s) ∧
    ((aswOf s g).halted = false →
      let s0 := setAsw s g (aswRefill { x with queue := q })
      exec (.aswRequest g) s = .next (performReq s0 r) ∧
      ∀ d op b c, r.op = .atom op [(d, b, c)] → r.acq = none → r.slot ≠ 0 →
        let e := actAt (l1DropLine s0 r.core (r.pa / 256)) r.pa r.tagged (fun w => atomWord op r.tagged w b c)
        performReq s0 r = wakeHome (wakeWord (wakeDrained (setReply e.1 r.core r.slot [e.2]) r.warp) r.pa))) ∧
  (∀ (g : Nat) (s : State),
    ((aswOf s g).queue = [] → exec (.aswStallTimeout g) s = .next s) ∧
    ∀ i ∈ [Instr.aswStallTimeout g, .aswFirmwareHalt g], (aswOf s g).queue ≠ [] →
      ∃ u p, exec i s = .next u ∧ (aswOf u g).halted = true ∧ (aswOf u g).queue = (aswOf s g).queue ∧
        Report.aswStopped g ∈ (partOf u p).svc) ∧
  (∀ (g : Nat) (intact : List Bool) (s : State),
    let q := (aswOf s g).queue.zip (intact ++ List.replicate (aswOf s g).queue.length false)
    let lost := (q.filter (fun e => !e.2)).map (·.1) ++ (aswOf s g).waiting
    let told := fun (r : AswReq) => ∃ op b, r.op = .signal op b
    ((aswOf s g).halted = false → exec (.aswRestart g intact) s = .next s) ∧
    ((aswOf s g).halted = true →
      ∃ u, exec (.aswRestart g intact) s = .next u ∧ (aswOf u g).halted = false ∧
        (aswOf u g).queue = (q.filter (fun e => e.2)).map (·.1) ∧ (aswOf u g).waiting = [] ∧
        (∀ r ∈ lost, r.slot ≠ 0 → told r → spGet none (coreOf u r.core).reqs r.slot = none) ∧
        ∀ r ∈ lost, ∀ x, r.slot ≠ 0 → (∀ op b c, r.op ≠ .pcie op b c) → (∀ op b c, r.op ≠ .peer op b c) →
          (∀ m ∈ lost, m.core = r.core → m.slot = r.slot → ¬ told m) →
          spGet none (coreOf s r.core).reqs r.slot = some x → x.outs.length ≤ 64 →
          ∃ y, spGet none (coreOf u r.core).reqs r.slot = some y ∧
            y.outs = x.outs.map (fun o => (o.1, some (o.2.getD (poisonVal 0x40)))))) ∧
  (∀ (c n : Nat) (s : State),
    (spGet none (coreOf s c).reqs n = none → exec (.networkRetryExhausted c n) s = .next s) ∧
    ∀ r, spGet none (coreOf s c).reqs n = some r → ∃ u, exec (.networkRetryExhausted c n) s = .next u ∧
      spGet none (coreOf u c).reqs n =
        (if r.outs = [] then none else some { r with outs := r.outs.map (fun e => (e.1, some (poisonVal 0x40))) }) ∧
      Report.netRetry c ∈ (partOf u (l1Part s c)).svc ∧ (∃ e ∈ spGet [] u.errlog (coreChip c), e.seq = spGet 0 s.errseq (coreChip c)) ∧
      ∀ a, memByte u a = memByte s a) ∧
  (∀ (chip : Nat) (s : State), ∃ u, exec (.remoteHomeLost chip) s = .next u ∧ spGet false u.lost chip = true ∧
    (∀ d, d ≠ chip → spGet false u.lost d = spGet false s.lost d) ∧
    ∀ g, ∀ r ∈ (aswOf u g).all, (∀ op b c, r.op ≠ .peer op b c) → homeAnswers u (coreChip r.core) r.pa = true) ∧
  (∀ (src chip part pa : Nat) (t : Bool) (s : State),
    let p := src * 16 + part % 16
    let ok := fun (n : Nat) (writes : Bool) => paChip pa = chip ∧ pa < 2 ^ 52 ∧
      ∀ k ∈ wordsOf pa n, peerAdmits s p (k * 8) t = true ∧ homeAnswers s chip (k * 8) = true ∧
        (writes = true → codePage s (k * 8) = false)
    (∀ n, ok n false → exec (.fabricRequest src chip part pa t (.read n)) s = .next { s with answers := s.answers ++
      [match agentRead s pa n with
       | some b => .data b
       | none => .value (poisonVal 0x40)] }) ∧
    (∀ bs tag, ok bs.length true → exec (.fabricRequest src chip part pa t (.write bs tag)) s = .next (agentWrite s pa bs (tag.getD .int))) ∧
    (∀ op b c, ok 8 true → exec (.fabricRequest src chip part pa t (.atomic op b c)) s =
      .next (sendReq s p { core := src * 512 + 320 + part % 16, slot := 0, warp := 0, pa := pa / 8 * 8, tagged := t,
                           op := .peer op b c, acq := none, racq := false })) ∧
    (∀ n, ¬ok n false → ∃ u, exec (.fabricRequest src chip part pa t (.read n)) s = .next u ∧
      u.answers = s.answers ++ [.value (poisonVal 0x21)] ∧ Report.refused src part pa ∈ (partOf u p).svc ∧
      (∀ m, ownerOf s pa = some m → Report.refused src part pa ∈ (partOf u m).svc) ∧ ∀ a, memByte u a = memByte s a) ∧
    (∀ bs tag, ¬ok bs.length true → ∃ u, exec (.fabricRequest src chip part pa t (.write bs tag)) s = .next u ∧
      u.answers = s.answers ∧ Report.refused src part pa ∈ (partOf u p).svc ∧
      (∀ m, ownerOf s pa = some m → Report.refused src part pa ∈ (partOf u m).svc) ∧ ∀ a, memByte u a = memByte s a)) ∧
  (∀ (chip link : Nat) (s : State), ∃ u, exec (.linkDown chip link) s = .next u ∧
    (∀ k, spGet false u.linkUp k = if k = chip * 16 + link % 16 then true else spGet false s.linkUp k) ∧
    ∀ g, ∀ r ∈ (aswOf u g).all, (∀ op b c, r.op ≠ .peer op b c) → homeAnswers u (coreChip r.core) r.pa = true) ∧
  (∀ (chip link : Nat) (s : State), ∃ u, exec (.linkRetrain chip link) s = .next u ∧
    (link < 16 → spGet false u.linkUp (chip * 16 + link) = false ∧
      ∀ d, d < 64 → link ∈ spGet [] s.routes (chip * 64 + d) → spGet false u.lost d = false ∧
        (spGet false s.lost d = true → spGet [] u.sktb d = [] ∧ ∀ c, coreChip c = d → (coreOf u c).ktb = [])) ∧
    (16 ≤ link → link ≠ 20 → spGet false u.lost (64 + chip * 4 + (link - 16) % 4) = false) ∧
    (link = 20 → spGet false u.lost (512 + chip) = false))

/-- R212, R219, R294, R302, R342, R345, R371, R383, R390: a corrected error is counted, an uncorrectable one enters its chip's log and acts
as its structure's rule says: it marks what it struck, or answers with POISON 0x0040, or ends the grid or graph, or stops the queue;
patrol scrub marks a vault word that cannot be corrected; a promotion clears the releaser field, a sector that leaves an L1 leaves no
word there and its dirty bytes reach the L2; the KTBs of a chip drop the held entries, the last acknowledgment puts NEXT in force, and a
drained slot is reported.
The model's choices: the KIND of entries without a code and the CYC of units that are no core (log entry 86); whom an error is told
(log entry 124); a residue error (log entry 107); a slot that has drained ends when it is empty (log entry 66). -/
def Obligations.ErrorsAndShootdowns : Prop :=
  (∀ (k : SoftKind) (unit addr lane reg : Nat) (s : State), k ≠ .instrBuffer →
    let n := eccKey k (match k with
      | .register => (warpOf s unit).core
      | .scratchpad | .accumulator | .bench => (teamOf s unit).core
      | .residue => addr
      | _ => unit)
    exec (.softError k unit addr lane reg true) s = .next { s with ecc := spSet 0 s.ecc n (min (spGet 0 s.ecc n + 1) 0xFFFFFFFF) }) ∧
  (∀ (k : SoftKind) (unit addr lane reg : Nat) (s : State), k ∉ [SoftKind.instrBuffer, .network, .bridge] →
    let chip := match k with
      | .register => coreChip (warpOf s unit).core
      | .scratchpad | .accumulator | .bench => coreChip (teamOf s unit).core
      | .l1 | .returnSlot => coreChip unit
      | .grid => (gridOf s unit).part / 16
      | .graphCount => (graphOf s unit).part / 16
      | .residue => addr / 640
      | _ => unit / softUnits k
    let ended := fun (u : State) (q index : Nat) => ∃ c ∈ (queueOf u q).held, c.kind = 3 ∧ c.status = 1 ∧ c.index = index
    let lost := fun (u : State) (core slot : Nat) => ∀ x, spGet none (coreOf s core).reqs slot = some x → x.outs.length ≤ 64 →
      spGet none (coreOf u core).reqs slot =
        some { x with outs := x.outs.map (fun o => (o.1, some (o.2.getD (poisonVal 0x40)))) }
    ∃ u, exec (.softError k unit addr lane reg false) s = .next u ∧ spGet 0 u.errseq chip = spGet 0 s.errseq chip + 1 ∧
      (spGet [] u.errlog chip).length ≤ 1024 ∧ (∀ d, d ≠ chip → spGet [] u.errlog d = spGet [] s.errlog d) ∧
      (∃ e ∈ spGet [] u.errlog chip, e.seq = spGet 0 s.errseq chip ∧ ∀ c, softCode k = some c → e.kind = c) ∧
      (k ∈ [SoftKind.register, .scratchpad, .accumulator, .bench, .link, .residue, .queue, .returnSlot, .slotCounter] →
        ∀ a, memByte u a = memByte s a) ∧
      (match k with
       | .register => spGet false (warpOf u unit).regBad (if reg < 128 then laneBadKey reg lane else uniBadKey (reg - 128)) = true
       | .scratchpad => spGet false (teamOf u unit).scrBad (addr / 8) = true
       | .accumulator => spGet false (teamOf u unit).accBad addr = true
       | .bench => ∀ w ∈ (teamOf s unit).warps, (warpOf u w).mchkNext = true
       | .l1 =>
         let dirty := (sectorWords (addr / 8)).any (fun k => decide ((l1Of s unit k).dirty ≠ 0) || (l1Of s unit k).tagDirty)
         (∀ k ∈ sectorWords (addr / 8), l1Of u unit k = CWord.none ∧ (dirty = true → homeMarked u k = true)) ∧
         (dirty = false → u.bad = s.bad ∧ u.l2 = s.l2)
       | .l2 =>
         let ks := lineWords (addr / 8 / 32)
         let dirty := ks.any (fun k => decide ((l2Of s k).dirty ≠ 0) || (l2Of s k).tagDirty)
         (∀ k ∈ ks, l2Of u k = CWord.none ∧ (dirty = true → spGet false u.bad k = true)) ∧ (dirty = false → u.bad = s.bad)
       | .vault => spGet false u.bad (addr / 8) = true
       | .lpddr => spGet false u.bad (addr / 8) = true ∧ (lane ≠ 0 → spGet false u.chanBad (lpddrChannel addr) = true)
       | .residue =>
         (lane = 0 → ∀ o, s.ksels[unit]? = some o → ∃ x ws c, u.ksels[unit]? = some x ∧ x.result = some (ws, some c) ∧
           causePrio c ≤ causePrio .mchk ∧ ∀ vs f, o.result = some (vs, f) → ws = vs ∧ some c = worseCause f (some .mchk)) ∧
         (lane ≠ 0 → ∀ o, s.attns[unit]? = some o →
           u.attns[unit]? = some { o with fault := worseCause o.fault (some .mchk) })
       | .asw => ∀ r, (aswOf s unit).queue[addr]? = some r → (aswOf u unit).queue = (aswOf s unit).queue.eraseIdx addr ∧
           ∀ op ls, r.op = .atom op ls → r.slot ≠ 0 → lost u r.core r.slot
       | .returnSlot => lost u unit addr
       | .queue => (queueOf u unit).stopped = true ∧ (queueOf u unit).err = (queueOf s unit).err ||| 4
       | .grid => (gridOf s unit).live = true → (gridOf s unit).node = none →
           ended u (gridOf s unit).queue (gridOf s unit).index ∧ (gridOf u unit).live = false ∧
             ∀ t, (teamOf s t).live = true → (teamOf s t).grid = unit → (teamOf u t).killed = true
       | .graphCount => (graphOf s unit).live = true →
           ended u (graphOf s unit).queue (graphOf s unit).index ∧ (graphOf u unit).live = false
       | _ => True)) ∧
  (∀ (pa : Nat) (s : State),
    exec (.patrolScrub pa false) s = .next s ∧
    (∀ g, regionOf s pa = .vault g → ∃ u, exec (.patrolScrub pa true) s = .next u ∧ spGet false u.bad (pa / 8) = true ∧
      spGet 0 u.errseq (g / 80) = spGet 0 s.errseq (g / 80) + 1)) ∧
  (∀ (c line : Nat) (sc : Scope) (s : State),
    (spGet 0 s.releaser line = c + 1 → exec (.racqPromote c line sc) s =
      .next { promote s c sc with releaser := spSet 0 (promote s c sc).releaser line 0 }) ∧
    (spGet 0 s.releaser line ≠ c + 1 → exec (.racqPromote c line sc) s = .next s)) ∧
  (∀ (c sector : Nat) (s : State), ∃ u, exec (.l1WriteBack c sector) s = .next u ∧
    ∀ k ∈ sectorWords (sector * 8), l1Of u c k = CWord.none ∧
      let w := l1Of s c k
      (inL2 s (k * 8) = true → served s (l1Part s c) k w.tagDirty = true → ∀ i, i < 8 → w.dirty.getLsbD i = true →
        byteAt (l2Of u k).data i = byteAt w.data i ∧ (l2Of u k).dirty.getLsbD i = true)) ∧
  (∀ (chip n : Nat) (o : KvsdOp) (s : State), s.kvsds.find? (fun o => decide (o.id = n)) = some o → chip ∈ o.owed →
    chip ∉ o.asked → kvsdReaches s o chip = true → ∃ u, exec (.ktbShootdownRequest chip n) s = .next u ∧ { o with asked := chip :: o.asked } ∈ u.kvsds ∧
      (chip = o.part / 16 → ∀ c, coreChip c = chip → ∀ k ∈ o.keys, spGet 0 (coreOf u c).ktb k = 0)) ∧
  (∀ (chip n : Nat) (o : KvsdOp) (s : State), s.kvsds.find? (fun o => decide (o.id = n)) = some o → chip ∈ o.owed →
    chip ∈ o.asked → kvsdReaches s o chip = true → ∃ u, exec (.ktbAcknowledgment chip n) s = .next u ∧
      (o.owed.filter (fun c => decide (c ≠ chip)) ≠ [] → u.warps = s.warps ∧ u.parts = s.parts ∧
        { o with owed := o.owed.filter (fun c => decide (c ≠ chip)) } ∈ u.kvsds) ∧
      (o.owed.filter (fun c => decide (c ≠ chip)) = [] → o.keys.Nodup →
        (∀ k ∈ o.keys, spGet KvEntry.none (partOf u o.part).kv k =
          ⟨(spGet KvEntry.none (partOf s o.part).kv k).next, (spGet KvEntry.none (partOf s o.part).kv k).next, false⟩) ∧
        (∀ q ∈ u.kvsds, q.id ≠ n) ∧ ∀ w, (warpOf s w).wait = .kvsd n → (warpOf u w).wait = .none)) ∧
  (∀ (p seq : Nat) (s : State), (slotOf s p seq).draining = true → (slotOf s p seq).told = false →
    (slotOf s p seq).cnt0 = 0 → (slotOf s p seq).cnt1 = 0 →
    ∃ u, exec (.slotDrained p seq) s = .next u ∧ Report.drained seq ∈ (partOf u p).svc ∧
      slotOf u p seq = (if seqMapped s p seq = true then { slotOf s p seq with told := true } else KvSlot.none))

/-- R215, R337, R339, R341, R359, R360, R380: writes of PTROOT and of the region table; the end of TBGO, for the partition and for the
service core's own mappings; records, which are taken once the device is ready; a partition's reset, which leaves other partitions'
records, teams, queues, lines and cores alone; the host's answer to a page request and its invalidation, and the reset of a VF.
The model's choices: the events that answer and write (log entry 27), the end of TBGO (log entry 53), a refused page (log entry 77),
staged record words (log entry 79), what a reset clears (log entries 80, 81), a service core's start (log entry 105), run boundaries
(log entry 120), and the end of a VF's reset (log entry 128). -/
def Obligations.PartitionsAreKept : Prop :=
  (∀ (p : Nat) (v : Word) (s : State), ∃ u, exec (.ptrootWrite p v) s = .next u ∧
    partOf u p = { partOf s p with ptroot := wd (fld v 12 40 * 4096) } ∧ (∀ n, n ≠ p → partOf u n = partOf s n) ∧
    u.teams = s.teams) ∧
  (∀ (p : Nat) (s : State),
    let x := partOf s p
    let ends := x.tbbusy && !partBusy s p
    let ownEnds := x.own.tbbusy && !ownBusy s p
    ∃ u, exec (.tbgo p) s = .next u ∧
      partOf u p = { x with tbbusy := x.tbbusy && !ends, own := { x.own with tbbusy := x.own.tbbusy && !ownEnds } } ∧
      (∀ n, n ≠ p → partOf u n = partOf s n) ∧ (∀ a, memByte u a = memByte s a) ∧
      (ends = false → ownEnds = false → u = s) ∧
      (ends = true → (∀ c ∈ coresOf s p, ∀ e ∈ (coreOf u c).tlb, tbMatches x p e = false) ∧
        ∀ t, (teamOf s t).live = true → (teamOf s t).part = p → isService (teamOf s t).core = false →
          (teamOf u t).root = x.ptroot.toNat) ∧
      (ownEnds = true → (∀ e ∈ (coreOf u (svcCore p)).tlb, e.part = p → x.own.tbCount ≠ 0 ∧
          ¬(x.own.tbFirst ≤ e.vpn ∧ e.vpn < x.own.tbFirst + x.own.tbCount)) ∧
        ∀ t, (teamOf s t).live = true → (teamOf s t).core = svcCore p → (teamOf u t).root = x.own.ptroot.toNat)) ∧
  (∀ (p : Nat) (v : Word) (s : State),
    let x := wd (fld v 63 1 * 2 ^ 63 + fld v 0 27)
    ∃ u, exec (.regionTableWrite p v) s = .next u ∧
      partOf u p = { partOf s p with rgnt := spSet 0 (partOf s p).rgnt (partOf s p).rgnidx x } ∧
      ∀ c ∈ coresOf s p,
        ((∀ r ∈ (coreOf s c).runs, r.2.active = false) → spGet 0 (coreOf u c).rgn (partOf s p).rgnidx = x) ∧
        ((∃ r ∈ (coreOf s c).runs, r.2.active = true) →
          (coreOf u c).rgn = (coreOf s c).rgn ∧ (coreOf u c).rgnDue = (coreOf s c).rgnDue ++ [((partOf s p).rgnidx, x)] ∧
          spGet 0 (tableDone (coreOf u c)).rgn (partOf s p).rgnidx = x)) ∧
  (∀ (chip part word : Nat) (v : Word) (s : State),
    let p := chip * 16 + part % 16
    let i := Instr.partitionRecordWrite chip part word v
    let s0 := updPart s p (fun x => { x with staged := spSet 0 x.staged (word % 8) (recordFields (word % 8) v) })
    let y := { stagedPart (partOf s0 p) with grants := memRegions s0 (stagedPart (partOf s0 p)) }
    (accepts s chip = false → exec i s = .next s) ∧
    (accepts s chip = true →
    (word % 8 ≠ 5 → exec i s = .next s0 ∧ (partOf s0 p).words = (partOf s p).words) ∧
    (word % 8 = 5 → bitAt v 37 = false → bitAt v 36 = false → ∃ u, exec i s = .next u ∧ (partOf u p).valid = false) ∧
    (word % 8 = 5 → bitAt v 37 = false → bitAt v 36 = true → (partOf s p).valid = false →
      (recordAccepted s0 p y = true → ∃ u, exec i s = .next u ∧ partOf u p = { y with valid := true } ∧
        ∀ vf, spGet 0 u.vfReset vf ≠ p + 1) ∧
      (recordAccepted s0 p y = false → exec i s = .next s0)))) ∧
  (∀ (chip part : Nat) (s : State),
    let p := chip * 16 + part % 16
    ∃ u, exec (.partitionReset chip part) s = .next u ∧ partOf u p = { Machine.Part.none with fat := (partOf s p).fat } ∧
      (∀ c ∈ coresOf s p, coreOf u c = Core.none) ∧ (∀ t, (teamOf u t).live = true → (teamOf u t).part ≠ p) ∧
      (∀ a ∈ u.appends, a.part ≠ p) ∧ (∀ o ∈ u.ksels, o.part ≠ p) ∧ (∀ o ∈ u.attns, o.part ≠ p) ∧
      (∀ n, n ≠ p → partOf u n = { partOf s n with svc := (partOf u n).svc }) ∧
      (∀ t, (teamOf s t).live = true → (teamOf s t).part ≠ p → teamOf u t = teamOf s t) ∧
      (∀ q, recordQueue s p q = false → queueOf u q = queueOf s q) ∧
      (∀ k, partLine s p k = false → l2Of u k = l2Of s k ∧ ∀ i, i < 8 → memByte u (8 * k + i) = memByte s (8 * k + i)) ∧
      ((∀ t, (teamOf s t).live = true → (teamOf s t).part = p → (teamOf s t).core ∈ coresOf s p) →
        ∀ c, c ∉ coresOf s p → coreOf u c = { coreOf s c with reqs := (coreOf u c).reqs })) ∧
  (∀ (iova i vpn hpa w : Nat) (ok : Bool) (s : State),
    let p := warpPart s w
    (warpOf s w).wait = .pri i vpn ∨ (warpOf s w).wait = .fetchPri i vpn → i / 4096 = iova / 4096 →
    ∃ u, exec (.priResponse p iova ok hpa) s = .next u ∧ (warpOf u w).wait = .none ∧
      (ok = true → spGet none (partOf u p).iommu (iova / 4096) = some (hpa / 4096) ∧
        (warpOf u w).walkFault = (warpOf s w).walkFault) ∧
      (ok = false → (partOf u p).iommu = (partOf s p).iommu ∧
        (warpOf u w).walkFault = (vpn, .xlat) :: (warpOf s w).walkFault)) ∧
  (∀ (p iova : Nat) (s : State),
    (spGet none (partOf s p).iommu (iova / 4096) = none → exec (.atsInvalidation p iova) s = .next s) ∧
    ∀ hp, spGet none (partOf s p).iommu (iova / 4096) = some hp → ∃ u, exec (.atsInvalidation p iova) s = .next u ∧
      spGet none (partOf u p).iommu (iova / 4096) = none ∧
      ∀ c ∈ coresOf s p, ∀ e ∈ (coreOf u c).tlb,
        ¬(e.part = p ∧ e.leaf.h = true ∧ e.leaf.pa / 4096 = (p / 16 + 1) * 2 ^ 40 + hp)) ∧
  (∀ (vf : Nat) (s : State),
    (vfPart s vf = none → exec (.vfFunctionLevelReset vf) s = .next (tellRoot s (.flr vf))) ∧
    ∀ p, vfPart s vf = some p → ∃ u, exec (.vfFunctionLevelReset vf) s = .next u ∧ spGet 0 u.vfReset vf = p + 1 ∧
      spGet 0 u.vfCount vf = 0 ∧ partOf u p = { Machine.Part.none with fat := (partOf s p).fat } ∧
      Report.flr vf ∈ u.rootReports)

/-- R142, R143, R146, R152, R187, R188, R218, R319, R321, R330, R336: a team is placed with every lane of its warps ready at the record's
entry; it is released when its warps have ended and nothing of it is left; a killed team's warps issue no more; a team with nothing under
way counts as stopped, and a warp of it that slept stands at its SLEEP again; a collector warp starts with RT = 1 in a reserved slot.
The model's choices: the runtime's defaults (log entry 14), a sleeper's lanes (log entry 28), placement (log entry 75), what a team
waits for (log entries 78, 93), how a collector warp starts (log entry 132). -/
def Obligations.TeamsComeAndGo : Prop :=
  (∀ (chip core prio p : Nat) (v : Word) (s : State),
    let c := chip * 512 + core % 320
    let i := Instr.registerWrite chip (.collector core prio) v
    corePart s c = some p → isService c = false →
    ((partOf s p).valid = false ∨ 2 ≤ (collectorsOn s c).length ∨ 6 ≤ partSlots s c (firstPart s c) → exec i s = .next s) ∧
    ((partOf s p).valid = true → (collectorsOn s c).length < 2 → partSlots s c (firstPart s c) < 6 → ∃ u, exec i s = .next u ∧
      (let y := warpOf u s.nextWarp
       y.live = true ∧ y.core = c ∧ y.team = s.nextTeam ∧ y.prio = prio % 4 ∧ y.slot = firstPart s c ∧ fld y.status 0 4 = 2 ∧
       ∀ l, l < 32 → laneOf y l = { Lane.none with act := .ready, lpc := vecBase v }) ∧
      (let t := teamOf u s.nextTeam
       t.live = true ∧ t.core = c ∧ t.part = p ∧ t.grid = 0 ∧ t.warps = [s.nextWarp]) ∧ ∀ a, memByte u a = memByte s a)) ∧
  (∀ (g c b : Nat) (s : State),
    let x := gridOf s g
    wantsPlace x = true → (∀ e ∈ s.grids, wantsPlace e.2 = true → e.2.part = x.part → recPrio e.2.words ≤ recPrio x.words) →
    pickCore s x.part x.words = some c → freeBase s c (recScratch x.words) = some b →
    ∃ u, exec (.teamPlace g) s = .next u ∧
      (let t := teamOf u s.nextTeam
       t.live = true ∧ t.core = c ∧ t.grid = g ∧ t.teamId = x.nextTeam ∧ t.part = x.part ∧ t.base = b ∧
       t.scratch = argBytes x.words ∧ t.root = (partOf s x.part).ptroot.toNat ∧ t.warps.length = recWarps x.words ∧
       ∀ k n, t.warps[k]? = some n →
        (let y := warpOf u n
         y.live = true ∧ y.team = s.nextTeam ∧ y.core = c ∧ y.wid = k ∧ y.width = recWidth x.words ∧
         y.role = (recRole x.words k).1 ∧ y.nregs = (recRole x.words k).2 ∧
         y.status = setBit statusReset 0 (bitAt (recWord x.words 0) 3) ∧
         y.tvec = vecBase (if recWord x.words 4 = 0 then (partOf s x.part).rtTvec else recWord x.words 4) ∧
         y.trapv = vecBase (if recWord x.words 5 = 0 then (partOf s x.part).rtTrapv else recWord x.words 5) ∧ y.slot = (firstPart s c + k) % 8 ∧
         (∀ l, l < recWidth x.words → laneOf y l = { Lane.none with act := .ready, lpc := recWord x.words 1 }) ∧
         ∀ r l, readReg y r l = nilVal)) ∧
      (gridOf u g).nextTeam = x.nextTeam + 1 ∧ ∀ a, memByte u a = memByte s a) ∧
  (∀ (t : Nat) (s : State),
    let x := teamOf s t
    ((∃ w ∈ x.warps, (warpOf s w).live = true) ∨ teamBusy s t = true ∨ teamPending s t = true →
      exec (.teamRelease t) s = .next s) ∧
    (x.live = true → (∀ w ∈ x.warps, (warpOf s w).live = false) → teamBusy s t = false → teamPending s t = false →
      ∃ u, exec (.teamRelease t) s = .next u ∧ teamOf u t = Team.none ∧ (∀ w ∈ x.warps, warpOf u w = Warp.none) ∧
        (∀ n, n ≠ t → teamOf u n = teamOf s n) ∧ ∀ a, memByte u a = memByte s a)) ∧
  (∀ (t : Nat) (s : State),
    let x := teamOf s t
    x.live = true → x.killed = false → ∃ u, exec (.teamKill t) s = .next u ∧ (teamOf u t).killed = true ∧
      (∀ w ∈ x.warps, (warpOf u w).live = false) ∧ (∀ n, n ≠ t → teamOf u n = teamOf s n) ∧ ∀ a, memByte u a = memByte s a) ∧
  (∀ (t : Nat) (s : State),
    let x := teamOf s t
    teamRuns s x = true → x.stopping = true → (∀ w ∈ x.warps, warpDrained s w = true) → dieBusy s t = false →
    ∃ u, exec (.teamStopped t) s = .next u ∧ teamOf u t = { x with stopping := false, stopped := true } ∧
      (∀ w ∈ x.warps, ∀ till pc ls, (warpOf s w).wait = .sleep till pc ls →
        (warpOf u w).wait = .none ∧ ∀ l ∈ ls, (laneOf (warpOf u w) l).lpc = pc) ∧
      (∀ n, n ≠ t → teamOf u n = teamOf s n) ∧ ∀ a, memByte u a = memByte s a)

/-- R311, R312, R314, R316, R317, R319, R320, R380, R387: writes of TAIL, CHEAD and EN, which a queue takes once the device is ready; the
Dresser takes the record at HEAD when no other ready record of the partition comes first: a bad one ends with a KIND 3, STATUS 2 record
and sets ERR bit 0, a shape that is never placeable with STATUS 3, a waiting one is held back with its code version bound, a grid starts,
a signal-only record has its completion held, a graph starts its nodes without predecessors, and one with a bad node ends as a bad
record; a ring that cannot be read sets ERR bit 2 and stops the queue.
The model's choices: a STATUS 3 record sets no error bit, and GRIDNO is free (log entry 72); a ring of one record and other corners
(log entry 73); a waiting record has been taken (log entry 71); rotation (log entry 75); versions (log entry 103). -/
def Obligations.QueuesAndRecords : Prop :=
  (∀ (q : Nat) (v : BitVec 32) (e : Word) (s : State), accepts s (q / 131072) = false →
    exec (.queueTailWrite q v) s = .next s ∧ exec (.queueCheadWrite q v) s = .next s ∧ exec (.queueEnableWrite q e) s = .next s) ∧
  (∀ (q : Nat) (v : BitVec 32) (s : State), accepts s (q / 131072) = true →
    let x := queueOf s q
    ∃ u, exec (.queueTailWrite q v) s = .next u ∧ (∀ n, n ≠ q → queueOf u n = queueOf s n) ∧
      queueOf u q = { x with tail := v, err := if 2 ^ x.rlog < (v - x.head).toNat then x.err ||| 1 else x.err }) ∧
  (∀ (q : Nat) (v : BitVec 32) (s : State), accepts s (q / 131072) = true →
    let x := queueOf s q
    ∃ u, exec (.queueCheadWrite q v) s = .next u ∧ (∀ n, n ≠ q → queueOf u n = queueOf s n) ∧
      (2 ^ x.clog < (x.ctail - v).toNat → queueOf u q = { x with err := x.err ||| 8 }) ∧
      ((x.ctail - v).toNat ≤ 2 ^ x.clog → (queueOf u q).chead = v)) ∧
  (∀ (q : Nat) (v : Word) (s : State), accepts s (q / 131072) = true → ∃ u, exec (.queueEnableWrite q v) s = .next u ∧
    (queueOf u q).en = bitAt v 0 ∧ (queueOf u q).rlog = fld v 16 4 ∧ (queueOf u q).pmax = fld v 8 2 ∧
    (bitAt v 0 = true → (queueOf u q).stopped = false) ∧ ∀ n, n ≠ q → queueOf u n = queueOf s n) ∧
  (∀ (q p : Nat) (s : State), queuePart s q = some p → hasRecord (queueOf s q) = false → exec (.takeRecord q) s = .next s) ∧
  (∀ (q p : Nat) (s : State),
    let s0 := l2DropSystem s
    let x := queueOf s q
    let read := dresserRead s0 p (recordVa x x.head) 16
    queuePart s q = some p → hasRecord x = true →
    (read = .fail → takesNext s0 p q = true → ∃ t, exec (.takeRecord q) s = .next t ∧ (queueOf t q).stopped = true ∧
      (queueOf t q).err = x.err ||| 4 ∧ (queueOf t q).head = x.head) ∧
    (read = .fail → takesNext s0 p q = false → exec (.takeRecord q) s = .next s0) ∧
    (∀ io, read = .owed io → exec (.takeRecord q) s = .next (askHost s0 p [io])) ∧
    ∀ (u : State) (vs : List WV), read = .ok u vs →
      let ws := clampPrio (vs.map (·.data)) x.pmax
      let bound := fun (v : Nat) => v ≠ 0 ∧ (fld (recWord ws 0) 32 32 ≠ 0 → v = fld (recWord ws 0) 32 32)
      (recordOwed u p ws ≠ [] → exec (.takeRecord q) s = .next (askHost u p (recordOwed u p ws))) ∧
      (recordOwed u p ws = [] → takesNext u p q = false → exec (.takeRecord q) s = .next u) ∧
      (recordOwed u p ws = [] → takesNext u p q = true →
        let st := if recKind ws = 1 then 2 else recCheck u p ws
        ∃ t, exec (.takeRecord q) s = .next t ∧ (queueOf t q).head = x.head + 1 ∧
          (st ≠ 0 → (queueOf t q).err = (if st = 2 then x.err ||| 1 else x.err) ∧
            ∃ c ∈ (queueOf t q).held, c.index = x.head.toNat ∧ c.kind = 3 ∧ c.status = st) ∧
          (st = 0 → recWait ws = true → ∃ h, (queueOf t q).waiting = some h ∧ h.words = ws ∧ h.part = p ∧
            (recKind ws = 0 → bound h.version)) ∧
          (st = 0 → recWait ws = false → recKind ws = 0 → ∃ g, (gridOf t g).live = true ∧ (gridOf t g).words = ws ∧
            (gridOf t g).queue = q ∧ (gridOf t g).index = x.head.toNat ∧ (gridOf t g).part = p ∧ (gridOf t g).nextTeam = 0 ∧
            (gridOf t g).warpsLeft = recTeams ws * recWarps ws ∧ bound (gridOf t g).version) ∧
          (st = 0 → recWait ws = false → recKind ws = 2 → ∃ c ∈ (queueOf t q).held, c.index = x.head.toNat ∧ c.kind = 0 ∧
            c.status = 0 ∧ c.gridno = 0xFFFFFFFF ∧ c.user = 0 ∧ c.sig = recSig ws) ∧
          ∀ v ns, st = 0 → recWait ws = false → recKind ws = 3 →
            let n := fld (recWord ws 2) 0 16
            dresserRead (rotateOn (wakeRing (updQueue u q (fun x => { x with head := x.head + 1 })) q) p q ws) p
              (recWord ws 1).toNat (16 * n) = .ok v ns →
            let nodes := chunk16 n (ns.map (·.data))
            let bad := ((nodes.map (nodeCheck v p n)).find? (fun c => decide (c ≠ 0))).getD 0
            let g := { Graph.none with nodes := nodes }
            (bad ≠ 0 → (queueOf t q).err = (if bad = 2 then x.err ||| 1 else x.err) ∧
              ∃ c ∈ (queueOf t q).held, c.index = x.head.toNat ∧ c.kind = 3 ∧ c.status = bad) ∧
            (bad = 0 → outerNodes g ≠ [] → ∃ k, (graphOf t k).live = true ∧ (graphOf t k).words = ws ∧ (graphOf t k).queue = q ∧
              (graphOf t k).index = x.head.toNat ∧ (graphOf t k).nodes = nodes ∧ (graphOf t k).done = [] ∧
              ∀ i ∈ outerNodes g, spGet 0 (graphOf t k).counts i = nodePreds (nodeOf g i) ∧
                (nodePreds (nodeOf g i) = 0 ↔ i ∈ (graphOf t k).running ∨ i ∈ (graphOf t k).waiting))))

/-- R316, R317, R318, R319, R321, R322, R335: a record whose word satisfies its condition launches once no other ready record comes first,
with the code version bound at its taking; a node whose grid has ended completes, each successor's count goes down by one, and a
successor whose count reaches 0 starts; nodes and loops of a graph complete; a completion record's four words (INDEX; GRIDNO, STATUS and
KIND; USER; PHASE) are written when the ring has room, with its MSI-X message; a warp that has issued nothing for the watchdog's period is
reported once.
The model's choices: a waiting record has been taken (log entry 71); loops, signals and a graph's STATUS (log entry 73); the L1s that
are released (log entry 74); node 0 of the watchdog (log entry 76). -/
def Obligations.GraphsAndCompletions : Prop :=
  (∀ (q p : Nat) (h : HeldRec) (u : State) (s : State),
    let s0 := l2DropSystem s
    let ws := h.words
    let ready := recordReady s0 p ws
    queuePart s q = some p → (queueOf s q).waiting = some h → recKind ws = 0 →
    (∀ e ∈ s.graphs, e.2.live = false ∨ e.2.queue ≠ q ∨ e.2.waiting = []) →
    (ready = .no ∨ (ready = .fail ∧ takesNext s0 p q = false) → exec (.recordWaitSatisfied q) s = .next s0) ∧
    (∀ io, ready = .owed io → exec (.recordWaitSatisfied q) s = .next (askHost s0 p [io])) ∧
    (ready = .fail → takesNext s0 p q = true → ∃ t, exec (.recordWaitSatisfied q) s = .next t ∧ (queueOf t q).waiting = none ∧
      (queueOf t q).err = (queueOf s q).err ∧ ∃ c ∈ (queueOf t q).held, c.kind = 3 ∧ c.status = 2) ∧
    (ready = .yes u → takesNext u p q = false → exec (.recordWaitSatisfied q) s = .next u) ∧
    (ready = .yes u → takesNext u p q = true → ∃ t g, exec (.recordWaitSatisfied q) s = .next t ∧
      (queueOf t q).waiting = none ∧ (gridOf t g).live = true ∧ (gridOf t g).words = ws ∧ (gridOf t g).queue = q ∧
      (gridOf t g).version = h.version)) ∧
  (∀ (g n : Nat) (s : State),
    let x := graphOf s g
    (n ∉ x.running → exec (.graphNodeComplete g n) s = .next s) ∧
    (n ∈ x.running → recKind (nodeOf x n) = 2 → x.live = true → exec (.graphNodeComplete g n) s = .next (nodeDone s g n)) ∧
    (∀ k y, n ∈ x.running → recKind (nodeOf x n) = 0 → s.grids.find? (fun e => decide (e.2.node = some (g, n))) = some (k, y) →
      (y.warpsLeft ≠ 0 ∨ gridBusy s k = true → exec (.graphNodeComplete g n) s = .next s) ∧
      (y.warpsLeft = 0 → gridBusy s k = false → x.live = true → nodeSig (nodeOf x n) = none → (∀ i, recKind (nodeOf x i) ≠ 1) →
        (∃ i ∈ outerNodes x, i ≠ n ∧ i ∉ x.done) →
        ∃ t, exec (.graphNodeComplete g n) s = .next t ∧ (graphOf t g).live = true ∧ (graphOf t g).done = n :: x.done ∧
          ∀ i, let c := spGet 0 x.counts i
            let d := (nodeSuccs (nodeOf x n)).count i
            spGet 0 (graphOf t g).counts i = c - d ∧
              (1 ≤ c ∧ c ≤ d → i ∈ (graphOf t g).running ∨ i ∈ (graphOf t g).waiting) ∧
              (c = 0 ∨ d < c → (i ∈ (graphOf t g).running ↔ i ∈ x.running ∧ i ≠ n) ∧
                (i ∈ (graphOf t g).waiting ↔ i ∈ x.waiting))))) ∧
  (∀ (g n : Nat) (u : State) (v : Word) (s : State),
    let x := graphOf s g
    let ws := nodeOf x n
    x.live = true → recKind ws = 1 → n ∈ x.running → loopLast ws ∈ x.done →
    (dresserVal s x.part (recWord ws 9).toNat = .ok u v → v = 0 → exec (.loopCondition g n) s = .next (nodeDone u g n)) ∧
    (dresserVal s x.part (recWord ws 9).toNat = .ok u v → v ≠ 0 → exec (.loopCondition g n) s =
      .next (startAll (setGraph u g { x with running := x.running.filter (fun j => decide (j ≠ n)) }) g [(n, true)])) ∧
    (dresserVal s x.part (recWord ws 9).toNat = .fail →
      exec (.loopCondition g n) s = .next (graphFail (priTaken s x.part) g 4))) ∧
  (∀ (q p : Nat) (c : Compl) (rest : List Compl) (s : State),
    let x := queueOf s q
    queuePart s q = some p → x.held = c :: rest → x.holdCompl = false → (c.kind ≤ 1 → gridBusy s c.gridno = false) →
    (2 ^ x.clog ≤ (x.ctail - x.chead).toNat → ∃ u, exec (.completionRecordWrite q) s = .next u ∧
      queueOf u q = { x with err := x.err ||| 2 } ∧ ∀ a, memByte u a = memByte s a) ∧
    (∀ pa l, (x.ctail - x.chead).toNat < 2 ^ x.clog → c.sig = none →
      dresserTrans s p (x.cbase.toNat + 32 * (x.ctail.toNat % 2 ^ x.clog)) .w = some (.ok (pa, l)) →
      isMmio (priTaken s p) pa = false → served (priTaken s p) p (pa / 8) l.t = true →
      ∃ u, exec (.completionRecordWrite q) s = .next u ∧ (queueOf u q).held = rest ∧ (queueOf u q).ctail = x.ctail + 1 ∧
        u.msix = (if x.vec = 0xFFFF then s.msix
          else s.msix ++ [(p / 16 * 16 + fld (spGet 0 (partOf s p).words 5) 32 4, x.vec)]) ∧
        (pa % 32 = 0 → ∀ i v, [wd c.index, wd (c.gridno % 2 ^ 32 * 2 ^ 32 + c.status * 256 + c.kind), c.user,
            wd ((1 - x.ctail.toNat / 2 ^ x.clog % 2) * 2 ^ 63)][i]? = some v → (homePeek u (pa / 8 + i)).data = v))) ∧
  (∀ (w : Nat) (s : State), w ≠ 0 →
    let x := warpOf s w
    let p := warpPart s w
    let wdp := fld (spGet 0 (partOf s p).words 5) 0 32
    (wdp = 0 ∨ x.reported = true ∨ x.live = false ∨ (coreOf s x.core).cyc < x.lastIssue + wdp * 2 ^ 16 →
      exec (.watchdogReport w) s = .next s) ∧
    (wdp ≠ 0 → x.reported = false → x.live = true → watchExempt x = false → x.lastIssue + wdp * 2 ^ 16 ≤ (coreOf s x.core).cyc →
      ∃ u, exec (.watchdogReport w) s = .next u ∧ warpOf u w = { x with reported := true } ∧
        Report.watchdog w (watchReason x) ∈ (partOf u p).svc ∧ ∀ a, memByte u a = memByte s a))

/-- R357, R358, R360, R362, R363, R364, R365, R380: requests of a VF reach queues and memory once the device is ready, and are turned
away before; the PF reads BOOTSTAT; stream windows are enabled when every field is in range, take frame bytes, drop a frame with a
sequence number out of range, a wrong slot, no room or bytes beyond FSIZE and set the ERR bit of the reason, publish the next whole
frame, whose bytes then stand in its slot and whose number in the arrival word, and skip.
The model's choices: early answers (log entries 82, 111), tables and numbers of functions (log entry 83), early frames and window
addresses (log entry 84), an unreadable consumer word (log entry 109), SKIP with EN = 0 (log entry 110), which window takes a byte (log
entry 127), code pages (log entry 32). -/
def Obligations.OutsideRequestsAndStreams : Prop :=
  (∀ (w : PcieWrite) (vf : Nat) (s : State), w.vf = some vf → s.boot.ready = false →
    exec (.inboundPcieWrite w) s = .next s) ∧
  (∀ (vf p off q : Nat) (bs : List Byte) (s : State), s.boot.ready = true → vfInReset s vf = false → vfPart s vf = some p →
    bs.length = 8 → off % 64 = 16 → bar0Queue s p off = some q →
    exec (.inboundPcieWrite ⟨some vf, 0, off, bs⟩) s = .next (tailWrite s q (BitVec.ofNat 32 (fld (wd (leNat bs)) 0 32)))) ∧
  (∀ (vf p off pa : Nat) (b : Byte) (s : State), s.boot.ready = true → vfInReset s vf = false → vfPart s vf = some p →
    bar4At s p off = some pa →
    (slotOfAddr s vf (paLocal pa) = none → homeAnswers s (p / 16) pa = true →
      exec (.inboundPcieWrite ⟨some vf, 4, off, [b]⟩) s = .next (agentWrite s pa [b] .int)) ∧
    (∀ i slot o, slotOfAddr s vf (paLocal pa) = some (i, slot, o) →
      exec (.inboundPcieWrite ⟨some vf, 4, off, [b]⟩) s =
        .next (setWin s (vf * 64 + i) (stageByte (winOf s (vf * 64 + i)) slot o b))) ∧
    (∀ x, homeAnswers s (p / 16) pa = true → agentRead s pa 1 = some [x] →
      exec (.inboundPcieRead (some vf) 4 off 1) s = .next { s with answers := s.answers ++ [.data [x]] }) ∧
    (∀ op x y, off % 8 = 0 → homeAnswers s (p / 16) pa = true → codePage s pa = true →
      ∃ u, exec (.inboundAtomicop vf off 64 op x y) s = .next u ∧ u.answers = s.answers ++ [.abort] ∧
        Report.dropped pa ∈ (partOf u p).svc ∧ ∀ a, memByte u a = memByte s a) ∧
    (∀ op x y, off % 8 = 0 → homeAnswers s (p / 16) pa = true → codePage s pa = false →
      exec (.inboundAtomicop vf off 64 op x y) s = .next (sendReq s p
        { core := p / 16 * 512 + 320 + p % 16, slot := 0, warp := 0, pa := pa, tagged := isTagged s pa, op := .pcie op x y,
          acq := none, racq := false })) ∧
    (∀ op width x y, width ≠ 64 → exec (.inboundAtomicop vf off width op x y) s =
      .next { s with answers := s.answers ++ [.unsupported] })) ∧
  (∀ (vf bar off n width : Nat) (op : PcieAtomic) (x y : Word) (s : State), s.boot.ready = false →
    let is := [Instr.inboundPcieRead (some vf) bar off n, .inboundAtomicop vf off width op x y]
    (s.vfsUp = true → ∀ i ∈ is, exec i s = .next { s with answers := s.answers ++ [.unsupported] }) ∧
    (s.vfsUp = false → ∃ a : Answer, (a = .retry ∨ a = .unsupported) ∧ ∀ i ∈ is, exec i s =
      .next { s with free := s.free + 1, answers := s.answers ++ [a], vfsUp := decide (a = .unsupported) })) ∧
  (∀ (vf win slot o : Nat) (bs : List Byte) (v : Word) (s : State), s.boot.ready = false →
    ∀ i ∈ [Instr.streamWindowEnable vf win v, .streamFrameWrite vf win slot o bs, .streamSkip vf win v], exec i s = .next s) ∧
  (∀ (s : State), ∃ u bs, exec (.inboundPcieRead none 0 0 8) s = .next u ∧ u.answers = s.answers ++ [.data bs] ∧
    leNat bs = s.boot.errcode.toNat * 2 ^ 24 + s.boot.stage.toNat * 2 ^ 16 + if s.boot.ready = true then 1 else 0) ∧
  (∀ (vf win : Nat) (v : Word) (s : State), s.boot.ready = true → win < 64 →
    let k := vf * 64 + win
    let w := winOf s k
    let y := { w with slotbase := wd (fld v 12 34 * 4096) }
    (w.en = true → bitAt v 0 = true → exec (.streamWindowEnable vf win v) s = .next s) ∧
    (w.en = true → bitAt v 0 = false → ∃ u, exec (.streamWindowEnable vf win v) s = .next u ∧
      winOf u k = { w with en := false, drop := w.drop + BitVec.ofNat 32 w.stage.length, stage := [] }) ∧
    (∀ p, w.en = false → bitAt v 0 = true → vfPart s vf = some p → winOk s p y = true →
      ∃ u, exec (.streamWindowEnable vf win v) s = .next u ∧ winOf u k = { y with en := true, arr := w.baseseq, drop := 0 }) ∧
    (∀ p, w.en = false → vfPart s vf = some p → winOk s p y = false →
      ∃ u, exec (.streamWindowEnable vf win v) s = .next u ∧ winOf u k = y)) ∧
  (∀ (vf win slot o : Nat) (b : Byte) (s : State), s.boot.ready = true → win < 64 →
    let k := vf * 64 + win
    let w := winOf s k
    slot < winSlots w → o < w.fsize →
    let y := stageByte w slot o b
    let g := stageOf w slot
    let g1 : Stage := { bytes := spSet none g.bytes o (some b), count := g.count + 1,
                        full := g.full || decide (w.stg * 2 ^ 21 < staged w + 1) }
    let dropped := fun (bit : Nat) => y.drop = w.drop + 1 ∧ y.err = w.err ||| BitVec.ofNat 4 (2 ^ bit) ∧ spGet none y.stage slot = none
    let late := fun (q : Nat) => q ≤ w.arr.toNat ∨ w.arr.toNat + winSlots w < q
    exec (.streamFrameWrite vf win slot o [b]) s = .next (setWin s k y) ∧ (w.en = false → y = w) ∧
    (w.en = true → stageSeq g1 = none → y = { w with stage := spSet none w.stage slot (some g1) }) ∧
    (∀ q, w.en = true → stageSeq g1 = some q →
      (late q → dropped 0) ∧ (¬late q → q % winSlots w ≠ slot → dropped 1) ∧
      (¬late q → q % winSlots w = slot → g1.full = true → dropped 2) ∧
      (¬late q → q % winSlots w = slot → g1.full = false → w.fsize < g1.count → dropped 3) ∧
      (¬late q → q % winSlots w = slot → g1.full = false → g1.count ≤ w.fsize →
        y = { w with stage := spSet none w.stage slot (some g1) }))) ∧
  (∀ (vf win : Nat) (s : State),
    let k := vf * 64 + win
    let w := winOf s k
    let q := w.arr.toNat + 1
    let g := stageOf w (q % winSlots w)
    let c := (consumerRead s vf w).2
    let base := vf / 16 * 2 ^ 46
    let a0 := base + slotAt w (q % winSlots w)
    let cons := homeAnswers s (vf / 16) (base + w.consaddr.toNat)
    (w.en = false ∨ g.count ≠ w.fsize ∨ stageSeq g ≠ some q ∨ c.bad = true ∨ cons = false ∨ c.data.toNat + winSlots w < q →
      exec (.streamPublish vf win) s = .next s) ∧
    (w.en = true → g.count = w.fsize → stageSeq g = some q → c.bad = false → cons = true → q ≤ c.data.toNat + winSlots w →
      ∃ u, exec (.streamPublish vf win) s = .next u ∧ (winOf u k).arr = wd q ∧
        spGet none (winOf u k).stage (q % winSlots w) = none ∧
        (a0 % 64 = 0 → w.fsize % 64 = 0 → w.arraddr.toNat % 8 = 0 →
          (∀ j ∈ (base + w.arraddr.toNat) / 8 :: wordsOf a0 w.fsize, codePage s (8 * j) = false ∧ homeAnswers s (paChip (8 * j)) (8 * j) = true) →
          (homePeek u ((base + w.arraddr.toNat) / 8)).data = wd q ∧
          ((base + w.arraddr.toNat) / 8 ∉ wordsOf a0 w.fsize → ∀ n b, n < w.fsize → spGet none g.bytes n = some b →
            byteAt (homePeek u ((a0 + n) / 8)).data ((a0 + n) % 8) = b)))) ∧
  (∀ (vf win : Nat) (v : Word) (s : State), s.boot.ready = true → win < 64 →
    let w := winOf s (vf * 64 + win)
    (v.toNat ≤ w.arr.toNat → exec (.streamSkip vf win v) s = .next s) ∧
    (w.arr.toNat < v.toNat → ∃ u, exec (.streamSkip vf win v) s = .next u ∧ (winOf u (vf * 64 + win)).arr = v))

/-- R75, R341, R379, R380, R381, R382, R384, R385, R386: power-up leaves a module at reset whose BOOTSTAT shows stage 1; each stage does its
work and shows the next, memory is clear after stage 3, and the last one shows STAGE 5 with READY; a stage that fails shows its ERRCODE and
ends the sequence; a reset of the PF boots the same way and keeps the error log; the root monitor answers SPDM once it is ready, and its
installing a newer image raises the fuse count; a debug command leaves its status and results in the window; a service core's mailbox
answers what the command gives, and refuses state of another partition; device registers take what is written.
The model's choices: what a reset of the module keeps (log entry 87), signatures and images (log entries 6, 108, 125), a stage in one turn
(log entry 112), which failure shows (log entry 137), one PF (log entry 83), SPDM's bytes (log entry 88), READUNIT's layout (log entry
89), the end of a command (log entry 138), the fields of register writes (log entry 27), regions raw until marked (log entry 18). -/
def Obligations.BringUpAndDebug : Prop :=
  (∀ (pa : Nat) (s : State), pa < 2 ^ 52 → ∃ u, exec (.markRegionTagged pa) s = .next u ∧ isTagged u pa = true ∧
    (∀ k, k * 8 / 2 ^ 21 = pa / 2 ^ 21 → spGet .nil u.tags k = .nil ∧ spGet false u.bad k = false) ∧
    ∀ a, memByte u a = memByte s a) ∧
  (∀ (i : BootIn) (s : State), ∃ u, exec (.powerOn i) s = .next u ∧ u.boot = ⟨0, 1, false⟩ ∧ u.bootRun = some i ∧
    (∀ p, p < 16 → partOf u p = Machine.Part.none) ∧ (∀ c, c < 512 → coreOf u c = Core.none) ∧
    (∀ g, g < 80 → aswOf u g = Asw.none) ∧ (∀ q, q < 131072 → queueOf u q = Queue.none) ∧
    (∀ t, (teamOf u t).live = true → 16 ≤ (teamOf u t).part) ∧ (∀ k, spGet 0 u.fuses k = spGet 0 s.fuses k) ∧
    (∀ a, memByte u a = memByte s a) ∧
    exec (.pfFunctionLevelReset i) s = .next { u with errlog := s.errlog, errseq := s.errseq }) ∧
  (∀ (i : BootIn) (n : Nat) (r : List Turn) (s : State), s.agenda = .boot :: r → s.bootRun = some i → 1 ≤ n → n ≤ 4 →
    s.boot = ⟨0, BitVec.ofNat 8 n, false⟩ →
    (∀ err, bootFail s i = some (n, err) → ∃ u, step s = .next u ∧ u.boot = ⟨BitVec.ofNat 8 err, BitVec.ofNat 8 n, false⟩ ∧
      u.bootRun = none ∧ u.fuses = s.fuses ∧ ∀ a, memByte u a = memByte s a) ∧
    ((∀ err, bootFail s i ≠ some (n, err)) → ∃ u, step s = .next u ∧ u.fuses = s.fuses ∧
      u.boot = (if n = 4 then ⟨0, 5, true⟩ else ⟨0, BitVec.ofNat 8 (n + 1), false⟩) ∧ u.bootRun = (if n = 4 then none else some i) ∧
      (n = 1 → (∀ k, k < 16 → spGet false u.linkUp k = i.linkFail.contains k) ∧
        ∀ k, k < 4 → spGet false u.lost (64 + k) = i.cxlFail.contains k) ∧
      (∀ k ∈ (if n = 2 then [0, 3] else if n = 4 then [1, 2] else []), spGet 0 u.images k = (imageOf i k).version ∧
        spGet [] u.firmware k = (imageOf i k).bytes) ∧
      (∀ a, memByte u a = if n = 3 ∧ a < 0x2000_0000_0000 then 0 else memByte s a) ∧
      (n = 3 → ∀ k, k * 8 < 0x2000_0000_0000 → spGet .nil u.tags k = .nil ∧ spGet false u.bad k = false))) ∧
  (∀ (s : State),
    let answers : List (Instr × SpdmResp) := [(.getVersion, .version 0x13), (.getCapabilities, .capabilities (Config.spdmCaps 0)),
      (.getDigests, .digests (sha384 spdmChain))]
    (s.boot.ready = true → ∀ e ∈ answers, exec e.1 s = .next { s with spdm := e.2 }) ∧
    (s.boot.ready = false → ∀ e ∈ answers, exec e.1 s = .next s)) ∧
  (∀ (off len : Nat) (nonce : List Byte) (offers signed : Bool) (n : Nat) (s : State), s.boot.ready = true →
    exec (.negotiateAlgorithms offers) s = .next { s with
      spdm := .algorithms 0 (if offers = true then some (1, 0x31) else none) true true true, spdmExt := offers } ∧
    exec (.getCertificate off len) s = .next { s with spdm := .certificate ((spdmChain.drop off).take len) } ∧
    (s.spdmExt = false → exec (.challenge nonce) s = .next { s with spdm := .error }) ∧
    (s.spdmExt = true → ∃ b, exec (.challenge nonce) s = .next { s with spdm := .challengeAuth b }) ∧
    (1 ≤ n → n ≤ 7 → (signed = false ∨ s.spdmExt = false) →
      exec (.getMeasurements n signed nonce) s = .next { s with spdm := .measurements [(n, measureBlock s n)] none }) ∧
    (8 ≤ n → n ≠ 0xFF → exec (.getMeasurements n signed nonce) s = .next { s with spdm := .error })) ∧
  (∀ e ∈ ([(.readctx, 1), (.readmem, 2), (.flushp, 3), (.readtab, 4), (.readq, 5), (.readunit, 6), (.readlog, 7)] :
      List (Instr × Nat)), ∀ (s : State),
    let d := s.dbg
    let r := (dbgCommand s 0 none e.2 d.arg0 d.arg1 d.arg2 d.arg3).2
    (d.sts = 1 → exec e.1 s = .next s) ∧
    (d.sts ≠ 1 → d.arg3 ≠ 0 → exec e.1 s = .next { s with dbg := { d with sts := 4, len := 0 } }) ∧
    (d.sts ≠ 1 → ∃ u, exec e.1 s = .next u ∧
      (∀ x t, r = .done x t → u.dbg = { d with sts := 0, len := x.length, data := x, tags := t }) ∧
      (r = .busy → u.dbg = { d with sts := 2, len := 0 }) ∧ (r = .refused → u.dbg = { d with sts := 3, len := 0 }) ∧
      (r = .bad → u.dbg = { d with sts := 4, len := 0 }))) ∧
  (∀ (pa : Nat) (s : State), s.dbg.sts ≠ 1 → s.dbg.arg0 = wd pa → s.dbg.arg1 = 0 → s.dbg.arg2 = 8 → s.dbg.arg3 = 0 → pa % 8 = 0 →
    pa < 2 ^ 46 → regionOf s pa = .lpddr → (homePeek s (pa / 8)).bad = false →
    ∃ u, exec .readmem s = .next u ∧ u.dbg.sts = 0 ∧ u.dbg.data = leBytes 8 (homePeek s (pa / 8)).data.toNat) ∧
  (∀ (part code : Nat) (x y z : Word) (s : State),
    let r := dbgCommand s (part / 16) (some part) code x y z 0
    let answers := fun (st : Nat) (b t : List Byte) => ∃ u, exec (.mailboxRequest part code x y z) s = .next u ∧
      u.mbox = s.mbox ++ [(part, st, b, t)]
    (s.boot.ready = false → exec (.mailboxRequest part code x y z) s = .next s) ∧
    (s.boot.ready = true → (∀ b t, r.2 = .done b t → answers 0 b t) ∧ (r.2 = .busy → answers 2 [] []) ∧
      (r.2 = .refused → answers 3 [] []) ∧ (r.2 = .bad → answers 4 [] []))) ∧
  (∀ (part : Nat) (x y z : Word) (s : State), s.boot.ready = true →
    let chip := part / 16
    let refused := fun (code : Nat) => ∃ u, exec (.mailboxRequest part code x y z) s = .next u ∧ u.mbox = s.mbox ++ [(part, 3, [], [])]
    let ok := z.toNat % 8 = 0 ∧ z.toNat ≤ 65536
    (∀ t, (spKeys s.teams).find? (fun t => (teamOf s t).live && decide (coreChip (teamOf s t).core = chip) &&
      decide (locWord s t = x)) = some t → ok → (teamOf s t).part ≠ part → refused 1) ∧
    (readMem s (chip * 16 + part % 16) x y z ≠ .bad → (∃ i, i < z.toNat / 8 ∧ owns s part (x.toNat + 8 * i) = false) → refused 2) ∧
    (x.toNat < 16 → y = 0 → z = 0 → chip * 16 + x.toNat ≠ part → refused 3) ∧
    (fld x 16 48 = 0 → fld x 8 8 < 16 → ok → tableOf s (fld x 0 8) (chip * 16 + fld x 8 8) ≠ none → chip * 16 + fld x 8 8 ≠ part →
      refused 4) ∧
    (x.toNat < 131072 → ok → queuePart s (chip * 131072 + x.toNat) ≠ some part → refused 5) ∧
    (∀ idle d, fld x 16 48 = 0 → ok → unitState s chip (fld x 14 2) (fld x 8 6) (fld x 0 8) = some (idle, d) →
      (fld x 8 6 = 0 → chip * 512 + fld x 14 2 * 80 + fld x 0 8 ∉ coresOf s part) →
      (fld x 8 6 = 2 → hasCluster (partOf s part) (fld x 14 2 * 20 + fld x 0 8) = false) → refused 6) ∧
    (x.toNat < 2 ^ 32 → y = 0 → z.toNat ≤ 1024 → (∃ e ∈ spGet [] s.errlog chip,
      (e.seq + 2 ^ 32 - x.toNat) % 2 ^ 32 < z.toNat ∧ e.part ≠ part % 16) → refused 7)) ∧
  (∀ (k : Nat) (v : Word) (chip : Nat) (s : State),
    let i := Instr.registerWrite chip (.install k) v
    (s.boot.ready = true → k < 4 → spGet 0 s.images k < v.toNat → ∃ u, exec i s = .next u ∧ u.images = s.images ∧
      ∀ j, spGet 0 u.fuses j = if j = k then max (spGet 0 s.fuses k) v.toNat else spGet 0 s.fuses j) ∧
    (s.boot.ready = false ∨ 4 ≤ k ∨ v.toNat ≤ spGet 0 s.images k → exec i s = .next s)) ∧
  (∀ (chip q part peer : Nat) (v : Word) (s : State), q < 131072 → peer < 64 → part < 16 →
    (accepts s chip = false → ∀ off, exec (.registerWrite chip (.queue q off) v) s = .next s) ∧
    (accepts s chip = true → ∃ u, exec (.registerWrite chip (.queue q 0) v) s = .next u ∧
      queueOf u (chip * 131072 + q) = { queueOf s (chip * 131072 + q) with rbase := wd (v.toNat / 128 * 128) }) ∧
    (accepts s chip = true → ∃ u, exec (.registerWrite chip (.queue q 0x38) v) s = .next u ∧
      (queueOf u (chip * 131072 + q)).err = (queueOf s (chip * 131072 + q)).err &&& ~~~ BitVec.ofNat 4 (fld v 0 4)) ∧
    (∃ u, exec (.registerWrite chip (.service part 0) v) s = .next u ∧
      partOf u (chip * 16 + part) = { partOf s (chip * 16 + part) with
        own := { (partOf s (chip * 16 + part)).own with ptroot := wd (fld v 12 40 * 4096) } }) ∧
    exec (.registerWrite chip (.debug 0x110) v) s = .next { s with dbg := { s.dbg with arg0 := v } } ∧
    (∃ u, exec (.registerWrite chip (.fat chip part peer) v) s = .next u ∧
      fatEntry (partOf u (chip * 16 + part)) peer = if bitAt v 63 = true then some (fld v 0 4) else none))

/-! ## Steps, decoding, reset and the invariant -/

/-- R21, R42, R45, R47, R190, R366: a turn of an issue partition with a run fetches the instruction at its warp's issue address, the
buffered words at its translated address, and executes what they decode to; a fault of the fetch traps the lanes there, and one that
another chip refuses is also told to both service cores; a device event happens as it stands. -/
def Obligations.StepRunsTheFetchedInstruction : Prop :=
  (∀ (i : Instr) (r : List Turn) (s : State), s.agenda = .ev i :: r → step s = exec i { s with agenda := r }) ∧
  (∀ (c p w : Nat) (pc : Word) (r : List Turn) (s : State),
    let s0 := { s with agenda := r }
    let run := spGet Run.none (coreOf s c).runs p
    p < 8 → s.agenda = .issue (c * 8 + p) :: r → run.active = true → run.warp = w → issuePc (warpOf s w) = some pc →
    canIssue (warpOf s w) = true → (warpOf s w).mchkNext = false →
    (∀ i rx, fetchInstr s0 w pc = .ok i rx → step s = exec i { (updWarp s0 w (fun x => { x with rx := rx })) with cur := w }) ∧
    (∀ e a, fetchInstr s0 w pc = .fault e a → step s = .next (fetchFault s0 w pc a e)) ∧
    (∀ pa a, fetchInstr s0 w pc = .refused pa a →
      step s = .next (fetchFault (tellRefused s0 (warpPart s0 w) pa) w pc a .prot))) ∧
  (∀ (w : Nat) (pc d : Word) (rx : Bool) (i : Instr) (s : State), fetchWord s w pc.toNat = .ok d rx →
    (hasLiteral d = false → decodeWords d 0 = .ok i → fetchInstr s w pc = .ok i rx) ∧
    (∀ lit ry j, hasLiteral d = true → decodeWords d 0 = .ok j → fetchWord s w (pc.toNat + 8) = .ok lit ry →
      decodeWords d lit = .ok i → fetchInstr s w pc = .ok i rx) ∧
    (∀ e, decodeWords d 0 = .error e → fetchInstr s w pc = .fault .ill pc)) ∧
  (∀ (w va pa : Nat) (l : Leaf) (d : Word) (s : State),
    (va % 8 ≠ 0 → fetchWord s w va = .fault .align) ∧ (va % 8 = 0 → 2 ^ 48 ≤ va → fetchWord s w va = .fault .xlat) ∧
    (va % 8 = 0 → va < 2 ^ 48 → translate s w va .x = .ok pa l →
      ibufWord (coreOf s (warpOf s w).core) (pa / 256) (teamOf s (warpOf s w).team).version (pa / 8) = some d →
      fetchWord s w va = .ok d l.rx))

/-- R96, R143, R151, R155: every step keeps warps well-formed: a mask has bits of lanes alone that have not exited, a call stack holds at
most sixteen words and a lane at most four calls, and STATUS has an F of at least 1 and its reserved bits 0; and it leaves SUPER and RT as
they are in a warp without SUPER. -/
def Obligations.StepKeepsWarpsWellFormed : Prop :=
  ∀ s t : State, step s = .next t →
    ((∀ w, (warpOf s w).wellFormed) → ∀ w, (warpOf t w).wellFormed) ∧
    ∀ w, w < s.nextWarp → (warpOf s w).live = true → super (warpOf s w) = false → (warpOf t w).live = true →
      fld (warpOf t w).status 1 2 = fld (warpOf s w).status 1 2

/-- R22, R28, R29, R33, R42, R49: words written out from the opcode map and the formats decode to their instructions. -/
def Obligations.DecodedTableWords : Prop :=
  let h : Hdr := ⟨false, 0, none⟩
  let w := fun (op x : Nat) => x + 2 ^ 47 * 15 + 2 ^ 51 * op
  decodeTableWord 64 (w 0x78 0) = some (.nop h) ∧
  decodeTableWord 64 (w 0x00 (2 ^ 23 * 1 + 2 ^ 31 * 0x80 + 2 ^ 39 * 2)) = some (.add h ⟨.lane 2, .uni 0, .lane 1, 0, 0, .i8⟩) ∧
  decodeTableWord 64 (w 0x41 (2 ^ 39 * 0x85 + 0x7FFFFFFF)) = some (.movi h (.uni 5) (-1)) ∧
  decodeTableWord 128 (w 0x43 (2 ^ 39 * 3 + 8 * 1) + 2 ^ 64 * 0x1234) = some (.movl h .int (.lane 3) 0x1234) ∧
  decodeTableWord 64 (w 0x80 (2 ^ 39 * 4 + 2 ^ 31 * 0x90 + 2 ^ 23 * 0xFF + 8)) =
    some (.ld h ⟨.lane 4, .uni 16, .nil, .warp, .plain, false, 8⟩) ∧
  decodeTableWord 64 (w 0x60 (2 ^ 44 * 3 + 2 ^ 36 * 7 + 2 ^ 32 - 2)) = some (.bra h ⟨.ms 7, -2⟩) ∧
  decodeTableWord 64 (2 ^ 47 * 5 + 2 ^ 51 * 0x95 + 2 ^ 59 * 9 + 2 ^ 63 + 2 ^ 31 * 0x81 + 2 ^ 23 * 0x82 + 31) =
    some (.mma ⟨true, 9, some 5⟩ 31 (.uni 1) (.uni 2)) ∧
  decodeTableWord 64 (w 0x74 (2 ^ 31 * 6 + 2 ^ 15 * 0x16)) = some (.sets h .status (.lane 6))

/-- R22, R28, R34, R49: decoding the words of a well-formed instruction gives it back, with what follows them, for every operand at
every value its encoding admits. -/
def Obligations.DecodeOfEncode : Prop :=
  ∀ (i : Instr), WellFormed i → ∃ bs, encodeBytes i = some bs ∧ (bs.length = 8 ∨ bs.length = 16) ∧
    ∀ rest, decode (bs ++ rest) = .ok (i, rest)

/-- R31, R34, R45: a word has at most one meaning, and it is well-formed: the instruction that a word decodes to encodes to that
word. -/
def Obligations.WordHasOneMeaning : Prop :=
  ∀ (w lit : Word) (i : Instr), decodeWords w lit = .ok i →
    WellFormed i ∧ encode i = some (if hasLiteral w = true then [w, lit] else [w])

/-- R48: a word of an unassigned opcode is no instruction, whatever its other fields hold, and a turn that fetches one traps ILL at
its address. -/
def Obligations.UnassignedOpcodesRaiseIll : Prop :=
  let unassigned : List Nat := [0x17] ++ List.range' 0x1D 3 ++ List.range' 0x23 5 ++ List.range' 0x3C 4 ++ [0x47] ++ List.range' 0x50 16 ++
    List.range' 0x7C 4 ++ [0x8F] ++ List.range' 0x9D 3 ++ List.range' 0xA4 28 ++ List.range' 0xC3 13 ++ List.range' 0xD4 12 ++ [0xE7] ++
    List.range' 0xEC 4 ++ List.range' 0xF2 14
  (∀ (w lit : Word), fld w 51 8 ∈ unassigned → ∃ e, decodeWords w lit = .error e) ∧
  (∀ (c p w : Nat) (pc d : Word) (rx : Bool) (r : List Turn) (s : State),
    let s0 := { s with agenda := r }
    let run := spGet Run.none (coreOf s c).runs p
    p < 8 → s.agenda = .issue (c * 8 + p) :: r → run.active = true → run.warp = w → issuePc (warpOf s w) = some pc →
    canIssue (warpOf s w) = true → (warpOf s w).mchkNext = false → fetchWord s0 w pc.toNat = .ok d rx → fld d 51 8 ∈ unassigned →
    step s = .next (fetchFault s0 w pc pc .ill) ∧
    (outstanding s w = false → tip (warpOf s w) = false → (warpOf s w).trapv ≠ 0 →
      fld (warpOf (fetchFault s0 w pc pc .ill) w).cause 0 8 = 0x10 ∧ (warpOf (fetchFault s0 w pc pc .ill) w).eaddr = ptrVal pc))

/-- Every step answers a next state: no state of the machine makes a step fault or be refused; and it keeps the memory's canonical form
(rising addresses, no entry that reads as an unlisted address does), which is the model's own (log entry 1). -/
def Obligations.StepKeepsMemoryCanonical : Prop := ∀ s : State, ∃ t, step s = .next t ∧ (s.inv → t.inv)

/-- R75, R311, R362, R380: after reset memory and its shadow are clear, the invariant holds, BOOTSTAT reads 0, no warp, team or
grid exists, and queues and windows are disabled with every register 0.
The model's choices: the values of registers without a stated reset value are 0 (log entry 1);
regions are raw (log entry 18). -/
def Obligations.ResetState : Prop :=
  let s := State.reset
  s.inv ∧ (∀ w, (warpOf s w).wellFormed) ∧ (∀ a, memByte s a = 0) ∧ (∀ k, spGet .nil s.tags k = .nil ∧ spGet false s.bad k = false) ∧
  (∀ a, isTagged s a = false) ∧ dbgRead s 0 = 0 ∧ (∀ w, (warpOf s w).live = false) ∧ (∀ t, (teamOf s t).live = false) ∧
  (∀ g, (gridOf s g).live = false) ∧ (∀ p, (partOf s p).valid = false) ∧ (∀ q off, queueRead s q off = 0) ∧
  (∀ w off, winRead (winOf s w) off = 0) ∧ ∀ c, (coreOf s c).cyc = 0 ∧ (coreOf s c).reqs = []
end

