-- ==== Sys2Proof/Laws/Sparse.lean ====
section
/-! SUPPORT. The laws of the sparse maps: what a read after a write gives, and that writes keep the canonical form. -/

namespace Sys2Proof.Laws

open Sys2Proof Sys2Proof.Machine

variable {α : Type}

theorem spGet_spPut_self (d : α) (m : Sparse α) (k : Nat) (v : α) : spGet d (spPut k v m) k = v := by
  induction m with
  | nil => simp [spPut, spGet]
  | cons e r ih =>
    obtain ⟨j, u⟩ := e
    rcases Nat.lt_trichotomy k j with h | h | h
    · simp [spPut, spGet, h]
    · simp [spPut, spGet, h]
    · have h1 : ¬ k < j := by omega
      have h2 : ¬ k = j := by omega
      have h3 : ¬ j = k := by omega
      simp [spPut, spGet, h1, h2, h3, ih]

theorem spGet_spPut_ne (d : α) (m : Sparse α) {k j : Nat} (v : α) (h : j ≠ k) :
    spGet d (spPut k v m) j = spGet d m j := by
  induction m with
  | nil => simp [spPut, spGet, Ne.symm h]
  | cons e r ih =>
    obtain ⟨i, u⟩ := e
    rcases Nat.lt_trichotomy k i with g | g | g
    · simp [spPut, spGet, g, Ne.symm h]
    · subst g
      simp [spPut, spGet, Ne.symm h]
    · have h1 : ¬ k < i := by omega
      have h2 : ¬ k = i := by omega
      simp [spPut, spGet, h1, h2, ih]

theorem spGet_spDel_self (d : α) (m : Sparse α) (k : Nat) : spGet d (spDel k m) k = d := by
  induction m with
  | nil => rfl
  | cons e r ih =>
    obtain ⟨j, u⟩ := e
    by_cases h : j = k <;> simp [spDel, spGet, h, ih]

theorem spGet_spDel_ne (d : α) (m : Sparse α) {k j : Nat} (h : j ≠ k) : spGet d (spDel k m) j = spGet d m j := by
  induction m with
  | nil => rfl
  | cons e r ih =>
    obtain ⟨i, u⟩ := e
    by_cases g : i = k
    · subst g
      simp [spDel, spGet, Ne.symm h, ih]
    · simp [spDel, spGet, g, ih]

variable [DecidableEq α]

@[simp] theorem spGet_spSet_self (d : α) (m : Sparse α) (k : Nat) (v : α) : spGet d (spSet d m k v) k = v := by
  unfold spSet
  split
  · next h => rw [spGet_spDel_self, h]
  · exact spGet_spPut_self d m k v

@[simp] theorem spGet_spSet_ne (d : α) (m : Sparse α) {k j : Nat} (v : α) (h : j ≠ k) :
    spGet d (spSet d m k v) j = spGet d m j := by
  unfold spSet
  split
  · exact spGet_spDel_ne d m h
  · exact spGet_spPut_ne d m v h

theorem spGet_spSet (d : α) (m : Sparse α) (k j : Nat) (v : α) :
    spGet d (spSet d m k v) j = if j = k then v else spGet d m j := by
  by_cases h : j = k
  · subst h; simp
  · simp [h]

theorem spOrdered_mono (d : α) {m : Sparse α} {lo hi : Nat} (h : lo ≤ hi) (w : spOrdered d hi m = true) :
    spOrdered d lo m = true := by
  cases m with
  | nil => rfl
  | cons e r =>
    simp only [spOrdered, Bool.and_eq_true, decide_eq_true_eq] at w ⊢
    exact ⟨⟨by omega, w.1.2⟩, w.2⟩

theorem spOrdered_spPut (d : α) (k : Nat) (v : α) (hv : v ≠ d) (m : Sparse α) :
    ∀ lo, lo ≤ k → spOrdered d lo m = true → spOrdered d lo (spPut k v m) = true := by
  induction m with
  | nil => intro lo h _; simp [spPut, spOrdered, h, hv]
  | cons e r ih =>
    obtain ⟨j, u⟩ := e
    intro lo hlo w
    simp only [spOrdered, Bool.and_eq_true, decide_eq_true_eq] at w
    rcases Nat.lt_trichotomy k j with g | g | g
    · simp only [spPut, g, if_true, spOrdered, Bool.and_eq_true, decide_eq_true_eq]
      exact ⟨⟨hlo, hv⟩, ⟨by omega, w.1.2⟩, w.2⟩
    · subst g
      simp only [spPut, lt_irrefl, if_false, if_true, spOrdered, Bool.and_eq_true, decide_eq_true_eq]
      exact ⟨⟨hlo, hv⟩, w.2⟩
    · have h1 : ¬ k < j := by omega
      have h2 : ¬ k = j := by omega
      simp only [spPut, h1, h2, if_false, spOrdered, Bool.and_eq_true, decide_eq_true_eq]
      exact ⟨w.1, ih (j + 1) (by omega) w.2⟩

theorem spOrdered_spDel (d : α) (k : Nat) (m : Sparse α) :
    ∀ lo, spOrdered d lo m = true → spOrdered d lo (spDel k m) = true := by
  induction m with
  | nil => intro lo _; rfl
  | cons e r ih =>
    obtain ⟨j, u⟩ := e
    intro lo w
    simp only [spOrdered, Bool.and_eq_true, decide_eq_true_eq] at w
    by_cases g : j = k
    · simp only [spDel, g, if_true]
      exact ih lo (spOrdered_mono d (by omega) w.2)
    · simp only [spDel, g, if_false, spOrdered, Bool.and_eq_true, decide_eq_true_eq]
      exact ⟨w.1, ih _ w.2⟩

/-- A write keeps the canonical form. -/
theorem spWf_spSet (d : α) (m : Sparse α) (k : Nat) (v : α) (w : spWf d m = true) : spWf d (spSet d m k v) = true := by
  unfold spSet spWf at *
  split
  · exact spOrdered_spDel d k m 0 w
  · next h => exact spOrdered_spPut d k v h m 0 (by omega) w

theorem spGet_of_lt (d : α) {m : Sparse α} {lo j : Nat} (w : spOrdered d lo m = true) (h : j < lo) : spGet d m j = d := by
  induction m generalizing lo with
  | nil => rfl
  | cons e r ih =>
    obtain ⟨i, u⟩ := e
    simp only [spOrdered, Bool.and_eq_true, decide_eq_true_eq] at w
    have h1 : ¬ i = j := by omega
    simp only [spGet, h1, if_false]
    exact ih w.2 (by omega)

/-- Two canonical maps that read alike are equal: equal memories are equal data. -/
theorem spWf_ext (d : α) : ∀ {m n : Sparse α} {lo : Nat}, spOrdered d lo m = true → spOrdered d lo n = true →
    (∀ k, spGet d m k = spGet d n k) → m = n := by
  intro m
  induction m with
  | nil =>
    intro n lo _ hn h
    cases n with
    | nil => rfl
    | cons e r =>
      obtain ⟨j, u⟩ := e
      simp only [spOrdered, Bool.and_eq_true, decide_eq_true_eq] at hn
      have := h j
      simp only [spGet, if_true] at this
      exact absurd this.symm hn.1.2
  | cons e r ih =>
    obtain ⟨i, u⟩ := e
    intro n lo hm hn h
    simp only [spOrdered, Bool.and_eq_true, decide_eq_true_eq] at hm
    cases n with
    | nil =>
      have := h i
      simp only [spGet, if_true] at this
      exact absurd this hm.1.2
    | cons e' r' =>
      obtain ⟨j, v⟩ := e'
      simp only [spOrdered, Bool.and_eq_true, decide_eq_true_eq] at hn
      have hij : i = j := by
        rcases Nat.lt_trichotomy i j with g | g | g
        · have a := h i
          have b : ¬ j = i := by omega
          simp only [spGet, if_true, b, if_false] at a
          rw [spGet_of_lt d hn.2 (by omega)] at a
          exact absurd a hm.1.2
        · exact g
        · have a := h j
          have b : ¬ i = j := by omega
          simp only [spGet, if_true, b, if_false] at a
          rw [spGet_of_lt d hm.2 (by omega)] at a
          exact absurd a.symm hn.1.2
      subst hij
      have huv : u = v := by simpa [spGet] using h i
      subst huv
      rw [ih hm.2 hn.2 ?_]
      intro k
      by_cases g : i = k
      · rw [spGet_of_lt d hm.2 (by omega), spGet_of_lt d hn.2 (by omega)]
      · simpa [spGet, g] using h k

/-! ## A function applied to every value -/

omit [DecidableEq α] in
/-- The value at a key after a function is applied to every value, before defaults are removed. -/
theorem spGet_map (d : α) (f : Nat → α → α) (hf : ∀ k, f k d = d) (m : Sparse α) (k : Nat) :
    spGet d (m.map (fun e => (e.1, f e.1 e.2))) k = f k (spGet d m k) := by
  induction m with
  | nil => simp [spGet, hf]
  | cons e r ih =>
    obtain ⟨j, u⟩ := e
    by_cases q : j = k
    · subst q; simp [spGet]
    · simpa [spGet, q] using ih

omit [DecidableEq α] in
/-- Keeping the entries of some keys keeps their values. -/
theorem spGet_filter (d : α) (p : Nat → Bool) (m : Sparse α) (k : Nat) :
    spGet d (m.filter (fun e => p e.1)) k = if p k = true then spGet d m k else d := by
  induction m with
  | nil => simp [spGet]
  | cons e r ih =>
    obtain ⟨j, u⟩ := e
    rw [List.filter_cons]
    by_cases q : j = k
    · subst q
      by_cases g : p j = true
      · simp [g, spGet]
      · simp [g, ih]
    · split <;> simp [spGet, q, ih]

/-- A function applied to every value of a map is read through, if it keeps the default. -/
theorem spGet_spMap (d : α) (f : Nat → α → α) (hf : ∀ k, f k d = d) (m : Sparse α) (k : Nat) :
    spGet d (spMap d f m) k = f k (spGet d m k) := by
  unfold spMap
  simp only []
  split
  · have a := spGet_filter d (fun k => decide (spGet d (m.map (fun e => (e.1, f e.1 e.2))) k ≠ d))
      (m.map (fun e => (e.1, f e.1 e.2))) k
    rw [a, spGet_map d f hf]
    split
    · rfl
    · next g => simp only [ne_eq, decide_not, Bool.not_eq_true', decide_eq_false_iff_not, not_not] at g; exact g.symm
  · exact spGet_map d f hf m k

theorem spOrdered_filter (d : α) (p : Nat × α → Bool) (m : Sparse α) :
    ∀ lo, spOrdered d lo m = true → spOrdered d lo (m.filter p) = true := by
  induction m with
  | nil => intro lo _; rfl
  | cons e r ih =>
    obtain ⟨j, u⟩ := e
    intro lo w
    simp only [spOrdered, Bool.and_eq_true, decide_eq_true_eq] at w
    rw [List.filter_cons]
    split
    · simp only [spOrdered, Bool.and_eq_true, decide_eq_true_eq]; exact ⟨w.1, ih _ w.2⟩
    · exact spOrdered_mono d (by omega) (ih _ w.2)

/-- Keeping some entries keeps the canonical form. -/
theorem spWf_filter (d : α) (p : Nat × α → Bool) (m : Sparse α) (w : spWf d m = true) : spWf d (m.filter p) = true :=
  spOrdered_filter d p m 0 w

theorem spOrdered_map (d : α) (f : Nat → α → α) (p : Nat → Bool) (m : Sparse α) :
    (∀ e ∈ m, p e.1 = true → f e.1 e.2 ≠ d) → ∀ lo, spOrdered d lo m = true →
    spOrdered d lo ((m.map (fun e => (e.1, f e.1 e.2))).filter (fun e => p e.1)) = true := by
  induction m with
  | nil => intro _ lo _; rfl
  | cons e r ih =>
    obtain ⟨j, u⟩ := e
    intro hv lo w
    simp only [spOrdered, Bool.and_eq_true, decide_eq_true_eq] at w
    have h := ih (fun e he => hv e (List.mem_cons_of_mem _ he)) (j + 1) w.2
    rw [List.map_cons, List.filter_cons]
    split
    · next g =>
      simp only [spOrdered, Bool.and_eq_true, decide_eq_true_eq]
      exact ⟨⟨w.1.1, hv (j, u) List.mem_cons_self g⟩, h⟩
    · exact spOrdered_mono d (by omega) h

theorem spGet_of_mem (d : α) {m : Sparse α} : ∀ {lo : Nat}, spOrdered d lo m = true → ∀ {k : Nat} {v : α}, (k, v) ∈ m →
    lo ≤ k ∧ spGet d m k = v := by
  induction m with
  | nil => intro lo _ k v h; cases h
  | cons e r ih =>
    obtain ⟨j, u⟩ := e
    intro lo w k v h
    simp only [spOrdered, Bool.and_eq_true, decide_eq_true_eq] at w
    rcases List.mem_cons.mp h with e | e
    · cases e
      exact ⟨w.1.1, by simp [spGet]⟩
    · obtain ⟨a, b⟩ := ih w.2 e
      have q : ¬ j = k := by omega
      exact ⟨by omega, by simpa [spGet, q] using b⟩

/-- Applying a function to every value keeps the canonical form. -/
theorem spWf_spMap (d : α) (f : Nat → α → α) (m : Sparse α) (w : spWf d m = true) : spWf d (spMap d f m) = true := by
  unfold spMap
  simp only []
  split
  · refine spOrdered_map d f (fun k => decide (spGet d (m.map (fun e => (e.1, f e.1 e.2))) k ≠ d)) m ?_ 0 w
    intro e he hp hd
    have q : spGet d (m.map (fun e => (e.1, f e.1 e.2))) e.1 = f e.1 e.2 := by
      have : ∀ (m : Sparse α) (lo : Nat), spOrdered d lo m = true → ∀ e ∈ m,
          spGet d (m.map (fun e => (e.1, f e.1 e.2))) e.1 = f e.1 e.2 := by
        intro m
        induction m with
        | nil => intro lo _ e h; cases h
        | cons a r ih =>
          obtain ⟨j, u⟩ := a
          intro lo w e h
          simp only [spOrdered, Bool.and_eq_true, decide_eq_true_eq] at w
          rcases List.mem_cons.mp h with q | q
          · subst q; simp [spGet]
          · have b := (spGet_of_mem d w.2 (k := e.1) (v := e.2) q).1
            have c : ¬ j = e.1 := by omega
            simpa [spGet, c] using ih _ w.2 e q
      exact this m 0 w e he
    simp [q, hd] at hp
  · next g =>
    have a := spOrdered_map d f (fun _ => true) m (fun e he _ hd => g (by
      simp only [List.any_map, List.any_eq_true]
      exact ⟨e, he, by simp [hd]⟩)) 0 w
    simpa [spWf] using a

omit [DecidableEq α] in
/-- What spFind finds: a key that has an entry, and whose value satisfies p. -/
theorem mem_spFind (d : α) (p : Nat → α → Bool) (m : Sparse α) (k : Nat) :
    k ∈ spFind m p ↔ k ∈ spKeys m ∧ p k (spGet d m k) = true := by
  induction m with
  | nil => simp [spFind, spKeys]
  | cons e r ih =>
    obtain ⟨j, v⟩ := e
    by_cases h : k = j
    · subst h; by_cases hp : p k v <;> simp [spFind, spKeys, spGet, hp]
    · have h' : ¬ j = k := fun x => h x.symm
      by_cases hp : p j v <;> simp [spFind, spKeys, spGet, h, h', hp] at ih ⊢ <;> exact ih

end Sys2Proof.Laws
end

