-- ==== Sys2Proof/Laws/State.lean ====
section
/-! SUPPORT. One lemma per field per update of the state and of a warp: what an update does not touch, read after it, is
as before; what it writes is what it was given. -/

namespace Sys2Proof.Laws

open Sys2Proof Sys2Proof.Machine

section

variable (s : State)

/-! ## setCore -/

@[simp] theorem setCore_mem (c : Nat) (x : Core) : (setCore s c x).mem = s.mem := rfl
@[simp] theorem setCore_tags (c : Nat) (x : Core) : (setCore s c x).tags = s.tags := rfl
@[simp] theorem setCore_tagged (c : Nat) (x : Core) : (setCore s c x).tagged = s.tagged := rfl
@[simp] theorem setCore_bad (c : Nat) (x : Core) : (setCore s c x).bad = s.bad := rfl
@[simp] theorem setCore_l2 (c : Nat) (x : Core) : (setCore s c x).l2 = s.l2 := rfl
@[simp] theorem setCore_l2lru (c : Nat) (x : Core) : (setCore s c x).l2lru = s.l2lru := rfl
@[simp] theorem setCore_releaser (c : Nat) (x : Core) : (setCore s c x).releaser = s.releaser := rfl
@[simp] theorem setCore_code (c : Nat) (x : Core) : (setCore s c x).code = s.code := rfl
@[simp] theorem setCore_teams (c : Nat) (x : Core) : (setCore s c x).teams = s.teams := rfl
@[simp] theorem setCore_warps (c : Nat) (x : Core) : (setCore s c x).warps = s.warps := rfl
@[simp] theorem setCore_asws (c : Nat) (x : Core) : (setCore s c x).asws = s.asws := rfl
@[simp] theorem setCore_parts (c : Nat) (x : Core) : (setCore s c x).parts = s.parts := rfl
@[simp] theorem setCore_queues (c : Nat) (x : Core) : (setCore s c x).queues = s.queues := rfl
@[simp] theorem setCore_grids (c : Nat) (x : Core) : (setCore s c x).grids = s.grids := rfl
@[simp] theorem setCore_graphs (c : Nat) (x : Core) : (setCore s c x).graphs = s.graphs := rfl
@[simp] theorem setCore_slkv (c : Nat) (x : Core) : (setCore s c x).slkv = s.slkv := rfl
@[simp] theorem setCore_sktb (c : Nat) (x : Core) : (setCore s c x).sktb = s.sktb := rfl
@[simp] theorem setCore_appends (c : Nat) (x : Core) : (setCore s c x).appends = s.appends := rfl
@[simp] theorem setCore_ksels (c : Nat) (x : Core) : (setCore s c x).ksels = s.ksels := rfl
@[simp] theorem setCore_attns (c : Nat) (x : Core) : (setCore s c x).attns = s.attns := rfl
@[simp] theorem setCore_wqrys (c : Nat) (x : Core) : (setCore s c x).wqrys = s.wqrys := rfl
@[simp] theorem setCore_kvsds (c : Nat) (x : Core) : (setCore s c x).kvsds = s.kvsds := rfl
@[simp] theorem setCore_wins (c : Nat) (x : Core) : (setCore s c x).wins = s.wins := rfl
@[simp] theorem setCore_linkUp (c : Nat) (x : Core) : (setCore s c x).linkUp = s.linkUp := rfl
@[simp] theorem setCore_lost (c : Nat) (x : Core) : (setCore s c x).lost = s.lost := rfl
@[simp] theorem setCore_chanBad (c : Nat) (x : Core) : (setCore s c x).chanBad = s.chanBad := rfl
@[simp] theorem setCore_routes (c : Nat) (x : Core) : (setCore s c x).routes = s.routes := rfl
@[simp] theorem setCore_decoders (c : Nat) (x : Core) : (setCore s c x).decoders = s.decoders := rfl
@[simp] theorem setCore_vfReset (c : Nat) (x : Core) : (setCore s c x).vfReset = s.vfReset := rfl
@[simp] theorem setCore_vfCount (c : Nat) (x : Core) : (setCore s c x).vfCount = s.vfCount := rfl
@[simp] theorem setCore_msixTab (c : Nat) (x : Core) : (setCore s c x).msixTab = s.msixTab := rfl
@[simp] theorem setCore_boot (c : Nat) (x : Core) : (setCore s c x).boot = s.boot := rfl
@[simp] theorem setCore_bootRun (c : Nat) (x : Core) : (setCore s c x).bootRun = s.bootRun := rfl
@[simp] theorem setCore_vfsUp (c : Nat) (x : Core) : (setCore s c x).vfsUp = s.vfsUp := rfl
@[simp] theorem setCore_fuses (c : Nat) (x : Core) : (setCore s c x).fuses = s.fuses := rfl
@[simp] theorem setCore_images (c : Nat) (x : Core) : (setCore s c x).images = s.images := rfl
@[simp] theorem setCore_firmware (c : Nat) (x : Core) : (setCore s c x).firmware = s.firmware := rfl
@[simp] theorem setCore_dbg (c : Nat) (x : Core) : (setCore s c x).dbg = s.dbg := rfl
@[simp] theorem setCore_mbox (c : Nat) (x : Core) : (setCore s c x).mbox = s.mbox := rfl
@[simp] theorem setCore_spdm (c : Nat) (x : Core) : (setCore s c x).spdm = s.spdm := rfl
@[simp] theorem setCore_spdmExt (c : Nat) (x : Core) : (setCore s c x).spdmExt = s.spdmExt := rfl
@[simp] theorem setCore_ecc (c : Nat) (x : Core) : (setCore s c x).ecc = s.ecc := rfl
@[simp] theorem setCore_errlog (c : Nat) (x : Core) : (setCore s c x).errlog = s.errlog := rfl
@[simp] theorem setCore_errseq (c : Nat) (x : Core) : (setCore s c x).errseq = s.errseq := rfl
@[simp] theorem setCore_rootReports (c : Nat) (x : Core) : (setCore s c x).rootReports = s.rootReports := rfl
@[simp] theorem setCore_answers (c : Nat) (x : Core) : (setCore s c x).answers = s.answers := rfl
@[simp] theorem setCore_msix (c : Nat) (x : Core) : (setCore s c x).msix = s.msix := rfl
@[simp] theorem setCore_nextGrid (c : Nat) (x : Core) : (setCore s c x).nextGrid = s.nextGrid := rfl
@[simp] theorem setCore_nextTeam (c : Nat) (x : Core) : (setCore s c x).nextTeam = s.nextTeam := rfl
@[simp] theorem setCore_nextWarp (c : Nat) (x : Core) : (setCore s c x).nextWarp = s.nextWarp := rfl
@[simp] theorem setCore_nextKvsd (c : Nat) (x : Core) : (setCore s c x).nextKvsd = s.nextKvsd := rfl
@[simp] theorem setCore_age (c : Nat) (x : Core) : (setCore s c x).age = s.age := rfl
@[simp] theorem setCore_cur (c : Nat) (x : Core) : (setCore s c x).cur = s.cur := rfl
@[simp] theorem setCore_turn (c : Nat) (x : Core) : (setCore s c x).turn = s.turn := rfl
@[simp] theorem setCore_free (c : Nat) (x : Core) : (setCore s c x).free = s.free := rfl
@[simp] theorem setCore_agenda (c : Nat) (x : Core) : (setCore s c x).agenda = s.agenda := rfl

/-! ## setWarp -/

@[simp] theorem setWarp_mem (w : Nat) (x : Warp) : (setWarp s w x).mem = s.mem := rfl
@[simp] theorem setWarp_tags (w : Nat) (x : Warp) : (setWarp s w x).tags = s.tags := rfl
@[simp] theorem setWarp_tagged (w : Nat) (x : Warp) : (setWarp s w x).tagged = s.tagged := rfl
@[simp] theorem setWarp_bad (w : Nat) (x : Warp) : (setWarp s w x).bad = s.bad := rfl
@[simp] theorem setWarp_l2 (w : Nat) (x : Warp) : (setWarp s w x).l2 = s.l2 := rfl
@[simp] theorem setWarp_l2lru (w : Nat) (x : Warp) : (setWarp s w x).l2lru = s.l2lru := rfl
@[simp] theorem setWarp_releaser (w : Nat) (x : Warp) : (setWarp s w x).releaser = s.releaser := rfl
@[simp] theorem setWarp_code (w : Nat) (x : Warp) : (setWarp s w x).code = s.code := rfl
@[simp] theorem setWarp_cores (w : Nat) (x : Warp) : (setWarp s w x).cores = s.cores := rfl
@[simp] theorem setWarp_teams (w : Nat) (x : Warp) : (setWarp s w x).teams = s.teams := rfl
@[simp] theorem setWarp_asws (w : Nat) (x : Warp) : (setWarp s w x).asws = s.asws := rfl
@[simp] theorem setWarp_parts (w : Nat) (x : Warp) : (setWarp s w x).parts = s.parts := rfl
@[simp] theorem setWarp_queues (w : Nat) (x : Warp) : (setWarp s w x).queues = s.queues := rfl
@[simp] theorem setWarp_grids (w : Nat) (x : Warp) : (setWarp s w x).grids = s.grids := rfl
@[simp] theorem setWarp_graphs (w : Nat) (x : Warp) : (setWarp s w x).graphs = s.graphs := rfl
@[simp] theorem setWarp_slkv (w : Nat) (x : Warp) : (setWarp s w x).slkv = s.slkv := rfl
@[simp] theorem setWarp_sktb (w : Nat) (x : Warp) : (setWarp s w x).sktb = s.sktb := rfl
@[simp] theorem setWarp_appends (w : Nat) (x : Warp) : (setWarp s w x).appends = s.appends := rfl
@[simp] theorem setWarp_ksels (w : Nat) (x : Warp) : (setWarp s w x).ksels = s.ksels := rfl
@[simp] theorem setWarp_attns (w : Nat) (x : Warp) : (setWarp s w x).attns = s.attns := rfl
@[simp] theorem setWarp_wqrys (w : Nat) (x : Warp) : (setWarp s w x).wqrys = s.wqrys := rfl
@[simp] theorem setWarp_kvsds (w : Nat) (x : Warp) : (setWarp s w x).kvsds = s.kvsds := rfl
@[simp] theorem setWarp_wins (w : Nat) (x : Warp) : (setWarp s w x).wins = s.wins := rfl
@[simp] theorem setWarp_linkUp (w : Nat) (x : Warp) : (setWarp s w x).linkUp = s.linkUp := rfl
@[simp] theorem setWarp_lost (w : Nat) (x : Warp) : (setWarp s w x).lost = s.lost := rfl
@[simp] theorem setWarp_chanBad (w : Nat) (x : Warp) : (setWarp s w x).chanBad = s.chanBad := rfl
@[simp] theorem setWarp_routes (w : Nat) (x : Warp) : (setWarp s w x).routes = s.routes := rfl
@[simp] theorem setWarp_decoders (w : Nat) (x : Warp) : (setWarp s w x).decoders = s.decoders := rfl
@[simp] theorem setWarp_vfReset (w : Nat) (x : Warp) : (setWarp s w x).vfReset = s.vfReset := rfl
@[simp] theorem setWarp_vfCount (w : Nat) (x : Warp) : (setWarp s w x).vfCount = s.vfCount := rfl
@[simp] theorem setWarp_msixTab (w : Nat) (x : Warp) : (setWarp s w x).msixTab = s.msixTab := rfl
@[simp] theorem setWarp_boot (w : Nat) (x : Warp) : (setWarp s w x).boot = s.boot := rfl
@[simp] theorem setWarp_bootRun (w : Nat) (x : Warp) : (setWarp s w x).bootRun = s.bootRun := rfl
@[simp] theorem setWarp_vfsUp (w : Nat) (x : Warp) : (setWarp s w x).vfsUp = s.vfsUp := rfl
@[simp] theorem setWarp_fuses (w : Nat) (x : Warp) : (setWarp s w x).fuses = s.fuses := rfl
@[simp] theorem setWarp_images (w : Nat) (x : Warp) : (setWarp s w x).images = s.images := rfl
@[simp] theorem setWarp_firmware (w : Nat) (x : Warp) : (setWarp s w x).firmware = s.firmware := rfl
@[simp] theorem setWarp_dbg (w : Nat) (x : Warp) : (setWarp s w x).dbg = s.dbg := rfl
@[simp] theorem setWarp_mbox (w : Nat) (x : Warp) : (setWarp s w x).mbox = s.mbox := rfl
@[simp] theorem setWarp_spdm (w : Nat) (x : Warp) : (setWarp s w x).spdm = s.spdm := rfl
@[simp] theorem setWarp_spdmExt (w : Nat) (x : Warp) : (setWarp s w x).spdmExt = s.spdmExt := rfl
@[simp] theorem setWarp_ecc (w : Nat) (x : Warp) : (setWarp s w x).ecc = s.ecc := rfl
@[simp] theorem setWarp_errlog (w : Nat) (x : Warp) : (setWarp s w x).errlog = s.errlog := rfl
@[simp] theorem setWarp_errseq (w : Nat) (x : Warp) : (setWarp s w x).errseq = s.errseq := rfl
@[simp] theorem setWarp_rootReports (w : Nat) (x : Warp) : (setWarp s w x).rootReports = s.rootReports := rfl
@[simp] theorem setWarp_answers (w : Nat) (x : Warp) : (setWarp s w x).answers = s.answers := rfl
@[simp] theorem setWarp_msix (w : Nat) (x : Warp) : (setWarp s w x).msix = s.msix := rfl
@[simp] theorem setWarp_nextGrid (w : Nat) (x : Warp) : (setWarp s w x).nextGrid = s.nextGrid := rfl
@[simp] theorem setWarp_nextTeam (w : Nat) (x : Warp) : (setWarp s w x).nextTeam = s.nextTeam := rfl
@[simp] theorem setWarp_nextWarp (w : Nat) (x : Warp) : (setWarp s w x).nextWarp = s.nextWarp := rfl
@[simp] theorem setWarp_nextKvsd (w : Nat) (x : Warp) : (setWarp s w x).nextKvsd = s.nextKvsd := rfl
@[simp] theorem setWarp_age (w : Nat) (x : Warp) : (setWarp s w x).age = s.age := rfl
@[simp] theorem setWarp_cur (w : Nat) (x : Warp) : (setWarp s w x).cur = s.cur := rfl
@[simp] theorem setWarp_turn (w : Nat) (x : Warp) : (setWarp s w x).turn = s.turn := rfl
@[simp] theorem setWarp_free (w : Nat) (x : Warp) : (setWarp s w x).free = s.free := rfl
@[simp] theorem setWarp_agenda (w : Nat) (x : Warp) : (setWarp s w x).agenda = s.agenda := rfl

/-! ## setTeam -/

@[simp] theorem setTeam_mem (t : Nat) (x : Team) : (setTeam s t x).mem = s.mem := rfl
@[simp] theorem setTeam_tags (t : Nat) (x : Team) : (setTeam s t x).tags = s.tags := rfl
@[simp] theorem setTeam_tagged (t : Nat) (x : Team) : (setTeam s t x).tagged = s.tagged := rfl
@[simp] theorem setTeam_bad (t : Nat) (x : Team) : (setTeam s t x).bad = s.bad := rfl
@[simp] theorem setTeam_l2 (t : Nat) (x : Team) : (setTeam s t x).l2 = s.l2 := rfl
@[simp] theorem setTeam_l2lru (t : Nat) (x : Team) : (setTeam s t x).l2lru = s.l2lru := rfl
@[simp] theorem setTeam_releaser (t : Nat) (x : Team) : (setTeam s t x).releaser = s.releaser := rfl
@[simp] theorem setTeam_code (t : Nat) (x : Team) : (setTeam s t x).code = s.code := rfl
@[simp] theorem setTeam_cores (t : Nat) (x : Team) : (setTeam s t x).cores = s.cores := rfl
@[simp] theorem setTeam_warps (t : Nat) (x : Team) : (setTeam s t x).warps = s.warps := rfl
@[simp] theorem setTeam_asws (t : Nat) (x : Team) : (setTeam s t x).asws = s.asws := rfl
@[simp] theorem setTeam_parts (t : Nat) (x : Team) : (setTeam s t x).parts = s.parts := rfl
@[simp] theorem setTeam_queues (t : Nat) (x : Team) : (setTeam s t x).queues = s.queues := rfl
@[simp] theorem setTeam_grids (t : Nat) (x : Team) : (setTeam s t x).grids = s.grids := rfl
@[simp] theorem setTeam_graphs (t : Nat) (x : Team) : (setTeam s t x).graphs = s.graphs := rfl
@[simp] theorem setTeam_slkv (t : Nat) (x : Team) : (setTeam s t x).slkv = s.slkv := rfl
@[simp] theorem setTeam_sktb (t : Nat) (x : Team) : (setTeam s t x).sktb = s.sktb := rfl
@[simp] theorem setTeam_appends (t : Nat) (x : Team) : (setTeam s t x).appends = s.appends := rfl
@[simp] theorem setTeam_ksels (t : Nat) (x : Team) : (setTeam s t x).ksels = s.ksels := rfl
@[simp] theorem setTeam_attns (t : Nat) (x : Team) : (setTeam s t x).attns = s.attns := rfl
@[simp] theorem setTeam_wqrys (t : Nat) (x : Team) : (setTeam s t x).wqrys = s.wqrys := rfl
@[simp] theorem setTeam_kvsds (t : Nat) (x : Team) : (setTeam s t x).kvsds = s.kvsds := rfl
@[simp] theorem setTeam_wins (t : Nat) (x : Team) : (setTeam s t x).wins = s.wins := rfl
@[simp] theorem setTeam_linkUp (t : Nat) (x : Team) : (setTeam s t x).linkUp = s.linkUp := rfl
@[simp] theorem setTeam_lost (t : Nat) (x : Team) : (setTeam s t x).lost = s.lost := rfl
@[simp] theorem setTeam_chanBad (t : Nat) (x : Team) : (setTeam s t x).chanBad = s.chanBad := rfl
@[simp] theorem setTeam_routes (t : Nat) (x : Team) : (setTeam s t x).routes = s.routes := rfl
@[simp] theorem setTeam_decoders (t : Nat) (x : Team) : (setTeam s t x).decoders = s.decoders := rfl
@[simp] theorem setTeam_vfReset (t : Nat) (x : Team) : (setTeam s t x).vfReset = s.vfReset := rfl
@[simp] theorem setTeam_vfCount (t : Nat) (x : Team) : (setTeam s t x).vfCount = s.vfCount := rfl
@[simp] theorem setTeam_msixTab (t : Nat) (x : Team) : (setTeam s t x).msixTab = s.msixTab := rfl
@[simp] theorem setTeam_boot (t : Nat) (x : Team) : (setTeam s t x).boot = s.boot := rfl
@[simp] theorem setTeam_bootRun (t : Nat) (x : Team) : (setTeam s t x).bootRun = s.bootRun := rfl
@[simp] theorem setTeam_vfsUp (t : Nat) (x : Team) : (setTeam s t x).vfsUp = s.vfsUp := rfl
@[simp] theorem setTeam_fuses (t : Nat) (x : Team) : (setTeam s t x).fuses = s.fuses := rfl
@[simp] theorem setTeam_images (t : Nat) (x : Team) : (setTeam s t x).images = s.images := rfl
@[simp] theorem setTeam_firmware (t : Nat) (x : Team) : (setTeam s t x).firmware = s.firmware := rfl
@[simp] theorem setTeam_dbg (t : Nat) (x : Team) : (setTeam s t x).dbg = s.dbg := rfl
@[simp] theorem setTeam_mbox (t : Nat) (x : Team) : (setTeam s t x).mbox = s.mbox := rfl
@[simp] theorem setTeam_spdm (t : Nat) (x : Team) : (setTeam s t x).spdm = s.spdm := rfl
@[simp] theorem setTeam_spdmExt (t : Nat) (x : Team) : (setTeam s t x).spdmExt = s.spdmExt := rfl
@[simp] theorem setTeam_ecc (t : Nat) (x : Team) : (setTeam s t x).ecc = s.ecc := rfl
@[simp] theorem setTeam_errlog (t : Nat) (x : Team) : (setTeam s t x).errlog = s.errlog := rfl
@[simp] theorem setTeam_errseq (t : Nat) (x : Team) : (setTeam s t x).errseq = s.errseq := rfl
@[simp] theorem setTeam_rootReports (t : Nat) (x : Team) : (setTeam s t x).rootReports = s.rootReports := rfl
@[simp] theorem setTeam_answers (t : Nat) (x : Team) : (setTeam s t x).answers = s.answers := rfl
@[simp] theorem setTeam_msix (t : Nat) (x : Team) : (setTeam s t x).msix = s.msix := rfl
@[simp] theorem setTeam_nextGrid (t : Nat) (x : Team) : (setTeam s t x).nextGrid = s.nextGrid := rfl
@[simp] theorem setTeam_nextTeam (t : Nat) (x : Team) : (setTeam s t x).nextTeam = s.nextTeam := rfl
@[simp] theorem setTeam_nextWarp (t : Nat) (x : Team) : (setTeam s t x).nextWarp = s.nextWarp := rfl
@[simp] theorem setTeam_nextKvsd (t : Nat) (x : Team) : (setTeam s t x).nextKvsd = s.nextKvsd := rfl
@[simp] theorem setTeam_age (t : Nat) (x : Team) : (setTeam s t x).age = s.age := rfl
@[simp] theorem setTeam_cur (t : Nat) (x : Team) : (setTeam s t x).cur = s.cur := rfl
@[simp] theorem setTeam_turn (t : Nat) (x : Team) : (setTeam s t x).turn = s.turn := rfl
@[simp] theorem setTeam_free (t : Nat) (x : Team) : (setTeam s t x).free = s.free := rfl
@[simp] theorem setTeam_agenda (t : Nat) (x : Team) : (setTeam s t x).agenda = s.agenda := rfl

/-! ## setPart -/

@[simp] theorem setPart_mem (p : Nat) (x : Part) : (setPart s p x).mem = s.mem := rfl
@[simp] theorem setPart_tags (p : Nat) (x : Part) : (setPart s p x).tags = s.tags := rfl
@[simp] theorem setPart_tagged (p : Nat) (x : Part) : (setPart s p x).tagged = s.tagged := rfl
@[simp] theorem setPart_bad (p : Nat) (x : Part) : (setPart s p x).bad = s.bad := rfl
@[simp] theorem setPart_l2 (p : Nat) (x : Part) : (setPart s p x).l2 = s.l2 := rfl
@[simp] theorem setPart_l2lru (p : Nat) (x : Part) : (setPart s p x).l2lru = s.l2lru := rfl
@[simp] theorem setPart_releaser (p : Nat) (x : Part) : (setPart s p x).releaser = s.releaser := rfl
@[simp] theorem setPart_code (p : Nat) (x : Part) : (setPart s p x).code = s.code := rfl
@[simp] theorem setPart_cores (p : Nat) (x : Part) : (setPart s p x).cores = s.cores := rfl
@[simp] theorem setPart_teams (p : Nat) (x : Part) : (setPart s p x).teams = s.teams := rfl
@[simp] theorem setPart_warps (p : Nat) (x : Part) : (setPart s p x).warps = s.warps := rfl
@[simp] theorem setPart_asws (p : Nat) (x : Part) : (setPart s p x).asws = s.asws := rfl
@[simp] theorem setPart_queues (p : Nat) (x : Part) : (setPart s p x).queues = s.queues := rfl
@[simp] theorem setPart_grids (p : Nat) (x : Part) : (setPart s p x).grids = s.grids := rfl
@[simp] theorem setPart_graphs (p : Nat) (x : Part) : (setPart s p x).graphs = s.graphs := rfl
@[simp] theorem setPart_slkv (p : Nat) (x : Part) : (setPart s p x).slkv = s.slkv := rfl
@[simp] theorem setPart_sktb (p : Nat) (x : Part) : (setPart s p x).sktb = s.sktb := rfl
@[simp] theorem setPart_appends (p : Nat) (x : Part) : (setPart s p x).appends = s.appends := rfl
@[simp] theorem setPart_ksels (p : Nat) (x : Part) : (setPart s p x).ksels = s.ksels := rfl
@[simp] theorem setPart_attns (p : Nat) (x : Part) : (setPart s p x).attns = s.attns := rfl
@[simp] theorem setPart_wqrys (p : Nat) (x : Part) : (setPart s p x).wqrys = s.wqrys := rfl
@[simp] theorem setPart_kvsds (p : Nat) (x : Part) : (setPart s p x).kvsds = s.kvsds := rfl
@[simp] theorem setPart_wins (p : Nat) (x : Part) : (setPart s p x).wins = s.wins := rfl
@[simp] theorem setPart_linkUp (p : Nat) (x : Part) : (setPart s p x).linkUp = s.linkUp := rfl
@[simp] theorem setPart_lost (p : Nat) (x : Part) : (setPart s p x).lost = s.lost := rfl
@[simp] theorem setPart_chanBad (p : Nat) (x : Part) : (setPart s p x).chanBad = s.chanBad := rfl
@[simp] theorem setPart_routes (p : Nat) (x : Part) : (setPart s p x).routes = s.routes := rfl
@[simp] theorem setPart_decoders (p : Nat) (x : Part) : (setPart s p x).decoders = s.decoders := rfl
@[simp] theorem setPart_vfReset (p : Nat) (x : Part) : (setPart s p x).vfReset = s.vfReset := rfl
@[simp] theorem setPart_vfCount (p : Nat) (x : Part) : (setPart s p x).vfCount = s.vfCount := rfl
@[simp] theorem setPart_msixTab (p : Nat) (x : Part) : (setPart s p x).msixTab = s.msixTab := rfl
@[simp] theorem setPart_boot (p : Nat) (x : Part) : (setPart s p x).boot = s.boot := rfl
@[simp] theorem setPart_bootRun (p : Nat) (x : Part) : (setPart s p x).bootRun = s.bootRun := rfl
@[simp] theorem setPart_vfsUp (p : Nat) (x : Part) : (setPart s p x).vfsUp = s.vfsUp := rfl
@[simp] theorem setPart_fuses (p : Nat) (x : Part) : (setPart s p x).fuses = s.fuses := rfl
@[simp] theorem setPart_images (p : Nat) (x : Part) : (setPart s p x).images = s.images := rfl
@[simp] theorem setPart_firmware (p : Nat) (x : Part) : (setPart s p x).firmware = s.firmware := rfl
@[simp] theorem setPart_dbg (p : Nat) (x : Part) : (setPart s p x).dbg = s.dbg := rfl
@[simp] theorem setPart_mbox (p : Nat) (x : Part) : (setPart s p x).mbox = s.mbox := rfl
@[simp] theorem setPart_spdm (p : Nat) (x : Part) : (setPart s p x).spdm = s.spdm := rfl
@[simp] theorem setPart_spdmExt (p : Nat) (x : Part) : (setPart s p x).spdmExt = s.spdmExt := rfl
@[simp] theorem setPart_ecc (p : Nat) (x : Part) : (setPart s p x).ecc = s.ecc := rfl
@[simp] theorem setPart_errlog (p : Nat) (x : Part) : (setPart s p x).errlog = s.errlog := rfl
@[simp] theorem setPart_errseq (p : Nat) (x : Part) : (setPart s p x).errseq = s.errseq := rfl
@[simp] theorem setPart_rootReports (p : Nat) (x : Part) : (setPart s p x).rootReports = s.rootReports := rfl
@[simp] theorem setPart_answers (p : Nat) (x : Part) : (setPart s p x).answers = s.answers := rfl
@[simp] theorem setPart_msix (p : Nat) (x : Part) : (setPart s p x).msix = s.msix := rfl
@[simp] theorem setPart_nextGrid (p : Nat) (x : Part) : (setPart s p x).nextGrid = s.nextGrid := rfl
@[simp] theorem setPart_nextTeam (p : Nat) (x : Part) : (setPart s p x).nextTeam = s.nextTeam := rfl
@[simp] theorem setPart_nextWarp (p : Nat) (x : Part) : (setPart s p x).nextWarp = s.nextWarp := rfl
@[simp] theorem setPart_nextKvsd (p : Nat) (x : Part) : (setPart s p x).nextKvsd = s.nextKvsd := rfl
@[simp] theorem setPart_age (p : Nat) (x : Part) : (setPart s p x).age = s.age := rfl
@[simp] theorem setPart_cur (p : Nat) (x : Part) : (setPart s p x).cur = s.cur := rfl
@[simp] theorem setPart_turn (p : Nat) (x : Part) : (setPart s p x).turn = s.turn := rfl
@[simp] theorem setPart_free (p : Nat) (x : Part) : (setPart s p x).free = s.free := rfl
@[simp] theorem setPart_agenda (p : Nat) (x : Part) : (setPart s p x).agenda = s.agenda := rfl

/-! ## setQueue -/

@[simp] theorem setQueue_mem (q : Nat) (x : Queue) : (setQueue s q x).mem = s.mem := rfl
@[simp] theorem setQueue_tags (q : Nat) (x : Queue) : (setQueue s q x).tags = s.tags := rfl
@[simp] theorem setQueue_tagged (q : Nat) (x : Queue) : (setQueue s q x).tagged = s.tagged := rfl
@[simp] theorem setQueue_bad (q : Nat) (x : Queue) : (setQueue s q x).bad = s.bad := rfl
@[simp] theorem setQueue_l2 (q : Nat) (x : Queue) : (setQueue s q x).l2 = s.l2 := rfl
@[simp] theorem setQueue_l2lru (q : Nat) (x : Queue) : (setQueue s q x).l2lru = s.l2lru := rfl
@[simp] theorem setQueue_releaser (q : Nat) (x : Queue) : (setQueue s q x).releaser = s.releaser := rfl
@[simp] theorem setQueue_code (q : Nat) (x : Queue) : (setQueue s q x).code = s.code := rfl
@[simp] theorem setQueue_cores (q : Nat) (x : Queue) : (setQueue s q x).cores = s.cores := rfl
@[simp] theorem setQueue_teams (q : Nat) (x : Queue) : (setQueue s q x).teams = s.teams := rfl
@[simp] theorem setQueue_warps (q : Nat) (x : Queue) : (setQueue s q x).warps = s.warps := rfl
@[simp] theorem setQueue_asws (q : Nat) (x : Queue) : (setQueue s q x).asws = s.asws := rfl
@[simp] theorem setQueue_parts (q : Nat) (x : Queue) : (setQueue s q x).parts = s.parts := rfl
@[simp] theorem setQueue_grids (q : Nat) (x : Queue) : (setQueue s q x).grids = s.grids := rfl
@[simp] theorem setQueue_graphs (q : Nat) (x : Queue) : (setQueue s q x).graphs = s.graphs := rfl
@[simp] theorem setQueue_slkv (q : Nat) (x : Queue) : (setQueue s q x).slkv = s.slkv := rfl
@[simp] theorem setQueue_sktb (q : Nat) (x : Queue) : (setQueue s q x).sktb = s.sktb := rfl
@[simp] theorem setQueue_appends (q : Nat) (x : Queue) : (setQueue s q x).appends = s.appends := rfl
@[simp] theorem setQueue_ksels (q : Nat) (x : Queue) : (setQueue s q x).ksels = s.ksels := rfl
@[simp] theorem setQueue_attns (q : Nat) (x : Queue) : (setQueue s q x).attns = s.attns := rfl
@[simp] theorem setQueue_wqrys (q : Nat) (x : Queue) : (setQueue s q x).wqrys = s.wqrys := rfl
@[simp] theorem setQueue_kvsds (q : Nat) (x : Queue) : (setQueue s q x).kvsds = s.kvsds := rfl
@[simp] theorem setQueue_wins (q : Nat) (x : Queue) : (setQueue s q x).wins = s.wins := rfl
@[simp] theorem setQueue_linkUp (q : Nat) (x : Queue) : (setQueue s q x).linkUp = s.linkUp := rfl
@[simp] theorem setQueue_lost (q : Nat) (x : Queue) : (setQueue s q x).lost = s.lost := rfl
@[simp] theorem setQueue_chanBad (q : Nat) (x : Queue) : (setQueue s q x).chanBad = s.chanBad := rfl
@[simp] theorem setQueue_routes (q : Nat) (x : Queue) : (setQueue s q x).routes = s.routes := rfl
@[simp] theorem setQueue_decoders (q : Nat) (x : Queue) : (setQueue s q x).decoders = s.decoders := rfl
@[simp] theorem setQueue_vfReset (q : Nat) (x : Queue) : (setQueue s q x).vfReset = s.vfReset := rfl
@[simp] theorem setQueue_vfCount (q : Nat) (x : Queue) : (setQueue s q x).vfCount = s.vfCount := rfl
@[simp] theorem setQueue_msixTab (q : Nat) (x : Queue) : (setQueue s q x).msixTab = s.msixTab := rfl
@[simp] theorem setQueue_boot (q : Nat) (x : Queue) : (setQueue s q x).boot = s.boot := rfl
@[simp] theorem setQueue_bootRun (q : Nat) (x : Queue) : (setQueue s q x).bootRun = s.bootRun := rfl
@[simp] theorem setQueue_vfsUp (q : Nat) (x : Queue) : (setQueue s q x).vfsUp = s.vfsUp := rfl
@[simp] theorem setQueue_fuses (q : Nat) (x : Queue) : (setQueue s q x).fuses = s.fuses := rfl
@[simp] theorem setQueue_images (q : Nat) (x : Queue) : (setQueue s q x).images = s.images := rfl
@[simp] theorem setQueue_firmware (q : Nat) (x : Queue) : (setQueue s q x).firmware = s.firmware := rfl
@[simp] theorem setQueue_dbg (q : Nat) (x : Queue) : (setQueue s q x).dbg = s.dbg := rfl
@[simp] theorem setQueue_mbox (q : Nat) (x : Queue) : (setQueue s q x).mbox = s.mbox := rfl
@[simp] theorem setQueue_spdm (q : Nat) (x : Queue) : (setQueue s q x).spdm = s.spdm := rfl
@[simp] theorem setQueue_spdmExt (q : Nat) (x : Queue) : (setQueue s q x).spdmExt = s.spdmExt := rfl
@[simp] theorem setQueue_ecc (q : Nat) (x : Queue) : (setQueue s q x).ecc = s.ecc := rfl
@[simp] theorem setQueue_errlog (q : Nat) (x : Queue) : (setQueue s q x).errlog = s.errlog := rfl
@[simp] theorem setQueue_errseq (q : Nat) (x : Queue) : (setQueue s q x).errseq = s.errseq := rfl
@[simp] theorem setQueue_rootReports (q : Nat) (x : Queue) : (setQueue s q x).rootReports = s.rootReports := rfl
@[simp] theorem setQueue_answers (q : Nat) (x : Queue) : (setQueue s q x).answers = s.answers := rfl
@[simp] theorem setQueue_msix (q : Nat) (x : Queue) : (setQueue s q x).msix = s.msix := rfl
@[simp] theorem setQueue_nextGrid (q : Nat) (x : Queue) : (setQueue s q x).nextGrid = s.nextGrid := rfl
@[simp] theorem setQueue_nextTeam (q : Nat) (x : Queue) : (setQueue s q x).nextTeam = s.nextTeam := rfl
@[simp] theorem setQueue_nextWarp (q : Nat) (x : Queue) : (setQueue s q x).nextWarp = s.nextWarp := rfl
@[simp] theorem setQueue_nextKvsd (q : Nat) (x : Queue) : (setQueue s q x).nextKvsd = s.nextKvsd := rfl
@[simp] theorem setQueue_age (q : Nat) (x : Queue) : (setQueue s q x).age = s.age := rfl
@[simp] theorem setQueue_cur (q : Nat) (x : Queue) : (setQueue s q x).cur = s.cur := rfl
@[simp] theorem setQueue_turn (q : Nat) (x : Queue) : (setQueue s q x).turn = s.turn := rfl
@[simp] theorem setQueue_free (q : Nat) (x : Queue) : (setQueue s q x).free = s.free := rfl
@[simp] theorem setQueue_agenda (q : Nat) (x : Queue) : (setQueue s q x).agenda = s.agenda := rfl

/-! ## setGrid -/

@[simp] theorem setGrid_mem (g : Nat) (x : Grid) : (setGrid s g x).mem = s.mem := rfl
@[simp] theorem setGrid_tags (g : Nat) (x : Grid) : (setGrid s g x).tags = s.tags := rfl
@[simp] theorem setGrid_tagged (g : Nat) (x : Grid) : (setGrid s g x).tagged = s.tagged := rfl
@[simp] theorem setGrid_bad (g : Nat) (x : Grid) : (setGrid s g x).bad = s.bad := rfl
@[simp] theorem setGrid_l2 (g : Nat) (x : Grid) : (setGrid s g x).l2 = s.l2 := rfl
@[simp] theorem setGrid_l2lru (g : Nat) (x : Grid) : (setGrid s g x).l2lru = s.l2lru := rfl
@[simp] theorem setGrid_releaser (g : Nat) (x : Grid) : (setGrid s g x).releaser = s.releaser := rfl
@[simp] theorem setGrid_code (g : Nat) (x : Grid) : (setGrid s g x).code = s.code := rfl
@[simp] theorem setGrid_cores (g : Nat) (x : Grid) : (setGrid s g x).cores = s.cores := rfl
@[simp] theorem setGrid_teams (g : Nat) (x : Grid) : (setGrid s g x).teams = s.teams := rfl
@[simp] theorem setGrid_warps (g : Nat) (x : Grid) : (setGrid s g x).warps = s.warps := rfl
@[simp] theorem setGrid_asws (g : Nat) (x : Grid) : (setGrid s g x).asws = s.asws := rfl
@[simp] theorem setGrid_parts (g : Nat) (x : Grid) : (setGrid s g x).parts = s.parts := rfl
@[simp] theorem setGrid_queues (g : Nat) (x : Grid) : (setGrid s g x).queues = s.queues := rfl
@[simp] theorem setGrid_graphs (g : Nat) (x : Grid) : (setGrid s g x).graphs = s.graphs := rfl
@[simp] theorem setGrid_slkv (g : Nat) (x : Grid) : (setGrid s g x).slkv = s.slkv := rfl
@[simp] theorem setGrid_sktb (g : Nat) (x : Grid) : (setGrid s g x).sktb = s.sktb := rfl
@[simp] theorem setGrid_appends (g : Nat) (x : Grid) : (setGrid s g x).appends = s.appends := rfl
@[simp] theorem setGrid_ksels (g : Nat) (x : Grid) : (setGrid s g x).ksels = s.ksels := rfl
@[simp] theorem setGrid_attns (g : Nat) (x : Grid) : (setGrid s g x).attns = s.attns := rfl
@[simp] theorem setGrid_wqrys (g : Nat) (x : Grid) : (setGrid s g x).wqrys = s.wqrys := rfl
@[simp] theorem setGrid_kvsds (g : Nat) (x : Grid) : (setGrid s g x).kvsds = s.kvsds := rfl
@[simp] theorem setGrid_wins (g : Nat) (x : Grid) : (setGrid s g x).wins = s.wins := rfl
@[simp] theorem setGrid_linkUp (g : Nat) (x : Grid) : (setGrid s g x).linkUp = s.linkUp := rfl
@[simp] theorem setGrid_lost (g : Nat) (x : Grid) : (setGrid s g x).lost = s.lost := rfl
@[simp] theorem setGrid_chanBad (g : Nat) (x : Grid) : (setGrid s g x).chanBad = s.chanBad := rfl
@[simp] theorem setGrid_routes (g : Nat) (x : Grid) : (setGrid s g x).routes = s.routes := rfl
@[simp] theorem setGrid_decoders (g : Nat) (x : Grid) : (setGrid s g x).decoders = s.decoders := rfl
@[simp] theorem setGrid_vfReset (g : Nat) (x : Grid) : (setGrid s g x).vfReset = s.vfReset := rfl
@[simp] theorem setGrid_vfCount (g : Nat) (x : Grid) : (setGrid s g x).vfCount = s.vfCount := rfl
@[simp] theorem setGrid_msixTab (g : Nat) (x : Grid) : (setGrid s g x).msixTab = s.msixTab := rfl
@[simp] theorem setGrid_boot (g : Nat) (x : Grid) : (setGrid s g x).boot = s.boot := rfl
@[simp] theorem setGrid_bootRun (g : Nat) (x : Grid) : (setGrid s g x).bootRun = s.bootRun := rfl
@[simp] theorem setGrid_vfsUp (g : Nat) (x : Grid) : (setGrid s g x).vfsUp = s.vfsUp := rfl
@[simp] theorem setGrid_fuses (g : Nat) (x : Grid) : (setGrid s g x).fuses = s.fuses := rfl
@[simp] theorem setGrid_images (g : Nat) (x : Grid) : (setGrid s g x).images = s.images := rfl
@[simp] theorem setGrid_firmware (g : Nat) (x : Grid) : (setGrid s g x).firmware = s.firmware := rfl
@[simp] theorem setGrid_dbg (g : Nat) (x : Grid) : (setGrid s g x).dbg = s.dbg := rfl
@[simp] theorem setGrid_mbox (g : Nat) (x : Grid) : (setGrid s g x).mbox = s.mbox := rfl
@[simp] theorem setGrid_spdm (g : Nat) (x : Grid) : (setGrid s g x).spdm = s.spdm := rfl
@[simp] theorem setGrid_spdmExt (g : Nat) (x : Grid) : (setGrid s g x).spdmExt = s.spdmExt := rfl
@[simp] theorem setGrid_ecc (g : Nat) (x : Grid) : (setGrid s g x).ecc = s.ecc := rfl
@[simp] theorem setGrid_errlog (g : Nat) (x : Grid) : (setGrid s g x).errlog = s.errlog := rfl
@[simp] theorem setGrid_errseq (g : Nat) (x : Grid) : (setGrid s g x).errseq = s.errseq := rfl
@[simp] theorem setGrid_rootReports (g : Nat) (x : Grid) : (setGrid s g x).rootReports = s.rootReports := rfl
@[simp] theorem setGrid_answers (g : Nat) (x : Grid) : (setGrid s g x).answers = s.answers := rfl
@[simp] theorem setGrid_msix (g : Nat) (x : Grid) : (setGrid s g x).msix = s.msix := rfl
@[simp] theorem setGrid_nextGrid (g : Nat) (x : Grid) : (setGrid s g x).nextGrid = s.nextGrid := rfl
@[simp] theorem setGrid_nextTeam (g : Nat) (x : Grid) : (setGrid s g x).nextTeam = s.nextTeam := rfl
@[simp] theorem setGrid_nextWarp (g : Nat) (x : Grid) : (setGrid s g x).nextWarp = s.nextWarp := rfl
@[simp] theorem setGrid_nextKvsd (g : Nat) (x : Grid) : (setGrid s g x).nextKvsd = s.nextKvsd := rfl
@[simp] theorem setGrid_age (g : Nat) (x : Grid) : (setGrid s g x).age = s.age := rfl
@[simp] theorem setGrid_cur (g : Nat) (x : Grid) : (setGrid s g x).cur = s.cur := rfl
@[simp] theorem setGrid_turn (g : Nat) (x : Grid) : (setGrid s g x).turn = s.turn := rfl
@[simp] theorem setGrid_free (g : Nat) (x : Grid) : (setGrid s g x).free = s.free := rfl
@[simp] theorem setGrid_agenda (g : Nat) (x : Grid) : (setGrid s g x).agenda = s.agenda := rfl

/-! ## setGraph -/

@[simp] theorem setGraph_mem (g : Nat) (x : Graph) : (setGraph s g x).mem = s.mem := rfl
@[simp] theorem setGraph_tags (g : Nat) (x : Graph) : (setGraph s g x).tags = s.tags := rfl
@[simp] theorem setGraph_tagged (g : Nat) (x : Graph) : (setGraph s g x).tagged = s.tagged := rfl
@[simp] theorem setGraph_bad (g : Nat) (x : Graph) : (setGraph s g x).bad = s.bad := rfl
@[simp] theorem setGraph_l2 (g : Nat) (x : Graph) : (setGraph s g x).l2 = s.l2 := rfl
@[simp] theorem setGraph_l2lru (g : Nat) (x : Graph) : (setGraph s g x).l2lru = s.l2lru := rfl
@[simp] theorem setGraph_releaser (g : Nat) (x : Graph) : (setGraph s g x).releaser = s.releaser := rfl
@[simp] theorem setGraph_code (g : Nat) (x : Graph) : (setGraph s g x).code = s.code := rfl
@[simp] theorem setGraph_cores (g : Nat) (x : Graph) : (setGraph s g x).cores = s.cores := rfl
@[simp] theorem setGraph_teams (g : Nat) (x : Graph) : (setGraph s g x).teams = s.teams := rfl
@[simp] theorem setGraph_warps (g : Nat) (x : Graph) : (setGraph s g x).warps = s.warps := rfl
@[simp] theorem setGraph_asws (g : Nat) (x : Graph) : (setGraph s g x).asws = s.asws := rfl
@[simp] theorem setGraph_parts (g : Nat) (x : Graph) : (setGraph s g x).parts = s.parts := rfl
@[simp] theorem setGraph_queues (g : Nat) (x : Graph) : (setGraph s g x).queues = s.queues := rfl
@[simp] theorem setGraph_grids (g : Nat) (x : Graph) : (setGraph s g x).grids = s.grids := rfl
@[simp] theorem setGraph_slkv (g : Nat) (x : Graph) : (setGraph s g x).slkv = s.slkv := rfl
@[simp] theorem setGraph_sktb (g : Nat) (x : Graph) : (setGraph s g x).sktb = s.sktb := rfl
@[simp] theorem setGraph_appends (g : Nat) (x : Graph) : (setGraph s g x).appends = s.appends := rfl
@[simp] theorem setGraph_ksels (g : Nat) (x : Graph) : (setGraph s g x).ksels = s.ksels := rfl
@[simp] theorem setGraph_attns (g : Nat) (x : Graph) : (setGraph s g x).attns = s.attns := rfl
@[simp] theorem setGraph_wqrys (g : Nat) (x : Graph) : (setGraph s g x).wqrys = s.wqrys := rfl
@[simp] theorem setGraph_kvsds (g : Nat) (x : Graph) : (setGraph s g x).kvsds = s.kvsds := rfl
@[simp] theorem setGraph_wins (g : Nat) (x : Graph) : (setGraph s g x).wins = s.wins := rfl
@[simp] theorem setGraph_linkUp (g : Nat) (x : Graph) : (setGraph s g x).linkUp = s.linkUp := rfl
@[simp] theorem setGraph_lost (g : Nat) (x : Graph) : (setGraph s g x).lost = s.lost := rfl
@[simp] theorem setGraph_chanBad (g : Nat) (x : Graph) : (setGraph s g x).chanBad = s.chanBad := rfl
@[simp] theorem setGraph_routes (g : Nat) (x : Graph) : (setGraph s g x).routes = s.routes := rfl
@[simp] theorem setGraph_decoders (g : Nat) (x : Graph) : (setGraph s g x).decoders = s.decoders := rfl
@[simp] theorem setGraph_vfReset (g : Nat) (x : Graph) : (setGraph s g x).vfReset = s.vfReset := rfl
@[simp] theorem setGraph_vfCount (g : Nat) (x : Graph) : (setGraph s g x).vfCount = s.vfCount := rfl
@[simp] theorem setGraph_msixTab (g : Nat) (x : Graph) : (setGraph s g x).msixTab = s.msixTab := rfl
@[simp] theorem setGraph_boot (g : Nat) (x : Graph) : (setGraph s g x).boot = s.boot := rfl
@[simp] theorem setGraph_bootRun (g : Nat) (x : Graph) : (setGraph s g x).bootRun = s.bootRun := rfl
@[simp] theorem setGraph_vfsUp (g : Nat) (x : Graph) : (setGraph s g x).vfsUp = s.vfsUp := rfl
@[simp] theorem setGraph_fuses (g : Nat) (x : Graph) : (setGraph s g x).fuses = s.fuses := rfl
@[simp] theorem setGraph_images (g : Nat) (x : Graph) : (setGraph s g x).images = s.images := rfl
@[simp] theorem setGraph_firmware (g : Nat) (x : Graph) : (setGraph s g x).firmware = s.firmware := rfl
@[simp] theorem setGraph_dbg (g : Nat) (x : Graph) : (setGraph s g x).dbg = s.dbg := rfl
@[simp] theorem setGraph_mbox (g : Nat) (x : Graph) : (setGraph s g x).mbox = s.mbox := rfl
@[simp] theorem setGraph_spdm (g : Nat) (x : Graph) : (setGraph s g x).spdm = s.spdm := rfl
@[simp] theorem setGraph_spdmExt (g : Nat) (x : Graph) : (setGraph s g x).spdmExt = s.spdmExt := rfl
@[simp] theorem setGraph_ecc (g : Nat) (x : Graph) : (setGraph s g x).ecc = s.ecc := rfl
@[simp] theorem setGraph_errlog (g : Nat) (x : Graph) : (setGraph s g x).errlog = s.errlog := rfl
@[simp] theorem setGraph_errseq (g : Nat) (x : Graph) : (setGraph s g x).errseq = s.errseq := rfl
@[simp] theorem setGraph_rootReports (g : Nat) (x : Graph) : (setGraph s g x).rootReports = s.rootReports := rfl
@[simp] theorem setGraph_answers (g : Nat) (x : Graph) : (setGraph s g x).answers = s.answers := rfl
@[simp] theorem setGraph_msix (g : Nat) (x : Graph) : (setGraph s g x).msix = s.msix := rfl
@[simp] theorem setGraph_nextGrid (g : Nat) (x : Graph) : (setGraph s g x).nextGrid = s.nextGrid := rfl
@[simp] theorem setGraph_nextTeam (g : Nat) (x : Graph) : (setGraph s g x).nextTeam = s.nextTeam := rfl
@[simp] theorem setGraph_nextWarp (g : Nat) (x : Graph) : (setGraph s g x).nextWarp = s.nextWarp := rfl
@[simp] theorem setGraph_nextKvsd (g : Nat) (x : Graph) : (setGraph s g x).nextKvsd = s.nextKvsd := rfl
@[simp] theorem setGraph_age (g : Nat) (x : Graph) : (setGraph s g x).age = s.age := rfl
@[simp] theorem setGraph_cur (g : Nat) (x : Graph) : (setGraph s g x).cur = s.cur := rfl
@[simp] theorem setGraph_turn (g : Nat) (x : Graph) : (setGraph s g x).turn = s.turn := rfl
@[simp] theorem setGraph_free (g : Nat) (x : Graph) : (setGraph s g x).free = s.free := rfl
@[simp] theorem setGraph_agenda (g : Nat) (x : Graph) : (setGraph s g x).agenda = s.agenda := rfl

/-! ## setAsw -/

@[simp] theorem setAsw_mem (g : Nat) (x : Asw) : (setAsw s g x).mem = s.mem := rfl
@[simp] theorem setAsw_tags (g : Nat) (x : Asw) : (setAsw s g x).tags = s.tags := rfl
@[simp] theorem setAsw_tagged (g : Nat) (x : Asw) : (setAsw s g x).tagged = s.tagged := rfl
@[simp] theorem setAsw_bad (g : Nat) (x : Asw) : (setAsw s g x).bad = s.bad := rfl
@[simp] theorem setAsw_l2 (g : Nat) (x : Asw) : (setAsw s g x).l2 = s.l2 := rfl
@[simp] theorem setAsw_l2lru (g : Nat) (x : Asw) : (setAsw s g x).l2lru = s.l2lru := rfl
@[simp] theorem setAsw_releaser (g : Nat) (x : Asw) : (setAsw s g x).releaser = s.releaser := rfl
@[simp] theorem setAsw_code (g : Nat) (x : Asw) : (setAsw s g x).code = s.code := rfl
@[simp] theorem setAsw_cores (g : Nat) (x : Asw) : (setAsw s g x).cores = s.cores := rfl
@[simp] theorem setAsw_teams (g : Nat) (x : Asw) : (setAsw s g x).teams = s.teams := rfl
@[simp] theorem setAsw_warps (g : Nat) (x : Asw) : (setAsw s g x).warps = s.warps := rfl
@[simp] theorem setAsw_parts (g : Nat) (x : Asw) : (setAsw s g x).parts = s.parts := rfl
@[simp] theorem setAsw_queues (g : Nat) (x : Asw) : (setAsw s g x).queues = s.queues := rfl
@[simp] theorem setAsw_grids (g : Nat) (x : Asw) : (setAsw s g x).grids = s.grids := rfl
@[simp] theorem setAsw_graphs (g : Nat) (x : Asw) : (setAsw s g x).graphs = s.graphs := rfl
@[simp] theorem setAsw_slkv (g : Nat) (x : Asw) : (setAsw s g x).slkv = s.slkv := rfl
@[simp] theorem setAsw_sktb (g : Nat) (x : Asw) : (setAsw s g x).sktb = s.sktb := rfl
@[simp] theorem setAsw_appends (g : Nat) (x : Asw) : (setAsw s g x).appends = s.appends := rfl
@[simp] theorem setAsw_ksels (g : Nat) (x : Asw) : (setAsw s g x).ksels = s.ksels := rfl
@[simp] theorem setAsw_attns (g : Nat) (x : Asw) : (setAsw s g x).attns = s.attns := rfl
@[simp] theorem setAsw_wqrys (g : Nat) (x : Asw) : (setAsw s g x).wqrys = s.wqrys := rfl
@[simp] theorem setAsw_kvsds (g : Nat) (x : Asw) : (setAsw s g x).kvsds = s.kvsds := rfl
@[simp] theorem setAsw_wins (g : Nat) (x : Asw) : (setAsw s g x).wins = s.wins := rfl
@[simp] theorem setAsw_linkUp (g : Nat) (x : Asw) : (setAsw s g x).linkUp = s.linkUp := rfl
@[simp] theorem setAsw_lost (g : Nat) (x : Asw) : (setAsw s g x).lost = s.lost := rfl
@[simp] theorem setAsw_chanBad (g : Nat) (x : Asw) : (setAsw s g x).chanBad = s.chanBad := rfl
@[simp] theorem setAsw_routes (g : Nat) (x : Asw) : (setAsw s g x).routes = s.routes := rfl
@[simp] theorem setAsw_decoders (g : Nat) (x : Asw) : (setAsw s g x).decoders = s.decoders := rfl
@[simp] theorem setAsw_vfReset (g : Nat) (x : Asw) : (setAsw s g x).vfReset = s.vfReset := rfl
@[simp] theorem setAsw_vfCount (g : Nat) (x : Asw) : (setAsw s g x).vfCount = s.vfCount := rfl
@[simp] theorem setAsw_msixTab (g : Nat) (x : Asw) : (setAsw s g x).msixTab = s.msixTab := rfl
@[simp] theorem setAsw_boot (g : Nat) (x : Asw) : (setAsw s g x).boot = s.boot := rfl
@[simp] theorem setAsw_bootRun (g : Nat) (x : Asw) : (setAsw s g x).bootRun = s.bootRun := rfl
@[simp] theorem setAsw_vfsUp (g : Nat) (x : Asw) : (setAsw s g x).vfsUp = s.vfsUp := rfl
@[simp] theorem setAsw_fuses (g : Nat) (x : Asw) : (setAsw s g x).fuses = s.fuses := rfl
@[simp] theorem setAsw_images (g : Nat) (x : Asw) : (setAsw s g x).images = s.images := rfl
@[simp] theorem setAsw_firmware (g : Nat) (x : Asw) : (setAsw s g x).firmware = s.firmware := rfl
@[simp] theorem setAsw_dbg (g : Nat) (x : Asw) : (setAsw s g x).dbg = s.dbg := rfl
@[simp] theorem setAsw_mbox (g : Nat) (x : Asw) : (setAsw s g x).mbox = s.mbox := rfl
@[simp] theorem setAsw_spdm (g : Nat) (x : Asw) : (setAsw s g x).spdm = s.spdm := rfl
@[simp] theorem setAsw_spdmExt (g : Nat) (x : Asw) : (setAsw s g x).spdmExt = s.spdmExt := rfl
@[simp] theorem setAsw_ecc (g : Nat) (x : Asw) : (setAsw s g x).ecc = s.ecc := rfl
@[simp] theorem setAsw_errlog (g : Nat) (x : Asw) : (setAsw s g x).errlog = s.errlog := rfl
@[simp] theorem setAsw_errseq (g : Nat) (x : Asw) : (setAsw s g x).errseq = s.errseq := rfl
@[simp] theorem setAsw_rootReports (g : Nat) (x : Asw) : (setAsw s g x).rootReports = s.rootReports := rfl
@[simp] theorem setAsw_answers (g : Nat) (x : Asw) : (setAsw s g x).answers = s.answers := rfl
@[simp] theorem setAsw_msix (g : Nat) (x : Asw) : (setAsw s g x).msix = s.msix := rfl
@[simp] theorem setAsw_nextGrid (g : Nat) (x : Asw) : (setAsw s g x).nextGrid = s.nextGrid := rfl
@[simp] theorem setAsw_nextTeam (g : Nat) (x : Asw) : (setAsw s g x).nextTeam = s.nextTeam := rfl
@[simp] theorem setAsw_nextWarp (g : Nat) (x : Asw) : (setAsw s g x).nextWarp = s.nextWarp := rfl
@[simp] theorem setAsw_nextKvsd (g : Nat) (x : Asw) : (setAsw s g x).nextKvsd = s.nextKvsd := rfl
@[simp] theorem setAsw_age (g : Nat) (x : Asw) : (setAsw s g x).age = s.age := rfl
@[simp] theorem setAsw_cur (g : Nat) (x : Asw) : (setAsw s g x).cur = s.cur := rfl
@[simp] theorem setAsw_turn (g : Nat) (x : Asw) : (setAsw s g x).turn = s.turn := rfl
@[simp] theorem setAsw_free (g : Nat) (x : Asw) : (setAsw s g x).free = s.free := rfl
@[simp] theorem setAsw_agenda (g : Nat) (x : Asw) : (setAsw s g x).agenda = s.agenda := rfl

/-! ## setWin -/

@[simp] theorem setWin_mem (n : Nat) (x : Win) : (setWin s n x).mem = s.mem := rfl
@[simp] theorem setWin_tags (n : Nat) (x : Win) : (setWin s n x).tags = s.tags := rfl
@[simp] theorem setWin_tagged (n : Nat) (x : Win) : (setWin s n x).tagged = s.tagged := rfl
@[simp] theorem setWin_bad (n : Nat) (x : Win) : (setWin s n x).bad = s.bad := rfl
@[simp] theorem setWin_l2 (n : Nat) (x : Win) : (setWin s n x).l2 = s.l2 := rfl
@[simp] theorem setWin_l2lru (n : Nat) (x : Win) : (setWin s n x).l2lru = s.l2lru := rfl
@[simp] theorem setWin_releaser (n : Nat) (x : Win) : (setWin s n x).releaser = s.releaser := rfl
@[simp] theorem setWin_code (n : Nat) (x : Win) : (setWin s n x).code = s.code := rfl
@[simp] theorem setWin_cores (n : Nat) (x : Win) : (setWin s n x).cores = s.cores := rfl
@[simp] theorem setWin_teams (n : Nat) (x : Win) : (setWin s n x).teams = s.teams := rfl
@[simp] theorem setWin_warps (n : Nat) (x : Win) : (setWin s n x).warps = s.warps := rfl
@[simp] theorem setWin_asws (n : Nat) (x : Win) : (setWin s n x).asws = s.asws := rfl
@[simp] theorem setWin_parts (n : Nat) (x : Win) : (setWin s n x).parts = s.parts := rfl
@[simp] theorem setWin_queues (n : Nat) (x : Win) : (setWin s n x).queues = s.queues := rfl
@[simp] theorem setWin_grids (n : Nat) (x : Win) : (setWin s n x).grids = s.grids := rfl
@[simp] theorem setWin_graphs (n : Nat) (x : Win) : (setWin s n x).graphs = s.graphs := rfl
@[simp] theorem setWin_slkv (n : Nat) (x : Win) : (setWin s n x).slkv = s.slkv := rfl
@[simp] theorem setWin_sktb (n : Nat) (x : Win) : (setWin s n x).sktb = s.sktb := rfl
@[simp] theorem setWin_appends (n : Nat) (x : Win) : (setWin s n x).appends = s.appends := rfl
@[simp] theorem setWin_ksels (n : Nat) (x : Win) : (setWin s n x).ksels = s.ksels := rfl
@[simp] theorem setWin_attns (n : Nat) (x : Win) : (setWin s n x).attns = s.attns := rfl
@[simp] theorem setWin_wqrys (n : Nat) (x : Win) : (setWin s n x).wqrys = s.wqrys := rfl
@[simp] theorem setWin_kvsds (n : Nat) (x : Win) : (setWin s n x).kvsds = s.kvsds := rfl
@[simp] theorem setWin_linkUp (n : Nat) (x : Win) : (setWin s n x).linkUp = s.linkUp := rfl
@[simp] theorem setWin_lost (n : Nat) (x : Win) : (setWin s n x).lost = s.lost := rfl
@[simp] theorem setWin_chanBad (n : Nat) (x : Win) : (setWin s n x).chanBad = s.chanBad := rfl
@[simp] theorem setWin_routes (n : Nat) (x : Win) : (setWin s n x).routes = s.routes := rfl
@[simp] theorem setWin_decoders (n : Nat) (x : Win) : (setWin s n x).decoders = s.decoders := rfl
@[simp] theorem setWin_vfReset (n : Nat) (x : Win) : (setWin s n x).vfReset = s.vfReset := rfl
@[simp] theorem setWin_vfCount (n : Nat) (x : Win) : (setWin s n x).vfCount = s.vfCount := rfl
@[simp] theorem setWin_msixTab (n : Nat) (x : Win) : (setWin s n x).msixTab = s.msixTab := rfl
@[simp] theorem setWin_boot (n : Nat) (x : Win) : (setWin s n x).boot = s.boot := rfl
@[simp] theorem setWin_bootRun (n : Nat) (x : Win) : (setWin s n x).bootRun = s.bootRun := rfl
@[simp] theorem setWin_vfsUp (n : Nat) (x : Win) : (setWin s n x).vfsUp = s.vfsUp := rfl
@[simp] theorem setWin_fuses (n : Nat) (x : Win) : (setWin s n x).fuses = s.fuses := rfl
@[simp] theorem setWin_images (n : Nat) (x : Win) : (setWin s n x).images = s.images := rfl
@[simp] theorem setWin_firmware (n : Nat) (x : Win) : (setWin s n x).firmware = s.firmware := rfl
@[simp] theorem setWin_dbg (n : Nat) (x : Win) : (setWin s n x).dbg = s.dbg := rfl
@[simp] theorem setWin_mbox (n : Nat) (x : Win) : (setWin s n x).mbox = s.mbox := rfl
@[simp] theorem setWin_spdm (n : Nat) (x : Win) : (setWin s n x).spdm = s.spdm := rfl
@[simp] theorem setWin_spdmExt (n : Nat) (x : Win) : (setWin s n x).spdmExt = s.spdmExt := rfl
@[simp] theorem setWin_ecc (n : Nat) (x : Win) : (setWin s n x).ecc = s.ecc := rfl
@[simp] theorem setWin_errlog (n : Nat) (x : Win) : (setWin s n x).errlog = s.errlog := rfl
@[simp] theorem setWin_errseq (n : Nat) (x : Win) : (setWin s n x).errseq = s.errseq := rfl
@[simp] theorem setWin_rootReports (n : Nat) (x : Win) : (setWin s n x).rootReports = s.rootReports := rfl
@[simp] theorem setWin_answers (n : Nat) (x : Win) : (setWin s n x).answers = s.answers := rfl
@[simp] theorem setWin_msix (n : Nat) (x : Win) : (setWin s n x).msix = s.msix := rfl
@[simp] theorem setWin_nextGrid (n : Nat) (x : Win) : (setWin s n x).nextGrid = s.nextGrid := rfl
@[simp] theorem setWin_nextTeam (n : Nat) (x : Win) : (setWin s n x).nextTeam = s.nextTeam := rfl
@[simp] theorem setWin_nextWarp (n : Nat) (x : Win) : (setWin s n x).nextWarp = s.nextWarp := rfl
@[simp] theorem setWin_nextKvsd (n : Nat) (x : Win) : (setWin s n x).nextKvsd = s.nextKvsd := rfl
@[simp] theorem setWin_age (n : Nat) (x : Win) : (setWin s n x).age = s.age := rfl
@[simp] theorem setWin_cur (n : Nat) (x : Win) : (setWin s n x).cur = s.cur := rfl
@[simp] theorem setWin_turn (n : Nat) (x : Win) : (setWin s n x).turn = s.turn := rfl
@[simp] theorem setWin_free (n : Nat) (x : Win) : (setWin s n x).free = s.free := rfl
@[simp] theorem setWin_agenda (n : Nat) (x : Win) : (setWin s n x).agenda = s.agenda := rfl

/-! ## setMemByte -/

@[simp] theorem setMemByte_tags (a : Nat) (b : Byte) : (setMemByte s a b).tags = s.tags := rfl
@[simp] theorem setMemByte_tagged (a : Nat) (b : Byte) : (setMemByte s a b).tagged = s.tagged := rfl
@[simp] theorem setMemByte_bad (a : Nat) (b : Byte) : (setMemByte s a b).bad = s.bad := rfl
@[simp] theorem setMemByte_l2 (a : Nat) (b : Byte) : (setMemByte s a b).l2 = s.l2 := rfl
@[simp] theorem setMemByte_l2lru (a : Nat) (b : Byte) : (setMemByte s a b).l2lru = s.l2lru := rfl
@[simp] theorem setMemByte_releaser (a : Nat) (b : Byte) : (setMemByte s a b).releaser = s.releaser := rfl
@[simp] theorem setMemByte_code (a : Nat) (b : Byte) : (setMemByte s a b).code = s.code := rfl
@[simp] theorem setMemByte_cores (a : Nat) (b : Byte) : (setMemByte s a b).cores = s.cores := rfl
@[simp] theorem setMemByte_teams (a : Nat) (b : Byte) : (setMemByte s a b).teams = s.teams := rfl
@[simp] theorem setMemByte_warps (a : Nat) (b : Byte) : (setMemByte s a b).warps = s.warps := rfl
@[simp] theorem setMemByte_asws (a : Nat) (b : Byte) : (setMemByte s a b).asws = s.asws := rfl
@[simp] theorem setMemByte_parts (a : Nat) (b : Byte) : (setMemByte s a b).parts = s.parts := rfl
@[simp] theorem setMemByte_queues (a : Nat) (b : Byte) : (setMemByte s a b).queues = s.queues := rfl
@[simp] theorem setMemByte_grids (a : Nat) (b : Byte) : (setMemByte s a b).grids = s.grids := rfl
@[simp] theorem setMemByte_graphs (a : Nat) (b : Byte) : (setMemByte s a b).graphs = s.graphs := rfl
@[simp] theorem setMemByte_slkv (a : Nat) (b : Byte) : (setMemByte s a b).slkv = s.slkv := rfl
@[simp] theorem setMemByte_sktb (a : Nat) (b : Byte) : (setMemByte s a b).sktb = s.sktb := rfl
@[simp] theorem setMemByte_appends (a : Nat) (b : Byte) : (setMemByte s a b).appends = s.appends := rfl
@[simp] theorem setMemByte_ksels (a : Nat) (b : Byte) : (setMemByte s a b).ksels = s.ksels := rfl
@[simp] theorem setMemByte_attns (a : Nat) (b : Byte) : (setMemByte s a b).attns = s.attns := rfl
@[simp] theorem setMemByte_wqrys (a : Nat) (b : Byte) : (setMemByte s a b).wqrys = s.wqrys := rfl
@[simp] theorem setMemByte_kvsds (a : Nat) (b : Byte) : (setMemByte s a b).kvsds = s.kvsds := rfl
@[simp] theorem setMemByte_wins (a : Nat) (b : Byte) : (setMemByte s a b).wins = s.wins := rfl
@[simp] theorem setMemByte_linkUp (a : Nat) (b : Byte) : (setMemByte s a b).linkUp = s.linkUp := rfl
@[simp] theorem setMemByte_lost (a : Nat) (b : Byte) : (setMemByte s a b).lost = s.lost := rfl
@[simp] theorem setMemByte_chanBad (a : Nat) (b : Byte) : (setMemByte s a b).chanBad = s.chanBad := rfl
@[simp] theorem setMemByte_routes (a : Nat) (b : Byte) : (setMemByte s a b).routes = s.routes := rfl
@[simp] theorem setMemByte_decoders (a : Nat) (b : Byte) : (setMemByte s a b).decoders = s.decoders := rfl
@[simp] theorem setMemByte_vfReset (a : Nat) (b : Byte) : (setMemByte s a b).vfReset = s.vfReset := rfl
@[simp] theorem setMemByte_vfCount (a : Nat) (b : Byte) : (setMemByte s a b).vfCount = s.vfCount := rfl
@[simp] theorem setMemByte_msixTab (a : Nat) (b : Byte) : (setMemByte s a b).msixTab = s.msixTab := rfl
@[simp] theorem setMemByte_boot (a : Nat) (b : Byte) : (setMemByte s a b).boot = s.boot := rfl
@[simp] theorem setMemByte_bootRun (a : Nat) (b : Byte) : (setMemByte s a b).bootRun = s.bootRun := rfl
@[simp] theorem setMemByte_vfsUp (a : Nat) (b : Byte) : (setMemByte s a b).vfsUp = s.vfsUp := rfl
@[simp] theorem setMemByte_fuses (a : Nat) (b : Byte) : (setMemByte s a b).fuses = s.fuses := rfl
@[simp] theorem setMemByte_images (a : Nat) (b : Byte) : (setMemByte s a b).images = s.images := rfl
@[simp] theorem setMemByte_firmware (a : Nat) (b : Byte) : (setMemByte s a b).firmware = s.firmware := rfl
@[simp] theorem setMemByte_dbg (a : Nat) (b : Byte) : (setMemByte s a b).dbg = s.dbg := rfl
@[simp] theorem setMemByte_mbox (a : Nat) (b : Byte) : (setMemByte s a b).mbox = s.mbox := rfl
@[simp] theorem setMemByte_spdm (a : Nat) (b : Byte) : (setMemByte s a b).spdm = s.spdm := rfl
@[simp] theorem setMemByte_spdmExt (a : Nat) (b : Byte) : (setMemByte s a b).spdmExt = s.spdmExt := rfl
@[simp] theorem setMemByte_ecc (a : Nat) (b : Byte) : (setMemByte s a b).ecc = s.ecc := rfl
@[simp] theorem setMemByte_errlog (a : Nat) (b : Byte) : (setMemByte s a b).errlog = s.errlog := rfl
@[simp] theorem setMemByte_errseq (a : Nat) (b : Byte) : (setMemByte s a b).errseq = s.errseq := rfl
@[simp] theorem setMemByte_rootReports (a : Nat) (b : Byte) : (setMemByte s a b).rootReports = s.rootReports := rfl
@[simp] theorem setMemByte_answers (a : Nat) (b : Byte) : (setMemByte s a b).answers = s.answers := rfl
@[simp] theorem setMemByte_msix (a : Nat) (b : Byte) : (setMemByte s a b).msix = s.msix := rfl
@[simp] theorem setMemByte_nextGrid (a : Nat) (b : Byte) : (setMemByte s a b).nextGrid = s.nextGrid := rfl
@[simp] theorem setMemByte_nextTeam (a : Nat) (b : Byte) : (setMemByte s a b).nextTeam = s.nextTeam := rfl
@[simp] theorem setMemByte_nextWarp (a : Nat) (b : Byte) : (setMemByte s a b).nextWarp = s.nextWarp := rfl
@[simp] theorem setMemByte_nextKvsd (a : Nat) (b : Byte) : (setMemByte s a b).nextKvsd = s.nextKvsd := rfl
@[simp] theorem setMemByte_age (a : Nat) (b : Byte) : (setMemByte s a b).age = s.age := rfl
@[simp] theorem setMemByte_cur (a : Nat) (b : Byte) : (setMemByte s a b).cur = s.cur := rfl
@[simp] theorem setMemByte_turn (a : Nat) (b : Byte) : (setMemByte s a b).turn = s.turn := rfl
@[simp] theorem setMemByte_free (a : Nat) (b : Byte) : (setMemByte s a b).free = s.free := rfl
@[simp] theorem setMemByte_agenda (a : Nat) (b : Byte) : (setMemByte s a b).agenda = s.agenda := rfl

/-! ## setL2 -/

@[simp] theorem setL2_mem (k : Nat) (v : CWord) : (setL2 s k v).mem = s.mem := rfl
@[simp] theorem setL2_tags (k : Nat) (v : CWord) : (setL2 s k v).tags = s.tags := rfl
@[simp] theorem setL2_tagged (k : Nat) (v : CWord) : (setL2 s k v).tagged = s.tagged := rfl
@[simp] theorem setL2_bad (k : Nat) (v : CWord) : (setL2 s k v).bad = s.bad := rfl
@[simp] theorem setL2_l2lru (k : Nat) (v : CWord) : (setL2 s k v).l2lru = s.l2lru := rfl
@[simp] theorem setL2_releaser (k : Nat) (v : CWord) : (setL2 s k v).releaser = s.releaser := rfl
@[simp] theorem setL2_code (k : Nat) (v : CWord) : (setL2 s k v).code = s.code := rfl
@[simp] theorem setL2_cores (k : Nat) (v : CWord) : (setL2 s k v).cores = s.cores := rfl
@[simp] theorem setL2_teams (k : Nat) (v : CWord) : (setL2 s k v).teams = s.teams := rfl
@[simp] theorem setL2_warps (k : Nat) (v : CWord) : (setL2 s k v).warps = s.warps := rfl
@[simp] theorem setL2_asws (k : Nat) (v : CWord) : (setL2 s k v).asws = s.asws := rfl
@[simp] theorem setL2_parts (k : Nat) (v : CWord) : (setL2 s k v).parts = s.parts := rfl
@[simp] theorem setL2_queues (k : Nat) (v : CWord) : (setL2 s k v).queues = s.queues := rfl
@[simp] theorem setL2_grids (k : Nat) (v : CWord) : (setL2 s k v).grids = s.grids := rfl
@[simp] theorem setL2_graphs (k : Nat) (v : CWord) : (setL2 s k v).graphs = s.graphs := rfl
@[simp] theorem setL2_slkv (k : Nat) (v : CWord) : (setL2 s k v).slkv = s.slkv := rfl
@[simp] theorem setL2_sktb (k : Nat) (v : CWord) : (setL2 s k v).sktb = s.sktb := rfl
@[simp] theorem setL2_appends (k : Nat) (v : CWord) : (setL2 s k v).appends = s.appends := rfl
@[simp] theorem setL2_ksels (k : Nat) (v : CWord) : (setL2 s k v).ksels = s.ksels := rfl
@[simp] theorem setL2_attns (k : Nat) (v : CWord) : (setL2 s k v).attns = s.attns := rfl
@[simp] theorem setL2_wqrys (k : Nat) (v : CWord) : (setL2 s k v).wqrys = s.wqrys := rfl
@[simp] theorem setL2_kvsds (k : Nat) (v : CWord) : (setL2 s k v).kvsds = s.kvsds := rfl
@[simp] theorem setL2_wins (k : Nat) (v : CWord) : (setL2 s k v).wins = s.wins := rfl
@[simp] theorem setL2_linkUp (k : Nat) (v : CWord) : (setL2 s k v).linkUp = s.linkUp := rfl
@[simp] theorem setL2_lost (k : Nat) (v : CWord) : (setL2 s k v).lost = s.lost := rfl
@[simp] theorem setL2_chanBad (k : Nat) (v : CWord) : (setL2 s k v).chanBad = s.chanBad := rfl
@[simp] theorem setL2_routes (k : Nat) (v : CWord) : (setL2 s k v).routes = s.routes := rfl
@[simp] theorem setL2_decoders (k : Nat) (v : CWord) : (setL2 s k v).decoders = s.decoders := rfl
@[simp] theorem setL2_vfReset (k : Nat) (v : CWord) : (setL2 s k v).vfReset = s.vfReset := rfl
@[simp] theorem setL2_vfCount (k : Nat) (v : CWord) : (setL2 s k v).vfCount = s.vfCount := rfl
@[simp] theorem setL2_msixTab (k : Nat) (v : CWord) : (setL2 s k v).msixTab = s.msixTab := rfl
@[simp] theorem setL2_boot (k : Nat) (v : CWord) : (setL2 s k v).boot = s.boot := rfl
@[simp] theorem setL2_bootRun (k : Nat) (v : CWord) : (setL2 s k v).bootRun = s.bootRun := rfl
@[simp] theorem setL2_vfsUp (k : Nat) (v : CWord) : (setL2 s k v).vfsUp = s.vfsUp := rfl
@[simp] theorem setL2_fuses (k : Nat) (v : CWord) : (setL2 s k v).fuses = s.fuses := rfl
@[simp] theorem setL2_images (k : Nat) (v : CWord) : (setL2 s k v).images = s.images := rfl
@[simp] theorem setL2_firmware (k : Nat) (v : CWord) : (setL2 s k v).firmware = s.firmware := rfl
@[simp] theorem setL2_dbg (k : Nat) (v : CWord) : (setL2 s k v).dbg = s.dbg := rfl
@[simp] theorem setL2_mbox (k : Nat) (v : CWord) : (setL2 s k v).mbox = s.mbox := rfl
@[simp] theorem setL2_spdm (k : Nat) (v : CWord) : (setL2 s k v).spdm = s.spdm := rfl
@[simp] theorem setL2_spdmExt (k : Nat) (v : CWord) : (setL2 s k v).spdmExt = s.spdmExt := rfl
@[simp] theorem setL2_ecc (k : Nat) (v : CWord) : (setL2 s k v).ecc = s.ecc := rfl
@[simp] theorem setL2_errlog (k : Nat) (v : CWord) : (setL2 s k v).errlog = s.errlog := rfl
@[simp] theorem setL2_errseq (k : Nat) (v : CWord) : (setL2 s k v).errseq = s.errseq := rfl
@[simp] theorem setL2_rootReports (k : Nat) (v : CWord) : (setL2 s k v).rootReports = s.rootReports := rfl
@[simp] theorem setL2_answers (k : Nat) (v : CWord) : (setL2 s k v).answers = s.answers := rfl
@[simp] theorem setL2_msix (k : Nat) (v : CWord) : (setL2 s k v).msix = s.msix := rfl
@[simp] theorem setL2_nextGrid (k : Nat) (v : CWord) : (setL2 s k v).nextGrid = s.nextGrid := rfl
@[simp] theorem setL2_nextTeam (k : Nat) (v : CWord) : (setL2 s k v).nextTeam = s.nextTeam := rfl
@[simp] theorem setL2_nextWarp (k : Nat) (v : CWord) : (setL2 s k v).nextWarp = s.nextWarp := rfl
@[simp] theorem setL2_nextKvsd (k : Nat) (v : CWord) : (setL2 s k v).nextKvsd = s.nextKvsd := rfl
@[simp] theorem setL2_age (k : Nat) (v : CWord) : (setL2 s k v).age = s.age := rfl
@[simp] theorem setL2_cur (k : Nat) (v : CWord) : (setL2 s k v).cur = s.cur := rfl
@[simp] theorem setL2_turn (k : Nat) (v : CWord) : (setL2 s k v).turn = s.turn := rfl
@[simp] theorem setL2_free (k : Nat) (v : CWord) : (setL2 s k v).free = s.free := rfl
@[simp] theorem setL2_agenda (k : Nat) (v : CWord) : (setL2 s k v).agenda = s.agenda := rfl

/-! ## Readers -/

@[simp] theorem coreOf_setCore_self (c : Nat) (x : Core) : coreOf (setCore s c x) c = x := spGet_spSet_self ..
@[simp] theorem coreOf_setCore_ne (c : Nat) (x : Core) {j : Nat} (h : j ≠ c) : coreOf (setCore s c x) j = coreOf s j := spGet_spSet_ne _ _ _ h
@[simp] theorem warpOf_setCore (c : Nat) (x : Core) (j : Nat) : warpOf (setCore s c x) j = warpOf s j := rfl
@[simp] theorem teamOf_setCore (c : Nat) (x : Core) (j : Nat) : teamOf (setCore s c x) j = teamOf s j := rfl
@[simp] theorem partOf_setCore (c : Nat) (x : Core) (j : Nat) : partOf (setCore s c x) j = partOf s j := rfl
@[simp] theorem queueOf_setCore (c : Nat) (x : Core) (j : Nat) : queueOf (setCore s c x) j = queueOf s j := rfl
@[simp] theorem gridOf_setCore (c : Nat) (x : Core) (j : Nat) : gridOf (setCore s c x) j = gridOf s j := rfl
@[simp] theorem graphOf_setCore (c : Nat) (x : Core) (j : Nat) : graphOf (setCore s c x) j = graphOf s j := rfl
@[simp] theorem aswOf_setCore (c : Nat) (x : Core) (j : Nat) : aswOf (setCore s c x) j = aswOf s j := rfl
@[simp] theorem winOf_setCore (c : Nat) (x : Core) (j : Nat) : winOf (setCore s c x) j = winOf s j := rfl
@[simp] theorem memByte_setCore (c : Nat) (x : Core) (j : Nat) : memByte (setCore s c x) j = memByte s j := rfl
@[simp] theorem l2Of_setCore (c : Nat) (x : Core) (j : Nat) : l2Of (setCore s c x) j = l2Of s j := rfl
@[simp] theorem coreOf_setWarp (w : Nat) (x : Warp) (j : Nat) : coreOf (setWarp s w x) j = coreOf s j := rfl
@[simp] theorem warpOf_setWarp_self (w : Nat) (x : Warp) : warpOf (setWarp s w x) w = x := spGet_spSet_self ..
@[simp] theorem warpOf_setWarp_ne (w : Nat) (x : Warp) {j : Nat} (h : j ≠ w) : warpOf (setWarp s w x) j = warpOf s j := spGet_spSet_ne _ _ _ h
@[simp] theorem teamOf_setWarp (w : Nat) (x : Warp) (j : Nat) : teamOf (setWarp s w x) j = teamOf s j := rfl
@[simp] theorem partOf_setWarp (w : Nat) (x : Warp) (j : Nat) : partOf (setWarp s w x) j = partOf s j := rfl
@[simp] theorem queueOf_setWarp (w : Nat) (x : Warp) (j : Nat) : queueOf (setWarp s w x) j = queueOf s j := rfl
@[simp] theorem gridOf_setWarp (w : Nat) (x : Warp) (j : Nat) : gridOf (setWarp s w x) j = gridOf s j := rfl
@[simp] theorem graphOf_setWarp (w : Nat) (x : Warp) (j : Nat) : graphOf (setWarp s w x) j = graphOf s j := rfl
@[simp] theorem aswOf_setWarp (w : Nat) (x : Warp) (j : Nat) : aswOf (setWarp s w x) j = aswOf s j := rfl
@[simp] theorem winOf_setWarp (w : Nat) (x : Warp) (j : Nat) : winOf (setWarp s w x) j = winOf s j := rfl
@[simp] theorem memByte_setWarp (w : Nat) (x : Warp) (j : Nat) : memByte (setWarp s w x) j = memByte s j := rfl
@[simp] theorem l2Of_setWarp (w : Nat) (x : Warp) (j : Nat) : l2Of (setWarp s w x) j = l2Of s j := rfl
@[simp] theorem coreOf_setTeam (t : Nat) (x : Team) (j : Nat) : coreOf (setTeam s t x) j = coreOf s j := rfl
@[simp] theorem warpOf_setTeam (t : Nat) (x : Team) (j : Nat) : warpOf (setTeam s t x) j = warpOf s j := rfl
@[simp] theorem teamOf_setTeam_self (t : Nat) (x : Team) : teamOf (setTeam s t x) t = x := spGet_spSet_self ..
@[simp] theorem teamOf_setTeam_ne (t : Nat) (x : Team) {j : Nat} (h : j ≠ t) : teamOf (setTeam s t x) j = teamOf s j := spGet_spSet_ne _ _ _ h
@[simp] theorem partOf_setTeam (t : Nat) (x : Team) (j : Nat) : partOf (setTeam s t x) j = partOf s j := rfl
@[simp] theorem queueOf_setTeam (t : Nat) (x : Team) (j : Nat) : queueOf (setTeam s t x) j = queueOf s j := rfl
@[simp] theorem gridOf_setTeam (t : Nat) (x : Team) (j : Nat) : gridOf (setTeam s t x) j = gridOf s j := rfl
@[simp] theorem graphOf_setTeam (t : Nat) (x : Team) (j : Nat) : graphOf (setTeam s t x) j = graphOf s j := rfl
@[simp] theorem aswOf_setTeam (t : Nat) (x : Team) (j : Nat) : aswOf (setTeam s t x) j = aswOf s j := rfl
@[simp] theorem winOf_setTeam (t : Nat) (x : Team) (j : Nat) : winOf (setTeam s t x) j = winOf s j := rfl
@[simp] theorem memByte_setTeam (t : Nat) (x : Team) (j : Nat) : memByte (setTeam s t x) j = memByte s j := rfl
@[simp] theorem l2Of_setTeam (t : Nat) (x : Team) (j : Nat) : l2Of (setTeam s t x) j = l2Of s j := rfl
@[simp] theorem coreOf_setPart (p : Nat) (x : Part) (j : Nat) : coreOf (setPart s p x) j = coreOf s j := rfl
@[simp] theorem warpOf_setPart (p : Nat) (x : Part) (j : Nat) : warpOf (setPart s p x) j = warpOf s j := rfl
@[simp] theorem teamOf_setPart (p : Nat) (x : Part) (j : Nat) : teamOf (setPart s p x) j = teamOf s j := rfl
@[simp] theorem partOf_setPart_self (p : Nat) (x : Part) : partOf (setPart s p x) p = x := spGet_spSet_self ..
@[simp] theorem partOf_setPart_ne (p : Nat) (x : Part) {j : Nat} (h : j ≠ p) : partOf (setPart s p x) j = partOf s j := spGet_spSet_ne _ _ _ h
@[simp] theorem queueOf_setPart (p : Nat) (x : Part) (j : Nat) : queueOf (setPart s p x) j = queueOf s j := rfl
@[simp] theorem gridOf_setPart (p : Nat) (x : Part) (j : Nat) : gridOf (setPart s p x) j = gridOf s j := rfl
@[simp] theorem graphOf_setPart (p : Nat) (x : Part) (j : Nat) : graphOf (setPart s p x) j = graphOf s j := rfl
@[simp] theorem aswOf_setPart (p : Nat) (x : Part) (j : Nat) : aswOf (setPart s p x) j = aswOf s j := rfl
@[simp] theorem winOf_setPart (p : Nat) (x : Part) (j : Nat) : winOf (setPart s p x) j = winOf s j := rfl
@[simp] theorem memByte_setPart (p : Nat) (x : Part) (j : Nat) : memByte (setPart s p x) j = memByte s j := rfl
@[simp] theorem l2Of_setPart (p : Nat) (x : Part) (j : Nat) : l2Of (setPart s p x) j = l2Of s j := rfl
@[simp] theorem coreOf_setQueue (q : Nat) (x : Queue) (j : Nat) : coreOf (setQueue s q x) j = coreOf s j := rfl
@[simp] theorem warpOf_setQueue (q : Nat) (x : Queue) (j : Nat) : warpOf (setQueue s q x) j = warpOf s j := rfl
@[simp] theorem teamOf_setQueue (q : Nat) (x : Queue) (j : Nat) : teamOf (setQueue s q x) j = teamOf s j := rfl
@[simp] theorem partOf_setQueue (q : Nat) (x : Queue) (j : Nat) : partOf (setQueue s q x) j = partOf s j := rfl
@[simp] theorem queueOf_setQueue_self (q : Nat) (x : Queue) : queueOf (setQueue s q x) q = x := spGet_spSet_self ..
@[simp] theorem queueOf_setQueue_ne (q : Nat) (x : Queue) {j : Nat} (h : j ≠ q) : queueOf (setQueue s q x) j = queueOf s j := spGet_spSet_ne _ _ _ h
@[simp] theorem gridOf_setQueue (q : Nat) (x : Queue) (j : Nat) : gridOf (setQueue s q x) j = gridOf s j := rfl
@[simp] theorem graphOf_setQueue (q : Nat) (x : Queue) (j : Nat) : graphOf (setQueue s q x) j = graphOf s j := rfl
@[simp] theorem aswOf_setQueue (q : Nat) (x : Queue) (j : Nat) : aswOf (setQueue s q x) j = aswOf s j := rfl
@[simp] theorem winOf_setQueue (q : Nat) (x : Queue) (j : Nat) : winOf (setQueue s q x) j = winOf s j := rfl
@[simp] theorem memByte_setQueue (q : Nat) (x : Queue) (j : Nat) : memByte (setQueue s q x) j = memByte s j := rfl
@[simp] theorem l2Of_setQueue (q : Nat) (x : Queue) (j : Nat) : l2Of (setQueue s q x) j = l2Of s j := rfl
@[simp] theorem coreOf_setGrid (g : Nat) (x : Grid) (j : Nat) : coreOf (setGrid s g x) j = coreOf s j := rfl
@[simp] theorem warpOf_setGrid (g : Nat) (x : Grid) (j : Nat) : warpOf (setGrid s g x) j = warpOf s j := rfl
@[simp] theorem teamOf_setGrid (g : Nat) (x : Grid) (j : Nat) : teamOf (setGrid s g x) j = teamOf s j := rfl
@[simp] theorem partOf_setGrid (g : Nat) (x : Grid) (j : Nat) : partOf (setGrid s g x) j = partOf s j := rfl
@[simp] theorem queueOf_setGrid (g : Nat) (x : Grid) (j : Nat) : queueOf (setGrid s g x) j = queueOf s j := rfl
@[simp] theorem gridOf_setGrid_self (g : Nat) (x : Grid) : gridOf (setGrid s g x) g = x := spGet_spSet_self ..
@[simp] theorem gridOf_setGrid_ne (g : Nat) (x : Grid) {j : Nat} (h : j ≠ g) : gridOf (setGrid s g x) j = gridOf s j := spGet_spSet_ne _ _ _ h
@[simp] theorem graphOf_setGrid (g : Nat) (x : Grid) (j : Nat) : graphOf (setGrid s g x) j = graphOf s j := rfl
@[simp] theorem aswOf_setGrid (g : Nat) (x : Grid) (j : Nat) : aswOf (setGrid s g x) j = aswOf s j := rfl
@[simp] theorem winOf_setGrid (g : Nat) (x : Grid) (j : Nat) : winOf (setGrid s g x) j = winOf s j := rfl
@[simp] theorem memByte_setGrid (g : Nat) (x : Grid) (j : Nat) : memByte (setGrid s g x) j = memByte s j := rfl
@[simp] theorem l2Of_setGrid (g : Nat) (x : Grid) (j : Nat) : l2Of (setGrid s g x) j = l2Of s j := rfl
@[simp] theorem coreOf_setGraph (g : Nat) (x : Graph) (j : Nat) : coreOf (setGraph s g x) j = coreOf s j := rfl
@[simp] theorem warpOf_setGraph (g : Nat) (x : Graph) (j : Nat) : warpOf (setGraph s g x) j = warpOf s j := rfl
@[simp] theorem teamOf_setGraph (g : Nat) (x : Graph) (j : Nat) : teamOf (setGraph s g x) j = teamOf s j := rfl
@[simp] theorem partOf_setGraph (g : Nat) (x : Graph) (j : Nat) : partOf (setGraph s g x) j = partOf s j := rfl
@[simp] theorem queueOf_setGraph (g : Nat) (x : Graph) (j : Nat) : queueOf (setGraph s g x) j = queueOf s j := rfl
@[simp] theorem gridOf_setGraph (g : Nat) (x : Graph) (j : Nat) : gridOf (setGraph s g x) j = gridOf s j := rfl
@[simp] theorem graphOf_setGraph_self (g : Nat) (x : Graph) : graphOf (setGraph s g x) g = x := spGet_spSet_self ..
@[simp] theorem graphOf_setGraph_ne (g : Nat) (x : Graph) {j : Nat} (h : j ≠ g) : graphOf (setGraph s g x) j = graphOf s j := spGet_spSet_ne _ _ _ h
@[simp] theorem aswOf_setGraph (g : Nat) (x : Graph) (j : Nat) : aswOf (setGraph s g x) j = aswOf s j := rfl
@[simp] theorem winOf_setGraph (g : Nat) (x : Graph) (j : Nat) : winOf (setGraph s g x) j = winOf s j := rfl
@[simp] theorem memByte_setGraph (g : Nat) (x : Graph) (j : Nat) : memByte (setGraph s g x) j = memByte s j := rfl
@[simp] theorem l2Of_setGraph (g : Nat) (x : Graph) (j : Nat) : l2Of (setGraph s g x) j = l2Of s j := rfl
@[simp] theorem coreOf_setAsw (g : Nat) (x : Asw) (j : Nat) : coreOf (setAsw s g x) j = coreOf s j := rfl
@[simp] theorem warpOf_setAsw (g : Nat) (x : Asw) (j : Nat) : warpOf (setAsw s g x) j = warpOf s j := rfl
@[simp] theorem teamOf_setAsw (g : Nat) (x : Asw) (j : Nat) : teamOf (setAsw s g x) j = teamOf s j := rfl
@[simp] theorem partOf_setAsw (g : Nat) (x : Asw) (j : Nat) : partOf (setAsw s g x) j = partOf s j := rfl
@[simp] theorem queueOf_setAsw (g : Nat) (x : Asw) (j : Nat) : queueOf (setAsw s g x) j = queueOf s j := rfl
@[simp] theorem gridOf_setAsw (g : Nat) (x : Asw) (j : Nat) : gridOf (setAsw s g x) j = gridOf s j := rfl
@[simp] theorem graphOf_setAsw (g : Nat) (x : Asw) (j : Nat) : graphOf (setAsw s g x) j = graphOf s j := rfl
@[simp] theorem aswOf_setAsw_self (g : Nat) (x : Asw) : aswOf (setAsw s g x) g = x := spGet_spSet_self ..
@[simp] theorem aswOf_setAsw_ne (g : Nat) (x : Asw) {j : Nat} (h : j ≠ g) : aswOf (setAsw s g x) j = aswOf s j := spGet_spSet_ne _ _ _ h
@[simp] theorem winOf_setAsw (g : Nat) (x : Asw) (j : Nat) : winOf (setAsw s g x) j = winOf s j := rfl
@[simp] theorem memByte_setAsw (g : Nat) (x : Asw) (j : Nat) : memByte (setAsw s g x) j = memByte s j := rfl
@[simp] theorem l2Of_setAsw (g : Nat) (x : Asw) (j : Nat) : l2Of (setAsw s g x) j = l2Of s j := rfl
@[simp] theorem coreOf_setWin (n : Nat) (x : Win) (j : Nat) : coreOf (setWin s n x) j = coreOf s j := rfl
@[simp] theorem warpOf_setWin (n : Nat) (x : Win) (j : Nat) : warpOf (setWin s n x) j = warpOf s j := rfl
@[simp] theorem teamOf_setWin (n : Nat) (x : Win) (j : Nat) : teamOf (setWin s n x) j = teamOf s j := rfl
@[simp] theorem partOf_setWin (n : Nat) (x : Win) (j : Nat) : partOf (setWin s n x) j = partOf s j := rfl
@[simp] theorem queueOf_setWin (n : Nat) (x : Win) (j : Nat) : queueOf (setWin s n x) j = queueOf s j := rfl
@[simp] theorem gridOf_setWin (n : Nat) (x : Win) (j : Nat) : gridOf (setWin s n x) j = gridOf s j := rfl
@[simp] theorem graphOf_setWin (n : Nat) (x : Win) (j : Nat) : graphOf (setWin s n x) j = graphOf s j := rfl
@[simp] theorem aswOf_setWin (n : Nat) (x : Win) (j : Nat) : aswOf (setWin s n x) j = aswOf s j := rfl
@[simp] theorem winOf_setWin_self (n : Nat) (x : Win) : winOf (setWin s n x) n = x := spGet_spSet_self ..
@[simp] theorem winOf_setWin_ne (n : Nat) (x : Win) {j : Nat} (h : j ≠ n) : winOf (setWin s n x) j = winOf s j := spGet_spSet_ne _ _ _ h
@[simp] theorem memByte_setWin (n : Nat) (x : Win) (j : Nat) : memByte (setWin s n x) j = memByte s j := rfl
@[simp] theorem l2Of_setWin (n : Nat) (x : Win) (j : Nat) : l2Of (setWin s n x) j = l2Of s j := rfl
@[simp] theorem coreOf_setMemByte (a : Nat) (b : Byte) (j : Nat) : coreOf (setMemByte s a b) j = coreOf s j := rfl
@[simp] theorem warpOf_setMemByte (a : Nat) (b : Byte) (j : Nat) : warpOf (setMemByte s a b) j = warpOf s j := rfl
@[simp] theorem teamOf_setMemByte (a : Nat) (b : Byte) (j : Nat) : teamOf (setMemByte s a b) j = teamOf s j := rfl
@[simp] theorem partOf_setMemByte (a : Nat) (b : Byte) (j : Nat) : partOf (setMemByte s a b) j = partOf s j := rfl
@[simp] theorem queueOf_setMemByte (a : Nat) (b : Byte) (j : Nat) : queueOf (setMemByte s a b) j = queueOf s j := rfl
@[simp] theorem gridOf_setMemByte (a : Nat) (b : Byte) (j : Nat) : gridOf (setMemByte s a b) j = gridOf s j := rfl
@[simp] theorem graphOf_setMemByte (a : Nat) (b : Byte) (j : Nat) : graphOf (setMemByte s a b) j = graphOf s j := rfl
@[simp] theorem aswOf_setMemByte (a : Nat) (b : Byte) (j : Nat) : aswOf (setMemByte s a b) j = aswOf s j := rfl
@[simp] theorem winOf_setMemByte (a : Nat) (b : Byte) (j : Nat) : winOf (setMemByte s a b) j = winOf s j := rfl
@[simp] theorem memByte_setMemByte_self (a : Nat) (b : Byte) : memByte (setMemByte s a b) a = b := spGet_spSet_self ..
@[simp] theorem memByte_setMemByte_ne (a : Nat) (b : Byte) {j : Nat} (h : j ≠ a) : memByte (setMemByte s a b) j = memByte s j := spGet_spSet_ne _ _ _ h
@[simp] theorem l2Of_setMemByte (a : Nat) (b : Byte) (j : Nat) : l2Of (setMemByte s a b) j = l2Of s j := rfl
@[simp] theorem coreOf_setL2 (k : Nat) (v : CWord) (j : Nat) : coreOf (setL2 s k v) j = coreOf s j := rfl
@[simp] theorem warpOf_setL2 (k : Nat) (v : CWord) (j : Nat) : warpOf (setL2 s k v) j = warpOf s j := rfl
@[simp] theorem teamOf_setL2 (k : Nat) (v : CWord) (j : Nat) : teamOf (setL2 s k v) j = teamOf s j := rfl
@[simp] theorem partOf_setL2 (k : Nat) (v : CWord) (j : Nat) : partOf (setL2 s k v) j = partOf s j := rfl
@[simp] theorem queueOf_setL2 (k : Nat) (v : CWord) (j : Nat) : queueOf (setL2 s k v) j = queueOf s j := rfl
@[simp] theorem gridOf_setL2 (k : Nat) (v : CWord) (j : Nat) : gridOf (setL2 s k v) j = gridOf s j := rfl
@[simp] theorem graphOf_setL2 (k : Nat) (v : CWord) (j : Nat) : graphOf (setL2 s k v) j = graphOf s j := rfl
@[simp] theorem aswOf_setL2 (k : Nat) (v : CWord) (j : Nat) : aswOf (setL2 s k v) j = aswOf s j := rfl
@[simp] theorem winOf_setL2 (k : Nat) (v : CWord) (j : Nat) : winOf (setL2 s k v) j = winOf s j := rfl
@[simp] theorem memByte_setL2 (k : Nat) (v : CWord) (j : Nat) : memByte (setL2 s k v) j = memByte s j := rfl
@[simp] theorem l2Of_setL2_self (k : Nat) (v : CWord) : l2Of (setL2 s k v) k = v := spGet_spSet_self ..
@[simp] theorem l2Of_setL2_ne (k : Nat) (v : CWord) {j : Nat} (h : j ≠ k) : l2Of (setL2 s k v) j = l2Of s j := spGet_spSet_ne _ _ _ h

theorem updCore_eq (k : Nat) (f : Core → Core) : updCore s k f = setCore s k (f (coreOf s k)) := rfl
theorem updWarp_eq (k : Nat) (f : Warp → Warp) : updWarp s k f = setWarp s k (f (warpOf s k)) := rfl
theorem updTeam_eq (k : Nat) (f : Team → Team) : updTeam s k f = setTeam s k (f (teamOf s k)) := rfl
theorem updPart_eq (k : Nat) (f : Part → Part) : updPart s k f = setPart s k (f (partOf s k)) := rfl
theorem updQueue_eq (k : Nat) (f : Queue → Queue) : updQueue s k f = setQueue s k (f (queueOf s k)) := rfl
theorem updGrid_eq (k : Nat) (f : Grid → Grid) : updGrid s k f = setGrid s k (f (gridOf s k)) := rfl

end

/-! ## Warps -/

section

variable (x : Warp)

@[simp] theorem setLane_live (l : Nat) (y : Lane) : (setLane x l y).live = x.live := rfl
@[simp] theorem setLane_core (l : Nat) (y : Lane) : (setLane x l y).core = x.core := rfl
@[simp] theorem setLane_team (l : Nat) (y : Lane) : (setLane x l y).team = x.team := rfl
@[simp] theorem setLane_wid (l : Nat) (y : Lane) : (setLane x l y).wid = x.wid := rfl
@[simp] theorem setLane_width (l : Nat) (y : Lane) : (setLane x l y).width = x.width := rfl
@[simp] theorem setLane_role (l : Nat) (y : Lane) : (setLane x l y).role = x.role := rfl
@[simp] theorem setLane_nregs (l : Nat) (y : Lane) : (setLane x l y).nregs = x.nregs := rfl
@[simp] theorem setLane_slot (l : Nat) (y : Lane) : (setLane x l y).slot = x.slot := rfl
@[simp] theorem setLane_prio (l : Nat) (y : Lane) : (setLane x l y).prio = x.prio := rfl
@[simp] theorem setLane_age (l : Nat) (y : Lane) : (setLane x l y).age = x.age := rfl
@[simp] theorem setLane_regs (l : Nat) (y : Lane) : (setLane x l y).regs = x.regs := rfl
@[simp] theorem setLane_uregs (l : Nat) (y : Lane) : (setLane x l y).uregs = x.uregs := rfl
@[simp] theorem setLane_masks (l : Nat) (y : Lane) : (setLane x l y).masks = x.masks := rfl
@[simp] theorem setLane_nurs (l : Nat) (y : Lane) : (setLane x l y).nurs = x.nurs := rfl
@[simp] theorem setLane_nlim (l : Nat) (y : Lane) : (setLane x l y).nlim = x.nlim := rfl
@[simp] theorem setLane_tvec (l : Nat) (y : Lane) : (setLane x l y).tvec = x.tvec := rfl
@[simp] theorem setLane_trapv (l : Nat) (y : Lane) : (setLane x l y).trapv = x.trapv := rfl
@[simp] theorem setLane_cause (l : Nat) (y : Lane) : (setLane x l y).cause = x.cause := rfl
@[simp] theorem setLane_eaddr (l : Nat) (y : Lane) : (setLane x l y).eaddr = x.eaddr := rfl
@[simp] theorem setLane_status (l : Nat) (y : Lane) : (setLane x l y).status = x.status := rfl
@[simp] theorem setLane_fcnt (l : Nat) (y : Lane) : (setLane x l y).fcnt = x.fcnt := rfl
@[simp] theorem setLane_fptr (l : Nat) (y : Lane) : (setLane x l y).fptr = x.fptr := rfl
@[simp] theorem setLane_wp (l : Nat) (y : Lane) : (setLane x l y).wp = x.wp := rfl
@[simp] theorem setLane_arrived (l : Nat) (y : Lane) : (setLane x l y).arrived = x.arrived := rfl
@[simp] theorem setLane_halted (l : Nat) (y : Lane) : (setLane x l y).halted = x.halted := rfl
@[simp] theorem setLane_stopped (l : Nat) (y : Lane) : (setLane x l y).stopped = x.stopped := rfl
@[simp] theorem setLane_wait (l : Nat) (y : Lane) : (setLane x l y).wait = x.wait := rfl
@[simp] theorem setLane_pendTrap (l : Nat) (y : Lane) : (setLane x l y).pendTrap = x.pendTrap := rfl
@[simp] theorem setLane_walkFault (l : Nat) (y : Lane) : (setLane x l y).walkFault = x.walkFault := rfl
@[simp] theorem setLane_sel (l : Nat) (y : Lane) : (setLane x l y).sel = x.sel := rfl
@[simp] theorem setLane_slots (l : Nat) (y : Lane) : (setLane x l y).slots = x.slots := rfl
@[simp] theorem setLane_outer (l : Nat) (y : Lane) : (setLane x l y).outer = x.outer := rfl
@[simp] theorem setLane_readyAt (l : Nat) (y : Lane) : (setLane x l y).readyAt = x.readyAt := rfl
@[simp] theorem setLane_readyOut (l : Nat) (y : Lane) : (setLane x l y).readyOut = x.readyOut := rfl
@[simp] theorem setLane_pend (l : Nat) (y : Lane) : (setLane x l y).pend = x.pend := rfl
@[simp] theorem setLane_lrRun (l : Nat) (y : Lane) : (setLane x l y).lrRun = x.lrRun := rfl
@[simp] theorem setLane_rx (l : Nat) (y : Lane) : (setLane x l y).rx = x.rx := rfl
@[simp] theorem setLane_lastIssue (l : Nat) (y : Lane) : (setLane x l y).lastIssue = x.lastIssue := rfl
@[simp] theorem setLane_reported (l : Nat) (y : Lane) : (setLane x l y).reported = x.reported := rfl
@[simp] theorem setLane_regBad (l : Nat) (y : Lane) : (setLane x l y).regBad = x.regBad := rfl
@[simp] theorem setLane_mchkNext (l : Nat) (y : Lane) : (setLane x l y).mchkNext = x.mchkNext := rfl
@[simp] theorem setLane_relFence (l : Nat) (y : Lane) : (setLane x l y).relFence = x.relFence := rfl

@[simp] theorem setLaneReg_live (r l : Nat) (v : Val) : (setLaneReg x r l v).live = x.live := rfl
@[simp] theorem setLaneReg_core (r l : Nat) (v : Val) : (setLaneReg x r l v).core = x.core := rfl
@[simp] theorem setLaneReg_team (r l : Nat) (v : Val) : (setLaneReg x r l v).team = x.team := rfl
@[simp] theorem setLaneReg_wid (r l : Nat) (v : Val) : (setLaneReg x r l v).wid = x.wid := rfl
@[simp] theorem setLaneReg_width (r l : Nat) (v : Val) : (setLaneReg x r l v).width = x.width := rfl
@[simp] theorem setLaneReg_role (r l : Nat) (v : Val) : (setLaneReg x r l v).role = x.role := rfl
@[simp] theorem setLaneReg_nregs (r l : Nat) (v : Val) : (setLaneReg x r l v).nregs = x.nregs := rfl
@[simp] theorem setLaneReg_slot (r l : Nat) (v : Val) : (setLaneReg x r l v).slot = x.slot := rfl
@[simp] theorem setLaneReg_prio (r l : Nat) (v : Val) : (setLaneReg x r l v).prio = x.prio := rfl
@[simp] theorem setLaneReg_age (r l : Nat) (v : Val) : (setLaneReg x r l v).age = x.age := rfl
@[simp] theorem setLaneReg_lanes (r l : Nat) (v : Val) : (setLaneReg x r l v).lanes = x.lanes := rfl
@[simp] theorem setLaneReg_uregs (r l : Nat) (v : Val) : (setLaneReg x r l v).uregs = x.uregs := rfl
@[simp] theorem setLaneReg_masks (r l : Nat) (v : Val) : (setLaneReg x r l v).masks = x.masks := rfl
@[simp] theorem setLaneReg_nurs (r l : Nat) (v : Val) : (setLaneReg x r l v).nurs = x.nurs := rfl
@[simp] theorem setLaneReg_nlim (r l : Nat) (v : Val) : (setLaneReg x r l v).nlim = x.nlim := rfl
@[simp] theorem setLaneReg_tvec (r l : Nat) (v : Val) : (setLaneReg x r l v).tvec = x.tvec := rfl
@[simp] theorem setLaneReg_trapv (r l : Nat) (v : Val) : (setLaneReg x r l v).trapv = x.trapv := rfl
@[simp] theorem setLaneReg_cause (r l : Nat) (v : Val) : (setLaneReg x r l v).cause = x.cause := rfl
@[simp] theorem setLaneReg_eaddr (r l : Nat) (v : Val) : (setLaneReg x r l v).eaddr = x.eaddr := rfl
@[simp] theorem setLaneReg_status (r l : Nat) (v : Val) : (setLaneReg x r l v).status = x.status := rfl
@[simp] theorem setLaneReg_fcnt (r l : Nat) (v : Val) : (setLaneReg x r l v).fcnt = x.fcnt := rfl
@[simp] theorem setLaneReg_fptr (r l : Nat) (v : Val) : (setLaneReg x r l v).fptr = x.fptr := rfl
@[simp] theorem setLaneReg_wp (r l : Nat) (v : Val) : (setLaneReg x r l v).wp = x.wp := rfl
@[simp] theorem setLaneReg_arrived (r l : Nat) (v : Val) : (setLaneReg x r l v).arrived = x.arrived := rfl
@[simp] theorem setLaneReg_halted (r l : Nat) (v : Val) : (setLaneReg x r l v).halted = x.halted := rfl
@[simp] theorem setLaneReg_stopped (r l : Nat) (v : Val) : (setLaneReg x r l v).stopped = x.stopped := rfl
@[simp] theorem setLaneReg_wait (r l : Nat) (v : Val) : (setLaneReg x r l v).wait = x.wait := rfl
@[simp] theorem setLaneReg_pendTrap (r l : Nat) (v : Val) : (setLaneReg x r l v).pendTrap = x.pendTrap := rfl
@[simp] theorem setLaneReg_walkFault (r l : Nat) (v : Val) : (setLaneReg x r l v).walkFault = x.walkFault := rfl
@[simp] theorem setLaneReg_sel (r l : Nat) (v : Val) : (setLaneReg x r l v).sel = x.sel := rfl
@[simp] theorem setLaneReg_slots (r l : Nat) (v : Val) : (setLaneReg x r l v).slots = x.slots := rfl
@[simp] theorem setLaneReg_outer (r l : Nat) (v : Val) : (setLaneReg x r l v).outer = x.outer := rfl
@[simp] theorem setLaneReg_readyAt (r l : Nat) (v : Val) : (setLaneReg x r l v).readyAt = x.readyAt := rfl
@[simp] theorem setLaneReg_readyOut (r l : Nat) (v : Val) : (setLaneReg x r l v).readyOut = x.readyOut := rfl
@[simp] theorem setLaneReg_pend (r l : Nat) (v : Val) : (setLaneReg x r l v).pend = x.pend := rfl
@[simp] theorem setLaneReg_lrRun (r l : Nat) (v : Val) : (setLaneReg x r l v).lrRun = x.lrRun := rfl
@[simp] theorem setLaneReg_rx (r l : Nat) (v : Val) : (setLaneReg x r l v).rx = x.rx := rfl
@[simp] theorem setLaneReg_lastIssue (r l : Nat) (v : Val) : (setLaneReg x r l v).lastIssue = x.lastIssue := rfl
@[simp] theorem setLaneReg_reported (r l : Nat) (v : Val) : (setLaneReg x r l v).reported = x.reported := rfl
@[simp] theorem setLaneReg_mchkNext (r l : Nat) (v : Val) : (setLaneReg x r l v).mchkNext = x.mchkNext := rfl
@[simp] theorem setLaneReg_relFence (r l : Nat) (v : Val) : (setLaneReg x r l v).relFence = x.relFence := rfl

@[simp] theorem setUniReg_live (r : Nat) (v : Val) : (setUniReg x r v).live = x.live := rfl
@[simp] theorem setUniReg_core (r : Nat) (v : Val) : (setUniReg x r v).core = x.core := rfl
@[simp] theorem setUniReg_team (r : Nat) (v : Val) : (setUniReg x r v).team = x.team := rfl
@[simp] theorem setUniReg_wid (r : Nat) (v : Val) : (setUniReg x r v).wid = x.wid := rfl
@[simp] theorem setUniReg_width (r : Nat) (v : Val) : (setUniReg x r v).width = x.width := rfl
@[simp] theorem setUniReg_role (r : Nat) (v : Val) : (setUniReg x r v).role = x.role := rfl
@[simp] theorem setUniReg_nregs (r : Nat) (v : Val) : (setUniReg x r v).nregs = x.nregs := rfl
@[simp] theorem setUniReg_slot (r : Nat) (v : Val) : (setUniReg x r v).slot = x.slot := rfl
@[simp] theorem setUniReg_prio (r : Nat) (v : Val) : (setUniReg x r v).prio = x.prio := rfl
@[simp] theorem setUniReg_age (r : Nat) (v : Val) : (setUniReg x r v).age = x.age := rfl
@[simp] theorem setUniReg_lanes (r : Nat) (v : Val) : (setUniReg x r v).lanes = x.lanes := rfl
@[simp] theorem setUniReg_regs (r : Nat) (v : Val) : (setUniReg x r v).regs = x.regs := rfl
@[simp] theorem setUniReg_masks (r : Nat) (v : Val) : (setUniReg x r v).masks = x.masks := rfl
@[simp] theorem setUniReg_nurs (r : Nat) (v : Val) : (setUniReg x r v).nurs = x.nurs := rfl
@[simp] theorem setUniReg_nlim (r : Nat) (v : Val) : (setUniReg x r v).nlim = x.nlim := rfl
@[simp] theorem setUniReg_tvec (r : Nat) (v : Val) : (setUniReg x r v).tvec = x.tvec := rfl
@[simp] theorem setUniReg_trapv (r : Nat) (v : Val) : (setUniReg x r v).trapv = x.trapv := rfl
@[simp] theorem setUniReg_cause (r : Nat) (v : Val) : (setUniReg x r v).cause = x.cause := rfl
@[simp] theorem setUniReg_eaddr (r : Nat) (v : Val) : (setUniReg x r v).eaddr = x.eaddr := rfl
@[simp] theorem setUniReg_status (r : Nat) (v : Val) : (setUniReg x r v).status = x.status := rfl
@[simp] theorem setUniReg_fcnt (r : Nat) (v : Val) : (setUniReg x r v).fcnt = x.fcnt := rfl
@[simp] theorem setUniReg_fptr (r : Nat) (v : Val) : (setUniReg x r v).fptr = x.fptr := rfl
@[simp] theorem setUniReg_wp (r : Nat) (v : Val) : (setUniReg x r v).wp = x.wp := rfl
@[simp] theorem setUniReg_arrived (r : Nat) (v : Val) : (setUniReg x r v).arrived = x.arrived := rfl
@[simp] theorem setUniReg_halted (r : Nat) (v : Val) : (setUniReg x r v).halted = x.halted := rfl
@[simp] theorem setUniReg_stopped (r : Nat) (v : Val) : (setUniReg x r v).stopped = x.stopped := rfl
@[simp] theorem setUniReg_wait (r : Nat) (v : Val) : (setUniReg x r v).wait = x.wait := rfl
@[simp] theorem setUniReg_pendTrap (r : Nat) (v : Val) : (setUniReg x r v).pendTrap = x.pendTrap := rfl
@[simp] theorem setUniReg_walkFault (r : Nat) (v : Val) : (setUniReg x r v).walkFault = x.walkFault := rfl
@[simp] theorem setUniReg_sel (r : Nat) (v : Val) : (setUniReg x r v).sel = x.sel := rfl
@[simp] theorem setUniReg_slots (r : Nat) (v : Val) : (setUniReg x r v).slots = x.slots := rfl
@[simp] theorem setUniReg_outer (r : Nat) (v : Val) : (setUniReg x r v).outer = x.outer := rfl
@[simp] theorem setUniReg_readyAt (r : Nat) (v : Val) : (setUniReg x r v).readyAt = x.readyAt := rfl
@[simp] theorem setUniReg_readyOut (r : Nat) (v : Val) : (setUniReg x r v).readyOut = x.readyOut := rfl
@[simp] theorem setUniReg_pend (r : Nat) (v : Val) : (setUniReg x r v).pend = x.pend := rfl
@[simp] theorem setUniReg_lrRun (r : Nat) (v : Val) : (setUniReg x r v).lrRun = x.lrRun := rfl
@[simp] theorem setUniReg_rx (r : Nat) (v : Val) : (setUniReg x r v).rx = x.rx := rfl
@[simp] theorem setUniReg_lastIssue (r : Nat) (v : Val) : (setUniReg x r v).lastIssue = x.lastIssue := rfl
@[simp] theorem setUniReg_reported (r : Nat) (v : Val) : (setUniReg x r v).reported = x.reported := rfl
@[simp] theorem setUniReg_mchkNext (r : Nat) (v : Val) : (setUniReg x r v).mchkNext = x.mchkNext := rfl
@[simp] theorem setUniReg_relFence (r : Nat) (v : Val) : (setUniReg x r v).relFence = x.relFence := rfl

@[simp] theorem setMask_live (m : Nat) (v : Word) : (setMask x m v).live = x.live := rfl
@[simp] theorem setMask_core (m : Nat) (v : Word) : (setMask x m v).core = x.core := rfl
@[simp] theorem setMask_team (m : Nat) (v : Word) : (setMask x m v).team = x.team := rfl
@[simp] theorem setMask_wid (m : Nat) (v : Word) : (setMask x m v).wid = x.wid := rfl
@[simp] theorem setMask_width (m : Nat) (v : Word) : (setMask x m v).width = x.width := rfl
@[simp] theorem setMask_role (m : Nat) (v : Word) : (setMask x m v).role = x.role := rfl
@[simp] theorem setMask_nregs (m : Nat) (v : Word) : (setMask x m v).nregs = x.nregs := rfl
@[simp] theorem setMask_slot (m : Nat) (v : Word) : (setMask x m v).slot = x.slot := rfl
@[simp] theorem setMask_prio (m : Nat) (v : Word) : (setMask x m v).prio = x.prio := rfl
@[simp] theorem setMask_age (m : Nat) (v : Word) : (setMask x m v).age = x.age := rfl
@[simp] theorem setMask_lanes (m : Nat) (v : Word) : (setMask x m v).lanes = x.lanes := rfl
@[simp] theorem setMask_regs (m : Nat) (v : Word) : (setMask x m v).regs = x.regs := rfl
@[simp] theorem setMask_uregs (m : Nat) (v : Word) : (setMask x m v).uregs = x.uregs := rfl
@[simp] theorem setMask_nurs (m : Nat) (v : Word) : (setMask x m v).nurs = x.nurs := rfl
@[simp] theorem setMask_nlim (m : Nat) (v : Word) : (setMask x m v).nlim = x.nlim := rfl
@[simp] theorem setMask_tvec (m : Nat) (v : Word) : (setMask x m v).tvec = x.tvec := rfl
@[simp] theorem setMask_trapv (m : Nat) (v : Word) : (setMask x m v).trapv = x.trapv := rfl
@[simp] theorem setMask_cause (m : Nat) (v : Word) : (setMask x m v).cause = x.cause := rfl
@[simp] theorem setMask_eaddr (m : Nat) (v : Word) : (setMask x m v).eaddr = x.eaddr := rfl
@[simp] theorem setMask_status (m : Nat) (v : Word) : (setMask x m v).status = x.status := rfl
@[simp] theorem setMask_fcnt (m : Nat) (v : Word) : (setMask x m v).fcnt = x.fcnt := rfl
@[simp] theorem setMask_fptr (m : Nat) (v : Word) : (setMask x m v).fptr = x.fptr := rfl
@[simp] theorem setMask_wp (m : Nat) (v : Word) : (setMask x m v).wp = x.wp := rfl
@[simp] theorem setMask_arrived (m : Nat) (v : Word) : (setMask x m v).arrived = x.arrived := rfl
@[simp] theorem setMask_halted (m : Nat) (v : Word) : (setMask x m v).halted = x.halted := rfl
@[simp] theorem setMask_stopped (m : Nat) (v : Word) : (setMask x m v).stopped = x.stopped := rfl
@[simp] theorem setMask_wait (m : Nat) (v : Word) : (setMask x m v).wait = x.wait := rfl
@[simp] theorem setMask_pendTrap (m : Nat) (v : Word) : (setMask x m v).pendTrap = x.pendTrap := rfl
@[simp] theorem setMask_walkFault (m : Nat) (v : Word) : (setMask x m v).walkFault = x.walkFault := rfl
@[simp] theorem setMask_sel (m : Nat) (v : Word) : (setMask x m v).sel = x.sel := rfl
@[simp] theorem setMask_slots (m : Nat) (v : Word) : (setMask x m v).slots = x.slots := rfl
@[simp] theorem setMask_outer (m : Nat) (v : Word) : (setMask x m v).outer = x.outer := rfl
@[simp] theorem setMask_readyAt (m : Nat) (v : Word) : (setMask x m v).readyAt = x.readyAt := rfl
@[simp] theorem setMask_readyOut (m : Nat) (v : Word) : (setMask x m v).readyOut = x.readyOut := rfl
@[simp] theorem setMask_pend (m : Nat) (v : Word) : (setMask x m v).pend = x.pend := rfl
@[simp] theorem setMask_lrRun (m : Nat) (v : Word) : (setMask x m v).lrRun = x.lrRun := rfl
@[simp] theorem setMask_rx (m : Nat) (v : Word) : (setMask x m v).rx = x.rx := rfl
@[simp] theorem setMask_lastIssue (m : Nat) (v : Word) : (setMask x m v).lastIssue = x.lastIssue := rfl
@[simp] theorem setMask_reported (m : Nat) (v : Word) : (setMask x m v).reported = x.reported := rfl
@[simp] theorem setMask_regBad (m : Nat) (v : Word) : (setMask x m v).regBad = x.regBad := rfl
@[simp] theorem setMask_mchkNext (m : Nat) (v : Word) : (setMask x m v).mchkNext = x.mchkNext := rfl
@[simp] theorem setMask_relFence (m : Nat) (v : Word) : (setMask x m v).relFence = x.relFence := rfl

/-- updLanes changes the lanes alone. -/
theorem updLanes_eq (ls : List Nat) (f : Nat → Lane → Lane) :
    updLanes x ls f = { x with lanes := (updLanes x ls f).lanes } := by
  unfold updLanes
  induction ls generalizing x with
  | nil => rfl
  | cons l r ih =>
    rw [List.foldl_cons, ih]
    rfl

@[simp] theorem updLanes_live (ls : List Nat) (f : Nat → Lane → Lane) : (updLanes x ls f).live = x.live := by rw [updLanes_eq]
@[simp] theorem updLanes_core (ls : List Nat) (f : Nat → Lane → Lane) : (updLanes x ls f).core = x.core := by rw [updLanes_eq]
@[simp] theorem updLanes_team (ls : List Nat) (f : Nat → Lane → Lane) : (updLanes x ls f).team = x.team := by rw [updLanes_eq]
@[simp] theorem updLanes_wid (ls : List Nat) (f : Nat → Lane → Lane) : (updLanes x ls f).wid = x.wid := by rw [updLanes_eq]
@[simp] theorem updLanes_width (ls : List Nat) (f : Nat → Lane → Lane) : (updLanes x ls f).width = x.width := by rw [updLanes_eq]
@[simp] theorem updLanes_role (ls : List Nat) (f : Nat → Lane → Lane) : (updLanes x ls f).role = x.role := by rw [updLanes_eq]
@[simp] theorem updLanes_nregs (ls : List Nat) (f : Nat → Lane → Lane) : (updLanes x ls f).nregs = x.nregs := by rw [updLanes_eq]
@[simp] theorem updLanes_slot (ls : List Nat) (f : Nat → Lane → Lane) : (updLanes x ls f).slot = x.slot := by rw [updLanes_eq]
@[simp] theorem updLanes_prio (ls : List Nat) (f : Nat → Lane → Lane) : (updLanes x ls f).prio = x.prio := by rw [updLanes_eq]
@[simp] theorem updLanes_age (ls : List Nat) (f : Nat → Lane → Lane) : (updLanes x ls f).age = x.age := by rw [updLanes_eq]
@[simp] theorem updLanes_regs (ls : List Nat) (f : Nat → Lane → Lane) : (updLanes x ls f).regs = x.regs := by rw [updLanes_eq]
@[simp] theorem updLanes_uregs (ls : List Nat) (f : Nat → Lane → Lane) : (updLanes x ls f).uregs = x.uregs := by rw [updLanes_eq]
@[simp] theorem updLanes_masks (ls : List Nat) (f : Nat → Lane → Lane) : (updLanes x ls f).masks = x.masks := by rw [updLanes_eq]
@[simp] theorem updLanes_nurs (ls : List Nat) (f : Nat → Lane → Lane) : (updLanes x ls f).nurs = x.nurs := by rw [updLanes_eq]
@[simp] theorem updLanes_nlim (ls : List Nat) (f : Nat → Lane → Lane) : (updLanes x ls f).nlim = x.nlim := by rw [updLanes_eq]
@[simp] theorem updLanes_tvec (ls : List Nat) (f : Nat → Lane → Lane) : (updLanes x ls f).tvec = x.tvec := by rw [updLanes_eq]
@[simp] theorem updLanes_trapv (ls : List Nat) (f : Nat → Lane → Lane) : (updLanes x ls f).trapv = x.trapv := by rw [updLanes_eq]
@[simp] theorem updLanes_cause (ls : List Nat) (f : Nat → Lane → Lane) : (updLanes x ls f).cause = x.cause := by rw [updLanes_eq]
@[simp] theorem updLanes_eaddr (ls : List Nat) (f : Nat → Lane → Lane) : (updLanes x ls f).eaddr = x.eaddr := by rw [updLanes_eq]
@[simp] theorem updLanes_status (ls : List Nat) (f : Nat → Lane → Lane) : (updLanes x ls f).status = x.status := by rw [updLanes_eq]
@[simp] theorem updLanes_fcnt (ls : List Nat) (f : Nat → Lane → Lane) : (updLanes x ls f).fcnt = x.fcnt := by rw [updLanes_eq]
@[simp] theorem updLanes_fptr (ls : List Nat) (f : Nat → Lane → Lane) : (updLanes x ls f).fptr = x.fptr := by rw [updLanes_eq]
@[simp] theorem updLanes_wp (ls : List Nat) (f : Nat → Lane → Lane) : (updLanes x ls f).wp = x.wp := by rw [updLanes_eq]
@[simp] theorem updLanes_arrived (ls : List Nat) (f : Nat → Lane → Lane) : (updLanes x ls f).arrived = x.arrived := by rw [updLanes_eq]
@[simp] theorem updLanes_halted (ls : List Nat) (f : Nat → Lane → Lane) : (updLanes x ls f).halted = x.halted := by rw [updLanes_eq]
@[simp] theorem updLanes_stopped (ls : List Nat) (f : Nat → Lane → Lane) : (updLanes x ls f).stopped = x.stopped := by rw [updLanes_eq]
@[simp] theorem updLanes_wait (ls : List Nat) (f : Nat → Lane → Lane) : (updLanes x ls f).wait = x.wait := by rw [updLanes_eq]
@[simp] theorem updLanes_pendTrap (ls : List Nat) (f : Nat → Lane → Lane) : (updLanes x ls f).pendTrap = x.pendTrap := by rw [updLanes_eq]
@[simp] theorem updLanes_walkFault (ls : List Nat) (f : Nat → Lane → Lane) : (updLanes x ls f).walkFault = x.walkFault := by rw [updLanes_eq]
@[simp] theorem updLanes_sel (ls : List Nat) (f : Nat → Lane → Lane) : (updLanes x ls f).sel = x.sel := by rw [updLanes_eq]
@[simp] theorem updLanes_slots (ls : List Nat) (f : Nat → Lane → Lane) : (updLanes x ls f).slots = x.slots := by rw [updLanes_eq]
@[simp] theorem updLanes_outer (ls : List Nat) (f : Nat → Lane → Lane) : (updLanes x ls f).outer = x.outer := by rw [updLanes_eq]
@[simp] theorem updLanes_readyAt (ls : List Nat) (f : Nat → Lane → Lane) : (updLanes x ls f).readyAt = x.readyAt := by rw [updLanes_eq]
@[simp] theorem updLanes_readyOut (ls : List Nat) (f : Nat → Lane → Lane) : (updLanes x ls f).readyOut = x.readyOut := by rw [updLanes_eq]
@[simp] theorem updLanes_pend (ls : List Nat) (f : Nat → Lane → Lane) : (updLanes x ls f).pend = x.pend := by rw [updLanes_eq]
@[simp] theorem updLanes_lrRun (ls : List Nat) (f : Nat → Lane → Lane) : (updLanes x ls f).lrRun = x.lrRun := by rw [updLanes_eq]
@[simp] theorem updLanes_rx (ls : List Nat) (f : Nat → Lane → Lane) : (updLanes x ls f).rx = x.rx := by rw [updLanes_eq]
@[simp] theorem updLanes_lastIssue (ls : List Nat) (f : Nat → Lane → Lane) : (updLanes x ls f).lastIssue = x.lastIssue := by rw [updLanes_eq]
@[simp] theorem updLanes_reported (ls : List Nat) (f : Nat → Lane → Lane) : (updLanes x ls f).reported = x.reported := by rw [updLanes_eq]
@[simp] theorem updLanes_regBad (ls : List Nat) (f : Nat → Lane → Lane) : (updLanes x ls f).regBad = x.regBad := by rw [updLanes_eq]
@[simp] theorem updLanes_mchkNext (ls : List Nat) (f : Nat → Lane → Lane) : (updLanes x ls f).mchkNext = x.mchkNext := by rw [updLanes_eq]
@[simp] theorem updLanes_relFence (ls : List Nat) (f : Nat → Lane → Lane) : (updLanes x ls f).relFence = x.relFence := by rw [updLanes_eq]

end

end Sys2Proof.Laws
end

