-- ==== Sys2Proof/Laws/Warp.lean ====
section
/-! SUPPORT. The laws of a warp's lanes, registers and masks: each read after each write. -/

namespace Sys2Proof.Laws

open Sys2Proof Sys2Proof.Machine

variable (x : Warp)

/-! ## Lanes -/

@[simp] theorem laneOf_setLane_self (l : Nat) (y : Lane) : laneOf (setLane x l y) l = y := spGet_spSet_self ..
@[simp] theorem laneOf_setLane_ne (l : Nat) (y : Lane) {k : Nat} (h : k ≠ l) : laneOf (setLane x l y) k = laneOf x k :=
  spGet_spSet_ne _ _ _ h
@[simp] theorem laneOf_setLaneReg (r l : Nat) (v : Val) (k : Nat) : laneOf (setLaneReg x r l v) k = laneOf x k := rfl
@[simp] theorem laneOf_setUniReg (r : Nat) (v : Val) (k : Nat) : laneOf (setUniReg x r v) k = laneOf x k := rfl
@[simp] theorem laneOf_setMask (m : Nat) (v : Word) (k : Nat) : laneOf (setMask x m v) k = laneOf x k := rfl

theorem updLane_eq (l : Nat) (f : Lane → Lane) : updLane x l f = setLane x l (f (laneOf x l)) := rfl

theorem updLanes_nil (f : Nat → Lane → Lane) : updLanes x [] f = x := rfl
theorem updLanes_cons (l : Nat) (ls : List Nat) (f : Nat → Lane → Lane) :
    updLanes x (l :: ls) f = updLanes (updLane x l (f l)) ls f := rfl

theorem laneOf_updLanes_not_mem (ls : List Nat) (f : Nat → Lane → Lane) {k : Nat} (h : k ∉ ls) :
    laneOf (updLanes x ls f) k = laneOf x k := by
  induction ls generalizing x with
  | nil => rfl
  | cons l r ih =>
    simp only [List.mem_cons, not_or] at h
    rw [updLanes_cons, ih _ h.2, updLane_eq, laneOf_setLane_ne _ _ _ h.1]

/-- Each listed lane is changed once. -/
theorem laneOf_updLanes (ls : List Nat) (f : Nat → Lane → Lane) (nd : ls.Nodup) (k : Nat) :
    laneOf (updLanes x ls f) k = if k ∈ ls then f k (laneOf x k) else laneOf x k := by
  induction ls generalizing x with
  | nil => rfl
  | cons l r ih =>
    rw [List.nodup_cons] at nd
    rw [updLanes_cons]
    by_cases h : k = l
    · subst h
      rw [laneOf_updLanes_not_mem _ _ _ nd.1, updLane_eq]
      simp
    · rw [ih _ nd.2, updLane_eq, laneOf_setLane_ne _ _ _ h]
      simp [h]

/-- A change that is the same for each lane and idempotent needs no distinctness. -/
theorem laneOf_updLanes_const (ls : List Nat) (f : Lane → Lane) (hf : ∀ y, f (f y) = f y) (k : Nat) :
    laneOf (updLanes x ls (fun _ y => f y)) k = if k ∈ ls then f (laneOf x k) else laneOf x k := by
  induction ls generalizing x with
  | nil => rfl
  | cons l r ih =>
    rw [updLanes_cons, ih, updLane_eq]
    by_cases h : k = l
    · subst h
      simp [hf]
    · simp [h]

@[simp] theorem laneOf_setLpc (ls : List Nat) (pc : Word) (k : Nat) :
    laneOf (setLpc x ls pc) k = { laneOf x k with lpc := if k ∈ ls then pc else (laneOf x k).lpc } := by
  unfold setLpc
  rw [laneOf_updLanes_const x ls (fun y => { y with lpc := pc }) (fun _ => rfl)]
  split <;> rfl

/-! ## Registers -/

theorem laneKey_inj {r r' l l' : Nat} (h : r < 128) (h' : r' < 128) : laneKey r l = laneKey r' l' ↔ r = r' ∧ l = l' := by
  unfold laneKey
  constructor
  · intro e
    omega
  · rintro ⟨rfl, rfl⟩
    rfl

theorem readReg_writeReg (d r : Reg) (l k : Nat) (v : Val) :
    readReg (writeReg x d l v) r k = if isDest d r l k = true then v else readReg x r k := by
  cases d with
  | nil => cases r <;> simp [isDest, writeReg]
  | uni n =>
    cases r with
    | nil => simp [isDest, readReg]
    | lane m => simp [isDest, writeReg, readReg, laneReg, setUniReg]
    | uni m => simp [isDest, isUni, writeReg, readReg, uniReg, setUniReg, spGet_spSet, BitVec.toNat_inj]
  | lane n =>
    cases r with
    | nil => simp [isDest, readReg]
    | uni m => simp [isDest, writeReg, readReg, uniReg, setLaneReg]
    | lane m =>
      simp [isDest, isUni, writeReg, readReg, laneReg, setLaneReg, spGet_spSet, laneKey_inj m.isLt n.isLt,
        BitVec.toNat_inj]

@[simp] theorem laneOf_writeReg (d : Reg) (l : Nat) (v : Val) (k : Nat) : laneOf (writeReg x d l v) k = laneOf x k := by
  cases d <;> rfl

/-- A register write changes registers alone. -/
theorem writeReg_eq (d : Reg) (l : Nat) (v : Val) :
    writeReg x d l v = { x with regs := (writeReg x d l v).regs, uregs := (writeReg x d l v).uregs,
                                regBad := (writeReg x d l v).regBad } := by
  cases d <;> rfl

@[simp] theorem readReg_setLane (l : Nat) (y : Lane) (r : Reg) (k : Nat) : readReg (setLane x l y) r k = readReg x r k := by
  cases r <;> rfl

@[simp] theorem readReg_setMask (m : Nat) (v : Word) (r : Reg) (k : Nat) : readReg (setMask x m v) r k = readReg x r k := by
  cases r <;> rfl

theorem readReg_congr {x y : Warp} (h : x.regs = y.regs) (g : x.uregs = y.uregs) (r : Reg) (k : Nat) :
    readReg x r k = readReg y r k := by
  cases r <;> simp [readReg, laneReg, uniReg, h, g]

@[simp] theorem readReg_updLanes (ls : List Nat) (f : Nat → Lane → Lane) (r : Reg) (k : Nat) :
    readReg (updLanes x ls f) r k = readReg x r k := readReg_congr (by simp) (by simp) r k

/-! ## Masks -/

@[simp] theorem maskReg_setLane (l : Nat) (y : Lane) (m : Nat) : maskReg (setLane x l y) m = maskReg x m := rfl
@[simp] theorem maskReg_updLanes (ls : List Nat) (f : Nat → Lane → Lane) (m : Nat) :
    maskReg (updLanes x ls f) m = maskReg x m := by simp [maskReg]
@[simp] theorem maskReg_setLaneReg (r l : Nat) (v : Val) (m : Nat) : maskReg (setLaneReg x r l v) m = maskReg x m := rfl
@[simp] theorem maskReg_setUniReg (r : Nat) (v : Val) (m : Nat) : maskReg (setUniReg x r v) m = maskReg x m := rfl
@[simp] theorem maskReg_writeReg (d : Reg) (l : Nat) (v : Val) (m : Nat) : maskReg (writeReg x d l v) m = maskReg x m := by
  cases d <;> rfl
@[simp] theorem maskReg_setMask_self (m : Nat) (v : Word) : maskReg (setMask x m v) m = v &&& laneSet (aliveLanes x) :=
  spGet_spSet_self ..
@[simp] theorem maskReg_setMask_ne (m : Nat) (v : Word) {k : Nat} (h : k ≠ m) : maskReg (setMask x m v) k = maskReg x k :=
  spGet_spSet_ne _ _ _ h

theorem bitAt_eq (w : Word) (i : Nat) : bitAt w i = w.getLsbD i := rfl

@[simp] theorem bitAt_and (a b : Word) (i : Nat) : bitAt (a &&& b) i = (bitAt a i && bitAt b i) := by
  simp [bitAt_eq]
@[simp] theorem bitAt_or (a b : Word) (i : Nat) : bitAt (a ||| b) i = (bitAt a i || bitAt b i) := by
  simp [bitAt_eq]
theorem bitAt_not (a : Word) {i : Nat} (h : i < 64) : bitAt (~~~ a) i = !bitAt a i := by
  simp [bitAt_eq, h]

theorem bitAt_two_pow (l : Nat) {i : Nat} (h : i < 64) : bitAt (BitVec.ofNat 64 (2 ^ l)) i = decide (l = i) := by
  rw [bitAt_eq, BitVec.getLsbD_ofNat]
  simp [h, Nat.testBit_two_pow]

/-- A word's bits after one of them is written. -/
theorem bitAt_setBit (w : Word) (l : Nat) (b : Bool) {i : Nat} (h : i < 64) :
    bitAt (setBit w l b) i = if i = l then b else bitAt w i := by
  unfold setBit
  cases b
  · simp only [Bool.false_eq_true, if_false]
    rw [bitAt_and, bitAt_not _ h, bitAt_two_pow _ h]
    by_cases g : i = l
    · simp [g]
    · simp [g, Ne.symm g]
  · simp only [if_true]
    rw [bitAt_or, bitAt_two_pow _ h]
    by_cases g : i = l
    · simp [g]
    · simp [g, Ne.symm g]

/-- The lanes of a lane set. -/
theorem bitAt_laneSet (ls : List Nat) {i : Nat} (h : i < 64) : bitAt (laneSet ls) i = decide (i ∈ ls) := by
  unfold laneSet
  suffices ∀ w : Word, bitAt (ls.foldl (fun w l => setBit w l true) w) i = (decide (i ∈ ls) || bitAt w i) by
    rw [this]
    simp [bitAt_eq]
  induction ls with
  | nil => intro w; simp
  | cons l r ih =>
    intro w
    rw [List.foldl_cons, ih, bitAt_setBit _ _ _ h]
    by_cases g : i = l <;> simp [g]

end Sys2Proof.Laws
end

