-- ==== Sys2Proof/Laws/Issue.lean ====
section
/-! SUPPORT. What an issue does around an instruction's own effect: the four ways an instruction ends, the state in which it
takes effect, and the state after it. -/

namespace Sys2Proof.Laws

open Sys2Proof Sys2Proof.Machine

variable {i : Instr} {h : Hdr} {s : State}

/-! ## The ways an instruction ends -/

/-- What the hypothesis of an issue says, part by part. -/
theorem issues_iff : issues i h s = true ↔
    (issuePc (warpOf s s.cur)).isSome = true ∧ canIssue (warpOf s s.cur) = true ∧ legal i = true ∧
    regsInRange (warpOf s s.cur) i = true ∧ (warpOf s s.cur).mchkNext = false ∧
    pendingOn (warpOf s s.cur) h (usesOf i) = false ∧ sideFaults (warpOf s s.cur) i h (curIx i h s) = [] ∧
    (curIx i h s).exe ≠ [] := by
  simp [issues, and_assoc]

theorem issueInstr_eq (is : issues i h s = true) (body : Ix → State → Res) :
    issueInstr i h s body =
      match body (curIx i h s) (began i h s) with
      | .wait k t => waited i h s t k
      | .trap fs info past => trapped i h s fs info past
      | .trapIn t fs => trapRun { s with parts := t.parts } (curIx i h s) fs 0 []
      | .recorded f gs ts => takeRecorded s (curIx i h s) f gs ts []
      | .ok t => finished i h s t := by
  obtain ⟨h1, h2, h3, h4, h5, h6, h7, h8⟩ := issues_iff.mp is
  obtain ⟨pc, hpc⟩ := Option.isSome_iff_exists.mp h1
  have e : curIx i h s = issueIx i h (warpOf s s.cur) s.cur pc := by simp [curIx, hpc]
  rw [e] at h7 h8
  simp only [issueInstr, waited, trapped, finished, began, hpc, h2, h3, h4, h5, h6, h7, h8, e, Bool.not_true, Bool.or_self,
    Bool.false_eq_true, if_false, List.append_nil, ne_eq, not_true_eq_false, false_and]
  rfl

/-- An instruction that takes effect. -/
theorem issued_ok (is : issues i h s = true) {body : Ix → State → Res} {u : State}
    (e : body (curIx i h s) (began i h s) = .ok u) : issued i h s body = .next (finished i h s u) := by
  rw [issued, issueInstr_eq is, e]

/-- An instruction whose lanes have causes. -/
theorem issued_trap (is : issues i h s = true) {body : Ix → State → Res} {fs : List LFault} {n : Nat} {p : List Nat}
    (e : body (curIx i h s) (began i h s) = .trap fs n p) : issued i h s body = .next (trapped i h s fs n p) := by
  rw [issued, issueInstr_eq is, e]

/-- An instruction that must wait. -/
theorem issued_wait (is : issues i h s = true) {body : Ix → State → Res} {k : Wait} {u : State}
    (e : body (curIx i h s) (began i h s) = .wait k u) : issued i h s body = .next (waited i h s u k) := by
  rw [issued, issueInstr_eq is, e]

/-- Every issue answers a next state. -/
theorem issued_next (body : Ix → State → Res) : ∃ t, issued i h s body = .next t := ⟨_, rfl⟩

/-! ## The state in which it takes effect -/

/-- A fold of updates of the marks changes the marks alone. -/
theorem foldl_marks (f : Warp → Nat → Warp)
    (hf : ∀ x k, f x k = { x with readyAt := (f x k).readyAt, readyOut := (f x k).readyOut }) (ks : List Nat) :
    ∀ x, ks.foldl f x = { x with readyAt := (ks.foldl f x).readyAt, readyOut := (ks.foldl f x).readyOut } := by
  induction ks with
  | nil => intro x; rfl
  | cons k r ih =>
    intro x
    have a := ih (f x k)
    rw [hf x k] at a
    rw [List.foldl_cons, hf x k]
    exact a

theorem markResults_eq (x : Warp) (grp exe : List Nat) :
    markResults x i h grp exe =
      { x with
        readyAt := (markResults x i h grp exe).readyAt, readyOut := (markResults x i h grp exe).readyOut
        slots := x.slots + 1 + h.stall.toNat, outer := (markResults x i h grp exe).outer } := by
  unfold markResults
  simp only []
  rw [foldl_marks _ (fun _ _ => rfl)]

@[simp] theorem curIx_w : (curIx i h s).w = s.cur := rfl

theorem setLpc_eq (x : Warp) (ls : List Nat) (pc : Word) : setLpc x ls pc = { x with lanes := (setLpc x ls pc).lanes } :=
  updLanes_eq ..

theorem markResults_ex (x : Warp) (grp exe : List Nat) :
    ∃ m : Sparse Nat × Sparse Nat × Nat, markResults x i h grp exe =
      { x with readyAt := m.1, readyOut := m.2.1, slots := x.slots + 1 + h.stall.toNat, outer := m.2.2 } :=
  ⟨(_, _, _), markResults_eq x grp exe⟩

/-- The warp in which the instruction takes effect. -/
theorem warpOf_began : ∃ (m : Sparse Nat × Sparse Nat × Nat) (li : Nat), warpOf (began i h s) s.cur =
    { warpOf s s.cur with
      lanes := (setLpc (warpOf s s.cur) (curIx i h s).grp (curIx i h s).next).lanes,
      readyAt := m.1, readyOut := m.2.1, slots := (warpOf s s.cur).slots + 1 + h.stall.toNat, outer := m.2.2,
      lastIssue := li, reported := false } := by
  obtain ⟨m, e⟩ := @markResults_ex i h (setLpc (warpOf s s.cur) (curIx i h s).grp (curIx i h s).next) (curIx i h s).grp (curIx i h s).exe
  unfold began begun
  simp only [curIx_w, updWarp_eq, updCore_eq, warpOf_setWarp_self, warpOf_setCore]
  generalize (curIx i h s).grp = ls at *
  generalize (curIx i h s).next = n at *
  rw [e]
  rw [setLpc_eq]
  exact ⟨m, _, rfl⟩

@[simp] theorem warpOf_began_ne {v : Nat} (hv : v ≠ s.cur) : warpOf (began i h s) v = warpOf s v := by
  simp [began, begun, updWarp_eq, updCore_eq, hv]

theorem rest_setWarp (s : State) (w : Nat) (x : Warp) :
    setWarp s w x = { s with warps := (setWarp s w x).warps, cores := (setWarp s w x).cores } := rfl

theorem rest_setCore (s : State) (c : Nat) (x : Core) :
    setCore s c x = { s with warps := (setCore s c x).warps, cores := (setCore s c x).cores } := rfl

theorem rest_trans {s t u : State} (a : t = { s with warps := t.warps, cores := t.cores })
    (b : u = { t with warps := u.warps, cores := u.cores }) : u = { s with warps := u.warps, cores := u.cores } := by
  rw [a] at b
  exact b

/-- Nothing outside the warp and its core's cycle count differs. -/
theorem began_eq : began i h s = { s with warps := (began i h s).warps, cores := (began i h s).cores } := by
  unfold began begun
  simp only [updWarp_eq, updCore_eq]
  exact rest_trans (rest_trans (rest_setWarp ..) (rest_setCore ..)) (rest_setWarp ..)

theorem coreOf_began (c : Nat) : coreOf (began i h s) c = { coreOf s c with cyc := (coreOf (began i h s) c).cyc } := by
  by_cases g : c = (warpOf s s.cur).core
  · subst g
    simp [began, begun, updWarp_eq, updCore_eq]
  · simp [began, begun, updWarp_eq, updCore_eq, g]

@[simp] theorem readReg_began (r : Reg) (l : Nat) : readReg (warpOf (began i h s) s.cur) r l = readReg (warpOf s s.cur) r l := by
  obtain ⟨ra, li, e⟩ := @warpOf_began i h s
  rw [e]
  exact readReg_congr rfl rfl r l

@[simp] theorem maskReg_began (m : Nat) : maskReg (warpOf (began i h s) s.cur) m = maskReg (warpOf s s.cur) m := by
  obtain ⟨ra, li, e⟩ := @warpOf_began i h s
  rw [e]
  rfl

@[simp] theorem laneOf_began (l : Nat) : laneOf (warpOf (began i h s) s.cur) l =
    { laneOf (warpOf s s.cur) l with
      lpc := if l ∈ (curIx i h s).grp then (curIx i h s).next else (laneOf (warpOf s s.cur) l).lpc } := by
  obtain ⟨ra, li, e⟩ := @warpOf_began i h s
  rw [e, ← laneOf_setLpc]
  rfl

@[simp] theorem began_core : (warpOf (began i h s) s.cur).core = (warpOf s s.cur).core := by
  obtain ⟨ra, li, e⟩ := @warpOf_began i h s
  rw [e]
@[simp] theorem began_team : (warpOf (began i h s) s.cur).team = (warpOf s s.cur).team := by
  obtain ⟨ra, li, e⟩ := @warpOf_began i h s
  rw [e]
@[simp] theorem began_width : (warpOf (began i h s) s.cur).width = (warpOf s s.cur).width := by
  obtain ⟨ra, li, e⟩ := @warpOf_began i h s
  rw [e]
@[simp] theorem began_status : (warpOf (began i h s) s.cur).status = (warpOf s s.cur).status := by
  obtain ⟨ra, li, e⟩ := @warpOf_began i h s
  rw [e]
@[simp] theorem began_rx : (warpOf (began i h s) s.cur).rx = (warpOf s s.cur).rx := by
  obtain ⟨ra, li, e⟩ := @warpOf_began i h s
  rw [e]
@[simp] theorem began_nurs : (warpOf (began i h s) s.cur).nurs = (warpOf s s.cur).nurs := by
  obtain ⟨ra, li, e⟩ := @warpOf_began i h s
  rw [e]
@[simp] theorem began_nlim : (warpOf (began i h s) s.cur).nlim = (warpOf s s.cur).nlim := by
  obtain ⟨ra, li, e⟩ := @warpOf_began i h s
  rw [e]
@[simp] theorem began_cur : (began i h s).cur = s.cur := by rw [began_eq]
@[simp] theorem teamOf_began (t : Nat) : teamOf (began i h s) t = teamOf s t := by rw [began_eq]; rfl

/-! ## The state after it -/

theorem updLanes_resv (x : Warp) (ls : List Nat) (l : Nat) :
    laneOf (updLanes x ls (fun _ y => { y with resv := none })) l =
      { laneOf x l with resv := if l ∈ ls then none else (laneOf x l).resv } := by
  rw [laneOf_updLanes_const x ls (fun y => { y with resv := none }) (fun _ => rfl)]
  split <;> rfl

/-- What the end of a run may change in the warp that ran. -/
structure RunEnded (x y : Warp) : Prop where
  warp : y = { x with lanes := y.lanes, fcnt := y.fcnt, sel := y.sel, lrRun := y.lrRun, walkFault := y.walkFault,
                      stopped := y.stopped }
  lanes : ∀ l, laneOf y l = { laneOf x l with resv := (laneOf y l).resv } ∧
    ((laneOf y l).resv = (laneOf x l).resv ∨ (laneOf y l).resv = none)

theorem runEnded_refl (x : Warp) : RunEnded x x := ⟨rfl, fun _ => ⟨rfl, .inl rfl⟩⟩

theorem RunEnded.trans {x y z : Warp} (a : RunEnded x y) (b : RunEnded y z) : RunEnded x z := by
  refine ⟨?_, fun l => ?_⟩
  · have h1 := a.warp
    have h2 := b.warp
    rw [h1] at h2
    exact h2
  · have h1 := a.lanes l
    have h2 := b.lanes l
    refine ⟨?_, ?_⟩
    · have := h2.1
      rw [h1.1] at this
      exact this
    · rcases h2.2 with g | g
      · rw [g]; exact h1.2
      · exact .inr g

theorem runEnded_stop (x : Warp) (b : Bool) : RunEnded x (if b then stopWarp x else x) := by
  cases b
  · exact runEnded_refl x
  · simp only [if_true, stopWarp]
    refine ⟨?_, fun l => ?_⟩
    · rw [updLanes_eq]
    · have e := updLanes_resv x (lanesOf x) l
      have e' : laneOf { updLanes x (lanesOf x) (fun _ y => { y with resv := none }) with stopped := true, sel := none } l =
        laneOf (updLanes x (lanesOf x) (fun _ y => { y with resv := none })) l := rfl
      rw [e', e]
      refine ⟨rfl, ?_⟩
      simp only []
      split <;> simp

/-- What the end of a run changes. -/
structure RunStep (w : Nat) (s t : State) : Prop where
  rest : t = { s with warps := t.warps, cores := t.cores }
  warps : ∀ v, v ≠ w → warpOf t v = warpOf s v
  cores : ∀ c, coreOf t c = { coreOf s c with runs := (coreOf t c).runs } ∨
    (c = (warpOf s w).core ∧ coreOf t c = { tableDone (coreOf s c) with runs := (coreOf t c).runs })
  own : RunEnded (warpOf s w) (warpOf t w)

theorem runStep_setRun (w : Nat) (s : State) (c p : Nat) (r : Run) : RunStep w s (setRun s c p r) := by
  refine ⟨rfl, fun v _ => rfl, fun d => .inl ?_, runEnded_refl _⟩
  unfold setRun
  by_cases e : d = c
  · subst e; simp [updCore_eq]
  · simp [updCore_eq, e]

/-- A region table's due writes and what stands beside the table keep out of each other's way. -/
theorem regionPuts_with (k : Core) (y : Nat) (r : Sparse Run) (es : List (Nat × Word)) :
    es.foldl regionPut { k with cyc := y, runs := r } = { es.foldl regionPut k with cyc := y, runs := r } := by
  induction es generalizing k with
  | nil => rfl
  | cons e q ih =>
    have g : regionPut { k with cyc := y, runs := r } e = { regionPut k e with cyc := y, runs := r } := by
      unfold regionPut
      simp only []
      split <;> rfl
    rw [List.foldl_cons, List.foldl_cons, g]
    exact ih _

theorem regionPuts_rest (k : Core) (es : List (Nat × Word)) :
    (es.foldl regionPut k).cyc = k.cyc ∧ (es.foldl regionPut k).runs = k.runs ∧ (es.foldl regionPut k).reqs = k.reqs := by
  induction es generalizing k with
  | nil => exact ⟨rfl, rfl, rfl⟩
  | cons e q ih =>
    rw [List.foldl_cons, (ih _).1, (ih _).2.1, (ih _).2.2]
    unfold regionPut
    simp only []
    split <;> exact ⟨rfl, rfl, rfl⟩

theorem tableDone_with (k : Core) (y : Nat) (r : Sparse Run) :
    tableDone { k with cyc := y, runs := r } = { tableDone k with cyc := y, runs := r } := by
  unfold tableDone
  rw [regionPuts_with, show barrierOwed { k with cyc := y, runs := r } = barrierOwed k from rfl]
  split <;> rfl

@[simp] theorem tableDone_cyc (k : Core) : (tableDone k).cyc = k.cyc := by
  unfold tableDone
  split
  · rfl
  · exact (regionPuts_rest k k.rgnDue).1
@[simp] theorem tableDone_runs (k : Core) : (tableDone k).runs = k.runs := by
  unfold tableDone
  split
  · rfl
  · exact (regionPuts_rest k k.rgnDue).2.1

/-- Whether a barrier is owed rests on the requests alone. -/
theorem barrierOwed_congr {k m : Core} (e : k.reqs = m.reqs) : barrierOwed k = barrierOwed m := by unfold barrierOwed; rw [e]

@[simp] theorem tableDone_twice (k : Core) : tableDone (tableDone k) = tableDone k := by
  by_cases h : barrierOwed k = true
  · simp [tableDone, h]
  · have g : tableDone k = { k.rgnDue.foldl regionPut k with rgnDue := [] } := by rw [tableDone, if_neg h]
    have e : barrierOwed (tableDone k) = barrierOwed k := barrierOwed_congr (by rw [g]; exact (regionPuts_rest k k.rgnDue).2.2)
    rw [tableDone, e, if_neg h, g]
    rfl

theorem runStep_boundary (w : Nat) (s : State) {c : Nat} (hc : c = (warpOf s w).core) : RunStep w s (tableBoundary s c) := by
  refine ⟨rfl, fun v _ => rfl, fun d => ?_, runEnded_refl _⟩
  unfold tableBoundary
  rw [updCore_eq]
  by_cases e : d = c
  · subst e
    rw [coreOf_setCore_self]
    exact .inr ⟨hc, rfl⟩
  · rw [coreOf_setCore_ne _ _ _ e]
    exact .inl rfl

theorem RunStep.trans {w : Nat} {s t u : State} (a : RunStep w s t) (b : RunStep w t u) : RunStep w s u := by
  refine ⟨?_, fun v hv => (b.warps v hv).trans (a.warps v hv), fun c => ?_, a.own.trans b.own⟩
  · have h1 := a.rest
    have h2 := b.rest
    rw [h1] at h2
    exact h2
  · have e : (warpOf t w).core = (warpOf s w).core := by rw [a.own.warp]
    have k : ∀ x y : Core, ∀ r, y = { x with runs := r } → tableDone y = { tableDone x with runs := r } := by
      intro x y r h
      have q := tableDone_with x x.cyc r
      rw [h]
      have p : ({ tableDone x with cyc := x.cyc, runs := r } : Core) = { tableDone x with runs := r } := by
        rw [← tableDone_cyc x]
      rw [← p]
      exact q
    rcases a.cores c with h1 | ⟨g1, h1⟩ <;> rcases b.cores c with h2 | ⟨g2, h2⟩
    · left
      rw [h1] at h2
      exact h2
    · right
      rw [k _ _ _ h1] at h2
      exact ⟨g2.trans e, h2⟩
    · right
      rw [h1] at h2
      exact ⟨g1, h2⟩
    · right
      rw [k _ _ _ h1, tableDone_twice] at h2
      exact ⟨g1, h2⟩

/-- The end of a run in which something was issued. -/
theorem runStep_closeRun (w : Nat) (s : State) {r : Run} (hr : r.count ≠ 0) : RunStep w s (closeRun s w r) := by
  unfold closeRun
  simp only [if_neg hr]
  have a : ∀ y, RunEnded (warpOf s w) y → RunStep w s (setWarp s w y) := fun y e =>
    ⟨rfl, fun v hv => by simp [hv], fun c => .inl rfl, by rw [warpOf_setWarp_self]; exact e⟩
  have e : ∀ y, RunEnded (warpOf s w) y → (warpOf s w).core = y.core := fun y q => by rw [q.warp]
  have b : RunEnded (warpOf s w) { warpOf s w with
      fcnt := if r.multi && r.low then (warpOf s w).fcnt + 1 else 0, fptr := (warpOf s w).fptr, sel := none, lrRun := [] } :=
    ⟨rfl, fun _ => ⟨rfl, .inl rfl⟩⟩
  refine ((a _ ?_).trans (runStep_setRun w _ _ _ _)).trans (runStep_boundary w _ ?_)
  · exact b.trans (runEnded_stop _ _)
  · have q : ∀ (u : State) c p r, warpOf (setRun u c p r) w = warpOf u w := fun _ _ _ _ => rfl
    rw [q, warpOf_setWarp_self, ← e _ (b.trans (runEnded_stop _ _))]

/-- What an instruction's end changes beside its own effect. -/
theorem runStep_afterIssue (w : Nat) (u : State) (r : Run) (b : Bool) (next : Word) : RunStep w u (afterIssue u w r b next) := by
  unfold afterIssue
  have a : RunStep w u (setWarp u w { warpOf u w with walkFault := [] }) := by
    refine ⟨rfl, fun v hv => by simp [hv], fun c => .inl rfl, ?_⟩
    rw [warpOf_setWarp_self]
    exact ⟨rfl, fun _ => ⟨rfl, .inl rfl⟩⟩
  simp only []
  split
  · exact a.trans (runStep_closeRun _ _ (Nat.succ_ne_zero _))
  · exact a.trans (runStep_setRun ..)

/-! ## Variable-latency results (R150) -/

/-- The pending counts after a variable-latency result is sent. -/
def latePend (i : Instr) (p : Sparse Nat) : Sparse Nat := (lateKeys i).foldl (fun p k => spSet 0 p k (spGet 0 p k + 1)) p

theorem markLate_eq (x : Warp) : markLate i x = { x with pend := latePend i x.pend } := by
  unfold markLate latePend
  generalize lateKeys i = ks
  induction ks generalizing x with
  | nil => rfl
  | cons k r ih => rw [List.foldl_cons, ih]; rfl

@[simp] theorem laneOf_markLate (x : Warp) (l : Nat) : laneOf (markLate i x) l = laneOf x l := by rw [markLate_eq]; rfl
@[simp] theorem maskReg_markLate (x : Warp) (m : Nat) : maskReg (markLate i x) m = maskReg x m := by rw [markLate_eq]; rfl
@[simp] theorem readReg_markLate (x : Warp) (r : Reg) (l : Nat) : readReg (markLate i x) r l = readReg x r l := by
  rw [markLate_eq]
  exact readReg_congr rfl rfl r l
@[simp] theorem markLate_core (x : Warp) : (markLate i x).core = x.core := by rw [markLate_eq]
theorem markLate_none (hi : lateKeys i = []) (x : Warp) : markLate i x = x := by simp [markLate, hi]

theorem sendLate_eq (ix : Ix) (u : State) :
    sendLate i ix u = setCore (setWarp u ix.w (markLate i (warpOf u ix.w))) (warpOf u ix.w).core
      (lateCore i ix (coreOf u (warpOf u ix.w).core)) := by
  simp [sendLate, updWarp_eq, updCore_eq]

/-- An instruction without such a result leaves the state as its effect left it. -/
theorem sendLate_none (ix : Ix) (hi : lateKeys i = []) (ht : lateTodo i ix = []) (u : State) :
    (∀ v, warpOf (sendLate i ix u) v = warpOf u v) ∧ ∀ c, coreOf (sendLate i ix u) c = coreOf u c := by
  rw [sendLate_eq, markLate_none hi]
  refine ⟨fun v => ?_, fun c => ?_⟩
  · by_cases e : v = ix.w
    · subst e; simp
    · simp [e]
  · by_cases e : c = (warpOf u ix.w).core
    · subst e; simp [lateCore, hi, ht]
    · simp [e]

/-- What an instruction that took effect in state u leaves beside. -/
theorem finished_spec (u : State) :
    (finished i h s u = { u with warps := (finished i h s u).warps, cores := (finished i h s u).cores }) ∧
    (∀ v, v ≠ s.cur → warpOf (finished i h s u) v = warpOf u v) ∧
    (∀ c,
      let k := if c = (warpOf u s.cur).core then lateCore i (curIx i h s) (coreOf u c) else coreOf u c
      coreOf (finished i h s u) c = { k with runs := (coreOf (finished i h s u) c).runs } ∨
      (c = (warpOf u s.cur).core ∧
        coreOf (finished i h s u) c = { tableDone k with runs := (coreOf (finished i h s u) c).runs })) ∧
    RunEnded (markLate i (warpOf u s.cur)) (warpOf (finished i h s u) s.cur) := by
  have q := runStep_afterIssue s.cur (sendLate i (curIx i h s) u) (runFor s s.cur)
    (h.b || takesTransfer i (warpOf s s.cur) (curIx i h s)) (curIx i h s).next
  have e : finished i h s u = afterIssue (sendLate i (curIx i h s) u) s.cur (runFor s s.cur)
    (h.b || takesTransfer i (warpOf s s.cur) (curIx i h s)) (curIx i h s).next := rfl
  rw [← e] at q
  have r : sendLate i (curIx i h s) u = { u with warps := (sendLate i (curIx i h s) u).warps, cores := (sendLate i (curIx i h s) u).cores } := by
    rw [sendLate_eq]
    exact rest_trans (rest_setWarp ..) (rest_setCore ..)
  refine ⟨rest_trans r q.rest, fun v hv => ?_, fun c => ?_, ?_⟩
  · rw [q.warps v hv, sendLate_eq]
    simp [hv]
  · have a := q.cores c
    rw [sendLate_eq] at a
    simp only [curIx_w] at a
    by_cases g : c = (warpOf u s.cur).core
    · subst g
      simpa [markLate_core] using a
    · simpa [g, markLate_core] using a
  · have a := q.own
    rw [sendLate_eq] at a
    simpa using a

end Sys2Proof.Laws
end

