-- ==== Sys2Proof/Laws/LaneOp.lean ====
section
/-! SUPPORT. What a lane instruction comes to when each of its lanes has a value, a cause or a call (R24, R97, R100, R102). -/

namespace Sys2Proof.Laws

open Sys2Proof Sys2Proof.Machine

variable {i : Instr} {h : Hdr} {s : State}

/-! ## Lanes that all have values -/

theorem callsOf_vals (ix : Ix) (d : LDst) (ls : List Nat) (g : Nat → Val) :
    callsOf ix d (ls.map (fun l => (l, LOut.val (g l)))) = [] := by
  induction ls <;> simp_all [callsOf]

theorem faultsOf_vals (ix : Ix) (ls : List Nat) (g : Nat → Val) :
    faultsOf ix (ls.map (fun l => (l, LOut.val (g l)))) = [] := by
  induction ls <;> simp_all [faultsOf]

theorem finishCalls_nil (s : State) (ix : Ix) (f : State → State) : finishCalls s ix [] [] [] f = .ok (f s) := by
  simp [finishCalls, checkCalls, enterCalls]

/-- A lane instruction all of whose lanes have values writes them. -/
theorem laneOp_ok {ix : Ix} {s : State} {d : LDst} {srcs : List Reg} {f : Nat → LOut} {g : Nat → Val}
    (hf : ∀ l ∈ actLanes ix d srcs, f l = .val (g l)) :
    laneOp ix s d srcs f =
      .ok (updWarp s ix.w (fun x => writeOuts x d ((actLanes ix d srcs).map (fun l => (l, LOut.val (g l)))))) := by
  have e : (actLanes ix d srcs).map (fun l => (l, f l)) = (actLanes ix d srcs).map (fun l => (l, LOut.val (g l))) :=
    List.map_congr_left (fun l hl => by rw [hf l hl])
  unfold laneOp
  simp only []
  rw [e, callsOf_vals, faultsOf_vals, finishCalls_nil]

/-- Writing values to a register in some lanes. -/
def writeRegs (x : Warp) (d : Reg) (ls : List Nat) (g : Nat → Val) : Warp := ls.foldl (fun x l => writeReg x d l (g l)) x

theorem writeOuts_reg (x : Warp) (d : Reg) (ls : List Nat) (g : Nat → Val) :
    writeOuts x (.reg d) (ls.map (fun l => (l, LOut.val (g l)))) = writeRegs x d ls g := by
  simp [writeOuts, writeRegs, writeOut, List.foldl_map]

theorem writeRegs_eq (d : Reg) (ls : List Nat) (g : Nat → Val) : ∀ x : Warp,
    writeRegs x d ls g = { x with regs := (writeRegs x d ls g).regs, uregs := (writeRegs x d ls g).uregs,
                                  regBad := (writeRegs x d ls g).regBad } := by
  unfold writeRegs
  induction ls with
  | nil => intro x; rfl
  | cons l r ih =>
    intro x
    have a := ih (writeReg x d l (g l))
    rw [writeReg_eq x d l (g l)] at a
    rw [List.foldl_cons, writeReg_eq x d l (g l)]
    exact a

theorem readReg_writeRegs_other (d r : Reg) (k : Nat) (g : Nat → Val) (ls : List Nat)
    (hd : ∀ l ∈ ls, isDest d r l k = false) : ∀ x : Warp, readReg (writeRegs x d ls g) r k = readReg x r k := by
  unfold writeRegs
  induction ls with
  | nil => intro x; rfl
  | cons l q ih =>
    intro x
    rw [List.foldl_cons, ih (fun a b => hd a (List.mem_cons_of_mem _ b)), readReg_writeReg, hd l List.mem_cons_self]
    rfl

theorem readReg_writeRegs_lane (n : BitVec 7) (k : Nat) (g : Nat → Val) (ls : List Nat) (hk : k ∈ ls) : ∀ x : Warp,
    readReg (writeRegs x (.lane n) ls g) (.lane n) k = g k := by
  unfold writeRegs
  induction ls with
  | nil => cases hk
  | cons l q ih =>
    intro x
    by_cases hq : k ∈ q
    · rw [List.foldl_cons, ih hq]
    · have e : k = l := by
        rcases List.mem_cons.mp hk with e | e
        · exact e
        · exact absurd e hq
      subst e
      rw [List.foldl_cons]
      have a := readReg_writeRegs_other (.lane n) (.lane n) k g q (fun a b => by
        have : k ≠ a := fun c => hq (c ▸ b)
        simp [isDest, isUni, this]) (writeReg x (.lane n) k (g k))
      unfold writeRegs at a
      rw [a, readReg_writeReg]
      simp [isDest]

theorem laneOf_writeRegs (d : Reg) (g : Nat → Val) (ls : List Nat) (k : Nat) (x : Warp) :
    laneOf (writeRegs x d ls g) k = laneOf x k := by
  rw [writeRegs_eq]
  rfl

/-! ## From a state of effect to the state after it -/

/-- The warp after an instruction that wrote registers of the state in which it took effect. -/
theorem runEnded_read {x y : Warp} (e : RunEnded x y) (r : Reg) (k : Nat) : readReg y r k = readReg x r k := by
  rw [e.warp]
  exact readReg_congr rfl rfl r k

theorem runEnded_mask {x y : Warp} (e : RunEnded x y) (m : Nat) : maskReg y m = maskReg x m := by
  rw [e.warp]
  rfl

/-- The state after an instruction that changed the issuing warp alone, and not the core that it is on. -/
theorem sameBeside_finished (f : Warp → Warp)
    (hf : (f (warpOf (began i h s) s.cur)).core = (warpOf s s.cur).core) :
    SameBeside i h s (finished i h s (updWarp (began i h s) s.cur f)) := by
  obtain ⟨q1, q2, q3, _⟩ := @finished_spec i h s (updWarp (began i h s) s.cur f)
  have r : finished i h s (updWarp (began i h s) s.cur f) =
      { s with warps := (finished i h s (updWarp (began i h s) s.cur f)).warps,
               cores := (finished i h s (updWarp (began i h s) s.cur f)).cores } := by
    refine rest_trans (began_eq (i := i) (h := h)) (rest_trans ?_ q1)
    rw [updWarp_eq]
    exact rest_setWarp ..
  refine ⟨r, fun v hv => ?_, fun c => ?_, fun a => ?_⟩
  · rw [q2 v hv, updWarp_eq, warpOf_setWarp_ne _ _ _ hv, warpOf_began_ne hv]
  · have a := q3 c
    simp only [updWarp_eq, coreOf_setWarp, warpOf_setWarp_self, hf] at a
    have b := coreOf_began (i := i) (h := h) (s := s) c
    rw [updWarp_eq]
    have m : ∀ k : Core, (if c = (warpOf s s.cur).core then lateCore i (curIx i h s) { coreOf s c with cyc := k.cyc }
        else { coreOf s c with cyc := k.cyc }) =
        { (if c = (warpOf s s.cur).core then lateCore i (curIx i h s) (coreOf s c) else coreOf s c) with cyc := k.cyc } := by
      intro k
      split
      · unfold lateCore
        split <;> rfl
      · rfl
    have n : ∀ (k : Core) (y : Nat) (r : Sparse Run) (z : Core), z = { tableDone { k with cyc := y } with runs := r } →
        z = { tableDone k with cyc := z.cyc, runs := z.runs } := by
      intro k y r z hz
      have q := tableDone_with k y k.runs
      have p : ({ k with cyc := y, runs := k.runs } : Core) = { k with cyc := y } := rfl
      rw [p] at q
      rw [hz, q]
    rw [b, m] at a
    rcases a with a | ⟨g, a⟩
    · left
      rw [a]
    · exact .inr ⟨g, n _ _ _ _ a⟩
  · rw [r]
    rfl

theorem warp_finished (f : Warp → Warp) :
    RunEnded (markLate i (f (warpOf (began i h s) s.cur)))
      (warpOf (finished i h s (updWarp (began i h s) s.cur f)) s.cur) := by
  have q := (@finished_spec i h s (updWarp (began i h s) s.cur f)).2.2.2
  rw [updWarp_eq, warpOf_setWarp_self] at q
  exact q

/-! ## The special registers -/

theorem specials_refl (x : Warp) : SameSpecials x x := ⟨rfl⟩

theorem specials_trans {x y z : Warp} (a : SameSpecials x y) (b : SameSpecials y z) : SameSpecials x z := by
  have e := b.eq
  rw [a.eq] at e
  exact ⟨e⟩

theorem specials_core {x y : Warp} (a : SameSpecials x y) : y.core = x.core := by rw [a.eq]

theorem specials_markLate {x y : Warp} (a : SameSpecials x y) : SameSpecials (markLate i x) (markLate i y) := by
  refine ⟨?_⟩
  rw [markLate_eq, markLate_eq, a.eq]

theorem specials_runEnded {x y : Warp} (e : RunEnded x y) : SameSpecials x y := by
  refine ⟨?_⟩
  rw [e.warp]

theorem specials_began : SameSpecials (warpOf s s.cur) (warpOf (began i h s) s.cur) := by
  obtain ⟨m, li, e⟩ := @warpOf_began i h s
  refine ⟨?_⟩
  rw [e]

theorem specials_writeRegs (x : Warp) (d : Reg) (ls : List Nat) (g : Nat → Val) : SameSpecials x (writeRegs x d ls g) := by
  refine ⟨?_⟩
  rw [writeRegs_eq]

theorem specials_updLanes (x : Warp) (ls : List Nat) (f : Nat → Lane → Lane) : SameSpecials x (updLanes x ls f) := by
  refine ⟨?_⟩
  rw [updLanes_eq]

theorem specials_setMask (x : Warp) (m : Nat) (v : Word) : SameSpecials x (setMask x m v) := ⟨rfl⟩

/-- The frame of an instruction whose effect is a new warp X that reads like one with registers written. -/
theorem gave_of (k : Warp → Warp) (hk : (k (warpOf s s.cur)).core = (warpOf s s.cur).core) (d : Reg) (ls : List Nat)
    (g : Nat → Val) (X : Warp)
    (hl : ls = if isUni d = true then [(curIx i h s).low] else (curIx i h s).exe) (hx : (curIx i h s).exe ≠ [])
    (hs : SameSpecials (k (warpOf s s.cur)) X) (hn : ∀ l, laneOf X l = laneOf (warpOf (began i h s) s.cur) l)
    (hm : ∀ m, maskReg X m = maskReg (warpOf s s.cur) m)
    (hr : ∀ r l, readReg X r l = readReg (writeRegs (warpOf (began i h s) s.cur) d ls g) r l) :
    Gave i h s (finished i h s (updWarp (began i h s) s.cur (fun _ => X))) k d g := by
  have q := @warp_finished i h s (fun _ => X)
  generalize ht : finished i h s (updWarp (began i h s) s.cur (fun _ => X)) = t at *
  have hb : SameBeside i h s t := by rw [← ht]; exact sameBeside_finished _ ((specials_core hs).trans hk)
  obtain ⟨a, ha⟩ := List.exists_mem_of_ne_nil _ hx
  refine ⟨hb, ?_, ?_, ?_, ?_, ?_⟩
  · exact specials_trans (specials_markLate hs) (specials_runEnded q)
  · intro l
    have w := q.lanes l
    rw [laneOf_markLate, hn, laneOf_began] at w
    exact w
  · intro m
    rw [runEnded_mask q, maskReg_markLate]
    exact hm m
  · intro l hl'
    rw [runEnded_read q, readReg_markLate, hr]
    cases d with
    | nil => rfl
    | lane n =>
      rw [hl]
      simp only [isUni, Bool.false_eq_true, if_false, reduceCtorEq]
      exact readReg_writeRegs_lane n l g _ hl' _
    | uni n =>
      rw [hl]
      simp [isUni, writeRegs, readReg_writeReg, isDest]
  · intro r k hr'
    rw [runEnded_read q, readReg_markLate, hr, readReg_writeRegs_other]
    · exact readReg_began r k
    · rw [hl]
      intro l hm
      split at hm
      · next u =>
        have := hr' a ha
        simp only [isDest] at this ⊢
        by_cases e : r = d
        · subst e
          simp [u] at this ⊢
          exact this
        · simp [e]
      · exact hr' l hm

/-- The frame of an instruction that writes registers alone. -/
theorem gave_finished (d : Reg) (ls : List Nat) (g : Nat → Val)
    (hl : ls = if isUni d = true then [(curIx i h s).low] else (curIx i h s).exe) (hx : (curIx i h s).exe ≠ []) :
    Gave i h s (finished i h s (updWarp (began i h s) s.cur (fun x => writeRegs x d ls g))) id d g :=
  gave_of id rfl d ls g (writeRegs (warpOf (began i h s) s.cur) d ls g) hl hx
    (specials_trans specials_began (specials_writeRegs ..)) (fun _ => laneOf_writeRegs ..)
    (fun m => by rw [writeRegs_eq]; exact maskReg_began m) (fun _ _ => rfl)

/-- The frame of an instruction whose effect is a new warp X with the same registers and masks. -/
theorem became_of (k : Warp → Warp) (hk : (k (warpOf s s.cur)).core = (warpOf s s.cur).core) (f : Nat → Lane → Lane) (X : Warp)
    (hs : SameSpecials (k (warpOf s s.cur)) X)
    (hn : ∀ l, laneOf X l = f l (laneOf (warpOf (began i h s) s.cur) l))
    (hm : ∀ m, maskReg X m = maskReg (warpOf s s.cur) m) (hr : ∀ r l, readReg X r l = readReg (warpOf s s.cur) r l) :
    Became i h s (finished i h s (updWarp (began i h s) s.cur (fun _ => X))) k f := by
  have q := @warp_finished i h s (fun _ => X)
  generalize ht : finished i h s (updWarp (began i h s) s.cur (fun _ => X)) = t at *
  have hb : SameBeside i h s t := by rw [← ht]; exact sameBeside_finished _ ((specials_core hs).trans hk)
  refine ⟨hb, specials_trans (specials_markLate hs) (specials_runEnded q), fun l => ?_, fun m => ?_, fun r k => ?_⟩
  · have w := q.lanes l
    rw [laneOf_markLate, hn, laneOf_began] at w
    exact w
  · rw [runEnded_mask q, maskReg_markLate]
    exact hm m
  · rw [runEnded_read q, readReg_markLate]
    exact hr r k

/-- The frame of an instruction whose effect is a new warp X that differs in one mask. -/
theorem masked_of (m : MaskNo) (bit : Nat → Bool) (X : Warp)
    (hs : SameSpecials (warpOf s s.cur) X)
    (hn : (∀ l, isWaiting (laneOf (warpOf s s.cur) l) = false) → ∀ l, laneOf X l = laneOf (warpOf (began i h s) s.cur) l)
    (hb : ∀ k, k < 64 → maskBit X m.val k = (bit k && decide (k ∈ aliveLanes (warpOf s s.cur))))
    (hm : ∀ n, n ≠ m.val → maskReg X n = maskReg (warpOf s s.cur) n)
    (hr : ∀ r l, readReg X r l = readReg (warpOf s s.cur) r l) :
    Masked i h s (finished i h s (updWarp (began i h s) s.cur (fun _ => X))) m bit := by
  have q := @warp_finished i h s (fun _ => X)
  generalize ht : finished i h s (updWarp (began i h s) s.cur (fun _ => X)) = t at *
  have hb' : SameBeside i h s t := by rw [← ht]; exact sameBeside_finished _ (specials_core hs)
  refine ⟨hb', specials_trans (specials_markLate hs) (specials_runEnded q), fun hw l => ?_, fun k hk => ?_, fun n hn' => ?_, fun r k => ?_⟩
  · have w := q.lanes l
    rw [laneOf_markLate, hn hw, laneOf_began] at w
    exact w
  · rw [maskBit, runEnded_mask q, maskReg_markLate]
    exact hb k hk
  · rw [runEnded_mask q, maskReg_markLate]
    exact hm n hn'
  · rw [runEnded_read q, readReg_markLate]
    exact hr r k

/-! ## JOINs are only re-evaluated among waiting lanes (R151) -/

theorem rejoin_of_none {x : Warp} (hw : ∀ l, isWaiting (laneOf x l) = false) : rejoin x = x := by
  have e : joinsOf x = [] := by
    unfold joinsOf
    rw [List.filterMap_eq_nil_iff.mpr]
    · rfl
    · intro l _
      have := hw l
      unfold isWaiting at this
      split <;> simp_all
  unfold rejoin
  rw [e]
  rfl

theorem passJoin_eq (x : Warp) (j : Word) (ls : List Nat) : passJoin x j ls = { x with lanes := (passJoin x j ls).lanes } :=
  updLanes_eq ..

theorem rejoinAt_eq (x : Warp) (jm : Word × MaskNo) : rejoinAt x jm = { x with lanes := (rejoinAt x jm).lanes } := by
  unfold rejoinAt
  simp only []
  split
  · rw [passJoin_eq, passJoin_eq]
  · rw [passJoin_eq]

/-- Re-evaluating JOINs changes lanes alone. -/
theorem rejoin_eq (x : Warp) : rejoin x = { x with lanes := (rejoin x).lanes } := by
  unfold rejoin
  generalize joinsOf x = js
  induction js generalizing x with
  | nil => rfl
  | cons j r ih =>
    have a := ih (rejoinAt x j)
    rw [rejoinAt_eq x j] at a
    rw [List.foldl_cons, rejoinAt_eq x j]
    exact a

theorem low_mem {ix : Ix} (hx : ix.exe ≠ []) : ix.low ∈ ix.exe := by
  unfold Ix.low
  cases e : ix.exe with
  | nil => exact absurd e hx
  | cons a r => simp

/-- A lane instruction with a register destination all of whose executing lanes have values completes. -/
theorem gives_laneOp (is : issues i h s = true) {d : Reg} {srcs : List Reg} {f : Nat → LOut} {g : Nat → Val}
    {body : Ix → State → Res} (he : exec i s = issued i h s body)
    (hb : body (curIx i h s) (began i h s) = laneOp (curIx i h s) (began i h s) (.reg d) srcs f)
    (hf : ∀ l ∈ (curIx i h s).exe, f l = .val (g l)) : Gives i h s d g := by
  have hx := (issues_iff.mp is).2.2.2.2.2.2.2
  have hm : ∀ l ∈ actLanes (curIx i h s) (.reg d) srcs, f l = .val (g l) := by
    intro l hl
    unfold actLanes at hl
    split at hl
    · rw [List.mem_singleton.mp hl]
      exact hf _ (low_mem hx)
    · exact hf l hl
  have e := laneOp_ok (s := began i h s) hm
  simp only [writeOuts_reg, curIx_w] at e
  refine ⟨finished i h s (updWarp (began i h s) s.cur
    (fun x => writeRegs x d (actLanes (curIx i h s) (.reg d) srcs) g)), ?_, ?_⟩
  · rw [he]
    exact issued_ok is (hb.trans e)
  · cases d with
    | nil =>
      have e1 : ∀ (x : Warp) (ls : List Nat), writeRegs x .nil ls g = x := by
        intro x ls
        unfold writeRegs
        induction ls with
        | nil => rfl
        | cons a r ih => rw [List.foldl_cons]; exact ih
      have := gave_finished (i := i) (h := h) (s := s) .nil (curIx i h s).exe g rfl hx
      simp only [e1] at this ⊢
      exact this
    | lane n => exact gave_finished _ _ g rfl hx
    | uni n => exact gave_finished _ _ g rfl hx

end Sys2Proof.Laws
end

