-- ==== Sys2Proof/Laws/Values.lean ====
section
/-! SUPPORT. Operands and tags: the operand a meaning reads is the one the statements name; which tags a pair of the standard
set, a float or a packed value can have. -/

namespace Sys2Proof.Laws

open Sys2Proof Sys2Proof.Machine

/-- The operand that a lane instruction reads in the state of its effect is the operand before it. -/
@[simp] theorem opVal_began (i : Instr) (h : Hdr) (s : State) (r : Reg) (c : BitVec 4) (l : Nat) :
    opVal (began i h s) (curIx i h s) r c l = opnd s r c l := by
  simp [opVal, opnd]

/-- The selector 0 changes nothing. -/
@[simp] theorem selVal_zero (v : Val) : selVal 0#4 v = v := by
  unfold selVal
  split <;> simp

/-- A scalar passes its selector unchanged. -/
theorem selVal_scalar (c : BitVec 4) {v : Val} (h : isPacked v.tag = false) : selVal c v = v := by
  unfold isPacked at h
  unfold selVal
  split
  · rfl
  · next e => rw [e] at h; cases h

@[simp] theorem opnd_zero (s : State) (r : Reg) (l : Nat) : opnd s r 0#4 l = readReg (warpOf s s.cur) r l := selVal_zero _

theorem firstPoison_none : ∀ {vs : List Val}, (∀ v ∈ vs, v.tag ≠ .poison) → firstPoison vs = none
  | [], _ => rfl
  | v :: r, h => by
    simp only [firstPoison, h v List.mem_cons_self, if_false]
    exact firstPoison_none (fun w hw => h w (List.mem_cons_of_mem _ hw))

/-- With no POISON operand the instruction's own result stands. -/
theorem orPoison_none {vs : List Val} {r : LOut} (h : ∀ v ∈ vs, v.tag ≠ .poison) : orPoison vs r = r := by
  rw [orPoison, firstPoison_none h]

theorem orPoisonTrap_none {vs : List Val} {r : LOut} (h : ∀ v ∈ vs, v.tag ≠ .poison) : orPoisonTrap vs r = r := by
  rw [orPoisonTrap, firstPoison_none h]

/-- The tags of a pair of the standard set are no POISON, and neither is their result. -/
theorem resTag_some {a b t : Tag} (h : resTag a b = some t) : a ≠ .poison ∧ b ≠ .poison ∧ t ≠ .poison := by
  revert h
  cases a <;> cases b <;> simp [resTag] <;> rintro rfl <;> simp

theorem tagFmt_some {a : Tag} (h : (tagFmt a).isSome = true) :
    a ≠ .poison ∧ a ≠ .int ∧ isPacked a = false ∧ resTag a a = some a := by
  revert h
  cases a <;> simp [tagFmt] <;> decide

theorem eltTag_facts (e : Elt) : eltTag e ≠ .poison ∧ resTag (eltTag e) (eltTag e) = none ∧ isPacked (eltTag e) = true := by
  cases e <;> decide

/-- The values that have an exact number: INT and the floats. -/
theorem valNum_isSome {v : Val} : (valNum v).isSome = true ↔ v.tag = .int ∨ (tagFmt v.tag).isSome = true := by
  unfold valNum
  split
  · next h => simp [h]
  · next h =>
    cases e : tagFmt v.tag <;> simp_all

theorem valNum_packed {v : Val} (e : Elt) (h : v.tag = eltTag e) : valNum v = none := by
  unfold valNum
  rw [h]
  cases e <;> rfl

end Sys2Proof.Laws
end

