-- ==== Sys2Proof/Laws/Masks.lean ====
section
/-! SUPPORT. What instructions that write masks come to (R102, R151, R168-R171). -/

namespace Sys2Proof.Laws

open Sys2Proof Sys2Proof.Machine

variable {i : Instr} {h : Hdr} {s : State}

@[simp] theorem aliveLanes_setMask (x : Warp) (m : Nat) (v : Word) : aliveLanes (setMask x m v) = aliveLanes x := rfl

theorem isAlive_lpc (y : Lane) (pc : Word) : isAlive { y with lpc := pc } = isAlive y := rfl

/-- The issue of an instruction changes no lane's activity. -/
@[simp] theorem aliveLanes_began : aliveLanes (warpOf (began i h s) s.cur) = aliveLanes (warpOf s s.cur) := by
  unfold aliveLanes lanesOf
  rw [began_width]
  congr 1
  funext l
  rw [laneOf_began]
  rfl

theorem isWaiting_began (l : Nat) : isWaiting (laneOf (warpOf (began i h s) s.cur) l) = isWaiting (laneOf (warpOf s s.cur) l) := by
  rw [laneOf_began]
  rfl

/-- Writing mask bits lane by lane. -/
def writeBits (x : Warp) (m : Nat) (ls : List Nat) (b : Nat → Bool) : Warp :=
  ls.foldl (fun x l => setMask x m (setBit (maskReg x m) l (b l))) x

theorem writeBits_eq (m : Nat) (b : Nat → Bool) (ls : List Nat) : ∀ x,
    writeBits x m ls b = { x with masks := (writeBits x m ls b).masks } := by
  unfold writeBits
  induction ls with
  | nil => intro x; rfl
  | cons l r ih =>
    intro x
    rw [List.foldl_cons]
    exact ih _

theorem maskReg_writeBits_ne (m n : Nat) (hn : n ≠ m) (b : Nat → Bool) (ls : List Nat) : ∀ x,
    maskReg (writeBits x m ls b) n = maskReg x n := by
  unfold writeBits
  induction ls with
  | nil => intro x; rfl
  | cons l r ih =>
    intro x
    rw [List.foldl_cons, ih, maskReg_setMask_ne _ _ _ hn]

theorem maskBit_setMask (x : Warp) (m : Nat) (v : Word) {k : Nat} (hk : k < 64) :
    maskBit (setMask x m v) m k = (bitAt v k && decide (k ∈ aliveLanes x)) := by
  rw [maskBit, maskReg_setMask_self, bitAt_and, bitAt_laneSet _ hk]

theorem maskBit_writeBits (m : Nat) (b : Nat → Bool) {k : Nat} (hk : k < 64) (ls : List Nat) : ∀ x, ls ≠ [] →
    maskBit (writeBits x m ls b) m k =
      ((if k ∈ ls then b k else maskBit x m k) && decide (k ∈ aliveLanes x)) := by
  unfold writeBits
  induction ls with
  | nil => intro x hx; exact absurd rfl hx
  | cons l r ih =>
    intro x _
    rw [List.foldl_cons]
    have e : maskBit (setMask x m (setBit (maskReg x m) l (b l))) m k =
        ((if k = l then b l else maskBit x m k) && decide (k ∈ aliveLanes x)) := by
      rw [maskBit_setMask _ _ _ hk, bitAt_setBit _ _ _ hk]
      rfl
    by_cases hr : r = []
    · subst hr
      rw [List.foldl_nil, e]
      by_cases g : k = l <;> simp [g]
    · rw [ih _ hr, e, aliveLanes_setMask]
      by_cases g : k ∈ r
      · simp [g]
      · by_cases q : k = l
        · subst q
          simp [g]
        · simp [g, q]

theorem givesAny_map (ls : List Nat) (g : Nat → Val) (h : ls ≠ []) :
    givesAny (ls.map (fun l => (l, LOut.val (g l)))) = true := by
  cases ls with
  | nil => exact absurd rfl h
  | cons l r => rfl

theorem writeOuts_mask (x : Warp) (m : MaskNo) (ls : List Nat) (g : Nat → Val) (h : ls ≠ []) :
    writeOuts x (.mask m) (ls.map (fun l => (l, LOut.val (g l)))) =
      rejoin (writeBits x m.val ls (fun l => decide ((g l).pay ≠ 0))) := by
  simp [writeOuts, writeBits, writeOut, List.foldl_map, givesAny_map ls g h]

theorem rejoin_regs (x : Warp) : (rejoin x).regs = x.regs := by rw [rejoin_eq]
theorem rejoin_uregs (x : Warp) : (rejoin x).uregs = x.uregs := by rw [rejoin_eq]
theorem rejoin_masks (x : Warp) : (rejoin x).masks = x.masks := by rw [rejoin_eq]

theorem maskReg_rejoin (x : Warp) (m : Nat) : maskReg (rejoin x) m = maskReg x m := by rw [maskReg, rejoin_masks]; rfl

/-- A warp whose masks alone differ from the one in which the instruction took effect, re-evaluated at its JOINs. -/
theorem masked_rejoin (m : MaskNo) (bit : Nat → Bool) (Y : Warp)
    (hY : Y = { warpOf (began i h s) s.cur with masks := Y.masks })
    (hb : ∀ k, k < 64 → maskBit Y m.val k = (bit k && decide (k ∈ aliveLanes (warpOf s s.cur))))
    (hm : ∀ n, n ≠ m.val → maskReg Y n = maskReg (warpOf s s.cur) n) :
    Masked i h s (finished i h s (updWarp (began i h s) s.cur (fun _ => rejoin Y))) m bit := by
  generalize Y.masks = ms at hY
  have hl : ∀ l, laneOf Y l = laneOf (warpOf (began i h s) s.cur) l := by
    intro l
    rw [hY]
    rfl
  refine masked_of m bit (rejoin Y) ?_ ?_ ?_ ?_ ?_
  · refine specials_trans (specials_began (i := i) (h := h)) ⟨?_⟩
    rw [rejoin_eq, hY]
  · intro hw l
    rw [rejoin_of_none, hl]
    intro j
    rw [hl, isWaiting_began]
    exact hw j
  · intro k hk
    rw [maskBit, maskReg_rejoin]
    exact hb k hk
  · intro n hn
    rw [maskReg_rejoin]
    exact hm n hn
  · intro r l
    have e1 : (rejoin Y).regs = (warpOf (began i h s) s.cur).regs := by rw [rejoin_regs, hY]
    have e2 : (rejoin Y).uregs = (warpOf (began i h s) s.cur).uregs := by rw [rejoin_uregs, hY]
    rw [readReg_congr e1 e2, readReg_began]

/-- A lane instruction with a mask destination all of whose executing lanes have values completes. -/
theorem marks_laneOp (is : issues i h s = true) {m : MaskNo} {srcs : List Reg} {f : Nat → LOut} {g : Nat → Val}
    {body : Ix → State → Res} (he : exec i s = issued i h s body)
    (hb : body (curIx i h s) (began i h s) = laneOp (curIx i h s) (began i h s) (.mask m) srcs f)
    (hf : ∀ l ∈ (curIx i h s).exe, f l = .val (g l)) :
    Marks i h s m (fun k => if k ∈ (curIx i h s).exe then decide ((g k).pay ≠ 0) else maskBit (warpOf s s.cur) m.val k) := by
  have hx := (issues_iff.mp is).2.2.2.2.2.2.2
  have ea : actLanes (curIx i h s) (.mask m) srcs = (curIx i h s).exe := by simp [actLanes, actsOnce]
  have e := laneOp_ok (s := began i h s) (d := .mask m) (srcs := srcs) (f := f) (g := g) (by rw [ea]; exact hf)
  rw [ea] at e
  simp only [writeOuts_mask _ _ _ _ hx, curIx_w] at e
  refine ⟨_, he.trans (issued_ok is (hb.trans e)), ?_⟩
  refine masked_rejoin m _ (writeBits (warpOf (began i h s) s.cur) m.val (curIx i h s).exe (fun l => decide ((g l).pay ≠ 0)))
    (writeBits_eq ..) ?_ ?_
  · intro k hk
    rw [maskBit_writeBits _ _ hk _ _ hx]
    simp [maskBit]
  · intro n hn
    rw [maskReg_writeBits_ne _ _ hn]
    exact maskReg_began n

/-- An instruction whose effect is to write one whole mask completes. -/
theorem marks_writeMask (is : issues i h s = true) {m : MaskNo} {v : Word} {body : Ix → State → Res}
    (he : exec i s = issued i h s body)
    (hb : body (curIx i h s) (began i h s) = .ok (writeMask (began i h s) s.cur m v)) :
    Marks i h s m (fun k => bitAt v k) := by
  refine ⟨_, he.trans (issued_ok is hb), ?_⟩
  refine masked_rejoin m _ (setMask (warpOf (began i h s) s.cur) m.val v) rfl ?_ ?_
  · intro k hk
    rw [maskBit_setMask _ _ _ hk]
    simp
  · intro n hn
    rw [maskReg_setMask_ne _ _ _ hn]
    exact maskReg_began n

/-- Two descriptions of the bits below 64 say the same. -/
theorem Marks_congr {m : MaskNo} {a b : Nat → Bool} (e : ∀ k, k < 64 → a k = b k) (q : Marks i h s m a) : Marks i h s m b := by
  obtain ⟨t, h1, h2⟩ := q
  exact ⟨t, h1, { h2 with mask := fun k hk => by rw [← e k hk]; exact h2.mask k hk }⟩

end Sys2Proof.Laws
end

