-- ==== Sys2Proof/Laws/Control.lean ====
section
/-! SUPPORT. What instructions that change the lanes' own state and the warp's specials come to (R140, R164-R167, R180-R183),
the lanes at an address, and taking a trap (R157). -/

namespace Sys2Proof.Laws

open Sys2Proof Sys2Proof.Machine

variable {i : Instr} {h : Hdr} {s : State}

/-! ## The lanes at an address -/

theorem nodup_lanesOf (x : Warp) : (lanesOf x).Nodup := List.nodup_range

theorem sublist_readyLanes (x : Warp) : (readyLanes x).Sublist (lanesOf x) := List.filter_sublist

theorem sublist_runLanes (x : Warp) : (runLanes x).Sublist (readyLanes x) := by
  have a : (candLanes x).Sublist (readyLanes x) := List.filter_sublist
  unfold runLanes
  split
  · exact a
  · simp only []
    split
    · exact a
    · exact List.filter_sublist.trans a

theorem sublist_lanesAt (x : Warp) (pc : Word) : (lanesAt x pc).Sublist (readyLanes x) :=
  List.filter_sublist.trans (sublist_runLanes x)

theorem sublist_exeLanes (x : Warp) (h : Hdr) (g : List Nat) : (exeLanes x h g).Sublist g := by
  unfold exeLanes
  split
  · exact List.Sublist.refl _
  · exact List.filter_sublist

/-- The executing lanes are lanes of the warp at the instruction's address. -/
theorem sublist_exe : (curIx i h s).exe.Sublist (curIx i h s).grp := sublist_exeLanes ..

theorem nodup_exe : (curIx i h s).exe.Nodup :=
  ((sublist_exe.trans (sublist_lanesAt _ _)).trans (sublist_readyLanes _)).nodup (nodup_lanesOf (warpOf s s.cur))

theorem mem_grp {l : Nat} (hl : l ∈ (curIx i h s).grp) :
    l < (warpOf s s.cur).width ∧ (laneOf (warpOf s s.cur) l).act = .ready ∧
      (laneOf (warpOf s s.cur) l).lpc = (curIx i h s).pc := by
  have a := (sublist_lanesAt _ _).subset hl
  have b := (List.mem_filter.mp hl).2
  simp only [readyLanes, List.mem_filter, lanesOf, List.mem_range, isReady, decide_eq_true_eq] at a
  exact ⟨a.1, a.2, of_decide_eq_true b⟩

theorem mem_exe {l : Nat} (hl : l ∈ (curIx i h s).exe) :
    l < (warpOf s s.cur).width ∧ (laneOf (warpOf s s.cur) l).act = .ready ∧
      (laneOf (warpOf s s.cur) l).lpc = (curIx i h s).pc := mem_grp (sublist_exe.subset hl)

theorem exe_alive {l : Nat} (hl : l ∈ (curIx i h s).exe) : l ∈ aliveLanes (warpOf s s.cur) := by
  obtain ⟨a, b, _⟩ := mem_exe hl
  simp [aliveLanes, lanesOf, a, isAlive, isReady, b]

/-! ## Effects on lanes and specials -/

/-- An instruction whose effect is a new warp with the same registers and masks completes. -/
theorem turns_ok (is : issues i h s = true) {X : Warp} {body : Ix → State → Res} (he : exec i s = issued i h s body)
    (hb : body (curIx i h s) (began i h s) = .ok (setWarp (began i h s) s.cur X)) (g : Warp → Warp) (f : Nat → Lane → Lane)
    (hs : SameSpecials (g (warpOf s s.cur)) X) (hn : ∀ l, laneOf X l = f l (laneOf (warpOf (began i h s) s.cur) l))
    (hm : ∀ m, maskReg X m = maskReg (warpOf s s.cur) m) (hr : ∀ r l, readReg X r l = readReg (warpOf s s.cur) r l)
    (hk : (g (warpOf s s.cur)).core = (warpOf s s.cur).core) : Turns i h s g f :=
  ⟨_, he.trans (issued_ok is hb), became_of g hk f X hs hn hm hr⟩

/-- An instruction whose effect is on some lanes' own state alone completes. -/
theorem turns_updLanes (is : issues i h s = true) {ls : List Nat} {f : Nat → Lane → Lane} {body : Ix → State → Res}
    (he : exec i s = issued i h s body) (nd : ls.Nodup)
    (hb : body (curIx i h s) (began i h s) =
      .ok (setWarp (began i h s) s.cur (updLanes (warpOf (began i h s) s.cur) ls f))) :
    Turns i h s id (fun l y => if l ∈ ls then f l y else y) := by
  refine turns_ok is he hb _ _ ?_ ?_ ?_ ?_ rfl
  · exact specials_trans specials_began (specials_updLanes ..)
  · intro l
    rw [laneOf_updLanes _ _ _ nd]
  · intro m
    simp
  · intro r l
    simp

/-- An instruction whose effect is on special registers alone completes. -/
theorem turns_specials (is : issues i h s = true) (g : Warp → Warp) {body : Ix → State → Res}
    (he : exec i s = issued i h s body)
    (hb : body (curIx i h s) (began i h s) = .ok (updWarp (began i h s) s.cur g))
    (hg : ∀ x y, SameSpecials x y → SameSpecials (g x) (g y))
    (hl : ∀ x l, laneOf (g x) l = laneOf x l) (hm : ∀ x m, maskReg (g x) m = maskReg x m)
    (hr : ∀ x r l, readReg (g x) r l = readReg x r l) (hk : ∀ x, (g x).core = x.core) :
    Turns i h s g (fun _ y => y) := by
  refine turns_ok is he (X := g (warpOf (began i h s) s.cur)) hb _ _ (hg _ _ specials_began) ?_ ?_ ?_ (hk _)
  · intro l
    rw [hl]
  · intro m
    rw [hm, maskReg_began]
  · intro r l
    rw [hr, readReg_began]

theorem Turns_congr {g g' : Warp → Warp} {f f' : Nat → Lane → Lane}
    (eg : g (warpOf s s.cur) = g' (warpOf s s.cur)) (ef : ∀ l, f l (advanced i h s l) = f' l (advanced i h s l))
    (q : Turns i h s g f) : Turns i h s g' f' := by
  obtain ⟨t, h1, h2⟩ := q
  refine ⟨t, h1, ⟨h2.beside, by rw [← eg]; exact h2.specials, fun l => ?_, h2.masks, h2.regs⟩⟩
  rw [← ef]
  exact h2.lanes l

/-! ## Transfers -/

theorem condHolds_began (c : Cond) (l : Nat) : condHolds (warpOf (began i h s) s.cur) c l = condHolds (warpOf s s.cur) c l := by
  cases c <;> simp [condHolds, maskBit]

theorem condFaults_none {x : Warp} {ix : Ix} {c : Cond}
    (hc : ∀ l ∈ ix.exe, ∀ r, condReg c = some r → (readReg x r l).tag ≠ .poison) : condFaults x ix c = [] := by
  unfold condFaults
  split
  · rfl
  · next r e =>
    rw [List.filterMap_eq_nil_iff]
    intro l hl
    simp [hc l hl r e]

/-- The lanes in which a transfer acts, when no executing lane's condition is POISON. -/
theorem takenLanes_began {c : Cond}
    (hc : ∀ l ∈ (curIx i h s).exe, ∀ r, condReg c = some r → (readReg (warpOf s s.cur) r l).tag ≠ .poison) :
    condFaults (warpOf (began i h s) s.cur) (curIx i h s) c = [] ∧
    takenLanes (warpOf (began i h s) s.cur) (curIx i h s) c =
      (curIx i h s).exe.filter (fun l => condHolds (warpOf s s.cur) c l) := by
  have e : condFaults (warpOf (began i h s) s.cur) (curIx i h s) c = [] :=
    condFaults_none (fun l hl r hr => by rw [readReg_began]; exact hc l hl r hr)
  refine ⟨e, ?_⟩
  unfold takenLanes
  simp [e, condHolds_began]

/-- A transfer none of whose lanes has a cause acts in the lanes where its condition holds. -/
theorem turns_transfer (is : issues i h s = true) {c : Cond} {cause : Lane → Option Cause} {at_ : Lane → Word}
    {f : Lane → Lane} {body : Ix → State → Res} (he : exec i s = issued i h s body)
    (hb : body (curIx i h s) (began i h s) = transfer c (curIx i h s) (began i h s) cause at_ f)
    (hc : ∀ l ∈ (curIx i h s).exe, ∀ r, condReg c = some r → (readReg (warpOf s s.cur) r l).tag ≠ .poison)
    (hk : ∀ l ∈ (curIx i h s).exe, condHolds (warpOf s s.cur) c l = true →
      cause (laneOf (warpOf (began i h s) s.cur) l) = none) :
    Turns i h s id (fun l y => if l ∈ (curIx i h s).exe ∧ condHolds (warpOf s s.cur) c l = true then f y else y) := by
  obtain ⟨e1, e2⟩ := takenLanes_began hc
  have e3 : transfer c (curIx i h s) (began i h s) cause at_ f = .ok (setWarp (began i h s) s.cur
      (updLanes (warpOf (began i h s) s.cur)
        ((curIx i h s).exe.filter (fun l => condHolds (warpOf s s.cur) c l)) (fun _ y => f y))) := by
    unfold transfer
    simp only [curIx_w, e1, e2, List.nil_append]
    rw [if_neg]
    simp only [ne_eq, not_not, List.filterMap_eq_nil_iff, List.mem_filter]
    rintro l ⟨hl, hh⟩
    rw [hk l hl hh]
    rfl
  refine Turns_congr rfl ?_ (turns_updLanes is he (nodup_exe.filter _) (hb.trans e3))
  intro l
  simp [List.mem_filter]

/-! ## Traps -/

theorem trapped_eq (fs : List LFault) (n : Nat) (p : List Nat) :
    trapped i h s fs n p =
      takeTrap (closeRun s s.cur (runFor s s.cur).more) (curIx i h s) fs n p := rfl

/-- The first of equal causes in ascending lanes is reported. -/
theorem topFault_same {ls : List Nat} (mk : Nat → LFault) (hl : ∀ l, (mk l).lane = l) {c : Cause} (hc : ∀ l, (mk l).cause = c)
    (hs : ls.Pairwise (· < ·)) (hx : ls ≠ []) : topFault (ls.map mk) = some (mk ((ls.head?).getD 0)) := by
  cases ls with
  | nil => exact absurd rfl hx
  | cons a r =>
    have : ∀ (r : List Nat), (∀ b ∈ r, a < b) → (r.map mk).foldl (fun b f =>
        match b with
        | none => some f
        | some g =>
          if causePrio f.cause < causePrio g.cause ∨ (causePrio f.cause = causePrio g.cause ∧ f.lane < g.lane) then some f
          else some g) (some (mk a)) = some (mk a) := by
      intro r hr
      induction r with
      | nil => rfl
      | cons b q ih =>
        have hb := hr b List.mem_cons_self
        rw [List.map_cons, List.foldl_cons]
        simp only [hc, hl]
        rw [if_neg (by omega)]
        exact ih (fun c hc => hr c (List.mem_cons_of_mem _ hc))
    rw [topFault, List.map_cons, List.foldl_cons]
    exact this r (fun b hb => (List.pairwise_cons.mp hs).1 b hb)

theorem sorted_exe : (curIx i h s).exe.Pairwise (· < ·) :=
  List.Pairwise.sublist ((sublist_exe.trans (sublist_lanesAt _ _)).trans (sublist_readyLanes _)) List.pairwise_lt_range

end Sys2Proof.Laws
end

