-- ==== Sys2Proof/Laws/Memory.lean ====
section
/-! SUPPORT. Every operation over memory keeps its canonical form, and memory after reset has it. -/

namespace Sys2Proof.Laws

open Sys2Proof Sys2Proof.Machine

/-- Memory after reset is canonical. -/
theorem reset_wf : Memory.wf State.reset.mem := by decide

/-- A fold of operations that keep the form keeps it. -/
theorem foldl_wf {β : Type} (f : State → β → State)
    (hf : ∀ s b, Memory.wf s.mem → Memory.wf (f s b).mem) (l : List β) :
    ∀ s : State, Memory.wf s.mem → Memory.wf (l.foldl f s).mem := by
  induction l with
  | nil => intro s w; exact w
  | cons b r ih => intro s w; exact ih _ (hf s b w)

/-! ## Bytes and words -/

theorem setMemByte_wf (s : State) (a : Nat) (b : Byte) (w : Memory.wf s.mem) :
    Memory.wf (setMemByte s a b).mem := spWf_spSet _ _ _ _ w

theorem rawWrite_mem (s : State) (k : Nat) (data : Word) (mask : BitVec 8) (t : Option Tag) (bad : Bool) :
    (rawWrite s k data mask t bad).mem = ((List.range 8).foldl
      (fun s i => if mask.getLsbD i then setMemByte s (k * 8 + i) (byteAt data i) else s) s).mem := by
  unfold rawWrite
  cases t with
  | none => rfl
  | some t => simp only []; split <;> rfl

theorem rawWrite_wf (s : State) (k : Nat) (data : Word) (mask : BitVec 8) (t : Option Tag) (bad : Bool)
    (w : Memory.wf s.mem) : Memory.wf (rawWrite s k data mask t bad).mem := by
  rw [rawWrite_mem]
  refine foldl_wf _ (fun s i w => ?_) _ s w
  split
  · exact setMemByte_wf s _ _ w
  · exact w

/-! ## The L2 slices -/

theorem l2Clean_wf (s : State) (k : Nat) (w : Memory.wf s.mem) : Memory.wf (l2Clean s k).mem := by
  unfold l2Clean
  simp only []
  split
  · exact w
  · rw [setL2_mem]; exact rawWrite_wf s _ _ _ _ _ w

theorem l2Evict_wf (s : State) (line : Nat) (w : Memory.wf s.mem) : Memory.wf (l2Evict s line).mem := by
  refine foldl_wf _ (fun s k w => ?_) _ s w
  split
  · exact w
  · exact l2Clean_wf s k w

theorem l2Touch_wf (s : State) (line : Nat) (w : Memory.wf s.mem) : Memory.wf (l2Touch s line).mem := by
  unfold l2Touch
  simp only []
  split
  · exact l2Evict_wf s _ w
  · exact w

theorem l2Fill_mem (s : State) (k : Nat) : (l2Fill s k).mem = s.mem := by
  unfold l2Fill
  simp only []
  split
  · rfl
  · rw [setL2_mem]

theorem homeRead_wf (s : State) (k : Nat) (w : Memory.wf s.mem) : Memory.wf (homeRead s k).1.mem := by
  unfold homeRead
  split
  · simp only []
    have h := l2Touch_wf s (k / 32) w
    split
    · exact h
    · exact foldl_wf _ (fun s j w => by rw [l2Fill_mem]; exact w) _ _ h
  · exact w

theorem clearResv_mem (s : State) (k : Nat) (own : Option Nat) : (clearResv s k own).mem = s.mem := by
  unfold clearResv
  simp only []
  split <;> rfl

theorem homeWrite_wf (s : State) (k : Nat) (data : Word) (mask : BitVec 8) (t : Option Tag) (bad : Bool)
    (own : Option Nat) (w : Memory.wf s.mem) : Memory.wf (homeWrite s k data mask t bad own).mem := by
  unfold homeWrite
  split
  · exact w
  · simp only []
    have h : Memory.wf (clearResv s k own).mem := by rw [clearResv_mem]; exact w
    split
    · have g := l2Touch_wf _ (k / 32) h
      split
      · rw [setL2_mem, l2Fill_mem]; exact g
      · rw [setL2_mem]; exact g
    · exact rawWrite_wf _ _ _ _ _ _ h

/-! ## The L1s -/

theorem updCore_mem (s : State) (c : Nat) (f : Core → Core) : (updCore s c f).mem = s.mem := rfl

theorem setL1_mem (s : State) (c k : Nat) (x : CWord) : (setL1 s c k x).mem = s.mem := rfl

theorem tellSvc_mem (s : State) (p : Nat) (e : Report) : (tellSvc s p e).mem = s.mem := rfl

theorem tellRefused_mem (s : State) (p pa : Nat) : (tellRefused s p pa).mem = s.mem := by
  unfold tellRefused
  simp only []
  split
  · split <;> rfl
  · rfl

theorem tellDropped_mem (s : State) (p pa : Nat) : (tellDropped s p pa).mem = s.mem := tellRefused_mem ..

theorem wf_ite {p : Prop} [Decidable p] {a b : State} (ha : Memory.wf a.mem) (hb : Memory.wf b.mem) :
    Memory.wf (if p then a else b).mem := by
  split <;> assumption

theorem l1Clean_wf (s : State) (c k : Nat) (w : Memory.wf s.mem) : Memory.wf (l1Clean s c k).mem := by
  unfold l1Clean
  simp only []
  split
  · exact w
  · split
    · exact wf_ite (homeWrite_wf _ _ _ _ _ _ _ w) (homeWrite_wf _ _ _ _ _ _ _ w)
    · rw [tellDropped_mem]; exact w

theorem l1CleanAll_wf (s : State) (c : Nat) (w : Memory.wf s.mem) : Memory.wf (l1CleanAll s c).mem :=
  foldl_wf _ (fun s k w => l1Clean_wf s c k w) _ s w

theorem l1DropClean_mem (s : State) (c k : Nat) : (l1DropClean s c k).mem = s.mem := rfl

theorem l1Invalidate_wf (s : State) (c : Nat) (w : Memory.wf s.mem) : Memory.wf (l1Invalidate s c).mem :=
  foldl_wf (fun s k => l1DropClean s c k) (fun s k w => by rw [l1DropClean_mem]; exact w) _ s w

theorem l1Evict_wf (s : State) (c line : Nat) (w : Memory.wf s.mem) : Memory.wf (l1Evict s c line).mem := by
  refine foldl_wf _ (fun s k w => ?_) _ s w
  split
  · exact w
  · exact l1Clean_wf s c k w

theorem l1Room_wf (s : State) (c line : Nat) (w : Memory.wf s.mem) : Memory.wf (l1Room s c line).mem := by
  unfold l1Room
  simp only []
  split
  · exact w
  · split
    · exact l1Evict_wf _ _ _ w
    · exact w

theorem l1FillWord_wf (s : State) (c k : Nat) (w : Memory.wf s.mem) : Memory.wf (l1FillWord s c k).mem := by
  unfold l1FillWord
  simp only []
  split
  · exact w
  · rw [setL1_mem]; exact homeRead_wf s k w

theorem l1Read_wf (s : State) (c p k : Nat) (mask : BitVec 8) (t : Bool) (w : Memory.wf s.mem) :
    Memory.wf (l1Read s c p k mask t).1.mem := by
  unfold l1Read
  simp only []
  split
  · exact w
  · split
    · have h := foldl_wf _ (fun s k w => l1FillWord_wf s c k w) (sectorWords k) _ (l1Room_wf s c (k / 32) w)
      split
      · rw [setL1_mem]; exact h
      · exact h
    · rw [tellRefused_mem]; exact w

theorem l1Write_wf (s : State) (c k : Nat) (data : Word) (mask : BitVec 8) (t : Option Tag) (w : Memory.wf s.mem) :
    Memory.wf (l1Write s c k data mask t).mem := l1Room_wf s c (k / 32) w

/-! ## Releases and acquires -/

theorem l2CleanSystem_wf (s : State) (w : Memory.wf s.mem) :
    Memory.wf (l2CleanSystem s).mem := by
  refine foldl_wf _ (fun s k w => ?_) _ s w
  split
  · exact l2Clean_wf s k w
  · exact l2Clean_wf s k w
  · exact w

theorem l2DropSystem_wf (s : State) (w : Memory.wf s.mem) :
    Memory.wf (l2DropSystem s).mem := by
  refine foldl_wf _ (fun s k w => ?_) _ s w
  simp only []
  split
  · split <;> exact w
  · split <;> exact w
  · exact w

theorem release_wf (s : State) (c : Nat) (sc : Scope) (w : Memory.wf s.mem) : Memory.wf (release s c sc).mem := by
  unfold release
  have h : Memory.wf (if 2 ≤ scopeNum sc then l1CleanAll s c else s).mem := by
    split
    · exact l1CleanAll_wf s c w
    · exact w
  simp only []
  split
  · exact l2CleanSystem_wf _ h
  · exact h

theorem dropRemote_wf (s : State) (chip : Nat) (w : Memory.wf s.mem) : Memory.wf (dropRemote s chip).mem := by
  refine foldl_wf _ (fun s c w => ?_) _ s w
  split
  · refine foldl_wf _ (fun s k w => ?_) _ s w
    split <;> exact w
  · exact w

theorem acquire_wf (s : State) (c : Nat) (sc : Scope) (w : Memory.wf s.mem) : Memory.wf (acquire s c sc).mem := by
  unfold acquire
  have h : Memory.wf (if 2 ≤ scopeNum sc then dropStaleHeaders (l1Invalidate s c) c else s).mem := by
    split
    · exact l1Invalidate_wf s c w
    · exact w
  have g : ∀ s : State, Memory.wf s.mem →
      Memory.wf (if 5 ≤ scopeNum sc then dropRemote s (coreChip c) else s).mem := by
    intro s w
    split
    · exact dropRemote_wf s _ w
    · exact w
  simp only []
  split
  · exact l2DropSystem_wf _ (g _ h)
  · exact g _ h

theorem promote_wf (s : State) (c : Nat) (sc : Scope) (w : Memory.wf s.mem) : Memory.wf (promote s c sc).mem :=
  release_wf s c _ w

theorem releaserNote_wf (s : State) (c line : Nat) (w : Memory.wf s.mem) :
    Memory.wf (releaserNote s c line).mem := by
  unfold releaserNote
  simp only []
  split
  · exact promote_wf s _ _ w
  · exact w

theorem racqAt_wf (s : State) (c line : Nat) (sc : Scope) (w : Memory.wf s.mem) :
    Memory.wf (racqAt s c line sc).mem := by
  unfold racqAt
  simp only []
  split
  · exact promote_wf s _ _ w
  · exact w

theorem fenceRacq_wf (s : State) (c : Nat) (sc : Scope) (w : Memory.wf s.mem) :
    Memory.wf (fenceRacq s c sc).mem := by
  refine foldl_wf _ (fun s d w => ?_) _ s w
  split
  · exact l1CleanAll_wf s d w
  · exact w

end Sys2Proof.Laws
end

