-- ==== Sys2Proof/Laws/PerInstr.lean ====
section
/-! SUPPORT. Decoding the words of an instruction gives it back: one lemma for each constructor. -/

/-- The words of a well-formed instruction decode to it; a second word is the literal of R42. -/
def Sys2Proof.Laws.RoundTrip.Statement (i : Sys2Proof.Instr) : Prop :=
  Sys2Proof.WellFormed i → ∃ w ws, Sys2Proof.encode i = some (w :: ws) ∧ ws.length ≤ 1 ∧
    (Sys2Proof.hasLiteral w = true ↔ ws.length = 1) ∧ Sys2Proof.decodeWords w (ws.headD 0) = .ok i

namespace Sys2Proof.Laws.RT

open Sys2Proof Sys2Proof.Machine Sys2Proof.Laws.RoundTrip

/-! ## Codes -/

@[simp] theorem tagOf_code (x : Tag) : tagOf (tagCode x) = some x := by cases x <;> rfl
@[simp] theorem tagCode_lt (x : Tag) : tagCode x < 16 := by cases x <;> decide
@[simp] theorem eltOf_code (x : Elt) : eltOf (eltCode x) = some x := by cases x <;> rfl
@[simp] theorem eltCode_lt (x : Elt) : eltCode x < 16 := by cases x <;> decide
@[simp] theorem rndOf_code (x : Rnd) : rndOf (rndCode x) = some x := by cases x <;> rfl
@[simp] theorem rndCode_lt (x : Rnd) : rndCode x < 8 := by cases x <;> decide
@[simp] theorem ccOf_code (x : Cc) : ccOf (ccCode x) = some x := by cases x <;> rfl
@[simp] theorem ccCode_lt (x : Cc) : ccCode x < 8 := by cases x <;> decide
@[simp] theorem cvtOf_code (x : CvtTgt) : cvtOf (cvtCode x) = some x := by cases x <;> rfl
@[simp] theorem cvtCode_lt (x : CvtTgt) : cvtCode x < 16 := by cases x <;> decide
@[simp] theorem mfmtOf_code (x : MFmt) : mfmtOf (mfmtCode x) = some x := by cases x <;> rfl
@[simp] theorem mfmtCode_lt (x : MFmt) : mfmtCode x < 16 := by cases x <;> decide
@[simp] theorem tfmtOf_code (x : TFmt) : tfmtOf (tfmtCode x) = some x := by cases x <;> rfl
theorem tfmtCode_lt (x : TFmt) : tfmtCode x < 16 := by cases x <;> decide
@[simp] theorem scopeOf_code (x : Scope) : scopeOf (scopeCode x) = some x := by cases x <;> rfl
@[simp] theorem scopeCode_lt (x : Scope) : scopeCode x < 8 := by cases x <;> decide
@[simp] theorem ordOf_code (x : Ord4) : ordOf (ordCode x) = some x := by cases x <;> rfl
@[simp] theorem ordCode_lt (x : Ord4) : ordCode x < 4 := by cases x <;> decide
@[simp] theorem swzOf_code (x : Swz) : swzOf (swzCode x) = some x := by cases x <;> rfl
theorem swzCode_lt (x : Swz) : swzCode x < 4 := by cases x <;> decide
@[simp] theorem swzCode_lt8 (x : Swz) : swzCode x < 8 := by cases x <;> decide
@[simp] theorem sparOf_code (x : Sparsity) : sparOf (sparCode x) = some x := by cases x <;> rfl
theorem sparCode_lt (x : Sparsity) : sparCode x < 4 := by cases x <;> decide
@[simp] theorem aopOf_code (x : AOp) : aopOf (aopCode x) = some x := by cases x <;> rfl
theorem aopCode_lt (x : AOp) : aopCode x < 16 := by cases x <;> decide
@[simp] theorem msetOf_code (x : MsetKind) : msetOf (msetCode x) = some x := by cases x <;> rfl
@[simp] theorem msetCode_lt (x : MsetKind) : msetCode x < 16 := by cases x <;> decide
@[simp] theorem mopsOf_code (x : MopsOp) : mopsOf (mopsCode x) = some x := by cases x <;> rfl
@[simp] theorem mopsCode_lt (x : MopsOp) : mopsCode x < 16 := by cases x <;> decide
@[simp] theorem voteOf_code (x : VoteOp) : voteOf (voteCode x) = some x := by cases x <;> rfl
@[simp] theorem voteCode_lt (x : VoteOp) : voteCode x < 16 := by cases x <;> decide
@[simp] theorem redOf_code (x : RedOp) : redOf (redCode x) = some x := by cases x <;> rfl
@[simp] theorem redCode_lt (x : RedOp) : redCode x < 16 := by cases x <;> decide
@[simp] theorem sigOf_code (x : SigOp) : sigOf (sigCode x) = some x := by cases x <;> rfl
theorem sigCode_lt (x : SigOp) : sigCode x < 16 := by cases x <;> decide
@[simp] theorem cpyOf_code (x : CpyMode) : cpyOf (cpyCode x) = some x := by cases x <;> rfl
theorem cpyCode_lt (x : CpyMode) : cpyCode x < 8 := by cases x <;> decide
@[simp] theorem wspecOf_code (x : WSpec) : wspecOf (wspecCode x) = some x := by cases x <;> rfl
@[simp] theorem wspecCode_lt (x : WSpec) : wspecCode x < 65536 := by cases x <;> decide
@[simp] theorem flagOf_code (b : Bool) : flagOf (flagCode b) = some b := by cases b <;> rfl
@[simp] theorem flagCode_le (b : Bool) : flagCode b ≤ 1 := by cases b <;> decide
theorem flagCode_lt (b : Bool) : flagCode b < 2 := by cases b <;> decide
@[simp] theorem flagCode_lt8 (b : Bool) : flagCode b < 8 := by cases b <;> decide
@[simp] theorem maskOf_val (m : MaskNo) : maskOf m.val = some m := by simp [maskOf, m.isLt]
@[simp] theorem maskOf_coe (m : MaskNo) : maskOf ↑m = some m := maskOf_val m
@[simp] theorem maskNo_lt (m : MaskNo) : m.val < 256 := by omega

@[simp] theorem lspecCode_lt (x : LSpec) : lspecCode x < 256 := by
  cases x with
  | stk n => have := n.isLt; simp only [lspecCode]; omega
  | _ => decide

@[simp] theorem lspecOf_code (x : LSpec) : lspecOf (lspecCode x) = some x := by
  cases x with
  | stk n => revert n; decide
  | _ => rfl

@[simp] theorem regCode_lt (r : Reg) : regCode r < 256 := by
  cases r with
  | lane n => have := n.isLt; simp only [regCode]; omega
  | uni n => have := n.isLt; simp only [regCode]; omega
  | nil => decide

@[simp] theorem regOf_code (r : Reg) : regOf (regCode r) = some r := by
  cases r with
  | lane n => revert n; decide
  | uni n => revert n; decide
  | nil => rfl

theorem maskField_lt (m : Option MaskNo) : maskField m < 16 := by
  cases m with
  | none => decide
  | some m => have := m.isLt; simp only [maskField]; omega

theorem maskFieldOf_field (m : Option MaskNo) : maskFieldOf (maskField m) = some m := by revert m; decide

@[simp] theorem bv4_lt (b : BitVec 4) : b.toNat < 16 := b.isLt
@[simp] theorem bv13_lt (b : BitVec 13) : b.toNat < 8192 := b.isLt
@[simp] theorem bv16_lt (b : BitVec 16) : b.toNat < 65536 := b.isLt
@[simp] theorem bv31_lt (b : BitVec 31) : b.toNat < 2147483648 := b.isLt
@[simp] theorem bv32_lt (b : BitVec 32) : b.toNat < 4294967296 := b.isLt
@[simp] theorem bv6_lt (b : BitVec 6) : b.toNat < 2147483648 := by omega
@[simp] theorem fin5_lt (n : Fin 5) : n.val < 16 := by omega
@[simp] theorem fin5_of (n : Fin 5) : (if p : n.val < 5 then some (⟨n.val, p⟩ : Fin 5) else none) = some n := by simp [n.isLt]

@[simp] theorem decCond_enc (c : Cond) : decCond (encCond c).1 (encCond c).2 = some c := by
  cases c <;> simp [encCond, decCond]

@[simp] theorem encCond_lt1 (c : Cond) : (encCond c).1 < 8 := by cases c <;> simp [encCond]
@[simp] theorem encCond_lt2 (c : Cond) : (encCond c).2 < 256 := by cases c <;> simp [encCond]

/-! ## Fields of the formats -/

theorem bitsOf_div (x lo n : Nat) : bitsOf x lo n = x / 2 ^ lo % 2 ^ n := by rw [bitsOf, Nat.shiftRight_eq_div_pow]

/-- Every field lies in its width. -/
def FV.ok (f : FV) : Prop :=
  f.d < 256 ∧ f.a < 256 ∧ f.b < 256 ∧ f.c < 256 ∧ f.sa < 16 ∧ f.sb < 16 ∧ f.md < 16 ∧ f.sub < 8
def FI.ok (f : FI) : Prop := f.d < 256 ∧ f.a < 256 ∧ f.imm < 2147483648
def FM.ok (f : FM) : Prop :=
  f.d < 256 ∧ f.a < 256 ∧ f.b < 256 ∧ f.scope < 8 ∧ f.ord < 4 ∧ f.racq < 2 ∧ f.fmt < 16 ∧ f.off < 8192
def FC.ok (f : FC) : Prop := f.cond < 8 ∧ f.b < 256 ∧ f.off < 4294967296
def FX.ok (f : FX) : Prop := f.d < 256 ∧ f.a < 256 ∧ f.b < 256 ∧ f.c < 256 ∧ f.mode < 32768
def FS.ok (f : FS) : Prop := f.d < 256 ∧ f.a < 256 ∧ f.sel < 65536

theorem packV_lt {f : FV} (h : FV.ok f) : packV f < 2 ^ 47 := by simp only [FV.ok, packV] at *; omega
theorem packI_lt {f : FI} (h : FI.ok f) : packI f < 2 ^ 47 := by simp only [FI.ok, packI] at *; omega
theorem packM_lt {f : FM} (h : FM.ok f) : packM f < 2 ^ 47 := by simp only [FM.ok, packM] at *; omega
theorem packC_lt {f : FC} (h : FC.ok f) : packC f < 2 ^ 47 := by simp only [FC.ok, packC] at *; omega
theorem packX_lt {f : FX} (h : FX.ok f) : packX f < 2 ^ 47 := by simp only [FX.ok, packX] at *; omega
theorem packS_lt {f : FS} (h : FS.ok f) : packS f < 2 ^ 47 := by simp only [FS.ok, packS] at *; omega

theorem unpackV_pack {f : FV} (h : FV.ok f) : unpackV (packV f) = f := by
  cases f; simp only [FV.ok, packV, unpackV, bitsOf_div, FV.mk.injEq] at *; omega
theorem unpackI_pack {f : FI} (h : FI.ok f) : unpackI (packI f) = f := by
  cases f; simp only [FI.ok, packI, unpackI, bitsOf_div, FI.mk.injEq] at *; omega
theorem unpackM_pack {f : FM} (h : FM.ok f) : unpackM (packM f) = f := by
  cases f; simp only [FM.ok, packM, unpackM, bitsOf_div, FM.mk.injEq] at *; omega
theorem unpackC_pack {f : FC} (h : FC.ok f) : unpackC (packC f) = f := by
  cases f; simp only [FC.ok, packC, unpackC, bitsOf_div, FC.mk.injEq] at *; omega
theorem unpackX_pack {f : FX} (h : FX.ok f) : unpackX (packX f) = f := by
  cases f; simp only [FX.ok, packX, unpackX, bitsOf_div, FX.mk.injEq] at *; omega
theorem unpackS_pack {f : FS} (h : FS.ok f) : unpackS (packS f) = f := by
  cases f; simp only [FS.ok, packS, unpackS, bitsOf_div, FS.mk.injEq] at *; omega

/-! ## The header -/

/-- The word of a header, an OP and the bits below. -/
def word (op : Nat) (h : Hdr) (x : Nat) : Word :=
  wd (x + 2 ^ 47 * maskField h.mask + 2 ^ 51 * op + 2 ^ 59 * h.stall.toNat + 2 ^ 63 * flagCode h.b)

theorem word_nat {op x : Nat} {h : Hdr} (ho : op < 256) (hx : x < 2 ^ 47) : (word op h x).toNat =
    x + 2 ^ 47 * maskField h.mask + 2 ^ 51 * op + 2 ^ 59 * h.stall.toNat + 2 ^ 63 * flagCode h.b := by
  have := maskField_lt h.mask
  have := h.stall.isLt
  have := flagCode_lt h.b
  simp only [word, wd, BitVec.toNat_ofNat]
  apply Nat.mod_eq_of_lt
  omega

theorem word_op {op x : Nat} {h : Hdr} (ho : op < 256) (hx : x < 2 ^ 47) : fld (word op h x) 51 8 = op := by
  have := maskField_lt h.mask
  have := h.stall.isLt
  have := flagCode_lt h.b
  simp only [fld, bitsOf_div, word_nat ho hx]
  omega

theorem word_body {op x : Nat} {h : Hdr} (ho : op < 256) (hx : x < 2 ^ 47) : fld (word op h x) 0 47 = x := by
  have := maskField_lt h.mask
  have := h.stall.isLt
  have := flagCode_lt h.b
  simp only [fld, bitsOf_div, word_nat ho hx]
  omega

theorem word_header {op x : Nat} {h : Hdr} (ho : op < 256) (hx : x < 2 ^ 47) : headerOf (word op h x) = some h := by
  have hm := maskField_lt h.mask
  have hs := h.stall.isLt
  have hb := flagCode_lt h.b
  have e1 : fld (word op h x) 63 1 = flagCode h.b := by simp only [fld, bitsOf_div, word_nat ho hx]; omega
  have e2 : fld (word op h x) 59 4 = h.stall.toNat := by simp only [fld, bitsOf_div, word_nat ho hx]; omega
  have e3 : fld (word op h x) 47 4 = maskField h.mask := by simp only [fld, bitsOf_div, word_nat ho hx]; omega
  simp [headerOf, e1, e2, e3, maskFieldOf_field]

/-! ## From fields to words -/

theorem of_event {i : Instr} (h : legal i = false) : Statement i := by
  intro w
  exact absurd (h.symm.trans w) (by decide)

/-- What decodeWords does with a word whose fields name an instruction that encodes to it. -/
theorem decode_of {i : Instr} {op x : Nat} {ws : List Word} (lit : Word) (hw : WellFormed i) (ho : op < 256) (hx : x < 2 ^ 47)
    (he : encode i = some (word op (hdrOf i) x :: ws)) (hc : candidate op (hdrOf i) x lit = some i) :
    decodeWords (word op (hdrOf i) x) lit = .ok i := by
  unfold decodeWords
  rw [word_header ho hx]
  dsimp only
  rw [word_op ho hx, word_body ho hx, hc]
  dsimp only
  rw [if_pos hw, he]
  dsimp only
  rw [if_pos rfl]

theorem of_body {i : Instr} {x : Nat} (op : Nat) (hb : encode i = some [word op (hdrOf i) x]) (ho : op < 256)
    (hl : op ≠ 0x43) (hx : x < 2 ^ 47) (hc : candidate op (hdrOf i) x 0 = some i) : Statement i := by
  intro hw
  refine ⟨_, _, hb, by simp, ?_, decode_of 0 hw ho hx hb hc⟩
  simp only [hasLiteral, word_op ho hx, List.length_nil]
  simp [hl]

theorem of_literal {i : Instr} {x : Nat} {lit : Word} (hb : encode i = some [word 0x43 (hdrOf i) x, lit])
    (hx : x < 2 ^ 47) (hc : candidate 0x43 (hdrOf i) x lit = some i) : Statement i := by
  intro hw
  have hl : hasLiteral (word 0x43 (hdrOf i) x) = true := by
    unfold hasLiteral
    rw [word_op (by decide) hx]
    rfl
  exact ⟨_, _, hb, Nat.le_refl 1, ⟨fun _ => rfl, fun _ => hl⟩, decode_of lit hw (by decide) hx hb hc⟩

theorem ofV {i : Instr} {f : FV} (op : Nat) (hb : encode i = some [word op (hdrOf i) (packV f)]) (ho : op < 256)
    (hl : op ≠ 0x43) (hf : FV.ok f) (hc : ∀ x, unpackV x = f → candidate op (hdrOf i) x 0 = some i) : Statement i :=
  of_body op hb ho hl (packV_lt hf) (hc _ (unpackV_pack hf))
theorem ofI {i : Instr} {f : FI} (op : Nat) (hb : encode i = some [word op (hdrOf i) (packI f)]) (ho : op < 256)
    (hl : op ≠ 0x43) (hf : FI.ok f) (hc : ∀ x, unpackI x = f → candidate op (hdrOf i) x 0 = some i) : Statement i :=
  of_body op hb ho hl (packI_lt hf) (hc _ (unpackI_pack hf))
theorem ofM {i : Instr} {f : FM} (op : Nat) (hb : encode i = some [word op (hdrOf i) (packM f)]) (ho : op < 256)
    (hl : op ≠ 0x43) (hf : FM.ok f) (hc : ∀ x, unpackM x = f → candidate op (hdrOf i) x 0 = some i) : Statement i :=
  of_body op hb ho hl (packM_lt hf) (hc _ (unpackM_pack hf))
theorem ofC {i : Instr} {f : FC} (op : Nat) (hb : encode i = some [word op (hdrOf i) (packC f)]) (ho : op < 256)
    (hl : op ≠ 0x43) (hf : FC.ok f) (hc : ∀ x, unpackC x = f → candidate op (hdrOf i) x 0 = some i) : Statement i :=
  of_body op hb ho hl (packC_lt hf) (hc _ (unpackC_pack hf))
theorem ofX {i : Instr} {f : FX} (op : Nat) (hb : encode i = some [word op (hdrOf i) (packX f)]) (ho : op < 256)
    (hl : op ≠ 0x43) (hf : FX.ok f) (hc : ∀ x, unpackX x = f → candidate op (hdrOf i) x 0 = some i) : Statement i :=
  of_body op hb ho hl (packX_lt hf) (hc _ (unpackX_pack hf))
theorem ofS {i : Instr} {f : FS} (op : Nat) (hb : encode i = some [word op (hdrOf i) (packS f)]) (ho : op < 256)
    (hl : op ≠ 0x43) (hf : FS.ok f) (hc : ∀ x, unpackS x = f → candidate op (hdrOf i) x 0 = some i) : Statement i :=
  of_body op hb ho hl (packS_lt hf) (hc _ (unpackS_pack hf))

/-! ## Subfields of MODE15 -/

theorem memMode_ok (s : Scope) (o : Ord4) (r : Bool) {x e : Nat} (hx : x < 16) (he : e < 32) : memMode s o r x e < 32768 ∧
    bitsOf (memMode s o r x e) 12 3 = scopeCode s ∧ bitsOf (memMode s o r x e) 10 2 = ordCode o ∧
    bitsOf (memMode s o r x e) 9 1 = flagCode r ∧ bitsOf (memMode s o r x e) 5 4 = x ∧ bitsOf (memMode s o r x e) 0 5 = e := by
  have := scopeCode_lt s
  have := ordCode_lt o
  have := flagCode_lt r
  simp only [memMode, bitsOf_div]
  omega

@[simp] theorem memMode_lt (s : Scope) (o : Ord4) (r : Bool) : memMode s o r 0 0 < 32768 := (memMode_ok s o r (by decide) (by decide)).1
@[simp] theorem memMode_scope (s : Scope) (o : Ord4) (r : Bool) : bitsOf (memMode s o r 0 0) 12 3 = scopeCode s :=
  (memMode_ok s o r (by decide) (by decide)).2.1
@[simp] theorem memMode_ord (s : Scope) (o : Ord4) (r : Bool) : bitsOf (memMode s o r 0 0) 10 2 = ordCode o :=
  (memMode_ok s o r (by decide) (by decide)).2.2.1
@[simp] theorem memMode_racq (s : Scope) (o : Ord4) (r : Bool) : bitsOf (memMode s o r 0 0) 9 1 = flagCode r :=
  (memMode_ok s o r (by decide) (by decide)).2.2.2.1

/-- MODE15 of ATOM and VATOM. -/
theorem atomMode (s : Scope) (o : Ord4) (r : Bool) (p : AOp) : memMode s o r (aopCode p) 0 < 32768 ∧
    bitsOf (memMode s o r (aopCode p) 0) 12 3 = scopeCode s ∧ bitsOf (memMode s o r (aopCode p) 0) 10 2 = ordCode o ∧
    bitsOf (memMode s o r (aopCode p) 0) 9 1 = flagCode r ∧ bitsOf (memMode s o r (aopCode p) 0) 5 4 = aopCode p :=
  let m := memMode_ok s o r (aopCode_lt p) (by decide)
  ⟨m.1, m.2.1, m.2.2.1, m.2.2.2.1, m.2.2.2.2.1⟩
theorem vatomMode (s : Scope) (o : Ord4) (r : Bool) (p : AOp) (e : TFmt) : memMode s o r (aopCode p) (tfmtCode e) < 32768 ∧
    bitsOf (memMode s o r (aopCode p) (tfmtCode e)) 12 3 = scopeCode s ∧
    bitsOf (memMode s o r (aopCode p) (tfmtCode e)) 10 2 = ordCode o ∧
    bitsOf (memMode s o r (aopCode p) (tfmtCode e)) 9 1 = flagCode r ∧
    bitsOf (memMode s o r (aopCode p) (tfmtCode e)) 5 4 = aopCode p ∧
    bitsOf (memMode s o r (aopCode p) (tfmtCode e)) 0 5 = tfmtCode e :=
  memMode_ok s o r (aopCode_lt p) (Nat.lt_of_lt_of_le (tfmtCode_lt e) (by decide))

theorem signalMode (s : Scope) (r : Bool) (p : SigOp) :
    memMode s (if r = true then .rel else .plain) false (sigCode p) 0 < 32768 ∧
    bitsOf (memMode s (if r = true then .rel else .plain) false (sigCode p) 0) 12 3 = scopeCode s ∧
    bitsOf (memMode s (if r = true then .rel else .plain) false (sigCode p) 0) 11 1 = flagCode r ∧
    bitsOf (memMode s (if r = true then .rel else .plain) false (sigCode p) 0) 5 4 = sigCode p := by
  have := scopeCode_lt s
  have := sigCode_lt p
  cases r <;> simp [memMode, bitsOf_div, flagCode, ordCode] <;> omega

theorem waitsMode (s : Scope) (r : Bool) (p : Cc) :
    memMode s (if r = true then .acq else .plain) false (ccCode p) 0 < 32768 ∧
    bitsOf (memMode s (if r = true then .acq else .plain) false (ccCode p) 0) 12 3 = scopeCode s ∧
    bitsOf (memMode s (if r = true then .acq else .plain) false (ccCode p) 0) 10 1 = flagCode r ∧
    bitsOf (memMode s (if r = true then .acq else .plain) false (ccCode p) 0) 5 4 = ccCode p := by
  have := scopeCode_lt s
  have := ccCode_lt p
  cases r <;> simp [memMode, bitsOf_div, flagCode, ordCode] <;> omega

theorem satomMode (f : TFmt) (p : AOp) (z : Swz) : tfmtCode f + 32 * aopCode p + 4096 * swzCode z < 32768 ∧
    bitsOf (tfmtCode f + 32 * aopCode p + 4096 * swzCode z) 5 4 = aopCode p ∧
    bitsOf (tfmtCode f + 32 * aopCode p + 4096 * swzCode z) 0 4 = tfmtCode f ∧
    bitsOf (tfmtCode f + 32 * aopCode p + 4096 * swzCode z) 12 3 = swzCode z := by
  have := tfmtCode_lt f
  have := aopCode_lt p
  have := swzCode_lt z
  simp only [bitsOf_div]
  omega

theorem tileMode (f : TFmt) (z : Swz) (p : Sparsity) : tfmtCode f + 32 * swzCode z + 128 * sparCode p < 32768 ∧
    bitsOf (tfmtCode f + 32 * swzCode z + 128 * sparCode p) 0 5 = tfmtCode f ∧
    bitsOf (tfmtCode f + 32 * swzCode z + 128 * sparCode p) 5 2 = swzCode z ∧
    bitsOf (tfmtCode f + 32 * swzCode z + 128 * sparCode p) 7 2 = sparCode p := by
  have := tfmtCode_lt f
  have := swzCode_lt z
  have := sparCode_lt p
  simp only [bitsOf_div]
  omega

theorem cpyMode (m : CpyMode) (b : Bool) : cpyCode m + 8 * flagCode b < 32768 ∧
    bitsOf (cpyCode m + 8 * flagCode b) 0 3 = cpyCode m ∧ bitsOf (cpyCode m + 8 * flagCode b) 3 1 = flagCode b := by
  have := cpyCode_lt m
  have := flagCode_lt b
  simp only [bitsOf_div]
  omega

theorem kselMode (a b : Bool) : flagCode a + 2 * flagCode b < 32768 ∧
    bitsOf (flagCode a + 2 * flagCode b) 0 1 = flagCode a ∧ bitsOf (flagCode a + 2 * flagCode b) 1 1 = flagCode b := by
  revert a b; decide

theorem binitMode (c p b : BitVec 5) : c.toNat + 32 * p.toNat + 1024 * b.toNat < 32768 ∧
    bitsOf (c.toNat + 32 * p.toNat + 1024 * b.toNat) 10 5 = b.toNat ∧
    bitsOf (c.toNat + 32 * p.toNat + 1024 * b.toNat) 5 5 = p.toNat ∧
    bitsOf (c.toNat + 32 * p.toNat + 1024 * b.toNat) 0 5 = c.toNat := by
  simp only [bitsOf_div]
  omega

@[simp] theorem bv5_lt (b : BitVec 5) : b.toNat < 32768 := by omega
@[simp] theorem bench_lt (b : BitVec 5) : 1024 * b.toNat < 32768 := by omega
@[simp] theorem bench_of (b : BitVec 5) : bitsOf (1024 * b.toNat) 10 5 = b.toNat := by simp only [bitsOf_div]; omega
@[simp] theorem mmab_lt (a b : BitVec 5) : a.toNat + 32 * b.toNat < 32768 := by omega
@[simp] theorem mmab_hi (a b : BitVec 5) : bitsOf (a.toNat + 32 * b.toNat) 5 5 = b.toNat := by simp only [bitsOf_div]; omega
@[simp] theorem mmab_lo (a b : BitVec 5) : BitVec.ofNat 5 (a.toNat + 32 * b.toNat) = a := by
  apply BitVec.eq_of_toNat_eq; simp only [BitVec.toNat_ofNat]; omega
@[simp] theorem cmpi_lt (i : BitVec 28) (c : Cc) : i.toNat + 268435456 * ccCode c < 2147483648 := by have := ccCode_lt c; omega
@[simp] theorem cmpi_cc (i : BitVec 28) (c : Cc) : bitsOf (i.toNat + 268435456 * ccCode c) 28 3 = ccCode c := by
  have := ccCode_lt c; simp only [bitsOf_div]; omega
@[simp] theorem cmpi_imm (i : BitVec 28) (c : Cc) : BitVec.ofNat 28 (i.toNat + 268435456 * ccCode c) = i := by
  apply BitVec.eq_of_toNat_eq; simp only [BitVec.toNat_ofNat]; omega
@[simp] theorem shflx_lt (k : BitVec 6) : k.toNat % 16 < 16 ∧ k.toNat / 16 < 8 := by omega
@[simp] theorem shflx_of (k : BitVec 6) : BitVec.ofNat 6 (k.toNat % 16 + 16 * (k.toNat / 16)) = k := by
  apply BitVec.eq_of_toNat_eq; simp only [BitVec.toNat_ofNat]; omega

end Sys2Proof.Laws.RT

/-! ## One lemma for each constructor -/

open Sys2Proof Sys2Proof.Machine Sys2Proof.Laws.RoundTrip Sys2Proof.Laws.RT


theorem Sys2Proof.Laws.RoundTrip.add (h : Hdr) (o : OpBinE) : Statement (.add h o) :=
  ofV (f := encBinE o) 0x00 rfl (by decide) (by decide) (by simp [FV.ok, encBinE]) fun x hx => by
    change ((decBinE (unpackV x)).map (Instr.add h) : Option Instr) = _
    rw [hx]; simp [encBinE, decBinE]

theorem Sys2Proof.Laws.RoundTrip.sub (h : Hdr) (o : OpBinE) : Statement (.sub h o) :=
  ofV (f := encBinE o) 0x01 rfl (by decide) (by decide) (by simp [FV.ok, encBinE]) fun x hx => by
    change ((decBinE (unpackV x)).map (Instr.sub h) : Option Instr) = _
    rw [hx]; simp [encBinE, decBinE]

theorem Sys2Proof.Laws.RoundTrip.mul (h : Hdr) (o : OpBinE) : Statement (.mul h o) :=
  ofV (f := encBinE o) 0x02 rfl (by decide) (by decide) (by simp [FV.ok, encBinE]) fun x hx => by
    change ((decBinE (unpackV x)).map (Instr.mul h) : Option Instr) = _
    rw [hx]; simp [encBinE, decBinE]

theorem Sys2Proof.Laws.RoundTrip.div (h : Hdr) (o : OpBinE) : Statement (.div h o) :=
  ofV (f := encBinE o) 0x04 rfl (by decide) (by decide) (by simp [FV.ok, encBinE]) fun x hx => by
    change ((decBinE (unpackV x)).map (Instr.div h) : Option Instr) = _
    rw [hx]; simp [encBinE, decBinE]

theorem Sys2Proof.Laws.RoundTrip.rem (h : Hdr) (o : OpBinE) : Statement (.rem h o) :=
  ofV (f := encBinE o) 0x05 rfl (by decide) (by decide) (by simp [FV.ok, encBinE]) fun x hx => by
    change ((decBinE (unpackV x)).map (Instr.rem h) : Option Instr) = _
    rw [hx]; simp [encBinE, decBinE]

theorem Sys2Proof.Laws.RoundTrip.fma (h : Hdr) (o : OpTerE) : Statement (.fma h o) :=
  ofV (f := encTerE o) 0x03 rfl (by decide) (by decide) (by simp [FV.ok, encTerE]) fun x hx => by
    change ((decTerE (unpackV x)).map (Instr.fma h) : Option Instr) = _
    rw [hx]; simp [encTerE, decTerE]

theorem Sys2Proof.Laws.RoundTrip.neg (h : Hdr) (o : OpUnE) : Statement (.neg h o) :=
  ofV (f := encUnE o) 0x06 rfl (by decide) (by decide) (by simp [FV.ok, encUnE]) fun x hx => by
    change ((decUnE (unpackV x)).map (Instr.neg h) : Option Instr) = _
    rw [hx]; simp [encUnE, decUnE]

theorem Sys2Proof.Laws.RoundTrip.abs (h : Hdr) (o : OpUnE) : Statement (.abs h o) :=
  ofV (f := encUnE o) 0x07 rfl (by decide) (by decide) (by simp [FV.ok, encUnE]) fun x hx => by
    change ((decUnE (unpackV x)).map (Instr.abs h) : Option Instr) = _
    rw [hx]; simp [encUnE, decUnE]

theorem Sys2Proof.Laws.RoundTrip.min (h : Hdr) (o : OpBinE) : Statement (.min h o) :=
  ofV (f := encBinE o) 0x08 rfl (by decide) (by decide) (by simp [FV.ok, encBinE]) fun x hx => by
    change ((decBinE (unpackV x)).map (Instr.min h) : Option Instr) = _
    rw [hx]; simp [encBinE, decBinE]

theorem Sys2Proof.Laws.RoundTrip.max (h : Hdr) (o : OpBinE) : Statement (.max h o) :=
  ofV (f := encBinE o) 0x09 rfl (by decide) (by decide) (by simp [FV.ok, encBinE]) fun x hx => by
    change ((decBinE (unpackV x)).map (Instr.max h) : Option Instr) = _
    rw [hx]; simp [encBinE, decBinE]

theorem Sys2Proof.Laws.RoundTrip.clamp (h : Hdr) (o : OpTerE) : Statement (.clamp h o) :=
  ofV (f := encTerE o) 0x16 rfl (by decide) (by decide) (by simp [FV.ok, encTerE]) fun x hx => by
    change ((decTerE (unpackV x)).map (Instr.clamp h) : Option Instr) = _
    rw [hx]; simp [encTerE, decTerE]

theorem Sys2Proof.Laws.RoundTrip.cmp (h : Hdr) (cc : Cc) (o : OpBinE) : Statement (.cmp h cc o) :=
  ofV (f := { encBinE o with sub := ccCode cc }) 0x0A rfl (by decide) (by decide) (by simp [FV.ok, encBinE]) fun x hx => by
    change (do return .cmp h (← ccOf (unpackV x).sub) (← decBinE (unpackV x)) : Option Instr) = _
    rw [hx]; simp [encBinE, decBinE]

theorem Sys2Proof.Laws.RoundTrip.cmpm (h : Hdr) (cc : Cc) (m : MaskNo) (a : Reg) (b : Reg) (sa : BitVec 4) (sb : BitVec 4) (e : Elt) : Statement (.cmpm h cc m a b sa sb e) :=
  ofV (f := { d := m.val, a := regCode a, b := regCode b, sa := sa.toNat, sb := sb.toNat, md := eltCode e, sub := ccCode cc }) 0x0B rfl (by decide) (by decide) (by simp [FV.ok]) fun x hx => by
    change (do
        let f := unpackV x
        return .cmpm h (← ccOf f.sub) (← maskOf f.d) (← regOf f.a) (← regOf f.b) (BitVec.ofNat 4 f.sa) (BitVec.ofNat 4 f.sb)
          (← eltOf f.md) : Option Instr) = _
    rw [hx]; simp

theorem Sys2Proof.Laws.RoundTrip.cmpi (h : Hdr) (cc : Cc) (d : Reg) (a : Reg) (i : BitVec 28) : Statement (.cmpi h cc d a i) :=
  ofI (f := { d := regCode d, a := regCode a, imm := i.toNat + 2 ^ 28 * ccCode cc }) 0x4A rfl (by decide) (by decide) (by simp [FI.ok]) fun x hx => by
    change (do
        let f := unpackI x
        return .cmpi h (← ccOf (bitsOf f.imm 28 3)) (← regOf f.d) (← regOf f.a) (BitVec.ofNat 28 f.imm) : Option Instr) = _
    rw [hx]; simp

theorem Sys2Proof.Laws.RoundTrip.sqrt (h : Hdr) (o : OpUn) : Statement (.sqrt h o) :=
  ofV (f := encUn o) 0x0C rfl (by decide) (by decide) (by simp [FV.ok, encUn]) fun x hx => by
    change ((decUn (unpackV x)).map (Instr.sqrt h) : Option Instr) = _
    rw [hx]; simp [encUn, decUn]

theorem Sys2Proof.Laws.RoundTrip.rcp (h : Hdr) (o : OpUn) : Statement (.rcp h o) :=
  ofV (f := encUn o) 0x0D rfl (by decide) (by decide) (by simp [FV.ok, encUn]) fun x hx => by
    change ((decUn (unpackV x)).map (Instr.rcp h) : Option Instr) = _
    rw [hx]; simp [encUn, decUn]

theorem Sys2Proof.Laws.RoundTrip.rsq (h : Hdr) (o : OpUn) : Statement (.rsq h o) :=
  ofV (f := encUn o) 0x0E rfl (by decide) (by decide) (by simp [FV.ok, encUn]) fun x hx => by
    change ((decUn (unpackV x)).map (Instr.rsq h) : Option Instr) = _
    rw [hx]; simp [encUn, decUn]

theorem Sys2Proof.Laws.RoundTrip.exp2 (h : Hdr) (o : OpUn) : Statement (.exp2 h o) :=
  ofV (f := encUn o) 0x0F rfl (by decide) (by decide) (by simp [FV.ok, encUn]) fun x hx => by
    change ((decUn (unpackV x)).map (Instr.exp2 h) : Option Instr) = _
    rw [hx]; simp [encUn, decUn]

theorem Sys2Proof.Laws.RoundTrip.log2 (h : Hdr) (o : OpUn) : Statement (.log2 h o) :=
  ofV (f := encUn o) 0x10 rfl (by decide) (by decide) (by simp [FV.ok, encUn]) fun x hx => by
    change ((decUn (unpackV x)).map (Instr.log2 h) : Option Instr) = _
    rw [hx]; simp [encUn, decUn]

theorem Sys2Proof.Laws.RoundTrip.sin (h : Hdr) (o : OpUn) : Statement (.sin h o) :=
  ofV (f := encUn o) 0x11 rfl (by decide) (by decide) (by simp [FV.ok, encUn]) fun x hx => by
    change ((decUn (unpackV x)).map (Instr.sin h) : Option Instr) = _
    rw [hx]; simp [encUn, decUn]

theorem Sys2Proof.Laws.RoundTrip.cos (h : Hdr) (o : OpUn) : Statement (.cos h o) :=
  ofV (f := encUn o) 0x12 rfl (by decide) (by decide) (by simp [FV.ok, encUn]) fun x hx => by
    change ((decUn (unpackV x)).map (Instr.cos h) : Option Instr) = _
    rw [hx]; simp [encUn, decUn]

theorem Sys2Proof.Laws.RoundTrip.tanh (h : Hdr) (o : OpUn) : Statement (.tanh h o) :=
  ofV (f := encUn o) 0x13 rfl (by decide) (by decide) (by simp [FV.ok, encUn]) fun x hx => by
    change ((decUn (unpackV x)).map (Instr.tanh h) : Option Instr) = _
    rw [hx]; simp [encUn, decUn]

theorem Sys2Proof.Laws.RoundTrip.frnd (h : Hdr) (rm : Rnd) (o : OpUn) : Statement (.frnd h rm o) :=
  ofV (f := { encUn o with sub := rndCode rm }) 0x14 rfl (by decide) (by decide) (by simp [FV.ok, encUn]) fun x hx => by
    change (do return .frnd h (← rndOf (unpackV x).sub) (← decUn (unpackV x)) : Option Instr) = _
    rw [hx]; simp [encUn, decUn]

theorem Sys2Proof.Laws.RoundTrip.dot (h : Hdr) (o : OpTerE) : Statement (.dot h o) :=
  ofV (f := encTerE o) 0x15 rfl (by decide) (by decide) (by simp [FV.ok, encTerE]) fun x hx => by
    change ((decTerE (unpackV x)).map (Instr.dot h) : Option Instr) = _
    rw [hx]; simp [encTerE, decTerE]

theorem Sys2Proof.Laws.RoundTrip.cvt (h : Hdr) (t : CvtTgt) (rm : Rnd) (o : OpUn) : Statement (.cvt h t rm o) :=
  ofV (f := { encUn o with md := cvtCode t, sub := rndCode rm }) 0x18 rfl (by decide) (by decide) (by simp [FV.ok, encUn]) fun x hx => by
    change (do return .cvt h (← cvtOf (unpackV x).md) (← rndOf (unpackV x).sub) (← decUn (unpackV x)) : Option Instr) = _
    rw [hx]; simp [encUn, decUn]

theorem Sys2Proof.Laws.RoundTrip.pack (h : Hdr) (rm : Rnd) (o : OpBinE) : Statement (.pack h rm o) :=
  ofV (f := { encBinE o with sub := rndCode rm }) 0x19 rfl (by decide) (by decide) (by simp [FV.ok, encBinE]) fun x hx => by
    change (do return .pack h (← rndOf (unpackV x).sub) (← decBinE (unpackV x)) : Option Instr) = _
    rw [hx]; simp [encBinE, decBinE]

theorem Sys2Proof.Laws.RoundTrip.unpk (h : Hdr) (o : OpUnE) : Statement (.unpk h o) :=
  ofV (f := encUnE o) 0x1A rfl (by decide) (by decide) (by simp [FV.ok, encUnE]) fun x hx => by
    change ((decUnE (unpackV x)).map (Instr.unpk h) : Option Instr) = _
    rw [hx]; simp [encUnE, decUnE]

theorem Sys2Proof.Laws.RoundTrip.scaleq (h : Hdr) (d : Reg) (a : Reg) (e : Elt) : Statement (.scaleq h d a e) :=
  ofV (f := { d := regCode d, a := regCode a, md := eltCode e }) 0x1B rfl (by decide) (by decide) (by simp [FV.ok]) fun x hx => by
    change (do return .scaleq h (← regOf (unpackV x).d) (← regOf (unpackV x).a) (← eltOf (unpackV x).md) : Option Instr) = _
    rw [hx]; simp

theorem Sys2Proof.Laws.RoundTrip.qnt (h : Hdr) (rm : Rnd) (d : Reg) (a : Reg) (b : Reg) (e : Elt) : Statement (.qnt h rm d a b e) :=
  ofV (f := { d := regCode d, a := regCode a, b := regCode b, md := eltCode e, sub := rndCode rm }) 0x1C rfl (by decide) (by decide) (by simp [FV.ok]) fun x hx => by
    change (do
        let f := unpackV x
        return .qnt h (← rndOf f.sub) (← regOf f.d) (← regOf f.a) (← regOf f.b) (← eltOf f.md) : Option Instr) = _
    rw [hx]; simp

theorem Sys2Proof.Laws.RoundTrip.tagof (h : Hdr) (d : Reg) (a : Reg) : Statement (.tagof h d a) :=
  ofV (f := { d := regCode d, a := regCode a }) 0x20 rfl (by decide) (by decide) (by simp [FV.ok]) fun x hx => by
    change (do return .tagof h (← regOf (unpackV x).d) (← regOf (unpackV x).a) : Option Instr) = _
    rw [hx]; simp

theorem Sys2Proof.Laws.RoundTrip.tagas (h : Hdr) (t : Tag) (d : Reg) (a : Reg) : Statement (.tagas h t d a) :=
  ofV (f := { d := regCode d, a := regCode a, md := tagCode t }) 0x21 rfl (by decide) (by decide) (by simp [FV.ok]) fun x hx => by
    change (do return .tagas h (← tagOf (unpackV x).md) (← regOf (unpackV x).d) (← regOf (unpackV x).a) : Option Instr) = _
    rw [hx]; simp

theorem Sys2Proof.Laws.RoundTrip.tagm (h : Hdr) (t : Tag) (m : MaskNo) (a : Reg) : Statement (.tagm h t m a) :=
  ofV (f := { d := m.val, a := regCode a, md := tagCode t }) 0x22 rfl (by decide) (by decide) (by simp [FV.ok]) fun x hx => by
    change (do return .tagm h (← tagOf (unpackV x).md) (← maskOf (unpackV x).d) (← regOf (unpackV x).a) : Option Instr) = _
    rw [hx]; simp

theorem Sys2Proof.Laws.RoundTrip.and (h : Hdr) (o : OpBin) : Statement (.and h o) :=
  ofV (f := encBin o) 0x28 rfl (by decide) (by decide) (by simp [FV.ok, encBin]) fun x hx => by
    change ((decBin (unpackV x)).map (Instr.and h) : Option Instr) = _
    rw [hx]; simp [encBin, decBin]

theorem Sys2Proof.Laws.RoundTrip.or (h : Hdr) (o : OpBin) : Statement (.or h o) :=
  ofV (f := encBin o) 0x29 rfl (by decide) (by decide) (by simp [FV.ok, encBin]) fun x hx => by
    change ((decBin (unpackV x)).map (Instr.or h) : Option Instr) = _
    rw [hx]; simp [encBin, decBin]

theorem Sys2Proof.Laws.RoundTrip.xor (h : Hdr) (o : OpBin) : Statement (.xor h o) :=
  ofV (f := encBin o) 0x2A rfl (by decide) (by decide) (by simp [FV.ok, encBin]) fun x hx => by
    change ((decBin (unpackV x)).map (Instr.xor h) : Option Instr) = _
    rw [hx]; simp [encBin, decBin]

theorem Sys2Proof.Laws.RoundTrip.not (h : Hdr) (o : OpUn) : Statement (.not h o) :=
  ofV (f := encUn o) 0x2B rfl (by decide) (by decide) (by simp [FV.ok, encUn]) fun x hx => by
    change ((decUn (unpackV x)).map (Instr.not h) : Option Instr) = _
    rw [hx]; simp [encUn, decUn]

theorem Sys2Proof.Laws.RoundTrip.andi (h : Hdr) (o : OpImm) : Statement (.andi h o) :=
  ofI (f := encImm o) 0x4B rfl (by decide) (by decide) (by simp [FI.ok, encImm]) fun x hx => by
    change ((decImm (unpackI x)).map (Instr.andi h) : Option Instr) = _
    rw [hx]; simp [encImm, decImm]

theorem Sys2Proof.Laws.RoundTrip.ori (h : Hdr) (o : OpImm) : Statement (.ori h o) :=
  ofI (f := encImm o) 0x4C rfl (by decide) (by decide) (by simp [FI.ok, encImm]) fun x hx => by
    change ((decImm (unpackI x)).map (Instr.ori h) : Option Instr) = _
    rw [hx]; simp [encImm, decImm]

theorem Sys2Proof.Laws.RoundTrip.xori (h : Hdr) (o : OpImm) : Statement (.xori h o) :=
  ofI (f := encImm o) 0x4D rfl (by decide) (by decide) (by simp [FI.ok, encImm]) fun x hx => by
    change ((decImm (unpackI x)).map (Instr.xori h) : Option Instr) = _
    rw [hx]; simp [encImm, decImm]

theorem Sys2Proof.Laws.RoundTrip.shl (h : Hdr) (o : OpBin) : Statement (.shl h o) :=
  ofV (f := encBin o) 0x2C rfl (by decide) (by decide) (by simp [FV.ok, encBin]) fun x hx => by
    change ((decBin (unpackV x)).map (Instr.shl h) : Option Instr) = _
    rw [hx]; simp [encBin, decBin]

theorem Sys2Proof.Laws.RoundTrip.shr (h : Hdr) (o : OpBin) : Statement (.shr h o) :=
  ofV (f := encBin o) 0x2D rfl (by decide) (by decide) (by simp [FV.ok, encBin]) fun x hx => by
    change ((decBin (unpackV x)).map (Instr.shr h) : Option Instr) = _
    rw [hx]; simp [encBin, decBin]

theorem Sys2Proof.Laws.RoundTrip.sar (h : Hdr) (o : OpBin) : Statement (.sar h o) :=
  ofV (f := encBin o) 0x2E rfl (by decide) (by decide) (by simp [FV.ok, encBin]) fun x hx => by
    change ((decBin (unpackV x)).map (Instr.sar h) : Option Instr) = _
    rw [hx]; simp [encBin, decBin]

theorem Sys2Proof.Laws.RoundTrip.rol (h : Hdr) (o : OpBin) : Statement (.rol h o) :=
  ofV (f := encBin o) 0x2F rfl (by decide) (by decide) (by simp [FV.ok, encBin]) fun x hx => by
    change ((decBin (unpackV x)).map (Instr.rol h) : Option Instr) = _
    rw [hx]; simp [encBin, decBin]

theorem Sys2Proof.Laws.RoundTrip.shli (h : Hdr) (d : Reg) (a : Reg) (n : BitVec 6) : Statement (.shli h d a n) :=
  ofI (f := { d := regCode d, a := regCode a, imm := n.toNat }) 0x4E rfl (by decide) (by decide) (by simp [FI.ok]) fun x hx => by
    change (do return .shli h (← regOf (unpackI x).d) (← regOf (unpackI x).a) (BitVec.ofNat 6 (unpackI x).imm) : Option Instr) = _
    rw [hx]; simp

theorem Sys2Proof.Laws.RoundTrip.shri (h : Hdr) (d : Reg) (a : Reg) (n : BitVec 6) : Statement (.shri h d a n) :=
  ofI (f := { d := regCode d, a := regCode a, imm := n.toNat }) 0x4F rfl (by decide) (by decide) (by simp [FI.ok]) fun x hx => by
    change (do return .shri h (← regOf (unpackI x).d) (← regOf (unpackI x).a) (BitVec.ofNat 6 (unpackI x).imm) : Option Instr) = _
    rw [hx]; simp

theorem Sys2Proof.Laws.RoundTrip.popc (h : Hdr) (o : OpUn) : Statement (.popc h o) :=
  ofV (f := encUn o) 0x30 rfl (by decide) (by decide) (by simp [FV.ok, encUn]) fun x hx => by
    change ((decUn (unpackV x)).map (Instr.popc h) : Option Instr) = _
    rw [hx]; simp [encUn, decUn]

theorem Sys2Proof.Laws.RoundTrip.clz (h : Hdr) (o : OpUn) : Statement (.clz h o) :=
  ofV (f := encUn o) 0x31 rfl (by decide) (by decide) (by simp [FV.ok, encUn]) fun x hx => by
    change ((decUn (unpackV x)).map (Instr.clz h) : Option Instr) = _
    rw [hx]; simp [encUn, decUn]

theorem Sys2Proof.Laws.RoundTrip.ctz (h : Hdr) (o : OpUn) : Statement (.ctz h o) :=
  ofV (f := encUn o) 0x32 rfl (by decide) (by decide) (by simp [FV.ok, encUn]) fun x hx => by
    change ((decUn (unpackV x)).map (Instr.ctz h) : Option Instr) = _
    rw [hx]; simp [encUn, decUn]

theorem Sys2Proof.Laws.RoundTrip.brev (h : Hdr) (o : OpUn) : Statement (.brev h o) :=
  ofV (f := encUn o) 0x35 rfl (by decide) (by decide) (by simp [FV.ok, encUn]) fun x hx => by
    change ((decUn (unpackV x)).map (Instr.brev h) : Option Instr) = _
    rw [hx]; simp [encUn, decUn]

theorem Sys2Proof.Laws.RoundTrip.bfx (h : Hdr) (o : OpField) : Statement (.bfx h o) :=
  ofV (f := encField o) 0x33 rfl (by decide) (by decide) (by simp [FV.ok, encField]) fun x hx => by
    change ((decField (unpackV x)).map (Instr.bfx h) : Option Instr) = _
    rw [hx]; simp [encField, decField]

theorem Sys2Proof.Laws.RoundTrip.bfi (h : Hdr) (o : OpField) : Statement (.bfi h o) :=
  ofV (f := encField o) 0x34 rfl (by decide) (by decide) (by simp [FV.ok, encField]) fun x hx => by
    change ((decField (unpackV x)).map (Instr.bfi h) : Option Instr) = _
    rw [hx]; simp [encField, decField]

theorem Sys2Proof.Laws.RoundTrip.mulh (h : Hdr) (o : OpBin) : Statement (.mulh h o) :=
  ofV (f := encBin o) 0x36 rfl (by decide) (by decide) (by simp [FV.ok, encBin]) fun x hx => by
    change ((decBin (unpackV x)).map (Instr.mulh h) : Option Instr) = _
    rw [hx]; simp [encBin, decBin]

theorem Sys2Proof.Laws.RoundTrip.addw (h : Hdr) (o : OpBin) : Statement (.addw h o) :=
  ofV (f := encBin o) 0x37 rfl (by decide) (by decide) (by simp [FV.ok, encBin]) fun x hx => by
    change ((decBin (unpackV x)).map (Instr.addw h) : Option Instr) = _
    rw [hx]; simp [encBin, decBin]

theorem Sys2Proof.Laws.RoundTrip.subw (h : Hdr) (o : OpBin) : Statement (.subw h o) :=
  ofV (f := encBin o) 0x38 rfl (by decide) (by decide) (by simp [FV.ok, encBin]) fun x hx => by
    change ((decBin (unpackV x)).map (Instr.subw h) : Option Instr) = _
    rw [hx]; simp [encBin, decBin]

theorem Sys2Proof.Laws.RoundTrip.mulw (h : Hdr) (o : OpBin) : Statement (.mulw h o) :=
  ofV (f := encBin o) 0x39 rfl (by decide) (by decide) (by simp [FV.ok, encBin]) fun x hx => by
    change ((decBin (unpackV x)).map (Instr.mulw h) : Option Instr) = _
    rw [hx]; simp [encBin, decBin]

theorem Sys2Proof.Laws.RoundTrip.lea (h : Hdr) (n : Fin 5) (o : OpBin) : Statement (.lea h n o) :=
  ofV (f := { encBin o with md := n.val }) 0x3A rfl (by decide) (by decide) (by simp [FV.ok, encBin]) fun x hx => by
    change (do return .lea h (← if p : (unpackV x).md < 5 then some ⟨(unpackV x).md, p⟩ else none) (← decBin (unpackV x)) : Option Instr) = _
    rw [hx]; simp [encBin, decBin]

theorem Sys2Proof.Laws.RoundTrip.ptrd (h : Hdr) (o : OpBin) : Statement (.ptrd h o) :=
  ofV (f := encBin o) 0x3B rfl (by decide) (by decide) (by simp [FV.ok, encBin]) fun x hx => by
    change ((decBin (unpackV x)).map (Instr.ptrd h) : Option Instr) = _
    rw [hx]; simp [encBin, decBin]

theorem Sys2Proof.Laws.RoundTrip.mov (h : Hdr) (o : OpUn) : Statement (.mov h o) :=
  ofV (f := encUn o) 0x40 rfl (by decide) (by decide) (by simp [FV.ok, encUn]) fun x hx => by
    change ((decUn (unpackV x)).map (Instr.mov h) : Option Instr) = _
    rw [hx]; simp [encUn, decUn]

theorem Sys2Proof.Laws.RoundTrip.movi (h : Hdr) (d : Reg) (i : BitVec 31) : Statement (.movi h d i) :=
  ofI (f := { d := regCode d, imm := i.toNat }) 0x41 rfl (by decide) (by decide) (by simp [FI.ok]) fun x hx => by
    change (do return .movi h (← regOf (unpackI x).d) (BitVec.ofNat 31 (unpackI x).imm) : Option Instr) = _
    rw [hx]; simp

theorem Sys2Proof.Laws.RoundTrip.movf (h : Hdr) (d : Reg) (i : BitVec 31) : Statement (.movf h d i) :=
  ofI (f := { d := regCode d, imm := i.toNat }) 0x42 rfl (by decide) (by decide) (by simp [FI.ok]) fun x hx => by
    change (do return .movf h (← regOf (unpackI x).d) (BitVec.ofNat 31 (unpackI x).imm) : Option Instr) = _
    rw [hx]; simp

theorem Sys2Proof.Laws.RoundTrip.movl (h : Hdr) (t : Tag) (d : Reg) (lit : Word) : Statement (.movl h t d lit) := by
  have hf : FV.ok { d := regCode d, md := tagCode t } := by simp [FV.ok]
  have hc : ∀ x, unpackV x = { d := regCode d, md := tagCode t } → candidate 0x43 h x lit = some (.movl h t d lit) := by
    intro x hx
    change (do return .movl h (← tagOf (unpackV x).md) (← regOf (unpackV x).d) lit : Option Instr) = _
    rw [hx]; simp
  exact of_literal rfl (packV_lt hf) (hc _ (unpackV_pack hf))

theorem Sys2Proof.Laws.RoundTrip.sel (h : Hdr) (m : MaskNo) (o : OpBin) : Statement (.sel h m o) :=
  ofV (f := { encBin o with c := m.val }) 0x44 rfl (by decide) (by decide) (by simp [FV.ok, encBin]) fun x hx => by
    change (do return .sel h (← maskOf (unpackV x).c) (← decBin (unpackV x)) : Option Instr) = _
    rw [hx]; simp [encBin, decBin]

theorem Sys2Proof.Laws.RoundTrip.getl (h : Hdr) (s : LSpec) (d : Reg) : Statement (.getl h s d) :=
  ofV (f := { d := regCode d, c := lspecCode s }) 0x45 rfl (by decide) (by decide) (by simp [FV.ok]) fun x hx => by
    change (do return .getl h (← lspecOf (unpackV x).c) (← regOf (unpackV x).d) : Option Instr) = _
    rw [hx]; simp

theorem Sys2Proof.Laws.RoundTrip.setl (h : Hdr) (s : LSpec) (a : Reg) : Statement (.setl h s a) :=
  ofV (f := { a := regCode a, c := lspecCode s }) 0x46 rfl (by decide) (by decide) (by simp [FV.ok]) fun x hx => by
    change (do return .setl h (← lspecOf (unpackV x).c) (← regOf (unpackV x).a) : Option Instr) = _
    rw [hx]; simp

theorem Sys2Proof.Laws.RoundTrip.addi (h : Hdr) (o : OpImm) : Statement (.addi h o) :=
  ofI (f := encImm o) 0x48 rfl (by decide) (by decide) (by simp [FI.ok, encImm]) fun x hx => by
    change ((decImm (unpackI x)).map (Instr.addi h) : Option Instr) = _
    rw [hx]; simp [encImm, decImm]

theorem Sys2Proof.Laws.RoundTrip.muli (h : Hdr) (o : OpImm) : Statement (.muli h o) :=
  ofI (f := encImm o) 0x49 rfl (by decide) (by decide) (by simp [FI.ok, encImm]) fun x hx => by
    change ((decImm (unpackI x)).map (Instr.muli h) : Option Instr) = _
    rw [hx]; simp [encImm, decImm]

theorem Sys2Proof.Laws.RoundTrip.bra (h : Hdr) (o : OpBr) : Statement (.bra h o) :=
  ofC (f := encBr o) 0x60 rfl (by decide) (by decide) (by simp [FC.ok, encBr]) fun x hx => by
    change ((decBr (unpackC x)).map (Instr.bra h) : Option Instr) = _
    rw [hx]; simp [encBr, decBr]

theorem Sys2Proof.Laws.RoundTrip.call (h : Hdr) (o : OpBr) : Statement (.call h o) :=
  ofC (f := encBr o) 0x61 rfl (by decide) (by decide) (by simp [FC.ok, encBr]) fun x hx => by
    change ((decBr (unpackC x)).map (Instr.call h) : Option Instr) = _
    rw [hx]; simp [encBr, decBr]

theorem Sys2Proof.Laws.RoundTrip.ret (h : Hdr) (c : Cond) : Statement (.ret h c) :=
  ofC (f := encRet c) 0x62 rfl (by decide) (by decide) (by simp [FC.ok, encRet]) fun x hx => by
    change ((decCond (unpackC x).cond (unpackC x).b).map (Instr.ret h) : Option Instr) = _
    rw [hx]; simp [encRet]

theorem Sys2Proof.Laws.RoundTrip.jmpi (h : Hdr) (b : Reg) : Statement (.jmpi h b) :=
  ofC (f := { b := regCode b }) 0x63 rfl (by decide) (by decide) (by simp [FC.ok]) fun x hx => by
    change ((regOf (unpackC x).b).map (Instr.jmpi h) : Option Instr) = _
    rw [hx]; simp

theorem Sys2Proof.Laws.RoundTrip.exit (h : Hdr) (c : Cond) : Statement (.exit h c) :=
  ofC (f := encRet c) 0x64 rfl (by decide) (by decide) (by simp [FC.ok, encRet]) fun x hx => by
    change ((decCond (unpackC x).cond (unpackC x).b).map (Instr.exit h) : Option Instr) = _
    rw [hx]; simp [encRet]

theorem Sys2Proof.Laws.RoundTrip.lcall (h : Hdr) (o : OpBr) : Statement (.lcall h o) :=
  ofC (f := encBr o) 0x70 rfl (by decide) (by decide) (by simp [FC.ok, encBr]) fun x hx => by
    change ((decBr (unpackC x)).map (Instr.lcall h) : Option Instr) = _
    rw [hx]; simp [encBr, decBr]

theorem Sys2Proof.Laws.RoundTrip.join (h : Hdr) (m : MaskNo) : Statement (.join h m) :=
  ofC (f := { b := m.val }) 0x65 rfl (by decide) (by decide) (by simp [FC.ok]) fun x hx => by
    change ((maskOf (unpackC x).b).map (Instr.join h) : Option Instr) = _
    rw [hx]; simp

theorem Sys2Proof.Laws.RoundTrip.leave (h : Hdr) (m : MaskNo) : Statement (.leave h m) :=
  ofC (f := { b := m.val }) 0x66 rfl (by decide) (by decide) (by simp [FC.ok]) fun x hx => by
    change ((maskOf (unpackC x).b).map (Instr.leave h) : Option Instr) = _
    rw [hx]; simp

theorem Sys2Proof.Laws.RoundTrip.mset (h : Hdr) (k : MsetKind) (m : MaskNo) (a : Reg) : Statement (.mset h k m a) :=
  ofV (f := { d := m.val, a := regCode a, md := msetCode k }) 0x67 rfl (by decide) (by decide) (by simp [FV.ok]) fun x hx => by
    change (do return .mset h (← msetOf (unpackV x).md) (← maskOf (unpackV x).d) (← regOf (unpackV x).a) : Option Instr) = _
    rw [hx]; simp

theorem Sys2Proof.Laws.RoundTrip.mops (h : Hdr) (k : MopsOp) (d : MaskNo) (a : MaskNo) (b : MaskNo) : Statement (.mops h k d a b) :=
  ofV (f := { d := d.val, a := a.val, b := b.val, md := mopsCode k }) 0x68 rfl (by decide) (by decide) (by simp [FV.ok]) fun x hx => by
    change (do
        let f := unpackV x
        return .mops h (← mopsOf f.md) (← maskOf f.d) (← maskOf f.a) (← maskOf f.b) : Option Instr) = _
    rw [hx]; simp

theorem Sys2Proof.Laws.RoundTrip.mget (h : Hdr) (d : Reg) (m : MaskNo) : Statement (.mget h d m) :=
  ofV (f := { d := regCode d, a := m.val }) 0x69 rfl (by decide) (by decide) (by simp [FV.ok]) fun x hx => by
    change (do return .mget h (← regOf (unpackV x).d) (← maskOf (unpackV x).a) : Option Instr) = _
    rw [hx]; simp

theorem Sys2Proof.Laws.RoundTrip.elect (h : Hdr) (m : MaskNo) : Statement (.elect h m) :=
  ofV (f := { d := m.val }) 0x7B rfl (by decide) (by decide) (by simp [FV.ok]) fun x hx => by
    change ((maskOf (unpackV x).d).map (Instr.elect h) : Option Instr) = _
    rw [hx]; simp

theorem Sys2Proof.Laws.RoundTrip.shfl (h : Hdr) (d : Reg) (a : Reg) (b : Reg) : Statement (.shfl h d a b) :=
  ofV (f := { d := regCode d, a := regCode a, b := regCode b }) 0x6A rfl (by decide) (by decide) (by simp [FV.ok]) fun x hx => by
    change (do return .shfl h (← regOf (unpackV x).d) (← regOf (unpackV x).a) (← regOf (unpackV x).b) : Option Instr) = _
    rw [hx]; simp

theorem Sys2Proof.Laws.RoundTrip.shflx (h : Hdr) (d : Reg) (a : Reg) (k : BitVec 6) : Statement (.shflx h d a k) :=
  ofV (f := { d := regCode d, a := regCode a, md := k.toNat % 16, sub := k.toNat / 16 }) 0x6B rfl (by decide) (by decide) (by simp [FV.ok]) fun x hx => by
    change (do
        let f := unpackV x
        return .shflx h (← regOf f.d) (← regOf f.a) (BitVec.ofNat 6 (f.md + 16 * f.sub)) : Option Instr) = _
    rw [hx]; simp

theorem Sys2Proof.Laws.RoundTrip.bcast (h : Hdr) (d : Reg) (a : Reg) (b : Reg) : Statement (.bcast h d a b) :=
  ofV (f := { d := regCode d, a := regCode a, b := regCode b }) 0x6C rfl (by decide) (by decide) (by simp [FV.ok]) fun x hx => by
    change (do return .bcast h (← regOf (unpackV x).d) (← regOf (unpackV x).a) (← regOf (unpackV x).b) : Option Instr) = _
    rw [hx]; simp

theorem Sys2Proof.Laws.RoundTrip.vote (h : Hdr) (k : VoteOp) (d : Reg) (a : Reg) : Statement (.vote h k d a) :=
  ofV (f := { d := regCode d, a := regCode a, md := voteCode k }) 0x6D rfl (by decide) (by decide) (by simp [FV.ok]) fun x hx => by
    change (do return .vote h (← voteOf (unpackV x).md) (← regOf (unpackV x).d) (← regOf (unpackV x).a) : Option Instr) = _
    rw [hx]; simp

theorem Sys2Proof.Laws.RoundTrip.redux (h : Hdr) (k : RedOp) (d : Reg) (a : Reg) : Statement (.redux h k d a) :=
  ofV (f := { d := regCode d, a := regCode a, md := redCode k }) 0x6E rfl (by decide) (by decide) (by simp [FV.ok]) fun x hx => by
    change (do return .redux h (← redOf (unpackV x).md) (← regOf (unpackV x).d) (← regOf (unpackV x).a) : Option Instr) = _
    rw [hx]; simp

theorem Sys2Proof.Laws.RoundTrip.scanx (h : Hdr) (k : RedOp) (ex : Bool) (d : Reg) (a : Reg) : Statement (.scanx h k ex d a) :=
  ofV (f := { d := regCode d, a := regCode a, md := redCode k, sub := flagCode ex }) 0x6F rfl (by decide) (by decide) (by simp [FV.ok]) fun x hx => by
    change (do
        let f := unpackV x
        return .scanx h (← redOf f.md) (← flagOf f.sub) (← regOf f.d) (← regOf f.a) : Option Instr) = _
    rw [hx]; simp

theorem Sys2Proof.Laws.RoundTrip.lret (h : Hdr) (a : Reg) : Statement (.lret h a) :=
  ofV (f := { a := regCode a }) 0x71 rfl (by decide) (by decide) (by simp [FV.ok]) fun x hx => by
    change ((regOf (unpackV x).a).map (Instr.lret h) : Option Instr) = _
    rw [hx]; simp

theorem Sys2Proof.Laws.RoundTrip.alloc (h : Hdr) (d : Reg) (a : Reg) : Statement (.alloc h d a) :=
  ofX (f := { d := regCode d, a := regCode a }) 0x72 rfl (by decide) (by decide) (by simp [FX.ok]) fun x hx => by
    change (do return .alloc h (← regOf (unpackX x).d) (← regOf (unpackX x).a) : Option Instr) = _
    rw [hx]; simp

theorem Sys2Proof.Laws.RoundTrip.gets (h : Hdr) (s : WSpec) (d : Reg) : Statement (.gets h s d) :=
  ofS (f := { d := regCode d, sel := wspecCode s }) 0x73 rfl (by decide) (by decide) (by simp [FS.ok]) fun x hx => by
    change (do return .gets h (← wspecOf (unpackS x).sel) (← regOf (unpackS x).d) : Option Instr) = _
    rw [hx]; simp

theorem Sys2Proof.Laws.RoundTrip.sets (h : Hdr) (s : WSpec) (a : Reg) : Statement (.sets h s a) :=
  ofS (f := { a := regCode a, sel := wspecCode s }) 0x74 rfl (by decide) (by decide) (by simp [FS.ok]) fun x hx => by
    change (do return .sets h (← wspecOf (unpackS x).sel) (← regOf (unpackS x).a) : Option Instr) = _
    rw [hx]; simp

theorem Sys2Proof.Laws.RoundTrip.trap (h : Hdr) (n : BitVec 16) : Statement (.trap h n) :=
  ofS (f := { sel := n.toNat }) 0x75 rfl (by decide) (by decide) (by simp [FS.ok]) fun x hx => by
    change (some (.trap h (BitVec.ofNat 16 (unpackS x).sel)) : Option Instr) = _
    rw [hx]; simp

theorem Sys2Proof.Laws.RoundTrip.bkpt (h : Hdr) (n : BitVec 16) : Statement (.bkpt h n) :=
  ofS (f := { sel := n.toNat }) 0x77 rfl (by decide) (by decide) (by simp [FS.ok]) fun x hx => by
    change (some (.bkpt h (BitVec.ofNat 16 (unpackS x).sel)) : Option Instr) = _
    rw [hx]; simp

theorem Sys2Proof.Laws.RoundTrip.tret (h : Hdr) : Statement (.tret h) :=
  of_body 0x76 rfl (by decide) (by decide) (by decide) rfl

theorem Sys2Proof.Laws.RoundTrip.nop (h : Hdr) : Statement (.nop h) :=
  of_body 0x78 rfl (by decide) (by decide) (by decide) rfl

theorem Sys2Proof.Laws.RoundTrip.yield (h : Hdr) : Statement (.yield h) :=
  of_body 0x79 rfl (by decide) (by decide) (by decide) rfl

theorem Sys2Proof.Laws.RoundTrip.sleep (h : Hdr) (n : BitVec 16) : Statement (.sleep h n) :=
  ofS (f := { sel := n.toNat }) 0x7A rfl (by decide) (by decide) (by simp [FS.ok]) fun x hx => by
    change (some (.sleep h (BitVec.ofNat 16 (unpackS x).sel)) : Option Instr) = _
    rw [hx]; simp

theorem Sys2Proof.Laws.RoundTrip.sleepExpiry (w : Nat) : Statement (.sleepExpiry w) := of_event rfl

theorem Sys2Proof.Laws.RoundTrip.trapEntry (w : Nat) : Statement (.trapEntry w) := of_event rfl

theorem Sys2Proof.Laws.RoundTrip.runSelect (core : Nat) (part : Nat) : Statement (.runSelect core part) := of_event rfl

theorem Sys2Proof.Laws.RoundTrip.resultArrival (core : Nat) (slot : Nat) : Statement (.resultArrival core slot) := of_event rfl

theorem Sys2Proof.Laws.RoundTrip.instructionFill (core : Nat) (line : Nat) : Statement (.instructionFill core line) := of_event rfl

theorem Sys2Proof.Laws.RoundTrip.translationWalkDone (w : Nat) : Statement (.translationWalkDone w) := of_event rfl

theorem Sys2Proof.Laws.RoundTrip.ld (h : Hdr) (o : OpMem) : Statement (.ld h o) :=
  ofM (f := encMem o) 0x80 rfl (by decide) (by decide) (by simp [FM.ok, encMem]) fun x hx => by
    change ((decMem (unpackM x)).map (Instr.ld h) : Option Instr) = _
    rw [hx]; simp [encMem, decMem]

theorem Sys2Proof.Laws.RoundTrip.st (h : Hdr) (o : OpMem) : Statement (.st h o) :=
  ofM (f := encMem o) 0x81 rfl (by decide) (by decide) (by simp [FM.ok, encMem]) fun x hx => by
    change ((decMem (unpackM x)).map (Instr.st h) : Option Instr) = _
    rw [hx]; simp [encMem, decMem]

theorem Sys2Proof.Laws.RoundTrip.ldr (h : Hdr) (o : OpMemF) : Statement (.ldr h o) :=
  ofM (f := encMemF o) 0x82 rfl (by decide) (by decide) (by simp [FM.ok, encMemF]) fun x hx => by
    change ((decMemF (unpackM x)).map (Instr.ldr h) : Option Instr) = _
    rw [hx]; simp [encMemF, decMemF]

theorem Sys2Proof.Laws.RoundTrip.str (h : Hdr) (o : OpMemF) : Statement (.str h o) :=
  ofM (f := encMemF o) 0x83 rfl (by decide) (by decide) (by simp [FM.ok, encMemF]) fun x hx => by
    change ((decMemF (unpackM x)).map (Instr.str h) : Option Instr) = _
    rw [hx]; simp [encMemF, decMemF]

theorem Sys2Proof.Laws.RoundTrip.lr (h : Hdr) (o : OpMem) : Statement (.lr h o) :=
  ofM (f := encMem o) 0x84 rfl (by decide) (by decide) (by simp [FM.ok, encMem]) fun x hx => by
    change ((decMem (unpackM x)).map (Instr.lr h) : Option Instr) = _
    rw [hx]; simp [encMem, decMem]

theorem Sys2Proof.Laws.RoundTrip.sc (h : Hdr) (o : OpMem) : Statement (.sc h o) :=
  ofM (f := encMem o) 0x85 rfl (by decide) (by decide) (by simp [FM.ok, encMem]) fun x hx => by
    change ((decMem (unpackM x)).map (Instr.sc h) : Option Instr) = _
    rw [hx]; simp [encMem, decMem]

theorem Sys2Proof.Laws.RoundTrip.fence (h : Hdr) (o : Ord4) (s : Scope) (r : Bool) : Statement (.fence h o s r) :=
  ofM (f := { scope := scopeCode s, ord := ordCode o, racq := flagCode r }) 0x86 rfl (by decide) (by decide) (by simp [FM.ok]) fun x hx => by
    change (do
        let f := unpackM x
        return .fence h (← ordOf f.ord) (← scopeOf f.scope) (← flagOf f.racq) : Option Instr) = _
    rw [hx]; simp

theorem Sys2Proof.Laws.RoundTrip.pf (h : Hdr) (o : OpCache) : Statement (.pf h o) :=
  ofM (f := encCache o) 0x87 rfl (by decide) (by decide) (by simp [FM.ok, encCache]) fun x hx => by
    change ((decCache (unpackM x)).map (Instr.pf h) : Option Instr) = _
    rw [hx]; simp [encCache, decCache]

theorem Sys2Proof.Laws.RoundTrip.cflush (h : Hdr) (o : OpCache) : Statement (.cflush h o) :=
  ofM (f := encCache o) 0x88 rfl (by decide) (by decide) (by simp [FM.ok, encCache]) fun x hx => by
    change ((decCache (unpackM x)).map (Instr.cflush h) : Option Instr) = _
    rw [hx]; simp [encCache, decCache]

theorem Sys2Proof.Laws.RoundTrip.cinv (h : Hdr) (o : OpCache) : Statement (.cinv h o) :=
  ofM (f := encCache o) 0x89 rfl (by decide) (by decide) (by simp [FM.ok, encCache]) fun x hx => by
    change ((decCache (unpackM x)).map (Instr.cinv h) : Option Instr) = _
    rw [hx]; simp [encCache, decCache]

theorem Sys2Proof.Laws.RoundTrip.ldh (h : Hdr) (d : Reg) (a : Reg) (b : Reg) (off : BitVec 13) : Statement (.ldh h d a b off) :=
  ofM (f := { d := regCode d, a := regCode a, b := regCode b, off := off.toNat }) 0x8A rfl (by decide) (by decide) (by simp [FM.ok]) fun x hx => by
    change (do
        let f := unpackM x
        return .ldh h (← regOf f.d) (← regOf f.a) (← regOf f.b) (BitVec.ofNat 13 f.off) : Option Instr) = _
    rw [hx]; simp

theorem Sys2Proof.Laws.RoundTrip.hcas (h : Hdr) (o : OpX4) (w : Ord4) (s : Scope) (r : Bool) : Statement (.hcas h o w s r) :=
  ofX (f := encX4 o (memMode s w r 0 0)) 0x8B rfl (by decide) (by decide) (by simp [FX.ok, encX4]) fun x hx => by
    change (do
        let f := unpackX x
        return .hcas h (← decX4 f) (← ordOf (bitsOf f.mode 10 2)) (← scopeOf (bitsOf f.mode 12 3)) (← flagOf (bitsOf f.mode 9 1)) : Option Instr) = _
    rw [hx]; simp [encX4, decX4]

theorem Sys2Proof.Laws.RoundTrip.lds (h : Hdr) (o : OpScr) : Statement (.lds h o) :=
  ofM (f := encScr o) 0x8C rfl (by decide) (by decide) (by simp [FM.ok, encScr]) fun x hx => by
    change ((decScr (unpackM x)).map (Instr.lds h) : Option Instr) = _
    rw [hx]; simp [encScr, decScr]

theorem Sys2Proof.Laws.RoundTrip.sts (h : Hdr) (o : OpScr) : Statement (.sts h o) :=
  ofM (f := encScr o) 0x8D rfl (by decide) (by decide) (by simp [FM.ok, encScr]) fun x hx => by
    change ((decScr (unpackM x)).map (Instr.sts h) : Option Instr) = _
    rw [hx]; simp [encScr, decScr]

theorem Sys2Proof.Laws.RoundTrip.satom (h : Hdr) (op : AOp) (f : TFmt) (z : Swz) (o : OpX4) : Statement (.satom h op f z o) :=
  ofX (f := encX4 o (tfmtCode f + 32 * aopCode op + 4096 * swzCode z)) 0x8E rfl (by decide) (by decide) (by simp [FX.ok, satomMode f op z, encX4]) fun x hx => by
    change (do
        let f := unpackX x
        return .satom h (← aopOf (bitsOf f.mode 5 4)) (← tfmtOf (bitsOf f.mode 0 4)) (← swzOf (bitsOf f.mode 12 3)) (← decX4 f) : Option Instr) = _
    rw [hx]; simp [satomMode f op z, encX4, decX4]

theorem Sys2Proof.Laws.RoundTrip.tile (h : Hdr) (f : TFmt) (z : Swz) (p : Sparsity) (o : OpX4) : Statement (.tile h f z p o) :=
  ofX (f := encX4 o (tfmtCode f + 32 * swzCode z + 128 * sparCode p)) 0x90 rfl (by decide) (by decide) (by simp [FX.ok, tileMode f z p, encX4]) fun x hx => by
    change (do
        let f := unpackX x
        return .tile h (← tfmtOf (bitsOf f.mode 0 5)) (← swzOf (bitsOf f.mode 5 2)) (← sparOf (bitsOf f.mode 7 2)) (← decX4 f) : Option Instr) = _
    rw [hx]; simp [tileMode f z p, encX4, decX4]

theorem Sys2Proof.Laws.RoundTrip.cpy (h : Hdr) (m : CpyMode) (out : Bool) (a : Reg) (b : Reg) (c : Reg) : Statement (.cpy h m out a b c) :=
  ofX (f := { a := regCode a, b := regCode b, c := regCode c, mode := cpyCode m + 8 * flagCode out }) 0x91 rfl (by decide) (by decide) (by simp [FX.ok, cpyMode m out]) fun x hx => by
    change (do
        let f := unpackX x
        return .cpy h (← cpyOf (bitsOf f.mode 0 3)) (← flagOf (bitsOf f.mode 3 1)) (← regOf f.a) (← regOf f.b) (← regOf f.c) : Option Instr) = _
    rw [hx]; simp [cpyMode m out]

theorem Sys2Proof.Laws.RoundTrip.copyExecute (core : Nat) : Statement (.copyExecute core) := of_event rfl

theorem Sys2Proof.Laws.RoundTrip.give (h : Hdr) (a : Reg) : Statement (.give h a) :=
  ofX (f := { a := regCode a }) 0x92 rfl (by decide) (by decide) (by simp [FX.ok]) fun x hx => by
    change (do return .give h (← regOf (unpackX x).a) : Option Instr) = _
    rw [hx]; simp

theorem Sys2Proof.Laws.RoundTrip.take (h : Hdr) (a : Reg) : Statement (.take h a) :=
  ofX (f := { a := regCode a }) 0x93 rfl (by decide) (by decide) (by simp [FX.ok]) fun x hx => by
    change (do return .take h (← regOf (unpackX x).a) : Option Instr) = _
    rw [hx]; simp

theorem Sys2Proof.Laws.RoundTrip.ownq (h : Hdr) (d : Reg) (a : Reg) : Statement (.ownq h d a) :=
  ofX (f := { d := regCode d, a := regCode a }) 0x94 rfl (by decide) (by decide) (by simp [FX.ok]) fun x hx => by
    change (do return .ownq h (← regOf (unpackX x).d) (← regOf (unpackX x).a) : Option Instr) = _
    rw [hx]; simp

theorem Sys2Proof.Laws.RoundTrip.mma (h : Hdr) (acc : BitVec 5) (a : Reg) (b : Reg) : Statement (.mma h acc a b) :=
  ofX (f := { a := regCode a, b := regCode b, mode := acc.toNat }) 0x95 rfl (by decide) (by decide) (by simp [FX.ok]) fun x hx => by
    change (do return .mma h (BitVec.ofNat 5 (unpackX x).mode) (← regOf (unpackX x).a) (← regOf (unpackX x).b) : Option Instr) = _
    rw [hx]; simp

theorem Sys2Proof.Laws.RoundTrip.mmab (h : Hdr) (acc : BitVec 5) (s : BitVec 5) (b : Reg) : Statement (.mmab h acc s b) :=
  ofX (f := { b := regCode b, mode := acc.toNat + 32 * s.toNat }) 0x96 rfl (by decide) (by decide) (by simp [FX.ok]) fun x hx => by
    change (do return .mmab h (BitVec.ofNat 5 (unpackX x).mode) (BitVec.ofNat 5 (bitsOf (unpackX x).mode 5 5)) (← regOf (unpackX x).b) : Option Instr) = _
    rw [hx]; simp

theorem Sys2Proof.Laws.RoundTrip.matrixStep (core : Nat) : Statement (.matrixStep core) := of_event rfl

theorem Sys2Proof.Laws.RoundTrip.accz (h : Hdr) (acc : BitVec 5) : Statement (.accz h acc) :=
  ofX (f := { mode := acc.toNat }) 0x97 rfl (by decide) (by decide) (by simp [FX.ok]) fun x hx => by
    change (some (.accz h (BitVec.ofNat 5 (unpackX x).mode)) : Option Instr) = _
    rw [hx]; simp

theorem Sys2Proof.Laws.RoundTrip.accw (h : Hdr) (acc : BitVec 5) : Statement (.accw h acc) :=
  ofX (f := { mode := acc.toNat }) 0x9A rfl (by decide) (by decide) (by simp [FX.ok]) fun x hx => by
    change (some (.accw h (BitVec.ofNat 5 (unpackX x).mode)) : Option Instr) = _
    rw [hx]; simp

theorem Sys2Proof.Laws.RoundTrip.accld (h : Hdr) (acc : BitVec 5) (a : Reg) : Statement (.accld h acc a) :=
  ofX (f := { a := regCode a, mode := acc.toNat }) 0x99 rfl (by decide) (by decide) (by simp [FX.ok]) fun x hx => by
    change (do return .accld h (BitVec.ofNat 5 (unpackX x).mode) (← regOf (unpackX x).a) : Option Instr) = _
    rw [hx]; simp

theorem Sys2Proof.Laws.RoundTrip.accrd (h : Hdr) (acc : BitVec 5) (a : Reg) : Statement (.accrd h acc a) :=
  ofX (f := { a := regCode a, mode := acc.toNat }) 0x98 rfl (by decide) (by decide) (by simp [FX.ok]) fun x hx => by
    change (do return .accrd h (BitVec.ofNat 5 (unpackX x).mode) (← regOf (unpackX x).a) : Option Instr) = _
    rw [hx]; simp

theorem Sys2Proof.Laws.RoundTrip.bndget (h : Hdr) (d : Reg) (acc : BitVec 5) : Statement (.bndget h d acc) :=
  ofX (f := { d := regCode d, mode := acc.toNat }) 0x9B rfl (by decide) (by decide) (by simp [FX.ok]) fun x hx => by
    change (do return .bndget h (← regOf (unpackX x).d) (BitVec.ofNat 5 (unpackX x).mode) : Option Instr) = _
    rw [hx]; simp

theorem Sys2Proof.Laws.RoundTrip.bndset (h : Hdr) (acc : BitVec 5) (a : Reg) : Statement (.bndset h acc a) :=
  ofX (f := { a := regCode a, mode := acc.toNat }) 0x9C rfl (by decide) (by decide) (by simp [FX.ok]) fun x hx => by
    change (do return .bndset h (BitVec.ofNat 5 (unpackX x).mode) (← regOf (unpackX x).a) : Option Instr) = _
    rw [hx]; simp

theorem Sys2Proof.Laws.RoundTrip.bninit (h : Hdr) (b : BitVec 5) (p : BitVec 5) (c : BitVec 5) : Statement (.bninit h b p c) :=
  ofX (f := { mode := c.toNat + 32 * p.toNat + 1024 * b.toNat }) 0xA0 rfl (by decide) (by decide) (by simp [FX.ok, binitMode c p b]) fun x hx => by
    change (let m := (unpackX x).mode
        some (.bninit h (BitVec.ofNat 5 (bitsOf m 10 5)) (BitVec.ofNat 5 (bitsOf m 5 5)) (BitVec.ofNat 5 (bitsOf m 0 5))) : Option Instr) = _
    rw [hx]; simp [binitMode c p b]

theorem Sys2Proof.Laws.RoundTrip.bna (h : Hdr) (b : BitVec 5) : Statement (.bna h b) :=
  ofX (f := { mode := 1024 * b.toNat }) 0xA1 rfl (by decide) (by decide) (by simp [FX.ok]) fun x hx => by
    change (some (.bna h (BitVec.ofNat 5 (bitsOf (unpackX x).mode 10 5))) : Option Instr) = _
    rw [hx]; simp

theorem Sys2Proof.Laws.RoundTrip.bnw (h : Hdr) (b : BitVec 5) : Statement (.bnw h b) :=
  ofX (f := { mode := 1024 * b.toNat }) 0xA2 rfl (by decide) (by decide) (by simp [FX.ok]) fun x hx => by
    change (some (.bnw h (BitVec.ofNat 5 (bitsOf (unpackX x).mode 10 5))) : Option Instr) = _
    rw [hx]; simp

theorem Sys2Proof.Laws.RoundTrip.bnaw (h : Hdr) (b : BitVec 5) : Statement (.bnaw h b) :=
  ofX (f := { mode := 1024 * b.toNat }) 0xA3 rfl (by decide) (by decide) (by simp [FX.ok]) fun x hx => by
    change (some (.bnaw h (BitVec.ofNat 5 (bitsOf (unpackX x).mode 10 5))) : Option Instr) = _
    rw [hx]; simp

theorem Sys2Proof.Laws.RoundTrip.atom (h : Hdr) (o : OpAtom) : Statement (.atom h o) :=
  ofX (f := encAtom o) 0xC0 rfl (by decide) (by decide) (by simp [FX.ok, atomMode o.scope o.ord o.racq o.op, encAtom]) fun x hx => by
    change ((decAtom (unpackX x)).map (Instr.atom h) : Option Instr) = _
    rw [hx]; simp [atomMode o.scope o.ord o.racq o.op, encAtom, decAtom]

theorem Sys2Proof.Laws.RoundTrip.vatom (h : Hdr) (op : AOp) (f : TFmt) (d : Reg) (a : Reg) (b : Reg) (w : Ord4) (s : Scope) : Statement (.vatom h op f d a b w s) :=
  ofX (f := { d := regCode d, a := regCode a, b := regCode b, mode := memMode s w false (aopCode op) (tfmtCode f) }) 0xC1 rfl (by decide) (by decide) (by simp [FX.ok, vatomMode s w false op f]) fun x hx => by
    change (do
        let f := unpackX x
        return .vatom h (← aopOf (bitsOf f.mode 5 4)) (← tfmtOf (bitsOf f.mode 0 5)) (← regOf f.d) (← regOf f.a) (← regOf f.b)
          (← ordOf (bitsOf f.mode 10 2)) (← scopeOf (bitsOf f.mode 12 3)) : Option Instr) = _
    rw [hx]; simp [vatomMode s w false op f]

theorem Sys2Proof.Laws.RoundTrip.mmap (h : Hdr) (acc : BitVec 5) (a : Reg) (b : Reg) : Statement (.mmap h acc a b) :=
  ofX (f := { a := regCode a, b := regCode b, mode := acc.toNat }) 0xC2 rfl (by decide) (by decide) (by simp [FX.ok]) fun x hx => by
    change (do return .mmap h (BitVec.ofNat 5 (unpackX x).mode) (← regOf (unpackX x).a) (← regOf (unpackX x).b) : Option Instr) = _
    rw [hx]; simp

theorem Sys2Proof.Laws.RoundTrip.pairedStep (core : Nat) : Statement (.pairedStep core) := of_event rfl

theorem Sys2Proof.Laws.RoundTrip.aswRequest (cluster : Nat) : Statement (.aswRequest cluster) := of_event rfl

theorem Sys2Proof.Laws.RoundTrip.atomicReply (core : Nat) (slot : Nat) : Statement (.atomicReply core slot) := of_event rfl

theorem Sys2Proof.Laws.RoundTrip.aswStallTimeout (cluster : Nat) : Statement (.aswStallTimeout cluster) := of_event rfl

theorem Sys2Proof.Laws.RoundTrip.aswRestart (cluster : Nat) (intact : List Bool) : Statement (.aswRestart cluster intact) := of_event rfl

theorem Sys2Proof.Laws.RoundTrip.kvapp (h : Hdr) (a : Reg) (b : Reg) (c : Reg) : Statement (.kvapp h a b c) :=
  ofX (f := { a := regCode a, b := regCode b, c := regCode c }) 0xD0 rfl (by decide) (by decide) (by simp [FX.ok]) fun x hx => by
    change (do return .kvapp h (← regOf (unpackX x).a) (← regOf (unpackX x).b) (← regOf (unpackX x).c) : Option Instr) = _
    rw [hx]; simp

theorem Sys2Proof.Laws.RoundTrip.kvappPerform (n : Nat) : Statement (.kvappPerform n) := of_event rfl

theorem Sys2Proof.Laws.RoundTrip.ksel (h : Hdr) (s : Bool) (r : Bool) (o : OpX4) : Statement (.ksel h s r o) :=
  ofX (f := encX4 o (flagCode s + 2 * flagCode r)) 0xD1 rfl (by decide) (by decide) (by simp [FX.ok, kselMode s r, encX4]) fun x hx => by
    change (do
        let f := unpackX x
        return .ksel h (← flagOf (bitsOf f.mode 0 1)) (← flagOf (bitsOf f.mode 1 1)) (← decX4 f) : Option Instr) = _
    rw [hx]; simp [kselMode s r, encX4, decX4]

theorem Sys2Proof.Laws.RoundTrip.pageSelect (n : Nat) : Statement (.pageSelect n) := of_event rfl

theorem Sys2Proof.Laws.RoundTrip.kselComplete (n : Nat) : Statement (.kselComplete n) := of_event rfl

theorem Sys2Proof.Laws.RoundTrip.attn (h : Hdr) (o : OpX4) : Statement (.attn h o) :=
  ofX (f := encX4 o 0) 0xD2 rfl (by decide) (by decide) (by simp [FX.ok, encX4]) fun x hx => by
    change ((decX4 (unpackX x)).map (Instr.attn h) : Option Instr) = _
    rw [hx]; simp [encX4, decX4]

theorem Sys2Proof.Laws.RoundTrip.attnPartial (n : Nat) (block : Nat) : Statement (.attnPartial n block) := of_event rfl

theorem Sys2Proof.Laws.RoundTrip.attnMerge (n : Nat) (block : Nat) : Statement (.attnMerge n block) := of_event rfl

theorem Sys2Proof.Laws.RoundTrip.kvxl (h : Hdr) (d : Reg) (a : Reg) (b : Reg) : Statement (.kvxl h d a b) :=
  ofX (f := { d := regCode d, a := regCode a, b := regCode b }) 0xD3 rfl (by decide) (by decide) (by simp [FX.ok]) fun x hx => by
    change (do return .kvxl h (← regOf (unpackX x).d) (← regOf (unpackX x).a) (← regOf (unpackX x).b) : Option Instr) = _
    rw [hx]; simp

theorem Sys2Proof.Laws.RoundTrip.wqry (h : Hdr) (a : Reg) : Statement (.wqry h a) :=
  ofX (f := { a := regCode a }) 0xE0 rfl (by decide) (by decide) (by simp [FX.ok]) fun x hx => by
    change (do return .wqry h (← regOf (unpackX x).a) : Option Instr) = _
    rw [hx]; simp

theorem Sys2Proof.Laws.RoundTrip.wqryReply (n : Nat) : Statement (.wqryReply n) := of_event rfl

theorem Sys2Proof.Laws.RoundTrip.signal (h : Hdr) (op : SigOp) (r : Bool) (o : OpSig) : Statement (.signal h op r o) :=
  ofX (f := { a := regCode o.a, b := regCode o.b, mode := memMode o.scope (if r then .rel else .plain) false (sigCode op) 0 }) 0xE1 rfl (by decide) (by decide) (by simp [FX.ok, signalMode o.scope r op]) fun x hx => by
    change (do
        let f := unpackX x
        return .signal h (← sigOf (bitsOf f.mode 5 4)) (← flagOf (bitsOf f.mode 11 1)) (← decSig f) : Option Instr) = _
    rw [hx]; simp [signalMode o.scope r op, decSig]

theorem Sys2Proof.Laws.RoundTrip.waits (h : Hdr) (cc : Cc) (q : Bool) (o : OpSig) : Statement (.waits h cc q o) :=
  ofX (f := { a := regCode o.a, b := regCode o.b, mode := memMode o.scope (if q then .acq else .plain) false (ccCode cc) 0 }) 0xE2 rfl (by decide) (by decide) (by simp [FX.ok, waitsMode o.scope q cc]) fun x hx => by
    change (do
        let f := unpackX x
        return .waits h (← ccOf (bitsOf f.mode 5 4)) (← flagOf (bitsOf f.mode 10 1)) (← decSig f) : Option Instr) = _
    rw [hx]; simp [waitsMode o.scope q cc, decSig]

theorem Sys2Proof.Laws.RoundTrip.waitsRecheck (w : Nat) : Statement (.waitsRecheck w) := of_event rfl

theorem Sys2Proof.Laws.RoundTrip.waitsHostPoll (w : Nat) : Statement (.waitsHostPoll w) := of_event rfl

theorem Sys2Proof.Laws.RoundTrip.cmpl (h : Hdr) (a : Reg) : Statement (.cmpl h a) :=
  ofX (f := { a := regCode a }) 0xE3 rfl (by decide) (by decide) (by simp [FX.ok]) fun x hx => by
    change (do return .cmpl h (← regOf (unpackX x).a) : Option Instr) = _
    rw [hx]; simp

theorem Sys2Proof.Laws.RoundTrip.dlaunch (h : Hdr) (a : Reg) (b : Reg) : Statement (.dlaunch h a b) :=
  ofX (f := { a := regCode a, b := regCode b }) 0xE4 rfl (by decide) (by decide) (by simp [FX.ok]) fun x hx => by
    change (do return .dlaunch h (← regOf (unpackX x).a) (← regOf (unpackX x).b) : Option Instr) = _
    rw [hx]; simp

theorem Sys2Proof.Laws.RoundTrip.kvret (h : Hdr) (a : Reg) : Statement (.kvret h a) :=
  ofX (f := { a := regCode a }) 0xE5 rfl (by decide) (by decide) (by simp [FX.ok]) fun x hx => by
    change (do return .kvret h (← regOf (unpackX x).a) : Option Instr) = _
    rw [hx]; simp

theorem Sys2Proof.Laws.RoundTrip.svcall (h : Hdr) (n : BitVec 16) : Statement (.svcall h n) :=
  ofS (f := { sel := n.toNat }) 0xE6 rfl (by decide) (by decide) (by simp [FS.ok]) fun x hx => by
    change (some (.svcall h (BitVec.ofNat 16 (unpackS x).sel)) : Option Instr) = _
    rw [hx]; simp

theorem Sys2Proof.Laws.RoundTrip.svcallReply (w : Nat) (x : Val) (y : Val) : Statement (.svcallReply w x y) := of_event rfl

theorem Sys2Proof.Laws.RoundTrip.ctxsv (h : Hdr) (a : Reg) : Statement (.ctxsv h a) :=
  ofS (f := { a := regCode a }) 0xE8 rfl (by decide) (by decide) (by simp [FS.ok]) fun x hx => by
    change ((regOf (unpackS x).a).map (Instr.ctxsv h) : Option Instr) = _
    rw [hx]; simp

theorem Sys2Proof.Laws.RoundTrip.ctxld (h : Hdr) (a : Reg) : Statement (.ctxld h a) :=
  ofS (f := { a := regCode a }) 0xE9 rfl (by decide) (by decide) (by simp [FS.ok]) fun x hx => by
    change ((regOf (unpackS x).a).map (Instr.ctxld h) : Option Instr) = _
    rw [hx]; simp

theorem Sys2Proof.Laws.RoundTrip.prmt (h : Hdr) (a : Reg) : Statement (.prmt h a) :=
  ofS (f := { a := regCode a }) 0xEA rfl (by decide) (by decide) (by simp [FS.ok]) fun x hx => by
    change ((regOf (unpackS x).a).map (Instr.prmt h) : Option Instr) = _
    rw [hx]; simp

theorem Sys2Proof.Laws.RoundTrip.teamStopped (team : Nat) : Statement (.teamStopped team) := of_event rfl

theorem Sys2Proof.Laws.RoundTrip.icinv (h : Hdr) (a : Reg) : Statement (.icinv h a) :=
  ofS (f := { a := regCode a }) 0xEB rfl (by decide) (by decide) (by simp [FS.ok]) fun x hx => by
    change ((regOf (unpackS x).a).map (Instr.icinv h) : Option Instr) = _
    rw [hx]; simp

theorem Sys2Proof.Laws.RoundTrip.kvmap (h : Hdr) (a : Reg) (b : Reg) (c : Reg) : Statement (.kvmap h a b c) :=
  ofX (f := { a := regCode a, b := regCode b, c := regCode c }) 0xF0 rfl (by decide) (by decide) (by simp [FX.ok]) fun x hx => by
    change (do return .kvmap h (← regOf (unpackX x).a) (← regOf (unpackX x).b) (← regOf (unpackX x).c) : Option Instr) = _
    rw [hx]; simp

theorem Sys2Proof.Laws.RoundTrip.kvsd (h : Hdr) (a : Reg) (b : Reg) : Statement (.kvsd h a b) :=
  ofX (f := { a := regCode a, b := regCode b }) 0xF1 rfl (by decide) (by decide) (by simp [FX.ok]) fun x hx => by
    change (do return .kvsd h (← regOf (unpackX x).a) (← regOf (unpackX x).b) : Option Instr) = _
    rw [hx]; simp

theorem Sys2Proof.Laws.RoundTrip.ktbShootdownRequest (chip : Nat) (n : Nat) : Statement (.ktbShootdownRequest chip n) := of_event rfl

theorem Sys2Proof.Laws.RoundTrip.slotDrained (part : Nat) (seq : Nat) : Statement (.slotDrained part seq) := of_event rfl

theorem Sys2Proof.Laws.RoundTrip.teamRelease (team : Nat) : Statement (.teamRelease team) := of_event rfl

theorem Sys2Proof.Laws.RoundTrip.teamPlace (grid : Nat) : Statement (.teamPlace grid) := of_event rfl

theorem Sys2Proof.Laws.RoundTrip.queueTailWrite (q : Nat) (v : BitVec 32) : Statement (.queueTailWrite q v) := of_event rfl

theorem Sys2Proof.Laws.RoundTrip.queueCheadWrite (q : Nat) (v : BitVec 32) : Statement (.queueCheadWrite q v) := of_event rfl

theorem Sys2Proof.Laws.RoundTrip.queueEnableWrite (q : Nat) (v : Word) : Statement (.queueEnableWrite q v) := of_event rfl

theorem Sys2Proof.Laws.RoundTrip.takeRecord (q : Nat) : Statement (.takeRecord q) := of_event rfl

theorem Sys2Proof.Laws.RoundTrip.recordWaitSatisfied (q : Nat) : Statement (.recordWaitSatisfied q) := of_event rfl

theorem Sys2Proof.Laws.RoundTrip.graphNodeComplete (graph : Nat) (node : Nat) : Statement (.graphNodeComplete graph node) := of_event rfl

theorem Sys2Proof.Laws.RoundTrip.loopCondition (graph : Nat) (node : Nat) : Statement (.loopCondition graph node) := of_event rfl

theorem Sys2Proof.Laws.RoundTrip.completionRecordWrite (q : Nat) : Statement (.completionRecordWrite q) := of_event rfl

theorem Sys2Proof.Laws.RoundTrip.watchdogReport (w : Nat) : Statement (.watchdogReport w) := of_event rfl

theorem Sys2Proof.Laws.RoundTrip.partitionRecordWrite (chip : Nat) (part : Nat) (word : Nat) (v : Word) : Statement (.partitionRecordWrite chip part word v) := of_event rfl

theorem Sys2Proof.Laws.RoundTrip.partitionReset (chip : Nat) (part : Nat) : Statement (.partitionReset chip part) := of_event rfl

theorem Sys2Proof.Laws.RoundTrip.ptrootWrite (part : Nat) (v : Word) : Statement (.ptrootWrite part v) := of_event rfl

theorem Sys2Proof.Laws.RoundTrip.tbgo (part : Nat) : Statement (.tbgo part) := of_event rfl

theorem Sys2Proof.Laws.RoundTrip.regionTableWrite (part : Nat) (v : Word) : Statement (.regionTableWrite part v) := of_event rfl

theorem Sys2Proof.Laws.RoundTrip.priResponse (part : Nat) (iova : Nat) (ok : Bool) (hpa : Nat) : Statement (.priResponse part iova ok hpa) := of_event rfl

theorem Sys2Proof.Laws.RoundTrip.atsInvalidation (part : Nat) (iova : Nat) : Statement (.atsInvalidation part iova) := of_event rfl

theorem Sys2Proof.Laws.RoundTrip.racqPromote (core : Nat) (line : Nat) (scope : Scope) : Statement (.racqPromote core line scope) := of_event rfl

theorem Sys2Proof.Laws.RoundTrip.inboundPcieWrite (w : PcieWrite) : Statement (.inboundPcieWrite w) := of_event rfl

theorem Sys2Proof.Laws.RoundTrip.inboundPcieRead (vf : Option Nat) (bar : Nat) (offset : Nat) (size : Nat) : Statement (.inboundPcieRead vf bar offset size) := of_event rfl

theorem Sys2Proof.Laws.RoundTrip.inboundAtomicop (vf : Nat) (offset : Nat) (width : Nat) (op : PcieAtomic) (b : Word) (c : Word) : Statement (.inboundAtomicop vf offset width op b c) := of_event rfl

theorem Sys2Proof.Laws.RoundTrip.vfFunctionLevelReset (vf : Nat) : Statement (.vfFunctionLevelReset vf) := of_event rfl

theorem Sys2Proof.Laws.RoundTrip.streamWindowEnable (vf : Nat) (win : Nat) (v : Word) : Statement (.streamWindowEnable vf win v) := of_event rfl

theorem Sys2Proof.Laws.RoundTrip.streamFrameWrite (vf : Nat) (win : Nat) (slot : Nat) (at_ : Nat) (bytes : List Byte) : Statement (.streamFrameWrite vf win slot at_ bytes) := of_event rfl

theorem Sys2Proof.Laws.RoundTrip.streamPublish (vf : Nat) (win : Nat) : Statement (.streamPublish vf win) := of_event rfl

theorem Sys2Proof.Laws.RoundTrip.streamSkip (vf : Nat) (win : Nat) (seq : Word) : Statement (.streamSkip vf win seq) := of_event rfl

theorem Sys2Proof.Laws.RoundTrip.fabricRequest (src : Nat) (chip : Nat) (part : Nat) (pa : Nat) (t : Bool) (r : FabricReq) : Statement (.fabricRequest src chip part pa t r) := of_event rfl

theorem Sys2Proof.Laws.RoundTrip.linkDown (chip : Nat) (link : Nat) : Statement (.linkDown chip link) := of_event rfl

theorem Sys2Proof.Laws.RoundTrip.networkRetryExhausted (core : Nat) (slot : Nat) : Statement (.networkRetryExhausted core slot) := of_event rfl

theorem Sys2Proof.Laws.RoundTrip.remoteHomeLost (chip : Nat) : Statement (.remoteHomeLost chip) := of_event rfl

theorem Sys2Proof.Laws.RoundTrip.patrolScrub (pa : Nat) (uncorrectable : Bool) : Statement (.patrolScrub pa uncorrectable) := of_event rfl

theorem Sys2Proof.Laws.RoundTrip.powerOn (i : BootIn) : Statement (.powerOn i) := of_event rfl

theorem Sys2Proof.Laws.RoundTrip.pfFunctionLevelReset (i : BootIn) : Statement (.pfFunctionLevelReset i) := of_event rfl

theorem Sys2Proof.Laws.RoundTrip.getVersion : Statement (.getVersion) := of_event rfl

theorem Sys2Proof.Laws.RoundTrip.getCapabilities : Statement (.getCapabilities) := of_event rfl

theorem Sys2Proof.Laws.RoundTrip.negotiateAlgorithms (offersExt : Bool) : Statement (.negotiateAlgorithms offersExt) := of_event rfl

theorem Sys2Proof.Laws.RoundTrip.getDigests : Statement (.getDigests) := of_event rfl

theorem Sys2Proof.Laws.RoundTrip.getCertificate (offset : Nat) (len : Nat) : Statement (.getCertificate offset len) := of_event rfl

theorem Sys2Proof.Laws.RoundTrip.challenge (nonce : List Byte) : Statement (.challenge nonce) := of_event rfl

theorem Sys2Proof.Laws.RoundTrip.getMeasurements (index : Nat) (signed : Bool) (nonce : List Byte) : Statement (.getMeasurements index signed nonce) := of_event rfl

theorem Sys2Proof.Laws.RoundTrip.readctx : Statement (.readctx) := of_event rfl

theorem Sys2Proof.Laws.RoundTrip.readmem : Statement (.readmem) := of_event rfl

theorem Sys2Proof.Laws.RoundTrip.flushp : Statement (.flushp) := of_event rfl

theorem Sys2Proof.Laws.RoundTrip.readtab : Statement (.readtab) := of_event rfl

theorem Sys2Proof.Laws.RoundTrip.readq : Statement (.readq) := of_event rfl

theorem Sys2Proof.Laws.RoundTrip.readunit : Statement (.readunit) := of_event rfl

theorem Sys2Proof.Laws.RoundTrip.readlog : Statement (.readlog) := of_event rfl

theorem Sys2Proof.Laws.RoundTrip.mailboxRequest (part : Nat) (code : Nat) (arg0 : Word) (arg1 : Word) (arg2 : Word) : Statement (.mailboxRequest part code arg0 arg1 arg2) := of_event rfl

theorem Sys2Proof.Laws.RoundTrip.registerWrite (chip : Nat) (r : DevReg) (v : Word) : Statement (.registerWrite chip r v) := of_event rfl

theorem Sys2Proof.Laws.RoundTrip.l1WriteBack (core : Nat) (sector : Nat) : Statement (.l1WriteBack core sector) := of_event rfl

theorem Sys2Proof.Laws.RoundTrip.linkRetrain (chip : Nat) (link : Nat) : Statement (.linkRetrain chip link) := of_event rfl

theorem Sys2Proof.Laws.RoundTrip.softError (k : SoftKind) (unit : Nat) (addr : Nat) (lane : Nat) (reg : Nat) (correctable : Bool) : Statement (.softError k unit addr lane reg correctable) := of_event rfl

theorem Sys2Proof.Laws.RoundTrip.aswFirmwareHalt (cluster : Nat) : Statement (.aswFirmwareHalt cluster) := of_event rfl

theorem Sys2Proof.Laws.RoundTrip.teamKill (team : Nat) : Statement (.teamKill team) := of_event rfl

theorem Sys2Proof.Laws.RoundTrip.ktbAcknowledgment (chip : Nat) (n : Nat) : Statement (.ktbAcknowledgment chip n) := of_event rfl

theorem Sys2Proof.Laws.RoundTrip.markRegionTagged (pa : Nat) : Statement (.markRegionTagged pa) := of_event rfl
end

