-- ==== Sys2Proof/Tests/Slice0.lean ====
section
/-! SUPPORT. Words written out from the spec's encodings, terms that are no instruction, and for each hypothesis of the
statements a state and operands that meet it. -/

namespace Sys2Proof.Tests

set_option Elab.async false

open Sys2Proof Sys2Proof.Machine

/-! ## Decoding: words written out from R22, R28 and the opcode map (R49) -/

/-- A word with no mask, B 0 and STALL 0 (R22), and what stands below bit 47. -/
def wordOf (op x : Nat) : Nat := 0x0007_8000_0000_0000 + op * 2 ^ 51 + x
/-- V format (R28): D A B C SELA SELB MOD SUB. -/
def wV (op d a b c sa sb md sub : Nat) : Nat :=
  wordOf op (d * 2 ^ 39 + a * 2 ^ 31 + b * 2 ^ 23 + c * 2 ^ 15 + sa * 2 ^ 11 + sb * 2 ^ 7 + md * 2 ^ 3 + sub)
/-- I format. -/
def wI (op d a imm : Nat) : Nat := wordOf op (d * 2 ^ 39 + a * 2 ^ 31 + imm)
/-- M format: D A B SCOPE ORD RACQ FMT OFF13. -/
def wM (op d a b scope ord racq fmt off : Nat) : Nat :=
  wordOf op (d * 2 ^ 39 + a * 2 ^ 31 + b * 2 ^ 23 + scope * 2 ^ 20 + ord * 2 ^ 18 + racq * 2 ^ 17 + fmt * 2 ^ 13 + off)
/-- C format: COND B OFF32. -/
def wC (op cond b off : Nat) : Nat := wordOf op (cond * 2 ^ 44 + b * 2 ^ 36 + off)
/-- X format: D A B C MODE15. -/
def wX (op d a b c mode : Nat) : Nat := wordOf op (d * 2 ^ 39 + a * 2 ^ 31 + b * 2 ^ 23 + c * 2 ^ 15 + mode)
/-- S format: D A SEL16. -/
def wS (op d a sel : Nat) : Nat := wordOf op (d * 2 ^ 39 + a * 2 ^ 31 + sel * 2 ^ 15)

/-- The header with no mask. -/
def hd : Hdr := ⟨false, 0, none⟩

/-- Whether every word of a list decodes to its instruction. -/
def allDecode (es : List (Nat × Instr)) : Bool := es.all (fun e => decide (decodeTableWord 64 e.1 = some e.2))

/-- The worked encodings of the spec (after R63). -/
theorem test_decode_worked :
    decodeTableWord 64 0x2807_8180_8100_0000 = some (.add ⟨false, 5, none⟩ ⟨.lane 3, .lane 1, .lane 2, 0, 0, .i8⟩) ∧
    decodeTableWord 64 0x005F_8202_FF80_0007 = some (.cmpm hd .tageq 4 (.lane 5) .nil 0 0 .i8) ∧
    decodeTableWord 64 0x8307_B010_0000_0003 = some (.bra ⟨true, 0, none⟩ ⟨.ms 1, 3⟩) ∧
    decodeTableWord 128 (0x021F_8100_0000_0018 + 2 ^ 64 * 0x0000_0000_3FC0_0000) = some (.movl hd .f32 (.lane 2) 0x3FC0_0000) ∧
    decodeTableWord 64 0x0407_8142_FFC4_0000 = some (.ld hd ⟨.lane 2, .uni 5, .nil, .package, .acq, false, 0⟩) ∧
    decodeTableWord 64 0x0407_8142_FFC6_0000 = some (.ld hd ⟨.lane 2, .uni 5, .nil, .package, .acq, true, 0⟩) ∧
    decodeTableWord 64 0x0407_8142_FFC8_0000 = none ∧ decodeTableWord 64 0x0406_8142_FFC4_0000 = none := by decide +kernel

/-- R22, R28: `(m3) nop.fin ~10`, bit by bit. -/
theorem test_decode_bits : decodeTableWord 64
    0b1_1010_01111000_0011_00000000_00000000_0000000000000000_000000000000000 = some (.nop ⟨true, 10, some 3⟩) := by
  decide +kernel

theorem test_decode_arithmetic : allDecode [
    (wV 0x00 2 0x80 1 0 8 15 5 0, .add hd ⟨.lane 2, .uni 0, .lane 1, 8, 15, .f16⟩),
    (wV 0x01 0xBF 0xFF 0x80 0 0 0 8 0, .sub hd ⟨.uni 63, .nil, .uni 0, 0, 0, .i16⟩),
    (wV 0x02 127 126 125 0 1 2 3 0, .mul hd ⟨.lane 127, .lane 126, .lane 125, 1, 2, .tap6⟩),
    (wV 0x03 1 2 3 4 5 6 4 0, .fma hd ⟨.lane 1, .lane 2, .lane 3, .lane 4, 5, 6, .bf16⟩),
    (wV 0x04 1 2 3 0 0 0 0 0, .div hd ⟨.lane 1, .lane 2, .lane 3, 0, 0, .i8⟩),
    (wV 0x05 1 2 3 0 0 0 1 0, .rem hd ⟨.lane 1, .lane 2, .lane 3, 0, 0, .i4⟩),
    (wV 0x06 1 2 0 0 7 0 2 0, .neg hd ⟨.lane 1, .lane 2, 7, .tap8⟩),
    (wV 0x07 1 2 0 0 3 0 0 0, .abs hd ⟨.lane 1, .lane 2, 3, .i8⟩),
    (wV 0x08 1 2 3 0 0 4 0 0, .min hd ⟨.lane 1, .lane 2, .lane 3, 0, 4, .i8⟩),
    (wV 0x09 1 2 3 0 4 0 0 0, .max hd ⟨.lane 1, .lane 2, .lane 3, 4, 0, .i8⟩),
    (wV 0x16 1 2 3 4 0 0 5 0, .clamp hd ⟨.lane 1, .lane 2, .lane 3, .lane 4, 0, 0, .f16⟩),
    (wV 0x15 1 2 3 4 0 9 0 0, .dot hd ⟨.lane 1, .lane 2, .lane 3, .lane 4, 0, 9, .i8⟩),
    (wI 0x48 5 6 0x7FFF_FFFF, .addi hd ⟨.lane 5, .lane 6, -1⟩),
    (wI 0x49 0x81 0x82 0x4000_0000, .muli hd ⟨.uni 1, .uni 2, -0x4000_0000⟩)] = true := by decide +kernel

theorem test_decode_compares : allDecode [
    (wV 0x0A 1 2 3 0 0 0 5 6, .cmp hd .unord ⟨.lane 1, .lane 2, .lane 3, 0, 0, .f16⟩),
    (wV 0x0B 11 2 3 0 1 2 0 2, .cmpm hd .lt 11 (.lane 2) (.lane 3) 1 2 .i8),
    (wI 0x4A 1 2 (5 * 2 ^ 28 + 0xFFF_FFFF), .cmpi hd .ge (.lane 1) (.lane 2) (-1)),
    (wV 0x22 7 2 0 0 0 0 0xF 0, .tagm hd .poison 7 (.lane 2))] = true := by decide +kernel

theorem test_decode_conversions : allDecode [
    (wV 0x0C 1 2 0 0 3 0 0 0, .sqrt hd ⟨.lane 1, .lane 2, 3⟩), (wV 0x0D 1 2 0 0 0 0 0 0, .rcp hd ⟨.lane 1, .lane 2, 0⟩),
    (wV 0x0E 1 2 0 0 0 0 0 0, .rsq hd ⟨.lane 1, .lane 2, 0⟩), (wV 0x0F 1 2 0 0 0 0 0 0, .exp2 hd ⟨.lane 1, .lane 2, 0⟩),
    (wV 0x10 1 2 0 0 0 0 0 0, .log2 hd ⟨.lane 1, .lane 2, 0⟩), (wV 0x11 1 2 0 0 0 0 0 0, .sin hd ⟨.lane 1, .lane 2, 0⟩),
    (wV 0x12 1 2 0 0 0 0 0 0, .cos hd ⟨.lane 1, .lane 2, 0⟩), (wV 0x13 1 2 0 0 0 0 0 0, .tanh hd ⟨.lane 1, .lane 2, 0⟩),
    (wV 0x14 1 2 0 0 0 0 0 3, .frnd hd .rd ⟨.lane 1, .lane 2, 0⟩),
    (wV 0x18 1 2 0 0 0 0 9 4, .cvt hd .se8 .ra ⟨.lane 1, .lane 2, 0⟩),
    (wV 0x19 1 2 3 0 0 1 8 1, .pack hd .rz ⟨.lane 1, .lane 2, .lane 3, 0, 1, .i16⟩),
    (wV 0x1A 1 2 0 0 2 0 3 0, .unpk hd ⟨.lane 1, .lane 2, 2, .tap6⟩),
    (wV 0x1B 1 2 0 0 0 0 2 0, .scaleq hd (.lane 1) (.lane 2) .tap8),
    (wV 0x1C 1 2 3 0 0 0 1 2, .qnt hd .ru (.lane 1) (.lane 2) (.lane 3) .i4)] = true := by decide +kernel

theorem test_decode_bitwise : allDecode [
    (wV 0x28 1 2 3 0 1 2 0 0, .and hd ⟨.lane 1, .lane 2, .lane 3, 1, 2⟩), (wV 0x29 1 2 3 0 0 0 0 0, .or hd ⟨.lane 1, .lane 2, .lane 3, 0, 0⟩),
    (wV 0x2A 1 2 3 0 0 0 0 0, .xor hd ⟨.lane 1, .lane 2, .lane 3, 0, 0⟩), (wV 0x2B 1 2 0 0 4 0 0 0, .not hd ⟨.lane 1, .lane 2, 4⟩),
    (wV 0x2C 1 2 3 0 0 0 0 0, .shl hd ⟨.lane 1, .lane 2, .lane 3, 0, 0⟩), (wV 0x2D 1 2 3 0 0 0 0 0, .shr hd ⟨.lane 1, .lane 2, .lane 3, 0, 0⟩),
    (wV 0x2E 1 2 3 0 0 0 0 0, .sar hd ⟨.lane 1, .lane 2, .lane 3, 0, 0⟩), (wV 0x2F 1 2 3 0 0 0 0 0, .rol hd ⟨.lane 1, .lane 2, .lane 3, 0, 0⟩),
    (wI 0x4B 1 2 0xF0, .andi hd ⟨.lane 1, .lane 2, 0xF0⟩), (wI 0x4C 1 2 1, .ori hd ⟨.lane 1, .lane 2, 1⟩),
    (wI 0x4D 1 2 0x7FFF_FFFE, .xori hd ⟨.lane 1, .lane 2, -2⟩), (wI 0x4E 1 2 63, .shli hd (.lane 1) (.lane 2) 63),
    (wI 0x4F 1 2 1, .shri hd (.lane 1) (.lane 2) 1), (wV 0x30 1 2 0 0 0 0 0 0, .popc hd ⟨.lane 1, .lane 2, 0⟩),
    (wV 0x31 1 2 0 0 0 0 0 0, .clz hd ⟨.lane 1, .lane 2, 0⟩), (wV 0x32 1 2 0 0 0 0 0 0, .ctz hd ⟨.lane 1, .lane 2, 0⟩),
    (wV 0x35 1 2 0 0 5 0 0 0, .brev hd ⟨.lane 1, .lane 2, 5⟩), (wV 0x33 1 2 3 4 6 0 0 0, .bfx hd ⟨.lane 1, .lane 2, .lane 3, .lane 4, 6⟩),
    (wV 0x34 1 2 3 4 0 0 0 0, .bfi hd ⟨.lane 1, .lane 2, .lane 3, .lane 4, 0⟩), (wV 0x36 1 2 3 0 0 0 0 0, .mulh hd ⟨.lane 1, .lane 2, .lane 3, 0, 0⟩),
    (wV 0x37 1 2 3 0 0 0 0 0, .addw hd ⟨.lane 1, .lane 2, .lane 3, 0, 0⟩), (wV 0x38 1 2 3 0 0 0 0 0, .subw hd ⟨.lane 1, .lane 2, .lane 3, 0, 0⟩),
    (wV 0x39 1 2 3 0 0 0 0 0, .mulw hd ⟨.lane 1, .lane 2, .lane 3, 0, 0⟩), (wV 0x3A 1 2 3 0 0 0 4 0, .lea hd 4 ⟨.lane 1, .lane 2, .lane 3, 0, 0⟩),
    (wV 0x3B 1 2 3 0 0 0 0 0, .ptrd hd ⟨.lane 1, .lane 2, .lane 3, 0, 0⟩)] = true := by decide +kernel

theorem test_decode_moves : allDecode [
    (wV 0x40 1 2 0 0 3 0 0 0, .mov hd ⟨.lane 1, .lane 2, 3⟩), (wI 0x41 0x85 0 0x7FFF_FFFF, .movi hd (.uni 5) (-1)),
    (wI 0x42 1 0 0x1FC0_0000, .movf hd (.lane 1) 0x1FC0_0000), (wV 0x44 1 2 3 11 0 0 0 0, .sel hd 11 ⟨.lane 1, .lane 2, .lane 3, 0, 0⟩),
    (wV 0x45 1 0 0 31 0 0 0 0, .getl hd (.stk 15) (.lane 1)), (wV 0x46 0 2 0 5 0 0 0 0, .setl hd .lopc (.lane 2)),
    (wV 0x20 1 2 0 0 0 0 0 0, .tagof hd (.lane 1) (.lane 2)), (wV 0x21 1 2 0 0 0 0 0xD 0, .tagas hd .ptr (.lane 1) (.lane 2))] = true := by
  decide +kernel

theorem test_decode_control : allDecode [
    (wC 0x60 0 0 1, .bra hd ⟨.always, 1⟩), (wC 0x61 1 4 0xFFFF_FFFF, .call hd ⟨.nz (.lane 4), -1⟩),
    (wC 0x62 2 0x81 0, .ret hd (.z (.uni 1))), (wC 0x63 0 9 0, .jmpi hd (.lane 9)), (wC 0x64 4 11 0, .exit hd (.mc 11)),
    (wC 0x65 0 2 0, .join hd 2), (wC 0x66 0 3 0, .leave hd 3), (wC 0x70 5 0xBF 8, .lcall hd ⟨.uniform (.uni 63), 8⟩),
    (wV 0x71 0 6 0 0 0 0 0 0, .lret hd (.lane 6)), (wS 0x75 0 0 0xFFFF, .trap hd 0xFFFF), (wS 0x76 0 0 0, .tret hd),
    (wS 0x77 0 0 1, .bkpt hd 1), (wS 0x78 0 0 0, .nop hd), (wS 0x79 0 0 0, .yield hd), (wS 0x7A 0 0 2, .sleep hd 2)] = true := by
  decide +kernel

theorem test_decode_warp : allDecode [
    (wV 0x67 4 5 0 0 0 0 3 0, .mset hd .nz 4 (.lane 5)), (wV 0x68 1 2 3 0 0 0 2 0, .mops hd .xor 1 2 3),
    (wV 0x69 0x80 11 0 0 0 0 0 0, .mget hd (.uni 0) 11), (wV 0x6A 1 2 3 0 0 0 0 0, .shfl hd (.lane 1) (.lane 2) (.lane 3)),
    (wV 0x6B 1 2 0 0 0 0 15 1, .shflx hd (.lane 1) (.lane 2) 31), (wV 0x6C 1 2 0x83 0 0 0 0 0, .bcast hd (.lane 1) (.lane 2) (.uni 3)),
    (wV 0x6D 0x80 2 0 0 0 0 2 0, .vote hd .ballot (.uni 0) (.lane 2)), (wV 0x6E 0x80 2 0 0 0 0 5 0, .redux hd .xor (.uni 0) (.lane 2)),
    (wV 0x6F 1 2 0 0 0 0 1 1, .scanx hd .min true (.lane 1) (.lane 2)), (wX 0x72 1 2 0 0 0, .alloc hd (.lane 1) (.lane 2)),
    (wS 0x73 1 0 0x31, .gets hd .nwarp (.lane 1)), (wS 0x74 0 6 0x16, .sets hd .status (.lane 6)), (wV 0x7B 9 0 0 0 0 0 0 0, .elect hd 9)] = true := by
  decide +kernel

theorem test_decode_memory : allDecode [
    (wM 0x80 4 0x90 0xFF 0 0 0 0 8, .ld hd ⟨.lane 4, .uni 16, .nil, .warp, .plain, false, 8⟩),
    (wM 0x81 4 5 6 6 2 0 0 0x1FFF, .st hd ⟨.lane 4, .lane 5, .lane 6, .system, .rel, false, -1⟩),
    (wM 0x82 4 5 6 1 1 1 14 0x1000, .ldr hd ⟨.lane 4, .lane 5, .lane 6, .core, .acq, true, .pk4, -4096⟩),
    (wM 0x83 4 5 6 0 0 0 3 1, .str hd ⟨.lane 4, .lane 5, .lane 6, .warp, .plain, false, .z16, 1⟩),
    (wM 0x84 4 5 6 2 1 0 0 0, .lr hd ⟨.lane 4, .lane 5, .lane 6, .cluster, .acq, false, 0⟩),
    (wM 0x85 4 5 6 3 2 0 0 0, .sc hd ⟨.lane 4, .lane 5, .lane 6, .die, .rel, false, 0⟩),
    (wM 0x86 0 0 0 5 3 1 0 0, .fence hd .acqrel .fabric true), (wM 0x87 0 5 6 1 0 0 0 2, .pf hd ⟨.lane 5, .lane 6, .core, 2⟩),
    (wM 0x88 0 5 6 6 0 0 0 0, .cflush hd ⟨.lane 5, .lane 6, .system, 0⟩), (wM 0x89 0 5 6 2 0 0 0 0, .cinv hd ⟨.lane 5, .lane 6, .cluster, 0⟩),
    (wM 0x8A 4 5 6 0 0 0 0 3, .ldh hd (.lane 4) (.lane 5) (.lane 6) 3),
    (wX 0x8B 1 2 3 4 (4 * 2 ^ 12 + 3 * 2 ^ 10 + 2 ^ 9), .hcas hd ⟨.lane 1, .lane 2, .lane 3, .lane 4⟩ .acqrel .package true),
    (wM 0x8C 4 5 6 2 0 0 9 7, .lds hd ⟨.lane 4, .lane 5, .lane 6, .fold, .bf16, 7⟩),
    (wM 0x8D 4 5 6 1 0 0 0 7, .sts hd ⟨.lane 4, .lane 5, .lane 6, .xor, .s8, 7⟩),
    (wX 0x8E 1 2 3 0 (2 ^ 12 + 8 * 2 ^ 5 + 4), .satom hd .fadd .bf16 .xor ⟨.lane 1, .lane 2, .lane 3, .lane 0⟩)] = true := by decide +kernel

theorem test_decode_engines : allDecode [
    (wX 0x90 1 2 3 4 (2 * 2 ^ 7 + 1 * 2 ^ 5 + 10), .tile hd .se8 .xor .sp4 ⟨.lane 1, .lane 2, .lane 3, .lane 4⟩),
    (wX 0x91 0 0x82 0x83 0x84 (8 + 2), .cpy hd .gth true (.uni 2) (.uni 3) (.uni 4)), (wX 0x92 0 0x82 0 0 0, .give hd (.uni 2)),
    (wX 0x93 0 0x82 0 0 0, .take hd (.uni 2)), (wX 0x94 0x81 0x82 0 0 0, .ownq hd (.uni 1) (.uni 2)),
    (wX 0x95 0 0x81 0x82 0 31, .mma hd 31 (.uni 1) (.uni 2)), (wX 0x96 0 0 0x82 0 (3 * 2 ^ 5 + 2), .mmab hd 2 3 (.uni 2)),
    (wX 0x97 0 0 0 0 7, .accz hd 7), (wX 0x98 0 0x82 0 0 6, .accrd hd 6 (.uni 2)), (wX 0x99 0 0x82 0 0 5, .accld hd 5 (.uni 2)),
    (wX 0x9A 0 0 0 0 4, .accw hd 4), (wX 0x9B 1 0 0 0 3, .bndget hd (.lane 1) 3), (wX 0x9C 0 0x81 0 0 2, .bndset hd 2 (.uni 1)),
    (wX 0xA0 0 0 0 0 (31 * 2 ^ 10 + 16 * 2 ^ 5 + 1), .bninit hd 31 16 1), (wX 0xA1 0 0 0 0 (5 * 2 ^ 10), .bna hd 5),
    (wX 0xA2 0 0 0 0 (6 * 2 ^ 10), .bnw hd 6), (wX 0xA3 0 0 0 0 (7 * 2 ^ 10), .bnaw hd 7)] = true := by decide +kernel

theorem test_decode_die : allDecode [
    (wX 0xC0 1 2 3 4 (4 * 2 ^ 12 + 2 ^ 10 + 7 * 2 ^ 5), .atom hd ⟨.lane 1, .lane 2, .lane 3, .lane 4, .package, .acq, false, .cas⟩),
    (wX 0xC1 1 2 3 0 (2 * 2 ^ 12 + 8 * 2 ^ 5 + 6), .vatom hd .fadd .f32 (.lane 1) (.lane 2) (.lane 3) .plain .cluster),
    (wX 0xC2 0 0x81 0x82 0 30, .mmap hd 30 (.uni 1) (.uni 2)), (wX 0xD0 0 0x81 2 3 0, .kvapp hd (.uni 1) (.lane 2) (.lane 3)),
    (wX 0xD1 0x80 1 0x82 0x83 3, .ksel hd true true ⟨.uni 0, .lane 1, .uni 2, .uni 3⟩),
    (wX 0xD2 0x80 1 0x82 0x83 0, .attn hd ⟨.uni 0, .lane 1, .uni 2, .uni 3⟩), (wX 0xD3 1 2 3 0 0, .kvxl hd (.lane 1) (.lane 2) (.lane 3)),
    (wX 0xE0 0 0x81 0 0 0, .wqry hd (.uni 1)), (wX 0xE1 0 0x81 0x82 0 (6 * 2 ^ 12 + 2 * 2 ^ 10 + 2 * 2 ^ 5), .signal hd .or true ⟨.uni 1, .uni 2, .system⟩),
    (wX 0xE2 0 0x81 0x82 0 (4 * 2 ^ 12 + 2 ^ 10 + 5 * 2 ^ 5), .waits hd .ge true ⟨.uni 1, .uni 2, .package⟩),
    (wX 0xE3 0 0x81 0 0 0, .cmpl hd (.uni 1)), (wX 0xE4 0 0x81 0x82 0 0, .dlaunch hd (.uni 1) (.uni 2)), (wX 0xE5 0 0x81 0 0 0, .kvret hd (.uni 1)),
    (wS 0xE6 0 0 9, .svcall hd 9), (wS 0xE8 0 0x81 0, .ctxsv hd (.uni 1)), (wS 0xE9 0 0x81 0, .ctxld hd (.uni 1)),
    (wS 0xEA 0 0x81 0, .prmt hd (.uni 1)), (wS 0xEB 0 0x81 0, .icinv hd (.uni 1)), (wX 0xF0 0 0x81 0x82 0x83 0, .kvmap hd (.uni 1) (.uni 2) (.uni 3)),
    (wX 0xF1 0 0x81 0x82 0 0, .kvsd hd (.uni 1) (.uni 2))] = true := by decide +kernel

/-! ## Well-formedness: for each check a term that it refuses -/

/-- R31 and R221: uniform destinations and lane sources. -/
theorem smoke_uniform_destination : [
    Instr.add hd ⟨.uni 0, .lane 1, .nil, 0, 0, .i8⟩, .fma hd ⟨.uni 0, .uni 1, .uni 2, .lane 3, 0, 0, .i8⟩,
    .neg hd ⟨.uni 0, .lane 1, 0, .i8⟩, .cmp hd .eq ⟨.uni 0, .nil, .lane 1, 0, 0, .i8⟩, .cmpi hd .eq (.uni 0) (.lane 1) 0,
    .sqrt hd ⟨.uni 0, .lane 1, 0⟩, .cvt hd .int .rn ⟨.uni 0, .lane 1, 0⟩, .pack hd .rn ⟨.uni 0, .lane 1, .nil, 0, 0, .i8⟩,
    .scaleq hd (.uni 0) (.lane 1) .i8, .qnt hd .rn (.uni 0) (.nil) (.lane 1) .i8, .tagof hd (.uni 0) (.lane 1),
    .tagas hd .int (.uni 0) (.lane 1), .and hd ⟨.uni 0, .lane 1, .nil, 0, 0⟩, .addi hd ⟨.uni 0, .lane 1, 0⟩,
    .shli hd (.uni 0) (.lane 1) 0, .bfx hd ⟨.uni 0, .nil, .nil, .lane 1, 0⟩, .alloc hd (.uni 0) (.lane 1),
    .ld hd ⟨.uni 0, .lane 1, .nil, .warp, .plain, false, 0⟩, .ldr hd ⟨.uni 0, .nil, .lane 1, .warp, .plain, false, .s8, 0⟩,
    .sc hd ⟨.lane 1, .nil, .uni 0, .warp, .plain, false, 0⟩, .ldh hd (.uni 0) (.lane 1) .nil 0,
    .hcas hd ⟨.uni 0, .lane 1, .nil, .nil⟩ .plain .warp false, .lds hd ⟨.uni 0, .lane 1, .nil, .lin, .s8, 0⟩,
    .satom hd .cas .i8 .lin ⟨.uni 0, .nil, .nil, .lane 1⟩, .tile hd .i8 .lin .dense ⟨.uni 0, .lane 1, .nil, .nil⟩,
    .atom hd ⟨.uni 0, .lane 1, .nil, .lane 0, .warp, .plain, false, .add⟩, .vatom hd .add .i8 (.uni 0) (.lane 1) .nil .plain .warp,
    .kvxl hd (.uni 0) (.lane 1) .nil].all (fun i => !decide (WellFormed i)) = true := by decide

/-- R139, R172, R176: destinations that are never uniform. -/
theorem smoke_lane_destination : [
    Instr.getl hd .lpc (.uni 0), .shfl hd (.uni 0) .nil .nil, .shflx hd (.uni 0) .nil 1,
    .scanx hd .add false (.uni 0) .nil].all (fun i => !decide (WellFormed i)) = true := by decide

/-- R221, R281, R323 and the operands of R41, R168, R172: fields that take no lane register. -/
theorem smoke_uniform_only : [
    Instr.cpy hd .lin false (.lane 1) .nil (.lane 0), .cpy hd .d2 false .nil .nil (.lane 0), .give hd (.lane 1), .take hd (.lane 1),
    .ownq hd (.lane 0) (.lane 1), .mma hd 0 (.lane 1) .nil, .mmab hd 0 1 (.lane 1), .accld hd 0 (.lane 1), .accrd hd 0 (.lane 1),
    .bndset hd 0 (.lane 1), .mmap hd 0 .nil (.lane 1), .kvapp hd (.lane 1) .nil .nil, .ksel hd false false ⟨.lane 1, .nil, .nil, .nil⟩,
    .attn hd ⟨.nil, .nil, .nil, .lane 1⟩, .wqry hd (.lane 1), .cmpl hd (.lane 1), .kvret hd (.lane 1),
    .signal hd .set false ⟨.lane 1, .nil, .warp⟩, .waits hd .eq false ⟨.nil, .lane 1, .warp⟩, .dlaunch hd (.lane 1) .nil,
    .kvsd hd .nil (.lane 1), .kvmap hd .nil .nil (.lane 1), .bra hd ⟨.uniform (.lane 1), 0⟩, .ret hd (.uniform (.lane 1)),
    .bcast hd .nil .nil (.lane 1), .mset hd .bits 0 (.lane 1)].all (fun i => !decide (WellFormed i)) = true := by decide

/-- R34: fields that are reserved in a form. -/
theorem smoke_reserved : [
    Instr.cpy hd .lin false .nil .nil .nil, .mset hd .exec 0 (.lane 1), .mops hd .not 0 0 1, .mops hd .copy 0 0 11,
    .satom hd .add .i8 .lin ⟨.lane 0, .lane 0, .lane 0, .nil⟩,
    .atom hd ⟨.lane 0, .lane 0, .lane 0, .lane 1, .warp, .plain, false, .add⟩].all (fun i => !decide (WellFormed i)) = true := by decide

/-- R39, R43, R225: orders, scopes and RACQ. -/
theorem smoke_orders : [
    Instr.ld hd ⟨.nil, .nil, .nil, .core, .plain, false, 0⟩, .ld hd ⟨.nil, .nil, .nil, .warp, .rel, false, 0⟩,
    .ldr hd ⟨.nil, .nil, .nil, .warp, .plain, true, .s8, 0⟩, .lr hd ⟨.nil, .nil, .nil, .warp, .acqrel, false, 0⟩,
    .st hd ⟨.nil, .nil, .nil, .warp, .acq, false, 0⟩, .str hd ⟨.nil, .nil, .nil, .warp, .rel, true, .s8, 0⟩,
    .sc hd ⟨.nil, .nil, .nil, .core, .plain, false, 0⟩, .fence hd .plain .core false, .fence hd .rel .core true,
    .pf hd ⟨.nil, .nil, .warp, 0⟩, .cflush hd ⟨.nil, .nil, .warp, 0⟩, .cinv hd ⟨.nil, .nil, .warp, 0⟩,
    .hcas hd ⟨.nil, .nil, .nil, .nil⟩ .rel .core true,
    .atom hd ⟨.nil, .nil, .nil, .lane 0, .core, .plain, true, .add⟩].all (fun i => !decide (WellFormed i)) = true := by decide

/-- Codes outside the limits of R36, R37, R42, R43, R65, R122, R142, R175, R233, R240, R242, R246, R263, R266 and R326. -/
theorem smoke_codes : [
    Instr.tagas hd .fwd .nil .nil, .tagas hd .pend .nil .nil, .movl hd .pend .nil 0, .movl hd .f32 .nil 0x1_0000_0000,
    .movl hd .nil .nil 1, .movl hd .ref .nil 8, .movl hd .sym .nil 0x1_0000_0000_0000, .movl hd .poison .nil 0x1_0000,
    .scaleq hd .nil .nil .bf16, .qnt hd .rn .nil .nil .nil .i16, .shflx hd .nil .nil 0, .setl hd .lpc .nil, .setl hd .laneid .nil,
    .setl hd .lcdepth .nil, .sets hd .wid .nil, .sets hd .cyc .nil, .satom hd .fadd .i8 .lin ⟨.nil, .nil, .nil, .lane 0⟩,
    .satom hd .add .f32 .lin ⟨.nil, .nil, .nil, .lane 0⟩, .satom hd .fadd64 .f64 .lin ⟨.nil, .nil, .nil, .lane 0⟩,
    .vatom hd .cas .i8 .nil .nil .nil .plain .warp, .vatom hd .add .f32 .nil .nil .nil .plain .warp, .mmab hd 3 3 .nil,
    .accw hd 1, .mmap hd 1 .nil .nil, .bninit hd 0 0 0, .bninit hd 0 17 0, .bninit hd 0 0 17, .cpy hd .qnt true .nil .nil .nil,
    .waits hd .unord false ⟨.nil, .nil, .warp⟩, .waits hd .tageq false ⟨.nil, .nil, .warp⟩, .matrixStep 0].all
    (fun i => !decide (WellFormed i)) = true := by decide

/-- R22, R29, R33, R34, R36-R45, R48: words that are no instruction. -/
theorem smoke_words : [
    wordOf 0x17 0, wordOf 0x47 0, wordOf 0xFF 0, wordOf 0x78 1, 0x78 * 2 ^ 51 + 12 * 2 ^ 47, 0x78 * 2 ^ 51 + 14 * 2 ^ 47,
    wV 0x00 0xC0 1 2 0 0 0 0 0, wV 0x00 1 0xFE 2 0 0 0 0 0, wV 0x00 1 2 3 1 0 0 0 0, wV 0x00 1 2 3 0 0 0 6 0, wV 0x00 1 2 3 0 0 0 0 1,
    wV 0x06 1 2 3 0 0 0 0 0, wV 0x0B 12 1 2 0 0 0 0 0, wV 0x14 1 2 0 0 0 0 0 5, wV 0x18 1 2 0 0 0 0 10 0, wV 0x20 1 2 0 0 1 0 0 0,
    wV 0x3A 1 2 3 0 0 0 5 0, wV 0x45 1 0 0 10 0 0 0 0, wV 0x44 1 2 3 12 0 0 0 0, wI 0x41 1 2 0, wI 0x4E 1 2 64,
    wC 0x60 6 0 0, wC 0x60 0 1 0, wC 0x60 3 12 0, wC 0x60 0 0 (2 ^ 32), wC 0x62 0 0 1, wC 0x63 1 0 0, wV 0x67 0 0 0 0 0 0 5 0,
    wV 0x6D 1 2 0 0 0 0 3 0, wV 0x6F 1 2 0 0 0 0 0 2, wS 0x73 1 0 10, wS 0x78 0 0 1, wM 0x80 1 2 3 7 1 0 0 0, wM 0x80 1 2 3 0 0 0 1 0,
    wM 0x82 1 2 3 0 0 0 15 0, wM 0x8C 1 2 3 3 0 0 0 0, wM 0x86 1 0 0 0 1 0 0 0, wX 0x72 1 2 0 0 1, wX 0x90 1 2 3 4 11, wX 0x91 0 0x80 0x80 0 5,
    wX 0x95 0 0x80 0x80 0 32, wX 0xA1 0 0 0 0 1, wX 0xC0 1 2 3 0 (10 * 2 ^ 5), wX 0xE1 0 0x80 0x80 0 (3 * 2 ^ 5),
    wX 0xE2 0 0x80 0x80 0 (2 * 2 ^ 10)].all (fun w => decide (decodeTableWord 64 w = none)) = true := by decide +kernel

/-! ## States for the witnesses -/

/-- One warp with one ready lane on core 0, about to issue (log entry 2), with these values in lane 0's and the uniform registers. -/
def one (vs : List (Reg × Val)) : State :=
  let s := placeWord State.reset 64 0
  updWarp { s with cur := 1 } 1 (fun w => vs.foldl (fun w e => writeReg w e.1 0 e.2) w)

/-- The same with a second ready lane, lane 1, in which lane register n holds v. -/
def two (vs : List (Reg × Val)) (n : Nat) (v : Val) : State :=
  updWarp (one vs) 1 (fun w => setLaneReg (setLane w 1 { Lane.none with act := .ready, lpc := wd placeVa }) n 1 v)

/-- What register r holds in lane l after the instruction. -/
def after (i : Instr) (s : State) (r : Reg) (l : Nat) : Val :=
  match exec i s with
  | .next t => readReg (warpOf t s.cur) r l
  | _ => nilVal

/-- An instruction issues with lane 0 alone executing, and lane 0 meets the condition. -/
theorem on0 {i : Instr} {h : Hdr} {s : State} {P : Nat → Prop} (a : issues i h s = true) (b : (curIx i h s).exe = [0])
    (c : P 0) : On i h s P := by
  refine ⟨a, ?_⟩
  rw [b]
  simpa using c

/-- Every instruction of a list issues with lane 0 executing, and lane 0 meets its condition. -/
theorem onAll {α : Type} {L : List α} {I : α → Instr} {s : State} {P : α → Nat → Prop}
    (c : ∀ x ∈ L, issues (I x) hd s = true ∧ (curIx (I x) hd s).exe = [0] ∧ P x 0) : ∀ x ∈ L, On (I x) hd s (P x) :=
  fun x m => on0 (c x m).1 (c x m).2.1 (c x m).2.2

/-- v0, v1, v2 and v3 as the operands D, A, B, C, with no selectors. -/
def bin : OpBin := ⟨.lane 0, .lane 1, .lane 2, 0, 0⟩
def un : OpUn := ⟨.lane 0, .lane 1, 0⟩
def binE (e : Elt) : OpBinE := ⟨.lane 0, .lane 1, .lane 2, 0, 0, e⟩
def terE (e : Elt) : OpTerE := ⟨.lane 0, .lane 1, .lane 2, .lane 3, 0, 0, e⟩
def unE (e : Elt) : OpUnE := ⟨.lane 0, .lane 1, 0, e⟩
def fieldE : OpField := ⟨.lane 0, .lane 1, .lane 2, .lane 3, 0⟩
/-- One lane with v1, v2 and v3. -/
def abc (a b c : Val) : State := one [(.lane 1, a), (.lane 2, b), (.lane 3, c)]
/-- The operand in v1, v2 or v3 of a lane. -/
def x1 (s : State) (l : Nat) : Val := opnd s (.lane 1) 0 l
def x2 (s : State) (l : Nat) : Val := opnd s (.lane 2) 0 l
def x3 (s : State) (l : Nat) : Val := opnd s (.lane 3) 0 l
/-- 1.5 and 2.0 in F32, and a NaN. -/
def f15 : Val := ⟨.f32, 0x3FC0_0000⟩
def f20 : Val := ⟨.f32, 0x4000_0000⟩
def fNan : Val := ⟨.f32, 0x7FC0_0000⟩


/-! ## Witnesses: arithmetic, compares, functions, conversions -/

def sTop : State := abc (intVal (2 ^ 63 - 2)) (intVal 1) (intVal 0)
def sBot : State := abc (intVal (-(2 ^ 63))) (intVal 1) (intVal (-1))
def sNeg : State := abc (intVal (-7)) (intVal 2) (intVal 5)

theorem witness_IntegerArithmeticIsExact_pairs :
    (∀ p ∈ ([(Instr.add, fun x y => x + y), (Instr.sub, fun x y => x - y), (Instr.mul, fun x y => x * y)] :
      List ((Hdr → OpBinE → Instr) × (Int → Int → Int))), On (p.1 hd (binE .i8)) hd sTop (fun l =>
        (x1 sTop l).tag = .int ∧ (x2 sTop l).tag = .int ∧ Fits (p.2 (x1 sTop l).pay.toInt (x2 sTop l).pay.toInt))) ∧
    (∀ mk ∈ [Instr.div, Instr.rem], On (mk hd (binE .i8)) hd sBot (fun l => (x1 sBot l).tag = .int ∧ (x2 sBot l).tag = .int ∧
      (x2 sBot l).pay.toInt ≠ 0 ∧ ¬((x1 sBot l).pay.toInt = -(2 ^ 63) ∧ (x2 sBot l).pay.toInt = -1))) ∧
    (∀ mk ∈ [Instr.min, Instr.max], On (mk hd (binE .i8)) hd sBot (fun l => (x1 sBot l).tag = .int ∧ (x2 sBot l).tag = .int)) :=
  ⟨onAll (by decide +kernel), onAll (by decide +kernel), onAll (by decide +kernel)⟩

theorem witness_IntegerArithmeticIsExact_others :
    (∀ p ∈ ([(Instr.addi, fun x y => x + y), (Instr.muli, fun x y => x * y)] : List ((Hdr → OpImm → Instr) × (Int → Int → Int))),
      On (p.1 hd ⟨.lane 0, .lane 1, 1⟩) hd sTop (fun l => (x1 sTop l).tag = .int ∧
        Fits (p.2 (x1 sTop l).pay.toInt (1 : BitVec 31).toInt))) ∧
    (∀ mk ∈ [Instr.fma], On (mk hd (terE .i8)) hd sTop (fun l => (x1 sTop l).tag = .int ∧ (x2 sTop l).tag = .int ∧ (x3 sTop l).tag = .int ∧
      Fits ((x1 sTop l).pay.toInt * (x2 sTop l).pay.toInt + (x3 sTop l).pay.toInt))) ∧
    (∀ mk ∈ [Instr.neg, Instr.abs], On (mk hd (unE .i8)) hd sNeg (fun l => (x1 sNeg l).tag = .int ∧ (x1 sNeg l).pay.toInt ≠ -(2 ^ 63))) ∧
    (∀ mk ∈ [Instr.clamp], On (mk hd (terE .i8)) hd sNeg (fun l => (x1 sNeg l).tag = .int ∧ (x2 sNeg l).tag = .int ∧ (x3 sNeg l).tag = .int)) :=
  ⟨onAll (by decide +kernel), onAll (by decide +kernel), onAll (by decide +kernel), onAll (by decide +kernel)⟩

/-- R105, R106, R108-R111: values by hand. -/
theorem test_integer_values : [
    (Instr.add hd (binE .i8), sTop, intVal (2 ^ 63 - 1)), (.sub hd (binE .i8), sNeg, intVal (-9)), (.mul hd (binE .i8), sNeg, intVal (-14)),
    (.div hd (binE .i8), sNeg, intVal (-3)), (.rem hd (binE .i8), sNeg, intVal (-1)), (.min hd (binE .i8), sNeg, intVal (-7)),
    (.max hd (binE .i8), sNeg, intVal 2), (.fma hd (terE .i8), sNeg, intVal (-9)), (.neg hd (unE .i8), sNeg, intVal 7),
    (.abs hd (unE .i8), sNeg, intVal 7), (.clamp hd (terE .i8), sNeg, intVal 2), (.addi hd ⟨.lane 0, .lane 1, -3⟩, sNeg, intVal (-10)),
    (.muli hd ⟨.lane 0, .lane 1, -3⟩, sNeg, intVal 21)].all (fun e => decide (after e.1 e.2.1 (.lane 0) 0 = e.2.2)) = true := by
  decide +kernel

def sFlt : State := abc f15 f20 f15

theorem witness_FloatArithmeticRoundsOnce :
    (∀ mk ∈ [Instr.add, Instr.sub, Instr.mul, Instr.div, Instr.rem, Instr.min, Instr.max], On (mk hd (binE .i8)) hd sFlt (fun l =>
      (resTag (x1 sFlt l).tag (x2 sFlt l).tag).isSome ∧ (resTag (x1 sFlt l).tag (x2 sFlt l).tag).getD .nil ≠ .int)) ∧
    (∀ mk ∈ [Instr.addi, Instr.muli], On (mk hd ⟨.lane 0, .lane 1, 1⟩) hd sFlt (fun l => (x1 sFlt l).tag = .f64 ∨ (x1 sFlt l).tag = .f32)) ∧
    (∀ mk ∈ [Instr.fma], On (mk hd (terE .i8)) hd sFlt (fun l =>
      resTag (x1 sFlt l).tag (x2 sFlt l).tag = some (x3 sFlt l).tag ∧ (x3 sFlt l).tag ≠ .int)) ∧
    (∀ mk ∈ [Instr.neg, Instr.abs], On (mk hd (unE .i8)) hd sFlt (fun l => (tagFmt (x1 sFlt l).tag).isSome)) ∧
    (∀ mk ∈ [Instr.clamp], On (mk hd (terE .i8)) hd sFlt (fun l =>
      (tagFmt (x1 sFlt l).tag).isSome ∧ (x2 sFlt l).tag = (x1 sFlt l).tag ∧ (x3 sFlt l).tag = (x1 sFlt l).tag)) :=
  ⟨onAll (by decide +kernel), onAll (by decide +kernel), onAll (by decide +kernel), onAll (by decide +kernel), onAll (by decide +kernel)⟩

/-- R105, R106, R108-R111: 1.5 and 2.0 in F32, by hand. -/
theorem test_float_values : [
    (Instr.add hd (binE .i8), ⟨Tag.f32, 0x4060_0000⟩), (.sub hd (binE .i8), ⟨.f32, 0xBF00_0000⟩), (.mul hd (binE .i8), ⟨.f32, 0x4040_0000⟩),
    (.div hd (binE .i8), ⟨.f32, 0x3F40_0000⟩), (.rem hd (binE .i8), f15), (.min hd (binE .i8), f15), (.max hd (binE .i8), f20),
    (.fma hd (terE .i8), ⟨.f32, 0x4090_0000⟩), (.neg hd (unE .i8), ⟨.f32, 0xBFC0_0000⟩), (.abs hd (unE .i8), f15),
    (.addi hd ⟨.lane 0, .lane 1, -1⟩, ⟨.f32, 0x3F00_0000⟩), (.muli hd ⟨.lane 0, .lane 1, 2⟩, ⟨.f32, 0x4040_0000⟩)].all
      (fun e => decide (after e.1 sFlt (.lane 0) 0 = e.2)) = true := by decide +kernel

def sPk : State := abc ⟨.pk16, 0x3F80_4000_3F80_4040⟩ ⟨.pk16, 0x3F80_3F80_4000_4000⟩ ⟨.pk16, 0⟩
def sDot : State := abc ⟨.pk16, 0x3F80_4000_3F80_4040⟩ ⟨.pk16, 0x3F80_3F80_4000_4000⟩ f15
def sDotI : State := abc ⟨.pk8, 0xFF02⟩ ⟨.pk8, 0x0303⟩ (intVal 10)

theorem witness_PackedArithmeticIsElementwise :
    (∀ mk ∈ [Instr.add, Instr.sub, Instr.mul, Instr.min, Instr.max], On (mk hd (binE .bf16)) hd sPk (fun l =>
      (x1 sPk l).tag = eltTag .bf16 ∧ (x2 sPk l).tag = eltTag .bf16)) ∧
    (∀ mk ∈ [Instr.neg, Instr.abs], On (mk hd (unE .bf16)) hd sPk (fun l => (x1 sPk l).tag = eltTag .bf16)) ∧
    (∀ mk ∈ [Instr.fma, Instr.clamp], On (mk hd (terE .bf16)) hd sPk (fun l =>
      (x1 sPk l).tag = eltTag .bf16 ∧ (x2 sPk l).tag = eltTag .bf16 ∧ (x3 sPk l).tag = eltTag .bf16)) ∧
    (∀ e ∈ [Elt.bf16], On (.dot hd (terE e)) hd sDot (fun l => (x1 sDot l).tag = eltTag e ∧ (x2 sDot l).tag = eltTag e ∧
      ((x3 sDot l).tag = .f32 ∨ (x3 sDot l).tag = .f64) ∧ (e = .tap8 ∨ e = .tap6 ∨ e = .bf16 ∨ e = .f16))) ∧
    On (.dot hd (terE .i8)) hd sDotI (fun l => (x1 sDotI l).tag = eltTag .i8 ∧ (x2 sDotI l).tag = eltTag .i8 ∧ (x3 sDotI l).tag = .int ∧
      (Elt.i8 = .i8 ∨ Elt.i8 = .i16 ∨ Elt.i8 = .i4) ∧ ∃ n, roundInt .rz (sumNum ((valNum (x3 sDotI l)).getD .nan ::
        (List.range (eltCount .i8)).map (fun i => mulNum (eltDec .i8 (eltAt .i8 (x1 sDotI l).pay i))
          (eltDec .i8 (eltAt .i8 (x2 sDotI l).pay i))))) = some n ∧ Fits n) :=
  ⟨onAll (by decide +kernel), onAll (by decide +kernel), onAll (by decide +kernel), onAll (by decide +kernel),
   on0 (by decide +kernel) (by decide +kernel)
     ⟨by decide +kernel, by decide +kernel, by decide +kernel, by decide +kernel, 13, by decide +kernel, by decide +kernel⟩⟩

/-- R107, R117: 3, 1, 2 and 1 with 2, 2, 1 and 1 in BF16; 2 and -1 with 3 and 3 in I8, by hand. -/
theorem test_packed_values : [
    (Instr.add hd (binE .bf16), sPk, ⟨Tag.pk16, 0x4000_4040_4040_40A0⟩), (.mul hd (binE .bf16), sPk, ⟨.pk16, 0x3F80_4000_4000_40C0⟩),
    (.neg hd (unE .bf16), sPk, ⟨.pk16, 0xBF80_C000_BF80_C040⟩), (.dot hd (terE .bf16), sDot, ⟨.f32, 0x4148_0000⟩),
    (.dot hd (terE .i8), sDotI, intVal 13)].all (fun e => decide (after e.1 e.2.1 (.lane 0) 0 = e.2.2)) = true := by decide +kernel

def sPoi : State := abc ⟨.poison, 0x23⟩ (intVal 1) (intVal 2)

theorem witness_PoisonPassesOn :
    (∀ mk ∈ [Instr.add, Instr.sub, Instr.mul, Instr.div, Instr.rem, Instr.min, Instr.max, fun h => Instr.pack h .rn],
      On (mk hd (binE .i8)) hd sPoi (fun l => (x1 sPoi l).tag = .poison ∨ (x2 sPoi l).tag = .poison)) ∧
    (∀ mk ∈ [Instr.and, Instr.or, Instr.xor, Instr.shl, Instr.shr, Instr.sar, Instr.rol, Instr.mulh, Instr.addw, Instr.subw, Instr.mulw,
      fun h => Instr.lea h 4, Instr.ptrd], On (mk hd bin) hd sPoi (fun l => (x1 sPoi l).tag = .poison ∨ (x2 sPoi l).tag = .poison)) ∧
    (∀ mk ∈ [Instr.fma, Instr.clamp, Instr.dot], On (mk hd (terE .i8)) hd sPoi (fun l =>
      (x1 sPoi l).tag = .poison ∨ (x2 sPoi l).tag = .poison ∨ (x3 sPoi l).tag = .poison)) ∧
    (∀ mk ∈ [Instr.sqrt, Instr.rcp, Instr.rsq, Instr.exp2, Instr.log2, Instr.sin, Instr.cos, Instr.tanh, Instr.not, Instr.popc,
      Instr.clz, Instr.ctz, Instr.brev, fun h => Instr.frnd h .rn, fun h => Instr.cvt h .se8 .ra], On (mk hd un) hd sPoi (fun l =>
      (x1 sPoi l).tag = .poison)) ∧
    (∀ mk ∈ [Instr.neg, Instr.abs, Instr.unpk], On (mk hd (unE .i8)) hd sPoi (fun l => (x1 sPoi l).tag = .poison)) ∧
    (∀ mk ∈ [Instr.addi, Instr.muli, Instr.andi, Instr.ori, Instr.xori], On (mk hd ⟨.lane 0, .lane 1, 1⟩) hd sPoi (fun l =>
      (x1 sPoi l).tag = .poison)) :=
  ⟨onAll (by decide +kernel), onAll (by decide +kernel), onAll (by decide +kernel), onAll (by decide +kernel), onAll (by decide +kernel),
   onAll (by decide +kernel)⟩

/-- POISON in v3 and in the old v0 alone. -/
def sPoiC : State := one [(.lane 0, poisonVal 5), (.lane 1, intVal 1), (.lane 2, intVal 2), (.lane 3, poisonVal 7)]
def sPoiD : State := one [(.lane 0, poisonVal 5), (.lane 1, intVal 1), (.lane 2, intVal 2), (.lane 3, intVal 3)]

theorem witness_PoisonPassesOn_others :
    (∀ i ∈ [Instr.shli hd (.lane 0) (.lane 1) 63, .shri hd (.lane 0) (.lane 1) 0, .scaleq hd (.lane 0) (.lane 1) .tap6],
      On i hd sPoi (fun l => (x1 sPoi l).tag = .poison)) ∧
    (∀ cc ∈ [Cc.eq, .unord], On (.cmpi hd cc (.lane 0) (.lane 1) (-1)) hd sPoi (fun l => cc ≠ .tageq ∧ (x1 sPoi l).tag = .poison)) ∧
    On (.qnt hd .ra (.lane 0) (.lane 2) (.lane 1) .i8) hd sPoi (fun l => (x2 sPoi l).tag = .poison ∨ (x1 sPoi l).tag = .poison) ∧
    (∀ cc ∈ [Cc.eq, .unord], On (.cmp hd cc ⟨.lane 0, .lane 2, .lane 1, 0, 0, .i8⟩) hd sPoi (fun l =>
      cc ≠ .tageq ∧ ((x2 sPoi l).tag = .poison ∨ (x1 sPoi l).tag = .poison))) ∧
    On (.bfx hd fieldE) hd sPoiC (fun l => (x1 sPoiC l).tag = .poison ∨ (x2 sPoiC l).tag = .poison ∨ (x3 sPoiC l).tag = .poison) ∧
    On (.bfi hd fieldE) hd sPoiD (fun l => (x1 sPoiD l).tag = .poison ∨ (x2 sPoiD l).tag = .poison ∨ (x3 sPoiD l).tag = .poison ∨
      (opnd sPoiD (.lane 0) 0 l).tag = .poison) :=
  ⟨onAll (by decide +kernel), onAll (by decide +kernel), on0 (by decide +kernel) (by decide +kernel) (by decide +kernel), onAll (by decide +kernel),
   on0 (by decide +kernel) (by decide +kernel) (by decide +kernel), on0 (by decide +kernel) (by decide +kernel) (by decide +kernel)⟩

/-- R78, R131: a field operation with a POISON width, and with POISON in its old destination. -/
theorem test_poison_values : after (.bfx hd fieldE) sPoiC (.lane 0) 0 = poisonVal 7 ∧ after (.bfi hd fieldE) sPoiD (.lane 0) 0 = poisonVal 5 := by
  decide +kernel

def sSym : State := abc ⟨.sym, 7⟩ ⟨.sym, 7⟩ nilVal

theorem witness_ComparesGiveTruth :
    (∀ cc ∈ [Cc.tageq], On (.cmp hd cc (binE .i8)) hd sPoi (fun _ => True)) ∧
    (∀ cc ∈ [Cc.eq, .ne, .lt, .le, .gt, .ge, .unord], On (.cmp hd cc (binE .i8)) hd sNeg (fun l =>
      (x1 sNeg l).tag = .int ∧ (x2 sNeg l).tag = .int)) ∧
    (∀ cc ∈ [Cc.eq, .ne, .lt, .le, .gt, .ge, .unord], On (.cmp hd cc (binE .i8)) hd sFlt (fun l =>
      (resTag (x1 sFlt l).tag (x2 sFlt l).tag).isSome)) ∧
    (∀ cc ∈ [Cc.eq, .ne], On (.cmp hd cc (binE .i8)) hd sSym (fun l => (x1 sSym l).tag = (x2 sSym l).tag ∧
      ((x1 sSym l).tag = .nil ∨ (x1 sSym l).tag = .sym ∨ (x1 sSym l).tag = .ref ∨ (x1 sSym l).tag = .ptr))) ∧
    (∀ cc ∈ [Cc.tageq], On (.cmpi hd cc (.lane 0) (.lane 1) 0) hd sPoi (fun _ => True)) ∧
    (∀ cc ∈ [Cc.eq, .ne, .lt, .le, .gt, .ge, .unord], On (.cmpi hd cc (.lane 0) (.lane 1) (-7)) hd sNeg (fun l => (x1 sNeg l).tag = .int)) ∧
    (∀ cc ∈ [Cc.eq, .lt], On (.cmpm hd cc 11 (.lane 1) (.lane 2) 0 0 .i8) hd sNeg (fun l =>
      (x1 sNeg l).tag = .int ∧ (x2 sNeg l).tag = .int)) ∧
    (∀ cc ∈ [Cc.tageq], On (.cmpm hd cc 0 (.lane 1) (.lane 2) 0 0 .i8) hd sSym (fun l =>
      (x1 sSym l).tag ≠ .poison ∧ (x2 sSym l).tag ≠ .poison)) ∧
    (∀ m ∈ [(0 : MaskNo), 11], On (.tagm hd .poison m (.lane 1)) hd sPoi (fun _ => True)) :=
  ⟨onAll (by decide +kernel), onAll (by decide +kernel), onAll (by decide +kernel), onAll (by decide +kernel), onAll (by decide +kernel),
   onAll (by decide +kernel), onAll (by decide +kernel), onAll (by decide +kernel), onAll (by decide +kernel)⟩

/-- R112, R113: -7 and 2; 1.5 and 2.0; a NaN is unordered; equal symbols. -/
theorem test_compare_values : [
    (Instr.cmp hd .lt (binE .i8), sNeg, intVal 1), (.cmp hd .ge (binE .i8), sNeg, intVal 0), (.cmp hd .unord (binE .i8), sNeg, intVal 0),
    (.cmp hd .le (binE .i8), sFlt, intVal 1), (.cmp hd .unord (binE .i8), abc fNan f20 nilVal, intVal 1), (.cmp hd .ne (binE .i8), abc fNan f20 nilVal, intVal 1),
    (.cmp hd .eq (binE .i8), sSym, intVal 1), (.cmpi hd .eq (.lane 0) (.lane 1) (-7), sNeg, intVal 1),
    (.cmp hd .tageq (binE .i8), sPoi, intVal 0)].all (fun e => decide (after e.1 e.2.1 (.lane 0) 0 = e.2.2)) = true := by decide +kernel

/-- The functions of one operand. -/
def fns : List (Hdr → OpUn → Instr) :=
  [Instr.sqrt, Instr.rcp, Instr.rsq, Instr.exp2, Instr.log2, Instr.sin, Instr.cos, Instr.tanh]
def sF64 : State := abc ⟨.f64, 0x4010_0000_0000_0000⟩ nilVal nilVal
def sF16 : State := abc ⟨.f16, 0x4400⟩ nilVal nilVal
def sB16 : State := abc ⟨.bf16, 0x4080⟩ nilVal nilVal

theorem witness_TranscendentalsGiveTheFunction :
    (∀ mk ∈ fns, On (mk hd un) hd sNeg (fun l => (x1 sNeg l).tag = .int)) ∧ (∀ mk ∈ fns, On (mk hd un) hd sF64 (fun l => (x1 sF64 l).tag = .f64)) ∧
    (∀ mk ∈ fns, On (mk hd un) hd sFlt (fun l => (x1 sFlt l).tag = .f32)) ∧ (∀ mk ∈ fns, On (mk hd un) hd sF16 (fun l => (x1 sF16 l).tag = .f16)) ∧
    (∀ mk ∈ fns, On (mk hd un) hd sB16 (fun l => (x1 sB16 l).tag = .bf16)) :=
  ⟨onAll (by decide +kernel), onAll (by decide +kernel), onAll (by decide +kernel), onAll (by decide +kernel), onAll (by decide +kernel)⟩

/-- R115: the square root of 4.0 in F64, and special values in F32. -/
theorem test_function_values : [
    (Instr.sqrt hd un, sF64, ⟨Tag.f64, 0x4000_0000_0000_0000⟩), (.log2 hd un, abc ⟨.f32, 0⟩ nilVal nilVal, ⟨.f32, 0xFF80_0000⟩),
    (.rcp hd un, abc ⟨.f32, 0x8000_0000⟩ nilVal nilVal, ⟨.f32, 0xFF80_0000⟩), (.exp2 hd un, abc ⟨.f32, 0xFF80_0000⟩ nilVal nilVal, ⟨.f32, 0⟩),
    (.cos hd un, abc ⟨.f32, 0⟩ nilVal nilVal, ⟨.f32, 0x3F80_0000⟩)].all
      (fun e => decide (after e.1 e.2.1 (.lane 0) 0 = e.2.2)) = true := by decide +kernel

def sPack : State := abc ⟨.pk16, 0x3F80_4000_3F80_4040⟩ f15 nilVal
def sHalf : State := abc ⟨.f32, 0xC020_0000⟩ (intVal 126) nilVal

theorem witness_ConversionsGiveTheValue :
    (∀ rm ∈ [Rnd.rn, .rz, .ru, .rd, .ra], On (.frnd hd rm un) hd sNeg (fun l => (x1 sNeg l).tag = .int)) ∧
    (∀ rm ∈ [Rnd.rn, .rz, .ru, .rd, .ra], On (.frnd hd rm un) hd sHalf (fun l => (tagFmt (x1 sHalf l).tag).isSome)) ∧
    On (.cvt hd .int .rn un) hd sHalf (fun l => (valNum (x1 sHalf l)).isSome ∧
      ∃ n, roundInt .rn ((valNum (x1 sHalf l)).getD .nan) = some n ∧ Fits n) ∧
    (∀ t ∈ [CvtTgt.f64, .f32, .f16, .bf16, .tap8, .tap6, .i8, .i4, .se8], On (.cvt hd t .ra un) hd sHalf (fun l => (valNum (x1 sHalf l)).isSome)) ∧
    (∀ e ∈ [Elt.bf16, .f16, .i16], On (.unpk hd (unE e)) hd sPk (fun l => (x1 sPk l).tag = eltTag e)) ∧
    (∀ e ∈ [Elt.i8, .tap8, .tap6], On (.unpk hd (unE e)) hd sDotI (fun l => (x1 sDotI l).tag = eltTag e)) ∧
    (∀ rm ∈ [Rnd.rn, .ra], On (.pack hd rm (binE .bf16)) hd sPack (fun l =>
      ((x1 sPack l).tag = .nil ∨ (x1 sPack l).tag = eltTag .bf16) ∧ (valNum (x2 sPack l)).isSome)) ∧
    (∀ e ∈ [Elt.i8, .i4, .tap8, .tap6], On (.scaleq hd (.lane 0) (.lane 1) e) hd sHalf (fun l => (valNum (x1 sHalf l)).isSome)) ∧
    (∀ e ∈ [Elt.i8, .tap8, .tap6], On (.scaleq hd (.lane 0) (.lane 1) e) hd sDotI (fun l => (x1 sDotI l).tag = eltTag e)) ∧
    (∀ e ∈ [Elt.i8, .i4, .tap8, .tap6], On (.qnt hd .rn (.lane 0) (.lane 1) (.lane 2) e) hd sHalf (fun l =>
      (x2 sHalf l).tag = .int ∧ (x2 sHalf l).pay.toNat < 255 ∧ (valNum (x1 sHalf l)).isSome)) :=
  ⟨onAll (by decide +kernel), onAll (by decide +kernel),
   on0 (by decide +kernel) (by decide +kernel) ⟨by decide +kernel, -2, by decide +kernel, by decide +kernel⟩,
   onAll (by decide +kernel), onAll (by decide +kernel), onAll (by decide +kernel), onAll (by decide +kernel), onAll (by decide +kernel),
   onAll (by decide +kernel), onAll (by decide +kernel)⟩

def sQnt : State := abc ⟨.pk8, 0x0102⟩ (intVal 126) nilVal

theorem witness_ConversionsGiveTheValue_packed :
    (∀ e ∈ [Elt.i8, .tap8, .tap6], On (.qnt hd .rn (.lane 0) (.lane 1) (.lane 2) e) hd sQnt (fun l =>
      (x2 sQnt l).tag = .int ∧ (x2 sQnt l).pay.toNat < 255 ∧ (x1 sQnt l).tag = eltTag e)) :=
  onAll (by decide +kernel)

/-- R116, R118-R123: -2.5 under each rounding; packed bytes 2 and -1; 2^(-1) as a scale doubles. -/
theorem test_conversion_values : [
    (Instr.frnd hd .rn un, sHalf, ⟨Tag.f32, 0xC000_0000⟩), (.frnd hd .rd un, sHalf, ⟨.f32, 0xC040_0000⟩), (.frnd hd .ra un, sHalf, ⟨.f32, 0xC040_0000⟩),
    (.cvt hd .int .rn un, sHalf, intVal (-2)), (.cvt hd .int .rd un, sHalf, intVal (-3)), (.cvt hd .f64 .rn un, sHalf, ⟨.f64, 0xC004_0000_0000_0000⟩),
    (.cvt hd .bf16 .rn un, sHalf, ⟨.bf16, 0xC020⟩), (.cvt hd .i8 .rz un, sHalf, ⟨.pk8, 0xFE⟩), (.unpk hd (unE .i8), sDotI, intVal 2),
    (.unpk hd (unE .bf16), sPk, ⟨.bf16, 0x4040⟩), (.pack hd .rn (binE .bf16), abc nilVal f15 nilVal, ⟨.pk16, 0x3FC0_0000_0000_0000⟩),
    (.qnt hd .rn (.lane 0) (.lane 1) (.lane 2) .i8, sQnt, ⟨.pk8, 0x0204⟩)].all
      (fun e => decide (after e.1 e.2.1 (.lane 0) 0 = e.2.2)) = true := by decide +kernel

/-! ## Witnesses: bits, moves, lanes -/

def sInt : State := abc (intVal 0xF0) (intVal 68) (intVal 8)
def sPtr : State := abc ⟨.ptr, 0x8000_0000_0000_0001⟩ (intVal 4) (intVal 64)

theorem witness_BitwiseAndShiftsGiveTheBits :
    (∀ mk ∈ [Instr.and, Instr.or, Instr.xor], ∀ s ∈ [sInt, sPtr, sPk], On (mk hd bin) hd s (fun l =>
      ((x1 s l).tag = .int ∧ (x2 s l).tag = .int) ∨ ((x1 s l).tag = .ptr ∧ (x2 s l).tag = .int) ∨
      ((x1 s l).tag = .int ∧ (x2 s l).tag = .ptr) ∨ (isPacked (x1 s l).tag = true ∧ (x2 s l).tag = (x1 s l).tag))) ∧
    (∀ mk ∈ [Instr.andi, Instr.ori, Instr.xori], On (mk hd ⟨.lane 0, .lane 1, -1⟩) hd sPtr (fun l => (x1 sPtr l).tag = .int ∨ (x1 sPtr l).tag = .ptr)) ∧
    On (.not hd un) hd sPk (fun l => (x1 sPk l).tag = .int ∨ (x1 sPk l).tag = .ptr ∨ isPacked (x1 sPk l).tag = true) ∧
    (∀ mk ∈ [Instr.shl, Instr.shr, Instr.sar, Instr.rol], On (mk hd bin) hd sInt (fun l =>
      ((x1 sInt l).tag = .int ∨ (x1 sInt l).tag = .ptr) ∧ (x2 sInt l).tag = .int)) ∧
    (∀ mk ∈ [Instr.shli, Instr.shri], On (mk hd (.lane 0) (.lane 1) 63) hd sPtr (fun l => (x1 sPtr l).tag = .int ∨ (x1 sPtr l).tag = .ptr)) := by
  refine ⟨fun mk m s n => ?_, onAll (by decide +kernel), on0 (by decide +kernel) (by decide +kernel) (by decide +kernel),
    onAll (by decide +kernel), onAll (by decide +kernel)⟩
  have c : ∀ mk ∈ [Instr.and, Instr.or, Instr.xor], ∀ s ∈ [sInt, sPtr, sPk], issues (mk hd bin) hd s = true ∧
      (curIx (mk hd bin) hd s).exe = [0] ∧ (((x1 s 0).tag = .int ∧ (x2 s 0).tag = .int) ∨ ((x1 s 0).tag = .ptr ∧ (x2 s 0).tag = .int) ∨
      ((x1 s 0).tag = .int ∧ (x2 s 0).tag = .ptr) ∨ (isPacked (x1 s 0).tag = true ∧ (x2 s 0).tag = (x1 s 0).tag)) := by decide +kernel
  exact on0 (c mk m s n).1 (c mk m s n).2.1 (c mk m s n).2.2

/-- R127, R128: 68 counts as 4 modulo 64; an immediate is sign-extended; PTR keeps its tag. -/
theorem test_bitwise_values : [
    (Instr.and hd bin, sInt, intVal 64), (.or hd bin, sInt, intVal 0xF4), (.xor hd bin, sPtr, ⟨.ptr, 0x8000_0000_0000_0005⟩),
    (.andi hd ⟨.lane 0, .lane 1, -2⟩, sPtr, ⟨.ptr, 0x8000_0000_0000_0000⟩), (.ori hd ⟨.lane 0, .lane 1, 0xF⟩, sInt, intVal 0xFF),
    (.xori hd ⟨.lane 0, .lane 1, -1⟩, sInt, intVal (-0xF1)), (.not hd un, sInt, intVal (-0xF1)), (.shl hd bin, sInt, intVal 0xF00),
    (.shr hd bin, sPtr, ⟨.ptr, 0x0800_0000_0000_0000⟩), (.sar hd bin, sPtr, ⟨.ptr, 0xF800_0000_0000_0000⟩),
    (.rol hd bin, sPtr, ⟨.ptr, 0x18⟩), (.shli hd (.lane 0) (.lane 1) 60, sInt, intVal 0), (.shri hd (.lane 0) (.lane 1) 4, sInt, intVal 15)].all
      (fun e => decide (after e.1 e.2.1 (.lane 0) 0 = e.2.2)) = true := by decide +kernel

/-- Lane registers v0 to v3. -/
def dabc (d a b c : Val) : State := one [(.lane 0, d), (.lane 1, a), (.lane 2, b), (.lane 3, c)]
def sFld : State := dabc (intVal (-1)) (intVal 0xABCD) (intVal 4) (intVal 8)
def sRefs : State := abc ⟨.ref, 0x120⟩ ⟨.ref, 0x100⟩ nilVal

theorem witness_BitFieldsAndWrapping :
    (∀ mk ∈ [Instr.popc, Instr.clz, Instr.ctz, Instr.brev], On (mk hd un) hd sPtr (fun l =>
      (x1 sPtr l).tag = .int ∨ (x1 sPtr l).tag = .ptr ∨ isPacked (x1 sPtr l).tag = true)) ∧
    On (.bfx hd fieldE) hd sFld (fun l => ((x1 sFld l).tag = .int ∨ (x1 sFld l).tag = .ptr ∨ isPacked (x1 sFld l).tag = true) ∧
      (x2 sFld l).tag ≠ .poison ∧ (x3 sFld l).tag ≠ .poison) ∧
    On (.bfi hd fieldE) hd sFld (fun l => (x1 sFld l).tag = .int ∧ ((opnd sFld (.lane 0) 0 l).tag = .int ∨ (opnd sFld (.lane 0) 0 l).tag = .ptr ∨
      isPacked (opnd sFld (.lane 0) 0 l).tag = true) ∧ (x2 sFld l).tag ≠ .poison ∧ (x3 sFld l).tag ≠ .poison) ∧
    (∀ mk ∈ [Instr.addw, Instr.subw, fun h => Instr.lea h 4], On (mk hd bin) hd sPtr (fun l =>
      ((x1 sPtr l).tag = .int ∨ (x1 sPtr l).tag = .ptr) ∧ (x2 sPtr l).tag = .int)) ∧
    (∀ mk ∈ [Instr.mulw, Instr.mulh], On (mk hd bin) hd sBot (fun l => (x1 sBot l).tag = .int ∧ (x2 sBot l).tag = .int)) ∧
    On (.ptrd hd bin) hd sRefs (fun l => ((x1 sRefs l).tag = .ptr ∧ (x2 sRefs l).tag = .ptr) ∨ ((x1 sRefs l).tag = .ref ∧ (x2 sRefs l).tag = .ref)) :=
  ⟨onAll (by decide +kernel), on0 (by decide +kernel) (by decide +kernel) (by decide +kernel),
   on0 (by decide +kernel) (by decide +kernel) (by decide +kernel), onAll (by decide +kernel), onAll (by decide +kernel),
   on0 (by decide +kernel) (by decide +kernel) (by decide +kernel)⟩

/-- R129-R134, by hand. -/
theorem test_field_values : [
    (Instr.popc hd un, sPtr, intVal 2), (.clz hd un, sInt, intVal 56), (.ctz hd un, sInt, intVal 4), (.ctz hd un, sTop, intVal 1),
    (.brev hd un, sPtr, ⟨.ptr, 0x8000_0000_0000_0001⟩), (.bfx hd fieldE, sFld, intVal 0xBC), (.bfi hd fieldE, sFld, intVal (-0x320 - 1)),
    (.addw hd bin, sTop, intVal (2 ^ 63 - 1)), (.subw hd bin, sBot, intVal (2 ^ 63 - 1)), (.mulw hd bin, sNeg, intVal (-14)),
    (.mulh hd bin, sNeg, intVal (-1)), (.lea hd 4 bin, sPtr, ⟨.ptr, 0x8000_0000_0000_0041⟩), (.ptrd hd bin, sRefs, intVal 0x20)].all
      (fun e => decide (after e.1 e.2.1 (.lane 0) 0 = e.2.2)) = true := by decide +kernel

/-- RT in effect. -/
def sRt : State := updWarp (abc (intVal 0x1234_5678_9ABC_DEF7) nilVal nilVal) 1 (fun w => { w with status := 0x1002 })
/-- Lane 0 holds values in its specials, and is in mask 11. -/
def sLane : State := updWarp sPoi 1 (fun w => setMask (updLane w 0 (fun y =>
  { y with elpc := 0x30, lopa := f15, ldst := 0x2000FF, lrpc := 0x40, csd := 3, lcd := 2, stk := [(15, 0x50)] })) 11 1)

theorem witness_MovesAndTags :
    On (.mov hd un) hd sPoi (fun _ => True) ∧ On (.movi hd (.uni 63) (-1)) hd sPoi (fun _ => True) ∧ On (.movf hd (.lane 0) 1) hd sPoi (fun _ => True) ∧
    (∀ t ∈ [Tag.int, .poison], On (.movl hd t (.lane 127) 5) hd sPoi (fun _ => t ≠ .ref ∨ rtOn (warpOf sPoi sPoi.cur) = true)) ∧
    On (.movl hd .ref (.lane 127) 0x10) hd sRt (fun _ => Tag.ref ≠ .ref ∨ rtOn (warpOf sRt sRt.cur) = true) ∧
    (∀ m ∈ [(0 : MaskNo), 11], On (.sel hd m bin) hd sPoi (fun _ => True)) ∧
    (∀ x ∈ [LSpec.laneid, .lpc, .elpc, .lopa, .lopb, .lopc, .ldst, .lrpc, .lcdepth, .estat, .stk 0, .stk 15],
      On (.getl hd x (.lane 0)) hd sLane (fun _ => True)) ∧
    (∀ m ∈ [(0 : MaskNo), 11], On (.mget hd (.lane 0) m) hd sLane (fun _ => True)) ∧
    (∀ x ∈ [WSpec.wid, .teamid, .teamx, .teamy, .teamz, .core, .cluster, .die, .chip, .part, .nurs, .nlim, .tvec, .trapv, .cause, .eaddr,
      .status, .cyc, .role, .nwarp], On (.gets hd x (.lane 0)) hd sLane (fun _ => True)) ∧
    On (.tagof hd (.lane 0) (.lane 1)) hd sPoi (fun _ => True) ∧
    (∀ t ∈ [Tag.nil, .int, .f64, .f32, .f16, .bf16, .pk8, .sym, .tile, .ptr, .poison, .ref], On (.tagas hd t (.lane 0) (.lane 1)) hd sRt (fun _ =>
      t ≠ .ref ∨ rtOn (warpOf sRt sRt.cur) = true)) ∧
    issues (.tagas hd .ref (.lane 0) (.lane 1)) hd sPoi = true ∧ rtOn (warpOf sPoi sPoi.cur) = false ∧ isUni (.lane 0) = false ∧ Reg.lane 0 ≠ .nil :=
  ⟨on0 (by decide +kernel) (by decide +kernel) trivial, on0 (by decide +kernel) (by decide +kernel) trivial,
   on0 (by decide +kernel) (by decide +kernel) trivial, onAll (by decide +kernel), on0 (by decide +kernel) (by decide +kernel) (by decide +kernel),
   onAll (by decide +kernel), onAll (by decide +kernel), onAll (by decide +kernel), onAll (by decide +kernel),
   on0 (by decide +kernel) (by decide +kernel) trivial, onAll (by decide +kernel),
   by decide +kernel, by decide +kernel, by decide +kernel, by decide +kernel⟩

/-- R124, R125, R135-R139, R143, R170, R179. -/
theorem test_move_values : [
    (Instr.mov hd un, sPoi, ⟨Tag.poison, 0x23⟩), (.movi hd (.lane 0) 0x4000_0000, sPoi, intVal (-0x4000_0000)),
    (.movf hd (.lane 0) 0x1FE0_0000, sPoi, f15), (.movl hd .sym (.lane 0) 9, sPoi, ⟨.sym, 9⟩), (.sel hd 11 bin, sLane, ⟨.poison, 0x23⟩),
    (.sel hd 0 bin, sLane, intVal 1), (.getl hd .elpc (.lane 0), sLane, ⟨.ptr, 0x30⟩), (.getl hd .lopa (.lane 0), sLane, f15),
    (.getl hd .lcdepth (.lane 0), sLane, intVal 0x302), (.getl hd (.stk 15) (.lane 0), sLane, ⟨.ptr, 0x50⟩), (.getl hd .lpc (.lane 0), sLane, ⟨.ptr, 0x1000⟩),
    (.mget hd (.lane 0) 11, sLane, intVal 1), (.gets hd .status (.lane 0), sRt, intVal 0x1002), (.gets hd .trapv (.lane 0), sRt, ⟨.ptr, 0x2000⟩),
    (.tagof hd (.lane 0) (.lane 1), sPoi, intVal 15), (.tagas hd .ref (.lane 0) (.lane 1), sRt, ⟨.ref, 0x5678_9ABC_DEF0⟩),
    (.tagas hd .f16 (.lane 0) (.lane 1), sRt, ⟨.f16, 0xDEF7⟩), (.tagas hd .nil (.lane 0) (.lane 1), sRt, nilVal)].all
      (fun e => decide (after e.1 e.2.1 (.lane 0) 0 = e.2.2)) = true := by decide +kernel

/-- Lanes 0 and 1 hold -7 and 9 in v1, and 31 in v2. -/
def sTwo : State := updWarp (two [(.lane 1, intVal (-7)), (.lane 2, intVal 33), (.uni 0, intVal 0)] 1 (intVal 9)) 1 (fun w => setLaneReg w 2 1 (intVal 0))

/-- The same with lanes 0 and 1 executing. -/
theorem onBoth {i : Instr} {h : Hdr} {s : State} {P : Nat → Prop} (a : issues i h s = true) (b : (curIx i h s).exe = [0, 1])
    (c : P 0) (d : P 1) : On i h s P := by
  refine ⟨a, ?_⟩
  rw [b]
  simpa using ⟨c, d⟩

theorem bothAll {α : Type} {L : List α} {I : α → Instr} {s : State} {P : α → Nat → Prop}
    (c : ∀ x ∈ L, issues (I x) hd s = true ∧ (curIx (I x) hd s).exe = [0, 1] ∧ P x 0 ∧ P x 1) : ∀ x ∈ L, On (I x) hd s (P x) :=
  fun x m => onBoth (c x m).1 (c x m).2.1 (c x m).2.2.1 (c x m).2.2.2

theorem witness_CrossLaneReads :
    (∀ mk ∈ [Instr.shfl], On (mk hd (.lane 0) (.lane 1) (.lane 2)) hd sTwo (fun l => (opnd sTwo (.lane 2) 0 l).tag ≠ .poison)) ∧
    On (.bcast hd (.uni 1) (.lane 1) (.uni 0)) hd sTwo (fun l => (opnd sTwo (.uni 0) 0 l).tag ≠ .poison) ∧
    (∀ k ∈ [(1 : BitVec 6), 31], On (.shflx hd (.lane 0) (.lane 1) k) hd sTwo (fun _ => k.toNat < (warpOf sTwo sTwo.cur).width)) ∧
    (∀ k ∈ [VoteOp.any, .all, .ballot], On (.vote hd k (.uni 1) (.lane 1)) hd sTwo (fun l => (opnd sTwo (.lane 1) 0 l).tag ≠ .poison)) ∧
    (∀ e ∈ [(RedOp.add, 2), (.min, -7), (.max, 9), (.and, 9), (.or, -7), (.xor, -16)], On (.redux hd e.1 (.uni 1) (.lane 1)) hd sTwo (fun _ =>
      redux e.1 (warpOf sTwo sTwo.cur) (curIx (.redux hd e.1 (.uni 1) (.lane 1)) hd sTwo).exe (.lane 1) = .val (intVal e.2))) ∧
    (∀ k ∈ [RedOp.add, .xor], On (.scanx hd k false (.lane 0) (.lane 1)) hd sTwo (fun l => redux k (warpOf sTwo sTwo.cur)
      ((curIx (.scanx hd k false (.lane 0) (.lane 1)) hd sTwo).exe.filter (fun j => decide (j < l) || (!false && decide (j = l)))) (.lane 1) =
        .val ((fun l => if l = 0 then intVal (-7) else if k = .add then intVal 2 else intVal (-16)) l))) ∧
    (warpOf sTwo sTwo.cur).width = 2 ^ 5 ∧ (∀ l ∈ [0, 1], l < (warpOf sTwo sTwo.cur).width ∧ (readReg (warpOf sTwo sTwo.cur) (.lane 1) l).tag = .int) := by
  exact ⟨bothAll (by decide +kernel), onBoth (by decide +kernel) (by decide +kernel) (by decide +kernel) (by decide +kernel),
    bothAll (by decide +kernel), bothAll (by decide +kernel), bothAll (by decide +kernel), bothAll (by decide +kernel), by decide +kernel,
    by decide +kernel⟩

/-- R172-R176: lane 0 reads lane 33 mod 32 = 1, lane 1 reads lane 0; the scan of -7 and 9. -/
theorem test_cross_values : [
    (Instr.shfl hd (.lane 0) (.lane 1) (.lane 2), Reg.lane 0, intVal 9, intVal (-7)), (.shflx hd (.lane 0) (.lane 1) 1, .lane 0, intVal 9, intVal (-7)),
    (.bcast hd (.uni 1) (.lane 1) (.uni 0), .uni 1, intVal (-7), intVal (-7)), (.vote hd .ballot (.uni 1) (.lane 1), .uni 1, intVal 3, intVal 3),
    (.vote hd .all (.uni 1) (.lane 2), .uni 1, intVal 0, intVal 0), (.redux hd .add (.uni 1) (.lane 1), .uni 1, intVal 2, intVal 2),
    (.scanx hd .add false (.lane 0) (.lane 1), .lane 0, intVal (-7), intVal 2), (.scanx hd .add true (.lane 0) (.lane 1), .lane 0, intVal 0, intVal (-7))].all
      (fun e => decide (after e.1 sTwo e.2.1 0 = e.2.2.1 ∧ after e.1 sTwo e.2.1 1 = e.2.2.2)) = true := by decide +kernel

/-! ## Witnesses: the warp's own state, control, traps -/

/-- Virtual page n of partition 0 stands at physical address pa, to read and write, raw. -/
def page (s : State) (n pa : Nat) : State :=
  updCore s 0 (fun c => { c with tlb := ⟨0, 0, n, ⟨pa, false, false, false, false, false, false, true, true⟩⟩ :: c.tlb })
/-- The word at physical address pa. -/
def poke (s : State) (pa : Nat) (v : Word) : State := rawWrite s (pa / 8) v 0xFF none false
/-- What lane l's own state is after the instruction. -/
def laneAfter (i : Instr) (s : State) (l : Nat) : Lane :=
  match exec i s with
  | .next t => laneOf (warpOf t s.cur) l
  | _ => Lane.none
/-- What the warp is after the instruction. -/
def warpAfter (i : Instr) (s : State) : Warp :=
  match exec i s with
  | .next t => warpOf t s.cur
  | _ => Warp.none

def sAddr : State := abc (intVal 0x3008) (intVal (2 ^ 64 - 8)) ⟨.ptr, 0x3000⟩

theorem witness_LaneSpecialsAreWritten :
    ∀ x ∈ [LSpec.elpc, .lopa, .lopb, .lopc, .ldst, .lrpc, .estat, .stk 0, .stk 15], On (.setl hd x (.lane 1)) hd sAddr (fun l => match x with
      | .elpc | .lrpc | .stk _ => (opnd sAddr (.lane 1) 0 l).tag = .int ∨ (opnd sAddr (.lane 1) 0 l).tag = .ptr
      | .ldst => (opnd sAddr (.lane 1) 0 l).tag = .int ∧ ldstLegal (warpOf sAddr sAddr.cur) (opnd sAddr (.lane 1) 0 l).pay = true
      | .estat => (opnd sAddr (.lane 1) 0 l).tag = .int
      | _ => True) := by
  have c : ∀ x ∈ [LSpec.elpc, .lopa, .lopb, .lopc, .ldst, .lrpc, .estat, .stk 0, .stk 15], issues (.setl hd x (.lane 1)) hd sAddr = true ∧
      (curIx (.setl hd x (.lane 1)) hd sAddr).exe = [0] := by decide +kernel
  have d : (opnd sAddr (.lane 1) 0 0).tag = .int := by decide +kernel
  have e : ldstLegal (warpOf sAddr sAddr.cur) (opnd sAddr (.lane 1) 0 0).pay = true := by decide +kernel
  exact fun x m => on0 (c x m).1 (c x m).2 (by cases x <;> first | trivial | exact d | exact .inl d | exact ⟨d, e⟩)

/-- R65, R66, R140: LDST keeps bits [21:0]. -/
theorem test_setl_values :
    (laneAfter (.setl hd .elpc (.lane 3)) sAddr 0).elpc = 0x3000 ∧ (laneAfter (.setl hd (.stk 2) (.lane 1)) sAddr 0).stk = [(2, 0x3008)] ∧
    (laneAfter (.setl hd .ldst (.lane 1)) (abc (intVal 0xFFE0_00FF) nilVal nilVal) 0).ldst = 0x2000FF := by decide +kernel

def sStat : State := abc (intVal 0x1F01) nilVal nilVal
/-- Outside supervisor state, with a STATUS that would set RT. -/
def sUser : State := abc (intVal 0x1F03) nilVal nilVal
def sSup : State := updWarp (abc (intVal 0x1F07) nilVal nilVal) 1 (fun w => { w with status := 0x1004 })

theorem witness_WarpSpecialsAndTheNursery_sets :
    (∀ x ∈ [WSpec.nurs, .nlim, .tvec, .trapv], On (.sets hd x (.lane 1)) hd sSup (fun _ =>
      ((opnd sSup (.lane 1) 0 0).tag = .int ∨ (opnd sSup (.lane 1) 0 0).tag = .ptr) ∧ (rtOn (warpOf sSup 1) = true ∨ super (warpOf sSup 1) = true))) ∧
    (∀ x ∈ [WSpec.nurs, .nlim, .tvec, .trapv], On (.sets hd x (.lane 1)) hd sRt (fun _ =>
      ((opnd sRt (.lane 1) 0 0).tag = .int ∨ (opnd sRt (.lane 1) 0 0).tag = .ptr) ∧ (rtOn (warpOf sRt 1) = true ∨ super (warpOf sRt 1) = true))) ∧
    (∀ x ∈ [WSpec.eaddr, .cause], On (.sets hd x (.lane 1)) hd sStat (fun _ => (opnd sStat (.lane 1) 0 0).tag = .int)) ∧
    On (.sets hd .status (.lane 1)) hd sStat (fun _ => (opnd sStat (.lane 1) 0 0).tag = .int ∧ fld (opnd sStat (.lane 1) 0 0).pay 8 5 ≠ 0 ∧
      (super (warpOf sStat 1) = true ∨ fld (opnd sStat (.lane 1) 0 0).pay 1 2 = fld (warpOf sStat 1).status 1 2)) ∧
    On (.sets hd .status (.lane 1)) hd sSup (fun _ => (opnd sSup (.lane 1) 0 0).tag = .int ∧ fld (opnd sSup (.lane 1) 0 0).pay 8 5 ≠ 0 ∧
      (super (warpOf sSup 1) = true ∨ fld (opnd sSup (.lane 1) 0 0).pay 1 2 = fld (warpOf sSup 1).status 1 2)) ∧
    (∀ x ∈ [WSpec.nurs, .nlim, .tvec, .trapv], On (.sets hd x (.lane 1)) hd sStat (fun _ => (x = .nurs ∨ x = .nlim ∨ x = .tvec ∨ x = .trapv) ∧
      ((opnd sStat (.lane 1) 0 0).tag = .int ∨ (opnd sStat (.lane 1) 0 0).tag = .ptr) ∧ rtOn (warpOf sStat 1) = false ∧ super (warpOf sStat 1) = false)) ∧
    On (.sets hd .status (.lane 1)) hd sUser (fun _ => (opnd sUser (.lane 1) 0 0).tag = .int ∧ fld (opnd sUser (.lane 1) 0 0).pay 8 5 ≠ 0 ∧
      super (warpOf sUser 1) = false ∧ fld (opnd sUser (.lane 1) 0 0).pay 1 2 ≠ fld (warpOf sUser 1).status 1 2) :=
  ⟨onAll (by decide +kernel), onAll (by decide +kernel), onAll (by decide +kernel), on0 (by decide +kernel) (by decide +kernel) (by decide +kernel),
   on0 (by decide +kernel) (by decide +kernel) (by decide +kernel), onAll (by decide +kernel),
   on0 (by decide +kernel) (by decide +kernel) (by decide +kernel)⟩

/-- A nursery from 0x100 to 0x200; lanes 0 and 1 ask for 17 and 0xE0 bytes; then for one byte more. -/
def sNur : State := updWarp (two [(.lane 1, intVal 17)] 1 (intVal 0xE0)) 1 (fun w => { w with nurs := 0x100, nlim := 0x200 })
def sFull : State := updWarp (two [(.lane 1, intVal 17)] 1 (intVal 0xE1)) 1 (fun w => { w with nurs := 0x100, nlim := 0x200 })

theorem witness_WarpSpecialsAndTheNursery_alloc :
    (∀ s ∈ [sNur, sFull], On (.alloc hd (.lane 0) (.lane 1)) hd s (fun l => (opnd s (.lane 1) 0 l).tag ≠ .poison)) ∧
    (0x100 + (32 + 0xE0) ≤ 0x200) ∧ (0x200 < 0x100 + (32 + 0xF0)) := by
  have c : ∀ s ∈ [sNur, sFull], issues (.alloc hd (.lane 0) (.lane 1)) hd s = true ∧ (curIx (.alloc hd (.lane 0) (.lane 1)) hd s).exe = [0, 1] ∧
      (opnd s (.lane 1) 0 0).tag ≠ .poison ∧ (opnd s (.lane 1) 0 1).tag ≠ .poison := by decide +kernel
  exact ⟨fun s m => onBoth (c s m).1 (c s m).2.1 (c s m).2.2.1 (c s m).2.2.2, by decide, by decide⟩

/-- R142, R143, R178, R180. -/
theorem test_special_values :
    (warpAfter (.sets hd .trapv (.lane 1)) sRt).trapv = 0x1234_5678_9ABC_DEF0 ∧ (warpAfter (.sets hd .status (.lane 1)) sSup).status = 0x1F07 ∧
    (warpAfter (.sets hd .nurs (.lane 1)) sStat).cause = 0x11 ∧ (warpAfter (.sets hd .status (.lane 1)) sUser).cause = 0x11 ∧ after (.alloc hd (.lane 0) (.lane 1)) sNur (.lane 0) 0 = ⟨.ref, 0x100⟩ ∧
    after (.alloc hd (.lane 0) (.lane 1)) sNur (.lane 0) 1 = ⟨.ref, 0x120⟩ ∧ (warpAfter (.alloc hd (.lane 0) (.lane 1)) sNur).nurs = 0x200 ∧
    (warpAfter (.alloc hd (.lane 0) (.lane 1)) sFull).cause = 0x50 ∧ (warpAfter (.alloc hd (.lane 0) (.lane 1)) sFull).eaddr = intVal 0x110 := by
  decide +kernel

/-- Lane 0 has called once, from 0xFF8 away. -/
def sCall : State := updWarp sAddr 1 (fun w => setMask (updLane w 0 (fun y => { y with csd := 1, stk := [(0, 0x4000)] })) 0 1)
/-- Lane 0 in a handler, its stack at the depth's limit. -/
def sDeep : State := updWarp sAddr 1 (fun w => updLane w 0 (fun y => { y with csd := 14, lcd := 3, ldst := 0x2000FF, lrpc := 0x4000 }))

theorem witness_TransfersMoveLanes :
    (∀ c ∈ [Cond.always, .nz (.lane 1), .z (.uni 0), .ms 0, .mc 11, .uniform (.uni 0)], On (.bra hd ⟨c, -2⟩) hd sCall (fun l =>
      ∀ r, condReg c = some r → (opnd sCall r 0 l).tag ≠ .poison)) ∧
    On (.call hd ⟨.ms 0, 4⟩) hd sCall (fun l => (∀ r, condReg (.ms 0) = some r → (opnd sCall r 0 l).tag ≠ .poison) ∧
      (l ∈ (curIx (.call hd ⟨.ms 0, 4⟩) hd sCall).exe ∧ condHolds (warpOf sCall sCall.cur) (.ms 0) l = true → (laneOf (warpOf sCall sCall.cur) l).csd < 16)) ∧
    On (.ret hd .always) hd sCall (fun l => (∀ r, condReg .always = some r → (opnd sCall r 0 l).tag ≠ .poison) ∧
      (l ∈ (curIx (.ret hd .always) hd sCall).exe ∧ condHolds (warpOf sCall sCall.cur) .always l = true → 0 < (laneOf (warpOf sCall sCall.cur) l).csd ∧
        fld (spGet 0 (laneOf (warpOf sCall sCall.cur) l).stk ((laneOf (warpOf sCall sCall.cur) l).csd - 1)) 0 3 = 0)) ∧
    (∀ r ∈ [Reg.lane 1, .lane 3], On (.jmpi hd r) hd sAddr (fun l => ((opnd sAddr r 0 l).tag = .ptr ∨ (opnd sAddr r 0 l).tag = .int) ∧
      fld (opnd sAddr r 0 l).pay 48 16 = 0 ∧ fld (opnd sAddr r 0 l).pay 0 3 = 0)) ∧
    (∀ s ∈ [sCall, sDeep], On (.lcall hd ⟨.always, 4⟩) hd s (fun l => (∀ r, condReg .always = some r → (opnd s r 0 l).tag ≠ .poison) ∧
      (l ∈ (curIx (.lcall hd ⟨.always, 4⟩) hd s).exe ∧ condHolds (warpOf s s.cur) .always l = true → (laneOf (warpOf s s.cur) l).lcd ≠ 4 ∧
        ((laneOf (warpOf s s.cur) l).lcd = 0 ∨ (laneOf (warpOf s s.cur) l).csd ≤ 14)))) := by
  have c : ∀ c ∈ [Cond.always, .nz (.lane 1), .z (.uni 0), .ms 0, .mc 11, .uniform (.uni 0)], issues (.bra hd ⟨c, -2⟩) hd sCall = true ∧
      (curIx (.bra hd ⟨c, -2⟩) hd sCall).exe = [0] := by decide +kernel
  have e : (opnd sCall (.lane 1) 0 0).tag ≠ .poison ∧ (opnd sCall (.uni 0) 0 0).tag ≠ .poison := by decide +kernel
  have d : ∀ s ∈ [sCall, sDeep], issues (.lcall hd ⟨.always, 4⟩) hd s = true ∧ (curIx (.lcall hd ⟨.always, 4⟩) hd s).exe = [0] ∧
      (laneOf (warpOf s s.cur) 0).lcd ≠ 4 ∧ ((laneOf (warpOf s s.cur) 0).lcd = 0 ∨ (laneOf (warpOf s s.cur) 0).csd ≤ 14) := by decide +kernel
  refine ⟨fun x m => on0 (c x m).1 (c x m).2 (fun r q => ?_), on0 (by decide +kernel) (by decide +kernel) ⟨fun r q => by simp [condReg] at q, fun _ => by decide +kernel⟩,
    on0 (by decide +kernel) (by decide +kernel) ⟨fun r q => by simp [condReg] at q, fun _ => by decide +kernel⟩, onAll (by decide +kernel),
    fun s m => on0 (d s m).1 (d s m).2.1 ⟨fun r q => by simp [condReg] at q, fun _ => (d s m).2.2⟩⟩
  simp only [List.mem_cons, List.not_mem_nil, or_false] at m
  rcases m with rfl | rfl | rfl | rfl | rfl | rfl <;> simp [condReg] at q <;> subst q <;> first | exact e.1 | exact e.2

/-- R41, R155, R162, R164, R166. -/
theorem test_transfer_values :
    (laneAfter (.bra hd ⟨.nz (.lane 1), -2⟩) sCall 0).lpc = 0xFF0 ∧ (laneAfter (.bra hd ⟨.z (.lane 1), -2⟩) sCall 0).lpc = 0x1008 ∧
    (laneAfter (.call hd ⟨.always, 4⟩) sCall 0).stk = [(0, 0x4000), (1, 0x1008)] ∧ (laneAfter (.ret hd .always) sCall 0).lpc = 0x4000 ∧
    (laneAfter (.jmpi hd (.lane 1)) sAddr 0).lpc = 0x3008 ∧ (laneAfter (.lcall hd ⟨.always, 4⟩) sDeep 0).stk = [(14, 0x4000), (15, 0x2000FF)] ∧
    (laneAfter (.lcall hd ⟨.always, 4⟩) sDeep 0).csd = 16 ∧ (warpAfter (.ret hd .always) sAddr).cause = 0x10 := by decide +kernel

/-- The handler table from page 0 on: class 0 of SYM and INT enters at 0x3000, ADD's overflow at 0x3100, class 6 of SYM and INT at 0x3200. -/
def table (s : State) : State :=
  let s := page (page (page s 0 0x20_0000) 3 0x20_3000) 7 0x20_7000
  poke (poke (poke s (0x20_0000 + 8 * (9 * 16 + 1)) 0x3000) (0x20_0000 + 8 * (14 * 256 + 1)) 0x3100) (0x20_0000 + 8 * (6 * 256 + 9 * 16 + 1)) 0x3200
def sTab : State := table (abc ⟨.sym, 7⟩ (intVal 1) nilVal)
/-- Lane 0 adds a symbol, lane 1 the greatest integer, which overflows. -/
def sTab2 : State := table (updWarp (two [(.lane 1, ⟨.sym, 7⟩), (.lane 2, intVal 1)] 1 (intVal (2 ^ 63 - 1))) 1 (fun w => setLaneReg w 2 1 (intVal 1)))
/-- The same operands in uniform registers, in a lane that stands in a handler. -/
def sTabU : State := table (updWarp (one [(.uni 1, ⟨.sym, 7⟩), (.uni 2, intVal 1)]) 1 (fun w =>
  updLane w 0 (fun y => { y with lcd := 1, ldst := 5, lrpc := 0x4000 })))
/-- The calls of an instruction that issues meet no walk and no fault. -/
def callsFine (i : Instr) (s : State) (ks : List LCall) : Bool :=
  let c := checkCalls (began i hd s) (curIx i hd s) ks
  decide (issues i hd s = true ∧ c.misses = [] ∧ c.faults = [])

theorem witness_UnexecutedPairCallsItsHandler :
    (callsFine (.add hd (binE .i8)) sTab2 [⟨0, 0, 9, 1, ⟨.sym, 7⟩, intVal 1, nilVal, 0, 0, 0x1008⟩,
       ⟨1, 14, 0, 1, intVal (2 ^ 63 - 1), intVal 1, nilVal, 0, 0, 0x1008⟩] = true ∧
     (curIx (.add hd (binE .i8)) hd sTab2).exe = [0, 1] ∧ x1 sTab2 0 = ⟨.sym, 7⟩ ∧ x1 sTab2 1 = intVal (2 ^ 63 - 1) ∧ x2 sTab2 0 = intVal 1 ∧
     x2 sTab2 1 = intVal 1 ∧ ¬ Fits (2 ^ 63 - 1 + 1)) ∧
    (let i := Instr.add hd ⟨.uni 0, .uni 1, .uni 2, 0, 0, .i8⟩
     callsFine i sTabU [⟨0, 0, 9, 1, ⟨.sym, 7⟩, intVal 1, nilVal, 0, 128, 0x1008⟩] = true ∧ (curIx i hd sTabU).exe = [0] ∧
     opnd sTabU (.uni 1) 0 0 = ⟨.sym, 7⟩ ∧ opnd sTabU (.uni 2) 0 0 = intVal 1) ∧
    (let i := Instr.add hd ⟨.nil, .lane 1, .lane 2, 0, 0, .i8⟩
     callsFine i sTab [⟨0, 0, 9, 1, ⟨.sym, 7⟩, intVal 1, nilVal, 2, 255, 0x1008⟩] = true ∧ (curIx i hd sTab).exe = [0]) ∧
    (∀ m ∈ [(0 : MaskNo), 11],
     let i := Instr.cmpm hd .lt m (.lane 1) (.lane 2) 0 0 .i8
     callsFine i sTab [⟨0, 6, 9, 1, ⟨.sym, 7⟩, intVal 1, nilVal, 1, m.val, 0x1008⟩] = true ∧ (curIx i hd sTab).exe = [0] ∧
     x1 sTab 0 = ⟨.sym, 7⟩ ∧ x2 sTab 0 = intVal 1) := by decide +kernel

/-- R66, R95-R97: DREG 0, class 0, TAGA 9, TAGB 1; class 14 of ADD; class 6 with mask 11; a call from a handler. -/
theorem test_call_values :
    (laneAfter (.add hd (binE .i8)) sTab 0).lpc = 0x3000 ∧ (laneAfter (.add hd (binE .i8)) sTab 0).ldst = 0x1_9000 ∧
    (laneAfter (.add hd (binE .i8)) sTab 0).lrpc = 0x1008 ∧ (laneAfter (.add hd (binE .i8)) sTab 0).lopa = ⟨.sym, 7⟩ ∧
    (laneAfter (.add hd (binE .i8)) sTab 0).lcd = 1 ∧ (laneAfter (.add hd (binE .i8)) sTab2 1).lpc = 0x3100 ∧
    (laneAfter (.add hd (binE .i8)) sTab2 1).ldst = 0x1_0E00 ∧ (laneAfter (.cmpm hd .lt 11 (.lane 1) (.lane 2) 0 0 .i8) sTab 0).ldst = 0x11_960B ∧
    (laneAfter (.add hd ⟨.uni 0, .uni 1, .uni 2, 0, 0, .i8⟩) sTabU 0).stk = [(0, 0x4000), (1, 5)] := by decide +kernel

/-- Lane 0 in a handler whose result goes to v5; to mask 11 at depth 2. -/
def sRet1 : State := updWarp sAddr 1 (fun w => updLane w 0 (fun y => { y with lcd := 1, ldst := 5, lrpc := 0x4000 }))
def sRet2 : State := updWarp sAddr 1 (fun w => updLane w 0 (fun y =>
  { y with lcd := 2, csd := 2, ldst := 0x10000B, lrpc := 0x4000, stk := [(0, 0x5000), (1, 0x2000FF)] }))

theorem witness_LretReturnsTheValue :
    ∀ s ∈ [sRet1, sRet2], On (.lret hd (.lane 1)) hd s (fun l => lretOk (warpOf s s.cur) (laneOf (warpOf s s.cur) l) = true ∧
      lretPending (warpOf s s.cur) l = false) ∧ (warpOf s s.cur).lanes.map (fun e => e.1) = [0] ∧ isWaiting (laneOf (warpOf s s.cur) 0) = false := by
  have c : ∀ s ∈ [sRet1, sRet2], issues (.lret hd (.lane 1)) hd s = true ∧ (curIx (.lret hd (.lane 1)) hd s).exe = [0] ∧
      (lretOk (warpOf s s.cur) (laneOf (warpOf s s.cur) 0) = true ∧ lretPending (warpOf s s.cur) 0 = false) ∧
      (warpOf s s.cur).lanes.map (fun e => e.1) = [0] ∧ isWaiting (laneOf (warpOf s s.cur) 0) = false := by decide +kernel
  exact fun s m => ⟨on0 (c s m).1 (c s m).2.1 (c s m).2.2.1, (c s m).2.2.2⟩

/-- R99. -/
theorem test_lret_values :
    after (.lret hd (.lane 1)) sRet1 (.lane 5) 0 = intVal 0x3008 ∧ (laneAfter (.lret hd (.lane 1)) sRet1 0).lpc = 0x4000 ∧
    (laneAfter (.lret hd (.lane 1)) sRet2 0).lrpc = 0x5000 ∧ (laneAfter (.lret hd (.lane 1)) sRet2 0).lcd = 1 ∧
    maskReg (warpAfter (.lret hd (.lane 1)) sRet2) 11 = 1 := by decide +kernel

/-- Lanes 0 and 1 in mask 3; lane 1 elsewhere; lane 1 waiting at the JOIN. -/
def sMask : State := updWarp sTwo 1 (fun w => setMask w 3 3)
def sAway : State := updWarp sMask 1 (fun w => updLane w 1 (fun y => { y with lpc := 0x2000 }))
def sWait : State := updWarp sMask 1 (fun w => updLane w 1 (fun y => { y with act := .waiting 0x1000 3 }))

theorem witness_MasksExitLeaveAndJoin :
    (∀ c ∈ [Cond.always, .ms 3], On (.exit hd c) hd sMask (fun l => ∀ r, condReg c = some r → (opnd sMask r 0 l).tag ≠ .poison)) ∧
    On (.leave hd 3) hd sMask (fun _ => True) ∧ On (.join hd 0) hd sMask (fun _ => True) ∧ On (.join hd 3) hd sMask (fun _ => True) ∧
    On (.join hd 3) hd sAway (fun _ => True) ∧ On (.join hd 3) hd sWait (fun _ => True) ∧
    (curIx (.join hd 3) hd sWait).exe = [0] ∧ maskBit (warpOf sWait 1) 3 0 = true ∧ (laneOf (warpOf sWait 1) 1).lpc = (curIx (.join hd 3) hd sWait).pc ∧
    (curIx (.join hd 3) hd sAway).exe = [0] ∧ maskBit (warpOf sAway 1) 3 1 = true ∧ (laneOf (warpOf sAway 1) 1).lpc ≠ (curIx (.join hd 3) hd sAway).pc ∧
    maskReg (warpOf sMask 1) 0 = 0 := by
  have c : ∀ c ∈ [Cond.always, .ms 3], issues (.exit hd c) hd sMask = true ∧ (curIx (.exit hd c) hd sMask).exe = [0, 1] ∧ condReg c = none := by
    decide +kernel
  have d := fun x m => (c x m).2.2
  exact ⟨fun x m => onBoth (c x m).1 (c x m).2.1 (fun r q => by rw [d x m] at q; exact absurd q (by simp))
      (fun r q => by rw [d x m] at q; exact absurd q (by simp)),
    onBoth (by decide +kernel) (by decide +kernel) trivial trivial, onBoth (by decide +kernel) (by decide +kernel) trivial trivial,
    onBoth (by decide +kernel) (by decide +kernel) trivial trivial, on0 (by decide +kernel) (by decide +kernel) trivial,
    on0 (by decide +kernel) (by decide +kernel) trivial, by decide +kernel, by decide +kernel, by decide +kernel, by decide +kernel, by decide +kernel,
    by decide +kernel, by decide +kernel⟩

/-- R151, R152, R167. -/
theorem test_join_values :
    (laneAfter (.join hd 3) sAway 0).act = .waiting 0x1000 3 ∧ (laneAfter (.join hd 3) sWait 1).act = .ready ∧ (laneAfter (.join hd 3) sWait 1).lpc = 0x1008 ∧
    maskReg (warpAfter (.leave hd 3) sMask) 3 = 0 ∧ (laneAfter (.exit hd .always) sMask 0).act = .exited ∧ (warpAfter (.exit hd .always) sMask).live = false ∧
    maskReg (warpAfter (.exit hd .always) sWait) 3 = 2 := by decide +kernel

theorem witness_MasksExitLeaveAndJoin_masks :
    (∀ e ∈ [(MsetKind.exec, Reg.lane 0), (.all, .lane 0), (.zero, .lane 0), (.nz, .lane 2), (.bits, .uni 0)], On (.mset hd e.1 3 e.2) hd sTwo (fun l =>
      (e.1 = .nz ∨ e.1 = .bits) → (opnd sTwo e.2 0 l).tag ≠ .poison)) ∧
    (∀ k ∈ [MopsOp.and, .or, .xor, .andn], On (.mops hd k 11 3 2) hd sMask (fun _ => True)) ∧
    (∀ k ∈ [MopsOp.not, .copy], On (.mops hd k 11 3 0) hd sMask (fun _ => True)) :=
  ⟨bothAll (by decide +kernel), bothAll (by decide +kernel), bothAll (by decide +kernel)⟩

theorem witness_ElectWritesTheLowestLane :
    (∀ m ∈ [(0 : MaskNo), 11], On (.elect hd m) hd sMask (fun _ => True)) ∧
    (decodeWords (wd (wV 0x7B 11 0 0 0 0 0 0 0)) 0).toOption = some (.elect hd 11) ∧
    (∀ x ∈ [wV 0x7B 11 0 0 0 0 0 0 1, wV 0x7B 11 1 0 0 0 0 0 0], fld (wd x) 51 8 = 0x7B ∧ fld (wd x) 0 39 ≠ 0) :=
  ⟨bothAll (by decide +kernel), by decide +kernel, by decide +kernel⟩

/-- R168, R169, R171: the lanes alive are 0 and 1. -/
theorem test_mask_values : [
    (Instr.mset hd .exec 5 (.lane 0), (3 : Word)), (.mset hd .all 5 (.lane 0), 3), (.mset hd .zero 5 (.lane 0), 0), (.mset hd .nz 5 (.lane 2), 1),
    (.mset hd .bits 5 (.uni 0), 0), (.mops hd .and 5 3 2, 0), (.mops hd .or 5 2 3, 3), (.mops hd .xor 5 3 3, 0), (.mops hd .andn 5 3 2, 3),
    (.mops hd .not 5 3 0, 0), (.mops hd .copy 5 3 0, 3), (.elect hd 5, 1)].all (fun e => decide (maskReg (warpAfter e.1 sMask) 5 = e.2)) = true := by
  decide +kernel

/-- Under TIP, and without a trap entry. -/
def sTip : State := updWarp sTwo 1 (fun w => { setLane w 0 { laneOf w 0 with elpc := 0x7000 } with status := 0x1008 })
def sNoTrapv : State := updWarp sTwo 1 (fun w => { w with trapv := 0 })

theorem witness_TrapsEnterAndReturn :
    (∀ mk ∈ [Instr.trap, Instr.bkpt], ∀ s ∈ [sTwo, sTip, sNoTrapv], issues (mk hd 0xFFFF) hd s = true ∧ outstanding s s.cur = false) ∧
    tip (warpOf sTwo 1) = false ∧ (warpOf sTwo 1).trapv ≠ 0 ∧ tip (warpOf sTip 1) = true ∧ (warpOf sNoTrapv 1).trapv = 0 ∧
    issues (.tret hd) hd sTip = true ∧ issues (.tret hd) hd sTwo = true := by decide +kernel

/-- R156-R158, R160, R182. -/
theorem test_trap_values :
    (warpAfter (.trap hd 9) sTwo).cause = 0x971 ∧ (warpAfter (.bkpt hd 1) sTwo).cause = 0x170 ∧ (warpAfter (.trap hd 9) sTwo).eaddr = ⟨.ptr, 0x1000⟩ ∧
    (laneAfter (.trap hd 9) sTwo 1).elpc = 0x1008 ∧ (laneAfter (.trap hd 9) sTwo 1).lpc = 0x2000 ∧ (warpAfter (.trap hd 9) sTwo).status = 0x1008 ∧
    (warpAfter (.trap hd 9) sTip).halted = true ∧ (laneAfter (.tret hd) sTip 0).lpc = 0x7000 ∧ (warpAfter (.tret hd) sTip).status = 0x1000 ∧
    (warpAfter (.tret hd) sTwo).cause = 0x10 := by decide +kernel

theorem witness_NopYieldSleep :
    On (.nop hd) hd sTwo (fun _ => True) ∧ On (.yield hd) hd sTwo (fun _ => True) ∧ On (.sleep hd 0) hd sTwo (fun _ => True) ∧
    On (.sleep hd 0xFFFF) hd sTwo (fun _ => True) :=
  ⟨onBoth (by decide +kernel) (by decide +kernel) trivial trivial, onBoth (by decide +kernel) (by decide +kernel) trivial trivial,
   onBoth (by decide +kernel) (by decide +kernel) trivial trivial, onBoth (by decide +kernel) (by decide +kernel) trivial trivial⟩

/-- R183: issued at cycle 0 the sleep of 2 ends at cycle 32. -/
theorem test_sleep_values :
    (warpAfter (.sleep hd 0) sTwo).wait = .yield ∧ (warpAfter (.yield hd) sTwo).wait = .yield ∧ (warpAfter (.sleep hd 2) sTwo).wait = .sleep 32 0x1000 [0, 1] ∧
    (laneAfter (.nop hd) sTwo 0).lpc = 0x1008 := by decide +kernel

def sSmall : State := updWarp sNeg 1 (fun w => { w with nregs := 16 })

/-- Instructions with an illegal form: a uniform destination of a lane source, a lane register where none may stand, an order that a FENCE
does not have. -/
def illForms : List Instr := [.add hd ⟨.uni 0, .lane 1, .nil, 0, 0, .i8⟩, .mma hd 0 (.lane 1) .nil, .fence hd .plain .core false]

theorem witness_IllegalFormsAndPoisonTrap :
    (issuePc (warpOf sNeg sNeg.cur)).isSome = true ∧ canIssue (warpOf sNeg sNeg.cur) = true ∧ (warpOf sNeg sNeg.cur).mchkNext = false ∧
    (∀ i ∈ illForms, (bodyOf i).isSome = true ∧ legal i = false) ∧
    (issuePc (warpOf sSmall 1)).isSome = true ∧ canIssue (warpOf sSmall 1) = true ∧ (warpOf sSmall 1).mchkNext = false ∧
    (∀ i ∈ [Instr.add hd ⟨.lane 16, .lane 1, .nil, 0, 0, .i8⟩, .shfl hd (.lane 1) (.lane 2) (.lane 127)],
      (bodyOf i).isSome = true ∧ regsInRange (warpOf sSmall 1) i = false) ∧
    On (.cmpm hd .eq 0 (.lane 1) (.lane 2) 0 0 .i8) hd sPoi (fun l => (opnd sPoi (.lane 1) 0 l).tag = .poison) :=
  ⟨by decide +kernel, by decide +kernel, by decide +kernel, by decide +kernel, by decide +kernel, by decide +kernel, by decide +kernel,
   by decide +kernel, on0 (by decide +kernel) (by decide +kernel) (by decide +kernel)⟩

/-- R79, R101, R102. -/
theorem test_illegal_values :
    (warpAfter (.add hd ⟨.lane 16, .lane 1, .nil, 0, 0, .i8⟩) sSmall).cause = 0x10 ∧ (warpAfter (.cmpm hd .eq 0 (.lane 1) (.lane 2) 0 0 .i8) sPoi).cause = 0x24 ∧
    (laneAfter (.cmpm hd .eq 0 (.lane 1) (.lane 2) 0 0 .i8) sPoi 0).estat = 0x2324 := by decide +kernel

/-! ## Witnesses: memory -/

/-- Virtual page 5 stands at 0x30_0000: raw, and in a tagged region (with v1 an address in it). -/
def raw (vs : List (Reg × Val)) : State := page (poke (one vs) 0x30_0010 0x8182_8384_8586_8788) 5 0x30_0000
def tagged (vs : List (Reg × Val)) : State :=
  let s := { one vs with tagged := [(1, true)] }
  let s := rawWrite s (0x30_0010 / 8) 0xFFFF 0xFF (some .int) false
  updCore s 0 (fun c => { c with tlb := ⟨0, 0, 5, ⟨0x30_0000, false, false, false, true, false, true, true, true⟩⟩ :: c.tlb })
def vs1 : List (Reg × Val) := [(.lane 1, ⟨.ptr, 0x5000⟩), (.lane 2, intVal 0x10), (.lane 3, intVal 0x7F), (.lane 4, intVal 0x7F)]
def sRaw : State := raw vs1
def sTag : State := tagged vs1

/-- The hypotheses of the first four clauses of PlannedLoadsComplete. -/
def loadFine (i : Instr) (s : State) (k : LdKind) (tagOnly : Bool) (d ra rb : Reg) (sc : Scope) (racq : Bool) (off : BitVec 13) (bar : Bool) : Bool :=
  let b := began i hd s
  let ix := curIx i hd s
  let p := (planMem b ix (actLanes ix (.reg d) [ra, rb]) ra rb off (ldSize k) (ldSize k) [.r] bar).check (kindFaults b tagOnly (ldSize k))
  let r := loadAll p.s ix k (if racq = true then some sc else none) d p.accs
  decide (issues i hd s = true ∧ Ready p ∧ mustDrain p.s s.cur p.accs = false ∧ p.accs.length ≤ reqRoom p.s (warpOf p.s s.cur).core ∧
    p.accs.length = 1 ∧ r.calls = [] ∧ r.misses = [] ∧ r.faults = [])

/-- The hypotheses of LDH. -/
def ldhFine (s : State) : Bool :=
  let i := Instr.ldh hd (.lane 0) (.lane 1) (.lane 2) 0
  let b := began i hd s
  let ix := curIx i hd s
  let p := (planMem b ix (actLanes ix (.reg (.lane 0)) [.lane 1, .lane 2]) (.lane 1) (.lane 2) 0 8 8 [.r] false).check (kindFaults b true 8)
  let r := p.accs.foldl (fun (a : State × List (Acc × Val)) q => ((ldhLane a.1 ix q).1, a.2 ++ [(q, (ldhLane a.1 ix q).2)])) (p.s, [])
  decide (issues i hd s = true ∧ Ready p ∧ mustDrain p.s s.cur p.accs = false ∧ p.accs.length ≤ reqRoom p.s (warpOf p.s s.cur).core ∧
    p.accs.length = 1 ∧ ∀ e ∈ r.2, e.2.tag ≠ .pend)

theorem witness_PlannedLoadsComplete :
    loadFine (.ld hd ⟨.lane 0, .lane 1, .lane 2, .fabric, .acq, true, 0⟩) sTag .ld true (.lane 0) (.lane 1) (.lane 2) .fabric true 0 true = true ∧
    loadFine (.ldr hd ⟨.lane 0, .lane 1, .lane 2, .warp, .plain, false, .s16, 1⟩) sRaw (.ldr .s16) false (.lane 0) (.lane 1) (.lane 2) .warp false 1 true = true ∧
    loadFine (.lr hd ⟨.lane 0, .lane 1, .lane 2, .warp, .plain, false, 0⟩) sTag .lr true (.lane 0) (.lane 1) (.lane 2) .warp false 0 true = true ∧
    ldhFine sTag = true := by decide +kernel

/-- The core holds the word at 0x30_0010. -/
def held (s : State) (t : Tag) : State := setL1 s 0 (0x30_0010 / 8) ⟨0x8182_8384_8586_8788, 0xFF, 0, t, false, false⟩

theorem witness_LoadBringsTheCachedWord :
    (let i := Instr.ldr hd ⟨.lane 0, .lane 1, .lane 2, .warp, .plain, false, .s16, 1⟩
     let s := held sRaw .int
     issues i hd s = true ∧ (curIx i hd s).exe = [0] ∧ addrCause (opnd s (.lane 1) 0 0) = none ∧ indexCause (opnd s (.lane 2) 0 0) = none ∧
     (opnd s (.lane 1) 0 0).tag ≠ .ref ∧ addrSum (opnd s (.lane 1) 0 0) (opnd s (.lane 2) 0 0) 2 = some 0x5012 ∧
     translate (began i hd s) s.cur 0x5012 .r = .ok 0x30_0012 ⟨0x30_0000, false, false, false, false, false, false, true, true⟩ ∧ 0x5012 % 2 = 0 ∧
     isMmio (began i hd s) 0x30_0012 = false ∧ lineBusy (began i hd s) s.cur (0x30_0012 / 256) = false ∧ 1 ≤ reqRoom (began i hd s) 0 ∧
     (l1Of s 0 (0x30_0012 / 8)).valid = 0xFF ∧ (l1Of s 0 (0x30_0012 / 8)).bad = false) ∧
    (let i := Instr.ld hd ⟨.lane 0, .lane 1, .lane 2, .warp, .plain, false, 0⟩
     let s := held sTag .int
     issues i hd s = true ∧ (curIx i hd s).exe = [0] ∧ addrCause (opnd s (.lane 1) 0 0) = none ∧ indexCause (opnd s (.lane 2) 0 0) = none ∧
     (opnd s (.lane 1) 0 0).tag ≠ .ref ∧ addrSum (opnd s (.lane 1) 0 0) (opnd s (.lane 2) 0 0) 0 = some 0x5010 ∧
     translate (began i hd s) s.cur 0x5010 .r = .ok 0x30_0010 ⟨0x30_0000, false, false, false, true, false, true, true, true⟩ ∧ 0x5010 % 8 = 0 ∧
     isMmio (began i hd s) 0x30_0010 = false ∧ lineBusy (began i hd s) s.cur (0x30_0010 / 256) = false ∧ 1 ≤ reqRoom (began i hd s) 0 ∧
     (l1Of s 0 (0x30_0010 / 8)).valid = 0xFF ∧ (l1Of s 0 (0x30_0010 / 8)).bad = false ∧ (l1Of s 0 (0x30_0010 / 8)).tag = .int) := by decide +kernel

/-- The value on its way to the destination after a load. -/
def sent (i : Instr) (s : State) : List (Dst × Option Val) :=
  match exec i s with
  | .next t => ((spGet none (coreOf t 0).reqs 1).map (·.outs)).getD []
  | _ => []

/-- R56, R72, R187, R224, R230: the bytes 88 87 86 85 at 0x10 of the page, little-endian. -/
theorem test_load_values :
    sent (.ldr hd ⟨.lane 0, .lane 1, .lane 2, .warp, .plain, false, .s16, 1⟩) sRaw = [(.lane 0 0, some (intVal (-0x7A7A)))] ∧
    sent (.ldr hd ⟨.lane 0, .lane 1, .lane 2, .warp, .plain, false, .z8, 1⟩) sRaw = [(.lane 0 0, some (intVal 0x87))] ∧
    sent (.ldr hd ⟨.uni 0, .uni 1, .nil, .warp, .plain, false, .i64, 2⟩) (raw [(.uni 1, ⟨.ptr, 0x5000⟩)]) =
      [(.uni 0, some ⟨.int, 0x8182_8384_8586_8788⟩)] ∧
    sent (.ld hd ⟨.lane 0, .lane 1, .lane 2, .warp, .plain, false, 0⟩) sTag = [(.lane 0 0, some (intVal 0xFFFF))] ∧
    (laneAfter (.lr hd ⟨.lane 0, .lane 1, .lane 2, .warp, .plain, false, 0⟩) sTag 0).resv = some (0x30_0010 / 8) ∧
    (warpAfter (.ldr hd ⟨.lane 0, .lane 1, .lane 2, .warp, .plain, false, .s16, 0⟩) (raw [(.lane 1, ⟨.ptr, 0x5001⟩)])).cause = 0x22 ∧
    (warpAfter (.ld hd ⟨.lane 0, .lane 1, .lane 2, .warp, .plain, false, 0⟩) sRaw).cause = 0x23 := by decide +kernel

/-- The hypotheses of ST and STR, and of SC. -/
def storeFine (i : Instr) (s : State) (k : StKind) (d ra rb : Reg) (sc : Scope) (ord : Ord4) (off : BitVec 13) : Bool :=
  let b := began i hd s
  let ix := curIx i hd s
  let x := warpOf b s.cur
  let ls := if actsOnce (.reg .nil) [d, ra, rb] = true then [ix.low] else ix.exe
  let p := (planMem b ix ls ra rb off (stSize k) (stSize k) [.w] true).check (fun q =>
    kindFaults b (decide (k = .st)) (stSize k) q ++ dataFaults ix k (readReg x d q.lane) q.lane q.va)
  let rel := relScope x (if ord = .rel then some sc else none)
  decide (issues i hd s = true ∧ Ready p ∧ writeBusy p.s s.cur rel.isSome p.accs = false ∧ p.accs.length = 1)
def scFine (s : State) (o : OpMem) : Bool :=
  let i := Instr.sc hd o
  let b := began i hd s
  let ix := curIx i hd s
  let x := warpOf b s.cur
  let p := (planMem b ix (actLanes ix (.reg o.b) [o.a, o.d]) o.a .nil o.off 8 8 [.w] true).check (kindFaults b true 8)
  let rel := relScope x (if o.ord = .rel then some o.scope else none)
  decide (issues i hd s = true ∧ Ready p ∧ writeBusy p.s s.cur rel.isSome p.accs = false ∧ p.accs.length = 1 ∧
    p.accs.length ≤ reqRoom p.s x.core)
/-- After a release fence at package scope. -/
def sFenced : State := updWarp sTag 1 (fun w => { w with relFence := some .package })
/-- The lane holds a reservation on the granule at 0x10. -/
def sResv : State := updWarp sTag 1 (fun w => updLane w 0 (fun y => { y with resv := some (0x30_0010 / 8) }))
/-- An access of lane 0 to 0x5010. -/
def acc10 : Acc := ⟨0, 0x5010, 0x30_0010, ⟨0x30_0000, false, false, false, true, false, true, true, true⟩⟩
/-- What executes, in the warp of these states. -/
def ix1 : Ix := ⟨1, 0x1000, 0x1008, [0], [0]⟩

theorem witness_PlannedStoresComplete :
    (∀ s ∈ [sTag, sFenced], storeFine (.st hd ⟨.lane 3, .lane 1, .lane 2, .package, .rel, false, 0⟩) s .st (.lane 3) (.lane 1) (.lane 2) .package .rel 0 = true) ∧
    (∀ s ∈ [sRaw, sFenced], storeFine (.str hd ⟨.lane 3, .lane 1, .lane 2, .warp, .plain, false, .s8, 1⟩) s (.str .s8) (.lane 3) (.lane 1) (.lane 2)
      .warp .plain 1 = true) ∧
    (∀ o ∈ [(⟨.lane 3, .lane 1, .lane 0, .warp, .plain, false, 2⟩ : OpMem), ⟨.lane 3, .lane 1, .lane 0, .die, .rel, false, 2⟩], scFine sResv o = true) ∧
    (laneOf (warpOf sResv ix1.w) acc10.lane).resv = some (acc10.pa / 8) ∧ (laneOf (warpOf sTag ix1.w) acc10.lane).resv ≠ some (acc10.pa / 8) ∧
    served sResv (warpPart sResv ix1.w) (acc10.pa / 8) acc10.leaf.t = true ∧ regionOf sResv acc10.pa = .lpddr := by decide +kernel

theorem witness_StoreEntersTheCache :
    ∀ e ∈ [(StKind.st, acc10), (.str .s8, { acc10 with va := 0x5017, pa := 0x30_0017, leaf := { acc10.leaf with t := false } }), (.str .pk16, acc10)],
      isMmio sTag e.2.pa = false ∧ e.2.pa % stSize e.1 = 0 ∧
      (l1Lines sTag 0 (e.2.pa / 256 % 64)).length < 8 ∧
      (l1Lines (held sTag .int) 0 (e.2.pa / 256 % 64)).contains (e.2.pa / 256) = true := by decide +kernel

/-- Word k in core 0's L1 after the instruction. -/
def l1After (i : Instr) (s : State) (k : Nat) : CWord :=
  match exec i s with
  | .next t => l1Of t 0 k
  | _ => CWord.none

/-- R72, R161, R212, R224, R226, R303: a byte at 0x11; a word of tag INT; SC with and without its reservation. -/
theorem test_store_values :
    l1After (.str hd ⟨.lane 3, .lane 1, .lane 2, .warp, .plain, false, .s8, 1⟩) sRaw (0x30_0010 / 8) = ⟨0x7F00, 2, 2, .nil, false, false⟩ ∧
    l1After (.st hd ⟨.lane 3, .lane 1, .lane 2, .warp, .plain, false, 0⟩) sTag (0x30_0010 / 8) = ⟨0x7F, 0xFF, 0xFF, .int, true, false⟩ ∧
    sent (.sc hd ⟨.lane 3, .lane 1, .lane 0, .warp, .plain, false, 2⟩) sResv = [(.lane 0 0, some (intVal 1))] ∧
    sent (.sc hd ⟨.lane 3, .lane 1, .lane 0, .warp, .plain, false, 2⟩) sTag = [(.lane 0 0, some (intVal 0))] ∧
    (laneAfter (.sc hd ⟨.lane 3, .lane 1, .lane 0, .warp, .plain, false, 2⟩) sResv 0).resv = none := by decide +kernel

theorem witness_FencesAndCacheMaintenance :
    (∀ e ∈ [(Ord4.rel, Scope.warp, false), (.acq, .cluster, true), (.acqrel, .system, true)],
     let i := Instr.fence hd e.1 e.2.1 e.2.2
     issues i hd sRaw = true ∧ atomsUndrained (began i hd sRaw) sRaw.cur = false ∧ warpUndrained (began i hd sRaw) sRaw.cur = false) ∧
    2 ≤ scopeNum .cluster ∧ 2 ≤ scopeNum .system ∧
    (let i := Instr.pf hd ⟨.lane 1, .lane 2, .core, 0⟩
     issues i hd sRaw = true ∧ (planMem (began i hd sRaw) (curIx i hd sRaw) (curIx i hd sRaw).exe (.lane 1) (.lane 2) 0 8 1 [.r] false).misses = []) ∧
    (∀ mk ∈ [Instr.cflush, Instr.cinv],
     let i := mk hd ⟨.lane 1, .lane 2, .system, 0⟩
     let p := planMem (began i hd sRaw) (curIx i hd sRaw) (actLanes (curIx i hd sRaw) (.reg .nil) [.lane 1, .lane 2]) (.lane 1) (.lane 2) 0 8 1 [.r] true
     issues i hd sRaw = true ∧ Ready p ∧ p.accs.length = 1) := by decide +kernel

/-- A dirty byte in the L1; R213, R227-R229: what FENCE, CFLUSH and PF leave there. -/
def sDirty : State := setL1 sRaw 0 (0x30_0010 / 8) ⟨0x7F, 0xFF, 1, .nil, false, false⟩
theorem test_cache_values :
    (l1After (.fence hd .rel .cluster false) sDirty (0x30_0010 / 8)).dirty = 0 ∧ l1After (.fence hd .acqrel .cluster false) sDirty (0x30_0010 / 8) = CWord.none ∧
    (l1After (.fence hd .rel .core false) sDirty (0x30_0010 / 8)).dirty = 1 ∧
    (l1After (.pf hd ⟨.lane 1, .lane 2, .core, 0⟩) sRaw (0x30_0010 / 8)).data = 0x8182_8384_8586_8788 ∧
    (l1After (.cflush hd ⟨.lane 1, .lane 2, .cluster, 0⟩) sDirty (0x30_0010 / 8)).dirty = 0 := by decide +kernel

/-! ## Witnesses: scratchpad, tiles, engines, benches -/

/-- A tile handle (R201): base and scale offset in 64-byte units; 0x1FFF: no scales. -/
def tile (base rows cols fmt soff : Nat) : Val :=
  ⟨.tile, wd (base + (rows - 1) * 2 ^ 13 + (cols - 1) * 2 ^ 21 + fmt * 2 ^ 29 + soff * 2 ^ 36)⟩
/-- 16 KiB of scratchpad, four accumulator tiles and two benches; granules 0 and 1 are the engines'. -/
def eng (vs : List (Reg × Val)) : State :=
  updTeam (one vs) 1 (fun t => { t with scratchBytes := 16384, nacc := 4, nbench := 2, owner := [(0, true), (1, true)] })

def sScr : State := updTeam (eng [(.lane 0, intVal 0x1234), (.lane 1, intVal 0x3000), (.lane 2, intVal 0xFFE)]) 1 (fun t =>
  { t with scratch := [(0x3FFE, 0xFF), (0x3FFF, 0x80)] })
/-- The conditions on the place of a scratchpad access. -/
def placeFine (s : State) (o : OpScr) : Bool :=
  let n := mfmtSize o.fmt
  let t := teamOf s (warpOf s s.cur).team
  let a := opnd s o.a 0 0
  let b := opnd s o.b 0 0
  let at_ := a.pay.toInt + b.pay.toInt + o.off.toInt * n
  decide ((a.tag = .int ∨ a.tag = .nil) ∧ (b.tag = .int ∨ b.tag = .nil) ∧ 0 ≤ at_ ∧ at_ + n ≤ t.scratchBytes ∧ at_.toNat % n = 0 ∧
    engineOwned t (at_.toNat / 4096) = false ∧ scrBadAt t o.swz at_.toNat = false)

theorem witness_ScratchpadLoadsAndStores :
    ∀ o ∈ [(⟨.lane 0, .lane 1, .lane 2, .lin, .s16, 0⟩ : OpScr), ⟨.lane 0, .lane 1, .lane 2, .xor, .s8, 1⟩, ⟨.lane 0, .lane 1, .nil, .fold, .pk4, 0⟩],
      issues (.lds hd o) hd sScr = true ∧ (curIx (.lds hd o) hd sScr).exe = [0] ∧ issues (.sts hd o) hd sScr = true ∧
      (curIx (.sts hd o) hd sScr).exe = [0] ∧ placeFine sScr o = true ∧ (opnd sScr o.d 0 0).tag ≠ .poison := by decide +kernel

/-- What the team is after the instruction. -/
def teamAfter (i : Instr) (s : State) : Team :=
  match exec i s with
  | .next t => teamOf t 1
  | _ => Team.none

/-- R191-R193, R232: the last two bytes; a store of 0x34 there; an access beyond the allocation raises PROT. -/
theorem test_scratch_values :
    after (.lds hd ⟨.lane 5, .lane 1, .lane 2, .lin, .s16, 0⟩) sScr (.lane 5) 0 = intVal (-0x7F01) ∧
    (teamAfter (.sts hd ⟨.lane 0, .lane 1, .lane 2, .lin, .s8, 1⟩) sScr).scratch = [(0x3FFE, 0xFF), (0x3FFF, 0x34)] ∧
    (warpAfter (.lds hd ⟨.lane 5, .lane 1, .lane 2, .lin, .s16, 1⟩) sScr).cause = 0x21 ∧
    (warpAfter (.lds hd ⟨.lane 5, .nil, .nil, .lin, .s16, 1⟩) sScr).cause = 0x30 := by decide +kernel

def sAtm : State := updTeam (eng [(.lane 1, intVal 0x3FFC), (.lane 2, intVal 5), (.lane 3, intVal 7)]) 1 (fun t =>
  { t with scratch := [(0x3FFC, 5), (0x3FFF, 0x80)] })

theorem witness_ScratchpadAtomics :
    ∀ e ∈ [(AOp.add, Reg.lane 0), (.cas, .lane 3)],
      let i := Instr.satom hd e.1 .i32 .lin ⟨.lane 0, .lane 1, .lane 2, e.2⟩
      let t := teamOf sAtm 1
      let a := opnd sAtm (.lane 1) 0 0
      issues i hd sAtm = true ∧ (curIx i hd sAtm).exe = [0] ∧ (a.tag = .int ∨ a.tag = .nil) ∧ 0 ≤ a.pay.toInt ∧ a.pay.toInt + 4 ≤ t.scratchBytes ∧
      a.pay.toInt.toNat % 4 = 0 ∧ engineOwned t (a.pay.toInt.toNat / 4096) = false ∧ scrBadAt t .lin a.pay.toInt.toNat = false ∧
      (opnd sAtm (.lane 2) 0 0).tag ≠ .poison ∧ (elementArg .i32 (opnd sAtm (.lane 2) 0 0)).isSome = true ∧
      (opnd sAtm (.lane 3) 0 0).tag ≠ .poison ∧ (elementArg .i32 (opnd sAtm (.lane 3) 0 0)).isSome = true := by decide +kernel

/-- Two lanes of an SATOM: the first is performed at the issue, the second is still due. -/
def sAtm2 : State := updWarp (updTeam (two [(.lane 1, intVal 0x3FFC), (.lane 2, intVal 5)] 1 (intVal 0x3FFC)) 1 (fun t =>
  { t with scratchBytes := 16384 })) 1 (fun w => setLaneReg w 2 1 (intVal 7))
def sAtmLate : State :=
  match exec (.satom hd .add .i32 .lin ⟨.lane 0, .lane 1, .lane 2, .lane 0⟩) sAtm2 with
  | .next t => t
  | _ => sAtm2

theorem witness_ScratchpadAtomics_lanes :
    (let i := Instr.satom hd .add .i32 .lin ⟨.lane 0, .lane 1, .lane 2, .lane 0⟩
     issues i hd sAtm2 = true ∧ (curIx i hd sAtm2).exe = [0, 1] ∧ (∀ l ∈ [0, 1], opnd sAtm2 (.lane 1) 0 l = intVal 0x3FFC ∧
       (opnd sAtm2 (.lane 2) 0 l).tag = .int) ∧
     spGet none (coreOf sAtmLate 0).reqs 1 = none ∧ ((spGet none (coreOf sAtmLate 0).late 1).map (fun r => (r.warp, r.todo)) = some (1, [1])) ∧
     ((spGet none (coreOf sAtmLate 0).late 1).map (·.i) = some i) ∧ (warpOf sAtmLate 1).live = true ∧ (warpOf sAtmLate 1).wait = .lanes) := by
  decide +kernel

/-- R233, R296: after both lanes the element holds 12. -/
theorem test_satom_lanes :
    (match exec (.resultArrival 0 1) sAtmLate with
     | .next t => ((teamOf t 1).scratch, (warpOf t 1).wait)
     | _ => ([], .none)) = ([(0x3FFC, 12)], .none) := by decide +kernel

/-- R233: the element 0x80000005; ADD of 5; CAS with C 7 does not match. -/
theorem test_satom_values :
    after (.satom hd .add .i32 .lin ⟨.lane 0, .lane 1, .lane 2, .lane 0⟩) sAtm (.lane 0) 0 = intVal (-0x7FFF_FFFB) ∧
    (teamAfter (.satom hd .add .i32 .lin ⟨.lane 0, .lane 1, .lane 2, .lane 0⟩) sAtm).scratch = [(0x3FFC, 10), (0x3FFF, 0x80)] ∧
    (teamAfter (.satom hd .cas .i32 .lin ⟨.lane 0, .lane 1, .lane 2, .lane 3⟩) sAtm).scratch = [(0x3FFC, 5), (0x3FFF, 0x80)] ∧
    (teamAfter (.satom hd .swap .i32 .lin ⟨.lane 0, .lane 1, .lane 2, .lane 0⟩) sAtm).scratch = [(0x3FFC, 5)] := by decide +kernel

def sTile : State := one [(.lane 1, intVal 524224), (.lane 2, intVal (16 + 256 * 2 ^ 16)), (.lane 3, intVal (5 + 6 * 2 ^ 13))]
/-- A handle in s1 of a tile in granule 2, which the threads own; in s2 of one in granule 0. -/
def sOwn : State := eng [(.uni 1, tile 128 16 16 4 0x1FFF), (.uni 2, tile 0 16 16 4 0x1FFF), (.uni 3, ⟨.ptr, 0x5000⟩), (.uni 4, intVal 0)]

theorem witness_TilesAndTheirOwners :
    (∀ r ∈ [Reg.lane 3, .nil], On (.tile hd .bf16 .xor .sp8 ⟨.lane 0, .lane 1, .lane 2, r⟩) hd sTile (fun l =>
      (x1 sTile l).tag = .int ∧ (x2 sTile l).tag = .int ∧ ((opnd sTile r 0 l).tag = .int ∨ (opnd sTile r 0 l).tag = .nil) ∧
      (x1 sTile l).pay.toNat % 64 = 0 ∧ (x1 sTile l).pay.toNat ≤ 524224 ∧
      (x2 sTile l).pay.toNat = (x2 sTile l).pay.toNat % 512 + (x2 sTile l).pay.toNat / 2 ^ 16 % 512 * 2 ^ 16 ∧
      1 ≤ (x2 sTile l).pay.toNat % 512 ∧ (x2 sTile l).pay.toNat % 512 ≤ 256 ∧ 1 ≤ (x2 sTile l).pay.toNat / 2 ^ 16 ∧
      (x2 sTile l).pay.toNat / 2 ^ 16 ≤ 256 ∧ (opnd sTile r 0 l).pay.toNat < 2 ^ 26 ∧ ((opnd sTile r 0 l).tag = .nil → (opnd sTile r 0 l).pay = 0))) ∧
    (∀ mk ∈ [Instr.give, Instr.take, fun h => Instr.ownq h (.uni 0)], ∀ r ∈ [Reg.uni 1, .uni 2], issues (mk hd r) hd sOwn = true ∧
      handleArg (curIx (mk hd r) hd sOwn) (teamOf sOwn 1) (opnd sOwn r 0 0) anyTile = .ok (handleOf (opnd sOwn r 0 0).pay)) ∧
    (∀ g ∈ (handleOf (opnd sOwn (.uni 1) 0 0).pay).granules, engineOwned (teamOf sOwn 1) g = false ∧ spGet none (teamOf sOwn 1).frec g = none) :=
  ⟨onAll (by decide +kernel), by decide +kernel, by decide +kernel⟩

/-- R234, R238: base 8191, 16 rows, 256 columns, BF16, sxor, 8 of 16, SOFF 5, MOFF 6; owners. -/
theorem test_tile_values :
    after (.tile hd .bf16 .xor .sp8 ⟨.lane 0, .lane 1, .lane 2, .lane 3⟩) sTile (.lane 0) 0 =
      ⟨.tile, wd (8191 + 15 * 2 ^ 13 + 255 * 2 ^ 21 + 4 * 2 ^ 29 + 1 * 2 ^ 34 + 5 * 2 ^ 36 + 1 * 2 ^ 49 + 6 * 2 ^ 51)⟩ ∧
    (teamAfter (.give hd (.uni 1)) sOwn).owner = [(0, true), (1, true), (2, true)] ∧ after (.ownq hd (.uni 0) (.uni 1)) sOwn (.uni 0) 0 = intVal 1 ∧
    after (.ownq hd (.uni 0) (.uni 2)) sOwn (.uni 0) 0 = intVal 0 ∧ (warpAfter (.take hd (.uni 2)) sOwn).wait = .take [0] := by decide +kernel

theorem witness_CopiesAreQueued :
    ∀ m ∈ [CpyMode.lin, .d2], ∀ out ∈ [false, true],
      let c := if m = .lin then Reg.lane 0 else .uni 4
      let i := Instr.cpy hd m out (.uni 2) (.uni 3) c
      let cv := opnd sOwn c 0 0
      issues i hd sOwn = true ∧ handleArg (curIx i hd sOwn) (teamOf sOwn 1) (opnd sOwn (.uni 2) 0 0) (copyAccepts m (bitAt cv.pay 0)) =
        .ok (handleOf (opnd sOwn (.uni 2) 0 0).pay) ∧ copyArgs (curIx i hd sOwn) (teamOf sOwn 1) m (opnd sOwn (.uni 3) 0 0) cv = [] ∧
      (∀ g ∈ copyGranules m (opnd sOwn (.uni 2) 0 0).pay cv.pay, engineOwned (teamOf sOwn 1) g = true) ∧
      warpUndrained (began i hd sOwn) sOwn.cur = false ∧ readsPending (began i hd sOwn) sOwn.cur = false ∧ (coreOf (began i hd sOwn) 0).copyq.length < 32 := by decide +kernel

/-- BF16 operands 16 by 16 in granules 0 and 1, thread-owned tiles in granules 2 and 3. -/
def sMat : State := eng [(.uni 1, tile 0 16 16 4 0x1FFF), (.uni 2, tile 64 16 16 4 0x1FFF), (.uni 3, tile 128 16 16 6 0x1FFF), (.uni 4, f15)]
def accFine (s : State) (as : List Nat) : Bool :=
  as.all (fun a => !accIll s 0 1 a && !spGet false (teamOf s 1).accBad a && !issueX s 0 1 a && !accPending s 0 1 a && !issueWide s 0 1 a) &&
    decide ((coreOf s 0).matq.length < 8)
def hOk (s : State) (i : Instr) (r : Reg) (f : Handle → Bool) : Bool :=
  decide (handleArg (curIx i hd s) (teamOf s 1) (opnd s r 0 0) f = .ok (handleOf (opnd s r 0 0).pay))
def hnd (s : State) (r : Reg) : Handle := handleOf (opnd s r 0 0).pay

/-- A bound that stands on tile 0. -/
def sRet : State := updTeam sMat 1 (fun t => { t with selv := [(0, ⟨false, true, 1, 2, 3⟩)] })

theorem witness_MatrixWorkIsQueued :
    (accFine sMat [0, 1, 2, 3] = true) ∧ issueX (updCore sRet 0 (fun c => { c with matq := [⟨1, 0, .accw⟩] })) 0 1 0 = false ∧ issueX sRet 0 1 0 = true ∧
    (let i := Instr.mma hd 3 (.uni 1) (.uni 2)
     issues i hd sMat = true ∧ hOk sMat i (.uni 1) mmaA = true ∧ hOk sMat i (.uni 2) (mmaB 64) = true ∧ (hnd sMat (.uni 1)).cols = (hnd sMat (.uni 2)).rows ∧
     ownerFaults (curIx i hd sMat) (teamOf sMat 1) ((hnd sMat (.uni 1)).granules ++ (hnd sMat (.uni 2)).granules) true = [] ∧
     sparseFaults (curIx i hd sMat) (teamOf sMat 1) (hnd sMat (.uni 1)) = [] ∧
     scaleFaults (curIx i hd sMat) (teamOf sMat 1) (some (hnd sMat (.uni 1))) (some (hnd sMat (.uni 2))) = []) ∧
    (let i := Instr.mmap hd 2 (.uni 1) (.uni 2)
     issues i hd sMat = true ∧ coreNum 0 % 2 = 0 ∧ isService 0 = false ∧ (2 : BitVec 5).toNat + 1 < (teamOf sMat 1).nacc ∧ hOk sMat i (.uni 1) mmaA = true ∧
     hOk sMat i (.uni 2) (mmaB 128) = true) ∧
    (let i := Instr.mmab hd 0 3 (.uni 2)
     issues i hd sMat = true ∧ hOk sMat i (.uni 2) mmabB = true ∧ ownerFaults (curIx i hd sMat) (teamOf sMat 1) (hnd sMat (.uni 2)).granules true = [] ∧
     scaleFaults (curIx i hd sMat) (teamOf sMat 1) none (some (hnd sMat (.uni 2))) = []) ∧
    issues (.accz hd 3) hd sMat = true ∧ issues (.accw hd 2) hd sMat = true ∧
    (let i := Instr.accld hd 0 (.uni 2)
     issues i hd sMat = true ∧ hOk sMat i (.uni 2) (accldA (issueWide sMat 0 1 0)) = true ∧
     ownerFaults (curIx i hd sMat) (teamOf sMat 1) (hnd sMat (.uni 2)).granules true = []) ∧
    issues (.bndset hd 3 (.uni 4)) hd sMat = true ∧ (opnd sMat (.uni 4) 0 0).tag ≠ .poison ∧ tauOf (opnd sMat (.uni 4) 0 0) = some 0x3FC0_0000 := by
  decide +kernel

/-- A bound that stands on tile 0. -/
def sBnd : State := updTeam sMat 1 (fun t => { t with owner := [(3, true)], selv := [(0, ⟨false, true, 1, 2, 3⟩)] })
/-- A POISON and a symbol as thresholds. -/
def sTau : State := updWarp sMat 1 (fun w => writeReg (writeReg w (.uni 5) 0 (poisonVal 9)) (.uni 6) 0 ⟨.sym, 1⟩)
def sRd : State := { sBnd with teams := (updTeam sBnd 1 (fun t => { t with owner := [(2, true)] })).teams }

theorem witness_AccumulatorsAreRead :
    (∀ a ∈ [(0 : BitVec 5), 1], let i := Instr.accrd hd a (.uni 3)
     issues i hd sRd = true ∧ accIll sRd 0 1 a.toNat = false ∧ spGet false (teamOf sRd 1).accBad a.toNat = false ∧ hOk sRd i (.uni 3) accrdA = true ∧
     ownerFaults (curIx i hd sRd) (teamOf sRd 1) (hnd sRd (.uni 3)).granules true = [] ∧ accPending sRd 0 1 a.toNat = false) ∧
    (selvOf (teamOf sRd 1) 0).x = true ∧ (selvOf (teamOf sRd 1) 1).x = false ∧
    (∀ d ∈ [Reg.lane 0, .uni 0], issues (.bndget hd d 0) hd sRd = true) ∧
    (∀ r ∈ [Reg.uni 5, .uni 6], issues (.bndset hd 0 r) hd sTau = true) ∧ accIll sTau 0 1 0 = false ∧ spGet false (teamOf sTau 1).accBad 0 = false ∧
    (opnd sTau (.uni 5) 0 0).tag = .poison ∧ (opnd sTau (.uni 6) 0 0).tag = .sym ∧ tauOf (opnd sTau (.uni 6) 0 0) = none ∧
    matNext (updCore sTau 0 (fun c => { c with matq := [⟨1, 0, .bndset 5⟩] })) 0 = some ⟨1, 0, .bndset 5⟩ := by decide +kernel

/-- R206, R245: τ 1, peak 2, bound 3 with X. -/
theorem test_acc_values :
    after (.bndget hd (.uni 0) 0) sRd (.uni 0) 0 = ⟨.int, 0x2_0000_0003⟩ ∧ (warpAfter (.accrd hd 0 (.uni 3)) sRd).cause = 0x32 ∧
    (teamAfter (.accrd hd 1 (.uni 3)) sRd).owner = [] := by decide +kernel

/-- Bench 1 is up with counts 1 and 1; the warp is no producer. -/
def sBen : State := updTeam sMat 1 (fun t => { t with benches := [(1, ⟨true, false, 1, 1, 1, 0⟩)] })
/-- The phase has moved on. -/
def sPh : State := updTeam sMat 1 (fun t => { t with benches := [(1, ⟨true, true, 1, 1, 0, 0⟩)] })
def benchFine (s : State) (b : Nat) : Bool :=
  decide (b < (teamOf s 1).nbench ∧ (benchOf (teamOf s 1) b).v = true ∧ benchRoom (benchOf (teamOf s 1) b) (decide ((warpOf s 1).role = 1)) = true)

theorem witness_BenchesCountAndWait :
    issues (.bninit hd 1 16 0) hd sMat = true ∧ (1 : BitVec 5).toNat < (teamOf sMat 1).nbench ∧
    (issues (.bna hd 1) hd sBen = true ∧ benchFine sBen 1 = true ∧ warpBusy (began (.bna hd 1) hd sBen) sBen.cur = false) ∧
    (let s := updCore sBen 0 (fun c => { c with copyq := [⟨1, 1, .lin, false, 0, 0, 0⟩] })
     warpBusy (began (.bna hd 1) hd s) s.cur = true ∧ issues (.bna hd 1) hd s = true) ∧
    (let s := updTeam sBen 1 (fun t => { t with benches := [(1, ⟨true, false, 1, 1, 0, 32⟩)] })
     warpBusy (began (.bnaw hd 1) hd s) s.cur = false ∧ issues (.bnaw hd 1) hd s = true ∧ benchRoom (benchOf (teamOf s 1) 1) false = false) ∧
    spGet false (warpOf sBen 1).wp 1 = (benchOf (teamOf sBen 1) 1).ph ∧
    (let s := updWarp sBen 1 (fun w => { w with arrived := [0x1000] })
     issues (.bnaw hd 1) hd s = true ∧ (curIx (.bnaw hd 1) hd s).pc ∈ (warpOf s 1).arrived ∧
     spGet false (warpOf (began (.bnaw hd 1) hd s) 1).wp 1 = (benchOf (teamOf (began (.bnaw hd 1) hd s) 1) 1).ph) ∧
    (1 ≤ (benchOf (teamOf sBen 1) 1).parr ∧ 1 ≤ (benchOf (teamOf sBen 1) 1).carr + 1) ∧ (warpOf (updWarp sBen 1 (fun w => { w with wait := .bench 1 })) 1).wait = .bench 1 ∧
    (issues (.bnw hd 1) hd sPh = true ∧ benchFine sPh 1 = true ∧ spGet false (warpOf sPh 1).wp 1 ≠ (benchOf (teamOf sPh 1) 1).ph) ∧
    (issues (.bnaw hd 1) hd sBen = true ∧ (curIx (.bnaw hd 1) hd sBen).pc ∉ (warpOf sBen 1).arrived ∧
      warpBusy (began (.bnaw hd 1) hd sBen) sBen.cur = false ∧
      spGet false (warpOf (benchArrive (began (.bnaw hd 1) hd sBen) 1 1 false) 1).wp 1 ≠
        (benchOf (teamOf (benchArrive (began (.bnaw hd 1) hd sBen) 1 1 false) 1) 1).ph) := by decide +kernel

/-- R217, R246, R247: the second arrival completes the phase; BNW waits for it. -/
theorem test_bench_values :
    benchOf (teamAfter (.bna hd 1) sBen) 1 = ⟨true, true, 1, 1, 0, 0⟩ ∧ benchOf (teamAfter (.bninit hd 1 16 2) sMat) 1 = ⟨true, false, 16, 2, 0, 0⟩ ∧
    (warpAfter (.bnw hd 1) sBen).wait = .bench 1 ∧ spGet false (warpAfter (.bnw hd 1) sPh).wp 1 = true ∧
    (warpAfter (.bna hd 0) sBen).cause = 0x10 := by decide +kernel

/-! ## Witnesses: atomics, the die, the package, pre-emption -/

/-- The conditions that ATOM, VATOM and HCAS share. -/
def reqFine (i : Instr) (s : State) (p : Plans) (o : Ord4) (sc : Scope) (n : Nat) : Bool :=
  decide (issues i hd s = true ∧ Ready p ∧ p.accs.length = n ∧
    reqBusy p.s (curIx i hd s) (reqScope (warpOf p.s s.cur) o sc).isSome p.accs = false ∧ p.accs.length ≤ reqRoom p.s (warpOf p.s s.cur).core)
def atomFine (s : State) (o : OpAtom) : Bool :=
  let i := Instr.atom hd o
  let b := began i hd s
  let ix := curIx i hd s
  let x := warpOf b s.cur
  let p := (planMem b ix (actLanes ix (.reg o.d) (if o.op = .cas then [o.a, o.b, o.c] else [o.a, o.b])) o.a .nil 0 8 8 [.w] true).check
    (fun a => atomPlace b o.op a ++ atomArg ix o.op a (readReg x o.b a.lane) ++
      (if o.op = .cas then atomArg ix o.op a (readReg x o.c a.lane) else []))
  reqFine i s p o.ord o.scope 1
def vatomFine (s : State) (op : AOp) (ef : TFmt) (d ra rb : Reg) : Bool :=
  let i := Instr.vatom hd op ef d ra rb .plain .package
  let b := began i hd s
  let ix := curIx i hd s
  let x := warpOf b s.cur
  reqFine i s ((planMem b ix (actLanes ix (.reg d) [ra, rb]) ra .nil 0 8 8 [.w] true).check
    (fun q => vatomFaults ix b ef q (readReg x rb q.lane))) .plain .package 1
def hcasFine (s : State) (o : OpX4) : Bool :=
  let i := Instr.hcas hd o .acqrel .system true
  let b := began i hd s
  let ix := curIx i hd s
  let x := warpOf b s.cur
  reqFine i s ((planMem b ix (actLanes ix (.reg o.d) [o.a, o.b, o.c]) o.a .nil 0 8 16 [.w] false).check
    (fun a => hcasFaults b x ix a (readReg x o.c a.lane))) .acqrel .system 1

/-- The word 0x10 of page 5 of tag INT with v1 at a 16-byte boundary in it. -/
def sAto : State := tagged [(.lane 1, ⟨.ptr, 0x5010⟩), (.lane 2, intVal 5), (.lane 3, intVal 7), (.lane 4, ⟨.pk16, 0x1_0001⟩)]
def sAtr : State := raw [(.lane 1, ⟨.ptr, 0x5010⟩), (.lane 2, intVal 5), (.lane 4, ⟨.pk16, 0x0001_0000_0001_0001⟩)]

/-- Region 0 of the core's table evacuates. -/
def sEvac : State := updCore sAto 0 (fun c => { c with rgn := [(0, 2 ^ 63)] })
/-- The word holds a REF into that region, and lane 0 stands in a handler at depth 4. -/
def sEvacCall : State :=
  updWarp (rawWrite sEvac (0x30_0010 / 8) 0x5000 0xFF (some .ref) false) 1 (fun w => updLane w 0 (fun y => { y with lcd := 4 }))
/-- A SWAP of that word, which is performed whole. -/
def swapOp : OpAtom := ⟨.lane 0, .lane 1, .lane 2, .lane 0, .system, .plain, false, .swap⟩
def swapPlan (s : State) : Plans :=
  let i := Instr.atom hd swapOp
  let b := began i hd s
  let ix := curIx i hd s
  (planMem b ix (actLanes ix (.reg (.lane 0)) [.lane 1, .lane 2]) (.lane 1) .nil 0 8 8 [.w] true).check
    (fun a => atomPlace b .swap a ++ atomArg ix .swap a (readReg (warpOf b s.cur) (.lane 2) a.lane) ++ [])
def swapFine (s : State) : Bool :=
  let p := swapPlan s
  atomFine s swapOp && p.accs.any (fun a => a.leaf.t) && evacuates (coreOf s 0) && !mustDrain p.s s.cur p.accs &&
    !p.accs.any (homeBusy p.s (warpPart p.s s.cur))
/-- How many lanes miss, take a value, or have a cause. -/
def swapEnd (s : State) : Nat × Nat × Nat :=
  let p := swapPlan s
  let ix := curIx (.atom hd swapOp) hd s
  let r := swapAll (beforeReqs p.s ix .plain .system p.accs) ix swapOp p.accs
  let k := checkCalls r.s ix r.calls
  (r.misses.length + k.misses.length, r.vals.length, r.faults.length + k.faults.length)

theorem witness_AtomicsSendTheirRequests :
    (∀ op ∈ [(AOp.add, Reg.lane 0), (.cas, .lane 3), (.swap, .lane 0)], ∀ ord ∈ [Ord4.plain, .acqrel],
      atomFine sAto ⟨.lane 0, .lane 1, .lane 2, op.2, .system, ord, false, op.1⟩ = true) ∧
    (∀ s ∈ [sEvac, sEvacCall], swapFine s = true) ∧ swapEnd sEvac = (0, 1, 0) ∧ swapEnd sEvacCall = (0, 0, 1) ∧
    vatomFine sAtr .add .i16 .nil (.lane 1) (.lane 4) = true ∧ hcasFine sAto ⟨.lane 0, .lane 1, .lane 2, .lane 3⟩ = true := by
  decide +kernel

theorem witness_AtomicOperations :
    (∀ w ∈ [(⟨7, .int, false⟩ : WV), ⟨0, .nil, false⟩, ⟨0x5000, .fwd, false⟩, ⟨0x3F80_0000, .f32, false⟩, ⟨0x40, .ptr, false⟩],
      w.bad = false) ∧
    valNum f15 = some (.fin false 0xC0_0000 (-23)) ∧ vatomPair .add .i16 = true ∧ vatomPair .min .bf16 = true ∧ vatomPair .fadd .f32 = true ∧
    (0 + 1) * tfmtBits .f32 ≤ 64 ∧ (⟨0, 3, 1, 0x40, false, .signal .or 1, none, false⟩ : AswReq).op = .signal .or 1 := by decide

/-- R231, R258, R259: INT 2 minus 3; a FWD word under HCAS; SWAP of a PTR. -/
theorem test_atomic_values :
    atomWord .max true ⟨2, .int, false⟩ (intVal (-3)) nilVal = ⟨some (intVal 2), 0xFF, intVal 2⟩ ∧
    (hcasWord ⟨0x5000, .fwd, false⟩ ⟨.ref, 0x5000⟩ ⟨.ref, 0x6000⟩).write = some ⟨.fwd, 0x6000⟩ ∧
    (atomWord .swap true ⟨2, .int, false⟩ ⟨.ptr, 0x40⟩ nilVal).write = some ⟨.ptr, 0x40⟩ ∧
    (laneAfter (.atom hd ⟨.lane 0, .lane 1, .lane 2, .lane 0, .system, .plain, false, .add⟩) sAto 0).lpc = 0x1008 ∧
    (warpAfter (.atom hd ⟨.lane 0, .lane 1, .lane 4, .lane 0, .system, .plain, false, .add⟩) sAto).cause = 0x23 := by decide +kernel

/-- SEQ 3, LAYER 2, HEAD 1, LEN 65: blocks 0 and 1; two mapped blocks in chip 0's memory, tier 1, global block 0, in a partition
that holds their regions. Two rows in v1 and v2. -/
def sKv : State :=
  let row := fun (k : Nat) => (List.range 32).map (fun l => (k, l, (⟨.pk16, 0x3F80_4000_3F80_4000⟩ : Val)))
  let s := eng [(.uni 1, intVal (65 + 1 * 2 ^ 26 + 2 * 2 ^ 32 + 3 * 2 ^ 40)), (.uni 2, tile 128 1 256 6 0x1FFF), (.uni 3, intVal 64),
    (.uni 4, tile 192 4 16 6 0x1FFF), (.lane 3, intVal 1), (.lane 4, intVal 9)]
  let s := updWarp s 1 (fun w => (row 1 ++ row 2).foldl (fun w e => setLaneReg w e.1 e.2.1 e.2.2) w)
  let s := updTeam s 1 (fun t => { t with owner := [(2, true)] })
  let e : KvEntry := ⟨some (wd (2 ^ 38)), none, false⟩
  let k := kvKey (wd (1 * 2 ^ 26 + 2 * 2 ^ 32 + 3 * 2 ^ 40)) 0
  let s := updPart s 0 (fun p => { p with valid := true, grants := [1, 2], kv := [(k, e), (k + 1, e)],
                                            slots := [(3, { KvSlot.none with live := true })], words := [(6, 1), (7, wd (2 ^ 46 + 0x20_0000))] })
  poke (poke s 0x20_0000 (wd (2 ^ 63 + 0x40_0000))) 0x20_0008 0x40_8000
/-- The same with a list of block 1 in the tile of s4. -/
def sAttn : State := updTeam sKv 1 (fun t => { t with scratch := [(0x3040, 1), (0x304C, 0x40), (0x304E, 1)] })
/-- The sequence is draining. -/
def sDrain (s : State) : State := setSlot s 0 3 { KvSlot.none with live := true, draining := true }
/-- Page n is code of version 7 of partition 0, which live grid 1 is bound to. -/
def runsCode (s : State) (n : Nat) : State :=
  { s with code := [(n, 1, 0, 7)], grids := [(1, { Grid.none with live := true, version := 7 })] }
def lowVal (i : Instr) (s : State) (r : Reg) : Val := opnd s r 0 (curIx i hd s).low

/-- The hypotheses of ATTN. -/
def attnFine (s : State) : Bool :=
  let i := Instr.attn hd ⟨.uni 2, .lane 1, .uni 1, .uni 4⟩
  let d := (lowVal i s (.uni 1)).pay
  let c := hnd s (.uni 4)
  decide (issues i hd s = true ∧ (warpOf s s.cur).width = 32 ∧ descFaults (curIx i hd s) (curIx i hd s).low (lowVal i s (.uni 1)) true = [] ∧
    hOk s i (.uni 2) attnD = true ∧
    hOk s i (.uni 4) attnC = true ∧ rowFaults (curIx i hd s) (warpOf s s.cur) (.lane 1) = [] ∧
    listErrors (curIx i hd s) (teamOf s 1) c = [] ∧ listFaults (curIx i hd s) (teamOf s 1) c (dBlocks d) = [] ∧
    ownerFaults (curIx i hd s) (teamOf s 1) (hnd s (.uni 2)).granules true = [] ∧
    ownerFaults (curIx i hd s) (teamOf s 1) c.granules false = [] ∧ appendPending (began i hd s) s.cur (seqKey d) = false ∧
    readPending (began i hd s) s.cur (seqKey d) = false ∧
    ((listEntries (teamOf s 1) c).all (fun e => !kvHeld s 0 (kvKey d (fld e 48 16)))) = true)

theorem witness_KvInstructions :
    (let i := Instr.kvapp hd (.uni 1) (.lane 1) (.lane 2)
     let d := (lowVal i sKv (.uni 1)).pay
     issues i hd sKv = true ∧ (warpOf sKv sKv.cur).width = 32 ∧ descFaults (curIx i hd sKv) (curIx i hd sKv).low (lowVal i sKv (.uni 1)) true = [] ∧
     dLen d < 4194304 ∧ rowFaults (curIx i hd sKv) (warpOf sKv sKv.cur) (.lane 1) = [] ∧
     rowFaults (curIx i hd sKv) (warpOf sKv sKv.cur) (.lane 2) = [] ∧ kvLookup sKv 0 (kvKey d (dLen d / 64)) = .ok (wd (2 ^ 38)) ∧
     (slotOf sKv 0 (dSeq d)).draining = false ∧ relScope (warpOf (began i hd sKv) sKv.cur) none = none ∧ readsPending (began i hd sKv) sKv.cur = false ∧
     (kvSecond (ktbFill (began i hd sKv) 0 (kvKey d (dLen d / 64)) (wd (2 ^ 38))) 0 (wd (2 ^ 38))).2 = .ok 0x40_0000 0x40_8000 0 ∧
     appendsCode (began i hd sKv) 0x40_0000 0x40_8000 (dLen d % 64) = false ∧
     appendsCode (runsCode (began i hd sKv) 0x400) 0x40_0000 0x40_8000 (dLen d % 64) = true) ∧
    (let i := Instr.ksel hd true false ⟨.uni 2, .lane 1, .uni 1, .uni 3⟩
     let d := (lowVal i sKv (.uni 1)).pay
     issues i hd sKv = true ∧ (warpOf sKv sKv.cur).width = 32 ∧ descFaults (curIx i hd sKv) (curIx i hd sKv).low (lowVal i sKv (.uni 1)) true = [] ∧
     hOk sKv i (.uni 2) (kselD (dBlocks d)) = true ∧ (lowVal i sKv (.uni 3)).tag = .int ∧ fld (lowVal i sKv (.uni 3)).pay 48 16 = 0 ∧
     rowFaults (curIx i hd sKv) (warpOf sKv sKv.cur) (.lane 1) = [] ∧
     ownerFaults (curIx i hd sKv) (teamOf sKv 1) (hnd sKv (.uni 2)).granules true = [] ∧
     appendPending (began i hd sKv) sKv.cur (seqKey d) = false ∧ readPending (began i hd sKv) sKv.cur (seqKey d) = false) ∧
    attnFine sKv = true ∧ attnFine sAttn = true ∧ attnFine (sDrain sAttn) = true ∧
    (listEntries (teamOf sAttn 1) (hnd sAttn (.uni 4))).length = 1 ∧ (slotOf (sDrain sAttn) 0 3).draining = true ∧
    (∀ j ∈ [Reg.lane 3, .lane 4],
     let i := Instr.kvxl hd (.lane 5) (.uni 1) j
     issues i hd sKv = true ∧ (curIx i hd sKv).exe = [0] ∧ descFaults (curIx i hd sKv) 0 (opnd sKv (.uni 1) 0 0) true = [] ∧
     (opnd sKv j 0 0).tag = .int ∧ kvHeld sKv 0 (kvKey (opnd sKv (.uni 1) 0 0).pay (opnd sKv j 0 0).pay.toNat) = false) := by decide +kernel

/-- The state after an instruction. -/
def next (i : Instr) (s : State) : State :=
  match exec i s with
  | .next t => t
  | _ => s

/-- R282, R283, R287, R291: an append of token 65 and its pages; a KSEL of two blocks; ATTN of block 1 with one token. -/
theorem test_kv_values :
    (next (.kvapp hd (.uni 1) (.lane 1) (.lane 2)) sKv).appends.map (fun a => (a.kpa, a.vpa, a.t)) = [(0x40_0000, 0x40_8000, 65)] ∧
    (next (.ksel hd true false ⟨.uni 2, .lane 1, .uni 1, .uni 3⟩) sKv).ksels.map (fun k => (k.t, k.win, k.sink)) = [(64, 0, true)] ∧
    (next (.attn hd ⟨.uni 2, .lane 1, .uni 1, .uni 4⟩) sAttn).attns.map (·.todo) = [[⟨1, 0x40_0000, 0x40_8000, 0, 1⟩]] ∧
    after (.kvxl hd (.lane 5) (.uni 1) (.lane 3)) sKv (.lane 5) 0 = ⟨.int, wd (2 ^ 48 + 2 ^ 38)⟩ ∧
    after (.kvxl hd (.lane 5) (.uni 1) (.lane 4)) sKv (.lane 5) 0 = nilVal := by decide +kernel

/-- In supervisor state. -/
def sSvKv : State := updWarp (updWarp sKv 1 (fun w => writeReg (writeReg w (.uni 5) 0 (intVal (2 ^ 38 + 7))) (.uni 8) 0 (intVal 1))) 1 (fun w => { w with status := w.status ||| 4 })
def kvsdFine (s : State) (rb : Reg) : Bool :=
  let i := Instr.kvsd hd (.uni 1) rb
  let v := (lowVal i s rb).pay
  let n := fld v 16 17
  let lo := kvKey (lowVal i s (.uni 1)).pay (fld v 0 16)
  decide (issues i hd s = true ∧ descFaults (curIx i hd s) (curIx i hd s).low (lowVal i s (.uni 1)) false = [] ∧ (lowVal i s rb).tag = .int ∧
    fld v 33 31 = 0 ∧ 1 ≤ n ∧ fld v 0 16 + n ≤ 65536 ∧ warpBusy (began i hd s) s.cur = false ∧
    ∀ q ∈ s.kvsds, ¬(q.part = 0 ∧ q.lo < lo + n ∧ lo < q.lo + q.n))
/-- Block 0 waits for a KVSD, or none does. -/
def sSd (p : Bool) : State :=
  updWarp (updPart sKv 0 (fun y => { y with kv := y.kv.map (fun e => (e.1, { e.2 with p := p })) })) 1 (fun w =>
    writeReg (writeReg w (.uni 6) 0 (intVal 0x2_0000)) (.uni 7) 0 (intVal (0x1_0000_0000)))

theorem witness_KvMappingInstructions :
    (∀ r ∈ [Reg.uni 1, .uni 3], issues (.kvret hd r) hd sKv = true ∧ (lowVal (.kvret hd r) sKv r).tag = .int) ∧
    (∀ c ∈ [Reg.uni 5, .nil],
     let i := Instr.kvmap hd (.uni 1) (.uni 8) c
     let d := (lowVal i sSvKv (.uni 1)).pay
     let key := kvKey d (lowVal i sSvKv (.uni 8)).pay.toNat
     issues i hd sSvKv = true ∧ super (warpOf sSvKv sSvKv.cur) = true ∧
     descFaults (curIx i hd sSvKv) (curIx i hd sSvKv).low (lowVal i sSvKv (.uni 1)) false = [] ∧ (lowVal i sSvKv (.uni 8)).tag = .int ∧
     (lowVal i sSvKv (.uni 8)).pay.toNat < 65536 ∧ kvmapC sSvKv 0 (lowVal i sSvKv c) = true ∧ kvHeld sSvKv 0 key = false ∧
     (partOf sSvKv 0).kv.length < kvRoom sSvKv 0 ∧ (slotOf sSvKv 0 (dSeq d)).live = true) ∧
    kvsdFine (sSd true) (.uni 6) = true ∧ kvsdFine (sSd false) (.uni 7) = true := by decide +kernel

/-- R342, R370, R371: block 1 gets NEXT and P; a KVSD with a chip to ask waits; one without puts nothing in the way. -/
theorem test_kvmap_values :
    (spGet KvEntry.none (partOf (next (.kvmap hd (.uni 1) (.uni 8) (.uni 5)) sSvKv) 0).kv (kvKey (lowVal (.kvret hd (.uni 1)) sKv (.uni 1)).pay 1)) =
      ⟨some (wd (2 ^ 38)), some (wd (2 ^ 38 + 7)), true⟩ ∧
    (slotOf (next (.kvret hd (.uni 1)) sKv) 0 3).draining = true ∧
    ((next (.kvsd hd (.uni 1) (.uni 6)) (sSd true)).kvsds.map (fun o => (o.n, o.keys.length, o.owed)) = [(2, 2, [0])]) ∧
    (warpAfter (.kvsd hd (.uni 1) (.uni 6)) (sSd true)).wait = .kvsd 1 ∧
    ((next (.kvsd hd (.uni 1) (.uni 7)) (sSd false)).kvsds = []) := by decide +kernel

/-! ## Witnesses: the package, pre-emption -/

/-- The team belongs to grid 1, partition 0's, which has 5 items; queue 0 is granted and empty, with its ring at 0x5000; addresses below
2^30 are mapped to themselves by PTROOT's table, and page 5 to 0x30_0000 in the core's buffer. -/
def sPkg : State :=
  let s := raw [(.uni 1, tile 128 1 16 6 0x1FFF), (.uni 2, intVal 3), (.uni 3, intVal 1), (.uni 4, intVal (2 ^ 32 + 1)), (.uni 5, ⟨.ptr, 0x5000⟩),
    (.uni 6, ⟨.ptr, 0x5010⟩), (.uni 7, intVal 0), (.uni 8, intVal (-1))]
  let s := setGrid { s with nextGrid := 2 } 1 { Grid.none with live := true, used := true, words := [0, 0, 0, 0, 0, 0, 5] }
  let s := updTeam s 1 (fun t => { t with scratchBytes := 16384, grid := 1, owner := [(2, true)] })
  let s := updPart s 0 (fun p => { p with valid := true, ptroot := 0x31_0000, grants := [0, 1], words := [(0, 1), (2, 2 ^ 17)] })
  let s := poke (poke s 0x31_0000 0x31_1003) 0x31_1000 0x31
  updQueue s 0 (fun q => { q with en := true, rbase := 0x5000, rlog := 2, clog := 2, cbase := 0x6000, vec := 0xFFFF })
def sSup2 : State := updWarp sPkg 1 (fun w => { w with status := w.status ||| 4 })

def waitsFine (s : State) (rb : Reg) (holds : Bool) : Bool :=
  let i := Instr.waits hd .lt true ⟨.uni 6, rb, .cluster⟩
  let b := began i hd s
  let ix := curIx i hd s
  let p := planMem b ix [ix.low] (.uni 6) .nil 0 8 8 [.r] true
  match p.accs with
  | [a] =>
    let r : State × Val := if ownMmio p.s 0 a.pa = true then (p.s, (⟨Tag.int, mmioRead p.s a.pa⟩ : Val))
      else waitsRead (readAtHome p.s 0 (a.pa / 8)) (warpPart b s.cur) a.pa a.leaf.t
    decide (issues i hd s = true ∧ Ready p ∧ (lowVal i s rb).tag = .int ∧ mustDrain p.s s.cur p.accs = false ∧ r.2.tag ≠ Tag.poison ∧
      ccInt .lt r.2.pay.toInt (lowVal i s rb).pay.toInt = holds)
  | _ => false
/-- The record is read, the ring has room, and the record enters it. -/
def launchOk (ix : Ix) : RecRead → Bool
  | .ok u ws =>
    let x := queueOf (release u 0 .package) 0
    decide ((x.tail - x.head).toNat < 2 ^ x.rlog) &&
      (match ringPut (release u 0 .package) ix 0 0 ws with
       | .ok _ => true
       | _ => false)
  | _ => false

theorem witness_PackageInstructions :
    (let i := Instr.wqry hd (.uni 1)
     issues i hd sPkg = true ∧ hOk sPkg i (.uni 1) (fun h => decide (8 ≤ h.dataBytes)) = true ∧
     ownerFaults (curIx i hd sPkg) (teamOf sPkg 1) (hnd sPkg (.uni 1)).granules true = []) ∧
    (let i := Instr.signal hd .add true ⟨.uni 6, .uni 2, .system⟩
     let b := began i hd sPkg
     let p := (planMem b (curIx i hd sPkg) [(curIx i hd sPkg).low] (.uni 6) .nil 0 8 8 [.w] true).check (signalPlace b .add)
     issues i hd sPkg = true ∧ Ready p ∧ p.accs.length = 1 ∧ (lowVal i sPkg (.uni 2)).tag = .int ∧
     reqBusy p.s (curIx i hd sPkg) (reqScope (warpOf b sPkg.cur) .rel .system).isSome p.accs = false ∧
     p.accs.length ≤ reqRoom p.s (warpOf b sPkg.cur).core) ∧
    waitsFine sPkg (.uni 2) true = true ∧ waitsFine (poke sPkg 0x30_0010 9) (.uni 2) false = true ∧
    (∀ r ∈ [Reg.uni 2, .uni 5], issues (.cmpl hd r) hd sPkg = true ∧ (gridOf sPkg (teamOf sPkg 1).grid).live = true ∧
     ((lowVal (.cmpl hd r) sPkg r).tag = .int ∨ (lowVal (.cmpl hd r) sPkg r).tag = .ptr) ∧
     warpBusy (began (.cmpl hd r) hd sPkg) sPkg.cur = false) ∧
    (let i := Instr.dlaunch hd (.uni 5) (.uni 7)
     let av := lowVal i sPkg (.uni 5)
     issues i hd sPkg = true ∧ av.tag = .ptr ∧ fld av.pay 48 16 = 0 ∧ av.pay.toNat % 128 = 0 ∧ (lowVal i sPkg (.uni 7)).tag = .int ∧
     queueGranted sPkg 0 (lowVal i sPkg (.uni 7)).pay.toNat = true ∧ warpBusy (began i hd sPkg) sPkg.cur = false ∧
     launchOk (curIx i hd sPkg) (readRecord (began i hd sPkg) sPkg.cur av.pay.toNat) = true) ∧
    issues (.svcall hd 7) hd sPkg = true ∧ isService (warpOf sPkg sPkg.cur).core = false := by decide +kernel

/-- R324-R329: what each leaves. -/
theorem test_package_values :
    (next (.wqry hd (.uni 1)) sPkg).wqrys.map (·.1) = [1] ∧ (warpAfter (.cmpl hd (.uni 2)) sPkg).wait = .record 0 ∧
    (queueOf (next (.dlaunch hd (.uni 5) (.uni 7)) sPkg) 0).tail = 1 ∧ (warpAfter (.svcall hd 7) sPkg).wait = .svcall ∧
    (warpAfter (.waits hd .lt true ⟨.uni 6, .uni 2, .cluster⟩) (poke sPkg 0x30_0010 9)).wait = .word 0x30_0010 false .lt 3 ∧
    (partOf (next (.svcall hd 7) sPkg) 0).svc = [.svcall 1 7 [nilVal, nilVal, nilVal, nilVal]] := by decide +kernel

/-- A stopped team 2 of grid 1 with one warp of 16 registers; the block at page 5, in a vault, has room for it. -/
def recWs : List Word := [0, 0x1000, 0x1_0001_0001, wd (1 + 16 * 2 ^ 8)]
def sSave : State :=
  let s := setGrid sSup2 1 { Grid.none with live := true, used := true, words := recWs }
  let s := setTeam (setWarp s 2 { Warp.none with live := true, team := 2, stopped := true }) 2
    { Team.none with live := true, stopped := true, grid := 1, nwarps := 1, warps := [2] }
  let s := updWarp { s with nextTeam := 3, nextWarp := 3 } 1 (fun w => { w with team := 1 })
  let s := [0, 1, 2, 3, 4].foldl (fun s k => page s (5 + k) (0x1000_0000_0000 + 4096 * k)) s
  poke (poke (poke s 0x1000_0000_0010 20000) 0x1000_0000_0000 (wd (2 ^ 32))) 0x1000_0000_0008 7
def pagesOk : Pages → List (Nat × Leaf)
  | .ok ps => ps
  | _ => []
/-- A core whose L1 holds nothing has no line of a block to give up. -/
theorem blockEvict_empty {s : State} {c : Nat} (h : (coreOf s c).l1 = []) (ps : List (Nat × Leaf)) : blockEvict s c ps = s := by
  have e : ∀ k, l1Of s c k = CWord.none := fun k => by simp [l1Of, h, spGet]
  have w : ∀ (L : List Nat),
      L.foldl (fun s k => if l1Of s c k = CWord.none then s else setL1 (l1Clean s c k) c k CWord.none) s = s := by
    intro L
    induction L with
    | nil => rfl
    | cons k L ih => rw [List.foldl_cons, if_pos (e k)]; exact ih
  have l : ∀ (a : Nat) (L : List Nat), L.foldl (fun s i => l1Evict s c (a + i)) s = s := by
    intro a L
    induction L with
    | nil => rfl
    | cons i L ih => rw [List.foldl_cons]; exact (congrArg (fun x => L.foldl (fun s i => l1Evict s c (a + i)) x) (w _)).trans ih
  unfold blockEvict
  induction ps with
  | nil => rfl
  | cons p ps ih => rw [List.foldl_cons, l]; exact ih

/-- The hypotheses that CTXSV and CTXLD share, in a state whose core holds no line. -/
def blockFine (i : Instr) (s : State) : Bool :=
  let b := began i hd s
  let ps := pagesOk (blockPages b s.cur 0x5000 4096 .w)
  decide (issues i hd s = true ∧ blockFaults (curIx i hd s) (warpOf b s.cur) (lowVal i s (.uni 5)) = [] ∧
    (pagesOk (blockPages b s.cur 0x5000 4096 .r)).length = 1 ∧ ps.length = 1 ∧ warpBusy b s.cur = false ∧
    mayName b 0 0 (fld (blockRead b ps 0).data 32 32) = true ∧ (coreOf b 0).l1 = [])
def saveFine (s : State) : Bool :=
  let b := began (.ctxsv hd (.uni 5)) hd s
  let ps := pagesOk (blockPages b s.cur 0x5000 4096 .w)
  let r := takeFree b
  let n := blockSize r.2 2 (gridOf r.2 1).words
  decide (savable b 1 = [2] ∧ fld (blockRead b ps 0).data 32 32 = 1 ∧ n ≤ (blockRead r.2 ps 2).data.toNat ∧
    (pagesOk (blockPages r.2 s.cur 0x5000 n .w)).length = 5)
/-- Grid 1's team 0 in a block of 16,768 bytes; its warp is live, F is 16 and EADDR an INT, and every other value is zero. -/
def sLoad : State :=
  let hs := [wd (2 ^ 32 + 0x7F_0000), 7, 16768, wd (1 + 16 * 2 ^ 8), 0, 0, 0, 0] ++ (blockOffs recWs).map wd
  poke (poke ((hs.zip (List.range 16)).foldl (fun s e => poke s (0x1000_0000_0000 + 8 * e.2) e.1) sSave) 0x1000_0000_1000 0x1000) 0x1000_0000_1038 0x801
def loadSound (s : State) : Bool :=
  let b := began (.ctxld hd (.uni 5)) hd s
  let ps := pagesOk (blockPages b s.cur 0x5000 4096 .w)
  let size := (blockRead b ps 2).data.toNat
  let qs := pagesOk (blockPages b s.cur 0x5000 size .r)
  !(List.range (size / 8)).any (fun k => (blockRead b qs k).bad)
def loadFine2 (s : State) : Bool :=
  let b := began (.ctxld hd (.uni 5)) hd s
  let ps := pagesOk (blockPages b s.cur 0x5000 4096 .w)
  let size := (blockRead b ps 2).data.toNat
  let qs := pagesOk (blockPages b s.cur 0x5000 size .r)
  decide ((gridOf b 1).live = true ∧ size ≤ 2 ^ 22 ∧ qs.length = 5) &&
    (readBlock (fun k => (blockRead b qs k).data) (gridOf b 1) 1 b.nextTeam).isSome &&
    (targetCore b 0 (blockRead b ps 0).data recWs).isSome

theorem witness_PreemptionInstructions :
    (∀ r ∈ [Reg.uni 3, .uni 4], ∀ s ∈ [sPkg, sSup2], issues (.prmt hd r) hd s = true ∧ (lowVal (.prmt hd r) s r).tag = .int ∧
      fld (lowVal (.prmt hd r) s r).pay 33 31 = 0) ∧
    super (warpOf sSup2 sSup2.cur) = true ∧ super (warpOf sPkg sPkg.cur) = false ∧
    (∀ r ∈ [Reg.uni 3, .nil], issues (.icinv hd r) hd sSup2 = true) ∧ issues (.icinv hd (.uni 3)) hd sPkg = true ∧
    (∀ mk ∈ [Instr.ctxsv, Instr.ctxld], issues (mk hd (.uni 5)) hd sPkg = true ∧ (lowVal (mk hd (.uni 5)) sPkg (.uni 5)).tag = .ptr ∧
      fld (lowVal (mk hd (.uni 5)) sPkg (.uni 5)).pay 48 16 = 0 ∧ (lowVal (mk hd (.uni 5)) sPkg (.uni 5)).pay.toNat % 4096 = 0) := by decide +kernel

theorem witness_ContextSave : (∀ ps, blockEvict (began (.ctxsv hd (.uni 5)) hd sSave) 0 ps = began (.ctxsv hd (.uni 5)) hd sSave) ∧
    blockFine (.ctxsv hd (.uni 5)) sSave = true ∧ saveFine sSave = true :=
  ⟨blockEvict_empty (by decide +kernel), by decide +kernel, by decide +kernel⟩

theorem witness_ContextLoad : (∀ ps, blockEvict (began (.ctxld hd (.uni 5)) hd sLoad) 0 ps = began (.ctxld hd (.uni 5)) hd sLoad) ∧
    blockFine (.ctxld hd (.uni 5)) sLoad = true ∧ loadSound sLoad = true ∧ loadFine2 sLoad = true :=
  ⟨blockEvict_empty (by decide +kernel), by decide +kernel, by decide +kernel, by decide +kernel⟩

/-- R330, R332, R334: the stopped team waits; the saved team is gone; PRIV; ICINV leaves the lines of versions that run. -/
theorem test_preempt_values :
    (warpAfter (.prmt hd (.uni 3)) sSup2).wait = .stop 1 ∧ (teamOf (next (.prmt hd (.uni 3)) sSup2) 1).stopping = true ∧
    (gridOf (next (.prmt hd (.uni 4)) sSup2) 1).stopped = false ∧ (warpAfter (.prmt hd (.uni 3)) sPkg).cause = 0x11 ∧
    (coreOf (next (.icinv hd .nil) sSup2) 0).ibuf.length = 1 := by decide +kernel

/-! ## Witnesses: what the device does by itself -/

/-- Warp 1 waits. -/
def waits (k : Wait) : State := updWarp (one []) 1 (fun w => { w with wait := k })
/-- Warp 1 has a trap to take at 0x1000 in lane 0; TRAPV is 0x2000. -/
def trapRec : TrapRec := ⟨.ill, [(0, 3)], intVal 0x1000, 0, [], 0x1000⟩
def sPend : State := updWarp (one []) 1 (fun w => { w with pendTrap := some trapRec })
/-- A request of warp 1, whose result passes no read barrier. -/
def ask (outs : List (Dst × Option Val)) (atomic : Bool) : Req :=
  { warp := 1, outs := outs, atomic := atomic, pa := 0x30_0000, bar := false }
/-- Request 7 of core 0: v is due in lane 0 of v5 or in s5 of warp 1. -/
def due (x : Dst) (v : Val) (atomic : Bool) : State :=
  updCore (updWarp (one []) 1 (fun w => addPend (addPend w 5) 133)) 0 (fun c => { c with reqs := [(7, some (ask [(x, some v)] atomic))] })

theorem witness_WaitingWarpsGoOn :
    ((∀ t ∈ [0, 5], (warpOf (waits (.sleep t 0x1000 [0])) 1).wait = .sleep t 0x1000 [0]) ∧ (coreOf (waits (.sleep 5 0x1000 [0])) 0).cyc < 5) ∧
    ((warpOf sPend 1).pendTrap = some trapRec ∧ outstanding sPend 1 = false ∧ tip (warpOf sPend 1) = false ∧ (warpOf sPend 1).trapv ≠ 0 ∧
      aliveLanes (warpOf sPend 1) = [0]) ∧
    (let s := updCore sPend 0 (fun c => { c with reqs := [(7, some (ask [(.lane 5 0, none)] false))] })
     (warpOf s 1).pendTrap = some trapRec ∧ outstanding s 1 = true) ∧
    (let s := updWarp sPend 1 (fun w => { w with trapv := 0 })
     (warpOf s 1).pendTrap = some trapRec ∧ outstanding s 1 = false ∧ (warpOf s 1).trapv = 0) ∧
    (∀ e ∈ [(Dst.lane 5 0, false), (.uni 5, true)], spGet none (coreOf (due e.1 (intVal 9) e.2) 0).reqs 7 = some (ask [(e.1, some (intVal 9))] e.2)) ∧
    (warpOf (waits .svcall) 1).wait = .svcall ∧ regTag Tag.ref = true ∧ regTag Tag.int = true := by decide +kernel

/-- R157, R158, R183: the trap enters at 0x2000 with ESTAT 0x310; without a TRAPV the warp halts; the result lands and its mark goes. -/
theorem test_waiting_values :
    (laneOf (warpOf (next (.trapEntry 1) sPend) 1) 0).lpc = 0x2000 ∧ (laneOf (warpOf (next (.trapEntry 1) sPend) 1) 0).estat = 0x310 ∧
    (warpOf (next (.trapEntry 1) (updWarp sPend 1 (fun w => { w with trapv := 0 }))) 1).halted = true ∧
    (warpOf (next (.sleepExpiry 1) (waits (.sleep 0 0x1000 [0]))) 1).wait = .none ∧ (warpOf (next (.sleepExpiry 1) (waits (.sleep 5 0x1000 [0]))) 1).wait = .sleep 5 0x1000 [0] ∧
    laneReg (warpOf (next (.resultArrival 0 7) (due (.lane 5 0) (intVal 9) false)) 1) 5 0 = intVal 9 ∧
    spGet 0 (warpOf (next (.atomicReply 0 7) (due (.uni 5) (intVal 9) true)) 1).pend 133 = 0 := by decide +kernel

/-- No run on issue partition 0, where warp 1 is ready. -/
def sIdle : State := updCore (one []) 0 (fun c => { c with runs := [] })
/-- Warp 1 waits for the walk of virtual page v; page v's leaf in the table below PTROOT 0x31_0000 is e. -/
def sWalk (e : Word) : State :=
  let s := updWarp (one []) 1 (fun w => { w with wait := .walk [0x4000_0] })
  let s := updTeam s 1 (fun t => { t with root := 0x31_0000 })
  let s := updPart s 0 (fun p => { p with valid := true, ptroot := 0x31_0000, grants := [0, 1, 512] })
  poke (poke s 0x31_0000 0x31_1003) 0x31_1008 e
def isLeaf (h : Bool) : Walk → Bool
  | .leaf l => l.h == h
  | _ => false
def sWalk0 (e : Word) : State := updWarp (sWalk e) 1 (fun w => { w with wait := .none })

theorem witness_RunsAndFillsAreServed :
    (spGet Run.none (coreOf (one []) 0).runs 0).active = true ∧
    ((spGet Run.none (coreOf sIdle 0).runs 0).active = false ∧ (slotWarps sIdle 0 0).filter (warpReady sIdle) = [1]) ∧
    spFind (waits (.fill 5)).warps (fun _ x => decide (x.core = 0 ∧ x.wait = .fill 5)) = [1] ∧
    (warpOf (waits (.fetchWalk 0x4000_0)) 1).wait = .fetchWalk 0x4000_0 ∧
    ((warpOf (sWalk 0x4000_0031) 1).wait = .walk [0x4000_0] ∧ rootOf (sWalk 0x4000_0031) 1 = 0x31_0000 ∧
     isLeaf false (walk (sWalk0 0x4000_0031) 0 0 0x31_0000 0x4000_0) = true ∧
     isLeaf true (walk (sWalk0 0x200_0000_4000_0031) 0 0 0x31_0000 0x4000_0) = true ∧
     spGet none (partOf (sWalk 0x200_0000_4000_0031) 0).iommu 0x4000_0 = none ∧
     walk (sWalk0 0x4000_0035) 0 0 0x31_0000 0x4000_0 = .fault .xlat) ∧
    (∀ pa ∈ [0x30_0010, 0x10_0000_0000_0010], (warpOf (waits (.word pa false .eq 0)) 1).wait = .word pa false .eq 0 ∧
      ownMmio (waits (.word pa false .eq 0)) 0 pa = false) ∧
    isHost 0x10_0000_0000_0010 = true := by decide +kernel

/-- R146, R222, R340: the ready warp runs; a reserved bit of an entry faults. -/
theorem test_served_values :
    (spGet Run.none (coreOf (next (.runSelect 0 0) sIdle) 0).runs 0).warp = 1 ∧ (warpOf (next (.translationWalkDone 1) (sWalk 0x4000_0031)) 1).wait = .none ∧
    (warpOf (next (.translationWalkDone 1) (sWalk 0x4000_0035)) 1).walkFault = [(0x4000_0, .xlat)] ∧
    (warpOf (next (.waitsRecheck 1) (waits (.word 0x30_0010 false .eq 0))) 1).wait = .none ∧
    (warpOf (next (.waitsRecheck 1) (waits (.word 0x30_0010 false .ne 0))) 1).wait = .word 0x30_0010 false .ne 0 := by decide +kernel

/-- A step at the head of core 0's queue: BF16 operands of 16 rows in granules 0 and 1, the second as wide as w. -/
def sStep (k : MatKind) : State := updCore sMat 0 (fun c => { c with matq := [⟨1, 2, k⟩] })
def tA : Word := (tile 0 16 16 4 0x1FFF).pay
def tB (w : Nat) : Word := (tile 64 16 w 4 0x1FFF).pay
def narrowFine (s : State) (a b : Word) : Bool :=
  let t := teamOf s 1
  decide ((selvOf t 2).w = false ∧ (selvOf t 3).w = false ∧ (handleOf a).rows ≤ 64 ∧ (handleOf b).cols ≤ 128) &&
    (List.range (handleOf a).rows).all (fun r => (rowA t (handleOf a) r).all (fun e => decide (e.1 < (handleOf b).rows)))

theorem witness_MatrixStepsAccumulate :
    (∀ k ∈ [MatKind.mma tA (tB 16), .mmap tA (tB 16), .accz, .bndset 0x3FC0_0000], matNext (sStep k) 0 = some ⟨1, 2, k⟩ ∧ isPaired ⟨1, 2, k⟩ = false) ∧
    matNext (sStep (.mmap tA (tB 128))) 0 = some ⟨1, 2, .mmap tA (tB 128)⟩ ∧ isPaired ⟨1, 2, .mmap tA (tB 128)⟩ = true ∧
    narrowFine (sStep (.mma tA (tB 16))) tA (tB 16) = true ∧ narrowFine (sStep (.mmap tA (tB 128))) tA (tB 128) = true := by decide +kernel

/-- R205: 1.5 in A's row 0, column 1, times 2.0 in B's row 1, column 3, upon 1.0 in the tile; ACCZ. -/
theorem test_step_values :
    (let s := updTeam (sStep (.mma tA (tB 16))) 1 (fun t => { scrWrite (scrWrite t .lin (64 + 2) 2 0x3FC0) .lin (4096 + 64 + 32 + 6) 2 0x4000 with
       acc := [(2 * 4096 + 3, 0x3F80_0000)] })
     accBits (teamOf (next (.matrixStep 0) s) 1) 2 0 3 = 0x4080_0000 ∧
     (coreOf (next (.matrixStep 0) s) 0).matq = []) := by decide +kernel

/-- A copy of an 8 by 8 BF16 tile in granule 0 from GiB n at the head of core 0's queue: GiB 0 is mapped, GiB 1 names an I/O address, and
GiB 2 is not mapped. -/
def cpyOp (n : Nat) : CopyOp := ⟨1, 1, .lin, false, (tile 0 8 8 4 0x1FFF).pay, 0x4000_0000 * n, 0⟩
def sCpy (n : Nat) : State :=
  let s := updPart (updTeam sMat 1 (fun t => { t with root := 0x31_0000 })) 0 (fun p => { p with valid := true, grants := [0, 1] })
  let s := poke (poke (poke s 0x31_0000 0x31_1003) 0x31_1000 0x31) 0x31_1008 0x200_0000_4000_0031
  updCore s 0 (fun c => { c with copyq := [cpyOp n], tlb := [] })
def cpyRun (n : Nat) : CopyRun := copyRun (updCore (sCpy n) 0 (fun k => { k with copyq := k.copyq.erase (cpyOp n) })) 0 (cpyOp n)

theorem witness_CopiesAndQueriesComplete :
    (∀ n ∈ [0, 1, 2], (coreOf (sCpy n) 0).copyq.find? (fun o => !teamHeld (sCpy n) o.team) = some (cpyOp n)) ∧
    copyOwed (sCpy 1) 0 (cpyOp 1) ≠ [] ∧ copyOwed (sCpy 0) 0 (cpyOp 0) = [] ∧ copyOwed (sCpy 2) 0 (cpyOp 2) = [] ∧
    (cpyRun 2).fault.isSome = true ∧
    ({ sPkg with wqrys := [(1, (tile 128 1 16 6 0x1FFF).pay)] }).wqrys[0]? = some (1, (tile 128 1 16 6 0x1FFF).pay) := by decide +kernel

/-- Appends of one sequence by warp 1, and one to a chip whose link is down. -/
def app (kpa : Nat) : Append := ⟨1, none, 0, 5, kpa, kpa + 0x8000, 0, 0, List.replicate 32 0x3F80_3F80_3F80_3F80, List.replicate 32 0x4000_4000_4000_4000⟩
def sApp : State := { State.reset with appends := [app 0x1000_0000_0000, app 0x1000_0000_0000] }
def sAway2 : State := { State.reset with appends := [app (2 ^ 46 + 0x1000_0000_0000)], lost := [(1, true)] }
def kselOp (r : Option (List Word × Option Cause)) : KselOp :=
  ⟨0, 1, 1, 0, (tile 128 1 16 6 0x1FFF).pay, List.replicate 32 0x3F80_3F80_3F80_3F80, wd (65 + 3 * 2 ^ 40), 64, 0, false, false, r, []⟩
def sKs (r : Option (List Word × Option Cause)) : State := { sMat with ksels := [kselOp r] }
/-- The same while a KVSD holds block 0. -/
def sKsHeld : State := { sKs none with kvsds := [⟨1, 1, 0, kvKey (wd (3 * 2 ^ 40)) 0, 1, [], [], [0]⟩] }
/-- One block of two tokens in a vault. -/
def attnOp (todo : List AttnBlock) (ps : List (Nat × Triple)) (acc : Option Triple) : AttnOp :=
  ⟨0, 1, 1, 0, (tile 0 1 256 6 0x1FFF).pay, List.replicate 32 0x3F80_3F80_3F80_3F80, wd (65 + 3 * 2 ^ 40), [(1, 0)], todo, ps, acc, none, []⟩
def sAt (todo : List AttnBlock) (ps : List (Nat × Triple)) (acc : Option Triple) : State :=
  { sMat with attns := [attnOp todo ps acc] }
def tri : Triple := ⟨0x3F80_0000, 0x4000_0000, List.replicate 128 0⟩
def readsOk (r : State × Except Cause (List Word)) : Bool :=
  match r.2 with
  | .ok _ => true
  | _ => false
/-- Block 1, whose pages lie in a vault; in a word of which no correct copy exists; or on a chip that does not answer. -/
def attB : AttnBlock := ⟨1, 0x1000_0000_0000, 0x1000_0000_8000, 0, 2⟩
def attFirst : State := sAt [attB] [] none
def attAway : AttnBlock := ⟨1, 2 ^ 46 + 0x1000_0000_0000, 2 ^ 46 + 0x1000_0000_8000, 0, 2⟩

/-- Whether the home of each line of the first append takes it and no line is code. -/
def appendTakes (s : State) (a : Append) : Bool :=
  let u := { s with appends := s.appends.eraseIdx 0 }
  (appendLines a.kpa a.vpa (a.t % 64)).all (fun l => kvServed u a.part l && !codePage u (256 * l))

theorem witness_KvOperationsComplete :
    (∀ n ∈ [0, 1], sApp.appends[n]? = some (app 0x1000_0000_0000) ∧
      ((sApp.appends.take n).all (fun b => !decide (b.warp = (app 0x1000_0000_0000).warp ∧ b.seqKey = (app 0x1000_0000_0000).seqKey)) = decide (n = 0))) ∧
    appendTakes sApp (app 0x1000_0000_0000) = true ∧
    sAway2.appends[0]? = some (app (2 ^ 46 + 0x1000_0000_0000)) ∧ appendTakes sAway2 (app (2 ^ 46 + 0x1000_0000_0000)) = false ∧
    appendTakes (runsCode (updPart sApp 0 (fun p => { p with valid := true, words := [(0, 1)] })) 0x1_0000_0000) (app 0x1000_0000_0000) = false ∧
    (∀ r ∈ [none, some ([(0 : Word)], none), some ([0x8000_0000_0000_0000], some .kvmiss)], (sKs r).ksels[0]? = some (kselOp r)) ∧
    (dBlocks (kselOp none).desc = 2 ∧ (List.range 2).all (fun j => !kvHeld (sKs none) 0 (kvKey (kselOp none).desc j)) = true ∧
      sKsHeld.ksels[0]? = some (kselOp none) ∧ kvHeld sKsHeld 0 (kvKey (kselOp none).desc 0) = true) ∧
    (attFirst.attns[0]? = some (attnOp [attB] [] none) ∧ attB.block = 1 ∧
      readsOk (pageRead attFirst 0 attB.kpa 64) = true ∧ readsOk (pageRead (pageRead attFirst 0 attB.kpa 64).1 0 attB.vpa 64) = true) ∧
    (let s := { attFirst with bad := [(0x1000_0000_8008 / 8, true)] }
     readsOk (pageRead s 0 attB.kpa 64) = true ∧ readsOk (pageRead (pageRead s 0 attB.kpa 64).1 0 attB.vpa 64) = false) ∧
    (let s := { sAt [attAway] [] none with lost := [(1, true)] }
     readsOk (pageRead s 0 attAway.kpa 64) = false) ∧
    (let a := { attnOp [attAway] [(1, tri)] none with chips := [(1, 1)] }
     ({ sMat with attns := [a] }).attns[0]? = some a ∧ a.part / 16 ≠ 1 ∧ blockChip a attAway.block = some 1) ∧
    (∀ acc ∈ [none, some tri], (sAt [] [(1, tri)] acc).attns[0]? = some (attnOp [] [(1, tri)] acc) ∧
      (sAt [] [] acc).attns[0]? = some (attnOp [] [] acc)) := by decide +kernel

/-- One request of warp 1 of core 0, slot 3, at service warp 5: ADD of 9; its engine takes requests or has stopped. -/
def areq : AswReq := ⟨0, 3, 1, 0x1000_0000_0040, false, .atom .add [(.lane 5 0, intVal 9, nilVal)], none, false⟩
def sAsw (h : Bool) : State :=
  updCore (setAsw (one []) 5 { Asw.none with queue := [areq], halted := h }) 0 (fun c => { c with reqs := [(3, some (ask [(.lane 5 0, none)] true))] })
/-- Chip 1 admits partition 0 of chip 0 to its partition 2's region 1. -/
def sPeer : State :=
  updPart State.reset 18 (fun p => { p with valid := true, grants := [1], fat := [(0, 16)] })
def peerPa : Nat := 2 ^ 46 + 0x20_0000
def peerOk (n : Nat) : Bool :=
  (wordsOf peerPa n).all (fun k => peerAdmits sPeer 0 (k * 8) false && homeAnswers sPeer 1 (k * 8) && !codePage sPeer (k * 8))

theorem witness_ServiceWarpsAndLinks :
    (∀ h ∈ [true, false], (aswOf (sAsw h) 5).queue = [areq] ∧ (aswRefill (aswOf (sAsw h) 5)).queue = [areq] ∧ (aswOf (sAsw h) 5).halted = h) ∧ areq.slot ≠ 0 ∧ areq.acq = none ∧
    (aswOf (sAsw false) 6).queue = [] ∧ (([areq].zip ([] ++ List.replicate 1 false)) = [(areq, false)]) ∧
    (spGet none (coreOf (sAsw true) 0).reqs 3 = some (ask [(.lane 5 0, none)] true)) ∧
    spGet none (coreOf (sAsw true) 0).reqs 4 = none ∧
    (let r := { areq with slot := 4, op := .signal .add 1 }
     let s := setAsw (sAsw true) 5 { aswOf (sAsw true) 5 with waiting := [r] }
     (aswOf s 5).halted = true ∧ r ∈ (aswOf s 5).waiting ∧ r.slot ≠ areq.slot) ∧
    (paChip peerPa = 1 ∧ peerPa < 2 ^ 52 ∧ peerOk 8 = true ∧ peerOk 16 = true) ∧ peerAdmits sPeer 3 peerPa false = false ∧
    (let s := { State.reset with routes := [(64 + 0, [3])] }
     (3 : Nat) ∈ spGet [] s.routes (64 + 0)) := by decide +kernel

/-- R222, R255, R366: ADD writes 9; a restart without the request answers POISON 0x0040; a peer's word is read, another's refused. -/
theorem test_service_values :
    (spGet none (coreOf (next (.aswRequest 5) (sAsw false)) 0).reqs 3).map (·.outs) = some [(.lane 5 0, some (intVal 0))] ∧
    memByte (next (.aswRequest 5) (sAsw false)) 0x1000_0000_0040 = 9 ∧
    (spGet none (coreOf (next (.aswRestart 5 [false]) (sAsw true)) 0).reqs 3).map (·.outs) = some [(.lane 5 0, some (poisonVal 0x40))] ∧
    (next (.fabricRequest 0 1 0 peerPa false (.read 2)) sPeer).answers = [.data [0, 0]] ∧
    (next (.fabricRequest 0 1 3 peerPa false (.read 2)) sPeer).answers = [.value (poisonVal 0x21)] := by decide +kernel

/-- Line 0x3000 was last released by core 4; link 3 leads to chip 1; core 0 holds a key of a KVSD that has asked chip 0; slot 3 has drained. -/
def sErr : State :=
  let s := { State.reset with releaser := [(0x3000, 5)], routes := [(0 * 64 + 1, [3])], kvsds := [⟨1, 1, 0, 70, 2, [70], [0], [0, 1]⟩, ⟨2, 1, 0, 90, 1, [90], [0], [0]⟩] }
  updPart (updCore s 0 (fun c => { c with ktb := [(70, 1)] })) 0 (fun p =>
    { p with slots := [(3, { KvSlot.none with live := true, draining := true }), (4, { KvSlot.none with live := true, draining := true })],
             kv := [(4 * 2 ^ 30, ⟨some 1, none, false⟩)] })

/-- The first byte of word 0x30_0000 is dirty in core 0's L1 and in the L2. -/
def sDirt2 : State :=
  let w : CWord := { CWord.none with valid := 0xFF, dirty := 1 }
  setL2 (setL1 (one []) 0 (0x30_0000 / 8) w) (0x30_0000 / 8) w

theorem witness_ErrorsAndShootdowns :
    (∀ k ∈ [SoftKind.register, .scratchpad, .accumulator, .bench, .l1, .l2, .vault, .lpddr, .link, .residue, .asw, .returnSlot, .queue, .grid,
      .graphCount, .slotCounter], k ∉ [SoftKind.instrBuffer, .network, .bridge]) ∧
    (∃ k ∈ sectorWords (0x30_0000 / 8), (l1Of sDirt2 0 k).dirty ≠ 0) ∧ (∃ k ∈ lineWords (0x30_0000 / 8 / 32), (l2Of sDirt2 k).dirty ≠ 0) ∧
    (sKs (some ([0], some .kvmiss))).ksels[0]? = some (kselOp (some ([0], some .kvmiss))) ∧ attFirst.attns[0]? = some (attnOp [attB] [] none) ∧
    ((aswOf (sAsw true) 5).queue[0]? = some areq ∧ areq.op = .atom .add [(.lane 5 0, intVal 9, nilVal)] ∧ areq.slot ≠ 0 ∧
      (spGet none (coreOf (sAsw true) areq.core).reqs areq.slot).any (fun x => decide (x.outs.length ≤ 64)) = true) ∧
    ((gridOf sPkg 1).live = true ∧ (gridOf sPkg 1).node = none ∧ (teamOf sPkg 1).live = true ∧ (teamOf sPkg 1).grid = 1) ∧
    (graphOf (setGraph State.reset 1 { Graph.none with live := true }) 1).live = true ∧
    (0x30_0000 / 8 ∈ sectorWords (0x30_0000 / 64 * 8) ∧ inL2 sDirt2 (0x30_0000 / 8 * 8) = true ∧
      served sDirt2 (l1Part sDirt2 0) (0x30_0000 / 8) (l1Of sDirt2 0 (0x30_0000 / 8)).tagDirty = true ∧
      (l1Of sDirt2 0 (0x30_0000 / 8)).dirty.getLsbD 0 = true) ∧
    (teamOf sMat 1).warps = [1] ∧ regionOf State.reset 0x1000_0000_0040 = .vault 0 ∧
    spGet 0 sErr.releaser 0x3000 = 4 + 1 ∧ spGet 0 sErr.releaser 0x3001 ≠ 4 + 1 ∧
    (let o : KvsdOp := ⟨1, 1, 0, 70, 2, [70], [0], [0, 1]⟩
     sErr.kvsds.find? (fun o => decide (o.id = 1)) = some o ∧ (1 : Nat) ∈ o.owed ∧ (1 : Nat) ∉ o.asked ∧ (0 : Nat) ∈ o.asked ∧
      kvsdReaches sErr o 1 = true ∧ kvsdReaches sErr o 0 = true ∧ o.owed.filter (fun c => decide (c ≠ 0)) ≠ []) ∧
    (let o : KvsdOp := ⟨2, 1, 0, 90, 1, [90], [0], [0]⟩
     sErr.kvsds.find? (fun o => decide (o.id = 2)) = some o ∧ (0 : Nat) ∈ o.owed ∧ (0 : Nat) ∈ o.asked ∧ kvsdReaches sErr o 0 = true ∧
      o.owed.filter (fun c => decide (c ≠ 0)) = [] ∧ o.keys.Nodup) ∧
    (warpOf (waits (.kvsd 2)) 1).wait = .kvsd 2 ∧
    (∀ q ∈ [3, 4], (slotOf sErr 0 q).draining = true ∧ (slotOf sErr 0 q).told = false ∧ (slotOf sErr 0 q).cnt0 = 0 ∧ (slotOf sErr 0 q).cnt1 = 0) ∧
    seqMapped sErr 0 3 = false ∧ seqMapped sErr 0 4 = true := by decide +kernel

/-- R302, R342, R371: the releaser field clears; the slot of an unmapped sequence ends, a mapped one is told. -/
theorem test_error_values :
    (next (.racqPromote 4 0x3000 .core) sErr).releaser = [] ∧ slotOf (next (.slotDrained 0 3) sErr) 0 3 = KvSlot.none ∧
    (slotOf (next (.slotDrained 0 4) sErr) 0 4).told = true ∧ (next (.ktbAcknowledgment 0 2) sErr).kvsds.length = 1 ∧
    spGet 0 (next (.softError .register 0 0 0 5 false) sErr).errseq 0 = 1 ∧ isTagged (next (.markRegionTagged 0x30_0000) sErr) 0x20_0000 = true := by decide +kernel

/-- A staged record for partition 1 of chip 0 with cluster g and 4 queues from 0; partition 0 has cluster 0. -/
def sRec (g : Nat) : State :=
  let s := updPart { State.reset with boot := ⟨0, 5, true⟩ } 0 (fun p => { p with valid := true, words := [(0, 1), (5, 2 ^ 36)] })
  updPart s 1 (fun p => { p with staged := [(0, wd (2 ^ g)), (2, 4 * 2 ^ 17)] })
def recFine (s : State) (v : Word) : Bool × Bool :=
  let s0 := updPart s 1 (fun x => { x with staged := spSet 0 x.staged 5 (recordFields 5 v) })
  let y := { stagedPart (partOf s0 1) with grants := memRegions s0 (stagedPart (partOf s0 1)) }
  (decide (bitAt v 37 = false ∧ bitAt v 36 = true ∧ (partOf s 1).valid = false), recordAccepted s0 1 y)
/-- Partition 0 has told its cores to drop their buffers; warp 1 waits for the host's answer on I/O page 5, which partition 0 knows. -/
def sTb : State := updPart (one []) 0 (fun p => { p with valid := true, tbbusy := true, iommu := [(5, some 9)], words := [(5, 2 ^ 32 * 3)] })

/-- Partition 0 has cluster 0, and a run is under way on core 0. -/
def sRgn : State := updPart (one []) 0 (fun p => { p with valid := true, words := [(0, 1)] })

theorem witness_PartitionsAreKept :
    ((partOf sTb 0).tbbusy = true ∧ partBusy sTb 0 = false ∧ (teamOf sTb 1).live = true ∧ (teamOf sTb 1).part = 0) ∧
    ((partOf (one []) 0).tbbusy = false ∧ (partOf (one []) 0).own.tbbusy = false) ∧
    (let s := updPart sTb 0 (fun p => { p with own := { p.own with tbbusy := true } })
     ownBusy s 0 = false ∧ (partOf s 0).own.tbbusy = true) ∧
    accepts (sRec 0) 0 = true ∧ accepts State.reset 0 = false ∧ accepts State.reset 1 = true ∧
    (warpOf (waits (.fetchPri 0x5000 7)) 1).wait = .fetchPri 0x5000 7 ∧
    ((∀ e ∈ sRgn.teams, e.2.live = true → e.2.part = 0 → e.2.core ∈ coresOf sRgn 0) ∧ 400 ∉ coresOf sRgn 0 ∧ recordQueue sRgn 0 5 = false ∧
      partLine sRgn 0 0x400_0000 = false) ∧
    (bitAt (wd (2 ^ 35)) 37 = false ∧ bitAt (wd (2 ^ 35)) 36 = false) ∧
    recFine (sRec 1) (wd (2 ^ 36)) = (true, true) ∧ recFine (sRec 0) (wd (2 ^ 36)) = (true, false) ∧
    (warpOf (waits (.pri 0x5000 7)) 1).wait = .pri 0x5000 7 ∧ (0x5000 : Nat) / 4096 = 0x5008 / 4096 ∧
    spGet none (partOf sTb 0).iommu 6 = none ∧ spGet none (partOf sTb 0).iommu 5 = some 9 ∧
    vfPart sTb 3 = some 0 ∧ vfPart sTb 2 = none ∧
    (0 ∈ coresOf sRgn 0 ∧ ∃ r ∈ (coreOf sRgn 0).runs, r.2.active = true) ∧ 1 ∈ coresOf sRgn 0 ∧ ∀ r ∈ (coreOf sRgn 1).runs, r.2.active = false := by
  decide +kernel

/-- R337, R341: the record with a free cluster is valid afterwards, the one that overlaps is not. -/
theorem test_partition_values :
    (partOf (next (.partitionRecordWrite 0 1 5 (wd (2 ^ 36))) (sRec 1)) 1).valid = true ∧
    (partOf (next (.partitionRecordWrite 0 1 5 (wd (2 ^ 36))) (sRec 0)) 1).valid = false ∧ (partOf (next (.tbgo 0) sTb) 0).tbbusy = false := by
  decide +kernel

/-- Partition 0 with cluster 0; grid 1 has one team of one warp of 16 lanes with 16 registers to place; team 1's warp has ended. -/
def sPl : State :=
  let s := updPart sPkg 0 (fun p => { p with words := [(0, 1), (2, 2 ^ 17)] })
  updWarp (setGrid s 1 { Grid.none with live := true, words := recWs, warpsLeft := 1 }) 1 (fun w => { w with live := false })
/-- A team that is to stop, with its warp stopped in a SLEEP at 0x1000. -/
def sStop : State := updTeam (updWarp (one []) 1 (fun w => { setLpc w [0] 0x1008 with stopped := true, wait := .sleep 9 0x1000 [0] })) 1 (fun t => { t with stopping := true })

/-- A collector warp of priority 3 starts on core 0 at 0x1000. -/
def sColl (s : State) : State := next (.registerWrite 0 (.collector 0 3) 0x1000) s

theorem witness_TeamsComeAndGo :
    (corePart sPl 0 = some 0 ∧ isService 0 = false ∧ (partOf sPl 0).valid = true ∧ (collectorsOn sPl 0).length < 2 ∧
      partSlots sPl 0 (firstPart sPl 0) < 6 ∧ corePart (sColl (sColl sPl)) 0 = some 0 ∧ 2 ≤ (collectorsOn (sColl (sColl sPl)) 0).length) ∧
    (wantsPlace (gridOf sPl 1) = true ∧ sPl.grids.length = 1 ∧ pickCore sPl 0 recWs = some 0 ∧ freeBase sPl 0 (recScratch recWs) = some 0) ∧
    ((warpOf sPkg 1).live = true ∧ (teamOf sPkg 1).warps = [1]) ∧
    ((teamOf sPl 1).live = true ∧ (warpOf sPl 1).live = false ∧ teamBusy sPl 1 = false ∧ teamPending sPl 1 = false) ∧
    ((teamOf sPkg 1).live = true ∧ (teamOf sPkg 1).killed = false) ∧
    (teamRuns sStop (teamOf sStop 1) = true ∧ (teamOf sStop 1).stopping = true ∧ (teamOf sStop 1).warps = [1] ∧ (warpOf sStop 1).wait = .sleep 9 0x1000 [0] ∧ warpDrained sStop 1 = true ∧ dieBusy sStop 1 = false) := by
  decide +kernel

/-- R142, R188, R218, R319: the placed warp's lane 15 is ready at 0x1000, lane 16 does not exist; the released team is gone. -/
theorem test_team_values :
    (laneOf (warpOf (next (.teamPlace 1) sPl) 2) 15) = { Lane.none with act := .ready, lpc := 0x1000 } ∧
    laneOf (warpOf (next (.teamPlace 1) sPl) 2) 16 = Lane.none ∧ (teamOf (next (.teamPlace 1) sPl) 2).core = 0 ∧
    (teamOf (next (.teamRelease 1) sPl) 1).live = false ∧ (warpOf (next (.teamKill 1) sPkg) 1).live = false ∧
    (teamOf (next (.teamStopped 1) sStop) 1).stopped = true ∧ (laneOf (warpOf (next (.teamStopped 1) sStop) 1) 0).lpc = 0x1000 ∧
    fld (warpOf (sColl sPl) 2).status 0 4 = 2 ∧ (warpOf (sColl sPl) 2).prio = 3 := by decide +kernel

/-- Queue 0's ring, at GiB 2, holds one record, ws in its first words; tables and ring lie in vault 0, GiB 1 is the host's, and no table
maps GiB 3. -/
def sQ (ws : List Word) : State :=
  let s := updQueue (updPart sPl 0 (fun p => { p with ptroot := 0x1000_0010_0000 })) 0 (fun q => { q with tail := 1, rbase := 0x8000_0000 })
  let s := poke (poke (poke s 0x1000_0010_0000 0x1000_0010_1003) 0x1000_0010_1010 0x1000_0000_0031) 0x1000_0010_1008 0x200_0000_4000_0031
  (ws.zip (List.range 16)).foldl (fun s e => poke s (0x1000_0000_0000 + 8 * e.2) e.1) s
/-- The record that queue 0's turn reads: its check, kind and whether it waits. -/
def recSeen (s : State) : Option (Nat × Nat × Bool) :=
  match dresserRead (l2DropSystem s) 0 (recordVa (queueOf s 0) 0) 16 with
  | .ok u vs => some (recCheck u 0 (clampPrio (vs.map (·.data)) 0), recKind (clampPrio (vs.map (·.data)) 0), recWait (clampPrio (vs.map (·.data)) 0))
  | _ => none
/-- The ring lies where no table maps it. -/
def sNoRing : State := updQueue (sQ []) 0 (fun q => { q with rbase := 0xC000_0000 })
/-- The ring lies in a page of the host, whose translation is owed. -/
def sOwed : State := updQueue (sQ []) 0 (fun q => { q with rbase := 0x4000_0000 })
def readIs (s : State) (k : Nat) : Bool :=
  match dresserRead (l2DropSystem s) 0 (recordVa (queueOf s 0) 0) 16 with
  | .fail => k == 0
  | .owed _ => k == 1
  | _ => false

/-- Queue 1 is partition 0's too; its ring, at r, holds one record. -/
def sTwoQ (r : Word) : State :=
  updQueue (updPart (sQ recWs) 0 (fun p => { p with words := [(0, 1), (2, 2 * 2 ^ 17)] })) 1 (fun _ =>
    { queueOf (sQ recWs) 0 with rbase := r })
/-- Queue 0's record is a graph's, with one node of kind k. -/
def sGraphRec (k : Word) : State := poke (sQ [3, 0x8000_1000, 1]) 0x1000_0000_1000 k
/-- The nodes' status, how many words they have and how many nodes lie in no loop. -/
def nodesSeen (s : State) : Option (Nat × Nat × Nat) :=
  match dresserRead (l2DropSystem s) 0 0x8000_1000 16 with
  | .ok u vs =>
    let nodes := chunk16 1 (vs.map (·.data))
    some (((nodes.map (nodeCheck u 0 1)).find? (fun c => decide (c ≠ 0))).getD 0, vs.length, (outerNodes { Graph.none with nodes := nodes }).length)
  | _ => none

theorem witness_QueuesAndRecords :
    accepts State.reset (0 / 131072) = false ∧ accepts { sPl with boot := ⟨0, 5, true⟩ } (0 / 131072) = true ∧
    queuePart (sQ recWs) 0 = some 0 ∧ hasRecord (queueOf (sQ recWs) 0) = true ∧ takesNext (l2DropSystem (sQ recWs)) 0 0 = true ∧
    (queuePart sPl 0 = some 0 ∧ hasRecord (queueOf sPl 0) = false) ∧
    (∀ s ∈ [sTwoQ 0x8000_0000, sTwoQ 0xC000_0000], queuePart s 1 = some 0 ∧ hasRecord (queueOf s 1) = true) ∧
    takesNext (l2DropSystem (sTwoQ 0x8000_0000)) 0 1 = false ∧
    takesNext (l2DropSystem (updQueue (sTwoQ 0xC000_0000) 0 (fun q => { q with rbase := 0xC000_0000 }))) 0 1 = false ∧
    recSeen (sQ [2]) = some (0, 2, false) ∧ recSeen (sGraphRec 2) = some (0, 3, false) ∧
    nodesSeen (sGraphRec 2) = some (0, 16, 1) ∧ nodesSeen (sGraphRec 3) = some (2, 16, 1) ∧
    (recordOwed (l2DropSystem (sQ [3, 0x4000_0000, 1])) 0 [3, 0x4000_0000, 1] ≠ [] ∧ recordOwed (l2DropSystem (sQ recWs)) 0 recWs = []) := by
  decide +kernel

theorem witness_QueuesAndRecords_others :
    recSeen (sQ recWs) = some (0, 0, false) ∧ recSeen (sQ [1]) = some (0, 1, false) ∧ recSeen (sQ [0x8000_0000]) = some (2, 0, false) ∧
    (recSeen (sQ (0x0800_0000 :: recWs.tail))) = some (0, 0, true) ∧
    (takesNext sNoRing 0 0 = true ∧ readIs sNoRing 0 = true) ∧ readIs sOwed 1 = true ∧
    (2 ^ (queueOf sPl 0).rlog < ((5 : BitVec 32) - (queueOf sPl 0).head).toNat ∧ 2 ^ (queueOf sPl 0).clog < ((queueOf sPl 0).ctail - 1).toNat ∧
      ((queueOf sPl 0).ctail - 0).toNat ≤ 2 ^ (queueOf sPl 0).clog) := by decide +kernel

/-- R311, R314, R316, R317, R380: the grid record starts grid 2; a reserved bit ends with STATUS 2; a signal-only record and a graph; TAIL
beyond the ring sets ERR bit 0 once the device is ready. -/
theorem test_record_values :
    (queueOf (next (.takeRecord 0) (sQ [2])) 0).head = 1 ∧
    (gridOf (startRecord (updPart (sQ []) 0 (fun p => { p with ptroot := 0 })) 0 0 0 recWs) 2).words = recWs ∧
    (queueOf (next (.takeRecord 0) (sQ [0x8000_0000])) 0).held.map (fun c => (c.kind, c.status)) = [(3, 2)] ∧
    (queueOf (next (.takeRecord 0) sNoRing) 0).stopped = true ∧ (queueOf (next (.queueTailWrite 0 5) { sPl with boot := ⟨0, 5, true⟩ }) 0).err = 1 ∧
    (queueOf (next (.takeRecord 0) (sQ [2])) 0).held.map (fun c => (c.kind, c.status)) = [(0, 0)] ∧
    (graphOf (next (.takeRecord 0) (sGraphRec 2)) 1).running = [0] := by decide +kernel

/-- A held-back grid record of queue 0 that waits for the word at 0x8000_0008 to equal b. -/
def waitRec (b : Word) : List Word := [0x0800_0000, 0x1000, 0x1_0001_0001, wd (1 + 16 * 2 ^ 8), 0, 0, 0, 0x8000_0100, b, 0, 0, 0, 0, 0, 0, 0]
def sHeld (b : Word) : State := updQueue (sQ []) 0 (fun q => { q with head := 1, waiting := some ⟨waitRec b, 0, 7⟩ })
def readyIs (s : State) (ws : List Word) (k : Nat) : Bool :=
  match recordReady (l2DropSystem s) 0 ws with
  | .yes _ => k == 1
  | .no => k == 0
  | _ => false
/-- A graph with an empty node 0, a loop node 1 over node 0 whose word lies at va, and a grid node 2 that has ended or runs. -/
def gNodes (va : Word) : List (List Word) := [[2], [1, 0, 0, 0, 0, 0, 0, 0, 0, va], [0]]
/-- A graph of a grid node 0, which has ended, whose one successor, the empty node 1, has one predecessor. -/
def sSucc : State :=
  let s := setGraph (sQ []) 1 { Graph.none with live := true, nodes := [[0x1_0000, 0, 0, 0, 0, 0, 0, 0, 0, 0, 0, 1], [0x102]], running := [0],
                                                counts := [(1, 1)] }
  setGrid s 1 { Grid.none with live := true, node := some (1, 0) }
/-- The record that queue 0 holds back, when no other record comes first: whether it is ready. -/
def heldNext (s : State) : Option Bool :=
  match recordReady (l2DropSystem s) 0 (waitRec 0) with
  | .yes u => some (takesNext u 0 0)
  | .fail => some (takesNext (l2DropSystem s) 0 0)
  | _ => none
/-- Queue 1, whose turn it is at priority 0, has a record ready too. -/
def sHeldTwo (b : Word) : State :=
  updQueue (updPart (sHeld b) 0 (fun p => { p with words := [(0, 1), (2, 2 * 2 ^ 17)], nextq := [(0, 1)] })) 1 (fun _ =>
    { queueOf (sQ []) 0 with rbase := 0x8000_0000 })
def sGr (va : Word) (left : Nat) : State :=
  let s := setGraph (sQ []) 1 { Graph.none with live := true, nodes := gNodes va, running := [0, 1, 2], done := [0] }
  setGrid s 1 { Grid.none with live := true, node := some (1, 2), warpsLeft := left }
/-- The same record watches a word that no table maps. -/
def noWord (s : State) : State :=
  updQueue s 0 (fun q => { q with waiting := some ⟨(waitRec 0).set 7 0xC000_0000, 0, 7⟩ })
def failNext (s : State) : Option Bool :=
  match recordReady (l2DropSystem s) 0 ((waitRec 0).set 7 0xC000_0000) with
  | .fail => some (takesNext (l2DropSystem s) 0 0)
  | _ => none
def valIs (s : State) (va k : Nat) : Bool :=
  match dresserVal s 0 va with
  | .ok _ v => k == if v = 0 then 0 else 1
  | .fail => k == 2
  | _ => false
/-- Queue 0 holds a record whose ring at GiB 2 has room, or none. -/
def comp : Compl := ⟨0, 1, 0, 0, 0x77, none, none⟩
def sComp (room : Bool) : State :=
  updQueue (sQ []) 0 (fun q => { q with held := [comp], cbase := 0x8000_0200, ctail := if room then 3 else 4, vec := if room then 0xFFFF else 2 })
/-- Warp 1 has issued nothing since cycle 0, and its partition's WDP is 1. -/
def sDog (cyc : Nat) : State :=
  updCore (updPart (one []) 0 (fun p => { p with valid := true, words := [(5, 1)] })) 0 (fun c => { c with cyc := cyc })

theorem witness_GraphsAndCompletions :
    (∀ s ∈ [sHeld 0, sHeldTwo 0], queuePart s 0 = some 0 ∧ (queueOf s 0).waiting = some ⟨waitRec 0, 0, 7⟩ ∧ s.graphs.length = 0) ∧
    ((queueOf (sHeld 1) 0).waiting = some ⟨waitRec 1, 0, 7⟩ ∧ recKind (waitRec 0) = 0 ∧ recKind (waitRec 1) = 0) ∧
    heldNext (sHeld 0) = some true ∧ heldNext (sHeldTwo 0) = some false ∧ failNext (noWord (sHeld 0)) = some true ∧
    (let s := sSucc
     let x := graphOf s 1
     0 ∈ x.running ∧ recKind (nodeOf x 0) = 0 ∧ ((s.grids.find? (fun e => decide (e.2.node = some (1, 0)))).map (·.1)) = some 1 ∧
     (gridOf s 1).warpsLeft = 0 ∧ gridBusy s 1 = false ∧ x.live = true ∧ nodeSig (nodeOf x 0) = none ∧ x.nodes.all (fun n => decide (recKind n ≠ 1)) = true ∧
     1 ∈ outerNodes x ∧ 1 ∉ x.done ∧ (nodeSuccs (nodeOf x 0)).count 1 = 1 ∧ spGet 0 x.counts 1 = 1) ∧
    readyIs (sHeld 0) (waitRec 0) 1 = true ∧ readyIs (sHeld 1) (waitRec 1) 0 = true ∧
    ((3 : Nat) ∉ (graphOf (sGr 0x8000_0100 0) 1).running ∧ (0 : Nat) ∈ (graphOf (sGr 0x8000_0100 0) 1).running ∧
      (graphOf (sGr 0x8000_0100 0) 1).live = true ∧ recKind (nodeOf (graphOf (sGr 0x8000_0100 0) 1) 0) = 2) ∧
    (recKind (nodeOf (graphOf (sGr 0 1) 1) 2) = 0 ∧ (((sGr 0 1).grids.find? (fun e => decide (e.2.node = some (1, 2)))).map (·.1)) = some 1 ∧
      (gridOf (sGr 0 1) 1).warpsLeft ≠ 0) ∧
    (recKind (nodeOf (graphOf (sGr 0x8000_0100 0) 1) 1) = 1 ∧ loopLast (nodeOf (graphOf (sGr 0x8000_0100 0) 1) 1) ∈ (graphOf (sGr 0x8000_0100 0) 1).done ∧
      recWord (nodeOf (graphOf (sGr 0x8000_0100 0) 1) 1) 9 = 0x8000_0100) ∧
    valIs (sGr 0x8000_0100 0) 0x8000_0100 0 = true ∧ valIs (sGr 0x8010_1010 0) 0x8010_1010 1 = true ∧ valIs (sGr 0xC000_0000 0) 0xC000_0000 2 = true := by decide +kernel

theorem witness_Completions :
    (∀ r ∈ [true, false], queuePart (sComp r) 0 = some 0 ∧ (queueOf (sComp r) 0).held = [comp] ∧ (queueOf (sComp r) 0).holdCompl = false ∧
      gridBusy (sComp r) 1 = false ∧ decide (2 ^ (queueOf (sComp r) 0).clog ≤ ((queueOf (sComp r) 0).ctail - (queueOf (sComp r) 0).chead).toNat) = !r) ∧
    (match dresserTrans (sComp true) 0 ((queueOf (sComp true) 0).cbase.toNat + 32 * ((queueOf (sComp true) 0).ctail.toNat % 4)) .w with
     | some (.ok (pa, l)) => decide (pa % 32 = 0 ∧ isMmio (priTaken (sComp true) 0) pa = false ∧ served (priTaken (sComp true) 0) 0 (pa / 8) l.t = true)
     | _ => false) = true ∧
    (∀ c ∈ [0xFFFF, 0x1_0000], (warpOf (sDog c) 1).reported = false ∧ (warpOf (sDog c) 1).live = true ∧ watchExempt (warpOf (sDog c) 1) = false ∧
      fld (spGet 0 (partOf (sDog c) 0).words 5) 0 32 = 1 ∧ (warpOf (sDog c) 1).lastIssue = 0 ∧ (coreOf (sDog c) 0).cyc = c) := by decide +kernel

/-- R316, R317, R322, R335: the record that may start does; node 0 completes; CTAIL advances, or ERR bit 1 says that the ring is full; the
watchdog's period of 65,536 cycles. -/
theorem test_dresser_values :
    (queueOf (next (.recordWaitSatisfied 0) (sHeld 0)) 0).waiting = none ∧ (queueOf (next (.recordWaitSatisfied 0) (sHeld 1)) 0).waiting = some ⟨waitRec 1, 0, 7⟩ ∧
    (queueOf (next (.completionRecordWrite 0) (sComp true)) 0).ctail = 4 ∧ (queueOf (next (.completionRecordWrite 0) (sComp false)) 0).err = 2 ∧
    memByte (next (.completionRecordWrite 0) (sComp true)) 0x1000_0000_0260 = 0 ∧
    (let x := graphOf (next (.graphNodeComplete 1 0) sSucc) 1
     x.done = [0] ∧ x.running = [1] ∧ spGet 0 x.counts 1 = 0) ∧
    (warpOf (next (.watchdogReport 1) (sDog 0xFFFF)) 1).reported = false ∧ (warpOf (next (.watchdogReport 1) (sDog 0x1_0000)) 1).reported = true := by
  decide +kernel

/-- The device is ready; VF 0 is partition 0's, which holds regions 1 and 2 and four queues from 8; window 0 of VF 0 has two slots of 128
bytes at 0x40_0000. -/
def sHost : State :=
  let s := { State.reset with boot := ⟨0, 5, true⟩ }
  let s := updPart s 0 (fun p => { p with valid := true, grants := [1, 2], words := [(2, 4 * 2 ^ 17 + 8), (5, 2 ^ 36)] })
  setWin s 0 { Win.none with slotbase := 0x40_0000, slog := 1, fsize := 128, stg := 1, arraddr := 0x20_0000, consaddr := 0x20_0008 }
def sOpen : State := setWin sHost 0 { winOf sHost 0 with en := true }
/-- A whole frame with sequence number 1 is in slot 1. -/
def sFrame : State :=
  setWin sOpen 0 { winOf sOpen 0 with
    stage := [(1, some ⟨(List.range 128).map (fun i => (i, some (if i = 0 then 1 else 0))), 128, false⟩)] }

/-- The frame of slot n of window 0 has `count` bytes, among them 0 to 6 of its sequence number q. -/
def sPart (q : Byte) (n count : Nat) (full : Bool) : State :=
  setWin sOpen 0 { winOf sOpen 0 with
    stage := [(n, some ⟨(List.range 7).map (fun i => (i, some (if i = 0 then q else 0))), count, full⟩)] }
/-- Why byte 7 of its sequence number has that frame dropped: the ERR bit, or 4 when it is kept. -/
def partFate (q : Byte) (n count : Nat) (full : Bool) : Nat :=
  let w := winOf (sPart q n count full) 0
  let g := stageOf w n
  let g1 : Stage := { bytes := spSet none g.bytes 7 (some 0), count := g.count + 1,
                      full := g.full || decide (w.stg * 2 ^ 21 < staged w + 1) }
  match stageSeq g1 with
  | some k =>
    if k ≤ w.arr.toNat ∨ w.arr.toNat + winSlots w < k then 0 else if k % winSlots w ≠ n then 1 else if g1.full then 2
    else if w.fsize < g1.count then 3 else 4
  | none => 5

theorem witness_OutsideRequestsAndStreams :
    (State.reset.vfsUp = false ∧ ({ State.reset with vfsUp := true }).vfsUp = true) ∧
    [partFate 0 0 7 false, partFate 1 0 7 false, partFate 1 1 7 true, partFate 1 1 128 false, partFate 1 1 7 false] = [0, 1, 2, 3, 4] ∧
    (let w := winOf sOpen 0
     let g := stageOf w 0
     stageSeq { bytes := spSet none g.bytes 0 (some 1), count := g.count + 1, full := g.full || decide (w.stg * 2 ^ 21 < staged w + 1) } = none) ∧
    (let w := winOf sFrame 0
     let a0 := slotAt w ((w.arr.toNat + 1) % winSlots w)
     homeAnswers sFrame 0 w.consaddr.toNat = true ∧ a0 % 64 = 0 ∧ w.fsize % 64 = 0 ∧ w.arraddr.toNat % 8 = 0 ∧
     (w.arraddr.toNat / 8 :: wordsOf a0 w.fsize).all (fun j => !codePage sFrame (8 * j) && homeAnswers sFrame (paChip (8 * j)) (8 * j)) = true ∧
     w.arraddr.toNat / 8 ∉ wordsOf a0 w.fsize) ∧
    State.reset.boot.ready = false ∧
    (sHost.boot.ready = true ∧ vfInReset sHost 0 = false ∧ vfPart sHost 0 = some 0 ∧ bar0Queue sHost 0 (64 + 16) = some 9 ∧ (64 + 16) % 64 = 16) ∧
    (bar4At sHost 0 8 = some 0x20_0008 ∧ slotOfAddr sHost 0 (paLocal 0x20_0008) = none ∧ homeAnswers sHost 0 0x20_0008 = true ∧
      agentRead sHost 0x20_0008 1 = some [0] ∧ codePage sHost 0x20_0008 = false) ∧
    (let u := runsCode sHost 0x200
     u.boot.ready = true ∧ vfInReset u 0 = false ∧ vfPart u 0 = some 0 ∧ bar4At u 0 8 = some 0x20_0008 ∧
      homeAnswers u 0 0x20_0008 = true ∧ codePage u 0x20_0008 = true) ∧
    (bar4At sHost 0 0x20_0081 = some 0x40_0081 ∧ slotOfAddr sHost 0 (paLocal 0x40_0081) = some (0, 1, 1)) ∧
    ((winOf sOpen 0).en = true ∧ (winOf sHost 0).en = false ∧ winOk sHost 0 { winOf sHost 0 with slotbase := wd (fld 0x40_0001 12 34 * 4096) } = true ∧
      winOk sHost 0 { winOf sHost 0 with slotbase := wd (fld 0x60_0001 12 34 * 4096) } = false ∧ bitAt (0x40_0001 : Word) 0 = true) ∧
    ((1 : Nat) < winSlots (winOf sHost 0) ∧ 127 < (winOf sHost 0).fsize) ∧
    (let w := winOf sFrame 0
     w.en = true ∧ (stageOf w ((w.arr.toNat + 1) % winSlots w)).count = w.fsize ∧ stageSeq (stageOf w ((w.arr.toNat + 1) % winSlots w)) = some (w.arr.toNat + 1) ∧
     (consumerRead sFrame 0 w).2.bad = false ∧ w.arr.toNat + 1 ≤ (consumerRead sFrame 0 w).2.data.toNat + winSlots w) ∧
    (5 : Word).toNat > (winOf sHost 0).arr.toNat ∧ (0 : Word).toNat ≤ (winOf sHost 0).arr.toNat := by decide +kernel

/-- R358, R362, R364: a doorbell of VF 0; the window opens, publishes frame 1 and skips to 5. -/
theorem test_host_values :
    (queueOf (next (.inboundPcieWrite ⟨some 0, 0, 64 + 16, [3, 0, 0, 0, 0, 0, 0, 0]⟩) sHost) 9).tail = 3 ∧
    (winOf (next (.streamWindowEnable 0 0 0x40_0001) sHost) 0).en = true ∧ (winOf (next (.streamPublish 0 0) sFrame) 0).arr = 1 ∧
    (homePeek (next (.streamPublish 0 0) sFrame) (0x40_0080 / 8)).data = 1 ∧ (homePeek (next (.streamPublish 0 0) sFrame) (0x20_0000 / 8)).data = 1 ∧
    (winOf (next (.streamFrameWrite 0 0 0 7 [0]) (sPart 1 0 7 false)) 0).err = 2 ∧
    (winOf (next (.streamSkip 0 0 5) sFrame) 0).arr = 5 ∧ (next (.inboundPcieRead none 0 0 8) sHost).answers = [.data [1, 0, 5, 0, 0, 0, 0, 0]] := by
  decide +kernel

/-- A boot that finds signed images of version v, and whether persistent errors fail it. -/
def bootImg (v : Nat) : Image := ⟨v, [], ecdsaSign 1 (sha384 [])⟩
def bootIn (p : Bool) (v : Nat) : BootIn := ⟨false, false, false, [], [], p, false, Config.vendorKey, List.replicate 4 (bootImg v)⟩
def sDbg (f : Dbg → Dbg) : State := { State.reset with dbg := f State.reset.dbg, fuses := [(2, 7)] }

/-- Stage n of that boot is under way. -/
def sBoot (p : Bool) (v n : Nat) : State :=
  { sDbg id with agenda := [.boot], bootRun := some (bootIn p v), boot := ⟨0, BitVec.ofNat 8 n, false⟩ }

/-- The first stage that fails, of a boot that fails in no unit, with images that are signed or not. -/
theorem bootFail_bootIn (p : Bool) (v : Nat) (s : State) : bootFail s (bootIn p v) =
    if (List.range 4).any (fun k => decide (v < spGet 0 s.fuses k)) then some (2, 0x22) else if p then some (3, 0x31) else none := by
  have e : ∀ k ∈ List.range 4, imageOf (bootIn p v) k = bootImg v := by
    intro k m
    simp only [List.mem_range] at m
    have : k = 0 ∨ k = 1 ∨ k = 2 ∨ k = 3 := by omega
    rcases this with rfl | rfl | rfl | rfl <;> rfl
  have g : (List.range 4).any (fun k => !imageSigned (bootIn p v) k) = false := by
    rw [List.any_eq_false]
    intro k m
    simp only [imageSigned, e k m]
    simp [bootImg, bootIn, verifies]
  have f : (List.range 4).any (fun k => decide ((imageOf (bootIn p v) k).version < spGet 0 s.fuses k)) =
      (List.range 4).any (fun k => decide (v < spGet 0 s.fuses k)) := by
    have c : ∀ k ∈ List.range 4, (imageOf (bootIn p v) k).version = v := fun k m => by rw [e k m]; rfl
    rw [Bool.eq_iff_iff]
    simp only [List.any_eq_true, decide_eq_true_eq]
    exact ⟨fun ⟨k, m, q⟩ => ⟨k, m, by rwa [c k m] at q⟩, fun ⟨k, m, q⟩ => ⟨k, m, by rwa [c k m]⟩⟩
  simp only [bootFail, g, f]
  simp only [bootIn, Bool.false_eq_true, if_false]

theorem witness_BringUpAndDebug :
    bootFail (sDbg id) (bootIn false 7) = none ∧ bootFail (sDbg id) (bootIn false 6) = some (2, 0x22) ∧
    bootFail (sDbg id) (bootIn true 7) = some (3, 0x31) ∧
    sHost.boot.ready = true ∧ State.reset.boot.ready = false ∧ sHost.spdmExt = false ∧ ({ sHost with spdmExt := true }).spdmExt = true ∧
    ((sBoot false 7 4).agenda = [.boot] ∧ (sBoot false 7 4).bootRun = some (bootIn false 7) ∧ (sBoot false 7 4).boot = ⟨0, 4, false⟩) ∧
    accepts (sDbg id) 0 = false ∧ spGet 0 sHost.images 2 < (3 : Word).toNat ∧ (3 : Word).toNat ≤ spGet 0 ({ sHost with images := [(2, 3)] }).images 2 ∧
    (sDbg (fun d => { d with sts := 1 })).dbg.sts = 1 ∧ ((sDbg (fun d => { d with arg3 := 5 })).dbg.sts ≠ 1 ∧ (sDbg (fun d => { d with arg3 := 5 })).dbg.arg3 ≠ 0) ∧
    (let s := sDbg (fun d => { d with arg0 := 0x30_0010, arg2 := 8 })
     s.dbg.sts ≠ 1 ∧ s.dbg.arg0 = wd 0x30_0010 ∧ s.dbg.arg1 = 0 ∧ s.dbg.arg2 = 8 ∧ s.dbg.arg3 = 0 ∧ regionOf s 0x30_0010 = .lpddr ∧
     (homePeek s (0x30_0010 / 8)).bad = false) ∧ (0x30_0000 : Nat) < 2 ^ 52 := by
  refine ⟨?_, ?_, ?_, ?_⟩
  · rw [bootFail_bootIn]; decide +kernel
  · rw [bootFail_bootIn]; decide +kernel
  · rw [bootFail_bootIn]; decide +kernel
  · refine ⟨rfl, rfl, rfl, rfl, ⟨rfl, rfl, rfl⟩, rfl, ?_⟩
    decide +kernel

/-- R379: READY with STAGE 5 after stage 4; version 6 below its fuse count of 7 stops at stage 2. -/
theorem test_boot_values :
    (bootStep (sBoot false 7 4)).boot = ⟨0, 5, true⟩ ∧ (bootStep (sBoot false 6 2)).boot = ⟨0x22, 2, false⟩ ∧
    (bootStep (sBoot true 7 2)).boot = ⟨0, 3, false⟩ := by
  have a : bootFail (sBoot false 7 4) (bootIn false 7) = none := by rw [bootFail_bootIn]; decide +kernel
  have b : bootFail (sBoot false 6 2) (bootIn false 6) = some (2, 0x22) := by rw [bootFail_bootIn]; decide +kernel
  have c : bootFail (sBoot true 7 2) (bootIn true 7) = some (3, 0x31) := by rw [bootFail_bootIn]; decide +kernel
  have r : ∀ p v n, (sBoot p v n).bootRun = some (bootIn p v) := fun _ _ _ => rfl
  refine ⟨?_, ?_, ?_⟩
  · simp only [bootStep, r, a]; rfl
  · simp only [bootStep, r, b]; rfl
  · simp only [bootStep, r, c]; rfl

/-- Partition 1 of the chip asks about partition 0's team 1, queue 0, table, core 0 and error, and about memory that it does not own. -/
def sMail : State :=
  { sPl with boot := ⟨0, 5, true⟩, errlog := [(0, [⟨5, 0, 0, 0, 0, 0⟩])] }

theorem witness_MailboxRefusals :
    ((spKeys sMail.teams).find? (fun t => (teamOf sMail t).live && decide (coreChip (teamOf sMail t).core = 0) &&
      decide (locWord sMail t = locWord sMail 1)) = some 1 ∧ (teamOf sMail 1).part ≠ 1) ∧
    (readMem sMail 1 0x30_0000 0 8 ≠ .bad ∧ owns sMail 1 0x30_0000 = false) ∧
    tableOf sMail 0 0 ≠ none ∧ queuePart sMail 0 ≠ some 1 ∧
    (unitState sMail 0 0 0 0).isSome = true ∧ 0 ∉ coresOf sMail 1 ∧
    (spGet [] sMail.errlog 0).any (fun e => decide (e.part ≠ 1 % 16)) = true := by decide +kernel

/-- R386: READMEM of one word; a bad ARG3. -/
theorem test_bringup_values :
    (next .readmem (poke (sDbg (fun d => { d with arg0 := 0x30_0010, arg2 := 8 })) 0x30_0010 0x0102)).dbg.data = [2, 1, 0, 0, 0, 0, 0, 0] ∧
    (next .readmem (sDbg (fun d => { d with arg3 := 5 }))).dbg.sts = 4 := by decide +kernel

/-! ## Witnesses: steps, words -/

/-- MOVI of 5 to v2, and a MOVL of two words, where the next step fetches them. -/
def sFetch : State := placeWord State.reset 64 (wI 0x41 2 0 5)
def sLit : State := placeWord State.reset 128 (wordOf 0x43 (2 ^ 39 * 3 + 8 * 1) + 2 ^ 64 * 0x1234)
def sBadWord : State := placeWord State.reset 64 (wordOf 0x17 0)
def fetched (s : State) (pc : Word) : Option (Instr × Bool) :=
  match fetchInstr s 1 pc with
  | .ok i rx => some (i, rx)
  | _ => none

theorem witness_StepRunsTheFetchedInstruction :
    ({ State.reset with agenda := [.ev (.sleepExpiry 1), .issue 3] }).agenda = [.ev (.sleepExpiry 1), .issue 3] ∧
    (sFetch.agenda = [.issue (0 * 8 + 0)] ∧ (spGet Run.none (coreOf sFetch 0).runs 0).active = true ∧
      (spGet Run.none (coreOf sFetch 0).runs 0).warp = 1 ∧ issuePc (warpOf sFetch 1) = some 0x1000 ∧ canIssue (warpOf sFetch 1) = true ∧
      (warpOf sFetch 1).mchkNext = false ∧
      fetched { sFetch with agenda := [] } 0x1000 = some (.movi hd (.lane 2) 5, false)) ∧
    (fetchInstr { sBadWord with agenda := [] } 1 0x1000 = .fault .ill 0x1000 ∧ fetchWord sBadWord 1 0x1000 = .ok (wd (wordOf 0x17 0)) false ∧
      (decodeWords (wd (wordOf 0x17 0)) 0).toOption = none) ∧
    (fetchWord sFetch 1 0x1000 = .ok (wd (wI 0x41 2 0 5)) false ∧ hasLiteral (wd (wI 0x41 2 0 5)) = false) ∧
    (hasLiteral (wd (wordOf 0x43 (2 ^ 39 * 3 + 8 * 1))) = true ∧ fetchWord sLit 1 0x1008 = .ok 0x1234 false ∧
      fetched sLit 0x1000 = some (.movl hd .int (.lane 3) 0x1234, false)) ∧
    (0x1004 % 8 ≠ 0 ∧ 2 ^ 48 % 8 = 0) ∧
    translate sFetch 1 0x1000 .x = .ok placePa { pa := placePa, ext := false, rx := false, h := false, t := false, s := false, x := true, w := false, r := true } ∧
    ibufWord (coreOf sFetch 0) (placePa / 256) (teamOf sFetch 1).version (placePa / 8) = some (wd (wI 0x41 2 0 5)) := by decide +kernel

/-- One step from the state after reset with an instruction in place runs it. -/
theorem test_step_runs :
    (match step (State.reset.withFetchWord 64 (wI 0x41 2 0 5)) with
     | .next t => readReg (warpOf t 1) (.lane 2) 0
     | _ => nilVal) = intVal 5 := by decide +kernel

theorem witness_DecodeOfEncode :
    WellFormed (.add hd (binE .i8)) ∧ WellFormed (.movl hd .int (.lane 3) 0x1234) ∧
    WellFormed (.atom hd ⟨.lane 0, .lane 1, .lane 2, .lane 3, .system, .acqrel, false, .cas⟩) ∧ WellFormed (.mma ⟨true, 9, some 5⟩ 31 (.uni 1) (.uni 2)) := by
  decide +kernel

theorem witness_WordHasOneMeaning :
    (decodeWords (wd (wI 0x41 2 0 5)) 0).toOption = some (.movi hd (.lane 2) 5) ∧ fld (wd (wordOf 0x17 0)) 51 8 = 0x17 := by decide +kernel

theorem witness_StepKeepsMemoryCanonical :
    Memory.wf State.reset.mem ∧ Memory.wf sFetch.mem ∧ sFetch.mem ≠ [] ∧
    (match step sFetch with
     | .next _ => true
     | _ => false) = true := by decide +kernel

/-! ## Witnesses: POISON sources of MSET, a step that BNDGET waits for, unassigned opcodes, a region to tag -/

def sPm : State := one [(.lane 1, poisonVal 7), (.uni 1, poisonVal 9)]
/-- A step on accumulator tile 0 is queued. -/
def sPn : State := updCore sRd 0 (fun c => { c with matq := [⟨1, 0, .accz⟩] })

theorem witness_MaskPoison :
    (issues (.mset hd .nz 2 (.lane 1)) hd sPm = true ∧ (curIx (.mset hd .nz 2 (.lane 1)) hd sPm).exe = [0] ∧ (opnd sPm (.lane 1) 0 0).tag = .poison) ∧
    (issues (.mset hd .bits 2 (.uni 1)) hd sPm = true ∧ (opnd sPm (.uni 1) 0 (curIx (.mset hd .bits 2 (.uni 1)) hd sPm).low).tag = .poison) ∧
    (decodeWords (wd (wV 0x67 2 0x81 0 0 0 0 4 0)) 0).toOption = some (.mset hd .bits 2 (.uni 1)) ∧
    (decodeWords (wd (wV 0x68 2 3 0 0 0 0 4 0)) 0).toOption = some (.mops hd .not 2 3 0) ∧
    fld (wd (wV 0x67 2 0 0 0 0 0 5 0)) 3 4 = 5 ∧ fld (wd (wV 0x68 2 0 0 0 0 0 6 0)) 3 4 = 6 := by decide +kernel

theorem witness_BndgetWaits :
    issues (.bndget hd (.lane 0) 0) hd sPn = true ∧ accIll sPn 0 1 0 = false ∧ spGet false (teamOf sPn 1).accBad 0 = false ∧
    accPending sPn 0 1 0 = true := by decide +kernel

theorem witness_UnassignedOpcodesRaiseIll :
    (∀ op ∈ [0x17, 0x1D, 0x1F, 0x23, 0x27, 0x3C, 0x3F, 0x47, 0x50, 0x5F, 0x7C, 0x7F, 0x8F, 0x9D, 0x9F, 0xA4, 0xBF, 0xC3, 0xCF, 0xD4, 0xDF, 0xE7, 0xEC,
      0xEF, 0xF2, 0xFF], fld (wd (wordOf op 0)) 51 8 = op) ∧
    sBadWord.agenda = [.issue (0 * 8 + 0)] ∧ (spGet Run.none (coreOf sBadWord 0).runs 0).active = true ∧
    (spGet Run.none (coreOf sBadWord 0).runs 0).warp = 1 ∧ issuePc (warpOf sBadWord 1) = some 0x1000 ∧ canIssue (warpOf sBadWord 1) = true ∧
    (warpOf sBadWord 1).mchkNext = false ∧ fetchWord { sBadWord with agenda := [] } 1 0x1000 = .ok (wd (wordOf 0x17 0)) false ∧ outstanding sBadWord 1 = false ∧
    tip (warpOf sBadWord 1) = false ∧ (warpOf sBadWord 1).trapv ≠ 0 ∧ (0x30_0000 : Nat) < 2 ^ 52 := by decide +kernel

/-- R48, R156, R168: ILL with CAUSE 0x10 and EADDR at the word; a POISON mask source with the fault code 9. -/
theorem test_more_traps :
    fld (warpOf (fetchFault sBadWord 1 0x1000 0x1000 .ill) 1).cause 0 8 = 0x10 ∧ (warpOf (fetchFault sBadWord 1 0x1000 0x1000 .ill) 1).eaddr = ptrVal 0x1000 ∧
    fld (warpAfter (.mset hd .bits 2 (.uni 1)) sPm).cause 0 8 = causeCode .poison ∧ (warpAfter (.bndget hd (.lane 0) 0) sPn).wait = .acc 0 := by decide +kernel

/-! ## Witnesses: the accuracy of functions, REDUX, LRET and GIVE in other states, steps of the array, warps as they are kept -/

/-- 4.0 and 3.5 of both formats, and the exact cases: 2 of (4, -1), and 2^2000, which F64 does not hold. -/
theorem witness_FunctionsAreAccurate :
    (∀ e ∈ [(fF64, 0x4010_0000_0000_0000, 2 ^ 52, -50), (fF64, 0x400C_0000_0000_0000, 7 * 2 ^ 50, -51), (fF32, 0x4080_0000, 2 ^ 23, -21)],
      e.2.1 < 2 * e.1.signBit ∧ e.1.dec e.2.1 = .fin false e.2.2.1 e.2.2.2 ∧ e.2.2.1 ≠ 0) ∧
    ((4 : Nat) : Int) * 2 ^ (-1 : Int).toNat = ((2 : Int).natAbs : Int) * 2 ^ (-(-1 : Int)).toNat ∧
    fF32.emin ≤ 2 ∧ (2 : Int) ≤ (fF32.bias : Int) ∧ (fF64.bias : Int) < 2000 ∧
    ((2000 : Nat) : Int) * 2 ^ (0 : Int).toNat = ((2000 : Int).natAbs : Int) * 2 ^ (-(0 : Int)).toNat := by decide +kernel

/-- 1.0 lies half a unit or more from every nonzero multiple of π/2. -/
theorem witness_TranscendentalsAreAccurate :
    fF64.dec 0x3FF0_0000_0000_0000 = .fin false (2 ^ 52) (-52) ∧
    ∀ j : Int, j ≠ 0 → (1 : Real) / 2 ^ 128 ≤ |(((Machine.Num.fin false (2 ^ 52) (-52)).rat : Rat) : Real) - j * (Real.pi / 2)| := by
  refine ⟨by decide +kernel, fun j hj => ?_⟩
  have e : (((Machine.Num.fin false (2 ^ 52) (-52)).rat : Rat) : Real) = 1 := by norm_num [Machine.Num.rat]
  have p := Real.pi_gt_three
  have n : (1 : Real) / 2 ^ 128 ≤ 1 / 2 := by norm_num
  rw [e]
  refine le_trans n ?_
  rcases lt_or_gt_of_ne hj with h | h
  · have h' : (j : Real) ≤ -1 := by exact_mod_cast Int.le_sub_one_of_lt h
    rw [le_abs]
    left
    nlinarith
  · have h' : (1 : Real) ≤ j := by exact_mod_cast h
    rw [le_abs]
    right
    nlinarith

/-- 1.5 and 2.0 in v1 of lanes 0 and 1. -/
def sTwoF : State := two [(.lane 1, f15)] 1 f20

theorem witness_CrossLaneReads_redux :
    (warpOf sTwoF 1).width = 2 ^ 5 ∧ ([0, 1] : List Nat).Nodup ∧
    (([0, 1].map (fun l => (readReg (warpOf sTwo 1) (.lane 1) l).pay.toInt.natAbs)).sum < 2 ^ 63) ∧
    (∀ l ∈ [0, 1], l < (warpOf sTwoF 1).width ∧ (readReg (warpOf sTwoF 1) (.lane 1) l).tag = .f32) ∧
    (List.range 5).reverse.foldl
      (fun (z : Nat → Option Val) k i =>
        Option.merge (fun a b => fVal .f32 .rn (sumNum [widen a .f32, widen b .f32])) (z i) (z (i + 2 ^ k)))
      (fun l => if l ∈ [0, 1] then some (readReg (warpOf sTwoF 1) (.lane 1) l) else none) 0 = some ⟨.f32, 0x4060_0000⟩ := by
  decide +kernel

/-- R175: 1.5 and 2.0 add to 3.5. -/
theorem test_redux_float : redux .add (warpOf sTwoF 1) [0, 1] (.lane 1) = .val ⟨.f32, 0x4060_0000⟩ := by decide +kernel

/-- Lane 0 in a handler whose result goes to s3; to v5, which awaits a result; lane 0 in no handler. -/
def sRet3 : State := updWarp sAddr 1 (fun w => updLane w 0 (fun y => { y with lcd := 1, ldst := 0x83, lrpc := 0x4000 }))
def sRetWait : State := updWarp sRet1 1 (fun w => addPend w 5)

theorem witness_LretReturnsTheValue_others :
    (let i := Instr.lret hd (.lane 1)
     issues i hd sRet3 = true ∧ (curIx i hd sRet3).exe = [0] ∧ lretOk (warpOf sRet3 1) (laneOf (warpOf sRet3 1) 0) = true ∧
     lretPending (warpOf sRet3 1) 0 = false ∧ ldstTarget (laneOf (warpOf sRet3 1) 0).ldst = .reg (.uni 3) ∧
     issues i hd sRetWait = true ∧ (curIx i hd sRetWait).exe = [0] ∧ lretOk (warpOf sRetWait 1) (laneOf (warpOf sRetWait 1) 0) = true ∧
     lretPending (warpOf sRetWait 1) 0 = true ∧
     issues i hd sAddr = true ∧ (curIx i hd sAddr).exe = [0] ∧ lretOk (warpOf sAddr 1) (laneOf (warpOf sAddr 1) 0) = false) := by
  decide +kernel

/-- R99, R177: s3 takes the value; the wait; ILL. -/
theorem test_lret_others :
    after (.lret hd (.lane 1)) sRet3 (.uni 3) 0 = intVal 0x3008 ∧ (warpAfter (.lret hd (.lane 1)) sRetWait).wait = .drain ∧
    (warpAfter (.lret hd (.lane 1)) sAddr).cause = 0x10 := by decide +kernel

/-- Another warp's SATOM has a lane left. -/
def sOwnLate : State := updCore sOwn 0 (fun c => { c with late := (coreOf sAtmLate 0).late })

theorem witness_TilesAndTheirOwners_satom :
    issues (.give hd (.uni 1)) hd sOwnLate = true ∧ satomUnderWay sOwnLate 1 = true ∧ satomUnderWay sOwn 1 = false ∧
    handleArg (curIx (.give hd (.uni 1)) hd sOwnLate) (teamOf sOwnLate 1) (opnd sOwnLate (.uni 1) 0 0) anyTile =
      .ok (handleOf (opnd sOwnLate (.uni 1) 0 0).pay) ∧
    (warpAfter (.give hd (.uni 1)) sOwnLate).wait = .drain := by decide +kernel

theorem witness_MatrixStepsAccumulate_others :
    (∀ k ∈ [MatKind.mmab 1 (tB 16), .accw, .accld tA], matNext (sStep k) 0 = some ⟨1, 2, k⟩ ∧ isPaired ⟨1, 2, k⟩ = false) ∧
    ((handleOf tA).rows ≤ 64 ∧ (handleOf tA).cols ≤ 64 ∧ (handleOf (tB 16)).rows ≤ 64 ∧ (handleOf (tB 16)).cols ≤ 64) ∧
    (selvOf (updTeam (sStep .accz) 1 (fun t => { t with selv := [(2, ⟨true, false, 0, 0, 0⟩)] }) |> (teamOf · 1)) 2).w = true := by
  decide +kernel

/-- R207, R208, R241, R243: 2.0 in row 1, column 3 of an ACCLD's tile; ACCW widens a pair. -/
theorem test_step_others :
    (let s := updTeam (sStep (.accld tA)) 1 (fun t => scrWrite t .lin (64 + 32 + 6) 2 0x4000)
     let t := teamOf (next (.matrixStep 0) s) 1
     accBits t 2 1 3 = 0x4000_0000 ∧ (selvOf t 2).peak = 0x4000_0000 ∧ (selvOf t 2).x = false) ∧
    (selvOf (teamOf (next (.matrixStep 0) (sStep .accw)) 1) 2).w = true := by decide +kernel

/-- A fetch from a page that another chip does not admit. -/
def refusedAt (s : State) (pc : Word) : Option (Nat × Word) :=
  match fetchInstr s 1 pc with
  | .refused pa a => some (pa, a)
  | _ => none
def sFarCode : State :=
  updWarp (updCore sFetch 0 (fun c => { c with
    tlb := ⟨0, 0, 8, ⟨2 ^ 46 + 0x30_0000, false, false, false, false, false, true, false, true⟩⟩ :: c.tlb, ibuf := [] })) 1
    (fun w => updLane w 0 (fun y => { y with lpc := 0x8000 }))

theorem witness_StepRunsTheFetchedInstruction_refused :
    sFarCode.agenda = [.issue (0 * 8 + 0)] ∧ issuePc (warpOf sFarCode 1) = some 0x8000 ∧ canIssue (warpOf sFarCode 1) = true ∧
    refusedAt { sFarCode with agenda := [] } 0x8000 = some (2 ^ 46 + 0x30_0000, 0x8000) := by decide +kernel

/-- The warp of a state without SUPER, whose lanes stand as they should. -/
theorem witness_StepKeepsWarpsWellFormed :
    (∀ w, (warpOf State.reset w).wellFormed) ∧ (1 < sFetch.nextWarp ∧ (warpOf sFetch 1).live = true ∧ super (warpOf sFetch 1) = false) ∧
    (match step sFetch with
     | .next t => (warpOf t 1).live
     | _ => false) = true := by
  refine ⟨fun w => ?_, by decide +kernel, by decide +kernel⟩
  have e : warpOf State.reset w = Warp.none := rfl
  rw [e]
  refine ⟨fun m l h => ?_, fun l => ⟨Nat.zero_le _, Nat.zero_le _⟩, by decide +kernel, by decide +kernel, by decide +kernel⟩
  simp [maskBit, maskReg, Warp.none, spGet, bitAt] at h

end Sys2Proof.Tests
end

section
/-! ## Every step answers, and keeps the memory's canonical form (O59)

The memory is written in one place, `setMemByte`, and cleared in one, `clearMemory`; every other function of the model hands it on.
So each function that makes a state of a state has one lemma here, `<function>_canon`, in the order of the model's files: if the
state it is given is canonical, so is the state it makes. The lemma follows the branches of the function's definition and cites the
lemmas of the functions it calls, down to the `_wf` lemmas of the shared memory operations. An instruction or an event has a
lemma `<function>_answers`, which says beside that that the machine answers a next state. `exec_answers` puts these together by
instruction, and `step_answers` by turn. -/

namespace Sys2Proof.Machine
open Sys2Proof

/-- The state's memory has the canonical form. It is `State.inv` as a structure, so that two claims of it are compared by what made
their states, and no memory is ever computed. -/
structure Canonical (s : State) : Prop where
  wf : Memory.wf s.mem

/-! ### The results that carry a state

`Canon` says of a result that the state it carries is canonical. -/

/-- Of the state with which an instruction traps the machine keeps the partitions alone, so nothing is asked of it. -/
def Res.Canon : Res → Prop
  | .ok s | .wait _ s => Canonical s
  | _ => True

def Fetched.Canon : Fetched → Prop
  | .ok s _ _ | .fault s _ => Canonical s
  | .miss _ => True

def CallIn.Canon : CallIn → Prop
  | .ok s _ | .fault s _ => Canonical s
  | .miss _ => True

def Hdrd.Canon : Hdrd → Prop
  | .ok s _ | .fault s _ => Canonical s
  | .miss _ => True

def Bar.Canon : Bar → Prop
  | .ok s _ | .call s _ | .fault s _ => Canonical s
  | .miss _ => True

def TurnRes.Canon : TurnRes → Prop
  | .run _ s | .done s => Canonical s

def RecRead.Canon : RecRead → Prop
  | .ok s _ | .fault s _ _ => Canonical s
  | .miss _ => True

def DRead.Canon : DRead → Prop
  | .ok s _ => Canonical s
  | _ => True

def DVal.Canon : DVal → Prop
  | .ok s _ => Canonical s
  | _ => True

def WaitRes.Canon : WaitRes → Prop
  | .yes s => Canonical s
  | _ => True

/-- A pair's state is canonical, as a structure for `Canonical`'s own reason. -/
structure FstCanon {α : Type} (p : State × α) : Prop where
  canon : Canonical p.1

/-- The machine answers a next state, and it is canonical if the state before is. -/
def Answers (s : State) (o : Host.Outcome State Fault Refusal) : Prop := ∃ t, o = .next t ∧ (Canonical s → Canonical t)

/-! ### Branches

Both branches of a test are canonical; and a result is what a test or a call before it was found to be. -/

theorem Canonical.ite {c : Prop} [Decidable c] {s t : State} (hs : Canonical s) (ht : Canonical t) :
    Canonical (if c then s else t) := iteInduction (motive := Canonical) (fun _ => hs) fun _ => ht

theorem Res.Canon.ite {c : Prop} [Decidable c] {a b : Res} (ha : a.Canon) (hb : b.Canon) : (if c then a else b).Canon :=
  iteInduction (motive := Res.Canon) (fun _ => ha) fun _ => hb

theorem Fetched.Canon.ite {c : Prop} [Decidable c] {a b : Fetched} (ha : a.Canon) (hb : b.Canon) : (if c then a else b).Canon :=
  iteInduction (motive := Fetched.Canon) (fun _ => ha) fun _ => hb

theorem CallIn.Canon.ite {c : Prop} [Decidable c] {a b : CallIn} (ha : a.Canon) (hb : b.Canon) : (if c then a else b).Canon :=
  iteInduction (motive := CallIn.Canon) (fun _ => ha) fun _ => hb

theorem Hdrd.Canon.ite {c : Prop} [Decidable c] {a b : Hdrd} (ha : a.Canon) (hb : b.Canon) : (if c then a else b).Canon :=
  iteInduction (motive := Hdrd.Canon) (fun _ => ha) fun _ => hb

theorem Bar.Canon.ite {c : Prop} [Decidable c] {a b : Bar} (ha : a.Canon) (hb : b.Canon) : (if c then a else b).Canon :=
  iteInduction (motive := Bar.Canon) (fun _ => ha) fun _ => hb

theorem TurnRes.Canon.ite {c : Prop} [Decidable c] {a b : TurnRes} (ha : a.Canon) (hb : b.Canon) : (if c then a else b).Canon :=
  iteInduction (motive := TurnRes.Canon) (fun _ => ha) fun _ => hb

theorem DRead.Canon.ite {c : Prop} [Decidable c] {a b : DRead} (ha : a.Canon) (hb : b.Canon) : (if c then a else b).Canon :=
  iteInduction (motive := DRead.Canon) (fun _ => ha) fun _ => hb

theorem DVal.Canon.ite {c : Prop} [Decidable c] {a b : DVal} (ha : a.Canon) (hb : b.Canon) : (if c then a else b).Canon :=
  iteInduction (motive := DVal.Canon) (fun _ => ha) fun _ => hb

theorem WaitRes.Canon.ite {c : Prop} [Decidable c] {a b : WaitRes} (ha : a.Canon) (hb : b.Canon) : (if c then a else b).Canon :=
  iteInduction (motive := WaitRes.Canon) (fun _ => ha) fun _ => hb

theorem FstCanon.ite {α : Type} {c : Prop} [Decidable c] {p q : State × α} (hp : FstCanon p) (hq : FstCanon q) :
    FstCanon (if c then p else q) := iteInduction (motive := FstCanon) (fun _ => hp) fun _ => hq

/-- A pair taken apart by a match `M`, whichever of the compiled matches that is. -/
theorem FstCanon.bind {α β : Type} {M : State × α → (State → α → State × β) → State × β} {p : State × α}
    {f : State → α → State × β} (hM : ∀ t a f, M (t, a) f = f t a) (hp : Canonical p.1)
    (hf : ∀ t a, Canonical t → FstCanon (f t a)) : FstCanon (M p f) := by
  cases p with
  | mk t a => exact hM t a f ▸ hf t a hp

theorem Res.Canon.ok {t : State} (ht : Canonical t) : (Res.ok t).Canon := ht

theorem Res.Canon.of_eq {a b : Res} (h : a.Canon) (e : a = b) : b.Canon := e ▸ h

theorem Fetched.Canon.of_eq {a b : Fetched} (h : a.Canon) (e : a = b) : b.Canon := e ▸ h

theorem CallIn.Canon.of_eq {a b : CallIn} (h : a.Canon) (e : a = b) : b.Canon := e ▸ h

theorem Hdrd.Canon.of_eq {a b : Hdrd} (h : a.Canon) (e : a = b) : b.Canon := e ▸ h

theorem Bar.Canon.of_eq {a b : Bar} (h : a.Canon) (e : a = b) : b.Canon := e ▸ h

theorem RecRead.Canon.of_eq {a b : RecRead} (h : a.Canon) (e : a = b) : b.Canon := e ▸ h

theorem DRead.Canon.of_eq {a b : DRead} (h : a.Canon) (e : a = b) : b.Canon := e ▸ h

theorem DVal.Canon.of_eq {a b : DVal} (h : a.Canon) (e : a = b) : b.Canon := e ▸ h

theorem WaitRes.Canon.of_eq {a b : WaitRes} (h : a.Canon) (e : a = b) : b.Canon := e ▸ h

theorem Answers.of_canonical {s t : State} {o : Host.Outcome State Fault Refusal} (h : Canonical s → Canonical t)
    (ho : Answers t o) : Answers s o := by
  obtain ⟨u, e, hu⟩ := ho
  exact ⟨u, e, fun hs => hu (h hs)⟩

end Sys2Proof.Machine

namespace Sys2Proof.Laws
open Sys2Proof Sys2Proof.Machine

theorem answers_next {s t : State} (h : Canonical s → Canonical t) : Answers s (.next t) := ⟨t, rfl, h⟩

theorem fst_ite_canon {α : Type} {c : Prop} [Decidable c] {p q : State × α} (hp : Canonical p.1) (hq : Canonical q.1) :
    Canonical (if c then p else q).1 := by
  split <;> assumption

theorem snd_ite_canon {α : Type} {c : Prop} [Decidable c] {p q : α × State} (hp : Canonical p.2) (hq : Canonical q.2) :
    Canonical (if c then p else q).2 := by
  split <;> assumption

theorem fst_canon_of_eq {α : Type} {p : State × α} {t : State} {a : α} (hp : Canonical p.1) (e : p = (t, a)) : Canonical t := by
  subst e
  exact hp

theorem elim_canon {α : Type} {s : State} {o : Option α} {f : α → State} (hs : Canonical s) (hf : ∀ a, Canonical (f a)) :
    Canonical (o.elim s f) := by
  cases o with
  | none => exact hs
  | some a => exact hf a

/-! ### Loops -/

theorem foldl_induct {α β : Type} {P : α → Prop} {f : α → β → α} (hf : ∀ a b, P a → P (f a b)) {l : List β} {a : α}
    (ha : P a) : P (l.foldl f a) :=
  List.foldlRecOn l f ha fun a ha b _ => hf a b ha

theorem foldl_canon {β : Type} {f : State → β → State} (hf : ∀ s b, Canonical s → Canonical (f s b)) {l : List β} {s : State}
    (hs : Canonical s) : Canonical (l.foldl f s) :=
  foldl_induct hf hs

theorem foldl_fst_canon {α β : Type} {f : State × α → β → State × α} (hf : ∀ p b, Canonical p.1 → Canonical (f p b).1)
    {l : List β} {p : State × α} (hp : Canonical p.1) : Canonical (l.foldl f p).1 :=
  foldl_induct (P := fun p : State × α => Canonical p.1) hf hp

section
variable {s : State}

/-! ### What the machine keeps beside the memory

A state that differs from a canonical one in other fields alone is canonical. Where the other state is the result of a longer
computation the fact is used through these lemmas, about a variable state, so that comparing the two memories computes nothing. -/

theorem withWarps_canon {ws : Sparse Warp} (hs : Canonical s) : Canonical { s with warps := ws } := ⟨hs.wf⟩

theorem withCur_canon {w : Nat} (hs : Canonical s) : Canonical { s with cur := w } := ⟨hs.wf⟩

theorem withFree_canon {n : Nat} (hs : Canonical s) : Canonical { s with free := n } := ⟨hs.wf⟩

theorem withAnswers_canon {as : List Answer} (hs : Canonical s) : Canonical { s with answers := as } := ⟨hs.wf⟩

theorem withAppends_canon {as : List Append} (hs : Canonical s) : Canonical { s with appends := as } := ⟨hs.wf⟩

theorem withAttns_canon {as : List AttnOp} (hs : Canonical s) : Canonical { s with attns := as } := ⟨hs.wf⟩

theorem withErrlog_canon {l : Sparse (List LogEnt)} {n : Sparse Nat} (hs : Canonical s) :
    Canonical { s with errlog := l, errseq := n } := ⟨hs.wf⟩

theorem withAgenda_canon {l : List Turn} (hs : Canonical s) : Canonical { s with agenda := l } := ⟨hs.wf⟩

/-! ### Machine/Acc -/

theorem setCore_canon {c : Nat} {x : Core} (hs : Canonical s) : Canonical (setCore s c x) := ⟨hs.wf⟩

theorem updCore_canon {c : Nat} {f : Core → Core} (hs : Canonical s) : Canonical (updCore s c f) := setCore_canon hs

theorem setWarp_canon {w : Nat} {x : Warp} (hs : Canonical s) : Canonical (setWarp s w x) := ⟨hs.wf⟩

theorem updWarp_canon {w : Nat} {f : Warp → Warp} (hs : Canonical s) : Canonical (updWarp s w f) := setWarp_canon hs

theorem setTeam_canon {t : Nat} {x : Team} (hs : Canonical s) : Canonical (setTeam s t x) := ⟨hs.wf⟩

theorem updTeam_canon {t : Nat} {f : Team → Team} (hs : Canonical s) : Canonical (updTeam s t f) := setTeam_canon hs

theorem setPart_canon {p : Nat} {x : Machine.Part} (hs : Canonical s) : Canonical (setPart s p x) := ⟨hs.wf⟩

theorem updPart_canon {p : Nat} {f : Machine.Part → Machine.Part} (hs : Canonical s) : Canonical (updPart s p f) := setPart_canon hs

theorem setQueue_canon {q : Nat} {x : Queue} (hs : Canonical s) : Canonical (setQueue s q x) := ⟨hs.wf⟩

theorem updQueue_canon {q : Nat} {f : Queue → Queue} (hs : Canonical s) : Canonical (updQueue s q f) := setQueue_canon hs

theorem setGrid_canon {g : Nat} {x : Grid} (hs : Canonical s) : Canonical (setGrid s g x) := ⟨hs.wf⟩

theorem updGrid_canon {g : Nat} {f : Grid → Grid} (hs : Canonical s) : Canonical (updGrid s g f) := setGrid_canon hs

theorem setGraph_canon {g : Nat} {x : Machine.Graph} (hs : Canonical s) : Canonical (setGraph s g x) := ⟨hs.wf⟩

theorem setAsw_canon {g : Nat} {x : Asw} (hs : Canonical s) : Canonical (setAsw s g x) := ⟨hs.wf⟩

theorem setWin_canon {w : Nat} {x : Win} (hs : Canonical s) : Canonical (setWin s w x) := ⟨hs.wf⟩

theorem takeFree_canon (hs : Canonical s) : Canonical (takeFree s).2 := ⟨hs.wf⟩

theorem tellSvc_canon {p : Nat} {r : Report} (hs : Canonical s) : Canonical (tellSvc s p r) := updPart_canon hs

theorem tellRoot_canon {r : Report} (hs : Canonical s) : Canonical (tellRoot s r) := ⟨hs.wf⟩

/-! ### Machine/Mem -/

theorem rawWrite_canon {k : Nat} {data : Word} {mask : BitVec 8} {t : Option Tag} {bad : Bool} (hs : Canonical s) :
    Canonical (rawWrite s k data mask t bad) :=
  ⟨rawWrite_wf _ _ _ _ _ _ hs.wf⟩

theorem setL2_canon {k : Nat} {w : CWord} (hs : Canonical s) : Canonical (setL2 s k w) := ⟨hs.wf⟩

theorem l2Clean_canon {k : Nat} (hs : Canonical s) : Canonical (l2Clean s k) := ⟨l2Clean_wf _ _ hs.wf⟩

theorem l2Evict_canon {line : Nat} (hs : Canonical s) : Canonical (l2Evict s line) := ⟨l2Evict_wf _ _ hs.wf⟩

theorem homeRead_canon {k : Nat} (hs : Canonical s) : Canonical (homeRead s k).1 := ⟨homeRead_wf _ _ hs.wf⟩

theorem clearResv_canon {k : Nat} {own : Option Nat} (hs : Canonical s) : Canonical (clearResv s k own) := .ite ⟨hs.wf⟩ hs

theorem homeWrite_canon {k : Nat} {data : Word} {mask : BitVec 8} {t : Option Tag} {bad : Bool} {own : Option Nat}
    (hs : Canonical s) :
    Canonical (homeWrite s k data mask t bad own) :=
  ⟨homeWrite_wf _ _ _ _ _ _ _ hs.wf⟩

/-! ### Machine/Trans -/

theorem codeNote_canon {page n p ver : Nat} (hs : Canonical s) : Canonical (codeNote s page n p ver) := .ite hs ⟨hs.wf⟩

theorem bindPages_canon {p ver : Nat} (hs : Canonical s) : Canonical (bindPages s p ver) :=
  .ite (.ite hs ⟨hs.wf⟩) (foldl_canon (fun _ _ => codeNote_canon) (.ite hs ⟨hs.wf⟩))

theorem askHost_canon {p : Nat} {ps : List Nat} (hs : Canonical s) : Canonical (askHost s p ps) :=
  foldl_canon (fun _ _ ht => .ite ht (tellRoot_canon ht)) hs

theorem priTaken_canon {p : Nat} (hs : Canonical s) : Canonical (priTaken s p) := .ite hs (updPart_canon hs)

theorem walkOne_canon {w vpn : Nat} {fetch : Bool} (hs : Canonical s) : Canonical (walkOne s w vpn fetch) := by
  unfold walkOne
  dsimp only
  split
  · split
    · exact updCore_canon hs
    · exact updWarp_canon (askHost_canon hs)
  · exact updWarp_canon hs
  · exact updWarp_canon hs

theorem walkDone_canon {w : Nat} (hs : Canonical s) : Canonical (walkDone s w) := by
  unfold walkDone
  split
  · exact foldl_canon (fun _ _ => walkOne_canon) (updWarp_canon hs)
  · exact walkOne_canon (updWarp_canon hs)
  · exact hs

/-! ### Machine/L1 -/

theorem setL1_canon {c k : Nat} {w : CWord} (hs : Canonical s) : Canonical (setL1 s c k w) := updCore_canon hs

theorem tellRefused_canon {p pa : Nat} (hs : Canonical s) : Canonical (tellRefused s p pa) :=
  .ite (.ite (tellSvc_canon hs) (tellSvc_canon (tellSvc_canon hs))) hs

theorem tellDropped_canon {p pa : Nat} (hs : Canonical s) : Canonical (tellDropped s p pa) := tellRefused_canon (tellSvc_canon hs)

theorem l1Clean_canon {c k : Nat} (hs : Canonical s) : Canonical (l1Clean s c k) := ⟨l1Clean_wf _ _ _ hs.wf⟩

theorem l1DropClean_canon {c k : Nat} (hs : Canonical s) : Canonical (l1DropClean s c k) := setL1_canon hs

theorem l1Invalidate_canon {c : Nat} (hs : Canonical s) : Canonical (l1Invalidate s c) := ⟨l1Invalidate_wf _ _ hs.wf⟩

theorem l1Evict_canon {c line : Nat} (hs : Canonical s) : Canonical (l1Evict s c line) := ⟨l1Evict_wf _ _ _ hs.wf⟩

theorem l1Read_canon {c p k : Nat} {mask : BitVec 8} {t : Bool} (hs : Canonical s) : Canonical (l1Read s c p k mask t).1 :=
  ⟨l1Read_wf _ _ _ _ _ _ hs.wf⟩

theorem l1Write_canon {c k : Nat} {data : Word} {mask : BitVec 8} {t : Option Tag} (hs : Canonical s) :
    Canonical (l1Write s c k data mask t) :=
  ⟨l1Write_wf _ _ _ _ _ _ hs.wf⟩

theorem l2CleanSystem_canon (hs : Canonical s) : Canonical (l2CleanSystem s) := ⟨l2CleanSystem_wf _ hs.wf⟩

theorem l2DropSystem_canon (hs : Canonical s) : Canonical (l2DropSystem s) := ⟨l2DropSystem_wf _ hs.wf⟩

theorem release_canon {c : Nat} {sc : Scope} (hs : Canonical s) : Canonical (release s c sc) := ⟨release_wf _ _ _ hs.wf⟩

theorem dropHeaderAt_canon {c k : Nat} (hs : Canonical s) : Canonical (dropHeaderAt s c k) := .ite (updCore_canon hs) hs

theorem acquire_canon {c : Nat} {sc : Scope} (hs : Canonical s) : Canonical (acquire s c sc) := ⟨acquire_wf _ _ _ hs.wf⟩

theorem promote_canon {c : Nat} {sc : Scope} (hs : Canonical s) : Canonical (promote s c sc) := ⟨promote_wf _ _ _ hs.wf⟩

theorem releaserNote_canon {c line : Nat} (hs : Canonical s) : Canonical (releaserNote s c line) := ⟨releaserNote_wf _ _ _ hs.wf⟩

theorem racqAt_canon {c line : Nat} {sc : Scope} (hs : Canonical s) : Canonical (racqAt s c line sc) := ⟨racqAt_wf _ _ _ _ hs.wf⟩

theorem fenceRacq_canon {c : Nat} {sc : Scope} (hs : Canonical s) : Canonical (fenceRacq s c sc) := ⟨fenceRacq_wf _ _ _ hs.wf⟩

/-! ### Machine/Ops -/

theorem trapOnce_canon {ix : Ix} {c : Cause} : (trapOnce ix c).Canon := trivial

theorem trapPoison_canon {ix : Ix} {v : Val} : (trapPoison ix v).Canon := trivial

theorem orTrap_canon {fs : List LFault} (hs : Canonical s) : (orTrap fs s).Canon := .ite hs trivial

theorem haltWarp_canon {w : Nat} (hs : Canonical s) : Canonical (haltWarp s w) := tellSvc_canon (updWarp_canon hs)

theorem enterTrap_canon {w : Nat} {t : TrapRec} (hs : Canonical s) : Canonical (enterTrap s w t) :=
  .ite (haltWarp_canon hs) (setWarp_canon hs)

theorem takeTrap_canon {ix : Ix} {fs : List LFault} {info : Nat} {past : List Nat} (hs : Canonical s) :
    Canonical (takeTrap s ix fs info past) := by
  unfold takeTrap
  split
  · exact hs
  · exact .ite (updWarp_canon hs) (enterTrap_canon hs)

theorem needWord_canon {w va : Nat} {n : Need} (hs : Canonical s) : (needWord s w va n).Canon := by
  unfold needWord
  refine .ite hs ?_
  split
  · exact trivial
  · exact hs
  split
  next e => exact fst_canon_of_eq (l1Read_canon hs) e
  next e =>
    have ht := fst_canon_of_eq (l1Read_canon hs) e
    exact .ite ht ht

theorem checkCall_canon {ix : Ix} {k : LCall} (hs : Canonical s) : (checkCall s ix k).Canon := by
  unfold checkCall
  dsimp only
  refine .ite hs ?_
  split
  · exact trivial
  next e => exact (needWord_canon hs).of_eq e
  next e =>
    have ht := (needWord_canon hs).of_eq e
    exact .ite ht (.ite ht ht)

theorem checkCalls_canon {ix : Ix} {ks : List LCall} (hs : Canonical s) : Canonical (checkCalls s ix ks).s := by
  unfold checkCalls
  refine foldl_induct (P := fun p : CallsIn => Canonical p.s) (fun _ _ ha => ?_) hs
  split
  next e => exact (checkCall_canon ha).of_eq e
  · exact ha
  next e => exact (checkCall_canon ha).of_eq e

theorem enterCalls_canon {ix : Ix} {es : List (LCall × Word)} (hs : Canonical s) : Canonical (enterCalls s ix es) :=
  .ite hs (updWarp_canon hs)

theorem finishCalls_canon {ix : Ix} {ks : List LCall} {fs : List LFault} {misses : List Nat} {f : State → State} (hs : Canonical s)
    (hf : ∀ t, Canonical t → Canonical (f t)) :
    (finishCalls s ix ks fs misses f).Canon :=
  .ite (checkCalls_canon hs) (.ite trivial (enterCalls_canon (hf _ (checkCalls_canon hs))))

theorem addReq_canon {c : Nat} {r : Req} (hs : Canonical s) : Canonical (addReq s c r).1 := by
  unfold addReq
  dsimp only
  exact updWarp_canon (setCore_canon hs)

theorem wakeRequests_canon {c w : Nat} (hs : Canonical s) : Canonical (wakeRequests s c w) := ⟨hs.wf⟩

theorem endReq_canon {c n : Nat} {vals : List (Dst × Val)} (hs : Canonical s) : Canonical (endReq s c n vals) := by
  unfold endReq
  split
  · exact hs
  · exact wakeRequests_canon (updWarp_canon (updCore_canon hs))

theorem wakeDrained_canon {w : Nat} (hs : Canonical s) : Canonical (wakeDrained s w) := by
  unfold wakeDrained
  split
  · exact .ite hs (updWarp_canon hs)
  · exact .ite hs (updWarp_canon hs)
  · exact hs

theorem tableBoundary_canon {c : Nat} (hs : Canonical s) : Canonical (tableBoundary s c) := updCore_canon hs

/-! ### Machine/Operands -/

theorem laneOp_canon {ix : Ix} {d : LDst} {srcs : List Reg} {f : Nat → LOut} (hs : Canonical s) : (laneOp ix s d srcs f).Canon :=
  finishCalls_canon hs (fun _ => updWarp_canon)

/-! ### Machine/Issue -/

theorem setRun_canon {c p : Nat} {r : Run} (hs : Canonical s) : Canonical (setRun s c p r) := updCore_canon hs

theorem closeRun_canon {w : Nat} {r : Run} (hs : Canonical s) : Canonical (closeRun s w r) :=
  tableBoundary_canon (setRun_canon (setWarp_canon hs))

theorem endRun_canon {w : Nat} (hs : Canonical s) : Canonical (endRun s w) := closeRun_canon hs

theorem trapRun_canon {ix : Ix} {fs : List LFault} {info : Nat} {past : List Nat} (hs : Canonical s) :
    Canonical (trapRun s ix fs info past) :=
  takeTrap_canon (closeRun_canon hs)

theorem afterIssue_canon {w : Nat} {r : Run} {ends : Bool} {next : Word} (hs : Canonical s) :
    Canonical (afterIssue s w r ends next) :=
  .ite (closeRun_canon (setWarp_canon hs)) (setRun_canon (setWarp_canon hs))

theorem sendLate_canon {i : Instr} {ix : Ix} (hs : Canonical s) : Canonical (sendLate i ix s) := updCore_canon (updWarp_canon hs)

theorem putBack_canon {w : Nat} {x0 : Warp} {grp : List Nat} {pc : Word} {k : Wait} (hs : Canonical s) :
    Canonical (putBack s w x0 grp pc k) :=
  updWarp_canon hs

theorem begun_canon {i : Instr} {h : Hdr} {ix : Ix} (hs : Canonical s) : Canonical (begun i h s ix) := by
  unfold begun
  exact updWarp_canon (updCore_canon (setWarp_canon hs))

theorem takeRecorded_canon {ix : Ix} {f : LFault} {granules tiles : List Nat} {extra : List LFault} (hs : Canonical s) :
    Canonical (takeRecorded s ix f granules tiles extra) :=
  trapRun_canon (.ite (updTeam_canon hs) hs)

theorem takeDue_canon {ix : Ix} (hs : Canonical s) : Canonical (takeDue s ix) := trapRun_canon (updWarp_canon hs)

theorem issueBody_canon {i : Instr} {h : Hdr} {ix : Ix} {body : Ix → State → Res} (hs : Canonical s)
    (hbody : ∀ ix t, Canonical t → (body ix t).Canon) :
    (if ix.exe = [] then Res.ok (begun i h s ix) else body ix (begun i h s ix)).Canon := by
  split
  · exact begun_canon hs
  · exact hbody _ _ (begun_canon hs)

theorem issueInstr_canon {i : Instr} {h : Hdr} {body : Ix → State → Res} (hs : Canonical s)
    (hbody : ∀ ix t, Canonical t → (body ix t).Canon) : Canonical (issueInstr i h s body) := by
  unfold issueInstr
  dsimp only
  split
  case h_1 => exact hs
  case h_2 pc _ =>
    refine .ite hs (.ite (takeDue_canon hs) (.ite (trapRun_canon hs) (.ite (endRun_canon hs) ?_)))
    split
    case h_1 e => exact .ite (trapRun_canon hs) (endRun_canon (putBack_canon ((issueBody_canon hs hbody).of_eq e)))
    case h_2 => exact trapRun_canon hs
    case h_3 => exact trapRun_canon ⟨hs.wf⟩
    case h_4 => exact takeRecorded_canon hs
    case h_5 e =>
      have ht := (issueBody_canon hs hbody).of_eq e
      exact .ite (trapRun_canon hs) (afterIssue_canon (.ite ht (sendLate_canon ht)))

theorem issued_answers {i : Instr} {h : Hdr} {body : Ix → State → Res} (hbody : ∀ ix t, Canonical t → (body ix t).Canon) :
    Answers s (issued i h s body) := answers_next fun hs => issueInstr_canon hs hbody

/-! ### Machine/Fetch -/

theorem ibufRoom_canon {c : Nat} (hs : Canonical s) : Canonical (ibufRoom s c) := .ite hs (updCore_canon (takeFree_canon hs))

theorem fillLine_canon {c line : Nat} (hs : Canonical s) : Canonical (fillLine s c line) := by
  unfold fillLine
  refine foldl_canon (fun t w ht => ?_) hs
  extract_lets ver s1 s2 s3 r s4
  have h1 : Canonical s1 := codeNote_canon ht
  have h3 : Canonical s3 := ibufRoom_canon (updCore_canon h1)
  have hr : Canonical r.1 := by
    refine foldl_fst_canon (fun a k ha => ?_) h3
    exact homeRead_canon ha
  exact updWarp_canon (.ite h1 (updCore_canon hr))

theorem wakeYield_canon {c p : Nat} {w : Option Nat} (hs : Canonical s) : Canonical (wakeYield s c p w) := ⟨hs.wf⟩

theorem wakeTable_canon {c : Nat} (hs : Canonical s) : Canonical (wakeTable s c) :=
  .ite (foldl_canon (fun _ _ => wakeDrained_canon) hs) hs

theorem selectRun_canon {c p : Nat} (hs : Canonical s) : Canonical (selectRun s c p) := by
  unfold selectRun
  refine .ite hs ?_
  split
  · exact wakeYield_canon hs
  · exact wakeYield_canon (setRun_canon (setWarp_canon hs))

theorem fetchFault_canon {w : Nat} {pc at_ : Word} {c : Cause} (hs : Canonical s) : Canonical (fetchFault s w pc at_ c) :=
  trapRun_canon hs

theorem takeTurn_canon {c p : Nat} (hs : Canonical s) : (takeTurn s c p).Canon := by
  unfold takeTurn
  extract_lets r w x
  refine .ite (selectRun_canon (wakeTable_canon hs)) ?_
  split
  · exact endRun_canon hs
  refine .ite hs (.ite (endRun_canon hs) (.ite (takeDue_canon hs) ?_))
  split
  · exact withCur_canon (updWarp_canon hs)
  · exact fetchFault_canon hs
  · exact fetchFault_canon (tellRefused_canon hs)
  · exact endRun_canon (updWarp_canon hs)
  · exact endRun_canon (updWarp_canon hs)

/-! ### Machine/Mmio -/

theorem tailWrite_canon {q : Nat} {v : BitVec 32} (hs : Canonical s) : Canonical (tailWrite s q v) := updQueue_canon hs

theorem cheadWrite_canon {q : Nat} {v : BitVec 32} (hs : Canonical s) : Canonical (cheadWrite s q v) := updQueue_canon hs

theorem enableWrite_canon {q : Nat} {v : Word} (hs : Canonical s) : Canonical (enableWrite s q v) := updQueue_canon hs

theorem queueWrite_canon {q off : Nat} {v : Word} (hs : Canonical s) : Canonical (queueWrite s q off v) := by
  unfold queueWrite
  split
  · exact updQueue_canon hs
  · exact enableWrite_canon hs
  · exact tailWrite_canon hs
  · exact updQueue_canon hs
  · exact updQueue_canon hs
  · exact cheadWrite_canon hs
  · exact updQueue_canon hs
  · exact hs

theorem ptrootSet_canon {p : Nat} {v : Word} (hs : Canonical s) : Canonical (ptrootSet s p v) := updPart_canon hs

theorem tbDrop_canon {p : Nat} (hs : Canonical s) : Canonical (tbDrop s p) := ⟨(foldl_canon (fun _ _ => updCore_canon) hs).wf⟩

theorem regionSet_canon {p : Nat} {v : Word} (hs : Canonical s) : Canonical (regionSet s p v) :=
  foldl_canon (fun _ _ => updCore_canon) (updPart_canon hs)

theorem controlWrite_canon {p off : Nat} {v : Word} (hs : Canonical s) : Canonical (controlWrite s p off v) := by
  unfold controlWrite
  split
  · exact ptrootSet_canon hs
  · exact updPart_canon hs
  · exact updPart_canon hs
  · exact .ite (updPart_canon hs) hs
  · exact updPart_canon hs
  · exact regionSet_canon hs
  · exact hs

theorem updOwn_canon {p : Nat} {f : CtlPage → CtlPage} (hs : Canonical s) : Canonical (updOwn s p f) := updPart_canon hs

theorem ownRegionSet_canon {p : Nat} {v : Word} (hs : Canonical s) : Canonical (ownRegionSet s p v) := by
  unfold ownRegionSet
  exact updCore_canon (updOwn_canon hs)

theorem ownWrite_canon {p off : Nat} {v : Word} (hs : Canonical s) : Canonical (ownWrite s p off v) := by
  unfold ownWrite
  split
  · exact updOwn_canon hs
  · exact updOwn_canon hs
  · exact updOwn_canon hs
  · exact .ite (updOwn_canon hs) hs
  · exact updOwn_canon hs
  · exact ownRegionSet_canon hs
  · exact hs

theorem ownDrop_canon {p : Nat} (hs : Canonical s) : Canonical (ownDrop s p) := by
  unfold ownDrop
  extract_lets x s1
  have h1 : Canonical s1 := updCore_canon hs
  exact ⟨h1.wf⟩

theorem mmioWrite_canon {c pa : Nat} {v : Word} (hs : Canonical s) : Canonical (mmioWrite s c pa v) := by
  unfold mmioWrite
  split
  · exact queueWrite_canon (.ite (release_canon hs) hs)
  · exact controlWrite_canon hs
  · exact hs

/-! ### Machine/Memory -/

theorem keepHeader_canon {c va k : Nat} {v : Val} (hs : Canonical s) : Canonical (keepHeader s c va k v) := by
  unfold keepHeader
  exact updCore_canon (.ite hs (updCore_canon (takeFree_canon hs)))

theorem readHeader_canon {w va : Nat} (hs : Canonical s) : (readHeader s w va).Canon := by
  unfold readHeader
  dsimp only
  split
  · exact hs
  split
  · exact trivial
  · exact hs
  · exact .ite (tellRefused_canon hs) (.ite (homeRead_canon hs) (keepHeader_canon (homeRead_canon hs)))

theorem barrier_canon {w : Nat} {v : Val} (hs : Canonical s) : (barrier s w v).Canon := by
  unfold barrier
  refine .ite ?_ hs
  split
  · exact trivial
  next e => exact (readHeader_canon hs).of_eq e
  next e =>
    have ht := (readHeader_canon hs).of_eq e
    exact .ite ht ht

theorem heal_canon {c k : Nat} {old new : Val} (hs : Canonical s) : Canonical (heal s c k old new) :=
  .ite (dropHeaderAt_canon (l1DropClean_canon (homeWrite_canon (homeRead_canon hs)))) (homeRead_canon hs)

theorem planLane_canon {ix : Ix} {l : Nat} {a b : Val} {off : Int} {al : Nat} {ns : List Need} {bar : Bool} (hs : Canonical s) :
    Canonical (planLane s ix l a b off al ns bar).1 := by
  unfold planLane
  refine fst_ite_canon hs (fst_ite_canon ?_ hs)
  split
  · exact hs
  next e => exact (barrier_canon hs).of_eq e
  next e => exact (barrier_canon hs).of_eq e
  next e => exact (barrier_canon hs).of_eq e

theorem Plans.add_canon {p : Plans} {a : Plan} (hs : Canonical s) : Canonical (Plans.add p s a).s := by
  unfold Plans.add
  split <;> exact hs

theorem planAll_canon {ls : List Nat} {f : State → Nat → State × Plan} (hs : Canonical s)
    (hf : ∀ t l, Canonical t → Canonical (f t l).1) : Canonical (planAll s ls f).s :=
  foldl_induct (P := fun p : Plans => Canonical p.s) (fun _ _ ha => Plans.add_canon (hf _ _ ha)) hs

theorem planMem_canon {ix : Ix} {ls : List Nat} {a b : Reg} {off : BitVec 13} {size al : Nat} {ns : List Need} {bar : Bool}
    (hs : Canonical s) :
    Canonical (planMem s ix ls a b off size al ns bar).s :=
  planAll_canon hs (fun _ _ => planLane_canon)

theorem Plans.check_canon {p : Plans} {f : Acc → List LFault} (hs : Canonical p.s) : Canonical (Plans.check p f).s := hs

theorem readAtHome_canon {c k : Nat} (hs : Canonical s) : Canonical (readAtHome s c k) := setL1_canon (l1Clean_canon hs)

theorem loadLane_canon {ix : Ix} {k : LdKind} {racq : Option Scope} {d : Reg} {a : Acc} (hs : Canonical s) :
    Canonical (loadLane s ix k racq d a).1 := by
  unfold loadLane
  extract_lets c s1
  have h1 : Canonical s1 := by
    dsimp only [s1]
    split
    · exact readAtHome_canon (racqAt_canon hs)
    · exact .ite (readAtHome_canon hs) hs
  clear_value s1
  refine fst_ite_canon hs ?_
  split
  next e =>
    have h2 := fst_canon_of_eq (l1Read_canon h1) e
    refine fst_ite_canon h2 ?_
    split
    · exact h2
    split
    next e => exact (barrier_canon h2).of_eq e
    next e => exact (barrier_canon h2).of_eq e
    · exact h2
    next e => exact (barrier_canon h2).of_eq e

theorem loadAll_canon {ix : Ix} {k : LdKind} {racq : Option Scope} {d : Reg} {as : List Acc} (hs : Canonical s) :
    Canonical (loadAll s ix k racq d as).s := by
  unfold loadAll
  dsimp only
  refine foldl_induct (P := fun p : Loads => Canonical p.s) (fun _ _ ha => ?_) hs
  split <;> exact loadLane_canon ha

theorem sendVal_canon {ix : Ix} {d : Reg} {l pa : Nat} {v : Val} (hs : Canonical s) : Canonical (sendVal s ix d l pa v) :=
  addReq_canon hs

theorem reserve_canon {w l k : Nat} (hs : Canonical s) : Canonical (reserve s w l k) := updWarp_canon hs

theorem finishLoads_canon {ix : Ix} {k : LdKind} {d : Reg} {sc : Option Scope} {as : List Acc} {vs : List (Acc × Val × Option Val)}
    (hs : Canonical s) : Canonical (finishLoads s ix k d sc as vs) := by
  unfold finishLoads
  extract_lets s1 s2 s3
  have h1 : Canonical s1 := by
    refine foldl_canon (fun t e ht => ?_) hs
    split
    · exact heal_canon ht
    · exact ht
  have h2 : Canonical s2 := .ite (foldl_canon (fun _ _ => reserve_canon) h1) h1
  have h3 : Canonical s3 := foldl_canon (fun _ _ => sendVal_canon) h2
  split
  · exact acquire_canon h3
  · exact h3

theorem loadOp_canon {k : LdKind} {d a b : Reg} {sc : Scope} {ord : Ord4} {racq : Bool} {off : BitVec 13} {ix : Ix}
    (hs : Canonical s) : (loadOp k d a b sc ord racq off ix s).Canon := by
  unfold loadOp
  extract_lets ls size tagOnly p acq
  have hp : Canonical p.s := Plans.check_canon (planMem_canon hs)
  refine .ite (finishCalls_canon hp fun _ ht => ht) (.ite hp (.ite hp ?_))
  exact finishCalls_canon (loadAll_canon hp) fun _ => finishLoads_canon

theorem noteRelease_canon {c : Nat} {sc : Option Scope} {pa : Nat} (hs : Canonical s) : Canonical (noteRelease s c sc pa) := by
  unfold noteRelease
  split
  · exact .ite (releaserNote_canon hs) hs
  · exact hs

theorem releaseFor_canon {c : Nat} {a : Option Scope} (hs : Canonical s) : Canonical (releaseFor s c a) := by
  unfold releaseFor
  split
  · exact release_canon hs
  · exact hs

theorem dropHeader_canon {c va : Nat} (hs : Canonical s) : Canonical (dropHeader s c va) := updCore_canon hs

theorem storeLane_canon {ix : Ix} {k : StKind} {sc : Option Scope} {a : Acc} {v : Val} (hs : Canonical s) :
    Canonical (storeLane s ix k sc a v) := by
  unfold storeLane
  refine .ite (mmioWrite_canon hs) (noteRelease_canon ?_)
  split
  · exact .ite (l1Clean_canon (dropHeader_canon (l1Write_canon hs))) (dropHeader_canon (l1Write_canon hs))
  · exact dropHeader_canon (l1Write_canon hs)

theorem storeOp_canon {k : StKind} {d a b : Reg} {sc : Scope} {ord : Ord4} {off : BitVec 13} {ix : Ix} (hs : Canonical s) :
    (storeOp k d a b sc ord off ix s).Canon := by
  unfold storeOp
  extract_lets x ls size q p rel
  have hp : Canonical p.s := Plans.check_canon (planMem_canon hs)
  refine .ite (finishCalls_canon hp fun _ ht => ht) (.ite hp (finishCalls_canon hp fun _ ht => ?_))
  exact foldl_canon (fun _ _ => storeLane_canon) (releaseFor_canon ht)

theorem scLane_canon {ix : Ix} {d : Reg} {sc : Option Scope} {a : Acc} {v : Val} (hs : Canonical s) :
    Canonical (scLane s ix d sc a v) :=
  sendVal_canon (updWarp_canon (.ite (noteRelease_canon (dropHeader_canon (homeWrite_canon (readAtHome_canon hs))))
    (.ite (tellDropped_canon hs) hs)))

theorem execSc_answers {h : Hdr} {o : OpMem} : Answers s (execSc h o s) := by
  refine issued_answers fun ix t ht => ?_
  extract_lets x ls p rel
  have hp : Canonical p.s := Plans.check_canon (planMem_canon ht)
  refine .ite (finishCalls_canon hp fun _ hu => hu) (.ite hp (.ite hp (finishCalls_canon hp fun _ hu => ?_)))
  exact foldl_canon (fun _ _ => scLane_canon) (releaseFor_canon hu)

theorem execFence_answers {h : Hdr} {ord : Ord4} {scope : Scope} {racq : Bool} : Answers s (execFence h ord scope racq s) := by
  refine issued_answers fun ix t ht => ?_
  extract_lets c s1 s2
  have h1 : Canonical s1 := .ite (updWarp_canon (release_canon ht)) ht
  have h2 : Canonical s2 := .ite (fenceRacq_canon h1) h1
  exact .ite ht (.ok (.ite (acquire_canon h2) h2))

theorem execPf_answers {h : Hdr} {o : OpCache} : Answers s (execPf h o s) := by
  refine issued_answers fun ix t ht => ?_
  extract_lets p
  have hp : Canonical p.s := planMem_canon ht
  refine .ite hp (.ok (foldl_canon (fun _ _ hu => .ite hu ?_) hp))
  exact .ite (foldl_canon (fun _ _ => l1Read_canon) hu) (foldl_canon (fun _ _ => homeRead_canon) hu)

theorem cacheLine_canon {c line : Nat} {sc : Scope} {drop : Bool} (hs : Canonical s) : Canonical (cacheLine s c line sc drop) := by
  unfold cacheLine
  extract_lets s1 s2 s3
  have h1 : Canonical s1 := foldl_canon (fun _ _ => l1Clean_canon) hs
  have h2 : Canonical s2 := .ite (foldl_canon (fun _ _ => l2Clean_canon) h1) h1
  have h3 : Canonical s3 := foldl_canon (fun _ _ => setL1_canon) h2
  exact .ite hs (.ite (.ite (l2Evict_canon h3) h3) h2)

theorem cacheOp_canon {o : OpCache} {drop : Bool} {ix : Ix} (hs : Canonical s) : (cacheOp o drop ix s).Canon := by
  unfold cacheOp
  refine finishCalls_canon (planMem_canon hs) fun t ht => foldl_canon (fun u q hu => .ite hu ?_) ht
  exact cacheLine_canon hu

theorem ldhLane.read_canon {ix : Ix} {a : Acc} {c : Nat} (hs : Canonical s) : Canonical (ldhLane.read ix a s c).1 := by
  have h1 : Canonical (readAtHome s c (a.pa / 8)) := readAtHome_canon hs
  exact fst_ite_canon (tellRefused_canon h1) (fst_ite_canon (homeRead_canon h1)
    (fst_ite_canon (homeRead_canon h1) (keepHeader_canon (homeRead_canon h1))))

theorem ldhLane_canon {ix : Ix} {a : Acc} (hs : Canonical s) : Canonical (ldhLane s ix a).1 := by
  unfold ldhLane
  dsimp only
  split
  · exact fst_ite_canon hs (ldhLane.read_canon hs)
  · exact ldhLane.read_canon hs

theorem execLdh_answers {h : Hdr} {d a b : Reg} {off : BitVec 13} : Answers s (execLdh h d a b off s) := by
  refine issued_answers fun ix t ht => ?_
  extract_lets p r fs
  have hp : Canonical p.s := Plans.check_canon (planMem_canon ht)
  have hr : Canonical r.1 := by
    refine foldl_fst_canon (fun a q ha => ?_) hp
    exact ldhLane_canon ha
  exact .ite (finishCalls_canon hp fun _ h => h) (.ite hp (.ite hp (orTrap_canon (foldl_canon (fun _ _ => sendVal_canon) hr))))

/-! ### Machine/LaneArith -/

theorem arithOp_canon {op : ArOp} {o : OpBinE} {ix : Ix} (hs : Canonical s) : (arithOp op o ix s).Canon := laneOp_canon hs

theorem arithImm_canon {op : ArOp} {o : OpImm} {ix : Ix} (hs : Canonical s) : (arithImm op o ix s).Canon := laneOp_canon hs

/-! ### Machine/Scratch -/

theorem satomLane_canon {w : Nat} {op : AOp} {f : TFmt} {m : Swz} {o : OpX4} {l : Nat} (hs : Canonical s) :
    Canonical (satomLane s w op f m o l) := by
  unfold satomLane
  exact updWarp_canon (updTeam_canon hs)

theorem execSatom_answers {h : Hdr} {op : AOp} {fmt : TFmt} {swz : Swz} {o : OpX4} : Answers s (execSatom h op fmt swz o s) :=
  issued_answers fun _ _ ht => .ite trivial (.ok (.ite (satomLane_canon ht) (updWarp_canon (satomLane_canon ht))))

theorem satomDone_canon {w : Nat} (hs : Canonical s) : Canonical (satomDone s w) := ⟨hs.wf⟩

theorem lateArrival_canon {core slot : Nat} {r : Late} (hs : Canonical s) : Canonical (lateArrival s core slot r) := by
  unfold lateArrival
  split
  · extract_lets s1 s2
    have h1 : Canonical s1 := updCore_canon hs
    have h2 : Canonical s2 := by
      dsimp only [s2]
      split
      · exact satomLane_canon h1
      · exact h1
    exact .ite h1 (.ite (satomDone_canon h2) h2)
  · exact updWarp_canon (updCore_canon hs)

theorem execResultArrival_answers {core slot : Nat} : Answers s (execResultArrival core slot s) := by
  unfold execResultArrival
  refine answers_next fun hs => ?_
  split
  · refine .ite hs ?_
    split
    · exact endReq_canon hs
    · exact hs
  split
  · exact lateArrival_canon hs
  · exact hs

/-! ### Machine/WarpSys -/

theorem execSleepExpiry_answers {w : Nat} : Answers s (execSleepExpiry w s) := by
  unfold execSleepExpiry
  refine answers_next fun hs => ?_
  split
  · exact .ite (updWarp_canon hs) hs
  · exact hs

theorem execTrapEntry_answers {w : Nat} : Answers s (execTrapEntry w s) := by
  unfold execTrapEntry
  refine answers_next fun hs => ?_
  split
  · exact .ite hs (enterTrap_canon hs)
  · exact hs

/-! ### Machine/Atomic -/

theorem actAt_canon {pa : Nat} {tagged : Bool} {f : WV → WordAct} (hs : Canonical s) : Canonical (actAt s pa tagged f).1 := by
  unfold actAt
  dsimp only
  split
  · exact homeWrite_canon (homeRead_canon hs)
  · exact homeRead_canon hs

theorem vatomAt_canon {op : AOp} {f : TFmt} {pa : Nat} {b : Word} (hs : Canonical s) : Canonical (vatomAt s op f pa b).1 :=
  actAt_canon hs

theorem setReply_canon {c slot : Nat} {vals : List Val} (hs : Canonical s) : Canonical (setReply s c slot vals) := updCore_canon hs

theorem answerReq_canon {r : AswReq} {vals : List Val} (hs : Canonical s) : Canonical (answerReq s r vals) := by
  unfold answerReq
  refine .ite hs ?_
  split
  · exact endReq_canon hs
  · exact setReply_canon hs

theorem wakeWord_canon {pa : Nat} (hs : Canonical s) : Canonical (wakeWord s pa) := ⟨hs.wf⟩

theorem wakeHome_canon (hs : Canonical s) : Canonical (wakeHome s) := ⟨hs.wf⟩

theorem performOp_canon {r : AswReq} (hs : Canonical s) : Canonical (performOp s r).1 := by
  unfold performOp
  split
  · refine foldl_fst_canon (fun _ _ ha => ?_) hs
    exact actAt_canon ha
  · refine foldl_fst_canon (fun _ _ ha => ?_) hs
    exact vatomAt_canon ha
  · exact keepHeader_canon (actAt_canon hs)
  · exact .ite (tellSvc_canon (actAt_canon hs)) (actAt_canon hs)
  · exact withAnswers_canon (actAt_canon hs)
  · exact withAnswers_canon (actAt_canon hs)

theorem l1DropLine_canon {c line : Nat} (hs : Canonical s) : Canonical (l1DropLine s c line) :=
  foldl_canon (fun _ _ ht => dropHeaderAt_canon (.ite ht (l1DropClean_canon ht))) hs

theorem performReq_canon {r : AswReq} (hs : Canonical s) : Canonical (performReq s r) := by
  unfold performReq
  refine wakeHome_canon (wakeWord_canon (wakeDrained_canon ?_))
  split
  · exact acquire_canon (answerReq_canon (performOp_canon (l1DropLine_canon (.ite (racqAt_canon hs) hs))))
  · exact answerReq_canon (performOp_canon (l1DropLine_canon hs))

theorem execAswRequest_answers {cluster : Nat} : Answers s (execAswRequest cluster s) := by
  unfold execAswRequest
  dsimp only
  refine answers_next fun hs => ?_
  split
  · exact .ite hs (performReq_canon (setAsw_canon hs))
  · exact hs

theorem sendReq_canon {p : Nat} {r : AswReq} (hs : Canonical s) : Canonical (sendReq s p r) := setAsw_canon hs

theorem beforeReqs_canon {ix : Ix} {o : Ord4} {sc : Scope} {as : List Acc} (hs : Canonical s) :
    Canonical (beforeReqs s ix o sc as) :=
  foldl_canon (fun _ _ ht => noteRelease_canon (dropHeader_canon (l1Evict_canon ht))) (releaseFor_canon hs)

theorem postReq_canon {ix : Ix} {a : Acc} {op : AswOp} {ds : List Dst} {o : Ord4} {sc : Scope} {racq : Bool} (hs : Canonical s) :
    Canonical (postReq s ix a op ds o sc racq) :=
  .ite (sendReq_canon (addReq_canon hs)) (tellDropped_canon (addReq_canon hs))

theorem hostPerform_canon {ix : Ix} {op : AOp} {o : Ord4} {sc : Scope} {racq : Bool} {a : Acc} {b c : Val} (hs : Canonical s) :
    Canonical (hostPerform s ix op o sc racq a b c).1 := by
  unfold hostPerform
  extract_lets core s1 s2 x s3
  have h1 : Canonical s1 := .ite (racqAt_canon hs) hs
  have h2 : Canonical s2 := l2Evict_canon h1
  have h3 : Canonical s3 := by
    dsimp only [s3]
    split
    · exact clearResv_canon (rawWrite_canon h2)
    · exact h2
  exact fst_ite_canon (wakeWord_canon h3) h1

theorem sendAtom_canon {ix : Ix} {d : Reg} {a : Acc} {v : Val} (hs : Canonical s) : Canonical (sendAtom s ix d a v) :=
  addReq_canon hs

theorem acquireHalf_canon {w : Nat} {o : Ord4} {sc : Scope} (hs : Canonical s) : Canonical (acquireHalf s w o sc) := by
  unfold acquireHalf
  split
  · exact acquire_canon hs
  · exact hs

theorem hostAtom_canon {ix : Ix} {op : AOp} {d : Reg} {o : Ord4} {sc : Scope} {racq : Bool} {a : Acc} {b c : Val}
    (hs : Canonical s) :
    Canonical (hostAtom s ix op d o sc racq a b c) :=
  acquireHalf_canon (sendAtom_canon (hostPerform_canon hs))

theorem afterReqs_canon {w : Nat} {o : Ord4} (hs : Canonical s) : Canonical (afterReqs s w o) := .ite (updWarp_canon hs) hs

theorem reqOp_canon {ix : Ix} {p : Plans} {o : Ord4} {sc : Scope} {n : Nat} {send : State → State} (hs : Canonical p.s)
    (hsend : ∀ t, Canonical t → Canonical (send t)) :
    (reqOp ix p o sc n send).Canon :=
  .ite (finishCalls_canon hs (fun _ ht => ht)) (.ite hs (.ite hs (finishCalls_canon hs
    (fun _ ht => .ite ht (afterReqs_canon (hsend _ (beforeReqs_canon ht)))))))

theorem swapLane_canon {ix : Ix} {o : OpAtom} {a : Acc} (hs : Canonical s) : Canonical (swapLane s ix o a).1 := by
  unfold swapLane
  extract_lets x p b c q1 s1 q2 s2
  have h2 : Canonical s2 := wakeWord_canon (actAt_canon (.ite (racqAt_canon hs) hs))
  refine fst_ite_canon (hostPerform_canon hs) (fst_ite_canon (tellDropped_canon hs) ?_)
  split
  next e => exact (barrier_canon h2).of_eq e
  next e => exact (barrier_canon h2).of_eq e
  · exact h2
  next e => exact (barrier_canon h2).of_eq e

theorem swapAll_canon {ix : Ix} {o : OpAtom} {as : List Acc} (hs : Canonical s) : Canonical (swapAll s ix o as).s := by
  unfold swapAll
  dsimp only
  refine foldl_induct (P := fun p : Loads => Canonical p.s) (fun _ _ ha => ?_) hs
  split <;> exact swapLane_canon ha

theorem finishSwap_canon {ix : Ix} {o : OpAtom} {vs : List (Acc × Val × Option Val)} (hs : Canonical s) :
    Canonical (finishSwap s ix o vs) := by
  unfold finishSwap
  refine acquireHalf_canon (foldl_canon (fun _ _ => sendAtom_canon) (foldl_canon (fun _ _ ht => ?_) hs))
  split
  · exact heal_canon ht
  · exact ht

theorem swapWhole_canon {ix : Ix} {p : Plans} {o : OpAtom} (hs : Canonical p.s) : (swapWhole ix p o).Canon := by
  unfold swapWhole
  dsimp only
  refine .ite (finishCalls_canon hs (fun _ ht => ht)) (.ite hs (.ite hs (.ite hs ?_)))
  split
  · exact hs
  · exact finishCalls_canon (swapAll_canon (beforeReqs_canon hs)) (fun _ => finishSwap_canon)

theorem execAtom_answers {h : Hdr} {o : OpAtom} : Answers s (execAtom h o s) := by
  refine issued_answers fun ix t ht => ?_
  extract_lets x srcs p0 p gs
  have hp : Canonical p.s := Plans.check_canon (planMem_canon ht)
  refine .ite (swapWhole_canon hp) (reqOp_canon hp fun u hu => foldl_canon (fun v a hv => ?_) hu)
  split
  · exact hv
  · exact .ite (foldl_canon (fun _ _ => hostAtom_canon) hv) (postReq_canon hv)

theorem execVatom_answers {h : Hdr} {op : AOp} {ef : TFmt} {d a b : Reg} {ord : Ord4} {scope : Scope} :
    Answers s (execVatom h op ef d a b ord scope s) := by
  refine issued_answers fun ix t ht => ?_
  refine reqOp_canon (Plans.check_canon (planMem_canon ht)) fun u hu => foldl_canon (fun v a hv => ?_) hu
  split
  · exact hv
  · exact postReq_canon hv

theorem execHcas_answers {h : Hdr} {o : OpX4} {ord : Ord4} {scope : Scope} {racq : Bool} :
    Answers s (execHcas h o ord scope racq s) :=
  issued_answers fun _ _ ht => reqOp_canon (Plans.check_canon (planMem_canon ht)) (fun _ => foldl_canon (fun _ _ => postReq_canon))

theorem deliver_canon {core slot : Nat} {vs : List (Dst × Val)} (hs : Canonical s) : Canonical (deliver s core slot vs) :=
  tableBoundary_canon (endReq_canon hs)

theorem execAtomicReply_answers {core slot : Nat} : Answers s (execAtomicReply core slot s) := by
  unfold execAtomicReply
  refine answers_next fun hs => ?_
  split
  · refine .ite hs ?_
    split
    · exact deliver_canon hs
    · exact hs
  · exact hs

theorem aswStop_canon {cluster : Nat} (hs : Canonical s) : Canonical (aswStop s cluster) := tellSvc_canon (setAsw_canon hs)

theorem loseReq_canon {r : AswReq} (hs : Canonical s) : Canonical (loseReq s r) := by
  unfold loseReq
  extract_lets s1 s2
  have h1 : Canonical s1 := by
    dsimp only [s1]
    split
    · exact withAnswers_canon hs
    · exact withAnswers_canon hs
    · exact answerReq_canon hs
  have h2 : Canonical s2 := by
    dsimp only [s2]
    split
    · exact acquire_canon h1
    · exact h1
  exact wakeHome_canon (wakeDrained_canon h2)

theorem execAswRestart_answers {cluster : Nat} {intact : List Bool} : Answers s (execAswRestart cluster intact s) :=
  answers_next fun hs => .ite hs (wakeHome_canon (foldl_canon (fun _ _ => loseReq_canon) (setAsw_canon hs)))

/-! ### Machine/Bench -/

theorem setBench_canon {team b : Nat} {x : Bench} (hs : Canonical s) : Canonical (setBench s team b x) := updTeam_canon hs

theorem benchSettle_canon {team b : Nat} (hs : Canonical s) : Canonical (benchSettle s team b) :=
  .ite (withWarps_canon (setBench_canon hs)) hs

theorem execBninit_answers {h : Hdr} {bench pcnt ccnt : BitVec 5} : Answers s (execBninit h bench pcnt ccnt s) :=
  issued_answers fun _ _ ht => .ite trapOnce_canon (benchSettle_canon (foldl_canon (fun _ _ => updWarp_canon) (setBench_canon ht)))

theorem benchArrive_canon {team b : Nat} {prod : Bool} (hs : Canonical s) : Canonical (benchArrive s team b prod) :=
  benchSettle_canon (setBench_canon hs)

theorem arriveOp_canon {ix : Ix} {b : Nat} {next : State → Res} (hs : Canonical s) (hnext : ∀ t, Canonical t → (next t).Canon) :
    (arriveOp ix s b next).Canon :=
  .ite hs (.ite hs (hnext _ (benchArrive_canon hs)))

theorem benchWait_canon {ix : Ix} {b : Nat} (hs : Canonical s) : (benchWait ix s b).Canon := .ite hs (updWarp_canon hs)

theorem execBnaw_answers {h : Hdr} {bench : BitVec 5} : Answers s (execBnaw h bench s) :=
  issued_answers fun _ _ ht => .ite trapOnce_canon (.ite (benchWait_canon ht)
    (arriveOp_canon ht (fun _ ht1 => benchWait_canon (updWarp_canon ht1))))

/-! ### Machine/Bitwise -/

theorem bitOp_canon {f : Word → Word → Word} {o : OpBin} {ix : Ix} (hs : Canonical s) : (bitOp f o ix s).Canon := laneOp_canon hs

theorem bitImm_canon {f : Word → Word → Word} {o : OpImm} {ix : Ix} (hs : Canonical s) : (bitImm f o ix s).Canon := laneOp_canon hs

theorem bitUnOp_canon {f : Val → Val} {o : OpUn} {ix : Ix} (hs : Canonical s) : (bitUnOp f o ix s).Canon := laneOp_canon hs

theorem shiftOp_canon {f : Word → Nat → Word} {o : OpBin} {ix : Ix} (hs : Canonical s) : (shiftOp f o ix s).Canon := laneOp_canon hs

theorem shiftImm_canon {f : Word → Nat → Word} {d a : Reg} {n : BitVec 6} {ix : Ix} (hs : Canonical s) :
    (shiftImm f d a n ix s).Canon :=
  laneOp_canon hs

theorem pairOp_canon {cls : Nat} {ok : Tag → Tag → Bool} {f : Val → Val → Val} {o : OpBin} {ix : Ix} (hs : Canonical s) :
    (pairOp cls ok f o ix s).Canon :=
  laneOp_canon hs

/-! ### Machine/Tiles -/

theorem flipThread_canon {team : Nat} {gs : List Nat} (hs : Canonical s) : Canonical (flipThread s team gs) :=
  withWarps_canon (updTeam_canon hs)

theorem recordFault_canon {team g : Nat} {r : FaultRec} (hs : Canonical s) : Canonical (recordFault s team g r) := updTeam_canon hs

theorem execGive_answers {h : Hdr} {a : Reg} : Answers s (execGive h a s) := by
  unfold execGive
  dsimp only
  refine issued_answers fun _ _ ht => ?_
  split
  · exact trivial
  · exact .ite ht (updTeam_canon ht)

theorem execTake_answers {h : Hdr} {a : Reg} : Answers s (execTake h a s) := by
  refine issued_answers fun ix t ht => ?_
  extract_lets x y
  split
  · exact trivial
  · rename_i u _
    cases u.granules.any (engineOwned y) with
    | true => exact ht
    | false =>
      cases topRecord y u.granules with
      | none => exact ht
      | some r => exact trivial

theorem execOwnq_answers {h : Hdr} {d a : Reg} : Answers s (execOwnq h d a s) := by
  unfold execOwnq
  dsimp only
  refine issued_answers fun _ _ ht => ?_
  split
  · exact trivial
  · exact laneOp_canon ht

/-! ### Machine/Transc -/

theorem transcOp_canon {f : TFn} {o : OpUn} {ix : Ix} (hs : Canonical s) : (transcOp f o ix s).Canon := laneOp_canon hs

/-! ### Machine/Kv -/

theorem setSlot_canon {p seq : Nat} {x : KvSlot} (hs : Canonical s) : Canonical (setSlot s p seq x) := updPart_canon hs

theorem ktbFill_canon {c key : Nat} {e : Word} (hs : Canonical s) : Canonical (ktbFill s c key e) := updCore_canon hs

theorem sliceFill_canon {p key h : Nat} {e : Word} (hs : Canonical s) : Canonical (sliceFill s p key h e) := ⟨hs.wf⟩

theorem secondWord_canon {chip key k : Nat} (hs : Canonical s) : Canonical (secondWord s chip key k).1 := by
  unfold secondWord
  dsimp only
  split
  · exact fst_ite_canon (homeRead_canon hs) (takeFree_canon (homeRead_canon hs))
  · exact fst_ite_canon (homeRead_canon hs) ⟨(homeRead_canon hs).wf⟩

theorem kvSecond_fstCanon {p : Nat} {e : Word} (hs : Canonical s) : FstCanon (kvSecond s p e) := by
  unfold kvSecond
  extract_lets chip g
  split
  · exact ⟨hs⟩
  extract_lets w7 k told key
  refine .ite ⟨hs⟩ (.ite ⟨tellSvc_canon (tellSvc_canon hs)⟩ (.ite ⟨hs⟩ (.ite ⟨hs⟩ ?_)))
  refine .bind (fun _ _ _ => rfl) (secondWord_canon hs) fun _ _ ht => ?_
  refine .bind (fun _ _ _ => rfl) (secondWord_canon ht) fun _ _ ht => ?_
  refine .bind (fun _ _ _ => rfl) (homeRead_canon ht) fun _ _ ht => ?_
  refine .bind (fun _ _ _ => rfl) (homeRead_canon ht) fun _ _ ht => ?_
  exact .ite ⟨ht⟩ ⟨ht⟩

theorem kvSecond_canon {p : Nat} {e : Word} (hs : Canonical s) : Canonical (kvSecond s p e).1 := (kvSecond_fstCanon hs).canon

theorem execKvapp_answers {h : Hdr} {a b c : Reg} : Answers s (execKvapp h a b c s) := by
  unfold execKvapp
  refine issued_answers fun ix t ht => .ite trivial (.ite ht ?_)
  split
  · exact ht
  · exact trapOnce_canon
  refine .ite trapOnce_canon ?_
  split
  next e =>
    have hu := fst_canon_of_eq (kvSecond_canon (ktbFill_canon ht)) e
    split
    · exact trapOnce_canon
    · exact trapOnce_canon
    · exact tellDropped_canon hu
    · exact .ite trapOnce_canon (.ok (withAppends_canon (foldl_canon (fun _ _ => l1Evict_canon) (releaseFor_canon hu))))

theorem pageWrite_canon {k : Nat} {w : Word} {bad : Bool} (hs : Canonical s) : Canonical (pageWrite s k w bad) := homeWrite_canon hs

theorem swatchPut_canon {k : Nat} {f : Nat → Nat → Nat} {first : Bool} {w : Word} (hs : Canonical s) :
    Canonical (swatchPut s k f first w) :=
  .ite (pageWrite_canon hs) (pageWrite_canon (homeRead_canon hs))

theorem appendNotes_canon {a : Machine.Append} (hs : Canonical s) : Canonical (appendNotes s a) :=
  foldl_canon (fun _ _ ht => noteRelease_canon (l1DropLine_canon ht)) hs

theorem appendAt_canon {a : Machine.Append} (hs : Canonical s) : Canonical (appendAt s a) :=
  foldl_canon (fun _ _ => swatchPut_canon) (foldl_canon (fun _ _ => swatchPut_canon)
    (foldl_canon (fun _ _ => pageWrite_canon) (foldl_canon (fun _ _ => pageWrite_canon) hs)))

theorem wakeAppend_canon {w : Nat} (hs : Canonical s) : Canonical (wakeAppend s w) :=
  .ite (updWarp_canon (wakeDrained_canon hs)) (wakeDrained_canon hs)

theorem execKvappPerform_answers {n : Nat} : Answers s (execKvappPerform n s) := by
  unfold execKvappPerform
  refine answers_next fun hs => ?_
  split
  · exact hs
  refine .ite hs (wakeAppend_canon ?_)
  split
  · exact appendNotes_canon (appendAt_canon ⟨hs.wf⟩)
  · exact tellDropped_canon ⟨hs.wf⟩

theorem kvCount_canon {p seq : Nat} (hs : Canonical s) : Canonical (kvCount s p seq).1 := fst_ite_canon (setSlot_canon hs) hs

theorem kvUncount_canon {p : Nat} {es : List (Nat × Bool)} (hs : Canonical s) : Canonical (kvUncount s p es) :=
  foldl_canon (fun _ _ => setSlot_canon) hs

theorem recordOut_canon {team : Nat} {h : Handle} {c : Cause} (hs : Canonical s) : Canonical (recordOut s team h c) :=
  recordFault_canon hs

theorem pageRead_canon {p pa n : Nat} (hs : Canonical s) : Canonical (pageRead s p pa n).1 := by
  unfold pageRead
  extract_lets ks gone q s1
  have hq : Canonical q.1 := by
    refine foldl_fst_canon (fun a k ha => ?_) hs
    exact homeRead_canon ha
  dsimp only [s1]
  clear_value s1 q gone
  split
  · exact hq
  · exact tellDropped_canon hq

theorem blockBounds_canon {k : KselOp} {j : Nat} (hs : Canonical s) : Canonical (blockBounds s k j).1 := by
  unfold blockBounds
  split
  · split
    next e =>
      have ht := fst_canon_of_eq (kvSecond_canon hs) e
      split
      · exact ht
      · exact ht
      · exact tellDropped_canon ht
      · extract_lets t1
        split
        next e => exact fst_canon_of_eq (pageRead_canon (sliceFill_canon ht)) e
        next e => exact fst_canon_of_eq (pageRead_canon (sliceFill_canon ht)) e
  · exact hs

theorem setKsel_canon {n : Nat} {k : KselOp} (hs : Canonical s) : Canonical (setKsel s n k) := ⟨hs.wf⟩

theorem execPageSelect_answers {n : Nat} : Answers s (execPageSelect n s) := by
  unfold execPageSelect
  refine answers_next fun hs => ?_
  split
  · exact hs
  refine .ite hs (setKsel_canon (foldl_fst_canon (fun _ _ => ?_) ?_))
  · exact blockBounds_canon
  · exact fst_ite_canon (kvCount_canon hs) hs

theorem execKselComplete_answers {n : Nat} : Answers s (execKselComplete n s) := by
  unfold execKselComplete
  refine answers_next fun hs => ?_
  split
  · exact hs
  split
  · exact hs
  refine wakeDrained_canon (kvUncount_canon (flipThread_canon ?_))
  split
  · exact recordOut_canon (updTeam_canon ⟨hs.wf⟩)
  · exact updTeam_canon ⟨hs.wf⟩

theorem attnEntry_canon {p core : Nat} {d e : Word} (hs : Canonical s) : Canonical (attnEntry s p core d e).1 := by
  unfold attnEntry
  extract_lets j
  split
  · refine fst_ite_canon hs ?_
    split
    next e =>
      have ht := fst_canon_of_eq (kvSecond_canon (ktbFill_canon hs)) e
      split
      · exact ht
      · exact ht
      · exact tellDropped_canon ht
      · exact sliceFill_canon ht
  · exact hs

theorem execAttn_answers {h : Hdr} {o : OpX4} : Answers s (execAttn h o s) := by
  refine issued_answers fun ix t ht => ?_
  extract_lets x y p dv d hd hc df fs es gone c q
  have h1 : Canonical c.1 := fst_ite_canon ht (kvCount_canon ht)
  have h2 : Canonical q.1 := by
    refine fst_ite_canon h1 (foldl_fst_canon (fun a e ha => ?_) h1)
    split
    next e => exact fst_canon_of_eq (attnEntry_canon ha) e
    next e => exact fst_canon_of_eq (attnEntry_canon ha) e
  clear_value c q fs es
  split
  · exact trivial
  split
  · exact ht
  split
  · exact ht
  split
  · exact ht
  · exact withAttns_canon h2

theorem setAttn_canon {n : Nat} {a : AttnOp} (hs : Canonical s) : Canonical (setAttn s n a) := ⟨hs.wf⟩

theorem execAttnPartial_answers {n block : Nat} : Answers s (execAttnPartial n block s) := by
  unfold execAttnPartial
  refine answers_next fun hs => ?_
  split
  · exact hs
  split
  · exact hs
  extract_lets a
  split
  next e => exact setAttn_canon (fst_canon_of_eq (pageRead_canon hs) e)
  next e =>
    have ht := fst_canon_of_eq (pageRead_canon hs) e
    split
    next e => exact setAttn_canon (fst_canon_of_eq (pageRead_canon ht) e)
    next e => exact setAttn_canon (fst_canon_of_eq (pageRead_canon ht) e)

theorem loseTriples_canon (hs : Canonical s) : Canonical (loseTriples s) := by
  unfold loseTriples
  refine foldl_canon (fun t a ht => ?_) (withAttns_canon hs)
  refine withAttns_canon (foldl_fst_canon (fun _ _ hr => ?_) ht)
  exact tellDropped_canon hr

theorem mergeOne_canon {n : Nat} {a : AttnOp} {block : Nat} {t : Triple} (hs : Canonical s) :
    Canonical (mergeOne s n a block t) := by
  unfold mergeOne
  dsimp only
  split <;> exact setAttn_canon (takeFree_canon hs)

theorem attnDone_canon {n : Nat} {a : AttnOp} (hs : Canonical s) : Canonical (attnDone s n a) := by
  unfold attnDone
  refine wakeDrained_canon (kvUncount_canon (flipThread_canon ?_))
  split
  · exact recordOut_canon (updTeam_canon ⟨hs.wf⟩)
  · exact updTeam_canon ⟨hs.wf⟩

theorem execAttnMerge_answers {n block : Nat} : Answers s (execAttnMerge n block s) := by
  unfold execAttnMerge
  refine answers_next fun hs => ?_
  split
  · exact hs
  split
  · exact mergeOne_canon hs
  · exact .ite (attnDone_canon hs) hs

/-! ### Machine/KvMap -/

theorem execKvmap_answers {h : Hdr} {a b c : Reg} : Answers s (execKvmap h a b c s) :=
  issued_answers fun _ _ ht =>
    .ite trivial (.ite ht (.ite trivial (.ok (.ite (updPart_canon ht) (setSlot_canon (updPart_canon ht))))))

theorem kvsdFinish_canon {o : KvsdOp} (hs : Canonical s) : Canonical (kvsdFinish s o) := by
  unfold kvsdFinish
  extract_lets s1 s2 seq x s3 s4
  have h2 : Canonical s2 := updPart_canon ⟨hs.wf⟩
  have h3 : Canonical s3 := .ite (setSlot_canon h2) h2
  have h4 : Canonical s4 := .ite (setSlot_canon h3) h3
  exact ⟨h4.wf⟩

theorem execKvsd_answers {h : Hdr} {a b : Reg} : Answers s (execKvsd h a b s) :=
  issued_answers fun _ _ ht => .ite trivial (.ite ht (.ite ht (.ite (kvsdFinish_canon ⟨(release_canon ht).wf⟩)
    (updWarp_canon ⟨(release_canon ht).wf⟩))))

theorem ktbDrop_canon {o : KvsdOp} {chip : Nat} (hs : Canonical s) : Canonical (ktbDrop s o chip) := ⟨hs.wf⟩

theorem setKvsd_canon {o : KvsdOp} (hs : Canonical s) : Canonical (setKvsd s o) := ⟨hs.wf⟩

theorem execKtbShootdownRequest_answers {chip n : Nat} : Answers s (execKtbShootdownRequest chip n s) := by
  unfold execKtbShootdownRequest
  refine answers_next fun hs => ?_
  split
  · exact .ite (setKvsd_canon (ktbDrop_canon hs)) hs
  · exact hs

theorem kvsdAck_canon {o : KvsdOp} {chip : Nat} (hs : Canonical s) : Canonical (kvsdAck s o chip) :=
  .ite (kvsdFinish_canon hs) (setKvsd_canon hs)

theorem execKtbAcknowledgment_answers {chip n : Nat} : Answers s (execKtbAcknowledgment chip n s) := by
  unfold execKtbAcknowledgment
  refine answers_next fun hs => ?_
  split
  · exact .ite (kvsdAck_canon hs) hs
  · exact hs

theorem emptyKtbs_canon {chip : Nat} (hs : Canonical s) : Canonical (emptyKtbs s chip) := ⟨hs.wf⟩

theorem kvsdLost_canon {chip : Nat} (hs : Canonical s) : Canonical (kvsdLost s chip) :=
  foldl_canon (fun _ _ ht => .ite (kvsdAck_canon ht) ht) (emptyKtbs_canon hs)

theorem execKvret_answers {h : Hdr} {a : Reg} : Answers s (execKvret h a s) :=
  issued_answers fun _ _ ht => .ite trivial (.ok (.ite (setSlot_canon ht) ht))

theorem execSlotDrained_answers {part seq : Nat} : Answers s (execSlotDrained part seq s) := by
  unfold execSlotDrained
  extract_lets x s1
  refine answers_next fun hs => .ite ?_ hs
  have h1 : Canonical s1 := tellSvc_canon (setSlot_canon hs)
  exact .ite h1 (setSlot_canon h1)

/-! ### Machine/Retire -/

theorem holdCompl_canon {q : Nat} {c : Machine.Compl} (hs : Canonical s) : Canonical (holdCompl s q c) := updQueue_canon hs

theorem gridGone_canon {g : Nat} (hs : Canonical s) : Canonical (gridGone s g) := setGrid_canon hs

theorem wakeStop_canon {g : Nat} (hs : Canonical s) : Canonical (wakeStop s g) := .ite hs ⟨hs.wf⟩

theorem gridDone_canon {g : Nat} (hs : Canonical s) : Canonical (gridDone s g) := by
  unfold gridDone
  refine .ite hs ?_
  split
  · exact hs
  · exact gridGone_canon (holdCompl_canon hs)

theorem gridLess_canon {g n : Nat} (hs : Canonical s) : Canonical (gridLess s g n) := gridDone_canon (updGrid_canon hs)

theorem retireWarp_canon {w : Nat} (hs : Canonical s) : Canonical (retireWarp s w) :=
  .ite (.ite (wakeStop_canon (gridLess_canon (setWarp_canon hs))) (gridLess_canon (setWarp_canon hs))) hs

/-! ### Machine/Package -/

theorem execWqry_answers {h : Hdr} {a : Reg} : Answers s (execWqry h a s) := by
  refine issued_answers fun ix t ht => ?_
  extract_lets x y v
  split
  · exact trivial
  · extract_lets fs
    clear_value fs
    exact .ite trivial ⟨ht.wf⟩

theorem execWqryReply_answers {n : Nat} : Answers s (execWqryReply n s) := by
  unfold execWqryReply
  refine answers_next fun hs => ?_
  split
  · exact hs
  · exact flipThread_canon (updTeam_canon (.ite (updGrid_canon ⟨hs.wf⟩) ⟨hs.wf⟩))

theorem signalOut_canon {p c w : Nat} {op : SigOp} {b : Word} {pa : Nat} {t : Bool} (hs : Canonical s) :
    Canonical (signalOut s p c w op b pa t) := by
  unfold signalOut
  refine .ite (.ite (wakeWord_canon ?_) (tellDropped_canon hs)) (.ite (sendReq_canon (fst_ite_canon hs (addReq_canon hs)))
    (tellDropped_canon hs))
  split
  · exact clearResv_canon (rawWrite_canon (l2Evict_canon hs))
  · exact l2Evict_canon hs

theorem sendSignal_canon {ix : Ix} {op : SigOp} {b : Word} {a : Acc} (hs : Canonical s) : Canonical (sendSignal s ix op b a) :=
  signalOut_canon hs

theorem execSignal_answers {h : Hdr} {op : SigOp} {rel : Bool} {o : OpSig} : Answers s (execSignal h op rel o s) := by
  refine issued_answers fun ix t ht => ?_
  extract_lets x bv p0 p s1
  have hp : Canonical p.s := Plans.check_canon (planMem_canon ht)
  refine .ite (finishCalls_canon hp fun _ hu => hu) (.ite hp (.ite hp (finishCalls_canon hp fun _ hu => .ite hu ?_)))
  exact foldl_canon (fun _ _ => sendSignal_canon) (beforeReqs_canon hu)

theorem hostFresh_canon {pa : Nat} (hs : Canonical s) : Canonical (hostFresh s pa) := .ite (l2Evict_canon hs) hs

theorem waitsRead_canon {p pa : Nat} {t : Bool} (hs : Canonical s) : Canonical (waitsRead s p pa t).1 :=
  fst_ite_canon (tellRefused_canon hs) (homeRead_canon (hostFresh_canon hs))

theorem execWaits_answers {h : Hdr} {cc : Cc} {acq : Bool} {o : OpSig} : Answers s (execWaits h cc acq o s) := by
  refine issued_answers fun ix t ht => ?_
  extract_lets x bv p0 p
  have hp : Canonical p.s := planMem_canon ht
  refine .ite (finishCalls_canon hp fun _ h => h) (.ite hp ?_)
  split
  · exact finishCalls_canon hp fun _ h => h
  · extract_lets r
    have hr : Canonical r.1 := fst_ite_canon hp (waitsRead_canon (readAtHome_canon hp))
    exact .ite trapPoison_canon (.ite (.ok (.ite (acquire_canon hr) hr)) hr)

theorem waitsTest_canon {w : Nat} {host : Bool} (hs : Canonical s) : Canonical (waitsTest s w host) := by
  unfold waitsTest
  split
  · exact .ite hs (.ite (updWarp_canon (fst_ite_canon hs (waitsRead_canon hs))) (fst_ite_canon hs (waitsRead_canon hs)))
  · exact hs

theorem execCmpl_answers {h : Hdr} {a : Reg} : Answers s (execCmpl h a s) :=
  issued_answers fun _ _ ht => .ite trivial (.ite ht (updWarp_canon (holdCompl_canon (release_canon ht))))

theorem dresserWrite_canon {pa : Nat} {l : Leaf} {w : Word} (hs : Canonical s) : Canonical (dresserWrite s pa l w) :=
  homeWrite_canon hs

theorem readRecord_canon {w va : Nat} (hs : Canonical s) : (readRecord s w va).Canon := by
  unfold readRecord
  refine foldl_induct (P := RecRead.Canon) (fun _ _ ht => ?_) hs
  split
  · split
    next e => exact (needWord_canon ht).of_eq e
    · exact trivial
    next e => exact (needWord_canon ht).of_eq e
  · exact ht

theorem ringPut_canon {ix : Ix} {p q : Nat} {ws : List Word} (hs : Canonical s) : (ringPut s ix p q ws).Canon := by
  unfold ringPut
  dsimp only
  split
  · exact askHost_canon hs
  · exact priTaken_canon (updQueue_canon hs)
  · exact .ite (updQueue_canon (tellDropped_canon hs)) (tailWrite_canon (foldl_canon (fun _ _ => dresserWrite_canon)
      (l1Evict_canon hs)))

theorem execDlaunch_answers {h : Hdr} {a b : Reg} : Answers s (execDlaunch h a b s) := by
  unfold execDlaunch
  refine issued_answers fun ix t ht => .ite trivial (.ite ht ?_)
  split
  · exact ht
  · exact trivial
  next e =>
    have hu := (readRecord_canon ht).of_eq e
    exact .ite (release_canon hu) (ringPut_canon (release_canon hu))

theorem icDrop_canon {c : Nat} {v : Option Nat} (hs : Canonical s) : Canonical (icDrop s c v) := updCore_canon hs

/-! ### Machine/Dresser -/

theorem dresserWord_canon {p va : Nat} (hs : Canonical s) : (dresserWord s p va).Canon := by
  unfold dresserWord
  split
  · exact trivial
  · exact trivial
  · exact .ite hs (.ite trivial (.ite trivial (homeRead_canon (hostFresh_canon hs))))

theorem dresserRead_canon {p va n : Nat} (hs : Canonical s) : (dresserRead s p va n).Canon := by
  refine .ite trivial (foldl_induct (P := DRead.Canon) (fun r i hr => ?_) hs)
  cases r with
  | ok t vs =>
    have hw : (dresserWord t p (va + 8 * i)).Canon := dresserWord_canon hr
    dsimp only
    split
    · rename_i e
      rw [e] at hw
      exact hw
    · exact hw
  | owed iova => exact hr
  | fail => exact hr

theorem dresserTold_canon {p va n : Nat} {need : Need} (hs : Canonical s) : Canonical (dresserTold s p va n need) := by
  unfold dresserTold
  split
  · exact tellRefused_canon hs
  · exact hs

theorem dresserVal_canon {p va : Nat} (hs : Canonical s) : (dresserVal s p va).Canon := by
  unfold dresserVal
  split
  next e => exact .ite trivial ((dresserRead_canon hs).of_eq e)
  · exact trivial
  · exact trivial

theorem someGridno_canon (hs : Canonical s) : Canonical (someGridno s).2 := takeFree_canon hs

theorem badRecord_canon {q index status : Nat} {err : Bool} (hs : Canonical s) : Canonical (badRecord s q index status err) :=
  .ite (updQueue_canon (holdCompl_canon (someGridno_canon hs))) (holdCompl_canon (someGridno_canon hs))

theorem bindVersion_canon {p : Nat} {ws : List Word} (hs : Canonical s) : Canonical (bindVersion s p ws).2 := by
  unfold bindVersion
  extract_lets v e cur r n
  refine snd_ite_canon hs (snd_ite_canon hs ?_)
  dsimp only
  exact updPart_canon (takeFree_canon hs)

theorem bindRecord_canon {p : Nat} {ws : List Word} (hs : Canonical s) : Canonical (bindRecord s p ws).2 := by
  unfold bindRecord
  split
  · exact bindPages_canon (bindVersion_canon hs)
  · exact hs

theorem newGrid_canon {p q index ver : Nat} {ws : List Word} {node : Option (Nat × Nat)} (hs : Canonical s) :
    Canonical (newGrid s p q index ver ws node) :=
  setGrid_canon ⟨hs.wf⟩

theorem startNodes_canon {fuel k : Nat} {ns : List (Nat × Bool)} (hs : Canonical s) : Canonical (startNodes fuel s k ns) := by
  induction fuel generalizing s k ns with
  | zero => exact hs
  | succ fuel ih =>
    refine foldl_canon (fun t e ht => .ite ht (.ite (setGraph_canon ht) ?_)) hs
    split
    · exact newGrid_canon (setGraph_canon ht)
    · exact ih (setGraph_canon ht)
    · exact setGraph_canon ht

theorem startAll_canon {k : Nat} {ns : List (Nat × Bool)} (hs : Canonical s) : Canonical (startAll s k ns) := startNodes_canon hs

theorem graphEnds_canon {k : Nat} (hs : Canonical s) : Canonical (graphEnds s k) := setGraph_canon hs

theorem graphFail_canon {k status : Nat} (hs : Canonical s) : Canonical (graphFail s k status) :=
  graphEnds_canon (badRecord_canon hs)

theorem graphDone_canon {k : Nat} (hs : Canonical s) : Canonical (graphDone s k) :=
  .ite (graphEnds_canon (holdCompl_canon (someGridno_canon hs))) hs

theorem sigTold_canon {p : Nat} {g : Option (SigOp × Nat × Word)} (hs : Canonical s) : Canonical (sigTold s p g) := by
  unfold sigTold
  split
  · exact dresserTold_canon hs
  · exact hs

theorem sigPerform_canon {p : Nat} {g : Option (SigOp × Nat × Word)} {pl : SigPlace} (hs : Canonical s) :
    Canonical (sigPerform s p g pl) := by
  unfold sigPerform
  split
  · exact signalOut_canon hs
  · exact hs

theorem releasePart_canon {p : Nat} (hs : Canonical s) : Canonical (releasePart s p) := foldl_canon (fun _ _ => release_canon) hs

theorem nodeDone_canon {k i : Nat} (hs : Canonical s) : Canonical (nodeDone s k i) := by
  unfold nodeDone
  dsimp only
  split
  · exact askHost_canon hs
  · exact graphFail_canon (priTaken_canon (sigTold_canon hs))
  · exact graphDone_canon (startAll_canon (setGraph_canon (sigPerform_canon (releasePart_canon hs))))

theorem execGraphNodeComplete_answers {graph node : Nat} : Answers s (execGraphNodeComplete graph node s) := by
  unfold execGraphNodeComplete
  refine answers_next fun hs => .ite hs ?_
  split
  · exact .ite (nodeDone_canon hs) hs
  · split
    · refine .ite hs (.ite (graphEnds_canon (gridGone_canon hs)) ?_)
      split
      · exact askHost_canon hs
      · exact nodeDone_canon (setGraph_canon (gridGone_canon hs))
    · exact hs
  · exact hs

theorem execLoopCondition_answers {graph node : Nat} : Answers s (execLoopCondition graph node s) := by
  unfold execLoopCondition
  refine answers_next fun hs => .ite hs ?_
  split
  · exact askHost_canon hs
  · exact graphFail_canon (priTaken_canon (dresserTold_canon hs))
  next e =>
    have ht := (dresserVal_canon hs).of_eq e
    exact .ite (nodeDone_canon ht) (startAll_canon (setGraph_canon ht))

theorem bindNodes_canon {p : Nat} {nodes : List (List Word)} (hs : Canonical s) : Canonical (bindNodes s p nodes).2 :=
  foldl_induct (P := fun p : List Nat × State => Canonical p.2) (fun _ _ => bindRecord_canon) hs

theorem startGraph_canon {p q index : Nat} {ws : List Word} (hs : Canonical s) : Canonical (startGraph s p q index ws) := by
  unfold startGraph
  dsimp only
  split
  next e =>
    have ht := (dresserRead_canon hs).of_eq e
    exact .ite (badRecord_canon ht) (graphDone_canon (startAll_canon (setGraph_canon (bindNodes_canon ht))))
  · exact badRecord_canon (priTaken_canon (dresserTold_canon hs))

theorem launchRecord_canon {p q index ver : Nat} {ws : List Word} (hs : Canonical s) :
    Canonical (launchRecord s p q index ver ws) := by
  unfold launchRecord
  split
  · exact newGrid_canon hs
  · exact startGraph_canon hs
  · exact holdCompl_canon hs

theorem recordReady_canon {p : Nat} {ws : List Word} (hs : Canonical s) : (recordReady s p ws).Canon := by
  unfold recordReady
  split
  · exact trivial
  · exact trivial
  next e => exact .ite ((dresserVal_canon hs).of_eq e) trivial

theorem rotateOn_canon {p q : Nat} {ws : List Word} (hs : Canonical s) : Canonical (rotateOn s p q ws) := updPart_canon hs

theorem wakeRing_canon {q : Nat} (hs : Canonical s) : Canonical (wakeRing s q) := ⟨hs.wf⟩

theorem startRecord_canon {p q index : Nat} {ws : List Word} (hs : Canonical s) : Canonical (startRecord s p q index ws) :=
  .ite (badRecord_canon hs) (.ite (updQueue_canon (bindRecord_canon hs)) (launchRecord_canon
    (rotateOn_canon (bindRecord_canon hs))))

theorem execTakeRecord_answers {q : Nat} : Answers s (execTakeRecord q s) := by
  unfold execTakeRecord
  refine answers_next fun hs => ?_
  split
  · exact hs
  extract_lets x s1
  have h1 : Canonical s1 := l2DropSystem_canon hs
  refine .ite hs ?_
  split
  · exact askHost_canon h1
  · exact .ite (priTaken_canon (updQueue_canon (dresserTold_canon h1))) h1
  next e =>
    have hu := (dresserRead_canon h1).of_eq e
    exact .ite (askHost_canon hu) (.ite h1 (startRecord_canon (wakeRing_canon (updQueue_canon hu))))

theorem waitHead_canon {p q : Nat} (hs : Canonical s) : Canonical (waitHead s p q) := by
  unfold waitHead
  dsimp only
  split
  · exact hs
  split
  · exact hs
  · exact askHost_canon hs
  · exact .ite (badRecord_canon (updQueue_canon (priTaken_canon (dresserTold_canon hs)))) hs
  next e =>
    have ht := (recordReady_canon hs).of_eq e
    exact .ite (askHost_canon ht) (.ite hs (launchRecord_canon (updQueue_canon (rotateOn_canon ht))))

theorem waitNode_canon {k i : Nat} (hs : Canonical s) : Canonical (waitNode s k i) := by
  unfold waitNode
  refine .ite hs ?_
  split
  · exact hs
  · exact askHost_canon hs
  · exact graphFail_canon (priTaken_canon (dresserTold_canon hs))
  next e => exact startAll_canon (setGraph_canon ((recordReady_canon hs).of_eq e))

theorem execRecordWaitSatisfied_answers {q : Nat} : Answers s (execRecordWaitSatisfied q s) := by
  unfold execRecordWaitSatisfied
  refine answers_next fun hs => ?_
  split
  · exact hs
  · exact foldl_canon (fun _ _ => waitNode_canon) (waitHead_canon (l2DropSystem_canon hs))

theorem wakeRecord_canon {q : Nat} {w : Option Nat} (hs : Canonical s) : Canonical (wakeRecord s q w) := by
  unfold wakeRecord
  split
  · exact .ite (updWarp_canon hs) hs
  · exact hs

theorem storeCompl_canon {x : Queue} {c : Machine.Compl} {pa : Nat} {l : Leaf} (hs : Canonical s) :
    Canonical (storeCompl s x c pa l) := by
  unfold storeCompl
  refine foldl_canon (fun _ _ ht => wakeWord_canon ?_) hs
  split
  · exact l2Clean_canon (dresserWrite_canon ht)
  · exact l2Clean_canon (dresserWrite_canon ht)
  · exact dresserWrite_canon ht

theorem writeCompl_canon {p q : Nat} {c : Compl} {rest : List Compl} {pl : SigPlace} {pa : Nat} {l : Leaf} (hs : Canonical s) :
    Canonical (writeCompl s p q c rest pl pa l) := by
  unfold writeCompl
  extract_lets x s1 s2 vf s3
  have h2 : Canonical s2 := updQueue_canon (storeCompl_canon (releasePart_canon hs))
  have h3 : Canonical s3 := .ite h2 ⟨h2.wf⟩
  exact sigPerform_canon (wakeRecord_canon h3)

theorem execCompletionRecordWrite_answers {q : Nat} : Answers s (execCompletionRecordWrite q s) := by
  unfold execCompletionRecordWrite
  refine answers_next fun hs => ?_
  split
  · refine .ite hs (.ite (updQueue_canon hs) ?_)
    extract_lets pl va
    split
    · exact askHost_canon hs
    · exact askHost_canon hs
    · extract_lets s1 c
      have h1 : Canonical s1 := priTaken_canon (.ite (sigTold_canon hs) hs)
      split
      · exact updQueue_canon h1
      · exact .ite (updQueue_canon (.ite h1 (tellDropped_canon h1))) (writeCompl_canon h1)
  · exact hs

theorem nurseryOf_canon (hs : Canonical s) : Canonical (nurseryOf s).1 := takeFree_canon (takeFree_canon hs)

theorem addWarp_canon {team : Nat} {x : Warp} (hs : Canonical s) : Canonical (addWarp s team x) := by
  unfold addWarp
  exact updTeam_canon (setWarp_canon ⟨hs.wf⟩)

theorem placeTeam_canon {g c base : Nat} (hs : Canonical s) : Canonical (placeTeam s g c base) :=
  foldl_canon (fun _ _ ht => addWarp_canon (nurseryOf_canon ht)) (updGrid_canon (setTeam_canon ⟨(l1Invalidate_canon hs).wf⟩))

theorem execTeamPlace_answers {grid : Nat} : Answers s (execTeamPlace grid s) := by
  unfold execTeamPlace
  refine answers_next fun hs => .ite hs ?_
  split
  · exact hs
  split
  · exact placeTeam_canon hs
  · exact hs

theorem execWatchdogReport_answers {w : Nat} : Answers s (execWatchdogReport w s) := by
  refine answers_next fun hs => .ite (foldl_canon (fun t e ht => ?_) hs) (.ite (updWarp_canon (tellSvc_canon hs)) hs)
  exact .ite (setGraph_canon (foldl_canon (fun _ _ => tellSvc_canon) ht)) ht

/-! ### Machine/Preempt -/

theorem endRuns_canon {c : Nat} {ws : List Nat} (hs : Canonical s) : Canonical (endRuns s c ws) :=
  .ite (tableBoundary_canon (updCore_canon hs)) hs

theorem dropTeam_canon {t : Nat} (hs : Canonical s) : Canonical (dropTeam s t) :=
  wakeStop_canon (setTeam_canon (foldl_canon (fun _ _ => setWarp_canon) (endRuns_canon (updCore_canon hs))))

theorem killTeam_canon {t : Nat} (hs : Canonical s) : Canonical (killTeam s t) :=
  .ite hs (wakeStop_canon (gridLess_canon (updGrid_canon (setTeam_canon (foldl_canon (fun _ _ => updWarp_canon) hs)))))

theorem haltForStop_canon {w : Nat} (hs : Canonical s) : Canonical (haltForStop s w) :=
  .ite hs (.ite (endRun_canon hs) (setWarp_canon hs))

theorem stopGrid_canon {g : Nat} (hs : Canonical s) : Canonical (stopGrid s g) :=
  foldl_canon (fun _ _ ht => foldl_canon (fun _ _ => haltForStop_canon) (updTeam_canon ht)) hs

theorem resumeGrid_canon {g : Nat} (hs : Canonical s) : Canonical (resumeGrid s g) :=
  foldl_canon (fun _ _ ht => foldl_canon (fun _ _ => updWarp_canon) (updTeam_canon ht)) hs

theorem execPrmt_answers {h : Hdr} {a : Reg} : Answers s (execPrmt h a s) :=
  issued_answers fun _ _ ht => .ite trivial (.ite ht (.ite (resumeGrid_canon (updGrid_canon ht))
    (wakeStop_canon (updWarp_canon (stopGrid_canon (updGrid_canon ht))))))

theorem execTeamStopped_answers {team : Nat} : Answers s (execTeamStopped team s) :=
  answers_next fun hs => .ite (wakeStop_canon (foldl_canon (fun _ _ => updWarp_canon) (setTeam_canon hs))) hs

theorem blockWrite_canon {ps : List (Nat × Leaf)} {i : Nat} {w : Word} (hs : Canonical s) : Canonical (blockWrite s ps i w) := by
  unfold blockWrite
  split
  · exact dresserWrite_canon hs
  · exact hs

theorem blockEvict_canon {core : Nat} {ps : List (Nat × Leaf)} (hs : Canonical s) : Canonical (blockEvict s core ps) :=
  foldl_canon (fun _ _ => foldl_canon (fun _ _ => l1Evict_canon)) hs

theorem blockOp_canon {ix : Ix} {v : Val} {next : State → List (Nat × Leaf) → Res} (hs : Canonical s)
    (hnext : ∀ t ps, Canonical t → (next t ps).Canon) : (blockOp ix s v next).Canon := by
  unfold blockOp
  refine .ite trivial ?_
  split
  · exact trivial
  · exact trivial
  · exact hs
  · exact hs
  · exact .ite hs (hnext _ _ (blockEvict_canon hs))

theorem execCtxsv_answers {h : Hdr} {a : Reg} : Answers s (execCtxsv h a s) := by
  refine issued_answers fun ix t ht => blockOp_canon ht fun u ps hu => .ite (blockWrite_canon hu) ?_
  split
  · exact blockWrite_canon hu
  refine .ite (blockWrite_canon (takeFree_canon hu)) ?_
  split
  · exact takeFree_canon hu
  · exact trivial
  · refine dropTeam_canon (foldl_canon (fun _ _ => blockWrite_canon) (foldl_canon (fun _ _ => blockWrite_canon) ?_))
    exact release_canon (blockEvict_canon (takeFree_canon hu))

theorem enterTeam_canon {c base : Nat} {r : Restored} (hs : Canonical s) : Canonical (enterTeam s c base r) := by
  unfold enterTeam
  refine foldl_canon (fun _ _ ht => ?_) (foldl_canon (fun _ _ => addWarp_canon) (setTeam_canon ⟨(l1Invalidate_canon hs).wf⟩))
  split <;> exact updCore_canon ht

theorem execCtxld_answers {h : Hdr} {a : Reg} : Answers s (execCtxld h a s) := by
  unfold execCtxld
  dsimp only
  refine issued_answers fun ix t ht => blockOp_canon ht fun u ps hu => .ite (blockWrite_canon hu) ?_
  split
  · exact hu
  · exact trivial
  split
  · exact blockWrite_canon (blockEvict_canon hu)
  split
  · exact blockWrite_canon (blockEvict_canon hu)
  · exact blockWrite_canon (enterTeam_canon (blockEvict_canon hu))

/-! ### Machine/Partition -/

theorem runtimeWarp_canon {p c root scratch entry prio : Nat} {super : Bool} (hs : Canonical s) :
    Canonical (runtimeWarp s p c root scratch entry prio super) :=
  addWarp_canon (setTeam_canon ⟨(nurseryOf_canon hs).wf⟩)

theorem startService_canon {p : Nat} (hs : Canonical s) : Canonical (startService s p) := .ite hs (runtimeWarp_canon hs)

theorem startCollector_canon {c prio : Nat} {entry : Word} (hs : Canonical s) : Canonical (startCollector s c prio entry) := by
  unfold startCollector
  split
  · exact hs
  · exact .ite hs (runtimeWarp_canon hs)

theorem setValid_canon {p : Nat} (hs : Canonical s) : Canonical (setValid s p) :=
  .ite (startService_canon (setPart_canon ⟨hs.wf⟩)) hs

theorem resetReq_canon {r : AswReq} (hs : Canonical s) : Canonical (resetReq s r) := by
  unfold resetReq
  split
  · exact ⟨hs.wf⟩
  · exact ⟨hs.wf⟩
  · exact wakeHome_canon (wakeDrained_canon (answerReq_canon (elim_canon hs (fun _ => tellDropped_canon hs))))
  · exact wakeHome_canon (wakeDrained_canon (answerReq_canon hs))

theorem dropLines_canon {p : Nat} (hs : Canonical s) : Canonical (dropLines s p) :=
  foldl_canon (fun _ _ ht => .ite (setL2_canon (.ite (l2Clean_canon ht) ht)) ht) ⟨hs.wf⟩

theorem resetPart_canon {p : Nat} (hs : Canonical s) : Canonical (resetPart s p) := by
  unfold resetPart
  extract_lets x cs gs s1 s2 s3 s4 lost keep s5 s6 s7 s8 w s9 y
  have h1 : Canonical s1 := ⟨hs.wf⟩
  have h2 : Canonical s2 := foldl_canon (fun _ _ => dropTeam_canon) h1
  have h3 : Canonical s3 := foldl_canon (fun _ _ => gridGone_canon) h2
  have h4 : Canonical s4 := ⟨h3.wf⟩
  have h5 : Canonical s5 := ⟨h4.wf⟩
  have h6 : Canonical s6 := foldl_canon (fun _ _ => resetReq_canon) h5
  have h7 : Canonical s7 := dropLines_canon h6
  have h8 : Canonical s8 := foldl_canon (fun _ _ => setCore_canon) h7
  have h9 : Canonical s9 := ⟨h8.wf⟩
  exact setPart_canon h9

theorem execPartitionRecordWrite_answers {chip part word : Nat} {v : Word} :
    Answers s (execPartitionRecordWrite chip part word v s) := by
  unfold execPartitionRecordWrite
  refine answers_next fun hs => .ite hs ?_
  extract_lets p s1 s2
  have h1 : Canonical s1 := .ite (resetPart_canon hs) hs
  have h2 : Canonical s2 := updPart_canon h1
  exact .ite h2 (.ite (.ite h2 (setValid_canon h2)) (updPart_canon h2))

theorem execTbgo_answers {part : Nat} : Answers s (execTbgo part s) := by
  unfold execTbgo
  extract_lets s1
  refine answers_next fun hs => ?_
  have h1 : Canonical s1 := .ite (updPart_canon (tbDrop_canon hs)) hs
  exact .ite (updOwn_canon (ownDrop_canon h1)) h1

theorem execPriResponse_answers {part iova : Nat} {ok : Bool} {hpa : Nat} : Answers s (execPriResponse part iova ok hpa s) := by
  unfold execPriResponse
  refine answers_next fun hs => foldl_canon (fun _ _ ht => ?_) (updPart_canon ⟨hs.wf⟩)
  split
  · exact .ite (updWarp_canon ht) ht
  · exact .ite (updWarp_canon ht) ht
  · exact ht

theorem execAtsInvalidation_answers {part iova : Nat} : Answers s (execAtsInvalidation part iova s) := by
  unfold execAtsInvalidation
  refine answers_next fun hs => ?_
  split
  · exact hs
  · exact updPart_canon (foldl_canon (fun _ _ => updCore_canon) (foldl_canon (fun _ _ => l2Clean_canon)
      (foldl_canon (fun _ _ => foldl_canon (fun _ _ => l1Clean_canon)) hs)))

/-! ### Machine/HostLink -/

theorem agentWrite_canon {pa : Nat} {bs : List Byte} {tag : Tag} (hs : Canonical s) : Canonical (agentWrite s pa bs tag) :=
  foldl_canon (fun _ _ ht => .ite (elim_canon ht (fun _ => tellSvc_canon ht)) (wakeWord_canon (homeWrite_canon ht))) hs

theorem winEnable_canon {vf win : Nat} {v : Word} (hs : Canonical s) : Canonical (winEnable s vf win v) := by
  unfold winEnable
  refine .ite (.ite hs (setWin_canon hs)) ?_
  split <;> exact setWin_canon hs

theorem arrivalStore_canon {vf : Nat} {w : Win} (hs : Canonical s) : Canonical (arrivalStore s vf w) :=
  agentWrite_canon (l2CleanSystem_canon hs)

theorem consumerRead_canon {vf : Nat} {w : Win} (hs : Canonical s) : Canonical (consumerRead s vf w).1 :=
  homeRead_canon (l2DropSystem_canon hs)

theorem execStreamPublish_answers {vf win : Nat} : Answers s (execStreamPublish vf win s) :=
  answers_next fun hs => .ite hs (arrivalStore_canon (setWin_canon (agentWrite_canon (withFree_canon (consumerRead_canon hs)))))

theorem winSkip_canon {vf win : Nat} {v : Word} (hs : Canonical s) : Canonical (winSkip s vf win v) :=
  .ite hs (arrivalStore_canon (setWin_canon hs))

theorem winWrite_canon {vf win off : Nat} {v : Word} (hs : Canonical s) : Canonical (winWrite s vf win off v) := by
  unfold winWrite
  split
  · exact winEnable_canon hs
  · exact .ite hs (setWin_canon hs)
  · exact .ite hs (setWin_canon hs)
  · exact .ite hs (setWin_canon hs)
  · exact .ite hs (setWin_canon hs)
  · exact winSkip_canon hs
  · exact setWin_canon hs
  · exact setWin_canon hs
  · exact hs

theorem bar4Byte_canon {vf p off : Nat} {b : Byte} (hs : Canonical s) : Canonical (bar4Byte s vf p off b) := by
  unfold bar4Byte
  split
  · exact hs
  split
  · exact setWin_canon hs
  · exact .ite (agentWrite_canon hs) (tellSvc_canon hs)

theorem vfWrite_canon {vf p bar off : Nat} {bs : List Byte} (hs : Canonical s) : Canonical (vfWrite s vf p bar off bs) := by
  unfold vfWrite
  split
  · refine foldl_canon (fun t e ht => ?_) hs
    split
    · exact queueWrite_canon ht
    · exact ht
  · refine foldl_canon (fun t e ht => .ite (winWrite_canon ht) (.ite (foldl_canon (fun u e hu => ?_) ht) ht)) hs
    exact .ite ⟨hu.wf⟩ hu
  · refine foldl_canon (fun t e ht => ?_) hs
    exact bar4Byte_canon ht

theorem countVf_canon {vf : Nat} (hs : Canonical s) : Canonical (countVf s vf) := ⟨hs.wf⟩

theorem tellVf_canon {vf bar off : Nat} (hs : Canonical s) : Canonical (tellVf s vf bar off) := by
  unfold tellVf
  split
  · exact tellSvc_canon hs
  · exact hs

theorem vfPosted_canon {vf bar off : Nat} {bs : List Byte} (hs : Canonical s) : Canonical (vfPosted s vf bar off bs) := by
  unfold vfPosted
  refine .ite hs (.ite (.ite (countVf_canon hs) hs) ?_)
  split
  · exact hs
  · exact .ite (vfWrite_canon hs) (tellVf_canon hs)

theorem answer_canon {a : Answer} (hs : Canonical s) : Canonical (answer s a) := ⟨hs.wf⟩

theorem answerEarly_canon (hs : Canonical s) : Canonical (answerEarly s) :=
  .ite (answer_canon hs) (.ite (answer_canon (takeFree_canon hs)) (answer_canon ⟨(takeFree_canon hs).wf⟩))

theorem vfRead_canon {vf bar off n : Nat} (hs : Canonical s) : Canonical (vfRead s vf bar off n) := by
  unfold vfRead
  refine .ite (answerEarly_canon hs) (.ite (answer_canon (countVf_canon hs)) ?_)
  split
  · exact answer_canon hs
  · exact .ite (answer_canon (tellVf_canon hs)) (.ite (answer_canon hs) (answer_canon hs))

theorem execInboundAtomicop_answers {vf offset width : Nat} {op : PcieAtomic} {b c : Word} :
    Answers s (execInboundAtomicop vf offset width op b c s) := by
  unfold execInboundAtomicop
  refine answers_next fun hs => .ite (answerEarly_canon hs) (.ite (answer_canon (countVf_canon hs)) ?_)
  split
  · exact answer_canon hs
  split
  · exact answer_canon (tellVf_canon hs)
  · exact .ite (answer_canon hs) (.ite (answer_canon hs) (.ite (answer_canon (tellSvc_canon hs)) (sendReq_canon hs)))

theorem execVfFunctionLevelReset_answers {vf : Nat} : Answers s (execVfFunctionLevelReset vf s) := by
  unfold execVfFunctionLevelReset
  dsimp only
  refine answers_next fun hs => ?_
  split
  · exact ⟨(resetPart_canon (tellRoot_canon hs)).wf⟩
  · exact tellRoot_canon hs

theorem execFabricRequest_answers {src chip part pa : Nat} {t : Bool} {r : FabricReq} :
    Answers s (execFabricRequest src chip part pa t r s) := by
  unfold execFabricRequest
  refine answers_next fun hs => ?_
  split
  · exact .ite (answer_canon hs) (answer_canon (elim_canon (tellSvc_canon hs) (fun _ => tellSvc_canon (tellSvc_canon hs))))
  · exact .ite (agentWrite_canon hs) (elim_canon (tellSvc_canon hs) (fun _ => tellSvc_canon (tellSvc_canon hs)))
  · exact .ite (sendReq_canon hs) (answer_canon (elim_canon (tellSvc_canon hs) (fun _ => tellSvc_canon (tellSvc_canon hs))))

theorem dropLost_canon (hs : Canonical s) : Canonical (dropLost s) := by
  unfold dropLost
  refine foldl_canon (fun _ _ ht => ?_) ⟨hs.wf⟩
  split
  · exact resetReq_canon ht
  · exact tellSvc_canon (resetReq_canon ht)

theorem execRemoteHomeLost_answers {chip : Nat} : Answers s (execRemoteHomeLost chip s) := by
  unfold execRemoteHomeLost
  extract_lets s1
  refine answers_next fun hs => ?_
  have h1 : Canonical s1 := dropLost_canon ⟨hs.wf⟩
  exact .ite (kvsdLost_canon (loseTriples_canon h1)) h1

/-! ### Machine/Soft -/

theorem countError_canon {k : SoftKind} {unit : Nat} (hs : Canonical s) : Canonical (countError s k unit) := ⟨hs.wf⟩

theorem logError_canon {chip : Nat} {k : SoftKind} {unit addr cyc : Nat} {parts : List Nat} (hs : Canonical s) :
    Canonical (logError s chip k unit addr cyc parts) := by
  unfold logError
  extract_lets f r s1 seq part log s2
  have h1 : Canonical s1 := by
    dsimp only [s1, r]
    split
    · exact hs
    · exact takeFree_canon hs
  have h2 : Canonical s2 := ⟨h1.wf⟩
  exact .ite (tellRoot_canon h2) (foldl_canon (fun _ _ => tellSvc_canon) h2)

theorem someCycles_canon (hs : Canonical s) : Canonical (someCycles s).2 := takeFree_canon hs

theorem markBad_canon {k : Nat} (hs : Canonical s) : Canonical (markBad s k) := .ite ⟨hs.wf⟩ (setL2_canon ⟨hs.wf⟩)

theorem l1Damage_canon {c k : Nat} (hs : Canonical s) : Canonical (l1Damage s c k) :=
  foldl_canon (fun _ _ ht => .ite ht (setL1_canon ht)) (.ite (foldl_canon (fun _ _ ht => markBad_canon (l1Clean_canon ht)) hs) hs)

theorem l2Damage_canon {k : Nat} (hs : Canonical s) : Canonical (l2Damage s k) :=
  foldl_canon (fun _ _ ht => .ite ht (setL2_canon ht)) (.ite (foldl_canon (fun _ _ ht => markBad_canon (l2Clean_canon ht)) hs) hs)

theorem wordDamage_canon {k : Nat} (hs : Canonical s) : Canonical (wordDamage s k) := by
  unfold wordDamage
  exact rawWrite_canon ⟨hs.wf⟩

theorem scratchDamage_canon {team off : Nat} (hs : Canonical s) : Canonical (scratchDamage s team off) := by
  unfold scratchDamage
  exact updTeam_canon ⟨hs.wf⟩

theorem residueDamage_canon {n : Nat} {attn : Bool} (hs : Canonical s) : Canonical (residueDamage s n attn) := .ite ⟨hs.wf⟩ ⟨hs.wf⟩

theorem aswDamage_canon {cluster n : Nat} (hs : Canonical s) : Canonical (aswDamage s cluster n) := by
  unfold aswDamage
  dsimp only
  split
  · exact loseReq_canon (setAsw_canon hs)
  · exact hs

theorem slotDamage_canon {core slot : Nat} (hs : Canonical s) : Canonical (slotDamage s core slot) := by
  unfold slotDamage
  split
  · exact hs
  · exact setReply_canon hs

theorem gridEnds_canon {g : Nat} (hs : Canonical s) : Canonical (gridEnds s g) :=
  foldl_canon (fun _ _ => killTeam_canon) (gridGone_canon hs)

theorem graphDamage_canon {k gridno : Nat} (hs : Canonical s) : Canonical (graphDamage s k gridno) :=
  .ite hs (graphEnds_canon (foldl_canon (fun _ _ => gridEnds_canon) (holdCompl_canon hs)))

theorem gridDamage_canon {g : Nat} (hs : Canonical s) : Canonical (gridDamage s g) := by
  unfold gridDamage
  refine .ite hs ?_
  split
  · exact .ite (graphDamage_canon hs) (gridEnds_canon hs)
  · exact gridEnds_canon (holdCompl_canon hs)

theorem counterDamage_canon {p : Nat} (hs : Canonical s) : Canonical (counterDamage s p) := by
  unfold counterDamage
  exact updPart_canon ⟨hs.wf⟩

theorem channelFails_canon {pa : Nat} (hs : Canonical s) : Canonical (channelFails s pa) := tellRoot_canon ⟨hs.wf⟩

theorem retriesOut_canon {k : SoftKind} {unit core slot : Nat} (hs : Canonical s) : Canonical (retriesOut s k unit core slot) := by
  unfold retriesOut
  split
  · exact hs
  · exact logError_canon (someCycles_canon (wakeHome_canon (wakeDrained_canon
      (tellSvc_canon (.ite (endReq_canon ⟨hs.wf⟩) (updCore_canon ⟨hs.wf⟩))))))

theorem execSoftError_answers {k : SoftKind} {unit addr lane reg : Nat} {correctable : Bool} :
    Answers s (execSoftError k unit addr lane reg correctable s) := by
  unfold execSoftError
  refine answers_next fun hs => .ite (countError_canon (updCore_canon hs)) (.ite (countError_canon hs) ?_)
  have hf : Canonical (someCycles s).2 := someCycles_canon hs
  split
  · exact logError_canon (updWarp_canon hs)
  · exact logError_canon (scratchDamage_canon hs)
  · exact logError_canon (updTeam_canon hs)
  · exact logError_canon (foldl_canon (fun _ _ => updWarp_canon) hs)
  · exact logError_canon (l1Damage_canon hs)
  · exact logError_canon (slotDamage_canon hs)
  · exact logError_canon (l2Damage_canon hf)
  · exact logError_canon (wordDamage_canon hf)
  · exact .ite (logError_canon (wordDamage_canon hf)) (channelFails_canon (logError_canon (wordDamage_canon hf)))
  · exact logError_canon hf
  · exact logError_canon (residueDamage_canon hf)
  · exact logError_canon (aswDamage_canon hf)
  · exact logError_canon (gridDamage_canon hf)
  · exact logError_canon (graphDamage_canon hf)
  · exact logError_canon (counterDamage_canon hf)
  · exact logError_canon (updQueue_canon hf)
  · exact retriesOut_canon hs
  · exact retriesOut_canon hs
  · exact hs

theorem execPatrolScrub_answers {pa : Nat} {uncorrectable : Bool} : Answers s (execPatrolScrub pa uncorrectable s) := by
  unfold execPatrolScrub
  refine answers_next fun hs => ?_
  split
  · exact .ite (logError_canon (someCycles_canon (wordDamage_canon hs))) hs
  · exact hs

/-! ### Machine/Boot -/

theorem moduleReset_canon (hs : Canonical s) : Canonical (moduleReset s) := ⟨(foldl_canon (fun _ _ => resetReq_canon) hs).wf⟩

theorem trainLinks_canon {i : BootIn} (hs : Canonical s) : Canonical (trainLinks i s) := by
  unfold trainLinks
  extract_lets s1 s2
  have h1 : Canonical s1 := by
    refine foldl_canon (fun t n ht => ?_) hs
    exact ⟨ht.wf⟩
  have h2 : Canonical s2 := by
    refine foldl_canon (fun t n ht => ?_) h1
    exact ⟨ht.wf⟩
  exact foldl_canon (fun _ _ => tellRoot_canon) h2

theorem clearMemory_canon (hs : Canonical s) : Canonical (clearMemory s) := ⟨spWf_filter _ _ _ hs.wf⟩

theorem loadImages_canon {i : BootIn} {ks : List Nat} (hs : Canonical s) : Canonical (loadImages i ks s) := ⟨hs.wf⟩

theorem stageWork_canon {i : BootIn} {stage : Nat} (hs : Canonical s) : Canonical (stageWork i stage s) := by
  unfold stageWork
  split
  · exact trainLinks_canon hs
  · exact loadImages_canon hs
  · exact clearMemory_canon hs
  · exact loadImages_canon hs
  · exact hs

theorem bootStep_canon (hs : Canonical s) : Canonical (bootStep s) := by
  unfold bootStep
  dsimp only
  split
  · exact hs
  split
  · exact ⟨hs.wf⟩
  · exact .ite ⟨(stageWork_canon hs).wf⟩ ⟨(stageWork_canon hs).wf⟩

theorem bootStart_canon {i : BootIn} (hs : Canonical s) : Canonical (bootStart i s) := ⟨(moduleReset_canon hs).wf⟩

theorem execPfFunctionLevelReset_answers {i : BootIn} : Answers s (execPfFunctionLevelReset i s) :=
  answers_next fun hs => withErrlog_canon (bootStart_canon hs)

theorem installImage_canon {k version : Nat} (hs : Canonical s) : Canonical (installImage s k version) := .ite ⟨hs.wf⟩ hs

theorem spdmAnswer_canon {r : SpdmResp} (hs : Canonical s) : Canonical (spdmAnswer s r) := .ite ⟨hs.wf⟩ hs

/-! ### Machine/Control -/

theorem transfer_canon {c : Cond} {ix : Ix} {cause : Lane → Option Cause} {at_ : Lane → Word} {f : Lane → Lane} (hs : Canonical s) :
    (transfer c ix s cause at_ f).Canon :=
  .ite trivial (setWarp_canon hs)

theorem execLcall_answers {h : Hdr} {o : OpBr} : Answers s (execLcall h o s) := by
  refine issued_answers fun ix t ht => ?_
  split
  next e =>
    have hu : Canonical _ := transfer_canon ht |>.of_eq e
    exact .ok (.ite hu (updWarp_canon hu))
  · exact transfer_canon ht

/-! ### Machine/Copy -/

theorem engRead_canon {core team va n : Nat} (hs : Canonical s) : Canonical (engRead s core team va n).1 := by
  unfold engRead
  split
  · exact hs
  refine fst_ite_canon hs ?_
  split
  next e => exact fst_canon_of_eq (l1Read_canon hs) e
  next e => exact fst_ite_canon (fst_canon_of_eq (l1Read_canon hs) e) (fst_canon_of_eq (l1Read_canon hs) e)

theorem engWrite_canon {core team va n x : Nat} (hs : Canonical s) : Canonical (engWrite s core team va n x).1 := by
  unfold engWrite
  split
  · exact hs
  · exact fst_ite_canon hs (fst_ite_canon (tellRefused_canon hs) (dropHeader_canon (l1Write_canon hs)))

theorem CopyRun.note_canon {r : CopyRun} {off : Nat} {c : Cause} {va : Nat} (hs : Canonical r.s) :
    Canonical (CopyRun.note r off c va).s := by
  unfold CopyRun.note
  split <;> exact hs

theorem CopyRun.bring_canon {r : CopyRun} {core : Nat} {o : CopyOp} {m : Swz} {va off n : Nat} (hr : Canonical r.s) :
    Canonical (r.bring core o m va off n).s := by
  unfold CopyRun.bring
  split
  next e =>
    dsimp only
    exact updTeam_canon (fst_canon_of_eq (engRead_canon hr) e)
  next e => exact CopyRun.note_canon (fst_canon_of_eq (engRead_canon hr) e)

theorem CopyRun.put_canon {r : CopyRun} {core : Nat} {o : CopyOp} {m : Swz} {off va n x : Nat} (hs : Canonical r.s) :
    Canonical (CopyRun.put r core o m off va n x).s := by
  unfold CopyRun.put
  split
  · exact CopyRun.note_canon hs
  split
  next e => exact fst_canon_of_eq (engWrite_canon hs) e
  next e => exact CopyRun.note_canon (fst_canon_of_eq (engWrite_canon hs) e)

theorem CopyRun.send_canon {r : CopyRun} {core : Nat} {o : CopyOp} {m : Swz} {off va n : Nat} (hs : Canonical r.s) :
    Canonical (CopyRun.send r core o m off va n).s :=
  CopyRun.put_canon hs

theorem zeroWords_canon {team : Nat} {m : Swz} {off n : Nat} (hs : Canonical s) : Canonical (zeroWords s team m off n) :=
  updTeam_canon hs

theorem CopyRun.header_canon {r : CopyRun} {core : Nat} {o : CopyOp} {h : Handle} (hs : Canonical r.s) :
    Canonical (CopyRun.header r core o h).s := by
  unfold CopyRun.header
  split
  · exact foldl_induct (P := fun p : CopyRun => Canonical p.s) (fun _ _ => CopyRun.put_canon) (CopyRun.send_canon hs)
  · exact zeroWords_canon (CopyRun.bring_canon hs)

theorem CopyRun.row_canon {r : CopyRun} {core : Nat} {o : CopyOp} {h : Handle} {i va : Nat} (hs : Canonical r.s) :
    Canonical (CopyRun.row r core o h i va).s := by
  unfold CopyRun.row
  refine foldl_induct (P := fun p : CopyRun => Canonical p.s) (fun _ _ ha => ?_) hs
  split
  · exact CopyRun.send_canon ha
  · exact CopyRun.bring_canon ha

theorem CopyRun.rows_canon {r : CopyRun} {core : Nat} {o : CopyOp} {h : Handle} (hs : Canonical r.s) :
    Canonical (CopyRun.rows r core o h).s := by
  unfold CopyRun.rows
  dsimp only
  refine foldl_induct (P := fun p : CopyRun => Canonical p.s) (fun _ _ ha => ?_) hs
  split
  · exact CopyRun.note_canon ha
  split
  · exact CopyRun.row_canon ha
  split
  · exact ha
  · exact zeroWords_canon ha

theorem CopyRun.expand_canon {r : CopyRun} {core : Nat} {o : CopyOp} {h : Handle} {i g va : Nat} (hs : Canonical r.s) :
    Canonical (CopyRun.expand r core o h i g va).s := by
  unfold CopyRun.expand
  dsimp only
  refine updTeam_canon (foldl_induct (P := fun p : CopyRun × List (Option Nat) => Canonical p.1.s) (fun _ _ ha => ?_) hs)
  split
  next e => exact fst_canon_of_eq (engRead_canon ha) e
  next e => exact CopyRun.note_canon (fst_canon_of_eq (engRead_canon ha) e)

theorem CopyRun.pack_canon {r : CopyRun} {core : Nat} {o : CopyOp} {h : Handle} {i g va : Nat} (hs : Canonical r.s) :
    Canonical (CopyRun.pack r core o h i g va).s :=
  foldl_induct (P := fun p : CopyRun => Canonical p.s) (fun _ _ => CopyRun.put_canon) hs

theorem CopyRun.tap6Rows_canon {r : CopyRun} {core : Nat} {o : CopyOp} {h : Handle} (hs : Canonical r.s) :
    Canonical (CopyRun.tap6Rows r core o h).s := by
  unfold CopyRun.tap6Rows
  refine foldl_induct (P := fun p : CopyRun => Canonical p.s) (fun _ _ ha => foldl_induct (P := fun p : CopyRun => Canonical p.s)
    (fun _ _ ha1 => ?_) ha) hs
  split
  · exact CopyRun.pack_canon ha1
  · exact CopyRun.expand_canon ha1

theorem CopyRun.source_canon {r : CopyRun} {core : Nat} {o : CopyOp} {h : Handle} (hs : Canonical r.s) :
    Canonical (CopyRun.source r core o h).1.s := by
  unfold CopyRun.source
  dsimp only
  refine foldl_induct (P := fun p : CopyRun × List (Option Machine.Num) => Canonical p.1.s) (fun _ _ ha => ?_) hs
  split
  next e => exact fst_canon_of_eq (engRead_canon ha) e
  next e => exact CopyRun.note_canon (fst_canon_of_eq (engRead_canon ha) e)

theorem CopyRun.quantise_canon {r : CopyRun} {core : Nat} {o : CopyOp} {h : Handle} (hs : Canonical r.s) :
    Canonical (CopyRun.quantise r core o h).s := by
  unfold CopyRun.quantise
  refine setTeam_canon (CopyRun.source_canon ?_)
  split
  · exact engRead_canon hs
  · exact CopyRun.note_canon (engRead_canon hs)

theorem wakeEngine_canon {c : Nat} (hs : Canonical s) : Canonical (wakeEngine s c) := ⟨hs.wf⟩

theorem copyRun_canon {core : Nat} {o : CopyOp} (hs : Canonical s) : Canonical (copyRun s core o).s := by
  unfold copyRun
  split
  · exact CopyRun.quantise_canon hs
  · exact CopyRun.tap6Rows_canon (CopyRun.header_canon hs)
  · exact CopyRun.rows_canon (CopyRun.header_canon hs)

theorem execCopyExecute_answers {core : Nat} : Answers s (execCopyExecute core s) := by
  unfold execCopyExecute
  refine answers_next fun hs => ?_
  split
  · exact hs
  refine .ite (askHost_canon hs) (wakeDrained_canon (wakeEngine_canon (flipThread_canon (priTaken_canon ?_))))
  split
  · exact recordFault_canon (copyRun_canon (updCore_canon hs))
  · exact copyRun_canon (updCore_canon hs)

/-! ### Machine/Masks -/

theorem writeMask_canon {w : Nat} {m : MaskNo} {v : Word} (hs : Canonical s) : Canonical (writeMask s w m v) := updWarp_canon hs

theorem execMset_answers {h : Hdr} {k : MsetKind} {m : MaskNo} {a : Reg} : Answers s (execMset h k m a s) := by
  unfold execMset
  refine issued_answers fun _ _ ht => ?_
  split
  · exact writeMask_canon ht
  · exact writeMask_canon ht
  · exact writeMask_canon ht
  · exact .ite trivial (writeMask_canon ht)
  · exact .ite trapPoison_canon (writeMask_canon ht)

/-! ### Machine/Debug -/

theorem dbgCommand_canon {chip : Nat} {by_ : Option Nat} {code : Nat} {a0 a1 a2 a3 : Word} (hs : Canonical s) :
    Canonical (dbgCommand s chip by_ code a0 a1 a2 a3).1 := by
  unfold dbgCommand
  refine fst_ite_canon hs ?_
  split
  · exact hs
  · exact fst_ite_canon hs hs
  · exact fst_ite_canon hs (fst_ite_canon hs (foldl_canon (fun _ _ => release_canon) hs))
  · refine fst_ite_canon hs ?_
    split <;> exact hs
  · exact fst_ite_canon hs (fst_ite_canon hs hs)
  · refine fst_ite_canon hs ?_
    split <;> exact hs
  · exact fst_ite_canon hs hs
  · exact hs

theorem dbgRun_canon {code : Nat} (hs : Canonical s) : Canonical (dbgRun s code) := .ite hs ⟨(dbgCommand_canon hs).wf⟩

theorem dbgWrite_canon {off : Nat} {v : Word} (hs : Canonical s) : Canonical (dbgWrite s off v) := by
  unfold dbgWrite
  split
  · exact dbgRun_canon hs
  · exact ⟨hs.wf⟩
  · exact ⟨hs.wf⟩
  · exact ⟨hs.wf⟩
  · exact ⟨hs.wf⟩
  · exact hs

theorem execRegisterWrite_answers {chip : Nat} {r : DevReg} {v : Word} : Answers s (execRegisterWrite chip r v s) := by
  unfold execRegisterWrite
  refine answers_next fun hs => ?_
  split
  · exact .ite (queueWrite_canon hs) hs
  · exact controlWrite_canon hs
  · exact ownWrite_canon hs
  · exact startCollector_canon hs
  · exact .ite (winWrite_canon hs) hs
  · exact dbgWrite_canon hs
  · exact updPart_canon hs
  · exact .ite ⟨hs.wf⟩ hs
  · exact ⟨hs.wf⟩
  · exact installImage_canon hs

theorem execInboundPcieWrite_answers {w : PcieWrite} : Answers s (execInboundPcieWrite w s) := by
  unfold execInboundPcieWrite
  refine answers_next fun hs => ?_
  split
  · exact vfPosted_canon hs
  refine .ite hs ?_
  split
  · refine foldl_canon (fun _ _ ht => ?_) hs
    exact .ite ht (dbgWrite_canon ht)
  refine foldl_canon (fun _ _ ht => ?_) hs
  exact .ite ⟨ht.wf⟩ ht

theorem execInboundPcieRead_answers {vf : Option Nat} {bar offset size : Nat} :
    Answers s (execInboundPcieRead vf bar offset size s) := by
  unfold execInboundPcieRead
  refine answers_next fun hs => ?_
  split
  · exact vfRead_canon hs
  · exact .ite (answer_canon hs) (answer_canon hs)

/-! ### Machine/Matrix -/

theorem accOp_canon {ix : Ix} {as : List Nat} {ill : List LFault} {checks : List (List LFault)} {f : Res} (hs' : f.Canon) :
    (accOp ix s as ill checks f).Canon :=
  .ite trivial (.ite trivial hs')

theorem matEnter_canon {ix : Ix} {a : Nat} {k : MatKind} (hs : Canonical s) : (matEnter s ix a k).Canon :=
  .ite hs (updCore_canon hs)

theorem mmaOp_canon {ix : Ix} {as : List Nat} {n : Nat} {ill : List LFault} {a b : Val} {k : MatKind} (hs : Canonical s) :
    (mmaOp ix s as n ill a b k).Canon :=
  accOp_canon (matEnter_canon hs)

theorem execAccrd_answers {h : Hdr} {acc : BitVec 5} {a : Reg} : Answers s (execAccrd h acc a s) :=
  issued_answers fun _ _ ht => accOp_canon (.ite ht (.ite trivial (flipThread_canon (updTeam_canon ht))))

theorem scratchErrors_canon {team : Nat} {rs : List (Swz × Nat × Nat)} (hs : Canonical s) : Canonical (scratchErrors s team rs) :=
  .ite hs (foldl_canon (fun _ _ => recordFault_canon) hs)

theorem wakeAcc_canon {team : Nat} (hs : Canonical s) : Canonical (wakeAcc s team) := ⟨hs.wf⟩

theorem matHead_canon {core : Nat} {o : MatOp} (hs : Canonical s) : Canonical (matHead s core o) :=
  wakeAcc_canon (wakeEngine_canon (flipThread_canon (updTeam_canon (scratchErrors_canon (updCore_canon hs)))))

theorem execMatrixStep_answers {core : Nat} : Answers s (execMatrixStep core s) := by
  unfold execMatrixStep
  refine answers_next fun hs => ?_
  split
  · exact .ite hs (matHead_canon hs)
  · exact hs

theorem execPairedStep_answers {core : Nat} : Answers s (execPairedStep core s) := by
  unfold execPairedStep
  refine answers_next fun hs => ?_
  split
  · exact .ite (matHead_canon hs) hs
  · exact hs

/-! ### Machine/Sched -/

theorem passTurn_canon (hs : Canonical s) : Canonical (passTurn s) := ⟨hs.wf⟩

/-! ### Machine/Dispatch -/

theorem exec_answers {i : Instr} : Answers s (exec i s) := by
  cases i with
  | add | sub | mul | div | rem => exact issued_answers fun _ _ => arithOp_canon
  | fma | neg | abs | min | max | clamp | cmp | cmpm | cmpi | frnd | dot | cvt | pack | unpk | scaleq | qnt | tagof | tagas | tagm
    | bfx | bfi | mov | movi | movf | movl | sel | getl | mget | shfl | shflx | bcast | redux | scanx | gets | tile =>
    exact issued_answers fun _ _ => laneOp_canon
  | sqrt | rcp | rsq | exp2 | log2 | sin | cos | tanh => exact issued_answers fun _ _ => transcOp_canon
  | and | or | xor => exact issued_answers fun _ _ => bitOp_canon
  | not | popc | clz | ctz | brev => exact issued_answers fun _ _ => bitUnOp_canon
  | andi | ori | xori => exact issued_answers fun _ _ => bitImm_canon
  | shl | shr | sar | rol => exact issued_answers fun _ _ => shiftOp_canon
  | shli | shri => exact issued_answers fun _ _ => shiftImm_canon
  | mulh | addw | subw | mulw | lea | ptrd => exact issued_answers fun _ _ => pairOp_canon
  | setl | jmpi | sets | lds => exact issued_answers fun _ _ ht => .ite trivial (setWarp_canon ht)
  | addi | muli => exact issued_answers fun _ _ => arithImm_canon
  | bra | call | ret => exact issued_answers fun _ _ => transfer_canon
  | exit => exact issued_answers fun _ _ ht => .ite trivial (.ite ht (retireWarp_canon (setWarp_canon ht)))
  | lcall => exact execLcall_answers
  | join | leave | yield | sleep => exact issued_answers fun _ _ => updWarp_canon
  | mset => exact execMset_answers
  | mops | elect => exact issued_answers fun _ _ => writeMask_canon
  | vote => exact issued_answers fun _ _ ht => .ite trivial (laneOp_canon ht)
  | lret => exact issued_answers fun _ _ ht => .ite trivial (.ite ht (setWarp_canon ht))
  | alloc => exact issued_answers fun _ _ ht => .ite trivial (.ite trivial (setWarp_canon ht))
  | trap | bkpt => exact issued_answers fun _ _ _ => trivial
  | tret => exact issued_answers fun _ _ ht => .ite (updWarp_canon ht) trapOnce_canon
  | nop => exact issued_answers fun _ _ ht => ht
  | sleepExpiry => exact execSleepExpiry_answers
  | trapEntry => exact execTrapEntry_answers
  | runSelect => exact answers_next selectRun_canon
  | resultArrival => exact execResultArrival_answers
  | instructionFill => exact answers_next fillLine_canon
  | translationWalkDone => exact answers_next walkDone_canon
  | ld | ldr | lr => exact issued_answers fun _ _ => loadOp_canon
  | st | str => exact issued_answers fun _ _ => storeOp_canon
  | sc => exact execSc_answers
  | fence => exact execFence_answers
  | pf => exact execPf_answers
  | cflush | cinv => exact issued_answers fun _ _ => cacheOp_canon
  | ldh => exact execLdh_answers
  | hcas => exact execHcas_answers
  | sts => exact issued_answers fun _ _ ht => .ite trivial (updTeam_canon ht)
  | satom => exact execSatom_answers
  | cpy => exact issued_answers fun _ _ ht => .ite trivial (.ite ht (.ite ht (updCore_canon ht)))
  | copyExecute => exact execCopyExecute_answers
  | give => exact execGive_answers
  | take => exact execTake_answers
  | ownq => exact execOwnq_answers
  | mma | mmap => exact issued_answers fun _ _ => mmaOp_canon
  | mmab => exact issued_answers fun _ _ ht => accOp_canon (.ite ht (.ite trivial (matEnter_canon ht)))
  | matrixStep => exact execMatrixStep_answers
  | accz | accw | accld | bndset => exact issued_answers fun _ _ ht => accOp_canon (matEnter_canon ht)
  | accrd => exact execAccrd_answers
  | bndget => exact issued_answers fun _ _ ht => accOp_canon (.ite ht (laneOp_canon ht))
  | bninit => exact execBninit_answers
  | bna => exact issued_answers fun _ _ ht => .ite trapOnce_canon (arriveOp_canon ht (fun _ ht => ht))
  | bnw => exact issued_answers fun _ _ ht => .ite trapOnce_canon (benchWait_canon ht)
  | bnaw => exact execBnaw_answers
  | atom => exact execAtom_answers
  | vatom => exact execVatom_answers
  | pairedStep => exact execPairedStep_answers
  | aswRequest => exact execAswRequest_answers
  | atomicReply => exact execAtomicReply_answers
  | aswStallTimeout => exact answers_next fun hs => .ite hs (aswStop_canon hs)
  | aswRestart => exact execAswRestart_answers
  | kvapp => exact execKvapp_answers
  | kvappPerform => exact execKvappPerform_answers
  | ksel => exact issued_answers fun _ _ ht => .ite trivial (.ite ht (.ite ht ⟨ht.wf⟩))
  | pageSelect => exact execPageSelect_answers
  | kselComplete => exact execKselComplete_answers
  | attn => exact execAttn_answers
  | attnPartial => exact execAttnPartial_answers
  | attnMerge => exact execAttnMerge_answers
  | kvxl => exact issued_answers fun _ _ ht => .ite trivial (.ite ht (laneOp_canon ht))
  | wqry => exact execWqry_answers
  | wqryReply => exact execWqryReply_answers
  | signal => exact execSignal_answers
  | waits => exact execWaits_answers
  | waitsRecheck | waitsHostPoll => exact answers_next waitsTest_canon
  | cmpl => exact execCmpl_answers
  | dlaunch => exact execDlaunch_answers
  | kvret => exact execKvret_answers
  | svcall => exact issued_answers fun _ _ ht => .ite trapOnce_canon (updWarp_canon (tellSvc_canon ht))
  | svcallReply => exact answers_next fun hs => .ite (updWarp_canon hs) hs
  | ctxsv => exact execCtxsv_answers
  | ctxld => exact execCtxld_answers
  | prmt => exact execPrmt_answers
  | teamStopped => exact execTeamStopped_answers
  | icinv => exact issued_answers fun _ _ ht => .ite trivial (foldl_canon (fun _ _ => icDrop_canon) ht)
  | kvmap => exact execKvmap_answers
  | kvsd => exact execKvsd_answers
  | ktbShootdownRequest => exact execKtbShootdownRequest_answers
  | slotDrained => exact execSlotDrained_answers
  | teamRelease => exact answers_next fun hs => .ite (dropTeam_canon hs) hs
  | teamPlace => exact execTeamPlace_answers
  | queueTailWrite => exact answers_next fun hs => .ite (tailWrite_canon hs) hs
  | queueCheadWrite => exact answers_next fun hs => .ite (cheadWrite_canon hs) hs
  | queueEnableWrite => exact answers_next fun hs => .ite (enableWrite_canon hs) hs
  | takeRecord => exact execTakeRecord_answers
  | recordWaitSatisfied => exact execRecordWaitSatisfied_answers
  | graphNodeComplete => exact execGraphNodeComplete_answers
  | loopCondition => exact execLoopCondition_answers
  | completionRecordWrite => exact execCompletionRecordWrite_answers
  | watchdogReport => exact execWatchdogReport_answers
  | partitionRecordWrite => exact execPartitionRecordWrite_answers
  | partitionReset => exact answers_next resetPart_canon
  | ptrootWrite => exact answers_next ptrootSet_canon
  | tbgo => exact execTbgo_answers
  | regionTableWrite => exact answers_next regionSet_canon
  | priResponse => exact execPriResponse_answers
  | atsInvalidation => exact execAtsInvalidation_answers
  | racqPromote => exact answers_next fun hs => .ite ⟨(promote_canon hs).wf⟩ hs
  | inboundPcieWrite => exact execInboundPcieWrite_answers
  | inboundPcieRead => exact execInboundPcieRead_answers
  | inboundAtomicop => exact execInboundAtomicop_answers
  | vfFunctionLevelReset => exact execVfFunctionLevelReset_answers
  | streamWindowEnable => exact answers_next fun hs => .ite (winEnable_canon hs) hs
  | streamFrameWrite => exact answers_next fun hs => .ite hs (setWin_canon hs)
  | streamPublish => exact execStreamPublish_answers
  | streamSkip => exact answers_next fun hs => .ite (winSkip_canon hs) hs
  | fabricRequest => exact execFabricRequest_answers
  | linkDown => exact answers_next fun hs => loseTriples_canon (dropLost_canon ⟨hs.wf⟩)
  | networkRetryExhausted => exact answers_next retriesOut_canon
  | remoteHomeLost => exact execRemoteHomeLost_answers
  | patrolScrub => exact execPatrolScrub_answers
  | powerOn => exact answers_next bootStart_canon
  | pfFunctionLevelReset => exact execPfFunctionLevelReset_answers
  | getVersion | getCapabilities | getDigests | getCertificate | challenge | getMeasurements => exact answers_next spdmAnswer_canon
  | negotiateAlgorithms => exact answers_next fun hs => .ite ⟨hs.wf⟩ hs
  | readctx | readmem | flushp | readtab | readq | readunit | readlog => exact answers_next dbgRun_canon
  | mailboxRequest => exact answers_next fun hs => .ite hs ⟨(dbgCommand_canon hs).wf⟩
  | registerWrite => exact execRegisterWrite_answers
  | l1WriteBack => exact answers_next (foldl_canon (fun _ _ ht => .ite ht (setL1_canon (l1Clean_canon ht))))
  | linkRetrain => exact answers_next fun hs => .ite ⟨(foldl_canon (fun _ _ => emptyKtbs_canon) hs).wf⟩ ⟨hs.wf⟩
  | softError => exact execSoftError_answers
  | aswFirmwareHalt => exact answers_next aswStop_canon
  | teamKill => exact answers_next killTeam_canon
  | ktbAcknowledgment => exact execKtbAcknowledgment_answers
  | markRegionTagged => exact answers_next fun hs => .ite hs ⟨hs.wf⟩

/-! ### Machine/Step -/

theorem stepTurn_answers {t : Turn} : Answers s (stepTurn t s) := by
  cases t with
  | ev i => exact exec_answers
  | issue p =>
    have hr : Canonical s → (takeTurn s (p / 8) (p % 8)).Canon := takeTurn_canon
    cases e : takeTurn s (p / 8) (p % 8) with
    | run i t =>
      rw [e] at hr
      simp only [stepTurn, e]
      exact .of_canonical (t := t) hr exec_answers
    | done t =>
      rw [e] at hr
      simp only [stepTurn, e]
      exact answers_next hr
  | boot => exact answers_next bootStep_canon

theorem step_answers : Answers s (step s) := by
  unfold step
  split
  · exact .of_canonical withAgenda_canon stepTurn_answers
  · exact .of_canonical passTurn_canon stepTurn_answers

end

/-- Settles O59: every turn is a total function of the state whose result is a next state, and every state function of the model
hands the memory's canonical form on (`Canonical`). -/
theorem stepKeepsMemoryCanonical : Obligations.StepKeepsMemoryCanonical := by
  unfold Obligations.StepKeepsMemoryCanonical
  intro s
  obtain ⟨t, e, h⟩ := step_answers (s := s)
  exact ⟨t, e, fun hs => (h ⟨hs⟩).wf⟩

end Sys2Proof.Laws
end

section
/-! ## Words and their instructions (O55, O56, O57)

`roundTrip` gathers the round trips of the single constructors (Laws/PerInstr); what is left is between words and bytes, and that
a word with a literal fixes it. -/

namespace Sys2Proof.Laws
open Sys2Proof Sys2Proof.Machine

/-! ### Words and bytes -/

@[simp] theorem length_leBytes (n x : Nat) : (leBytes n x).length = n := by
  induction n generalizing x with
  | zero => rfl
  | succ n ih => simp [leBytes, ih]

theorem leNat_leBytes (n x : Nat) : leNat (leBytes n x) = x % 256 ^ n := by
  induction n generalizing x with
  | zero => simp [leBytes, leNat, Nat.mod_one]
  | succ n ih =>
    rw [leBytes, leNat, ih, BitVec.toNat_ofNat, pow_succ' 256 n, Nat.mod_mul]

/-- A word is read back from its bytes. -/
@[simp] theorem wd_leNat_leBytes (w : Word) : wd (leNat (leBytes 8 w.toNat)) = w := by
  rw [leNat_leBytes, Nat.mod_eq_of_lt (show w.toNat < 256 ^ 8 from w.isLt), wd, BitVec.ofNat_toNat, BitVec.setWidth_eq]

theorem decode_word {w : Word} {i : Instr} (rest : List Byte) (hl : hasLiteral w = false) (hd : decodeWords w 0 = .ok i) :
    decode (leBytes 8 w.toNat ++ rest) = .ok (i, rest) := by
  have hz : decodeWords w 0#64 = .ok i := hd
  simp [decode, hl, hz, Except.map]

theorem decode_word_literal {w lit : Word} {i : Instr} (rest : List Byte) (hl : hasLiteral w = true)
    (hd : decodeWords w lit = .ok i) :
    decode (leBytes 8 w.toNat ++ (leBytes 8 lit.toNat ++ rest)) = .ok (i, rest) := by
  have h8 : ¬ 8 + (8 + rest.length) < 16 := by omega
  simp [decode, hl, hd, h8, Except.map, List.drop_append]

/-! ### Instructions and words -/

/-- The words of every well-formed instruction decode to it; an event of the device is none. -/
theorem roundTrip (i : Instr) : RoundTrip.Statement i := by
  cases i with
  | add => apply RoundTrip.add
  | sub => apply RoundTrip.sub
  | mul => apply RoundTrip.mul
  | div => apply RoundTrip.div
  | rem => apply RoundTrip.rem
  | fma => apply RoundTrip.fma
  | neg => apply RoundTrip.neg
  | abs => apply RoundTrip.abs
  | min => apply RoundTrip.min
  | max => apply RoundTrip.max
  | clamp => apply RoundTrip.clamp
  | cmp => apply RoundTrip.cmp
  | cmpm => apply RoundTrip.cmpm
  | cmpi => apply RoundTrip.cmpi
  | sqrt => apply RoundTrip.sqrt
  | rcp => apply RoundTrip.rcp
  | rsq => apply RoundTrip.rsq
  | exp2 => apply RoundTrip.exp2
  | log2 => apply RoundTrip.log2
  | sin => apply RoundTrip.sin
  | cos => apply RoundTrip.cos
  | tanh => apply RoundTrip.tanh
  | frnd => apply RoundTrip.frnd
  | dot => apply RoundTrip.dot
  | cvt => apply RoundTrip.cvt
  | pack => apply RoundTrip.pack
  | unpk => apply RoundTrip.unpk
  | scaleq => apply RoundTrip.scaleq
  | qnt => apply RoundTrip.qnt
  | tagof => apply RoundTrip.tagof
  | tagas => apply RoundTrip.tagas
  | tagm => apply RoundTrip.tagm
  | and => apply RoundTrip.and
  | or => apply RoundTrip.or
  | xor => apply RoundTrip.xor
  | not => apply RoundTrip.not
  | andi => apply RoundTrip.andi
  | ori => apply RoundTrip.ori
  | xori => apply RoundTrip.xori
  | shl => apply RoundTrip.shl
  | shr => apply RoundTrip.shr
  | sar => apply RoundTrip.sar
  | rol => apply RoundTrip.rol
  | shli => apply RoundTrip.shli
  | shri => apply RoundTrip.shri
  | popc => apply RoundTrip.popc
  | clz => apply RoundTrip.clz
  | ctz => apply RoundTrip.ctz
  | brev => apply RoundTrip.brev
  | bfx => apply RoundTrip.bfx
  | bfi => apply RoundTrip.bfi
  | mulh => apply RoundTrip.mulh
  | addw => apply RoundTrip.addw
  | subw => apply RoundTrip.subw
  | mulw => apply RoundTrip.mulw
  | lea => apply RoundTrip.lea
  | ptrd => apply RoundTrip.ptrd
  | mov => apply RoundTrip.mov
  | movi => apply RoundTrip.movi
  | movf => apply RoundTrip.movf
  | movl => apply RoundTrip.movl
  | sel => apply RoundTrip.sel
  | getl => apply RoundTrip.getl
  | setl => apply RoundTrip.setl
  | addi => apply RoundTrip.addi
  | muli => apply RoundTrip.muli
  | bra => apply RoundTrip.bra
  | call => apply RoundTrip.call
  | ret => apply RoundTrip.ret
  | jmpi => apply RoundTrip.jmpi
  | exit => apply RoundTrip.exit
  | lcall => apply RoundTrip.lcall
  | join => apply RoundTrip.join
  | leave => apply RoundTrip.leave
  | mset => apply RoundTrip.mset
  | mops => apply RoundTrip.mops
  | mget => apply RoundTrip.mget
  | elect => apply RoundTrip.elect
  | shfl => apply RoundTrip.shfl
  | shflx => apply RoundTrip.shflx
  | bcast => apply RoundTrip.bcast
  | vote => apply RoundTrip.vote
  | redux => apply RoundTrip.redux
  | scanx => apply RoundTrip.scanx
  | lret => apply RoundTrip.lret
  | alloc => apply RoundTrip.alloc
  | gets => apply RoundTrip.gets
  | sets => apply RoundTrip.sets
  | trap => apply RoundTrip.trap
  | bkpt => apply RoundTrip.bkpt
  | tret => apply RoundTrip.tret
  | nop => apply RoundTrip.nop
  | yield => apply RoundTrip.yield
  | sleep => apply RoundTrip.sleep
  | ld => apply RoundTrip.ld
  | st => apply RoundTrip.st
  | ldr => apply RoundTrip.ldr
  | str => apply RoundTrip.str
  | lr => apply RoundTrip.lr
  | sc => apply RoundTrip.sc
  | fence => apply RoundTrip.fence
  | pf => apply RoundTrip.pf
  | cflush => apply RoundTrip.cflush
  | cinv => apply RoundTrip.cinv
  | ldh => apply RoundTrip.ldh
  | hcas => apply RoundTrip.hcas
  | lds => apply RoundTrip.lds
  | sts => apply RoundTrip.sts
  | satom => apply RoundTrip.satom
  | tile => apply RoundTrip.tile
  | cpy => apply RoundTrip.cpy
  | give => apply RoundTrip.give
  | take => apply RoundTrip.take
  | ownq => apply RoundTrip.ownq
  | mma => apply RoundTrip.mma
  | mmab => apply RoundTrip.mmab
  | accz => apply RoundTrip.accz
  | accw => apply RoundTrip.accw
  | accld => apply RoundTrip.accld
  | accrd => apply RoundTrip.accrd
  | bndget => apply RoundTrip.bndget
  | bndset => apply RoundTrip.bndset
  | bninit => apply RoundTrip.bninit
  | bna => apply RoundTrip.bna
  | bnw => apply RoundTrip.bnw
  | bnaw => apply RoundTrip.bnaw
  | atom => apply RoundTrip.atom
  | vatom => apply RoundTrip.vatom
  | mmap => apply RoundTrip.mmap
  | kvapp => apply RoundTrip.kvapp
  | ksel => apply RoundTrip.ksel
  | attn => apply RoundTrip.attn
  | kvxl => apply RoundTrip.kvxl
  | wqry => apply RoundTrip.wqry
  | signal => apply RoundTrip.signal
  | waits => apply RoundTrip.waits
  | cmpl => apply RoundTrip.cmpl
  | dlaunch => apply RoundTrip.dlaunch
  | kvret => apply RoundTrip.kvret
  | svcall => apply RoundTrip.svcall
  | ctxsv => apply RoundTrip.ctxsv
  | ctxld => apply RoundTrip.ctxld
  | prmt => apply RoundTrip.prmt
  | icinv => apply RoundTrip.icinv
  | kvmap => apply RoundTrip.kvmap
  | kvsd => apply RoundTrip.kvsd
  | _ => exact RT.of_event rfl

theorem encode_words {i : Instr} (hi : WellFormed i) :
    (∃ w, encode i = some [w] ∧ hasLiteral w = false ∧ decodeWords w 0 = .ok i) ∨
    ∃ w lit, encode i = some [w, lit] ∧ hasLiteral w = true ∧ decodeWords w lit = .ok i := by
  obtain ⟨w, ws, he, hlen, hlit, hd⟩ := roundTrip i hi
  match ws, hlen with
  | [], _ => exact .inl ⟨w, he, by simpa using hlit, hd⟩
  | [lit], _ => exact .inr ⟨w, lit, he, hlit.mpr rfl, hd⟩

/-- Settles O56: `roundTrip` between words, `wd_leNat_leBytes` between words and bytes. -/
theorem decodeOfEncode : Obligations.DecodeOfEncode := by
  unfold Obligations.DecodeOfEncode
  intro i hi
  obtain ⟨w, he, hl, hd⟩ | ⟨w, lit, he, hl, hd⟩ := encode_words hi
  · refine ⟨leBytes 8 w.toNat, by simp [encodeBytes, he], .inl (length_leBytes ..), fun rest => decode_word rest hl hd⟩
  · refine ⟨leBytes 8 w.toNat ++ leBytes 8 lit.toNat, by simp [encodeBytes, he], .inr (by simp), fun rest => ?_⟩
    rw [List.append_assoc]
    exact decode_word_literal rest hl hd

/-! ### A word's one meaning -/

/-- What the decoder has checked of the word it accepts. -/
theorem decodeWords_ok {w lit : Word} {i : Instr} (hd : decodeWords w lit = .ok i) :
    (∃ h, candidate (fld w 51 8) h (fld w 0 47) lit = some i) ∧ WellFormed i ∧ ∃ r, encode i = some (w :: r) := by
  unfold decodeWords at hd
  split at hd
  · cases hd
  · next h _ =>
    split at hd
    · cases hd
    · next hc =>
      split at hd
      · next hi =>
        split at hd
        · next he =>
          split at hd
          · next hw =>
            cases hd
            exact ⟨⟨h, hc⟩, hi, _, hw ▸ he⟩
          · cases hd
        · cases hd
      · cases hd

/-- The literal of an instruction that a word with a literal names (R42). -/
def literalOf : Instr → Word
  | .movl _ _ _ lit => lit
  | _ => 0

theorem literalOf_candidate {h : Hdr} {x : Nat} {lit : Word} {i : Instr} (hc : candidate 0x43 h x lit = some i) :
    literalOf i = lit := by
  simp only [candidate, Option.pure_def, Option.bind_eq_bind, Option.bind_eq_some_iff] at hc
  obtain ⟨t, _, d, _, hi⟩ := hc
  cases hi
  rfl

/-- A word with a literal word decodes to an instruction that holds that literal. -/
theorem literalOf_decodeWords {w lit : Word} {i : Instr} (hl : hasLiteral w = true) (hd : decodeWords w lit = .ok i) :
    literalOf i = lit := by
  obtain ⟨⟨h, hc⟩, _⟩ := decodeWords_ok hd
  rw [hasLiteral, beq_iff_eq] at hl
  rw [hl] at hc
  exact literalOf_candidate hc

/-- Settles O57: the decoder has checked the first word, and the round trip fixes whether a second one follows and which. -/
theorem wordHasOneMeaning : Obligations.WordHasOneMeaning := by
  unfold Obligations.WordHasOneMeaning
  intro w lit i hd
  obtain ⟨_, hi, r, he⟩ := decodeWords_ok hd
  refine ⟨hi, ?_⟩
  obtain ⟨v, hv, hl, _⟩ | ⟨v, l, hv, hl, hv'⟩ := encode_words hi
  · obtain ⟨rfl, rfl⟩ : w = v ∧ r = [] := by simpa using he.symm.trans hv
    simpa [hl] using hv
  · obtain ⟨rfl, rfl⟩ : w = v ∧ r = [l] := by simpa using he.symm.trans hv
    have hlit : l = lit := (literalOf_decodeWords hl hv').symm.trans (literalOf_decodeWords hl hd)
    simpa [hl, hlit] using hv

/-- Settles O55: each word is decoded. -/
theorem decodedTableWords : Obligations.DecodedTableWords := by
  unfold Obligations.DecodedTableWords
  decide

end Sys2Proof.Laws
end

section
/-! ## Fetch, decode and execution (O53, O58, O21)

A turn of an issue partition whose warp may issue comes to what its fetch comes to (`takeTurn_ok`, `takeTurn_fault`,
`takeTurn_refused`); a word that decodes to nothing is a fault of the fetch; and every instruction is executed by the one issue of
Machine/Issue (`exec_issued`), which traps an illegal one before its own effect. -/

namespace Sys2Proof.Laws
open Sys2Proof Sys2Proof.Machine

/-! ### The turn of an issue partition -/

/-- Issue partition p of core c is in a run of warp w, which may issue at pc. -/
structure Runs (s : State) (c p w : Nat) (pc : Word) : Prop where
  active : (spGet Run.none (coreOf s c).runs p).active = true
  warp : (spGet Run.none (coreOf s c).runs p).warp = w
  pc : issuePc (warpOf s w) = some pc
  can : canIssue (warpOf s w) = true
  due : (warpOf s w).mchkNext = false

/-- A warp that may issue waits for nothing. -/
theorem wait_of_canIssue {x : Warp} (h : canIssue x = true) : x.wait = .none := by
  simp only [canIssue, Bool.and_eq_true, decide_eq_true_eq] at h
  obtain ⟨⟨_, hw⟩, _⟩ := h
  exact hw

section
variable {s : State} {c p w : Nat} {pc : Word}

theorem takeTurn_ok {i : Instr} {rx : Bool} (hr : Runs s c p w pc) (hf : fetchInstr s w pc = .ok i rx) :
    takeTurn s c p = .run i { (updWarp s w (fun x => { x with rx := rx })) with cur := w } := by
  simp [takeTurn, hr.active, hr.warp, hr.pc, hr.can, hr.due, wait_of_canIssue hr.can, hf]

theorem takeTurn_fault {e : Cause} {a : Word} (hr : Runs s c p w pc) (hf : fetchInstr s w pc = .fault e a) :
    takeTurn s c p = .done (fetchFault s w pc a e) := by
  simp [takeTurn, hr.active, hr.warp, hr.pc, hr.can, hr.due, wait_of_canIssue hr.can, hf]

theorem takeTurn_refused {pa : Nat} {a : Word} (hr : Runs s c p w pc) (hf : fetchInstr s w pc = .refused pa a) :
    takeTurn s c p = .done (fetchFault (tellRefused s (warpPart s w) pa) w pc a .prot) := by
  simp [takeTurn, hr.active, hr.warp, hr.pc, hr.can, hr.due, wait_of_canIssue hr.can, hf]

end

/-! ### A step with a turn on the agenda -/

section
variable {s : State} {c p : Nat} {r : List Turn}

theorem step_event {i : Instr} (ha : s.agenda = .ev i :: r) : step s = exec i { s with agenda := r } := by
  simp [step, ha, stepTurn]

theorem step_issue (hp : p < 8) (ha : s.agenda = .issue (c * 8 + p) :: r) :
    (∀ i t, takeTurn { s with agenda := r } c p = .run i t → step s = exec i t) ∧
    ∀ t, takeTurn { s with agenda := r } c p = .done t → step s = .next t := by
  have hc : (c * 8 + p) / 8 = c := by omega
  have hm : (c * 8 + p) % 8 = p := by omega
  exact ⟨fun i t e => by simp only [step, ha, stepTurn, hc, hm, e], fun t e => by simp only [step, ha, stepTurn, hc, hm, e]⟩

end

/-! ### Fetching a word and an instruction (R21, R42, R45, R47) -/

section
variable {s : State} {w : Nat} {pc d : Word} {rx : Bool}

theorem fetchInstr_word {i : Instr} (hw : fetchWord s w pc.toNat = .ok d rx) (hl : hasLiteral d = false)
    (hd : decodeWords d 0 = .ok i) : fetchInstr s w pc = .ok i rx := by
  simp only [fetchInstr, hw, hd, hl, Bool.false_eq_true, if_false]

theorem fetchInstr_literal {lit : Word} {ry : Bool} {i j : Instr} (hw : fetchWord s w pc.toNat = .ok d rx)
    (hl : hasLiteral d = true) (hj : decodeWords d 0 = .ok j) (hn : fetchWord s w (pc.toNat + 8) = .ok lit ry)
    (hd : decodeWords d lit = .ok i) : fetchInstr s w pc = .ok i rx := by
  simp only [fetchInstr, hw, hj, hl, hn, hd, if_true]

theorem fetchInstr_illegal {e : Reject} (hw : fetchWord s w pc.toNat = .ok d rx) (hd : decodeWords d 0 = .error e) :
    fetchInstr s w pc = .fault .ill pc := by
  simp only [fetchInstr, hw, hd]

theorem fetchWord_buffered {va pa : Nat} {l : Leaf} (ha : va % 8 = 0) (hx : va < 2 ^ 48)
    (ht : translate s w va .x = .ok pa l)
    (hb : ibufWord (coreOf s (warpOf s w).core) (pa / 256) (teamOf s (warpOf s w).team).version (pa / 8) = some d) :
    fetchWord s w va = .ok d l.rx := by
  have hx' : ¬ 2 ^ 48 ≤ va := by omega
  simp only [fetchWord, ha, hx', ht, hb, ne_eq, not_true_eq_false, if_false]

end

/-- Settles O53: the agenda's turn is the step, and the turn of a running partition is its warp's fetch. -/
theorem stepRunsTheFetchedInstruction : Obligations.StepRunsTheFetchedInstruction := by
  unfold Obligations.StepRunsTheFetchedInstruction
  refine ⟨fun i r s => step_event, ?_, ?_, ?_⟩
  · intro c p w pc r s s0 run hp ha hact hwarp hpc hcan hdue
    have hr : Runs s0 c p w pc := ⟨hact, hwarp, hpc, hcan, hdue⟩
    obtain ⟨hrun, hdone⟩ := step_issue hp ha
    exact ⟨fun i rx hf => hrun _ _ (takeTurn_ok hr hf), fun e a hf => hdone _ (takeTurn_fault hr hf),
      fun pa a hf => hdone _ (takeTurn_refused hr hf)⟩
  · intro w pc d rx i s hw
    exact ⟨fetchInstr_word hw, fun lit ry j hl hj hn hd => fetchInstr_literal hw hl hj hn hd,
      fun e hd => fetchInstr_illegal hw hd⟩
  · intro w va pa l d s
    exact ⟨fun h => by simp [fetchWord, h], fun h hx => by rw [fetchWord, if_neg (by omega), if_pos hx], fetchWord_buffered⟩

/-! ### Traps of lanes with one cause -/

/-- The least address of some lanes is one lane's. -/
theorem exists_of_minLpc {x : Warp} {ls : List Nat} {n : Nat} (h : minLpc x ls = some n) :
    ∃ l ∈ ls, (laneOf x l).lpc.toNat = n := by
  induction ls generalizing n with
  | nil => cases h
  | cons a r ih =>
    rw [minLpc] at h
    cases hr : minLpc x r with
    | none =>
      rw [hr] at h
      exact ⟨a, List.mem_cons_self, by simpa using h⟩
    | some b =>
      rw [hr] at h
      obtain ⟨l, hl, hb⟩ := ih hr
      rcases Nat.le_total (laneOf x a).lpc.toNat b with hab | hab
      · exact ⟨a, List.mem_cons_self, by simpa [hab] using h⟩
      · exact ⟨l, List.mem_cons_of_mem _ hl, by rw [hb]; simpa [hab] using h⟩

/-- Some lane stands at the issue address. -/
theorem lanesAt_ne_nil {x : Warp} {pc : Word} (h : issuePc x = some pc) : lanesAt x pc ≠ [] := by
  obtain ⟨n, hn, hpc⟩ := Option.map_eq_some_iff.mp h
  obtain ⟨l, hl, hlpc⟩ := exists_of_minLpc hn
  have hat : (laneOf x l).lpc = pc := by
    rw [← hpc, ← hlpc, wd, BitVec.ofNat_toNat, BitVec.setWidth_eq]
  exact List.ne_nil_of_mem (List.mem_filter.mpr ⟨hl, decide_eq_true hat⟩)

theorem sorted_lanesAt (x : Warp) (pc : Word) : (lanesAt x pc).Pairwise (· < ·) :=
  List.Pairwise.sublist ((sublist_lanesAt _ _).trans (sublist_readyLanes _)) List.pairwise_lt_range

section
variable {s : State} {ix : Ix} {f : LFault} {fs : List LFault}

/-- The end of a run changes nothing that a trap's entry looks at. -/
theorem outstanding_closeRun {w : Nat} {r : Run} (hr : r.count ≠ 0) :
    outstanding (closeRun s w r) w = outstanding s w := by
  have h := runStep_closeRun w s hr
  have hwait : (warpOf (closeRun s w r) w).wait = (warpOf s w).wait := by rw [h.own.warp]
  have hcore : (warpOf (closeRun s w r) w).core = (warpOf s w).core := by rw [h.own.warp]
  have hreqs : (coreOf (closeRun s w r) (warpOf s w).core).reqs = (coreOf s (warpOf s w).core).reqs := by
    rcases h.cores (warpOf s w).core with e | ⟨_, e⟩
    · rw [e]
    · rw [e]
      unfold tableDone
      split
      · rfl
      · exact (regionPuts_rest _ _).2.2
  simp only [outstanding, hwait, hcore, hreqs]

/-- A trap that nothing holds up is entered with the run that ends (R157). -/
theorem warpOf_trapRun (hf : topFault fs = some f) (ho : outstanding s ix.w = false) (ht : tip (warpOf s ix.w) = false)
    (hv : (warpOf s ix.w).trapv ≠ 0) :
    ∃ t : TrapRec, t.cause = f.cause ∧ t.eaddr = f.eaddr ∧ t.info = 0 ∧
      warpOf (trapRun s ix fs 0 []) ix.w = trapWarp (warpOf (closeRun s ix.w (runFor s ix.w).more) ix.w) t := by
  have hr : (runFor s ix.w).more.count ≠ 0 := Nat.succ_ne_zero _
  have hw := (runStep_closeRun ix.w s hr).own.warp
  have ho' := (outstanding_closeRun (s := s) (w := ix.w) hr).trans ho
  have ht' : tip (warpOf (closeRun s ix.w (runFor s ix.w).more) ix.w) = false := by rw [hw]; exact ht
  have hv' : (warpOf (closeRun s ix.w (runFor s ix.w).more) ix.w).trapv ≠ 0 := by rw [hw]; exact hv
  refine ⟨⟨f.cause, faultLanes (warpOf (closeRun s ix.w (runFor s ix.w).more) ix.w).width fs f.cause, f.eaddr, 0, [], ix.pc⟩,
    rfl, rfl, rfl, ?_⟩
  simp only [trapRun, takeTrap, hf, ho', enterTrap, ht', hv', ite_self, Bool.false_eq_true, if_false, Bool.false_or, decide_false,
    warpOf_setWarp_self]

end

theorem causeCode_lt (c : Cause) : causeCode c < 256 := by cases c <;> decide

theorem trapWarp_cause (x : Warp) (t : TrapRec) (hi : t.info = 0) : fld (trapWarp x t).cause 0 8 = causeCode t.cause := by
  have hc := causeCode_lt t.cause
  simp only [trapWarp, hi, fld, wd, RT.bitsOf_div, BitVec.toNat_ofNat]
  omega

/-- What a fault of the fetch leaves in the warp, once its trap is entered (R47, R157). -/
theorem fetchFault_entered {s : State} {w : Nat} {pc a : Word} {e : Cause} (hpc : issuePc (warpOf s w) = some pc)
    (ho : outstanding s w = false) (ht : tip (warpOf s w) = false) (hv : (warpOf s w).trapv ≠ 0) :
    fld (warpOf (fetchFault s w pc a e) w).cause 0 8 = causeCode e ∧ (warpOf (fetchFault s w pc a e) w).eaddr = ptrVal a := by
  have htop : topFault ((fetchIx (warpOf s w) w pc).grp.map (fun l => ⟨l, e, 0, ptrVal a⟩)) = some _ :=
    topFault_same _ (fun _ => rfl) (fun _ => rfl) (sorted_lanesAt _ _) (lanesAt_ne_nil hpc)
  obtain ⟨t, hcause, headdr, hinfo, hx⟩ := warpOf_trapRun (ix := fetchIx (warpOf s w) w pc) htop ho ht hv
  have hx' : warpOf (fetchFault s w pc a e) w = _ := hx
  rw [hx', trapWarp_cause _ _ hinfo, hcause]
  exact ⟨rfl, headdr⟩

/-! ### Unassigned opcodes (R48) -/

/-- The opcodes of R48. -/
def unassignedOps : List Nat :=
  [0x17] ++ List.range' 0x1D 3 ++ List.range' 0x23 5 ++ List.range' 0x3C 4 ++ [0x47] ++ List.range' 0x50 16 ++
    List.range' 0x7C 4 ++ [0x8F] ++ List.range' 0x9D 3 ++ List.range' 0xA4 28 ++ List.range' 0xC3 13 ++ List.range' 0xD4 12 ++ [0xE7] ++
    List.range' 0xEC 4 ++ List.range' 0xF2 14

theorem candidate_unassigned {op : Nat} (ho : op ∈ unassignedOps) (h : Hdr) (x : Nat) (lit : Word) :
    candidate op h x lit = none := by
  unfold unassignedOps at ho
  fin_cases ho <;> rfl

theorem decodeWords_unassigned {w lit : Word} (ho : fld w 51 8 ∈ unassignedOps) : ∃ e, decodeWords w lit = .error e := by
  cases hd : decodeWords w lit with
  | error e => exact ⟨e, rfl⟩
  | ok i =>
    obtain ⟨⟨h, hc⟩, _⟩ := decodeWords_ok hd
    rw [candidate_unassigned ho] at hc
    cases hc

/-- Settles O58: no opcode of R48 names a candidate, so that the fetch is at fault and every lane there has the cause ILL. -/
theorem unassignedOpcodesRaiseIll : Obligations.UnassignedOpcodesRaiseIll := by
  unfold Obligations.UnassignedOpcodesRaiseIll
  refine ⟨fun w lit ho => decodeWords_unassigned ho, ?_⟩
  intro c p w pc d rx r s s0 run hp ha hact hwarp hpc hcan hdue hw ho
  have hr : Runs s0 c p w pc := ⟨hact, hwarp, hpc, hcan, hdue⟩
  obtain ⟨e, hd⟩ := decodeWords_unassigned (lit := 0) ho
  exact ⟨(step_issue hp ha).2 _ (takeTurn_fault hr (fetchInstr_illegal hw hd)), fetchFault_entered (s := s0) hpc⟩

/-! ### The one issue of every instruction -/

/-- Every instruction that has a word is executed by the shared issue. -/
theorem exec_issued {i : Instr} (hi : (bodyOf i).isSome = true) (s : State) :
    ∃ body, exec i s = issued i (Machine.hdrOf i) s body := by
  cases i with
  | sleepExpiry | trapEntry | runSelect | resultArrival | instructionFill | translationWalkDone | copyExecute | matrixStep
    | pairedStep | aswRequest | atomicReply | aswStallTimeout | aswRestart | kvappPerform | pageSelect | kselComplete
    | attnPartial | attnMerge | wqryReply | waitsRecheck | waitsHostPoll | svcallReply | teamStopped | ktbShootdownRequest
    | slotDrained | teamRelease | teamPlace | queueTailWrite | queueCheadWrite | queueEnableWrite | takeRecord
    | recordWaitSatisfied | graphNodeComplete | loopCondition | completionRecordWrite | watchdogReport | partitionRecordWrite
    | partitionReset | ptrootWrite | tbgo | regionTableWrite | priResponse | atsInvalidation | racqPromote | inboundPcieWrite
    | inboundPcieRead | inboundAtomicop | vfFunctionLevelReset | streamWindowEnable | streamFrameWrite | streamPublish
    | streamSkip | fabricRequest | linkDown | networkRetryExhausted | remoteHomeLost | patrolScrub | powerOn
    | pfFunctionLevelReset | getVersion | getCapabilities | negotiateAlgorithms | getDigests | getCertificate | challenge
    | getMeasurements | readctx | readmem | flushp | readtab | readq | readunit | readlog | mailboxRequest | registerWrite
    | l1WriteBack | linkRetrain | softError | aswFirmwareHalt | teamKill | ktbAcknowledgment | markRegionTagged => cases hi
  | _ => exact ⟨_, rfl⟩

section
variable {i : Instr} {h : Hdr} {s : State} {body : Ix → State → Res}

/-- ILL of the word comes before its effect, and before what it waits for. -/
theorem issued_illegal (hp : (issuePc (warpOf s s.cur)).isSome = true) (hc : canIssue (warpOf s s.cur) = true)
    (hm : (warpOf s s.cur).mchkNext = false) (hl : legal i = false ∨ regsInRange (warpOf s s.cur) i = false) :
    issued i h s body = .next (trapped i h s ((curIx i h s).grp.map (fun l => faultAt (curIx i h s) l .ill)) 0 []) := by
  obtain ⟨pc, hpc⟩ := Option.isSome_iff_exists.mp hp
  have hb : (!legal i || !regsInRange (warpOf s s.cur) i) = true := by
    rcases hl with e | e <;> simp [e]
  simp only [issued, issueInstr, hpc, hc, hm, hb, trapped, curIx, Option.getD_some, Bool.not_true, Bool.false_eq_true, if_false,
    if_true]

/-- A trap after accesses that told the service cores nothing. -/
theorem issued_trapIn (is : issues i h s = true) {t : State} {fs : List LFault}
    (e : body (curIx i h s) (began i h s) = .trapIn t fs) (hp : t.parts = s.parts) :
    issued i h s body = .next (trapped i h s fs 0 []) := by
  rw [issued, issueInstr_eq is, e]
  simp only [hp]
  rfl

theorem began_parts : (began i h s).parts = s.parts := by rw [began_eq]

end

/-- A lane instruction each of whose lanes has a cause traps. -/
theorem laneOp_faults {ix : Ix} {s : State} {d : LDst} {srcs : List Reg} {f : Nat → LOut} {c : Nat → Cause} {n : Nat → Nat}
    (hf : ∀ l ∈ actLanes ix d srcs, f l = .fault (c l) (n l)) (hx : actLanes ix d srcs ≠ []) :
    laneOp ix s d srcs f = .trapIn s ((actLanes ix d srcs).map (fun l => ⟨l, c l, n l, ptrVal ix.pc⟩)) := by
  have e : (actLanes ix d srcs).map (fun l => (l, f l)) = (actLanes ix d srcs).map (fun l => (l, LOut.fault (c l) (n l))) :=
    List.map_congr_left (fun l hl => by rw [hf l hl])
  have hcalls : ∀ ls : List Nat, callsOf ix d (ls.map (fun l => (l, LOut.fault (c l) (n l)))) = [] := by
    intro ls; simp [callsOf, List.filterMap_map]
  have hfaults : ∀ ls : List Nat, faultsOf ix (ls.map (fun l => (l, LOut.fault (c l) (n l)))) =
      ls.map (fun l => ⟨l, c l, n l, ptrVal ix.pc⟩) := by
    intro ls; simp [faultsOf, List.filterMap_map]
  simp only [laneOp, e, hcalls, hfaults, finishCalls, checkCalls, List.foldl_nil, List.append_nil, ne_eq, not_true_eq_false, if_false,
    List.map_eq_nil_iff, hx, not_false_eq_true, if_true]

theorem fld_poisonVal (x : Word) : fld (poisonVal (fld x 0 16)).pay 0 16 = fld x 0 16 := by
  simp only [poisonVal, fld, wd, RT.bitsOf_div, BitVec.toNat_ofNat]
  omega

theorem orPoisonTrap_head {v : Val} {vs : List Val} {r : LOut} (hv : v.tag = .poison) :
    orPoisonTrap (v :: vs) r = .fault .poison (fld v.pay 0 16) := by
  simp [orPoisonTrap, firstPoison, hv, fld_poisonVal]

/-- Settles O21: the shared issue looks at the word's legality first; the lanes of a CMPM of POISON operands all trap. -/
theorem illegalFormsAndPoisonTrap : Obligations.IllegalFormsAndPoisonTrap := by
  unfold Obligations.IllegalFormsAndPoisonTrap
  constructor
  · intro i s h w hi hpc hcan hdue hill
    obtain ⟨body, hbody⟩ := exec_issued hi s
    rw [hbody]
    exact issued_illegal hpc hcan hdue hill
  · rintro h cc m ra rb sa sb e s i ⟨is, hp⟩
    have hx : (curIx i h s).exe ≠ [] := (issues_iff.mp is).2.2.2.2.2.2.2
    refine issued_trapIn is (laneOp_faults (c := fun _ => .poison) (n := fun l => fld (opnd s ra sa l).pay 0 16) ?_ hx) began_parts
    intro l hl
    simp only [opVal_began, i]
    exact orPoisonTrap_head (hp l hl)

end Sys2Proof.Laws
end

section
/-! ## Transfers (O14)

BRA, CALL and RET are `turns_transfer` (Laws/Control) with their causes excluded; LCALL also completes the warp's fixed-latency
results, which no statement about lanes sees. -/

namespace Sys2Proof.Laws
open Sys2Proof Sys2Proof.Machine

section
variable {i : Instr} {h : Hdr} {s : State}

/-- The state of effect of a transfer none of whose lanes has a cause. -/
theorem transfer_ok {c : Cond} {cause : Lane → Option Cause} {at_ : Lane → Word} {f : Lane → Lane}
    (hc : ∀ l ∈ (curIx i h s).exe, ∀ r, condReg c = some r → (readReg (warpOf s s.cur) r l).tag ≠ .poison)
    (hk : ∀ l ∈ (curIx i h s).exe, condHolds (warpOf s s.cur) c l = true →
      cause (laneOf (warpOf (began i h s) s.cur) l) = none) :
    transfer c (curIx i h s) (began i h s) cause at_ f = .ok (setWarp (began i h s) s.cur
      (updLanes (warpOf (began i h s) s.cur)
        ((curIx i h s).exe.filter (fun l => condHolds (warpOf s s.cur) c l)) (fun _ y => f y))) := by
  obtain ⟨hf, ht⟩ := takenLanes_began hc
  have hn : ((curIx i h s).exe.filter (fun l => condHolds (warpOf s s.cur) c l)).filterMap (fun l =>
      (cause (laneOf (warpOf (began i h s) s.cur) l)).map (fun k =>
        (⟨l, k, 0, ptrVal (at_ (laneOf (warpOf (began i h s) s.cur) l))⟩ : LFault))) = [] := by
    rw [List.filterMap_eq_nil_iff]
    intro l hl
    obtain ⟨hx, hh⟩ := List.mem_filter.mp hl
    rw [hk l hx hh]
    rfl
  simp only [transfer, curIx_w, hf, ht, hn, List.append_nil, ne_eq, not_true_eq_false, if_false]

/-- A condition without a POISON register, as the statements say it. -/
theorem cond_clean {c : Cond} {l : Nat} (hc : ∀ r, condReg c = some r → (opnd s r 0#4 l).tag ≠ .poison) (r : Reg)
    (hr : condReg c = some r) : (readReg (warpOf s s.cur) r l).tag ≠ .poison := by
  rw [← opnd_zero]
  exact hc r hr

end

/-- LDST of a call whose result is discarded (log entry 20). -/
theorem ldstOf_discarded {k : LCall} (hk : k.dkind = 2 ∧ k.dreg = 255 ∧ k.cls = 0 ∧ k.ta = 0 ∧ k.tb = 0) :
    ldstOf k = 0x2000FF := by
  obtain ⟨h1, h2, h3, h4, h5⟩ := hk
  rw [ldstOf, h1, h2, h3, h4, h5]
  decide

/-- The lane's own state after LCALL (R165). -/
theorem lcallLane_eq (ix : Ix) (off : BitVec 32) (y : Lane) : lcallLane ix off y =
    { y with lpc := ix.pc + wdInt (8 * off.toInt), lrpc := ix.pc + 8, ldst := 0x2000FF, lcd := y.lcd + 1,
             stk := if y.lcd = 0 then y.stk else spSet 0 (spSet 0 y.stk y.csd y.lrpc) (y.csd + 1) y.ldst,
             csd := if y.lcd = 0 then y.csd else y.csd + 2 } := by
  rcases Nat.eq_zero_or_pos y.lcd with hz | hp
  · have hn : ¬ 1 ≤ y.lcd := by omega
    simp only [lcallLane, enterCall, hn, if_false, target, ldstOf_discarded, and_self]
    simp only [hz, if_true]
  · have hn : ¬ y.lcd = 0 := by omega
    have h1 : 1 ≤ y.lcd := hp
    simp only [lcallLane, enterCall, h1, hn, if_true, if_false, target, ldstOf_discarded, and_self]

/-! ### One warp written twice -/

theorem spPut_spPut {α : Type} (m : Sparse α) (k : Nat) (v u : α) : spPut k u (spPut k v m) = spPut k u m := by
  induction m with
  | nil => simp [spPut]
  | cons e r ih =>
    obtain ⟨j, w⟩ := e
    rcases Nat.lt_trichotomy k j with h | h | h
    · simp [spPut, h]
    · simp [spPut, h]
    · have h1 : ¬ k < j := by omega
      have h2 : ¬ k = j := by omega
      simp [spPut, h1, h2, ih]

theorem spDel_spPut {α : Type} (m : Sparse α) (k : Nat) (v : α) : spDel k (spPut k v m) = spDel k m := by
  induction m with
  | nil => simp [spPut, spDel]
  | cons e r ih =>
    obtain ⟨j, w⟩ := e
    rcases Nat.lt_trichotomy k j with h | h | h
    · simp [spPut, spDel, h]
    · simp [spPut, spDel, h]
    · have h1 : ¬ k < j := by omega
      have h2 : ¬ k = j := by omega
      simp [spPut, spDel, h1, h2, ih]

/-- The second write at a key stands, where the first was no deletion. -/
theorem spSet_spSet {α : Type} [DecidableEq α] {d v : α} (m : Sparse α) (k : Nat) (u : α) (hv : v ≠ d) :
    spSet d (spSet d m k v) k u = spSet d m k u := by
  simp only [spSet, hv, if_false, spPut_spPut, spDel_spPut]

theorem setWarp_setWarp {s : State} {w : Nat} {x : Warp} (y : Warp) (hx : x ≠ Warp.none) :
    setWarp (setWarp s w x) w y = setWarp s w y := by
  simp only [setWarp, spSet_spSet _ _ _ hx]

/-- A warp that is live is no absent one. -/
theorem ne_none_of_live {x : Warp} (h : x.live = true) : x ≠ Warp.none := by
  rintro rfl
  cases h

/-- The completion of fixed-latency results is issue state. -/
theorem specials_settle (x : Warp) : SameSpecials x (settle x) := ⟨rfl⟩

theorem jmpiFault_none {ix : Ix} {l : Nat} {v : Val} (ht : v.tag = .ptr ∨ v.tag = .int) (hx : fld v.pay 48 16 = 0)
    (ha : fld v.pay 0 3 = 0) : jmpiFault ix l v = none := by
  rcases ht with ht | ht <;> simp [jmpiFault, ht, hx, ha]

section
variable {h : Hdr} {s : State}

theorem turns_call {o : OpBr} (is : issues (.call h o) h s = true)
    (hc : ∀ l ∈ (curIx (.call h o) h s).exe, ∀ r, condReg o.cond = some r → (opnd s r 0#4 l).tag ≠ .poison)
    (hd : ∀ l ∈ (curIx (.call h o) h s).exe, condHolds (warpOf s s.cur) o.cond l = true → (laneOf (warpOf s s.cur) l).csd < 16) :
    Turns (.call h o) h s id (fun l y =>
      if l ∈ (curIx (.call h o) h s).exe ∧ condHolds (warpOf s s.cur) o.cond l = true then
        { y with stk := spSet 0 y.stk y.csd ((curIx (.call h o) h s).pc + 8), csd := y.csd + 1,
                 lpc := (curIx (.call h o) h s).pc + wdInt (8 * o.off.toInt) }
      else y) := by
  refine turns_transfer is rfl rfl (fun l hl => cond_clean (hc l hl)) fun l hl hh => ?_
  have hn : ¬ 16 ≤ (laneOf (warpOf s s.cur) l).csd := by have := hd l hl hh; omega
  simp [laneOf_began, hn]

theorem turns_ret {c : Cond} (is : issues (.ret h c) h s = true)
    (hc : ∀ l ∈ (curIx (.ret h c) h s).exe, ∀ r, condReg c = some r → (opnd s r 0#4 l).tag ≠ .poison)
    (hd : ∀ l ∈ (curIx (.ret h c) h s).exe, condHolds (warpOf s s.cur) c l = true →
      0 < (laneOf (warpOf s s.cur) l).csd ∧ fld (retAddr (laneOf (warpOf s s.cur) l)) 0 3 = 0) :
    Turns (.ret h c) h s id (fun l y =>
      if l ∈ (curIx (.ret h c) h s).exe ∧ condHolds (warpOf s s.cur) c l = true then
        { y with csd := y.csd - 1, lpc := retAddr y }
      else y) := by
  refine turns_transfer is rfl rfl (fun l hl => cond_clean (hc l hl)) fun l hl hh => ?_
  obtain ⟨hp, ha⟩ := hd l hl hh
  have hn : ¬ (laneOf (warpOf s s.cur) l).csd = 0 := by omega
  rw [laneOf_began]
  exact (if_neg hn).trans (if_neg (not_not.mpr ha))

theorem turns_jmpi {rb : Reg} (is : issues (.jmpi h rb) h s = true)
    (hv : ∀ l ∈ (curIx (.jmpi h rb) h s).exe, ((opnd s rb 0#4 l).tag = .ptr ∨ (opnd s rb 0#4 l).tag = .int) ∧
      fld (opnd s rb 0#4 l).pay 48 16 = 0 ∧ fld (opnd s rb 0#4 l).pay 0 3 = 0) :
    Turns (.jmpi h rb) h s id (fun l y =>
      if l ∈ (curIx (.jmpi h rb) h s).exe then { y with lpc := (opnd s rb 0#4 l).pay } else y) := by
  have hn : (curIx (.jmpi h rb) h s).exe.filterMap (fun l =>
      jmpiFault (curIx (.jmpi h rb) h s) l (readReg (warpOf s s.cur) rb l)) = [] := by
    rw [List.filterMap_eq_nil_iff]
    intro l hl
    obtain ⟨ht, hx, ha⟩ := hv l hl
    rw [opnd_zero] at ht hx ha
    exact jmpiFault_none ht hx ha
  refine turns_updLanes is (f := fun l y => { y with lpc := (opnd s rb 0#4 l).pay }) rfl nodup_exe ?_
  simp [hn]

theorem turns_lcall {o : OpBr} (is : issues (.lcall h o) h s = true)
    (hc : ∀ l ∈ (curIx (.lcall h o) h s).exe, ∀ r, condReg o.cond = some r → (opnd s r 0#4 l).tag ≠ .poison)
    (hd : ∀ l ∈ (curIx (.lcall h o) h s).exe, condHolds (warpOf s s.cur) o.cond l = true →
      (laneOf (warpOf s s.cur) l).lcd ≠ 4 ∧ ((laneOf (warpOf s s.cur) l).lcd = 0 ∨ (laneOf (warpOf s s.cur) l).csd ≤ 14)) :
    Turns (.lcall h o) h s id (fun l y =>
      if l ∈ (curIx (.lcall h o) h s).exe ∧ condHolds (warpOf s s.cur) o.cond l = true then
        lcallLane (curIx (.lcall h o) h s) o.off y
      else y) := by
  have hclean := fun l hl => cond_clean (hc l hl)
  have htransfer := transfer_ok (i := .lcall h o) (h := h) (s := s) (c := o.cond)
    (cause := fun y => if y.lcd = 4 ∨ (1 ≤ y.lcd ∧ 14 < y.csd) then some .lcstk else none)
    (at_ := fun _ => (curIx (.lcall h o) h s).pc) (f := lcallLane (curIx (.lcall h o) h s) o.off) hclean (by
      intro l hl hh
      obtain ⟨h4, h0⟩ := hd l hl hh
      have hn : ¬ ((laneOf (warpOf s s.cur) l).lcd = 4 ∨
          (1 ≤ (laneOf (warpOf s s.cur) l).lcd ∧ 14 < (laneOf (warpOf s s.cur) l).csd)) := by omega
      rw [laneOf_began]
      exact if_neg hn)
  generalize hX : updLanes (warpOf (began (.lcall h o) h s) s.cur)
    ((curIx (.lcall h o) h s).exe.filter (fun l => condHolds (warpOf s s.cur) o.cond l))
    (fun _ y => lcallLane (curIx (.lcall h o) h s) o.off y) = X at htransfer
  have hlanes : ∀ l, laneOf X l =
      if l ∈ (curIx (.lcall h o) h s).exe ∧ condHolds (warpOf s s.cur) o.cond l = true then
        lcallLane (curIx (.lcall h o) h s) o.off (laneOf (warpOf (began (.lcall h o) h s) s.cur) l)
      else laneOf (warpOf (began (.lcall h o) h s) s.cur) l := by
    intro l
    rw [← hX, laneOf_updLanes _ _ _ (nodup_exe.filter _)]
    simp only [List.mem_filter]
  have hspecials : SameSpecials (warpOf s s.cur) X := hX ▸ specials_trans specials_began (specials_updLanes ..)
  have hmasks : ∀ m, maskReg X m = maskReg (warpOf s s.cur) m := fun m => by rw [← hX, maskReg_updLanes, maskReg_began]
  have hregs : ∀ r l, readReg X r l = readReg (warpOf s s.cur) r l := fun r l => by
    rw [← hX, readReg_updLanes, readReg_began]
  by_cases hnone : takenLanes (warpOf (began (.lcall h o) h s) s.cur) (curIx (.lcall h o) h s) o.cond = []
  · refine turns_ok is rfl (X := X) ?_ id _ hspecials hlanes hmasks hregs rfl
    simp only [curIx_w, htransfer, hnone, if_true]
  · refine turns_ok is rfl (X := settle X) ?_ id _ (specials_trans hspecials (specials_settle X)) hlanes hmasks
      (fun r l => (readReg_congr rfl rfl r l).trans (hregs r l)) rfl
    have hcan := (issues_iff.mp is).2.1
    simp only [canIssue, Bool.and_eq_true] at hcan
    obtain ⟨⟨⟨⟨hlive, _⟩, _⟩, _⟩, _⟩ := hcan
    have hX : X ≠ Warp.none := ne_none_of_live (by rw [hspecials.eq]; exact hlive)
    simp only [curIx_w, htransfer, hnone, if_false, updWarp_eq, warpOf_setWarp_self, setWarp_setWarp _ hX]

end

/-- Settles O14: each transfer is `Turns` of its taken lanes, and the premises exclude its causes. -/
theorem transfersMoveLanes : Obligations.TransfersMoveLanes := by
  unfold Obligations.TransfersMoveLanes
  refine ⟨?_, ?_, ?_, ?_, ?_⟩
  · rintro h o s i ⟨is, hc⟩
    exact turns_transfer is rfl rfl (fun l hl => cond_clean (hc l hl)) fun _ _ _ => rfl
  · rintro h o s i ⟨is, hc⟩
    exact turns_call is (fun l hl => (hc l hl).1) fun l hl hh => (hc l hl).2 ⟨hl, hh⟩
  · rintro h c s i top ⟨is, hc⟩
    exact turns_ret is (fun l hl => (hc l hl).1) fun l hl hh => (hc l hl).2 ⟨hl, hh⟩
  · rintro h rb s i ⟨is, hv⟩
    exact turns_jmpi is hv
  · rintro h o s i ⟨is, hc⟩
    refine Turns_congr rfl (fun l => ?_) (turns_lcall is (fun l hl => (hc l hl).1) fun l hl hh => (hc l hl).2 ⟨hl, hh⟩)
    rw [lcallLane_eq]

end Sys2Proof.Laws
end

section
/-! ## Loads and stores that nothing holds up (O22, O24)

`loadOp_ready` and `storeOp_ready` follow the tests of the model's load and store bodies: each is passed by a hypothesis. The one
fact between them is that planning the accesses changes no warp (`planMem_warps`): the read barrier writes caches, the header
partition and reports alone. -/

namespace Sys2Proof.Laws
open Sys2Proof Sys2Proof.Machine

/-! ### What happens at a home changes memory and its slices alone -/

/-- t differs from s in memory, its shadow and marks, and the L2 slices. -/
structure HomeSide (s t : State) : Prop where
  eq : t = { s with mem := t.mem, tags := t.tags, bad := t.bad, l2 := t.l2, l2lru := t.l2lru }

theorem HomeSide.refl (s : State) : HomeSide s s := ⟨rfl⟩

theorem HomeSide.trans {s t u : State} (a : HomeSide s t) (b : HomeSide t u) : HomeSide s u := by
  have h := b.eq
  rw [a.eq] at h
  exact ⟨h⟩

theorem HomeSide.ite {s : State} {c : Prop} [Decidable c] {t u : State} (ht : HomeSide s t) (hu : HomeSide s u) :
    HomeSide s (if c then t else u) := iteInduction (motive := HomeSide s) (fun _ => ht) fun _ => hu

theorem HomeSide.foldl {β : Type} {f : State → β → State} (hf : ∀ s b, HomeSide s (f s b)) (l : List β) (s : State) :
    HomeSide s (l.foldl f s) := by
  induction l generalizing s with
  | nil => exact .refl s
  | cons b r ih => exact (hf s b).trans (ih _)

theorem HomeSide.warps {s t : State} (h : HomeSide s t) : t.warps = s.warps := by rw [h.eq]
theorem HomeSide.cores {s t : State} (h : HomeSide s t) : t.cores = s.cores := by rw [h.eq]
theorem HomeSide.decoders {s t : State} (h : HomeSide s t) : t.decoders = s.decoders := by rw [h.eq]

theorem setMemByte_homeSide (s : State) (a : Nat) (b : Byte) : HomeSide s (setMemByte s a b) := ⟨rfl⟩

theorem setL2_homeSide (s : State) (k : Nat) (w : CWord) : HomeSide s (setL2 s k w) := ⟨rfl⟩

theorem rawWrite_homeSide (s : State) (k : Nat) (data : Word) (mask : BitVec 8) (t : Option Tag) (bad : Bool) :
    HomeSide s (rawWrite s k data mask t bad) := by
  unfold rawWrite
  have hbytes := HomeSide.foldl (f := fun s i => if mask.getLsbD i then setMemByte s (k * 8 + i) (byteAt data i) else s)
    (fun s i => .ite (setMemByte_homeSide ..) (.refl s)) (List.range 8) s
  generalize (List.range 8).foldl (fun s i => if mask.getLsbD i then setMemByte s (k * 8 + i) (byteAt data i) else s) s = u at *
  have htags : ∀ t', HomeSide u (if isTagged u (k * 8) then { u with tags := spSet .nil u.tags k t' } else u) :=
    fun t' => .ite ⟨rfl⟩ (.refl u)
  cases t with
  | none => exact hbytes.trans ⟨rfl⟩
  | some t => exact (hbytes.trans (htags t)).trans ⟨rfl⟩

theorem l2Clean_homeSide (s : State) (k : Nat) : HomeSide s (l2Clean s k) :=
  .ite (.refl s) ((rawWrite_homeSide ..).trans (setL2_homeSide ..))

theorem l2Evict_homeSide (s : State) (line : Nat) : HomeSide s (l2Evict s line) :=
  .foldl (fun s k => .ite (.refl s) ((l2Clean_homeSide s k).trans (setL2_homeSide ..))) _ s

theorem l2Touch_homeSide (s : State) (line : Nat) : HomeSide s (l2Touch s line) := by
  unfold l2Touch
  simp only []
  split
  · next v _ =>
    have h := l2Evict_homeSide s v
    generalize l2Evict s v = u at *
    exact h.trans ⟨rfl⟩
  · exact ⟨rfl⟩

theorem l2Fill_homeSide (s : State) (k : Nat) : HomeSide s (l2Fill s k) := .ite (.refl s) (setL2_homeSide ..)

theorem homeRead_homeSide (s : State) (k : Nat) : HomeSide s (homeRead s k).1 := by
  unfold homeRead
  split
  · exact (l2Touch_homeSide ..).trans (.ite (.refl _) (.foldl l2Fill_homeSide _ _))
  · exact .refl s

/-! ### Planning an access changes no warp -/

theorem tellRefused_warps (s : State) (p pa : Nat) : (tellRefused s p pa).warps = s.warps := by
  unfold tellRefused
  simp only []
  split
  · split <;> rfl
  · rfl

theorem keepHeader_warps (s : State) (c va k : Nat) (v : Val) : (keepHeader s c va k v).warps = s.warps := by
  unfold keepHeader
  simp only []
  split <;> rfl

/-- The state that reading a header leaves, if it leaves one, has the warps ws. -/
def Hdrd.Warps (ws : Sparse Warp) : Hdrd → Prop
  | .ok s _ | .fault s _ => s.warps = ws
  | .miss _ => True

/-- The state that the barrier leaves, if it leaves one, has the warps ws. -/
def Bar.Warps (ws : Sparse Warp) : Bar → Prop
  | .ok s _ | .call s _ | .fault s _ => s.warps = ws
  | .miss _ => True

theorem readHeader_warps (s : State) (w va : Nat) : Hdrd.Warps s.warps (readHeader s w va) := by
  have hread : ∀ k, (homeRead s k).1.warps = s.warps := fun k => (homeRead_homeSide s k).warps
  unfold readHeader
  simp only []
  split
  · rfl
  · split
    · trivial
    · rfl
    · split
      · exact tellRefused_warps ..
      · split
        · exact hread _
        · exact (keepHeader_warps ..).trans (hread _)

theorem barrier_warps (s : State) (w : Nat) (v : Val) : Bar.Warps s.warps (barrier s w v) := by
  have h := readHeader_warps s w v.pay.toNat
  unfold barrier
  split
  · split
    · trivial
    · next e => rw [e] at h; exact h
    · next e =>
      rw [e] at h
      split <;> exact h
  · rfl

theorem planLane_warps (s : State) (ix : Ix) (l : Nat) (a b : Val) (off : Int) (al : Nat) (ns : List Need) (bar : Bool) :
    (planLane s ix l a b off al ns bar).1.warps = s.warps := by
  have h := barrier_warps s ix.w a
  unfold planLane
  simp only []
  split
  · rfl
  · split
    · split
      · rfl
      · rename_i e; rw [e] at h; exact h
      · rename_i e; rw [e] at h; exact h
      · rename_i e; rw [e] at h; exact h
    · rfl

@[simp] theorem plans_add_s (p : Plans) (s : State) (x : Plan) : (p.add s x).s = s := by cases x <;> rfl

theorem planAll_warps {f : State → Nat → State × Plan} (hf : ∀ s l, (f s l).1.warps = s.warps) (s : State) (ls : List Nat) :
    (planAll s ls f).s.warps = s.warps := by
  unfold planAll
  suffices h : ∀ (ls : List Nat) (p : Plans), (ls.foldl (fun p l => p.add (f p.s l).1 (f p.s l).2) p).s.warps = p.s.warps from
    h ls ⟨s, [], [], [], [], []⟩
  intro ls
  induction ls with
  | nil => intro p; rfl
  | cons l r ih =>
    intro p
    rw [List.foldl_cons, ih, plans_add_s, hf]

theorem planMem_warps (s : State) (ix : Ix) (ls : List Nat) (a b : Reg) (off : BitVec 13) (size al : Nat) (ns : List Need)
    (bar : Bool) : (planMem s ix ls a b off size al ns bar).s.warps = s.warps :=
  planAll_warps (fun _ _ => planLane_warps ..) s ls

@[simp] theorem check_s (p : Plans) (f : Acc → List LFault) : (p.check f).s = p.s := rfl

/-- A plan that nothing stands in the way of is clear. -/
theorem clear_of_ready {p : Plans} (h : Ready p) : p.clear = true := by
  obtain ⟨_, hm, hf⟩ := h
  simp [Plans.clear, hm, hf]

/-! ### The bodies of loads and stores -/

/-- The loads that a raw region refuses (R72). -/
def tagOnlyLoad : LdKind → Bool
  | .ldr _ => false
  | .ld | .lr => true

section
variable {ix : Ix} {s : State}

theorem loadOp_ready {k : LdKind} {d ra rb : Reg} {sc : Scope} {ord : Ord4} {racq : Bool} {off : BitVec 13} {p : Plans}
    {r : Loads}
    (hp : p = (planMem s ix (actLanes ix (.reg d) [ra, rb]) ra rb off (ldSize k) (ldSize k) [.r] true).check
      (kindFaults s (tagOnlyLoad k) (ldSize k)))
    (hr : r = loadAll p.s ix k (if racq = true then some sc else none) d p.accs)
    (hready : Ready p) (hdrain : mustDrain p.s ix.w p.accs = false) (hroom : p.accs.length ≤ reqRoom p.s (warpOf p.s ix.w).core)
    (hcalls : r.calls = []) (hmisses : r.misses = []) (hfaults : r.faults = []) :
    loadOp k d ra rb sc ord racq off ix s =
      .ok (finishLoads r.s ix k d (if ord = .acq then some sc else none) p.accs r.vals) := by
  have hwarp : (warpOf p.s ix.w).core = (warpOf s ix.w).core := by rw [hp, check_s, warpOf, planMem_warps]; rfl
  have hclear := clear_of_ready hready
  rw [hwarp] at hroom
  have hroom' : ¬ reqRoom p.s (warpOf s ix.w).core < p.accs.length := by omega
  have hbody : loadOp k d ra rb sc ord racq off ix s =
      if !p.clear then finishCalls p.s ix p.calls p.faults p.misses id
      else if mustDrain p.s ix.w p.accs then .wait .drain p.s
      else if reqRoom p.s (warpOf s ix.w).core < p.accs.length then .wait .requests p.s
      else finishCalls r.s ix (p.calls ++ r.calls) r.faults r.misses
        (fun s => finishLoads s ix k d (if ord = .acq then some sc else none) p.accs r.vals) := by
    subst hr hp
    cases k <;> rfl
  simp only [hbody, hclear, hdrain, hroom', hready.1, hcalls, hmisses, hfaults, Bool.not_true, Bool.false_eq_true, if_false,
    List.append_nil, finishCalls_nil]

theorem storeOp_ready {k : StKind} {d ra rb : Reg} {sc : Scope} {ord : Ord4} {off : BitVec 13} {p : Plans} {rel : Option Scope}
    (hp : p = (planMem s ix (if actsOnce (.reg .nil) [d, ra, rb] = true then [ix.low] else ix.exe) ra rb off (stSize k) (stSize k)
      [.w] true).check (fun q => kindFaults s (decide (k = .st)) (stSize k) q ++
        dataFaults ix k (readReg (warpOf s ix.w) d q.lane) q.lane q.va))
    (hrel : rel = relScope (warpOf s ix.w) (if ord = .rel then some sc else none))
    (hready : Ready p) (hbusy : writeBusy p.s ix.w rel.isSome p.accs = false) :
    storeOp k d ra rb sc ord off ix s = .ok (p.accs.foldl
      (fun u q => storeLane u ix k rel q (readReg (warpOf s ix.w) d q.lane)) (releaseFor p.s (warpOf s ix.w).core rel)) := by
  have hclear := clear_of_ready hready
  have hbody : storeOp k d ra rb sc ord off ix s =
      if !p.clear then finishCalls p.s ix p.calls p.faults p.misses id
      else if writeBusy p.s ix.w rel.isSome p.accs then .wait .drain p.s
      else finishCalls p.s ix p.calls [] [] (fun u => p.accs.foldl
        (fun u q => storeLane u ix k rel q (readReg (warpOf s ix.w) d q.lane)) (releaseFor u (warpOf s ix.w).core rel)) := by
    subst hp hrel
    rfl
  simp only [hbody, hclear, hbusy, hready.1, Bool.not_true, Bool.false_eq_true, if_false, finishCalls_nil]

end

/-- Settles O22: each test of the bodies of the loads is passed by a hypothesis. -/
theorem plannedLoadsComplete : Obligations.PlannedLoadsComplete := by
  unfold Obligations.PlannedLoadsComplete
  refine ⟨?_, ?_, ?_, ?_⟩
  · intro h o s b ix p r is hready hdrain hroom hcalls hmisses hfaults
    exact issued_ok is (loadOp_ready (k := .ld) rfl rfl hready hdrain hroom hcalls hmisses hfaults)
  · intro h o s b ix p r is hready hdrain hroom hcalls hmisses hfaults
    exact issued_ok is (loadOp_ready (k := .ldr o.fmt) rfl rfl hready hdrain hroom hcalls hmisses hfaults)
  · intro h o s b ix p r is hready hdrain hroom hcalls hmisses hfaults
    exact issued_ok is (loadOp_ready (k := .lr) rfl rfl hready hdrain hroom hcalls hmisses hfaults)
  · intro h d ra rb off s i b ix p r is hready hdrain hroom hpend
    refine issued_ok is ?_
    have hwarp : (warpOf p.s s.cur).core = (warpOf b s.cur).core := by
      simp only [p, check_s, warpOf, planMem_warps]
    have hclear := clear_of_ready hready
    rw [hwarp] at hroom
    have hroom' : ¬ reqRoom p.s (warpOf b s.cur).core < p.accs.length := by omega
    have hnone : r.2.filterMap (fun e => if e.2.tag = .pend then some (faultAt ix e.1.lane .mchk) else none) = [] := by
      rw [List.filterMap_eq_nil_iff]
      exact fun e he => if_neg (hpend e he)
    have hbody : (if !p.clear then finishCalls p.s ix [] p.faults p.misses id
        else if mustDrain p.s ix.w p.accs then .wait .drain p.s
        else if reqRoom p.s (warpOf b ix.w).core < p.accs.length then .wait .requests p.s
        else orTrap (r.2.filterMap (fun e => if e.2.tag = .pend then some (faultAt ix e.1.lane .mchk) else none))
          (r.2.foldl (fun u e => sendVal u ix d e.1.lane e.1.pa e.2) r.1)) =
        Res.ok (r.2.foldl (fun u e => sendVal u ix d e.1.lane e.1.pa e.2) r.1) := by
      rw [hnone]
      have hd : mustDrain p.s ix.w p.accs = false := hdrain
      have hr : ¬ reqRoom p.s (warpOf b ix.w).core < p.accs.length := hroom'
      simp only [hclear, hd, hr, orTrap, Bool.not_true, Bool.false_eq_true, if_false, if_true]
    exact hbody

end Sys2Proof.Laws
end

section
/-! ## The bytes of a word, and what an SC writes (O24)

`storeOp_ready` gives ST and STR. An SC is two steps: the write at the granule's home, which takes from a warp nothing but
reservations (`OnlyResvs`), and the answer (`scAnswer`), which keeps every cache and memory. -/

namespace Sys2Proof.Laws
open Sys2Proof Sys2Proof.Machine

/-! ### The bytes of a word -/

theorem testBit_leNat (bs : List Byte) (i : Nat) {j : Nat} (hj : j < 8) :
    (leNat bs).testBit (8 * i + j) = (bs.getD i 0).getLsbD j := by
  have hlow : ∀ (b : Byte) n, j < 8 → (b.toNat + 256 * n).testBit j = b.getLsbD j := fun b n hj => by
    rw [Nat.add_comm, show (256 : Nat) = 2 ^ 8 from rfl, Nat.testBit_two_pow_mul_add _ b.isLt, if_pos hj]
    rfl
  induction bs generalizing i with
  | nil => simp [leNat]
  | cons b r ih =>
    cases i with
    | zero => simpa [leNat] using hlow b _ hj
    | succ i =>
      have hhigh : (b.toNat + 256 * leNat r).testBit (8 * (i + 1) + j) = (leNat r).testBit (8 * i + j) := by
        rw [Nat.add_comm, show (256 : Nat) = 2 ^ 8 from rfl, Nat.testBit_two_pow_mul_add _ b.isLt, if_neg (by omega)]
        congr 1
        omega
      rw [leNat, hhigh, ih]
      rfl

theorem getLsbD_byteAt (w : Word) (i : Nat) {j : Nat} (hj : j < 8) : (byteAt w i).getLsbD j = w.getLsbD (8 * i + j) := by
  rw [byteAt, fld, bitsOf, BitVec.getLsbD_ofNat, Nat.testBit_mod_two_pow, Nat.testBit_shiftRight, decide_eq_true hj, Bool.true_and,
    Bool.true_and, BitVec.getLsbD]

/-- Bytes are equal when their eight bits are. -/
theorem byte_ext {a b : Byte} (h : ∀ j, j < 8 → a.getLsbD j = b.getLsbD j) : a = b := BitVec.eq_of_getLsbD_eq h

theorem word_ext_bytes {a b : Word} (h : ∀ i, i < 8 → byteAt a i = byteAt b i) : a = b := by
  refine BitVec.eq_of_getLsbD_eq fun k hk => ?_
  have hj : k % 8 < 8 := Nat.mod_lt _ (by decide)
  rw [← Nat.div_add_mod k 8, ← getLsbD_byteAt a _ hj, ← getLsbD_byteAt b _ hj, h (k / 8) (by omega)]

theorem byteAt_wd_leNat (bs : List Byte) {i : Nat} (hi : i < 8) : byteAt (wd (leNat bs)) i = bs.getD i 0 := by
  refine byte_ext fun j hj => ?_
  rw [getLsbD_byteAt _ _ hj, ← testBit_leNat bs i hj, wd, BitVec.getLsbD_ofNat, decide_eq_true (by omega), Bool.true_and]

theorem byteAt_mergeBytes (old new : Word) (mask : BitVec 8) {i : Nat} (hi : i < 8) :
    byteAt (mergeBytes old new mask) i = if mask.getLsbD i = true then byteAt new i else byteAt old i := by
  rw [mergeBytes, byteAt_wd_leNat _ hi, List.getD_eq_getElem?_getD, List.getElem?_map, List.getElem?_range hi]
  rfl

@[simp] theorem mergeBytes_full (old new : Word) : mergeBytes old new 255#8 = new := by
  refine word_ext_bytes fun i hi => ?_
  have hfull : (255#8).getLsbD i = true := by revert i; decide
  rw [byteAt_mergeBytes _ _ _ hi, if_pos hfull]

/-- A word moved up by o bytes: byte i is byte i - o of it. -/
theorem byteAt_wd_shift (v : Word) {o i : Nat} (ho : o ≤ i) (hi : i < 8) :
    byteAt (wd (v.toNat * 2 ^ (8 * o))) i = byteAt v (i - o) := by
  refine byte_ext fun j hj => ?_
  rw [getLsbD_byteAt _ _ hj, getLsbD_byteAt _ _ hj, wd, BitVec.getLsbD_ofNat, decide_eq_true (by omega), Bool.true_and,
    Nat.testBit_mul_two_pow, decide_eq_true (by omega), Bool.true_and, BitVec.getLsbD]
  congr 1
  omega

theorem getLsbD_accMask (pa size : Nat) {b : Nat} (hb : b < 8) :
    (accMask pa size).getLsbD b = decide (pa % 8 ≤ b ∧ b < pa % 8 + size) := by
  rw [accMask, BitVec.getLsbD_ofNat, decide_eq_true hb, Bool.true_and, Nat.testBit_mul_two_pow, Nat.testBit_two_pow_sub_one,
    ← Bool.decide_and]
  exact decide_eq_decide.2 (by omega)

/-! ### A write takes reservations away and nothing else of a warp -/

/-- Lane y without its reservation, if that is on granule k. -/
def loseResv (k : Nat) (y : Lane) : Lane := if y.resv = some k then { y with resv := none } else y

/-- Warp x without its lanes' reservations on granule k. -/
def loseResvs (k : Nat) (x : Warp) : Warp := { x with lanes := spMap Lane.none (fun _ y => loseResv k y) x.lanes }

/-- The warps of s as t has them, but for reservations on granule k. -/
structure OnlyResvs (k : Nat) (s t : State) : Prop where
  warp : ∀ w, warpOf t w = warpOf s w ∨ warpOf t w = loseResvs k (warpOf s w)

theorem OnlyResvs.of_warps {k : Nat} {s t : State} (h : t.warps = s.warps) : OnlyResvs k s t :=
  ⟨fun w => .inl (congrArg (spGet Warp.none · w) h)⟩

theorem OnlyResvs.core {k : Nat} {s t : State} (h : OnlyResvs k s t) (w : Nat) : (warpOf t w).core = (warpOf s w).core := by
  rcases h.warp w with e | e
  · rw [e]
  · rw [e]; rfl

theorem OnlyResvs.readReg {k : Nat} {s t : State} (h : OnlyResvs k s t) (w : Nat) (r : Reg) (l : Nat) :
    readReg (warpOf t w) r l = readReg (warpOf s w) r l := by
  rcases h.warp w with e | e
  · rw [e]
  · rw [e]; rfl

/-- Reservations lost in the warps that satisfy p, which holds of none without lanes. -/
theorem onlyResvs_where (s : State) (k : Nat) (p : Warp → Prop) [DecidablePred p] (hp : ¬ p Warp.none) :
    OnlyResvs k s { s with warps := spMap Warp.none (fun _ x => if p x then loseResvs k x else x) s.warps } := by
  refine ⟨fun w => ?_⟩
  have hw := spGet_spMap Warp.none (fun _ x => if p x then loseResvs k x else x) (fun _ => if_neg hp) s.warps w
  by_cases hx : p (warpOf s w)
  · exact .inr (hw.trans (if_pos hx))
  · exact .inl (hw.trans (if_neg hx))

theorem clearResv_onlyResvs (s : State) (k : Nat) (own : Option Nat) : OnlyResvs k s (clearResv s k own) :=
  iteInduction (motive := OnlyResvs k s) (fun _ => onlyResvs_where s k _ (by simp [Warp.none])) fun _ => .of_warps rfl

theorem OnlyResvs.homeSide {k : Nat} {s t u : State} (h : OnlyResvs k s t) (g : HomeSide t u) : OnlyResvs k s u :=
  ⟨fun w => by rw [warpOf, g.warps]; exact h.warp w⟩

theorem homeWrite_homeSide (s : State) (k : Nat) (data : Word) (mask : BitVec 8) (t : Option Tag) (bad : Bool)
    (own : Option Nat) : homeWrite s k data mask t bad own = s ∨
      HomeSide (clearResv s k own) (homeWrite s k data mask t bad own) := by
  unfold homeWrite
  split
  · exact .inl rfl
  · refine .inr (.ite ?_ (rawWrite_homeSide ..))
    exact ((l2Touch_homeSide ..).trans (.ite (l2Fill_homeSide ..) (.refl _))).trans (setL2_homeSide ..)

/-- A whole word written at its home in a slice. -/
theorem homeWrite_full {s : State} {k : Nat} (data : Word) (t : Tag) (own : Option Nat) (h : inL2 (clearResv s k own) (k * 8) = true) :
    ∃ u, HomeSide (clearResv s k own) u ∧
      homeWrite s k data 0xFF (some t) false own = setL2 u k ⟨data, 0xFF, 0xFF, t, true, false⟩ := by
  refine ⟨_, l2Touch_homeSide _ (k / 32), ?_⟩
  have hones : ∀ v : BitVec 8, v ||| 255#8 = 255#8 := by decide
  simp [homeWrite, h, hones]

theorem clearResv_cores (s : State) (k : Nat) (own : Option Nat) : (clearResv s k own).cores = s.cores :=
  iteInduction (motive := fun t : State => t.cores = s.cores) (fun _ => rfl) fun _ => rfl

/-- LPDDR-6 memory is a range of local addresses, whatever the decoders say (R3). -/
theorem regionOf_lpddr_iff (s : State) (pa : Nat) : regionOf s pa = .lpddr ↔ pa < 2 ^ 52 ∧ paLocal pa < 0x0180_0000_0000 := by
  unfold regionOf
  split
  · simp only [reduceCtorEq, false_iff]; omega
  · simp only []
    split
    · simp only [true_iff]; omega
    · refine iff_of_false (fun e => ?_) (by omega)
      repeat' split at e
      all_goals exact Region.noConfusion e

theorem regionOf_word {s : State} (t : State) {pa : Nat} (h : regionOf s pa = .lpddr) : regionOf t (pa / 8 * 8) = .lpddr := by
  rw [regionOf_lpddr_iff] at *
  unfold paLocal at *
  omega

theorem tellDropped_warps (s : State) (p pa : Nat) : (tellDropped s p pa).warps = s.warps := tellRefused_warps ..

theorem homeWrite_onlyResvs (s : State) (k : Nat) (data : Word) (mask : BitVec 8) (t : Option Tag) (bad : Bool)
    (own : Option Nat) : OnlyResvs k s (homeWrite s k data mask t bad own) := by
  rcases homeWrite_homeSide s k data mask t bad own with h | h
  · exact .of_warps (congrArg State.warps h)
  · exact (clearResv_onlyResvs s k own).homeSide h

theorem setL1_warps (s : State) (c k : Nat) (w : CWord) : (setL1 s c k w).warps = s.warps := rfl

theorem l1Clean_onlyResvs (s : State) (c k : Nat) : OnlyResvs k s (l1Clean s c k) := by
  unfold l1Clean
  simp only []
  split
  · exact .of_warps rfl
  · split
    · exact iteInduction (motive := OnlyResvs k s) (fun _ => ⟨(homeWrite_onlyResvs ..).warp⟩)
        fun _ => ⟨(homeWrite_onlyResvs ..).warp⟩
    · exact .of_warps (tellDropped_warps ..)

theorem readAtHome_onlyResvs (s : State) (c k : Nat) : OnlyResvs k s (readAtHome s c k) :=
  ⟨(l1Clean_onlyResvs s c k).warp⟩

@[simp] theorem l1Of_setL1_self (s : State) (c k : Nat) (w : CWord) : l1Of (setL1 s c k w) c k = w := by
  rw [l1Of, setL1, updCore_eq, coreOf_setCore_self, spGet_spSet_self]

@[simp] theorem l1Of_setL1_ne (s : State) {c k d i : Nat} (w : CWord) (h : d ≠ c ∨ i ≠ k) :
    l1Of (setL1 s c k w) d i = l1Of s d i := by
  rw [l1Of, setL1, updCore_eq]
  by_cases hd : d = c
  · subst hd
    rw [coreOf_setCore_self, spGet_spSet_ne _ _ _ (h.resolve_left fun e => e rfl)]
    rfl
  · rw [coreOf_setCore_ne _ _ _ hd]
    rfl

@[simp] theorem l1Of_dropHeader (s : State) (c va d i : Nat) : l1Of (dropHeader s c va) d i = l1Of s d i := by
  rw [l1Of, dropHeader, updCore_eq]
  by_cases hd : d = c
  · subst hd
    rw [coreOf_setCore_self]
    rfl
  · rw [coreOf_setCore_ne _ _ _ hd]
    rfl

/-! ### A result on its way -/

section
variable (s : State) (ix : Ix) (d : Reg) (l pa : Nat) (v : Val)

@[simp] theorem memByte_sendVal (x : Nat) : memByte (sendVal s ix d l pa v) x = memByte s x := rfl
@[simp] theorem l2Of_sendVal (i : Nat) : l2Of (sendVal s ix d l pa v) i = l2Of s i := rfl

@[simp] theorem l1Of_sendVal (c i : Nat) : l1Of (sendVal s ix d l pa v) c i = l1Of s c i := by
  unfold l1Of sendVal addReq
  by_cases hc : c = (warpOf s ix.w).core
  · subst hc
    simp [updWarp_eq]
  · simp [updWarp_eq, hc]

theorem warpOf_sendVal : warpOf (sendVal s ix d l pa v) ix.w =
    match dstKey (dstOf d l) with
    | some k => addPend (warpOf s ix.w) k
    | none => warpOf s ix.w := by
  rw [sendVal, addReq, updWarp_eq, warpOf_setWarp_self]
  cases d <;> rfl

theorem laneOf_sendVal (k : Nat) : laneOf (warpOf (sendVal s ix d l pa v) ix.w) k = laneOf (warpOf s ix.w) k := by
  rw [warpOf_sendVal]
  split <;> rfl

/-- The request stands in the table of the warp's core under its next number. -/
theorem reqs_sendVal : spGet none (coreOf (sendVal s ix d l pa v) (warpOf s ix.w).core).reqs
      (coreOf s (warpOf s ix.w).core).nextReq =
    some { warp := ix.w, outs := [(dstOf d l, some v)], atomic := false, pa := pa, bar := false } := by
  simp [sendVal, addReq, updWarp_eq]

end

/-! ### SC -/

/-- The answer n of an SC: the reservation goes, and the result is on its way. -/
def scAnswer (u : State) (ix : Ix) (d : Reg) (a : Acc) (n : Nat) : State :=
  sendVal (updWarp u ix.w (fun x => updLane x a.lane (fun y => { y with resv := none }))) ix d a.lane a.pa (natVal n)

/-- The write of an SC that holds its reservation. -/
def scWrite (s : State) (c : Nat) (a : Acc) (v : Val) : State :=
  dropHeader (homeWrite (readAtHome s c (a.pa / 8)) (a.pa / 8) v.pay 0xFF (some v.tag) false none) c a.va

section
variable {s : State} {ix : Ix} {d : Reg} {a : Acc} {v : Val}

theorem scLane_answers : ∃ u n, scLane s ix d none a v = scAnswer u ix d a n := ⟨_, _, rfl⟩

theorem scLane_lost (h : (laneOf (warpOf s ix.w) a.lane).resv ≠ some (a.pa / 8)) : scLane s ix d none a v = scAnswer s ix d a 0 := by
  simp [scLane, scAnswer, h]

theorem scLane_held (h : (laneOf (warpOf s ix.w) a.lane).resv = some (a.pa / 8))
    (hs : served s (warpPart s ix.w) (a.pa / 8) a.leaf.t = true) :
    scLane s ix d none a v = scAnswer (scWrite s (warpOf s ix.w).core a v) ix d a 1 := by
  simp [scLane, scAnswer, scWrite, noteRelease, h, hs]

@[simp] theorem l1Of_scAnswer (u : State) (n c i : Nat) : l1Of (scAnswer u ix d a n) c i = l1Of u c i := l1Of_sendVal ..

@[simp] theorem l2Of_scAnswer (u : State) (n i : Nat) : l2Of (scAnswer u ix d a n) i = l2Of u i := rfl
@[simp] theorem memByte_scAnswer (u : State) (n x : Nat) : memByte (scAnswer u ix d a n) x = memByte u x := rfl

theorem resv_scAnswer (u : State) (n : Nat) : (laneOf (warpOf (scAnswer u ix d a n) ix.w) a.lane).resv = none := by
  simp [scAnswer, laneOf_sendVal, updWarp_eq, updLane_eq]

theorem reqs_scAnswer (u : State) (n : Nat) {c : Nat} (hc : (warpOf u ix.w).core = c) :
    ∃ e, spGet none (coreOf (scAnswer u ix d a n) c).reqs e =
      some { warp := ix.w, outs := [(dstOf d a.lane, some (natVal n))], atomic := false, pa := a.pa, bar := false } := by
  have h := reqs_sendVal (updWarp u ix.w (fun x => updLane x a.lane (fun y => { y with resv := none }))) ix d a.lane a.pa (natVal n)
  rw [updWarp_eq, warpOf_setWarp_self, updLane_eq, show (setLane (warpOf u ix.w) a.lane _).core = c from hc] at h
  exact ⟨_, h⟩

theorem scWrite_core (c : Nat) : (warpOf (scWrite s c a v) ix.w).core = (warpOf s ix.w).core :=
  ((homeWrite_onlyResvs ..).core ix.w).trans ((readAtHome_onlyResvs ..).core ix.w)

/-- The write of an SC to a word of LPDDR-6 memory: the word stands in its slice and no longer in the core's L1. -/
theorem scWrite_words (c : Nat) (hr : regionOf s a.pa = .lpddr) :
    l2Of (scWrite s c a v) (a.pa / 8) = ⟨v.pay, 0xFF, 0xFF, v.tag, true, false⟩ ∧
      l1Of (scWrite s c a v) c (a.pa / 8) = CWord.none := by
  have hin : inL2 (clearResv (readAtHome s c (a.pa / 8)) (a.pa / 8) none) (a.pa / 8 * 8) = true := by
    rw [inL2, regionOf_word _ hr]
  obtain ⟨u, hu, hw⟩ := homeWrite_full v.pay v.tag none hin
  have hcores : u.cores = (readAtHome s c (a.pa / 8)).cores := hu.cores.trans (clearResv_cores ..)
  rw [scWrite, hw]
  refine ⟨l2Of_setL2_self .., (l1Of_dropHeader ..).trans ?_⟩
  calc l1Of (setL2 u (a.pa / 8) _) c (a.pa / 8) = l1Of (readAtHome s c (a.pa / 8)) c (a.pa / 8) := by
        simp only [l1Of, coreOf, setL2, hcores]
    _ = CWord.none := l1Of_setL1_self ..

end

/-- Settles O24: each test of the bodies of the stores is passed by a hypothesis, and an SC answers 1 where its lane still holds the
granule. -/
theorem plannedStoresComplete : Obligations.PlannedStoresComplete := by
  unfold Obligations.PlannedStoresComplete
  refine ⟨⟨?_, ?_, ?_⟩, ?_⟩
  · intro h o s b ix x ls p rel is hready hbusy
    exact issued_ok is (storeOp_ready (k := .st) rfl rfl hready hbusy)
  · intro h o s b ix x ls p rel is hready hbusy
    exact issued_ok is (storeOp_ready (k := .str o.fmt) rfl rfl hready hbusy)
  · intro h o s i b ix x p rel is hready hbusy hroom
    refine issued_ok is ?_
    have hroom' : ¬ reqRoom p.s x.core < p.accs.length := Nat.not_lt.2 hroom
    have hbusy' : writeBusy p.s ix.w rel.isSome p.accs = false := hbusy
    have hbody : (if !p.clear then finishCalls p.s ix p.calls p.faults p.misses id
        else if writeBusy p.s ix.w rel.isSome p.accs then .wait .drain p.s
        else if reqRoom p.s x.core < p.accs.length then .wait .requests p.s
        else finishCalls p.s ix p.calls [] [] (fun u =>
          p.accs.foldl (fun u q => scLane u ix o.b rel q (readReg x o.d q.lane)) (releaseFor u x.core rel))) =
        Res.ok (p.accs.foldl (fun u q => scLane u ix o.b rel q (readReg x o.d q.lane)) (releaseFor p.s x.core rel)) := by
      simp only [clear_of_ready hready, hbusy', hroom', hready.1, Bool.not_true, Bool.false_eq_true, if_false, finishCalls_nil]
    exact hbody
  · intro s ix d a v c k t sent
    refine ⟨?_, fun hlost => ?_, fun hheld hserved hr => ?_⟩
    · obtain ⟨u, n, ht⟩ := scLane_answers (s := s) (ix := ix) (d := d) (a := a) (v := v)
      exact (congrArg (fun t => (laneOf (warpOf t ix.w) a.lane).resv) ht).trans (resv_scAnswer u n)
    · have ht : t = scAnswer s ix d a 0 := scLane_lost hlost
      simp only [sent, ht]
      exact ⟨reqs_scAnswer s 0 rfl, l2Of_scAnswer s 0, l1Of_scAnswer s 0, memByte_scAnswer s 0⟩
    · have ht : t = scAnswer (scWrite s c a v) ix d a 1 := scLane_held hheld hserved
      obtain ⟨hl2, hl1⟩ := scWrite_words (v := v) c hr
      simp only [sent, ht]
      exact ⟨reqs_scAnswer _ 1 (scWrite_core c), (l2Of_scAnswer ..).trans hl2, (l1Of_scAnswer ..).trans hl1⟩

end Sys2Proof.Laws
end

section
/-! ## Words that the L1 holds (O23)

A load of one lane passes every test of the body, finds its word in the L1 (`loadLane_hit`) and sends it (`sendVal`); nothing else
changes until the instruction is over (`finished_sent`). A store meets a line with room, so its word alone changes
(`storeLane_stored`). -/

namespace Sys2Proof.Laws
open Sys2Proof Sys2Proof.Machine

/-! ### The end of an instruction keeps the L1 and the requests -/

theorem regionPut_l1 (k : Core) (e : Nat × Word) : (regionPut k e).l1 = k.l1 := by
  unfold regionPut
  simp only []
  split <;> rfl

theorem regionPuts_l1 (es : List (Nat × Word)) (k : Core) : (es.foldl regionPut k).l1 = k.l1 := by
  induction es generalizing k with
  | nil => rfl
  | cons e r ih => rw [List.foldl_cons, ih, regionPut_l1]

theorem tableDone_l1 (k : Core) : (tableDone k).l1 = k.l1 :=
  iteInduction (motive := fun m : Core => m.l1 = k.l1) (fun _ => rfl) fun _ => regionPuts_l1 ..

theorem tableDone_reqs (k : Core) : (tableDone k).reqs = k.reqs :=
  iteInduction (motive := fun m : Core => m.reqs = k.reqs) (fun _ => rfl) fun _ => (regionPuts_rest k k.rgnDue).2.2

theorem pend_addPend_self (x : Warp) (r : Nat) : spGet 0 (addPend x r).pend r = spGet 0 x.pend r + 1 := by simp [addPend]
theorem readReg_addPend (x : Warp) (k : Nat) (r : Reg) (l : Nat) : readReg (addPend x k) r l = readReg x r l :=
  readReg_congr rfl rfl r l
theorem maskReg_addPend (x : Warp) (k m : Nat) : maskReg (addPend x k) m = maskReg x m := rfl

section
variable {i : Instr} {h : Hdr} {s : State}

/-- The end of an instruction without a result to come keeps each core's L1 and requests. -/
theorem finished_core (hi : lateKeys i = []) (ht : lateTodo i (curIx i h s) = []) (u : State) (c : Nat) :
    (coreOf (finished i h s u) c).l1 = (coreOf u c).l1 ∧ (coreOf (finished i h s u) c).reqs = (coreOf u c).reqs := by
  obtain ⟨_, _, hcores, _⟩ := @finished_spec i h s u
  have hlate : (if c = (warpOf u s.cur).core then lateCore i (curIx i h s) (coreOf u c) else coreOf u c) = coreOf u c := by
    simp [lateCore, hi, ht]
  have hc := hcores c
  rw [hlate] at hc
  rcases hc with e | ⟨_, e⟩
  · rw [e]; exact ⟨rfl, rfl⟩
  · rw [e]; exact ⟨tableDone_l1 _, tableDone_reqs _⟩

theorem finished_warp (hi : lateKeys i = []) (u : State) : RunEnded (warpOf u s.cur) (warpOf (finished i h s u) s.cur) := by
  obtain ⟨_, _, _, hw⟩ := @finished_spec i h s u
  rwa [markLate_none hi] at hw

theorem memByte_finished (u : State) (x : Nat) : memByte (finished i h s u) x = memByte u x := by
  obtain ⟨hrest, _⟩ := @finished_spec i h s u
  rw [hrest]
  rfl

theorem pend_began : (warpOf (began i h s) s.cur).pend = (warpOf s s.cur).pend := by
  obtain ⟨_, _, e⟩ := @warpOf_began i h s
  rw [e]

theorem memByte_began (x : Nat) : memByte (began i h s) x = memByte s x := by
  rw [began_eq]
  rfl

theorem l1Of_began (c k : Nat) : l1Of (began i h s) c k = l1Of s c k := by
  rw [l1Of, coreOf_began]
  rfl

/-- What an instruction leaves whose one effect is a value on its way to a lane register. -/
theorem finished_sent (hi : lateKeys i = []) (ht : lateTodo i (curIx i h s) = []) (n : BitVec 7) (l pa : Nat) (v : Val) :
    let t := finished i h s (sendVal (began i h s) (curIx i h s) (.lane n) l pa v)
    (∃ k, spGet none (coreOf t (warpOf s s.cur).core).reqs k =
      some { warp := s.cur, outs := [(.lane n.toNat l, some v)], atomic := false, pa := pa, bar := false }) ∧
    spGet 0 (warpOf t s.cur).pend n.toNat = spGet 0 (warpOf s s.cur).pend n.toNat + 1 ∧
    (∀ r j, readReg (warpOf t s.cur) r j = readReg (warpOf s s.cur) r j) ∧
    (∀ m, maskReg (warpOf t s.cur) m = maskReg (warpOf s s.cur) m) ∧ (∀ d j, l1Of t d j = l1Of s d j) ∧
    ∀ x, memByte t x = memByte s x := by
  have hwarp : warpOf (sendVal (began i h s) (curIx i h s) (.lane n) l pa v) s.cur = addPend (warpOf (began i h s) s.cur) n.toNat :=
    warpOf_sendVal (began i h s) (curIx i h s) (.lane n) l pa v
  have hreq := reqs_sendVal (began i h s) (curIx i h s) (.lane n) l pa v
  rw [curIx_w, began_core] at hreq
  have hl1 : ∀ d j, l1Of (sendVal (began i h s) (curIx i h s) (.lane n) l pa v) d j = l1Of s d j := fun d j =>
    (l1Of_sendVal ..).trans (l1Of_began d j)
  have hmem : ∀ x, memByte (sendVal (began i h s) (curIx i h s) (.lane n) l pa v) x = memByte s x := fun x =>
    (memByte_sendVal ..).trans (memByte_began x)
  generalize sendVal (began i h s) (curIx i h s) (.lane n) l pa v = u at *
  have hrun := finished_warp (i := i) (h := h) (s := s) hi u
  rw [hwarp] at hrun
  have hcore := finished_core (h := h) (s := s) hi ht u
  refine ⟨⟨_, (congrArg (spGet none · _) (hcore _).2).trans hreq⟩, ?_, fun r j => ?_, fun m => ?_, fun d j => ?_, fun x => ?_⟩
  · rw [hrun.warp, ← pend_began (i := i) (h := h)]
    exact pend_addPend_self ..
  · exact ((runEnded_read hrun r j).trans (readReg_addPend ..)).trans (readReg_began r j)
  · exact ((runEnded_mask hrun m).trans (maskReg_addPend ..)).trans (maskReg_began m)
  · exact (congrArg (spGet CWord.none · j) (hcore d).1).trans (hl1 d j)
  · exact (memByte_finished u x).trans (hmem x)

end

/-! ### A load that hits -/

theorem barrier_pass (s : State) (w : Nat) {v : Val} (h : v.tag ≠ .ref) : barrier s w v = .ok s v := if_neg fun e => h e.1

/-- What a read of a cached word brings: the word, with its tag in a tagged region. -/
def cachedRead (w : CWord) (t : Bool) : WV := { data := w.data, tag := if t then w.tag else .int, bad := w.bad }

/-- A word that the L1 holds whole is read as it stands. -/
theorem l1Read_hit {s : State} {c k : Nat} (p : Nat) (mask : BitVec 8) (t : Bool) (hv : (l1Of s c k).valid = 0xFF) :
    l1Read s c p k mask t = (s, .ok (cachedRead (l1Of s c k) t)) := by
  have hmask : (0xFF : BitVec 8) &&& mask = mask := by revert mask; decide
  have hne : l1Of s c k ≠ CWord.none := fun e => absurd (hv.symm.trans (congrArg CWord.valid e)) (by decide)
  unfold l1Read
  simp only []
  rw [if_pos ⟨hv.symm ▸ hmask, hne⟩]
  rfl

section
variable {s : State} {ix : Ix} {l va pa : Nat} {leaf : Leaf}

/-- One lane's address whose parts serve and whose sum is translated and aligned. -/
theorem planLane_ok {a b : Val} {off : Int} {al : Nat} (ha : addrCause a = none) (hb : indexCause b = none) (hr : a.tag ≠ .ref)
    (hs : addrSum a b off = some va) (ht : translate s ix.w va .r = .ok pa leaf) (hal : va % al = 0) :
    planLane s ix l a b off al [.r] true = (s, .ok ⟨l, va, pa, leaf⟩) := by
  simp [planLane, componentFaults, ha, hb, barrier_pass _ _ hr, planSum, hs, translateAll, ht, hal]

theorem kindFaults_nil {a : Acc} {tagOnly : Bool} {size : Nat} (hio : isMmio s a.pa = false)
    (ht : tagOnly = true → a.leaf.t = true) : kindFaults s tagOnly size a = [] := by
  cases tagOnly
  · simp [kindFaults, hio]
  · simp [kindFaults, hio, ht rfl]

theorem loadLane_hit {k : LdKind} {d : Reg} {r : WV} (hr : r = cachedRead (l1Of s (warpOf s ix.w).core (pa / 8)) leaf.t)
    (hk : k ≠ .lr) (hio : isMmio s pa = false) (hv : (l1Of s (warpOf s ix.w).core (pa / 8)).valid = 0xFF) (hpend : r.tag ≠ .pend)
    (href : k = .ld → (loadVal k pa (.ok r)).tag ≠ .ref) :
    loadLane s ix k none d ⟨l, va, pa, leaf⟩ = (s, .val (loadVal k pa (.ok r)) none) := by
  have hread := l1Read_hit (warpPart s ix.w) (accMask pa (ldSize k)) leaf.t hv
  rw [← hr] at hread
  cases k with
  | lr => exact absurd rfl hk
  | ld => simp [loadLane, ownMmio, hio, hread, pendTagged, hpend, barrier_pass _ _ (href rfl)]
  | ldr f => simp [loadLane, ownMmio, hio, hread, pendTagged, hpend]

/-- A plain load of one lane that hits sends the value that it reads. -/
theorem loadOp_hit {k : LdKind} {n : BitVec 7} {ra rb : Reg} {sc : Scope} {off : BitVec 13} {r : WV}
    (hr : r = cachedRead (l1Of s (warpOf s ix.w).core (pa / 8)) leaf.t) (hexe : ix.exe = [l])
    (ha : addrCause (readReg (warpOf s ix.w) ra l) = none) (hb : indexCause (readReg (warpOf s ix.w) rb l) = none)
    (hbase : (readReg (warpOf s ix.w) ra l).tag ≠ .ref)
    (hs : addrSum (readReg (warpOf s ix.w) ra l) (readReg (warpOf s ix.w) rb l) (off.toInt * (ldSize k : Int)) = some va)
    (ht : translate s ix.w va .r = .ok pa leaf) (hal : va % ldSize k = 0) (hio : isMmio s pa = false)
    (hbusy : lineBusy s ix.w (pa / 256) = false) (hroom : 1 ≤ reqRoom s (warpOf s ix.w).core)
    (hv : (l1Of s (warpOf s ix.w).core (pa / 8)).valid = 0xFF) (hk : k ≠ .lr)
    (hleaf : tagOnlyLoad k = true → leaf.t = true) (hpend : r.tag ≠ .pend)
    (href : k = .ld → (loadVal k pa (.ok r)).tag ≠ .ref) :
    loadOp k (.lane n) ra rb sc .plain false off ix s = .ok (sendVal s ix (.lane n) l pa (loadVal k pa (.ok r))) := by
  have hplan := planLane_ok (l := l) ha hb hbase hs ht hal
  have hmem : planMem s ix (actLanes ix (.reg (.lane n)) [ra, rb]) ra rb off (ldSize k) (ldSize k) [.r] true =
      ⟨s, [⟨l, va, pa, leaf⟩], [], [], [], []⟩ := by
    rw [show actLanes ix (.reg (.lane n)) [ra, rb] = [l] from hexe]
    simp only [planMem, planAll, List.foldl_cons, List.foldl_nil, hplan]
    rfl
  have hplans : (planMem s ix (actLanes ix (.reg (.lane n)) [ra, rb]) ra rb off (ldSize k) (ldSize k) [.r] true).check
      (kindFaults s (tagOnlyLoad k) (ldSize k)) = ⟨s, [⟨l, va, pa, leaf⟩], [], [], [], []⟩ := by
    simp [hmem, Plans.check, kindFaults_nil (a := ⟨l, va, pa, leaf⟩) hio hleaf]
  have hlane := loadLane_hit (l := l) (va := va) (d := .lane n) hr hk hio hv hpend href
  have hall : loadAll s ix k none (.lane n) [⟨l, va, pa, leaf⟩] =
      ⟨s, [(⟨l, va, pa, leaf⟩, loadVal k pa (.ok r), none)], [], [], []⟩ := by
    simp only [loadAll, List.foldl_cons, List.foldl_nil, hlane, List.nil_append]
  have h := loadOp_ready (d := .lane n) (sc := sc) (ord := .plain) (racq := false) hplans.symm hall.symm
    ⟨rfl, rfl, rfl⟩ (by simp [mustDrain, hbusy]) hroom rfl rfl rfl
  simpa [finishLoads, hk] using h

end

theorem loadVal_ldr {f : MFmt} {pa : Nat} {r : WV} (hb : r.bad = false) (ht : r.tag ≠ .fwd) :
    loadVal (.ldr f) pa (.ok r) = mfmtVal f (fld r.data (8 * (pa % 8)) (8 * mfmtSize f)) := by
  simp [loadVal, hb, ht]

theorem loadVal_ld {pa : Nat} {r : WV} (hb : r.bad = false) (ht : r.tag ≠ .fwd) :
    loadVal .ld pa (.ok r) = ⟨r.tag, canonPay r.tag r.data⟩ := by
  simp [loadVal, hb, ht]

/-- In a raw region a word reads as INT; in a tagged one it has its own tag (R72). -/
theorem cachedRead_tag_ne {w : CWord} {t : Bool} {x : Tag} (hx : x ≠ .int) (h : t = true → w.tag ≠ x) :
    (cachedRead w t).tag ≠ x := by
  cases t
  · exact hx.symm
  · exact h rfl

/-- A plain load instruction of one lane that hits: the value is on its way, and nothing that a reader can see has changed. -/
theorem cachedLoad {i : Instr} {h : Hdr} {k : LdKind} {n : BitVec 7} {ra rb : Reg} {sc : Scope} {off : BitVec 13}
    {s : State} {l va pa : Nat} {leaf : Leaf} {v : Val}
    (hbody : exec i s = issued i h s (loadOp k (.lane n) ra rb sc .plain false off))
    (hlate : lateKeys i = []) (htodo : lateTodo i (curIx i h s) = [])
    (is : issues i h s = true) (hexe : (curIx i h s).exe = [l])
    (ha : addrCause (opnd s ra 0#4 l) = none) (hb : indexCause (opnd s rb 0#4 l) = none) (hbase : (opnd s ra 0#4 l).tag ≠ .ref)
    (hs : addrSum (opnd s ra 0#4 l) (opnd s rb 0#4 l) (off.toInt * (ldSize k : Int)) = some va)
    (ht : translate (began i h s) s.cur va .r = .ok pa leaf) (hal : va % ldSize k = 0) (hio : isMmio (began i h s) pa = false)
    (hbusy : lineBusy (began i h s) s.cur (pa / 256) = false) (hroom : 1 ≤ reqRoom (began i h s) (warpOf s s.cur).core)
    (hv : (l1Of s (warpOf s s.cur).core (pa / 8)).valid = 0xFF) (hk : k ≠ .lr) (hleaf : tagOnlyLoad k = true → leaf.t = true)
    (hpend : leaf.t = true → (l1Of s (warpOf s s.cur).core (pa / 8)).tag ≠ .pend)
    (hval : loadVal k pa (.ok (cachedRead (l1Of s (warpOf s s.cur).core (pa / 8)) leaf.t)) = v) (href : k = .ld → v.tag ≠ .ref) :
    ∃ t k, exec i s = .next t ∧
      spGet none (coreOf t (warpOf s s.cur).core).reqs k =
        some { warp := s.cur, outs := [(.lane n.toNat l, some v)], atomic := false, pa := pa, bar := false } ∧
      spGet 0 (warpOf t s.cur).pend n.toNat = spGet 0 (warpOf s s.cur).pend n.toNat + 1 ∧
      (∀ r j, readReg (warpOf t s.cur) r j = readReg (warpOf s s.cur) r j) ∧
      (∀ m, maskReg (warpOf t s.cur) m = maskReg (warpOf s s.cur) m) ∧ (∀ d j, l1Of t d j = l1Of s d j) ∧
      ∀ x, memByte t x = memByte s x := by
  have hcore : (warpOf (began i h s) (curIx i h s).w).core = (warpOf s s.cur).core := began_core
  have hread : ∀ r, readReg (warpOf (began i h s) (curIx i h s).w) r l = opnd s r 0#4 l := fun r =>
    (readReg_began r l).trans (opnd_zero s r l).symm
  have hop := loadOp_hit (s := began i h s) (ix := curIx i h s) (k := k) (n := n) (ra := ra) (rb := rb) (sc := sc) (off := off)
    (va := va) (pa := pa) (leaf := leaf) rfl hexe
  simp only [hcore, hread, l1Of_began, hval] at hop
  obtain ⟨⟨e, hreq⟩, hrest⟩ := finished_sent hlate htodo n l pa v
  exact ⟨_, e, hbody.trans (issued_ok is (hop ha hb hbase hs ht hal hio hbusy hroom hv hk hleaf
    (cachedRead_tag_ne (by decide) hpend) href)), hreq, hrest⟩

/-! ### A store into a line that has room -/

/-- What word w of an L1 becomes when the masked bytes of data, and a tag t where one is given, are stored into it. -/
def storedWord (w : CWord) (data : Word) (mask : BitVec 8) (t : Option Tag) : CWord :=
  { data := mergeBytes w.data data mask, valid := w.valid ||| mask, dirty := w.dirty ||| mask,
    tag := t.getD w.tag, tagDirty := w.tagDirty || t.isSome, bad := w.bad && decide (w.dirty ||| mask ≠ 0xFF) }

theorem storedWord_tagged (w : CWord) (data : Word) (mask : BitVec 8) (t : Tag) :
    (storedWord w data mask (some t)).tagDirty = true ∧ (storedWord w data mask (some t)).tag = t := by
  simp [storedWord]

theorem storedWord_untagged (w : CWord) (data : Word) (mask : BitVec 8) :
    (storedWord w data mask none).tagDirty = w.tagDirty ∧ (storedWord w data mask none).tag = w.tag := by
  simp [storedWord]

/-- t differs from s in word k of core c's L1, which is w there, and in reservations on k. -/
structure Stored (s : State) (c k : Nat) (w : CWord) (t : State) : Prop where
  word : l1Of t c k = w
  others : ∀ d i, d ≠ c ∨ i ≠ k → l1Of t d i = l1Of s d i
  l2 : ∀ i, l2Of t i = l2Of s i
  mem : ∀ a, memByte t a = memByte s a
  warps : OnlyResvs k s t

theorem l1Room_free {s : State} {c line : Nat} (h : line ∈ l1Lines s c (line % 64) ∨ (l1Lines s c (line % 64)).length < 8) :
    l1Room s c line = s := by
  unfold l1Room
  simp only []
  rw [if_pos (by simpa using h)]

theorem l1Write_stored {s : State} {c k : Nat} (data : Word) (mask : BitVec 8) (t : Option Tag)
    (h : k / 32 ∈ l1Lines s c (k / 32 % 64) ∨ (l1Lines s c (k / 32 % 64)).length < 8) :
    Stored s c k (storedWord (l1Of s c k) data mask t) (l1Write s c k data mask t) := by
  unfold l1Write
  rw [l1Room_free h]
  exact {
    word := l1Of_setL1_self ..
    others := fun _ _ hne => l1Of_setL1_ne s _ hne
    l2 := fun _ => rfl
    mem := fun _ => rfl
    warps := ⟨(onlyResvs_where (setL1 s c k _) k _ (by simp [Warp.none])).warp⟩ }

theorem Stored.dropHeader {s t : State} {c k : Nat} {w : CWord} (h : Stored s c k w t) (d va : Nat) :
    Stored s c k w (dropHeader t d va) where
  word := (l1Of_dropHeader ..).trans h.word
  others := fun e i hne => (l1Of_dropHeader ..).trans (h.others e i hne)
  l2 := h.l2
  mem := h.mem
  warps := ⟨h.warps.warp⟩

/-- The tag that a store of a kind gives a word of a tagged region (R72). -/
def storeTag (k : StKind) (v : Val) : Tag :=
  match k with
  | .st => v.tag
  | .str f => strTag f

theorem storeLane_stored {s : State} {ix : Ix} {k : StKind} {q : Acc} {v : Val} (hio : isMmio s q.pa = false)
    (hroom : q.pa / 256 ∈ l1Lines s (warpOf s ix.w).core (q.pa / 256 % 64) ∨
      (l1Lines s (warpOf s ix.w).core (q.pa / 256 % 64)).length < 8) :
    Stored s (warpOf s ix.w).core (q.pa / 8)
      (storedWord (l1Of s (warpOf s ix.w).core (q.pa / 8)) (wd (v.pay.toNat * 2 ^ (8 * (q.pa % 8)))) (accMask q.pa (stSize k))
        (if q.leaf.t then some (storeTag k v) else none)) (storeLane s ix k none q v) := by
  have hline : q.pa / 8 / 32 = q.pa / 256 := Nat.div_div_eq_div_mul ..
  unfold storeLane
  simp only [ownMmio, hio, Bool.false_and, Bool.false_eq_true, if_false]
  exact (l1Write_stored _ _ _ (hline ▸ hroom)).dropHeader ..

/-- A stored byte comes from the payload where the access covers it. -/
theorem byteAt_storedWord (w : CWord) (v : Word) (pa size : Nat) (t : Option Tag) {b : Nat} (hb : b < 8) :
    byteAt (storedWord w (wd (v.toNat * 2 ^ (8 * (pa % 8)))) (accMask pa size) t).data b =
      if decide (pa % 8 ≤ b ∧ b < pa % 8 + size) = true then byteAt v (b - pa % 8) else byteAt w.data b := by
  rw [storedWord, byteAt_mergeBytes _ _ _ hb, getLsbD_accMask _ _ hb]
  split
  · next hit => rw [byteAt_wd_shift v (of_decide_eq_true hit).1 hb]
  · rfl

/-- Settles O23: a load that hits sends the word it reads (`cachedLoad`); a store changes its own word of the L1 and nothing
else (`storeLane_stored`). -/
theorem cachedWordsAreReadAndWritten : Obligations.CachedWordsAreReadAndWritten := by
  unfold Obligations.CachedWordsAreReadAndWritten
  refine ⟨?_, ?_⟩
  · intro i h ra rb n off size val ok s l va pa leaf hform b a c w is hexe ha hb hbase hs ht hal hio hbusy hroom hv hbad hok
    rcases hform with ⟨o, rfl, hd, rfl, rfl, hord, hracq, rfl, rfl, rfl, rfl⟩ |
      ⟨o, rfl, hd, rfl, rfl, hord, hracq, rfl, rfl, rfl, rfl⟩
    · have hbody : exec (.ldr h o) s = issued (.ldr h o) h s (loadOp (.ldr o.fmt) (.lane n) o.a o.b o.scope .plain false o.off) := by
        rw [← hd, ← hord, ← hracq]
        rfl
      exact cachedLoad hbody rfl rfl is hexe ha hb hbase hs ht hal hio hbusy hroom hv nofun (fun e => absurd e Bool.false_ne_true)
        (fun e => (hok e).2) (loadVal_ldr hbad (cachedRead_tag_ne (by decide) fun e => (hok e).1)) nofun
    · obtain ⟨ht', hfwd, hpend, href⟩ := hok
      have hbody : exec (.ld h o) s = issued (.ld h o) h s (loadOp .ld (.lane n) o.a o.b o.scope .plain false o.off) := by
        rw [← hd, ← hord, ← hracq]
        rfl
      have hread : cachedRead w leaf.t = ⟨w.data, w.tag, w.bad⟩ := by rw [ht']; rfl
      exact cachedLoad hbody rfl rfl is hexe ha hb hbase hs ht hal hio hbusy hroom hv nofun (fun _ => ht')
        (fun _ => hpend) ((congrArg (fun r => loadVal .ld pa (.ok r)) hread).trans (loadVal_ld hbad hfwd)) (fun _ => href)
  · intro s ix k q v c j t old new hit hio _ hroom
    have hst := storeLane_stored (k := k) (v := v) hio hroom
    have hnew : new = storedWord old (wd (v.pay.toNat * 2 ^ (8 * (q.pa % 8)))) (accMask q.pa (stSize k))
      (if q.leaf.t then some (storeTag k v) else none) := hst.word
    refine ⟨fun b hb => ?_, fun b hb => ?_, fun ht => ?_, fun ht => ?_, hst.others, hst.l2, hst.mem, hst.warps.readReg⟩
    · rw [hnew]
      exact byteAt_storedWord old v.pay q.pa (stSize k) _ hb
    · rw [hnew]
      simp only [storedWord, BitVec.getLsbD_or, getLsbD_accMask _ _ hb, hit, and_self]
    · rw [hnew, ht, if_pos rfl]
      exact storedWord_tagged ..
    · rw [hnew, ht, if_neg Bool.false_ne_true]
      exact storedWord_untagged ..

end Sys2Proof.Laws
end

section
/-! ## POISON operands (O4) -/

namespace Sys2Proof.Laws
open Sys2Proof Sys2Proof.Machine

variable {i : Instr} {h : Hdr} {s : State}

theorem firstPoison_cons_poison {v : Val} (hv : v.tag = .poison) (r : List Val) :
    firstPoison (v :: r) = some (poisonVal (fld v.pay 0 16)) := if_pos hv

/-- The POISON an operand list gives, operand by operand in the order of R78; `r` is what the operands behind the first give. -/
theorem firstPoison_cons {v p : Val} {r : List Val} (hr : v.tag ≠ .poison → firstPoison r = some p) :
    firstPoison (v :: r) = some (if v.tag = .poison then poisonVal (fld v.pay 0 16) else p) := by
  by_cases hv : v.tag = .poison
  · rw [firstPoison_cons_poison hv, if_pos hv]
  · rw [firstPoison, if_neg hv, if_neg hv, hr hv]

theorem firstPoison_one {a : Val} (ha : a.tag = .poison) : firstPoison [a] = some (poisonVal (fld a.pay 0 16)) :=
  firstPoison_cons_poison ha []

theorem firstPoison_pair {a b : Val} (hp : a.tag = .poison ∨ b.tag = .poison) : firstPoison [a, b] =
    some (if a.tag = .poison then poisonVal (fld a.pay 0 16) else poisonVal (fld b.pay 0 16)) :=
  firstPoison_cons fun ha => firstPoison_one (hp.resolve_left ha)

theorem firstPoison_triple {a b c : Val} (hp : a.tag = .poison ∨ b.tag = .poison ∨ c.tag = .poison) : firstPoison [a, b, c] =
    some (if a.tag = .poison then poisonVal (fld a.pay 0 16)
      else if b.tag = .poison then poisonVal (fld b.pay 0 16) else poisonVal (fld c.pay 0 16)) :=
  firstPoison_cons fun ha => firstPoison_pair (hp.resolve_left ha)

theorem firstPoison_quad {a b c d : Val} (hp : a.tag = .poison ∨ b.tag = .poison ∨ c.tag = .poison ∨ d.tag = .poison) :
    firstPoison [a, b, c, d] = some (if a.tag = .poison then poisonVal (fld a.pay 0 16)
      else if b.tag = .poison then poisonVal (fld b.pay 0 16)
      else if c.tag = .poison then poisonVal (fld c.pay 0 16) else poisonVal (fld d.pay 0 16)) :=
  firstPoison_cons fun ha => firstPoison_triple (hp.resolve_left ha)

/-- A lane instruction that passes POISON on (R78), with a POISON operand in each executing lane, gives the first one. -/
theorem gives_firstPoison (is : issues i h s = true) {d : Reg} {srcs : List Reg} {vs : Nat → List Val} {r : Nat → LOut}
    {p : Nat → Val} {body : Ix → State → Res} (he : exec i s = issued i h s body)
    (hb : body (curIx i h s) (began i h s) = laneOp (curIx i h s) (began i h s) (.reg d) srcs fun l => orPoison (vs l) (r l))
    (hp : ∀ l ∈ (curIx i h s).exe, firstPoison (vs l) = some (p l)) : Gives i h s d p :=
  gives_laneOp is he hb fun l hl => by rw [orPoison, hp l hl]

/-- Settles O4: every listed instruction is a lane operation that looks for POISON among its operands first, in the order A, B, C, D. -/
theorem poisonPassesOn : Obligations.PoisonPassesOn := by
  intro rm n tgt
  refine ⟨?binE, ?bin, ?ter, ?un, ?unE, ?imm, ?other, ?cmp, ?field⟩
  case binE =>
    intro mk hmk h o s a b on
    have pass (l) (hl : l ∈ (curIx (mk h o) h s).exe) := firstPoison_pair (on.2 l hl)
    simp only [List.mem_cons, List.not_mem_nil, or_false] at hmk
    rcases hmk with rfl | rfl | rfl | rfl | rfl | rfl | rfl | rfl <;>
      exact gives_firstPoison on.1 rfl rfl (by simp only [opVal_began]; exact pass)
  case bin =>
    intro mk hmk h o s a b on
    have pass (l) (hl : l ∈ (curIx (mk h o) h s).exe) := firstPoison_pair (on.2 l hl)
    simp only [List.mem_cons, List.not_mem_nil, or_false] at hmk
    rcases hmk with rfl | rfl | rfl | rfl | rfl | rfl | rfl | rfl | rfl | rfl | rfl | rfl | rfl <;>
      exact gives_firstPoison on.1 rfl rfl (by simp only [opVal_began]; exact pass)
  case ter =>
    intro mk hmk h o s a b c on
    have pass (l) (hl : l ∈ (curIx (mk h o) h s).exe) := firstPoison_triple (on.2 l hl)
    simp only [List.mem_cons, List.not_mem_nil, or_false] at hmk
    rcases hmk with rfl | rfl | rfl <;> exact gives_firstPoison on.1 rfl rfl (by simp only [opVal_began]; exact pass)
  case un =>
    intro mk hmk h o s a on
    have pass (l) (hl : l ∈ (curIx (mk h o) h s).exe) := firstPoison_one (on.2 l hl)
    simp only [List.mem_cons, List.not_mem_nil, or_false] at hmk
    rcases hmk with rfl | rfl | rfl | rfl | rfl | rfl | rfl | rfl | rfl | rfl | rfl | rfl | rfl | rfl | rfl <;>
      exact gives_firstPoison on.1 rfl rfl (by simp only [opVal_began]; exact pass)
  case unE =>
    intro mk hmk h o s a on
    have pass (l) (hl : l ∈ (curIx (mk h o) h s).exe) := firstPoison_one (on.2 l hl)
    simp only [List.mem_cons, List.not_mem_nil, or_false] at hmk
    rcases hmk with rfl | rfl | rfl <;> exact gives_firstPoison on.1 rfl rfl (by simp only [opVal_began]; exact pass)
  case imm =>
    intro mk hmk h o s a on
    have pass (l) (hl : l ∈ (curIx (mk h o) h s).exe) := firstPoison_cons_poison (on.2 l hl) [intVal o.imm.toInt]
    simp only [List.mem_cons, List.not_mem_nil, or_false] at hmk
    rcases hmk with rfl | rfl | rfl | rfl | rfl <;>
      exact gives_firstPoison on.1 rfl rfl (by simp only [opVal_began]; exact pass)
  case other =>
    intro h d ra rb k e cc imm s a b
    refine ⟨fun i hi on => ?_, fun hcc on => ?_, fun on => ?_⟩
    · have pass (r) (l) (hl : l ∈ (curIx i h s).exe) := firstPoison_cons_poison (on.2 l hl) r
      simp only [List.mem_cons, List.not_mem_nil, or_false] at hi
      rcases hi with rfl | rfl | rfl
      · exact gives_firstPoison on.1 rfl rfl (by simp only [opVal_began]; exact pass [natVal k.toNat])
      · exact gives_firstPoison on.1 rfl rfl (by simp only [opVal_began]; exact pass [natVal k.toNat])
      · exact gives_firstPoison on.1 rfl rfl (by simp only [opVal_began]; exact pass [])
    · exact gives_firstPoison on.1 rfl (by simp only [cmpLane, if_neg hcc]; rfl)
        (by simp only [opVal_began]; exact fun l hl => firstPoison_cons_poison (on.2 l hl) [intVal imm.toInt])
    · exact gives_firstPoison on.1 rfl rfl (by simp only [opVal_began]; exact fun l hl => firstPoison_pair (on.2 l hl))
  case cmp =>
    intro h cc o s a b hcc on
    exact gives_firstPoison on.1 rfl (by simp only [cmpLane, if_neg hcc]; rfl)
      (by simp only [opVal_began]; exact fun l hl => firstPoison_pair (on.2 l hl))
  case field =>
    intro h o s a b c d first
    refine ⟨fun on => ?_, fun on => ?_⟩
    · have pass (l) (hl : l ∈ (curIx (.bfx h o) h s).exe) : firstPoison [a l, b l, c l] = some (first l) :=
        firstPoison_cons fun ha => firstPoison_cons fun hb => firstPoison_cons fun hc =>
          absurd (((on.2 l hl).resolve_left ha).resolve_left hb) hc
      exact gives_firstPoison on.1 rfl rfl (by simp only [opVal_began]; exact pass)
    · exact gives_firstPoison on.1 rfl rfl (by simp only [opVal_began]; exact fun l hl => firstPoison_quad (on.2 l hl))

end Sys2Proof.Laws
end

section
/-! ## The state after reset (O60) -/

namespace Sys2Proof.Laws
open Sys2Proof Sys2Proof.Machine

/-- A warp slot without a warp keeps what every warp keeps. -/
theorem wellFormed_none : Warp.none.wellFormed :=
  ⟨fun m l h => by simp [maskBit, maskReg, Warp.none, spGet, bitAt] at h, fun _ => ⟨Nat.zero_le _, Nat.zero_le _⟩, by decide, by decide,
    by decide⟩

/-- Every register of a queue at reset reads 0 (R311). -/
theorem queueRead_none {s : State} {q : Nat} (h : queueOf s q = Queue.none) (off : Nat) : queueRead s q off = 0 := by
  unfold queueRead
  rw [h]
  split <;> rfl

/-- Every register of a stream window at reset reads 0 (R362). -/
theorem winRead_none (off : Nat) : winRead Win.none off = 0 := by
  unfold winRead
  split <;> rfl

/-- Settles O60: at reset every sparse map is empty, so each of its keys reads the reset value. -/
theorem resetState : Obligations.ResetState :=
  ⟨reset_wf, fun _ => wellFormed_none, fun _ => rfl, fun _ => ⟨rfl, rfl⟩, fun _ => Bool.and_false _, rfl, fun _ => rfl, fun _ => rfl,
    fun _ => rfl, fun _ => rfl, fun _ => queueRead_none rfl, fun _ => winRead_none, fun _ => ⟨rfl, rfl⟩⟩

end Sys2Proof.Laws
end

section
/-! ## LRET (O16)

The returning lanes' values are written in one pass over the executing lanes, the lowest last, each to the destination its LDST names;
then each returning lane goes one call up. With no lane waiting at a JOIN nothing is re-evaluated. -/

namespace Sys2Proof.Laws
open Sys2Proof Sys2Proof.Machine

variable {i : Instr} {h : Hdr} {s : State}

/-! ### The writes of the returning lanes -/

/-- Write a value to what an LDST names. -/
def writeTarget (x : Warp) (t : LTarget) (l : Nat) (v : Val) : Warp :=
  match t with
  | .reg r => writeReg x r l v
  | .mask m => setMask x m (setBit (maskReg x m) l (decide (v.pay ≠ 0)))
  | .nothing => x

theorem lretWrite_eq (x : Warp) (l : Nat) (v : Val) : lretWrite x l v = writeTarget x (ldstTarget (laneOf x l).ldst) l v := rfl

/-- The lanes of a list write in the order of the list, each to its own destination. -/
def writeTargets (x : Warp) (dst : Nat → LTarget) (v : Nat → Val) (ls : List Nat) : Warp :=
  ls.foldl (fun y l => writeTarget y (dst l) l (v l)) x

/-- A write to what an LDST names changes registers and masks alone. -/
theorem writeTarget_eq (x : Warp) (t : LTarget) (l : Nat) (v : Val) :
    writeTarget x t l v = { x with regs := (writeTarget x t l v).regs, uregs := (writeTarget x t l v).uregs,
                                   regBad := (writeTarget x t l v).regBad, masks := (writeTarget x t l v).masks } := by
  cases t with
  | reg r => exact (writeReg_eq x r l v).trans (by cases r <;> rfl)
  | mask m => rfl
  | nothing => rfl

theorem writeTargets_eq (dst : Nat → LTarget) (v : Nat → Val) (ls : List Nat) : ∀ x,
    writeTargets x dst v ls = { x with regs := (writeTargets x dst v ls).regs, uregs := (writeTargets x dst v ls).uregs,
                                       regBad := (writeTargets x dst v ls).regBad, masks := (writeTargets x dst v ls).masks } := by
  induction ls with
  | nil => exact fun _ => rfl
  | cons l r ih =>
    intro x
    have a := ih (writeTarget x (dst l) l (v l))
    rw [writeTarget_eq x (dst l) l (v l)] at a
    rw [writeTargets, List.foldl_cons, writeTarget_eq x (dst l) l (v l)]
    exact a

theorem laneOf_writeTarget (x : Warp) (t : LTarget) (l : Nat) (v : Val) (k : Nat) : laneOf (writeTarget x t l v) k = laneOf x k := by
  rw [writeTarget_eq]
  rfl

theorem laneOf_writeTargets (x : Warp) (dst : Nat → LTarget) (v : Nat → Val) (ls : List Nat) (k : Nat) :
    laneOf (writeTargets x dst v ls) k = laneOf x k := by
  rw [writeTargets_eq]
  rfl

/-- The writes of LRET: the destinations are those of the lanes before it, since no write changes an LDST. -/
theorem lretWrites_eq (v : Nat → Val) (ls : List Nat) : ∀ x : Warp,
    ls.foldl (fun y l => lretWrite y l (v l)) x = writeTargets x (fun l => ldstTarget (laneOf x l).ldst) v ls := by
  induction ls with
  | nil => exact fun _ => rfl
  | cons l r ih =>
    intro x
    rw [List.foldl_cons, ih, lretWrite_eq]
    simp only [laneOf_writeTarget]
    rfl

theorem readReg_writeTarget (x : Warp) (t : LTarget) (l : Nat) (v : Val) (r : Reg) (k : Nat) :
    readReg (writeTarget x t l v) r k =
      match t with
      | .reg q => if isDest q r l k = true then v else readReg x r k
      | _ => readReg x r k := by
  cases t with
  | reg q => exact readReg_writeReg x q r l k v
  | mask m => exact readReg_setMask x m _ r k
  | nothing => rfl

/-- A register that no lane names keeps its value. -/
theorem readReg_writeTargets_other {dst : Nat → LTarget} {v : Nat → Val} {r : Reg} {k : Nat} {ls : List Nat}
    (hd : ∀ l ∈ ls, ∀ q, dst l = .reg q → isDest q r l k = false) : ∀ x : Warp,
    readReg (writeTargets x dst v ls) r k = readReg x r k := by
  induction ls with
  | nil => exact fun _ => rfl
  | cons l q ih =>
    intro x
    have e := ih (fun a b => hd a (List.mem_cons_of_mem _ b)) (writeTarget x (dst l) l (v l))
    rw [writeTargets, List.foldl_cons]
    refine e.trans ?_
    rw [readReg_writeTarget]
    split
    next q hq => rw [hd l List.mem_cons_self q hq, if_neg Bool.false_ne_true]
    · rfl

/-- A register has the value of the last lane that names it. -/
theorem readReg_writeTargets_last {dst : Nat → LTarget} {v : Nat → Val} {q r : Reg} {l k : Nat} {as bs : List Nat} (x : Warp)
    (hq : dst l = .reg q) (hl : isDest q r l k = true) (hb : ∀ j ∈ bs, ∀ q, dst j = .reg q → isDest q r j k = false) :
    readReg (writeTargets x dst v (as ++ l :: bs)) r k = v l := by
  rw [writeTargets, List.foldl_append, List.foldl_cons]
  refine (readReg_writeTargets_other hb _).trans ?_
  rw [readReg_writeTarget, hq]
  exact if_pos hl

theorem aliveLanes_writeTarget (x : Warp) (t : LTarget) (l : Nat) (v : Val) : aliveLanes (writeTarget x t l v) = aliveLanes x := by
  rw [writeTarget_eq]
  rfl

/-- Of one mask the writes are those of the lanes that name it. -/
theorem maskReg_writeTargets {dst : Nat → LTarget} {v : Nat → Val} {m : Nat} (ls : List Nat) : ∀ x y : Warp,
    maskReg x m = maskReg y m → aliveLanes x = aliveLanes y → maskReg (writeTargets x dst v ls) m =
      maskReg (writeBits y m (ls.filter fun l => decide (dst l = .mask m)) fun l => decide ((v l).pay ≠ 0)) m := by
  induction ls with
  | nil => exact fun _ _ h _ => h
  | cons l r ih =>
    intro x y hm ha
    rw [writeTargets, List.foldl_cons]
    by_cases hd : dst l = .mask m
    · rw [List.filter_cons_of_pos (by simpa using hd), writeBits, List.foldl_cons]
      refine ih _ _ ?_ ((aliveLanes_writeTarget ..).trans ha)
      rw [hd, writeTarget, maskReg_setMask_self, maskReg_setMask_self, hm, ha]
    · rw [List.filter_cons_of_neg (by simpa using hd)]
      refine ih _ _ (Eq.trans ?_ hm) ((aliveLanes_writeTarget ..).trans ha)
      cases e : dst l with
      | reg q => exact maskReg_writeReg ..
      | mask n => exact maskReg_setMask_ne _ _ _ fun g => hd (e.trans (congrArg _ g.symm))
      | nothing => rfl

/-- A mask that no lane names keeps its bits. -/
theorem maskReg_writeTargets_other {dst : Nat → LTarget} {v : Nat → Val} {m : Nat} {ls : List Nat} (x : Warp)
    (hd : ∀ l ∈ ls, dst l ≠ .mask m) : maskReg (writeTargets x dst v ls) m = maskReg x m := by
  rw [maskReg_writeTargets ls x x rfl rfl, List.filter_eq_nil_iff.mpr (by simpa using hd)]
  rfl

/-- A mask that some lane names has the bits that its lanes write, and none of a lane that is not alive. -/
theorem maskBit_writeTargets {dst : Nat → LTarget} {v : Nat → Val} {m l k : Nat} {ls : List Nat} (x : Warp) (hl : l ∈ ls)
    (hd : dst l = .mask m) (hk : k < 64) : maskBit (writeTargets x dst v ls) m k =
      (decide (k ∈ aliveLanes x) && if k ∈ ls ∧ dst k = .mask m then decide ((v k).pay ≠ 0) else maskBit x m k) := by
  have hne : (ls.filter fun l => decide (dst l = .mask m)) ≠ [] :=
    List.ne_nil_of_mem (List.mem_filter.mpr ⟨hl, decide_eq_true hd⟩)
  rw [maskBit, maskReg_writeTargets ls x x rfl rfl]
  refine (maskBit_writeBits m _ hk _ x hne).trans ?_
  simp only [List.mem_filter, decide_eq_true_eq, Bool.and_comm]

/-! ### The state in which LRET takes effect -/

@[simp] theorem began_pend : (warpOf (began i h s) s.cur).pend = (warpOf s s.cur).pend := by
  obtain ⟨m, li, e⟩ := @warpOf_began i h s
  rw [e]
@[simp] theorem began_nregs : (warpOf (began i h s) s.cur).nregs = (warpOf s s.cur).nregs := by
  obtain ⟨m, li, e⟩ := @warpOf_began i h s
  rw [e]

theorem lretOk_began (l : Nat) : lretOk (warpOf (began i h s) s.cur) (laneOf (warpOf (began i h s) s.cur) l) =
    lretOk (warpOf s s.cur) (laneOf (warpOf s s.cur) l) := by
  simp only [lretOk, ldstLegal, laneOf_began, began_nregs]

theorem lretPending_began (l : Nat) : lretPending (warpOf (began i h s) s.cur) l = lretPending (warpOf s s.cur) l := by
  simp only [lretPending, laneOf_began, began_pend]

/-- The lane after LRET, in the terms of the lane before it. -/
theorem lretLane_eq (y : Lane) : lretLane y =
    { y with lpc := y.lrpc, lcd := y.lcd - 1, csd := if decide (2 ≤ y.lcd) = true then y.csd - 2 else y.csd
             ldst := if decide (2 ≤ y.lcd) = true then wd (fld (spGet 0 y.stk (y.csd - 1)) 0 22) else y.ldst
             lrpc := if decide (2 ≤ y.lcd) = true then spGet 0 y.stk (y.csd - 2) else y.lrpc } := by
  unfold lretLane
  by_cases g : 2 ≤ y.lcd
  · have g' : 1 ≤ y.lcd - 1 := by omega
    simp [g, g']
  · have g' : ¬ 1 ≤ y.lcd - 1 := by omega
    simp [g, g']

theorem isWaiting_lretLane (y : Lane) : isWaiting (lretLane y) = isWaiting y := by
  rw [lretLane_eq]
  rfl

/-- With no lane waiting at a JOIN, LRET writes the values and takes its lanes one call up. -/
theorem lretWarp_eq {x : Warp} {ix : Ix} (nd : ix.exe.Nodup) (hw : ∀ l, isWaiting (laneOf x l) = false) (a : Reg) :
    lretWarp x ix a = settle (updLanes (writeTargets x (fun l => ldstTarget (laneOf x l).ldst) (readReg x a) ix.exe.reverse) ix.exe
      (fun _ z => lretLane z)) := by
  unfold lretWarp
  simp only [lretWrites_eq]
  rw [rejoin_of_none]
  · exact ite_self _
  · intro l
    refine (congrArg isWaiting (laneOf_updLanes _ _ _ nd l)).trans ?_
    rw [laneOf_writeTargets]
    split
    · exact (isWaiting_lretLane _).trans (hw l)
    · exact hw l

/-! ### The three cases -/

/-- LRET's own effect: its checks are those of the state before it. -/
theorem lret_eq (ra : Reg) : exec (.lret h ra) s = issued (.lret h ra) h s fun ix t =>
      let x := warpOf t ix.w
      let bad := ix.exe.filter (fun l => !lretOk x (laneOf x l))
      if bad ≠ [] then .trap (bad.map (fun l => faultAt ix l .ill)) 0 []
      else if ix.exe.any (lretPending x) then .wait .drain t
      else .ok (setWarp t ix.w (lretWarp x ix ra)) := rfl

theorem bad_began (ls : List Nat) : ls.filter (fun l => !lretOk (warpOf (began i h s) s.cur) (laneOf (warpOf (began i h s) s.cur) l)) =
    ls.filter (fun l => !lretOk (warpOf s s.cur) (laneOf (warpOf s s.cur) l)) := by
  simp only [lretOk_began]

theorem pending_began (ls : List Nat) : ls.any (lretPending (warpOf (began i h s) s.cur)) = ls.any (lretPending (warpOf s s.cur)) := by
  rw [funext lretPending_began]

/-- No lane of some is refused. -/
theorem bad_nil {ls : List Nat} {ok : Nat → Bool} (hok : ∀ l ∈ ls, ok l = true) : ls.filter (fun l => !ok l) = [] :=
  List.filter_eq_nil_iff.mpr fun l hl => by rw [hok l hl]; exact Bool.false_ne_true

/-- Warp X is the issuing warp after its executing lanes have returned with values v. -/
structure Returned (i : Instr) (h : Hdr) (s : State) (v : Nat → Val) (X : Warp) : Prop where
  specials : SameSpecials (warpOf s s.cur) X
  lanes : ∀ l, laneOf X l = if l ∈ (curIx i h s).exe then lretLane (laneOf (warpOf s s.cur) l) else advanced i h s l
  regs : ∀ r k, readReg X r k = readReg (writeTargets (warpOf (began i h s) s.cur)
    (fun l => ldstTarget (laneOf (warpOf s s.cur) l).ldst) v (curIx i h s).exe.reverse) r k
  masks : ∀ m, maskReg X m = maskReg (writeTargets (warpOf (began i h s) s.cur)
    (fun l => ldstTarget (laneOf (warpOf s s.cur) l).ldst) v (curIx i h s).exe.reverse) m

/-- LRET's effect with no lane waiting at a JOIN. -/
theorem returned_lretWarp (ra : Reg) (hw : ∀ l, isWaiting (laneOf (warpOf s s.cur) l) = false) :
    Returned i h s (opnd s ra 0#4) (lretWarp (warpOf (began i h s) s.cur) (curIx i h s) ra) := by
  rw [lretWarp_eq nodup_exe fun l => (isWaiting_began l).trans (hw l)]
  have ed : (fun l => ldstTarget (laneOf (warpOf (began i h s) s.cur) l).ldst) =
      fun l => ldstTarget (laneOf (warpOf s s.cur) l).ldst := by
    funext l
    rw [laneOf_began]
  have ev : readReg (warpOf (began i h s) s.cur) ra = opnd s ra 0#4 := by
    funext l
    rw [readReg_began, opnd_zero]
  rw [ed, ev]
  refine ⟨specials_trans (specials_began (i := i) (h := h)) ⟨?_⟩, fun l => ?_,
    fun r k => (readReg_congr rfl rfl r k).trans (readReg_updLanes _ _ _ r k), fun m => maskReg_updLanes _ _ _ m⟩
  · rw [settle, updLanes_eq, writeTargets_eq]
  · refine (laneOf_updLanes _ _ _ nodup_exe l).trans ?_
    rw [laneOf_writeTargets, laneOf_began]
    rfl

/-- Behind a lane in the reversed executing lanes stand lower ones alone. -/
theorem exe_reverse_split {l : Nat} (hl : l ∈ (curIx i h s).exe) : ∃ as bs, (curIx i h s).exe.reverse = as ++ l :: bs ∧
    ∀ j ∈ bs, j ∈ (curIx i h s).exe ∧ j < l := by
  obtain ⟨as, bs, e⟩ := List.append_of_mem (List.mem_reverse.mpr hl)
  have hs : (curIx i h s).exe.reverse.Pairwise (· > ·) := List.pairwise_reverse.mpr sorted_exe
  rw [e] at hs
  refine ⟨as, bs, e, fun j hj => ⟨List.mem_reverse.mp ?_, (List.pairwise_cons.mp (List.pairwise_append.mp hs).2.1).1 j hj⟩⟩
  rw [e]
  exact List.mem_append_right _ (List.mem_cons_of_mem _ hj)

/-- Settles O16: of the warp that `returned_lretWarp` describes each read is known, and the end of the run changes none of them. -/
theorem lretReturnsTheValue : Obligations.LretReturnsTheValue := by
  intro h ra s i ix w dst ok
  refine ⟨fun on hw => ?returns, fun on hp => ?waits, fun is hb => ?traps⟩
  case returns =>
    have ret := returned_lretWarp (i := i) (h := h) ra hw
    have hrun := warp_finished (i := i) (h := h) (s := s) fun _ => lretWarp (warpOf (began i h s) s.cur) ix ra
    rw [markLate_none (show lateKeys i = [] from rfl)] at hrun
    have hok := bad_nil fun l hl => (on.2 l hl).1
    have hnp : ix.exe.any (lretPending w) = false := List.any_eq_false.mpr fun l hl => Bool.eq_false_iff.mp (on.2 l hl).2
    refine ⟨_, (lret_eq ra).trans (issued_ok (u := updWarp (began i h s) s.cur fun _ => lretWarp (warpOf (began i h s) s.cur) ix ra)
        on.1 ?_), sameBeside_finished _ (specials_core ret.specials),
      specials_trans ret.specials (specials_runEnded hrun),
      fun l => ?lanes, fun l hl n hn => ?lane, fun l hl n hn hlow k => ?uni, fun r k ho => ?others, fun m ho => ?masks,
      fun l hl m hm k hk => ?mask⟩
    · simp only [curIx_w, bad_began, pending_began]
      exact (if_neg (not_not_intro hok)).trans (if_neg (Bool.eq_false_iff.mp hnp))
    case lanes =>
      obtain ⟨hl, hres⟩ := hrun.lanes l
      rw [ret.lanes l, lretLane_eq] at hl hres
      refine ⟨?_, hl.trans ?_⟩
      · split at hres <;> exact hres
      · split <;> rfl
    case lane =>
      obtain ⟨as, bs, e, hb⟩ := exe_reverse_split hl
      rw [runEnded_read hrun, ret.regs, e]
      refine readReg_writeTargets_last _ hn (by simp [isDest]) fun j hj q _ => ?_
      have hne : ¬ l = j := by have := (hb j hj).2; omega
      simp [isDest, isUni, hne]
    case uni =>
      obtain ⟨as, bs, e, hb⟩ := exe_reverse_split hl
      rw [runEnded_read hrun, ret.regs, e]
      refine readReg_writeTargets_last _ hn (by simp [isDest, isUni]) fun j hj q hq => ?_
      have hne : ¬ Reg.uni n = q := fun g => absurd (hlow j (hb j hj).1 (g ▸ hq)) (Nat.not_le.mpr (hb j hj).2)
      simp [isDest, hne]
    case others =>
      rw [runEnded_read hrun, ret.regs, readReg_writeTargets_other fun l hl => ho l (List.mem_reverse.mp hl)]
      exact readReg_began r k
    case masks =>
      rw [runEnded_mask hrun, ret.masks, maskReg_writeTargets_other _ fun l hl => ho l (List.mem_reverse.mp hl)]
      exact maskReg_began m
    case mask =>
      rw [maskBit, runEnded_mask hrun, ret.masks]
      refine (maskBit_writeTargets _ (List.mem_reverse.mpr hl) hm hk).trans ?_
      simp only [aliveLanes_began, List.mem_reverse, maskBit, maskReg_began]
      rfl
  case waits =>
    have hok := bad_nil on.2
    refine (lret_eq ra).trans (issued_wait on.1 ?_)
    simp only [curIx_w, bad_began, pending_began]
    exact (if_neg (not_not_intro hok)).trans (if_pos (List.any_eq_true.mpr hp))
  case traps =>
    obtain ⟨l, hl, hbad⟩ := hb
    have hne : ix.exe.filter (fun l => !ok l) ≠ [] := List.ne_nil_of_mem (List.mem_filter.mpr ⟨hl, by rw [hbad]; rfl⟩)
    refine (lret_eq ra).trans (issued_trap is ?_)
    simp only [curIx_w, bad_began]
    exact if_pos hne

end Sys2Proof.Laws
end

section
/-! ## Calls of unexecuted pairs (O15)

The calls are checked before any lane takes effect, in a state of which nothing but what the reads of the handler table change is
lost; then the lanes with a value write it, and each calling lane enters its handler. -/

namespace Sys2Proof.Laws
open Sys2Proof Sys2Proof.Machine

variable {i : Instr} {h : Hdr} {s : State}

/-! ### A read through the L1 leaves the issuing warp's number -/

theorem HomeSide.cur {s t : State} (h : HomeSide s t) : t.cur = s.cur := by rw [h.eq]

theorem clearResv_cur (s : State) (k : Nat) (own : Option Nat) : (clearResv s k own).cur = s.cur :=
  iteInduction (motive := fun t : State => t.cur = s.cur) (fun _ => rfl) fun _ => rfl

theorem homeWrite_cur (s : State) (k : Nat) (data : Word) (mask : BitVec 8) (t : Option Tag) (bad : Bool) (own : Option Nat) :
    (homeWrite s k data mask t bad own).cur = s.cur := by
  rcases homeWrite_homeSide s k data mask t bad own with e | e
  · rw [e]
  · exact e.cur.trans (clearResv_cur s k own)

theorem tellRefused_cur (s : State) (p pa : Nat) : (tellRefused s p pa).cur = s.cur := by
  unfold tellRefused
  simp only []
  split
  · split <;> rfl
  · rfl

theorem setL1_cur (s : State) (c k : Nat) (w : CWord) : (setL1 s c k w).cur = s.cur := rfl

theorem l1Clean_cur (s : State) (c k : Nat) : (l1Clean s c k).cur = s.cur := by
  unfold l1Clean
  simp only []
  split
  · rfl
  · split
    · exact iteInduction (motive := fun t : State => t.cur = s.cur) (fun _ => homeWrite_cur ..) fun _ => homeWrite_cur ..
    · exact tellRefused_cur ..

/-- A fold of steps that leave the issuing warp's number leaves it. -/
theorem foldl_cur {β : Type} {f : State → β → State} (hf : ∀ s b, (f s b).cur = s.cur) (l : List β) (s : State) :
    (l.foldl f s).cur = s.cur := by
  induction l generalizing s with
  | nil => rfl
  | cons b r ih => exact (ih (f s b)).trans (hf s b)

theorem l1Evict_cur (s : State) (c line : Nat) : (l1Evict s c line).cur = s.cur :=
  foldl_cur (fun s k => iteInduction (motive := fun t : State => t.cur = s.cur) (fun _ => rfl)
    fun _ => (setL1_cur ..).trans (l1Clean_cur s c k)) _ s

theorem l1Room_cur (s : State) (c line : Nat) : (l1Room s c line).cur = s.cur := by
  unfold l1Room
  simp only []
  split
  · rfl
  · split
    · exact l1Evict_cur ..
    · rfl

theorem l1FillWord_cur (s : State) (c k : Nat) : (l1FillWord s c k).cur = s.cur := by
  unfold l1FillWord
  simp only []
  split
  · rfl
  · exact (setL1_cur ..).trans (homeRead_homeSide s k).cur

theorem l1Read_cur (s : State) (c p k : Nat) (mask : BitVec 8) (t : Bool) : (l1Read s c p k mask t).1.cur = s.cur := by
  have hfill : ((sectorWords k).foldl (fun s k => l1FillWord s c k) (l1Room s c (k / 32))).cur = s.cur :=
    (foldl_cur (fun s k => l1FillWord_cur s c k) _ _).trans (l1Room_cur ..)
  unfold l1Read
  simp only []
  generalize (sectorWords k).foldl (fun s k => l1FillWord s c k) (l1Room s c (k / 32)) = u at *
  split
  · rfl
  · split
    · exact iteInduction (motive := fun t : State => t.cur = s.cur) (fun _ => hfill) fun _ => hfill
    · exact tellRefused_cur ..

/-- The state that reading a word leaves, if it leaves one, has n as the issuing warp's number. -/
def Fetched.Cur (n : Nat) : Fetched → Prop
  | .ok s _ _ | .fault s _ => s.cur = n
  | .miss _ => True

theorem needWord_cur (s : State) (w va : Nat) (n : Need) : Fetched.Cur s.cur (needWord s w va n) := by
  unfold needWord
  split
  · rfl
  · split
    · trivial
    · rfl
    · next pa l _ =>
      have hread := l1Read_cur s (warpOf s w).core (warpPart s w) (pa / 8) 0xFF l.t
      split
      · next e => rw [e] at hread; exact hread
      · next e =>
        rw [e] at hread
        split <;> exact hread

/-- The state that the checks of a call leave, if they leave one, has n as the issuing warp's number. -/
def CallIn.Cur (n : Nat) : CallIn → Prop
  | .ok s _ | .fault s _ => s.cur = n
  | .miss _ => True

theorem checkCall_cur (s : State) (ix : Ix) (k : LCall) : CallIn.Cur s.cur (checkCall s ix k) := by
  unfold checkCall
  simp only []
  split
  · rfl
  · have hword := needWord_cur s ix.w (entryAddr (warpOf s ix.w) k) .r
    split
    · trivial
    · next e => rw [e] at hword; exact hword
    · next e =>
      rw [e] at hword
      split
      · exact hword
      · split <;> exact hword

/-! ### Checking calls -/

/-- What one more checked call adds. -/
def addCall (a : CallsIn) (k : LCall) : CallIn → CallsIn
  | .ok s e => { a with s := s, entries := a.entries ++ [(k, e)] }
  | .miss v => { a with misses := v :: a.misses }
  | .fault s f => { a with s := s, faults := a.faults ++ [f] }

/-- Check calls after those that came to a. -/
def checkMore (ix : Ix) (a : CallsIn) (ks : List LCall) : CallsIn := ks.foldl (fun a k => addCall a k (checkCall a.s ix k)) a

theorem checkCalls_eq (s : State) (ix : Ix) (ks : List LCall) : checkCalls s ix ks = checkMore ix ⟨s, [], [], []⟩ ks := by
  have hstep : (fun (a : CallsIn) k => addCall a k (checkCall a.s ix k)) = fun a k =>
      match checkCall a.s ix k with
      | .ok s e => { a with s := s, entries := a.entries ++ [(k, e)] }
      | .miss v => { a with misses := v :: a.misses }
      | .fault s f => { a with s := s, faults := a.faults ++ [f] } := by
    funext a k
    cases checkCall a.s ix k <;> rfl
  rw [checkMore, hstep]
  rfl

theorem checkMore_cur (ix : Ix) (ks : List LCall) : ∀ a : CallsIn, (checkMore ix a ks).s.cur = a.s.cur := by
  induction ks with
  | nil => exact fun _ => rfl
  | cons k r ih =>
    intro a
    refine (ih _).trans ?_
    have hk := checkCall_cur a.s ix k
    beta_reduce
    cases e : checkCall a.s ix k <;> rw [e] at hk
    case miss => rfl
    all_goals exact hk

theorem checkCalls_cur (s : State) (ix : Ix) (ks : List LCall) : (checkCalls s ix ks).s.cur = s.cur := by
  rw [checkCalls_eq]
  exact checkMore_cur ix ks _

/-- Once a call has missed a page or has a cause, that stays. -/
theorem checkMore_stopped (ix : Ix) (ks : List LCall) : ∀ a : CallsIn, a.misses ≠ [] ∨ a.faults ≠ [] →
    (checkMore ix a ks).misses ≠ [] ∨ (checkMore ix a ks).faults ≠ [] := by
  induction ks with
  | nil => exact fun _ h => h
  | cons k r ih =>
    intro a h
    refine ih _ ?_
    beta_reduce
    cases checkCall a.s ix k with
    | ok s e => exact h
    | miss v => exact .inl (List.cons_ne_nil _ _)
    | fault s f => exact .inr (by simp [addCall])

/-- Of calls none of which has missed a page or has a cause each has its entry. -/
theorem checkMore_entries (ix : Ix) (ks : List LCall) : ∀ a : CallsIn, (checkMore ix a ks).misses = [] →
    (checkMore ix a ks).faults = [] → (checkMore ix a ks).entries.map (·.1) = a.entries.map (·.1) ++ ks := by
  induction ks with
  | nil => exact fun a _ _ => (List.append_nil _).symm
  | cons k r ih =>
    intro a hm hf
    refine (ih _ hm hf).trans ?_
    have hgo : ¬ ((addCall a k (checkCall a.s ix k)).misses ≠ [] ∨ (addCall a k (checkCall a.s ix k)).faults ≠ []) :=
      fun g => (checkMore_stopped ix r _ g).elim (· hm) (· hf)
    beta_reduce
    cases e : checkCall a.s ix k with
    | ok s e => simp [addCall]
    | miss v => rw [e] at hgo; exact absurd (.inl (List.cons_ne_nil _ _)) hgo
    | fault s f => rw [e] at hgo; exact absurd (.inr (by simp [addCall])) hgo

theorem checkCalls_entries {s : State} {ix : Ix} {ks : List LCall} (hm : (checkCalls s ix ks).misses = [])
    (hf : (checkCalls s ix ks).faults = []) : (checkCalls s ix ks).entries.map (·.1) = ks := by
  rw [checkCalls_eq] at *
  exact checkMore_entries ix ks _ hm hf

/-! ### Entering handlers -/

/-- The warp after the callers es have entered their handlers. -/
def enterLanes (x : Warp) (es : List (LCall × Word)) : Warp :=
  es.foldl (fun x e => updLane x e.1.lane (fun y => enterCall y e.1 e.2)) x

/-- The warp after calls, if there are any. -/
def called (x : Warp) (es : List (LCall × Word)) : Warp := if es = [] then x else settle (enterLanes x es)

theorem warpOf_enterCalls (u : State) (ix : Ix) (es : List (LCall × Word)) :
    warpOf (enterCalls u ix es) ix.w = called (warpOf u ix.w) es := by
  unfold enterCalls called
  split
  · rfl
  · rw [updWarp_eq, warpOf_setWarp_self]
    rfl

theorem enterLanes_eq (es : List (LCall × Word)) : ∀ x, enterLanes x es = { x with lanes := (enterLanes x es).lanes } := by
  induction es with
  | nil => exact fun _ => rfl
  | cons e r ih => exact fun x => ih (updLane x e.1.lane fun y => enterCall y e.1 e.2)

theorem laneOf_enterLanes_other (es : List (LCall × Word)) {l : Nat} (hl : ∀ e ∈ es, e.1.lane ≠ l) : ∀ x,
    laneOf (enterLanes x es) l = laneOf x l := by
  induction es with
  | nil => exact fun _ => rfl
  | cons e r ih =>
    intro x
    exact (ih (fun a ha => hl a (List.mem_cons_of_mem _ ha)) _).trans (laneOf_setLane_ne _ _ _ (hl e List.mem_cons_self).symm)

theorem laneOf_enterLanes_caller (es : List (LCall × Word)) {e : LCall × Word} (he : e ∈ es) (nd : (es.map (·.1.lane)).Nodup) : ∀ x,
    laneOf (enterLanes x es) e.1.lane = enterCall (laneOf x e.1.lane) e.1 e.2 := by
  induction es with
  | nil => cases he
  | cons a r ih =>
    intro x
    rw [List.map_cons, List.nodup_cons] at nd
    rcases List.mem_cons.mp he with rfl | hr
    · exact (laneOf_enterLanes_other r (fun b hb g => nd.1 (List.mem_map.mpr ⟨b, hb, g⟩)) _).trans (laneOf_setLane_self ..)
    · have hne : e.1.lane ≠ a.1.lane := fun g => nd.1 (List.mem_map.mpr ⟨e, hr, g⟩)
      exact (ih hr nd.2 _).trans (congrArg (enterCall · e.1 e.2) (laneOf_setLane_ne _ _ _ hne))

theorem laneOf_called (x : Warp) (es : List (LCall × Word)) (l : Nat) : laneOf (called x es) l = laneOf (enterLanes x es) l := by
  unfold called
  split
  next e => rw [e]; rfl
  · rfl

theorem readReg_called (x : Warp) (es : List (LCall × Word)) (r : Reg) (k : Nat) : readReg (called x es) r k = readReg x r k := by
  unfold called
  split
  · rfl
  · rw [enterLanes_eq]
    exact readReg_congr rfl rfl r k

theorem maskReg_called (x : Warp) (es : List (LCall × Word)) (m : Nat) : maskReg (called x es) m = maskReg x m := by
  unfold called
  split
  · rfl
  · rw [enterLanes_eq]
    rfl

/-! ### Lanes that have a value or call -/

/-- Lane l's value if it has one, or its call with class and tags k. -/
def valOrCall (out : Nat → Option Val) (k : Nat → Nat × Nat × Nat) (a b : Nat → Val) (l : Nat) : LOut :=
  match out l with
  | some v => .val v
  | none => .call (k l).1 (k l).2.1 (k l).2.2 (a l) (b l) nilVal

/-- Lane l's call with class and tags k and the destination x. -/
def callWith (ix : Ix) (x : Nat × Nat) (k : Nat → Nat × Nat × Nat) (a b : Nat → Val) (l : Nat) : LCall :=
  ⟨l, (k l).1, (k l).2.1, (k l).2.2, a l, b l, nilVal, x.1, x.2, ix.next⟩

section
variable (ix : Ix) (d : LDst) (out : Nat → Option Val) (k : Nat → Nat × Nat × Nat) (a b : Nat → Val)

theorem callsOf_valOrCall (ls : List Nat) : callsOf ix d (ls.map fun l => (l, valOrCall out k a b l)) =
    (ls.filter fun l => (out l).isNone).map (callWith ix (destKind d) k a b) := by
  induction ls with
  | nil => rfl
  | cons l r ih =>
    unfold callsOf at *
    rw [List.map_cons, List.filterMap_cons, ih]
    cases e : out l <;> simp [valOrCall, e, callWith]

theorem faultsOf_valOrCall (ls : List Nat) : faultsOf ix (ls.map fun l => (l, valOrCall out k a b l)) = [] := by
  refine List.filterMap_eq_nil_iff.mpr fun o ho => ?_
  obtain ⟨l, _, rfl⟩ := List.mem_map.mp ho
  cases e : out l <;> simp [valOrCall, e]

/-- The lanes that have values write them to their register. -/
theorem writeOuts_valOrCall (r : Reg) (ls : List Nat) : ∀ x : Warp,
    writeOuts x (.reg r) (ls.map fun l => (l, valOrCall out k a b l)) =
      writeRegs x r (ls.filter fun l => (out l).isSome) (fun l => (out l).getD nilVal) := by
  induction ls with
  | nil => exact fun _ => rfl
  | cons l q ih =>
    intro x
    unfold writeOuts at *
    rw [List.map_cons, List.foldl_cons]
    cases e : out l with
    | some v =>
      rw [List.filter_cons_of_pos (by rw [e]; rfl), writeRegs, List.foldl_cons]
      simp only [valOrCall, e, Option.getD_some]
      exact ih _
    | none =>
      rw [List.filter_cons_of_neg (by rw [e]; exact Bool.false_ne_true)]
      simp only [valOrCall, e]
      exact ih x

end

/-- Lanes all of which call write nothing. -/
theorem writeOuts_calls (d : LDst) (k : Nat → Nat × Nat × Nat) (a b : Nat → Val) (ls : List Nat) (x : Warp) :
    writeOuts x d (ls.map fun l => (l, valOrCall (fun _ => none) k a b l)) = x := by
  have hfold : ∀ ls : List Nat, (ls.map fun l => (l, valOrCall (fun _ => none) k a b l)).foldl
      (fun x o => match o.2 with | .val v => writeOut x d o.1 v | _ => x) x = x := by
    intro ls
    induction ls with
    | nil => rfl
    | cons l r ih => exact ih
  have hgives : givesAny (ls.map fun l => (l, valOrCall (fun _ => none) k a b l)) = false :=
    List.any_eq_false.mpr fun o ho => by
      obtain ⟨l, _, rfl⟩ := List.mem_map.mp ho
      exact Bool.false_ne_true
  cases d with
  | reg r => exact hfold ls
  | mask m =>
    simp only [writeOuts, hgives, Bool.false_eq_true, if_false]
    exact hfold ls

/-! ### The state after calls -/

/-- Warp z is x after the calls es, as far as lanes, registers and masks go. -/
structure Entered (x z : Warp) (es : List (LCall × Word)) : Prop where
  lanes : ∀ l, laneOf z l = { laneOf (enterLanes x es) l with resv := (laneOf z l).resv }
  regs : ∀ r k, readReg z r k = readReg x r k
  masks : ∀ m, maskReg z m = maskReg x m

/-- A lane instruction each of whose acting lanes has a value or a call that nothing is in the way of. -/
theorem laneOp_valOrCall (is : issues i h s = true) {body : Ix → State → Res} {d : LDst} {srcs : List Reg} {f : Nat → LOut}
    {out : Nat → Option Val} {k : Nat → Nat × Nat × Nat} {a b : Nat → Val} (he : exec i s = issued i h s body)
    (hb : body (curIx i h s) (began i h s) = laneOp (curIx i h s) (began i h s) d srcs f)
    (hf : ∀ l ∈ actLanes (curIx i h s) d srcs, f l = valOrCall out k a b l) {ks : List LCall} {c : CallsIn}
    (hks : ks = ((actLanes (curIx i h s) d srcs).filter fun l => (out l).isNone).map (callWith (curIx i h s) (destKind d) k a b))
    (hc : c = checkCalls (began i h s) (curIx i h s) ks) (hm : c.misses = []) (hx : c.faults = []) :
    ∃ t, exec i s = .next t ∧ Entered (writeOuts (warpOf c.s s.cur) d
      ((actLanes (curIx i h s) d srcs).map fun l => (l, valOrCall out k a b l))) (warpOf t s.cur) c.entries := by
  have houts : ((actLanes (curIx i h s) d srcs).map fun l => (l, f l)) =
      (actLanes (curIx i h s) d srcs).map fun l => (l, valOrCall out k a b l) :=
    List.map_congr_left fun l hl => by rw [hf l hl]
  refine ⟨_, he.trans (issued_ok is (u := enterCalls (updWarp c.s s.cur fun x => writeOuts x d
    ((actLanes (curIx i h s) d srcs).map fun l => (l, valOrCall out k a b l))) (curIx i h s) c.entries) ?_), ?_⟩
  · rw [hb, laneOp, houts, callsOf_valOrCall, faultsOf_valOrCall, ← hks, finishCalls, ← hc]
    simp [hm, hx]
  · have hrun := (@finished_spec i h s (enterCalls (updWarp c.s s.cur fun x => writeOuts x d
      ((actLanes (curIx i h s) d srcs).map fun l => (l, valOrCall out k a b l))) (curIx i h s) c.entries)).2.2.2
    have hown := warpOf_enterCalls (updWarp c.s s.cur fun x => writeOuts x d
      ((actLanes (curIx i h s) d srcs).map fun l => (l, valOrCall out k a b l))) (curIx i h s) c.entries
    rw [curIx_w, updWarp_eq, warpOf_setWarp_self] at hown
    rw [updWarp_eq, hown] at hrun
    refine ⟨fun l => ?_, fun r k => ?_, fun m => ?_⟩
    · have hl := (hrun.lanes l).1
      rwa [laneOf_markLate, laneOf_called] at hl
    · rw [updWarp_eq, runEnded_read hrun, readReg_markLate, readReg_called]
    · rw [updWarp_eq, runEnded_mask hrun, maskReg_markLate, maskReg_called]

/-- Lane z is in the handler at the entry address that call k of lane y names (R96). -/
def InHandler (y z : Lane) (k : LCall) (entry : Word) : Prop :=
  z.lopa = k.a ∧ z.lopb = k.b ∧ z.lopc = nilVal ∧ z.ldst = ldstOf k ∧ z.lrpc = k.back ∧ z.lpc = entry ∧ z.lcd = y.lcd + 1 ∧
    (1 ≤ y.lcd → z.csd = y.csd + 2 ∧ spGet 0 z.stk y.csd = y.lrpc ∧ spGet 0 z.stk (y.csd + 1) = y.ldst) ∧
    (y.lcd = 0 → z.csd = y.csd)

theorem enterCall_inHandler {y z : Lane} {k : LCall} {entry : Word} (hk : k.c = nilVal)
    (hz : z = { enterCall y k entry with resv := z.resv }) : InHandler y z k entry := by
  have hne : ∀ n : Nat, n ≠ n + 1 := fun n => by omega
  rw [hz]
  by_cases hin : 1 ≤ y.lcd
  · refine ⟨rfl, rfl, hk, rfl, rfl, rfl, ?_, fun _ => ⟨?_, ?_, ?_⟩, fun h0 => by omega⟩ <;>
      simp [enterCall, hin, spGet_spSet_ne _ _ _ (hne y.csd)]
  · refine ⟨rfl, rfl, hk, rfl, rfl, rfl, ?_, fun g => absurd g hin, fun _ => ?_⟩ <;> simp [enterCall, hin]

/-- A lane's call, as the checked calls give it, is entered; the other lanes are as they were. -/
theorem Entered.caller {x z : Warp} {es : List (LCall × Word)} (hen : Entered x z es) (nd : (es.map (·.1.lane)).Nodup)
    {e : LCall × Word} (he : e ∈ es) :
    laneOf z e.1.lane = { enterCall (laneOf x e.1.lane) e.1 e.2 with resv := (laneOf z e.1.lane).resv } := by
  rw [← laneOf_enterLanes_caller es he nd x]
  exact hen.lanes _

theorem Entered.other {x z : Warp} {es : List (LCall × Word)} (hen : Entered x z es) {l : Nat} (hl : ∀ e ∈ es, e.1.lane ≠ l) :
    laneOf z l = { laneOf x l with resv := (laneOf z l).resv } := by
  rw [← laneOf_enterLanes_other es hl x]
  exact hen.lanes l

theorem mem_actLanes {d : LDst} {srcs : List Reg} {l : Nat} (is : issues i h s = true) (hl : l ∈ actLanes (curIx i h s) d srcs) :
    l ∈ (curIx i h s).exe := by
  unfold actLanes at hl
  split at hl
  · rw [List.mem_singleton.mp hl]
    exact low_mem (issues_iff.mp is).2.2.2.2.2.2.2
  · exact hl

theorem nodup_actLanes {d : LDst} {srcs : List Reg} : (actLanes (curIx i h s) d srcs).Nodup := by
  unfold actLanes
  split
  · exact List.nodup_singleton _
  · exact nodup_exe

/-- Calls of distinct lanes. -/
theorem nodup_callWith {ls : List Nat} (nd : ls.Nodup) (ix : Ix) (x : Nat × Nat) (k : Nat → Nat × Nat × Nat) (a b : Nat → Val) :
    ((ls.map (callWith ix x k a b)).map (·.lane)).Nodup := by
  rw [List.map_map]
  exact (List.map_id ls).symm ▸ nd

/-- Where no lane was changed before the calls of lanes ls: each caller is in its handler, and the other lanes are as they were. -/
theorem Entered.callers {w x z : Warp} {es : List (LCall × Word)} {ks : List LCall} {ls : List Nat} {ix : Ix} {d : Nat × Nat}
    {k : Nat → Nat × Nat × Nat} {a b : Nat → Val} (hen : Entered x z es) (hw : ∀ l, laneOf x l = laneOf w l) (nd : ls.Nodup)
    (hks : ks = ls.map (callWith ix d k a b)) (hes : es.map (·.1) = ks) :
    (∀ e ∈ es, InHandler (laneOf w e.1.lane) (laneOf z e.1.lane) e.1 e.2) ∧
      ∀ l, (∀ k ∈ ks, k.lane ≠ l) → laneOf z l = { laneOf w l with resv := (laneOf z l).resv } := by
  subst hks
  have hmem : ∀ e ∈ es, e.1 ∈ ls.map (callWith ix d k a b) := fun e he => hes ▸ List.mem_map.mpr ⟨e, he, rfl⟩
  have hnd : (es.map (·.1.lane)).Nodup := by
    have hlanes := nodup_callWith nd ix d k a b
    rwa [← hes, List.map_map] at hlanes
  refine ⟨fun e he => ?_, fun l hl => ?_⟩
  · rw [← hw]
    obtain ⟨l, _, hl⟩ := List.mem_map.mp (hmem e he)
    exact enterCall_inHandler (hl ▸ rfl) (hen.caller hnd he)
  · rw [← hw]
    exact hen.other fun e he => hl _ (hmem e he)

/-! ### The integer operations -/

/-- The value of an integer operation in lane l, if its operands are INTs and its result fits. -/
def intResult (f : Int → Int → Option Int) (a b : Nat → Val) (l : Nat) : Option Val :=
  if (a l).tag = .int then
    (f (a l).pay.toInt (b l).pay.toInt).bind (fun z => if Fits z then some ⟨.int, wdInt z⟩ else none)
  else none

/-- The class and tags of lane l's call: overflow of INTs, or the instruction's own class. -/
def pairKey (cls : Nat) (a b : Nat → Val) (l : Nat) : Nat × Nat × Nat :=
  if (a l).tag = .int then (14, cls, 1) else (cls, 9, tagCode (b l).tag)

theorem fitsInt_iff (z : Int) : fitsInt z = true ↔ Fits z := by
  simp only [fitsInt, Bool.and_eq_true, decide_eq_true_eq]

theorem orPoison_pair {a b : Val} (ha : a.tag ≠ .poison) (hb : b.tag ≠ .poison) (r : LOut) : orPoison [a, b] r = r := by
  simp [orPoison, firstPoison, ha, hb]

theorem intOut_eq (cls : Nat) (x : Option Int) (a b c : Val) : intOut cls x a b c =
    match x.bind (fun z => if Fits z then some (intVal z) else none) with
    | some v => .val v
    | none => .call 14 cls 1 a b c := by
  cases x with
  | none => rfl
  | some z =>
    by_cases hz : Fits z
    · simp only [intOut, (fitsInt_iff z).mpr hz, Option.bind_some, if_true, if_pos hz]
    · simp only [intOut, Bool.eq_false_iff.mpr fun g => hz ((fitsInt_iff z).mp g), Option.bind_some, Bool.false_eq_true, if_false,
        if_neg hz]

/-- A pair of INTs has its result or overflows; a SYM calls the handler of the instruction's class. -/
theorem arith_valOrCall {op : ArOp} {e : Elt} {a b : Nat → Val} {l : Nat}
    (hl : ((a l).tag = .int ∧ (b l).tag = .int) ∨ ((a l).tag = .sym ∧ (b l).tag ≠ .poison)) :
    arith op e (a l) (b l) = valOrCall (intResult (arInt op) a b) (pairKey (arClass op) a b) a b l := by
  rcases hl with ⟨ha, hb⟩ | ⟨ha, hb⟩
  · rw [arith, orPoison_pair (by rw [ha]; decide) (by rw [hb]; decide), ha, hb]
    refine (intOut_eq ..).trans ?_
    simp only [valOrCall, intResult, pairKey, ha, if_true, intVal]
  · have hres : resTag .sym (b l).tag = none := by cases (b l).tag <;> rfl
    have hpack : packPair e .sym (b l).tag = false := rfl
    rw [arith, orPoison_pair (by rw [ha]; decide) hb, ha, hres]
    simp [hpack, valOrCall, intResult, pairKey, ha, ownCall, tagCode]

/-- CMPM of a SYM and an INT calls the handler of class 6 (R113). -/
theorem cmpmLane_calls {cc : Cc} {a b : Nat → Val} {l : Nat} (hcc : cc ≠ .tageq) (ha : (a l).tag = .sym) (hb : (b l).tag = .int) :
    orPoisonTrap [a l, b l] (cmpLane cc (a l) (b l)) = valOrCall (fun _ => none) (fun _ => (6, 9, 1)) a b l := by
  have hpa : (a l).tag ≠ .poison := by rw [ha]; decide
  have hpb : (b l).tag ≠ .poison := by rw [hb]; decide
  rw [cmpLane, if_neg hcc, orPoison_pair hpa hpb]
  simp [orPoisonTrap, firstPoison, Machine.compare, resTag, ha, hb, ownCall, tagCode, valOrCall]

/-! ### The registers that the lanes with values write -/

/-- A lane with a value has written it. -/
theorem readReg_writeOuts_own {d : Reg} {srcs : List Reg} {out : Nat → Option Val} {k : Nat → Nat × Nat × Nat} {a b : Nat → Val}
    {ix : Ix} {l : Nat} {v : Val} (x : Warp) (hl : l ∈ actLanes ix (.reg d) srcs) (hv : out l = some v) (hd : d ≠ .nil) :
    readReg (writeOuts x (.reg d) ((actLanes ix (.reg d) srcs).map fun l => (l, valOrCall out k a b l))) d l = v := by
  have hget : (out l).getD nilVal = v := by rw [hv]; rfl
  have hmem : l ∈ (actLanes ix (.reg d) srcs).filter fun l => (out l).isSome := List.mem_filter.mpr ⟨hl, by rw [hv]; rfl⟩
  rw [writeOuts_valOrCall]
  cases d with
  | nil => exact absurd rfl hd
  | lane n => exact (readReg_writeRegs_lane n l _ _ hmem x).trans hget
  | uni n =>
    rw [List.mem_singleton.mp (show l ∈ [ix.low] from hl)] at hget hmem
    have hone : ((actLanes ix (.reg (.uni n)) srcs).filter fun l => (out l).isSome) = [ix.low] :=
      List.filter_eq_self.mpr fun k hk => by
        rw [List.mem_singleton.mp (show k ∈ [ix.low] from hk)]
        exact (List.mem_filter.mp hmem).2
    rw [hone]
    refine (readReg_writeReg x (.uni n) (.uni n) ix.low l _).trans ?_
    simp [isDest, isUni, hget]

/-- A register that no lane with a value writes is as it was. -/
theorem readReg_writeOuts_other {d r : Reg} {out : Nat → Option Val} {key : Nat → Nat × Nat × Nat} {a b : Nat → Val} {ls : List Nat}
    {k : Nat} (x : Warp) (ho : ∀ l ∈ ls, (out l).isSome = true → isDest d r l k = false) :
    readReg (writeOuts x (.reg d) (ls.map fun l => (l, valOrCall out key a b l))) r k = readReg x r k := by
  rw [writeOuts_valOrCall]
  exact readReg_writeRegs_other d r k _ _ (fun l hl => ho l (List.mem_filter.mp hl).1 (List.mem_filter.mp hl).2) x

theorem laneOf_writeOuts_reg (d : Reg) (out : Nat → Option Val) (k : Nat → Nat × Nat × Nat) (a b : Nat → Val) (ls : List Nat) (x : Warp)
    (l : Nat) : laneOf (writeOuts x (.reg d) (ls.map fun l => (l, valOrCall out k a b l))) l = laneOf x l := by
  rw [writeOuts_valOrCall]
  exact laneOf_writeRegs ..

theorem maskReg_writeOuts_reg (d : Reg) (out : Nat → Option Val) (k : Nat → Nat × Nat × Nat) (a b : Nat → Val) (ls : List Nat) (x : Warp)
    (m : Nat) : maskReg (writeOuts x (.reg d) (ls.map fun l => (l, valOrCall out k a b l))) m = maskReg x m := by
  rw [writeOuts_valOrCall, writeRegs_eq]
  rfl

theorem actLanes_reg_pair (ix : Ix) (d a b : Reg) : actLanes ix (.reg d) [a, b] =
    if isUni d = true ∨ (d = .nil ∧ isLane a = false ∧ isLane b = false) then [ix.low] else ix.exe := by
  cases d <;> simp [actLanes, actsOnce, isUni]

/-- Settles O15: nothing is in the way of the calls, so the callers enter their handlers and the lanes with values write them. -/
theorem unexecutedPairCallsItsHandler : Obligations.UnexecutedPairCallsItsHandler := by
  unfold Obligations.UnexecutedPairCallsItsHandler
  intro dst call entered others
  refine ⟨?arith, ?cmpm⟩
  case arith =>
    intro p hp h o s i ix a b acting out key ks c on hm hf
    have hop : ∃ op, p.2.1 = arClass op ∧ p.2.2 = arInt op ∧ ∀ h o s, exec (p.1 h o) s = issued (p.1 h o) h s (arithOp op o) := by
      simp only [List.mem_cons, List.not_mem_nil, or_false] at hp
      rcases hp with rfl | rfl | rfl | rfl | rfl
      exacts [⟨.add, rfl, rfl, fun _ _ _ => rfl⟩, ⟨.sub, rfl, rfl, fun _ _ _ => rfl⟩, ⟨.mul, rfl, rfl, fun _ _ _ => rfl⟩,
        ⟨.div, rfl, rfl, fun _ _ _ => rfl⟩, ⟨.rem, rfl, rfl, fun _ _ _ => rfl⟩]
    obtain ⟨op, hcls, harith, he⟩ := hop
    have hout : out = intResult (arInt op) a b := by rw [← harith]; rfl
    have hkey : key = pairKey (arClass op) a b := by rw [← hcls]; rfl
    have hact : acting = actLanes ix (.reg o.d) [o.a, o.b] := (actLanes_reg_pair ..).symm
    have hdst : dst o.d = destKind (.reg o.d) := by cases o.d <;> rfl
    have hks : ks = (acting.filter fun l => (out l).isNone).map (callWith ix (destKind (.reg o.d)) key a b) := by rw [← hdst]; rfl
    rw [hact] at hks
    have hes : c.entries.map (·.1) = ks := checkCalls_entries hm hf
    have hcur : c.s.cur = s.cur := (checkCalls_cur ..).trans began_cur
    obtain ⟨t, ht, hen⟩ := laneOp_valOrCall (c := c) on.1 (he h o s) rfl (fun l hl => by
      simp only [opVal_began]
      exact arith_valOrCall (on.2 l (mem_actLanes on.1 hl))) (hout ▸ hkey ▸ hks) rfl hm hf
    obtain ⟨hcallers, hothers⟩ := hen.callers (w := warpOf c.s s.cur) (fun _ => laneOf_writeOuts_reg ..) (nodup_actLanes.filter _) hks hes
    simp only [entered, others, hcur]
    refine ⟨t, ht, hes, hcallers, ⟨fun k => (hen.masks k).trans (maskReg_writeOuts_reg ..), hothers⟩, fun l hl v hv hd => ?_,
      fun r k ho => ?_⟩
    · rw [hact] at hl
      exact (hen.regs ..).trans (readReg_writeOuts_own _ hl (hout ▸ hv) hd)
    · rw [hact] at ho
      exact (hen.regs ..).trans (readReg_writeOuts_other _ (hout ▸ ho))
  case cmpm =>
    intro h cc m ra rb sa sb e s i ix a b ks c hcc on hm hf
    have hact : ix.exe.filter (fun l => ((fun _ => none : Nat → Option Val) l).isNone) = ix.exe := List.filter_eq_self.mpr fun _ _ => rfl
    have hks : ks = ix.exe.map (callWith ix (destKind (.mask m)) (fun _ => (6, 9, 1)) a b) := rfl
    have hes : c.entries.map (·.1) = ks := checkCalls_entries hm hf
    have hcur : c.s.cur = s.cur := (checkCalls_cur ..).trans began_cur
    obtain ⟨t, ht, hen⟩ := laneOp_valOrCall (c := c) (d := .mask m) (srcs := [ra, rb]) (out := fun _ => none) on.1 rfl rfl (fun l hl => by
      simp only [opVal_began]
      exact cmpmLane_calls hcc (on.2 l hl).1 (on.2 l hl).2) (hks.trans (congrArg _ hact.symm)) rfl hm hf
    rw [writeOuts_calls] at hen
    obtain ⟨hcallers, hothers⟩ := hen.callers (fun _ => rfl) nodup_exe hks hes
    simp only [entered, others, hcur]
    exact ⟨t, ht, hes, hcallers, ⟨hen.masks, hothers⟩, hen.regs⟩

end Sys2Proof.Laws
end

section
/-! ## What a step may do to a warp (O54)

`look` is what the statement reads of a warp, with what its calls and meeting points depend on. Most of the machine changes no warp's
look (`Alike`), so that its part of the proof is one lemma `<function>_alike` for each function that makes a state of a state. The rest,
masks, lane calls and returns, transfers, exits, traps, SETS and the coming and going of warps, may change it, but only as `WarpKept`
allows; those functions have lemmas `<function>_kept` about `Kept`. -/

namespace Sys2Proof.Machine
open Sys2Proof

/-- What is read of a lane: whether it is alive, and its two call depths. -/
def laneLook (y : Lane) : Bool × Nat × Nat := (isAlive y, y.csd, y.lcd)

/-- What is read of a warp. -/
structure Look where
  live : Bool
  width : Nat
  status : Word
  masks : Nat → Word
  lanes : Nat → Bool × Nat × Nat

def look (x : Warp) : Look := ⟨x.live, x.width, x.status, maskReg x, fun l => laneLook (laneOf x l)⟩

/-- `Warp.wellFormed` in terms of a look. -/
def Look.wellFormed (k : Look) : Prop :=
  (∀ m l, bitAt (k.masks m) l = true → l < k.width ∧ (k.lanes l).1 = true) ∧ (∀ l, (k.lanes l).2.1 ≤ 16 ∧ (k.lanes l).2.2 ≤ 4) ∧
  fld k.status 8 5 ≠ 0 ∧ fld k.status 4 4 = 0 ∧ fld k.status 13 51 = 0

theorem wellFormed_iff_look (x : Warp) : x.wellFormed ↔ (look x).wellFormed := Iff.rfl

/-- Warp y is what a step may make of warp x. -/
structure WarpKept (x y : Warp) : Prop where
  wf : x.wellFormed → y.wellFormed
  live : y.live = true → x.live = true
  priv : y.live = true → super x = false → fld y.status 1 2 = fld x.status 1 2

/-- The warps ws, of which the next is number n, look like those of s. -/
def SameLooks (s : State) (ws : Sparse Warp) (n : Nat) : Prop :=
  n = s.nextWarp ∧ ∀ w, look (spGet Warp.none ws w) = look (warpOf s w)

/-- No warp of t looks different from that of s. -/
structure Alike (s t : State) : Prop where
  of : SameLooks s t.warps t.nextWarp

/-- The warps ws, of which the next is number n, are what a step may make of those of s: of a warp that s does not have yet nothing is
asked but that it is well-formed. -/
def KeptWarps (s : State) (ws : Sparse Warp) (n : Nat) : Prop :=
  s.nextWarp ≤ n ∧ ((∀ w, (warpOf s w).wellFormed) → ∀ w, (spGet Warp.none ws w).wellFormed) ∧
  ∀ w, w < s.nextWarp → (spGet Warp.none ws w).live = true → (warpOf s w).live = true ∧
    (super (warpOf s w) = false → fld (spGet Warp.none ws w).status 1 2 = fld (warpOf s w).status 1 2)

/-- Every warp of t is what a step may make of that of s. -/
structure Kept (s t : State) : Prop where
  of : KeptWarps s t.warps t.nextWarp

/-! ### Warps -/

theorem WarpKept.of_look {x y : Warp} (h : look y = look x) : WarpKept x y := by
  have hlive : y.live = x.live := congrArg Look.live h
  have hstatus : y.status = x.status := congrArg Look.status h
  refine ⟨fun hx => ?_, fun hy => hlive ▸ hy, fun _ _ => by rw [hstatus]⟩
  rw [wellFormed_iff_look, h]
  exact hx

theorem WarpKept.refl (x : Warp) : WarpKept x x := .of_look rfl

/-- SUPER is a bit of the field of which the two bits are kept. -/
theorem super_of_fld {x y : Warp} (h : fld y.status 1 2 = fld x.status 1 2) : super y = super x := by
  have hbit : ∀ w : Word, bitAt w 2 = (fld w 1 2).testBit 1 := fun w => by
    rw [bitAt, fld, bitsOf, Nat.testBit_mod_two_pow, Nat.testBit_shiftRight]
    rfl
  rw [super, super, hbit, hbit, h]

theorem WarpKept.trans {x y z : Warp} (a : WarpKept x y) (b : WarpKept y z) : WarpKept x z := by
  refine ⟨fun h => b.wf (a.wf h), fun h => a.live (b.live h), fun hz hs => ?_⟩
  have hxy := a.priv (b.live hz) hs
  exact (b.priv hz ((super_of_fld hxy).trans hs)).trans hxy

/-! ### States -/

theorem Alike.refl (s : State) : Alike s s := ⟨rfl, fun _ => rfl⟩

theorem Alike.next {s t : State} (h : Alike s t) : t.nextWarp = s.nextWarp := h.of.1

theorem Alike.look {s t : State} (h : Alike s t) (w : Nat) : look (warpOf t w) = look (warpOf s w) := h.of.2 w

theorem Alike.trans {s t u : State} (a : Alike s t) (b : Alike t u) : Alike s u :=
  ⟨b.next.trans a.next, fun w => (b.look w).trans (a.look w)⟩

theorem Kept.next {s t : State} (h : Kept s t) : s.nextWarp ≤ t.nextWarp := h.of.1

theorem Kept.wf {s t : State} (h : Kept s t) : (∀ w, (warpOf s w).wellFormed) → ∀ w, (warpOf t w).wellFormed := h.of.2.1

theorem Kept.old {s t : State} (h : Kept s t) {w : Nat} (hw : w < s.nextWarp) (hl : (warpOf t w).live = true) :
    (warpOf s w).live = true ∧ (super (warpOf s w) = false → fld (warpOf t w).status 1 2 = fld (warpOf s w).status 1 2) :=
  h.of.2.2 w hw hl

theorem Kept.refl (s : State) : Kept s s := ⟨Nat.le_refl _, fun h => h, fun _ _ hl => ⟨hl, fun _ => rfl⟩⟩

/-- A state each of whose warps is what a step may make of it is what a step may make. -/
theorem Kept.of_warps {s t : State} (hn : t.nextWarp = s.nextWarp) (hw : ∀ w, WarpKept (warpOf s w) (warpOf t w)) : Kept s t :=
  ⟨Nat.le_of_eq hn.symm, fun h w => (hw w).wf (h w), fun w _ hl => ⟨(hw w).live hl, (hw w).priv hl⟩⟩

theorem Kept.trans {s t u : State} (a : Kept s t) (b : Kept t u) : Kept s u := by
  refine ⟨Nat.le_trans a.next b.next, fun h => b.wf (a.wf h), fun w hw hl => ?_⟩
  obtain ⟨ht, hfld⟩ := b.old (Nat.lt_of_lt_of_le hw a.next) hl
  obtain ⟨hs, hfld'⟩ := a.old hw ht
  refine ⟨hs, fun h => ?_⟩
  exact (hfld ((super_of_fld (hfld' h)).trans h)).trans (hfld' h)

theorem Alike.kept {s t : State} (h : Alike s t) : Kept s t := .of_warps h.next fun w => .of_look (h.look w)

/-- What no warp's look shows does not matter. -/
theorem Kept.alike {s t u : State} (a : Kept s t) (b : Alike t u) : Kept s u := a.trans b.kept

theorem Alike.then {s t u : State} (a : Alike s t) (b : Kept t u) : Kept s u := a.kept.trans b

/-! ### The results that carry a state -/

/-- An instruction that waits has changed no warp's look; of one that traps the machine keeps the partitions alone. -/
def Res.Kept (s : State) : Res → Prop
  | .ok t => Machine.Kept s t
  | .wait _ t => Alike s t
  | _ => True

def Fetched.Alike (s : State) : Fetched → Prop
  | .ok t _ _ | .fault t _ => Machine.Alike s t
  | .miss _ => True

def CallIn.Alike (s : State) : CallIn → Prop
  | .ok t _ | .fault t _ => Machine.Alike s t
  | .miss _ => True

def Hdrd.Alike (s : State) : Hdrd → Prop
  | .ok t _ | .fault t _ => Machine.Alike s t
  | .miss _ => True

def Bar.Alike (s : State) : Bar → Prop
  | .ok t _ | .call t _ | .fault t _ => Machine.Alike s t
  | .miss _ => True

def TurnRes.Kept (s : State) : TurnRes → Prop
  | .run _ t | .done t => Machine.Kept s t

def RecRead.Alike (s : State) : RecRead → Prop
  | .ok t _ | .fault t _ _ => Machine.Alike s t
  | .miss _ => True

def DRead.Alike (s : State) : DRead → Prop
  | .ok t _ => Machine.Alike s t
  | _ => True

def DVal.Alike (s : State) : DVal → Prop
  | .ok t _ => Machine.Alike s t
  | _ => True

def WaitRes.Alike (s : State) : WaitRes → Prop
  | .yes t => Machine.Alike s t
  | _ => True

/-- The state of a pair is like s, as a structure so that two claims of it are compared by what made the pairs. -/
structure FstAlike {α : Type} (s : State) (p : State × α) : Prop where
  alike : Alike s p.1

/-- The machine answers a next state, which is what a step may make. -/
def Keeps (s : State) (o : Host.Outcome State Fault Refusal) : Prop := ∃ t, o = .next t ∧ Kept s t

/-! ### Branches -/

section
variable {s : State} {c : Prop} [Decidable c]

theorem Alike.ite {t u : State} (ht : Alike s t) (hu : Alike s u) : Alike s (if c then t else u) :=
  iteInduction (motive := Alike s) (fun _ => ht) fun _ => hu

theorem Kept.ite {t u : State} (ht : Kept s t) (hu : Kept s u) : Kept s (if c then t else u) :=
  iteInduction (motive := Kept s) (fun _ => ht) fun _ => hu

theorem Res.Kept.ite {a b : Res} (ha : a.Kept s) (hb : b.Kept s) : (if c then a else b).Kept s :=
  iteInduction (motive := Res.Kept s) (fun _ => ha) fun _ => hb

theorem Fetched.Alike.ite {a b : Fetched} (ha : a.Alike s) (hb : b.Alike s) : (if c then a else b).Alike s :=
  iteInduction (motive := Fetched.Alike s) (fun _ => ha) fun _ => hb

theorem CallIn.Alike.ite {a b : CallIn} (ha : a.Alike s) (hb : b.Alike s) : (if c then a else b).Alike s :=
  iteInduction (motive := CallIn.Alike s) (fun _ => ha) fun _ => hb

theorem Hdrd.Alike.ite {a b : Hdrd} (ha : a.Alike s) (hb : b.Alike s) : (if c then a else b).Alike s :=
  iteInduction (motive := Hdrd.Alike s) (fun _ => ha) fun _ => hb

theorem Bar.Alike.ite {a b : Bar} (ha : a.Alike s) (hb : b.Alike s) : (if c then a else b).Alike s :=
  iteInduction (motive := Bar.Alike s) (fun _ => ha) fun _ => hb

theorem TurnRes.Kept.ite {a b : TurnRes} (ha : a.Kept s) (hb : b.Kept s) : (if c then a else b).Kept s :=
  iteInduction (motive := TurnRes.Kept s) (fun _ => ha) fun _ => hb

theorem DRead.Alike.ite {a b : DRead} (ha : a.Alike s) (hb : b.Alike s) : (if c then a else b).Alike s :=
  iteInduction (motive := DRead.Alike s) (fun _ => ha) fun _ => hb

theorem DVal.Alike.ite {a b : DVal} (ha : a.Alike s) (hb : b.Alike s) : (if c then a else b).Alike s :=
  iteInduction (motive := DVal.Alike s) (fun _ => ha) fun _ => hb

theorem WaitRes.Alike.ite {a b : WaitRes} (ha : a.Alike s) (hb : b.Alike s) : (if c then a else b).Alike s :=
  iteInduction (motive := WaitRes.Alike s) (fun _ => ha) fun _ => hb

theorem FstAlike.ite {α : Type} {p q : State × α} (hp : FstAlike s p) (hq : FstAlike s q) : FstAlike s (if c then p else q) :=
  iteInduction (motive := FstAlike s) (fun _ => hp) fun _ => hq

end

/-- A pair taken apart by a match `M`, whichever of the compiled matches that is. -/
theorem FstAlike.bind {α β : Type} {s : State} {M : State × α → (State → α → State × β) → State × β} {p : State × α}
    {f : State → α → State × β} (hM : ∀ t a f, M (t, a) f = f t a) (hp : Alike s p.1)
    (hf : ∀ t a, Alike s t → FstAlike s (f t a)) : FstAlike s (M p f) := by
  cases p with
  | mk t a => exact hM t a f ▸ hf t a hp

section
variable {s : State}

/-- An instruction that takes effect and changes no warp's look. -/
theorem Res.Kept.ok {t : State} (ht : Machine.Alike s t) : (Res.ok t).Kept s := ht.kept

theorem Res.Kept.of_eq {a b : Res} (h : a.Kept s) (e : a = b) : b.Kept s := e ▸ h

theorem Fetched.Alike.of_eq {a b : Fetched} (h : a.Alike s) (e : a = b) : b.Alike s := e ▸ h

theorem CallIn.Alike.of_eq {a b : CallIn} (h : a.Alike s) (e : a = b) : b.Alike s := e ▸ h

theorem Hdrd.Alike.of_eq {a b : Hdrd} (h : a.Alike s) (e : a = b) : b.Alike s := e ▸ h

theorem Bar.Alike.of_eq {a b : Bar} (h : a.Alike s) (e : a = b) : b.Alike s := e ▸ h

theorem RecRead.Alike.of_eq {a b : RecRead} (h : a.Alike s) (e : a = b) : b.Alike s := e ▸ h

theorem DRead.Alike.of_eq {a b : DRead} (h : a.Alike s) (e : a = b) : b.Alike s := e ▸ h

theorem DVal.Alike.of_eq {a b : DVal} (h : a.Alike s) (e : a = b) : b.Alike s := e ▸ h

theorem WaitRes.Alike.of_eq {a b : WaitRes} (h : a.Alike s) (e : a = b) : b.Alike s := e ▸ h

theorem Keeps.of_kept {t : State} {o : Host.Outcome State Fault Refusal} (h : Kept s t) (ho : Keeps t o) : Keeps s o := by
  obtain ⟨u, e, hu⟩ := ho
  exact ⟨u, e, h.trans hu⟩

end

end Sys2Proof.Machine

namespace Sys2Proof.Laws
open Sys2Proof Sys2Proof.Machine

/-! ### Changes that no look shows -/

/-- A function that does not change what v reads of any value does not change what v reads of a map's values. -/
theorem spGet_spMap_same {α β : Type} [DecidableEq α] {d : α} {f : Nat → α → α} (v : α → β) (hf : ∀ k a, v (f k a) = v a)
    (m : Sparse α) (k : Nat) : v (spGet d (spMap d f m) k) = v (spGet d m k) := by
  have hmap : ∀ m : Sparse α, v (spGet d (m.map (fun e => (e.1, f e.1 e.2))) k) = v (spGet d m k) := by
    intro m
    induction m with
    | nil => rfl
    | cons e r ih =>
      obtain ⟨j, a⟩ := e
      by_cases hj : j = k
      · simp [spGet, hj, hf]
      · simpa [spGet, hj] using ih
  unfold spMap
  simp only []
  split
  · rw [spGet_filter d (fun k => decide (spGet d (m.map (fun e => (e.1, f e.1 e.2))) k ≠ d))]
    split
    · exact hmap m
    next h =>
      have h : spGet d (m.map (fun e => (e.1, f e.1 e.2))) k = d := by simpa using h
      rw [← hmap m, h]
  · exact hmap m

theorem look_mapLanes (x : Warp) {f : Nat → Lane → Lane} (hf : ∀ k y, laneLook (f k y) = laneLook y) :
    look { x with lanes := spMap Lane.none f x.lanes } = look x := by
  have hlanes : (fun l => laneLook (spGet Lane.none (spMap Lane.none f x.lanes) l)) = fun l => laneLook (laneOf x l) :=
    funext fun l => spGet_spMap_same laneLook hf x.lanes l
  exact congrArg (Look.mk x.live x.width x.status (maskReg x)) hlanes

theorem look_setLane (x : Warp) {l : Nat} {y : Lane} (hy : laneLook y = laneLook (laneOf x l)) : look (setLane x l y) = look x := by
  have hlanes : (fun k => laneLook (laneOf (setLane x l y) k)) = fun k => laneLook (laneOf x k) := by
    funext k
    by_cases hk : k = l
    · rw [hk, laneOf_setLane_self, hy]
    · rw [laneOf_setLane_ne _ _ _ hk]
  exact congrArg (Look.mk x.live x.width x.status (maskReg x)) hlanes

theorem look_updLanes (x : Warp) {ls : List Nat} {f : Nat → Lane → Lane} (hf : ∀ l y, laneLook (f l y) = laneLook y) :
    look (updLanes x ls f) = look x := by
  induction ls generalizing x with
  | nil => rfl
  | cons l r ih =>
    rw [updLanes_cons, ih, updLane_eq]
    exact look_setLane x (hf l _)

theorem look_setLpc (x : Warp) (ls : List Nat) (pc : Word) : look (setLpc x ls pc) = look x := look_updLanes x fun _ _ => rfl

theorem look_writeReg (x : Warp) (r : Reg) (l : Nat) (v : Val) : look (writeReg x r l v) = look x := by
  cases r <;> rfl

/-- A fold of changes that no look shows. -/
theorem foldl_look {β : Type} {f : Warp → β → Warp} (hf : ∀ x b, look (f x b) = look x) (l : List β) (x : Warp) :
    look (l.foldl f x) = look x := by
  induction l generalizing x with
  | nil => rfl
  | cons b r ih => exact (ih (f x b)).trans (hf x b)

theorem look_ite {c : Prop} [Decidable c] {x y z : Warp} (hx : look x = look z) (hy : look y = look z) :
    look (if c then x else y) = look z := by
  split <;> assumption

section
variable {s₀ s : State}

/-- A warp that looks the same is written. -/
theorem setWarp_alike {w : Nat} {x : Warp} (hs : Alike s₀ s) (hx : look x = look (warpOf s w)) : Alike s₀ (setWarp s w x) := by
  refine ⟨hs.next, fun v => ?_⟩
  by_cases hv : v = w
  · subst hv
    exact (congrArg look (warpOf_setWarp_self ..)).trans (hx.trans (hs.look v))
  · exact (congrArg look (warpOf_setWarp_ne _ _ _ hv)).trans (hs.look v)

/-- A change of a warp that its look does not show; that it does not is seen by computation where nothing else is given. -/
theorem updWarp_alike {w : Nat} {f : Warp → Warp} (hs : Alike s₀ s) (hf : ∀ x, look (f x) = look x := by exact fun _ => rfl) :
    Alike s₀ (updWarp s w f) :=
  setWarp_alike hs (hf _)

/-- A change of every warp that no look shows. -/
theorem mapWarps_alike {f : Nat → Warp → Warp} (hs : Alike s₀ s) (hf : ∀ k x, look (f k x) = look x) :
    Alike s₀ { s with warps := spMap Warp.none f s.warps } :=
  ⟨hs.next, fun w => (spGet_spMap_same look hf s.warps w).trans (hs.look w)⟩

/-- A wait of warps that ends. -/
theorem wakeWarps_alike {p : Nat → Warp → Prop} [∀ k x, Decidable (p k x)] (hs : Alike s₀ s) :
    Alike s₀ { s with warps := spMap Warp.none (fun k x => if p k x then { x with wait := .none } else x) s.warps } :=
  mapWarps_alike hs fun _ _ => look_ite rfl rfl

/-- A warp that a step may make of the one that stood there is written. -/
theorem setWarp_kept {w : Nat} {x : Warp} (hs : Kept s₀ s) (hx : WarpKept (warpOf s w) x) : Kept s₀ (setWarp s w x) := by
  refine hs.trans (.of_warps rfl fun v => ?_)
  by_cases hv : v = w
  · subst hv
    rw [warpOf_setWarp_self]
    exact hx
  · rw [warpOf_setWarp_ne _ _ _ hv]
    exact .refl _

theorem updWarp_kept {w : Nat} {f : Warp → Warp} (hs : Kept s₀ s) (hf : ∀ x, WarpKept x (f x)) : Kept s₀ (updWarp s w f) :=
  setWarp_kept hs (hf _)

end

end Sys2Proof.Laws
end

section
/-! ## What the instructions make of a warp (O54) -/

namespace Sys2Proof.Laws
open Sys2Proof Sys2Proof.Machine

/-! ### Ways for a warp to stay well-formed -/

/-- A warp whose width and STATUS stand, whose new mask bits are of lanes alive, whose lanes with a mask bit stay alive, and whose lanes'
call depths stay in bounds. -/
theorem warpKept_of_parts {x y : Warp} (hlive : y.live = x.live) (hwidth : y.width = x.width) (hstatus : y.status = x.status)
    (hmask : ∀ m l, maskBit y m l = true → maskBit x m l = true ∨ (l < x.width ∧ isAlive (laneOf x l) = true))
    (halive : ∀ m l, maskBit y m l = true → isAlive (laneOf x l) = true → isAlive (laneOf y l) = true)
    (hdepth : ∀ l, (laneOf x l).csd ≤ 16 ∧ (laneOf x l).lcd ≤ 4 → (laneOf y l).csd ≤ 16 ∧ (laneOf y l).lcd ≤ 4) : WarpKept x y := by
  refine ⟨fun ⟨hmasks, hdepths, hF, hlow, hhigh⟩ => ⟨fun m l hm => ?_, fun l => hdepth l (hdepths l), ?_, ?_, ?_⟩,
    fun h => hlive ▸ h, fun _ _ => by rw [hstatus]⟩
  · rcases hmask m l hm with hx | ⟨hl, hx⟩
    · exact ⟨hwidth ▸ (hmasks m l hx).1, halive m l hm (hmasks m l hx).2⟩
    · exact ⟨hwidth ▸ hl, halive m l hm hx⟩
  · rwa [statusF, hstatus]
  · rwa [hstatus]
  · rwa [hstatus]

/-- A warp whose lanes change, alive lanes staying alive and call depths in bounds. -/
theorem warpKept_of_lanes {x y : Warp} (h : y = { x with lanes := y.lanes })
    (halive : ∀ l, isAlive (laneOf x l) = true → isAlive (laneOf y l) = true)
    (hdepth : ∀ l, (laneOf x l).csd ≤ 16 ∧ (laneOf x l).lcd ≤ 4 → (laneOf y l).csd ≤ 16 ∧ (laneOf y l).lcd ≤ 4) : WarpKept x y :=
  warpKept_of_parts (by rw [h]) (by rw [h]) (by rw [h]) (fun m l hm => .inl (by rw [h] at hm; exact hm)) (fun _ l _ => halive l) hdepth

/-- Each listed lane changes once, an alive one staying alive and its call depths in bounds. -/
theorem updLanes_warpKept (x : Warp) {ls : List Nat} {f : Nat → Lane → Lane} (nd : ls.Nodup)
    (halive : ∀ l ∈ ls, isAlive (laneOf x l) = true → isAlive (f l (laneOf x l)) = true)
    (hdepth : ∀ l ∈ ls, (laneOf x l).csd ≤ 16 ∧ (laneOf x l).lcd ≤ 4 →
      (f l (laneOf x l)).csd ≤ 16 ∧ (f l (laneOf x l)).lcd ≤ 4) : WarpKept x (updLanes x ls f) := by
  refine warpKept_of_lanes (updLanes_eq ..) (fun l h => ?_) fun l h => ?_
  · rw [laneOf_updLanes _ _ _ nd]
    split
    next hl => exact halive l hl h
    · exact h
  · rw [laneOf_updLanes _ _ _ nd]
    split
    next hl => exact hdepth l hl h
    · exact h

/-- A warp whose STATUS alone is read anew: F, its reserved bits and, but for SUPER, the two privileged bits are as they must be. -/
theorem warpKept_of_status {x y : Warp} (h : look y = { look x with status := y.status }) (hF : fld x.status 8 5 ≠ 0 → fld y.status 8 5 ≠ 0)
    (hlow : fld x.status 4 4 = 0 → fld y.status 4 4 = 0) (hhigh : fld x.status 13 51 = 0 → fld y.status 13 51 = 0)
    (hpriv : super x = false → fld y.status 1 2 = fld x.status 1 2) : WarpKept x y := by
  have hlive : y.live = x.live := congrArg Look.live h
  refine ⟨fun hx => ?_, fun hy => hlive ▸ hy, fun _ hs => hpriv hs⟩
  rw [wellFormed_iff_look] at hx ⊢
  rw [h]
  obtain ⟨hmasks, hdepths, h1, h2, h3⟩ := hx
  exact ⟨hmasks, hdepths, hF h1, hlow h2, hhigh h3⟩

theorem foldl_warpKept {β : Type} {f : Warp → β → Warp} (hf : ∀ x b, WarpKept x (f x b)) (l : List β) (x : Warp) :
    WarpKept x (l.foldl f x) := by
  induction l generalizing x with
  | nil => exact .refl x
  | cons b r ih => exact (hf x b).trans (ih _)

/-! ### Traps and STATUS -/

/-- A field beside a bit that is set. -/
theorem fld_setBit (w : Word) {i lo n : Nat} (b : Bool) (h : i < lo ∨ lo + n ≤ i) (hn : lo + n ≤ 64) : fld (setBit w i b) lo n = fld w lo n := by
  refine Nat.eq_of_testBit_eq fun j => ?_
  simp only [fld, bitsOf, Nat.testBit_mod_two_pow, Nat.testBit_shiftRight]
  by_cases hj : j < n
  · have hne : ¬ lo + j = i := by omega
    have hbit := bitAt_setBit w i b (show lo + j < 64 by omega)
    rw [if_neg hne] at hbit
    rw [show (setBit w i b).toNat.testBit (lo + j) = w.toNat.testBit (lo + j) from hbit]
  · simp [hj]

/-- TIP set or cleared, with all that no look shows. -/
theorem tip_warpKept {x y : Warp} {b : Bool} (hs : y.status = setBit x.status 3 b) (h : look y = { look x with status := y.status }) :
    WarpKept x y :=
  warpKept_of_status h (by rw [hs, fld_setBit _ _ (.inl (by decide)) (by decide)]; exact id)
    (by rw [hs, fld_setBit _ _ (.inl (by decide)) (by decide)]; exact id)
    (by rw [hs, fld_setBit _ _ (.inl (by decide)) (by decide)]; exact id)
    fun _ => by rw [hs, fld_setBit _ _ (.inr (by decide)) (by decide)]

/-- A warp of which a look shows STATUS alone to be another. -/
theorem look_with_status {x y z : Warp} (hlook : look y = look x) (hlive : z.live = y.live) (hwidth : z.width = y.width)
    (hmasks : z.masks = y.masks) (hlanes : z.lanes = y.lanes) : look z = { look x with status := z.status } := by
  have hz : look z = { look y with status := z.status } := by
    simp only [look, hlive, hwidth, show maskReg z = maskReg y from funext fun m => by rw [maskReg, maskReg, hmasks],
      show laneOf z = laneOf y from funext fun l => by rw [laneOf, laneOf, hlanes]]
  rw [hz, hlook]

theorem trapWarp_warpKept (x : Warp) (t : TrapRec) : WarpKept x (trapWarp x t) := by
  refine tip_warpKept (b := true) ?_ ?_
  · simp only [trapWarp, settle, updLanes_status]
  · unfold trapWarp
    dsimp only
    generalize hy : updLanes x (lanesOf x) _ = y
    refine look_with_status (y := y) ?_ rfl rfl rfl rfl
    rw [← hy]
    refine look_updLanes x fun l z => ?_
    split
    next ha => exact congrArg (·, z.csd, z.lcd) ha.symm
    · rfl

theorem tretWarp_warpKept (x : Warp) : WarpKept x (tretWarp x) := by
  refine tip_warpKept (b := false) ?_ ?_
  · simp only [tretWarp, settle, updLanes_status]
  · unfold tretWarp
    dsimp only
    generalize hy : updLanes x (lanesOf x) _ = y
    refine look_with_status (y := y) ?_ rfl rfl rfl rfl
    rw [← hy]
    refine look_updLanes x fun l z => congrArg (·, z.csd, z.lcd) ?_
    cases ha : isAlive z with
    | true => rfl
    | false => exact ha

/-- STATUS after SETS: its fields come from the value, and only TIP from before. -/
theorem fld_statusWrite (old v : Word) : fld (statusWrite old v) 8 5 = fld v 8 5 ∧ fld (statusWrite old v) 4 4 = 0 ∧
    fld (statusWrite old v) 13 51 = 0 ∧ fld (statusWrite old v) 1 2 = fld v 1 2 := by
  simp only [statusWrite, fld, wd, BitVec.toNat_ofNat, RT.bitsOf_div]
  omega

/-- A SETS without a cause. -/
theorem writeSpecial_warpKept (x : Warp) (sp : WSpec) (v : Val) (h : setsCauses x sp v = []) : WarpKept x (writeSpecial x sp v) := by
  cases sp
  case status =>
    obtain ⟨hF, hlow, hhigh, hpriv⟩ := fld_statusWrite x.status v.pay
    have hcauses : ((if v.tag = .poison then [Cause.poison] else if !decide (v.tag = .int) then [.ill] else []) ++
        (if WSpec.status = .status ∧ v.tag = .int ∧ fld v.pay 8 5 = 0 then [.ill] else []) ++
        (if decide (v.tag = .int) && !super x && decide (fld v.pay 1 2 ≠ fld x.status 1 2) then [.priv] else [])) = [] := h
    simp only [List.append_eq_nil_iff] at hcauses
    obtain ⟨⟨htag, hill⟩, hp⟩ := hcauses
    have hint : v.tag = .int := by
      by_contra hne
      by_cases hpo : v.tag = .poison
      · simp [hpo] at htag
      · simp [hpo, hne] at htag
    refine warpKept_of_status rfl (fun _ => ?_) (fun _ => hlow) (fun _ => hhigh) fun hs => ?_
    · rw [show (writeSpecial x .status v).status = statusWrite x.status v.pay from rfl, hF]
      intro h0
      simp [hint, h0] at hill
    · rw [show (writeSpecial x .status v).status = statusWrite x.status v.pay from rfl, hpriv]
      by_contra hne
      simp [hint, hs, hne] at hp
  all_goals exact .of_look rfl

/-! ### Masks and JOINs -/

theorem bitAt_lt {w : Word} {i : Nat} (h : bitAt w i = true) : i < 64 := by
  by_contra hi
  rw [bitAt, Nat.testBit_lt_two_pow (Nat.lt_of_lt_of_le w.isLt (Nat.pow_le_pow_right (by decide) (by omega)))] at h
  exact Bool.false_ne_true h

theorem setMask_warpKept (x : Warp) (m : Nat) (v : Word) : WarpKept x (setMask x m v) := by
  refine warpKept_of_parts rfl rfl rfl (fun n l h => ?_) (fun _ _ _ h => h) fun _ h => h
  by_cases hn : n = m
  · subst hn
    rw [maskBit_setMask x n v (bitAt_lt h), Bool.and_eq_true, decide_eq_true_eq] at h
    have ha := List.mem_filter.mp h.2
    exact .inr ⟨List.mem_range.mp ha.1, ha.2⟩
  · rw [maskBit, maskReg_setMask_ne _ _ _ hn] at h
    exact .inl h

/-- Lanes alive pass a JOIN. -/
theorem look_passJoin (x : Warp) (j : Word) {ls : List Nat} (ha : ∀ l ∈ ls, isAlive (laneOf x l) = true) :
    look (passJoin x j ls) = look x := by
  have hlanes : (fun l => laneLook (laneOf (passJoin x j ls) l)) = fun l => laneLook (laneOf x l) := by
    funext l
    rw [passJoin, laneOf_updLanes_const x ls (fun y => { y with lpc := j + 8, act := .ready }) fun _ => rfl]
    split
    next hl => exact congrArg (·, (laneOf x l).csd, (laneOf x l).lcd) (ha l hl).symm
    · rfl
  rw [passJoin_eq]
  exact congrArg (Look.mk x.live x.width x.status (maskReg x)) hlanes

theorem isAlive_of_atJoin {x : Warp} {j : Word} {l : Nat} (h : atJoin x j l = true) : isAlive (laneOf x l) = true := by
  unfold atJoin at h
  cases e : (laneOf x l).act <;> simp [e, isAlive, isReady, isWaiting] at h ⊢

theorem look_rejoinAt (x : Warp) (jm : Word × MaskNo) : look (rejoinAt x jm) = look x := by
  unfold rejoinAt
  dsimp only
  have hout : look (passJoin x jm.1 ((lanesOf x).filter fun l =>
      decide ((laneOf x l).act = .waiting jm.1 jm.2) && !maskBit x jm.2.val l)) = look x := by
    refine look_passJoin x _ fun l hl => ?_
    have hact := (List.mem_filter.mp hl).2
    simp only [Bool.and_eq_true, decide_eq_true_eq] at hact
    simp [isAlive, isWaiting, hact.1]
  generalize passJoin x jm.1 _ = y at *
  split
  next h => exact (look_passJoin y _ fun l hl => isAlive_of_atJoin (List.all_eq_true.mp h.2.2 l hl)).trans hout
  · exact hout

theorem look_rejoin (x : Warp) : look (rejoin x) = look x := foldl_look look_rejoinAt _ x

theorem joinWarp_warpKept (x : Warp) (ix : Ix) (m : MaskNo) : WarpKept x (joinWarp x ix m) := by
  unfold joinWarp
  dsimp only
  split
  · exact .refl x
  have hlpc := look_setLpc x (ix.exe.filter fun l => maskBit x m.val l) ix.pc
  refine (WarpKept.of_look hlpc).trans ?_
  generalize setLpc x _ ix.pc = y at *
  split
  next h => exact .of_look (look_passJoin y _ fun l hl => isAlive_of_atJoin (List.all_eq_true.mp h l hl))
  · have hlane := laneOf_updLanes_const y (ix.exe.filter fun l => maskBit x m.val l)
      (fun z => { z with act := .waiting ix.pc m }) fun _ => rfl
    refine warpKept_of_lanes (updLanes_eq ..) (fun l h => ?_) fun l h => ?_
    · rw [hlane]
      split
      · rfl
      · exact h
    · rw [hlane]
      split <;> exact h

/-- Lanes exit: their mask bits go with them. -/
theorem exitLanes_warpKept (x : Warp) (ls : List Nat) : WarpKept x (exitLanes x ls) := by
  have hlane : ∀ l, laneOf (exitLanes x ls) l =
      if l ∈ ls then { laneOf x l with act := .exited, resv := none, lcd := 0 } else laneOf x l :=
    laneOf_updLanes_const x ls (fun y => { y with act := .exited, resv := none, lcd := 0 }) fun _ => rfl
  have hmask : ∀ m, maskReg (exitLanes x ls) m = maskReg x m &&& ~~~ laneSet ls := fun m => by
    refine (spGet_spMap 0 (fun _ w => w &&& ~~~ laneSet ls) (fun _ => BitVec.zero_and) _ m).trans ?_
    rw [show spGet 0 (updLanes x ls fun _ y => { y with act := .exited, resv := none, lcd := 0 }).masks m = maskReg x m from
      congrArg (fun k => spGet 0 k m) (updLanes_masks ..)]
  refine warpKept_of_parts ?_ ?_ ?_ (fun m l h => .inl ?_) (fun m l h ha => ?_) fun l h => ?_
  · exact updLanes_live ..
  · exact updLanes_width ..
  · exact updLanes_status ..
  · rw [maskBit, hmask, bitAt_and, Bool.and_eq_true] at h
    exact h.1
  · rw [maskBit, hmask, bitAt_and, Bool.and_eq_true] at h
    have hl : l ∉ ls := by
      have hbit := h.2
      rw [bitAt_not _ (bitAt_lt h.1), bitAt_laneSet _ (bitAt_lt h.1)] at hbit
      simpa using hbit
    rw [hlane, if_neg hl]
    exact ha
  · rw [hlane]
    split
    · exact ⟨h.1, Nat.zero_le _⟩
    · exact h

/-! ### Results -/

theorem look_writeRegs {d : Reg} {β : Type} {g : β → Nat} {v : Warp → β → Val} (ls : List β) (x : Warp) :
    look (ls.foldl (fun y b => writeReg y d (g b) (v y b)) x) = look x :=
  foldl_look (fun _ _ => look_writeReg ..) ls x

theorem writeOut_warpKept (x : Warp) (d : LDst) (l : Nat) (v : Val) : WarpKept x (writeOut x d l v) := by
  cases d with
  | reg r => exact .of_look (look_writeReg ..)
  | mask m => exact setMask_warpKept ..

/-- The lanes of a warp have the call depths of another's. -/
def SameDepths (x y : Warp) : Prop := ∀ l, (laneOf y l).csd = (laneOf x l).csd ∧ (laneOf y l).lcd = (laneOf x l).lcd

theorem sameDepths_of_look {x y : Warp} (h : look y = look x) : SameDepths x y := fun l => by
  have hl : laneLook (laneOf y l) = laneLook (laneOf x l) := congrFun (congrArg Look.lanes h) l
  exact ⟨congrArg (·.2.1) hl, congrArg (·.2.2) hl⟩

theorem SameDepths.trans {x y z : Warp} (a : SameDepths x y) (b : SameDepths y z) : SameDepths x z := fun l =>
  ⟨(b l).1.trans (a l).1, (b l).2.trans (a l).2⟩

theorem writeOut_sameDepths (x : Warp) (d : LDst) (l : Nat) (v : Val) : SameDepths x (writeOut x d l v) := by
  cases d with
  | reg r => exact sameDepths_of_look (look_writeReg ..)
  | mask m => exact fun _ => ⟨rfl, rfl⟩

/-- The results of a lane instruction. -/
theorem writeOuts_kept (x : Warp) (d : LDst) (outs : List (Nat × LOut)) :
    WarpKept x (writeOuts x d outs) ∧ SameDepths x (writeOuts x d outs) := by
  have hfold : ∀ outs : List (Nat × LOut), ∀ x, let y := outs.foldl (fun x o => match o.2 with | .val v => writeOut x d o.1 v | _ => x) x
      WarpKept x y ∧ SameDepths x y := by
    intro outs
    induction outs with
    | nil => exact fun x => ⟨.refl x, fun _ => ⟨rfl, rfl⟩⟩
    | cons o r ih =>
      intro x
      obtain ⟨l, out⟩ := o
      cases out with
      | val v =>
        obtain ⟨hk, hd⟩ := ih (writeOut x d l v)
        exact ⟨(writeOut_warpKept x d l v).trans hk, (writeOut_sameDepths x d l v).trans hd⟩
      | _ => exact ih x
  obtain ⟨hk, hd⟩ := hfold outs x
  unfold writeOuts
  dsimp only
  generalize outs.foldl (fun x o => match o.2 with | .val v => writeOut x d o.1 v | _ => x) x = y at *
  cases d with
  | reg r => exact ⟨hk, hd⟩
  | mask m =>
    dsimp only
    split
    · exact ⟨hk.trans (.of_look (look_rejoin y)), hd.trans (sameDepths_of_look (look_rejoin y))⟩
    · exact ⟨hk, hd⟩

/-! ### Calls and returns -/

/-- The checks of a lane call before its handler's address is read (R96). -/
def CanCall (y : Lane) : Prop := ¬ (y.lcd = 4 ∨ (1 ≤ y.lcd ∧ 14 < y.csd))

theorem isAlive_enterCall (y : Lane) (k : LCall) (entry : Word) : isAlive (enterCall y k entry) = isAlive y := by
  unfold enterCall
  dsimp only
  split <;> rfl

theorem enterCall_depths {y : Lane} (hc : CanCall y) (k : LCall) (entry : Word) (h : y.csd ≤ 16 ∧ y.lcd ≤ 4) :
    (enterCall y k entry).csd ≤ 16 ∧ (enterCall y k entry).lcd ≤ 4 := by
  unfold CanCall at hc
  unfold enterCall
  by_cases hin : 1 ≤ y.lcd
  · simp only [hin, if_true]
    omega
  · simp only [hin, if_false]
    omega

/-- The calls of distinct lanes that can call. -/
theorem called_warpKept (x : Warp) {es : List (LCall × Word)} (nd : (es.map (·.1.lane)).Nodup) (hc : ∀ e ∈ es, CanCall (laneOf x e.1.lane)) :
    WarpKept x (called x es) := by
  have hlane : ∀ l, laneOf (enterLanes x es) l = laneOf x l ∨
      CanCall (laneOf x l) ∧ ∃ k entry, laneOf (enterLanes x es) l = enterCall (laneOf x l) k entry := fun l => by
    by_cases hl : ∃ e ∈ es, e.1.lane = l
    · obtain ⟨e, he, rfl⟩ := hl
      exact .inr ⟨hc e he, _, _, laneOf_enterLanes_caller es he nd x⟩
    · exact .inl (laneOf_enterLanes_other es (fun e he g => hl ⟨e, he, g⟩) x)
  have henter : WarpKept x (enterLanes x es) := by
    refine warpKept_of_lanes (enterLanes_eq es x) (fun l h => ?_) fun l h => ?_
    · rcases hlane l with e | ⟨_, k, entry, e⟩
      · rw [e]
        exact h
      · rw [e]
        exact (isAlive_enterCall ..).trans h
    · rcases hlane l with e | ⟨hcan, k, entry, e⟩
      · rw [e]
        exact h
      · rw [e]
        exact enterCall_depths hcan k entry h
  unfold called
  split
  · exact .refl x
  · exact henter.trans (.of_look rfl)

theorem lretWarp_warpKept (x : Warp) {ix : Ix} (nd : ix.exe.Nodup) (a : Reg) : WarpKept x (lretWarp x ix a) := by
  unfold lretWarp
  dsimp only
  have hwrites : WarpKept x (ix.exe.reverse.foldl (fun y l => lretWrite y l (readReg x a l)) x) := by
    refine foldl_warpKept (fun y l => ?_) _ x
    unfold lretWrite
    split
    · exact .of_look (look_writeReg ..)
    · exact setMask_warpKept ..
    · exact .refl y
  generalize ix.exe.reverse.foldl _ x = y at *
  have hlanes : WarpKept y (settle (updLanes y ix.exe fun _ z => lretLane z)) := by
    refine WarpKept.trans (updLanes_warpKept y nd (fun l _ h => ?_) fun l _ h => ?_) (.of_look rfl)
    · rw [lretLane_eq]
      exact h
    · rw [lretLane_eq]
      dsimp only
      split <;> omega
  generalize settle _ = z at *
  split
  · exact (hwrites.trans hlanes).trans (.of_look (look_rejoin z))
  · exact hwrites.trans hlanes

/-! ### Changes that no look shows -/

theorem look_stopWarp (x : Warp) : look (stopWarp x) = look x := look_updLanes x (f := fun _ y => { y with resv := none }) fun _ _ => rfl

theorem look_backToSleep (x : Warp) : look (backToSleep x) = look x := by
  unfold backToSleep
  split
  · exact look_setLpc ..
  · rfl

theorem look_setSpecial (x : Warp) (ls : List Nat) (sp : LSpec) (v : Nat → Val) :
    look (updLanes x ls fun l y => setSpecial y sp (v l)) = look x :=
  look_updLanes x fun _ _ => by cases sp <;> rfl

theorem look_subPend (x : Warp) (k : Nat) : look (subPend x k) = look x := rfl

theorem look_addPend (x : Warp) (k : Nat) : look (addPend x k) = look x := rfl

theorem look_writeDst (x : Warp) (d : Dst) (v : Val) : look (writeDst x d v) = look x := by
  cases d <;> rfl

end Sys2Proof.Laws
end

section
/-! ## What changes no warp's look, and what a step may make of a warp (O54)

In the order of the model's files. -/

namespace Sys2Proof.Laws
open Sys2Proof Sys2Proof.Machine

-- One proof at a time: side by side these many short ones ask for more memory than the check allows.
set_option Elab.async false

variable {s₀ : State}

theorem keeps_next {s t : State} (h : Alike s s → Alike s t) : Keeps s (.next t) := ⟨t, rfl, (h (.refl s)).kept⟩

theorem keeps_kept {s t : State} (h : Kept s s → Kept s t) : Keeps s (.next t) := ⟨t, rfl, h (.refl s)⟩

theorem fst_ite_alike {α : Type} {c : Prop} [Decidable c] {p q : State × α} (hp : Alike s₀ p.1) (hq : Alike s₀ q.1) :
    Alike s₀ (if c then p else q).1 := by
  split <;> assumption

theorem snd_ite_alike {α : Type} {c : Prop} [Decidable c] {p q : α × State} (hp : Alike s₀ p.2) (hq : Alike s₀ q.2) :
    Alike s₀ (if c then p else q).2 := by
  split <;> assumption

theorem fst_alike_of_eq {α : Type} {p : State × α} {t : State} {a : α} (hp : Alike s₀ p.1) (e : p = (t, a)) : Alike s₀ t := by
  subst e
  exact hp

theorem elim_alike {α : Type} {s : State} {o : Option α} {f : α → State} (hs : Alike s₀ s) (hf : ∀ a, Alike s₀ (f a)) :
    Alike s₀ (o.elim s f) := by
  cases o with
  | none => exact hs
  | some a => exact hf a

/-! ### Loops -/

theorem foldl_alike {β : Type} {f : State → β → State} (hf : ∀ s b, Alike s₀ s → Alike s₀ (f s b)) {l : List β} {s : State}
    (hs : Alike s₀ s) : Alike s₀ (l.foldl f s) :=
  foldl_induct hf hs

theorem foldl_kept {β : Type} {f : State → β → State} (hf : ∀ s b, Kept s₀ s → Kept s₀ (f s b)) {l : List β} {s : State}
    (hs : Kept s₀ s) : Kept s₀ (l.foldl f s) :=
  foldl_induct hf hs

theorem foldl_fst_alike {α β : Type} {f : State × α → β → State × α} (hf : ∀ p b, Alike s₀ p.1 → Alike s₀ (f p b).1)
    {l : List β} {p : State × α} (hp : Alike s₀ p.1) : Alike s₀ (l.foldl f p).1 :=
  foldl_induct (P := fun p : State × α => Alike s₀ p.1) hf hp

section
variable {s₀ s : State}

/-! ### What the machine keeps beside the warps

A state that differs in other fields alone has warps that look alike. Where the other state is the result of a longer computation the
fact is used through these lemmas, about a variable state, so that comparing the warps computes nothing. -/

theorem withCur_alike {w : Nat} (hs : Alike s₀ s) : Alike s₀ { s with cur := w } := ⟨hs.of⟩

theorem withFree_alike {n : Nat} (hs : Alike s₀ s) : Alike s₀ { s with free := n } := ⟨hs.of⟩

theorem withAnswers_alike {as : List Answer} (hs : Alike s₀ s) : Alike s₀ { s with answers := as } := ⟨hs.of⟩

theorem withAppends_alike {as : List Append} (hs : Alike s₀ s) : Alike s₀ { s with appends := as } := ⟨hs.of⟩

theorem withAttns_alike {as : List AttnOp} (hs : Alike s₀ s) : Alike s₀ { s with attns := as } := ⟨hs.of⟩

theorem withErrlog_alike {l : Sparse (List LogEnt)} {n : Sparse Nat} (hs : Alike s₀ s) :
    Alike s₀ { s with errlog := l, errseq := n } := ⟨hs.of⟩

theorem withAgenda_alike {l : List Turn} (hs : Alike s₀ s) : Alike s₀ { s with agenda := l } := ⟨hs.of⟩

/-! ### Machine/Acc -/

theorem setCore_alike {c : Nat} {x : Core} (hs : Alike s₀ s) : Alike s₀ (setCore s c x) := ⟨hs.of⟩

theorem updCore_alike {c : Nat} {f : Core → Core} (hs : Alike s₀ s) : Alike s₀ (updCore s c f) := setCore_alike hs

theorem setTeam_alike {t : Nat} {x : Team} (hs : Alike s₀ s) : Alike s₀ (setTeam s t x) := ⟨hs.of⟩

theorem updTeam_alike {t : Nat} {f : Team → Team} (hs : Alike s₀ s) : Alike s₀ (updTeam s t f) := setTeam_alike hs

theorem setPart_alike {p : Nat} {x : Machine.Part} (hs : Alike s₀ s) : Alike s₀ (setPart s p x) := ⟨hs.of⟩

theorem updPart_alike {p : Nat} {f : Machine.Part → Machine.Part} (hs : Alike s₀ s) : Alike s₀ (updPart s p f) := setPart_alike hs

theorem setQueue_alike {q : Nat} {x : Queue} (hs : Alike s₀ s) : Alike s₀ (setQueue s q x) := ⟨hs.of⟩

theorem updQueue_alike {q : Nat} {f : Queue → Queue} (hs : Alike s₀ s) : Alike s₀ (updQueue s q f) := setQueue_alike hs

theorem setGrid_alike {g : Nat} {x : Grid} (hs : Alike s₀ s) : Alike s₀ (setGrid s g x) := ⟨hs.of⟩

theorem updGrid_alike {g : Nat} {f : Grid → Grid} (hs : Alike s₀ s) : Alike s₀ (updGrid s g f) := setGrid_alike hs

theorem setGraph_alike {g : Nat} {x : Machine.Graph} (hs : Alike s₀ s) : Alike s₀ (setGraph s g x) := ⟨hs.of⟩

theorem setAsw_alike {g : Nat} {x : Asw} (hs : Alike s₀ s) : Alike s₀ (setAsw s g x) := ⟨hs.of⟩

theorem setWin_alike {w : Nat} {x : Win} (hs : Alike s₀ s) : Alike s₀ (setWin s w x) := ⟨hs.of⟩

theorem takeFree_alike (hs : Alike s₀ s) : Alike s₀ (takeFree s).2 := ⟨hs.of⟩

theorem tellSvc_alike {p : Nat} {r : Report} (hs : Alike s₀ s) : Alike s₀ (tellSvc s p r) := updPart_alike hs

theorem tellRoot_alike {r : Report} (hs : Alike s₀ s) : Alike s₀ (tellRoot s r) := ⟨hs.of⟩

/-! ### Machine/Mem -/

/-- What happens at a home touches no warp. -/
theorem homeSide_alike {t : State} (hs : Alike s₀ s) (h : HomeSide s t) : Alike s₀ t := by
  rw [h.eq]
  exact ⟨hs.of⟩

theorem rawWrite_alike {k : Nat} {data : Word} {mask : BitVec 8} {t : Option Tag} {bad : Bool} (hs : Alike s₀ s) :
    Alike s₀ (rawWrite s k data mask t bad) :=
  homeSide_alike hs (rawWrite_homeSide ..)

theorem setL2_alike {k : Nat} {w : CWord} (hs : Alike s₀ s) : Alike s₀ (setL2 s k w) := ⟨hs.of⟩

theorem l2Clean_alike {k : Nat} (hs : Alike s₀ s) : Alike s₀ (l2Clean s k) := homeSide_alike hs (l2Clean_homeSide ..)

theorem l2Evict_alike {line : Nat} (hs : Alike s₀ s) : Alike s₀ (l2Evict s line) := homeSide_alike hs (l2Evict_homeSide ..)

theorem homeRead_alike {k : Nat} (hs : Alike s₀ s) : Alike s₀ (homeRead s k).1 := homeSide_alike hs (homeRead_homeSide ..)

/-- A warp that loses reservations looks the same. -/
theorem look_loseResv (x : Warp) (k : Nat) :
    look { x with lanes := spMap Lane.none (fun _ y => if y.resv = some k then { y with resv := none } else y) x.lanes } = look x :=
  look_mapLanes x fun _ _ => by split <;> rfl

theorem clearResv_alike {k : Nat} {own : Option Nat} (hs : Alike s₀ s) : Alike s₀ (clearResv s k own) :=
  .ite (mapWarps_alike hs fun _ x => look_ite (look_loseResv x k) rfl) hs

theorem homeWrite_alike {k : Nat} {data : Word} {mask : BitVec 8} {t : Option Tag} {bad : Bool} {own : Option Nat}
    (hs : Alike s₀ s) :
    Alike s₀ (homeWrite s k data mask t bad own) := by
  rcases homeWrite_homeSide s k data mask t bad own with e | h
  · rw [e]
    exact hs
  · exact homeSide_alike (clearResv_alike hs) h

/-! ### Machine/Trans -/

theorem codeNote_alike {page n p ver : Nat} (hs : Alike s₀ s) : Alike s₀ (codeNote s page n p ver) := .ite hs ⟨hs.of⟩

theorem bindPages_alike {p ver : Nat} (hs : Alike s₀ s) : Alike s₀ (bindPages s p ver) :=
  .ite (.ite hs ⟨hs.of⟩) (foldl_alike (fun _ _ => codeNote_alike) (.ite hs ⟨hs.of⟩))

theorem askHost_alike {p : Nat} {ps : List Nat} (hs : Alike s₀ s) : Alike s₀ (askHost s p ps) :=
  foldl_alike (fun _ _ ht => .ite ht (tellRoot_alike ht)) hs

theorem priTaken_alike {p : Nat} (hs : Alike s₀ s) : Alike s₀ (priTaken s p) := .ite hs (updPart_alike hs)

theorem walkOne_alike {w vpn : Nat} {fetch : Bool} (hs : Alike s₀ s) : Alike s₀ (walkOne s w vpn fetch) := by
  unfold walkOne
  dsimp only
  split
  · split
    · exact updCore_alike hs
    · exact updWarp_alike (askHost_alike hs)
  · exact updWarp_alike hs
  · exact updWarp_alike hs

theorem walkDone_alike {w : Nat} (hs : Alike s₀ s) : Alike s₀ (walkDone s w) := by
  unfold walkDone
  split
  · exact foldl_alike (fun _ _ => walkOne_alike) (updWarp_alike hs)
  · exact walkOne_alike (updWarp_alike hs)
  · exact hs

/-! ### Machine/L1 -/

theorem setL1_alike {c k : Nat} {w : CWord} (hs : Alike s₀ s) : Alike s₀ (setL1 s c k w) := updCore_alike hs

theorem tellRefused_alike {p pa : Nat} (hs : Alike s₀ s) : Alike s₀ (tellRefused s p pa) :=
  .ite (.ite (tellSvc_alike hs) (tellSvc_alike (tellSvc_alike hs))) hs

theorem tellDropped_alike {p pa : Nat} (hs : Alike s₀ s) : Alike s₀ (tellDropped s p pa) := tellRefused_alike (tellSvc_alike hs)

theorem l1Clean_alike {c k : Nat} (hs : Alike s₀ s) : Alike s₀ (l1Clean s c k) := by
  unfold l1Clean
  exact .ite hs (.ite (.ite (setL1_alike (homeWrite_alike (setL1_alike hs))) (homeWrite_alike (setL1_alike hs)))
    (tellDropped_alike (setL1_alike hs)))

theorem l1CleanAll_alike {c : Nat} (hs : Alike s₀ s) : Alike s₀ (l1CleanAll s c) := foldl_alike (fun _ _ => l1Clean_alike) hs

theorem l1DropClean_alike {c k : Nat} (hs : Alike s₀ s) : Alike s₀ (l1DropClean s c k) := setL1_alike hs

theorem l1Invalidate_alike {c : Nat} (hs : Alike s₀ s) : Alike s₀ (l1Invalidate s c) :=
  foldl_alike (fun _ _ => l1DropClean_alike) hs

theorem l1Evict_alike {c line : Nat} (hs : Alike s₀ s) : Alike s₀ (l1Evict s c line) :=
  foldl_alike (fun _ _ ht => .ite ht (setL1_alike (l1Clean_alike ht))) hs

theorem l1Room_alike {c line : Nat} (hs : Alike s₀ s) : Alike s₀ (l1Room s c line) := by
  unfold l1Room
  have hfree : Alike s₀ (takeFree s).2 := takeFree_alike hs
  refine .ite hs ?_
  dsimp only
  generalize (takeFree s).2 = u at *
  split
  · exact l1Evict_alike hfree
  · exact hfree

theorem l1FillWord_alike {c k : Nat} (hs : Alike s₀ s) : Alike s₀ (l1FillWord s c k) :=
  .ite hs (setL1_alike (homeRead_alike hs))

theorem l1Read_alike {c p k : Nat} {mask : BitVec 8} {t : Bool} (hs : Alike s₀ s) : Alike s₀ (l1Read s c p k mask t).1 := by
  have hfill : Alike s₀ ((sectorWords k).foldl (fun s k => l1FillWord s c k) (l1Room s c (k / 32))) :=
    foldl_alike (fun _ _ => l1FillWord_alike) (l1Room_alike hs)
  unfold l1Read
  dsimp only
  generalize (sectorWords k).foldl (fun s k => l1FillWord s c k) (l1Room s c (k / 32)) = u at *
  refine fst_ite_alike hs (fst_ite_alike ?_ (tellRefused_alike hs))
  exact .ite (setL1_alike hfill) hfill

theorem l1Write_alike {c k : Nat} {data : Word} {mask : BitVec 8} {t : Option Tag} (hs : Alike s₀ s) :
    Alike s₀ (l1Write s c k data mask t) := by
  unfold l1Write
  exact mapWarps_alike (setL1_alike (l1Room_alike hs)) fun _ x => look_ite (look_loseResv x k) rfl

theorem l2CleanSystem_alike (hs : Alike s₀ s) : Alike s₀ (l2CleanSystem s) := by
  refine foldl_alike (fun t k ht => ?_) hs
  split
  · exact l2Clean_alike ht
  · exact l2Clean_alike ht
  · exact ht

theorem l2DropSystem_alike (hs : Alike s₀ s) : Alike s₀ (l2DropSystem s) := by
  refine foldl_alike (fun t k ht => ?_) hs
  split
  · exact .ite (setL2_alike ht) (setL2_alike ht)
  · exact .ite (setL2_alike ht) (setL2_alike ht)
  · exact ht

theorem release_alike {c : Nat} {sc : Scope} (hs : Alike s₀ s) : Alike s₀ (release s c sc) := by
  have hl1 : Alike s₀ (if 2 ≤ scopeNum sc then l1CleanAll s c else s) := .ite (l1CleanAll_alike hs) hs
  exact .ite (l2CleanSystem_alike hl1) hl1

theorem dropRemote_alike {chip : Nat} (hs : Alike s₀ s) : Alike s₀ (dropRemote s chip) :=
  foldl_alike (fun _ _ ht => .ite (foldl_alike (fun _ _ hu => .ite hu (l1DropClean_alike hu)) ht) ht) hs

theorem dropHeaderAt_alike {c k : Nat} (hs : Alike s₀ s) : Alike s₀ (dropHeaderAt s c k) := .ite (updCore_alike hs) hs

theorem acquire_alike {c : Nat} {sc : Scope} (hs : Alike s₀ s) : Alike s₀ (acquire s c sc) := by
  unfold acquire
  extract_lets s1 s2
  have h1 : Alike s₀ s1 := .ite (updCore_alike (l1Invalidate_alike hs)) hs
  have h2 : Alike s₀ s2 := .ite (dropRemote_alike h1) h1
  exact .ite (l2DropSystem_alike h2) h2

theorem promote_alike {c : Nat} {sc : Scope} (hs : Alike s₀ s) : Alike s₀ (promote s c sc) := release_alike hs

theorem releaserNote_alike {c line : Nat} (hs : Alike s₀ s) : Alike s₀ (releaserNote s c line) := by
  unfold releaserNote
  extract_lets f s1
  have h1 : Alike s₀ s1 := .ite (promote_alike hs) hs
  exact ⟨h1.of⟩

theorem racqAt_alike {c line : Nat} {sc : Scope} (hs : Alike s₀ s) : Alike s₀ (racqAt s c line sc) :=
  .ite ⟨(promote_alike hs).of⟩ hs

theorem fenceRacq_alike {c : Nat} {sc : Scope} (hs : Alike s₀ s) : Alike s₀ (fenceRacq s c sc) :=
  foldl_alike (fun _ _ ht => .ite (l1CleanAll_alike ht) ht) hs

/-! ### Machine/Ops -/

theorem trapOnce_kept {ix : Ix} {c : Cause} : (trapOnce ix c).Kept s₀ := trivial

theorem trapPoison_kept {ix : Ix} {v : Val} : (trapPoison ix v).Kept s₀ := trivial

theorem orTrap_kept {fs : List LFault} (hs : Alike s₀ s) : (orTrap fs s).Kept s₀ := .ite hs.kept trivial

theorem haltWarp_alike {w : Nat} (hs : Alike s₀ s) : Alike s₀ (haltWarp s w) := tellSvc_alike (updWarp_alike hs)

theorem enterTrap_kept {w : Nat} {t : TrapRec} (hs : Kept s₀ s) : Kept s₀ (enterTrap s w t) :=
  .ite (hs.alike (haltWarp_alike (.refl s))) (setWarp_kept hs (trapWarp_warpKept ..))

theorem takeTrap_kept {ix : Ix} {fs : List LFault} {info : Nat} {past : List Nat} (hs : Kept s₀ s) :
    Kept s₀ (takeTrap s ix fs info past) := by
  unfold takeTrap
  split
  · exact hs
  · exact .ite (hs.alike (updWarp_alike (.refl s))) (enterTrap_kept hs)

theorem needWord_alike {w va : Nat} {n : Need} (hs : Alike s₀ s) : (needWord s w va n).Alike s₀ := by
  unfold needWord
  refine .ite hs ?_
  split
  · exact trivial
  · exact hs
  split
  next e => exact fst_alike_of_eq (l1Read_alike hs) e
  next e =>
    have ht := fst_alike_of_eq (l1Read_alike hs) e
    exact .ite ht ht

theorem checkCall_alike {ix : Ix} {k : LCall} (hs : Alike s₀ s) : (checkCall s ix k).Alike s₀ := by
  unfold checkCall
  dsimp only
  refine .ite hs ?_
  split
  · exact trivial
  next e => exact (needWord_alike hs).of_eq e
  next e =>
    have ht := (needWord_alike hs).of_eq e
    exact .ite ht (.ite ht ht)

theorem checkCalls_alike {ix : Ix} {ks : List LCall} (hs : Alike s₀ s) : Alike s₀ (checkCalls s ix ks).s := by
  unfold checkCalls
  refine foldl_induct (P := fun p : CallsIn => Alike s₀ p.s) (fun _ _ ha => ?_) hs
  split
  next e => exact (checkCall_alike ha).of_eq e
  · exact ha
  next e => exact (checkCall_alike ha).of_eq e

/-! A lane call enters a handler: its lane could call when the calls were checked, and nothing has changed its depths since. -/

theorem canCall_of_checkCall {ix : Ix} {k : LCall} {t : State} {e : Word} (h : checkCall s ix k = .ok t e) :
    CanCall (laneOf (warpOf s ix.w) k.lane) := by
  intro hfull
  rw [checkCall] at h
  dsimp only at h
  rw [if_pos hfull] at h
  cases h

/-- Whether a lane can call is seen by its look. -/
theorem canCall_of_depths {x y : Warp} (h : SameDepths x y) {l : Nat} (hc : CanCall (laneOf x l)) : CanCall (laneOf y l) := by
  unfold CanCall at *
  rw [(h l).1, (h l).2]
  exact hc

theorem sameDepths_of_alike (hs : Alike s₀ s) (w : Nat) : SameDepths (warpOf s₀ w) (warpOf s w) := sameDepths_of_look (hs.look w)

theorem checkMore_canCall {ix : Ix} (ks : List LCall) : ∀ a : CallsIn, Alike s₀ a.s →
    (∀ e ∈ a.entries, CanCall (laneOf (warpOf s₀ ix.w) e.1.lane)) →
    ∀ e ∈ (checkMore ix a ks).entries, CanCall (laneOf (warpOf s₀ ix.w) e.1.lane) := by
  induction ks with
  | nil => exact fun _ _ he => he
  | cons k r ih =>
    intro a ha he
    have hk : (checkCall a.s ix k).Alike s₀ := checkCall_alike ha
    refine ih (addCall a k (checkCall a.s ix k)) ?_ ?_
    · cases e : checkCall a.s ix k <;> rw [e] at hk
      case miss => exact ha
      all_goals exact hk
    · cases e : checkCall a.s ix k with
      | ok t w =>
        intro e' he'
        rcases List.mem_append.mp he' with h | h
        · exact he e' h
        · rw [List.mem_singleton.mp h]
          exact canCall_of_depths (sameDepths_of_look (ha.look ix.w).symm) (canCall_of_checkCall e)
      | miss v => exact he
      | fault t f => exact he

/-- The entered calls are among those that were checked, in their order. -/
theorem checkMore_sublist {ix : Ix} (ks : List LCall) : ∀ a : CallsIn, ∃ ks', ks'.Sublist ks ∧
    (checkMore ix a ks).entries.map (·.1) = a.entries.map (·.1) ++ ks' := by
  induction ks with
  | nil => exact fun _ => ⟨[], .slnil, (List.append_nil _).symm⟩
  | cons k r ih =>
    intro a
    obtain ⟨ks', hsub, he⟩ := ih (addCall a k (checkCall a.s ix k))
    cases e : checkCall a.s ix k with
    | ok t w =>
      refine ⟨k :: ks', hsub.cons_cons k, he.trans ?_⟩
      rw [e]
      simp [addCall]
    | miss v => exact ⟨ks', hsub.cons k, he.trans (by rw [e]; rfl)⟩
    | fault t f => exact ⟨ks', hsub.cons k, he.trans (by rw [e]; rfl)⟩

theorem nodup_entries {ix : Ix} {ks : List LCall} (nd : (ks.map (·.lane)).Nodup) :
    ((checkCalls s ix ks).entries.map (·.1.lane)).Nodup := by
  obtain ⟨ks', hsub, he⟩ := checkMore_sublist (ix := ix) ks ⟨s, [], [], []⟩
  rw [← checkCalls_eq] at he
  have hmap : (checkCalls s ix ks).entries.map (·.1.lane) = ks'.map (·.lane) := by
    rw [← List.nil_append ks', ← show (⟨s, [], [], []⟩ : CallsIn).entries.map (·.1) ++ ks' = [] ++ ks' from rfl, ← he, List.map_map]
    rfl
  rw [hmap]
  exact (hsub.map _).nodup nd

theorem enterCalls_kept {ix : Ix} {es : List (LCall × Word)} (hs : Kept s₀ s) (nd : (es.map (·.1.lane)).Nodup)
    (hc : ∀ e ∈ es, CanCall (laneOf (warpOf s ix.w) e.1.lane)) : Kept s₀ (enterCalls s ix es) := by
  have hw := called_warpKept (warpOf s ix.w) nd hc
  unfold called at hw
  unfold enterCalls
  split
  · exact hs
  next hne =>
    rw [if_neg hne] at hw
    exact setWarp_kept hs hw

/-- The end of an instruction that may call, of which f is a change that keeps call depths. -/
theorem finishCalls_effect {ix : Ix} {ks : List LCall} {fs : List LFault} {misses : List Nat} {f : State → State} (hs : Alike s₀ s)
    (nd : (ks.map (·.lane)).Nodup)
    (hf : ∀ t, Alike s₀ t → Kept s₀ (f t) ∧ SameDepths (warpOf s₀ ix.w) (warpOf (f t) ix.w)) :
    (finishCalls s ix ks fs misses f).Kept s₀ := by
  have hc : ∀ e ∈ (checkCalls s ix ks).entries, CanCall (laneOf (warpOf s₀ ix.w) e.1.lane) := by
    rw [checkCalls_eq]
    exact checkMore_canCall ks _ hs fun _ h => absurd h List.not_mem_nil
  obtain ⟨hk, hd⟩ := hf _ (checkCalls_alike (ks := ks) (ix := ix) hs)
  exact .ite (checkCalls_alike hs) (.ite trivial (enterCalls_kept hk (nodup_entries nd) fun e he => canCall_of_depths hd (hc e he)))

theorem finishCalls_kept {ix : Ix} {ks : List LCall} {fs : List LFault} {misses : List Nat} {f : State → State} (hs : Alike s₀ s)
    (nd : (ks.map (·.lane)).Nodup) (hf : ∀ t, Alike s₀ t → Alike s₀ (f t)) : (finishCalls s ix ks fs misses f).Kept s₀ :=
  finishCalls_effect hs nd fun t ht => ⟨(hf t ht).kept, sameDepths_of_alike (hf t ht) ix.w⟩

theorem addReq_alike {c : Nat} {r : Req} (hs : Alike s₀ s) : Alike s₀ (addReq s c r).1 := by
  unfold addReq
  dsimp only
  refine updWarp_alike (setCore_alike hs) fun x => foldl_look (fun y o => ?_) _ x
  split
  · exact look_addPend y _
  · rfl

theorem wakeRequests_alike {c w : Nat} (hs : Alike s₀ s) : Alike s₀ (wakeRequests s c w) := wakeWarps_alike hs

theorem endReq_alike {c n : Nat} {vals : List (Dst × Val)} (hs : Alike s₀ s) : Alike s₀ (endReq s c n vals) := by
  unfold endReq
  split
  · exact hs
  · refine wakeRequests_alike (updWarp_alike (updCore_alike hs) fun x => ?_)
    refine (foldl_look (fun y o => ?_) _ _).trans (foldl_look (fun _ _ => look_writeDst ..) _ x)
    split
    · exact look_subPend y _
    · rfl

theorem wakeDrained_alike {w : Nat} (hs : Alike s₀ s) : Alike s₀ (wakeDrained s w) := by
  unfold wakeDrained
  split
  · exact .ite hs (updWarp_alike hs)
  · exact .ite hs (updWarp_alike hs)
  · exact hs

theorem tableBoundary_alike {c : Nat} (hs : Alike s₀ s) : Alike s₀ (tableBoundary s c) := updCore_alike hs

/-! ### Machine/Operands -/

theorem nodup_act {ix : Ix} (nd : ix.exe.Nodup) (d : LDst) (srcs : List Reg) : (actLanes ix d srcs).Nodup := by
  unfold actLanes
  split
  · exact List.nodup_singleton _
  · exact nd

/-- The calls of a lane instruction are of its lanes, in their order. -/
theorem callsOf_sublist (ix : Ix) (d : LDst) (outs : List (Nat × LOut)) :
    ((callsOf ix d outs).map (·.lane)).Sublist (outs.map (·.1)) := by
  induction outs with
  | nil => exact .slnil
  | cons o r ih =>
    obtain ⟨l, out⟩ := o
    unfold callsOf at *
    cases out with
    | call cls ta tb a b c =>
      rw [List.filterMap_cons]
      exact ih.cons_cons l
    | _ =>
      rw [List.filterMap_cons]
      exact ih.cons l

theorem laneOp_kept {ix : Ix} {d : LDst} {srcs : List Reg} {f : Nat → LOut} (nd : ix.exe.Nodup) (hs : Alike s₀ s) :
    (laneOp ix s d srcs f).Kept s₀ := by
  unfold laneOp
  refine finishCalls_effect hs ((callsOf_sublist ..).nodup ?_) fun t ht => ?_
  · rw [List.map_map]
    exact (List.map_id (actLanes ix d srcs)).symm ▸ nodup_act nd d srcs
  · obtain ⟨hk, hd⟩ := writeOuts_kept (warpOf t ix.w) d ((actLanes ix d srcs).map fun l => (l, f l))
    refine ⟨setWarp_kept ht.kept hk, (sameDepths_of_alike ht ix.w).trans ?_⟩
    rw [updWarp_eq, warpOf_setWarp_self]
    exact hd

/-! ### Machine/Issue -/

theorem setRun_alike {c p : Nat} {r : Run} (hs : Alike s₀ s) : Alike s₀ (setRun s c p r) := updCore_alike hs

theorem closeRun_alike {w : Nat} {r : Run} (hs : Alike s₀ s) : Alike s₀ (closeRun s w r) := by
  unfold closeRun
  exact tableBoundary_alike (setRun_alike (setWarp_alike hs (look_ite (look_stopWarp _) rfl)))

theorem endRun_alike {w : Nat} (hs : Alike s₀ s) : Alike s₀ (endRun s w) := closeRun_alike hs

theorem trapRun_kept {ix : Ix} {fs : List LFault} {info : Nat} {past : List Nat} (hs : Kept s₀ s) :
    Kept s₀ (trapRun s ix fs info past) :=
  takeTrap_kept (hs.alike (closeRun_alike (.refl s)))

theorem afterIssue_alike {w : Nat} {r : Run} {ends : Bool} {next : Word} (hs : Alike s₀ s) :
    Alike s₀ (afterIssue s w r ends next) :=
  .ite (closeRun_alike (setWarp_alike hs rfl)) (setRun_alike (setWarp_alike hs rfl))

theorem sendLate_alike {i : Instr} {ix : Ix} (hs : Alike s₀ s) : Alike s₀ (sendLate i ix s) :=
  updCore_alike (updWarp_alike hs fun x => foldl_look look_addPend _ x)

theorem putBack_alike {w : Nat} {x0 : Warp} {grp : List Nat} {pc : Word} {k : Wait} (hs : Alike s₀ s) :
    Alike s₀ (putBack s w x0 grp pc k) :=
  updWarp_alike hs fun x => look_setLpc x grp pc

theorem look_markResults (x : Warp) (i : Instr) (h : Hdr) (grp exe : List Nat) : look (markResults x i h grp exe) = look x :=
  foldl_look (f := fun x k => { x with
    readyAt := spSet 0 x.readyAt k (if (inHandler _ grp && decide ((latency i).getD 0 ≠ 0)) = true then x.slots + (latency i).getD 0 else 0)
    readyOut := spSet 0 x.readyOut k (if (!inHandler _ grp && decide ((latency i).getD 0 ≠ 0)) = true then
      x.outer + (latency i).getD 0 else 0) }) (fun _ _ => rfl) _ x

theorem begun_alike {i : Instr} {h : Hdr} {ix : Ix} (hs : Alike s₀ s) : Alike s₀ (begun i h s ix) := by
  unfold begun
  exact updWarp_alike (updCore_alike (setWarp_alike hs ((look_markResults ..).trans (look_setLpc ..))))

theorem takeRecorded_kept {ix : Ix} {f : LFault} {granules tiles : List Nat} {extra : List LFault} (hs : Kept s₀ s) :
    Kept s₀ (takeRecorded s ix f granules tiles extra) :=
  trapRun_kept (hs.alike (.ite (updTeam_alike (.refl s)) (.refl s)))

theorem takeDue_kept {ix : Ix} (hs : Kept s₀ s) : Kept s₀ (takeDue s ix) := trapRun_kept (hs.alike (updWarp_alike (.refl s)))

/-- The lanes that an instruction executes in are distinct. -/
theorem nodup_issueIx (i : Instr) (h : Hdr) (x : Warp) (w : Nat) (pc : Word) : (issueIx i h x w pc).exe.Nodup :=
  (((sublist_exeLanes x h _).trans (sublist_lanesAt x pc)).trans List.filter_sublist).nodup (nodup_lanesOf x)

theorem issueBody_kept {i : Instr} {h : Hdr} {ix : Ix} {body : Ix → State → Res} (nd : ix.exe.Nodup)
    (hbody : ∀ ix t, ix.exe.Nodup → Alike t t → (body ix t).Kept t) :
    (if ix.exe = [] then Res.ok (begun i h s ix) else body ix (begun i h s ix)).Kept (begun i h s ix) := by
  split
  · exact Kept.refl _
  · exact hbody _ _ nd (.refl _)

theorem issueInstr_kept {i : Instr} {h : Hdr} {body : Ix → State → Res}
    (hbody : ∀ ix t, ix.exe.Nodup → Alike t t → (body ix t).Kept t) : Kept s (issueInstr i h s body) := by
  unfold issueInstr
  dsimp only
  split
  case h_1 => exact .refl s
  case h_2 pc _ =>
    have hs : Kept s s := .refl s
    have ha : Alike s s := .refl s
    have hbegun : Alike s (begun i h s (issueIx i h (warpOf s s.cur) s.cur pc)) := begun_alike ha
    have hres := issueBody_kept (s := s) (i := i) (h := h) (nodup_issueIx i h (warpOf s s.cur) s.cur pc) hbody
    refine .ite hs (.ite (takeDue_kept hs) (.ite (trapRun_kept hs) (.ite (hs.alike (endRun_alike ha)) ?_)))
    split
    case h_1 e => exact .ite (trapRun_kept hs) (hs.alike (endRun_alike (putBack_alike (hbegun.trans (hres.of_eq e)))))
    case h_2 => exact trapRun_kept hs
    case h_3 => exact trapRun_kept ⟨hs.of⟩
    case h_4 => exact takeRecorded_kept hs
    case h_5 t e =>
      have ht : Kept s t := hbegun.then (hres.of_eq e)
      exact .ite (trapRun_kept hs) (ht.alike (afterIssue_alike (.ite (.refl t) (sendLate_alike (.refl t)))))

theorem issued_keeps {i : Instr} {h : Hdr} {body : Ix → State → Res}
    (hbody : ∀ ix t, ix.exe.Nodup → Alike t t → (body ix t).Kept t) : Keeps s (issued i h s body) := ⟨_, rfl, issueInstr_kept hbody⟩

/-! ### Machine/Fetch -/

theorem ibufRoom_alike {c : Nat} (hs : Alike s₀ s) : Alike s₀ (ibufRoom s c) := .ite hs (updCore_alike (takeFree_alike hs))

theorem fillLine_alike {c line : Nat} (hs : Alike s₀ s) : Alike s₀ (fillLine s c line) := by
  unfold fillLine
  refine foldl_alike (fun t w ht => ?_) hs
  extract_lets ver s1 s2 s3 r s4
  have h1 : Alike s₀ s1 := codeNote_alike ht
  have h3 : Alike s₀ s3 := ibufRoom_alike (updCore_alike h1)
  have hr : Alike s₀ r.1 := by
    refine foldl_fst_alike (fun a k ha => ?_) h3
    exact homeRead_alike ha
  exact updWarp_alike (.ite h1 (updCore_alike hr))

theorem wakeYield_alike {c p : Nat} {w : Option Nat} (hs : Alike s₀ s) : Alike s₀ (wakeYield s c p w) := wakeWarps_alike hs

theorem wakeTable_alike {c : Nat} (hs : Alike s₀ s) : Alike s₀ (wakeTable s c) :=
  .ite (foldl_alike (fun _ _ => wakeDrained_alike) hs) hs

theorem look_runStart (x : Warp) : look (runStart x) = look x := by
  unfold runStart
  split
  · split <;> rfl
  · rfl

theorem selectRun_alike {c p : Nat} (hs : Alike s₀ s) : Alike s₀ (selectRun s c p) := by
  unfold selectRun
  refine .ite hs ?_
  split
  · exact wakeYield_alike hs
  · exact wakeYield_alike (setRun_alike (setWarp_alike hs (look_runStart _)))

theorem fetchFault_kept {w : Nat} {pc at_ : Word} {c : Cause} (hs : Kept s₀ s) : Kept s₀ (fetchFault s w pc at_ c) :=
  trapRun_kept hs

theorem takeTurn_kept {c p : Nat} : (takeTurn s c p).Kept s := by
  have hs : Kept s s := .refl s
  have ha : Alike s s := .refl s
  unfold takeTurn
  extract_lets r w x
  refine .ite (selectRun_alike (wakeTable_alike ha)).kept ?_
  split
  · exact (endRun_alike ha).kept
  refine .ite hs (.ite (endRun_alike ha).kept (.ite (takeDue_kept hs) ?_))
  split
  · exact (withCur_alike (updWarp_alike ha)).kept
  · exact fetchFault_kept hs
  · exact fetchFault_kept (tellRefused_alike ha).kept
  · exact (endRun_alike (updWarp_alike ha)).kept
  · exact (endRun_alike (updWarp_alike ha)).kept

/-! ### Machine/Mmio -/

theorem tailWrite_alike {q : Nat} {v : BitVec 32} (hs : Alike s₀ s) : Alike s₀ (tailWrite s q v) := updQueue_alike hs

theorem cheadWrite_alike {q : Nat} {v : BitVec 32} (hs : Alike s₀ s) : Alike s₀ (cheadWrite s q v) := updQueue_alike hs

theorem enableWrite_alike {q : Nat} {v : Word} (hs : Alike s₀ s) : Alike s₀ (enableWrite s q v) := updQueue_alike hs

theorem queueWrite_alike {q off : Nat} {v : Word} (hs : Alike s₀ s) : Alike s₀ (queueWrite s q off v) := by
  unfold queueWrite
  split
  · exact updQueue_alike hs
  · exact enableWrite_alike hs
  · exact tailWrite_alike hs
  · exact updQueue_alike hs
  · exact updQueue_alike hs
  · exact cheadWrite_alike hs
  · exact updQueue_alike hs
  · exact hs

theorem ptrootSet_alike {p : Nat} {v : Word} (hs : Alike s₀ s) : Alike s₀ (ptrootSet s p v) := updPart_alike hs

theorem tbDrop_alike {p : Nat} (hs : Alike s₀ s) : Alike s₀ (tbDrop s p) := ⟨(foldl_alike (fun _ _ => updCore_alike) hs).of⟩

theorem regionSet_alike {p : Nat} {v : Word} (hs : Alike s₀ s) : Alike s₀ (regionSet s p v) :=
  foldl_alike (fun _ _ => updCore_alike) (updPart_alike hs)

theorem controlWrite_alike {p off : Nat} {v : Word} (hs : Alike s₀ s) : Alike s₀ (controlWrite s p off v) := by
  unfold controlWrite
  split
  · exact ptrootSet_alike hs
  · exact updPart_alike hs
  · exact updPart_alike hs
  · exact .ite (updPart_alike hs) hs
  · exact updPart_alike hs
  · exact regionSet_alike hs
  · exact hs

theorem updOwn_alike {p : Nat} {f : CtlPage → CtlPage} (hs : Alike s₀ s) : Alike s₀ (updOwn s p f) := updPart_alike hs

theorem ownRegionSet_alike {p : Nat} {v : Word} (hs : Alike s₀ s) : Alike s₀ (ownRegionSet s p v) := by
  unfold ownRegionSet
  exact updCore_alike (updOwn_alike hs)

theorem ownWrite_alike {p off : Nat} {v : Word} (hs : Alike s₀ s) : Alike s₀ (ownWrite s p off v) := by
  unfold ownWrite
  split
  · exact updOwn_alike hs
  · exact updOwn_alike hs
  · exact updOwn_alike hs
  · exact .ite (updOwn_alike hs) hs
  · exact updOwn_alike hs
  · exact ownRegionSet_alike hs
  · exact hs

theorem ownDrop_alike {p : Nat} (hs : Alike s₀ s) : Alike s₀ (ownDrop s p) := by
  unfold ownDrop
  extract_lets x s1
  have h1 : Alike s₀ s1 := updCore_alike hs
  exact ⟨h1.of⟩

theorem mmioWrite_alike {c pa : Nat} {v : Word} (hs : Alike s₀ s) : Alike s₀ (mmioWrite s c pa v) := by
  unfold mmioWrite
  split
  · exact queueWrite_alike (.ite (release_alike hs) hs)
  · exact controlWrite_alike hs
  · exact hs

/-! ### Machine/Memory -/

theorem keepHeader_alike {c va k : Nat} {v : Val} (hs : Alike s₀ s) : Alike s₀ (keepHeader s c va k v) := by
  unfold keepHeader
  exact updCore_alike (.ite hs (updCore_alike (takeFree_alike hs)))

theorem readHeader_alike {w va : Nat} (hs : Alike s₀ s) : (readHeader s w va).Alike s₀ := by
  unfold readHeader
  dsimp only
  split
  · exact hs
  split
  · exact trivial
  · exact hs
  · exact .ite (tellRefused_alike hs) (.ite (homeRead_alike hs) (keepHeader_alike (homeRead_alike hs)))

theorem barrier_alike {w : Nat} {v : Val} (hs : Alike s₀ s) : (barrier s w v).Alike s₀ := by
  unfold barrier
  refine .ite ?_ hs
  split
  · exact trivial
  next e => exact (readHeader_alike hs).of_eq e
  next e =>
    have ht := (readHeader_alike hs).of_eq e
    exact .ite ht ht

theorem heal_alike {c k : Nat} {old new : Val} (hs : Alike s₀ s) : Alike s₀ (heal s c k old new) :=
  .ite (dropHeaderAt_alike (l1DropClean_alike (homeWrite_alike (homeRead_alike hs)))) (homeRead_alike hs)

theorem planLane_alike {ix : Ix} {l : Nat} {a b : Val} {off : Int} {al : Nat} {ns : List Need} {bar : Bool} (hs : Alike s₀ s) :
    Alike s₀ (planLane s ix l a b off al ns bar).1 := by
  unfold planLane
  refine fst_ite_alike hs (fst_ite_alike ?_ hs)
  split
  · exact hs
  next e => exact (barrier_alike hs).of_eq e
  next e => exact (barrier_alike hs).of_eq e
  next e => exact (barrier_alike hs).of_eq e

theorem Plans.add_alike {p : Plans} {a : Plan} (hs : Alike s₀ s) : Alike s₀ (Plans.add p s a).s := by
  unfold Plans.add
  split <;> exact hs

theorem planAll_alike {ls : List Nat} {f : State → Nat → State × Plan} (hs : Alike s₀ s)
    (hf : ∀ t l, Alike s₀ t → Alike s₀ (f t l).1) : Alike s₀ (planAll s ls f).s :=
  foldl_induct (P := fun p : Plans => Alike s₀ p.s) (fun _ _ ha => Plans.add_alike (hf _ _ ha)) hs

theorem planMem_alike {ix : Ix} {ls : List Nat} {a b : Reg} {off : BitVec 13} {size al : Nat} {ns : List Need} {bar : Bool}
    (hs : Alike s₀ s) :
    Alike s₀ (planMem s ix ls a b off size al ns bar).s :=
  planAll_alike hs (fun _ _ => planLane_alike)

/-! A plan's accesses and calls are of the lanes that it was made for, each of one lane once. -/

/-- The lanes of a plan's accesses and calls. -/
def planLanes (p : Plans) : List Nat := p.accs.map (·.lane) ++ p.calls.map (·.lane)

/-- A lane's own plan. -/
def PlanOf (l : Nat) : Plan → Prop
  | .ok a => a.lane = l
  | .call k => k.lane = l
  | _ => True

theorem planSum_of (s : State) (ix : Ix) (l : Nat) (a b : Val) (off : Int) (al : Nat) (ns : List Need) :
    PlanOf l (planSum s ix l a b off al ns) := by
  unfold planSum
  split
  · trivial
  · split
    · trivial
    · trivial
    · split
      · trivial
      · rfl

theorem planLane_of (s : State) (ix : Ix) (l : Nat) (a b : Val) (off : Int) (al : Nat) (ns : List Need) (bar : Bool) :
    PlanOf l (planLane s ix l a b off al ns bar).2 := by
  unfold planLane
  dsimp only
  split
  · trivial
  · split
    · split
      · trivial
      · trivial
      · rfl
      · exact planSum_of ..
    · exact planSum_of ..

theorem planLanes_add (p : Plans) (s : State) {l : Nat} {q : Plan} (hq : PlanOf l q) :
    planLanes (p.add s q) = planLanes p ∨ (planLanes (p.add s q)).Perm (l :: planLanes p) := by
  cases q with
  | ok a =>
    right
    rw [← show a.lane = l from hq]
    simp only [planLanes, Plans.add, List.map_append, List.map_cons, List.map_nil, List.append_assoc]
    exact List.perm_middle
  | call k =>
    right
    rw [← show k.lane = l from hq]
    simp only [planLanes, Plans.add, List.map_append, List.map_cons, List.map_nil, ← List.append_assoc]
    exact List.perm_append_singleton _ _
  | _ => exact .inl rfl

theorem planAll_nodup {ls : List Nat} {f : State → Nat → State × Plan} (hf : ∀ t l, PlanOf l (f t l).2) (nd : ls.Nodup) :
    (planLanes (planAll s ls f)).Nodup := by
  have hmore : ∀ (ls : List Nat) (p : Plans), (planLanes p ++ ls).Nodup →
      (planLanes (ls.foldl (fun p l => p.add (f p.s l).1 (f p.s l).2) p)).Nodup := by
    intro ls
    induction ls with
    | nil => exact fun p h => by rwa [List.append_nil] at h
    | cons l r ih =>
      intro p h
      refine ih _ ?_
      rcases planLanes_add p (f p.s l).1 (hf p.s l) with e | e
      · rw [e]
        exact ((List.sublist_cons_self l r).append_left _).nodup h
      · refine (e.append_right r).nodup_iff.mpr ?_
        exact List.perm_middle.nodup_iff.mp h
  exact hmore ls ⟨s, [], [], [], [], []⟩ nd

theorem planMem_nodup {ix : Ix} {ls : List Nat} {a b : Reg} {off : BitVec 13} {size al : Nat} {ns : List Need} {bar : Bool}
    (nd : ls.Nodup) : (planLanes (planMem s ix ls a b off size al ns bar)).Nodup :=
  planAll_nodup (fun _ _ => planLane_of ..) nd

theorem calls_nodup {p : Plans} (nd : (planLanes p).Nodup) : (p.calls.map (·.lane)).Nodup := (List.sublist_append_right _ _).nodup nd

/-- The calls of lanes with an access stand beside those that the plan has. -/
theorem moreCalls_nodup {p : Plans} {ks : List LCall} (nd : (planLanes p).Nodup)
    (hks : (ks.map (·.lane)).Sublist (p.accs.map (·.lane))) : ((p.calls ++ ks).map (·.lane)).Nodup := by
  rw [List.map_append]
  exact (List.perm_append_comm.nodup_iff).mp ((hks.append_right _).nodup nd)

theorem Plans.check_alike {p : Plans} {f : Acc → List LFault} (hs : Alike s₀ p.s) : Alike s₀ (Plans.check p f).s := hs

theorem readAtHome_alike {c k : Nat} (hs : Alike s₀ s) : Alike s₀ (readAtHome s c k) := setL1_alike (l1Clean_alike hs)

theorem loadLane_alike {ix : Ix} {k : LdKind} {racq : Option Scope} {d : Reg} {a : Acc} (hs : Alike s₀ s) :
    Alike s₀ (loadLane s ix k racq d a).1 := by
  unfold loadLane
  extract_lets c s1
  have h1 : Alike s₀ s1 := by
    dsimp only [s1]
    split
    · exact readAtHome_alike (racqAt_alike hs)
    · exact .ite (readAtHome_alike hs) hs
  clear_value s1
  refine fst_ite_alike hs ?_
  split
  next e =>
    have h2 := fst_alike_of_eq (l1Read_alike h1) e
    refine fst_ite_alike h2 ?_
    split
    · exact h2
    split
    next e => exact (barrier_alike h2).of_eq e
    next e => exact (barrier_alike h2).of_eq e
    · exact h2
    next e => exact (barrier_alike h2).of_eq e

/-- What one lane's load or swap adds. -/
def addLoad (p : Loads) (a : Acc) (r : State × Ld1) : Loads :=
  match r.2 with
  | .val v old => { p with s := r.1, vals := p.vals ++ [(a, v, old)] }
  | .call q => { p with s := r.1, calls := p.calls ++ [q] }
  | .miss n => { p with s := r.1, misses := p.misses ++ [n] }
  | .fault f => { p with s := r.1, faults := p.faults ++ [f] }

/-- A lane's own load: a call is its lane's. -/
def LoadOf (l : Nat) : Ld1 → Prop
  | .call k => k.lane = l
  | _ => True

/-- The calls of loads are of their lanes, in their order. -/
theorem addLoads_sublist {f : State → Acc → State × Ld1} (hf : ∀ t a, LoadOf a.lane (f t a).2) (as : List Acc) : ∀ p : Loads,
    ∃ ks, (ks.map LCall.lane).Sublist (as.map (·.lane)) ∧ (as.foldl (fun p a => addLoad p a (f p.s a)) p).calls = p.calls ++ ks := by
  induction as with
  | nil => exact fun _ => ⟨[], .slnil, (List.append_nil _).symm⟩
  | cons a r ih =>
    intro p
    obtain ⟨ks, hsub, he⟩ := ih (addLoad p a (f p.s a))
    have hl := hf p.s a
    rw [List.foldl_cons, he]
    unfold addLoad
    cases e : (f p.s a).2 with
    | call k =>
      rw [e] at hl
      refine ⟨k :: ks, ?_, by simp⟩
      rw [List.map_cons, List.map_cons, show k.lane = a.lane from hl]
      exact hsub.cons_cons _
    | _ => exact ⟨ks, hsub.cons _, rfl⟩

theorem loadAll_eq (s : State) (ix : Ix) (k : LdKind) (racq : Option Scope) (d : Reg) (as : List Acc) :
    loadAll s ix k racq d as = as.foldl (fun p a => addLoad p a (loadLane p.s ix k racq d a)) ⟨s, [], [], [], []⟩ := rfl

theorem loadLane_of (s : State) (ix : Ix) (k : LdKind) (racq : Option Scope) (d : Reg) (a : Acc) :
    LoadOf a.lane (loadLane s ix k racq d a).2 := by
  unfold loadLane
  dsimp only
  repeat' split
  all_goals trivial

theorem loadAll_sublist (s : State) (ix : Ix) (k : LdKind) (racq : Option Scope) (d : Reg) (as : List Acc) :
    ((loadAll s ix k racq d as).calls.map (·.lane)).Sublist (as.map (·.lane)) := by
  obtain ⟨ks, hsub, he⟩ := addLoads_sublist (fun t a => loadLane_of t ix k racq d a) as ⟨s, [], [], [], []⟩
  rw [loadAll_eq, he]
  exact hsub

theorem loadAll_alike {ix : Ix} {k : LdKind} {racq : Option Scope} {d : Reg} {as : List Acc} (hs : Alike s₀ s) :
    Alike s₀ (loadAll s ix k racq d as).s := by
  unfold loadAll
  dsimp only
  refine foldl_induct (P := fun p : Loads => Alike s₀ p.s) (fun _ _ ha => ?_) hs
  split <;> exact loadLane_alike ha

theorem sendVal_alike {ix : Ix} {d : Reg} {l pa : Nat} {v : Val} (hs : Alike s₀ s) : Alike s₀ (sendVal s ix d l pa v) :=
  addReq_alike hs

theorem reserve_alike {w l k : Nat} (hs : Alike s₀ s) : Alike s₀ (reserve s w l k) :=
  updWarp_alike hs fun x => (rfl : look { updLane x l _ with lrRun := _ } = look (updLane x l _)).trans (look_setLane x rfl)

theorem finishLoads_alike {ix : Ix} {k : LdKind} {d : Reg} {sc : Option Scope} {as : List Acc} {vs : List (Acc × Val × Option Val)}
    (hs : Alike s₀ s) : Alike s₀ (finishLoads s ix k d sc as vs) := by
  unfold finishLoads
  extract_lets s1 s2 s3
  have h1 : Alike s₀ s1 := by
    refine foldl_alike (fun t e ht => ?_) hs
    split
    · exact heal_alike ht
    · exact ht
  have h2 : Alike s₀ s2 := .ite (foldl_alike (fun _ _ => reserve_alike) h1) h1
  have h3 : Alike s₀ s3 := foldl_alike (fun _ _ => sendVal_alike) h2
  split
  · exact acquire_alike h3
  · exact h3

theorem loadOp_kept {k : LdKind} {d a b : Reg} {sc : Scope} {ord : Ord4} {racq : Bool} {off : BitVec 13} {ix : Ix}
    (nd : ix.exe.Nodup) (hs : Alike s₀ s) : (loadOp k d a b sc ord racq off ix s).Kept s₀ := by
  unfold loadOp
  extract_lets ls size tagOnly p acq
  have hp : Alike s₀ p.s := Plans.check_alike (planMem_alike hs)
  have hl : (planLanes p).Nodup := planMem_nodup (nodup_act nd _ _)
  refine .ite (finishCalls_kept hp (calls_nodup hl) fun _ ht => ht) (.ite hp (.ite hp ?_))
  exact finishCalls_kept (loadAll_alike hp) (moreCalls_nodup hl (loadAll_sublist ..)) fun _ => finishLoads_alike

theorem noteRelease_alike {c : Nat} {sc : Option Scope} {pa : Nat} (hs : Alike s₀ s) : Alike s₀ (noteRelease s c sc pa) := by
  unfold noteRelease
  split
  · exact .ite (releaserNote_alike hs) hs
  · exact hs

theorem releaseFor_alike {c : Nat} {a : Option Scope} (hs : Alike s₀ s) : Alike s₀ (releaseFor s c a) := by
  unfold releaseFor
  split
  · exact release_alike hs
  · exact hs

theorem dropHeader_alike {c va : Nat} (hs : Alike s₀ s) : Alike s₀ (dropHeader s c va) := updCore_alike hs

theorem storeLane_alike {ix : Ix} {k : StKind} {sc : Option Scope} {a : Acc} {v : Val} (hs : Alike s₀ s) :
    Alike s₀ (storeLane s ix k sc a v) := by
  unfold storeLane
  refine .ite (mmioWrite_alike hs) (noteRelease_alike ?_)
  split
  · exact .ite (l1Clean_alike (dropHeader_alike (l1Write_alike hs))) (dropHeader_alike (l1Write_alike hs))
  · exact dropHeader_alike (l1Write_alike hs)

theorem storeOp_kept {k : StKind} {d a b : Reg} {sc : Scope} {ord : Ord4} {off : BitVec 13} {ix : Ix} (nd : ix.exe.Nodup)
    (hs : Alike s₀ s) : (storeOp k d a b sc ord off ix s).Kept s₀ := by
  unfold storeOp
  extract_lets x ls size q p rel
  have hp : Alike s₀ p.s := Plans.check_alike (planMem_alike hs)
  have hl := calls_nodup (p := p) (planMem_nodup (nodup_act nd (.reg .nil) [d, a, b]))
  refine .ite (finishCalls_kept hp hl fun _ ht => ht) (.ite hp (finishCalls_kept hp hl fun _ ht => ?_))
  exact foldl_alike (fun _ _ => storeLane_alike) (releaseFor_alike ht)

theorem scLane_alike {ix : Ix} {d : Reg} {sc : Option Scope} {a : Acc} {v : Val} (hs : Alike s₀ s) :
    Alike s₀ (scLane s ix d sc a v) :=
  sendVal_alike (updWarp_alike (.ite (noteRelease_alike (dropHeader_alike (homeWrite_alike (readAtHome_alike hs))))
    (.ite (tellDropped_alike hs) hs)) fun x => look_setLane x rfl)

theorem execSc_keeps {h : Hdr} {o : OpMem} : Keeps s (execSc h o s) := by
  refine issued_keeps fun ix t hx ht => ?_
  extract_lets x ls p rel
  have hp : Alike t p.s := Plans.check_alike (planMem_alike ht)
  have hl := calls_nodup (p := p) (planMem_nodup (nodup_act hx _ _))
  refine .ite (finishCalls_kept hp hl fun _ hu => hu) (.ite hp (.ite hp (finishCalls_kept hp hl fun _ hu => ?_)))
  exact foldl_alike (fun _ _ => scLane_alike) (releaseFor_alike hu)

theorem execFence_keeps {h : Hdr} {ord : Ord4} {scope : Scope} {racq : Bool} : Keeps s (execFence h ord scope racq s) := by
  refine issued_keeps fun ix t _ ht => ?_
  extract_lets c s1 s2
  have h1 : Alike t s1 := .ite (updWarp_alike (release_alike ht)) ht
  have h2 : Alike t s2 := .ite (fenceRacq_alike h1) h1
  exact .ite ht (.ok (.ite (acquire_alike h2) h2))

theorem execPf_keeps {h : Hdr} {o : OpCache} : Keeps s (execPf h o s) := by
  refine issued_keeps fun ix t _ ht => ?_
  extract_lets p
  have hp : Alike t p.s := planMem_alike ht
  refine .ite hp (.ok (foldl_alike (fun _ _ hu => .ite hu ?_) hp))
  exact .ite (foldl_alike (fun _ _ => l1Read_alike) hu) (foldl_alike (fun _ _ => homeRead_alike) hu)

theorem cacheLine_alike {c line : Nat} {sc : Scope} {drop : Bool} (hs : Alike s₀ s) : Alike s₀ (cacheLine s c line sc drop) := by
  unfold cacheLine
  extract_lets s1 s2 s3
  have h1 : Alike s₀ s1 := foldl_alike (fun _ _ => l1Clean_alike) hs
  have h2 : Alike s₀ s2 := .ite (foldl_alike (fun _ _ => l2Clean_alike) h1) h1
  have h3 : Alike s₀ s3 := foldl_alike (fun _ _ => setL1_alike) h2
  exact .ite hs (.ite (.ite (l2Evict_alike h3) h3) h2)

theorem cacheOp_kept {o : OpCache} {drop : Bool} {ix : Ix} (nd : ix.exe.Nodup) (hs : Alike s₀ s) :
    (cacheOp o drop ix s).Kept s₀ := by
  unfold cacheOp
  refine finishCalls_kept (planMem_alike hs) (calls_nodup (planMem_nodup (nodup_act nd _ _))) fun t ht => foldl_alike (fun u q hu => .ite hu ?_) ht
  exact cacheLine_alike hu

theorem ldhLane.read_alike {ix : Ix} {a : Acc} {c : Nat} (hs : Alike s₀ s) : Alike s₀ (ldhLane.read ix a s c).1 := by
  have h1 : Alike s₀ (readAtHome s c (a.pa / 8)) := readAtHome_alike hs
  exact fst_ite_alike (tellRefused_alike h1) (fst_ite_alike (homeRead_alike h1)
    (fst_ite_alike (homeRead_alike h1) (keepHeader_alike (homeRead_alike h1))))

theorem ldhLane_alike {ix : Ix} {a : Acc} (hs : Alike s₀ s) : Alike s₀ (ldhLane s ix a).1 := by
  unfold ldhLane
  dsimp only
  split
  · exact fst_ite_alike hs (ldhLane.read_alike hs)
  · exact ldhLane.read_alike hs

theorem execLdh_keeps {h : Hdr} {d a b : Reg} {off : BitVec 13} : Keeps s (execLdh h d a b off s) := by
  refine issued_keeps fun ix t _ ht => ?_
  extract_lets p r fs
  have hp : Alike t p.s := Plans.check_alike (planMem_alike ht)
  have hr : Alike t r.1 := by
    refine foldl_fst_alike (fun a q ha => ?_) hp
    exact ldhLane_alike ha
  exact .ite (finishCalls_kept hp List.nodup_nil fun _ h => h) (.ite hp (.ite hp (orTrap_kept (foldl_alike (fun _ _ => sendVal_alike) hr))))

end

end Sys2Proof.Laws
end

section
/-! ## The warps that come into being (O54)

A team's placement, a service core's start, a collector's start and CTXLD make them. -/

namespace Sys2Proof.Laws
open Sys2Proof Sys2Proof.Machine

/-- What holds of the default and of every value of a map holds of what is read of it. -/
theorem spGet_of_forall {α : Type} {P : α → Prop} {d : α} {m : Sparse α} (hd : P d) (hm : ∀ e ∈ m, P e.2) (k : Nat) : P (spGet d m k) := by
  induction m with
  | nil => exact hd
  | cons e r ih =>
    rw [spGet]
    split
    · exact hm e List.mem_cons_self
    · exact ih fun e he => hm e (List.mem_cons_of_mem _ he)

/-- What is asked of STATUS: an F of at least 1, and its reserved bits 0. -/
def StatusOk (w : Word) : Prop := fld w 8 5 ≠ 0 ∧ fld w 4 4 = 0 ∧ fld w 13 51 = 0

theorem statusOk_reset : StatusOk statusReset := by
  unfold StatusOk
  decide

/-- A bit below the reserved ones may be set or cleared. -/
theorem StatusOk.setBit {w : Word} (h : StatusOk w) {i : Nat} (hi : i < 4) (b : Bool) : StatusOk (setBit w i b) := by
  obtain ⟨hF, hlow, hhigh⟩ := h
  refine ⟨?_, ?_, ?_⟩
  · rwa [fld_setBit _ _ (.inl (by omega)) (by decide)]
  · rwa [fld_setBit _ _ (.inl (by omega)) (by decide)]
  · rwa [fld_setBit _ _ (.inl (by omega)) (by decide)]

/-- A warp without a mask bit and with lanes that have not called. -/
theorem wellFormed_fresh {x : Warp} (hmasks : x.masks = []) (hlanes : ∀ e ∈ x.lanes, e.2.csd = 0 ∧ e.2.lcd = 0) (hs : StatusOk x.status) :
    x.wellFormed := by
  refine ⟨fun m l h => ?_, fun l => ?_, hs⟩
  · rw [maskBit, maskReg, hmasks] at h
    simp [spGet, bitAt] at h
  · obtain ⟨hcsd, hlcd⟩ := spGet_of_forall (P := fun y : Lane => y.csd = 0 ∧ y.lcd = 0) (d := Lane.none) ⟨rfl, rfl⟩ hlanes l
    exact ⟨Nat.le_trans (Nat.le_of_eq hcsd) (Nat.zero_le _), Nat.le_trans (Nat.le_of_eq hlcd) (Nat.zero_le _)⟩

/-- Lanes that are ready at an entry address have not called. -/
theorem depths_readyLanes {n : Nat} {entry : Word} :
    ∀ e ∈ (List.range n).map (fun l => (l, { Lane.none with act := .ready, lpc := entry })), e.2.csd = 0 ∧ e.2.lcd = 0 := by
  intro e he
  obtain ⟨l, _, rfl⟩ := List.mem_map.mp he
  exact ⟨rfl, rfl⟩

theorem wellFormed_newWarp (ws : List Word) (y : Part) (k team core p0 age : Nat) (nurs nlim : Word) :
    (newWarp ws y k team core p0 age nurs nlim).wellFormed :=
  wellFormed_fresh rfl depths_readyLanes (statusOk_reset.setBit (by decide) _)

/-! ### A warp from a context block -/

/-- A guard that was passed. -/
theorem guarded_some {p : Prop} [Decidable p] {β : Type} {f : Unit → Option β} {b : β} (h : (guard p >>= f) = some b) :
    p ∧ f () = some b := by
  by_cases hp : p
  · rw [guard, if_pos hp] at h
    exact ⟨hp, h⟩
  · rw [guard, if_neg hp] at h
    cases h

theorem readLane_depths {b : CtxBlock} {o : Nat} {y : Lane} (h : readLane b o = some y) : y.csd ≤ 16 ∧ y.lcd ≤ 4 := by
  unfold readLane at h
  obtain ⟨_, _, h⟩ := Option.bind_eq_some_iff.mp h
  obtain ⟨_, _, h⟩ := Option.bind_eq_some_iff.mp h
  obtain ⟨_, _, h⟩ := Option.bind_eq_some_iff.mp h
  extract_lets rest at h
  have hrest : ∀ act, rest act = some y → y.csd ≤ 16 ∧ y.lcd ≤ 4 := fun act hact => by
    obtain ⟨hd, hact⟩ := guarded_some hact
    cases hact
    exact hd
  clear_value rest
  split at h
  · exact hrest _ h
  · split at h
    · exact hrest _ h
    · cases h
  · exact hrest _ h
  · exact hrest _ h
  · cases h

/-- What an answer of every element is an answer of. -/
theorem mem_of_mapM {α β : Type} {f : α → Option β} : ∀ {l : List α} {bs : List β}, l.mapM f = some bs →
    ∀ b ∈ bs, ∃ a, f a = some b := by
  intro l
  induction l with
  | nil =>
    intro bs h b hb
    cases h
    cases hb
  | cons a r ih =>
    intro bs h b hb
    rw [List.mapM_cons] at h
    obtain ⟨c, hc, h⟩ := Option.bind_eq_some_iff.mp h
    obtain ⟨cs, hcs, h⟩ := Option.bind_eq_some_iff.mp h
    cases h
    rcases List.mem_cons.mp hb with rfl | hb
    · exact ⟨a, hc⟩
    · exact ih hcs b hb

/-- A map made of pairs with distinct keys reads each pair. -/
theorem spGet_foldl_spSet {α : Type} [DecidableEq α] {d : α} {es : List (Nat × α)} (nd : (es.map (·.1)).Nodup) {e : Nat × α} (he : e ∈ es)
    (m : Sparse α) : spGet d (es.foldl (fun m e => spSet d m e.1 e.2) m) e.1 = e.2 := by
  have hother : ∀ (r : List (Nat × α)) (m : Sparse α) (k : Nat), k ∉ r.map (·.1) →
      spGet d (r.foldl (fun m e => spSet d m e.1 e.2) m) k = spGet d m k := by
    intro r
    induction r with
    | nil => exact fun _ _ _ => rfl
    | cons f r ih =>
      intro m k hk
      rw [List.map_cons, List.mem_cons, not_or] at hk
      exact (ih _ k hk.2).trans (spGet_spSet_ne d m f.2 hk.1)
  induction es generalizing m with
  | nil => cases he
  | cons f r ih =>
    obtain ⟨hf, hr⟩ := List.nodup_cons.mp nd
    rcases List.mem_cons.mp he with rfl | he
    · exact (hother r _ _ hf).trans (spGet_spSet_self d m e.1 e.2)
    · exact ih hr he _

/-- A map made of pairs holds the default and values of the pairs alone. -/
theorem forall_foldl_spSet {α : Type} [DecidableEq α] {P : α → Prop} {d : α} {es : List (Nat × α)} (hd : P d) (he : ∀ e ∈ es, P e.2)
    (k : Nat) : P (spGet d (es.foldl (fun m e => spSet d m e.1 e.2) []) k) :=
  List.foldlRecOn (motive := fun m => ∀ k, P (spGet d m k)) es _ (b := []) (fun _ => hd) (fun m hm e hmem k => by
    rw [spGet_spSet]
    split
    · exact he e hmem
    · exact hm k) k

/-- Masks cut to a set of lanes. -/
theorem bitAt_cutMasks (A : List Nat) (f : Nat → Word) (is : List Nat) (m l : Nat)
    (h : bitAt (spGet 0 (is.foldl (fun m i => spSet 0 m i (f i &&& laneSet A)) []) m) l = true) : l ∈ A := by
  have hP := foldl_induct (P := fun ms : Sparse Word => ∀ m, bitAt (spGet 0 ms m) l = true → l ∈ A)
    (f := fun m i => spSet 0 m i (f i &&& laneSet A)) (fun ms i hms m => ?_) (l := is) (a := []) (fun m h0 => ?_)
  · exact hP m h
  · rw [spGet_spSet]
    split
    · rw [bitAt_and, Bool.and_eq_true]
      intro hb
      rw [bitAt_laneSet _ (bitAt_lt hb.1)] at hb
      exact of_decide_eq_true hb.2
    · exact hms m
  · simp [spGet, bitAt] at h0

theorem readWarp_wellFormed {b : CtxBlock} {ws : List Word} {k o ro : Nat} {x : Warp} (h : readWarp b ws k o ro = some x) :
    x.wellFormed := by
  unfold readWarp at h
  obtain ⟨ls, hls, h⟩ := Option.bind_eq_some_iff.mp h
  obtain ⟨_, _, h⟩ := Option.bind_eq_some_iff.mp h
  obtain ⟨_, _, h⟩ := Option.bind_eq_some_iff.mp h
  obtain ⟨_, _, h⟩ := Option.bind_eq_some_iff.mp h
  obtain ⟨⟨_, hhigh, hlow, hF, _⟩, h⟩ := guarded_some h
  generalize hlns : (List.range (recWidth ws)).zip ls = lns at h
  cases h
  have hmem : ∀ e ∈ lns, e.1 < recWidth ws ∧ e.2.csd ≤ 16 ∧ e.2.lcd ≤ 4 := fun e he => by
    have hzip := List.of_mem_zip (hlns ▸ he)
    obtain ⟨i, hi⟩ := mem_of_mapM hls e.2 hzip.2
    exact ⟨List.mem_range.mp hzip.1, readLane_depths hi⟩
  have hkeys : (lns.map (·.1)).Nodup := by
    rw [← hlns, List.zip_eq_zip_take_min, List.map_fst_zip (by simp)]
    exact (List.take_sublist ..).nodup List.nodup_range
  refine ⟨fun m l hbit => ?_, ?_, hF, hlow, hhigh⟩
  · have hl := bitAt_cutMasks _ _ _ m l hbit
    obtain ⟨e, he, rfl⟩ := List.mem_map.mp hl
    obtain ⟨he, ha⟩ := List.mem_filter.mp he
    refine ⟨(hmem e he).1, ?_⟩
    rw [laneOf, spGet_foldl_spSet hkeys he]
    exact ha
  · exact forall_foldl_spSet (P := fun y : Lane => y.csd ≤ 16 ∧ y.lcd ≤ 4) ⟨Nat.zero_le _, Nat.zero_le _⟩ fun e he => (hmem e he).2

theorem readBlock_wellFormed {b : CtxBlock} {y : Grid} {g t : Nat} {r : Restored} (h : readBlock b y g t = some r) :
    ∀ x ∈ r.warps, x.wellFormed := by
  unfold readBlock at h
  obtain ⟨_, h⟩ := guarded_some h
  obtain ⟨_, h⟩ := guarded_some h
  obtain ⟨_, h⟩ := guarded_some h
  obtain ⟨warps, hwarps, h⟩ := Option.bind_eq_some_iff.mp h
  obtain ⟨_, _, h⟩ := Option.bind_eq_some_iff.mp h
  obtain ⟨_, _, h⟩ := Option.bind_eq_some_iff.mp h
  cases h
  intro x hx
  obtain ⟨k, hk⟩ := mem_of_mapM hwarps x hx
  exact readWarp_wellFormed hk

end Sys2Proof.Laws
end

section
/-! ## What a step may make of a warp: operations, the parts beside the SMs, and the step (O54) -/

namespace Sys2Proof.Laws
open Sys2Proof Sys2Proof.Machine

-- One proof at a time: side by side these many short ones ask for more memory than the check allows.
set_option Elab.async false

section
variable {s₀ s : State}

/-! ### Machine/LaneArith -/

theorem arithOp_kept {op : ArOp} {o : OpBinE} {ix : Ix} (nd : ix.exe.Nodup) (hs : Alike s₀ s) : (arithOp op o ix s).Kept s₀ :=
  laneOp_kept nd hs

theorem arithImm_kept {op : ArOp} {o : OpImm} {ix : Ix} (nd : ix.exe.Nodup) (hs : Alike s₀ s) : (arithImm op o ix s).Kept s₀ :=
  laneOp_kept nd hs

/-! ### Machine/Scratch -/

theorem satomLane_alike {w : Nat} {op : AOp} {f : TFmt} {m : Swz} {o : OpX4} {l : Nat} (hs : Alike s₀ s) :
    Alike s₀ (satomLane s w op f m o l) := by
  unfold satomLane
  exact updWarp_alike (updTeam_alike hs) fun _ => look_writeReg ..

theorem execSatom_keeps {h : Hdr} {op : AOp} {fmt : TFmt} {swz : Swz} {o : OpX4} : Keeps s (execSatom h op fmt swz o s) :=
  issued_keeps fun _ _ _ ht => .ite trivial (.ok (.ite (satomLane_alike ht) (updWarp_alike (satomLane_alike ht))))

theorem satomDone_alike {w : Nat} (hs : Alike s₀ s) : Alike s₀ (satomDone s w) := wakeWarps_alike hs

theorem lateArrival_alike {core slot : Nat} {r : Late} (hs : Alike s₀ s) : Alike s₀ (lateArrival s core slot r) := by
  unfold lateArrival
  split
  · extract_lets s1 s2
    have h1 : Alike s₀ s1 := updCore_alike hs
    have h2 : Alike s₀ s2 := by
      dsimp only [s2]
      split
      · exact satomLane_alike h1
      · exact h1
    exact .ite h1 (.ite (satomDone_alike h2) h2)
  · refine updWarp_alike (updCore_alike hs) fun x => ?_
    exact (rfl : look { r.keys.foldl subPend x with wait := _ } = look (r.keys.foldl subPend x)).trans (foldl_look look_subPend _ x)

theorem execResultArrival_keeps {core slot : Nat} : Keeps s (execResultArrival core slot s) := by
  unfold execResultArrival
  refine keeps_next fun hs => ?_
  split
  · refine .ite hs ?_
    split
    · exact endReq_alike hs
    · exact hs
  split
  · exact lateArrival_alike hs
  · exact hs

/-! ### Machine/WarpSys -/

theorem execSleepExpiry_keeps {w : Nat} : Keeps s (execSleepExpiry w s) := by
  unfold execSleepExpiry
  refine keeps_next fun hs => ?_
  split
  · exact .ite (updWarp_alike hs) hs
  · exact hs

theorem execTrapEntry_keeps {w : Nat} : Keeps s (execTrapEntry w s) := by
  unfold execTrapEntry
  refine keeps_kept fun hs => ?_
  split
  · exact .ite hs (enterTrap_kept hs)
  · exact hs

/-! ### Machine/Atomic -/

theorem actAt_alike {pa : Nat} {tagged : Bool} {f : WV → WordAct} (hs : Alike s₀ s) : Alike s₀ (actAt s pa tagged f).1 := by
  unfold actAt
  dsimp only
  split
  · exact homeWrite_alike (homeRead_alike hs)
  · exact homeRead_alike hs

theorem vatomAt_alike {op : AOp} {f : TFmt} {pa : Nat} {b : Word} (hs : Alike s₀ s) : Alike s₀ (vatomAt s op f pa b).1 :=
  actAt_alike hs

theorem setReply_alike {c slot : Nat} {vals : List Val} (hs : Alike s₀ s) : Alike s₀ (setReply s c slot vals) := updCore_alike hs

theorem answerReq_alike {r : AswReq} {vals : List Val} (hs : Alike s₀ s) : Alike s₀ (answerReq s r vals) := by
  unfold answerReq
  refine .ite hs ?_
  split
  · exact endReq_alike hs
  · exact setReply_alike hs

theorem wakeWord_alike {pa : Nat} (hs : Alike s₀ s) : Alike s₀ (wakeWord s pa) := by
  refine mapWarps_alike hs fun _ x => ?_
  split
  · exact look_ite rfl rfl
  · rfl

theorem wakeHome_alike (hs : Alike s₀ s) : Alike s₀ (wakeHome s) := wakeWarps_alike hs

theorem performOp_alike {r : AswReq} (hs : Alike s₀ s) : Alike s₀ (performOp s r).1 := by
  unfold performOp
  split
  · refine foldl_fst_alike (fun _ _ ha => ?_) hs
    exact actAt_alike ha
  · refine foldl_fst_alike (fun _ _ ha => ?_) hs
    exact vatomAt_alike ha
  · exact keepHeader_alike (actAt_alike hs)
  · exact .ite (tellSvc_alike (actAt_alike hs)) (actAt_alike hs)
  · exact withAnswers_alike (actAt_alike hs)
  · exact withAnswers_alike (actAt_alike hs)

theorem l1DropLine_alike {c line : Nat} (hs : Alike s₀ s) : Alike s₀ (l1DropLine s c line) :=
  foldl_alike (fun _ _ ht => dropHeaderAt_alike (.ite ht (l1DropClean_alike ht))) hs

theorem performReq_alike {r : AswReq} (hs : Alike s₀ s) : Alike s₀ (performReq s r) := by
  unfold performReq
  refine wakeHome_alike (wakeWord_alike (wakeDrained_alike ?_))
  split
  · exact acquire_alike (answerReq_alike (performOp_alike (l1DropLine_alike (.ite (racqAt_alike hs) hs))))
  · exact answerReq_alike (performOp_alike (l1DropLine_alike hs))

theorem execAswRequest_keeps {cluster : Nat} : Keeps s (execAswRequest cluster s) := by
  unfold execAswRequest
  dsimp only
  refine keeps_next fun hs => ?_
  split
  · exact .ite hs (performReq_alike (setAsw_alike hs))
  · exact hs

theorem sendReq_alike {p : Nat} {r : AswReq} (hs : Alike s₀ s) : Alike s₀ (sendReq s p r) := setAsw_alike hs

theorem beforeReqs_alike {ix : Ix} {o : Ord4} {sc : Scope} {as : List Acc} (hs : Alike s₀ s) :
    Alike s₀ (beforeReqs s ix o sc as) :=
  foldl_alike (fun _ _ ht => noteRelease_alike (dropHeader_alike (l1Evict_alike ht))) (releaseFor_alike hs)

theorem postReq_alike {ix : Ix} {a : Acc} {op : AswOp} {ds : List Dst} {o : Ord4} {sc : Scope} {racq : Bool} (hs : Alike s₀ s) :
    Alike s₀ (postReq s ix a op ds o sc racq) :=
  .ite (sendReq_alike (addReq_alike hs)) (tellDropped_alike (addReq_alike hs))

theorem hostPerform_alike {ix : Ix} {op : AOp} {o : Ord4} {sc : Scope} {racq : Bool} {a : Acc} {b c : Val} (hs : Alike s₀ s) :
    Alike s₀ (hostPerform s ix op o sc racq a b c).1 := by
  unfold hostPerform
  extract_lets core s1 s2 x s3
  have h1 : Alike s₀ s1 := .ite (racqAt_alike hs) hs
  have h2 : Alike s₀ s2 := l2Evict_alike h1
  have h3 : Alike s₀ s3 := by
    dsimp only [s3]
    split
    · exact clearResv_alike (rawWrite_alike h2)
    · exact h2
  exact fst_ite_alike (wakeWord_alike h3) h1

theorem sendAtom_alike {ix : Ix} {d : Reg} {a : Acc} {v : Val} (hs : Alike s₀ s) : Alike s₀ (sendAtom s ix d a v) :=
  addReq_alike hs

theorem acquireHalf_alike {w : Nat} {o : Ord4} {sc : Scope} (hs : Alike s₀ s) : Alike s₀ (acquireHalf s w o sc) := by
  unfold acquireHalf
  split
  · exact acquire_alike hs
  · exact hs

theorem hostAtom_alike {ix : Ix} {op : AOp} {d : Reg} {o : Ord4} {sc : Scope} {racq : Bool} {a : Acc} {b c : Val}
    (hs : Alike s₀ s) :
    Alike s₀ (hostAtom s ix op d o sc racq a b c) :=
  acquireHalf_alike (sendAtom_alike (hostPerform_alike hs))

theorem afterReqs_alike {w : Nat} {o : Ord4} (hs : Alike s₀ s) : Alike s₀ (afterReqs s w o) := .ite (updWarp_alike hs) hs

theorem reqOp_kept {ix : Ix} {p : Plans} {o : Ord4} {sc : Scope} {n : Nat} {send : State → State}
    (nd : (planLanes p).Nodup) (hs : Alike s₀ p.s) (hsend : ∀ t, Alike s₀ t → Alike s₀ (send t)) :
    (reqOp ix p o sc n send).Kept s₀ := by
  have hk := calls_nodup nd
  refine .ite (finishCalls_kept hs hk fun _ ht => ht) (.ite hs (.ite hs (finishCalls_kept hs hk fun _ ht => .ite ht ?_)))
  exact afterReqs_alike (hsend _ (beforeReqs_alike ht))

theorem swapLane_alike {ix : Ix} {o : OpAtom} {a : Acc} (hs : Alike s₀ s) : Alike s₀ (swapLane s ix o a).1 := by
  unfold swapLane
  extract_lets x p b c q1 s1 q2 s2
  have h2 : Alike s₀ s2 := wakeWord_alike (actAt_alike (.ite (racqAt_alike hs) hs))
  refine fst_ite_alike (hostPerform_alike hs) (fst_ite_alike (tellDropped_alike hs) ?_)
  split
  next e => exact (barrier_alike h2).of_eq e
  next e => exact (barrier_alike h2).of_eq e
  · exact h2
  next e => exact (barrier_alike h2).of_eq e

theorem swapAll_alike {ix : Ix} {o : OpAtom} {as : List Acc} (hs : Alike s₀ s) : Alike s₀ (swapAll s ix o as).s := by
  unfold swapAll
  dsimp only
  refine foldl_induct (P := fun p : Loads => Alike s₀ p.s) (fun _ _ ha => ?_) hs
  split <;> exact swapLane_alike ha

theorem swapAll_eq (s : State) (ix : Ix) (o : OpAtom) (as : List Acc) :
    swapAll s ix o as = as.foldl (fun p a => addLoad p a (swapLane p.s ix o a)) ⟨s, [], [], [], []⟩ := rfl

theorem swapLane_of (s : State) (ix : Ix) (o : OpAtom) (a : Acc) : LoadOf a.lane (swapLane s ix o a).2 := by
  unfold swapLane
  dsimp only
  repeat' split
  all_goals trivial

theorem swapAll_sublist (s : State) (ix : Ix) (o : OpAtom) (as : List Acc) :
    ((swapAll s ix o as).calls.map (·.lane)).Sublist (as.map (·.lane)) := by
  obtain ⟨ks, hsub, he⟩ := addLoads_sublist (fun t a => swapLane_of t ix o a) as ⟨s, [], [], [], []⟩
  rw [swapAll_eq, he]
  exact hsub

theorem finishSwap_alike {ix : Ix} {o : OpAtom} {vs : List (Acc × Val × Option Val)} (hs : Alike s₀ s) :
    Alike s₀ (finishSwap s ix o vs) := by
  unfold finishSwap
  refine acquireHalf_alike (foldl_alike (fun _ _ => sendAtom_alike) (foldl_alike (fun _ _ ht => ?_) hs))
  split
  · exact heal_alike ht
  · exact ht

theorem swapWhole_kept {ix : Ix} {p : Plans} {o : OpAtom} (nd : (planLanes p).Nodup) (hs : Alike s₀ p.s) : (swapWhole ix p o).Kept s₀ := by
  unfold swapWhole
  dsimp only
  refine .ite (finishCalls_kept hs (calls_nodup nd) fun _ ht => ht) (.ite hs (.ite hs (.ite hs ?_)))
  split
  · exact hs
  · exact finishCalls_kept (swapAll_alike (beforeReqs_alike hs)) (moreCalls_nodup nd (swapAll_sublist ..)) fun _ => finishSwap_alike

theorem execAtom_keeps {h : Hdr} {o : OpAtom} : Keeps s (execAtom h o s) := by
  refine issued_keeps fun ix t hx ht => ?_
  extract_lets x srcs p0 p gs
  have hp : Alike t p.s := Plans.check_alike (planMem_alike ht)
  have hl : (planLanes p).Nodup := planMem_nodup (nodup_act hx _ _)
  refine .ite (swapWhole_kept hl hp) (reqOp_kept hl hp fun u hu => foldl_alike (fun v a hv => ?_) hu)
  split
  · exact hv
  · exact .ite (foldl_alike (fun _ _ => hostAtom_alike) hv) (postReq_alike hv)

theorem execVatom_keeps {h : Hdr} {op : AOp} {ef : TFmt} {d a b : Reg} {ord : Ord4} {scope : Scope} :
    Keeps s (execVatom h op ef d a b ord scope s) := by
  refine issued_keeps fun ix t hx ht => ?_
  refine reqOp_kept (planMem_nodup (nodup_act hx _ _)) (Plans.check_alike (planMem_alike ht)) fun u hu => foldl_alike (fun v a hv => ?_) hu
  split
  · exact hv
  · exact postReq_alike hv

theorem execHcas_keeps {h : Hdr} {o : OpX4} {ord : Ord4} {scope : Scope} {racq : Bool} :
    Keeps s (execHcas h o ord scope racq s) :=
  issued_keeps fun _ _ hx ht => reqOp_kept (planMem_nodup (nodup_act hx _ _)) (Plans.check_alike (planMem_alike ht))
    fun _ => foldl_alike fun _ _ => postReq_alike

theorem deliver_alike {core slot : Nat} {vs : List (Dst × Val)} (hs : Alike s₀ s) : Alike s₀ (deliver s core slot vs) :=
  tableBoundary_alike (endReq_alike hs)

theorem execAtomicReply_keeps {core slot : Nat} : Keeps s (execAtomicReply core slot s) := by
  unfold execAtomicReply
  refine keeps_next fun hs => ?_
  split
  · refine .ite hs ?_
    split
    · exact deliver_alike hs
    · exact hs
  · exact hs

theorem aswStop_alike {cluster : Nat} (hs : Alike s₀ s) : Alike s₀ (aswStop s cluster) := tellSvc_alike (setAsw_alike hs)

theorem loseReq_alike {r : AswReq} (hs : Alike s₀ s) : Alike s₀ (loseReq s r) := by
  unfold loseReq
  extract_lets s1 s2
  have h1 : Alike s₀ s1 := by
    dsimp only [s1]
    split
    · exact withAnswers_alike hs
    · exact withAnswers_alike hs
    · exact answerReq_alike hs
  have h2 : Alike s₀ s2 := by
    dsimp only [s2]
    split
    · exact acquire_alike h1
    · exact h1
  exact wakeHome_alike (wakeDrained_alike h2)

theorem execAswRestart_keeps {cluster : Nat} {intact : List Bool} : Keeps s (execAswRestart cluster intact s) :=
  keeps_next fun hs => .ite hs (wakeHome_alike (foldl_alike (fun _ _ => loseReq_alike) (setAsw_alike hs)))

/-! ### Machine/Bench -/

theorem setBench_alike {team b : Nat} {x : Bench} (hs : Alike s₀ s) : Alike s₀ (setBench s team b x) := updTeam_alike hs

theorem benchSettle_alike {team b : Nat} (hs : Alike s₀ s) : Alike s₀ (benchSettle s team b) := by
  refine .ite (mapWarps_alike (setBench_alike hs) fun _ x => look_ite ?_ rfl) hs
  split
  · exact look_ite rfl rfl
  · exact look_ite rfl rfl
  · rfl

theorem execBninit_keeps {h : Hdr} {bench pcnt ccnt : BitVec 5} : Keeps s (execBninit h bench pcnt ccnt s) :=
  issued_keeps fun _ _ _ ht => .ite trapOnce_kept
    (.ok (benchSettle_alike (foldl_alike (fun _ _ h => updWarp_alike h) (setBench_alike ht))))

theorem benchArrive_alike {team b : Nat} {prod : Bool} (hs : Alike s₀ s) : Alike s₀ (benchArrive s team b prod) :=
  benchSettle_alike (setBench_alike hs)

theorem arriveOp_kept {ix : Ix} {b : Nat} {next : State → Res} (hs : Alike s₀ s) (hnext : ∀ t, Alike s₀ t → (next t).Kept s₀) :
    (arriveOp ix s b next).Kept s₀ :=
  .ite hs (.ite hs (hnext _ (benchArrive_alike hs)))

theorem benchWait_kept {ix : Ix} {b : Nat} (hs : Alike s₀ s) : (benchWait ix s b).Kept s₀ :=
  .ite hs (.ok (updWarp_alike hs))

theorem execBnaw_keeps {h : Hdr} {bench : BitVec 5} : Keeps s (execBnaw h bench s) :=
  issued_keeps fun _ _ _ ht => .ite trapOnce_kept (.ite (benchWait_kept ht)
    (arriveOp_kept ht (fun _ ht1 => benchWait_kept (updWarp_alike ht1))))

/-! ### Machine/Bitwise -/

theorem bitOp_kept {f : Word → Word → Word} {o : OpBin} {ix : Ix} (nd : ix.exe.Nodup) (hs : Alike s₀ s) : (bitOp f o ix s).Kept s₀ :=
  laneOp_kept nd hs

theorem bitImm_kept {f : Word → Word → Word} {o : OpImm} {ix : Ix} (nd : ix.exe.Nodup) (hs : Alike s₀ s) : (bitImm f o ix s).Kept s₀ :=
  laneOp_kept nd hs

theorem bitUnOp_kept {f : Val → Val} {o : OpUn} {ix : Ix} (nd : ix.exe.Nodup) (hs : Alike s₀ s) : (bitUnOp f o ix s).Kept s₀ :=
  laneOp_kept nd hs

theorem shiftOp_kept {f : Word → Nat → Word} {o : OpBin} {ix : Ix} (nd : ix.exe.Nodup) (hs : Alike s₀ s) : (shiftOp f o ix s).Kept s₀ :=
  laneOp_kept nd hs

theorem shiftImm_kept {f : Word → Nat → Word} {d a : Reg} {n : BitVec 6} {ix : Ix} (nd : ix.exe.Nodup) (hs : Alike s₀ s) :
    (shiftImm f d a n ix s).Kept s₀ :=
  laneOp_kept nd hs

theorem pairOp_kept {cls : Nat} {ok : Tag → Tag → Bool} {f : Val → Val → Val} {o : OpBin} {ix : Ix} (nd : ix.exe.Nodup) (hs : Alike s₀ s) :
    (pairOp cls ok f o ix s).Kept s₀ :=
  laneOp_kept nd hs

/-! ### Machine/Tiles -/

theorem flipThread_alike {team : Nat} {gs : List Nat} (hs : Alike s₀ s) : Alike s₀ (flipThread s team gs) := by
  refine mapWarps_alike (updTeam_alike hs) fun _ x => ?_
  split
  · exact look_ite rfl rfl
  · rfl

theorem recordFault_alike {team g : Nat} {r : FaultRec} (hs : Alike s₀ s) : Alike s₀ (recordFault s team g r) := updTeam_alike hs

theorem execGive_keeps {h : Hdr} {a : Reg} : Keeps s (execGive h a s) := by
  unfold execGive
  dsimp only
  refine issued_keeps fun _ _ _ ht => ?_
  split
  · exact trivial
  · exact .ite ht (.ok (updTeam_alike ht))

theorem execTake_keeps {h : Hdr} {a : Reg} : Keeps s (execTake h a s) := by
  refine issued_keeps fun ix t _ ht => ?_
  extract_lets x y
  split
  · exact trivial
  · rename_i u _
    cases u.granules.any (engineOwned y) with
    | true => exact ht
    | false =>
      cases topRecord y u.granules with
      | none => exact .ok ht
      | some r => exact trivial

theorem execOwnq_keeps {h : Hdr} {d a : Reg} : Keeps s (execOwnq h d a s) := by
  unfold execOwnq
  dsimp only
  refine issued_keeps fun _ _ hx ht => ?_
  split
  · exact trivial
  · exact laneOp_kept hx ht

/-! ### Machine/Transc -/

theorem transcOp_kept {f : TFn} {o : OpUn} {ix : Ix} (nd : ix.exe.Nodup) (hs : Alike s₀ s) : (transcOp f o ix s).Kept s₀ :=
  laneOp_kept nd hs

/-! ### Machine/Kv -/

theorem setSlot_alike {p seq : Nat} {x : KvSlot} (hs : Alike s₀ s) : Alike s₀ (setSlot s p seq x) := updPart_alike hs

theorem ktbFill_alike {c key : Nat} {e : Word} (hs : Alike s₀ s) : Alike s₀ (ktbFill s c key e) := updCore_alike hs

theorem sliceFill_alike {p key h : Nat} {e : Word} (hs : Alike s₀ s) : Alike s₀ (sliceFill s p key h e) := ⟨hs.of⟩

theorem secondWord_alike {chip key k : Nat} (hs : Alike s₀ s) : Alike s₀ (secondWord s chip key k).1 := by
  unfold secondWord
  dsimp only
  split
  · exact fst_ite_alike (homeRead_alike hs) (takeFree_alike (homeRead_alike hs))
  · exact fst_ite_alike (homeRead_alike hs) ⟨(homeRead_alike hs).of⟩

theorem kvSecond_fstAlike {p : Nat} {e : Word} (hs : Alike s₀ s) : FstAlike s₀ (kvSecond s p e) := by
  unfold kvSecond
  extract_lets chip g
  split
  · exact ⟨hs⟩
  extract_lets w7 k told key
  refine .ite ⟨hs⟩ (.ite ⟨tellSvc_alike (tellSvc_alike hs)⟩ (.ite ⟨hs⟩ (.ite ⟨hs⟩ ?_)))
  refine .bind (fun _ _ _ => rfl) (secondWord_alike hs) fun _ _ ht => ?_
  refine .bind (fun _ _ _ => rfl) (secondWord_alike ht) fun _ _ ht => ?_
  refine .bind (fun _ _ _ => rfl) (homeRead_alike ht) fun _ _ ht => ?_
  refine .bind (fun _ _ _ => rfl) (homeRead_alike ht) fun _ _ ht => ?_
  exact .ite ⟨ht⟩ ⟨ht⟩

theorem kvSecond_alike {p : Nat} {e : Word} (hs : Alike s₀ s) : Alike s₀ (kvSecond s p e).1 := (kvSecond_fstAlike hs).alike

theorem execKvapp_keeps {h : Hdr} {a b c : Reg} : Keeps s (execKvapp h a b c s) := by
  unfold execKvapp
  refine issued_keeps fun ix t _ ht => .ite trivial (.ite ht ?_)
  split
  · exact ht
  · exact trapOnce_kept
  refine .ite trapOnce_kept ?_
  split
  next e =>
    have hu := fst_alike_of_eq (kvSecond_alike (ktbFill_alike ht)) e
    split
    · exact trapOnce_kept
    · exact trapOnce_kept
    · exact .ok (tellDropped_alike hu)
    · exact .ite trapOnce_kept (.ok (withAppends_alike (foldl_alike (fun _ _ => l1Evict_alike) (releaseFor_alike hu))))

theorem pageWrite_alike {k : Nat} {w : Word} {bad : Bool} (hs : Alike s₀ s) : Alike s₀ (pageWrite s k w bad) := homeWrite_alike hs

theorem swatchPut_alike {k : Nat} {f : Nat → Nat → Nat} {first : Bool} {w : Word} (hs : Alike s₀ s) :
    Alike s₀ (swatchPut s k f first w) :=
  .ite (pageWrite_alike hs) (pageWrite_alike (homeRead_alike hs))

theorem appendNotes_alike {a : Machine.Append} (hs : Alike s₀ s) : Alike s₀ (appendNotes s a) :=
  foldl_alike (fun _ _ ht => noteRelease_alike (l1DropLine_alike ht)) hs

theorem appendAt_alike {a : Machine.Append} (hs : Alike s₀ s) : Alike s₀ (appendAt s a) :=
  foldl_alike (fun _ _ => swatchPut_alike) (foldl_alike (fun _ _ => swatchPut_alike)
    (foldl_alike (fun _ _ => pageWrite_alike) (foldl_alike (fun _ _ => pageWrite_alike) hs)))

theorem wakeAppend_alike {w : Nat} (hs : Alike s₀ s) : Alike s₀ (wakeAppend s w) :=
  .ite (updWarp_alike (wakeDrained_alike hs)) (wakeDrained_alike hs)

theorem execKvappPerform_keeps {n : Nat} : Keeps s (execKvappPerform n s) := by
  unfold execKvappPerform
  refine keeps_next fun hs => ?_
  split
  · exact hs
  refine .ite hs (wakeAppend_alike ?_)
  split
  · exact appendNotes_alike (appendAt_alike ⟨hs.of⟩)
  · exact tellDropped_alike ⟨hs.of⟩

theorem kvCount_alike {p seq : Nat} (hs : Alike s₀ s) : Alike s₀ (kvCount s p seq).1 := fst_ite_alike (setSlot_alike hs) hs

theorem kvUncount_alike {p : Nat} {es : List (Nat × Bool)} (hs : Alike s₀ s) : Alike s₀ (kvUncount s p es) :=
  foldl_alike (fun _ _ => setSlot_alike) hs

theorem recordOut_alike {team : Nat} {h : Handle} {c : Cause} (hs : Alike s₀ s) : Alike s₀ (recordOut s team h c) :=
  recordFault_alike hs

theorem pageRead_alike {p pa n : Nat} (hs : Alike s₀ s) : Alike s₀ (pageRead s p pa n).1 := by
  unfold pageRead
  extract_lets ks gone q s1
  have hq : Alike s₀ q.1 := by
    refine foldl_fst_alike (fun a k ha => ?_) hs
    exact homeRead_alike ha
  dsimp only [s1]
  clear_value s1 q gone
  split
  · exact hq
  · exact tellDropped_alike hq

theorem blockBounds_alike {k : KselOp} {j : Nat} (hs : Alike s₀ s) : Alike s₀ (blockBounds s k j).1 := by
  unfold blockBounds
  split
  · split
    next e =>
      have ht := fst_alike_of_eq (kvSecond_alike hs) e
      split
      · exact ht
      · exact ht
      · exact tellDropped_alike ht
      · extract_lets t1
        split
        next e => exact fst_alike_of_eq (pageRead_alike (sliceFill_alike ht)) e
        next e => exact fst_alike_of_eq (pageRead_alike (sliceFill_alike ht)) e
  · exact hs

theorem setKsel_alike {n : Nat} {k : KselOp} (hs : Alike s₀ s) : Alike s₀ (setKsel s n k) := ⟨hs.of⟩

theorem execPageSelect_keeps {n : Nat} : Keeps s (execPageSelect n s) := by
  unfold execPageSelect
  refine keeps_next fun hs => ?_
  split
  · exact hs
  refine .ite hs (setKsel_alike (foldl_fst_alike (fun _ _ => ?_) ?_))
  · exact blockBounds_alike
  · exact fst_ite_alike (kvCount_alike hs) hs

theorem execKselComplete_keeps {n : Nat} : Keeps s (execKselComplete n s) := by
  unfold execKselComplete
  refine keeps_next fun hs => ?_
  split
  · exact hs
  split
  · exact hs
  refine wakeDrained_alike (kvUncount_alike (flipThread_alike ?_))
  split
  · exact recordOut_alike (updTeam_alike ⟨hs.of⟩)
  · exact updTeam_alike ⟨hs.of⟩

theorem attnEntry_alike {p core : Nat} {d e : Word} (hs : Alike s₀ s) : Alike s₀ (attnEntry s p core d e).1 := by
  unfold attnEntry
  extract_lets j
  split
  · refine fst_ite_alike hs ?_
    split
    next e =>
      have ht := fst_alike_of_eq (kvSecond_alike (ktbFill_alike hs)) e
      split
      · exact ht
      · exact ht
      · exact tellDropped_alike ht
      · exact sliceFill_alike ht
  · exact hs

theorem execAttn_keeps {h : Hdr} {o : OpX4} : Keeps s (execAttn h o s) := by
  refine issued_keeps fun ix t _ ht => ?_
  extract_lets x y p dv d hd hc df fs es gone c q
  have h1 : Alike t c.1 := fst_ite_alike ht (kvCount_alike ht)
  have h2 : Alike t q.1 := by
    refine fst_ite_alike h1 (foldl_fst_alike (fun a e ha => ?_) h1)
    split
    next e => exact fst_alike_of_eq (attnEntry_alike ha) e
    next e => exact fst_alike_of_eq (attnEntry_alike ha) e
  clear_value c q fs es
  split
  · exact trivial
  split
  · exact ht
  split
  · exact ht
  split
  · exact ht
  · exact .ok (withAttns_alike h2)

theorem setAttn_alike {n : Nat} {a : AttnOp} (hs : Alike s₀ s) : Alike s₀ (setAttn s n a) := ⟨hs.of⟩

theorem execAttnPartial_keeps {n block : Nat} : Keeps s (execAttnPartial n block s) := by
  unfold execAttnPartial
  refine keeps_next fun hs => ?_
  split
  · exact hs
  split
  · exact hs
  extract_lets a
  split
  next e => exact setAttn_alike (fst_alike_of_eq (pageRead_alike hs) e)
  next e =>
    have ht := fst_alike_of_eq (pageRead_alike hs) e
    split
    next e => exact setAttn_alike (fst_alike_of_eq (pageRead_alike ht) e)
    next e => exact setAttn_alike (fst_alike_of_eq (pageRead_alike ht) e)

theorem loseTriples_alike (hs : Alike s₀ s) : Alike s₀ (loseTriples s) := by
  unfold loseTriples
  refine foldl_alike (fun t a ht => ?_) (withAttns_alike hs)
  refine withAttns_alike (foldl_fst_alike (fun _ _ hr => ?_) ht)
  exact tellDropped_alike hr

theorem mergeOne_alike {n : Nat} {a : AttnOp} {block : Nat} {t : Triple} (hs : Alike s₀ s) :
    Alike s₀ (mergeOne s n a block t) := by
  unfold mergeOne
  dsimp only
  split <;> exact setAttn_alike (takeFree_alike hs)

theorem attnDone_alike {n : Nat} {a : AttnOp} (hs : Alike s₀ s) : Alike s₀ (attnDone s n a) := by
  unfold attnDone
  refine wakeDrained_alike (kvUncount_alike (flipThread_alike ?_))
  split
  · exact recordOut_alike (updTeam_alike ⟨hs.of⟩)
  · exact updTeam_alike ⟨hs.of⟩

theorem execAttnMerge_keeps {n block : Nat} : Keeps s (execAttnMerge n block s) := by
  unfold execAttnMerge
  refine keeps_next fun hs => ?_
  split
  · exact hs
  split
  · exact mergeOne_alike hs
  · exact .ite (attnDone_alike hs) hs

/-! ### Machine/KvMap -/

theorem execKvmap_keeps {h : Hdr} {a b c : Reg} : Keeps s (execKvmap h a b c s) :=
  issued_keeps fun _ _ _ ht =>
    .ite trivial (.ite ht (.ite trivial (.ok (.ite (updPart_alike ht) (setSlot_alike (updPart_alike ht))))))

theorem kvsdFinish_alike {o : KvsdOp} (hs : Alike s₀ s) : Alike s₀ (kvsdFinish s o) := by
  unfold kvsdFinish
  extract_lets s1 s2 seq x s3 s4
  have h2 : Alike s₀ s2 := updPart_alike ⟨hs.of⟩
  have h3 : Alike s₀ s3 := .ite (setSlot_alike h2) h2
  have h4 : Alike s₀ s4 := .ite (setSlot_alike h3) h3
  refine mapWarps_alike h4 fun _ x => ?_
  split
  · exact look_ite rfl rfl
  · exact look_ite rfl rfl
  · rfl

theorem execKvsd_keeps {h : Hdr} {a b : Reg} : Keeps s (execKvsd h a b s) :=
  issued_keeps fun _ _ _ ht => .ite trivial (.ite ht (.ite ht (.ite (.ok (kvsdFinish_alike ⟨(release_alike ht).of⟩))
    (.ok (updWarp_alike ⟨(release_alike ht).of⟩)))))

theorem ktbDrop_alike {o : KvsdOp} {chip : Nat} (hs : Alike s₀ s) : Alike s₀ (ktbDrop s o chip) := ⟨hs.of⟩

theorem setKvsd_alike {o : KvsdOp} (hs : Alike s₀ s) : Alike s₀ (setKvsd s o) := ⟨hs.of⟩

theorem execKtbShootdownRequest_keeps {chip n : Nat} : Keeps s (execKtbShootdownRequest chip n s) := by
  unfold execKtbShootdownRequest
  refine keeps_next fun hs => ?_
  split
  · exact .ite (setKvsd_alike (ktbDrop_alike hs)) hs
  · exact hs

theorem kvsdAck_alike {o : KvsdOp} {chip : Nat} (hs : Alike s₀ s) : Alike s₀ (kvsdAck s o chip) :=
  .ite (kvsdFinish_alike hs) (setKvsd_alike hs)

theorem execKtbAcknowledgment_keeps {chip n : Nat} : Keeps s (execKtbAcknowledgment chip n s) := by
  unfold execKtbAcknowledgment
  refine keeps_next fun hs => ?_
  split
  · exact .ite (kvsdAck_alike hs) hs
  · exact hs

theorem emptyKtbs_alike {chip : Nat} (hs : Alike s₀ s) : Alike s₀ (emptyKtbs s chip) := ⟨hs.of⟩

theorem kvsdLost_alike {chip : Nat} (hs : Alike s₀ s) : Alike s₀ (kvsdLost s chip) :=
  foldl_alike (fun _ _ ht => .ite (kvsdAck_alike ht) ht) (emptyKtbs_alike hs)

theorem execKvret_keeps {h : Hdr} {a : Reg} : Keeps s (execKvret h a s) :=
  issued_keeps fun _ _ _ ht => .ite trivial (.ok (.ite (setSlot_alike ht) ht))

theorem execSlotDrained_keeps {part seq : Nat} : Keeps s (execSlotDrained part seq s) := by
  unfold execSlotDrained
  extract_lets x s1
  refine keeps_next fun hs => .ite ?_ hs
  have h1 : Alike s s1 := tellSvc_alike (setSlot_alike hs)
  exact .ite h1 (setSlot_alike h1)

/-! ### Machine/Retire -/

theorem holdCompl_alike {q : Nat} {c : Machine.Compl} (hs : Alike s₀ s) : Alike s₀ (holdCompl s q c) := updQueue_alike hs

theorem gridGone_alike {g : Nat} (hs : Alike s₀ s) : Alike s₀ (gridGone s g) := setGrid_alike hs

theorem wakeStop_alike {g : Nat} (hs : Alike s₀ s) : Alike s₀ (wakeStop s g) := .ite hs (wakeWarps_alike hs)

theorem gridDone_alike {g : Nat} (hs : Alike s₀ s) : Alike s₀ (gridDone s g) := by
  unfold gridDone
  refine .ite hs ?_
  split
  · exact hs
  · exact gridGone_alike (holdCompl_alike hs)

theorem gridLess_alike {g n : Nat} (hs : Alike s₀ s) : Alike s₀ (gridLess s g n) := gridDone_alike (updGrid_alike hs)

/-- A warp that ends keeps its lanes and masks. -/
theorem ended_warpKept {x y : Warp} (h : look y = { look x with live := false }) : WarpKept x y := by
  have hlive : y.live = false := congrArg Look.live h
  refine ⟨fun hx => ?_, fun hy => ?_, fun hy => ?_⟩
  · rw [wellFormed_iff_look, h]
    exact hx
  · rw [hlive] at hy
    cases hy
  · rw [hlive] at hy
    cases hy

theorem retireWarp_kept {w : Nat} (hs : Kept s₀ s) : Kept s₀ (retireWarp s w) := by
  unfold retireWarp
  extract_lets x g s1
  have h1 : Kept s₀ s1 := (setWarp_kept hs (ended_warpKept rfl)).alike (gridLess_alike (.refl _))
  exact .ite (.ite (h1.alike (wakeStop_alike (.refl s1))) h1) hs

/-! ### Machine/Package -/

theorem execWqry_keeps {h : Hdr} {a : Reg} : Keeps s (execWqry h a s) := by
  refine issued_keeps fun ix t _ ht => ?_
  extract_lets x y v
  split
  · exact trivial
  · extract_lets fs
    clear_value fs
    exact .ite trivial (.ok ⟨ht.of⟩)

theorem execWqryReply_keeps {n : Nat} : Keeps s (execWqryReply n s) := by
  unfold execWqryReply
  refine keeps_next fun hs => ?_
  split
  · exact hs
  · exact flipThread_alike (updTeam_alike (.ite (updGrid_alike ⟨hs.of⟩) ⟨hs.of⟩))

theorem signalOut_alike {p c w : Nat} {op : SigOp} {b : Word} {pa : Nat} {t : Bool} (hs : Alike s₀ s) :
    Alike s₀ (signalOut s p c w op b pa t) := by
  unfold signalOut
  refine .ite (.ite (wakeWord_alike ?_) (tellDropped_alike hs)) (.ite (sendReq_alike (fst_ite_alike hs (addReq_alike hs)))
    (tellDropped_alike hs))
  split
  · exact clearResv_alike (rawWrite_alike (l2Evict_alike hs))
  · exact l2Evict_alike hs

theorem sendSignal_alike {ix : Ix} {op : SigOp} {b : Word} {a : Acc} (hs : Alike s₀ s) : Alike s₀ (sendSignal s ix op b a) :=
  signalOut_alike hs

theorem execSignal_keeps {h : Hdr} {op : SigOp} {rel : Bool} {o : OpSig} : Keeps s (execSignal h op rel o s) := by
  refine issued_keeps fun ix t _ ht => ?_
  extract_lets x bv p0 p1 p
  have hp : Alike t p.s := planMem_alike ht
  have hl : (p.calls.map (·.lane)).Nodup := calls_nodup (p := p1) (planMem_nodup (List.nodup_singleton _))
  refine .ite (finishCalls_kept hp hl fun _ hu => hu) (.ite hp (.ite hp (finishCalls_kept hp hl fun _ hu => .ite hu ?_)))
  exact foldl_alike (fun _ _ => sendSignal_alike) (beforeReqs_alike hu)

theorem hostFresh_alike {pa : Nat} (hs : Alike s₀ s) : Alike s₀ (hostFresh s pa) := .ite (l2Evict_alike hs) hs

theorem waitsRead_alike {p pa : Nat} {t : Bool} (hs : Alike s₀ s) : Alike s₀ (waitsRead s p pa t).1 :=
  fst_ite_alike (tellRefused_alike hs) (homeRead_alike (hostFresh_alike hs))

theorem execWaits_keeps {h : Hdr} {cc : Cc} {acq : Bool} {o : OpSig} : Keeps s (execWaits h cc acq o s) := by
  refine issued_keeps fun ix t _ ht => ?_
  extract_lets x bv p0 p
  have hp : Alike t p.s := planMem_alike ht
  have hl : (p.calls.map (·.lane)).Nodup := calls_nodup (p := p0) (planMem_nodup (List.nodup_singleton _))
  refine .ite (finishCalls_kept hp hl fun _ h => h) (.ite hp ?_)
  split
  · exact finishCalls_kept hp hl fun _ h => h
  · extract_lets r
    have hr : Alike t r.1 := fst_ite_alike hp (waitsRead_alike (readAtHome_alike hp))
    exact .ite trapPoison_kept (.ite (.ok (.ite (acquire_alike hr) hr)) hr)

theorem waitsTest_alike {w : Nat} {host : Bool} (hs : Alike s₀ s) : Alike s₀ (waitsTest s w host) := by
  unfold waitsTest
  split
  · exact .ite hs (.ite (updWarp_alike (fst_ite_alike hs (waitsRead_alike hs))) (fst_ite_alike hs (waitsRead_alike hs)))
  · exact hs

theorem execCmpl_keeps {h : Hdr} {a : Reg} : Keeps s (execCmpl h a s) :=
  issued_keeps fun _ _ _ ht => .ite trivial (.ite ht (.ok (updWarp_alike (holdCompl_alike (release_alike ht)))))

theorem dresserWrite_alike {pa : Nat} {l : Leaf} {w : Word} (hs : Alike s₀ s) : Alike s₀ (dresserWrite s pa l w) :=
  homeWrite_alike hs

theorem readRecord_alike {w va : Nat} (hs : Alike s₀ s) : (readRecord s w va).Alike s₀ := by
  unfold readRecord
  refine foldl_induct (P := RecRead.Alike s₀) (fun _ _ ht => ?_) hs
  split
  · split
    next e => exact (needWord_alike ht).of_eq e
    · exact trivial
    next e => exact (needWord_alike ht).of_eq e
  · exact ht

theorem ringPut_kept {ix : Ix} {p q : Nat} {ws : List Word} (hs : Alike s₀ s) : (ringPut s ix p q ws).Kept s₀ := by
  unfold ringPut
  dsimp only
  split
  · exact askHost_alike hs
  · exact .ok (priTaken_alike (updQueue_alike hs))
  · exact .ite (.ok (updQueue_alike (tellDropped_alike hs))) (.ok (tailWrite_alike (foldl_alike (fun _ _ => dresserWrite_alike)
      (l1Evict_alike hs))))

theorem execDlaunch_keeps {h : Hdr} {a b : Reg} : Keeps s (execDlaunch h a b s) := by
  unfold execDlaunch
  refine issued_keeps fun ix t _ ht => .ite trivial (.ite ht ?_)
  split
  · exact ht
  · exact trivial
  next e =>
    have hu := (readRecord_alike ht).of_eq e
    exact .ite (release_alike hu) (ringPut_kept (release_alike hu))

theorem icDrop_alike {c : Nat} {v : Option Nat} (hs : Alike s₀ s) : Alike s₀ (icDrop s c v) := updCore_alike hs

/-! ### Machine/Dresser -/

theorem dresserWord_alike {p va : Nat} (hs : Alike s₀ s) : (dresserWord s p va).Alike s₀ := by
  unfold dresserWord
  split
  · exact trivial
  · exact trivial
  · exact .ite hs (.ite trivial (.ite trivial (homeRead_alike (hostFresh_alike hs))))

theorem dresserRead_alike {p va n : Nat} (hs : Alike s₀ s) : (dresserRead s p va n).Alike s₀ := by
  refine .ite trivial (foldl_induct (P := DRead.Alike s₀) (fun r i hr => ?_) hs)
  cases r with
  | ok t vs =>
    have hw : (dresserWord t p (va + 8 * i)).Alike s₀ := dresserWord_alike hr
    dsimp only
    split
    · rename_i e
      rw [e] at hw
      exact hw
    · exact hw
  | owed iova => exact hr
  | fail => exact hr

theorem dresserTold_alike {p va n : Nat} {need : Need} (hs : Alike s₀ s) : Alike s₀ (dresserTold s p va n need) := by
  unfold dresserTold
  split
  · exact tellRefused_alike hs
  · exact hs

theorem dresserVal_alike {p va : Nat} (hs : Alike s₀ s) : (dresserVal s p va).Alike s₀ := by
  unfold dresserVal
  split
  next e => exact .ite trivial ((dresserRead_alike hs).of_eq e)
  · exact trivial
  · exact trivial

theorem someGridno_alike (hs : Alike s₀ s) : Alike s₀ (someGridno s).2 := takeFree_alike hs

theorem badRecord_alike {q index status : Nat} {err : Bool} (hs : Alike s₀ s) : Alike s₀ (badRecord s q index status err) :=
  .ite (updQueue_alike (holdCompl_alike (someGridno_alike hs))) (holdCompl_alike (someGridno_alike hs))

theorem bindVersion_alike {p : Nat} {ws : List Word} (hs : Alike s₀ s) : Alike s₀ (bindVersion s p ws).2 := by
  unfold bindVersion
  extract_lets v e cur r n
  refine snd_ite_alike hs (snd_ite_alike hs ?_)
  dsimp only
  exact updPart_alike (takeFree_alike hs)

theorem bindRecord_alike {p : Nat} {ws : List Word} (hs : Alike s₀ s) : Alike s₀ (bindRecord s p ws).2 := by
  unfold bindRecord
  split
  · exact bindPages_alike (bindVersion_alike hs)
  · exact hs

theorem newGrid_alike {p q index ver : Nat} {ws : List Word} {node : Option (Nat × Nat)} (hs : Alike s₀ s) :
    Alike s₀ (newGrid s p q index ver ws node) :=
  setGrid_alike ⟨hs.of⟩

theorem startNodes_alike {fuel k : Nat} {ns : List (Nat × Bool)} (hs : Alike s₀ s) : Alike s₀ (startNodes fuel s k ns) := by
  induction fuel generalizing s k ns with
  | zero => exact hs
  | succ fuel ih =>
    refine foldl_alike (fun t e ht => .ite ht (.ite (setGraph_alike ht) ?_)) hs
    split
    · exact newGrid_alike (setGraph_alike ht)
    · exact ih (setGraph_alike ht)
    · exact setGraph_alike ht

theorem startAll_alike {k : Nat} {ns : List (Nat × Bool)} (hs : Alike s₀ s) : Alike s₀ (startAll s k ns) := startNodes_alike hs

theorem graphEnds_alike {k : Nat} (hs : Alike s₀ s) : Alike s₀ (graphEnds s k) := setGraph_alike hs

theorem graphFail_alike {k status : Nat} (hs : Alike s₀ s) : Alike s₀ (graphFail s k status) :=
  graphEnds_alike (badRecord_alike hs)

theorem graphDone_alike {k : Nat} (hs : Alike s₀ s) : Alike s₀ (graphDone s k) :=
  .ite (graphEnds_alike (holdCompl_alike (someGridno_alike hs))) hs

theorem sigTold_alike {p : Nat} {g : Option (SigOp × Nat × Word)} (hs : Alike s₀ s) : Alike s₀ (sigTold s p g) := by
  unfold sigTold
  split
  · exact dresserTold_alike hs
  · exact hs

theorem sigPerform_alike {p : Nat} {g : Option (SigOp × Nat × Word)} {pl : SigPlace} (hs : Alike s₀ s) :
    Alike s₀ (sigPerform s p g pl) := by
  unfold sigPerform
  split
  · exact signalOut_alike hs
  · exact hs

theorem releasePart_alike {p : Nat} (hs : Alike s₀ s) : Alike s₀ (releasePart s p) := foldl_alike (fun _ _ => release_alike) hs

theorem nodeDone_alike {k i : Nat} (hs : Alike s₀ s) : Alike s₀ (nodeDone s k i) := by
  unfold nodeDone
  dsimp only
  split
  · exact askHost_alike hs
  · exact graphFail_alike (priTaken_alike (sigTold_alike hs))
  · exact graphDone_alike (startAll_alike (setGraph_alike (sigPerform_alike (releasePart_alike hs))))

theorem execGraphNodeComplete_keeps {graph node : Nat} : Keeps s (execGraphNodeComplete graph node s) := by
  unfold execGraphNodeComplete
  refine keeps_next fun hs => .ite hs ?_
  split
  · exact .ite (nodeDone_alike hs) hs
  · split
    · refine .ite hs (.ite (graphEnds_alike (gridGone_alike hs)) ?_)
      split
      · exact askHost_alike hs
      · exact nodeDone_alike (setGraph_alike (gridGone_alike hs))
    · exact hs
  · exact hs

theorem execLoopCondition_keeps {graph node : Nat} : Keeps s (execLoopCondition graph node s) := by
  unfold execLoopCondition
  refine keeps_next fun hs => .ite hs ?_
  split
  · exact askHost_alike hs
  · exact graphFail_alike (priTaken_alike (dresserTold_alike hs))
  next e =>
    have ht := (dresserVal_alike hs).of_eq e
    exact .ite (nodeDone_alike ht) (startAll_alike (setGraph_alike ht))

theorem bindNodes_alike {p : Nat} {nodes : List (List Word)} (hs : Alike s₀ s) : Alike s₀ (bindNodes s p nodes).2 :=
  foldl_induct (P := fun p : List Nat × State => Alike s₀ p.2) (fun _ _ => bindRecord_alike) hs

theorem startGraph_alike {p q index : Nat} {ws : List Word} (hs : Alike s₀ s) : Alike s₀ (startGraph s p q index ws) := by
  unfold startGraph
  dsimp only
  split
  next e =>
    have ht := (dresserRead_alike hs).of_eq e
    exact .ite (badRecord_alike ht) (graphDone_alike (startAll_alike (setGraph_alike (bindNodes_alike ht))))
  · exact badRecord_alike (priTaken_alike (dresserTold_alike hs))

theorem launchRecord_alike {p q index ver : Nat} {ws : List Word} (hs : Alike s₀ s) :
    Alike s₀ (launchRecord s p q index ver ws) := by
  unfold launchRecord
  split
  · exact newGrid_alike hs
  · exact startGraph_alike hs
  · exact holdCompl_alike hs

theorem recordReady_alike {p : Nat} {ws : List Word} (hs : Alike s₀ s) : (recordReady s p ws).Alike s₀ := by
  unfold recordReady
  split
  · exact trivial
  · exact trivial
  next e => exact .ite ((dresserVal_alike hs).of_eq e) trivial

theorem rotateOn_alike {p q : Nat} {ws : List Word} (hs : Alike s₀ s) : Alike s₀ (rotateOn s p q ws) := updPart_alike hs

theorem wakeRing_alike {q : Nat} (hs : Alike s₀ s) : Alike s₀ (wakeRing s q) := wakeWarps_alike hs

theorem startRecord_alike {p q index : Nat} {ws : List Word} (hs : Alike s₀ s) : Alike s₀ (startRecord s p q index ws) :=
  .ite (badRecord_alike hs) (.ite (updQueue_alike (bindRecord_alike hs)) (launchRecord_alike
    (rotateOn_alike (bindRecord_alike hs))))

theorem execTakeRecord_keeps {q : Nat} : Keeps s (execTakeRecord q s) := by
  unfold execTakeRecord
  refine keeps_next fun hs => ?_
  split
  · exact hs
  extract_lets x s1
  have h1 : Alike s s1 := l2DropSystem_alike hs
  refine .ite hs ?_
  split
  · exact askHost_alike h1
  · exact .ite (priTaken_alike (updQueue_alike (dresserTold_alike h1))) h1
  next e =>
    have hu := (dresserRead_alike h1).of_eq e
    exact .ite (askHost_alike hu) (.ite h1 (startRecord_alike (wakeRing_alike (updQueue_alike hu))))

theorem waitHead_alike {p q : Nat} (hs : Alike s₀ s) : Alike s₀ (waitHead s p q) := by
  unfold waitHead
  dsimp only
  split
  · exact hs
  split
  · exact hs
  · exact askHost_alike hs
  · exact .ite (badRecord_alike (updQueue_alike (priTaken_alike (dresserTold_alike hs)))) hs
  next e =>
    have ht := (recordReady_alike hs).of_eq e
    exact .ite (askHost_alike ht) (.ite hs (launchRecord_alike (updQueue_alike (rotateOn_alike ht))))

theorem waitNode_alike {k i : Nat} (hs : Alike s₀ s) : Alike s₀ (waitNode s k i) := by
  unfold waitNode
  refine .ite hs ?_
  split
  · exact hs
  · exact askHost_alike hs
  · exact graphFail_alike (priTaken_alike (dresserTold_alike hs))
  next e => exact startAll_alike (setGraph_alike ((recordReady_alike hs).of_eq e))

theorem execRecordWaitSatisfied_keeps {q : Nat} : Keeps s (execRecordWaitSatisfied q s) := by
  unfold execRecordWaitSatisfied
  refine keeps_next fun hs => ?_
  split
  · exact hs
  · exact foldl_alike (fun _ _ => waitNode_alike) (waitHead_alike (l2DropSystem_alike hs))

theorem wakeRecord_alike {q : Nat} {w : Option Nat} (hs : Alike s₀ s) : Alike s₀ (wakeRecord s q w) := by
  unfold wakeRecord
  split
  · exact .ite (updWarp_alike hs) hs
  · exact hs

theorem storeCompl_alike {x : Queue} {c : Machine.Compl} {pa : Nat} {l : Leaf} (hs : Alike s₀ s) :
    Alike s₀ (storeCompl s x c pa l) := by
  unfold storeCompl
  refine foldl_alike (fun _ _ ht => wakeWord_alike ?_) hs
  split
  · exact l2Clean_alike (dresserWrite_alike ht)
  · exact l2Clean_alike (dresserWrite_alike ht)
  · exact dresserWrite_alike ht

theorem writeCompl_alike {p q : Nat} {c : Compl} {rest : List Compl} {pl : SigPlace} {pa : Nat} {l : Leaf} (hs : Alike s₀ s) :
    Alike s₀ (writeCompl s p q c rest pl pa l) := by
  unfold writeCompl
  extract_lets x s1 s2 vf s3
  have h2 : Alike s₀ s2 := updQueue_alike (storeCompl_alike (releasePart_alike hs))
  have h3 : Alike s₀ s3 := .ite h2 ⟨h2.of⟩
  exact sigPerform_alike (wakeRecord_alike h3)

theorem execCompletionRecordWrite_keeps {q : Nat} : Keeps s (execCompletionRecordWrite q s) := by
  unfold execCompletionRecordWrite
  refine keeps_next fun hs => ?_
  split
  · refine .ite hs (.ite (updQueue_alike hs) ?_)
    extract_lets pl va
    split
    · exact askHost_alike hs
    · exact askHost_alike hs
    · extract_lets s1 c
      have h1 : Alike s s1 := priTaken_alike (.ite (sigTold_alike hs) hs)
      split
      · exact updQueue_alike h1
      · exact .ite (updQueue_alike (.ite h1 (tellDropped_alike h1))) (writeCompl_alike h1)
  · exact hs

theorem nurseryOf_alike (hs : Alike s₀ s) : Alike s₀ (nurseryOf s).1 := takeFree_alike (takeFree_alike hs)

/-- A new warp takes the number of no other. -/
theorem addWarp_kept {team : Nat} {x : Warp} (hx : x.wellFormed) (hs : Kept s₀ s) : Kept s₀ (addWarp s team x) := by
  have hself : warpOf (addWarp s team x) s.nextWarp = { x with age := s.age } := warpOf_setWarp_self ..
  have hother : ∀ w, w ≠ s.nextWarp → warpOf (addWarp s team x) w = warpOf s w := fun w hw => warpOf_setWarp_ne _ _ _ hw
  refine hs.trans ⟨Nat.le_succ _, fun h w => ?_, fun w hw hl => ?_⟩
  · by_cases hw : w = s.nextWarp
    · subst hw
      show (warpOf (addWarp s team x) s.nextWarp).wellFormed
      rw [hself]
      exact hx
    · show (warpOf (addWarp s team x) w).wellFormed
      rw [hother w hw]
      exact h w
  · have e : spGet Warp.none (addWarp s team x).warps w = warpOf s w := hother w (Nat.ne_of_lt hw)
    rw [e] at hl ⊢
    exact ⟨hl, fun _ => rfl⟩

theorem placeTeam_kept {g c base : Nat} (hs : Kept s₀ s) : Kept s₀ (placeTeam s g c base) := by
  unfold placeTeam
  extract_lets x ws t p0 s1 y s2 s3
  have h3 : Alike s s3 := updGrid_alike (setTeam_alike ⟨(l1Invalidate_alike (.refl s)).of⟩)
  refine hs.trans (foldl_kept (fun u k hu => ?_) h3.kept)
  exact addWarp_kept (wellFormed_newWarp ..) (hu.alike (nurseryOf_alike (.refl u)))

theorem execTeamPlace_keeps {grid : Nat} : Keeps s (execTeamPlace grid s) := by
  unfold execTeamPlace
  refine keeps_kept fun hs => .ite hs ?_
  split
  · exact hs
  split
  · exact placeTeam_kept hs
  · exact hs

theorem execWatchdogReport_keeps {w : Nat} : Keeps s (execWatchdogReport w s) := by
  refine keeps_next fun hs => .ite (foldl_alike (fun t e ht => ?_) hs) (.ite (updWarp_alike (tellSvc_alike hs)) hs)
  exact .ite (setGraph_alike (foldl_alike (fun _ _ => tellSvc_alike) ht)) ht

/-! ### Machine/Preempt -/

theorem endRuns_alike {c : Nat} {ws : List Nat} (hs : Alike s₀ s) : Alike s₀ (endRuns s c ws) :=
  .ite (tableBoundary_alike (updCore_alike hs)) hs

/-- A slot that a warp leaves. -/
theorem none_warpKept (x : Warp) : WarpKept x Warp.none := ⟨fun _ => wellFormed_none, nofun, nofun⟩

theorem dropTeam_kept {t : Nat} (hs : Kept s₀ s) : Kept s₀ (dropTeam s t) := by
  unfold dropTeam
  extract_lets x s1 s2 s3
  have h2 : Alike s s2 := endRuns_alike (updCore_alike (.refl s))
  have h3 : Kept s₀ s3 := foldl_kept (fun _ _ hu => setWarp_kept hu (none_warpKept _)) (hs.alike h2)
  exact h3.alike (wakeStop_alike (setTeam_alike (.refl s3)))

theorem killTeam_kept {t : Nat} (hs : Kept s₀ s) : Kept s₀ (killTeam s t) := by
  unfold killTeam
  extract_lets x n s1 s2 s3
  have h1 : Kept s₀ s1 := foldl_kept (fun _ _ hu => updWarp_kept hu fun _ => ended_warpKept rfl) hs
  exact .ite hs (h1.alike (wakeStop_alike (gridLess_alike (updGrid_alike (setTeam_alike (.refl s1))))))

theorem haltForStop_alike {w : Nat} (hs : Alike s₀ s) : Alike s₀ (haltForStop s w) :=
  .ite hs (.ite (endRun_alike hs) (setWarp_alike hs (look_stopWarp _)))

theorem stopGrid_alike {g : Nat} (hs : Alike s₀ s) : Alike s₀ (stopGrid s g) :=
  foldl_alike (fun _ _ ht => foldl_alike (fun _ _ => haltForStop_alike) (updTeam_alike ht)) hs

theorem resumeGrid_alike {g : Nat} (hs : Alike s₀ s) : Alike s₀ (resumeGrid s g) :=
  foldl_alike (fun _ _ ht => foldl_alike (fun _ _ hu => updWarp_alike hu) (updTeam_alike ht)) hs

theorem execPrmt_keeps {h : Hdr} {a : Reg} : Keeps s (execPrmt h a s) :=
  issued_keeps fun _ _ _ ht => .ite trivial (.ite (.ok ht) (.ite (.ok (resumeGrid_alike (updGrid_alike ht)))
    (.ok (wakeStop_alike (updWarp_alike (stopGrid_alike (updGrid_alike ht)))))))

theorem execTeamStopped_keeps {team : Nat} : Keeps s (execTeamStopped team s) :=
  keeps_next fun hs => .ite (wakeStop_alike (foldl_alike (fun _ _ hu => updWarp_alike hu look_backToSleep) (setTeam_alike hs))) hs

theorem blockWrite_alike {ps : List (Nat × Leaf)} {i : Nat} {w : Word} (hs : Alike s₀ s) : Alike s₀ (blockWrite s ps i w) := by
  unfold blockWrite
  split
  · exact dresserWrite_alike hs
  · exact hs

theorem blockEvict_alike {core : Nat} {ps : List (Nat × Leaf)} (hs : Alike s₀ s) : Alike s₀ (blockEvict s core ps) :=
  foldl_alike (fun _ _ => foldl_alike (fun _ _ => l1Evict_alike)) hs

theorem blockOp_kept {ix : Ix} {v : Val} {next : State → List (Nat × Leaf) → Res} (hs : Alike s₀ s)
    (hnext : ∀ t ps, Alike s₀ t → (next t ps).Kept s₀) : (blockOp ix s v next).Kept s₀ := by
  unfold blockOp
  refine .ite trivial ?_
  split
  · exact trivial
  · exact trivial
  · exact hs
  · exact hs
  · exact .ite hs (hnext _ _ (blockEvict_alike hs))

theorem execCtxsv_keeps {h : Hdr} {a : Reg} : Keeps s (execCtxsv h a s) := by
  refine issued_keeps fun ix t _ ht => blockOp_kept ht fun u ps hu => .ite (.ok (blockWrite_alike hu)) ?_
  split
  · exact .ok (blockWrite_alike hu)
  refine .ite (.ok (blockWrite_alike (takeFree_alike hu))) ?_
  split
  · exact takeFree_alike hu
  · exact trivial
  · refine dropTeam_kept (Alike.kept (foldl_alike (fun _ _ => blockWrite_alike) (foldl_alike (fun _ _ => blockWrite_alike) ?_)))
    exact release_alike (blockEvict_alike (takeFree_alike hu))

theorem enterTeam_kept {c base : Nat} {r : Restored} (hr : ∀ x ∈ r.warps, x.wellFormed) (hs : Kept s₀ s) :
    Kept s₀ (enterTeam s c base r) := by
  unfold enterTeam
  extract_lets t w0 p0 x s1 y s2 s3
  have h2 : Alike s s2 := setTeam_alike ⟨(l1Invalidate_alike (.refl s)).of⟩
  have h3 : Kept s₀ s3 := List.foldlRecOn r.warps _ (hs.alike h2) fun u hu y hy => addWarp_kept (hr y hy) hu
  refine foldl_kept (fun u o hu => ?_) h3
  split
  · exact hu.alike (updCore_alike (.refl u))
  · exact hu.alike (updCore_alike (.refl u))

theorem execCtxld_keeps {h : Hdr} {a : Reg} : Keeps s (execCtxld h a s) := by
  unfold execCtxld
  dsimp only
  refine issued_keeps fun ix t _ ht => blockOp_kept ht fun u ps hu => .ite (.ok (blockWrite_alike hu)) ?_
  split
  · exact hu
  · exact trivial
  next qs _ =>
    have hq : Alike t (blockEvict u (warpOf t ix.w).core qs) := blockEvict_alike hu
    split
    · exact .ok (blockWrite_alike hq)
    next r hr =>
      split
      · exact .ok (blockWrite_alike hq)
      next c base _ =>
        have hteam : Kept t (enterTeam (blockEvict u (warpOf t ix.w).core qs) c base r) :=
          enterTeam_kept (readBlock_wellFormed (Option.ite_none_left_eq_some.mp hr).2) hq.kept
        exact hteam.alike (blockWrite_alike (.refl _))

/-! ### Machine/Partition -/

theorem runtimeWarp_kept {p c root scratch entry prio : Nat} {super : Bool} (hs : Kept s₀ s) :
    Kept s₀ (runtimeWarp s p c root scratch entry prio super) := by
  have hteam : ∀ x, Alike s (setTeam { (nurseryOf s).1 with nextTeam := s.nextTeam + 1 } s.nextTeam x) := fun x =>
    setTeam_alike ⟨(nurseryOf_alike (.refl s)).of⟩
  refine addWarp_kept (wellFormed_fresh rfl depths_readyLanes ?_) (hs.alike (hteam _))
  exact (statusOk_reset.setBit (by decide) _).setBit (by decide) _

theorem startService_kept {p : Nat} (hs : Kept s₀ s) : Kept s₀ (startService s p) := .ite hs (runtimeWarp_kept hs)

theorem startCollector_kept {c prio : Nat} {entry : Word} (hs : Kept s₀ s) : Kept s₀ (startCollector s c prio entry) := by
  unfold startCollector
  split
  · exact hs
  · exact .ite hs (runtimeWarp_kept hs)

theorem setValid_kept {p : Nat} (hs : Kept s₀ s) : Kept s₀ (setValid s p) := by
  have hp : ∀ x, Kept s₀ (setPart { s with vfReset := s.vfReset.filter (fun e => decide (e.2 ≠ p + 1)) } p x) := fun x =>
    hs.alike (setPart_alike ⟨(Alike.refl s).of⟩)
  exact .ite (startService_kept (hp _)) hs

theorem resetReq_alike {r : AswReq} (hs : Alike s₀ s) : Alike s₀ (resetReq s r) := by
  unfold resetReq
  split
  · exact ⟨hs.of⟩
  · exact ⟨hs.of⟩
  · exact wakeHome_alike (wakeDrained_alike (answerReq_alike (elim_alike hs (fun _ => tellDropped_alike hs))))
  · exact wakeHome_alike (wakeDrained_alike (answerReq_alike hs))

theorem dropLines_alike {p : Nat} (hs : Alike s₀ s) : Alike s₀ (dropLines s p) :=
  foldl_alike (fun _ _ ht => .ite (setL2_alike (.ite (l2Clean_alike ht) ht)) ht) ⟨hs.of⟩

theorem resetPart_kept {p : Nat} (hs : Kept s₀ s) : Kept s₀ (resetPart s p) := by
  unfold resetPart
  extract_lets x cs gs s1 s2 s3 s4 lost keep s5 s6 s7 s8 w s9 y
  have h1 : Kept s₀ s1 := ⟨hs.of⟩
  have h2 : Kept s₀ s2 := foldl_kept (fun _ _ => dropTeam_kept) h1
  have h3 : Alike s2 s3 := foldl_alike (fun _ _ => gridGone_alike) (.refl s2)
  have h4 : Alike s2 s4 := ⟨h3.of⟩
  have h5 : Alike s2 s5 := ⟨h4.of⟩
  have h6 : Alike s2 s6 := foldl_alike (fun _ _ => resetReq_alike) h5
  have h7 : Alike s2 s7 := dropLines_alike h6
  have h8 : Alike s2 s8 := foldl_alike (fun _ _ => setCore_alike) h7
  have h9 : Alike s2 s9 := ⟨h8.of⟩
  exact h2.alike (setPart_alike h9)

theorem execPartitionRecordWrite_keeps {chip part word : Nat} {v : Word} :
    Keeps s (execPartitionRecordWrite chip part word v s) := by
  unfold execPartitionRecordWrite
  refine keeps_kept fun hs => .ite hs ?_
  extract_lets p s1 s2
  have h1 : Kept s s1 := .ite (resetPart_kept hs) hs
  have h2 : Kept s s2 := h1.alike (updPart_alike (.refl s1))
  exact .ite h2 (.ite (.ite h2 (setValid_kept h2)) (h2.alike (updPart_alike (.refl s2))))

theorem execTbgo_keeps {part : Nat} : Keeps s (execTbgo part s) := by
  unfold execTbgo
  extract_lets s1
  refine keeps_next fun hs => ?_
  have h1 : Alike s s1 := .ite (updPart_alike (tbDrop_alike hs)) hs
  exact .ite (updOwn_alike (ownDrop_alike h1)) h1

theorem execPriResponse_keeps {part iova : Nat} {ok : Bool} {hpa : Nat} : Keeps s (execPriResponse part iova ok hpa s) := by
  unfold execPriResponse
  refine keeps_next fun hs => foldl_alike (fun _ _ ht => ?_) (updPart_alike ⟨hs.of⟩)
  split
  · exact .ite (updWarp_alike ht) ht
  · exact .ite (updWarp_alike ht) ht
  · exact ht

theorem execAtsInvalidation_keeps {part iova : Nat} : Keeps s (execAtsInvalidation part iova s) := by
  unfold execAtsInvalidation
  refine keeps_next fun hs => ?_
  split
  · exact hs
  · exact updPart_alike (foldl_alike (fun _ _ => updCore_alike) (foldl_alike (fun _ _ => l2Clean_alike)
      (foldl_alike (fun _ _ => foldl_alike (fun _ _ => l1Clean_alike)) hs)))

/-! ### Machine/HostLink -/

theorem agentWrite_alike {pa : Nat} {bs : List Byte} {tag : Tag} (hs : Alike s₀ s) : Alike s₀ (agentWrite s pa bs tag) :=
  foldl_alike (fun _ _ ht => .ite (elim_alike ht (fun _ => tellSvc_alike ht)) (wakeWord_alike (homeWrite_alike ht))) hs

theorem winEnable_alike {vf win : Nat} {v : Word} (hs : Alike s₀ s) : Alike s₀ (winEnable s vf win v) := by
  unfold winEnable
  refine .ite (.ite hs (setWin_alike hs)) ?_
  split <;> exact setWin_alike hs

theorem arrivalStore_alike {vf : Nat} {w : Win} (hs : Alike s₀ s) : Alike s₀ (arrivalStore s vf w) :=
  agentWrite_alike (l2CleanSystem_alike hs)

theorem consumerRead_alike {vf : Nat} {w : Win} (hs : Alike s₀ s) : Alike s₀ (consumerRead s vf w).1 :=
  homeRead_alike (l2DropSystem_alike hs)

theorem execStreamPublish_keeps {vf win : Nat} : Keeps s (execStreamPublish vf win s) :=
  keeps_next fun hs => .ite hs (arrivalStore_alike (setWin_alike (agentWrite_alike (withFree_alike (consumerRead_alike hs)))))

theorem winSkip_alike {vf win : Nat} {v : Word} (hs : Alike s₀ s) : Alike s₀ (winSkip s vf win v) :=
  .ite hs (arrivalStore_alike (setWin_alike hs))

theorem winWrite_alike {vf win off : Nat} {v : Word} (hs : Alike s₀ s) : Alike s₀ (winWrite s vf win off v) := by
  unfold winWrite
  split
  · exact winEnable_alike hs
  · exact .ite hs (setWin_alike hs)
  · exact .ite hs (setWin_alike hs)
  · exact .ite hs (setWin_alike hs)
  · exact .ite hs (setWin_alike hs)
  · exact winSkip_alike hs
  · exact setWin_alike hs
  · exact setWin_alike hs
  · exact hs

theorem bar4Byte_alike {vf p off : Nat} {b : Byte} (hs : Alike s₀ s) : Alike s₀ (bar4Byte s vf p off b) := by
  unfold bar4Byte
  split
  · exact hs
  split
  · exact setWin_alike hs
  · exact .ite (agentWrite_alike hs) (tellSvc_alike hs)

theorem vfWrite_alike {vf p bar off : Nat} {bs : List Byte} (hs : Alike s₀ s) : Alike s₀ (vfWrite s vf p bar off bs) := by
  unfold vfWrite
  split
  · refine foldl_alike (fun t e ht => ?_) hs
    split
    · exact queueWrite_alike ht
    · exact ht
  · refine foldl_alike (fun t e ht => .ite (winWrite_alike ht) (.ite (foldl_alike (fun u e hu => ?_) ht) ht)) hs
    exact .ite ⟨hu.of⟩ hu
  · refine foldl_alike (fun t e ht => ?_) hs
    exact bar4Byte_alike ht

theorem countVf_alike {vf : Nat} (hs : Alike s₀ s) : Alike s₀ (countVf s vf) := ⟨hs.of⟩

theorem tellVf_alike {vf bar off : Nat} (hs : Alike s₀ s) : Alike s₀ (tellVf s vf bar off) := by
  unfold tellVf
  split
  · exact tellSvc_alike hs
  · exact hs

theorem vfPosted_alike {vf bar off : Nat} {bs : List Byte} (hs : Alike s₀ s) : Alike s₀ (vfPosted s vf bar off bs) := by
  unfold vfPosted
  refine .ite hs (.ite (.ite (countVf_alike hs) hs) ?_)
  split
  · exact hs
  · exact .ite (vfWrite_alike hs) (tellVf_alike hs)

theorem answer_alike {a : Answer} (hs : Alike s₀ s) : Alike s₀ (answer s a) := ⟨hs.of⟩

theorem answerEarly_alike (hs : Alike s₀ s) : Alike s₀ (answerEarly s) :=
  .ite (answer_alike hs) (.ite (answer_alike (takeFree_alike hs)) (answer_alike ⟨(takeFree_alike hs).of⟩))

theorem vfRead_alike {vf bar off n : Nat} (hs : Alike s₀ s) : Alike s₀ (vfRead s vf bar off n) := by
  unfold vfRead
  refine .ite (answerEarly_alike hs) (.ite (answer_alike (countVf_alike hs)) ?_)
  split
  · exact answer_alike hs
  · exact .ite (answer_alike (tellVf_alike hs)) (.ite (answer_alike hs) (answer_alike hs))

theorem execInboundAtomicop_keeps {vf offset width : Nat} {op : PcieAtomic} {b c : Word} :
    Keeps s (execInboundAtomicop vf offset width op b c s) := by
  unfold execInboundAtomicop
  refine keeps_next fun hs => .ite (answerEarly_alike hs) (.ite (answer_alike (countVf_alike hs)) ?_)
  split
  · exact answer_alike hs
  split
  · exact answer_alike (tellVf_alike hs)
  · exact .ite (answer_alike hs) (.ite (answer_alike hs) (.ite (answer_alike (tellSvc_alike hs)) (sendReq_alike hs)))

theorem execVfFunctionLevelReset_keeps {vf : Nat} : Keeps s (execVfFunctionLevelReset vf s) := by
  unfold execVfFunctionLevelReset
  dsimp only
  refine keeps_kept fun hs => ?_
  have ht : ∀ r, Kept s (tellRoot s r) := fun r => hs.alike (tellRoot_alike (.refl s))
  split
  · exact ⟨(resetPart_kept (ht _)).of⟩
  · exact ht _

theorem execFabricRequest_keeps {src chip part pa : Nat} {t : Bool} {r : FabricReq} :
    Keeps s (execFabricRequest src chip part pa t r s) := by
  unfold execFabricRequest
  refine keeps_next fun hs => ?_
  split
  · exact .ite (answer_alike hs) (answer_alike (elim_alike (tellSvc_alike hs) (fun _ => tellSvc_alike (tellSvc_alike hs))))
  · exact .ite (agentWrite_alike hs) (elim_alike (tellSvc_alike hs) (fun _ => tellSvc_alike (tellSvc_alike hs)))
  · exact .ite (sendReq_alike hs) (answer_alike (elim_alike (tellSvc_alike hs) (fun _ => tellSvc_alike (tellSvc_alike hs))))

theorem dropLost_alike (hs : Alike s₀ s) : Alike s₀ (dropLost s) := by
  unfold dropLost
  refine foldl_alike (fun _ _ ht => ?_) ⟨hs.of⟩
  split
  · exact resetReq_alike ht
  · exact tellSvc_alike (resetReq_alike ht)

theorem execRemoteHomeLost_keeps {chip : Nat} : Keeps s (execRemoteHomeLost chip s) := by
  unfold execRemoteHomeLost
  extract_lets s1
  refine keeps_next fun hs => ?_
  have h1 : Alike s s1 := dropLost_alike ⟨hs.of⟩
  exact .ite (kvsdLost_alike (loseTriples_alike h1)) h1

/-! ### Machine/Soft -/

theorem countError_alike {k : SoftKind} {unit : Nat} (hs : Alike s₀ s) : Alike s₀ (countError s k unit) := ⟨hs.of⟩

theorem logError_alike {chip : Nat} {k : SoftKind} {unit addr cyc : Nat} {parts : List Nat} (hs : Alike s₀ s) :
    Alike s₀ (logError s chip k unit addr cyc parts) := by
  unfold logError
  extract_lets f r s1 seq part log s2
  have h1 : Alike s₀ s1 := by
    dsimp only [s1, r]
    split
    · exact hs
    · exact takeFree_alike hs
  have h2 : Alike s₀ s2 := ⟨h1.of⟩
  exact .ite (tellRoot_alike h2) (foldl_alike (fun _ _ => tellSvc_alike) h2)

theorem someCycles_alike (hs : Alike s₀ s) : Alike s₀ (someCycles s).2 := takeFree_alike hs

theorem markBad_alike {k : Nat} (hs : Alike s₀ s) : Alike s₀ (markBad s k) := .ite ⟨hs.of⟩ (setL2_alike ⟨hs.of⟩)

theorem l1Damage_alike {c k : Nat} (hs : Alike s₀ s) : Alike s₀ (l1Damage s c k) :=
  foldl_alike (fun _ _ ht => .ite ht (setL1_alike ht)) (.ite (foldl_alike (fun _ _ ht => markBad_alike (l1Clean_alike ht)) hs) hs)

theorem l2Damage_alike {k : Nat} (hs : Alike s₀ s) : Alike s₀ (l2Damage s k) :=
  foldl_alike (fun _ _ ht => .ite ht (setL2_alike ht)) (.ite (foldl_alike (fun _ _ ht => markBad_alike (l2Clean_alike ht)) hs) hs)

theorem wordDamage_alike {k : Nat} (hs : Alike s₀ s) : Alike s₀ (wordDamage s k) := by
  unfold wordDamage
  exact rawWrite_alike ⟨hs.of⟩

theorem scratchDamage_alike {team off : Nat} (hs : Alike s₀ s) : Alike s₀ (scratchDamage s team off) := by
  unfold scratchDamage
  exact updTeam_alike ⟨hs.of⟩

theorem residueDamage_alike {n : Nat} {attn : Bool} (hs : Alike s₀ s) : Alike s₀ (residueDamage s n attn) := .ite ⟨hs.of⟩ ⟨hs.of⟩

theorem aswDamage_alike {cluster n : Nat} (hs : Alike s₀ s) : Alike s₀ (aswDamage s cluster n) := by
  unfold aswDamage
  dsimp only
  split
  · exact loseReq_alike (setAsw_alike hs)
  · exact hs

theorem slotDamage_alike {core slot : Nat} (hs : Alike s₀ s) : Alike s₀ (slotDamage s core slot) := by
  unfold slotDamage
  split
  · exact hs
  · exact setReply_alike hs

theorem gridEnds_kept {g : Nat} (hs : Kept s₀ s) : Kept s₀ (gridEnds s g) :=
  foldl_kept (fun _ _ => killTeam_kept) (hs.alike (gridGone_alike (.refl s)))

theorem graphDamage_kept {k gridno : Nat} (hs : Kept s₀ s) : Kept s₀ (graphDamage s k gridno) := by
  unfold graphDamage
  extract_lets g s1
  have h1 : Kept s₀ s1 := hs.alike (holdCompl_alike (.refl s))
  exact .ite hs ((foldl_kept (fun _ _ => gridEnds_kept) h1).alike (graphEnds_alike (.refl _)))

theorem gridDamage_kept {g : Nat} (hs : Kept s₀ s) : Kept s₀ (gridDamage s g) := by
  unfold gridDamage
  refine .ite hs ?_
  split
  · exact .ite (graphDamage_kept hs) (gridEnds_kept hs)
  · exact gridEnds_kept (hs.alike (holdCompl_alike (.refl s)))

theorem counterDamage_alike {p : Nat} (hs : Alike s₀ s) : Alike s₀ (counterDamage s p) := by
  unfold counterDamage
  exact updPart_alike ⟨hs.of⟩

theorem channelFails_alike {pa : Nat} (hs : Alike s₀ s) : Alike s₀ (channelFails s pa) := tellRoot_alike ⟨hs.of⟩

theorem retriesOut_alike {k : SoftKind} {unit core slot : Nat} (hs : Alike s₀ s) : Alike s₀ (retriesOut s k unit core slot) := by
  unfold retriesOut
  split
  · exact hs
  · exact logError_alike (someCycles_alike (wakeHome_alike (wakeDrained_alike
      (tellSvc_alike (.ite (endReq_alike ⟨hs.of⟩) (updCore_alike ⟨hs.of⟩))))))

theorem execSoftError_keeps {k : SoftKind} {unit addr lane reg : Nat} {correctable : Bool} :
    Keeps s (execSoftError k unit addr lane reg correctable s) := by
  unfold execSoftError
  have hs : Alike s s := .refl s
  have hf : Alike s (someCycles s).2 := someCycles_alike hs
  refine keeps_kept fun _ => .ite (countError_alike (updCore_alike hs)).kept (.ite (countError_alike hs).kept ?_)
  split
  · exact (logError_alike (updWarp_alike hs)).kept
  · exact (logError_alike (scratchDamage_alike hs)).kept
  · exact (logError_alike (updTeam_alike hs)).kept
  · exact (logError_alike (foldl_alike (fun _ _ hu => updWarp_alike hu) hs)).kept
  · exact (logError_alike (l1Damage_alike hs)).kept
  · exact (logError_alike (slotDamage_alike hs)).kept
  · exact (logError_alike (l2Damage_alike hf)).kept
  · exact (logError_alike (wordDamage_alike hf)).kept
  · exact .ite (logError_alike (wordDamage_alike hf)).kept (channelFails_alike (logError_alike (wordDamage_alike hf))).kept
  · exact (logError_alike hf).kept
  · exact (logError_alike (residueDamage_alike hf)).kept
  · exact (logError_alike (aswDamage_alike hf)).kept
  · exact (gridDamage_kept hf.kept).alike (logError_alike (.refl _))
  · exact (graphDamage_kept hf.kept).alike (logError_alike (.refl _))
  · exact (logError_alike (counterDamage_alike hf)).kept
  · exact (logError_alike (updQueue_alike hf)).kept
  · exact (retriesOut_alike hs).kept
  · exact (retriesOut_alike hs).kept
  · exact .refl s

theorem execPatrolScrub_keeps {pa : Nat} {uncorrectable : Bool} : Keeps s (execPatrolScrub pa uncorrectable s) := by
  unfold execPatrolScrub
  refine keeps_next fun hs => ?_
  split
  · exact .ite (logError_alike (someCycles_alike (wordDamage_alike hs))) hs
  · exact hs

/-! ### Machine/Boot -/

/-- Warps of which some are dropped. -/
theorem filter_kept {p : Nat → Bool} {t : State} (hn : t.nextWarp = s.nextWarp) (hw : t.warps = s.warps.filter fun e => p e.1) : Kept s t := by
  refine .of_warps hn fun w => ?_
  rw [show warpOf t w = if p w then warpOf s w else Warp.none by rw [warpOf, hw, spGet_filter]; rfl]
  split
  · exact .refl _
  · exact none_warpKept _

theorem moduleReset_kept : Kept s (moduleReset s) := by
  unfold moduleReset
  extract_lets mine lost own s1
  have h1 : Alike s s1 := foldl_alike (fun _ _ => resetReq_alike) (.refl s)
  exact h1.then (filter_kept (p := fun k => own (warpPart s1 k)) rfl rfl)

theorem trainLinks_alike {i : BootIn} (hs : Alike s₀ s) : Alike s₀ (trainLinks i s) := by
  unfold trainLinks
  extract_lets s1 s2
  have h1 : Alike s₀ s1 := by
    refine foldl_alike (fun t n ht => ?_) hs
    exact ⟨ht.of⟩
  have h2 : Alike s₀ s2 := by
    refine foldl_alike (fun t n ht => ?_) h1
    exact ⟨ht.of⟩
  exact foldl_alike (fun _ _ => tellRoot_alike) h2

theorem clearMemory_alike (hs : Alike s₀ s) : Alike s₀ (clearMemory s) := ⟨hs.of⟩

theorem loadImages_alike {i : BootIn} {ks : List Nat} (hs : Alike s₀ s) : Alike s₀ (loadImages i ks s) := ⟨hs.of⟩

theorem stageWork_alike {i : BootIn} {stage : Nat} (hs : Alike s₀ s) : Alike s₀ (stageWork i stage s) := by
  unfold stageWork
  split
  · exact trainLinks_alike hs
  · exact loadImages_alike hs
  · exact clearMemory_alike hs
  · exact loadImages_alike hs
  · exact hs

theorem bootStep_alike (hs : Alike s₀ s) : Alike s₀ (bootStep s) := by
  unfold bootStep
  dsimp only
  split
  · exact hs
  split
  · exact ⟨hs.of⟩
  · exact .ite ⟨(stageWork_alike hs).of⟩ ⟨(stageWork_alike hs).of⟩

theorem bootStart_kept {i : BootIn} : Kept s (bootStart i s) := ⟨moduleReset_kept.of⟩

theorem execPfFunctionLevelReset_keeps {i : BootIn} : Keeps s (execPfFunctionLevelReset i s) :=
  keeps_kept fun _ => ⟨(bootStart_kept (i := i)).of⟩

theorem installImage_alike {k version : Nat} (hs : Alike s₀ s) : Alike s₀ (installImage s k version) := .ite ⟨hs.of⟩ hs

theorem spdmAnswer_alike {r : SpdmResp} (hs : Alike s₀ s) : Alike s₀ (spdmAnswer s r) := .ite ⟨hs.of⟩ hs

/-! ### Machine/Control -/

/-- What a lane without a cause does in a transfer. -/
def LaneKept (cause : Lane → Option Cause) (f : Lane → Lane) : Prop :=
  ∀ y, cause y = none → isAlive (f y) = isAlive y ∧ (y.csd ≤ 16 ∧ y.lcd ≤ 4 → (f y).csd ≤ 16 ∧ (f y).lcd ≤ 4)

theorem transfer_kept {c : Cond} {ix : Ix} {cause : Lane → Option Cause} {at_ : Lane → Word} {f : Lane → Lane} (nd : ix.exe.Nodup)
    (hf : LaneKept cause f) (hs : Alike s₀ s) : (transfer c ix s cause at_ f).Kept s₀ := by
  unfold transfer
  extract_lets x ls fs
  split
  · trivial
  next hfs =>
    have hcause : ∀ l ∈ ls, cause (laneOf x l) = none := fun l hl => by
      by_contra hne
      obtain ⟨k, hk⟩ := Option.ne_none_iff_exists'.mp hne
      have hmem : ⟨l, k, 0, ptrVal (at_ (laneOf x l))⟩ ∈ fs :=
        List.mem_append_right _ (List.mem_filterMap.mpr ⟨l, hl, by rw [hk]; rfl⟩)
      exact hfs (List.ne_nil_of_mem hmem)
    refine setWarp_kept hs.kept (updLanes_warpKept x (List.filter_sublist.nodup nd) (fun l hl ha => ?_) fun l hl h => ?_)
    · exact (hf _ (hcause l hl)).1.trans ha
    · exact (hf _ (hcause l hl)).2 h

theorem goLane_kept {pc : Word} : LaneKept (fun _ => none) (fun y => { y with lpc := pc }) := fun _ _ => ⟨rfl, id⟩

theorem callLane_kept {back pc : Word} :
    LaneKept (fun y => if 16 ≤ y.csd then some .lcstk else none)
      (fun y => { y with stk := spSet 0 y.stk y.csd back, csd := y.csd + 1, lpc := pc }) := by
  intro y hy
  have hroom : ¬ 16 ≤ y.csd := fun h => by
    have hsome := (if_pos h).symm.trans hy
    cases hsome
  exact ⟨rfl, fun h => ⟨by show y.csd + 1 ≤ 16; omega, h.2⟩⟩

theorem retLane_kept :
    LaneKept (fun y => if y.csd = 0 then some .ill else if fld (retAddr y) 0 3 ≠ 0 then some .align else none)
      (fun y => { y with csd := y.csd - 1, lpc := retAddr y }) :=
  fun _ _ => ⟨rfl, fun h => ⟨Nat.le_trans (Nat.sub_le _ _) h.1, h.2⟩⟩

/-- Lanes exit, and the JOINs that waited for them are passed. -/
theorem left_warpKept (x : Warp) (ls : List Nat) : WarpKept x (rejoin (exitLanes x ls)) :=
  (exitLanes_warpKept x ls).trans (.of_look (look_rejoin _))

theorem execSets_keeps {h : Hdr} {sp : WSpec} {a : Reg} : Keeps s (execSets h sp a s) := by
  refine issued_keeps fun ix t _ ht => ?_
  extract_lets x v cs
  split
  · trivial
  next hcs => exact setWarp_kept ht.kept (writeSpecial_warpKept x sp v (not_not.mp hcs))

theorem lcallLane_kept {ix : Ix} {off : BitVec 32} :
    LaneKept (fun y => if y.lcd = 4 ∨ (1 ≤ y.lcd ∧ 14 < y.csd) then some .lcstk else none) (lcallLane ix off) := by
  intro y hy
  have hc : CanCall y := fun h => by
    have hsome := (if_pos h).symm.trans hy
    cases hsome
  exact ⟨isAlive_enterCall .., enterCall_depths hc _ _⟩

theorem execLcall_keeps {h : Hdr} {o : OpBr} : Keeps s (execLcall h o s) := by
  refine issued_keeps fun ix t hx ht => ?_
  split
  next e =>
    have hu : Kept t _ := (transfer_kept hx lcallLane_kept ht).of_eq e
    exact Kept.ite hu (hu.alike (updWarp_alike (.refl _)))
  · exact transfer_kept hx lcallLane_kept ht

/-! ### Machine/Copy -/

theorem engRead_alike {core team va n : Nat} (hs : Alike s₀ s) : Alike s₀ (engRead s core team va n).1 := by
  unfold engRead
  split
  · exact hs
  refine fst_ite_alike hs ?_
  split
  next e => exact fst_alike_of_eq (l1Read_alike hs) e
  next e => exact fst_ite_alike (fst_alike_of_eq (l1Read_alike hs) e) (fst_alike_of_eq (l1Read_alike hs) e)

theorem engWrite_alike {core team va n x : Nat} (hs : Alike s₀ s) : Alike s₀ (engWrite s core team va n x).1 := by
  unfold engWrite
  split
  · exact hs
  · exact fst_ite_alike hs (fst_ite_alike (tellRefused_alike hs) (dropHeader_alike (l1Write_alike hs)))

theorem CopyRun.note_alike {r : CopyRun} {off : Nat} {c : Cause} {va : Nat} (hs : Alike s₀ r.s) :
    Alike s₀ (CopyRun.note r off c va).s := by
  unfold CopyRun.note
  split <;> exact hs

theorem CopyRun.bring_alike {r : CopyRun} {core : Nat} {o : CopyOp} {m : Swz} {va off n : Nat} (hr : Alike s₀ r.s) :
    Alike s₀ (r.bring core o m va off n).s := by
  unfold CopyRun.bring
  split
  next e =>
    dsimp only
    exact updTeam_alike (fst_alike_of_eq (engRead_alike hr) e)
  next e => exact CopyRun.note_alike (fst_alike_of_eq (engRead_alike hr) e)

theorem CopyRun.put_alike {r : CopyRun} {core : Nat} {o : CopyOp} {m : Swz} {off va n x : Nat} (hs : Alike s₀ r.s) :
    Alike s₀ (CopyRun.put r core o m off va n x).s := by
  unfold CopyRun.put
  split
  · exact CopyRun.note_alike hs
  split
  next e => exact fst_alike_of_eq (engWrite_alike hs) e
  next e => exact CopyRun.note_alike (fst_alike_of_eq (engWrite_alike hs) e)

theorem CopyRun.send_alike {r : CopyRun} {core : Nat} {o : CopyOp} {m : Swz} {off va n : Nat} (hs : Alike s₀ r.s) :
    Alike s₀ (CopyRun.send r core o m off va n).s :=
  CopyRun.put_alike hs

theorem zeroWords_alike {team : Nat} {m : Swz} {off n : Nat} (hs : Alike s₀ s) : Alike s₀ (zeroWords s team m off n) :=
  updTeam_alike hs

theorem CopyRun.header_alike {r : CopyRun} {core : Nat} {o : CopyOp} {h : Handle} (hs : Alike s₀ r.s) :
    Alike s₀ (CopyRun.header r core o h).s := by
  unfold CopyRun.header
  split
  · exact foldl_induct (P := fun p : CopyRun => Alike s₀ p.s) (fun _ _ => CopyRun.put_alike) (CopyRun.send_alike hs)
  · exact zeroWords_alike (CopyRun.bring_alike hs)

theorem CopyRun.row_alike {r : CopyRun} {core : Nat} {o : CopyOp} {h : Handle} {i va : Nat} (hs : Alike s₀ r.s) :
    Alike s₀ (CopyRun.row r core o h i va).s := by
  unfold CopyRun.row
  refine foldl_induct (P := fun p : CopyRun => Alike s₀ p.s) (fun _ _ ha => ?_) hs
  split
  · exact CopyRun.send_alike ha
  · exact CopyRun.bring_alike ha

theorem CopyRun.rows_alike {r : CopyRun} {core : Nat} {o : CopyOp} {h : Handle} (hs : Alike s₀ r.s) :
    Alike s₀ (CopyRun.rows r core o h).s := by
  unfold CopyRun.rows
  dsimp only
  refine foldl_induct (P := fun p : CopyRun => Alike s₀ p.s) (fun _ _ ha => ?_) hs
  split
  · exact CopyRun.note_alike ha
  split
  · exact CopyRun.row_alike ha
  split
  · exact ha
  · exact zeroWords_alike ha

theorem CopyRun.expand_alike {r : CopyRun} {core : Nat} {o : CopyOp} {h : Handle} {i g va : Nat} (hs : Alike s₀ r.s) :
    Alike s₀ (CopyRun.expand r core o h i g va).s := by
  unfold CopyRun.expand
  dsimp only
  refine updTeam_alike (foldl_induct (P := fun p : CopyRun × List (Option Nat) => Alike s₀ p.1.s) (fun _ _ ha => ?_) hs)
  split
  next e => exact fst_alike_of_eq (engRead_alike ha) e
  next e => exact CopyRun.note_alike (fst_alike_of_eq (engRead_alike ha) e)

theorem CopyRun.pack_alike {r : CopyRun} {core : Nat} {o : CopyOp} {h : Handle} {i g va : Nat} (hs : Alike s₀ r.s) :
    Alike s₀ (CopyRun.pack r core o h i g va).s :=
  foldl_induct (P := fun p : CopyRun => Alike s₀ p.s) (fun _ _ => CopyRun.put_alike) hs

theorem CopyRun.tap6Rows_alike {r : CopyRun} {core : Nat} {o : CopyOp} {h : Handle} (hs : Alike s₀ r.s) :
    Alike s₀ (CopyRun.tap6Rows r core o h).s := by
  unfold CopyRun.tap6Rows
  refine foldl_induct (P := fun p : CopyRun => Alike s₀ p.s) (fun _ _ ha => foldl_induct (P := fun p : CopyRun => Alike s₀ p.s)
    (fun _ _ ha1 => ?_) ha) hs
  split
  · exact CopyRun.pack_alike ha1
  · exact CopyRun.expand_alike ha1

theorem CopyRun.source_alike {r : CopyRun} {core : Nat} {o : CopyOp} {h : Handle} (hs : Alike s₀ r.s) :
    Alike s₀ (CopyRun.source r core o h).1.s := by
  unfold CopyRun.source
  dsimp only
  refine foldl_induct (P := fun p : CopyRun × List (Option Machine.Num) => Alike s₀ p.1.s) (fun _ _ ha => ?_) hs
  split
  next e => exact fst_alike_of_eq (engRead_alike ha) e
  next e => exact CopyRun.note_alike (fst_alike_of_eq (engRead_alike ha) e)

theorem CopyRun.quantise_alike {r : CopyRun} {core : Nat} {o : CopyOp} {h : Handle} (hs : Alike s₀ r.s) :
    Alike s₀ (CopyRun.quantise r core o h).s := by
  unfold CopyRun.quantise
  refine setTeam_alike (CopyRun.source_alike ?_)
  split
  · exact engRead_alike hs
  · exact CopyRun.note_alike (engRead_alike hs)

theorem wakeEngine_alike {c : Nat} (hs : Alike s₀ s) : Alike s₀ (wakeEngine s c) := wakeWarps_alike hs

theorem copyRun_alike {core : Nat} {o : CopyOp} (hs : Alike s₀ s) : Alike s₀ (copyRun s core o).s := by
  unfold copyRun
  split
  · exact CopyRun.quantise_alike hs
  · exact CopyRun.tap6Rows_alike (CopyRun.header_alike hs)
  · exact CopyRun.rows_alike (CopyRun.header_alike hs)

theorem execCopyExecute_keeps {core : Nat} : Keeps s (execCopyExecute core s) := by
  unfold execCopyExecute
  refine keeps_next fun hs => ?_
  split
  · exact hs
  refine .ite (askHost_alike hs) (wakeDrained_alike (wakeEngine_alike (flipThread_alike (priTaken_alike ?_))))
  split
  · exact recordFault_alike (copyRun_alike (updCore_alike hs))
  · exact copyRun_alike (updCore_alike hs)

/-! ### Machine/Masks -/

theorem writeMask_kept {w : Nat} {m : MaskNo} {v : Word} (hs : Alike s₀ s) : Kept s₀ (writeMask s w m v) :=
  updWarp_kept hs.kept fun x => (setMask_warpKept x m.val v).trans (.of_look (look_rejoin _))

theorem execMset_keeps {h : Hdr} {k : MsetKind} {m : MaskNo} {a : Reg} : Keeps s (execMset h k m a s) := by
  unfold execMset
  refine issued_keeps fun _ t _ ht => ?_
  have hw : ∀ w m v, (Res.ok (writeMask t w m v)).Kept t := fun _ _ _ => writeMask_kept ht
  split
  · exact hw ..
  · exact hw ..
  · exact hw ..
  · exact .ite trivial (hw ..)
  · exact .ite trapPoison_kept (hw ..)

/-! ### Machine/Debug -/

theorem dbgCommand_alike {chip : Nat} {by_ : Option Nat} {code : Nat} {a0 a1 a2 a3 : Word} (hs : Alike s₀ s) :
    Alike s₀ (dbgCommand s chip by_ code a0 a1 a2 a3).1 := by
  unfold dbgCommand
  refine fst_ite_alike hs ?_
  split
  · exact hs
  · exact fst_ite_alike hs hs
  · exact fst_ite_alike hs (fst_ite_alike hs (foldl_alike (fun _ _ => release_alike) hs))
  · refine fst_ite_alike hs ?_
    split <;> exact hs
  · exact fst_ite_alike hs (fst_ite_alike hs hs)
  · refine fst_ite_alike hs ?_
    split <;> exact hs
  · exact fst_ite_alike hs hs
  · exact hs

theorem dbgRun_alike {code : Nat} (hs : Alike s₀ s) : Alike s₀ (dbgRun s code) := .ite hs ⟨(dbgCommand_alike hs).of⟩

theorem dbgWrite_alike {off : Nat} {v : Word} (hs : Alike s₀ s) : Alike s₀ (dbgWrite s off v) := by
  unfold dbgWrite
  split
  · exact dbgRun_alike hs
  · exact ⟨hs.of⟩
  · exact ⟨hs.of⟩
  · exact ⟨hs.of⟩
  · exact ⟨hs.of⟩
  · exact hs

theorem execRegisterWrite_keeps {chip : Nat} {r : DevReg} {v : Word} : Keeps s (execRegisterWrite chip r v s) := by
  unfold execRegisterWrite
  have hs : Alike s s := .refl s
  refine keeps_kept fun hk => ?_
  split
  · exact (Alike.ite (queueWrite_alike hs) hs).kept
  · exact (controlWrite_alike hs).kept
  · exact (ownWrite_alike hs).kept
  · exact startCollector_kept hk
  · exact (Alike.ite (winWrite_alike hs) hs).kept
  · exact (dbgWrite_alike hs).kept
  · exact (updPart_alike hs).kept
  · exact .ite ⟨hk.of⟩ hk
  · exact ⟨hk.of⟩
  · exact (installImage_alike hs).kept

theorem execInboundPcieWrite_keeps {w : PcieWrite} : Keeps s (execInboundPcieWrite w s) := by
  unfold execInboundPcieWrite
  refine keeps_next fun hs => ?_
  split
  · exact vfPosted_alike hs
  refine .ite hs ?_
  split
  · refine foldl_alike (fun _ _ ht => ?_) hs
    exact .ite ht (dbgWrite_alike ht)
  refine foldl_alike (fun _ _ ht => ?_) hs
  exact .ite ⟨ht.of⟩ ht

theorem execInboundPcieRead_keeps {vf : Option Nat} {bar offset size : Nat} :
    Keeps s (execInboundPcieRead vf bar offset size s) := by
  unfold execInboundPcieRead
  refine keeps_next fun hs => ?_
  split
  · exact vfRead_alike hs
  · exact .ite (answer_alike hs) (answer_alike hs)

/-! ### Machine/Matrix -/

theorem accOp_kept {ix : Ix} {as : List Nat} {ill : List LFault} {checks : List (List LFault)} {f : Res} (hs' : f.Kept s₀) :
    (accOp ix s as ill checks f).Kept s₀ :=
  .ite trivial (.ite trivial hs')

theorem matEnter_kept {ix : Ix} {a : Nat} {k : MatKind} (hs : Alike s₀ s) : (matEnter s ix a k).Kept s₀ :=
  .ite hs (.ok (updCore_alike hs))

theorem mmaOp_kept {ix : Ix} {as : List Nat} {n : Nat} {ill : List LFault} {a b : Val} {k : MatKind} (hs : Alike s₀ s) :
    (mmaOp ix s as n ill a b k).Kept s₀ :=
  accOp_kept (matEnter_kept hs)

theorem execAccrd_keeps {h : Hdr} {acc : BitVec 5} {a : Reg} : Keeps s (execAccrd h acc a s) :=
  issued_keeps fun _ _ _ ht => accOp_kept (.ite ht (.ite trivial (.ok (flipThread_alike (updTeam_alike ht)))))

theorem scratchErrors_alike {team : Nat} {rs : List (Swz × Nat × Nat)} (hs : Alike s₀ s) : Alike s₀ (scratchErrors s team rs) :=
  .ite hs (foldl_alike (fun _ _ => recordFault_alike) hs)

theorem wakeAcc_alike {team : Nat} (hs : Alike s₀ s) : Alike s₀ (wakeAcc s team) := by
  refine mapWarps_alike hs fun _ x => ?_
  split
  · exact look_ite rfl rfl
  · rfl

theorem matHead_alike {core : Nat} {o : MatOp} (hs : Alike s₀ s) : Alike s₀ (matHead s core o) :=
  wakeAcc_alike (wakeEngine_alike (flipThread_alike (updTeam_alike (scratchErrors_alike (updCore_alike hs)))))

theorem execMatrixStep_keeps {core : Nat} : Keeps s (execMatrixStep core s) := by
  unfold execMatrixStep
  refine keeps_next fun hs => ?_
  split
  · exact .ite hs (matHead_alike hs)
  · exact hs

theorem execPairedStep_keeps {core : Nat} : Keeps s (execPairedStep core s) := by
  unfold execPairedStep
  refine keeps_next fun hs => ?_
  split
  · exact .ite (matHead_alike hs) hs
  · exact hs

/-! ### Machine/Sched -/

theorem passTurn_alike (hs : Alike s₀ s) : Alike s₀ (passTurn s) := ⟨hs.of⟩

/-! ### Machine/Dispatch -/

theorem exec_keeps {i : Instr} : Keeps s (exec i s) := by
  cases i with
  | add | sub | mul | div | rem => exact issued_keeps fun _ _ => arithOp_kept
  | fma | neg | abs | min | max | clamp | cmp | cmpm | cmpi | frnd | dot | cvt | pack | unpk | scaleq | qnt | tagof | tagas | tagm
    | bfx | bfi | mov | movi | movf | movl | sel | getl | mget | shfl | shflx | bcast | redux | scanx | gets | tile =>
    exact issued_keeps fun _ _ => laneOp_kept
  | sqrt | rcp | rsq | exp2 | log2 | sin | cos | tanh => exact issued_keeps fun _ _ => transcOp_kept
  | and | or | xor => exact issued_keeps fun _ _ => bitOp_kept
  | not | popc | clz | ctz | brev => exact issued_keeps fun _ _ => bitUnOp_kept
  | andi | ori | xori => exact issued_keeps fun _ _ => bitImm_kept
  | shl | shr | sar | rol => exact issued_keeps fun _ _ => shiftOp_kept
  | shli | shri => exact issued_keeps fun _ _ => shiftImm_kept
  | mulh | addw | subw | mulw | lea | ptrd => exact issued_keeps fun _ _ => pairOp_kept
  | setl => exact issued_keeps fun _ _ _ ht => .ite trivial (.ok (setWarp_alike ht (look_setSpecial ..)))
  | jmpi => exact issued_keeps fun _ _ _ ht => .ite trivial (.ok (setWarp_alike ht (look_updLanes _ fun _ _ => rfl)))
  | sets => exact execSets_keeps
  | lds => exact issued_keeps fun _ _ _ ht => .ite trivial (.ok (setWarp_alike ht (look_writeRegs ..)))
  | addi | muli => exact issued_keeps fun _ _ => arithImm_kept
  | bra => exact issued_keeps fun _ _ hx => transfer_kept hx goLane_kept
  | call => exact issued_keeps fun _ _ hx => transfer_kept hx callLane_kept
  | ret => exact issued_keeps fun _ _ hx => transfer_kept hx retLane_kept
  | exit => exact issued_keeps fun _ _ _ ht => .ite trivial (.ite (.ok ht) (retireWarp_kept (setWarp_kept ht.kept (left_warpKept ..))))
  | lcall => exact execLcall_keeps
  | join => exact issued_keeps fun _ _ _ ht => updWarp_kept ht.kept fun x => joinWarp_warpKept x _ _
  | leave => exact issued_keeps fun _ _ _ ht => writeMask_kept ht
  | yield => exact issued_keeps fun _ _ _ ht => .ok (updWarp_alike ht)
  | sleep => exact issued_keeps fun _ _ _ ht => .ok (updWarp_alike ht)
  | mset => exact execMset_keeps
  | mops | elect => exact issued_keeps fun _ _ _ => writeMask_kept
  | vote => exact issued_keeps fun _ _ hx ht => .ite trivial (laneOp_kept hx ht)
  | lret => exact issued_keeps fun _ _ hx ht => .ite trivial (.ite ht (setWarp_kept ht.kept (lretWarp_warpKept _ hx _)))
  | alloc => exact issued_keeps fun _ _ _ ht => .ite trivial (.ite trivial (.ok (setWarp_alike ht (look_writeRegs ..))))
  | trap | bkpt => exact issued_keeps fun _ _ _ _ => trivial
  | tret => exact issued_keeps fun _ _ _ ht => .ite (updWarp_kept ht.kept tretWarp_warpKept) trapOnce_kept
  | nop => exact issued_keeps fun _ _ _ ht => .ok ht
  | sleepExpiry => exact execSleepExpiry_keeps
  | trapEntry => exact execTrapEntry_keeps
  | runSelect => exact keeps_next selectRun_alike
  | resultArrival => exact execResultArrival_keeps
  | instructionFill => exact keeps_next fillLine_alike
  | translationWalkDone => exact keeps_next walkDone_alike
  | ld | ldr | lr => exact issued_keeps fun _ _ => loadOp_kept
  | st | str => exact issued_keeps fun _ _ => storeOp_kept
  | sc => exact execSc_keeps
  | fence => exact execFence_keeps
  | pf => exact execPf_keeps
  | cflush | cinv => exact issued_keeps fun _ _ => cacheOp_kept
  | ldh => exact execLdh_keeps
  | hcas => exact execHcas_keeps
  | sts => exact issued_keeps fun _ _ _ ht => .ite trivial (.ok (updTeam_alike ht))
  | satom => exact execSatom_keeps
  | cpy => exact issued_keeps fun _ _ _ ht => .ite trivial (.ite ht (.ite ht (.ok (updCore_alike ht))))
  | copyExecute => exact execCopyExecute_keeps
  | give => exact execGive_keeps
  | take => exact execTake_keeps
  | ownq => exact execOwnq_keeps
  | mma | mmap => exact issued_keeps fun _ _ _ => mmaOp_kept
  | mmab => exact issued_keeps fun _ _ _ ht => accOp_kept (.ite ht (.ite trivial (matEnter_kept ht)))
  | matrixStep => exact execMatrixStep_keeps
  | accz | accw | accld | bndset => exact issued_keeps fun _ _ _ ht => accOp_kept (matEnter_kept ht)
  | accrd => exact execAccrd_keeps
  | bndget => exact issued_keeps fun _ _ hx ht => accOp_kept (.ite ht (laneOp_kept hx ht))
  | bninit => exact execBninit_keeps
  | bna => exact issued_keeps fun _ _ _ ht => .ite trapOnce_kept (arriveOp_kept ht fun _ ht => .ok ht)
  | bnw => exact issued_keeps fun _ _ _ ht => .ite trapOnce_kept (benchWait_kept ht)
  | bnaw => exact execBnaw_keeps
  | atom => exact execAtom_keeps
  | vatom => exact execVatom_keeps
  | pairedStep => exact execPairedStep_keeps
  | aswRequest => exact execAswRequest_keeps
  | atomicReply => exact execAtomicReply_keeps
  | aswStallTimeout => exact keeps_next fun hs => .ite hs (aswStop_alike hs)
  | aswRestart => exact execAswRestart_keeps
  | kvapp => exact execKvapp_keeps
  | kvappPerform => exact execKvappPerform_keeps
  | ksel => exact issued_keeps fun _ _ _ ht => .ite trivial (.ite ht (.ite ht (.ok ⟨ht.of⟩)))
  | pageSelect => exact execPageSelect_keeps
  | kselComplete => exact execKselComplete_keeps
  | attn => exact execAttn_keeps
  | attnPartial => exact execAttnPartial_keeps
  | attnMerge => exact execAttnMerge_keeps
  | kvxl => exact issued_keeps fun _ _ hx ht => .ite trivial (.ite ht (laneOp_kept hx ht))
  | wqry => exact execWqry_keeps
  | wqryReply => exact execWqryReply_keeps
  | signal => exact execSignal_keeps
  | waits => exact execWaits_keeps
  | waitsRecheck | waitsHostPoll => exact keeps_next waitsTest_alike
  | cmpl => exact execCmpl_keeps
  | dlaunch => exact execDlaunch_keeps
  | kvret => exact execKvret_keeps
  | svcall => exact issued_keeps fun _ _ _ ht => .ite trapOnce_kept (.ok (updWarp_alike (tellSvc_alike ht)))
  | svcallReply => exact keeps_next fun hs => .ite (updWarp_alike hs) hs
  | ctxsv => exact execCtxsv_keeps
  | ctxld => exact execCtxld_keeps
  | prmt => exact execPrmt_keeps
  | teamStopped => exact execTeamStopped_keeps
  | icinv => exact issued_keeps fun _ _ _ ht => .ite trivial (.ok (foldl_alike (fun _ _ => icDrop_alike) ht))
  | kvmap => exact execKvmap_keeps
  | kvsd => exact execKvsd_keeps
  | ktbShootdownRequest => exact execKtbShootdownRequest_keeps
  | slotDrained => exact execSlotDrained_keeps
  | teamRelease => exact keeps_kept fun hs => .ite (dropTeam_kept hs) hs
  | teamPlace => exact execTeamPlace_keeps
  | queueTailWrite => exact keeps_next fun hs => .ite (tailWrite_alike hs) hs
  | queueCheadWrite => exact keeps_next fun hs => .ite (cheadWrite_alike hs) hs
  | queueEnableWrite => exact keeps_next fun hs => .ite (enableWrite_alike hs) hs
  | takeRecord => exact execTakeRecord_keeps
  | recordWaitSatisfied => exact execRecordWaitSatisfied_keeps
  | graphNodeComplete => exact execGraphNodeComplete_keeps
  | loopCondition => exact execLoopCondition_keeps
  | completionRecordWrite => exact execCompletionRecordWrite_keeps
  | watchdogReport => exact execWatchdogReport_keeps
  | partitionRecordWrite => exact execPartitionRecordWrite_keeps
  | partitionReset => exact keeps_kept resetPart_kept
  | ptrootWrite => exact keeps_next ptrootSet_alike
  | tbgo => exact execTbgo_keeps
  | regionTableWrite => exact keeps_next regionSet_alike
  | priResponse => exact execPriResponse_keeps
  | atsInvalidation => exact execAtsInvalidation_keeps
  | racqPromote => exact keeps_next fun hs => .ite ⟨(promote_alike hs).of⟩ hs
  | inboundPcieWrite => exact execInboundPcieWrite_keeps
  | inboundPcieRead => exact execInboundPcieRead_keeps
  | inboundAtomicop => exact execInboundAtomicop_keeps
  | vfFunctionLevelReset => exact execVfFunctionLevelReset_keeps
  | streamWindowEnable => exact keeps_next fun hs => .ite (winEnable_alike hs) hs
  | streamFrameWrite => exact keeps_next fun hs => .ite hs (setWin_alike hs)
  | streamPublish => exact execStreamPublish_keeps
  | streamSkip => exact keeps_next fun hs => .ite (winSkip_alike hs) hs
  | fabricRequest => exact execFabricRequest_keeps
  | linkDown => exact keeps_next fun hs => loseTriples_alike (dropLost_alike ⟨hs.of⟩)
  | networkRetryExhausted => exact keeps_next retriesOut_alike
  | remoteHomeLost => exact execRemoteHomeLost_keeps
  | patrolScrub => exact execPatrolScrub_keeps
  | powerOn => exact keeps_kept fun _ => bootStart_kept
  | pfFunctionLevelReset => exact execPfFunctionLevelReset_keeps
  | getVersion | getCapabilities | getDigests | getCertificate | challenge | getMeasurements => exact keeps_next spdmAnswer_alike
  | negotiateAlgorithms => exact keeps_next fun hs => .ite ⟨hs.of⟩ hs
  | readctx | readmem | flushp | readtab | readq | readunit | readlog => exact keeps_next dbgRun_alike
  | mailboxRequest => exact keeps_next fun hs => .ite hs ⟨(dbgCommand_alike hs).of⟩
  | registerWrite => exact execRegisterWrite_keeps
  | l1WriteBack => exact keeps_next (foldl_alike (fun _ _ ht => .ite ht (setL1_alike (l1Clean_alike ht))))
  | linkRetrain => exact keeps_next fun hs => .ite ⟨(foldl_alike (fun _ _ => emptyKtbs_alike) hs).of⟩ ⟨hs.of⟩
  | softError => exact execSoftError_keeps
  | aswFirmwareHalt => exact keeps_next aswStop_alike
  | teamKill => exact keeps_kept killTeam_kept
  | ktbAcknowledgment => exact execKtbAcknowledgment_keeps
  | markRegionTagged => exact keeps_next fun hs => .ite hs ⟨hs.of⟩

/-! ### Machine/Step -/

theorem stepTurn_keeps {t : Turn} : Keeps s (stepTurn t s) := by
  cases t with
  | ev i => exact exec_keeps
  | issue p =>
    have hr : (takeTurn s (p / 8) (p % 8)).Kept s := takeTurn_kept
    cases e : takeTurn s (p / 8) (p % 8) with
    | run i t =>
      rw [e] at hr
      simp only [stepTurn, e]
      exact .of_kept hr exec_keeps
    | done t =>
      rw [e] at hr
      simp only [stepTurn, e]
      exact keeps_kept fun _ => hr
  | boot => exact keeps_next bootStep_alike

theorem step_keeps : Keeps s (step s) := by
  unfold step
  split
  · exact .of_kept (withAgenda_alike (.refl s)).kept stepTurn_keeps
  · exact .of_kept (passTurn_alike (.refl s)).kept stepTurn_keeps

end

end Sys2Proof.Laws
end

section
/-! ## Every step keeps masks, call stacks, STATUS and privilege (O54) -/

namespace Sys2Proof.Laws
open Sys2Proof Sys2Proof.Machine

/-- Settles O54: a step makes of each warp only what `WarpKept` allows (`step_keeps`). -/
theorem stepKeepsWarpsWellFormed : Obligations.StepKeepsWarpsWellFormed := by
  unfold Obligations.StepKeepsWarpsWellFormed
  intro s t ht
  obtain ⟨u, hu, hk⟩ := step_keeps (s := s)
  have hst : u = t := Host.Outcome.next.inj (hu.symm.trans ht)
  subst hst
  exact ⟨hk.wf, fun w hw _ hs hl => (hk.old hw hl).2 hs⟩

end Sys2Proof.Laws
end

section
/-! ## What reports, answers and write-backs leave as it is (O52) -/

namespace Sys2Proof.Laws
open Sys2Proof Sys2Proof.Machine

/-- v shows nothing of partitions, cores and warps. -/
structure BesideUnits {α : Type} (v : State → α) : Prop where
  part : ∀ s p x, v (setPart s p x) = v s
  core : ∀ s c x, v (setCore s c x) = v s
  warps : ∀ s ws, v { s with warps := ws } = v s

/-- v shows nothing of memory and its shadow either, nor of the slices. -/
structure BesideMemory {α : Type} (v : State → α) : Prop extends BesideUnits v where
  store : ∀ s m t b l r, v { s with mem := m, tags := t, bad := b, l2 := l, l2lru := r } = v s

section
variable {α : Type} {v : State → α} {s : State}

theorem foldl_same {β : Type} {f : State → β → State} (hf : ∀ s b, v (f s b) = v s) (l : List β) (s : State) : v (l.foldl f s) = v s :=
  foldl_induct (P := fun t => v t = v s) (fun t b h => (hf t b).trans h) rfl

theorem ite_same {c : Prop} [Decidable c] {t u : State} (ht : v t = v s) (hu : v u = v s) : v (if c then t else u) = v s := by
  split <;> assumption

/-! ### Reports and answers -/

section
variable (hv : BesideUnits v)
include hv

theorem updCore_same (s : State) (c : Nat) (f : Core → Core) : v (updCore s c f) = v s := hv.core ..

theorem updWarp_same (s : State) (w : Nat) (f : Warp → Warp) : v (updWarp s w f) = v s := hv.warps ..

theorem tellSvc_same (s : State) (p : Nat) (r : Report) : v (tellSvc s p r) = v s := hv.part ..

theorem tellRefused_same (s : State) (p pa : Nat) : v (tellRefused s p pa) = v s := by
  unfold tellRefused
  have h1 := fun r => tellSvc_same hv s p r
  exact ite_same (ite_same (h1 _) ((tellSvc_same hv ..).trans (h1 _))) rfl

theorem tellDropped_same (s : State) (p pa : Nat) : v (tellDropped s p pa) = v s :=
  (tellRefused_same hv ..).trans (tellSvc_same hv ..)

theorem wakeHome_same (s : State) : v (wakeHome s) = v s := hv.warps ..

theorem wakeDrained_same (s : State) (w : Nat) : v (wakeDrained s w) = v s := by
  unfold wakeDrained
  split
  · exact ite_same rfl (updWarp_same hv ..)
  · exact ite_same rfl (updWarp_same hv ..)
  · rfl

theorem endReq_same (s : State) (c n : Nat) (vals : List (Dst × Val)) : v (endReq s c n vals) = v s := by
  unfold endReq
  split
  · rfl
  · exact (hv.warps ..).trans ((updWarp_same hv ..).trans (updCore_same hv ..))

theorem answerReq_same (s : State) (r : AswReq) (vals : List Val) : v (answerReq s r vals) = v s := by
  unfold answerReq
  refine ite_same rfl ?_
  split
  · exact endReq_same hv ..
  · exact updCore_same hv ..

/-- A request that a reset answers or drops. -/
theorem resetReq_same (ha : ∀ s as, v { s with answers := as } = v s) (s : State) (r : AswReq) : v (resetReq s r) = v s := by
  unfold resetReq
  split
  · exact ha ..
  · exact ha ..
  · refine (wakeHome_same hv _).trans ((wakeDrained_same hv ..).trans ((answerReq_same hv ..).trans ?_))
    cases corePart s r.core with
    | none => rfl
    | some p => exact tellDropped_same hv ..
  · exact (wakeHome_same hv _).trans ((wakeDrained_same hv ..).trans (answerReq_same hv ..))

end

/-! ### Write-backs -/

section
variable (hv : BesideMemory v)
include hv

theorem setL2_same (s : State) (k : Nat) (w : CWord) : v (setL2 s k w) = v s := hv.store ..

theorem rawWrite_same (s : State) (k : Nat) (data : Word) (mask : BitVec 8) (t : Option Tag) (bad : Bool) :
    v (rawWrite s k data mask t bad) = v s := by
  unfold rawWrite
  extract_lets s1 s2
  have h1 : v s1 = v s := foldl_same (fun u i => ite_same (hv.store ..) rfl) _ s
  have h2 : v s2 = v s := by
    dsimp only [s2]
    split
    · exact ite_same ((hv.store ..).trans h1) h1
    · exact h1
  exact (hv.store ..).trans h2

theorem l2Clean_same (s : State) (k : Nat) : v (l2Clean s k) = v s :=
  ite_same rfl ((setL2_same hv ..).trans (rawWrite_same hv ..))

theorem l2Evict_same (s : State) (line : Nat) : v (l2Evict s line) = v s :=
  foldl_same (fun _ _ => ite_same rfl ((setL2_same hv ..).trans (l2Clean_same hv ..))) _ s

theorem l2Touch_same (s : State) (line : Nat) : v (l2Touch s line) = v s := by
  unfold l2Touch
  extract_lets set ls s1
  have h1 : v s1 = v s := by
    dsimp only [s1]
    split
    · exact l2Evict_same hv ..
    · rfl
  exact (hv.store ..).trans h1

theorem l2Fill_same (s : State) (k : Nat) : v (l2Fill s k) = v s := ite_same rfl (setL2_same hv ..)

theorem clearResv_same (s : State) (k : Nat) (own : Option Nat) : v (clearResv s k own) = v s := ite_same (hv.warps ..) rfl

theorem homeWrite_same (s : State) (k : Nat) (data : Word) (mask : BitVec 8) (t : Option Tag) (bad : Bool) (own : Option Nat) :
    v (homeWrite s k data mask t bad own) = v s := by
  unfold homeWrite
  extract_lets s1 s2 s3 w
  have h1 : v s1 = v s := clearResv_same hv ..
  have h2 : v s2 = v s := (l2Touch_same hv ..).trans h1
  have h3 : v s3 = v s := ite_same ((l2Fill_same hv ..).trans h2) h2
  exact ite_same rfl (ite_same ((setL2_same hv ..).trans h3) ((rawWrite_same hv ..).trans h1))

theorem setL1_same (s : State) (c k : Nat) (w : CWord) : v (setL1 s c k w) = v s := updCore_same hv.toBesideUnits ..

theorem l1Clean_same (s : State) (c k : Nat) : v (l1Clean s c k) = v s := by
  unfold l1Clean
  extract_lets w s1 s2
  have h1 : v s1 = v s := setL1_same hv ..
  have h2 : v s2 = v s := (homeWrite_same hv ..).trans h1
  exact ite_same rfl (ite_same (ite_same ((setL1_same hv ..).trans h2) h2) ((tellDropped_same hv.toBesideUnits ..).trans h1))

/-- A release of package scope writes an L1 back. -/
theorem release_same (s : State) (c : Nat) : v (release s c .package) = v s := by
  unfold release
  rw [if_neg (show ¬ Scope.package = .system by decide)]
  exact ite_same (foldl_same (fun _ _ => l1Clean_same hv ..) _ s) rfl

end
end

end Sys2Proof.Laws
end

section
/-! ## Memory after power-up, and the boot sequence (O52) -/

namespace Sys2Proof.Laws
open Sys2Proof Sys2Proof.Machine

/-! ### A region is marked -/

/-- The words of a marked region are raw no longer: they read NIL, without a poisoned mark. -/
theorem exec_markRegionTagged {pa : Nat} (s : State) (hpa : pa < 2 ^ 52) :
    ∃ u, exec (.markRegionTagged pa) s = .next u ∧ isTagged u pa = true ∧
      (∀ k, k * 8 / 2 ^ 21 = pa / 2 ^ 21 → spGet .nil u.tags k = .nil ∧ spGet false u.bad k = false) ∧
      ∀ a, memByte u a = memByte s a := by
  have hhost : ¬ isHost pa = true := fun h => absurd (of_decide_eq_true h) (Nat.not_le_of_lt hpa)
  refine ⟨_, congrArg Host.Outcome.next (if_neg hhost), ?_, fun k hk => ?_, fun _ => rfl⟩
  · show (decide (pa < 2 ^ 52) && spGet false (spSet false s.tagged (pa / 2 ^ 21) true) (pa / 2 ^ 21)) = true
    rw [decide_eq_true hpa, spGet_spSet_self]
    rfl
  · have hmine : ¬ (!decide (k * 8 / 2 ^ 21 = pa / 2 ^ 21)) = true := by
      rw [decide_eq_true hk]
      decide
    exact ⟨(spGet_filter .nil (fun k => !decide (k * 8 / 2 ^ 21 = pa / 2 ^ 21)) s.tags k).trans (if_neg hmine),
      (spGet_filter false (fun k => !decide (k * 8 / 2 ^ 21 = pa / 2 ^ 21)) s.bad k).trans (if_neg hmine)⟩

/-! ### The module's reset -/

/-- A key of the module's own chip reads the default. -/
theorem spGet_otherChips {α : Type} (d : α) {n k : Nat} (m : Sparse α) (h : k < n) : spGet d (otherChips n m) k = d :=
  (spGet_filter d (fun k => decide (n ≤ k)) m k).trans (if_neg (by simpa using h))

/-- A reset leaves the units of the module's own chip at reset, and fuses and memory as they are. -/
structure ModuleReset (s u : State) : Prop where
  part : ∀ p, p < 16 → partOf u p = Machine.Part.none
  core : ∀ c, c < 512 → coreOf u c = Core.none
  asw : ∀ g, g < 80 → aswOf u g = Asw.none
  queue : ∀ q, q < 131072 → queueOf u q = Queue.none
  team : ∀ t, (teamOf u t).live = true → 16 ≤ (teamOf u t).part
  fuses : u.fuses = s.fuses
  mem : u.mem = s.mem

theorem moduleReset_spec (s : State) : ModuleReset s (moduleReset s) where
  part _ h := spGet_otherChips _ _ h
  core _ h := spGet_otherChips _ _ h
  asw g h := by
    unfold aswOf moduleReset
    dsimp only
    rw [spGet_spMap _ _ fun _ => rfl, spGet_otherChips _ _ h]
    rfl
  queue _ h := spGet_otherChips _ _ h
  team := spGet_of_forall (P := fun t : Team => t.live = true → 16 ≤ t.part) nofun fun _ he _ => of_decide_eq_true (List.mem_filter.mp he).2
  fuses := foldl_same (v := (·.fuses)) (resetReq_same ⟨fun _ _ _ => rfl, fun _ _ _ => rfl, fun _ _ => rfl⟩ fun _ _ => rfl) _ s
  mem := foldl_same (v := (·.mem)) (resetReq_same ⟨fun _ _ _ => rfl, fun _ _ _ => rfl, fun _ _ => rfl⟩ fun _ _ => rfl) _ s

/-! ### Stages -/

/-- v shows nothing of links, ports and reports. -/
structure BesideLinks {α : Type} (v : State → α) : Prop where
  links : ∀ s l, v { s with linkUp := l } = v s
  ports : ∀ s l, v { s with lost := l } = v s
  reports : ∀ s l, v { s with rootReports := l } = v s

/-- v shows nothing of what a stage works on. -/
structure BesideBoot {α : Type} (v : State → α) : Prop extends BesideLinks v where
  images : ∀ s m f, v { s with images := m, firmware := f } = v s
  store : ∀ s m b t r, v { s with mem := m, bad := b, tags := t, tagged := r } = v s

theorem trainLinks_same {α : Type} {v : State → α} (hv : BesideLinks v) (i : BootIn) (s : State) : v (trainLinks i s) = v s := by
  unfold trainLinks
  exact (foldl_same (fun _ _ => hv.reports ..) _ _).trans
    ((foldl_same (fun _ _ => hv.ports ..) _ _).trans (foldl_same (fun _ _ => hv.links ..) _ _))

theorem stageWork_same {α : Type} {v : State → α} (hv : BesideBoot v) (i : BootIn) (n : Nat) (s : State) : v (stageWork i n s) = v s := by
  unfold stageWork
  split
  · exact trainLinks_same hv.toBesideLinks i s
  · exact hv.images ..
  · exact hv.store ..
  · exact hv.images ..
  · rfl

/-- A map made key by key reads what each of its keys was given. -/
theorem spGet_foldl_keys {α : Type} [DecidableEq α] {d : α} {is : List Nat} {g : Nat → Nat} {f : Nat → α} (nd : (is.map g).Nodup) {k : Nat}
    (hk : k ∈ is) (m : Sparse α) : spGet d (is.foldl (fun m n => spSet d m (g n) (f n)) m) (g k) = f k := by
  have hpairs : is.foldl (fun m n => spSet d m (g n) (f n)) m = (is.map fun n => (g n, f n)).foldl (fun m e => spSet d m e.1 e.2) m :=
    (List.foldl_map (f := fun n => (g n, f n)) (g := fun m e => spSet d m e.1 e.2)).symm
  rw [hpairs]
  refine spGet_foldl_spSet (es := is.map fun n => (g n, f n)) ?_ (List.mem_map.mpr ⟨k, hk, rfl⟩) m
  rw [List.map_map]
  exact nd

/-- A field that a loop writes alone. -/
theorem foldl_field {α β : Type} {v : State → α} {f : State → β → State} {g : α → β → α} (h : ∀ s b, v (f s b) = g (v s) b) (l : List β)
    (s : State) : v (l.foldl f s) = l.foldl g (v s) := by
  induction l generalizing s with
  | nil => rfl
  | cons b r ih => exact (ih (f s b)).trans (by rw [List.foldl_cons, h])

/-- Stage 1: which links and ports carry traffic. -/
theorem trainLinks_spec (i : BootIn) (s : State) :
    (∀ k, k < 16 → spGet false (trainLinks i s).linkUp k = i.linkFail.contains k) ∧
    ∀ k, k < 4 → spGet false (trainLinks i s).lost (64 + k) = i.cxlFail.contains k := by
  unfold trainLinks
  extract_lets s1 s2
  have h1 : s1.linkUp = (List.range 16).foldl (fun m n => spSet false m n (i.linkFail.contains n)) s.linkUp :=
    foldl_field (v := (·.linkUp)) (fun _ _ => rfl) _ s
  have h2 : s2.lost = (List.range 4).foldl (fun m n => spSet false m (64 + n) (i.cxlFail.contains n)) s1.lost :=
    foldl_field (v := (·.lost)) (fun _ _ => rfl) _ s1
  have h12 : s2.linkUp = s1.linkUp := by
    refine foldl_same (v := (·.linkUp)) ?_ _ s1
    exact fun _ _ => rfl
  constructor
  · intro k hk
    rw [foldl_same (v := (·.linkUp)) (f := fun s n => tellRoot s (.linkDown 0 n)) (fun _ _ => rfl) _ s2, h12, h1]
    exact spGet_foldl_keys (g := fun n => n) (by decide) (List.mem_range.mpr hk) _
  · intro k hk
    rw [foldl_same (v := (·.lost)) (f := fun s n => tellRoot s (.linkDown 0 n)) (fun _ _ => rfl) _ s2, h2]
    exact spGet_foldl_keys (g := fun n => 64 + n) (by decide) (List.mem_range.mpr hk) _

/-- The images that run after stages 2 and 4. -/
theorem loadImages_spec {i : BootIn} {ks : List Nat} (nd : ks.Nodup) (s : State) :
    ∀ k ∈ ks, spGet 0 (loadImages i ks s).images k = (imageOf i k).version ∧ spGet [] (loadImages i ks s).firmware k = (imageOf i k).bytes := by
  have hkeys : (ks.map fun k => k).Nodup := by rwa [List.map_id']
  exact fun k hk => ⟨spGet_foldl_keys (g := fun k => k) hkeys hk _, spGet_foldl_keys (g := fun k => k) hkeys hk _⟩

/-- Stage 3: the module's memory is clear. -/
theorem clearMemory_spec (s : State) :
    (∀ a, memByte (clearMemory s) a = if a < 0x2000_0000_0000 then 0 else memByte s a) ∧
    ∀ k, k * 8 < 0x2000_0000_0000 → spGet .nil (clearMemory s).tags k = .nil ∧ spGet false (clearMemory s).bad k = false := by
  refine ⟨fun a => ?_, fun k hk => ⟨?_, ?_⟩⟩
  · refine (spGet_filter memDefault (fun a => !bootClears a) s.mem a).trans ?_
    by_cases ha : a < 0x2000_0000_0000
    · rw [if_pos ha, if_neg (by simp [bootClears, ha])]
      rfl
    · rw [if_neg ha, if_pos (by simp [bootClears, ha])]
      rfl
  · have hchip : paChip (k * 8) = 0 := by
      unfold paChip
      rw [if_pos (by omega)]
      omega
    exact (spGet_filter .nil (fun k => decide (paChip (k * 8) ≠ 0)) s.tags k).trans (if_neg (by simp [hchip]))
  · exact (spGet_filter false (fun k => !bootClears (k * 8)) s.bad k).trans (if_neg (by simp [bootClears, hk]))

/-- What each byte of memory is after a stage. -/
theorem memByte_stageWork (i : BootIn) (n : Nat) (s : State) (a : Nat) :
    memByte (stageWork i n s) a = if n = 3 ∧ a < 0x2000_0000_0000 then 0 else memByte s a := by
  have hother : n ≠ 3 → (stageWork i n s).mem = s.mem := by
    intro h3
    unfold stageWork
    split
    · exact trainLinks_same ⟨fun _ _ => rfl, fun _ _ => rfl, fun _ _ => rfl⟩ i s
    · rfl
    · exact absurd rfl h3
    · rfl
    · rfl
  by_cases h3 : n = 3
  · subst h3
    rw [show stageWork i 3 s = clearMemory s from rfl, (clearMemory_spec s).1 a]
    simp
  · rw [if_neg fun h => h3 h.1, memByte, hother h3]
    rfl

/-! ### A stage's turn -/

section
variable {i : BootIn} {n : Nat} {s : State} (hn : n ≤ 4) (hboot : s.boot = ⟨0, BitVec.ofNat 8 n, false⟩) (hrun : s.bootRun = some i)
include hn hboot

/-- The number of the stage under way. -/
theorem stage_toNat : s.boot.stage.toNat = n := by
  rw [hboot]
  exact (BitVec.toNat_ofNat n 8).trans (Nat.mod_eq_of_lt (by omega))

include hrun in
theorem bootStep_fails {err : Nat} (hf : bootFail s i = some (n, err)) :
    bootStep s = { s with boot := ⟨BitVec.ofNat 8 err, BitVec.ofNat 8 n, false⟩, bootRun := none } := by
  have hstage := stage_toNat hn hboot
  unfold bootStep
  rw [hrun]
  simp only [hstage, hf, Option.filter_some, decide_true, if_true]
  rw [hboot]

include hrun in
theorem bootStep_passes (hf : ∀ err, bootFail s i ≠ some (n, err)) :
    bootStep s = if n = 4 then { stageWork i n s with boot := ⟨0, 5, true⟩, bootRun := none }
      else { stageWork i n s with boot := ⟨0, BitVec.ofNat 8 (n + 1), false⟩ } := by
  have hstage := stage_toNat hn hboot
  have hnone : (bootFail s i).filter (fun f => decide (f.1 = n)) = none := by
    cases e : bootFail s i with
    | none => rfl
    | some f =>
      have hne : ¬ f.1 = n := fun h => hf f.2 (by rw [e, ← h])
      simp [hne]
  unfold bootStep
  rw [hrun]
  simp only [hstage, hnone]
  rw [stageWork_same (v := (·.boot)) ⟨⟨fun _ _ => rfl, fun _ _ => rfl, fun _ _ => rfl⟩, fun _ _ _ => rfl, fun _ _ _ _ _ => rfl⟩, hboot]

end

end Sys2Proof.Laws
end

section
/-! ## SPDM, debug commands, the mailbox and device registers (O52) -/

namespace Sys2Proof.Laws
open Sys2Proof Sys2Proof.Machine

/-! ### SPDM -/

theorem spdmAnswer_ready {s : State} (h : s.boot.ready = true) (r : SpdmResp) : spdmAnswer s r = { s with spdm := r } := if_pos h

theorem spdmAnswer_notReady {s : State} (h : s.boot.ready = false) (r : SpdmResp) : spdmAnswer s r = s :=
  if_neg (by rw [h]; exact Bool.false_ne_true)

/-- One measurement block of an index that names one. -/
theorem measureBlocks_one (s : State) {n : Nat} (h1 : 1 ≤ n) (h7 : n ≤ 7) : measureBlocks s n = [(n, measureBlock s n)] := by
  have hall : ¬ n = 0xFF := by omega
  rw [measureBlocks, if_neg hall, if_pos ⟨h1, h7⟩]
  rfl

theorem measureBlocks_none (s : State) {n : Nat} (h8 : 8 ≤ n) (hall : n ≠ 0xFF) : measureBlocks s n = [] := by
  have hno : ¬ (1 ≤ n ∧ n ≤ 7) := by omega
  rw [measureBlocks, if_neg hall, if_neg hno]
  rfl

theorem exec_getMeasurements_one {s : State} {n : Nat} {signed : Bool} {nonce : List Byte} (hr : s.boot.ready = true) (h1 : 1 ≤ n) (h7 : n ≤ 7)
    (hs : signed = false ∨ s.spdmExt = false) :
    exec (.getMeasurements n signed nonce) s = .next { s with spdm := .measurements [(n, measureBlock s n)] none } := by
  have hunsigned : ¬ (signed && s.spdmExt) = true := by
    rcases hs with h | h
    · simp [h]
    · simp [h]
  show execGetMeasurements n signed nonce s = _
  unfold execGetMeasurements
  rw [measureBlocks_one s h1 h7]
  dsimp only
  rw [if_neg (List.cons_ne_nil _ _), if_neg hunsigned, spdmAnswer_ready hr]

theorem exec_getMeasurements_none {s : State} {n : Nat} {signed : Bool} {nonce : List Byte} (hr : s.boot.ready = true) (h8 : 8 ≤ n)
    (hall : n ≠ 0xFF) : exec (.getMeasurements n signed nonce) s = .next { s with spdm := .error } := by
  show execGetMeasurements n signed nonce s = _
  unfold execGetMeasurements
  rw [measureBlocks_none s h8 hall]
  dsimp only
  rw [if_pos rfl, spdmAnswer_ready hr]

/-! ### Debug commands -/

theorem dbgRun_ignored {s : State} (code : Nat) (h : s.dbg.sts = 1) : dbgRun s code = s := if_pos h

theorem dbgRun_runs {s : State} (code : Nat) (h : s.dbg.sts ≠ 1) :
    dbgRun s code = { (dbgCommand s 0 none code s.dbg.arg0 s.dbg.arg1 s.dbg.arg2 s.dbg.arg3).1 with
      dbg := dbgResult s.dbg (dbgCommand s 0 none code s.dbg.arg0 s.dbg.arg1 s.dbg.arg2 s.dbg.arg3).2 } := if_neg h

/-- No command has a fourth argument. -/
theorem dbgCommand_arg3 (s : State) (chip : Nat) (by_ : Option Nat) (code : Nat) (a0 a1 a2 : Word) {a3 : Word} (h : a3 ≠ 0) :
    dbgCommand s chip by_ code a0 a1 a2 a3 = (s, .bad) := if_pos h

/-- Each of the seven commands runs its code. -/
theorem exec_command {e : Instr × Nat} (he : e ∈ ([(.readctx, 1), (.readmem, 2), (.flushp, 3), (.readtab, 4), (.readq, 5), (.readunit, 6),
    (.readlog, 7)] : List (Instr × Nat))) (s : State) : exec e.1 s = .next (dbgRun s e.2) := by
  simp only [List.mem_cons, List.not_mem_nil, or_false] at he
  rcases he with rfl | rfl | rfl | rfl | rfl | rfl | rfl <;> rfl

/-- A word of LPDDR-6 that the home answers for. -/
theorem memValue_lpddr {s : State} {p pa : Nat} (hchip : paChip pa = p / 16) (hreg : regionOf s pa = .lpddr)
    (hgood : (homePeek s (pa / 8)).bad = false) : (memValue s p pa).pay = (homePeek s (pa / 8)).data := by
  have hio : isMmio s pa = false := by rw [isMmio, hreg]
  have hans : homeAnswers s (p / 16) pa = true := by
    rw [homeAnswers, hreg, hchip]
    simp
  rw [memValue, hio, hans]
  dsimp only
  rw [hgood]
  rfl

theorem readMem_word {s : State} {p pa : Nat} (hpa : pa % 8 = 0) (hlt : pa < 2 ^ 46) (hp : p / 16 = 0) (hreg : regionOf s pa = .lpddr)
    (hgood : (homePeek s (pa / 8)).bad = false) :
    ∃ t, readMem s p (wd pa) 0 8 = .done (leBytes 8 (homePeek s (pa / 8)).data.toNat) t := by
  have hnat : (wd pa).toNat = pa := (BitVec.toNat_ofNat pa 64).trans (Nat.mod_eq_of_lt (by omega))
  have hchip : paChip pa = p / 16 := by
    unfold paChip
    rw [if_pos (by omega), hp]
    omega
  have hok : ¬ ((0 : Word) ≠ 0 || !lenOk 8 || decide (pa % 8 ≠ 0) || decide (2 ^ 52 < pa + (8 : Word).toNat) ||
      [pa].any (fun a => decide (regionOf s a = .unmapped))) = true := by
    simp [lenOk, hpa, hreg]
    omega
  have hks : (List.range ((8 : Word).toNat / 8)).map (fun i => pa + 8 * i) = [pa] := rfl
  unfold readMem
  rw [hnat, hks]
  dsimp only
  rw [if_neg hok]
  refine ⟨_, congrArg (DbgRes.done · _) ?_⟩
  rw [List.map_map]
  show wordBytes [(memValue s p pa).pay] = _
  rw [memValue_lpddr hchip hreg hgood]
  exact List.append_nil _

/-! ### The mailbox -/

/-- No command changes what the root monitor has answered. -/
theorem dbgCommand_mbox (s : State) (chip : Nat) (by_ : Option Nat) (code : Nat) (a0 a1 a2 a3 : Word) :
    (dbgCommand s chip by_ code a0 a1 a2 a3).1.mbox = s.mbox := by
  have hite : ∀ {c : Prop} [Decidable c] {p q : State × DbgRes}, p.1.mbox = s.mbox → q.1.mbox = s.mbox →
      (if c then p else q).1.mbox = s.mbox := fun hp hq => by split <;> assumption
  unfold dbgCommand
  refine hite rfl ?_
  split
  · rfl
  · exact hite rfl rfl
  · refine hite rfl (hite rfl ?_)
    exact foldl_same (v := (·.mbox)) (fun u c => release_same ⟨⟨fun _ _ _ => rfl, fun _ _ _ => rfl, fun _ _ => rfl⟩,
      fun _ _ _ _ _ _ => rfl⟩ u c) _ s
  · refine hite rfl ?_
    split <;> rfl
  · exact hite rfl (hite rfl rfl)
  · refine hite rfl ?_
    split <;> rfl
  · exact hite rfl rfl
  · rfl

/-- The answer that a result makes. -/
def mailOf (part : Nat) : DbgRes → Nat × Nat × List Byte × List Byte
  | .done b t => (part, 0, b, t)
  | .busy => (part, 2, [], [])
  | .refused => (part, 3, [], [])
  | .bad => (part, 4, [], [])

theorem exec_mailbox {s : State} (hr : s.boot.ready = true) (part code : Nat) (x y z : Word) {r : DbgRes}
    (h : (dbgCommand s (part / 16) (some part) code x y z 0).2 = r) :
    ∃ u, exec (.mailboxRequest part code x y z) s = .next u ∧ u.mbox = s.mbox ++ [mailOf part r] := by
  have hready : ¬ (!s.boot.ready) = true := by
    rw [hr]
    decide
  refine ⟨_, congrArg Host.Outcome.next (if_neg hready), ?_⟩
  dsimp only
  rw [dbgCommand_mbox, h]
  cases r <;> rfl

theorem exec_mailbox_notReady {s : State} (hr : s.boot.ready = false) (part code : Nat) (x y z : Word) :
    exec (.mailboxRequest part code x y z) s = .next s :=
  congrArg Host.Outcome.next (if_pos (by rw [hr]; rfl))

/-! ### State of another partition -/

section
variable {s : State} {part : Nat} {x y z : Word}

theorem lenOk_of (h : z.toNat % 8 = 0 ∧ z.toNat ≤ 65536) : ¬ (!lenOk z) = true := by
  rw [lenOk, decide_eq_true h]
  decide

/-- READCTX of another partition's team. -/
theorem readctx_refused {t : Nat} (ht : (spKeys s.teams).find? (fun t => (teamOf s t).live && decide (coreChip (teamOf s t).core = part / 16) &&
    decide (locWord s t = x)) = some t) (hok : z.toNat % 8 = 0 ∧ z.toNat ≤ 65536) (hp : (teamOf s t).part ≠ part) :
    (dbgCommand s (part / 16) (some part) 1 x y z 0).2 = .refused := by
  show readCtx s (part / 16) x y z (fun t => decide (t.part = part)) = .refused
  unfold readCtx
  rw [ht]
  dsimp only
  rw [if_neg (lenOk_of hok), if_pos (by rw [decide_eq_false hp]; rfl)]

/-- READMEM of a word that another partition owns. -/
theorem readmem_refused (hr : readMem s (part / 16 * 16 + part % 16) x y z ≠ .bad)
    (hown : ∃ i, i < z.toNat / 8 ∧ owns s part (x.toNat + 8 * i) = false) :
    (dbgCommand s (part / 16) (some part) 2 x y z 0).2 = .refused := by
  obtain ⟨i, hi, hown⟩ := hown
  have hall : ¬ (List.range (z.toNat / 8)).all (fun i => decide (paChip (x.toNat + 8 * i) = part / 16) && owns s part (x.toNat + 8 * i)) = true :=
    fun h => by
      have hmine := List.all_eq_true.mp h i (List.mem_range.mpr hi)
      rw [hown, Bool.and_false] at hmine
      exact Bool.false_ne_true hmine
  show (if readMem s (part / 16 * 16 + part % 16) x y z = .bad then (s, readMem s (part / 16 * 16 + part % 16) x y z) else _).2 = .refused
  rw [if_neg hr]
  exact if_neg hall

/-- FLUSHP of another partition. -/
theorem flushp_refused (hx : x.toNat < 16) (hp : part / 16 * 16 + x.toNat ≠ part) :
    (dbgCommand s (part / 16) (some part) 3 x 0 0 0).2 = .refused := by
  have hno : ¬ (16 ≤ x.toNat ∨ (0 : Word) ≠ 0 ∨ (0 : Word) ≠ 0) := by simpa using hx
  have hother : (!decide (part / 16 * 16 + x.toNat = part)) = true := by
    rw [decide_eq_false hp]
    rfl
  unfold dbgCommand
  rw [if_neg (by decide)]
  dsimp only
  rw [if_neg hno, if_pos hother]
  rfl

/-- READTAB of another partition's table. -/
theorem readtab_refused (h0 : fld x 16 48 = 0) (h16 : fld x 8 8 < 16) (hok : z.toNat % 8 = 0 ∧ z.toNat ≤ 65536)
    (htab : tableOf s (fld x 0 8) (part / 16 * 16 + fld x 8 8) ≠ none) (hp : part / 16 * 16 + fld x 8 8 ≠ part) :
    (dbgCommand s (part / 16) (some part) 4 x y z 0).2 = .refused := by
  obtain ⟨r, hr⟩ := Option.ne_none_iff_exists'.mp htab
  have hno : ¬ (fld x 16 48 ≠ 0 ∨ 16 ≤ fld x 8 8 ∨ (!lenOk z) = true) := by
    rintro (h | h | h)
    · exact h h0
    · omega
    · exact lenOk_of hok h
  have hother : (!decide (part / 16 * 16 + fld x 8 8 = part) || decide (fld x 0 8 = 0) && (some part).isSome) = true := by
    rw [decide_eq_false hp]
    rfl
  unfold dbgCommand
  rw [if_neg (by decide)]
  dsimp only
  rw [if_neg hno, hr]
  dsimp only
  rw [if_pos hother]
  rfl

/-- READQ of another partition's queue. -/
theorem readq_refused (hx : x.toNat < 131072) (hok : z.toNat % 8 = 0 ∧ z.toNat ≤ 65536)
    (hp : queuePart s (part / 16 * 131072 + x.toNat) ≠ some part) :
    (dbgCommand s (part / 16) (some part) 5 x y z 0).2 = .refused := by
  have hno : ¬ (131072 ≤ x.toNat ∨ (!lenOk z) = true) := by
    rintro (h | h)
    · omega
    · exact lenOk_of hok h
  unfold dbgCommand
  rw [if_neg (by decide)]
  dsimp only
  rw [if_neg hno, decide_eq_true hp]
  rfl

/-- READUNIT of a unit that is not the partition's. -/
theorem readunit_refused {idle : Bool} {d : Readable} (h0 : fld x 16 48 = 0) (hok : z.toNat % 8 = 0 ∧ z.toNat ≤ 65536)
    (hu : unitState s (part / 16) (fld x 14 2) (fld x 8 6) (fld x 0 8) = some (idle, d))
    (hcore : fld x 8 6 = 0 → part / 16 * 512 + fld x 14 2 * 80 + fld x 0 8 ∉ coresOf s part)
    (hcluster : fld x 8 6 = 2 → hasCluster (partOf s part) (fld x 14 2 * 20 + fld x 0 8) = false) :
    (dbgCommand s (part / 16) (some part) 6 x y z 0).2 = .refused := by
  have hno : ¬ (fld x 16 48 ≠ 0 ∨ (!lenOk z) = true) := by
    rintro (h | h)
    · exact h h0
    · exact lenOk_of hok h
  have hmine : ((decide (fld x 8 6 = 0) && (coresOf s part).contains (part / 16 * 512 + fld x 14 2 * 80 + fld x 0 8)) ||
      (decide (fld x 8 6 = 2) && hasCluster (partOf s part) (fld x 14 2 * 20 + fld x 0 8))) = false := by
    rw [Bool.or_eq_false_iff]
    constructor
    · by_cases h : fld x 8 6 = 0
      · have hno := hcore h
        simpa [h] using hno
      · rw [decide_eq_false h]
        rfl
    · by_cases h : fld x 8 6 = 2
      · rw [hcluster h, Bool.and_false]
      · rw [decide_eq_false h]
        rfl
  unfold dbgCommand
  rw [if_neg (by decide)]
  dsimp only
  rw [if_neg hno, hu]
  dsimp only
  rw [hmine]
  rfl

/-- READLOG of an entry about another partition. -/
theorem readlog_refused (hx : x.toNat < 2 ^ 32) (hz : z.toNat ≤ 1024) (hlog : ∃ e ∈ spGet [] s.errlog (part / 16),
    (e.seq + 2 ^ 32 - x.toNat) % 2 ^ 32 < z.toNat ∧ e.part ≠ part % 16) :
    (dbgCommand s (part / 16) (some part) 7 x 0 z 0).2 = .refused := by
  obtain ⟨e, he, hnamed, hp⟩ := hlog
  have hno : ¬ (2 ^ 32 ≤ x.toNat ∨ (0 : Word) ≠ 0 ∨ 1024 < z.toNat) := by
    rintro (h | h | h)
    · omega
    · exact h rfl
    · omega
  have hany : (spGet [] s.errlog (part / 16)).any (fun e => decide ((e.seq + 2 ^ 32 - x.toNat) % 2 ^ 32 < z.toNat) &&
      !decide (e.part = part % 16)) = true :=
    List.any_eq_true.mpr ⟨e, he, by rw [decide_eq_true hnamed, decide_eq_false hp]; rfl⟩
  unfold dbgCommand
  rw [if_neg (by decide)]
  dsimp only
  rw [if_neg hno, if_pos hany]
  rfl

end

/-! ### Device registers -/

/-- An image that is newer than the one that runs raises its fuse count alone. -/
theorem installImage_newer {s : State} {k v : Nat} (hr : s.boot.ready = true) (hk : k < 4) (hv : spGet 0 s.images k < v) :
    (installImage s k v).images = s.images ∧
      ∀ j, spGet 0 (installImage s k v).fuses j = if j = k then max (spGet 0 s.fuses k) v else spGet 0 s.fuses j := by
  rw [show installImage s k v = { s with fuses := spSet 0 s.fuses k (max (spGet 0 s.fuses k) v) } from if_pos ⟨hr, hk, hv⟩]
  exact ⟨rfl, fun j => spGet_spSet ..⟩

theorem installImage_other {s : State} {k v : Nat} (h : s.boot.ready = false ∨ 4 ≤ k ∨ v ≤ spGet 0 s.images k) : installImage s k v = s := by
  refine if_neg fun ⟨hr, hk, hv⟩ => ?_
  rcases h with h | h | h
  · rw [h] at hr
    exact Bool.false_ne_true hr
  · omega
  · omega

/-- A fabric access entry as it is written. -/
theorem fatEntry_written (b : Bool) (n : Nat) (hn : n < 16) :
    (if bitAt (wd ((if b = true then 16 else 0) + n)) 4 = true then some (fld (wd ((if b = true then 16 else 0) + n)) 0 4) else none) =
      if b = true then some n else none := by
  interval_cases n <;> cases b <;> decide

end Sys2Proof.Laws
end

section
/-! ## Bring-up, SPDM, debug, mailbox, and memory after power-up (O52) -/

namespace Sys2Proof.Laws
open Sys2Proof Sys2Proof.Machine

/-- POWER_ON and the PF's reset. -/
theorem exec_powerOn (i : BootIn) (s : State) :
    ∃ u, exec (.powerOn i) s = .next u ∧ u.boot = ⟨0, 1, false⟩ ∧ u.bootRun = some i ∧
      (∀ p, p < 16 → partOf u p = Machine.Part.none) ∧ (∀ c, c < 512 → coreOf u c = Core.none) ∧
      (∀ g, g < 80 → aswOf u g = Asw.none) ∧ (∀ q, q < 131072 → queueOf u q = Queue.none) ∧
      (∀ t, (teamOf u t).live = true → 16 ≤ (teamOf u t).part) ∧ (∀ k, spGet 0 u.fuses k = spGet 0 s.fuses k) ∧
      (∀ a, memByte u a = memByte s a) ∧
      exec (.pfFunctionLevelReset i) s = .next { u with errlog := s.errlog, errseq := s.errseq } := by
  obtain ⟨hpart, hcore, hasw, hqueue, hteam, hfuses, hmem⟩ := moduleReset_spec s
  exact ⟨bootStart i s, rfl, rfl, rfl, hpart, hcore, hasw, hqueue, hteam, fun k => congrArg (spGet 0 · k) hfuses,
    fun a => congrArg (spGet memDefault · a) hmem, rfl⟩

section
variable {i : BootIn} {n : Nat} {r : List Turn} {s : State} (hagenda : s.agenda = .boot :: r) (hrun : s.bootRun = some i) (hn : n ≤ 4)
  (hboot : s.boot = ⟨0, BitVec.ofNat 8 n, false⟩)
include hagenda

theorem step_boot : step s = .next (bootStep { s with agenda := r }) := by
  rw [step, hagenda]
  rfl

include hrun hn hboot

/-- A stage that fails. -/
theorem step_stageFails {err : Nat} (hf : bootFail s i = some (n, err)) :
    ∃ u, step s = .next u ∧ u.boot = ⟨BitVec.ofNat 8 err, BitVec.ofNat 8 n, false⟩ ∧ u.bootRun = none ∧ u.fuses = s.fuses ∧
      ∀ a, memByte u a = memByte s a :=
  ⟨_, (step_boot hagenda).trans (congrArg _ (bootStep_fails (s := { s with agenda := r }) hn hboot hrun hf)), rfl, rfl, rfl, fun _ => rfl⟩

/-- A stage that passes: its work is done on the state whose turn it is. -/
theorem step_stagePasses (hf : ∀ err, bootFail s i ≠ some (n, err)) :
    ∃ u, step s = .next u ∧ u.boot = (if n = 4 then ⟨0, 5, true⟩ else ⟨0, BitVec.ofNat 8 (n + 1), false⟩) ∧
      u.bootRun = (if n = 4 then none else some i) ∧ ∃ b br, u = { stageWork i n { s with agenda := r } with boot := b, bootRun := br } := by
  have hkeep : (stageWork i n { s with agenda := r }).bootRun = some i :=
    (stageWork_same (v := (·.bootRun)) ⟨⟨fun _ _ => rfl, fun _ _ => rfl, fun _ _ => rfl⟩, fun _ _ _ => rfl, fun _ _ _ _ _ => rfl⟩ ..).trans hrun
  have hpass := bootStep_passes (s := { s with agenda := r }) hn hboot hrun hf
  by_cases h4 : n = 4
  · exact ⟨_, (step_boot hagenda).trans (congrArg _ (hpass.trans (if_pos h4))), (if_pos h4).symm, (if_pos h4).symm, _, _, rfl⟩
  · exact ⟨_, (step_boot hagenda).trans (congrArg _ (hpass.trans (if_neg h4))), (if_neg h4).symm, hkeep.trans (if_neg h4).symm, _, _, rfl⟩

end

/-- What a stage that passes leaves. -/
theorem stage_passes {i : BootIn} {n : Nat} {r : List Turn} {s : State} (hagenda : s.agenda = .boot :: r) (hrun : s.bootRun = some i)
    (hn : n ≤ 4) (hboot : s.boot = ⟨0, BitVec.ofNat 8 n, false⟩) (hf : ∀ err, bootFail s i ≠ some (n, err)) :
    ∃ u, step s = .next u ∧ u.fuses = s.fuses ∧
      u.boot = (if n = 4 then ⟨0, 5, true⟩ else ⟨0, BitVec.ofNat 8 (n + 1), false⟩) ∧ u.bootRun = (if n = 4 then none else some i) ∧
      (n = 1 → (∀ k, k < 16 → spGet false u.linkUp k = i.linkFail.contains k) ∧
        ∀ k, k < 4 → spGet false u.lost (64 + k) = i.cxlFail.contains k) ∧
      (∀ k ∈ (if n = 2 then [0, 3] else if n = 4 then [1, 2] else []), spGet 0 u.images k = (imageOf i k).version ∧
        spGet [] u.firmware k = (imageOf i k).bytes) ∧
      (∀ a, memByte u a = if n = 3 ∧ a < 0x2000_0000_0000 then 0 else memByte s a) ∧
      (n = 3 → ∀ k, k * 8 < 0x2000_0000_0000 → spGet .nil u.tags k = .nil ∧ spGet false u.bad k = false) := by
  obtain ⟨u, hstep, hb, hbr, b, br, rfl⟩ := step_stagePasses hagenda hrun hn hboot hf
  refine ⟨_, hstep, ?_, hb, hbr, ?_, ?_, ?_, ?_⟩
  · exact stageWork_same (v := (·.fuses)) ⟨⟨fun _ _ => rfl, fun _ _ => rfl, fun _ _ => rfl⟩, fun _ _ _ => rfl, fun _ _ _ _ _ => rfl⟩ ..
  · rintro rfl
    exact trainLinks_spec i { s with agenda := r }
  · by_cases h2 : n = 2
    · subst h2
      exact loadImages_spec (by decide) { s with agenda := r }
    · rw [if_neg h2]
      by_cases h4 : n = 4
      · subst h4
        exact loadImages_spec (by decide) { s with agenda := r }
      · rw [if_neg h4]
        exact fun k hk => absurd hk List.not_mem_nil
  · exact memByte_stageWork i n { s with agenda := r }
  · rintro rfl
    exact (clearMemory_spec { s with agenda := r }).2

/-- A debug command's status and results. -/
theorem exec_debugCommand {e : Instr × Nat} (he : e ∈ ([(.readctx, 1), (.readmem, 2), (.flushp, 3), (.readtab, 4), (.readq, 5), (.readunit, 6),
    (.readlog, 7)] : List (Instr × Nat))) (s : State) :
    let d := s.dbg
    let r := (dbgCommand s 0 none e.2 d.arg0 d.arg1 d.arg2 d.arg3).2
    (d.sts = 1 → exec e.1 s = .next s) ∧
    (d.sts ≠ 1 → d.arg3 ≠ 0 → exec e.1 s = .next { s with dbg := { d with sts := 4, len := 0 } }) ∧
    (d.sts ≠ 1 → ∃ u, exec e.1 s = .next u ∧
      (∀ x t, r = .done x t → u.dbg = { d with sts := 0, len := x.length, data := x, tags := t }) ∧
      (r = .busy → u.dbg = { d with sts := 2, len := 0 }) ∧ (r = .refused → u.dbg = { d with sts := 3, len := 0 }) ∧
      (r = .bad → u.dbg = { d with sts := 4, len := 0 })) := by
  intro d r
  have hexec := exec_command he s
  refine ⟨fun h => ?_, fun h h3 => ?_, fun h => ⟨_, hexec.trans (congrArg _ (dbgRun_runs e.2 h)), ?_⟩⟩
  · rw [hexec, dbgRun_ignored e.2 h]
  · rw [hexec, dbgRun_runs e.2 h, dbgCommand_arg3 _ _ _ _ _ _ _ h3]
    rfl
  · exact ⟨fun _ _ hr => congrArg (dbgResult d) hr, congrArg (dbgResult d), congrArg (dbgResult d), congrArg (dbgResult d)⟩

/-- READMEM of a word of the module's own memory. -/
theorem exec_readmem_word {pa : Nat} {s : State} (hsts : s.dbg.sts ≠ 1) (h0 : s.dbg.arg0 = wd pa) (h1 : s.dbg.arg1 = 0) (h2 : s.dbg.arg2 = 8)
    (h3 : s.dbg.arg3 = 0) (hpa : pa % 8 = 0) (hlt : pa < 2 ^ 46) (hreg : regionOf s pa = .lpddr) (hgood : (homePeek s (pa / 8)).bad = false) :
    ∃ u, exec .readmem s = .next u ∧ u.dbg.sts = 0 ∧ u.dbg.data = leBytes 8 (homePeek s (pa / 8)).data.toNat := by
  obtain ⟨t, ht⟩ := readMem_word (p := 0) hpa hlt rfl hreg hgood
  have hr : (dbgCommand s 0 none 2 (wd pa) 0 8 0).2 = .done (leBytes 8 (homePeek s (pa / 8)).data.toNat) t := by
    unfold dbgCommand
    rw [if_neg (by decide)]
    dsimp only
    rw [ht]
    rfl
  refine ⟨_, congrArg Host.Outcome.next (dbgRun_runs 2 hsts), ?_, ?_⟩
  · dsimp only
    rw [h0, h1, h2, h3, hr]
    rfl
  · dsimp only
    rw [h0, h1, h2, h3, hr]
    rfl

/-- The mailbox refuses state of another partition. -/
theorem exec_mailbox_refused {s : State} (hr : s.boot.ready = true) {part code : Nat} {x y z : Word}
    (h : (dbgCommand s (part / 16) (some part) code x y z 0).2 = .refused) :
    ∃ u, exec (.mailboxRequest part code x y z) s = .next u ∧ u.mbox = s.mbox ++ [(part, 3, [], [])] := exec_mailbox hr part code x y z h

/-- Registers of queues, service cores, the debug window and the fabric access tables. -/
theorem exec_registerWrite_values {q part peer : Nat} (chip : Nat) (v : Word) (s : State) (hq : q < 131072) (hpeer : peer < 64)
    (hpart : part < 16) :
    (accepts s chip = false → ∀ off, exec (.registerWrite chip (.queue q off) v) s = .next s) ∧
    (accepts s chip = true → ∃ u, exec (.registerWrite chip (.queue q 0) v) s = .next u ∧
      queueOf u (chip * 131072 + q) = { queueOf s (chip * 131072 + q) with rbase := wd (v.toNat / 128 * 128) }) ∧
    (accepts s chip = true → ∃ u, exec (.registerWrite chip (.queue q 0x38) v) s = .next u ∧
      (queueOf u (chip * 131072 + q)).err = (queueOf s (chip * 131072 + q)).err &&& ~~~ BitVec.ofNat 4 (fld v 0 4)) ∧
    (∃ u, exec (.registerWrite chip (.service part 0) v) s = .next u ∧
      partOf u (chip * 16 + part) = { partOf s (chip * 16 + part) with
        own := { (partOf s (chip * 16 + part)).own with ptroot := wd (fld v 12 40 * 4096) } }) ∧
    exec (.registerWrite chip (.debug 0x110) v) s = .next { s with dbg := { s.dbg with arg0 := v } } ∧
    (∃ u, exec (.registerWrite chip (.fat chip part peer) v) s = .next u ∧
      fatEntry (partOf u (chip * 16 + part)) peer = if bitAt v 63 = true then some (fld v 0 4) else none) := by
  have hq' : q % 131072 = q := Nat.mod_eq_of_lt hq
  have hpart' : part % 16 = part := Nat.mod_eq_of_lt hpart
  have hpeer' : peer % 64 = peer := Nat.mod_eq_of_lt hpeer
  have hqueue : ∀ off, accepts s chip = true →
      exec (.registerWrite chip (.queue q off) v) s = .next (queueWrite s (chip * 131072 + q) (off % 64) v) := fun off h =>
    congrArg Host.Outcome.next ((if_pos h).trans (by rw [hq']))
  have hservice : exec (.registerWrite chip (.service part 0) v) s = .next (ownWrite s (chip * 16 + part) 0 v) :=
    congrArg (fun p => Host.Outcome.next (ownWrite s (chip * 16 + p) 0 v)) hpart'
  have hfat : exec (.registerWrite chip (.fat chip part peer) v) s = .next (updPart s (chip * 16 + part) fun x =>
      { x with fat := spSet 0 x.fat peer (wd ((if bitAt v 63 = true then 16 else 0) + fld v 0 4)) }) := by
    show Host.Outcome.next (updPart s (chip * 16 + part % 16) fun x =>
      { x with fat := spSet 0 x.fat (peer % 64) (wd ((if bitAt v 63 = true then 16 else 0) + fld v 0 4)) }) = _
    rw [hpart', hpeer']
  refine ⟨fun h off => congrArg Host.Outcome.next (if_neg (by rw [h]; exact Bool.false_ne_true)), fun h => ⟨_, hqueue 0 h, ?_⟩,
    fun h => ⟨_, hqueue 0x38 h, ?_⟩, ⟨_, hservice, ?_⟩, rfl, ⟨_, hfat, ?_⟩⟩
  · exact queueOf_setQueue_self ..
  · exact congrArg Queue.err (queueOf_setQueue_self ..)
  · exact partOf_setPart_self ..
  · rw [updPart, partOf_setPart_self]
    unfold fatEntry
    dsimp only
    rw [spGet_spSet_self]
    exact fatEntry_written _ _ (Nat.mod_lt _ (by decide))

/-- Settles O52: each part is a fact about one of the functions that bring the module up, debug it or write its registers. -/
theorem bringUpAndDebug : Obligations.BringUpAndDebug := by
  unfold Obligations.BringUpAndDebug
  refine ⟨fun pa s h => exec_markRegionTagged s h, exec_powerOn, fun i n r s hagenda hrun _ hn hboot => ⟨?_, ?_⟩, fun s => ⟨?_, ?_⟩, ?_,
    fun e he s => exec_debugCommand he s, fun pa s hsts h0 h1 h2 h3 hpa hlt => exec_readmem_word hsts h0 h1 h2 h3 hpa hlt, ?_, ?_, ?_,
    fun chip q part peer v s => exec_registerWrite_values chip v s⟩
  · exact fun err => step_stageFails hagenda hrun hn hboot
  · exact stage_passes hagenda hrun hn hboot
  · intro hr e he
    simp only [List.mem_cons, List.not_mem_nil, or_false] at he
    rcases he with rfl | rfl | rfl <;> exact congrArg _ (spdmAnswer_ready hr _)
  · intro hr e he
    simp only [List.mem_cons, List.not_mem_nil, or_false] at he
    rcases he with rfl | rfl | rfl <;> exact congrArg _ (spdmAnswer_notReady hr _)
  · intro off len nonce offers signed n s hr
    refine ⟨congrArg _ (if_pos hr), congrArg _ (spdmAnswer_ready hr _), fun hext => ?_, fun hext => ?_,
      exec_getMeasurements_one hr, exec_getMeasurements_none hr⟩
    · exact congrArg _ ((spdmAnswer_ready hr _).trans (by rw [hext]; rfl))
    · exact ⟨_, congrArg _ ((spdmAnswer_ready hr _).trans (by rw [hext]; rfl))⟩
  · intro part code x y z s r answers
    exact ⟨fun hr => exec_mailbox_notReady hr .., fun hr => ⟨fun _ _ h => exec_mailbox hr part code x y z h,
      exec_mailbox hr part code x y z, exec_mailbox hr part code x y z, exec_mailbox hr part code x y z⟩⟩
  · intro part x y z s hr chip refused ok
    refine ⟨fun t ht hok hp => ?_, fun hne hown => ?_, fun hx hy hz hp => ?_, fun h0 h16 hok htab hp => ?_, fun hx hok hp => ?_,
      fun idle d h0 hok hu hcore hcluster => ?_, fun hx hy hz hlog => ?_⟩
    · exact exec_mailbox_refused hr (readctx_refused ht hok hp)
    · exact exec_mailbox_refused hr (readmem_refused hne hown)
    · subst hy hz
      exact exec_mailbox_refused hr (flushp_refused hx hp)
    · exact exec_mailbox_refused hr (readtab_refused h0 h16 hok htab hp)
    · exact exec_mailbox_refused hr (readq_refused hx hok hp)
    · exact exec_mailbox_refused hr (readunit_refused h0 hok hu hcore hcluster)
    · subst hy
      exact exec_mailbox_refused hr (readlog_refused hx hz hlog)
  · intro k v chip s i
    exact ⟨fun hr hk hv => ⟨_, rfl, installImage_newer hr hk hv⟩, fun h => congrArg Host.Outcome.next (installImage_other h)⟩

end Sys2Proof.Laws
end

section
/-! ## Lane arithmetic (O1, O2, O3) -/

namespace Sys2Proof.Laws
open Sys2Proof Sys2Proof.Machine

variable {i : Instr} {h : Hdr} {s : State}

/-! ### A lane instruction of one, two or three operands, by its meaning in one lane -/

theorem gives_un (is : issues i h s = true) {d ra : Reg} {ca : BitVec 4} {srcs : List Reg} {f : Val → LOut} {g : Nat → Val}
    {body : Ix → State → Res} (he : exec i s = issued i h s body)
    (hb : body (curIx i h s) (began i h s) = laneOp (curIx i h s) (began i h s) (.reg d) srcs fun l =>
      f (opVal (began i h s) (curIx i h s) ra ca l))
    (hf : ∀ l ∈ (curIx i h s).exe, f (opnd s ra ca l) = .val (g l)) : Gives i h s d g :=
  gives_laneOp is he hb fun l hl => by rw [opVal_began]; exact hf l hl

theorem gives_bin (is : issues i h s = true) {d ra rb : Reg} {ca cb : BitVec 4} {srcs : List Reg} {f : Val → Val → LOut}
    {g : Nat → Val} {body : Ix → State → Res} (he : exec i s = issued i h s body)
    (hb : body (curIx i h s) (began i h s) = laneOp (curIx i h s) (began i h s) (.reg d) srcs fun l =>
      f (opVal (began i h s) (curIx i h s) ra ca l) (opVal (began i h s) (curIx i h s) rb cb l))
    (hf : ∀ l ∈ (curIx i h s).exe, f (opnd s ra ca l) (opnd s rb cb l) = .val (g l)) : Gives i h s d g :=
  gives_laneOp is he hb fun l hl => by rw [opVal_began, opVal_began]; exact hf l hl

theorem gives_ter (is : issues i h s = true) {d ra rb rc : Reg} {ca cb cc : BitVec 4} {srcs : List Reg}
    {f : Val → Val → Val → LOut} {g : Nat → Val} {body : Ix → State → Res} (he : exec i s = issued i h s body)
    (hb : body (curIx i h s) (began i h s) = laneOp (curIx i h s) (began i h s) (.reg d) srcs fun l =>
      f (opVal (began i h s) (curIx i h s) ra ca l) (opVal (began i h s) (curIx i h s) rb cb l)
        (opVal (began i h s) (curIx i h s) rc cc l))
    (hf : ∀ l ∈ (curIx i h s).exe, f (opnd s ra ca l) (opnd s rb cb l) (opnd s rc cc l) = .val (g l)) : Gives i h s d g :=
  gives_laneOp is he hb fun l hl => by rw [opVal_began, opVal_began, opVal_began]; exact hf l hl

/-- With no POISON operand, an instruction that passes POISON on (R78) comes to its own result. -/
theorem orPoison_one {a : Val} {r : LOut} (ha : a.tag ≠ .poison) : orPoison [a] r = r :=
  orPoison_none fun v hv => by rw [List.mem_singleton.mp hv]; exact ha

theorem orPoison_two {a b : Val} {r : LOut} (ha : a.tag ≠ .poison) (hb : b.tag ≠ .poison) : orPoison [a, b] r = r :=
  orPoison_none fun v hv => by simp at hv; rcases hv with rfl | rfl <;> assumption

theorem orPoison_three {a b c : Val} {r : LOut} (ha : a.tag ≠ .poison) (hb : b.tag ≠ .poison) (hc : c.tag ≠ .poison) :
    orPoison [a, b, c] r = r :=
  orPoison_none fun v hv => by simp at hv; rcases hv with rfl | rfl | rfl <;> assumption

theorem not_poison_of_eq {a t : Tag} (h : a = t) (ht : t ≠ .poison) : a ≠ .poison := h ▸ ht

/-! ### Integers (R105, R106, R108-R111) -/

theorem fitsInt_eq (x : Int) : fitsInt x = decide (Fits x) := by simp [fitsInt, Fits]

theorem intOut_fits {cls : Nat} {x : Int} {a b c : Val} (hx : Fits x) : intOut cls (some x) a b c = .val (intVal x) := by
  rw [intOut, fitsInt_eq, decide_eq_true hx, if_pos rfl]

theorem fits_pay (w : Word) : Fits w.toInt := ⟨by simpa using w.le_toInt, by simpa using w.toInt_lt⟩

theorem arith_int {op : ArOp} {e : Elt} {a b : Val} {x : Int} (ha : a.tag = .int) (hb : b.tag = .int)
    (hx : arInt op a.pay.toInt b.pay.toInt = some x) (hf : Fits x) : arith op e a b = .val (intVal x) := by
  rw [arith, orPoison_two (not_poison_of_eq ha nofun) (not_poison_of_eq hb nofun), ha, hb]
  simp only [resTag, hx, intOut_fits hf]

/-- Where DIV and REM are defined, the quotient and the remainder fit. -/
theorem fits_tdiv {x y : Int} (hx : Fits x) (hy : y ≠ 0) (h : ¬(x = -(2 ^ 63) ∧ y = -1)) : Fits (x.tdiv y) := by
  have hle : (x.tdiv y).natAbs ≤ x.natAbs := by
    rw [Int.natAbs_tdiv]; exact Nat.div_le_self ..
  by_cases h1 : y = -1
  · subst h1
    simp only [Int.reduceNeg, Int.tdiv_neg, Int.tdiv_one]
    unfold Fits at *
    omega
  · by_cases h2 : y = 1
    · subst h2; simpa using hx
    · by_cases h0 : x = 0
      · subst h0; simp [Fits]
      · have : (x.tdiv y).natAbs < x.natAbs := by
          rw [Int.natAbs_tdiv]
          exact Nat.div_lt_self (by omega) (by omega)
        unfold Fits at *
        omega

theorem fits_tmod {x y : Int} (hx : Fits x) : Fits (x - y * x.tdiv y) := by
  have e : x - y * x.tdiv y = x.tmod y := by rw [Int.tmod_def]
  rw [e]
  have hle : (x.tmod y).natAbs ≤ x.natAbs := by rw [Int.natAbs_tmod]; exact Nat.mod_le ..
  unfold Fits at *
  by_cases h0 : 0 ≤ x
  · have := Int.tmod_nonneg y h0
    omega
  · have := Int.tmod_nonneg y (a := -x) (by omega)
    rw [Int.neg_tmod] at this
    omega

theorem fits_neg {x : Int} (hx : Fits x) (h : x ≠ -(2 ^ 63)) : Fits (-x) := by unfold Fits at *; omega

theorem fits_natAbs {x : Int} (hx : Fits x) (h : x ≠ -(2 ^ 63)) : Fits (absInt x) := by unfold Fits absInt at *; omega

theorem arInt_div {x y : Int} (hy : y ≠ 0) (h : ¬(x = -(2 ^ 63) ∧ y = -1)) : arInt .div x y = some (x.tdiv y) :=
  if_neg (not_or.mpr ⟨hy, h⟩)

theorem arInt_rem {x y : Int} (hy : y ≠ 0) (h : ¬(x = -(2 ^ 63) ∧ y = -1)) : arInt .rem x y = some (x - y * x.tdiv y) :=
  (if_neg (not_or.mpr ⟨hy, h⟩)).trans (congrArg some (Int.tmod_def x y))

/-- The value of an immediate as an INT operand (R111). -/
theorem intVal_imm {n : Nat} (hn : n ≤ 64) (imm : BitVec n) : (intVal imm.toInt).pay.toInt = imm.toInt := by
  rw [intVal, wdInt, BitVec.toInt_ofInt]
  have h1 := imm.le_toInt
  have h2 := imm.toInt_lt
  have h3 : (2 : Int) ^ (n - 1) ≤ 2 ^ 63 := by exact_mod_cast Nat.pow_le_pow_right (by decide) (by omega)
  exact Int.bmod_eq_of_le (by omega) (by omega)

theorem mantAt_numOfInt (x : Int) : mantAt 0 (numOfInt x) = x := by
  by_cases h : x < 0 <;> simp [mantAt, numOfInt, h, -Nat.cast_natAbs] <;> omega

theorem isNan_numOfInt (x : Int) : (numOfInt x).isNan = false := rfl

theorem cmpNum_numOfInt (x y : Int) :
    cmpNum (numOfInt x) (numOfInt y) = some (if x < y then .lt else if x = y then .eq else .gt) := by
  have hx := mantAt_numOfInt x
  have hy := mantAt_numOfInt y
  unfold numOfInt at *
  simp only [cmpNum, min_self, hx, hy]

theorem minLt_numOfInt (x y : Int) : minLt (numOfInt x) (numOfInt y) = decide (x < y) := by
  unfold minLt
  rw [cmpNum_numOfInt]
  by_cases h1 : x < y
  · simp [h1]
  · by_cases h2 : x = y
    · subst h2
      simp only [lt_irrefl, if_false, if_true, decide_false]
      split
      · next hx hy =>
        obtain ⟨rfl, -⟩ := Num.fin.inj hx
        obtain ⟨rfl, -⟩ := Num.fin.inj hy
        simp
      · rfl
    · simp [h1, h2]

theorem minNum_numOfInt (x y : Int) : minNum (numOfInt x) (numOfInt y) = numOfInt (min x y) := by
  simp only [minNum, isNan_numOfInt, Bool.or_self, Bool.false_eq_true, if_false, minLt_numOfInt, decide_eq_true_eq]
  split <;> congr 1 <;> omega

theorem maxOf_numOfInt (x y : Int) : maxOf (numOfInt x) (numOfInt y) = numOfInt (max x y) := by
  simp only [maxOf, isNan_numOfInt, Bool.or_self, Bool.false_eq_true, if_false, minLt_numOfInt, decide_eq_true_eq]
  split <;> congr 1 <;> omega

theorem roundInt_numOfInt (rm : Rnd) (x : Int) : roundInt rm (numOfInt x) = some x := by
  by_cases h : x < 0 <;> simp [roundInt, numOfInt, roundAt, h, -Nat.cast_natAbs] <;> omega

theorem toTag_numOfInt (x : Int) : toTag .int (numOfInt x) = intVal x := by simp [toTag, roundInt_numOfInt]

theorem valNum_int {v : Val} (h : v.tag = .int) : valNum v = some (numOfInt v.pay.toInt) := by simp [valNum, h]

theorem minMax_int {f : Machine.Num → Machine.Num → Machine.Num} {g : Int → Int → Int}
    (hf : ∀ x y, f (numOfInt x) (numOfInt y) = numOfInt (g x y)) {e : Elt} {a b : Val} (ha : a.tag = .int) (hb : b.tag = .int) :
    minMax f e a b = .val (intVal (g a.pay.toInt b.pay.toInt)) := by
  rw [minMax, orPoison_two (not_poison_of_eq ha nofun) (not_poison_of_eq hb nofun), valNum_int ha, valNum_int hb, ha, hb]
  simp only [resTag, Option.getD_some, hf, toTag_numOfInt]

theorem clamp_int {e : Elt} {a b c : Val} (ha : a.tag = .int) (hb : b.tag = .int) (hc : c.tag = .int) :
    clamp e a b c = .val (intVal (min (max a.pay.toInt b.pay.toInt) c.pay.toInt)) := by
  rw [clamp, orPoison_three (not_poison_of_eq ha nofun) (not_poison_of_eq hb nofun) (not_poison_of_eq hc nofun),
    valNum_int ha, valNum_int hb, valNum_int hc, ha, hb, hc]
  simp only [resTag, Option.getD_some, maxOf_numOfInt, minNum_numOfInt, toTag_numOfInt]

theorem fma_int {e : Elt} {a b c : Val} (ha : a.tag = .int) (hb : b.tag = .int) (hc : c.tag = .int)
    (hf : Fits (a.pay.toInt * b.pay.toInt + c.pay.toInt)) :
    fma e a b c = .val (intVal (a.pay.toInt * b.pay.toInt + c.pay.toInt)) := by
  rw [fma, orPoison_three (not_poison_of_eq ha nofun) (not_poison_of_eq hb nofun) (not_poison_of_eq hc nofun), ha, hb, hc]
  simp only [resTag, ne_eq, not_true_eq_false, if_false, if_true, intOut_fits hf]

theorem negAbs_int {fi : Int → Int} {fn : Machine.Num → Machine.Num} {e : Elt} {a : Val} (ha : a.tag = .int)
    (hf : Fits (fi a.pay.toInt)) : negAbs fi fn e a = .val (intVal (fi a.pay.toInt)) := by
  rw [negAbs, orPoison_one (not_poison_of_eq ha nofun), valNum_int ha]
  simp only [ha, if_true, intOut_fits hf]

/-- Settles O1: in one lane each instruction comes to the exact integer, which the hypothesis, or the operation itself, keeps in range. -/
theorem integerArithmeticIsExact : Obligations.IntegerArithmeticIsExact := by
  refine ⟨⟨?bin, ?quot, ?imm⟩, ?fma, ?un, ?minMax, ?clamp⟩
  case bin =>
    intro p hp h o s on
    simp only [List.mem_cons, List.not_mem_nil, or_false] at hp
    rcases hp with rfl | rfl | rfl <;>
    · refine gives_bin on.1 rfl rfl fun l hl => ?_
      obtain ⟨ha, hb, hf⟩ := on.2 l hl
      exact arith_int ha hb rfl hf
  case quot =>
    intro p hp h o s on
    simp only [List.mem_cons, List.not_mem_nil, or_false] at hp
    rcases hp with rfl | rfl <;> refine gives_bin on.1 rfl rfl fun l hl => ?_ <;> obtain ⟨ha, hb, hy, hxy⟩ := on.2 l hl
    · exact arith_int ha hb (arInt_div hy hxy) (fits_tdiv (fits_pay _) hy hxy)
    · exact arith_int ha hb (arInt_rem hy hxy) (fits_tmod (fits_pay _))
  case imm =>
    intro p hp h o s on
    simp only [List.mem_cons, List.not_mem_nil, or_false] at hp
    have himm : (intVal o.imm.toInt).pay.toInt = o.imm.toInt := intVal_imm (by decide) o.imm
    rcases hp with rfl | rfl <;>
    · refine gives_un (f := fun v => arith _ .i8 v (intVal o.imm.toInt)) on.1 rfl rfl fun l hl => ?_
      obtain ⟨ha, hf⟩ := on.2 l hl
      exact arith_int ha rfl (by rw [himm]; rfl) hf
  case fma =>
    intro h o s on
    refine gives_ter on.1 rfl rfl fun l hl => ?_
    obtain ⟨ha, hb, hc, hf⟩ := on.2 l hl
    exact fma_int ha hb hc hf
  case un =>
    intro p hp h o s on
    simp only [List.mem_cons, List.not_mem_nil, or_false] at hp
    rcases hp with rfl | rfl <;> refine gives_un on.1 rfl rfl fun l hl => ?_ <;> obtain ⟨ha, hmin⟩ := on.2 l hl
    · exact negAbs_int ha (fits_neg (fits_pay _) hmin)
    · exact negAbs_int ha (fits_natAbs (fits_pay _) hmin)
  case minMax =>
    intro p hp h o s on
    simp only [List.mem_cons, List.not_mem_nil, or_false] at hp
    rcases hp with rfl | rfl <;> refine gives_bin on.1 rfl rfl fun l hl => ?_ <;> obtain ⟨ha, hb⟩ := on.2 l hl
    · exact minMax_int minNum_numOfInt ha hb
    · exact minMax_int maxOf_numOfInt ha hb
  case clamp =>
    intro h o s on
    refine gives_ter on.1 rfl rfl fun l hl => ?_
    obtain ⟨ha, hb, hc⟩ := on.2 l hl
    exact clamp_int ha hb hc

/-! ### Floats (R105, R106, R108-R111) -/

theorem eq_some_getD {α : Type} {o : Option α} (h : o.isSome = true) (d : α) : o = some (o.getD d) :=
  (Option.getD_of_ne_none (Option.isSome_iff_ne_none.mp h) d).symm

theorem arith_float {op : ArOp} {e : Elt} {a b : Val} {t : Tag} (hr : resTag a.tag b.tag = some t) (ht : t ≠ .int) :
    arith op e a b = .val (fVal t .rn (arNum op (widen a t) (widen b t))) := by
  obtain ⟨ha, hb, -⟩ := resTag_some hr
  rw [arith, orPoison_two ha hb, hr]
  cases t with
  | int => exact absurd rfl ht
  | _ => rfl

theorem fma_float {e : Elt} {a b c : Val} (hr : resTag a.tag b.tag = some c.tag) (ht : c.tag ≠ .int) :
    fma e a b c = .val (fVal c.tag .rn
      (sumNum [mulNum (widen a c.tag) (widen b c.tag), widen c c.tag])) := by
  obtain ⟨ha, hb, hc⟩ := resTag_some hr
  rw [fma, orPoison_three ha hb hc, hr]
  simp only [ne_eq, not_true_eq_false, if_false, ht]

/-- A value of a float tag has an exact value. -/
theorem valNum_float {v : Val} (h : (tagFmt v.tag).isSome = true) : valNum v = some ((valNum v).getD .nan) :=
  eq_some_getD (valNum_isSome.mpr (.inr h)) _

theorem negAbs_float {fi : Int → Int} {fn : Machine.Num → Machine.Num} {e : Elt} {a : Val} (h : (tagFmt a.tag).isSome = true) :
    negAbs fi fn e a = .val (fVal a.tag .rn (fn ((valNum a).getD .nan))) := by
  obtain ⟨ha, hi, -⟩ := tagFmt_some h
  rw [negAbs, orPoison_one ha, valNum_float h]
  simp only [if_neg hi, Option.getD_some]

theorem toTag_float {t : Tag} (ht : t ≠ .int) (x : Machine.Num) : toTag t x = fVal t .rn x := if_neg ht

theorem minMax_float {f : Machine.Num → Machine.Num → Machine.Num} {e : Elt} {a b : Val} {t : Tag}
    (hr : resTag a.tag b.tag = some t) (ht : t ≠ .int) :
    minMax f e a b = .val (fVal t .rn (f ((valNum a).getD .nan) ((valNum b).getD .nan))) := by
  obtain ⟨ha, hb, -⟩ := resTag_some hr
  rw [minMax, orPoison_two ha hb, hr]
  simp only [toTag_float ht]

theorem clamp_float {e : Elt} {a b c : Val} (ha : (tagFmt a.tag).isSome = true) (hb : b.tag = a.tag) (hc : c.tag = a.tag) :
    clamp e a b c = .val (fVal a.tag .rn
      (minNum (maxOf ((valNum a).getD .nan) ((valNum b).getD .nan)) ((valNum c).getD .nan))) := by
  obtain ⟨hp, hi, -, hr⟩ := tagFmt_some ha
  rw [clamp, orPoison_three hp (hb ▸ hp) (hc ▸ hp), hb, hc, hr]
  simp only [hr, toTag_float hi]

/-- Settles O2: the result tag of the pair picks the rounded branch of each instruction. -/
theorem floatArithmeticRoundsOnce : Obligations.FloatArithmeticRoundsOnce := by
  refine ⟨⟨?bin, ?imm, ?fma⟩, ?un, ?minMax, ?clamp⟩
  case bin =>
    intro p hp h o s a b t on
    simp only [List.mem_cons, List.not_mem_nil, or_false] at hp
    rcases hp with rfl | rfl | rfl | rfl | rfl <;>
    · refine gives_bin on.1 rfl rfl fun l hl => ?_
      obtain ⟨hr, ht⟩ := on.2 l hl
      exact arith_float (eq_some_getD hr _) ht
  case imm =>
    intro p hp h o s a on
    simp only [List.mem_cons, List.not_mem_nil, or_false] at hp
    have hr (l) (ha : (a l).tag = .f64 ∨ (a l).tag = .f32) : resTag (a l).tag .int = some (a l).tag := by
      rcases ha with ha | ha <;> rw [ha] <;> rfl
    have hi (l) (ha : (a l).tag = .f64 ∨ (a l).tag = .f32) : (a l).tag ≠ .int := by
      rcases ha with ha | ha <;> rw [ha] <;> nofun
    rcases hp with rfl | rfl <;>
      exact gives_un (f := fun v => arith _ .i8 v (intVal o.imm.toInt)) on.1 rfl rfl fun l hl =>
        arith_float (hr l (on.2 l hl)) (hi l (on.2 l hl))
  case fma =>
    intro h o s a b c on
    exact gives_ter on.1 rfl rfl fun l hl => fma_float (on.2 l hl).1 (on.2 l hl).2
  case un =>
    intro p hp h o s a on
    simp only [List.mem_cons, List.not_mem_nil, or_false] at hp
    rcases hp with rfl | rfl <;> exact gives_un on.1 rfl rfl fun l hl => negAbs_float (on.2 l hl)
  case minMax =>
    intro p hp h o s a b t on
    simp only [List.mem_cons, List.not_mem_nil, or_false] at hp
    rcases hp with rfl | rfl <;>
    · refine gives_bin on.1 rfl rfl fun l hl => ?_
      obtain ⟨hr, ht⟩ := on.2 l hl
      exact minMax_float (eq_some_getD hr _) ht
  case clamp =>
    intro h o s a b c on
    refine gives_ter on.1 rfl rfl fun l hl => ?_
    obtain ⟨ha, hb, hc⟩ := on.2 l hl
    exact clamp_float ha hb hc

/-! ### Packed values (R107-R110, R117) -/

theorem packPair_eltTag (e : Elt) : packPair e (eltTag e) (eltTag e) = true := by cases e <;> rfl

theorem not_poison_of_eltTag {v : Val} {e : Elt} (h : v.tag = eltTag e) : v.tag ≠ .poison := h ▸ (eltTag_facts e).1

theorem resTag_eltTag (e : Elt) : resTag (eltTag e) (eltTag e) = none := (eltTag_facts e).2.1

theorem arith_packed {op : ArOp} {e : Elt} {a b : Val} (hop : arPacked op = true) (ha : a.tag = eltTag e) (hb : b.tag = eltTag e) :
    arith op e a b = packOut e (eltTag e) (fun i => arNum op (eltDec e (eltAt e a.pay i)) (eltDec e (eltAt e b.pay i))) := by
  rw [arith, orPoison_two (not_poison_of_eltTag ha) (not_poison_of_eltTag hb), ha, hb, resTag_eltTag]
  simp only [hop, packPair_eltTag, Bool.and_self, if_true]

theorem minMax_packed {f : Machine.Num → Machine.Num → Machine.Num} {e : Elt} {a b : Val} (ha : a.tag = eltTag e)
    (hb : b.tag = eltTag e) :
    minMax f e a b = packOut e (eltTag e) (fun i => f (eltDec e (eltAt e a.pay i)) (eltDec e (eltAt e b.pay i))) := by
  rw [minMax, orPoison_two (not_poison_of_eltTag ha) (not_poison_of_eltTag hb), ha, hb, resTag_eltTag]
  simp only [packPair_eltTag, if_true]

theorem negAbs_packed {fi : Int → Int} {fn : Machine.Num → Machine.Num} {e : Elt} {a : Val} (ha : a.tag = eltTag e) :
    negAbs fi fn e a = packOut e (eltTag e) (fun i => fn (eltDec e (eltAt e a.pay i))) := by
  rw [negAbs, orPoison_one (not_poison_of_eltTag ha), valNum_packed e ha, ha]
  simp only [(eltTag_facts e).2.2, decide_true, Bool.and_self, if_true]

theorem fma_packed {e : Elt} {a b c : Val} (ha : a.tag = eltTag e) (hb : b.tag = eltTag e) (hc : c.tag = eltTag e) :
    fma e a b c = packOut e (eltTag e) (fun i =>
      sumNum [mulNum (eltDec e (eltAt e a.pay i)) (eltDec e (eltAt e b.pay i)), eltDec e (eltAt e c.pay i)]) := by
  rw [fma, orPoison_three (not_poison_of_eltTag ha) (not_poison_of_eltTag hb) (not_poison_of_eltTag hc), ha, hb, hc, resTag_eltTag]
  simp only [packPair_eltTag, decide_true, Bool.and_self, if_true]

theorem clamp_packed {e : Elt} {a b c : Val} (ha : a.tag = eltTag e) (hb : b.tag = eltTag e) (hc : c.tag = eltTag e) :
    clamp e a b c = packOut e (eltTag e) (fun i =>
      minNum (maxOf (eltDec e (eltAt e a.pay i)) (eltDec e (eltAt e b.pay i))) (eltDec e (eltAt e c.pay i))) := by
  rw [clamp, orPoison_three (not_poison_of_eltTag ha) (not_poison_of_eltTag hb) (not_poison_of_eltTag hc), ha, hb, hc, resTag_eltTag]
  simp only [packPair_eltTag, if_true]

/-- The exact sum of DOT: C and the products of the elements (R117). -/
def dotSum (e : Elt) (a b c : Val) : Machine.Num :=
  sumNum ((valNum c).getD .nan ::
    (List.range (eltCount e)).map (fun i => mulNum (eltDec e (eltAt e a.pay i)) (eltDec e (eltAt e b.pay i))))

theorem dot_eq {e : Elt} {a b c : Val} (ha : a.tag = eltTag e) (hb : b.tag = eltTag e) (hc : c.tag ≠ .poison)
    (hd : dotC e c.tag = true) : dot e a b c =
      if c.tag = .int then intOut 8 (roundInt .rz (dotSum e a b c)) a b c else .val (fVal c.tag .rn (dotSum e a b c)) := by
  rw [dot, orPoison_three (not_poison_of_eltTag ha) (not_poison_of_eltTag hb) hc]
  simp only [ha, hb, hd, ne_eq, not_true_eq_false, Bool.not_true, Bool.false_eq_true, or_self, if_false]
  rfl

theorem dot_float {e : Elt} {a b c : Val} (ha : a.tag = eltTag e) (hb : b.tag = eltTag e) (hc : c.tag = .f32 ∨ c.tag = .f64)
    (he : e = .tap8 ∨ e = .tap6 ∨ e = .bf16 ∨ e = .f16) : dot e a b c = .val (fVal c.tag .rn (dotSum e a b c)) := by
  have hd : dotC e c.tag = true := by rcases he with rfl | rfl | rfl | rfl <;> exact decide_eq_true hc
  have hi : c.tag ≠ .int := by rcases hc with h | h <;> rw [h] <;> nofun
  have hp : c.tag ≠ .poison := by rcases hc with h | h <;> rw [h] <;> nofun
  rw [dot_eq ha hb hp hd, if_neg hi]

theorem dot_int {e : Elt} {a b c : Val} {n : Int} (ha : a.tag = eltTag e) (hb : b.tag = eltTag e) (hc : c.tag = .int)
    (he : e = .i8 ∨ e = .i16 ∨ e = .i4) (hn : roundInt .rz (dotSum e a b c) = some n) (hf : Fits n) :
    dot e a b c = .val (intVal n) := by
  have hd : dotC e c.tag = true := by rcases he with rfl | rfl | rfl <;> exact decide_eq_true hc
  rw [dot_eq ha hb (not_poison_of_eq hc nofun) hd, if_pos hc, hn, intOut_fits hf]

/-- Settles O3: tags of the MOD element's own width pick the packed branch of each instruction. -/
theorem packedArithmeticIsElementwise : Obligations.PackedArithmeticIsElementwise := by
  refine ⟨?bin, ?un, ?ter, ?dot⟩
  case bin =>
    intro p hp h o s a b on
    simp only [List.mem_cons, List.not_mem_nil, or_false] at hp
    rcases hp with rfl | rfl | rfl | rfl | rfl
    · exact gives_bin on.1 rfl rfl fun l hl => arith_packed rfl (on.2 l hl).1 (on.2 l hl).2
    · exact gives_bin on.1 rfl rfl fun l hl => arith_packed rfl (on.2 l hl).1 (on.2 l hl).2
    · exact gives_bin on.1 rfl rfl fun l hl => arith_packed rfl (on.2 l hl).1 (on.2 l hl).2
    · exact gives_bin on.1 rfl rfl fun l hl => minMax_packed (on.2 l hl).1 (on.2 l hl).2
    · exact gives_bin on.1 rfl rfl fun l hl => minMax_packed (on.2 l hl).1 (on.2 l hl).2
  case un =>
    intro p hp h o s a on
    simp only [List.mem_cons, List.not_mem_nil, or_false] at hp
    rcases hp with rfl | rfl <;> exact gives_un on.1 rfl rfl fun l hl => negAbs_packed (on.2 l hl)
  case ter =>
    intro p hp h o s a b c on
    simp only [List.mem_cons, List.not_mem_nil, or_false] at hp
    rcases hp with rfl | rfl <;> refine gives_ter on.1 rfl rfl fun l hl => ?_ <;> obtain ⟨ha, hb, hc⟩ := on.2 l hl
    · exact fma_packed ha hb hc
    · exact clamp_packed ha hb hc
  case dot =>
    intro h o s a b c x
    refine ⟨fun on => gives_ter on.1 rfl rfl fun l hl => ?_, fun on => gives_ter on.1 rfl rfl fun l hl => ?_⟩
    · obtain ⟨ha, hb, hc, he⟩ := on.2 l hl
      exact dot_float ha hb hc he
    · obtain ⟨ha, hb, hc, he, n, hn, hf⟩ := on.2 l hl
      rw [hn]
      exact dot_int ha hb hc he hn hf

end Sys2Proof.Laws
end

section
/-! ## Compares and tag tests (O5) -/

namespace Sys2Proof.Laws
open Sys2Proof Sys2Proof.Machine

variable {i : Instr} {h : Hdr} {s : State}

theorem ccNum_numOfInt {cc : Cc} (hcc : cc ≠ .tageq) (x y : Int) : ccNum cc (numOfInt x) (numOfInt y) = ccInt cc x y := by
  have hcmp := cmpNum_numOfInt x y
  cases cc with
  | tageq => exact absurd rfl hcc
  | unord => rfl
  | _ =>
    simp only [ccNum, ccInt, hcmp]
    grind

/-- A scalar pair of the standard set compares by exact value (R112). -/
theorem compare_pair {cc : Cc} {a b : Val} (hr : (resTag a.tag b.tag).isSome = true) : Machine.compare cc a b =
    .val (natVal (if ccNum cc ((valNum a).getD .nan) ((valNum b).getD .nan) = true then 1 else 0)) := by
  rw [Machine.compare, eq_some_getD hr .nil]

theorem compare_int {cc : Cc} (hcc : cc ≠ .tageq) {a b : Val} (ha : a.tag = .int) (hb : b.tag = .int) :
    Machine.compare cc a b = .val (natVal (if ccInt cc a.pay.toInt b.pay.toInt = true then 1 else 0)) := by
  rw [compare_pair (by rw [ha, hb]; rfl), valNum_int ha, valNum_int hb, Option.getD_some, Option.getD_some, ccNum_numOfInt hcc]

/-- Equal tags that name things compare by payload (R112). -/
theorem compare_payload {cc : Cc} (hcc : cc = .eq ∨ cc = .ne) {a b : Val} (hab : a.tag = b.tag)
    (ht : a.tag = .nil ∨ a.tag = .sym ∨ a.tag = .ref ∨ a.tag = .ptr) :
    Machine.compare cc a b = .val (natVal (if (cc = .eq ↔ a.pay = b.pay) then 1 else 0)) := by
  have hr : resTag a.tag b.tag = none := by rw [← hab]; rcases ht with e | e | e | e <;> rw [e] <;> rfl
  have hp : payloadTag a.tag = true := decide_eq_true ht
  rw [Machine.compare, hr]
  simp only [hab, decide_true, hab ▸ hp, decide_eq_true hcc, Bool.and_self, if_true]
  by_cases e : (cc = .eq ↔ a.pay = b.pay) <;> simp [e]

theorem cmpLane_eq {cc : Cc} (hcc : cc ≠ .tageq) {a b : Val} (ha : a.tag ≠ .poison) (hb : b.tag ≠ .poison) :
    cmpLane cc a b = Machine.compare cc a b := by rw [cmpLane, if_neg hcc, orPoison_two ha hb]

theorem orPoisonTrap_two {a b : Val} {r : LOut} (ha : a.tag ≠ .poison) (hb : b.tag ≠ .poison) : orPoisonTrap [a, b] r = r :=
  orPoisonTrap_none fun v hv => by simp at hv; rcases hv with rfl | rfl <;> assumption

/-- A truth value written to a mask bit is that bit (R102). -/
theorem decide_truth_ne_zero (p : Prop) [Decidable p] : decide ((natVal (if p then 1 else 0)).pay ≠ 0) = decide p := by
  by_cases hp : p <;> simp [hp, natVal, wd]

/-- A lane instruction that gives truth values to a mask writes the bits of the executing lanes. -/
theorem marks_truth (is : issues i h s = true) {m : MaskNo} {srcs : List Reg} {f : Nat → LOut} {p : Nat → Prop}
    [DecidablePred p] {body : Ix → State → Res} (he : exec i s = issued i h s body)
    (hb : body (curIx i h s) (began i h s) = laneOp (curIx i h s) (began i h s) (.mask m) srcs f)
    (hf : ∀ l ∈ (curIx i h s).exe, f l = .val (natVal (if p l then 1 else 0))) :
    Marks i h s m (fun k => if k ∈ (curIx i h s).exe then decide (p k) else maskBit (warpOf s s.cur) m.val k) :=
  Marks_congr (fun k _ => by simp only [decide_truth_ne_zero]) (marks_laneOp is he hb hf)

/-- Settles O5: in one lane a comparison comes to INT 1 or 0 by the branch that the operands' tags pick; in a mask that is the lane's bit. -/
theorem comparesGiveTruth : Obligations.ComparesGiveTruth := by
  refine ⟨⟨?cmp, ?cmpi⟩, ?cmpm, ?tagm⟩
  case cmp =>
    intro h cc o s a b i
    refine ⟨fun hcc on => ?_, fun hcc on => ?_, fun hcc on => ?_, fun hcc on => ?_⟩ <;>
      refine gives_bin on.1 rfl rfl fun l hl => ?_
    · exact if_pos hcc
    · obtain ⟨ha, hb⟩ := on.2 l hl
      exact (cmpLane_eq hcc (not_poison_of_eq ha nofun) (not_poison_of_eq hb nofun)).trans (compare_int hcc ha hb)
    · have hr := on.2 l hl
      obtain ⟨ha, hb, -⟩ := resTag_some (eq_some_getD hr .nil)
      exact (cmpLane_eq hcc ha hb).trans (compare_pair hr)
    · obtain ⟨hab, ht⟩ := on.2 l hl
      have ha : (a l).tag ≠ .poison := by rcases ht with e | e | e | e <;> rw [e] <;> nofun
      exact (cmpLane_eq (by rcases hcc with rfl | rfl <;> nofun) ha (hab ▸ ha)).trans (compare_payload hcc hab ht)
  case cmpi =>
    intro h cc d ra imm s a i
    refine ⟨fun hcc on => ?_, fun hcc on => ?_⟩ <;>
      refine gives_un (f := fun v => cmpLane cc v (intVal imm.toInt)) on.1 rfl rfl fun l hl => ?_
    · exact if_pos hcc
    · have ha := on.2 l hl
      have himm : (intVal imm.toInt).pay.toInt = imm.toInt := intVal_imm (by decide) imm
      exact (cmpLane_eq hcc (not_poison_of_eq ha nofun) (not_poison_of_eq (t := .int) rfl nofun)).trans
        ((compare_int hcc ha rfl).trans (by rw [himm]))
  case cmpm =>
    intro h cc m ra rb sa sb e s a b i old
    refine ⟨fun hcc on => ?_, fun hcc on => ?_⟩
    · refine Marks_congr (fun k _ => by simp only [Bool.decide_eq_true]; rfl)
        (marks_truth (p := fun l => ccInt cc (a l).pay.toInt (b l).pay.toInt = true) on.1 rfl rfl fun l hl => ?_)
      obtain ⟨ha, hb⟩ := on.2 l hl
      have ha' := not_poison_of_eq ha nofun
      have hb' := not_poison_of_eq hb nofun
      simp only [opVal_began]
      rw [orPoisonTrap_two ha' hb', cmpLane_eq hcc ha' hb', compare_int hcc ha hb]
    · refine marks_truth on.1 rfl rfl fun l hl => ?_
      obtain ⟨ha, hb⟩ := on.2 l hl
      simp only [opVal_began]
      rw [orPoisonTrap_two ha hb, cmpLane, if_pos hcc]
  case tagm =>
    intro h t m ra s i on
    exact marks_truth on.1 rfl rfl fun l _ => by rw [opVal_began]; rfl

end Sys2Proof.Laws
end

section
/-! ## Conversions (O7) -/

namespace Sys2Proof.Laws
open Sys2Proof Sys2Proof.Machine

variable {i : Instr} {h : Hdr} {s : State}

/-- A scalar with an exact value is no POISON. -/
theorem not_poison_of_valNum {v : Val} (h : (valNum v).isSome = true) : v.tag ≠ .poison := by
  rcases valNum_isSome.mp h with e | e
  · exact not_poison_of_eq e nofun
  · exact (tagFmt_some e).1

theorem frnd_int {rm : Rnd} {a : Val} (ha : a.tag = .int) : frnd rm a = .val a := by
  rw [frnd, orPoison_one (not_poison_of_eq ha nofun), valNum_int ha]
  exact if_pos ha

theorem frnd_float {rm : Rnd} {a : Val} (ha : (tagFmt a.tag).isSome = true) :
    frnd rm a = .val (fVal a.tag .rn (integral rm ((valNum a).getD .nan))) := by
  obtain ⟨hp, hi, -⟩ := tagFmt_some ha
  rw [frnd, orPoison_one hp, valNum_float ha]
  exact if_neg hi

/-- What CVT makes of an exact value, by its target (R118, R119). -/
def cvtOut (tgt : CvtTgt) (rm : Rnd) (a : Val) (x : Machine.Num) : LOut :=
  match tgt with
  | .int => intOut 9 (roundInt rm x) a nilVal nilVal
  | .f64 => .val (fVal .f64 rm x)
  | .f32 => .val (fVal .f32 rm x)
  | .f16 => .val (fVal .f16 rm x)
  | .bf16 => .val (fVal .bf16 rm x)
  | .tap8 => element0 .pk8 (tap8.enc rm x)
  | .tap6 => element0 .pk8 (tap6.enc rm x)
  | .i8 => element0 .pk8 (encInt 8 rm x)
  | .i4 => element0 .pk4 (encInt 4 rm x)
  | .se8 => .val (natVal (se8Enc rm x))

theorem cvt_eq {tgt : CvtTgt} {rm : Rnd} {a : Val} (h : (valNum a).isSome = true) :
    cvt tgt rm a = cvtOut tgt rm a ((valNum a).getD .nan) := by
  rw [cvt, orPoison_one (not_poison_of_valNum h), eq_some_getD h .nan]
  cases tgt <;> rfl

/-- Element 0, widened exactly (R121). -/
def unpkVal (e : Elt) (x : Nat) : Val :=
  match e with
  | .i8 => intVal (sextN x 8)
  | .i4 => intVal (sextN x 4)
  | .i16 => intVal (sextN x 16)
  | .bf16 => ⟨.bf16, wd x⟩
  | .f16 => ⟨.f16, wd x⟩
  | .tap8 | .tap6 => fVal .f32 .rn (eltDec e x)

theorem unpk_eq {e : Elt} {a : Val} (ha : a.tag = eltTag e) : unpk e a = .val (unpkVal e (eltAt e a.pay 0)) := by
  rw [unpk, orPoison_one (not_poison_of_eltTag ha), if_neg (not_not.mpr ha)]
  cases e <;> rfl

theorem pack_eq {e : Elt} {rm : Rnd} {a b : Val} (ha : a.tag = .nil ∨ a.tag = eltTag e) (hb : (valNum b).isSome = true) :
    pack e rm a b = .val ⟨eltTag e, packElts e (fun i =>
      if i + 1 = eltCount e then eltEnc e rm ((valNum b).getD .nan)
      else if a.tag = .nil then 0 else eltAt e a.pay (i + 1))⟩ := by
  have hp : a.tag ≠ .poison := ha.elim (fun h => not_poison_of_eq h nofun) not_poison_of_eltTag
  rw [pack, orPoison_two hp (not_poison_of_valNum hb), eq_some_getD hb .nan]
  exact if_pos ha

theorem scaleq_scalar {e : Elt} {a : Val} (h : (valNum a).isSome = true) :
    scaleq e a = .val (natVal (scaleCode ((eltMax (eltTFmt e)).getD 1) ((valNum a).getD .nan).abs)) := by
  rw [scaleq, orPoison_one (not_poison_of_valNum h), eq_some_getD h .nan]
  rfl

theorem scaleq_packed {e : Elt} {a : Val} (ha : a.tag = eltTag e) :
    scaleq e a = .val (natVal (scaleCode ((eltMax (eltTFmt e)).getD 1) (maxMag (decElts e a.pay)))) := by
  rw [scaleq, orPoison_one (not_poison_of_eltTag ha), valNum_packed e ha]
  exact if_pos ha

/-- QNT under a legal scale code (R123). -/
theorem qnt_eq {e : Elt} {rm : Rnd} {a b : Val} (ha : a.tag ≠ .poison) (hb : b.tag = .int) (hs : b.pay.toNat < 255) :
    qnt e rm a b = (valNum a).elim
      (if a.tag = eltTag e then
        .val ⟨eltTag e, packElts e (fun i => eltEnc e rm (scaleBy (127 - (b.pay.toNat : Int)) (eltDec e (eltAt e a.pay i))))⟩
      else .call 9 (tagCode a.tag) 0 a b nilVal)
      (fun x => element0 (eltTag e) (eltEnc e rm (scaleBy (127 - (b.pay.toNat : Int)) x))) := by
  rw [qnt, orPoison_two ha (not_poison_of_eq hb nofun), if_neg (not_or.mpr ⟨not_not.mpr hb, by omega⟩), if_neg (by omega)]
  cases valNum a <;> rfl

theorem qnt_scalar {e : Elt} {rm : Rnd} {a b : Val} (ha : (valNum a).isSome = true) (hb : b.tag = .int) (hs : b.pay.toNat < 255) :
    qnt e rm a b = .val ⟨eltTag e, wd (eltEnc e rm (scaleBy (127 - (b.pay.toNat : Int)) ((valNum a).getD .nan)))⟩ :=
  (qnt_eq (not_poison_of_valNum ha) hb hs).trans (by rw [eq_some_getD ha .nan]; rfl)

theorem qnt_packed {e : Elt} {rm : Rnd} {a b : Val} (ha : a.tag = eltTag e) (hb : b.tag = .int) (hs : b.pay.toNat < 255) :
    qnt e rm a b = .val ⟨eltTag e, packElts e (fun i =>
      eltEnc e rm (scaleBy (127 - (b.pay.toNat : Int)) (eltDec e (eltAt e a.pay i))))⟩ :=
  (qnt_eq (not_poison_of_eltTag ha) hb hs).trans (by rw [valNum_packed e ha]; exact if_pos ha)

/-- Settles O7: each conversion's meaning in one lane, on the operands that it executes. -/
theorem conversionsGiveTheValue : Obligations.ConversionsGiveTheValue := by
  refine ⟨?frnd, ?cvt, ?unpk, ?pack, ?scaleq, ?qnt⟩
  case frnd =>
    intro h rm o s a
    exact ⟨fun on => gives_un on.1 rfl rfl fun l hl => frnd_int (on.2 l hl),
      fun on => gives_un on.1 rfl rfl fun l hl => frnd_float (on.2 l hl)⟩
  case cvt =>
    intro h rm o s a x
    refine ⟨fun on => ?_, fun p hp on => ?_, fun p hp on => ?_⟩
    · refine gives_un on.1 rfl rfl fun l hl => ?_
      obtain ⟨ha, n, hn, hf⟩ := on.2 l hl
      rw [hn]
      refine (cvt_eq ha).trans ?_
      rw [cvtOut, hn, intOut_fits hf]
      rfl
    · simp only [List.mem_cons, List.not_mem_nil, or_false] at hp
      rcases hp with rfl | rfl | rfl | rfl <;> exact gives_un on.1 rfl rfl fun l hl => cvt_eq (on.2 l hl)
    · simp only [List.mem_cons, List.not_mem_nil, or_false] at hp
      rcases hp with rfl | rfl | rfl | rfl | rfl <;> exact gives_un on.1 rfl rfl fun l hl => cvt_eq (on.2 l hl)
  case unpk =>
    intro h o s a x on
    exact gives_un on.1 rfl rfl fun l hl => unpk_eq (on.2 l hl)
  case pack =>
    intro h rm o s a b on
    exact gives_bin on.1 rfl rfl fun l hl => pack_eq (on.2 l hl).1 (on.2 l hl).2
  case scaleq =>
    intro h d ra e s a mx
    exact ⟨fun on => gives_un on.1 rfl rfl fun l hl => scaleq_scalar (on.2 l hl),
      fun on => gives_un on.1 rfl rfl fun l hl => scaleq_packed (on.2 l hl)⟩
  case qnt =>
    intro h rm d ra rb e s a b k
    refine ⟨fun on => gives_bin on.1 rfl rfl fun l hl => ?_, fun on => gives_bin on.1 rfl rfl fun l hl => ?_⟩
    · obtain ⟨hb, hs, ha⟩ := on.2 l hl
      exact qnt_scalar ha hb hs
    · obtain ⟨hb, hs, ha⟩ := on.2 l hl
      exact qnt_packed ha hb hs

end Sys2Proof.Laws
end

section
/-! ## Bits (O8, O9) -/

namespace Sys2Proof.Laws
open Sys2Proof Sys2Proof.Machine

variable {i : Instr} {h : Hdr} {s : State}

/-! ### Bitwise operations and shifts (R127, R128) -/

/-- The pairs that AND, OR and XOR execute. -/
def bitPair (a b : Tag) : Prop := (a = .int ∧ b = .int) ∨ (a = .ptr ∧ b = .int) ∨ (a = .int ∧ b = .ptr) ∨ (isPacked a = true ∧ b = a)

theorem bitTag_pair {a b : Tag} (h : bitPair a b) : bitTag a b = some (if a = .int then b else a) ∧ a ≠ .poison ∧ b ≠ .poison := by
  rcases h with ⟨rfl, rfl⟩ | ⟨rfl, rfl⟩ | ⟨rfl, rfl⟩ | ⟨hp, rfl⟩
  · decide
  · decide
  · decide
  · revert hp
    cases b <;> decide

theorem bitwise_pair {f : Word → Word → Word} {a b : Val} (h : bitPair a.tag b.tag) :
    bitwise f a b = .val ⟨if a.tag = .int then b.tag else a.tag, f a.pay b.pay⟩ := by
  obtain ⟨ht, ha, hb⟩ := bitTag_pair h
  rw [bitwise, orPoison_two ha hb, ht]

theorem bitUnary_iff {t : Tag} : bitUnary t = true ↔ t = .int ∨ t = .ptr ∨ isPacked t = true := by
  simp only [bitUnary, Bool.or_eq_true, decide_eq_true_eq, or_assoc]

theorem not_poison_of_bitUnary {t : Tag} (h : bitUnary t = true) : t ≠ .poison := by rintro rfl; cases h

theorem bitUn_eq {f : Val → Val} {a : Val} (h : a.tag = .int ∨ a.tag = .ptr ∨ isPacked a.tag = true) : bitUn f a = .val (f a) := by
  have hu := bitUnary_iff.mpr h
  rw [bitUn, orPoison_one (not_poison_of_bitUnary hu), if_pos hu]

/-- INT or PTR with INT: what the shifts and ADDW, SUBW and LEA execute. -/
theorem wrapPair_facts {a b : Tag} (ha : a = .int ∨ a = .ptr) (hb : b = .int) : wrapPair a b = true ∧ a ≠ .poison ∧ b ≠ .poison := by
  rcases ha with rfl | rfl <;> subst hb <;> decide

theorem shift_pair {f : Word → Nat → Word} {a b : Val} (ha : a.tag = .int ∨ a.tag = .ptr) (hb : b.tag = .int) :
    shift f a b = .val ⟨a.tag, f a.pay (b.pay.toNat % 64)⟩ := by
  obtain ⟨hw, hpa, hpb⟩ := wrapPair_facts ha hb
  rw [shift, orPoison_two hpa hpb, if_pos hw]

/-- A count that stands in the instruction is below 64. -/
theorem natVal_count (n : BitVec 6) : (natVal n.toNat).pay.toNat % 64 = n.toNat := by
  have := n.isLt
  simp only [natVal, wd, BitVec.toNat_ofNat]
  omega

/-- Settles O8: each pair's branch in one lane gives the operation on the payloads. -/
theorem bitwiseAndShiftsGiveTheBits : Obligations.BitwiseAndShiftsGiveTheBits := by
  refine ⟨?bin, ?imm, ?not, ?shift, ?shiftImm⟩
  case bin =>
    intro p hp h o s a b on
    simp only [List.mem_cons, List.not_mem_nil, or_false] at hp
    rcases hp with rfl | rfl | rfl <;> exact gives_bin on.1 rfl rfl fun l hl => bitwise_pair (on.2 l hl)
  case imm =>
    intro p hp h o s a on
    simp only [List.mem_cons, List.not_mem_nil, or_false] at hp
    have pair (f : Word → Word → Word) (l) (ha : (a l).tag = .int ∨ (a l).tag = .ptr) :
        bitwise f (a l) (intVal o.imm.toInt) = .val ⟨(a l).tag, f (a l).pay (o.imm.signExtend 64)⟩ := by
      rcases ha with ha | ha
      · rw [bitwise_pair (.inl ⟨ha, rfl⟩), if_pos ha, ha]; rfl
      · rw [bitwise_pair (.inr (.inl ⟨ha, rfl⟩)), if_neg (by rw [ha]; nofun)]; rfl
    rcases hp with rfl | rfl | rfl <;>
      exact gives_un (f := fun v => bitwise _ v (intVal o.imm.toInt)) on.1 rfl rfl fun l hl => pair _ l (on.2 l hl)
  case not =>
    intro h o s a on
    exact gives_un on.1 rfl rfl fun l hl => bitUn_eq (on.2 l hl)
  case shift =>
    intro p hp h o s a b on
    simp only [List.mem_cons, List.not_mem_nil, or_false] at hp
    rcases hp with rfl | rfl | rfl | rfl <;>
      exact gives_bin on.1 rfl rfl fun l hl => shift_pair (on.2 l hl).1 (on.2 l hl).2
  case shiftImm =>
    intro p hp h d ra n s a on
    simp only [List.mem_cons, List.not_mem_nil, or_false] at hp
    rcases hp with rfl | rfl <;>
      exact gives_un (f := fun v => shift _ v (natVal n.toNat)) on.1 rfl rfl fun l hl =>
        (shift_pair (on.2 l hl) rfl).trans (by rw [natVal_count])

/-! ### Counts, fields and wrapping arithmetic (R129-R134) -/

theorem popN_eq (x : Word) (n : Nat) : popN x.toNat n = ((List.range n).filter (fun i => bitAt x i)).length := by
  induction n with
  | zero => rfl
  | succ n ih =>
    rw [popN, ih, List.range_succ, List.filter_append, List.length_append]
    congr 1
    by_cases h : x.toNat.testBit n = true <;> simp only [bitAt, List.filter_cons, h] <;> rfl

/-- The number of the first position that holds, or n. -/
theorem find?_range_succ (p : Nat → Bool) (n : Nat) : ((List.range (n + 1)).find? p).getD (n + 1) =
    if p 0 = true then 0 else 1 + ((List.range n).find? (fun i => p (i + 1))).getD n := by
  rw [List.range_succ_eq_map, List.find?_cons]
  by_cases h : p 0 = true
  · simp [h]
  · simp only [h, Bool.false_eq_true, if_false, List.find?_map]
    change (Option.map Nat.succ ((List.range n).find? (fun i => p (i + 1)))).getD (n + 1) = _
    cases (List.range n).find? (fun i => p (i + 1)) with
    | none => exact Nat.add_comm n 1
    | some j => exact Nat.add_comm j 1

theorem clzN_eq (x n : Nat) : clzN x n = ((List.range n).find? (fun i => x.testBit (n - 1 - i))).getD n := by
  induction n with
  | zero => rfl
  | succ n ih =>
    rw [find?_range_succ, clzN, ih]
    have e : (fun i => x.testBit (n + 1 - 1 - (i + 1))) = fun i => x.testBit (n - 1 - i) := by
      funext i
      congr 1
      omega
    rw [e]
    rfl

theorem ctzN_eq (x i n : Nat) : ctzN x i n = ((List.range n).find? (fun j => x.testBit (i + j))).getD n := by
  induction n generalizing i with
  | zero => rfl
  | succ n ih =>
    rw [find?_range_succ, ctzN, ih]
    have e : (fun j => x.testBit (i + (j + 1))) = fun j => x.testBit (i + 1 + j) := by
      funext j
      congr 1
      omega
    rw [e]
    rfl

theorem brev_eq (w : Word) : brev w = w.reverse := by
  refine BitVec.eq_of_getLsbD_eq fun k hk => ?_
  rw [← bitAt_eq, brev, bitAt_laneSet _ hk, BitVec.getLsbD_reverse, BitVec.getMsbD]
  simp only [List.mem_filter, List.mem_range, hk, true_and, decide_true, Bool.true_and, Bool.decide_eq_true]
  rfl

theorem fld_eq (w : Word) (p n : Nat) : fld w p n = w.toNat / 2 ^ p % 2 ^ n := by
  rw [fld, bitsOf, Nat.shiftRight_eq_div_pow]

theorem bfx_eq {a b c : Val} (ha : a.tag = .int ∨ a.tag = .ptr ∨ isPacked a.tag = true) (hb : b.tag ≠ .poison) (hc : c.tag ≠ .poison) :
    bfx a b c = .val (natVal (a.pay.toNat / 2 ^ fieldPos b % 2 ^ fieldWidth b c)) := by
  have hu := bitUnary_iff.mpr ha
  rw [bfx, orPoison_three (not_poison_of_bitUnary hu) hb hc, if_pos hu, fld_eq]

/-- Bit by bit, a word with a field inserted (R131). -/
theorem bitAt_insertField (x y : Word) {p w k : Nat} (hk : k < 64) :
    bitAt (insertField x y p w) k = if p ≤ k ∧ k < p + w then bitAt y (k - p) else bitAt x k := by
  have hy : y.toNat % 2 ^ w < 2 ^ w := Nat.mod_lt _ (Nat.two_pow_pos w)
  have hlo : x.toNat % 2 ^ p < 2 ^ p := Nat.mod_lt _ (Nat.two_pow_pos p)
  have e1 := Nat.div_add_mod x.toNat (2 ^ p)
  have e2 := Nat.div_add_mod (x.toNat / 2 ^ p) (2 ^ w)
  rw [Nat.div_div_eq_div_mul, ← Nat.pow_add] at e2
  have hins : x.toNat - fld x p w * 2 ^ p + y.toNat % 2 ^ w * 2 ^ p =
      2 ^ p * (2 ^ w * (x.toNat / 2 ^ (p + w)) + y.toNat % 2 ^ w) + x.toNat % 2 ^ p := by
    rw [fld_eq]
    generalize x.toNat / 2 ^ p % 2 ^ w = mid at *
    generalize x.toNat / 2 ^ (p + w) = hi at *
    generalize x.toNat % 2 ^ p = lo at *
    generalize y.toNat % 2 ^ w = ins at *
    rw [← e1, ← e2]
    ring_nf
    omega
  rw [insertField, hins]
  simp only [bitAt, wd, BitVec.toNat_ofNat, Nat.testBit_mod_two_pow, hk, decide_true, Bool.true_and,
    Nat.testBit_two_pow_mul_add _ hlo, Nat.testBit_two_pow_mul_add _ hy, Nat.testBit_div_two_pow]
  by_cases h1 : k < p
  · rw [if_pos h1, if_neg (by omega)]
    simp [h1]
  · by_cases h2 : k < p + w
    · rw [if_neg h1, if_pos (by omega), if_pos (by omega)]
      simp [show k - p < w by omega]
    · rw [if_neg h1, if_neg (by omega), if_neg (by omega)]
      congr 1
      omega

theorem bfi_eq {a b c d : Val} (ha : a.tag = .int) (hd : d.tag = .int ∨ d.tag = .ptr ∨ isPacked d.tag = true) (hb : b.tag ≠ .poison)
    (hc : c.tag ≠ .poison) : bfi a b c d = .val ⟨d.tag, insertField d.pay a.pay (fieldPos b) (fieldWidth b c)⟩ := by
  have hu := bitUnary_iff.mpr hd
  have hp : orPoison [a, b, c, d] = id := by
    funext r
    refine orPoison_none fun v hv => ?_
    simp only [List.mem_cons, List.not_mem_nil, or_false] at hv
    rcases hv with rfl | rfl | rfl | rfl
    exacts [not_poison_of_eq ha nofun, hb, hc, not_poison_of_bitUnary hu]
  rw [bfi, hp, id, if_pos ⟨ha, hu⟩]

theorem pairOut_eq {cls : Nat} {ok : Tag → Tag → Bool} {f : Val → Val → Val} {a b : Val} (ha : a.tag ≠ .poison) (hb : b.tag ≠ .poison)
    (hok : ok a.tag b.tag = true) : pairOut cls ok f a b = .val (f a b) := by
  rw [pairOut, orPoison_two ha hb, if_pos hok]

theorem pairOut_wrap {cls : Nat} {f : Val → Val → Val} {a b : Val} (ha : a.tag = .int ∨ a.tag = .ptr) (hb : b.tag = .int) :
    pairOut cls wrapPair f a b = .val (f a b) := by
  obtain ⟨hw, hpa, hpb⟩ := wrapPair_facts ha hb
  exact pairOut_eq hpa hpb hw

theorem pairOut_int {cls : Nat} {f : Val → Val → Val} {a b : Val} (ha : a.tag = .int) (hb : b.tag = .int) :
    pairOut cls intPair f a b = .val (f a b) :=
  pairOut_eq (not_poison_of_eq ha nofun) (not_poison_of_eq hb nofun) (decide_eq_true ⟨ha, hb⟩)

/-- Settles O9: counts by induction over the bits, fields bit by bit, and the executed pairs of the wrapping instructions. -/
theorem bitFieldsAndWrapping : Obligations.BitFieldsAndWrapping := by
  refine ⟨⟨?count, ?brev, ?bfx, ?bfi⟩, ?wrap, ?mul, ?ptrd⟩
  case count =>
    intro p hp h o s a on
    simp only [List.mem_cons, List.not_mem_nil, or_false] at hp
    rcases hp with rfl | rfl | rfl <;> refine gives_un on.1 rfl rfl fun l hl => (bitUn_eq (on.2 l hl)).trans ?_
    · rw [popN_eq]
    · rw [clzN_eq]; rfl
    · rw [ctzN_eq]; simp only [Nat.zero_add]; rfl
  case brev =>
    intro h o s a on
    exact gives_un on.1 rfl rfl fun l hl => (bitUn_eq (on.2 l hl)).trans (by rw [brev_eq])
  case bfx =>
    intro h o s a b c p w on
    refine gives_ter on.1 rfl rfl fun l hl => ?_
    obtain ⟨ha, hb, hc⟩ := on.2 l hl
    exact bfx_eq ha hb hc
  case bfi =>
    intro h o s a b c d p w on
    refine ⟨fun l => insertField (d l).pay (a l).pay (p l) (w l), gives_laneOp on.1 rfl rfl fun l hl => ?_, fun l k hk => ?_⟩
    · obtain ⟨ha, hd, hb, hc⟩ := on.2 l hl
      simp only [opVal_began]
      exact bfi_eq ha hd hb hc
    · exact bitAt_insertField _ _ hk
  case wrap =>
    intro n p hp h o s a b on
    simp only [List.mem_cons, List.not_mem_nil, or_false] at hp
    rcases hp with rfl | rfl | rfl <;>
      exact gives_bin on.1 rfl rfl fun l hl => pairOut_wrap (on.2 l hl).1 (on.2 l hl).2
  case mul =>
    intro p hp h o s a b on
    simp only [List.mem_cons, List.not_mem_nil, or_false] at hp
    rcases hp with rfl | rfl <;> exact gives_bin on.1 rfl rfl fun l hl => pairOut_int (on.2 l hl).1 (on.2 l hl).2
  case ptrd =>
    intro h o s a b on
    refine gives_bin on.1 rfl rfl fun l hl => ?_
    have pair := on.2 l hl
    have hp : (a l).tag ≠ .poison ∧ (b l).tag ≠ .poison := by
      rcases pair with ⟨ha, hb⟩ | ⟨ha, hb⟩ <;> rw [ha, hb] <;> exact ⟨nofun, nofun⟩
    exact pairOut_eq hp.1 hp.2 (decide_eq_true pair)

end Sys2Proof.Laws
end

section
/-! ## Moves and specials (O10) -/

namespace Sys2Proof.Laws
open Sys2Proof Sys2Proof.Machine

variable {i : Instr} {h : Hdr} {s : State}

/-! ### Bits of words put together from fields -/

theorem bitAt_wd (n : Nat) {k : Nat} (hk : k < 64) : bitAt (wd n) k = n.testBit k := by
  simp only [bitAt, wd, BitVec.toNat_ofNat, Nat.testBit_mod_two_pow, hk, decide_true, Bool.true_and]

theorem testBit_fld (w : Word) (lo n k : Nat) : (fld w lo n).testBit k = (decide (k < n) && bitAt w (lo + k)) := by
  rw [fld, bitsOf, Nat.testBit_mod_two_pow, Nat.testBit_shiftRight, bitAt]

/-- Words whose 64 bits agree are equal. -/
theorem word_ext {a b : Word} (h : ∀ k < 64, bitAt a k = bitAt b k) : a = b := BitVec.eq_of_getLsbD_eq h

/-- A field kept in its place is the word under the mask of its bits. -/
theorem wd_fld_eq_and (w : Word) (lo n : Nat) (m : Word) (hm : ∀ k < 64, bitAt m k = decide (lo ≤ k ∧ k < lo + n)) :
    wd (fld w lo n * 2 ^ lo) = w &&& m := by
  refine word_ext fun k hk => ?_
  rw [bitAt_wd _ hk, bitAt_and, hm k hk, Nat.mul_comm, Nat.testBit_two_pow_mul, testBit_fld]
  by_cases h1 : lo ≤ k
  · by_cases h2 : k < lo + n
    · simp [h1, h2, show k - lo < n by omega, show lo + (k - lo) = k by omega]
    · simp [h1, h2, show ¬ k - lo < n by omega]
  · simp [h1]

theorem wd_fld_low (w : Word) (n : Nat) (m : Word) (hm : ∀ k < 64, bitAt m k = decide (0 ≤ k ∧ k < 0 + n)) : wd (fld w 0 n) = w &&& m := by
  rw [← wd_fld_eq_and w 0 n m hm, Nat.pow_zero, Nat.mul_one]

/-! ### Moves and tags (R124, R125, R135-R139, R170, R179) -/

@[simp] theorem rtOn_began : rtOn (warpOf (began i h s) s.cur) = rtOn (warpOf s s.cur) := by
  unfold rtOn
  rw [began_status, began_rx]

@[simp] theorem maskBit_began (m k : Nat) : maskBit (warpOf (began i h s) s.cur) m k = maskBit (warpOf s s.cur) m k := by
  rw [maskBit, maskReg_began]
  rfl

/-- Only a REF needs RT (R125, R137). -/
theorem ref_allowed {t : Tag} {rt : Bool} (h : t ≠ .ref ∨ rt = true) : (decide (t = .ref) && !rt) = false := by
  rcases h with h | h <;> simp [h]

/-- The payload under a new tag, with the bits that the tag requires to be zero cleared (R125); no register holds FWD. -/
theorem canonPay_eq {t : Tag} (w : Word) (ht : t ≠ .fwd) : canonPay t w =
    match (motive := Tag → Word) t with
    | .nil => 0
    | .f32 => w &&& 0xFFFF_FFFF
    | .f16 | .bf16 | .poison => w &&& 0xFFFF
    | .sym => w &&& 0xFFFF_FFFF_FFFF
    | .ref => w &&& 0xFFFF_FFFF_FFF0
    | _ => w := by
  cases t with
  | f32 => exact wd_fld_low w 32 _ (by decide)
  | f16 | bf16 | poison => exact wd_fld_low w 16 _ (by decide)
  | sym => exact wd_fld_low w 48 _ (by decide)
  | ref => exact wd_fld_eq_and w 4 44 _ (by decide)
  | fwd => exact absurd rfl ht
  | _ => rfl

theorem tagas_eq {rt : Bool} {t : Tag} {a : Val} (h : t ≠ .ref ∨ rt = true) : tagas rt t a = .val ⟨t, canonPay t a.pay⟩ := by
  rw [tagas, ref_allowed h]
  rfl

theorem tagas_priv (a : Val) : tagas false .ref a = .fault .priv 0 := rfl

/-- A legal TAGAS names no tag that a register never holds (R37). -/
theorem tagas_legal {t : Tag} {d ra : Reg} (is : issues (.tagas h t d ra) h s = true) : t ≠ .fwd := by
  obtain ⟨-, -, hl, -⟩ := issues_iff.mp is
  have e : legal (.tagas h t d ra) = (uniDst d [ra] && decide (t ≠ .fwd) && decide (t ≠ .pend)) := rfl
  rw [e, Bool.and_eq_true, Bool.and_eq_true] at hl
  exact of_decide_eq_true hl.1.2

/-- What GETL reads of a lane that has advanced: its own address is the GETL's (R139). -/
theorem getSpecial_began (pc : Word) (l : Nat) (x : LSpec) :
    getSpecial pc (laneOf (warpOf (began i h s) s.cur) l) l x = getSpecial pc (laneOf (warpOf s s.cur) l) l x := by
  rw [laneOf_began]
  cases x <;> rfl

/-- Settles O10: each instruction's value in one lane; a TAGAS to REF without RT has a cause in every executing lane. -/
theorem movesAndTags : Obligations.MovesAndTags := by
  refine ⟨⟨?mov, ?movi, ?movf, ?movl, ?sel, ?getl, ?mget, ?gets⟩, ?tagof, ?tagas, ?priv⟩
  case mov =>
    intro h o s on
    exact gives_laneOp on.1 rfl rfl fun l _ => by rw [opVal_began]
  case movi =>
    intro h d imm s on
    exact gives_laneOp on.1 rfl rfl fun l _ => rfl
  case movf =>
    intro h d imm s on
    exact gives_laneOp on.1 rfl rfl fun l _ => rfl
  case movl =>
    intro h t d lit s on
    refine gives_laneOp on.1 rfl rfl fun l hl => ?_
    rw [curIx_w, rtOn_began, ref_allowed (on.2 l hl)]
    rfl
  case sel =>
    intro h m o s on
    exact gives_laneOp on.1 rfl rfl fun l _ => by rw [curIx_w, maskBit_began, opVal_began, opVal_began]
  case getl =>
    intro h x d s on y
    refine gives_laneOp on.1 rfl rfl fun l _ => ?_
    rw [curIx_w, getSpecial_began]
    cases x <;> rfl
  case mget =>
    intro h d m s on
    exact gives_laneOp on.1 rfl rfl fun l _ => by rw [curIx_w, maskReg_began]
  case gets =>
    intro h x d s on
    exact gives_laneOp on.1 rfl rfl fun l _ => by cases x <;> rfl
  case tagof =>
    intro h d ra s on
    exact gives_laneOp on.1 rfl rfl fun l _ => by rw [opVal_began]; rfl
  case tagas =>
    intro h t d ra s on
    refine gives_laneOp on.1 rfl rfl fun l hl => ?_
    rw [curIx_w, rtOn_began, opVal_began, tagas_eq (on.2 l hl), canonPay_eq _ (tagas_legal on.1)]
    rfl
  case priv =>
    intro h d ra s is hrt hd hnil
    have hact : actLanes (curIx (.tagas h .ref d ra) h s) (.reg d) [ra] = (curIx (.tagas h .ref d ra) h s).exe := by
      cases d with
      | lane n => rfl
      | uni n => cases hd
      | nil => exact absurd rfl hnil
    have e := laneOp_faults (ix := curIx (.tagas h .ref d ra) h s) (s := began (.tagas h .ref d ra) h s) (d := .reg d) (srcs := [ra])
      (f := fun l => tagas (rtOn (warpOf (began (.tagas h .ref d ra) h s) s.cur)) .ref (opVal (began (.tagas h .ref d ra) h s)
        (curIx (.tagas h .ref d ra) h s) ra 0 l)) (c := fun _ => .priv) (n := fun _ => 0)
      (fun l _ => by rw [rtOn_began, hrt, tagas_priv]) (by rw [hact]; exact (issues_iff.mp is).2.2.2.2.2.2.2)
    rw [hact] at e
    exact issued_trapIn is e began_parts

end Sys2Proof.Laws
end

section
/-! ## Lane and warp specials, and the nursery (O13) -/

namespace Sys2Proof.Laws
open Sys2Proof Sys2Proof.Machine

variable {i : Instr} {h : Hdr} {s : State}

/-! ### SETL (R140) -/

theorem setOk_began (x : LSpec) (v : Val) : setOk (warpOf (began i h s) s.cur) x v = setOk (warpOf s s.cur) x v := by
  have hn : (warpOf (began i h s) s.cur).nregs = (warpOf s s.cur).nregs := by
    obtain ⟨m, li, e⟩ := @warpOf_began i h s
    rw [e]
  cases x <;> simp only [setOk, ldstLegal, hn]

/-- SETL whose lanes may all write their special. -/
theorem turns_setl {x : LSpec} {ra : Reg} (is : issues (.setl h x ra) h s = true)
    (hok : ∀ l ∈ (curIx (.setl h x ra) h s).exe, setOk (warpOf s s.cur) x (opnd s ra 0#4 l) = true) :
    Turns (.setl h x ra) h s id
      (fun l y => if l ∈ (curIx (.setl h x ra) h s).exe then setSpecial y x (opnd s ra 0#4 l) else y) := by
  refine turns_updLanes (f := fun l y => setSpecial y x (opnd s ra 0#4 l)) is rfl nodup_exe ?_
  simp only [curIx_w, setOk_began, readReg_began, ← opnd_zero]
  rw [if_neg]
  simp only [ne_eq, not_not, List.filter_eq_nil_iff]
  exact fun l hl => by rw [hok l hl]; nofun

theorem fld_low (w : Word) (n : Nat) : fld w 0 n = w.toNat % 2 ^ n := by rw [fld_eq, Nat.pow_zero, Nat.div_one]

/-! ### SETS (R142, R143, R180) -/

@[simp] theorem super_began : super (warpOf (began i h s) s.cur) = super (warpOf s s.cur) := by
  unfold super
  rw [began_status]

theorem setsCauses_began (x : WSpec) (v : Val) : setsCauses (warpOf (began i h s) s.cur) x v = setsCauses (warpOf s s.cur) x v := by
  unfold setsCauses
  simp only [rtOn_began, super_began, began_status]

/-- SETS without a cause writes the special. -/
theorem turns_sets {x : WSpec} {ra : Reg} (is : issues (.sets h x ra) h s = true) {v : Val}
    (hv : v = opnd s ra 0#4 (curIx (.sets h x ra) h s).low) (hc : setsCauses (warpOf s s.cur) x v = []) :
    Turns (.sets h x ra) h s (fun w => writeSpecial w x v) (fun _ y => y) := by
  refine turns_specials is (fun w => writeSpecial w x v) rfl ?_ ?_ ?_ ?_ ?_ ?_
  · simp only [curIx_w, setsCauses_began, readReg_began, ← opnd_zero, ← hv, hc, updWarp_eq]
    rfl
  · intro w y e
    constructor
    rw [e.eq]
    cases x <;> rfl
  all_goals
    intros
    cases x <;> rfl

/-- SETS with the one cause PRIV. -/
theorem sets_priv {x : WSpec} {ra : Reg} (is : issues (.sets h x ra) h s = true)
    (hc : setsCauses (warpOf s s.cur) x (opnd s ra 0#4 (curIx (.sets h x ra) h s).low) = [.priv]) :
    exec (.sets h x ra) s = .next (trapped (.sets h x ra) h s
      [faultAt (curIx (.sets h x ra) h s) (curIx (.sets h x ra) h s).low .priv] 0 []) := by
  refine issued_trap is ?_
  simp only [curIx_w, setsCauses_began, readReg_began, ← opnd_zero, hc]
  rfl

theorem setsCauses_vector {w : Warp} {x : WSpec} {v : Val} (hx : x = .nurs ∨ x = .nlim ∨ x = .tvec ∨ x = .trapv)
    (hv : v.tag = .int ∨ v.tag = .ptr) : setsCauses w x v = if rtOn w = true ∨ super w = true then [] else [.priv] := by
  have ht : v.tag ≠ .poison := by rcases hv with e | e <;> rw [e] <;> nofun
  unfold setsCauses
  rcases hx with rfl | rfl | rfl | rfl <;> simp [ht, hv.symm] <;> grind

theorem setsCauses_eaddr {w : Warp} {v : Val} (hv : v.tag = .int ∨ v.tag = .ptr) : setsCauses w .eaddr v = [] := by
  have ht : v.tag ≠ .poison := by rcases hv with e | e <;> rw [e] <;> nofun
  unfold setsCauses
  simp [ht, hv.symm]

theorem setsCauses_cause {w : Warp} {v : Val} (hv : v.tag = .int) : setsCauses w .cause v = [] := by
  unfold setsCauses
  simp [hv]

theorem setsCauses_status {w : Warp} {v : Val} (hv : v.tag = .int) (hf : fld v.pay 8 5 ≠ 0) :
    setsCauses w .status v = if super w = true ∨ fld v.pay 1 2 = fld w.status 1 2 then [] else [.priv] := by
  unfold setsCauses
  simp [hv, hf] 
  grind

theorem vecBase_eq (w : Word) : vecBase w = w &&& ~~~ 7 := by
  refine word_ext fun k hk => ?_
  have hm : ∀ k < 64, bitAt (~~~ 7 : Word) k = decide (3 ≤ k) := by decide
  rw [vecBase, bitAt_wd _ hk, bitAt_and, hm k hk, show w.toNat / 8 * 8 = 2 ^ 3 * (w.toNat / 2 ^ 3) by omega,
    Nat.testBit_two_pow_mul, Nat.testBit_div_two_pow]
  by_cases h3 : 3 ≤ k
  · simp [h3, bitAt]
  · simp [h3]

theorem statusWrite_eq (old v : Word) : statusWrite old v = (v &&& 0x1F07) ||| (old &&& 8) := by
  have h3 : fld v 0 3 < 2 ^ 3 := by rw [fld_eq]; exact Nat.mod_lt _ (by decide)
  have h1 : fld old 3 1 < 2 ^ 1 := by rw [fld_eq]; exact Nat.mod_lt _ (by decide)
  have e : fld v 0 3 + fld old 3 1 * 8 + fld v 8 5 * 256 = 2 ^ 8 * fld v 8 5 + (2 ^ 3 * fld old 3 1 + fld v 0 3) := by ring
  have hv : ∀ k < 64, bitAt (0x1F07 : Word) k = decide (k < 3 ∨ (8 ≤ k ∧ k < 13)) := by decide
  have ho : ∀ k < 64, bitAt (8 : Word) k = decide (k = 3) := by decide
  refine word_ext fun k hk => ?_
  rw [statusWrite, bitAt_wd _ hk, e, Nat.testBit_two_pow_mul_add _ (by omega), Nat.testBit_two_pow_mul_add _ h3, bitAt_or,
    bitAt_and, bitAt_and, hv k hk, ho k hk, testBit_fld, testBit_fld, testBit_fld]
  by_cases hk3 : k < 3
  · simp [hk3, show k < 8 by omega, show ¬ k = 3 by omega]
  · by_cases hk8 : k < 8
    · by_cases e3 : k = 3
      · subst e3; simp
      · simp [hk3, hk8, e3, show ¬ k - 3 < 1 by omega, show ¬ 8 ≤ k by omega]
    · simp [hk3, hk8, show ¬ k = 3 by omega, show 8 ≤ k by omega, show (k - 8 < 5 ↔ k < 13) by omega,
        show 8 + (k - 8) = k by omega, Bool.and_comm]

/-! ### ALLOC (R178) -/

/-- The bytes one request takes; 0: it is refused. -/
def allocBytes (v : Val) : Nat :=
  if v.tag = .int ∧ 1 ≤ v.pay.toInt ∧ v.pay.toInt ≤ 2 ^ 24 - 16 then (v.pay.toNat + 15) / 16 * 16 else 0

theorem allocSize_eq (v : Val) : allocSize v = if allocBytes v = 0 then none else some (allocBytes v) := by
  unfold allocSize allocBytes
  simp only []
  split
  · next h =>
    obtain ⟨-, h1, -⟩ := h
    have e : v.pay.toInt.toNat = v.pay.toNat := by
      rw [BitVec.toInt_eq_toNat_cond] at h1 ⊢
      split at h1 <;> omega
    rw [BitVec.toInt_eq_toNat_cond] at h1
    rw [e, roundUpTo, if_neg (by split at h1 <;> omega)]
  · rfl

theorem allocSize_getD (v : Val) : (allocSize v).getD 0 = allocBytes v := by
  rw [allocSize_eq]
  split <;> simp_all

/-- The value an acting lane of ALLOC gets. -/
def allocVal (base : Nat) (size : Nat → Nat) (ls : List Nat) (l : Nat) : Val :=
  if size l = 0 then nilVal else ⟨.ref, canonPay .ref (wd (base + ((ls.filter (fun j => decide (j < l))).map size).sum))⟩

theorem writeRegs_nil (ls : List Nat) (g : Nat → Val) (x : Warp) : writeRegs x .nil ls g = x := by
  unfold writeRegs
  induction ls generalizing x with
  | nil => rfl
  | cons a r ih => rw [List.foldl_cons]; exact ih x

/-- An instruction acts in the lanes in which it writes, but where its destination keeps nothing. -/
theorem actLanes_reg (ix : Ix) (d : Reg) (srcs : List Reg) :
    actLanes ix (.reg d) srcs = (if isUni d = true then [ix.low] else ix.exe) ∨ d = .nil := by
  cases d with
  | nil => exact .inr rfl
  | lane n => exact .inl rfl
  | uni n => exact .inl rfl

theorem actLanes_alloc (ix : Ix) (d ra : Reg) : actLanes ix (.reg d) [ra] =
    if isUni d = true ∨ (d = .nil ∧ isLane ra = false) then [ix.low] else ix.exe := by
  cases d <;> simp [actLanes, actsOnce, isUni]

theorem maskReg_writeRegs (x : Warp) (d : Reg) (ls : List Nat) (g : Nat → Val) (m : Nat) :
    maskReg (writeRegs x d ls g) m = maskReg x m := by
  rw [writeRegs_eq]
  rfl

theorem maskReg_nurs (x : Warp) (n : Word) (m : Nat) : maskReg { x with nurs := n } m = maskReg x m := rfl

theorem readReg_nurs (x : Warp) (n : Word) (r : Reg) (l : Nat) : readReg { x with nurs := n } r l = readReg x r l :=
  readReg_congr rfl rfl r l

section
variable {d ra : Reg} {ls : List Nat}

/-- ALLOC whose nursery has room (R178). -/
theorem gave_alloc (is : issues (.alloc h d ra) h s = true) (hls : ls = actLanes (curIx (.alloc h d ra) h s) (.reg d) [ra])
    (hp : ∀ l ∈ ls, (opnd s ra 0#4 l).tag ≠ .poison) {base total : Nat} (hb : base = align16 (warpOf s s.cur).nurs)
    (ht : total = (ls.map fun l => allocBytes (opnd s ra 0#4 l)).sum) (hroom : base + total ≤ align16 (warpOf s s.cur).nlim) :
    ∃ t, exec (.alloc h d ra) s = .next t ∧ Gave (.alloc h d ra) h s t (fun w => { w with nurs := wd (base + total) }) d
      (allocVal base (fun l => allocBytes (opnd s ra 0#4 l)) ls) := by
  generalize hg : allocVal base (fun l => allocBytes (opnd s ra 0#4 l)) ls = g
  have hx := (issues_iff.mp is).2.2.2.2.2.2.2
  refine ⟨_, issued_ok is (u := setWarp (began (.alloc h d ra) h s) s.cur
    { writeRegs (warpOf (began (.alloc h d ra) h s) s.cur) d ls g with nurs := wd (base + total) }) ?_, ?_⟩
  · simp only [curIx_w, readReg_began, ← opnd_zero, began_nurs, began_nlim, ← hls, allocSize_getD, ← hb, ← ht]
    rw [if_neg, if_neg (by omega)]
    · refine congrArg (fun x : Warp => Res.ok (setWarp _ _ { x with nurs := wd (base + total) })) ?_
      unfold writeRegs
      refine congrArg (fun f => List.foldl f _ ls) (funext₂ fun y l => ?_)
      rw [← hg, allocVal, allocSize_eq]
      simp only [allocBelow, allocSize_getD, readReg_began, ← opnd_zero]
      by_cases h0 : allocBytes (opnd s ra 0#4 l) = 0
      · rw [if_pos h0, if_pos h0]
      · rw [if_neg h0, if_neg h0]
    · simp only [ne_eq, not_not, List.filterMap_eq_nil_iff]
      exact fun l hl => if_neg (hp l hl)
  · have e := specials_trans (specials_began (i := .alloc h d ra) (h := h) (s := s)) (specials_writeRegs _ d ls g)
    refine gave_of _ rfl d _ g _ rfl hx ⟨congrArg (fun x : Warp => { x with nurs := wd (base + total) }) e.eq⟩
      (fun l => laneOf_writeRegs d g ls l _) (fun m => ?_) (fun r l => ?_)
    · rw [maskReg_nurs, maskReg_writeRegs, maskReg_began]
    · rw [readReg_nurs]
      rcases actLanes_reg (curIx (.alloc h d ra) h s) d [ra] with hd | rfl
      · rw [hls, hd]
      · rw [writeRegs_nil, writeRegs_nil]

/-- ALLOC whose nursery has no room: every acting lane has the cause NURSERY (R178). -/
theorem alloc_full (is : issues (.alloc h d ra) h s = true) (hls : ls = actLanes (curIx (.alloc h d ra) h s) (.reg d) [ra])
    (hp : ∀ l ∈ ls, (opnd s ra 0#4 l).tag ≠ .poison) {total : Nat}
    (ht : total = (ls.map fun l => allocBytes (opnd s ra 0#4 l)).sum)
    (hfull : align16 (warpOf s s.cur).nlim < align16 (warpOf s s.cur).nurs + total) :
    exec (.alloc h d ra) s = .next (trapped (.alloc h d ra) h s (ls.map fun l => ⟨l, .nursery, 0, natVal total⟩) 0 []) := by
  refine issued_trap is ?_
  simp only [curIx_w, readReg_began, ← opnd_zero, began_nurs, began_nlim, ← hls, allocSize_getD, ← ht]
  rw [if_neg, if_pos hfull]
  simp only [ne_eq, not_not, List.filterMap_eq_nil_iff]
  exact fun l hl => if_neg (hp l hl)

end

/-- Settles O13: SETL and SETS by the causes that the premises exclude or leave; ALLOC by what its requests take together. -/
theorem warpSpecialsAndTheNursery : Obligations.WarpSpecialsAndTheNursery := by
  refine ⟨?setl, ?sets, ?alloc⟩
  case setl =>
    intro h x ra s v on
    refine Turns_congr rfl (fun l => ?_) (turns_setl on.1 fun l hl => ?_)
    · split
      · cases x with
        | ldst => exact congrArg (fun n => { advanced (.setl h .ldst ra) h s l with ldst := wd n }) (fld_low ..)
        | estat => exact congrArg (fun n => { advanced (.setl h .estat ra) h s l with estat := wd n }) (fld_low ..)
        | _ => rfl
      · rfl
    · have hv := on.2 l hl
      cases x <;> simp only [setOk, decide_eq_true_eq, Bool.and_eq_true] <;> exact hv
  case sets =>
    intro h x ra s i w v
    refine ⟨fun on => ?_, fun on => ?_, fun on => ?_⟩
    all_goals have hv := on.2 _ (low_mem (issues_iff.mp on.1).2.2.2.2.2.2.2)
    · refine Turns_congr (by
        cases x with
        | nurs | nlim | eaddr => rfl
        | tvec => exact congrArg (fun n => { w with tvec := n }) (vecBase_eq _)
        | trapv => exact congrArg (fun n => { w with trapv := n }) (vecBase_eq _)
        | cause => exact congrArg (fun n => { w with cause := n }) (wd_fld_low _ 32 0xFFFF_FFFF (by decide))
        | status => exact congrArg (fun n => { w with status := n }) (statusWrite_eq _ _)
        | _ => exact hv.elim) (fun l => rfl) (turns_sets on.1 (v := v) rfl ?_)
      cases x with
      | nurs => exact (setsCauses_vector (by simp) hv.1).trans (if_pos hv.2)
      | nlim => exact (setsCauses_vector (by simp) hv.1).trans (if_pos hv.2)
      | tvec => exact (setsCauses_vector (by simp) hv.1).trans (if_pos hv.2)
      | trapv => exact (setsCauses_vector (by simp) hv.1).trans (if_pos hv.2)
      | status => exact (setsCauses_status hv.1 hv.2.1).trans (if_pos hv.2.2)
      | eaddr => exact setsCauses_eaddr hv
      | cause => exact setsCauses_cause hv
      | _ => exact hv.elim
    · obtain ⟨hx, ht, hrt, hsup⟩ := hv
      exact sets_priv on.1 ((setsCauses_vector hx ht).trans (if_neg (by rw [hrt, hsup]; simp)))
    · obtain ⟨rfl, ht, hf, hsup, hne⟩ := hv
      exact sets_priv on.1 ((setsCauses_status ht hf).trans (if_neg (not_or.mpr ⟨by rw [hsup]; nofun, hne⟩)))
  case alloc =>
    intro h d ra s i ix w ls size base total
    have hls : ls = actLanes ix (.reg d) [ra] := (actLanes_alloc ix d ra).symm
    refine ⟨fun on hroom => ?_, fun on hfull => ?_⟩
    · exact gave_alloc on.1 hls (fun l hl => on.2 l (mem_actLanes on.1 (hls ▸ hl))) rfl rfl hroom
    · exact alloc_full on.1 hls (fun l hl => on.2 l (mem_actLanes on.1 (hls ▸ hl))) rfl hfull

end Sys2Proof.Laws
end

section
/-! ## The codes of an IEEE format, and rounding to them (R80, R81, R119)

The codes below the infinity are in the order of their values. A value that is rounded to a format lies between two neighbouring
codes, and the distance between those is the unit in the last place of every value between them. -/

namespace Sys2Proof.Laws
open Sys2Proof Sys2Proof.Machine

variable {f : FFmt}

/-- The real number that an exact value is; 0 for the values that are not finite. -/
noncomputable def realOf (x : Machine.Num) : ℝ := ((x.rat : ℚ) : ℝ)

theorem realOf_pos (m : ℕ) (e : ℤ) : realOf (.fin false m e) = m * 2 ^ e := by simp [realOf, Num.rat]

theorem realOf_neg (m : ℕ) (e : ℤ) : realOf (.fin true m e) = -(m * 2 ^ e) := by simp [realOf, Num.rat]

theorem realOf_fin (neg : Bool) (m : ℕ) (e : ℤ) : realOf (.fin neg m e) = (if neg then -1 else 1) * (m * 2 ^ e) := by
  cases neg <;> simp [realOf_pos, realOf_neg]

/-! ### Codes in the order of their values -/

/-- The exponent field of a code, with the subnormals' counted as the least normal one's. -/
def codeBand (f : FFmt) (n : ℕ) : ℕ := n / 2 ^ f.fb - 1

/-- The mantissa of a code, with its leading bit. -/
def codeMant (f : FFmt) (n : ℕ) : ℕ := if n / 2 ^ f.fb = 0 then n else 2 ^ f.fb + n % 2 ^ f.fb

/-- The value of the code n, going on above the largest finite one as if the exponents had no end. -/
noncomputable def codeVal (f : FFmt) (n : ℕ) : ℝ := codeMant f n * 2 ^ ((codeBand f n : ℤ) + f.emin)

/-- The distance from the code n to the next. -/
noncomputable def codeGap (f : FFmt) (n : ℕ) : ℝ := 2 ^ ((codeBand f n : ℤ) + f.emin)

theorem codeGap_pos (n : ℕ) : 0 < codeGap f n := zpow_pos two_pos _

theorem codeMant_lt (n : ℕ) : codeMant f n < 2 ^ (f.fb + 1) := by
  have hp := Nat.two_pow_pos f.fb
  have := Nat.mod_lt n hp
  have h2 := pow_succ 2 f.fb
  unfold codeMant
  split
  · next h => have := (Nat.div_eq_zero_iff_lt hp).mp h; omega
  · omega

theorem code_eq (n : ℕ) : n = codeBand f n * 2 ^ f.fb + codeMant f n := by
  have hp := Nat.two_pow_pos f.fb
  have e := Nat.div_add_mod n (2 ^ f.fb)
  unfold codeBand codeMant
  split
  · next h => simp [h]
  · next h =>
    obtain ⟨k, hk⟩ := Nat.exists_eq_succ_of_ne_zero h
    rw [hk] at e ⊢
    rw [Nat.succ_eq_add_one, Nat.mul_add, Nat.mul_comm] at e
    simp only [Nat.succ_eq_add_one, Nat.add_sub_cancel]
    omega

theorem codeMant_ge (n : ℕ) : 2 ^ f.fb ≤ codeMant f n ∨ codeBand f n = 0 := by
  unfold codeBand codeMant
  split
  · next h => exact .inr (by rw [h])
  · exact .inl (Nat.le_add_right ..)

/-- A code put together from a band and a mantissa, which may be the power of two that belongs to the next band. -/
theorem codeVal_mk {q t : ℕ} (hlo : 2 ^ f.fb ≤ t ∨ q = 0) (hhi : t ≤ 2 ^ (f.fb + 1)) :
    codeVal f (q * 2 ^ f.fb + t) = t * 2 ^ ((q : ℤ) + f.emin) := by
  have hp := Nat.two_pow_pos f.fb
  have h2 := pow_succ 2 f.fb
  rcases Nat.lt_or_ge t (2 ^ f.fb) with h | h
  · obtain rfl : q = 0 := hlo.resolve_left (by omega)
    have hd : t / 2 ^ f.fb = 0 := Nat.div_eq_of_lt h
    simp [codeVal, codeMant, codeBand, hd]
  · rcases Nat.lt_or_ge t (2 ^ (f.fb + 1)) with h' | h'
    · have hd : (q * 2 ^ f.fb + t) / 2 ^ f.fb = q + 1 := by
        rw [Nat.mul_comm, Nat.mul_add_div hp, Nat.div_eq_of_lt_le (k := 1)] <;> omega
      have hm : (q * 2 ^ f.fb + t) % 2 ^ f.fb = t - 2 ^ f.fb := by
        have := Nat.div_add_mod (q * 2 ^ f.fb + t) (2 ^ f.fb)
        rw [hd, Nat.mul_add, Nat.mul_comm] at this
        omega
      rw [codeVal, codeMant, codeBand, hd, hm, if_neg (Nat.succ_ne_zero q), Nat.add_sub_cancel' h, Nat.add_sub_cancel]
    · obtain rfl : t = 2 ^ (f.fb + 1) := by omega
      have hq : q * 2 ^ f.fb + 2 ^ (f.fb + 1) = 2 ^ f.fb * (q + 2) := by rw [h2]; ring
      have hd : 2 ^ f.fb * (q + 2) / 2 ^ f.fb = q + 2 := Nat.mul_div_cancel_left _ hp
      rw [hq, codeVal, codeMant, codeBand, hd, if_neg (by omega), Nat.mul_mod_right]
      have e : ((q + 2 - 1 : ℕ) : ℤ) + f.emin = ((q : ℤ) + f.emin) + 1 := by omega
      rw [e, zpow_add_one₀ two_ne_zero]
      push_cast
      rw [pow_succ]
      ring

theorem codeVal_succ (n : ℕ) : codeVal f (n + 1) = codeVal f n + codeGap f n := by
  have hlt := codeMant_lt (f := f) n
  have hge := codeMant_ge (f := f) n
  have e : n + 1 = codeBand f n * 2 ^ f.fb + (codeMant f n + 1) := by have := code_eq (f := f) n; omega
  rw [e, codeVal_mk (hge.imp_left fun h => by omega) hlt, codeVal, codeGap]
  push_cast
  ring

theorem codeVal_strictMono : StrictMono (codeVal f) :=
  strictMono_nat_of_lt_succ fun n => by rw [codeVal_succ]; linarith [codeGap_pos (f := f) n]

theorem codeVal_zero : codeVal f 0 = 0 := by simp [codeVal, codeMant]

theorem codeVal_nonneg (n : ℕ) : 0 ≤ codeVal f n := by
  rw [← codeVal_zero (f := f)]
  exact codeVal_strictMono.monotone n.zero_le

theorem codeGap_mono : Monotone (codeGap f) := fun a b h =>
  zpow_le_zpow_right₀ one_le_two (by
    have : codeBand f a ≤ codeBand f b := Nat.sub_le_sub_right (Nat.div_le_div_right h) 1
    omega)

/-! ### Units in the last place -/

/-- The unit in the last place of a real number in a format. -/
noncomputable def ulp (f : FFmt) (v : ℝ) : ℝ := 2 ^ max (Int.log 2 |v| - (f.fb : ℤ)) f.emin

theorem ulp_pos (v : ℝ) : 0 < ulp f v := zpow_pos two_pos _

theorem ulp_abs (v : ℝ) : ulp f |v| = ulp f v := by rw [ulp, abs_abs, ulp]

theorem ulp_mono {v w : ℝ} (hv : 0 < |v|) (h : |v| ≤ |w|) : ulp f v ≤ ulp f w :=
  zpow_le_zpow_right₀ one_le_two (max_le_max_right _ (Int.sub_le_sub_right (Int.log_mono_right hv h) _))

/-- From a code on, the unit is at least the distance to the next code. -/
theorem codeGap_le_ulp {n : ℕ} {v : ℝ} (h : codeVal f n ≤ |v|) : codeGap f n ≤ ulp f v := by
  refine zpow_le_zpow_right₀ one_le_two ?_
  rcases codeMant_ge (f := f) n with hm | hb
  · refine le_max_of_le_left ?_
    have hle : (2 : ℝ) ^ ((f.fb : ℤ) + ((codeBand f n : ℤ) + f.emin)) ≤ |v| := by
      refine le_trans ?_ h
      rw [zpow_add₀ two_ne_zero, codeVal]
      refine mul_le_mul_of_nonneg_right ?_ (codeGap_pos n).le
      rw [zpow_natCast]
      exact_mod_cast hm
    have hv : 0 < |v| := lt_of_lt_of_le (zpow_pos two_pos _) hle
    have := (Int.zpow_le_iff_le_log one_lt_two hv).mp (by exact_mod_cast hle)
    omega
  · refine le_max_of_le_right ?_
    rw [hb]
    omega

/-- Below the next code, the unit is at most the distance to it. -/
theorem ulp_le_codeGap {n : ℕ} {v : ℝ} (hv : v ≠ 0) (h : |v| < codeVal f (n + 1)) : ulp f v ≤ codeGap f n := by
  refine zpow_le_zpow_right₀ one_le_two (max_le ?_ (by omega))
  have hlt : |v| < (2 : ℝ) ^ ((f.fb : ℤ) + 1 + ((codeBand f n : ℤ) + f.emin)) := by
    refine lt_of_lt_of_le h ?_
    rw [codeVal_succ, zpow_add₀ two_ne_zero, codeVal, codeGap, ← add_one_mul]
    refine mul_le_mul_of_nonneg_right ?_ (codeGap_pos n).le
    exact_mod_cast codeMant_lt (f := f) n
  have := (Int.lt_zpow_iff_log_lt one_lt_two (abs_pos.mpr hv)).mp (by exact_mod_cast hlt)
  omega

/-- The unit against the value itself. -/
theorem div_le_ulp (v : ℝ) : |v| / 2 ^ (f.fb + 1) ≤ ulp f v := by
  have hlt : |v| < (2 : ℝ) ^ (Int.log 2 |v| + 1) := by exact_mod_cast Int.lt_zpow_succ_log_self one_lt_two |v|
  rw [div_le_iff₀ (by positivity)]
  calc |v| ≤ (2 : ℝ) ^ (Int.log 2 |v| - f.fb + (f.fb + 1 : ℕ)) := by
        refine hlt.le.trans_eq (congrArg _ ?_)
        push_cast
        ring
    _ = 2 ^ (Int.log 2 |v| - f.fb) * 2 ^ (f.fb + 1) := by rw [zpow_add₀ two_ne_zero, zpow_natCast]
    _ ≤ ulp f v * 2 ^ (f.fb + 1) := by
        refine mul_le_mul_of_nonneg_right (zpow_le_zpow_right₀ one_le_two (le_max_left _ _)) (by positivity)

/-! ### Decoding -/

theorem infBits_lt_signBit : f.infBits < f.signBit := by
  rw [FFmt.infBits, FFmt.signBit, pow_add]
  exact Nat.mul_lt_mul_of_pos_right (Nat.sub_lt (Nat.two_pow_pos _) Nat.one_pos) (Nat.two_pow_pos _)

/-- Decoding by the parts of a code. -/
theorem dec_parts (neg : Bool) {n : ℕ} (hn : n < f.signBit) : f.dec ((if neg then f.signBit else 0) + n) =
    if n / 2 ^ f.fb = 2 ^ f.eb - 1 then (if n % 2 ^ f.fb = 0 then .inf neg else .nan)
    else if n / 2 ^ f.fb = 0 then .fin neg (n % 2 ^ f.fb) f.emin
    else .fin neg (2 ^ f.fb + n % 2 ^ f.fb) (((n / 2 ^ f.fb : ℕ) : ℤ) - 1 + f.emin) := by
  have hs : f.signBit = 2 ^ (f.eb + f.fb) := rfl
  have hx : (if neg then f.signBit else 0) + n = 2 ^ (f.eb + f.fb) * neg.toNat + n := by
    cases neg <;> simp [hs]
  have hsign : ((if neg then f.signBit else 0) + n).testBit (f.eb + f.fb) = neg := by
    rw [hx, Nat.testBit_two_pow_mul_add _ (hs ▸ hn), if_neg (lt_irrefl _), Nat.sub_self]
    cases neg <;> rfl
  have hfr : bitsOf ((if neg then f.signBit else 0) + n) 0 f.fb = n % 2 ^ f.fb := by
    rw [RT.bitsOf_div, hx, pow_zero, Nat.div_one, add_comm f.eb, pow_add, mul_assoc, Nat.mul_add_mod]
  have hex : bitsOf ((if neg then f.signBit else 0) + n) f.fb f.eb = n / 2 ^ f.fb := by
    rw [RT.bitsOf_div, hx, add_comm f.eb, pow_add, mul_assoc, Nat.mul_add_div (Nat.two_pow_pos _), Nat.mul_add_mod]
    refine Nat.mod_eq_of_lt (Nat.div_lt_of_lt_mul ?_)
    rwa [← pow_add, add_comm, ← hs]
  simp only [FFmt.dec, hsign, hfr, hex]

/-- A code below the infinity decodes to its value. -/
theorem dec_finite (neg : Bool) {n : ℕ} (hn : n < f.infBits) : ∃ m e,
    f.dec ((if neg then f.signBit else 0) + n) = .fin neg m e ∧ realOf (.fin neg m e) = (if neg then -1 else 1) * codeVal f n := by
  have hlt : n / 2 ^ f.fb < 2 ^ f.eb - 1 := (Nat.div_lt_iff_lt_mul (Nat.two_pow_pos _)).mpr hn
  rw [dec_parts neg (hn.trans infBits_lt_signBit), if_neg hlt.ne]
  by_cases h0 : n / 2 ^ f.fb = 0
  · refine ⟨_, _, if_pos h0, ?_⟩
    have hm : n % 2 ^ f.fb = n := Nat.mod_eq_of_lt ((Nat.div_eq_zero_iff_lt (Nat.two_pow_pos _)).mp h0)
    rw [realOf_fin, codeVal, codeMant, codeBand, if_pos h0, hm, h0]
    simp
  · refine ⟨_, _, if_neg h0, ?_⟩
    rw [realOf_fin, codeVal, codeMant, codeBand, if_neg h0]
    rw [Nat.cast_pred (Nat.pos_of_ne_zero h0)]

theorem dec_infinite (neg : Bool) : f.dec ((if neg then f.signBit else 0) + f.infBits) = .inf neg := by
  have hd : f.infBits / 2 ^ f.fb = 2 ^ f.eb - 1 := Nat.mul_div_cancel _ (Nat.two_pow_pos _)
  have hm : f.infBits % 2 ^ f.fb = 0 := Nat.mul_mod_left ..
  rw [dec_parts neg infBits_lt_signBit, if_pos hd, if_pos hm]

/-- A code whose value, taken without end, lies within b ≤ 1 units of a real number is a result as near as R115 asks. -/
theorem near_of_code {b : ℚ} {v : ℝ} {c : ℕ} {neg : Bool} (hf : 2 ≤ f.infBits) (hb : b ≤ 1)
    (h0 : v ≠ 0) (hc : abs (codeVal f c - |v|) ≤ b * ulp f v) (hv : v = (if neg then -1 else 1) * |v|) :
    f.near b v ((if neg then f.signBit else 0) + min c f.infBits) := by
  rcases Nat.lt_or_ge c f.infBits with hlt | hge
  · obtain ⟨m, e, hd, hr⟩ := dec_finite neg hlt
    refine .inl ⟨neg, m, e, by rw [min_eq_left hlt.le]; exact hd, ?_⟩
    change |realOf (.fin neg m e) - v| ≤ b * ulp f v
    have hs : |realOf (.fin neg m e) - v| = abs (codeVal f c - |v|) := by
      rw [hr, hv, abs_mul, abs_abs, ← mul_sub, abs_mul]
      cases neg <;> simp
    rw [hs]
    exact hc
  · have hmax : codeVal f (f.infBits - 1) ≤ |v| := by
      by_contra hlt
      rw [not_le] at hlt
      have hcode : codeVal f (f.infBits - 1) + codeGap f (f.infBits - 1) ≤ codeVal f c := by
        rw [← codeVal_succ]
        exact codeVal_strictMono.monotone (by omega)
      have hb' : (b : ℝ) ≤ 1 := by exact_mod_cast hb
      have hu : ulp f v ≤ codeGap f (f.infBits - 1) :=
        ulp_le_codeGap h0 (hlt.trans (codeVal_strictMono (Nat.lt_succ_self _)))
      have := (abs_le.mp hc).2
      have := mul_le_mul_of_nonneg_right hb' (ulp_pos (f := f) v).le
      linarith
    have hpos : 0 < |v| := lt_of_lt_of_le (by rw [← codeVal_zero (f := f)]; exact codeVal_strictMono (by omega)) hmax
    have hneg : v < 0 ↔ neg = true := by
      cases neg
      · simp only [Bool.false_eq_true, if_false, one_mul, iff_false, not_lt] at hv ⊢
        rw [hv]; exact hpos.le
      · simp only [if_true, neg_mul, one_mul, iff_true] at hv ⊢
        linarith
    have hsign : f.signBit ≤ (if neg then f.signBit else 0) + f.infBits ↔ neg = true := by
      have := infBits_lt_signBit (f := f)
      cases neg <;> simp <;> omega
    obtain ⟨m, e, hd, hr⟩ := dec_finite (f := f) false (show f.infBits - 1 < f.infBits by omega)
    refine .inr ?_
    rw [min_eq_right hge]
    refine ⟨by rw [dec_infinite, Bool.eq_iff_iff.mpr (decide_eq_true_iff.trans hsign)], hsign.trans hneg.symm, ?_⟩
    simp only [Bool.false_eq_true, if_false, Nat.zero_add, one_mul] at hd hr
    rw [hd]
    exact hr.trans_le hmax

end Sys2Proof.Laws
end

section
/-! ## Encoding: rounding to neighbouring codes (R38, R81, R119) -/

namespace Sys2Proof.Laws
open Sys2Proof Sys2Proof.Machine

variable {f : FFmt}

/-! ### One rounding to a multiple of a power of two -/

theorem roundAt_exact (rm : Rnd) (neg : Bool) (m : ℕ) {e q : ℤ} (h : q ≤ e) :
    (roundAt rm neg m e q : ℝ) = m * 2 ^ (e - q) := by
  rw [roundAt, if_pos h]
  push_cast
  rw [← zpow_natCast, Int.toNat_of_nonneg (by omega)]

/-- Below the unit: a value m / 2^s, the truncated quotient, and whether it rounds up. -/
theorem roundAt_inexact (rm : Rnd) (neg : Bool) (m : ℕ) {e q : ℤ} (h : ¬q ≤ e) : ∃ s : ℕ,
    roundAt rm neg m e q = (if roundsUp rm neg (m / 2 ^ s) (remClass m s) then m / 2 ^ s + 1 else m / 2 ^ s) ∧
    (m : ℝ) * 2 ^ (e - q) = (m / 2 ^ s : ℕ) + (m % 2 ^ s : ℕ) / 2 ^ s ∧ m % 2 ^ s < 2 ^ s := by
  refine ⟨(q - e).toNat, by rw [roundAt, if_neg h], ?_, Nat.mod_lt _ (Nat.two_pow_pos _)⟩
  have e1 : (2 : ℝ) ^ (e - q) = (2 ^ (q - e).toNat)⁻¹ := by
    rw [← zpow_natCast, Int.toNat_of_nonneg (by omega), ← zpow_neg, neg_sub]
  have e2 : (m : ℝ) = 2 ^ (q - e).toNat * (m / 2 ^ (q - e).toNat : ℕ) + (m % 2 ^ (q - e).toNat : ℕ) := by
    exact_mod_cast (Nat.div_add_mod m (2 ^ (q - e).toNat)).symm
  rw [e1]
  field_simp
  linarith

theorem roundAt_rz (neg : Bool) (m : ℕ) (e q : ℤ) :
    (roundAt .rz neg m e q : ℝ) ≤ m * 2 ^ (e - q) ∧ (m : ℝ) * 2 ^ (e - q) < roundAt .rz neg m e q + 1 := by
  by_cases h : q ≤ e
  · rw [roundAt_exact _ _ _ h]
    exact ⟨le_rfl, lt_add_one _⟩
  · obtain ⟨s, hr, hx, hlt⟩ := roundAt_inexact .rz neg m h
    have hr : roundAt .rz neg m e q = m / 2 ^ s := hr
    have h1 : ((m % 2 ^ s : ℕ) : ℝ) / 2 ^ s < 1 := by
      rw [div_lt_one (by positivity)]
      exact_mod_cast hlt
    have h0 : 0 ≤ ((m % 2 ^ s : ℕ) : ℝ) / 2 ^ s := by positivity
    rw [hr, hx]
    constructor <;> linarith

theorem roundAt_ru (m : ℕ) (e q : ℤ) :
    (m : ℝ) * 2 ^ (e - q) ≤ roundAt .ru false m e q ∧ (roundAt .ru false m e q : ℝ) < m * 2 ^ (e - q) + 1 := by
  by_cases h : q ≤ e
  · rw [roundAt_exact _ _ _ h]
    exact ⟨le_rfl, lt_add_one _⟩
  · obtain ⟨s, hr, hx, hlt⟩ := roundAt_inexact .ru false m h
    have h1 : ((m % 2 ^ s : ℕ) : ℝ) / 2 ^ s < 1 := by
      rw [div_lt_one (by positivity)]
      exact_mod_cast hlt
    rw [hr, hx]
    by_cases h0 : m % 2 ^ s = 0
    · have hc : remClass m s = 0 := by simp [remClass, h0]
      simp [roundsUp, hc, h0]
    · have hc : roundsUp .ru false (m / 2 ^ s) (remClass m s) = true := by
        simp only [remClass, h0, if_false]
        split
        · rfl
        · split <;> rfl
      have hp : 0 < ((m % 2 ^ s : ℕ) : ℝ) / 2 ^ s := by
        have : 0 < m % 2 ^ s := by omega
        positivity
      rw [if_pos hc]
      push_cast at *
      constructor <;> linarith

theorem roundAt_rn (neg : Bool) (m : ℕ) (e q : ℤ) : |(roundAt .rn neg m e q : ℝ) - m * 2 ^ (e - q)| ≤ 1 / 2 := by
  by_cases h : q ≤ e
  · rw [roundAt_exact _ _ _ h, sub_self, abs_zero]
    norm_num
  · obtain ⟨s, hr, hx, hlt⟩ := roundAt_inexact .rn neg m h
    rw [hr, hx]
    generalize m / 2 ^ s = t
    have hlo : (2 * (m % 2 ^ s) ≤ 2 ^ s) → ((m % 2 ^ s : ℕ) : ℝ) / 2 ^ s ≤ 1 / 2 := fun h => by
      rw [div_le_div_iff₀ (by positivity) two_pos, one_mul, mul_comm]
      exact_mod_cast h
    have hhi : (2 ^ s ≤ 2 * (m % 2 ^ s)) → 1 / 2 ≤ ((m % 2 ^ s : ℕ) : ℝ) / 2 ^ s := fun h => by
      rw [div_le_div_iff₀ two_pos (by positivity), one_mul, mul_comm _ (2 : ℝ)]
      exact_mod_cast h
    have h1 : ((m % 2 ^ s : ℕ) : ℝ) / 2 ^ s < 1 := by
      rw [div_lt_one (by positivity)]
      exact_mod_cast hlt
    have h0 : 0 ≤ ((m % 2 ^ s : ℕ) : ℝ) / 2 ^ s := by positivity
    rw [abs_le]
    by_cases hup : roundsUp .rn neg t (remClass m s) = true
    · have : 2 ^ s ≤ 2 * (m % 2 ^ s) := by
        by_contra hn
        have hc : remClass m s = 0 ∨ remClass m s = 1 := by
          simp only [remClass, show 2 * (m % 2 ^ s) < 2 ^ s by omega, if_true]
          split <;> simp
        rcases hc with hc | hc <;> simp [roundsUp, hc] at hup
      have := hhi this
      rw [if_pos hup]
      push_cast
      constructor <;> linarith
    · have : 2 * (m % 2 ^ s) ≤ 2 ^ s := by
        by_contra hn
        have hc : remClass m s = 3 := by
          simp only [remClass, show ¬m % 2 ^ s = 0 by omega, show ¬2 * (m % 2 ^ s) < 2 ^ s by omega,
            show ¬2 * (m % 2 ^ s) = 2 ^ s by omega, if_false]
        simp [roundsUp, hc] at hup
      have := hlo this
      rw [if_neg hup]
      constructor <;> linarith

/-! ### The code of a value, taken without end -/

/-- The exponent of the unit that a value is rounded to. -/
def encExp (f : FFmt) (m : ℕ) (e : ℤ) : ℤ := max ((Nat.log2 m : ℤ) + e - f.fb) f.emin

/-- The code that a value is rounded to, before the infinity cuts it off. -/
def encCode (f : FFmt) (rm : Rnd) (neg : Bool) (m : ℕ) (e : ℤ) : ℕ :=
  (encExp f m e - f.emin).toNat * 2 ^ f.fb + roundAt rm neg m e (encExp f m e)

theorem enc_fin (rm : Rnd) (neg : Bool) {m : ℕ} (hm : m ≠ 0) (e : ℤ) : f.enc rm (.fin neg m e) =
    (if neg then f.signBit else 0) +
      (if f.infBits ≤ encCode f rm neg m e then overflowBits f rm neg else encCode f rm neg m e) := by
  simp only [FFmt.enc, if_neg hm]
  change (if f.infBits ≤ encCode f rm neg m e then _ else _ + encCode f rm neg m e) = _
  split <;> rfl

theorem enc_rn (neg : Bool) {m : ℕ} (hm : m ≠ 0) (e : ℤ) :
    f.enc .rn (.fin neg m e) = (if neg then f.signBit else 0) + min (encCode f .rn neg m e) f.infBits := by
  rw [enc_fin _ _ hm]
  congr 1
  split
  · next h => rw [min_eq_right h]; rfl
  · next h => rw [min_eq_left (by omega)]

theorem enc_ru {m : ℕ} (hm : m ≠ 0) (e : ℤ) : f.enc .ru (.fin false m e) = min (encCode f .ru false m e) f.infBits := by
  rw [enc_fin _ _ hm, if_neg nofun, Nat.zero_add]
  split
  · next h => rw [min_eq_right h]; rfl
  · next h => rw [min_eq_left (by omega)]

theorem enc_rz {m : ℕ} (hm : m ≠ 0) (e : ℤ) (hlt : encCode f .rz false m e < f.infBits) :
    f.enc .rz (.fin false m e) = encCode f .rz false m e := by
  rw [enc_fin _ _ hm, if_neg nofun, Nat.zero_add, if_neg (by omega)]

/-- The magnitude of a value with the mantissa m at the exponent e, whose leading bit stands at its binary logarithm. -/
theorem log2_bounds {m : ℕ} (hm : m ≠ 0) (e : ℤ) :
    (2 : ℝ) ^ ((Nat.log2 m : ℤ) + e) ≤ m * 2 ^ e ∧ (m : ℝ) * 2 ^ e < 2 ^ ((Nat.log2 m : ℤ) + e + 1) := by
  have h1 : 2 ^ Nat.log2 m ≤ m := Nat.log2_self_le hm
  have h2 : m < 2 ^ (Nat.log2 m + 1) := Nat.lt_log2_self
  have hp : (0 : ℝ) < 2 ^ e := zpow_pos two_pos _
  constructor
  · rw [zpow_add₀ two_ne_zero, zpow_natCast]
    exact mul_le_mul_of_nonneg_right (by exact_mod_cast h1) hp.le
  · rw [show (Nat.log2 m : ℤ) + e + 1 = ((Nat.log2 m + 1 : ℕ) : ℤ) + e by push_cast; ring, zpow_add₀ two_ne_zero, zpow_natCast]
    exact mul_lt_mul_of_pos_right (by exact_mod_cast h2) hp

theorem log_of_mant {m : ℕ} (hm : m ≠ 0) (e : ℤ) : Int.log 2 ((m : ℝ) * 2 ^ e) = (Nat.log2 m : ℤ) + e := by
  obtain ⟨h1, h2⟩ := log2_bounds hm e
  have hp : (0 : ℝ) < m * 2 ^ e := lt_of_lt_of_le (zpow_pos two_pos _) h1
  have a := (Int.zpow_le_iff_le_log one_lt_two hp).mp (by exact_mod_cast h1)
  have b := (Int.lt_zpow_iff_log_lt one_lt_two hp).mp (by exact_mod_cast h2)
  omega

theorem mant_pos {m : ℕ} (hm : m ≠ 0) (e : ℤ) : (0 : ℝ) < m * 2 ^ e :=
  mul_pos (by exact_mod_cast Nat.pos_of_ne_zero hm) (zpow_pos two_pos _)

theorem ulp_of_mant {m : ℕ} (hm : m ≠ 0) (e : ℤ) : ulp f (m * 2 ^ e) = 2 ^ encExp f m e := by
  rw [ulp, abs_of_pos (mant_pos hm e), log_of_mant hm, encExp]

/-- The value in units of the rounding: a mantissa of the format, or a subnormal. -/
theorem mant_units {m : ℕ} (hm : m ≠ 0) (e : ℤ) :
    (m : ℝ) * 2 ^ (e - encExp f m e) < 2 ^ (f.fb + 1) ∧
    ((2 : ℝ) ^ f.fb ≤ m * 2 ^ (e - encExp f m e) ∨ (encExp f m e - f.emin).toNat = 0) := by
  obtain ⟨h1, h2⟩ := log2_bounds hm (e - encExp f m e)
  constructor
  · refine h2.trans_le ?_
    rw [← zpow_natCast]
    refine zpow_le_zpow_right₀ one_le_two ?_
    have := le_max_left ((Nat.log2 m : ℤ) + e - f.fb) f.emin
    unfold encExp
    push_cast
    omega
  · by_cases hq : (Nat.log2 m : ℤ) + e - f.fb ≤ f.emin
    · exact .inr (by rw [encExp, max_eq_right hq, sub_self]; rfl)
    · refine .inl (le_trans ?_ h1)
      rw [← zpow_natCast]
      refine zpow_le_zpow_right₀ one_le_two ?_
      rw [encExp, max_eq_left (by omega)]
      omega

theorem encExp_band (m : ℕ) (e : ℤ) : (((encExp f m e - f.emin).toNat : ℕ) : ℤ) + f.emin = encExp f m e := by
  have : f.emin ≤ encExp f m e := le_max_right _ _
  omega

theorem mul_two_zpow_sub (m : ℝ) (e q : ℤ) : m * 2 ^ e = m * 2 ^ (e - q) * 2 ^ q := by
  rw [mul_assoc, ← zpow_add₀ two_ne_zero, sub_add_cancel]

/-- Truncation gives the code at or below the value. -/
theorem encCode_rz {m : ℕ} (hm : m ≠ 0) (e : ℤ) :
    codeVal f (encCode f .rz false m e) ≤ m * 2 ^ e ∧ (m : ℝ) * 2 ^ e < codeVal f (encCode f .rz false m e + 1) := by
  obtain ⟨hlt, hge⟩ := mant_units (f := f) hm e
  obtain ⟨h1, h2⟩ := roundAt_rz false m e (encExp f m e)
  set q := encExp f m e with hq
  set t := roundAt .rz false m e q
  have hp : (0 : ℝ) < 2 ^ q := zpow_pos two_pos _
  have ht : t < 2 ^ (f.fb + 1) := by exact_mod_cast h1.trans_lt hlt
  have ht' : 2 ^ f.fb ≤ t ∨ (q - f.emin).toNat = 0 := hge.imp_left fun h => by
    have := h.trans_lt h2
    have : 2 ^ f.fb < t + 1 := by exact_mod_cast this
    omega
  rw [mul_two_zpow_sub _ e q, encCode, ← hq, add_assoc, codeVal_mk ht' ht.le, codeVal_mk (ht'.imp_left (by omega)) ht, hq,
    encExp_band, ← hq]
  push_cast
  exact ⟨mul_le_mul_of_nonneg_right h1 hp.le, mul_lt_mul_of_pos_right h2 hp⟩

/-- Rounding up gives the least code at or above the value. -/
theorem encCode_ru {m : ℕ} (hm : m ≠ 0) (e : ℤ) :
    (m : ℝ) * 2 ^ e ≤ codeVal f (encCode f .ru false m e) ∧
    ∀ n < encCode f .ru false m e, codeVal f n < m * 2 ^ e := by
  obtain ⟨hlt, hge⟩ := mant_units (f := f) hm e
  obtain ⟨h1, h2⟩ := roundAt_ru m e (encExp f m e)
  set q := encExp f m e with hq
  set t := roundAt .ru false m e q with hdef
  have hp : (0 : ℝ) < 2 ^ q := zpow_pos two_pos _
  have ht : t ≤ 2 ^ (f.fb + 1) := by
    have : (t : ℝ) < (2 ^ (f.fb + 1) + 1 : ℕ) := by push_cast; linarith
    have := Nat.cast_lt.mp this
    omega
  have ht' : 2 ^ f.fb ≤ t ∨ (q - f.emin).toNat = 0 := hge.imp_left fun h => by exact_mod_cast h.trans h1
  have hcode : codeVal f (encCode f .ru false m e) = t * 2 ^ q := by
    rw [encCode, ← hq, codeVal_mk ht' ht, hq, encExp_band, ← hq]
  refine ⟨?_, fun n hn => ?_⟩
  · rw [mul_two_zpow_sub _ e q, hcode]
    exact mul_le_mul_of_nonneg_right h1 hp.le
  · rcases h1.eq_or_lt with heq | hlt'
    · rw [mul_two_zpow_sub _ e q, heq, ← hcode]
      exact codeVal_strictMono hn
    · have hpos : 0 < t := by
        have : (0 : ℝ) < t := lt_of_le_of_lt (mant_pos hm _).le hlt'
        exact_mod_cast this
      have hprev : 2 ^ f.fb ≤ t - 1 ∨ (q - f.emin).toNat = 0 := hge.imp_left fun h => by
        have : 2 ^ f.fb < t := by exact_mod_cast h.trans_lt hlt'
        omega
      have hle : n ≤ (q - f.emin).toNat * 2 ^ f.fb + (t - 1) := by
        rw [encCode, ← hq, ← hdef] at hn
        omega
      calc codeVal f n ≤ codeVal f ((q - f.emin).toNat * 2 ^ f.fb + (t - 1)) := codeVal_strictMono.monotone hle
        _ = ((t - 1 : ℕ) : ℝ) * 2 ^ q := by rw [codeVal_mk hprev (by omega), hq, encExp_band]
        _ < m * 2 ^ (e - q) * 2 ^ q := by
          refine mul_lt_mul_of_pos_right ?_ hp
          rw [Nat.cast_pred hpos]
          linarith
        _ = m * 2 ^ e := (mul_two_zpow_sub _ e q).symm

/-- Rounding to nearest gives a whole number of units, within half a unit. -/
theorem encCode_rn_units (neg : Bool) {m : ℕ} (hm : m ≠ 0) (e : ℤ) : ∃ t : ℕ,
    codeVal f (encCode f .rn neg m e) = t * 2 ^ encExp f m e ∧ |(t : ℝ) - m * 2 ^ (e - encExp f m e)| ≤ 1 / 2 := by
  obtain ⟨hlt, hge⟩ := mant_units (f := f) hm e
  have h1 := roundAt_rn neg m e (encExp f m e)
  refine ⟨_, ?_, h1⟩
  set q := encExp f m e with hq
  set t := roundAt .rn neg m e q
  obtain ⟨ha, hb⟩ := abs_le.mp h1
  have ht : t ≤ 2 ^ (f.fb + 1) := by
    have : (t : ℝ) < (2 ^ (f.fb + 1) + 1 : ℕ) := by push_cast; linarith
    have := Nat.cast_lt.mp this
    omega
  have ht' : 2 ^ f.fb ≤ t ∨ (q - f.emin).toNat = 0 := hge.imp_left fun h => by
    have : ((2 ^ f.fb : ℕ) : ℝ) < (t + 1 : ℕ) := by push_cast; linarith
    have := Nat.cast_lt.mp this
    omega
  rw [encCode, ← hq, codeVal_mk ht' ht, hq, encExp_band]

/-- Rounding to nearest gives a code within half a unit. -/
theorem encCode_rn (neg : Bool) {m : ℕ} (hm : m ≠ 0) (e : ℤ) :
    |codeVal f (encCode f .rn neg m e) - m * 2 ^ e| ≤ 1 / 2 * ulp f (m * 2 ^ e) := by
  obtain ⟨t, hc, ht⟩ := encCode_rn_units (f := f) neg hm e
  have hp : (0 : ℝ) < 2 ^ encExp f m e := zpow_pos two_pos _
  rw [hc, ulp_of_mant hm, mul_two_zpow_sub _ e (encExp f m e), ← sub_mul, abs_mul, abs_of_pos hp]
  exact mul_le_mul_of_nonneg_right ht hp.le

/-! ### A rounding depends on the value alone -/

/-- How a part below the unit compares with half a unit. -/
noncomputable def fracClass (x : ℝ) : ℕ := if x = 0 then 0 else if x < 1 / 2 then 1 else if x = 1 / 2 then 2 else 3

theorem remClass_eq (m s : ℕ) : remClass m s = fracClass (((m % 2 ^ s : ℕ) : ℝ) / 2 ^ s) := by
  have hp : (0 : ℝ) < 2 ^ s := by positivity
  have h0 : ((m % 2 ^ s : ℕ) : ℝ) / 2 ^ s = 0 ↔ m % 2 ^ s = 0 := by
    rw [div_eq_zero_iff, or_iff_left hp.ne', Nat.cast_eq_zero]
  have h1 : ((m % 2 ^ s : ℕ) : ℝ) / 2 ^ s < 1 / 2 ↔ 2 * (m % 2 ^ s) < 2 ^ s := by
    rw [div_lt_div_iff₀ hp two_pos, one_mul, mul_comm]
    exact_mod_cast Iff.rfl
  have h2 : ((m % 2 ^ s : ℕ) : ℝ) / 2 ^ s = 1 / 2 ↔ 2 * (m % 2 ^ s) = 2 ^ s := by
    rw [div_eq_div_iff hp.ne' two_ne_zero, one_mul, mul_comm]
    exact_mod_cast Iff.rfl
  simp only [remClass, fracClass, h0, h1, h2]

/-- A rounding by the whole and the fractional part of the value in units. -/
theorem roundAt_eq (rm : Rnd) (neg : Bool) (m : ℕ) (e q : ℤ) : roundAt rm neg m e q =
    if roundsUp rm neg ⌊(m : ℝ) * 2 ^ (e - q)⌋₊ (fracClass (Int.fract ((m : ℝ) * 2 ^ (e - q)))) then
      ⌊(m : ℝ) * 2 ^ (e - q)⌋₊ + 1 else ⌊(m : ℝ) * 2 ^ (e - q)⌋₊ := by
  by_cases h : q ≤ e
  · rw [← roundAt_exact rm neg m h, Nat.floor_natCast, Int.fract_natCast]
    have : roundsUp rm neg (roundAt rm neg m e q) (fracClass 0) = false := by
      cases rm <;> simp [roundsUp, fracClass]
    rw [this]
    rfl
  · obtain ⟨s, hr, hx, hlt⟩ := roundAt_inexact rm neg m h
    have h0 : 0 ≤ ((m % 2 ^ s : ℕ) : ℝ) / 2 ^ s := by positivity
    have h1 : ((m % 2 ^ s : ℕ) : ℝ) / 2 ^ s < 1 := by
      rw [div_lt_one (by positivity)]
      exact_mod_cast hlt
    have hfl : ⌊(m : ℝ) * 2 ^ (e - q)⌋₊ = m / 2 ^ s := by
      rw [hx, add_comm, Nat.floor_add_natCast h0, Nat.floor_eq_zero.mpr h1, Nat.zero_add]
    have hfr : Int.fract ((m : ℝ) * 2 ^ (e - q)) = ((m % 2 ^ s : ℕ) : ℝ) / 2 ^ s := by
      rw [hx, Int.fract_natCast_add, Int.fract_eq_self.mpr ⟨h0, h1⟩]
    rw [hr, hfl, hfr, remClass_eq]

theorem enc_eq_of_value (rm : Rnd) (neg : Bool) {m n : ℕ} {e g : ℤ} (h : (m : ℝ) * 2 ^ e = n * 2 ^ g) :
    f.enc rm (.fin neg m e) = f.enc rm (.fin neg n g) := by
  have hz : m = 0 ↔ n = 0 := by
    have := zpow_ne_zero e (two_ne_zero (α := ℝ))
    have := zpow_ne_zero g (two_ne_zero (α := ℝ))
    constructor <;> rintro rfl <;> simp_all
  by_cases hm : m = 0
  · simp only [FFmt.enc, hm, hz.mp hm, if_true]
  · have hn : n ≠ 0 := fun e => hm (hz.mpr e)
    have hexp : encExp f m e = encExp f n g := by
      unfold encExp
      rw [← log_of_mant hm, ← log_of_mant hn, h]
    have hunits (q : ℤ) : (m : ℝ) * 2 ^ (e - q) = n * 2 ^ (g - q) := by
      rw [sub_eq_add_neg, sub_eq_add_neg, zpow_add₀ two_ne_zero, zpow_add₀ two_ne_zero, ← mul_assoc, ← mul_assoc, h]
    have hcode : encCode f rm neg m e = encCode f rm neg n g := by
      rw [encCode, encCode, hexp, roundAt_eq, roundAt_eq, hunits]
    rw [enc_fin _ _ hm, enc_fin _ _ hn, hcode]

end Sys2Proof.Laws
end

section
/-! ## Results within the bound of R115

An enclosure of a real number is so narrow that at most one code lies inside it. Whatever neighbour the free choice takes, it lies
within one unit of the number, and with the wider choice of TANH within two. -/

namespace Sys2Proof.Laws
open Sys2Proof Sys2Proof.Machine

variable {f : FFmt}

/-- The formats of the transcendental functions. -/
abbrev IsWide (f : FFmt) : Prop := f = fF64 ∨ f = fF32

theorem infBits_ge (hf : IsWide f) : 2 ≤ f.infBits := by rcases hf with rfl | rfl <;> decide

theorem codeVal_infBits (hf : IsWide f) : codeVal f f.infBits = 2 ^ (f.bias + 1) := by
  have e : f.infBits = (2 ^ f.eb - 2) * 2 ^ f.fb + 2 ^ f.fb := by rcases hf with rfl | rfl <;> decide
  have h : (f.fb : ℤ) + (((2 ^ f.eb - 2 : ℕ) : ℤ) + f.emin) = ((f.bias + 1 : ℕ) : ℤ) := by
    rcases hf with rfl | rfl <;> decide
  have h2 : (2 : ℝ) ^ (f.bias + 1) = 2 ^ (f.fb : ℤ) * 2 ^ (((2 ^ f.eb - 2 : ℕ) : ℤ) + f.emin) := by
    rw [← zpow_add₀ two_ne_zero, h, zpow_natCast]
  rw [e, codeVal_mk (.inl le_rfl) (Nat.pow_le_pow_right two_pos (Nat.le_succ _)), h2, zpow_natCast, Nat.cast_pow, Nat.cast_two]

theorem codeGap_infBits (hf : IsWide f) : codeGap f f.infBits = 2 * codeGap f (f.infBits - 1) := by
  have h : codeBand f f.infBits = codeBand f (f.infBits - 1) + 1 := by rcases hf with rfl | rfl <;> decide
  rw [codeGap, codeGap, h, mul_comm, ← zpow_add_one₀ two_ne_zero]
  push_cast
  congr 1
  ring

theorem near_mono {b b' : ℚ} {v : ℝ} {y : ℕ} (hb : b ≤ b') (h : f.near b v y) : f.near b' v y := by
  rcases h with ⟨neg, m, e, hd, hr⟩ | h
  · refine .inl ⟨neg, m, e, hd, hr.trans ?_⟩
    exact mul_le_mul_of_nonneg_right (by exact_mod_cast hb) (ulp_pos v).le
  · exact .inr h

/-- A finite code within b units. -/
theorem near_of_finite {b : ℚ} {v : ℝ} {c : ℕ} {neg : Bool} (hc : abs (codeVal f c - |v|) ≤ b * ulp f v)
    (hv : v = (if neg then -1 else 1) * |v|) (hlt : c < f.infBits) : f.near b v ((if neg then f.signBit else 0) + c) := by
  obtain ⟨m, e, hd, hr⟩ := dec_finite neg hlt
  refine .inl ⟨neg, m, e, hd, ?_⟩
  change |realOf (.fin neg m e) - v| ≤ b * ulp f v
  have hs : |realOf (.fin neg m e) - v| = abs (codeVal f c - |v|) := by
    rw [hr, hv, abs_mul, abs_abs, ← mul_sub, abs_mul]
    cases neg <;> simp
  rw [hs]
  exact hc

/-- An exact value is rounded within half a unit. -/
theorem near_exact (hf : IsWide f) {neg : Bool} {m : ℕ} (hm : m ≠ 0) {e : ℤ} {v : ℝ} (hv : v = realOf (.fin neg m e)) :
    f.near (1 / 2) v (f.enc .rn (.fin neg m e)) := by
  have hp := mant_pos hm e
  have habs : |v| = m * 2 ^ e := by rw [hv, realOf_fin, abs_mul, abs_of_pos hp]; cases neg <;> simp
  rw [enc_rn _ hm]
  refine near_of_code (infBits_ge hf) (by norm_num) ?_ ?_ ?_
  · rintro rfl
    rw [abs_zero] at habs
    exact hp.ne habs
  · rw [← ulp_abs v, habs]
    have := encCode_rn (f := f) neg hm e
    norm_num at this ⊢
    exact this
  · rw [habs, hv, realOf_fin]

theorem near_infinite (hf : IsWide f) {b : ℚ} {v : ℝ} (hv : (2 : ℝ) ^ (f.bias + 1) ≤ v) : f.near b v (f.enc .rn (.inf false)) := by
  have h0 : 0 < v := lt_of_lt_of_le (by positivity) hv
  have he : f.enc .rn (.inf false) = f.infBits := Nat.add_zero _
  have hd : f.dec f.infBits = .inf false := by simpa using dec_infinite (f := f) false
  have hs := infBits_lt_signBit (f := f)
  obtain ⟨m, e, hm, hr⟩ := dec_finite (f := f) false (show f.infBits - 1 < f.infBits by have := infBits_ge hf; omega)
  simp only [Bool.false_eq_true, if_false, Nat.zero_add, one_mul] at hm hr
  rw [he]
  refine .inr ⟨by rw [hd, decide_eq_false (by omega)], ⟨fun h => by omega, fun h => by linarith⟩, ?_⟩
  rw [hm, abs_of_pos h0]
  refine hr.trans_le (le_trans ?_ hv)
  rw [← codeVal_infBits hf]
  exact codeVal_strictMono.monotone (Nat.sub_le _ _)

/-- The order of two magnitudes. -/
theorem cmpNum_pos (m n : ℕ) (e g : ℤ) :
    cmpNum (.fin false m e) (.fin false n g) = some .lt ↔ (m : ℝ) * 2 ^ e < n * 2 ^ g := by
  have h (m : ℕ) (e : ℤ) (he : min e g ≤ e ∨ True) (k : ℤ) (hk : k ≤ e) : (mantAt k (.fin false m e) : ℝ) * 2 ^ k = m * 2 ^ e := by
    simp only [mantAt, Bool.false_eq_true, if_false]
    push_cast
    rw [← zpow_natCast, Int.toNat_of_nonneg (by omega), mul_assoc, ← zpow_add₀ two_ne_zero, sub_add_cancel]
  have hp : (0 : ℝ) < 2 ^ min e g := zpow_pos two_pos _
  rw [← h m e (.inr trivial) (min e g) (min_le_left ..), ← h n g (.inr trivial) (min e g) (min_le_right ..),
    mul_lt_mul_iff_left₀ hp, Int.cast_lt, cmpNum]
  simp only [Option.some.injEq]
  split
  · simp [*]
  · split <;> simp [*]

/-! ### The neighbours of an enclosed number -/

/-- An enclosure that is narrow against its lower end: what is known of the magnitude V in it, of the code dn at or below its lower end
and of the code up at or above its upper end. -/
structure Enclosed (f : FFmt) (dn up : ℕ) (V : ℝ) : Prop where
  pos : 0 < V
  below : codeVal f dn ≤ V
  above : V ≤ codeVal f up
  /-- The next code lies within a unit. -/
  next : |codeVal f (dn + 1) - V| ≤ ulp f V
  /-- Where it lies below the number, the excess is at most the distance of the codes below it. -/
  excess : V - codeVal f (dn + 1) ≤ codeGap f dn

theorem enclosed_of {ml mh : ℕ} {el eh : ℤ} {V : ℝ} (hml : ml ≠ 0) (hlo : (ml : ℝ) * 2 ^ el ≤ V) (hhi : V ≤ mh * 2 ^ eh)
    (hw : (mh : ℝ) * 2 ^ eh - ml * 2 ^ el ≤ ml * 2 ^ el / 2 ^ (f.fb + 1)) :
    Enclosed f (encCode f .rz false ml el) (encCode f .ru false mh eh) V := by
  have hpl := mant_pos hml el
  have hV : 0 < V := hpl.trans_le hlo
  have hmh : mh ≠ 0 := by
    rintro rfl
    rw [Nat.cast_zero, zero_mul] at hhi
    linarith
  obtain ⟨hdn, hdn'⟩ := encCode_rz (f := f) hml el
  obtain ⟨hup, -⟩ := encCode_ru (f := f) hmh eh
  generalize encCode f .rz false ml el = dn at *
  generalize encCode f .ru false mh eh = up at *
  have hwl : (mh : ℝ) * 2 ^ eh - ml * 2 ^ el ≤ ulp f (ml * 2 ^ el) := by
    refine hw.trans ?_
    have := div_le_ulp (f := f) ((ml : ℝ) * 2 ^ el)
    rwa [abs_of_pos hpl] at this
  have hwv := hwl.trans (ulp_mono (f := f) (v := (ml : ℝ) * 2 ^ el) (w := V) (by rwa [abs_of_pos hpl])
    (by rwa [abs_of_pos hpl, abs_of_pos hV]))
  have hwd := hwl.trans (ulp_le_codeGap hpl.ne' (by rwa [abs_of_pos hpl]))
  have hgap := codeGap_le_ulp (f := f) (n := dn) (v := V) (by rw [abs_of_pos hV]; linarith)
  have hsucc := codeVal_succ (f := f) dn
  refine ⟨hV, by linarith, by linarith, ?_, by linarith⟩
  rw [abs_le]
  constructor <;> linarith

theorem Enclosed.dn_near {dn up : ℕ} {V : ℝ} (h : Enclosed f dn up V) (hV : V ≤ codeVal f (dn + 1)) : |codeVal f dn - V| ≤ ulp f V := by
  have hgap := codeGap_le_ulp (f := f) (n := dn) (v := V) (by rw [abs_of_pos h.pos]; exact h.below)
  have hsucc := codeVal_succ (f := f) dn
  have := h.below
  rw [abs_le]
  constructor <;> linarith [ulp_pos (f := f) V]

/-- A code at or above the number, and not beyond the one after the code below it. -/
theorem Enclosed.up_near {dn up : ℕ} {V : ℝ} (h : Enclosed f dn up V) (hup : up ≤ dn + 1) : |codeVal f up - V| ≤ ulp f V := by
  have hgap := codeGap_le_ulp (f := f) (n := dn) (v := V) (by rw [abs_of_pos h.pos]; exact h.below)
  have hsucc := codeVal_succ (f := f) dn
  have hle := codeVal_strictMono.monotone (f := codeVal f) hup
  have := h.below
  have := h.above
  rw [abs_le]
  constructor <;> linarith [ulp_pos (f := f) V]

/-- The choice of R115 among the neighbours, without the sign. -/
def pickCode (f : FFmt) (wide : Bool) (ch : ℕ → Bool) (dn up : ℕ) : ℕ :=
  if dn + 1 < up then dn + 1
  else if ch 0 then (if wide && ch 1 && decide (up < f.infBits ∧ up % 2 ^ f.fb ≠ 0) then up + 1 else up)
  else if wide && ch 1 && decide (0 < dn) then dn - 1 else dn

theorem pickResult_between (f : FFmt) (wide : Bool) (ch : ℕ → Bool) (neg : Bool) (lo hi : Machine.Num) :
    pickResult f wide ch (.between neg lo hi) = (if neg then f.signBit else 0) +
      if cmpNum lo (.fin false 1 (f.bias + 1)) ≠ some .lt then f.infBits
      else pickCode f wide ch (f.enc .rz lo) (f.enc .ru hi) := by
  cases neg
  · exact (Nat.zero_add _).symm
  · rfl

/-- Where no code is skipped, the neighbours that the narrow choice takes lie within a unit. -/
theorem pickCode_near (hf : IsWide f) {ch : ℕ → Bool} {dn up : ℕ} {V : ℝ} (h : Enclosed f dn up V) (hdn : dn < f.infBits) :
    ∃ c, pickCode f false ch dn (min up f.infBits) = min c f.infBits ∧ |codeVal f c - V| ≤ ulp f V := by
  unfold pickCode
  simp only [Bool.false_and, Bool.false_eq_true, if_false]
  by_cases hmid : dn + 1 < min up f.infBits
  · exact ⟨dn + 1, by rw [if_pos hmid]; omega, h.next⟩
  · rw [if_neg hmid]
    by_cases hup : up ≤ dn + 1
    · by_cases hch : ch 0 = true
      · exact ⟨up, by rw [if_pos hch], h.up_near hup⟩
      · refine ⟨dn, by rw [if_neg hch]; omega, h.dn_near ?_⟩
        exact h.above.trans (codeVal_strictMono.monotone hup)
    · have hinf : dn + 1 = f.infBits := by omega
      by_cases hch : ch 0 = true
      · exact ⟨dn + 1, by rw [if_pos hch]; omega, h.next⟩
      · refine ⟨dn, by rw [if_neg hch]; omega, ?_⟩
        rcases le_or_gt V (codeVal f (dn + 1)) with hV | hV
        · exact h.dn_near hV
        · have hgap := codeGap_le_ulp (f := f) (n := dn + 1) (v := V) (by rw [abs_of_pos h.pos]; exact hV.le)
          have hdouble := codeGap_infBits hf
          rw [← hinf, Nat.add_sub_cancel] at hdouble
          have hsucc := codeVal_succ (f := f) dn
          have := h.excess
          have := h.below
          rw [abs_le]
          constructor <;> linarith [ulp_pos (f := f) V]

/-- A narrow enclosure gives a result within one unit. -/
theorem near_between (hf : IsWide f) {ch : ℕ → Bool} {neg : Bool} {ml mh : ℕ} {el eh : ℤ} {v : ℝ} (hml : ml ≠ 0)
    (hlo : (ml : ℝ) * 2 ^ el ≤ |v|) (hhi : |v| ≤ mh * 2 ^ eh)
    (hw : (mh : ℝ) * 2 ^ eh - ml * 2 ^ el ≤ ml * 2 ^ el / 2 ^ (f.fb + 1)) (hv : v = (if neg then -1 else 1) * |v|) :
    f.near 1 v (pickResult f false ch (.between neg (.fin false ml el) (.fin false mh eh))) := by
  have h := enclosed_of (f := f) hml hlo hhi hw
  have hmh : mh ≠ 0 := by
    rintro rfl
    have := mant_pos hml el
    rw [Nat.cast_zero, zero_mul] at hhi
    linarith
  have h0 : v ≠ 0 := abs_pos.mp h.pos
  have near {c : ℕ} (hc : abs (codeVal f c - |v|) ≤ ulp f |v|) : f.near 1 v ((if neg then f.signBit else 0) + min c f.infBits) :=
    near_of_code (infBits_ge hf) le_rfl h0 (by rw [← ulp_abs v, Rat.cast_one, one_mul]; exact hc) hv
  rw [pickResult_between]
  have htop : ((1 : ℕ) : ℝ) * 2 ^ ((f.bias : ℤ) + 1) = codeVal f f.infBits := by
    rw [codeVal_infBits hf, Nat.cast_one, one_mul]
    exact_mod_cast rfl
  have hdn := encCode_rz (f := f) hml el
  by_cases hlt : cmpNum (.fin false ml el) (.fin false 1 (f.bias + 1)) = some .lt
  · rw [if_neg (not_not.mpr hlt)]
    rw [cmpNum_pos, htop] at hlt
    have hdn' : encCode f .rz false ml el < f.infBits := codeVal_strictMono.lt_iff_lt.mp (hdn.1.trans_lt hlt)
    rw [enc_rz hml el hdn', enc_ru hmh]
    obtain ⟨c, hc, hn⟩ := pickCode_near hf (ch := ch) h hdn'
    rw [hc]
    exact near hn
  · rw [if_pos hlt]
    rw [cmpNum_pos, htop, not_lt] at hlt
    have : f.infBits < encCode f .rz false ml el + 1 := codeVal_strictMono.lt_iff_lt.mp (hlt.trans_lt hdn.2)
    have e := near h.next
    rwa [min_eq_right (by omega)] at e

end Sys2Proof.Laws
end

section
/-! ## Accuracy of SQRT, RCP and RSQ (O12) -/

namespace Sys2Proof.Laws
open Sys2Proof Sys2Proof.Machine

variable {f : FFmt}

/-! ### The integer square root -/

theorem isqrtGo_spec {n : ℕ} (i : ℕ) : ∀ r, r * r ≤ n → n < (r + 2 ^ (i + 1)) * (r + 2 ^ (i + 1)) →
    isqrtGo n i r * isqrtGo n i r ≤ n ∧ n < (isqrtGo n i r + 1) * (isqrtGo n i r + 1) := by
  induction i with
  | zero =>
    intro r hlo hhi
    rw [isqrtGo]
    split
    · next h => exact ⟨h, hhi⟩
    · next h => exact ⟨hlo, by omega⟩
  | succ i ih =>
    intro r hlo hhi
    simp only [isqrtGo]
    split
    · next h => exact ih _ h (by rwa [add_assoc, ← two_mul, ← pow_succ'])
    · next h => exact ih _ hlo (by omega)

theorem isqrt_spec (n : ℕ) : isqrt n * isqrt n ≤ n ∧ n < (isqrt n + 1) * (isqrt n + 1) := by
  refine isqrtGo_spec _ 0 n.zero_le ?_
  rw [Nat.zero_add, ← pow_add]
  exact Nat.lt_log2_self.trans_le (Nat.pow_le_pow_right two_pos (by omega))

theorem isqrt_le_sqrt {n : ℕ} {x : ℝ} (h : (n : ℝ) ≤ x) : (isqrt n : ℝ) ≤ √x := by
  refine Real.le_sqrt_of_sq_le (le_trans ?_ h)
  rw [sq]
  exact_mod_cast (isqrt_spec n).1

theorem sqrt_lt_isqrt {n : ℕ} {x : ℝ} (h : x < n + 1) : √x < isqrt n + 1 := by
  refine (Real.sqrt_lt' (by positivity)).mpr (h.trans_le ?_)
  rw [sq]
  exact_mod_cast (isqrt_spec n).2

theorem pow_le_isqrt {n k : ℕ} (h : 2 ^ (2 * k) ≤ n) : 2 ^ k ≤ isqrt n := by
  by_contra hlt
  have h1 := Nat.mul_le_mul (show isqrt n + 1 ≤ 2 ^ k by omega) (show isqrt n + 1 ≤ 2 ^ k by omega)
  rw [← pow_add, ← two_mul] at h1
  have := (isqrt_spec n).2
  omega

theorem sqrt_mul_zpow {x : ℝ} (hx : 0 ≤ x) (e : ℤ) : √(x * 2 ^ (2 * e)) = √x * 2 ^ e := by
  rw [Real.sqrt_mul hx, two_mul, zpow_add₀ two_ne_zero, Real.sqrt_mul_self (zpow_pos two_pos _).le]

/-! ### Enclosures of one unit, and sticky bits -/

/-- An enclosure between r and r + 1 units, with r beyond the precision of the format. -/
theorem near_between_succ (hf : IsWide f) {ch : ℕ → Bool} {neg : Bool} {r : ℕ} {E : ℤ} {v : ℝ} (hr : 2 ^ (f.fb + 1) ≤ r)
    (hlo : (r : ℝ) * 2 ^ E ≤ |v|) (hhi : |v| ≤ (r + 1) * 2 ^ E) (hv : v = (if neg then -1 else 1) * |v|) :
    f.near 1 v (pickResult f false ch (.between neg (.fin false r E) (.fin false (r + 1) E))) := by
  have hp : (0 : ℝ) < 2 ^ E := zpow_pos two_pos _
  have hr' : (2 : ℝ) ^ (f.fb + 1) ≤ r := by exact_mod_cast hr
  refine near_between hf ?_ hlo (by exact_mod_cast hhi) ?_ hv
  · have := Nat.two_pow_pos (f.fb + 1)
    omega
  · rw [le_div_iff₀ (by positivity)]
    push_cast
    nlinarith

theorem log2_two_mul_add_one {r : ℕ} (hr : r ≠ 0) : Nat.log2 (2 * r + 1) = Nat.log2 r + 1 := by
  rw [Nat.log2_eq_iff (Nat.succ_ne_zero _)]
  have h1 := Nat.log2_self_le hr
  have h2 := Nat.lt_log2_self (n := r)
  rw [pow_succ] at h2
  rw [pow_succ, pow_succ, pow_succ]
  omega

/-- The halves of a unit that rounding decides by are whole multiples of 2^E, so that a sticky bit below 2^E stands for every number
strictly between r and r + 1 of them. -/
theorem near_sticky (hf : IsWide f) {r : ℕ} {E : ℤ} {v : ℝ} (hr : 2 ^ (f.fb + 1) ≤ r) (hlo : (r : ℝ) * 2 ^ E < v)
    (hhi : v < (r + 1) * 2 ^ E) : f.near (1 / 2) v (f.enc .rn (.fin false (2 * r + 1) (E - 1))) := by
  have hr0 : r ≠ 0 := by
    have := Nat.two_pow_pos (f.fb + 1)
    omega
  have hpos : 0 < v := (mant_pos hr0 E).trans hlo
  have hlog := log2_two_mul_add_one hr0
  have hexp : encExp f (2 * r + 1) (E - 1) = encExp f r E := by
    rw [encExp, encExp, hlog]
    congr 2
    push_cast
    ring
  have hgt : E + 1 ≤ encExp f r E := by
    have : f.fb + 1 ≤ Nat.log2 r := (Nat.le_log2 hr0).mpr hr
    refine le_trans ?_ (le_max_left _ _)
    omega
  have hulp : (2 : ℝ) ^ encExp f r E ≤ ulp f v := by
    rw [← ulp_of_mant hr0]
    exact ulp_mono (by rw [abs_of_pos (mant_pos hr0 E)]; exact mant_pos hr0 E)
      (by rw [abs_of_pos (mant_pos hr0 E), abs_of_pos hpos]; exact hlo.le)
  rw [enc_rn _ (Nat.succ_ne_zero _)]
  refine near_of_code (infBits_ge hf) (by norm_num) hpos.ne' ?_ (by rw [abs_of_pos hpos]; simp)
  obtain ⟨t, hc, ht⟩ := encCode_rn_units (f := f) false (Nat.succ_ne_zero (2 * r)) (E - 1)
  rw [hexp] at hc ht
  obtain ⟨j, hj⟩ := Int.le.dest hgt
  have hE : (0 : ℝ) < 2 ^ E := zpow_pos two_pos _
  have hq : (2 : ℝ) ^ encExp f r E = 2 * 2 ^ j * 2 ^ E := by
    rw [← hj, zpow_add₀ two_ne_zero, zpow_add_one₀ two_ne_zero, zpow_natCast]
    ring
  -- In units of 2^E the distance to r + 1/2 is at most the half 2^j of a unit of the format.
  have hdist : |(t : ℝ) * (2 * 2 ^ j) - (r + 1 / 2)| ≤ 2 ^ j := by
    have e1 : ((2 * r + 1 : ℕ) : ℝ) * 2 ^ (E - 1 - encExp f r E) = (r + 1 / 2) / (2 * 2 ^ j) := by
      rw [sub_sub, add_comm (1 : ℤ), ← sub_sub, zpow_sub₀ two_ne_zero, zpow_sub₀ two_ne_zero, hq, zpow_one]
      push_cast
      field_simp
    have hj0 : (0 : ℝ) < 2 * 2 ^ j := by positivity
    rw [Nat.succ_eq_add_one, e1] at ht
    have := mul_le_mul_of_nonneg_right ht hj0.le
    rw [← abs_of_pos hj0, ← abs_mul, abs_of_pos hj0, sub_mul, div_mul_cancel₀ _ hj0.ne'] at this
    linarith
  obtain ⟨hd1, hd2⟩ := abs_le.mp hdist
  have h1 : 2 * t * 2 ^ j ≤ r + 2 ^ j := by
    have : ((2 * t * 2 ^ j : ℕ) : ℝ) < (r + 2 ^ j + 1 : ℕ) := by push_cast; linarith
    have := Nat.cast_lt.mp this
    omega
  have h2 : r + 1 ≤ 2 * t * 2 ^ j + 2 ^ j := by
    have : ((r : ℕ) : ℝ) < (2 * t * 2 ^ j + 2 ^ j : ℕ) := by push_cast; linarith
    have := Nat.cast_lt.mp this
    omega
  have h1' : 2 * (t : ℝ) * 2 ^ j ≤ r + 2 ^ j := by exact_mod_cast h1
  have h2' : (r : ℝ) + 1 ≤ 2 * t * 2 ^ j + 2 ^ j := by exact_mod_cast h2
  rw [hc, abs_of_pos hpos]
  refine le_trans ?_ (mul_le_mul_of_nonneg_left hulp (by norm_num))
  rw [hq, abs_le]
  push_cast
  constructor <;> nlinarith

/-! ### The three functions -/

theorem fb_lt (hf : IsWide f) : f.fb + 1 ≤ 53 := by rcases hf with rfl | rfl <;> decide

theorem two_pow_le_of_fb (hf : IsWide f) {r j : ℕ} (hj : 53 ≤ j) (h : 2 ^ j ≤ r) : 2 ^ (f.fb + 1) ≤ r :=
  (Nat.pow_le_pow_right two_pos ((fb_lt hf).trans hj)).trans h

theorem near_half_le {v : ℝ} {y : ℕ} (h : f.near (1 / 2) v y) : f.near 1 v y := near_mono (by norm_num) h

/-- SQRT (R115): the root to more bits than the format has, with a sticky bit where it is not exact. -/
theorem near_sqrt (hf : IsWide f) (k : ℕ) {m : ℕ} (hm : m ≠ 0) (e : ℤ) :
    f.near (1 / 2) (√((m : ℝ) * 2 ^ e)) (tfnEval .sqrt f k (.fin false m e)) := by
  have heval : tfnEval .sqrt f k (.fin false m e) = f.enc .rn (sqrtNum (.fin false m e)) := rfl
  rw [heval, sqrtNum, if_neg hm, if_neg nofun]
  simp only []
  generalize hk0 : 142 - Nat.log2 m = k0
  generalize hk : (if (e - (k0 : ℤ)) % 2 = 0 then k0 else k0 + 1) = k
  obtain ⟨g, hg⟩ : ∃ g : ℤ, e - k = 2 * g := by
    refine ⟨(e - k) / 2, ?_⟩
    rw [← hk]
    split <;> omega
  have hbig : 2 ^ (2 * 71) ≤ m * 2 ^ k := by
    have h1 : 2 ^ Nat.log2 m * 2 ^ k ≤ m * 2 ^ k := Nat.mul_le_mul_right _ (Nat.log2_self_le hm)
    rw [← pow_add] at h1
    refine (Nat.pow_le_pow_right two_pos ?_).trans h1
    have : k0 ≤ k := by rw [← hk]; split <;> omega
    omega
  have hroot : √((m : ℝ) * 2 ^ e) = √((m * 2 ^ k : ℕ) : ℝ) * 2 ^ g := by
    rw [← sqrt_mul_zpow (Nat.cast_nonneg _), ← hg, Nat.cast_mul, Nat.cast_pow, Nat.cast_two, mul_assoc, ← zpow_natCast,
      ← zpow_add₀ two_ne_zero, add_sub_cancel]
  rw [hroot, hg, Int.mul_ediv_cancel_left _ two_ne_zero]
  generalize m * 2 ^ k = n at hbig
  have hr := pow_le_isqrt hbig
  have hlo := isqrt_le_sqrt (le_refl (n : ℝ))
  have hhi := sqrt_lt_isqrt (lt_add_one (n : ℝ))
  have hp : (0 : ℝ) < 2 ^ g := zpow_pos two_pos _
  generalize isqrt n = r at hr hlo hhi ⊢
  by_cases hx : r * r = n
  · rw [if_pos hx, Nat.add_zero]
    refine near_exact hf (by omega) ?_
    rw [realOf_pos, ← hx, Nat.cast_mul, Real.sqrt_mul_self (Nat.cast_nonneg _), zpow_sub_one₀ two_ne_zero]
    push_cast
    ring
  · rw [if_neg hx]
    have hne : (r : ℝ) ≠ √n := by
      intro e
      have := Real.mul_self_sqrt (Nat.cast_nonneg (α := ℝ) n)
      rw [← e] at this
      exact hx (by exact_mod_cast this)
    exact near_sticky hf (two_pow_le_of_fb hf (by decide) hr) (mul_lt_mul_of_pos_right (lt_of_le_of_ne hlo hne) hp)
      (mul_lt_mul_of_pos_right hhi hp)

theorem one_div_realOf (neg : Bool) {m : ℕ} (hm : m ≠ 0) (e : ℤ) :
    1 / realOf (.fin neg m e) = (if neg then -1 else 1) * |1 / realOf (.fin neg m e)| := by
  have hp := mant_pos hm e
  rw [realOf_fin, abs_div, abs_mul, abs_of_pos hp]
  cases neg
  · simp
  · simp only [if_true, neg_mul, one_mul, abs_neg, abs_one]
    rw [div_neg]

/-- RCP (R115). -/
theorem near_rcp (hf : IsWide f) (k : ℕ) (neg : Bool) {m : ℕ} (hm : m ≠ 0) (e : ℤ) :
    f.near 1 (1 / realOf (.fin neg m e)) (tfnEval .rcp f k (.fin neg m e)) := by
  have heval : tfnEval .rcp f k (.fin neg m e) =
      pickResult f false (fun i => Config.ulpChoice (tfnNum .rcp * 16 + k) (wd (f.enc .rn (.fin neg m e))) i) (rcpEncl neg m e) := by
    simp only [tfnEval, tfnEncl, if_neg hm]
    rfl
  rw [heval, rcpEncl]
  generalize hK : 150 + Nat.log2 m = K
  have hmr : (0 : ℝ) < m := by exact_mod_cast Nat.pos_of_ne_zero hm
  have hv := one_div_realOf neg hm e
  have hmag : |1 / realOf (.fin neg m e)| = 2 ^ K / m * 2 ^ (-(K : ℤ) - e) := by
    have hK0 : (2 : ℝ) ^ K * 2 ^ (-(K : ℤ) - e) = 2 ^ (-e) := by
      rw [← zpow_natCast, ← zpow_add₀ two_ne_zero]
      congr 1
      ring
    rw [realOf_fin, abs_div, abs_mul, abs_of_pos (mant_pos hm e), div_mul_eq_mul_div, hK0, zpow_neg]
    cases neg <;> simp <;> ring
  have hq : 2 ^ 149 ≤ 2 ^ K / m := by
    rw [Nat.le_div_iff_mul_le (Nat.pos_of_ne_zero hm), ← hK]
    calc 2 ^ 149 * m ≤ 2 ^ 149 * 2 ^ (Nat.log2 m + 1) := Nat.mul_le_mul_left _ Nat.lt_log2_self.le
      _ = 2 ^ (150 + Nat.log2 m) := by rw [← pow_add]; congr 1; omega
  have hlo : ((2 ^ K / m : ℕ) : ℝ) ≤ 2 ^ K / m := by
    have := Nat.cast_div_le (α := ℝ) (m := 2 ^ K) (n := m)
    simpa using this
  have hhi : (2 : ℝ) ^ K / m < (2 ^ K / m : ℕ) + 1 := by
    rw [div_lt_iff₀ hmr]
    exact_mod_cast Nat.lt_mul_of_div_lt (Nat.lt_succ_self (2 ^ K / m)) (Nat.pos_of_ne_zero hm)
  have hp : (0 : ℝ) < 2 ^ (-(K : ℤ) - e) := zpow_pos two_pos _
  split
  · next hx =>
    refine near_half_le (near_exact hf (by omega) ?_)
    have hx' : ((2 ^ K / m : ℕ) : ℝ) * m = 2 ^ K := by exact_mod_cast hx
    rw [hv, hmag, realOf_fin, ← hx', mul_div_cancel_right₀ _ hmr.ne']
  · refine near_between_succ hf (two_pow_le_of_fb hf (by decide) hq) ?_ ?_ hv
    · rw [hmag]
      exact mul_le_mul_of_nonneg_right hlo hp.le
    · rw [hmag]
      exact mul_le_mul_of_nonneg_right hhi.le hp.le

/-- The value of an operand of RSQ, with an even exponent. -/
theorem even_exponent (m : ℕ) (e : ℤ) : ∃ g : ℤ,
    (if e % 2 = 0 then e else e - 1) = 2 * g ∧ (m : ℝ) * 2 ^ e = (if e % 2 = 0 then m else 2 * m : ℕ) * 2 ^ (2 * g) := by
  refine ⟨(if e % 2 = 0 then e else e - 1) / 2, ?_, ?_⟩
  · split <;> omega
  · split
    · next h => rw [Int.mul_ediv_cancel' (Int.dvd_of_emod_eq_zero h)]
    · next h =>
      rw [Int.mul_ediv_cancel' (Int.dvd_of_emod_eq_zero (by omega)), zpow_sub_one₀ two_ne_zero]
      push_cast
      ring

/-- RSQ (R115). -/
theorem near_rsq (hf : IsWide f) (k : ℕ) {m : ℕ} (hm : m ≠ 0) (e : ℤ) :
    f.near 1 (1 / √((m : ℝ) * 2 ^ e)) (tfnEval .rsq f k (.fin false m e)) := by
  have heval : tfnEval .rsq f k (.fin false m e) =
      pickResult f false (fun i => Config.ulpChoice (tfnNum .rsq * 16 + k) (wd (f.enc .rn (.fin false m e))) i) (rsqEncl m e) := by
    simp only [tfnEval, tfnEncl, if_neg hm, if_neg Bool.false_ne_true]
    rfl
  obtain ⟨g, hg, hval⟩ := even_exponent m e
  rw [heval, rsqEncl, hval]
  simp only [hg, Int.mul_ediv_cancel_left g two_ne_zero]
  have hm' : (if e % 2 = 0 then m else 2 * m) ≠ 0 := by split <;> omega
  generalize (if e % 2 = 0 then m else 2 * m) = m' at hm'
  generalize hK : 150 + Nat.log2 m' / 2 = K
  have hmr : (0 : ℝ) < m' := by exact_mod_cast Nat.pos_of_ne_zero hm'
  have hp : (0 : ℝ) < 2 ^ (-(K : ℤ) - g) := zpow_pos two_pos _
  have hroot : 1 / √((m' : ℝ) * 2 ^ (2 * g)) = √(2 ^ (2 * K) / m') * 2 ^ (-(K : ℤ) - g) := by
    rw [sqrt_mul_zpow hmr.le, Real.sqrt_div (by positivity), mul_comm 2 K, pow_mul, Real.sqrt_sq (by positivity), zpow_sub₀ two_ne_zero,
      zpow_neg, zpow_natCast]
    field_simp
  have hpos : 0 < 1 / √((m' : ℝ) * 2 ^ (2 * g)) := by positivity
  have hn : 2 ^ (2 * 149) ≤ 2 ^ (2 * K) / m' := by
    rw [Nat.le_div_iff_mul_le (Nat.pos_of_ne_zero hm')]
    calc 2 ^ (2 * 149) * m' ≤ 2 ^ (2 * 149) * 2 ^ (Nat.log2 m' + 1) := Nat.mul_le_mul_left _ Nat.lt_log2_self.le
      _ ≤ 2 ^ (2 * K) := by rw [← pow_add]; exact Nat.pow_le_pow_right two_pos (by omega)
  have hlo : ((2 ^ (2 * K) / m' : ℕ) : ℝ) ≤ 2 ^ (2 * K) / m' := by
    have := Nat.cast_div_le (α := ℝ) (m := 2 ^ (2 * K)) (n := m')
    simpa using this
  have hhi : (2 : ℝ) ^ (2 * K) / m' < (2 ^ (2 * K) / m' : ℕ) + 1 := by
    rw [div_lt_iff₀ hmr]
    exact_mod_cast Nat.lt_mul_of_div_lt (Nat.lt_succ_self (2 ^ (2 * K) / m')) (Nat.pos_of_ne_zero hm')
  have hr := pow_le_isqrt hn
  have hlo' := isqrt_le_sqrt hlo
  have hhi' := sqrt_lt_isqrt hhi
  rw [hroot] at hpos ⊢
  generalize isqrt (2 ^ (2 * K) / m') = r at *
  split
  · next hx =>
    refine near_half_le (near_exact hf (by omega) ?_)
    have hx' : (2 : ℝ) ^ (2 * K) / m' = r * r := by
      rw [div_eq_iff hmr.ne']
      exact_mod_cast hx.symm
    rw [realOf_pos, hx', Real.sqrt_mul_self (Nat.cast_nonneg _)]
  · refine near_between_succ hf (two_pow_le_of_fb hf (by decide) hr) ?_ ?_ ?_
    · rw [abs_of_pos hpos]
      exact mul_le_mul_of_nonneg_right hlo' hp.le
    · rw [abs_of_pos hpos]
      exact mul_le_mul_of_nonneg_right hhi'.le hp.le
    · rw [abs_of_pos hpos]
      simp

/-- Settles O12: an integer quotient or root to more bits than the format has encloses the real one. -/
theorem algebraicFunctionsAreAccurate : Obligations.AlgebraicFunctionsAreAccurate := by
  intro f k b neg m e hf _ _ hm
  have hx : (((Num.fin neg m e).rat : ℚ) : ℝ) = realOf (.fin neg m e) := rfl
  simp only [hx]
  refine ⟨?_, near_rcp hf k neg hm e, ?_⟩
  · rintro rfl
    rw [realOf_pos]
    exact near_sqrt hf k hm e
  · rintro rfl
    rw [realOf_pos]
    exact near_rsq hf k hm e

end Sys2Proof.Laws
end

section
/-! ## The transcendental functions' values (O6) -/

namespace Sys2Proof.Laws
open Sys2Proof Sys2Proof.Machine

variable {f : FFmt}

/-! ### The instruction in one lane (R114) -/

theorem transc_int {g : TFn} {a : Val} (ha : a.tag = .int) : transc g a = .val ⟨.f64, wd (tfnEval g fF64 1 (widen a .f64))⟩ := by
  rw [transc, orPoison_one (not_poison_of_eq ha nofun), ha]

theorem transc_f64 {g : TFn} {a : Val} (ha : a.tag = .f64) :
    transc g a = .val ⟨.f64, wd (tfnEval g fF64 2 ((valNum a).getD .nan))⟩ := by
  rw [transc, orPoison_one (not_poison_of_eq ha nofun), ha]

theorem transc_f32 {g : TFn} {a : Val} (ha : a.tag = .f32) :
    transc g a = .val ⟨.f32, wd (tfnEval g fF32 3 ((valNum a).getD .nan))⟩ := by
  rw [transc, orPoison_one (not_poison_of_eq ha nofun), ha]

theorem transc_f16 {g : TFn} {a : Val} (ha : a.tag = .f16) :
    transc g a = .val (fVal .f16 .rn (fF32.dec (tfnEval g fF32 4 ((valNum a).getD .nan)))) := by
  rw [transc, orPoison_one (not_poison_of_eq ha nofun), ha]

theorem transc_bf16 {g : TFn} {a : Val} (ha : a.tag = .bf16) :
    transc g a = .val (fVal .bf16 .rn (fF32.dec (tfnEval g fF32 5 ((valNum a).getD .nan)))) := by
  rw [transc, orPoison_one (not_poison_of_eq ha nofun), ha]

/-! ### Exact results (R115) -/

/-- An exact value is rounded once, whatever the free choice. -/
theorem tfnEval_exact {g : TFn} {k : ℕ} {x y : Machine.Num} (h : tfnEncl g f x = .exact y) : tfnEval g f k x = f.enc .rn y := by
  rw [tfnEval, h, pickResult]

theorem tfnEncl_nonzero {neg : Bool} {m : ℕ} (hm : m ≠ 0) (e : ℤ) :
    tfnEncl .rcp f (.fin neg m e) = rcpEncl neg m e ∧ tfnEncl .exp2 f (.fin neg m e) = exp2Encl f neg m e ∧
    tfnEncl .sin f (.fin neg m e) = trigEncl false neg m e ∧ tfnEncl .cos f (.fin neg m e) = trigEncl true neg m e ∧
    tfnEncl .tanh f (.fin neg m e) = tanhEncl neg m e :=
  ⟨if_neg hm, if_neg hm, if_neg hm, if_neg hm, if_neg hm⟩

theorem tfnEncl_positive {m : ℕ} (hm : m ≠ 0) (e : ℤ) :
    tfnEncl .rsq f (.fin false m e) = rsqEncl m e ∧ tfnEncl .log2 f (.fin false m e) = log2Encl m e :=
  ⟨if_neg hm, if_neg hm⟩

/-- Roots and logarithms of negative numbers. -/
theorem tfnEncl_negative {m : ℕ} (hm : m ≠ 0) (e : ℤ) :
    tfnEncl .sqrt f (.fin true m e) = .exact .nan ∧ tfnEncl .rsq f (.fin true m e) = .exact .nan ∧
    tfnEncl .log2 f (.fin true m e) = .exact .nan :=
  ⟨congrArg Encl.exact (if_neg hm), if_neg hm, if_neg hm⟩

theorem isqrt_mul_self (n : ℕ) : isqrt (n * n) = n := by
  obtain ⟨h1, h2⟩ := isqrt_spec (n * n)
  have := Nat.mul_self_le_mul_self_iff.mp h1
  have := Nat.mul_self_lt_mul_self_iff.mp h2
  omega

/-- The root of a square is exact. -/
theorem enc_sqrtNum_square {m : ℕ} (hm : m ≠ 0) (e : ℤ) :
    f.enc .rn (sqrtNum (.fin false (m * m) (2 * e))) = f.enc .rn (.fin false m e) := by
  rw [sqrtNum, if_neg (by simp [hm]), if_neg nofun]
  simp only []
  generalize 142 - Nat.log2 (m * m) = k0
  obtain ⟨j, hk⟩ : ∃ j : ℕ, (if (2 * e - (k0 : ℤ)) % 2 = 0 then k0 else k0 + 1) = 2 * j := by
    refine ⟨(if (2 * e - (k0 : ℤ)) % 2 = 0 then k0 else k0 + 1) / 2, ?_⟩
    split <;> omega
  have hsq : m * m * 2 ^ (2 * j) = m * 2 ^ j * (m * 2 ^ j) := by rw [two_mul, pow_add]; ring
  rw [hk, hsq, isqrt_mul_self, if_pos rfl, Nat.add_zero]
  refine enc_eq_of_value .rn false ?_
  have he : (2 * e - ((2 * j : ℕ) : ℤ)) / 2 - 1 = e - j - 1 := by omega
  rw [he, zpow_sub_one₀ two_ne_zero, zpow_sub₀ two_ne_zero, zpow_natCast]
  push_cast
  field_simp

/-- The reciprocal of a power of two is exact. -/
theorem rcpEncl_pow (neg : Bool) (j : ℕ) (e : ℤ) : rcpEncl neg (2 ^ j) e = .exact (.fin neg (2 ^ 150) (-((150 + j : ℕ) : ℤ) - e)) := by
  have hdiv : 2 ^ (150 + j) / 2 ^ j = 2 ^ 150 := by rw [pow_add, Nat.mul_div_cancel _ (Nat.two_pow_pos j)]
  rw [rcpEncl]
  simp only [Nat.log2_two_pow, hdiv]
  rw [if_pos (pow_add ..).symm]

theorem log2Encl_pow (j : ℕ) (e : ℤ) : log2Encl (2 ^ j) e = .exact (numOfInt ((j : ℤ) + e)) := by
  rw [log2Encl]
  simp only [Nat.log2_two_pow, if_true]

/-- The reciprocal root of an even power of two is exact. -/
theorem enc_rsq_pow {j : ℕ} {e : ℤ} (hje : ((j : ℤ) + e) % 2 = 0) :
    ∃ y, rsqEncl (2 ^ j) e = .exact y ∧ f.enc .rn y = f.enc .rn (.fin false 1 (-(((j : ℤ) + e) / 2))) := by
  obtain ⟨i, g, hm, he, hsum⟩ : ∃ (i : ℕ) (g : ℤ), (if e % 2 = 0 then 2 ^ j else 2 * 2 ^ j) = 2 ^ (2 * i) ∧
      (if e % 2 = 0 then e else e - 1) = 2 * g ∧ ((j : ℤ) + e) / 2 = i + g := by
    by_cases h : e % 2 = 0
    · refine ⟨j / 2, e / 2, ?_, ?_, ?_⟩
      · rw [if_pos h, show 2 * (j / 2) = j by omega]
      · rw [if_pos h]; omega
      · omega
    · refine ⟨(j + 1) / 2, (e - 1) / 2, ?_, ?_, ?_⟩
      · rw [if_neg h, ← pow_succ', show 2 * ((j + 1) / 2) = j + 1 by omega]
      · rw [if_neg h]; omega
      · omega
  have hdiv : 2 ^ (2 * (150 + i)) / 2 ^ (2 * i) = 2 ^ 150 * 2 ^ 150 := by
    rw [Nat.pow_div (by omega) two_pos, ← pow_add]
    congr 1
    omega
  refine ⟨.fin false (2 ^ 150) (-((150 + i : ℕ) : ℤ) - g), ?_, ?_⟩
  · rw [rsqEncl]
    simp only [hm, he, Nat.log2_two_pow, Nat.mul_div_cancel_left i two_pos, Int.mul_ediv_cancel_left g two_ne_zero, hdiv, isqrt_mul_self]
    rw [if_pos]
    rw [← pow_add, ← pow_add]
    congr 1
    omega
  · refine enc_eq_of_value .rn false ?_
    rw [hsum, Nat.cast_one, one_mul, Nat.cast_pow, Nat.cast_two, ← zpow_natCast, ← zpow_add₀ two_ne_zero]
    congr 1
    push_cast
    ring

/-! ### EXP2 of integers (R115) -/

/-- A magnitude from a power of two on. -/
theorem atLeast_of_value {m : ℕ} (hm : m ≠ 0) {e k : ℤ} : atLeast m e k = true ↔ (2 : ℝ) ^ k ≤ m * 2 ^ e := by
  have h := Int.zpow_le_iff_le_log (b := 2) (x := k) one_lt_two (mant_pos hm e)
  rw [Nat.cast_two] at h
  rw [atLeast, decide_eq_true_iff, ← log_of_mant hm, h]

/-- An operand that is an integer, as the model finds it. -/
theorem integer_operand {m n : ℕ} {e : ℤ} (h : m * 2 ^ e.toNat = n * 2 ^ (-e).toNat) :
    (e ≥ 0 ∨ m % 2 ^ (-e).toNat = 0) ∧ m * 2 ^ e.toNat / 2 ^ (-e).toNat = n ∧ (m : ℝ) * 2 ^ e = n := by
  refine ⟨?_, by rw [h, Nat.mul_div_cancel _ (Nat.two_pow_pos _)], ?_⟩
  · rcases le_or_gt 0 e with he | he
    · exact .inl he
    · rw [Int.toNat_of_nonpos he.le, pow_zero, mul_one] at h
      exact .inr (by rw [h, Nat.mul_mod_left])
  · have hr : (m : ℝ) * 2 ^ e.toNat = n * 2 ^ (-e).toNat := by exact_mod_cast h
    rcases le_or_gt 0 e with he | he
    · obtain ⟨k, rfl⟩ := Int.eq_ofNat_of_zero_le he
      simpa using hr
    · obtain ⟨k, hk⟩ := Int.eq_ofNat_of_zero_le (Int.neg_nonneg.mpr he.le)
      obtain rfl : e = -(k : ℤ) := by omega
      rw [zpow_neg, zpow_natCast, ← div_eq_mul_inv, div_eq_iff (by positivity)]
      simpa using hr

/-- EXP2 of an integer in the range of the exponents. -/
theorem exp2Encl_int {neg : Bool} {m n : ℕ} {e : ℤ} (hm : m ≠ 0) (h : m * 2 ^ e.toNat = n * 2 ^ (-e).toNat) (hn : n < 2 ^ 12)
    (hmin : f.emin ≤ (if neg then -1 else 1) * (n : ℤ)) :
    exp2Encl f neg m e = .exact (.fin false 1 ((if neg then -1 else 1) * (n : ℤ))) := by
  obtain ⟨hint, hdiv, hval⟩ := integer_operand h
  have hsmall : ¬atLeast m e 12 = true := by
    rw [atLeast_of_value hm, hval, not_le]
    exact_mod_cast hn
  simp only [exp2Encl, if_neg hsmall, if_pos hint, hdiv, if_neg (not_lt.mpr hmin)]

/-- From the first power of two that overflows on, EXP2 is the infinity. -/
theorem enc_pow_overflow (hf : IsWide f) {i : ℤ} (hi : (f.bias : ℤ) < i) : f.enc .rn (.fin false 1 i) = f.enc .rn (.inf false) := by
  have hexp : encExp f 1 i = i - f.fb := by
    rw [encExp, show Nat.log2 1 = 0 from rfl, max_eq_left]
    · omega
    · rcases hf with rfl | rfl <;> simp [fF64, fF32, FFmt.emin, FFmt.bias] at * <;> omega
  have hround : roundAt .rn false 1 i (i - f.fb) = 2 ^ f.fb := by
    rw [roundAt, if_pos (by omega), one_mul, sub_sub_cancel, Int.toNat_natCast]
  have hbands : 2 ^ f.eb - 1 ≤ (i - f.fb - f.emin).toNat + 1 := by
    rcases hf with rfl | rfl <;> simp [fF64, fF32, FFmt.emin, FFmt.bias] at * <;> omega
  have hbig : f.infBits ≤ encCode f .rn false 1 i := by
    rw [encCode, hexp, hround, ← Nat.succ_mul]
    exact Nat.mul_le_mul_right _ hbands
  rw [enc_rn _ one_ne_zero, min_eq_right hbig]
  exact Nat.add_comm ..

/-- EXP2 of integers (R115). -/
theorem exp2_integer (hf : IsWide f) (k : ℕ) {m : ℕ} {e i : ℤ} (hm : m ≠ 0)
    (h : (m : ℤ) * 2 ^ e.toNat = (i.natAbs : ℤ) * 2 ^ (-e).toNat) :
    (f.emin ≤ i → i ≤ (f.bias : ℤ) → tfnEval .exp2 f k (.fin (decide (i < 0)) m e) = f.enc .rn (.fin false 1 i)) ∧
    ((f.bias : ℤ) < i → tfnEval .exp2 f k (.fin false m e) = f.enc .rn (.inf false)) := by
  have hn : m * 2 ^ e.toNat = i.natAbs * 2 ^ (-e).toNat := by exact_mod_cast h
  have hbound : -(2 ^ 12 : ℤ) < f.emin ∧ (f.bias : ℤ) < 2 ^ 12 := by rcases hf with rfl | rfl <;> decide
  have hemin : f.emin ≤ 0 := by rcases hf with rfl | rfl <;> decide
  constructor
  · intro hlo hhi
    have hi : (if decide (i < 0) = true then -1 else 1) * (i.natAbs : ℤ) = i := by
      simp only [decide_eq_true_eq]
      split <;> omega
    refine tfnEval_exact (((tfnEncl_nonzero hm e).2.1.trans (exp2Encl_int hm hn (by omega) (by rw [hi]; exact hlo))).trans ?_)
    rw [hi]
  · intro hhi
    by_cases hbig : i.natAbs < 2 ^ 12
    · have hi : (if false = true then -1 else 1) * (i.natAbs : ℤ) = i := by
        rw [if_neg Bool.false_ne_true]
        omega
      rw [tfnEval_exact ((tfnEncl_nonzero hm e).2.1.trans (exp2Encl_int hm hn hbig (by rw [hi]; omega))), hi]
      exact enc_pow_overflow hf hhi
    · have hlarge : atLeast m e 12 = true := by
        rw [atLeast_of_value hm, (integer_operand hn).2.2]
        exact_mod_cast not_lt.mp hbig
      refine tfnEval_exact ((tfnEncl_nonzero hm e).2.1.trans ?_)
      rw [exp2Encl, if_pos hlarge]
      rfl

/-! ### The statement -/

/-- What each of the eight instructions gives by its operand's tag. -/
theorem transcendental_gives {mk : Hdr → OpUn → Instr} {g : TFn} (hexec : ∀ h o s, exec (mk h o) s = issued (mk h o) h s (transcOp g o))
    (h : Hdr) (o : OpUn) (s : State) :
    let a := opnd s o.a o.sa
    let x := fun l => (valNum (a l)).getD .nan
    (On (mk h o) h s (fun l => (a l).tag = .int) →
      Gives (mk h o) h s o.d (fun l => ⟨.f64, wd (tfnEval g fF64 1 (widen (a l) .f64))⟩)) ∧
    (On (mk h o) h s (fun l => (a l).tag = .f64) →
      Gives (mk h o) h s o.d (fun l => ⟨.f64, wd (tfnEval g fF64 2 (x l))⟩)) ∧
    (On (mk h o) h s (fun l => (a l).tag = .f32) →
      Gives (mk h o) h s o.d (fun l => ⟨.f32, wd (tfnEval g fF32 3 (x l))⟩)) ∧
    (On (mk h o) h s (fun l => (a l).tag = .f16) →
      Gives (mk h o) h s o.d (fun l => fVal .f16 .rn (fF32.dec (tfnEval g fF32 4 (x l))))) ∧
    (On (mk h o) h s (fun l => (a l).tag = .bf16) →
      Gives (mk h o) h s o.d (fun l => fVal .bf16 .rn (fF32.dec (tfnEval g fF32 5 (x l))))) := by
  have one {t : Tag} {out : Val → LOut} {r : ℕ → Val} (hout : ∀ v : Val, v.tag = t → transc g v = out v)
      (on : On (mk h o) h s (fun l => (opnd s o.a o.sa l).tag = t)) (hr : ∀ l, out (opnd s o.a o.sa l) = .val (r l)) :
      Gives (mk h o) h s o.d r :=
    gives_un (f := transc g) on.1 (hexec h o s) rfl fun l hl => (hout _ (on.2 l hl)).trans (hr l)
  exact ⟨fun on => one (fun _ => transc_int) on fun _ => rfl, fun on => one (fun _ => transc_f64) on fun _ => rfl,
    fun on => one (fun _ => transc_f32) on fun _ => rfl, fun on => one (fun _ => transc_f16) on fun _ => rfl,
    fun on => one (fun _ => transc_bf16) on fun _ => rfl⟩

/-- Settles O6: the special values and the integer cases are exact in the model, and an exact value is rounded once. -/
theorem transcendentalsGiveTheFunction : Obligations.TranscendentalsGiveTheFunction := by
  refine ⟨?instr, ?values⟩
  case instr =>
    intro p hp h o s
    simp only [List.mem_cons, List.not_mem_nil, or_false] at hp
    rcases hp with rfl | rfl | rfl | rfl | rfl | rfl | rfl | rfl <;> exact transcendental_gives (fun _ _ _ => rfl) h o s
  case values =>
    intro f k hf nan val
    refine ⟨fun g => ?nan, fun neg => ?zeros, tfnEval_exact rfl, tfnEval_exact rfl, tfnEval_exact rfl, tfnEval_exact rfl,
      tfnEval_exact rfl, tfnEval_exact rfl, tfnEval_exact rfl, tfnEval_exact rfl, fun m e hm => ?negative, fun m e hm => ?square,
      fun neg j e => ?power, fun m e i hm h => exp2_integer hf k hm h⟩
    case nan => cases g <;> exact tfnEval_exact rfl
    case zeros =>
      exact ⟨tfnEval_exact rfl, tfnEval_exact rfl, tfnEval_exact rfl, tfnEval_exact rfl, tfnEval_exact rfl, tfnEval_exact rfl,
        tfnEval_exact rfl, tfnEval_exact rfl, tfnEval_exact rfl, tfnEval_exact rfl, tfnEval_exact rfl, tfnEval_exact rfl⟩
    case negative =>
      obtain ⟨hsqrt, hrsq, hlog2⟩ := tfnEncl_negative (f := f) hm.ne' e
      exact ⟨tfnEval_exact hsqrt, tfnEval_exact hrsq, tfnEval_exact hlog2⟩
    case square => exact (tfnEval_exact rfl).trans (enc_sqrtNum_square hm.ne' e)
    case power =>
      have hj : 2 ^ j ≠ 0 := (Nat.two_pow_pos j).ne'
      refine ⟨?_, tfnEval_exact ((tfnEncl_positive hj e).2.trans (log2Encl_pow j e)), fun heven => ?_⟩
      · refine (tfnEval_exact ((tfnEncl_nonzero hj e).1.trans (rcpEncl_pow neg j e))).trans (enc_eq_of_value .rn neg ?_)
        rw [Nat.cast_one, one_mul, Nat.cast_pow, Nat.cast_two, ← zpow_natCast, ← zpow_add₀ two_ne_zero]
        congr 1
        push_cast
        ring
      · obtain ⟨y, hy, henc⟩ := enc_rsq_pow (f := f) heven
        exact (tfnEval_exact ((tfnEncl_positive hj e).1.trans hy)).trans henc

end Sys2Proof.Laws
end

section
/-! ## Results from fixed-point enclosures (R115)

The model encloses a value between two whole numbers of units of 2^-256, a slack of 2^64 units to each side. -/

namespace Sys2Proof.Laws
open Sys2Proof Sys2Proof.Machine

variable {f : FFmt}

/-! ### Operands -/

/-- A finite operand's mantissa and exponent. -/
theorem operand_bounds {b : ℕ} {neg : Bool} {m : ℕ} {e : ℤ} (hb : b < 2 * f.signBit) (hd : f.dec b = .fin neg m e) :
    m < 2 ^ (f.fb + 1) ∧ f.emin ≤ e ∧ e ≤ 2 ^ f.eb + f.emin := by
  obtain ⟨s, n, hn, rfl⟩ : ∃ (s : Bool) (n : ℕ), n < f.signBit ∧ b = (if s then f.signBit else 0) + n := by
    by_cases h : f.signBit ≤ b
    · exact ⟨true, b - f.signBit, by omega, by rw [if_pos rfl]; omega⟩
    · exact ⟨false, b, by omega, by rw [if_neg Bool.false_ne_true, Nat.zero_add]⟩
  have hmod := Nat.mod_lt n (Nat.two_pow_pos f.fb)
  have h2 := pow_succ 2 f.fb
  have hexp : n / 2 ^ f.fb < 2 ^ f.eb := by
    rw [Nat.div_lt_iff_lt_mul (Nat.two_pow_pos _), ← pow_add]
    exact hn
  have hexp' : ((n / 2 ^ f.fb : ℕ) : ℤ) < 2 ^ f.eb := by exact_mod_cast hexp
  rw [dec_parts s hn] at hd
  split at hd
  · split at hd <;> simp at hd
  · split at hd
    · injection hd with _ hm he
      omega
    · next h0 =>
      injection hd with _ hm he
      generalize n / 2 ^ f.fb = q at h0 he hexp'
      omega

/-- An operand's mantissa and exponent in numbers that hold for both formats. -/
theorem operand_small (hf : IsWide f) {b : ℕ} {neg : Bool} {m : ℕ} {e : ℤ} (hb : b < 2 * f.signBit) (hd : f.dec b = .fin neg m e) :
    m < 2 ^ 53 ∧ e ≤ 2048 := by
  obtain ⟨hm, -, he⟩ := operand_bounds hb hd
  have hfb := fb_lt hf
  have hmax : 2 ^ f.eb + f.emin ≤ 2048 := by rcases hf with rfl | rfl <;> decide
  exact ⟨hm.trans_le (Nat.pow_le_pow_right two_pos (by omega)), he.trans hmax⟩

/-- The choice among neighbours is some function of the choice's number. -/
theorem tfnEval_of_encl {g : TFn} {x : Machine.Num} {E : Encl} (k : ℕ) (h : tfnEncl g f x = E) :
    ∃ ch, tfnEval g f k x = pickResult f (decide (g = .tanh)) ch E := by
  subst h
  exact ⟨_, rfl⟩

/-! ### The wider choice of TANH -/

/-- With the wider choice too, the code lies within two units, and at most one above the upper neighbour. -/
theorem pickCode_wide {ch : ℕ → Bool} {dn up : ℕ} {V : ℝ} (h : Enclosed f dn up V) :
    pickCode f true ch dn up ≤ up + 1 ∧ |codeVal f (pickCode f true ch dn up) - V| ≤ 2 * ulp f V := by
  have hu := ulp_pos (f := f) V
  have hdn := h.below
  have hab := h.above
  have hle : dn ≤ up := codeVal_strictMono.le_iff_le.mp (hdn.trans hab)
  have hgap := codeGap_le_ulp (f := f) (n := dn) (v := V) (by rw [abs_of_pos h.pos]; exact hdn)
  unfold pickCode
  simp only [Bool.true_and]
  by_cases hmid : dn + 1 < up
  · rw [if_pos hmid]
    exact ⟨by omega, h.next.trans (by linarith)⟩
  · rw [if_neg hmid]
    have hup := h.up_near (by omega)
    have hV : V ≤ codeVal f (dn + 1) := hab.trans (codeVal_strictMono.monotone (by omega))
    have hdnear := h.dn_near hV
    split
    · split
      · next hc =>
        obtain ⟨-, hmod⟩ : up < f.infBits ∧ up % 2 ^ f.fb ≠ 0 := by
          simp only [Bool.and_eq_true, decide_eq_true_eq] at hc
          exact hc.2
        have hpos : up ≠ 0 := by rintro rfl; exact hmod (Nat.zero_mod _)
        have hband : codeBand f up = codeBand f (up - 1) := by
          obtain ⟨u, rfl⟩ := Nat.exists_eq_succ_of_ne_zero hpos
          rw [codeBand, codeBand, Nat.succ_sub_one, Nat.succ_div, if_neg (fun hd => hmod (Nat.mod_eq_zero_of_dvd hd)), Nat.add_zero]
        have hg : codeGap f up ≤ ulp f V := by
          rw [codeGap, hband]
          refine le_trans ?_ hgap
          exact codeGap_mono (by omega)
        rw [codeVal_succ]
        have := abs_le.mp hup
        exact ⟨le_rfl, abs_le.mpr ⟨by linarith [codeGap_pos (f := f) up], by linarith⟩⟩
      · exact ⟨by omega, hup.trans (by linarith)⟩
    · split
      · next hc =>
        obtain ⟨-, hpos⟩ : ch 1 = true ∧ 0 < dn := by simpa using hc
        obtain ⟨d, rfl⟩ := Nat.exists_eq_succ_of_ne_zero hpos.ne'
        have hd := codeVal_succ (f := f) d
        have hg := codeGap_mono (f := f) (Nat.le_succ d)
        rw [Nat.succ_eq_add_one, Nat.add_sub_cancel] at *
        have := abs_le.mp hdnear
        exact ⟨by omega, abs_le.mpr ⟨by linarith, by linarith [codeGap_pos (f := f) d]⟩⟩
      · exact ⟨by omega, hdnear.trans (by linarith)⟩

/-- The code of one. -/
theorem codeVal_one (hf : IsWide f) : codeVal f (f.bias * 2 ^ f.fb) = 1 := by
  obtain ⟨he, hq⟩ : f.bias * 2 ^ f.fb = (f.bias - 1) * 2 ^ f.fb + 2 ^ f.fb ∧ (f.fb : ℤ) + (((f.bias - 1 : ℕ) : ℤ) + f.emin) = 0 := by
    rcases hf with rfl | rfl <;> decide
  rw [he, codeVal_mk (.inl le_rfl) (Nat.pow_le_pow_right two_pos (Nat.le_succ _)), Nat.cast_pow, Nat.cast_two, ← zpow_natCast,
    ← zpow_add₀ two_ne_zero, hq, zpow_zero]

/-- A narrow enclosure of a magnitude of one at most gives a result within two units, with the wider choice. -/
theorem near_between_wide (hf : IsWide f) {ch : ℕ → Bool} {neg : Bool} {ml mh : ℕ} {el eh : ℤ} {v : ℝ} (hml : ml ≠ 0)
    (hlo : (ml : ℝ) * 2 ^ el ≤ |v|) (hhi : |v| ≤ mh * 2 ^ eh) (hone : (mh : ℝ) * 2 ^ eh ≤ 1)
    (hw : (mh : ℝ) * 2 ^ eh - ml * 2 ^ el ≤ ml * 2 ^ el / 2 ^ (f.fb + 1)) (hv : v = (if neg then -1 else 1) * |v|) :
    f.near 2 v (pickResult f true ch (.between neg (.fin false ml el) (.fin false mh eh))) := by
  have h := enclosed_of (f := f) hml hlo hhi hw
  have hmh : mh ≠ 0 := by
    rintro rfl
    have := mant_pos hml el
    rw [Nat.cast_zero, zero_mul] at hhi
    linarith
  have hcode : f.bias * 2 ^ f.fb + 2 ≤ f.infBits := by rcases hf with rfl | rfl <;> decide
  have hup : encCode f .ru false mh eh ≤ f.bias * 2 ^ f.fb := by
    by_contra hlt
    have := (encCode_ru (f := f) hmh eh).2 _ (not_le.mp hlt)
    rw [codeVal_one hf] at this
    linarith
  have hdn : encCode f .rz false ml el ≤ f.bias * 2 ^ f.fb := by
    refine (codeVal_strictMono (f := f)).le_iff_le.mp ?_
    rw [codeVal_one hf]
    linarith [h.below]
  have htop : ((1 : ℕ) : ℝ) * 2 ^ ((f.bias : ℤ) + 1) = 2 ^ (f.bias + 1) := by
    rw [Nat.cast_one, one_mul]
    exact_mod_cast rfl
  have hlt : cmpNum (.fin false ml el) (.fin false 1 (f.bias + 1)) = some .lt := by
    rw [cmpNum_pos, htop]
    refine lt_of_le_of_lt (by linarith) (one_lt_pow₀ one_lt_two (Nat.succ_ne_zero f.bias))
  rw [pickResult_between, if_neg (not_not.mpr hlt), enc_rz hml el (by omega), enc_ru hmh, min_eq_left (by omega)]
  obtain ⟨hle, hn⟩ := pickCode_wide (ch := ch) h
  refine near_of_finite ?_ hv (by omega)
  rw [← ulp_abs v, Rat.cast_ofNat]
  exact hn

/-! ### Units of 2^-256 -/

/-- The shape of a fixed-point enclosure: the slack to each side of t units, cut at c and at d units. -/
theorem slack_enclosure (hf : IsWide f) {t c d : ℕ} {W : ℝ} {E : ℤ} (ht : |W - t| ≤ 2 ^ 64) (hc : (c : ℝ) ≤ W) (hd : W ≤ d)
    (hW : 2 ^ 119 ≤ W) :
    max (t - fxSlack) c ≠ 0 ∧ ((max (t - fxSlack) c : ℕ) : ℝ) * 2 ^ E ≤ W * 2 ^ E ∧ W * 2 ^ E ≤ (min (t + fxSlack) d : ℕ) * 2 ^ E ∧
    ((min (t + fxSlack) d : ℕ) : ℝ) * 2 ^ E - (max (t - fxSlack) c : ℕ) * 2 ^ E ≤ (max (t - fxSlack) c : ℕ) * 2 ^ E / 2 ^ (f.fb + 1) := by
  obtain ⟨ha, hb⟩ := abs_le.mp ht
  have hp : (0 : ℝ) < 2 ^ E := zpow_pos two_pos _
  have hslack : (fxSlack : ℝ) = 2 ^ 64 := by rw [fxSlack, Nat.cast_pow, Nat.cast_two]
  have hle : fxSlack ≤ t := by
    rw [← Nat.cast_le (α := ℝ), hslack]
    linarith
  have hsub : ((t - fxSlack : ℕ) : ℝ) = t - 2 ^ 64 := by rw [Nat.cast_sub hle, hslack]
  have hlow : (t : ℝ) - 2 ^ 64 ≤ (max (t - fxSlack) c : ℕ) := by rw [← hsub]; exact_mod_cast le_max_left _ _
  have hhigh : ((min (t + fxSlack) d : ℕ) : ℝ) ≤ t + 2 ^ 64 := by rw [← hslack]; exact_mod_cast min_le_left _ _
  refine ⟨?_, ?_, ?_, ?_⟩
  · intro h0
    rw [h0, Nat.cast_zero] at hlow
    linarith
  · refine mul_le_mul_of_nonneg_right ?_ hp.le
    rw [Nat.cast_max, hsub]
    exact max_le (by linarith) hc
  · refine mul_le_mul_of_nonneg_right ?_ hp.le
    rw [Nat.cast_min, Nat.cast_add, hslack]
    exact le_min (by linarith) hd
  · rw [← sub_mul, mul_div_right_comm]
    refine mul_le_mul_of_nonneg_right ?_ hp.le
    have hfb : (2 : ℝ) ^ (f.fb + 1) ≤ 2 ^ 53 := pow_le_pow_right₀ one_le_two (by have := fb_lt hf; omega)
    rw [le_div_iff₀ (by positivity)]
    calc ((min (t + fxSlack) d : ℕ) - (max (t - fxSlack) c : ℕ) : ℝ) * 2 ^ (f.fb + 1) ≤ 2 ^ 65 * 2 ^ 53 := by
          refine mul_le_mul (by linarith) hfb (by positivity) (by positivity)
      _ ≤ (max (t - fxSlack) c : ℕ) := by linarith

/-- A fixed-point value within the slack of the true one gives a result within one unit. -/
theorem near_slack (hf : IsWide f) {ch : ℕ → Bool} {neg : Bool} {t c d : ℕ} {W v : ℝ} {E : ℤ} (ht : |W - t| ≤ 2 ^ 64) (hc : (c : ℝ) ≤ W)
    (hd : W ≤ d) (hW : 2 ^ 119 ≤ W) (hv : |v| = W * 2 ^ E) (hs : v = (if neg then -1 else 1) * |v|) :
    f.near 1 v (pickResult f false ch (.between neg (.fin false (max (t - fxSlack) c) E) (.fin false (min (t + fxSlack) d) E))) := by
  obtain ⟨h0, hlo, hhi, hw⟩ := slack_enclosure (E := E) hf ht hc hd hW
  exact near_between hf h0 (by rw [hv]; exact hlo) (by rw [hv]; exact hhi) hw hs

/-- The model's enclosure around t units. -/
theorem near_eq_max (neg : Bool) (t d : ℕ) (e : ℤ) :
    near neg t d e = .between neg (.fin false (max (t - fxSlack) 0) (e - 256)) (.fin false (min (t + fxSlack) d) (e - 256)) := by
  rw [near, Nat.max_zero]

end Sys2Proof.Laws
end

section
/-! ## The fixed-point series: powers of e and natural logarithms

Every whole quotient of a series loses less than one unit of 2^-256, and the factors are small enough to damp what earlier steps lost. -/

namespace Sys2Proof.Laws
open Sys2Proof Sys2Proof.Machine

/-- The number of units in one. -/
noncomputable def units : ℝ := 2 ^ 256

theorem fxOne_cast : (fxOne : ℝ) = units := by rw [units, fxOne, Nat.cast_pow, Nat.cast_two]

theorem units_pos : 0 < units := by rw [units]; positivity

theorem fxOne_pos : 0 < fxOne := Nat.two_pow_pos 256

/-- A whole quotient against the real one. -/
theorem floor_div (a : ℕ) {b : ℕ} (hb : 0 < b) : ((a / b : ℕ) : ℝ) ≤ a / b ∧ (a : ℝ) / b - 1 < (a / b : ℕ) := by
  refine ⟨Nat.cast_div_le, ?_⟩
  rw [sub_lt_iff_lt_add, div_lt_iff₀ (by exact_mod_cast hb)]
  exact_mod_cast Nat.lt_mul_of_div_lt (Nat.lt_succ_self (a / b)) hb

/-- The first term of a sum apart. -/
theorem sum_shift (F : ℕ → ℝ) (n i : ℕ) : ∑ j ∈ Finset.range (n + 1), F (i + j) = ∑ j ∈ Finset.range n, F (i + 1 + j) + F i := by
  rw [Finset.sum_range_succ']
  exact congrArg (· + F i) (Finset.sum_congr rfl fun j _ => congrArg F (by omega))

/-! ### The inverse hyperbolic tangent and the logarithm -/

/-- A term of the series of the inverse hyperbolic tangent. -/
noncomputable def atanhTerm (z : ℝ) (k : ℕ) : ℝ := z ^ (2 * k + 1) / (2 * k + 1)

/-- The next power in the series keeps within three units. -/
theorem atanh_power_step {z : ℝ} (h0 : 0 ≤ z) (h1 : z ≤ 1 / 3) {z2 : ℕ} (hz : (z2 : ℝ) ≤ z ^ 2 * units) (hz' : z ^ 2 * units - 2 ≤ z2)
    {i P : ℕ} (hP : (P : ℝ) ≤ z ^ (2 * i + 1) * units) (hP' : z ^ (2 * i + 1) * units - 3 ≤ P) :
    ((P * z2 / fxOne : ℕ) : ℝ) ≤ z ^ (2 * (i + 1) + 1) * units ∧ z ^ (2 * (i + 1) + 1) * units - 3 ≤ (P * z2 / fxOne : ℕ) := by
  obtain ⟨hlo, hhi⟩ := floor_div (P * z2) fxOne_pos
  rw [fxOne_cast] at hlo hhi
  have hU := units_pos
  have hpow : z ^ (2 * (i + 1) + 1) = z ^ (2 * i + 1) * z ^ 2 := by rw [← pow_add]; ring
  have hsq : z ^ 2 ≤ 1 / 9 := by nlinarith
  have hsq0 : 0 ≤ z ^ 2 := sq_nonneg z
  have hPz : (P : ℝ) ≤ 1 / 3 * units := by
    refine hP.trans (mul_le_mul_of_nonneg_right ?_ hU.le)
    exact (pow_le_of_le_one h0 (by linarith) (Nat.succ_ne_zero _)).trans h1
  have hP0 : (0 : ℝ) ≤ P := Nat.cast_nonneg P
  have hquot : ((P * z2 : ℕ) : ℝ) / units = P / units * z2 := by rw [Nat.cast_mul]; ring
  have hfrac : (P : ℝ) / units ≤ 1 / 3 := (div_le_iff₀ hU).mpr hPz
  have hfrac0 : 0 ≤ (P : ℝ) / units := by positivity
  have hback : (P : ℝ) / units * (z ^ 2 * units) = z ^ 2 * P := by field_simp
  rw [hquot] at hlo hhi
  rw [hpow]
  constructor
  · refine hlo.trans ?_
    calc (P : ℝ) / units * z2 ≤ P / units * (z ^ 2 * units) := mul_le_mul_of_nonneg_left hz hfrac0
      _ = z ^ 2 * P := hback
      _ ≤ z ^ 2 * (z ^ (2 * i + 1) * units) := mul_le_mul_of_nonneg_left hP hsq0
      _ = z ^ (2 * i + 1) * z ^ 2 * units := by ring
  · have hdamp : z ^ (2 * i + 1) * z ^ 2 * units - z ^ 2 * P ≤ 1 / 3 := by
      calc z ^ (2 * i + 1) * z ^ 2 * units - z ^ 2 * P = z ^ 2 * (z ^ (2 * i + 1) * units - P) := by ring
        _ ≤ z ^ 2 * 3 := mul_le_mul_of_nonneg_left (by linarith) hsq0
        _ ≤ 1 / 3 := by linarith
    have hsquare : z ^ 2 * P - P / units * z2 ≤ 2 / 3 := by
      calc z ^ 2 * P - P / units * z2 = P / units * (z ^ 2 * units - z2) := by rw [mul_sub, hback]
        _ ≤ P / units * 2 := mul_le_mul_of_nonneg_left (by linarith) hfrac0
        _ ≤ 2 / 3 := by linarith
    linarith

theorem atanhGo_bounds {z : ℝ} (h0 : 0 ≤ z) (h1 : z ≤ 1 / 3) {z2 : ℕ} (hz : (z2 : ℝ) ≤ z ^ 2 * units) (hz' : z ^ 2 * units - 2 ≤ z2)
    (n i P : ℕ) (hP : (P : ℝ) ≤ z ^ (2 * i + 1) * units) (hP' : z ^ (2 * i + 1) * units - 3 ≤ P) :
    (atanhGo z2 n i P : ℝ) ≤ (∑ j ∈ Finset.range n, atanhTerm z (i + j)) * units ∧
    (∑ j ∈ Finset.range n, atanhTerm z (i + j)) * units - 4 * n ≤ atanhGo z2 n i P := by
  induction n generalizing i P with
  | zero => simp [atanhGo]
  | succ n ih =>
    obtain ⟨hstep, hstep'⟩ := atanh_power_step h0 h1 hz hz' hP hP'
    obtain ⟨hlo, hhi⟩ := ih (i + 1) _ hstep hstep'
    obtain ⟨hq, hq'⟩ := floor_div P (Nat.succ_pos (2 * i))
    have hd : (0 : ℝ) < 2 * i + 1 := by positivity
    have hd1 : (1 : ℝ) ≤ 2 * i + 1 := by linarith [Nat.cast_nonneg (α := ℝ) i]
    have hterm : atanhTerm z i * units = z ^ (2 * i + 1) * units / (2 * i + 1) := by rw [atanhTerm]; ring
    have hcast : ((2 * i + 1 : ℕ) : ℝ) = 2 * i + 1 := by push_cast; ring
    have hup : (P : ℝ) / (2 * i + 1) ≤ atanhTerm z i * units := by rw [hterm]; exact div_le_div_of_nonneg_right hP hd.le
    have hdown : atanhTerm z i * units - 3 ≤ (P : ℝ) / (2 * i + 1) := by
      have h3 : (3 : ℝ) / (2 * i + 1) ≤ 3 := div_le_self (by norm_num) hd1
      have := div_le_div_of_nonneg_right hP' hd.le
      rw [sub_div, ← hterm] at this
      linarith
    simp only [Nat.succ_eq_add_one] at hq hq'
    rw [hcast] at hq hq'
    rw [sum_shift (atanhTerm z), add_mul, atanhGo]
    push_cast
    constructor <;> linarith

/-- The operand of the series and its square, as the model rounds them, for a number from one to two. -/
theorem atanh_operand {y : ℕ} (h1 : fxOne ≤ y) (h2 : y ≤ 2 * fxOne) : ∃ z : ℝ, 0 ≤ z ∧ z ≤ 1 / 3 ∧ (1 + z) / (1 - z) = y / units ∧
    (((y - fxOne) * fxOne / (y + fxOne) : ℕ) : ℝ) ≤ z * units ∧ z * units - 1 < ((y - fxOne) * fxOne / (y + fxOne) : ℕ) := by
  have hU := units_pos
  have h1r : units ≤ y := by rw [← fxOne_cast]; exact_mod_cast h1
  have h2r : (y : ℝ) ≤ 2 * units := by rw [← fxOne_cast]; exact_mod_cast h2
  have hsum : 0 < (y : ℝ) + units := by linarith
  obtain ⟨z, hz⟩ : ∃ z : ℝ, z = (y - units) / (y + units) := ⟨_, rfl⟩
  have hz0 : 0 ≤ z := by rw [hz]; exact div_nonneg (by linarith) hsum.le
  have hz1 : z ≤ 1 / 3 := by rw [hz, div_le_iff₀ hsum]; linarith
  have hlog : (1 + z) / (1 - z) = y / units := by
    have hzs : z * (y + units) = y - units := by rw [hz, div_mul_cancel₀ _ hsum.ne']
    rw [div_eq_div_iff (by linarith) hU.ne']
    linarith
  have hquot : (((y - fxOne) * fxOne : ℕ) : ℝ) / ((y + fxOne : ℕ) : ℝ) = z * units := by
    rw [hz, Nat.cast_mul, Nat.cast_sub h1, Nat.cast_add, fxOne_cast]
    ring
  have hfloor := floor_div ((y - fxOne) * fxOne) (b := y + fxOne) (by have := fxOne_pos; omega)
  rw [hquot] at hfloor
  exact ⟨z, hz0, hz1, hlog, hfloor⟩

/-- The rounded square of a number that is rounded to whole units. -/
theorem square_floor {z : ℝ} (h0 : 0 ≤ z) (h1 : z ≤ 1 / 3) {Z : ℕ} (hZ : (Z : ℝ) ≤ z * units) (hZ' : z * units - 1 < Z) :
    ((Z * Z / fxOne : ℕ) : ℝ) ≤ z ^ 2 * units ∧ z ^ 2 * units - 2 ≤ (Z * Z / fxOne : ℕ) := by
  have hU := units_pos
  obtain ⟨hsq, hsq'⟩ := floor_div (Z * Z) fxOne_pos
  have hZ0 : (0 : ℝ) ≤ Z := Nat.cast_nonneg Z
  have hZZ : ((Z * Z : ℕ) : ℝ) / fxOne = Z / units * Z := by rw [Nat.cast_mul, fxOne_cast]; ring
  rw [hZZ] at hsq hsq'
  have hfrac : (Z : ℝ) / units ≤ z := (div_le_iff₀ hU).mpr hZ
  have hfrac0 : 0 ≤ (Z : ℝ) / units := div_nonneg hZ0 hU.le
  constructor
  · calc ((Z * Z / fxOne : ℕ) : ℝ) ≤ Z / units * Z := hsq
      _ ≤ z * (z * units) := mul_le_mul hfrac hZ hZ0 h0
      _ = z ^ 2 * units := by ring
  · have e : z ^ 2 * units - (Z : ℝ) / units * Z = (z * units - Z) * (z + Z / units) := by field_simp; ring
    have : (z * units - Z) * (z + Z / units) ≤ 1 * 1 := mul_le_mul (by linarith) (by linarith) (by linarith) one_pos.le
    linarith

/-- What the series leaves out is below a unit. -/
theorem atanh_tail {z : ℝ} (h0 : 0 ≤ z) (h1 : z ≤ 1 / 3) : z ^ (2 * 100 + 1) / (1 - z ^ 2) * units ≤ 1 := by
  have hzp : z ^ (2 * 100 + 1) ≤ (1 / 3) ^ (2 * 100 + 1) := pow_le_pow_left₀ h0 h1 _
  have hd : (1 : ℝ) / 2 ≤ 1 - z ^ 2 := by nlinarith
  have : z ^ (2 * 100 + 1) / (1 - z ^ 2) ≤ (1 / 3) ^ (2 * 100 + 1) / (1 / 2) :=
    div_le_div₀ (by positivity) hzp (by norm_num) hd
  refine (mul_le_mul_of_nonneg_right this units_pos.le).trans ?_
  rw [units]
  norm_num

/-- The natural logarithm, in units, within 900 of them. -/
theorem lnFix_bounds {y : ℕ} (h1 : fxOne ≤ y) (h2 : y ≤ 2 * fxOne) :
    (lnFix y : ℝ) ≤ Real.log (y / units) * units ∧ Real.log (y / units) * units - 900 ≤ lnFix y := by
  have hU := units_pos
  obtain ⟨z, hz0, hz1, hlog, hZlo, hZhi⟩ := atanh_operand h1 h2
  have hval : (lnFix y : ℝ) = 2 * atanhGo ((y - fxOne) * fxOne / (y + fxOne) * ((y - fxOne) * fxOne / (y + fxOne)) / fxOne) 100 0
      ((y - fxOne) * fxOne / (y + fxOne)) := by
    rw [lnFix]
    push_cast
    rfl
  rw [hval]
  generalize (y - fxOne) * fxOne / (y + fxOne) = Z at *
  obtain ⟨hsq, hsq'⟩ := square_floor hz0 hz1 hZlo hZhi
  obtain ⟨hlo, hhi⟩ := atanhGo_bounds hz0 hz1 hsq hsq' 100 0 Z
    (by rw [Nat.mul_zero, Nat.zero_add, pow_one]; exact hZlo) (by rw [Nat.mul_zero, Nat.zero_add, pow_one]; linarith)
  simp only [Nat.zero_add, atanhTerm] at hlo hhi
  have hseries := mul_le_mul_of_nonneg_right (Real.sum_range_le_log_div hz0 (by linarith) 100) hU.le
  have hseries' := mul_le_mul_of_nonneg_right (Real.log_div_le_sum_range_add hz0 (by linarith) 100) hU.le
  have htail := atanh_tail hz0 hz1
  rw [hlog] at hseries hseries'
  rw [add_mul] at hseries'
  push_cast at hhi
  constructor <;> linarith

theorem ln2Fix_bounds : (ln2Fix : ℝ) ≤ Real.log 2 * units ∧ Real.log 2 * units - 900 ≤ ln2Fix := by
  have h := lnFix_bounds (y := 2 * fxOne) (by omega) le_rfl
  have e : ((2 * fxOne : ℕ) : ℝ) / units = 2 := by
    rw [Nat.cast_mul, Nat.cast_two, fxOne_cast, mul_div_assoc, div_self units_pos.ne', mul_one]
  rwa [e] at h

/-! ### Powers of e -/

/-- The next term of the exponential series keeps within one unit more than its number. -/
theorem exp_term_step {w : ℝ} (h0 : 0 ≤ w) (h1 : w ≤ 1) {y : ℕ} (hy : (y : ℝ) = w * units) {i t : ℕ}
    (ht : (t : ℝ) ≤ w ^ i / i.factorial * units) (ht' : w ^ i / i.factorial * units - (i + 1) ≤ t) :
    ((t * y / fxOne / (i + 1) : ℕ) : ℝ) ≤ w ^ (i + 1) / (i + 1).factorial * units ∧
    w ^ (i + 1) / (i + 1).factorial * units - ((i + 1 : ℕ) + 1) ≤ (t * y / fxOne / (i + 1) : ℕ) := by
  have hU := units_pos
  obtain ⟨hlo, hhi⟩ := floor_div (t * y) (b := fxOne * (i + 1)) (Nat.mul_pos fxOne_pos (Nat.succ_pos i))
  have hi : (0 : ℝ) < i + 1 := by positivity
  have hquot : ((t * y : ℕ) : ℝ) / ((fxOne * (i + 1) : ℕ) : ℝ) = w / (i + 1) * t := by
    rw [Nat.cast_mul, Nat.cast_mul, hy, fxOne_cast]
    push_cast
    field_simp
  have hterm : w ^ (i + 1) / (i + 1).factorial * units = w / (i + 1) * (w ^ i / i.factorial * units) := by
    rw [Nat.factorial_succ, pow_succ]
    push_cast
    field_simp
  have hc0 : 0 ≤ w / (i + 1) := div_nonneg h0 hi.le
  rw [Nat.div_div_eq_div_mul, hterm]
  rw [hquot] at hlo hhi
  refine ⟨hlo.trans (mul_le_mul_of_nonneg_left ht hc0), ?_⟩
  have hloss : w / (i + 1) * (w ^ i / i.factorial * units) - w / (i + 1) * t ≤ 1 := by
    rw [← mul_sub]
    calc w / (i + 1) * (w ^ i / i.factorial * units - t) ≤ w / (i + 1) * (i + 1) := mul_le_mul_of_nonneg_left (by linarith) hc0
      _ = w := div_mul_cancel₀ w hi.ne'
      _ ≤ 1 := h1
  push_cast
  linarith

theorem expGo_bounds {w : ℝ} (h0 : 0 ≤ w) (h1 : w ≤ 1) {y : ℕ} (hy : (y : ℝ) = w * units) (n i t : ℕ)
    (ht : (t : ℝ) ≤ w ^ i / i.factorial * units) (ht' : w ^ i / i.factorial * units - (i + 1) ≤ t) :
    (expGo y n i t : ℝ) ≤ (∑ j ∈ Finset.range n, w ^ (i + j) / (i + j).factorial) * units ∧
    (∑ j ∈ Finset.range n, w ^ (i + j) / (i + j).factorial) * units - n * (i + n) ≤ expGo y n i t := by
  induction n generalizing i t with
  | zero => simp [expGo]
  | succ n ih =>
    obtain ⟨hstep, hstep'⟩ := exp_term_step h0 h1 hy ht ht'
    obtain ⟨hlo, hhi⟩ := ih (i + 1) _ hstep hstep'
    rw [sum_shift (fun k => w ^ k / (k.factorial : ℝ)), add_mul, expGo]
    push_cast at *
    have hn : (0 : ℝ) ≤ n := Nat.cast_nonneg n
    constructor <;> linarith

/-- The power of e, in units, within 6401 of them. -/
theorem expFix_bounds {y : ℕ} (hy : y ≤ fxOne) :
    (expFix y : ℝ) ≤ Real.exp (y / units) * units ∧ Real.exp (y / units) * units - 6401 ≤ expFix y := by
  have hU := units_pos
  have hyr : (y : ℝ) ≤ units := by rw [← fxOne_cast]; exact_mod_cast hy
  obtain ⟨w, hw⟩ : ∃ w : ℝ, w = y / units := ⟨_, rfl⟩
  have h0 : 0 ≤ w := by rw [hw]; positivity
  have h1 : w ≤ 1 := by rw [hw, div_le_one hU]; exact hyr
  have hyw : (y : ℝ) = w * units := by rw [hw, div_mul_cancel₀ _ hU.ne']
  obtain ⟨hlo, hhi⟩ := expGo_bounds h0 h1 hyw 80 0 fxOne (by simp [fxOne_cast]) (by simp [fxOne_cast])
  simp only [Nat.zero_add] at hlo hhi
  have hseries := mul_le_mul_of_nonneg_right (Real.sum_le_exp_of_nonneg h0 80) hU.le
  have hseries' := mul_le_mul_of_nonneg_right (Real.exp_bound' h0 h1 (show 0 < 80 by norm_num)) hU.le
  have htail : w ^ 80 * ((80 : ℕ) + 1) / ((80 : ℕ).factorial * (80 : ℕ)) * units ≤ 1 := by
    have hp : w ^ 80 ≤ 1 := pow_le_one₀ h0 h1
    have hb : (81 : ℝ) / ((80 : ℕ).factorial * (80 : ℕ)) * units ≤ 1 := by
      rw [units]
      norm_num [Nat.factorial]
    refine le_trans (mul_le_mul_of_nonneg_right ?_ hU.le) hb
    refine div_le_div_of_nonneg_right ?_ (by positivity)
    push_cast
    linarith
  rw [add_mul] at hseries'
  rw [← hw]
  have hval : (expFix y : ℝ) = expGo y 80 0 fxOne := rfl
  rw [hval]
  push_cast at hhi htail hseries'
  constructor <;> linarith

end Sys2Proof.Laws
end

section
/-! ## EXP2 and LOG2 (R115) -/

namespace Sys2Proof.Laws
open Sys2Proof Sys2Proof.Machine

variable {f : FFmt}

/-! ### LOG2 -/

/-- The binary logarithm of a number from one to two, in units. -/
theorem log2Fix_error {y : ℕ} (h1 : fxOne ≤ y) (h2 : y ≤ 2 * fxOne) :
    |Real.logb 2 (y / units) * units - (lnFix y * fxOne / ln2Fix : ℕ)| ≤ 2 ^ 12 := by
  have hU := units_pos
  have hbig : (2 : ℝ) ^ 256 = units := rfl
  obtain ⟨hy, hy'⟩ := lnFix_bounds h1 h2
  obtain ⟨ht, ht'⟩ := ln2Fix_bounds
  have hl := Real.log_two_gt_d9
  have hl' := Real.log_two_lt_d9
  have h1r : units ≤ y := by rw [← fxOne_cast]; exact_mod_cast h1
  have h2r : (y : ℝ) ≤ 2 * units := by rw [← fxOne_cast]; exact_mod_cast h2
  have hr1 : 1 ≤ (y : ℝ) / units := (one_le_div hU).mpr h1r
  have hlog0 : 0 ≤ Real.log (y / units) := Real.log_nonneg hr1
  have hlog2 : Real.log (y / units) ≤ Real.log 2 := Real.log_le_log (by linarith) ((div_le_iff₀ hU).mpr h2r)
  have hlow : (2 : ℝ) ^ 20 ≤ ln2Fix := by rw [← hbig] at ht'; linarith
  have hpos : 0 < ln2Fix := by
    have : (0 : ℝ) < ln2Fix := by linarith
    exact_mod_cast this
  obtain ⟨hq, hq'⟩ := floor_div (lnFix y * fxOne) hpos
  have hquot : ((lnFix y * fxOne : ℕ) : ℝ) / ln2Fix = lnFix y * units / ln2Fix := by rw [Nat.cast_mul, fxOne_cast]
  rw [hquot] at hq hq'
  rw [Real.logb]
  have hp0 : (0 : ℝ) ≤ lnFix y := Nat.cast_nonneg _
  generalize Real.log (y / units) = a at *
  generalize Real.log 2 = b at *
  generalize (lnFix y : ℝ) = p at *
  generalize (ln2Fix : ℝ) = q at *
  have hq0 : 0 < q := by linarith
  have hb0 : 0 < b := by linarith
  have hup : p * units / q ≤ a / b * units + 2 ^ 11 := by
    rw [div_le_iff₀ hq0]
    have hratio : a / b ≤ 1 := (div_le_one hb0).mpr hlog2
    have hratio0 : 0 ≤ a / b := div_nonneg hlog0 hb0.le
    calc p * units ≤ a * units * units := mul_le_mul_of_nonneg_right hy hU.le
      _ = a / b * units * (b * units - 900) + a / b * units * 900 := by field_simp; ring
      _ ≤ a / b * units * q + 1 * units * 900 := by
        refine add_le_add (mul_le_mul_of_nonneg_left ht' (by positivity)) ?_
        gcongr
      _ ≤ (a / b * units + 2 ^ 11) * q := by
        rw [add_mul]
        have : 2 ^ 11 * (b * units - 900) ≤ 2 ^ 11 * q := by linarith
        have : units / 2 ≤ b * units - 900 := by nlinarith [hbig]
        linarith
  have hdown : a / b * units - 2 ^ 11 ≤ p * units / q := by
    have : (a * units - 900) * units / (b * units) ≤ p * units / q :=
      div_le_div₀ (mul_nonneg hp0 hU.le) (mul_le_mul_of_nonneg_right hy' hU.le) hq0 ht
    have e : (a * units - 900) * units / (b * units) = a / b * units - 900 / b := by field_simp
    have : 900 / b ≤ 2 ^ 11 := by rw [div_le_iff₀ hb0]; linarith
    linarith
  rw [abs_le]
  constructor <;> linarith

/-- The logarithm of a ratio of whole numbers keeps away from zero. -/
theorem logb_ratio {p q : ℕ} (hp : 0 < p) (hpq : p < q) (hq : q ≤ 2 ^ 53) : 1 / 2 ^ 53 ≤ Real.logb 2 (q / p) := by
  have hpr : (0 : ℝ) < p := by exact_mod_cast hp
  have hqr : (p : ℝ) + 1 ≤ q := by exact_mod_cast hpq
  have hq0 : (0 : ℝ) < q := by linarith
  have hq53 : (q : ℝ) ≤ 2 ^ 53 := by exact_mod_cast hq
  have hlog : 1 / 2 ^ 53 ≤ Real.log (q / p) := by
    calc (1 : ℝ) / 2 ^ 53 ≤ 1 / q := one_div_le_one_div_of_le hq0 hq53
      _ ≤ 1 - (q / p : ℝ)⁻¹ := by
        rw [inv_div, le_sub_iff_add_le, ← add_div, div_le_one hq0]
        linarith
      _ ≤ Real.log (q / p) := Real.one_sub_inv_le_log_of_pos (div_pos hq0 hpr)
  rw [Real.logb]
  refine hlog.trans (le_div_self ?_ ?_ ?_)
  · exact le_trans (by positivity) hlog
  · linarith [Real.log_two_gt_d9]
  · linarith [Real.log_two_lt_d9]

/-- A number's binary logarithm in whole and fractional part. -/
theorem logb_mant {m : ℕ} (hm : m ≠ 0) (e : ℤ) (k : ℕ) :
    Real.logb 2 ((m : ℝ) * 2 ^ e) = ((k : ℤ) + e : ℤ) + Real.logb 2 (m / 2 ^ k) := by
  have hmr : (0 : ℝ) < m := by exact_mod_cast Nat.pos_of_ne_zero hm
  have hsplit : (m : ℝ) * 2 ^ e = 2 ^ ((k : ℤ) + e) * (m / 2 ^ k) := by
    rw [zpow_add₀ two_ne_zero, zpow_natCast]
    field_simp
  rw [hsplit, Real.logb_mul (zpow_ne_zero _ two_ne_zero) (by positivity), ← Real.rpow_intCast, Real.logb_rpow two_pos (by norm_num)]

/-- Away from the powers of two, the binary logarithm keeps away from zero. -/
theorem logb_away {m : ℕ} (hm : m ≠ 0) (hpow : m ≠ 2 ^ Nat.log2 m) (h53 : m < 2 ^ 53) (e : ℤ) :
    1 / 2 ^ 53 ≤ |Real.logb 2 ((m : ℝ) * 2 ^ e)| := by
  have hlow := Nat.log2_self_le hm
  have hhigh : m < 2 ^ (Nat.log2 m + 1) := Nat.lt_log2_self
  have hk : Nat.log2 m < 53 := (Nat.log2_lt hm).mpr h53
  rw [logb_mant hm e (Nat.log2 m)]
  generalize Nat.log2 m = k at *
  have hmr : (0 : ℝ) < m := by exact_mod_cast Nat.pos_of_ne_zero hm
  have ha := logb_ratio (Nat.two_pow_pos k) (by omega) h53.le
  have hb := logb_ratio (Nat.pos_of_ne_zero hm) hhigh (Nat.pow_le_pow_right two_pos hk)
  have hsum : Real.logb 2 (m / (2 ^ k : ℕ)) + Real.logb 2 ((2 ^ (k + 1) : ℕ) / m) = 1 := by
    rw [← Real.logb_mul (by positivity) (by positivity)]
    have : (m : ℝ) / (2 ^ k : ℕ) * ((2 ^ (k + 1) : ℕ) / m) = 2 := by
      push_cast
      field_simp
      ring
    rw [this, Real.logb_self_eq_one one_lt_two]
  push_cast at ha hsum ⊢
  rcases le_or_gt 0 ((k : ℤ) + e) with h | h
  · have : (0 : ℝ) ≤ (k : ℝ) + e := by exact_mod_cast h
    exact le_trans (by linarith) (le_abs_self _)
  · have : (k : ℝ) + e ≤ -1 := by exact_mod_cast Int.le_sub_one_of_lt h
    exact le_trans (by push_cast at hb; linarith) (neg_le_abs _)

theorem near_zero (hf : IsWide f) : f.near 1 0 (f.enc .rn (.fin false 0 0)) := by
  have h := near_of_finite (f := f) (b := 1) (v := 0) (c := 0) (neg := false)
    (by rw [codeVal_zero, abs_zero, sub_zero, abs_zero, Rat.cast_one, one_mul]; exact (ulp_pos 0).le) (by simp)
    (by have := infBits_ge hf; omega)
  exact h

/-- A whole number's rounding. -/
theorem near_numOfInt (hf : IsWide f) (i : ℤ) : f.near 1 (i : ℝ) (f.enc .rn (numOfInt i)) := by
  rcases eq_or_ne i 0 with rfl | hi
  · rw [Int.cast_zero]
    exact near_zero hf
  · refine near_mono (by norm_num) (near_exact hf (Int.natAbs_ne_zero.mpr hi) ?_)
    rw [realOf_fin, zpow_zero, mul_one, Nat.cast_natAbs]
    rcases lt_or_gt_of_ne hi with h | h
    · simp [h, abs_of_neg h]
    · simp [not_lt.mpr h.le, abs_of_pos h]

/-- The fixed-point logarithm of a number that is no power of two. -/
theorem log2Encl_error {m : ℕ} (hm : m ≠ 0) (h53 : m < 2 ^ 53) (e : ℤ) :
    |Real.logb 2 ((m : ℝ) * 2 ^ e) * units -
      ((((Nat.log2 m : ℤ) + e) * (fxOne : ℤ) + ((lnFix (m * fxOne / 2 ^ Nat.log2 m) * fxOne / ln2Fix : ℕ) : ℤ) : ℤ) : ℝ)| ≤ 2 ^ 12 := by
  have hlow := Nat.log2_self_le hm
  have hhigh : m < 2 ^ (Nat.log2 m + 1) := Nat.lt_log2_self
  have hk : Nat.log2 m < 53 := (Nat.log2_lt hm).mpr h53
  rw [logb_mant hm e (Nat.log2 m)]
  generalize Nat.log2 m = k at *
  have hsplit : fxOne = 2 ^ (256 - k) * 2 ^ k := by rw [← pow_add, fxOne, Nat.sub_add_cancel (by omega)]
  have hy : m * fxOne / 2 ^ k = m * 2 ^ (256 - k) := by
    rw [hsplit, ← mul_assoc, Nat.mul_div_cancel _ (Nat.two_pow_pos k)]
  have h1 : fxOne ≤ m * 2 ^ (256 - k) := by
    rw [hsplit, mul_comm]
    exact Nat.mul_le_mul_right _ hlow
  have h2 : m * 2 ^ (256 - k) ≤ 2 * fxOne := by
    rw [hsplit, mul_comm (2 ^ (256 - k)), ← mul_assoc, ← pow_succ']
    exact Nat.mul_le_mul_right _ hhigh.le
  have hval : ((m * 2 ^ (256 - k) : ℕ) : ℝ) / units = m / 2 ^ k := by
    rw [← fxOne_cast, hsplit]
    push_cast
    field_simp
  have herr := log2Fix_error h1 h2
  rw [hval] at herr
  rw [hy]
  push_cast at herr ⊢
  rw [fxOne_cast, add_mul, add_sub_add_left_eq_sub]
  exact herr

theorem near_log2 (hf : IsWide f) (k : ℕ) {m : ℕ} (hm : m ≠ 0) (h53 : m < 2 ^ 53) (e : ℤ) :
    f.near 1 (Real.logb 2 ((m : ℝ) * 2 ^ e)) (tfnEval .log2 f k (.fin false m e)) := by
  by_cases hpow : m = 2 ^ Nat.log2 m
  · have hx : (m : ℝ) / 2 ^ Nat.log2 m = 1 := by
      rw [div_eq_one_iff_eq (by positivity)]
      exact_mod_cast hpow
    rw [tfnEval_exact ((tfnEncl_positive hm e).2.trans (if_pos hpow)), logb_mant hm e (Nat.log2 m), hx, Real.logb_one, add_zero]
    exact near_numOfInt hf _
  · have herr := log2Encl_error hm h53 e
    have haway := logb_away hm hpow h53 e
    obtain ⟨ch, hch⟩ := tfnEval_of_encl (f := f) k ((tfnEncl_positive hm e).2.trans (if_neg hpow))
    rw [hch, near_eq_max]
    generalize ((Nat.log2 m : ℤ) + e) * (fxOne : ℤ) + ((lnFix (m * fxOne / 2 ^ Nat.log2 m) * fxOne / ln2Fix : ℕ) : ℤ) = t at *
    generalize Real.logb 2 ((m : ℝ) * 2 ^ e) = v at *
    have hU := units_pos
    have hbig : (2 : ℝ) ^ 256 = units := rfl
    have habs : |(|v| * units) - (t.natAbs : ℝ)| ≤ 2 ^ 12 := by
      have e : |v| * units = |v * units| := by rw [abs_mul, abs_of_pos hU]
      rw [Nat.cast_natAbs, Int.cast_abs, e]
      exact (abs_abs_sub_abs_le _ _).trans herr
    have hW : 2 ^ 119 ≤ |v| * units := by
      have := mul_le_mul_of_nonneg_right haway hU.le
      rw [← hbig] at this ⊢
      refine le_trans ?_ this
      norm_num
    obtain ⟨-, hle⟩ := abs_le.mp habs
    obtain ⟨herr1, herr2⟩ := abs_le.mp herr
    have hslack : ((t.natAbs + fxSlack : ℕ) : ℝ) = t.natAbs + 2 ^ 64 := by rw [fxSlack]; push_cast; ring
    have hsign : t < 0 ↔ v < 0 := by
      constructor
      · intro h
        have : (t : ℝ) < 0 := by exact_mod_cast h
        by_contra hv
        rw [abs_of_nonneg (not_lt.mp hv)] at hW
        linarith
      · intro h
        rw [abs_of_neg h] at hW
        have : (t : ℝ) < 0 := by linarith
        exact_mod_cast this
    refine near_slack hf (W := |v| * units) (habs.trans (by norm_num)) (by rw [Nat.cast_zero]; positivity) (by rw [hslack]; linarith) hW ?_ ?_
    · rw [mul_assoc, ← hbig, ← zpow_natCast, ← zpow_add₀ two_ne_zero]
      norm_num
    · simp only [decide_eq_true_eq, hsign]
      split
      · next h => rw [abs_of_neg h]; ring
      · next h => rw [abs_of_nonneg (not_lt.mp h)]; ring

end Sys2Proof.Laws
end

section
/-! ## EXP2 (R115) -/

namespace Sys2Proof.Laws
open Sys2Proof Sys2Proof.Machine

variable {f : FFmt}

/-! ### Powers with a fractional exponent -/

/-- The exponent of e that belongs to a fractional exponent of two, in units. -/
theorem fraction_error {F : ℕ} {φ : ℝ} (h1 : φ ≤ 1) (hF : (F : ℝ) ≤ φ * units) (hF' : φ * units - 1 ≤ F) :
    ((F * ln2Fix / fxOne : ℕ) : ℝ) ≤ φ * Real.log 2 * units ∧ φ * Real.log 2 * units - 902 ≤ (F * ln2Fix / fxOne : ℕ) := by
  have hU := units_pos
  obtain ⟨ht, ht'⟩ := ln2Fix_bounds
  have hl := Real.log_two_gt_d9
  have hl' := Real.log_two_lt_d9
  obtain ⟨hq, hq'⟩ := floor_div (F * ln2Fix) fxOne_pos
  have hquot : ((F * ln2Fix : ℕ) : ℝ) / fxOne = F / units * ln2Fix := by rw [Nat.cast_mul, fxOne_cast]; ring
  rw [hquot] at hq hq'
  have hF0 : 0 ≤ (F : ℝ) / units := div_nonneg (Nat.cast_nonneg F) hU.le
  have hF1 : (F : ℝ) / units ≤ 1 := (div_le_one hU).mpr (by nlinarith)
  have hfrac : (F : ℝ) / units * (Real.log 2 * units) = Real.log 2 * F := by field_simp
  constructor
  · calc ((F * ln2Fix / fxOne : ℕ) : ℝ) ≤ F / units * ln2Fix := hq
      _ ≤ F / units * (Real.log 2 * units) := mul_le_mul_of_nonneg_left ht hF0
      _ = Real.log 2 * F := hfrac
      _ ≤ Real.log 2 * (φ * units) := mul_le_mul_of_nonneg_left hF (by linarith)
      _ = φ * Real.log 2 * units := by ring
  · have h2 : Real.log 2 * F - F / units * ln2Fix ≤ 900 := by
      rw [← hfrac, ← mul_sub]
      calc (F : ℝ) / units * (Real.log 2 * units - ln2Fix) ≤ 1 * 900 :=
            mul_le_mul hF1 (by linarith) (by linarith) one_pos.le
        _ = 900 := one_mul _
    have h3 : φ * Real.log 2 * units - Real.log 2 * F ≤ 1 := by
      calc φ * Real.log 2 * units - Real.log 2 * F = Real.log 2 * (φ * units - F) := by ring
        _ ≤ 1 * 1 := mul_le_mul (by linarith) (by linarith) (by linarith) one_pos.le
        _ = 1 := one_mul _
    linarith

/-- A power of two with a fractional exponent, in units. -/
theorem exp2Fix_bounds {F : ℕ} {φ : ℝ} (h0 : 0 ≤ φ) (h1 : φ ≤ 1) (hF : (F : ℝ) ≤ φ * units) (hF' : φ * units - 1 ≤ F) :
    (expFix (F * ln2Fix / fxOne) : ℝ) ≤ 2 ^ φ * units ∧ (2 : ℝ) ^ φ * units - 9000 ≤ expFix (F * ln2Fix / fxOne) := by
  have hU := units_pos
  obtain ⟨hy, hy'⟩ := fraction_error h1 hF hF'
  generalize F * ln2Fix / fxOne = y at *
  have hpow : (2 : ℝ) ^ φ = Real.exp (φ * Real.log 2) := by rw [Real.rpow_def_of_pos two_pos, mul_comm]
  have hl := Real.log_two_gt_d9
  have hl' := Real.log_two_lt_d9
  have hyU : y ≤ fxOne := by
    have : (y : ℝ) ≤ fxOne := by
      rw [fxOne_cast]
      refine hy.trans (mul_le_of_le_one_left hU.le ?_)
      nlinarith
    exact_mod_cast this
  obtain ⟨he, he'⟩ := expFix_bounds hyU
  have hyr : (y : ℝ) / units ≤ φ * Real.log 2 := (div_le_iff₀ hU).mpr hy
  have hyr' : φ * Real.log 2 - 902 / units ≤ y / units := by
    rw [le_div_iff₀ hU, sub_mul, div_mul_cancel₀ _ hU.ne']
    exact hy'
  have hle2 : (2 : ℝ) ^ φ ≤ 2 := by
    have := Real.rpow_le_rpow_of_exponent_le one_le_two h1
    rwa [Real.rpow_one] at this
  constructor
  · rw [hpow]
    exact he.trans (mul_le_mul_of_nonneg_right (Real.exp_le_exp.mpr hyr) hU.le)
  · have hexp : (2 : ℝ) ^ φ * (1 - 902 / units) ≤ Real.exp (y / units) := by
      calc (2 : ℝ) ^ φ * (1 - 902 / units) ≤ 2 ^ φ * Real.exp (-(902 / units)) := by
            refine mul_le_mul_of_nonneg_left ?_ (by positivity)
            linarith [Real.add_one_le_exp (-(902 / units))]
        _ = Real.exp (φ * Real.log 2 - 902 / units) := by rw [hpow, ← Real.exp_add, sub_eq_add_neg]
        _ ≤ Real.exp (y / units) := Real.exp_le_exp.mpr hyr'
    have := mul_le_mul_of_nonneg_right hexp hU.le
    have e : (2 : ℝ) ^ φ * (1 - 902 / units) * units = 2 ^ φ * units - 2 ^ φ * 902 := by field_simp
    rw [e] at this
    linarith

/-- A reciprocal in units. -/
theorem inv_error {t : ℕ} {A : ℝ} (h1 : units ≤ A) (ht : (t : ℝ) ≤ A) (ht' : A - 9000 ≤ t) :
    |units * units / A - (fxOne * fxOne / t : ℕ)| ≤ 2 ^ 15 := by
  have hU := units_pos
  have hbig : (2 : ℝ) ^ 256 = units := rfl
  have h20 : (2 : ℝ) ^ 20 ≤ units := by rw [← hbig]; norm_num
  have hA : 0 < A := hU.trans_le h1
  have htr : (0 : ℝ) < t := by linarith
  obtain ⟨hq, hq'⟩ := floor_div (fxOne * fxOne) (b := t) (by exact_mod_cast htr)
  rw [Nat.cast_mul, fxOne_cast] at hq hq'
  have hle : units * units / A ≤ units * units / t := div_le_div_of_nonneg_left (by positivity) htr ht
  have hge : units * units / t ≤ units * units / A + 2 ^ 14 := by
    rw [div_le_iff₀ htr, add_mul]
    have e : units * units / A * (A - 9000) = units * units - 9000 * (units * (units / A)) := by field_simp
    have hr : units / A ≤ 1 := (div_le_one hA).mpr h1
    have hx : units * units / A * (A - 9000) ≤ units * units / A * t := mul_le_mul_of_nonneg_left ht' (by positivity)
    have hu : units * (units / A) ≤ units := mul_le_of_le_one_right hU.le hr
    linarith
  rw [abs_le]
  constructor <;> linarith

/-! ### Results below every code -/

theorem near_low (hf : IsWide f) {ch : ℕ → Bool} {v : ℝ} (h0 : 0 < v) (hv : v ≤ 2 ^ f.emin) :
    f.near 1 v (pickResult f false ch (.between false (.fin false 1 (-5000)) (.fin false 1 (-4000)))) := by
  have hdn : f.enc .rz (.fin false 1 (-5000)) = 0 := by rcases hf with rfl | rfl <;> decide +kernel
  have hup : f.enc .ru (.fin false 1 (-4000)) = 1 := by rcases hf with rfl | rfl <;> decide +kernel
  have hlt : cmpNum (.fin false 1 (-5000)) (.fin false 1 (f.bias + 1)) = some .lt := by
    rw [cmpNum_pos]
    refine mul_lt_mul_of_pos_left (zpow_lt_zpow_right₀ one_lt_two (by omega)) (by norm_num)
  have hc : pickCode f false ch 0 1 = 0 ∨ pickCode f false ch 0 1 = 1 := by
    cases h : ch 0 <;> simp [pickCode, h]
  have hulp : (2 : ℝ) ^ f.emin ≤ ulp f v := zpow_le_zpow_right₀ one_le_two (le_max_right _ _)
  have hone : codeVal f 1 = 2 ^ f.emin := by
    have h := codeVal_succ (f := f) 0
    rwa [codeVal_zero, zero_add, codeGap, codeBand, Nat.zero_div, Nat.zero_sub, Nat.cast_zero, zero_add, zero_add] at h
  rw [pickResult_between, if_neg (not_not.mpr hlt), hdn, hup]
  refine near_of_finite ?_ (by rw [if_neg Bool.false_ne_true, one_mul, abs_of_pos h0]) ?_
  · rw [Rat.cast_one, one_mul, abs_of_pos h0, abs_le]
    rcases hc with hc | hc <;> rw [hc]
    · rw [codeVal_zero]
      constructor <;> linarith
    · rw [hone]
      constructor <;> linarith
  · have := infBits_ge hf
    omega

/-! ### The instruction's value -/

/-- An operand that is not whole: its whole part and the units of its fraction. -/
theorem fraction_parts {m : ℕ} {e : ℤ} (he : ¬e ≥ 0) {X : ℕ} (hX : X = m * fxOne / 2 ^ (-e).toNat) :
    ∃ φ : ℝ, 0 ≤ φ ∧ φ ≤ 1 ∧ (m : ℝ) * 2 ^ e = (X / fxOne : ℕ) + φ ∧ ((X % fxOne : ℕ) : ℝ) ≤ φ * units ∧
      φ * units - 1 ≤ (X % fxOne : ℕ) := by
  have hU := units_pos
  obtain ⟨s, hs⟩ := Int.eq_ofNat_of_zero_le (show 0 ≤ -e by omega)
  obtain rfl : e = -(s : ℤ) := by omega
  rw [neg_neg, Int.toNat_natCast] at hX
  have hval : (m : ℝ) * 2 ^ (-(s : ℤ)) = m / 2 ^ s := by rw [zpow_neg, zpow_natCast, div_eq_mul_inv]
  have hn : X / fxOne = m / 2 ^ s := by
    rw [hX, Nat.div_div_eq_div_mul, Nat.mul_div_mul_right _ _ fxOne_pos]
  obtain ⟨hq, hq'⟩ := floor_div m (Nat.two_pow_pos s)
  obtain ⟨hx, hx'⟩ := floor_div (m * fxOne) (Nat.two_pow_pos s)
  have hdecomp : (X : ℝ) = units * (X / fxOne : ℕ) + (X % fxOne : ℕ) := by
    rw [← fxOne_cast]
    exact_mod_cast (Nat.div_add_mod X fxOne).symm
  have hXv : ((m * fxOne : ℕ) : ℝ) / ((2 ^ s : ℕ) : ℝ) = m / 2 ^ s * units := by rw [Nat.cast_mul, fxOne_cast]; push_cast; ring
  rw [hXv, ← hX] at hx hx'
  push_cast at hq hq'
  rw [← hn] at hq hq'
  refine ⟨(m : ℝ) / 2 ^ s - (X / fxOne : ℕ), by linarith, by linarith, by rw [hval]; ring, ?_, ?_⟩
  · linarith
  · linarith

theorem near_exp2_fraction (hf : IsWide f) {ch : ℕ → Bool} {neg : Bool} {m : ℕ} {e : ℤ} (hbig : ¬atLeast m e 12 = true)
    (hint : ¬(e ≥ 0 ∨ m % 2 ^ (-e).toNat = 0)) :
    f.near 1 ((2 : ℝ) ^ realOf (.fin neg m e)) (pickResult f false ch (exp2Encl f neg m e)) := by
  have hU := units_pos
  have hpow : (2 : ℝ) ^ 256 = units := rfl
  have h20 : (2 : ℝ) ^ 200 ≤ units := by rw [← hpow]; exact pow_le_pow_right₀ one_le_two (by norm_num)
  obtain ⟨φ, h0, h1, hx, hF, hF'⟩ := fraction_parts (m := m) (fun h => hint (.inl h)) rfl
  simp only [exp2Encl, if_neg hbig, if_neg hint]
  generalize m * fxOne / 2 ^ (-e).toNat = X at *
  obtain ⟨ht, ht'⟩ := exp2Fix_bounds h0 h1 hF hF'
  generalize expFix (X % fxOne * ln2Fix / fxOne) = t at *
  generalize X / fxOne = n at *
  have hA : (1 : ℝ) ≤ 2 ^ φ := Real.one_le_rpow one_le_two h0
  have hA2 : (2 : ℝ) ^ φ ≤ 2 := by
    have := Real.rpow_le_rpow_of_exponent_le one_le_two h1
    rwa [Real.rpow_one] at this
  have hscale (W : ℝ) (n : ℤ) : W * units * 2 ^ (n - 256) = 2 ^ n * W := by
    rw [← hpow, zpow_sub₀ two_ne_zero, mul_assoc, ← zpow_natCast, Nat.cast_ofNat]
    field_simp
  rw [realOf_fin, hx]
  cases neg
  · simp only [Bool.false_eq_true, if_false, one_mul]
    have hv : (2 : ℝ) ^ ((n : ℝ) + φ) = 2 ^ n * 2 ^ φ := by rw [Real.rpow_add two_pos, Real.rpow_natCast]
    split
    · next hn =>
      refine near_infinite hf ?_
      rw [hv]
      refine le_trans (pow_le_pow_right₀ one_le_two hn) (le_mul_of_one_le_right (by positivity) hA)
    · refine near_slack hf (W := 2 ^ φ * units) ?_ ?_ ?_ ?_ ?_ ?_
      · rw [abs_le]
        constructor <;> linarith
      · rw [fxOne_cast]
        exact le_mul_of_one_le_left hU.le hA
      · rw [Nat.cast_mul, Nat.cast_two, fxOne_cast]
        exact mul_le_mul_of_nonneg_right hA2 hU.le
      · have := le_mul_of_one_le_left hU.le hA
        linarith
      · rw [abs_of_pos (Real.rpow_pos_of_pos two_pos _), hscale, hv, zpow_natCast]
      · rw [if_neg Bool.false_ne_true, one_mul, abs_of_pos (Real.rpow_pos_of_pos two_pos _)]
  · simp only [if_true]
    have hv : (2 : ℝ) ^ (-1 * ((n : ℝ) + φ)) = 2 ^ (-(n : ℤ)) * (2 ^ φ)⁻¹ := by
      rw [neg_one_mul, neg_add, Real.rpow_add two_pos, Real.rpow_neg two_pos.le, Real.rpow_neg two_pos.le, Real.rpow_natCast, zpow_neg,
        zpow_natCast]
    have hA0 : (0 : ℝ) < 2 ^ φ := by linarith
    have hinv : units * units / (2 ^ φ * units) = (2 ^ φ)⁻¹ * units := by field_simp
    have herr := inv_error (le_mul_of_one_le_left hU.le hA) ht ht'
    rw [hinv] at herr
    have hinv1 : (2 ^ φ : ℝ)⁻¹ ≤ 1 := inv_le_one_of_one_le₀ hA
    have hinv2 : (1 : ℝ) / 2 ≤ (2 ^ φ)⁻¹ := by rw [one_div]; exact inv_anti₀ hA0 hA2
    have hhalf : ((fxOne / 2 : ℕ) : ℝ) = 1 / 2 * units := by
      rw [fxOne, show (2 ^ 256 : ℕ) / 2 = 2 ^ 255 by norm_num, ← hpow]
      norm_num
    refine near_slack hf (W := (2 ^ φ)⁻¹ * units) ?_ ?_ ?_ ?_ ?_ ?_
    · exact herr.trans (by norm_num)
    · rw [hhalf]
      exact mul_le_mul_of_nonneg_right hinv2 hU.le
    · rw [fxOne_cast]
      exact mul_le_of_le_one_left hU.le hinv1
    · have := mul_le_mul_of_nonneg_right hinv2 hU.le
      linarith
    · rw [abs_of_pos (Real.rpow_pos_of_pos two_pos _), hscale, hv]
    · rw [if_neg Bool.false_ne_true, one_mul, abs_of_pos (Real.rpow_pos_of_pos two_pos _)]

/-- EXP2 of a whole number. -/
theorem near_exp2_integer (hf : IsWide f) {ch : ℕ → Bool} {neg : Bool} {m : ℕ} {e : ℤ} (hbig : ¬atLeast m e 12 = true)
    (hint : e ≥ 0 ∨ m % 2 ^ (-e).toNat = 0) :
    f.near 1 ((2 : ℝ) ^ realOf (.fin neg m e)) (pickResult f false ch (exp2Encl f neg m e)) := by
  have hn : m * 2 ^ e.toNat = m * 2 ^ e.toNat / 2 ^ (-e).toNat * 2 ^ (-e).toNat := by
    refine (Nat.div_mul_cancel ?_).symm
    rcases hint with h | h
    · rw [Int.toNat_of_nonpos (show -e ≤ 0 by omega), pow_zero]
      exact one_dvd _
    · exact (Nat.dvd_of_mod_eq_zero h).mul_right _
  obtain ⟨-, -, hval⟩ := integer_operand hn
  simp only [exp2Encl, if_neg hbig, if_pos hint]
  generalize m * 2 ^ e.toNat / 2 ^ (-e).toNat = n at *
  obtain ⟨i, hi⟩ : ∃ i : ℤ, i = (if neg then -1 else 1) * (n : ℤ) := ⟨_, rfl⟩
  have hx : realOf (.fin neg m e) = (i : ℝ) := by
    rw [realOf_fin, hval, hi]
    cases neg <;> simp
  rw [hx, Real.rpow_intCast, ← hi]
  split
  · next hlt => exact near_low hf (zpow_pos two_pos _) (zpow_le_zpow_right₀ one_le_two hlt.le)
  · refine near_mono (by norm_num) (near_exact hf one_ne_zero ?_)
    rw [realOf_pos, Nat.cast_one, one_mul]

theorem near_exp2 (hf : IsWide f) (k : ℕ) {neg : Bool} {m : ℕ} (hm : m ≠ 0) (e : ℤ) :
    f.near 1 ((2 : ℝ) ^ realOf (.fin neg m e)) (tfnEval .exp2 f k (.fin neg m e)) := by
  obtain ⟨ch, hch⟩ := tfnEval_of_encl (f := f) k (tfnEncl_nonzero (neg := neg) hm e).2.1
  rw [hch]
  by_cases hbig : atLeast m e 12 = true
  · have hx := (atLeast_of_value hm).mp hbig
    have hemin : -(4096 : ℤ) ≤ f.emin ∧ f.bias + 1 ≤ 4096 := by rcases hf with rfl | rfl <;> decide
    rw [exp2Encl, if_pos hbig]
    cases neg
    · refine near_infinite hf ?_
      rw [realOf_pos, ← Real.rpow_natCast]
      refine Real.rpow_le_rpow_of_exponent_le one_le_two (le_trans ?_ hx)
      exact_mod_cast hemin.2
    · refine near_low hf (Real.rpow_pos_of_pos two_pos _) ?_
      rw [realOf_neg]
      refine (Real.rpow_le_rpow_of_exponent_le one_le_two ((neg_le_neg hx).trans ?_)).trans (Real.rpow_intCast 2 f.emin).le
      have : (-4096 : ℝ) ≤ f.emin := by exact_mod_cast hemin.1
      norm_num
      exact this
  · by_cases hint : e ≥ 0 ∨ m % 2 ^ (-e).toNat = 0
    · exact near_exp2_integer hf hbig hint
    · exact near_exp2_fraction hf hbig hint

end Sys2Proof.Laws
end

section
/-! ## TANH (R115) -/

namespace Sys2Proof.Laws
open Sys2Proof Sys2Proof.Machine

variable {f : FFmt}

/-! ### Differences of exact values -/

/-- The exact difference of two magnitudes, the larger one first. -/
theorem sumNum_difference {a c : ℕ} {p q : ℤ} (ha : a ≠ 0) (hc : c ≠ 0) (h : (c : ℝ) * 2 ^ q < a * 2 ^ p) :
    ∃ (m : ℕ) (e : ℤ), sumNum [.fin false a p, .fin true c q] = .fin false m e ∧ m ≠ 0 ∧ (m : ℝ) * 2 ^ e = a * 2 ^ p - c * 2 ^ q := by
  obtain ⟨t, ht⟩ : ∃ t : ℤ, t = mantAt (min p q) (.fin false a p) + mantAt (min p q) (.fin true c q) := ⟨_, rfl⟩
  have hmant (n : ℕ) (k : ℤ) (hk : min p q ≤ k) : ((n * 2 ^ (k - min p q).toNat : ℕ) : ℝ) * 2 ^ min p q = n * 2 ^ k := by
    push_cast
    rw [← zpow_natCast, Int.toNat_of_nonneg (by omega), mul_assoc, ← zpow_add₀ two_ne_zero, sub_add_cancel]
  have hval : (t : ℝ) * 2 ^ min p q = a * 2 ^ p - c * 2 ^ q := by
    rw [← hmant a p (min_le_left ..), ← hmant c q (min_le_right ..), ht]
    simp only [mantAt, Bool.false_eq_true, if_false, if_true]
    push_cast
    ring
  have hpos : 0 < t := by
    have h2 : (0 : ℝ) < 2 ^ min p q := zpow_pos two_pos _
    have : (0 : ℝ) < t * 2 ^ min p q := by rw [hval]; linarith
    exact_mod_cast (mul_pos_iff_of_pos_right h2).mp this
  have hsum : sumNum [.fin false a p, .fin true c q] = .fin (decide (t < 0)) t.natAbs (min p q) := by
    simp [sumNum, Num.isNan, minExp, ha, hc, ht]
  refine ⟨t.natAbs, min p q, ?_, by omega, ?_⟩
  · rw [hsum, decide_eq_false (by omega)]
  · rw [← hval, Nat.cast_natAbs, abs_of_pos hpos]

/-! ### Bounds of the real function -/

/-- The cube of a small number is far below the number. -/
theorem cube_small {x : ℝ} (h0 : 0 ≤ x) (h1 : x < 1 / 2 ^ 30) : x ^ 3 ≤ x / 2 ^ 60 := by
  have hsq : x ^ 2 ≤ 1 / 2 ^ 60 := by
    norm_num at h1 ⊢
    nlinarith
  calc x ^ 3 = x * x ^ 2 := pow_succ' x 2
    _ ≤ x * (1 / 2 ^ 60) := mul_le_mul_of_nonneg_left hsq h0
    _ = x / 2 ^ 60 := mul_one_div _ _

theorem tanh_eq_exp (x : ℝ) : Real.tanh x = 1 - 2 / (Real.exp (2 * x) + 1) := by
  have hx := Real.exp_pos x
  have h2 : Real.exp (2 * x) = Real.exp x * Real.exp x := by rw [← Real.exp_add, two_mul]
  rw [Real.tanh_eq_sinh_div_cosh, Real.sinh_eq, Real.cosh_eq, h2, Real.exp_neg]
  field_simp
  ring

theorem tanh_le_self {x : ℝ} (h0 : 0 ≤ x) (h1 : x < 1) : Real.tanh x ≤ x := by
  have hlog := Real.sum_range_le_log_div h0 h1 1
  have hpos : 0 < (1 + x) / (1 - x) := div_pos (by linarith) (by linarith)
  have hE : Real.exp (2 * x) ≤ (1 + x) / (1 - x) := by
    rw [← Real.le_log_iff_exp_le hpos]
    simp at hlog
    linarith
  have hd : 0 < 1 - x := by linarith
  have hEpos := Real.exp_pos (2 * x)
  rw [tanh_eq_exp, sub_le_comm, le_div_iff₀ (by linarith)]
  rw [le_div_iff₀ hd] at hE
  linarith

theorem sub_cube_le_tanh {x : ℝ} (h0 : 0 ≤ x) : x - x ^ 3 / 2 ≤ Real.tanh x := by
  have hc := Real.cosh_le_exp_half_sq x
  have hcpos := Real.cosh_pos x
  have hs := Real.self_le_sinh_iff.mpr h0
  rw [Real.tanh_eq_sinh_div_cosh]
  calc x - x ^ 3 / 2 = x * (1 - x ^ 2 / 2) := by ring
    _ ≤ x * Real.exp (-(x ^ 2 / 2)) := mul_le_mul_of_nonneg_left (by linarith [Real.add_one_le_exp (-(x ^ 2 / 2))]) h0
    _ = x / Real.exp (x ^ 2 / 2) := by rw [Real.exp_neg, ← div_eq_mul_inv]
    _ ≤ Real.sinh x / Real.cosh x := div_le_div₀ (h0.trans hs) hs hcpos hc

theorem tanh_below_one (x : ℝ) : Real.tanh x < 1 := by
  rw [tanh_eq_exp]
  have : 0 < 2 / (Real.exp (2 * x) + 1) := div_pos two_pos (by linarith [Real.exp_pos (2 * x)])
  linarith

/-- From an exponential on, the hyperbolic tangent. -/
theorem le_tanh_of_exp {x δ : ℝ} (h : 2 / (Real.exp (2 * x) + 1) ≤ δ) : 1 - δ ≤ Real.tanh x := by
  rw [tanh_eq_exp]
  linarith

/-! ### The fixed-point exponential of a larger operand -/

theorem exp_le_one_add_two_mul {η : ℝ} (h0 : 0 ≤ η) (h1 : η ≤ 1 / 2) : Real.exp η ≤ 1 + 2 * η := by
  have hneg := Real.add_one_le_exp (-η)
  have hinv : Real.exp η * Real.exp (-η) = 1 := by rw [← Real.exp_add, add_neg_cancel, Real.exp_zero]
  have hpos := Real.exp_pos η
  nlinarith

/-- A larger operand in whole multiples of ln 2 and a rest. -/
theorem ln2_division {y : ℕ} {x : ℝ} (hy : (y : ℝ) = 2 * x * units) (hx : x ≤ 128) :
    y % ln2Fix ≤ fxOne ∧ ((y / ln2Fix : ℕ) : ℝ) ≤ 512 ∧ (y : ℝ) = ln2Fix * (y / ln2Fix : ℕ) + (y % ln2Fix : ℕ) := by
  have hU := units_pos
  have h20 : (2 : ℝ) ^ 20 ≤ units := pow_le_pow_right₀ one_le_two (by norm_num)
  obtain ⟨hl, hl'⟩ := ln2Fix_bounds
  have hd := Real.log_two_gt_d9
  have hd' := Real.log_two_lt_d9
  have hLr : units / 2 ≤ ln2Fix := by nlinarith
  have hL : 0 < ln2Fix := by
    have : (0 : ℝ) < ln2Fix := by linarith
    exact_mod_cast this
  have hLe : ln2Fix ≤ fxOne := by
    have : (ln2Fix : ℝ) ≤ fxOne := by rw [fxOne_cast]; nlinarith
    exact_mod_cast this
  have hdecomp : (y : ℝ) = ln2Fix * (y / ln2Fix : ℕ) + (y % ln2Fix : ℕ) := by exact_mod_cast (Nat.div_add_mod y ln2Fix).symm
  have hr0 : (0 : ℝ) ≤ (y % ln2Fix : ℕ) := Nat.cast_nonneg _
  refine ⟨(Nat.mod_lt y hL).le.trans hLe, ?_, hdecomp⟩
  have h1 : units / 2 * (y / ln2Fix : ℕ) ≤ ln2Fix * (y / ln2Fix : ℕ) := mul_le_mul_of_nonneg_right hLr (Nat.cast_nonneg _)
  have h2 : 2 * x * units ≤ 256 * units := mul_le_mul_of_nonneg_right (by linarith) hU.le
  refine le_of_mul_le_mul_left (a := units / 2) ?_ (by linarith)
  linarith

/-- e to the power of 2x, in units, within 2^21 of them for each unit. -/
theorem exp_split_error {y : ℕ} {x : ℝ} (hy : (y : ℝ) = 2 * x * units) (hx : x ≤ 128) :
    |((expFix (y % ln2Fix) * 2 ^ (y / ln2Fix) : ℕ) : ℝ) - Real.exp (2 * x) * units| ≤ 2 ^ 21 * Real.exp (2 * x) := by
  have hU := units_pos
  have hbig : (2 : ℝ) ^ 20 ≤ units := pow_le_pow_right₀ one_le_two (by norm_num)
  obtain ⟨hl, hl'⟩ := ln2Fix_bounds
  obtain ⟨hr, hq512, hdecomp⟩ := ln2_division hy hx
  obtain ⟨he, he'⟩ := expFix_bounds hr
  generalize y % ln2Fix = r at *
  generalize y / ln2Fix = q at *
  have hr0 : (0 : ℝ) ≤ r := Nat.cast_nonneg _
  have hq0 : (0 : ℝ) ≤ q := Nat.cast_nonneg _
  obtain ⟨η, hη⟩ : ∃ η : ℝ, η = q * (Real.log 2 * units - ln2Fix) / units := ⟨_, rfl⟩
  have hη0 : 0 ≤ η := by rw [hη]; exact div_nonneg (mul_nonneg hq0 (by linarith)) hU.le
  have hη1 : η * units ≤ 460800 := by
    rw [hη, div_mul_cancel₀ _ hU.ne']
    calc (q : ℝ) * (Real.log 2 * units - ln2Fix) ≤ 512 * 900 := mul_le_mul hq512 (by linarith) (by linarith) (by norm_num)
      _ = 460800 := by norm_num
  have hηs : η ≤ 1 / 2 := by
    rw [← mul_le_mul_iff_left₀ hU]
    linarith
  have hexpη := exp_le_one_add_two_mul hη0 hηs
  have hexpη1 : 1 ≤ Real.exp η := Real.one_le_exp hη0
  have hprod : Real.exp (r / units) * 2 ^ q = Real.exp (2 * x) * Real.exp η := by
    have h2q : (2 : ℝ) ^ q = Real.exp (q * Real.log 2) := by rw [Real.exp_nat_mul, Real.exp_log two_pos]
    rw [h2q, ← Real.exp_add, ← Real.exp_add, hη]
    congr 1
    have : 2 * x = (ln2Fix * q + r) / units := by rw [← hdecomp, hy, mul_div_cancel_right₀ _ hU.ne']
    rw [this]
    field_simp
    ring
  have hE := Real.exp_pos (2 * x)
  have h2q : (0 : ℝ) < 2 ^ q := by positivity
  have h2qE : (2 : ℝ) ^ q ≤ 2 * Real.exp (2 * x) := by
    have h1 : (1 : ℝ) ≤ Real.exp (r / units) := Real.one_le_exp (div_nonneg hr0 hU.le)
    calc (2 : ℝ) ^ q ≤ Real.exp (r / units) * 2 ^ q := le_mul_of_one_le_left h2q.le h1
      _ = Real.exp (2 * x) * Real.exp η := hprod
      _ ≤ Real.exp (2 * x) * 2 := mul_le_mul_of_nonneg_left (by linarith) hE.le
      _ = 2 * Real.exp (2 * x) := mul_comm _ _
  have hup := mul_le_mul_of_nonneg_right he h2q.le
  have hdown := mul_le_mul_of_nonneg_right he' h2q.le
  have e1 : Real.exp (r / units) * units * 2 ^ q = Real.exp (2 * x) * Real.exp η * units := by rw [← hprod]; ring
  have hcap : Real.exp (2 * x) * Real.exp η * units ≤ Real.exp (2 * x) * units + 921600 * Real.exp (2 * x) := by
    calc Real.exp (2 * x) * Real.exp η * units ≤ Real.exp (2 * x) * (1 + 2 * η) * units := by gcongr
      _ = Real.exp (2 * x) * units + 2 * (η * units) * Real.exp (2 * x) := by ring
      _ ≤ Real.exp (2 * x) * units + 2 * 460800 * Real.exp (2 * x) := by gcongr
      _ = Real.exp (2 * x) * units + 921600 * Real.exp (2 * x) := by ring
  have hfloor : Real.exp (2 * x) * units ≤ Real.exp (2 * x) * Real.exp η * units := by
    refine mul_le_mul_of_nonneg_right (le_mul_of_one_le_right hE.le hexpη1) hU.le
  rw [e1] at hup
  rw [sub_mul, e1] at hdown
  push_cast
  rw [abs_le]
  constructor <;> linarith

/-- The hyperbolic tangent from the exponential, in units. -/
theorem tanhFix_error {ex : ℕ} {x : ℝ} (hx : (2 : ℝ) ^ (-30 : ℤ) ≤ x)
    (h : |(ex : ℝ) - Real.exp (2 * x) * units| ≤ 2 ^ 21 * Real.exp (2 * x)) :
    |Real.tanh x * units - (fxOne - 2 * fxOne * fxOne / (ex + fxOne) : ℕ)| ≤ 2 ^ 23 ∧ 2 ^ 119 ≤ Real.tanh x * units := by
  have hU := units_pos
  have hbig : (2 : ℝ) ^ 256 = units := rfl
  have hE : 1 + 2 * (2 : ℝ) ^ (-30 : ℤ) ≤ Real.exp (2 * x) := by linarith [Real.add_one_le_exp (2 * x)]
  have htanh : (2 : ℝ) ^ (-31 : ℤ) ≤ Real.tanh x := by
    have := le_tanh_of_exp (x := x) (δ := 1 - 2 ^ (-31 : ℤ)) (by
      rw [div_le_iff₀ (by linarith [Real.exp_pos (2 * x)])]
      norm_num at hE ⊢
      linarith)
    linarith
  have hW : (2 : ℝ) ^ 200 ≤ Real.tanh x * units := by
    refine le_trans ?_ (mul_le_mul_of_nonneg_right htanh hU.le)
    rw [← hbig]
    norm_num
  refine ⟨?_, le_trans (pow_le_pow_right₀ one_le_two (by norm_num)) hW⟩
  rw [tanh_eq_exp] at hW ⊢
  have hEpos := Real.exp_pos (2 * x)
  generalize Real.exp (2 * x) = E at *
  obtain ⟨hq, hq'⟩ := floor_div (2 * fxOne * fxOne) (b := ex + fxOne) (Nat.lt_of_lt_of_le fxOne_pos (Nat.le_add_left ..))
  have hquot : ((2 * fxOne * fxOne : ℕ) : ℝ) / ((ex + fxOne : ℕ) : ℝ) = 2 * units * units / (ex + units) := by
    push_cast
    rw [fxOne_cast]
  rw [hquot] at hq hq'
  have hex : (0 : ℝ) ≤ ex := Nat.cast_nonneg _
  have hdiff : |2 * units * units / (ex + units) - 2 / (E + 1) * units| ≤ 2 ^ 22 := by
    have e : 2 * units * units / (ex + units) - 2 / (E + 1) * units =
        2 * (units / (ex + units)) * ((E * units - ex) / (E + 1)) := by
      have : (ex : ℝ) + units ≠ 0 := by positivity
      field_simp
      ring
    have h1 : units / (ex + units) ≤ 1 := (div_le_one (by linarith)).mpr (by linarith)
    have h2 : |(E * units - ex) / (E + 1)| ≤ 2 ^ 21 := by
      rw [abs_div, abs_of_pos (show 0 < E + 1 by linarith), div_le_iff₀ (by linarith), abs_sub_comm]
      linarith
    rw [e, abs_mul, abs_of_nonneg (by positivity)]
    calc 2 * (units / (ex + units)) * |(E * units - ex) / (E + 1)| ≤ 2 * 1 * 2 ^ 21 :=
          mul_le_mul (by linarith) h2 (abs_nonneg _) (by norm_num)
      _ = 2 ^ 22 := by norm_num
  obtain ⟨hd1, hd2⟩ := abs_le.mp hdiff
  rw [sub_mul, one_mul] at hW ⊢
  have hle : 2 * fxOne * fxOne / (ex + fxOne) ≤ fxOne := by
    have : ((2 * fxOne * fxOne / (ex + fxOne) : ℕ) : ℝ) ≤ fxOne := by
      rw [fxOne_cast]
      linarith
    exact_mod_cast this
  rw [Nat.cast_sub hle, fxOne_cast, abs_le]
  constructor <;> linarith

/-! ### The instruction's value -/

section
variable {ch : ℕ → Bool} {neg : Bool} {m : ℕ} {e : ℤ} {v : ℝ}

/-- TANH of a magnitude of 2^7 and more. -/
theorem near_tanh_large (hf : IsWide f) (hx : (2 : ℝ) ^ (7 : ℤ) ≤ m * 2 ^ e) (hv : |v| = Real.tanh (m * 2 ^ e))
    (hs : v = (if neg then -1 else 1) * |v|) :
    f.near 2 v (pickResult f true ch (.between neg (.fin false (fxOne - fxSlack) (-256)) (.fin false 1 0))) := by
  have hfb : (2 : ℝ) ^ (f.fb + 1) ≤ 2 ^ 53 := pow_le_pow_right₀ one_le_two (fb_lt hf)
  have hE : (2 : ℝ) ^ 256 ≤ Real.exp (2 * (m * 2 ^ e)) := by
    calc (2 : ℝ) ^ 256 ≤ Real.exp 1 ^ 256 := pow_le_pow_left₀ two_pos.le (by linarith [Real.exp_one_gt_d9]) _
      _ = Real.exp 256 := by rw [← Real.exp_nat_mul]; norm_num
      _ ≤ Real.exp (2 * (m * 2 ^ e)) := Real.exp_le_exp.mpr (by norm_num at hx; linarith)
  have hlow := le_tanh_of_exp (x := m * 2 ^ e) (δ := 1 / 2 ^ 192) (by
    rw [div_le_div_iff₀ (by linarith [Real.exp_pos (2 * ((m : ℝ) * 2 ^ e))]) (by positivity)]
    norm_num at hE ⊢
    linarith)
  have hlo : ((fxOne - fxSlack : ℕ) : ℝ) * 2 ^ (-256 : ℤ) = 1 - 1 / 2 ^ 192 := by
    rw [fxOne, fxSlack, Nat.cast_sub (Nat.pow_le_pow_right two_pos (by norm_num))]
    norm_num
  have hne : fxOne - fxSlack ≠ 0 := by decide
  refine near_between_wide hf hne ?_ ?_ ?_ ?_ hs
  · rw [hlo, hv]
    exact hlow
  · rw [hv, Nat.cast_one, one_mul, zpow_zero]
    exact (tanh_below_one _).le
  · norm_num
  · rw [hlo, le_div_iff₀ (by positivity), Nat.cast_one, one_mul, zpow_zero, sub_sub_cancel]
    refine (mul_le_mul_of_nonneg_left hfb (by positivity)).trans ?_
    norm_num

/-- TANH of a magnitude from 2^-30 to 2^7. -/
theorem near_tanh_middle (hf : IsWide f) (he : -83 ≤ e) (hx : (2 : ℝ) ^ (-30 : ℤ) ≤ m * 2 ^ e) (hx7 : (m : ℝ) * 2 ^ e ≤ 128)
    (hv : |v| = Real.tanh (m * 2 ^ e)) (hs : v = (if neg then -1 else 1) * |v|) {y : ℕ} (hy : y = m * 2 ^ (e + 257).toNat) :
    f.near 2 v (pickResult f true ch
      (near neg (fxOne - 2 * fxOne * fxOne / (expFix (y % ln2Fix) * 2 ^ (y / ln2Fix) + fxOne)) fxOne 0)) := by
  have hU := units_pos
  have hbig : (2 : ℝ) ^ 256 = units := rfl
  have hyr : (y : ℝ) = 2 * (m * 2 ^ e) * units := by
    have : (2 : ℝ) ^ (257 : ℤ) = 2 * units := (zpow_ofNat 2 257).trans (pow_succ' 2 256)
    rw [hy]
    push_cast
    rw [← zpow_natCast, Int.toNat_of_nonneg (by omega), zpow_add₀ two_ne_zero, this]
    ring
  obtain ⟨herr, hW⟩ := tanhFix_error hx (exp_split_error hyr hx7)
  rw [near_eq_max]
  generalize fxOne - 2 * fxOne * fxOne / (expFix (y % ln2Fix) * 2 ^ (y / ln2Fix) + fxOne) = t at *
  obtain ⟨hne, hlo, hhi, hw⟩ := slack_enclosure (c := 0) (d := fxOne) (E := 0 - 256) hf (herr.trans (by norm_num))
    (by rw [Nat.cast_zero]; linarith) (by rw [fxOne_cast]; exact mul_le_of_le_one_left hU.le (tanh_below_one _).le) hW
  have hval : Real.tanh (m * 2 ^ e) * units * 2 ^ ((0 : ℤ) - 256) = |v| := by
    rw [hv, mul_assoc, ← hbig]
    norm_num
  rw [hval] at hlo hhi
  refine near_between_wide hf hne hlo hhi ?_ hw hs
  have hmin : ((min (t + fxSlack) fxOne : ℕ) : ℝ) ≤ units := by
    rw [← fxOne_cast]
    exact_mod_cast min_le_right _ _
  refine (mul_le_mul_of_nonneg_right hmin (by positivity)).trans_eq ?_
  rw [← hbig]
  norm_num

/-- TANH of a magnitude below 2^-30. -/
theorem near_tanh_small (hf : IsWide f) (hm : m ≠ 0) (hx : (m : ℝ) * 2 ^ e < 2 ^ (-30 : ℤ)) (hv : |v| = Real.tanh (m * 2 ^ e))
    (hs : v = (if neg then -1 else 1) * |v|) :
    f.near 2 v (pickResult f true ch
      (.between neg (sumNum [.fin false m e, .fin true (m * m * m) (3 * e - 1)]) (.fin false m e))) := by
  have hx0 := mant_pos hm e
  have hfb : (2 : ℝ) ^ (f.fb + 1) ≤ 2 ^ 53 := pow_le_pow_right₀ one_le_two (fb_lt hf)
  have hcube : ((m * m * m : ℕ) : ℝ) * 2 ^ (3 * e - 1) = (m * 2 ^ e) ^ 3 / 2 := by
    rw [zpow_sub_one₀ two_ne_zero, mul_comm 3 e, zpow_mul, mul_pow, zpow_ofNat]
    push_cast
    ring
  have hlow := sub_cube_le_tanh hx0.le
  have hhigh := tanh_le_self hx0.le (hx.trans (by norm_num))
  norm_num at hx
  have hcu := cube_small hx0.le (by norm_num; exact hx)
  obtain ⟨n, g, hn, hn0, hnv⟩ := sumNum_difference (p := e) (q := 3 * e - 1) hm (c := m * m * m) (by positivity) (by
    rw [hcube]
    norm_num at hcu
    linarith)
  rw [hcube] at hnv
  rw [hn]
  refine near_between_wide hf hn0 ?_ ?_ ?_ ?_ hs
  · rw [hnv, hv]
    exact hlow
  · rw [hv]
    exact hhigh
  · linarith
  · rw [hnv, sub_sub_cancel, le_div_iff₀ (by positivity)]
    have h3 : 0 ≤ ((m : ℝ) * 2 ^ e) ^ 3 / 2 := by positivity
    refine (mul_le_mul_of_nonneg_left hfb h3).trans ?_
    norm_num at hcu ⊢
    linarith

/-- TANH of a magnitude. -/
theorem near_tanhEncl (hf : IsWide f) (hm : m ≠ 0) (h53 : m < 2 ^ 53) (hv : |v| = Real.tanh (m * 2 ^ e))
    (hs : v = (if neg then -1 else 1) * |v|) : f.near 2 v (pickResult f true ch (tanhEncl neg m e)) := by
  rw [tanhEncl]
  by_cases hsmall : atLeast m e (-30) = true
  · rw [if_neg (by rw [hsmall]; exact Bool.false_ne_true)]
    by_cases hlarge : atLeast m e 7 = true
    · rw [if_pos hlarge]
      exact near_tanh_large hf ((atLeast_of_value hm).mp hlarge) hv hs
    · rw [if_neg hlarge]
      have hx7 : (m : ℝ) * 2 ^ e ≤ 128 := by
        have := mt (atLeast_of_value (k := 7) hm).mpr hlarge
        norm_num at this
        exact this.le
      have he : -83 ≤ e := by
        have hk : Nat.log2 m < 53 := (Nat.log2_lt hm).mpr h53
        have := of_decide_eq_true hsmall
        omega
      exact near_tanh_middle hf he ((atLeast_of_value hm).mp hsmall) hx7 hv hs rfl
  · rw [if_pos (by rw [Bool.not_eq_true] at hsmall; rw [hsmall]; rfl)]
    exact near_tanh_small hf hm (not_le.mp (mt (atLeast_of_value hm).mpr hsmall)) hv hs

end

theorem near_tanh (hf : IsWide f) (k : ℕ) {neg : Bool} {m : ℕ} (hm : m ≠ 0) (h53 : m < 2 ^ 53) (e : ℤ) :
    f.near 2 (Real.tanh (realOf (.fin neg m e))) (tfnEval .tanh f k (.fin neg m e)) := by
  obtain ⟨ch, hch⟩ := tfnEval_of_encl (f := f) k (tfnEncl_nonzero (neg := neg) hm e).2.2.2.2
  have hpos : 0 < Real.tanh (m * 2 ^ e) := by
    rw [tanh_eq_exp, sub_pos, div_lt_one (by linarith [Real.exp_pos (2 * ((m : ℝ) * 2 ^ e))])]
    linarith [Real.one_lt_exp_iff.mpr (show 0 < 2 * ((m : ℝ) * 2 ^ e) by linarith [mant_pos hm e])]
  rw [hch]
  refine near_tanhEncl hf hm h53 ?_ ?_
  · cases neg
    · rw [realOf_pos, abs_of_pos hpos]
    · rw [realOf_neg, Real.tanh_neg, abs_neg, abs_of_pos hpos]
  · cases neg
    · rw [realOf_pos, abs_of_pos hpos, if_neg Bool.false_ne_true, one_mul]
    · rw [realOf_neg, Real.tanh_neg, abs_neg, abs_of_pos hpos, if_pos rfl, neg_one_mul]

end Sys2Proof.Laws
end

section
/-! ## The alternating series: the number π, sines and cosines -/

namespace Sys2Proof.Laws
open Sys2Proof Sys2Proof.Machine

/-- A difference that is cut at zero is no further from a number that is not negative. -/
theorem natSub_error (a b : ℕ) {c : ℝ} (hc : 0 ≤ c) : |((a - b : ℕ) : ℝ) - c| ≤ |(a : ℝ) - b - c| := by
  rcases le_total b a with h | h
  · rw [Nat.cast_sub h]
  · have hr : (a : ℝ) ≤ b := by exact_mod_cast h
    rw [Nat.sub_eq_zero_of_le h, Nat.cast_zero, zero_sub, abs_neg, abs_of_nonneg hc, abs_of_nonpos (by linarith)]
    linarith

/-- A partial sum of an alternating series is off by the next term at most. -/
theorem alternating_error {F : ℕ → ℝ} {l : ℝ} (hl : HasSum (fun n => (-1) ^ n * F n) l) (hF : Antitone F) (n : ℕ) :
    |l - ∑ j ∈ Finset.range n, (-1) ^ j * F j| ≤ F n := by
  have ht := hl.tendsto_sum_nat
  obtain ⟨k, rfl | rfl⟩ := Nat.even_or_odd' n
  · have h1 := hF.alternating_series_le_tendsto ht k
    have h2 := hF.tendsto_le_alternating_series ht k
    rw [Finset.sum_range_succ, Even.neg_one_pow (even_two_mul k), one_mul] at h2
    rw [abs_le]
    constructor <;> linarith
  · have h1 := hF.alternating_series_le_tendsto ht (k + 1)
    have h2 := hF.tendsto_le_alternating_series ht k
    rw [show 2 * (k + 1) = 2 * k + 1 + 1 by ring, Finset.sum_range_succ, Odd.neg_one_pow (odd_two_mul_add_one k), neg_one_mul] at h1
    rw [abs_le]
    constructor <;> linarith

/-! ### Arctangents of reciprocals, and π (R115) -/

/-- The alternating sum that the model adds up, without its roundings. -/
noncomputable def atanSum (n2 : ℕ) (τ : ℝ) (k i : ℕ) : ℝ := ∑ j ∈ Finset.range k, (-1) ^ j * (τ / n2 ^ j / (2 * (i + j) + 1))

theorem atanSum_succ (n2 : ℕ) (τ : ℝ) (k i : ℕ) : atanSum n2 τ (k + 1) i = τ / (2 * i + 1) - atanSum n2 (τ / n2) k (i + 1) := by
  rw [atanSum, atanSum, Finset.sum_range_succ', add_comm, sub_eq_add_neg, ← Finset.sum_neg_distrib]
  congr 1
  · simp
  · refine Finset.sum_congr rfl fun j _ => ?_
    have hdiv : τ / (n2 : ℝ) ^ (j + 1) = τ / n2 / n2 ^ j := by rw [div_div, pow_succ']
    rw [hdiv, pow_succ]
    push_cast
    ring

theorem atanGo_le (n2 k i p : ℕ) : atanGo n2 k i p ≤ p / (2 * i + 1) := by
  cases k with
  | zero => exact Nat.zero_le _
  | succ k => exact Nat.sub_le _ _

/-- A whole part divided by a number. -/
theorem whole_div {p d : ℕ} {τ : ℝ} (hd : 0 < d) (h : (p : ℝ) ≤ τ) (h' : τ < p + 1) :
    ((p / d : ℕ) : ℝ) ≤ τ / d ∧ τ / d < (p / d : ℕ) + 1 := by
  have hdr : (0 : ℝ) < d := by exact_mod_cast hd
  constructor
  · exact (floor_div p hd).1.trans (div_le_div_of_nonneg_right h hdr.le)
  · rw [div_lt_iff₀ hdr]
    refine h'.trans_le ?_
    exact_mod_cast Nat.lt_mul_of_div_lt (Nat.lt_succ_self (p / d)) hd

theorem atanGo_error {n2 : ℕ} (hn : 0 < n2) (k i p : ℕ) {τ : ℝ} (h : (p : ℝ) ≤ τ) (h' : τ < p + 1) :
    |(atanGo n2 k i p : ℝ) - atanSum n2 τ k i| ≤ k := by
  induction k generalizing i p τ with
  | zero => simp [atanGo, atanSum]
  | succ k ih =>
    obtain ⟨hp, hp'⟩ := whole_div hn h h'
    obtain ⟨ht, ht'⟩ := whole_div (Nat.succ_pos (2 * i)) h h'
    have hrec := abs_le.mp (ih (i + 1) _ hp hp')
    have hle : atanGo n2 k (i + 1) (p / n2) ≤ p / (2 * i + 1) := by
      calc atanGo n2 k (i + 1) (p / n2) ≤ p / n2 / (2 * (i + 1) + 1) := atanGo_le ..
        _ ≤ p / (2 * (i + 1) + 1) := Nat.div_le_div_right (Nat.div_le_self ..)
        _ ≤ p / (2 * i + 1) := Nat.div_le_div_left (by omega) (by omega)
    have hcast : (((2 * i).succ : ℕ) : ℝ) = 2 * i + 1 := by push_cast; ring
    rw [hcast] at ht ht'
    rw [atanGo, Nat.cast_sub hle, atanSum_succ]
    simp only [Nat.succ_eq_add_one] at ht ht'
    push_cast
    rw [abs_le]
    constructor <;> linarith

/-- The arctangent of a reciprocal in units of 2^-P. -/
theorem atan_inv_error {n P k : ℕ} (hn : 4 ≤ n) (hk : P ≤ 4 * k) :
    |(atanGo (n * n) k 0 (2 ^ P / n) : ℝ) - Real.arctan (n : ℝ)⁻¹ * 2 ^ P| ≤ k + 1 := by
  have hnr : (4 : ℝ) ≤ n := by exact_mod_cast hn
  have hn0 : (0 : ℝ) < n := by linarith
  have hx0 : 0 < (n : ℝ)⁻¹ := inv_pos.mpr hn0
  have hx1 : (n : ℝ)⁻¹ < 1 := inv_lt_one_of_one_lt₀ (by linarith)
  obtain ⟨h, h'⟩ := floor_div (2 ^ P) (b := n) (by omega)
  push_cast at h h'
  have herr := atanGo_error (n2 := n * n) (by positivity) k 0 (2 ^ P / n) h (by linarith)
  have hsum : atanSum (n * n) (2 ^ P / n) k 0 =
      (∑ j ∈ Finset.range k, (-1) ^ j * ((n : ℝ)⁻¹ ^ (2 * j + 1) / ((2 * j + 1 : ℕ) : ℝ))) * 2 ^ P := by
    rw [atanSum, Finset.sum_mul]
    refine Finset.sum_congr rfl fun j _ => ?_
    have : ((n * n : ℕ) : ℝ) ^ j = n ^ (2 * j) := by rw [Nat.cast_mul, ← pow_two, ← pow_mul]
    rw [this, inv_pow, pow_succ]
    push_cast
    field_simp
    ring
  have hseries : HasSum (fun j : ℕ => (-1 : ℝ) ^ j * ((n : ℝ)⁻¹ ^ (2 * j + 1) / ((2 * j + 1 : ℕ) : ℝ))) (Real.arctan (n : ℝ)⁻¹) := by
    have := Real.hasSum_arctan (x := (n : ℝ)⁻¹) (by rwa [Real.norm_of_nonneg hx0.le])
    simpa only [mul_div_assoc] using this
  have hanti : Antitone (fun j : ℕ => (n : ℝ)⁻¹ ^ (2 * j + 1) / ((2 * j + 1 : ℕ) : ℝ)) := antitone_nat_of_succ_le fun j => by
    refine div_le_div₀ (by positivity) (pow_le_pow_of_le_one hx0.le hx1.le (by omega)) (by positivity) ?_
    exact_mod_cast (by omega : 2 * j + 1 ≤ 2 * (j + 1) + 1)
  have hrem := alternating_error hseries hanti k
  have hnext : (n : ℝ)⁻¹ ^ (2 * k + 1) / ((2 * k + 1 : ℕ) : ℝ) * 2 ^ P ≤ 1 := by
    have h1 : (n : ℝ)⁻¹ ^ (2 * k + 1) / ((2 * k + 1 : ℕ) : ℝ) ≤ (n : ℝ)⁻¹ ^ (2 * k) := by
      refine (div_le_self (by positivity) (by exact_mod_cast Nat.succ_le_succ (Nat.zero_le _))).trans ?_
      exact pow_le_pow_of_le_one hx0.le hx1.le (Nat.le_succ _)
    have h2 : (2 : ℝ) ^ P ≤ n ^ (2 * k) := by
      calc (2 : ℝ) ^ P ≤ 2 ^ (2 * (2 * k)) := pow_le_pow_right₀ one_le_two (by omega)
        _ = 4 ^ (2 * k) := by rw [pow_mul]; norm_num
        _ ≤ n ^ (2 * k) := pow_le_pow_left₀ (by norm_num) hnr _
    calc (n : ℝ)⁻¹ ^ (2 * k + 1) / ((2 * k + 1 : ℕ) : ℝ) * 2 ^ P ≤ (n : ℝ)⁻¹ ^ (2 * k) * n ^ (2 * k) :=
          mul_le_mul h1 h2 (by positivity) (by positivity)
      _ = 1 := by rw [← mul_pow, inv_mul_cancel₀ hn0.ne', one_pow]
  rw [hsum] at herr
  generalize ∑ j ∈ Finset.range k, (-1) ^ j * ((n : ℝ)⁻¹ ^ (2 * j + 1) / ((2 * j + 1 : ℕ) : ℝ)) = S at *
  have hp : (0 : ℝ) < 2 ^ P := by positivity
  have hrem' : |Real.arctan (n : ℝ)⁻¹ * 2 ^ P - S * 2 ^ P| ≤ 1 := by
    rw [← sub_mul, abs_mul, abs_of_pos hp]
    exact (mul_le_mul_of_nonneg_right hrem hp.le).trans hnext
  obtain ⟨a1, a2⟩ := abs_le.mp herr
  obtain ⟨b1, b2⟩ := abs_le.mp hrem'
  rw [abs_le]
  constructor <;> linarith

/-- Machin's formula in fixed point. -/
theorem piFix_error (P : ℕ) : |(piFix P : ℝ) - Real.pi * 2 ^ P| ≤ 5 * P + 100 := by
  have hk : P ≤ 4 * (P / 4 + 4) := by omega
  have h5 : |(atanGo 25 (P / 4 + 4) 0 (2 ^ P / 5) : ℝ) - Real.arctan 5⁻¹ * 2 ^ P| ≤ (P / 4 + 4 : ℕ) + 1 := by
    exact_mod_cast atan_inv_error (n := 5) (by norm_num) hk
  have h239 : |(atanGo 57121 (P / 4 + 4) 0 (2 ^ P / 239) : ℝ) - Real.arctan 239⁻¹ * 2 ^ P| ≤ (P / 4 + 4 : ℕ) + 1 := by
    exact_mod_cast atan_inv_error (n := 239) (by norm_num) hk
  have hmachin := Real.four_mul_arctan_inv_5_sub_arctan_inv_239
  have hk' : ((P / 4 + 4 : ℕ) : ℝ) ≤ P / 4 + 4 := by
    have := Nat.cast_div_le (α := ℝ) (m := P) (n := 4)
    push_cast at this ⊢
    linarith
  have hpi : Real.pi * 2 ^ P = 16 * (Real.arctan 5⁻¹ * 2 ^ P) - 4 * (Real.arctan 239⁻¹ * 2 ^ P) := by
    have : Real.pi = 16 * Real.arctan 5⁻¹ - 4 * Real.arctan 239⁻¹ := by linarith
    rw [this]
    ring
  refine (natSub_error _ _ (by positivity)).trans ?_
  obtain ⟨a1, a2⟩ := abs_le.mp h5
  obtain ⟨b1, b2⟩ := abs_le.mp h239
  rw [hpi, abs_le, Nat.cast_mul, Nat.cast_mul]
  push_cast at a1 a2 b1 b2 hk' ⊢
  constructor <;> linarith

/-! ### Sines and cosines of a reduced operand -/

/-- A term of the series of the exponential function, whose alternating halves are the sine and the cosine. -/
noncomputable def expTerm (ρ : ℝ) (k : ℕ) : ℝ := ρ ^ k / k.factorial

/-- Every second term from the k-th on, with alternating signs. -/
noncomputable def trigSum (ρ : ℝ) (n k : ℕ) : ℝ := ∑ j ∈ Finset.range n, (-1) ^ j * expTerm ρ (k + 2 * j)

theorem trigSum_succ (ρ : ℝ) (n k : ℕ) : trigSum ρ (n + 1) k = expTerm ρ k - trigSum ρ n (k + 2) := by
  rw [trigSum, trigSum, Finset.sum_range_succ', add_comm, sub_eq_add_neg, ← Finset.sum_neg_distrib]
  congr 1
  · simp
  · refine Finset.sum_congr rfl fun j _ => ?_
    rw [pow_succ, show k + 2 * (j + 1) = k + 2 + 2 * j by ring]
    ring

theorem expTerm_add_two (ρ : ℝ) (k : ℕ) : expTerm ρ (k + 2) = expTerm ρ k * ρ ^ 2 / ((k + 1) * (k + 2)) := by
  rw [expTerm, expTerm, Nat.factorial_succ, Nat.factorial_succ, pow_add]
  push_cast
  field_simp
  ring

section
variable {ρ : ℝ} (h0 : 0 ≤ ρ) (h3 : ρ ^ 2 ≤ 3)
include h0

theorem expTerm_nonneg (k : ℕ) : 0 ≤ expTerm ρ k := div_nonneg (pow_nonneg h0 k) (Nat.cast_nonneg _)

include h3

theorem expTerm_add_two_le {k : ℕ} (hk : 1 ≤ k) : expTerm ρ (k + 2) ≤ expTerm ρ k := by
  have hkr : (1 : ℝ) ≤ k := by exact_mod_cast hk
  have hnn := expTerm_nonneg h0 k
  rw [expTerm_add_two, div_le_iff₀ (by positivity)]
  refine mul_le_mul_of_nonneg_left ?_ hnn
  nlinarith

theorem trigSum_bounds {k : ℕ} (hk : 1 ≤ k) (n : ℕ) : 0 ≤ trigSum ρ n k ∧ trigSum ρ n k ≤ expTerm ρ k := by
  induction n generalizing k with
  | zero =>
    rw [trigSum, Finset.sum_range_zero]
    exact ⟨le_rfl, expTerm_nonneg h0 k⟩
  | succ n ih =>
    obtain ⟨hlo, hhi⟩ := ih (k := k + 2) (by omega)
    have := expTerm_add_two_le h0 h3 hk
    rw [trigSum_succ]
    constructor <;> linarith

/-- One step of the model's sum: the next term keeps within six units. -/
theorem trig_term_step {r2 t k : ℕ} (hk : 1 ≤ k) (hr : |(r2 : ℝ) - ρ ^ 2 * units| ≤ 1) (hterm : expTerm ρ k ≤ 2)
    (ht : |(t : ℝ) - expTerm ρ k * units| ≤ 6) :
    |((t * r2 / fxOne / ((k + 1) * (k + 2)) : ℕ) : ℝ) - expTerm ρ (k + 2) * units| ≤ 6 := by
  have hU := units_pos
  have hbig : (1 : ℝ) ≤ units := one_le_pow₀ one_le_two
  have hnn := expTerm_nonneg h0 k
  have hkr : (1 : ℝ) ≤ k := by exact_mod_cast hk
  have hK : (6 : ℝ) ≤ (k + 1) * (k + 2) := by nlinarith
  obtain ⟨hq, hq'⟩ := floor_div (t * r2) (b := fxOne * ((k + 1) * (k + 2))) (Nat.mul_pos fxOne_pos (by positivity))
  have hquot : ((t * r2 : ℕ) : ℝ) / ((fxOne * ((k + 1) * (k + 2)) : ℕ) : ℝ) = t * (r2 / units) / ((k + 1) * (k + 2)) := by
    push_cast
    rw [fxOne_cast]
    field_simp
  rw [hquot] at hq hq'
  have hr2 : (r2 : ℝ) / units ≤ 4 := by
    rw [div_le_iff₀ hU]
    have := (abs_le.mp hr).2
    have := mul_le_mul_of_nonneg_right h3 hU.le
    linarith
  have hr2n : 0 ≤ (r2 : ℝ) / units := div_nonneg (Nat.cast_nonneg _) hU.le
  have hprod : |(t : ℝ) * (r2 / units) - expTerm ρ k * ρ ^ 2 * units| ≤ 26 := by
    have e : (t : ℝ) * (r2 / units) - expTerm ρ k * ρ ^ 2 * units =
        (t - expTerm ρ k * units) * (r2 / units) + expTerm ρ k * (r2 - ρ ^ 2 * units) := by
      have := hU.ne'
      field_simp
      ring
    rw [e]
    refine (abs_add_le _ _).trans ?_
    rw [abs_mul, abs_mul, abs_of_nonneg hr2n, abs_of_nonneg hnn]
    have h1 := mul_le_mul ht hr2 hr2n (by norm_num)
    have h2 := mul_le_mul hterm hr (abs_nonneg _) (by norm_num)
    linarith
  have hdiv : |(t : ℝ) * (r2 / units) / ((k + 1) * (k + 2)) - expTerm ρ (k + 2) * units| ≤ 26 / 6 := by
    have e : (t : ℝ) * (r2 / units) / ((k + 1) * (k + 2)) - expTerm ρ (k + 2) * units =
        (t * (r2 / units) - expTerm ρ k * ρ ^ 2 * units) / ((k + 1) * (k + 2)) := by
      rw [expTerm_add_two]
      ring
    rw [e, abs_div, abs_of_pos (show (0 : ℝ) < (k + 1) * (k + 2) by linarith)]
    exact div_le_div₀ (by norm_num) hprod (by norm_num) hK
  obtain ⟨a1, a2⟩ := abs_le.mp hdiv
  rw [Nat.div_div_eq_div_mul, abs_le]
  constructor <;> linarith

theorem trigGo_error {r2 : ℕ} (hr : |(r2 : ℝ) - ρ ^ 2 * units| ≤ 1) (n : ℕ) {k t : ℕ} (hk : 1 ≤ k) (hterm : expTerm ρ k ≤ 2)
    (ht : |(t : ℝ) - expTerm ρ k * units| ≤ 6) : |(trigGo r2 n k t : ℝ) - trigSum ρ n k * units| ≤ 6 * n := by
  induction n generalizing k t with
  | zero => simp [trigGo, trigSum]
  | succ n ih =>
    have hstep := trig_term_step h0 h3 hk hr hterm ht
    have hrec := ih (k := k + 2) (by omega) ((expTerm_add_two_le h0 h3 hk).trans hterm) hstep
    have hnn : 0 ≤ trigSum ρ (n + 1) k * units := mul_nonneg (trigSum_bounds h0 h3 hk _).1 units_pos.le
    rw [trigGo]
    refine (natSub_error _ _ hnn).trans ?_
    rw [trigSum_succ, sub_mul]
    obtain ⟨a1, a2⟩ := abs_le.mp ht
    obtain ⟨b1, b2⟩ := abs_le.mp hrec
    push_cast
    rw [abs_le]
    constructor <;> linarith

/-- The tail of the series is far below a unit. -/
theorem expTerm_tail {k : ℕ} (hk : 80 ≤ k) (hk' : k ≤ 82) : expTerm ρ k * units ≤ 1 := by
  have hρ : ρ ≤ 2 := by nlinarith
  have hp : ρ ^ k ≤ 2 ^ 82 := (pow_le_pow_left₀ h0 hρ k).trans (pow_le_pow_right₀ one_le_two hk')
  have hf : (Nat.factorial 80 : ℝ) ≤ k.factorial := by exact_mod_cast Nat.factorial_le hk
  have hb : (2 : ℝ) ^ 82 / Nat.factorial 80 * units ≤ 1 := by
    rw [units]
    norm_num [Nat.factorial]
  refine le_trans (mul_le_mul_of_nonneg_right ?_ units_pos.le) hb
  exact div_le_div₀ (by positivity) hp (by positivity) hf

theorem trigSum_sin : |Real.sin ρ - trigSum ρ 40 1| * units ≤ 1 := by
  have hs : HasSum (fun j : ℕ => (-1) ^ j * expTerm ρ (1 + 2 * j)) (Real.sin ρ) := by
    simpa only [expTerm, mul_div_assoc, Nat.add_comm 1] using Real.hasSum_sin ρ
  have hanti : Antitone (fun j : ℕ => expTerm ρ (1 + 2 * j)) :=
    antitone_nat_of_succ_le fun j => expTerm_add_two_le h0 h3 (k := 1 + 2 * j) (by omega)
  exact (mul_le_mul_of_nonneg_right (alternating_error hs hanti 40) units_pos.le).trans (expTerm_tail h0 h3 (by norm_num) (by norm_num))

theorem trigSum_cos : |Real.cos ρ - (1 - trigSum ρ 39 2)| * units ≤ 1 := by
  have hc : HasSum (fun j : ℕ => (-1) ^ j * expTerm ρ (2 + 2 * j)) (1 - Real.cos ρ) := by
    have h := ((hasSum_nat_add_iff' 1).mpr (Real.hasSum_cos ρ)).neg
    have e : -(Real.cos ρ - ∑ i ∈ Finset.range 1, (-1) ^ i * ρ ^ (2 * i) / ((2 * i).factorial : ℝ)) = 1 - Real.cos ρ := by simp
    rw [e] at h
    refine (congrArg (fun F : ℕ → ℝ => HasSum F (1 - Real.cos ρ)) (funext fun j => ?_)).mpr h
    rw [expTerm, show 2 + 2 * j = 2 * (j + 1) by ring, pow_succ (-1)]
    ring
  have hanti : Antitone (fun j : ℕ => expTerm ρ (2 + 2 * j)) :=
    antitone_nat_of_succ_le fun j => expTerm_add_two_le h0 h3 (k := 2 + 2 * j) (by omega)
  have e : Real.cos ρ - (1 - trigSum ρ 39 2) = -(1 - Real.cos ρ - trigSum ρ 39 2) := by ring
  rw [e, abs_neg]
  exact (mul_le_mul_of_nonneg_right (alternating_error hc hanti 39) units_pos.le).trans (expTerm_tail h0 h3 (by norm_num) (by norm_num))

end

/-- The square of a reduced operand, in units. -/
theorem square_error {r : ℕ} {ρ : ℝ} (hρ : (r : ℝ) = ρ * units) : |((r * r / fxOne : ℕ) : ℝ) - ρ ^ 2 * units| ≤ 1 := by
  obtain ⟨hq, hq'⟩ := floor_div (r * r) fxOne_pos
  have e : ((r * r : ℕ) : ℝ) / fxOne = ρ ^ 2 * units := by
    rw [Nat.cast_mul, hρ, fxOne_cast]
    have := units_pos.ne'
    field_simp
  rw [e] at hq hq'
  rw [abs_le]
  constructor <;> linarith

theorem sinFix_error {r : ℕ} {ρ : ℝ} (hρ : (r : ℝ) = ρ * units) (h0 : 0 ≤ ρ) (h3 : ρ ^ 2 ≤ 3) :
    |(sinFix r : ℝ) - Real.sin ρ * units| ≤ 300 := by
  have hterm : expTerm ρ 1 = ρ := by simp [expTerm]
  have h := trigGo_error h0 h3 (square_error hρ) 40 (k := 1) (t := r) le_rfl (by rw [hterm]; nlinarith)
    (by rw [hterm, hρ, sub_self, abs_zero]; norm_num)
  have hs := trigSum_sin h0 h3
  rw [← abs_of_pos units_pos, ← abs_mul] at hs
  obtain ⟨a1, a2⟩ := abs_le.mp h
  obtain ⟨b1, b2⟩ := abs_le.mp hs
  rw [sinFix, abs_le]
  push_cast at a1 a2
  constructor <;> linarith

/-- The cosine may be compared with any number that is not negative: the model's difference is cut at zero. -/
theorem cosFix_error {r : ℕ} {ρ : ℝ} (hρ : (r : ℝ) = ρ * units) (h0 : 0 ≤ ρ) (h3 : ρ ^ 2 ≤ 3) {c : ℝ} (hc : 0 ≤ c) :
    |(cosFix r : ℝ) - c * units| ≤ |Real.cos ρ - c| * units + 300 := by
  have hU := units_pos
  have hterm : expTerm ρ 2 = ρ ^ 2 / 2 := by simp [expTerm]
  have hsq := square_error hρ
  have hfirst : fxOne * (r * r / fxOne) / fxOne = r * r / fxOne := Nat.mul_div_cancel_left _ fxOne_pos
  have ht : |((r * r / fxOne / 2 : ℕ) : ℝ) - expTerm ρ 2 * units| ≤ 6 := by
    obtain ⟨hq, hq'⟩ := floor_div (r * r / fxOne) two_pos
    obtain ⟨a1, a2⟩ := abs_le.mp hsq
    rw [hterm, abs_le]
    push_cast at hq hq'
    constructor <;> linarith
  have h := trigGo_error h0 h3 hsq 39 (k := 2) one_le_two (by rw [hterm]; linarith) ht
  have hs := trigSum_cos h0 h3
  rw [← abs_of_pos hU, ← abs_mul] at hs
  have hval : cosFix r = fxOne - trigGo (r * r / fxOne) 39 2 (r * r / fxOne / 2) := by
    rw [cosFix, trigGo, hfirst]
  rw [hval]
  refine (natSub_error _ _ (mul_nonneg hc hU.le)).trans ?_
  have hcos : |Real.cos ρ * units - c * units| = |Real.cos ρ - c| * units := by rw [← sub_mul, abs_mul, abs_of_pos hU]
  obtain ⟨a1, a2⟩ := abs_le.mp h
  obtain ⟨b1, b2⟩ := abs_le.mp hs
  obtain ⟨c1, c2⟩ := abs_le.mp hcos.le
  rw [fxOne_cast, abs_le]
  push_cast at a1 a2
  constructor <;> linarith

end Sys2Proof.Laws
end

section
/-! ## SIN and COS (R115) -/

namespace Sys2Proof.Laws
open Sys2Proof Sys2Proof.Machine

variable {f : FFmt}

/-! ### Quadrants -/

theorem sin_quadrant (θ : ℝ) (K : ℕ) :
    Real.sin (θ + K * (Real.pi / 2)) = (if 2 ≤ K % 4 then -1 else 1) * (if K % 2 = 1 then Real.cos θ else Real.sin θ) := by
  obtain ⟨a, b, hb, rfl⟩ : ∃ a b, b < 4 ∧ K = b + 4 * a := ⟨K / 4, K % 4, Nat.mod_lt _ (by norm_num), (Nat.mod_add_div K 4).symm⟩
  have h2 : (b + 4 * a) % 2 = b % 2 := by omega
  have h4 : (b + 4 * a) % 4 = b := by omega
  have harg : θ + (b + 4 * a : ℕ) * (Real.pi / 2) = θ + b * (Real.pi / 2) + a * (2 * Real.pi) := by push_cast; ring
  rw [h2, h4, harg, Real.sin_add_nat_mul_two_pi]
  interval_cases b
  · simp
  · simp [Real.sin_add_pi_div_two]
  · rw [show θ + (2 : ℕ) * (Real.pi / 2) = θ + Real.pi by push_cast; ring, Real.sin_add_pi]
    simp
  · rw [show θ + (3 : ℕ) * (Real.pi / 2) = θ + Real.pi / 2 + Real.pi by push_cast; ring, Real.sin_add_pi, Real.sin_add_pi_div_two]
    simp

theorem cos_quadrant (θ : ℝ) (K : ℕ) :
    Real.cos (θ + K * (Real.pi / 2)) = (if K % 4 = 1 ∨ K % 4 = 2 then -1 else 1) * (if K % 2 = 1 then Real.sin θ else Real.cos θ) := by
  obtain ⟨a, b, hb, rfl⟩ : ∃ a b, b < 4 ∧ K = b + 4 * a := ⟨K / 4, K % 4, Nat.mod_lt _ (by norm_num), (Nat.mod_add_div K 4).symm⟩
  have h2 : (b + 4 * a) % 2 = b % 2 := by omega
  have h4 : (b + 4 * a) % 4 = b := by omega
  have harg : θ + (b + 4 * a : ℕ) * (Real.pi / 2) = θ + b * (Real.pi / 2) + a * (2 * Real.pi) := by push_cast; ring
  rw [h2, h4, harg, Real.cos_add_nat_mul_two_pi]
  interval_cases b
  · simp
  · simp [Real.cos_add_pi_div_two]
  · rw [show θ + (2 : ℕ) * (Real.pi / 2) = θ + Real.pi by push_cast; ring, Real.cos_add_pi]
    simp
  · rw [show θ + (3 : ℕ) * (Real.pi / 2) = θ + Real.pi / 2 + Real.pi by push_cast; ring, Real.cos_add_pi, Real.cos_add_pi_div_two]
    simp

/-! ### The reduction modulo π/2 -/

/-- Half of π to p bits, within two units. -/
theorem half_error {p : ℕ} (hp : p ≤ 2 ^ 16) : |((piFix (p + 32) / 2 ^ 33 : ℕ) : ℝ) - Real.pi / 2 * 2 ^ p| ≤ 2 := by
  obtain ⟨a1, a2⟩ := abs_le.mp (piFix_error (p + 32))
  obtain ⟨hq, hq'⟩ := floor_div (piFix (p + 32)) (Nat.two_pow_pos 33)
  have hpr : (p : ℝ) ≤ 2 ^ 16 := by exact_mod_cast hp
  have hpow : (2 : ℝ) ^ (p + 32) = 2 ^ p * 2 ^ 32 := pow_add ..
  rw [hpow] at a1 a2
  push_cast at a1 a2 hq hq'
  have h1 : (piFix (p + 32) : ℝ) / 2 ^ 33 - Real.pi / 2 * 2 ^ p ≤ 1 := by
    rw [sub_le_iff_le_add, div_le_iff₀ (by positivity)]
    linarith
  have h2 : -1 ≤ (piFix (p + 32) : ℝ) / 2 ^ 33 - Real.pi / 2 * 2 ^ p := by
    rw [le_sub_iff_add_le, le_div_iff₀ (by positivity)]
    linarith
  rw [abs_le]
  constructor <;> linarith

/-- The reduced operand in units of 2^-256 against the exact remainder. -/
theorem reduction_error {x : ℝ} {p X H : ℕ} {L : ℕ} (hp : p = 320 + L) (hx : x < 2 ^ (L + 1)) (hX : (X : ℝ) = x * 2 ^ p)
    (hH : |(H : ℝ) - Real.pi / 2 * 2 ^ p| ≤ 2) :
    ∃ ρ : ℝ, ((X % H / 2 ^ (p - 256) : ℕ) : ℝ) = ρ * units ∧ 0 ≤ ρ ∧ ρ ^ 2 ≤ 3 ∧
      |x - (X / H : ℕ) * (Real.pi / 2) - ρ| ≤ 1 / 2 ^ 255 ∧ ρ ≤ Real.pi / 2 + 1 / 2 ^ 255 := by
  have hU := units_pos
  have hbig : (2 : ℝ) ^ 256 = units := rfl
  have hpi := Real.pi_gt_three
  have hpi' := Real.pi_lt_d2
  obtain ⟨hH1, hH2⟩ := abs_le.mp hH
  have hP : (0 : ℝ) < 2 ^ p := by positivity
  have hPL : (2 : ℝ) ^ p = 2 ^ 320 * 2 ^ L := by rw [hp, pow_add]
  have hPbig : (2 : ℝ) ^ 256 ≤ 2 ^ p := pow_le_pow_right₀ one_le_two (by omega)
  have h4 : (4 : ℝ) ≤ 2 ^ p := le_trans (by norm_num) hPbig
  have hHge : (2 : ℝ) ^ p ≤ H := by
    have := mul_le_mul_of_nonneg_right (show (3 : ℝ) / 2 ≤ Real.pi / 2 by linarith) hP.le
    linarith
  have hHpos : 0 < H := by
    have : (0 : ℝ) < H := hP.trans_le hHge
    exact_mod_cast this
  have hdecomp : (X : ℝ) = H * (X / H : ℕ) + (X % H : ℕ) := by exact_mod_cast (Nat.div_add_mod X H).symm
  have hr : ((X % H : ℕ) : ℝ) ≤ H := by exact_mod_cast (Nat.mod_lt X hHpos).le
  have hr0 : (0 : ℝ) ≤ (X % H : ℕ) := Nat.cast_nonneg _
  have hK0 : (0 : ℝ) ≤ (X / H : ℕ) := Nat.cast_nonneg _
  have hK : ((X / H : ℕ) : ℝ) ≤ 2 * 2 ^ L := by
    have h1 : (2 : ℝ) ^ p * (X / H : ℕ) ≤ H * (X / H : ℕ) := mul_le_mul_of_nonneg_right hHge hK0
    have h2 : (2 : ℝ) ^ p * (X / H : ℕ) ≤ 2 ^ p * x := by linarith
    rw [pow_succ] at hx
    linarith [le_of_mul_le_mul_left h2 hP]
  generalize X / H = K at *
  generalize X % H = r at *
  obtain ⟨hq, hq'⟩ := floor_div r (Nat.two_pow_pos (p - 256))
  have hshift : (2 : ℝ) ^ p = ((2 ^ (p - 256) : ℕ) : ℝ) * units := by
    rw [← hbig]
    push_cast
    rw [← pow_add, Nat.sub_add_cancel (by omega)]
  have hd : (0 : ℝ) < ((2 ^ (p - 256) : ℕ) : ℝ) := by positivity
  have hrP : (r : ℝ) / ((2 ^ (p - 256) : ℕ) : ℝ) = r / 2 ^ p * units := by rw [hshift]; field_simp
  rw [hrP] at hq hq'
  generalize r / 2 ^ (p - 256) = R at *
  have hsmall : 4 * 2 ^ L / (2 : ℝ) ^ p ≤ 1 / 2 ^ 256 := by
    rw [hPL, div_le_div_iff₀ (by positivity) (by positivity), one_mul, mul_right_comm]
    refine mul_le_mul_of_nonneg_right ?_ (by positivity)
    rw [show (4 : ℝ) = 2 ^ 2 by norm_num, ← pow_add]
    exact pow_le_pow_right₀ one_le_two (by norm_num)
  have hθ : |x - K * (Real.pi / 2) - r / 2 ^ p| ≤ 1 / 2 ^ 256 := by
    have e : x - K * (Real.pi / 2) - r / 2 ^ p = K * (H - Real.pi / 2 * 2 ^ p) / 2 ^ p := by
      rw [eq_div_iff hP.ne', sub_mul, sub_mul, div_mul_cancel₀ _ hP.ne', ← hX, hdecomp]
      ring
    rw [e, abs_div, abs_mul, abs_of_nonneg hK0, abs_of_pos hP]
    refine le_trans ?_ hsmall
    refine div_le_div_of_nonneg_right ?_ hP.le
    have := mul_le_mul hK hH (abs_nonneg _) (by positivity)
    linarith
  have hRU : (R : ℝ) / units ≤ r / 2 ^ p := (div_le_iff₀ hU).mpr hq
  have hRU' : r / 2 ^ p - 1 / 2 ^ 256 ≤ (R : ℝ) / units := by
    rw [le_div_iff₀ hU, sub_mul, ← hbig, one_div_mul_cancel (by positivity), hbig]
    exact hq'.le
  have hrH : (r : ℝ) / 2 ^ p ≤ Real.pi / 2 + 1 / 2 ^ 255 := by
    rw [div_le_iff₀ hP, add_mul]
    have : (2 : ℝ) ≤ 1 / 2 ^ 255 * 2 ^ p := by
      refine le_trans ?_ (mul_le_mul_of_nonneg_left hPbig (by positivity))
      norm_num
    linarith
  have hρ0 : 0 ≤ (R : ℝ) / units := div_nonneg (Nat.cast_nonneg _) hU.le
  have hρ1 : (R : ℝ) / units ≤ Real.pi / 2 + 1 / 2 ^ 255 := by linarith
  have hsum : (1 : ℝ) / 2 ^ 256 + 1 / 2 ^ 256 ≤ 1 / 2 ^ 255 := by norm_num
  have h255 : (1 : ℝ) / 2 ^ 255 ≤ 1 / 100 := by norm_num
  refine ⟨R / units, (div_mul_cancel₀ _ hU.ne').symm, hρ0, by nlinarith, ?_, hρ1⟩
  obtain ⟨a1, a2⟩ := abs_le.mp hθ
  rw [abs_le]
  constructor <;> linarith

/-! ### The reduced functions -/

/-- Away from the ends of a quadrant, both functions keep away from zero. -/
theorem quadrant_away {θ : ℝ} (h0 : 1 / 2 ^ 128 ≤ θ) (h1 : θ ≤ Real.pi / 2 - 1 / 2 ^ 128) :
    1 / 2 ^ 129 ≤ Real.sin θ ∧ 1 / 2 ^ 129 ≤ Real.cos θ := by
  have hpi := Real.pi_le_four
  have hp := Real.pi_pos
  have hlow {y : ℝ} (hy0 : 1 / 2 ^ 128 ≤ y) (hy1 : y ≤ Real.pi / 2) : 1 / 2 ^ 129 ≤ Real.sin y := by
    have hpos : (0 : ℝ) < 1 / 2 ^ 128 := by positivity
    refine le_trans ?_ (Real.mul_le_sin (by linarith) hy1)
    have hhalf : (1 : ℝ) / 2 ≤ 2 / Real.pi := by rw [div_le_div_iff₀ two_pos hp]; linarith
    calc (1 : ℝ) / 2 ^ 129 = 1 / 2 * (1 / 2 ^ 128) := by norm_num
      _ ≤ 2 / Real.pi * y := mul_le_mul hhalf hy0 hpos.le (by positivity)
  have hpos : (0 : ℝ) < 1 / 2 ^ 128 := by positivity
  refine ⟨hlow h0 (by linarith), ?_⟩
  rw [← Real.sin_pi_div_two_sub]
  exact hlow (by linarith) (by linarith)

/-- The fixed-point value of a reduced function. -/
theorem trigFix_error {r : ℕ} {ρ θ : ℝ} (hρ : (r : ℝ) = ρ * units) (h0 : 0 ≤ ρ) (h3 : ρ ^ 2 ≤ 3) (hθ : |θ - ρ| ≤ 1 / 2 ^ 255)
    (hc : 0 ≤ Real.cos θ) :
    |(sinFix r : ℝ) - Real.sin θ * units| ≤ 2 ^ 10 ∧ |(cosFix r : ℝ) - Real.cos θ * units| ≤ 2 ^ 10 := by
  have hU := units_pos
  have hsmall : 1 / 2 ^ 255 * units = 2 := by rw [units]; norm_num
  have hsin : |Real.sin ρ - Real.sin θ| ≤ 1 / 2 ^ 255 := by
    have := Real.lipschitzWith_sin.dist_le_mul ρ θ
    rw [Real.dist_eq, Real.dist_eq, NNReal.coe_one, one_mul, abs_sub_comm ρ] at this
    exact this.trans hθ
  have hcos : |Real.cos ρ - Real.cos θ| ≤ 1 / 2 ^ 255 := by
    have := Real.lipschitzWith_cos.dist_le_mul ρ θ
    rw [Real.dist_eq, Real.dist_eq, NNReal.coe_one, one_mul, abs_sub_comm ρ] at this
    exact this.trans hθ
  constructor
  · have h := sinFix_error hρ h0 h3
    have hs : |Real.sin ρ * units - Real.sin θ * units| ≤ 2 := by
      rw [← sub_mul, abs_mul, abs_of_pos hU, ← hsmall]
      exact mul_le_mul_of_nonneg_right hsin hU.le
    calc |(sinFix r : ℝ) - Real.sin θ * units| ≤ |(sinFix r : ℝ) - Real.sin ρ * units| + |Real.sin ρ * units - Real.sin θ * units| :=
          abs_sub_le ..
      _ ≤ 2 ^ 10 := by linarith
  · have h := cosFix_error hρ h0 h3 hc
    have := mul_le_mul_of_nonneg_right hcos hU.le
    rw [hsmall] at this
    linarith

/-- A number keeps 2^-128 away from the nonzero multiples of π/2. -/
def AwayFromQuadrants (x : ℝ) : Prop := ∀ j : ℤ, j ≠ 0 → (1 : ℝ) / 2 ^ 128 ≤ |x - j * (Real.pi / 2)|

theorem AwayFromQuadrants.neg {x : ℝ} (h : AwayFromQuadrants x) : AwayFromQuadrants (-x) := fun j hj => by
  have := h (-j) (neg_ne_zero.mpr hj)
  rw [← abs_neg, neg_sub]
  push_cast at this
  rwa [neg_mul, sub_neg_eq_add, add_comm, ← sub_neg_eq_add] at this

/-- An operand's quadrant, its remainder there, and the model's values of the two functions at the remainder. -/
theorem reduced_values {m : ℕ} (hm : m ≠ 0) (h53 : m < 2 ^ 53) {e : ℤ} (he : e ≤ 2048) (hbig : atLeast m e (-30) = true)
    (haway : AwayFromQuadrants (m * 2 ^ e)) {p H X : ℕ} (hp : p = 320 + ((Nat.log2 m : ℤ) + e).toNat)
    (hH : H = piFix (p + 32) / 2 ^ 33) (hX : X = m * 2 ^ (e + (p : ℤ)).toNat) :
    ∃ θ : ℝ, (m : ℝ) * 2 ^ e = θ + (X / H : ℕ) * (Real.pi / 2) ∧ 1 / 2 ^ 129 ≤ Real.sin θ ∧ 1 / 2 ^ 129 ≤ Real.cos θ ∧
      |(sinFix (X % H / 2 ^ (p - 256)) : ℝ) - Real.sin θ * units| ≤ 2 ^ 10 ∧
      |(cosFix (X % H / 2 ^ (p - 256)) : ℝ) - Real.cos θ * units| ≤ 2 ^ 10 := by
  have hx30 := (atLeast_of_value hm).mp hbig
  have hlog : -30 ≤ (Nat.log2 m : ℤ) + e := of_decide_eq_true hbig
  have hk : Nat.log2 m < 53 := (Nat.log2_lt hm).mpr h53
  have hxlt : (m : ℝ) * 2 ^ e < 2 ^ (((Nat.log2 m : ℤ) + e).toNat + 1) := by
    refine (log2_bounds hm e).2.trans_le ?_
    rw [← zpow_natCast]
    exact zpow_le_zpow_right₀ one_le_two (by omega)
  have hXr : (X : ℝ) = m * 2 ^ e * 2 ^ p := by
    rw [hX]
    push_cast
    rw [← zpow_natCast, Int.toNat_of_nonneg (by omega), zpow_add₀ two_ne_zero, zpow_natCast]
    ring
  have hHr : |(H : ℝ) - Real.pi / 2 * 2 ^ p| ≤ 2 := by
    rw [hH]
    exact half_error (by omega)
  obtain ⟨ρ, hρ, h0, h3, hθ, hρ1⟩ := reduction_error hp hxlt hXr hHr
  generalize (m : ℝ) * 2 ^ e = x at *
  generalize X % H / 2 ^ (p - 256) = r at *
  generalize X / H = K at *
  obtain ⟨θ, hdef⟩ : ∃ θ, θ = x - K * (Real.pi / 2) := ⟨_, rfl⟩
  have hsmall : (1 : ℝ) / 2 ^ 255 + 1 / 2 ^ 255 < 1 / 2 ^ 128 := by norm_num
  rw [← hdef] at hθ
  obtain ⟨a1, a2⟩ := abs_le.mp hθ
  have hpos : (0 : ℝ) < 1 / 2 ^ 255 := by positivity
  have hlow : 1 / 2 ^ 128 ≤ θ := by
    rcases Nat.eq_zero_or_pos K with rfl | hK
    · rw [Nat.cast_zero, zero_mul, sub_zero] at hdef
      rw [hdef]
      refine le_trans ?_ hx30
      norm_num
    · have h := haway K (by exact_mod_cast hK.ne')
      rw [Int.cast_natCast, ← hdef] at h
      rcases le_abs'.mp h with h | h <;> linarith
  have hhigh : θ ≤ Real.pi / 2 - 1 / 2 ^ 128 := by
    have h := haway (K + 1 : ℕ) (by exact_mod_cast Nat.succ_ne_zero K)
    have e : x - ((K + 1 : ℕ) : ℤ) * (Real.pi / 2) = θ - Real.pi / 2 := by rw [hdef]; push_cast; ring
    rw [e] at h
    rcases le_abs'.mp h with h | h <;> linarith
  obtain ⟨hs, hc⟩ := quadrant_away hlow hhigh
  have hc0 : 0 ≤ Real.cos θ := le_trans (by positivity) hc
  obtain ⟨hsf, hcf⟩ := trigFix_error hρ h0 h3 hθ hc0
  exact ⟨θ, by rw [hdef]; ring, hs, hc, hsf, hcf⟩

/-- A fixed-point value of a reduced function gives a result within one unit. -/
theorem near_trigFix (hf : IsWide f) {ch : ℕ → Bool} {minus : Bool} {t : ℕ} {W v : ℝ} (hW : 1 / 2 ^ 129 ≤ W) (hW1 : W ≤ 1)
    (ht : |(t : ℝ) - W * units| ≤ 2 ^ 10) (hv : v = (if minus then -1 else 1) * W) :
    f.near 1 v (pickResult f false ch (near minus t fxOne 0)) := by
  have hU := units_pos
  have hbig : (2 : ℝ) ^ 256 = units := rfl
  have hW0 : 0 < W := lt_of_lt_of_le (by positivity) hW
  have habs : |v| = W := by rw [hv, abs_mul, abs_of_pos hW0]; cases minus <;> simp
  rw [near_eq_max]
  refine near_slack hf (W := W * units) ?_ ?_ ?_ ?_ ?_ ?_
  · rw [abs_sub_comm]
    exact ht.trans (by norm_num)
  · rw [Nat.cast_zero]
    positivity
  · rw [fxOne_cast]
    exact mul_le_of_le_one_left hU.le hW1
  · refine le_trans ?_ (mul_le_mul_of_nonneg_right hW hU.le)
    rw [← hbig]
    norm_num
  · rw [habs, mul_assoc, ← hbig]
    norm_num
  · rw [habs, hv]

/-! ### The instructions' values -/

/-- SIN and COS of an operand of 2^-30 and more. -/
theorem near_trig_reduced (hf : IsWide f) {ch : ℕ → Bool} {neg : Bool} {m : ℕ} (hm : m ≠ 0) (h53 : m < 2 ^ 53) {e : ℤ} (he : e ≤ 2048)
    (hbig : atLeast m e (-30) = true) (haway : AwayFromQuadrants (m * 2 ^ e)) :
    f.near 1 (Real.sin (realOf (.fin neg m e))) (pickResult f false ch (trigEncl false neg m e)) ∧
    f.near 1 (Real.cos (realOf (.fin neg m e))) (pickResult f false ch (trigEncl true neg m e)) := by
  obtain ⟨θ, hx, hs, hc, hsf, hcf⟩ := reduced_values hm h53 he hbig haway rfl rfl rfl
  have hbig' : ¬(!atLeast m e (-30)) = true := by rw [hbig]; exact Bool.false_ne_true
  have hpick (b : Bool) : 1 / 2 ^ 129 ≤ (if b then Real.cos θ else Real.sin θ) ∧ (if b then Real.cos θ else Real.sin θ) ≤ 1 := by
    cases b
    · exact ⟨hs, Real.sin_le_one θ⟩
    · exact ⟨hc, Real.cos_le_one θ⟩
  simp only [trigEncl, if_neg hbig']
  generalize 320 + ((Nat.log2 m : ℤ) + e).toNat = p at *
  generalize piFix (p + 32) / 2 ^ 33 = H at *
  generalize m * 2 ^ (e + (p : ℤ)).toNat = X at *
  generalize X % H / 2 ^ (p - 256) = r at *
  generalize X / H = K at *
  have hfix (b : Bool) : |((if b then cosFix r else sinFix r : ℕ) : ℝ) - (if b then Real.cos θ else Real.sin θ) * units| ≤ 2 ^ 10 := by
    cases b
    · exact hsf
    · exact hcf
  have hodd : K % 4 % 2 = K % 2 := by omega
  constructor
  · refine near_trigFix hf (hpick _).1 (hpick _).2 (hfix _) ?_
    have hsin := sin_quadrant θ K
    rw [← hx] at hsin
    rw [hodd]
    cases neg
    · rw [realOf_pos, hsin]
      by_cases h : 2 ≤ K % 4 <;> simp [h]
    · rw [realOf_neg, Real.sin_neg, hsin, ← neg_mul]
      congr 1
      · by_cases h : 2 ≤ K % 4 <;> simp [h]
      · simp
  · refine near_trigFix hf (hpick _).1 (hpick _).2 (hfix _) ?_
    have hcos := cos_quadrant θ K
    rw [← hx] at hcos
    have hev : Real.cos (realOf (.fin neg m e)) = Real.cos (m * 2 ^ e) := by
      cases neg
      · rw [realOf_pos]
      · rw [realOf_neg, Real.cos_neg]
    rw [hev, hcos, hodd]
    rcases Nat.mod_two_eq_zero_or_one K with h | h <;> simp [h]

/-- COS of a smaller operand. -/
theorem near_cos_small (hf : IsWide f) {ch : ℕ → Bool} {neg : Bool} {m : ℕ} (hm : m ≠ 0) {e : ℤ} (hx : (m : ℝ) * 2 ^ e < 1 / 2 ^ 30) :
    f.near 1 (Real.cos (realOf (.fin neg m e)))
      (pickResult f false ch (.between false (sumNum [.fin false 1 0, .fin true (m * m) (2 * e - 1)]) (.fin false 1 0))) := by
  have hx0 := mant_pos hm e
  have hfb : (2 : ℝ) ^ (f.fb + 1) ≤ 2 ^ 53 := pow_le_pow_right₀ one_le_two (fb_lt hf)
  have hsquare : ((m * m : ℕ) : ℝ) * 2 ^ (2 * e - 1) = (m * 2 ^ e) ^ 2 / 2 := by
    rw [zpow_sub_one₀ two_ne_zero, mul_comm 2 e, zpow_mul, mul_pow, zpow_ofNat]
    push_cast
    ring
  have hev : Real.cos (realOf (.fin neg m e)) = Real.cos (m * 2 ^ e) := by
    cases neg
    · rw [realOf_pos]
    · rw [realOf_neg, Real.cos_neg]
  have hlow := Real.one_sub_sq_div_two_le_cos (x := (m : ℝ) * 2 ^ e)
  have hsq : ((m : ℝ) * 2 ^ e) ^ 2 ≤ 1 / 2 ^ 60 := by
    norm_num at hx ⊢
    nlinarith
  norm_num at hsq
  have hpos : 0 < Real.cos (m * 2 ^ e) := by linarith
  obtain ⟨n, g, hn, hn0, hnv⟩ := sumNum_difference (a := 1) (p := 0) (q := 2 * e - 1) one_ne_zero (c := m * m) (by positivity) (by
    rw [hsquare, Nat.cast_one, zpow_zero]
    linarith)
  rw [hsquare, Nat.cast_one, zpow_zero, one_mul] at hnv
  rw [hn, hev]
  refine near_between hf hn0 ?_ ?_ ?_ ?_
  · rw [hnv, abs_of_pos hpos]
    exact hlow
  · rw [abs_of_pos hpos, Nat.cast_one, zpow_zero, one_mul]
    exact Real.cos_le_one _
  · rw [hnv, Nat.cast_one, zpow_zero, one_mul, sub_sub_cancel, le_div_iff₀ (by positivity)]
    refine (mul_le_mul_of_nonneg_left hfb (by positivity)).trans ?_
    norm_num
    linarith
  · rw [if_neg Bool.false_ne_true, one_mul, abs_of_pos hpos]

/-- SIN of a smaller operand. -/
theorem near_sin_small (hf : IsWide f) {ch : ℕ → Bool} {neg : Bool} {m : ℕ} (hm : m ≠ 0) {e : ℤ} (hx : (m : ℝ) * 2 ^ e < 1 / 2 ^ 30) :
    f.near 1 (Real.sin (realOf (.fin neg m e)))
      (pickResult f false ch (.between neg (sumNum [.fin false m e, .fin true (m * m * m) (3 * e - 2)]) (.fin false m e))) := by
  have hx0 := mant_pos hm e
  have hfb : (2 : ℝ) ^ (f.fb + 1) ≤ 2 ^ 53 := pow_le_pow_right₀ one_le_two (fb_lt hf)
  have hcube : ((m * m * m : ℕ) : ℝ) * 2 ^ (3 * e - 2) = (m * 2 ^ e) ^ 3 / 4 := by
    rw [zpow_sub₀ two_ne_zero, mul_comm 3 e, zpow_mul, mul_pow, zpow_ofNat]
    push_cast
    norm_num
    ring
  have hlow := Real.sin_gt_sub_cube hx0
  have hhigh := Real.sin_lt hx0
  have hcu := cube_small hx0.le hx
  norm_num at hcu
  have h3 : 0 < ((m : ℝ) * 2 ^ e) ^ 3 := by positivity
  have hpos : 0 < Real.sin (m * 2 ^ e) := by linarith
  obtain ⟨n, g, hn, hn0, hnv⟩ := sumNum_difference (p := e) (q := 3 * e - 2) hm (c := m * m * m) (by positivity) (by
    rw [hcube]
    linarith)
  rw [hcube] at hnv
  have hev : Real.sin (realOf (.fin neg m e)) = (if neg then -1 else 1) * Real.sin (m * 2 ^ e) := by
    cases neg
    · rw [realOf_pos, if_neg Bool.false_ne_true, one_mul]
    · rw [realOf_neg, Real.sin_neg, if_pos rfl, neg_one_mul]
  have habs : |Real.sin (realOf (.fin neg m e))| = Real.sin (m * 2 ^ e) := by
    rw [hev, abs_mul, abs_of_pos hpos]
    cases neg <;> simp
  rw [hn]
  refine near_between hf hn0 ?_ ?_ ?_ ?_
  · rw [hnv, habs]
    linarith
  · rw [habs]
    exact hhigh.le
  · rw [hnv, sub_sub_cancel, le_div_iff₀ (by positivity)]
    refine (mul_le_mul_of_nonneg_left hfb (by positivity)).trans ?_
    norm_num
    linarith
  · rw [habs, hev]

/-- SIN and COS (R115). -/
theorem near_sin_cos (hf : IsWide f) (k : ℕ) {neg : Bool} {m : ℕ} (hm : m ≠ 0) (h53 : m < 2 ^ 53) {e : ℤ} (he : e ≤ 2048)
    (haway : AwayFromQuadrants (realOf (.fin neg m e))) :
    f.near 1 (Real.sin (realOf (.fin neg m e))) (tfnEval .sin f k (.fin neg m e)) ∧
    f.near 1 (Real.cos (realOf (.fin neg m e))) (tfnEval .cos f k (.fin neg m e)) := by
  obtain ⟨-, -, hsin, hcos, -⟩ := tfnEncl_nonzero (f := f) (neg := neg) hm e
  obtain ⟨ch, hch⟩ := tfnEval_of_encl (f := f) k hsin
  obtain ⟨ch', hch'⟩ := tfnEval_of_encl (f := f) k hcos
  have haway' : AwayFromQuadrants (m * 2 ^ e) := by
    cases neg
    · rwa [realOf_pos] at haway
    · have := haway.neg
      rwa [realOf_neg, neg_neg] at this
  rw [hch, hch']
  by_cases hbig : atLeast m e (-30) = true
  · exact ⟨(near_trig_reduced hf hm h53 he hbig haway').1, (near_trig_reduced hf hm h53 he hbig haway').2⟩
  · have hx : (m : ℝ) * 2 ^ e < 1 / 2 ^ 30 := by
      have := not_le.mp (mt (atLeast_of_value hm).mpr hbig)
      norm_num at this ⊢
      exact this
    have hsmall : (!atLeast m e (-30)) = true := by rw [Bool.not_eq_true] at hbig; rw [hbig]; rfl
    simp only [trigEncl, if_pos hsmall, Bool.false_eq_true, if_false, if_true]
    exact ⟨near_sin_small hf hm hx, near_cos_small hf hm hx⟩

/-- Settles O25: a fixed-point series encloses the real value so narrowly that every choice among its neighbours lies in the bound. -/
theorem transcendentalsAreAccurate : Obligations.TranscendentalsAreAccurate := by
  intro f k b neg m e hf hb hd hm
  obtain ⟨h53, he⟩ := operand_small hf hb hd
  have hx : (((Num.fin neg m e).rat : ℚ) : ℝ) = realOf (.fin neg m e) := rfl
  simp only [hx]
  refine ⟨near_exp2 hf k hm e, ?_, near_tanh hf k hm h53 e, near_sin_cos hf k hm h53 he⟩
  rintro rfl
  rw [realOf_pos]
  exact near_log2 hf k hm h53 e

end Sys2Proof.Laws
end
